-- ==== Sys2Proof/Word.lean ====
section
/-! DEFINITION. Sys2Proof/Word.lean: the word types of the Izgador engine and the shape of its sparse tables. -/

namespace Sys2Proof

/-- A byte of memory or of a frame. -/
abbrev Byte := BitVec 8

/-- A register (R8: the register port is 32 bits wide). -/
abbrev Word := BitVec 32

/-- A 64-bit quantity: handles, GT instants, addresses, tokens. -/
abbrev Dword := BitVec 64

/-- A beat of the joint port (R225). -/
abbrev Beat := BitVec 128

/-- A sparse table: entries in rising order of their key, one for each key. -/
abbrev FMap (α : Type) := List (Nat × α)

end Sys2Proof
end

