-- ==== Sys2Proof/Syntax.lean ====
section
/-! DEFINITION. Sys2Proof/Syntax.lean: the commands of the engine, one constructor for each row of spec/opcode_table.json, and the types of their operands. The table gives its rows no bits; the operands are read from the chapters (log 1). -/

namespace Sys2Proof

/-- R225, R226. One agent request at a joint port: the sideband, the fields of the request beat (Table 8.1) and the following beats. OPCODE is the command's own, but where `undef` names a code: that code is none of Table 8.3 (R249). -/
structure Req where
  slot : BitVec 3
  rid : BitVec 10
  handle : Dword
  gang : BitVec 6
  flags : BitVec 4
  count : BitVec 16
  tag : Word
  beats : List Beat
  undef : Option (BitVec 6) := none
  deriving DecidableEq, Repr

/-- R327. The initiator identity of a register access. -/
structure Actor where
  keeper : Bool
  pid : BitVec 4
  deriving DecidableEq, Repr

/-- R296. A submission ring: ring r of partition p, or the keeper ring. -/
inductive RingId
  | part (p : BitVec 4) (r : BitVec 3)
  | keeper
  deriving DecidableEq, Repr

/-- R8, R296. The owner of a completion ring, a trace ring or a doorbell pair. -/
inductive Owner
  | part (p : BitVec 4)
  | keeper
  deriving DecidableEq, Repr

/-- R322. A ring that the engine writes and a fault can stop: a completion ring or a partition's incident ring. -/
inductive OutRingId
  | cmpl (o : Owner)
  | inc (p : BitVec 4)
  deriving DecidableEq, Repr

/-- R333. A source of drain markers: a joint or a front-end tile. A tile takes FREEZE and sends no marker. -/
inductive FreezeSrc
  | joint (j : BitVec 7)
  | frontEnd (t : BitVec 5)
  | tile (t : BitVec 5)
  deriving DecidableEq, Repr

/-- Table 14.3. The QUIET values that commit together. -/
inductive QuietField
  | salt
  | backing
  | nodeId
  | incBase
  | agent (j : BitVec 7) (s : BitVec 3)
  | ring (r : RingId)
  | cmpl (o : Owner)
  | incRing (p : BitVec 4)
  | trace (o : Owner)
  | tcMode (t : BitVec 5)
  | lfSetup
  | lfRoute (r : BitVec 8)
  deriving DecidableEq, Repr

/-- R471. The levels of the three input pins at one edge of the 25 MHz reference. -/
structure Pins where
  gstopN : Bool
  pwrwarnN : Bool
  tpulse : Bool
  deriving DecidableEq, Repr

/-- R375, R372. What an uncorrectable error or a state check of a tile hit; `corrected` is a single-bit error, which hits nothing. -/
inductive TileHit
  | corrected
  | check
  | brick (index : BitVec 24)
  | granule (index : BitVec 24)
  | waiter (index : BitVec 24)
  | tags
  | trace
  | linkBuffer
  deriving DecidableEq, Repr

/-- R376. What the self-test of a tile found: a pass, a failing row of one array, or any other failure. -/
inductive TestResult
  | pass
  | row (array : BitVec 2) (row : BitVec 13)
  | fails
  deriving DecidableEq, Repr

/-- R64, R373. What an access to the backing store brings beside its status: the address that faulted, and the record that was read where software has written the region. -/
structure StoreRead where
  addr : Dword
  record : Option (BitVec 512)
  deriving DecidableEq, Repr

/-- R31. A flit error: the output port at which it shows, and whether it is a double-bit one. -/
structure FlitError where
  port : BitVec 3
  double : Bool
  deriving DecidableEq, Repr

/-- The commands of the block, one for each row of spec/opcode_table.json. A Nat operand named hod or report picks one of the hods or reports that State holds (log 1). -/
inductive Instr
  /-- R97. Agent request 0x01 that counts c arrivals of a member agent towards the open or next course of a barrier. -/
  | arrive (joint : BitVec 7) (req : Req)
  /-- R102. Agent request 0x02 that counts arrivals like ARRIVE and pends until the course it counted towards closes. -/
  | arriveWait (joint : BitVec 7) (req : Req)
  /-- R108. Agent request 0x03 that waits for a target course; it is answered from the bed, forwarded to the home tile or pended. -/
  | wait (joint : BitVec 7) (req : Req)
  /-- R102. Agent request 0x04 that reports without waiting whether a barrier target, lock, semaphore, pallet or event is ready. -/
  | test (joint : BitVec 7) (req : Req)
  /-- R149. Agent request 0x08 that takes n from a semaphore, queueing at level PRIO when the take cannot be granted at once. -/
  | semTake (joint : BitVec 7) (req : Req)
  /-- R149. Agent request 0x09 that takes n from a semaphore only when the take would be granted at once, and otherwise answers BUSY. -/
  | semTry (joint : BitVec 7) (req : Req)
  /-- R149. Agent request 0x0A that adds n to a semaphore count and runs the grant loop. -/
  | semGive (joint : BitVec 7) (req : Req)
  /-- R138. Agent request 0x10 that acquires a lock or queues for it at level PRIO. -/
  | lockAcq (joint : BitVec 7) (req : Req)
  /-- R138. Agent request 0x11 that acquires a lock only when it would be granted at once. -/
  | lockTry (joint : BitVec 7) (req : Req)
  /-- R138. Agent request 0x12 that releases a held lock, either handing it off to the head waiter or freeing it. -/
  | lockRel (joint : BitVec 7) (req : Req)
  /-- R163. Agent request 0x18 that appends 0 to 8 tokens to a pallet stripe. -/
  | tokPut (joint : BitVec 7) (req : Req)
  /-- R163. Agent request 0x19 that takes up to 16 tokens from a pallet, sweeping sibling stripes or pending when the stripe is empty. -/
  | tokGet (joint : BitVec 7) (req : Req)
  /-- R163. Agent request 0x1A that takes tokens like TOK_GET but answers OK_EMPTY instead of pending. -/
  | tokTryget (joint : BitVec 7) (req : Req)
  /-- R126. Agent request 0x20 that sets an event and sends a release to every joint in WAITJ. -/
  | evtSet (joint : BitVec 7) (req : Req)
  /-- R126. Agent request 0x21 that waits until an event is set. -/
  | evtWait (joint : BitVec 7) (req : Req)
  /-- R126. Agent request 0x22 that clears an event. -/
  | evtClear (joint : BitVec 7) (req : Req)
  /-- R228. Agent request 0x30 that returns the state of a brick of any type. -/
  | query (joint : BitVec 7) (req : Req)
  /-- R237. The agent's seal acknowledge arrives, and the joint forwards the held release-class request or applies it to the bed. -/
  | sealAck (joint : BitVec 7) (slot : BitVec 3)
  /-- R99. The home tile takes an arrival hod and adds it to COUNT when it is for the open course, or to AHEAD for a lintel child's next course. -/
  | arrivalHod (hod : Nat)
  /-- R32. A branch router combines the arrival hods of its subtree and forwards one combined hod upward. -/
  | branchCombine (hod : Nat)
  /-- R101. A joint takes a release copy for its bed, rolls the member counts forward and completes the waits that the release satisfies. -/
  | releaseCopy (hod : Nat)
  /-- R110. A watcher joint takes a release copy and completes the WAITs that it satisfies. -/
  | watcherCopy (hod : Nat)
  /-- R109. The home tile takes a forwarded WAIT and either answers it or enters the joint in a WATCH slot. -/
  | forwardedWait (hod : Nat)
  /-- R110. The home tile takes an unwatch hod and frees the joint's watcher slot. -/
  | unwatch (hod : Nat)
  /-- R121. The joint's GT reaches the aligned or staggered release instant, and the held responses are delivered. -/
  | alignedReleaseInstant (joint : BitVec 7)
  /-- R112. GT reaches DL_AT with the course still open; pending waits end TIMEOUT and the home tile sends a sweep down the tree. -/
  | barrierDeadlineExpiry (index : BitVec 24)
  /-- R112. A member joint takes the deadline sweep hod and answers with the mask of its agents still missing. -/
  | sweepHod (hod : Nat)
  /-- R113. The home tile collects the sweep answers and raises one TIMEOUT incident with the maps of missing members. -/
  | sweepAnswers (index : BitVec 24)
  /-- R115. The joint of a departing agent discards its unforwarded arrivals, removes it from its beds and sends shrink hods and departure reports. -/
  | agentDeparture (agent : BitVec 10)
  /-- R115. The home tile takes a shrink hod and applies SHRINK or POISON under the DEPART policy in force. -/
  | shrinkHod (hod : Nat)
  /-- R143. A tile takes a departure report; it abandons the locks that the agent holds and removes the agent's waiters. -/
  | departureReport (hod : Nat)
  /-- R151. GT reaches the DL_AT of a queued lock or semaphore waiter; the waiter is removed and answered TIMEOUT. -/
  | waitDeadlineExpiry (index : BitVec 24) (agent : BitVec 10) (gang : BitVec 6)
  /-- R495. The joint takes a response, grant or release hod, delivers the responses it completes in slot order and presents WAKE hints. -/
  | responseHod (hod : Nat)
  /-- R245. The scheduler accepts a hint beat from the joint's hint FIFO, which frees a FIFO entry. -/
  | hintAccept (joint : BitVec 7)
  /-- R164. A joint takes a nudge from a pallet stripe and re-sends its oldest pending TOK_GET. -/
  | nudge (hod : Nat)
  /-- R167. A sweep hod visits a sibling stripe, which either delivers stolen tokens or marks itself hungry and passes the sweep on. -/
  | palletSweep (hod : Nat)
  /-- R168. A hungry sibling stripe takes a put forwarded to it, or returns the tokens when it has no room or is faulted. -/
  | forwardedPut (hod : Nat)
  /-- R165. The memory port reports a stripe's ring write complete; the tokens count in PUTS and the put is answered. -/
  | ringWriteDone (index : BitVec 24) (stripe : BitVec 3)
  /-- R166. A head-cache refill read completes, and the gets waiting for it are served. -/
  | refillDone (index : BitVec 24) (stripe : BitVec 3)
  /-- R173. A pallet ring write or refill read faults; the stripe sets FAULT, holds the access and raises XLATE_FAULT. -/
  | palletRingFault (index : BitVec 24) (stripe : BitVec 3) (refill : Bool) (addr : Dword)
  /-- R175. An idle tile takes the oldest stealable item from a busy tile within RADIUS hops. -/
  | mgmtSteal (thief victim : BitVec 5)
  /-- R23. A brick fetch from the backing store completes, and the operations parked on it run in arrival order. `record` is what the read returned where software has written the record (R64). -/
  | fetchComplete (index : BitVec 24) (sstatus : BitVec 2) (read : StoreRead)
  /-- R67. A waiting fetch proceeds in the first cycle in which a slot of the tile becomes free or evictable. -/
  | fetchSlotFree (tile : BitVec 5)
  /-- R373. Every 100 µs of GT the engine retries a fetch or write-back held by a backing-store fault. -/
  | backstoreRetry (index : BitVec 24) (sstatus : BitVec 2) (read : StoreRead)
  /-- R74. A mirror tile takes a state-change hod from the home tile, applies it and acknowledges it. -/
  | mirrorUpdate (hod : Nat)
  /-- R74. The home tile takes the mirror's acknowledgement and issues the release, grant or response that waited for it. -/
  | mirrorAck (hod : Nat)
  /-- R204. The joint takes a bounce hod and re-sends the contribution 64 tile cycles later. -/
  | bounce (hod : Nat)
  /-- R120. At a bond commit the home tile sends a timed probe and sets PATH from the joints' answers. -/
  | pathProbe (index : BitVec 24) (delay : Nat)
  /-- R55. Descriptor 0x40 that allocates COUNT bricks all or nothing and writes the handle list. -/
  | brickAlloc (ring : RingId)
  /-- R59. Descriptor 0x41 that frees bricks in list order under Table 2.6. -/
  | brickFree (ring : RingId) (list : List Dword)
  /-- R94. Descriptor 0x42 that arms a barrier or shadows its deadline, departure and release settings. -/
  | barrierArm (ring : RingId)
  /-- R92. Descriptor 0x43 that installs a bond, its beds and its combining tree, at once or at the next boundary. -/
  | bondSet (ring : RingId) (list : List Dword)
  /-- R185. Descriptor 0x44 that configures grout format, operation and mode and binds granules. -/
  | groutCfg (ring : RingId)
  /-- R189. Descriptor 0x45 that loads or unloads a DOT weight table. -/
  | weightLoad (ring : RingId) (table : List Byte)
  /-- R255. Descriptor 0x46 that attaches or detaches a lintel child, uplink or twin. -/
  | lintelLink (ring : RingId)
  /-- R158. Descriptor 0x47 that configures a pallet's ring and stripes, or resumes its faulted stripes. -/
  | palletCfg (ring : RingId)
  /-- R312. Descriptor 0x48 that writes the records of the named bricks to memory. -/
  | snapshot (ring : RingId) (list : List Dword)
  /-- R313. Descriptor 0x49 that completes OK and changes nothing. -/
  | nop (ring : RingId)
  /-- R311. Descriptor 0x4A that takes targets on the named rings and holds its own ring until they pass them. -/
  | orderFence (ring : RingId)
  /-- R311. The named rings reach their targets, and the waiting ORDER_FENCE completes. -/
  | orderFencePassed (ring : RingId)
  /-- R333. Descriptor 0x50 that freezes a partition and optionally writes its context area and releases its resources. -/
  | ctxSave (ring : RingId)
  /-- R345. Descriptor 0x51 that restores a saved or frozen partition and replays its backlog. `area` is what its reads of the context area return: the header, then the regions after the backlog. -/
  | ctxRestore (ring : RingId) (area : List Byte)
  /-- R381. Descriptor 0x52 that fences or lifts the fence of an agent, physical tile or local port. -/
  | fenceUnit (ring : RingId)
  /-- R380. Descriptor 0x53 that moves a logical tile to a physical tile by keeper command. -/
  | repoint (ring : RingId)
  /-- R306. The front-end tile reads up to 16 descriptors that an accepted doorbell covers. -/
  | fetchBatch (ring : RingId) (descs : List (BitVec 512))
  /-- R320. A translation fault on an access made for a descriptor stops its ring with an XLATE_FAULT completion and incident. -/
  | descriptorXlateFault (ring : RingId) (addr : Dword)
  /-- R322. A completion or incident-record write faults; the ring stops and the entry is held. -/
  | completionWriteFault (ring : OutRingId) (addr : Dword)
  /-- R319. A held completion is written once the completion ring has room or has resumed. -/
  | heldCompletionWrite (owner : Owner)
  /-- R318. The µs merge window ends, and the merged completion interrupt of the partition is sent. -/
  | irqMergeExpiry (owner : Owner) (incident : Bool)
  /-- R301. A write of PW_DB_LO or KP_DB_LO latches the doorbell COUNT. -/
  | dbLoWrite (actor : Actor) (owner : Owner) (value : Word)
  /-- R303. A PW_DB_HI write with RING 0 to 7 sets the new TAIL of a submission ring, once accepted. -/
  | doorbellSubmit (actor : Actor) (owner : Owner) (value : Word)
  /-- R303. A doorbell with RING 8 sets the new HEAD of the completion ring. -/
  | doorbellCmplHead (actor : Actor) (owner : Owner) (value : Word)
  /-- R303. A doorbell with RING 9 sets the new HEAD of the incident ring. -/
  | doorbellIncHead (actor : Actor) (owner : Owner) (value : Word)
  /-- R304. The RESUME bit of a doorbell restarts a ring that a fault has stopped, at its INDEX. -/
  | resume (actor : Actor) (owner : Owner) (value : Word)
  /-- R333. A joint, front-end tile or tile takes FREEZE(p), answers later requests SUSPENDED and sends a drain marker. -/
  | freeze (src : FreezeSrc) (part : BitVec 4)
  /-- R333. A tile takes a drain marker; once markers from every source are in, the partition becomes FROZEN. -/
  | drainMarker (tile : BitVec 5) (src : FreezeSrc) (part : BitVec 4)
  /-- R342. A tile passes a hod for a suspended brick to the partition's backlog, or answers REFUSE RETRY when the backlog is full. -/
  | backlogHod (hod : Nat) (fault : Option Dword)
  /-- R260. A parent lintel takes a child's combined arrival and partial for a course. -/
  | arriveUp (hod : Nat)
  /-- R258. A lintel brick takes a RELEASE hod for its open course, closes the course and passes the release down. -/
  | lintelRelease (hod : Nat)
  /-- R270. A twin lintel takes the root's TWIN hod and closes its open course. -/
  | twin (hod : Nat)
  /-- R261. A parent takes a child's departure and applies SHRINK or POISON to it. -/
  | departUp (hod : Nat)
  /-- R263. A lintel brick takes a POISON hod, applies R118 and forwards it to its other peers. -/
  | poison (hod : Nat)
  /-- R265. A lintel brick takes a SWEEP, ends its pending waits with TIMEOUT and forwards it to its children. -/
  | sweep (hod : Nat)
  /-- R266. A lintel brick takes a PROBE, forwards it to its children and probes its own joints. -/
  | probe (hod : Nat)
  /-- R266. A lintel brick takes the latest delivery instant of a subtree. -/
  | probeAns (hod : Nat)
  /-- R275. A lintel brick takes a REFUSE of its hod and re-sends it, backs off, or treats the refusal as a departure or cut. -/
  | refuse (hod : Nat)
  /-- R276. The back-off after a REFUSE RETRY ends, and the hod is re-sent. -/
  | refuseRetryBackoff (hod : Nat)
  /-- R369. A time parent takes an INCIDENT hod, enters it as a HALL report and forwards it unless it is the time root. -/
  | incidentHod (hod : Nat)
  /-- R279. A receiver takes a DATA frame that passes the tag check and delivers its hods in order. -/
  | data (frame : List Byte) (err : Bool)
  /-- R280. A sender takes a standalone ACK frame, advances its acknowledged window and retransmits at once on NAK. -/
  | ack (frame : List Byte) (err : Bool)
  /-- R278. A receiver takes SYNC, adopts the new epoch and answers with ACK; both sides then replay. -/
  | sync (frame : List Byte) (err : Bool)
  /-- R279. Within 1 µs of an unacknowledged receipt, a standalone ACK frame is sent. -/
  | standaloneAckTimer (route : BitVec 8)
  /-- R280. The link retransmit timer expires; the sender resends all unacknowledged frames and cuts the link at LIMIT retries. -/
  | retransmitExpiry (route : BitVec 8)
  /-- R417. A receiver takes a hold frame and stops the link's timers until another frame arrives or HOLDMAX passes. -/
  | hold (frame : List Byte) (err : Bool)
  /-- R417. HOLDMAX passes with the peer still holding, and the link is cut. -/
  | holdmaxExpiry (route : BitVec 8)
  /-- R287. A TIME frame is taken: the parent records t2 and replies, or the requester records t4. -/
  | time (frame : List Byte) (err : Bool) (die : Option (BitVec 3))
  /-- R287. At 10 µs intervals of a measurement the requester sends the next TIME exchange. -/
  | timeExchangeSend
  /-- R289. An exchange has no reply after 100 µs of GT and becomes unanswered. -/
  | timeExchangeTimeout (exchange : Nat)
  /-- R288. When every exchange is answered or unanswered, the engine writes θ and δ and optionally steps GT. -/
  | offsetResult
  /-- R272. An uncorrectable die-to-die error signalled on F_D2D_ERR cuts every package link to that die. -/
  | d2dErr (die : BitVec 3)
  /-- R277. F_PAUSE under 802.1Qbb holds transmission and stops link timers when PFC is 1. -/
  | pause (level : Bool)
  /-- R272. A bare hod record arrives on the package stream from another die. -/
  | packageRecord (die : BitVec 3) (record : List Byte)
  /-- R361. The incident unit takes a report and coalesces it into an open entry or opens a new entry. -/
  | incidentReport (report : Nat)
  /-- R362. A new incident NUMBER returns to the source unit, and the operations waiting for it are answered. -/
  | incidentNumberReturn (report : Nat)
  /-- R363. An ERROR or NOTICE entry closes after HOLD ms of GT without a matching report. -/
  | incidentHoldClose (entry : BitVec 7)
  /-- R364. The engine writes an entry's slot in the keeper's incident table after a COUNT change, at most once per µs. -/
  | incidentTableWrite (entry : BitVec 7) (sstatus : BitVec 2)
  /-- R366. A waiting partition copy of a record is written once the partition's incident ring accepts it. -/
  | incidentCopyWrite (entry : BitVec 7) (part : BitVec 4)
  /-- R363. Keeper write that closes the open incident entry with the given number. -/
  | kpIncClose (value : Word)
  /-- R31. A router discards a hod that has a double-bit flit error and raises an incident; it corrects and counts a single-bit one (`double` false). -/
  | meshEcc (hod : Nat) (router : BitVec 8) (port : FlitError)
  /-- R247. The joint has waited more than 1,024 tile cycles for response acceptance or SEAL_ACK and raises one ERROR incident. -/
  | jointStall (joint : BitVec 7)
  /-- R374. An uncorrectable SRAM error or state check holds the tile and starts its self-test. -/
  | tileFault (tile : BitVec 5) (hit : TileHit)
  /-- R376. The self-test ends with outcome 0 to 3: the tile resumes, repairs a row, is repointed or is fenced. -/
  | selfTestDone (tile : BitVec 5) (result : TestResult)
  /-- R385. PWRWARN_N passes its filter; the engine drains, freezes, opens the POWER record and optionally writes the brick image. -/
  | powerFailWarning
  /-- R415. GSTOP_N passes its filter low with PINEN set, and the instance stops. -/
  | globalStopPin
  /-- R415. Keeper write of KP_STOP.STOP that stops the instance. -/
  | kpStopStop (value : Word)
  /-- R418. Keeper write of KP_STOP.GO that resumes the instance at once or at KP_GO_AT, advancing timers by Δ. -/
  | kpStopGo (value : Word)
  /-- R418. GT reaches KP_GO_AT with a timed GO pending, and the instance resumes. -/
  | goAtReached
  /-- R432. The THROTTLE level changes, and the tile clock switches to half or full frequency. -/
  | throttle (level : Bool)
  /-- R425. P changes by 2 or more between two periods; tiles write CLOCK records, scale PATH and unlock. -/
  | clockChange
  /-- R441. Release of A_COLDRST_N puts every register and store into the cold-reset state. -/
  | coldReset
  /-- R455. J_AGRST held for 4 tile cycles resets the agent in that slot and makes it depart. -/
  | agentReset (joint : BitVec 7) (slot : BitVec 3) (level : Bool)
  /-- R400. A filtered rising TPULSE edge captures GT − 3,520 into KP_TPCAP and sets CAPV. -/
  | tpulseInput
  /-- R400. GT reaches a 1 Hz or 1 kHz multiple, and TPULSE rises for 10 µs. -/
  | tpulseOutput
  /-- R428. A tile has been idle for IDLE µs of GT and enters sleep. -/
  | tileSleep (tile : BitVec 5)
  /-- R430. A hod reaching a sleeping tile's router wakes the tile. -/
  | tileWakeHod (tile : BitVec 5)
  /-- R429. The wake comparator fires 320 ns of GT before a sleeping tile's earliest DL_AT. -/
  | wakeComparator (tile : BitVec 5)
  /-- R442. Keeper write of KP_CTL.ENABLE that powers and scrubs the tiles in groups. -/
  | kpCtlEnable (value : Word)
  /-- R442. The last tile group finishes its scrub, and KP_STATUS.READY becomes 1. -/
  | tilesReady
  /-- R445. Keeper write of KP_CTL.WARM that performs the instance warm reset. -/
  | kpCtlWarm (value : Word)
  /-- R353. Keeper write of PD_PCTL.RESET that resets a partition and frees its bricks. -/
  | pdPctlReset (part : BitVec 4) (value : Word)
  /-- R398. Keeper write of KP_GT_STEP_HI that requests a signed step of GT. -/
  | kpGtStepHi (value : Word)
  /-- R398. A requested GT step is applied as a jump at a reference edge, or absorbed by slewing. -/
  | gtStepApply
  /-- R287. Keeper write of LF_TCTL.START that starts an offset measurement. -/
  | lfTctlStart (value : Word)
  /-- R379. Keeper write of KP_REPAIR_CTL.REMEASURE that makes affected bricks measure PATH again at their next boundary. -/
  | kpRepairRemeasure (value : Word)
  /-- R388. Keeper write of KP_ROWFIX that applies a spare row to an unpowered tile array. -/
  | kpRowfix (value : Word)
  /-- R413. Keeper write of TC_CTL.TRIG that fires the trigger. -/
  | tcCtlTrig (value : Word)
  /-- R413. The instance trigger fires from an incident, stop, TC_TRIG_AT or TAG match, and is broadcast to every tile. -/
  | trigger (source : BitVec 3)
  /-- R413. Keeper write of TC_CTL.REARM that empties the buffers, unfreezes the counters and re-arms the trigger. -/
  | tcCtlRearm (value : Word)
  /-- R412. Keeper write of TC_CTL.RESUME that restarts the keeper trace ring. -/
  | tcCtlResume (value : Word)
  /-- R411. Keeper write of TC_CTL.FLUSH that drains every trace buffer now. -/
  | tcCtlFlush (value : Word)
  /-- R401. Keeper write of TC_CTL.CLRCTR that clears every counter of the instance. -/
  | tcCtlClrctr (value : Word)
  /-- R408. Keeper write of TC_MARK_HI that emits a MARK record on every tile. -/
  | tcMarkHi (value : Word)
  /-- R404. Keeper write of TC_CSEL that latches the selected counter into TC_CDATA. -/
  | tcCsel (value : Word)
  /-- R403. Partition write of PW_OBSCTL.CLEAR that clears the window's 16 counters. -/
  | pwObsctlClear (actor : Actor) (part : BitVec 4) (value : Word)
  /-- R412. Partition write of PW_OBSCTL.RESUME that restarts the partition trace ring. -/
  | pwObsctlResume (actor : Actor) (part : BitVec 4) (value : Word)
  /-- R403. A read of PW_CTR[0] copies all 16 partition counters into the read shadow. -/
  | pwCtrShadowRead (actor : Actor) (part : BitVec 4)
  /-- R479. A _LO read of a multi-word register latches its _HI half for the same reader. -/
  | pairLoRead (actor : Actor) (offset : BitVec 20)
  /-- R435. A _LO write of a LIVE register pair latches the value until the _HI write applies the 64-bit value. -/
  | pairLoWrite (actor : Actor) (offset : BitVec 20) (value : Word)
  /-- R479. The write of word 7 or 11 of LF_KEY replaces a slot key as one 128-bit value. -/
  | lfKeyWrite (actor : Actor) (offset : BitVec 20) (value : Word)
  /-- R12. A write to a register that has no row of its own sets its fields under their access codes and classes. -/
  | registerWrite (actor : Actor) (offset : BitVec 20) (value : Word)
  /-- R437. A pending QUIET value commits in the first cycle in which its quiescence condition holds. -/
  | quietCommit (field : QuietField)
  /-- R414. A tile drains buffered trace records to their rings on OBS as its budget bucket allows. -/
  | traceDrain (tile : BitVec 5)
  /-- R412. A trace-ring write faults; the ring stops and raises XLATE_FAULT. -/
  | traceRingFault (owner : Owner) (addr : Dword)
  /-- R393. At each rising edge of the 25 MHz reference the always-on domain advances GT by 640 units (320 while slewing), and tiles re-measure P and relock. -/
  | referenceEdge (cycles : Nat) (pins : Pins)
  /-- R247. The agent accepts a response beat on J_PVALID/J_PREADY, freeing the joint's response buffer so it takes RSP hods again. -/
  | responseAccept (joint : BitVec 7)
  /-- R272. An F_D2D_ERR bit falls after Artevar lane repair, and the package links to that die restart. -/
  | d2dErrClear (die : BitVec 3)
  /-- R475. A memory response arrives whose M_STAG matches no outstanding request; it is ignored and an ENGINE incident is raised. -/
  | unmatchedMStag (tag : BitVec 11)
  /-- R372. An uncorrectable error in the always-on domain, incident unit or repair map opens a FATAL ENGINE incident and drives INC_N low. -/
  | engineEccError (tile : Option (BitVec 6)) (offset : BitVec 20)
  /-- R374. A sender whose REQ or MGMT hod was sent back by a held tile's router re-sends it after 256 tile cycles. -/
  | returnedHodResend (hod : Nat)
  /-- R368. At most once per ms of GT after a COUNT change, an instance sends a further INCIDENT hod for a Hall-kind entry to its time parent. -/
  | hallIncidentResend (entry : BitVec 7)
  deriving DecidableEq, Repr

end Sys2Proof
end

