-- ==== Sys2Proof/Decode.lean ====
section
/-! DEFINITION. Sys2Proof/Decode.lean: the commands that words spell. spec/opcode_table.json gives its rows no bits (the rows are commands of a block), so that no word spells a command. -/

namespace Sys2Proof

/-- The command that the low nbits bits of w spell by the table's bits: the table gives no row bits, so none. -/
def decodeTableWord (_nbits _w : Nat) : Option Instr := none

end Sys2Proof
end

