-- ==== Sys2Proof/Config.lean ====
section
/-! DEFINITION. Sys2Proof/Config.lean: the counts and sizes that the spec fixes for every instance, and the free values, which nothing in the model constrains (log 6). -/

namespace Sys2Proof.Config

/-- R1. KP_ID. -/
def kpId : Word := 0x49470301#32

/-- R20. Slots of a tile's brick store. -/
def slotsPerTile : Nat := 8192

/-- R66. Held slots of a tile, at most. -/
def heldLimit : Nat := 7680

/-- R20. Grout granules of a tile. -/
def granulesPerTile : Nat := 4096

/-- R79. Granules of an instance. -/
def granuleTotal : Nat := 131072

/-- R129. Entries of a tile's waiter store. -/
def waiterStore : Nat := 4096

/-- R68. Fetches outstanding at a tile, at most. -/
def fetchLimit : Nat := 64

/-- R90. Beds of a joint. -/
def bedsPerJoint : Nat := 256

/-- R230. Reserved entries of a slot, and the entries that a joint's slots share. -/
def reservedEntries : Nat := 64

def sharedEntries : Nat := 512

/-- R162. Entries of a joint's stripe cache. -/
def stripeCache : Nat := 32

/-- R245, R247. Hint FIFO entries and response buffer beats of a joint. -/
def hintFifo : Nat := 32

def responseBeats : Nat := 64

/-- R32. Combining entries of a router. -/
def combEntries : Nat := 64

/-- R278. Unacknowledged DATA frames of a link, at most. -/
def linkWindow : Nat := 32

/-- R278. Bytes of the link buffer of a lintel-capable tile. -/
def linkBuffer : Nat := 131072

/-- R342. Backlog entries of a partition. -/
def backlogSlots : Nat := 256

/-- Log 6. The entry of the waiter store that a queued waiter takes: the spec does not say which free entry (R130, R346). The argument is the state's counter of free values. -/
opaque freeWaiterEntry : Nat → BitVec 12

/-- Log 6. The code of R24's ECC field: SECDED over bits [79:0] of a flit, by a matrix that the spec does not give. -/
opaque flitEcc : BitVec 80 → BitVec 8

/-- Log 6. The route and control field of flit n of a hod between two local ports on a channel, whose layout the spec does not give (R24). -/
opaque flitControl : Nat → Nat → Nat → Nat → BitVec 16

/-- Log 6. The second payload flit of a hod, which carries the request or response fields beside the handle in an order that the spec does not give (R27). -/
opaque hodFields : Nat → Dword

/-- Log 6. A value the spec leaves open, one for each turn of the state's counter. -/
opaque freeDword : Nat → Dword

/-- Log 6. The tag of the n-th request at the memory port: the spec does not say which of the tags not outstanding it takes (R460, R461). -/
opaque memTag : Nat → BitVec 11

/-- Log 6. The check bits of a 64-bit word of an SRAM, read raw by an instrument (R419): the spec gives no matrix. -/
opaque sramEcc : BitVec 64 → BitVec 8

end Sys2Proof.Config
end

