-- ==== Sys2Proof/Machine/State.lean ====
section
/-! DEFINITION. Sys2Proof/Machine/State.lean: everything the spec gives one instance of the engine, as plain data, the queue of commands that wait, and the state after reset. Env is what the data path only reads (configuration registers, time, stop, repair map, links' set-up); Dp is what the commands of the data path change. -/

namespace Sys2Proof.Machine

/-! ### Codes -/

/-- Table 8.6 (R236): the status codes of responses and completions. -/
inductive Status
  | ok | okAbandoned | okShrunk | okEmpty | busy
  | badHandle | badType | badCount | access | quota | badGrout | notOwner
  | timeout | poisoned | fenced | suspended | xlateFault | lost | retry
  deriving DecidableEq, Repr

/-- Table 8.3 (R228): the agent operations. -/
inductive AOp
  | arrive | arriveWait | wait | test
  | semTake | semTry | semGive
  | lockAcq | lockTry | lockRel
  | tokPut | tokGet | tokTryget
  | evtSet | evtWait | evtClear | query
  deriving DecidableEq, Repr

/-- Table 2.1 (R41): the brick types. -/
inductive BType
  | barrier | semaphore | lock | pallet | event
  deriving DecidableEq, Repr

/-- Table 1.3: the virtual channels of the mortar net. -/
inductive VC
  | rsp | req | mgmt | obs
  deriving DecidableEq, Repr

/-- R25: what a local port of the mortar net attaches, and a router as the place of a combining entry. Tiles are logical. -/
inductive Port
  | joint (j : Nat)
  | tile (t : Nat)
  | router (r : Nat)
  | fabric
  | keeper
  deriving DecidableEq, Repr

/-- Table 11.3 (R332): the states of a partition. -/
inductive PState
  | run | freezing | frozen | saved | restoring | resetting
  deriving DecidableEq, Repr

/-- Table 10.1 (R298): the states of a ring. -/
inductive RState
  | disabled | running | stopped
  deriving DecidableEq, Repr

/-- Table 12.4 (R360): the incident kinds. -/
inductive IncKind
  | access | timeout | depart | poison | partial_ | xlateFault | doorbell | auth | uplink | linkCut
  | jointStall | meshEcc | tileFault | fence | sparesOut | mirrorGap | config | staleHod
  | backstore | power | engine | overflow | fatalOvf
  deriving DecidableEq, Repr

/-- Table 12.1 (R357): the incident classes. -/
inductive IncClass
  | notice | error | fatal
  deriving DecidableEq, Repr

/-! ### The integrator's fixed choices -/

/-- What the integrator fixes (R25, R26, R452, R469, R483): the local port of each unit as router x 8 + port with router = row x 12 + column (Table 12.3), repeater stages, tie-offs. A unit that a table leaves out has the place of log 4. No command changes it. -/
structure Integration where
  stages : Nat
  tilePorts : FMap Nat
  jointPorts : FMap Nat
  fabricPort : Nat
  memoryPort : Nat
  keeperPort : Nat
  die : BitVec 3
  present : FMap (BitVec 8)
  classes : FMap (BitVec 24)
  deriving DecidableEq, Repr

/-! ### Time, stop, power, keeper registers -/

/-- R471. One filtered input pin: the filtered level and the consecutive samples that differ from it. -/
structure Filter where
  level : Bool
  differ : Nat
  deriving DecidableEq, Repr

/-- Global time, the tile clock as GT measures it, THROTTLE and TPULSE (R393 to R400, R425, R432). per is P of the last full period and perHalf the level of THROTTLE in force in it (R432), perOld and oldHalf those to which PATH is scaled, mixed that the last period may have ended at another clock than it began, settle the coming edges that end no full period at the clock in force, gtPrev GT before the last edge, edgeCyc and cyc the tile cycles up to and since the last edge. tpRise, gstopFell and pwrFell are filtered edges of the pins not yet acted on. -/
structure Clock where
  gt : Dword
  gtPrev : Dword
  slew : Nat
  stepReq : Option Int
  stepLo : Word
  cyc : Nat
  per : Nat
  perOld : Nat
  edgeCyc : Nat
  changed : Bool
  mixed : Bool := false
  perHalf : Bool := false
  oldHalf : Bool := false
  settle : Nat
  throttle : Bool
  half : Bool
  lastSwitch : Option Dword
  tpDir : BitVec 2
  tpRate : Bool
  tpCapv : Bool
  tpCap : Dword
  tpFall : Option Dword
  tpRise : Bool
  gstopFell : Bool
  pwrFell : Bool
  gstopN : Filter
  pwrwarnN : Filter
  tpulse : Filter
  deriving DecidableEq, Repr

/-- Global stop (Table 13.8, R415 to R418); `d2dUp` and `d2dDown` are the dies whose die-to-die error rose or cleared during the stop (R272, R416). -/
structure Stop where
  stopped : Bool
  byPin : Bool
  goPend : Bool
  pinEn : Bool
  scan : Bool
  goAt : Dword
  goAtLo : Word
  stopGt : Dword
  stopLen : Dword
  d2dUp : BitVec 8
  d2dDown : BitVec 8
  deriving DecidableEq, Repr

/-- The power state of one physical tile (R428 to R430) and its lock to GT (R394, R395: 0 unlocked, 1 counting its first full period, 2 locked). -/
structure PTile where
  powered : Bool
  asleep : Bool
  lock : Nat
  deriving DecidableEq, Repr

/-- Start-up, sleep and power fail (Table 14.6, Table 12.12, R385). -/
structure Power where
  enable : Bool
  enabledAt : Dword
  poweredCyc : Nat
  ready : Bool
  warmBusy : Bool
  idle : BitVec 8
  ptiles : FMap PTile
  pfImage : Bool
  pfFrozen : Bool
  pfDrain : Bool := false
  pfBase : Dword
  pfLo : Word
  gtWarn : Dword
  gtFrozen : Dword
  deriving DecidableEq, Repr

/-- The keeper block's other fields (Table 16.3): placement, stealing, backing store, node, incident table base and controls. -/
structure Keeper where
  salt : BitVec 5
  saltP : Option (BitVec 5)
  radius : BitVec 3
  thresh : BitVec 6
  bsBase : Dword
  bsLog2 : BitVec 5
  bsLoP : Option Word
  bsHiP : Option Word
  bsSizeP : Option (BitVec 5)
  node : BitVec 16
  nodeP : Option (BitVec 16)
  incBase : Dword
  incLo : Word
  incP : Option Dword
  hold : BitVec 8
  fwdIrq : Bool
  deriving DecidableEq, Repr

/-- Fences and the repair map (Table 12.12, R19, R377 to R382, R388). Lists rise and hold no number twice. -/
structure Repair where
  lmap : FMap Nat
  unavail : List Nat
  spares : List Nat
  lshort : Bool
  rowsUsed : BitVec 8
  lanes : Word
  auto : Bool
  rowAuto : Bool
  transients : BitVec 16
  rows : FMap (List Nat)
  fencedAgents : List Nat
  fencedTiles : List Nat
  fencedPorts : List Nat
  deriving DecidableEq, Repr

/-- The lintel and fabric set-up registers, routes, keys and time registers (Tables 9.10 to 9.13). -/
structure LfRegs where
  mode : Bool
  preempt : Bool
  pfc : Bool
  enable : Bool
  ctlP : Option (BitVec 4)
  etype : BitVec 16
  etypeP : Option (BitVec 16)
  udpPort : BitVec 16
  udpPortP : Option (BitVec 16)
  pcp : BitVec 3
  dscp : BitVec 6
  mtu : BitVec 14
  mtuP : Option (BitVec 14)
  rto : BitVec 8
  limit : BitVec 4
  holdMax : BitVec 10
  mac : FMap Word
  macP : FMap Word
  src6 : FMap Word
  src6P : FMap Word
  routes : FMap Word
  routesP : FMap Word
  keyWords : FMap Word
  keyLatch : FMap Word
  keys : FMap (BitVec 128)
  tLink : BitVec 8
  tApply : Bool
  tRounds : BitVec 4
  tPdie : BitVec 3
  tRoot : Bool
  tcorr : BitVec 16
  d2dErr : BitVec 8
  pause : Bool
  pauseAt : Dword
  deriving DecidableEq, Repr

/-- What the data path only reads. -/
structure Env where
  cfg : Integration
  clk : Clock
  stop : Stop
  pwr : Power
  kp : Keeper
  rep : Repair
  lf : LfRegs
  deriving DecidableEq, Repr

/-! ### Incidents -/

/-- R361. The key of a report. -/
structure IncKey where
  node : BitVec 16
  die : BitVec 3
  srcKind : BitVec 4
  srcId : BitVec 32
  kind : IncKind
  deriving DecidableEq, Repr

/-- R357 to R360. One report, as its source unit forms it. -/
structure Report where
  key : IncKey
  hall : Bool
  part : Option (BitVec 4)
  d0 : Dword
  d1 : Dword
  d2 : Word
  maps : List (BitVec 512)
  count : Nat
  gtFirst : Dword
  deriving DecidableEq, Repr

/-- R358. A source unit with a report buffer of its own. -/
inductive Source
  | joint (j : Nat)
  | tile (t : Nat)
  | router (r : Nat)
  | regPort
  | fabric
  | alwaysOn
  deriving DecidableEq, Repr

/-- R359, R364 to R366. One entry of the incident table: the record, what has been put into memory of it, and the partition copies that wait. -/
structure IncEntry where
  isOpen : Bool
  number : Word
  rep : Report
  cls : IncClass
  count : Word
  gtFirst : Dword
  gtLast : Dword
  dirty : Bool
  lastWrite : Option Dword
  hallSent : Word
  lastHall : Dword
  closing : Bool
  carried : List (BitVec 4)
  copies : List (BitVec 4 × Bool)
  order : Nat
  deriving DecidableEq, Repr

/-! ### Joints and hods -/

/-- Table 8.7 (R243). A scheduler hint: KIND 0 WAKE, 1 INHERIT, 2 RESTORE. -/
structure Hint where
  handle : Dword
  prio : BitVec 3
  gang : BitVec 6
  slot : BitVec 3
  kind : BitVec 2
  deriving DecidableEq, Repr

/-- Table 8.5 (R233). What a response says, for the joint entry it answers; `holder` is the agent to which it grants a lock (R153), and `brick` the brick whose mirror it waits for once its number is known (R74). -/
structure Resp where
  status : Status
  course : Word
  gflags : Byte
  value : Dword
  beats : List Beat
  holder : Option Nat := none
  brick : Option Nat := none
  deriving DecidableEq, Repr

/-- R192, R180. The configuration of a barrier's grout. -/
structure GCfg where
  fmt : BitVec 3
  op : BitVec 3
  exact : Bool
  lanes : Nat
  passes : Nat
  f64 : Bool
  mxout : Bool
  wlog : Nat
  deriving DecidableEq, Repr

/-- The state of one lane of an accumulator (R200 to R218); a configuration uses the fields it needs. -/
structure Lane where
  has : Bool
  fp : Word
  a : Int
  big : Nat
  nanf : Bool
  pinf : Bool
  ninf : Bool
  zinf : Bool
  nz : Bool
  mn : Word
  mx : Word
  am : Word
  nanc : Nat
  infc : Nat
  x : Dword
  deriving DecidableEq, Repr

/-- A partial or complete reduction: its lanes, the count of DIGEST and the flags so far (R196, R207, R218). -/
structure Acc where
  lanes : List Lane
  cnt : Nat
  flags : Byte
  deriving DecidableEq, Repr

/-- What grout an arrival carries: none, one member's contribution at its rank, or a partial of several, with the bytes that it takes as a train of hods. -/
inductive Payload
  | none
  | one (rank : Nat) (cfmt : BitVec 3) (bytes : List Byte)
  | acc (a : Acc) (size : Nat)
  deriving DecidableEq, Repr

/-- R98. An arrival hod. -/
structure Arrival where
  index : Nat
  handle : Dword
  course : Word
  count : Nat
  pay : Payload
  tag : Word
  agent : Nat
  gang : BitVec 6
  op : AOp
  joint : Nat
  deriving DecidableEq, Repr

/-- R100, R101, R103. A release, or the end of a barrier's waits with another status, which ends those of the entries numbered below `upTo` (R112, R113); `bond` is the number of the bond whose beds come into force with it (R92), and `own` says that its instant counts from its own sending (R121). -/
structure Rel where
  index : Nat
  handle : Dword
  course : Word
  status : Status
  gflags : Byte
  beats : List Beat
  instant : Option Dword
  stagger : BitVec 8
  value : Dword
  removeBed : Bool
  cfg : Option (Option GCfg)
  upTo : Option Nat := none
  bond : Nat := 0
  own : Bool := false
  deriving DecidableEq, Repr

/-- R160, R167. A get on its way through the stripes of a pallet; `back` once it has returned to its first stripe, `miss` once a tile without its stripe has passed it on (R162). -/
structure GetOp where
  joint : Nat
  entry : Nat
  count : Nat
  try_ : Bool
  agent : Nat
  gang : BitVec 6
  tag : Word
  first : Nat
  sel : Bool
  handle : Dword
  back : Bool := false
  miss : Bool := false
  deriving DecidableEq, Repr

/-- R165, R166, R173. How a ring access of a stripe ends: its write, its refill, or either with a fault at an address. -/
inductive RingEnd
  | wrote
  | filled
  | fault (refill : Bool) (addr : Dword)
  deriving DecidableEq, Repr

/-- R160, R165. A put, its tokens, and STRIPE where SEL names it; `miss` once a tile without its stripe has passed it on (R162). -/
structure PutOp where
  joint : Nat
  entry : Nat
  toks : List Dword
  agent : Nat
  gang : BitVec 6
  tag : Word
  from_ : Option Nat
  handle : Dword
  sel : Option Nat := none
  miss : Bool := false
  deriving DecidableEq, Repr

/-- R230, R232. Where an accepted request stands. -/
inductive EPhase
  | sealing
  | behind
  | atHome
  | pends
  | numbered
  deriving DecidableEq, Repr

/-- R230. One of the 1,024 entries of a joint: a request accepted and not yet answered; `seen` once its home has admitted it and left it pending (R77). -/
structure JEntry where
  id : Nat
  op : AOp
  req : Req
  part : BitVec 4
  shared : Bool
  phase : EPhase
  target : Word
  pended : Bool
  seen : Bool := false
  deriving DecidableEq, Repr

/-- The hods of the mortar net that a command of their own takes. -/
inductive HodBody
  | req (joint index : Nat) (x : JEntry)
  | arrival (a : Arrival)
  | shrink (index : Nat) (course : Word) (now next e : Nat) (agent rank : Nat)
  | fwdWait (index : Nat) (joint entry : Nat) (target : Word)
  | unwatch (index : Nat) (joint : Nat)
  | release (r : Rel)
  | watcher (r : Rel)
  | sweep (index : Nat) (course : Word)
  | sweepAns (index : Nat) (course : Word) (joint : Nat) (missing : BitVec 8)
  | depart (agent : Nat)
  | resp (entry : Nat) (r : Resp)
  | evtRelease (index : Nat) (handle : Dword) (sets : Word) (status : Status) (value : Dword)
  | hint (h : Hint)
  | nudge (index : Nat) (handle : Dword)
  | palSweep (index : Nat) (k : Nat) (g : GetOp)
  | fwdPut (index : Nat) (k : Nat) (p : PutOp)
  | mirUpd (id : Nat) (bytes : Nat)
  | mirAck (id : Nat) (full : Bool)
  | bounce (a : Arrival)
  deriving DecidableEq, Repr

/-- One hod in flight. seq numbers hods in sending order; ready is the tile cycle before which it is not taken (R204, R374); `via` is the branch router that has passed it on unchanged (R33). -/
structure Hod where
  seq : Nat
  src : Port
  dst : Port
  vc : VC
  part : BitVec 4
  body : HodBody
  ready : Nat
  back : Bool
  via : Option Nat := none
  deriving DecidableEq, Repr

/-- R90. A member agent in a bed: expected count e, arrivals a of the open and b of the next course, f of those forwarded (R97, R115). -/
structure BedMember where
  slot : Nat
  e : Nat
  a : Nat
  b : Nat
  f : Nat
  wave : Nat
  rank : Nat
  deriving DecidableEq, Repr

/-- R90, R108, R186. A joint's record of one bonded barrier; `since` is the entry number at which the barrier was last armed (R118), `made` the number of its bond (R92); `last` and `nextLast` are the latest arrivals counted towards the open and the next course (R242). -/
structure Bed where
  index : Nat
  handle : Dword
  part : BitVec 4
  mask : BitVec 5
  armed : Bool
  poisoned : Option Dword
  cfg : Option GCfg
  cfgWaits : Bool
  members : List BedMember
  course : Word
  status : Status
  gflags : Byte
  result : List Beat
  up : Port
  waiting : Bool
  heldPay : List (Arrival × Nat)
  since : Nat := 0
  made : Nat := 0
  last : Option Arrival := none
  nextLast : Option Arrival := none
  deriving DecidableEq, Repr

/-- R121. A response that waits for its instant. -/
structure HeldResp where
  entry : Nat
  instant : Dword
  resp : Resp
  deriving DecidableEq, Repr

/-- R233, R247. One beat in a joint's response buffer, with its sideband (R226); `ahead` counts the hints before the WAKE that goes first (R244). -/
structure RBeat where
  slot : BitVec 3
  rid : BitVec 10
  last : Bool
  data : Beat
  ahead : Nat := 0
  deriving DecidableEq, Repr

/-- One joint (R230, R245, R247, R162, R109, R455); `respMore` holds the beats of formed responses that the full response buffer has no room for, `acked` the slots whose seal was acknowledged during a stop (R454), `stallSent` the waits that an incident has reported: bit s a SEAL_ACK for slot s, bit 8 the acceptance of a response. -/
structure Joint where
  entries : List JEntry
  beds : List Bed
  held : List HeldResp
  cache : List (Nat × Nat)
  resp : List RBeat
  respMore : List RBeat := []
  hints : List Hint
  heldHints : List Hint
  seals : FMap Nat
  acked : BitVec 8 := 0
  respWait : Option Nat
  stallSent : BitVec 9
  reset : BitVec 8
  frozen : List Nat
  fwdWaits : List (Dword × Nat)
  deriving DecidableEq, Repr

/-! ### Bricks -/

/-- Table 4.1 (R130). A queued waiter, with the joint entry it stands for. -/
structure Waiter where
  agent : Nat
  gang : BitVec 6
  prio : BitVec 3
  n : Nat
  dlRun : Bool
  dlAt : Dword
  store : BitVec 12
  joint : Nat
  entry : Nat
  tag : Word
  op : AOp
  deriving DecidableEq, Repr

/-- Table 4.2 (R136). -/
structure Lock where
  held : Bool
  abandoned : Bool
  hprio : BitVec 3
  eprio : BitVec 3
  hagent : Nat
  hgang : BitVec 6
  grants : Word
  queue : List Waiter
  deriving DecidableEq, Repr

/-- Table 4.5 (R147). -/
structure Sem where
  count : Nat
  queue : List Waiter
  deriving DecidableEq, Repr

/-- R125. -/
structure Event where
  set : Bool
  sets : Word
  waitj : List Nat
  deriving DecidableEq, Repr

/-- R87. A member of a bond. -/
structure Member where
  agent : Nat
  gangs : Nat
  wave : Nat
  deriving DecidableEq, Repr

/-- R86, R92. A bond: its members in rising agent number, and its lintel children; `made` numbers the bonds of a barrier, so that a joint tells its beds apart. -/
structure Bond where
  expect : Nat
  lchild : Nat
  members : List Member
  made : Nat := 0
  deriving DecidableEq, Repr

/-- R94. The settings that BARRIER_ARM carries. -/
structure ArmVals where
  deadline : BitVec 24
  stagger : BitVec 8
  depart : Bool
  release : BitVec 2
  deriving DecidableEq, Repr

/-- R189. A weight table: its kind, its lanes and the words or block bytes of each entry. -/
structure Weights where
  wkind : Nat
  wlanes : Nat
  entries : List (List Nat)
  deriving DecidableEq, Repr

/-- R185. A grout run bound on the tile: configuration, weights and granules, and whether a GROUT_CFG (not only a WEIGHT_LOAD) made it (R197). -/
structure Run where
  cfg : Option GCfg
  weights : Option Weights
  base : Nat
  count : Nat
  byCfg : Bool
  deriving DecidableEq, Repr

/-- R184, R196, R197, R204. The grout in force on a barrier. -/
structure Grout where
  run : Run
  acc : Acc
  next : Nat
  window : List (Nat × Payload)
  cum : Byte
  result : List Byte
  resFlags : Byte
  empty : Bool
  deriving DecidableEq, Repr

/-- R112, R113. A sweep under way: its open course, the joints asked, and the lintel children that were missing. -/
structure SweepRec where
  course : Word
  joints : List Nat
  missing : BitVec 64
  deriving DecidableEq, Repr

/-- Table 3.1 (R85), with the member lists of the bonds and the sweeps under way, the oldest first (R112, R113). measure: 0 PATH stands, 1 it is measured at the next boundary, 2 the probes are out, 3 it stands raised by a repoint (R379). tag: the TAG of the latest arrival counted (R242). -/
structure Barrier where
  course : Word
  expect : Nat
  count : Nat
  ahead : Nat
  armed : Bool
  bonded : Bool
  poisoned : Bool
  arm : ArmVals
  shArm : Option ArmVals
  bond : Option Bond
  shBond : Option Bond
  left : List Nat
  leaving : List Nat
  shrunk : Bool
  nextDelta : Nat
  path : Nat
  measure : Nat
  dlAt : Dword
  watch : List (Option Nat)
  lastStatus : Status
  poisonInc : Option IncKey
  sweep : List SweepRec
  expired : Bool
  grout : Option Grout
  shRun : Option Run
  tag : Word := 0
  deriving DecidableEq, Repr

/-- The body of a brick record, by type (R41). A pallet's stripes stand in Dp.stripes. -/
inductive Body
  | barrier (b : Barrier)
  | semaphore (s : Sem)
  | lock (l : Lock)
  | pallet
  | event (e : Event)
  deriving DecidableEq, Repr

/-- Table 2.4 (R47), the tombstone mark of R378, whether the NOTICE of a stale RELEASE has been raised (R259), and what a record that software wrote holds and the body does not: a reserved TYPE, and the bits of fields that its type or state leaves unused (R64). -/
structure Brick where
  valid : Bool
  typ : BType
  pin : Bool
  mirrored : Bool
  gen : BitVec 8
  part : BitVec 4
  group : BitVec 8
  mirror : Nat
  lost : Option IncKey
  body : Body
  staleSent : Bool := false
  badType : Option (BitVec 3) := none
  stray : BitVec 512 := 0
  deriving DecidableEq, Repr

/-- R173, R174. A ring access of a stripe: no fault stands, the retry of a faulted access is out, or the access is held by a fault. -/
inductive Access
  | fine | retrying | held
  deriving DecidableEq, Repr

/-- Table 5.2 (R159), the tokens of the head cache and of the ring segment, and what is under way (R164 to R168). -/
structure Stripe where
  wacc : Access
  racc : Access
  steal : Bool
  k : Nat
  log2s : Nat
  log2 : Nat
  puts : Word
  gets : Word
  cache : List Dword
  seg : List Dword
  nextj : Nat
  hungry : BitVec 8
  ringAddr : Dword
  waitj : List Nat
  faddr : Dword
  writing : Option PutOp
  putq : List PutOp
  refill : Option Nat
  thief : Option Nat
  getq : List GetOp
  base : Nat
  mirror : Nat
  lost : Option IncKey
  deriving DecidableEq, Repr

/-- Table 9.7 (R275). A hod record of a link. -/
structure HodRec where
  kind : Byte
  gflags : Byte
  child : BitVec 6
  status : Byte
  grout : List Byte
  handle : Dword
  course : Word
  tag : Word
  instant : Dword
  deriving DecidableEq, Repr

/-- R253. One child of a lintel. -/
structure Child where
  peer : Dword
  peer2 : Dword
  route : BitVec 8
  route2 : BitVec 8
  valid : Bool
  cut1 : Bool
  cut2 : Bool
  deriving DecidableEq, Repr

/-- Table 9.2 (R252) and the child table of R253. -/
structure Lintel where
  tier : Nat
  upwait : Bool
  upv : Bool
  twv : Bool
  upcut : Bool
  up2cut : Bool
  upslot : BitVec 6
  ctv : Bool
  uproute : BitVec 8
  up2route : BitVec 8
  twroute : BitVec 8
  ctBase : Nat
  uppeer : Dword
  up2peer : Dword
  twpeer : Dword
  seen : BitVec 64
  seenNext : BitVec 64
  gone : BitVec 64
  children : FMap Child
  upPay : Option (Acc × Status)
  lastRel : Option HodRec := none
  probe : Option (List (Nat × Bool) × Dword × Dword)
  deriving DecidableEq, Repr

/-! ### Tiles -/

/-- R65. What a slot of a tile's brick store holds. -/
inductive SlotRef
  | brick (index : Nat)
  | stripe (index k : Nat)
  | lintel (index : Nat)
  | mirror (index k : Nat)
  deriving DecidableEq, Repr

/-- An operation parked on a fetch (R23). -/
inductive Parked
  | req (joint : Nat) (x : JEntry)
  | hod (h : Hod)
  | depart (agent : Nat)
  | desc (ring : RingId) (list : List Dword) (table : List Byte)
  deriving DecidableEq, Repr

/-- R67, R68, R373. A fetch: waiting for a slot, at the memory port, or held by a fault since an instant; `victim` is the brick whose write-back makes its slot free, `got` its response, taken during a stop (R416). -/
structure Fetch where
  index : Nat
  issued : Bool
  start : Dword
  heldAt : Option Dword
  parked : List Parked
  victim : Option Nat := none
  got : Option (Option (BitVec 512)) := none
  deriving DecidableEq, Repr

/-- R175. A management work item of a tile. -/
inductive Work
  | batch (ring : RingId)
  | refill (index k : Nat)
  deriving DecidableEq, Repr

/-- Table 13.4 (R407). A trace record, and the destination it is for. -/
structure TRec where
  kind : BitVec 6
  stretch : Bool
  stopped : Bool
  gt : Dword
  handle : Dword
  tag : Word
  course : Word
  agent : BitVec 10
  gang : BitVec 6
  status : Byte
  opcode : Byte
  part : Option (BitVec 4)
  aux : BitVec 24
  deriving DecidableEq, Repr

/-- R406, R410, R411, R414. The trace buffer of one logical tile. Loss counts are keyed by destination: partition number, or 16 for the keeper. -/
structure TBuf where
  recs : List TRec
  after_ : Option Nat
  refuse : Bool
  flush : Bool
  lost : FMap Nat
  bucket : Nat
  bucketCyc : Nat
  deriving DecidableEq, Repr

/-- One logical tile: brick store, granule runs, fetches, write-backs at the memory port or held by a fault since an instant (R373), management work, idle and fault state. `draining` are the bricks whose slots no fetch takes and that are in use until their write-backs end (R67). -/
structure Tile where
  slots : List (SlotRef × Bool)
  runs : List (Nat × Nat)
  fetches : List Fetch
  wbacks : List (Nat × Option Dword) := []
  draining : List Nat := []
  work : List Work
  idleSince : Dword
  idleCyc : Nat
  wakeAt : Option Dword
  test : Option TileHit
  lostBase : Nat := 0
  fenceReq : List IncKey
  unavailInc : Option IncKey
  trace : TBuf
  deriving DecidableEq, Repr

/-- R32. A combining entry of a router; `before` counts arrivals of the open course that its subtree delivered before a freeze (R345). -/
structure Comb where
  router : Nat
  index : Nat
  expect : Nat
  before : Nat
  got : Nat
  nextDelta : Nat
  course : Word
  acc : Option Acc
  up : Port
  waiting : Bool
  deriving DecidableEq, Repr

/-- R258. A lintel hod that a closed course sends: for the brick's twin or for its children, and whether its instant counts from its own sending (R121). -/
structure KidHod where
  twin : Bool
  own : Bool
  rec_ : HodRec
  deriving DecidableEq, Repr

/-- R74. A mirror update on its way, the hods that wait for its acknowledgement, the lintel hods that do, and the waiter (agent, gang, effective priority before it) that goes back when the mirror's store is full (R130). -/
structure MirUpd where
  id : Nat
  index : Nat
  k : Nat
  home : Nat
  copy : Brick
  stripe : Option Stripe
  outs : List Hod
  undo : Option (Nat × Nat × BitVec 3)
  kids : List KidHod := []
  deriving DecidableEq, Repr

/-- R74, R199, R501. The copy a mirror tile holds, and its granule runs: of the run in force and then of the one that waits. A copy that replaces a lost one counts once it is acknowledged (`ready`, R75). -/
structure MirCopy where
  tile : Nat
  runs : List (Nat × Nat)
  copy : Brick
  stripe : Option Stripe
  ready : Bool := true
  deriving DecidableEq, Repr

/-! ### Rings and partitions -/

/-- Table 10.1, R299. Base, size and pending values of a ring: loS and hiS are the bases that commit with the SIZE that waits, loP and hiP those written since, which wait for the next SIZE write. -/
structure RingCfg where
  base : Dword
  log2 : BitVec 5
  loP : Option Word
  hiP : Option Word
  sizeP : Option (BitVec 5)
  loS : Option Word := none
  hiS : Option Word := none
  deriving DecidableEq, Repr

/-- Table 10.6 (R314). A completion, before its PHASE and slot are known. -/
structure Compl where
  tag : Word
  status : Status
  opcode : Byte
  ring : BitVec 4
  overdrawn : Bool
  hintMoved : Bool
  nopin : Bool
  retried : Bool
  index : BitVec 16
  count : Nat
  course : Word
  value : Dword
  incident : Word
  irq : Bool
  advance : Bool
  deriving DecidableEq, Repr

/-- What the descriptor at the head of a ring waits for. -/
inductive RWait
  | fetch
  | number
  | freeze
  | fence
  | completion
  | lost
  deriving DecidableEq, Repr

/-- A submission ring (R298, R306, R310, R311, R319, R321); `front` is the tile that has read what is ahead. -/
structure SubRing where
  cfg : RingCfg
  head : Word
  tail : Word
  state : RState
  index : BitVec 16
  read : Word
  ahead : List (BitVec 512)
  wait : Option RWait
  targets : List (Nat × Word)
  fwait : Bool
  retried : Bool
  front : Option Nat := none
  deriving DecidableEq, Repr

/-- A ring that the engine writes (R298, R319, R366, R412). -/
structure OutRing where
  cfg : RingCfg
  head : Word
  tail : Word
  state : RState
  index : BitVec 16
  deriving DecidableEq, Repr

/-- R318, R365. The interrupt window of one microsecond of GT. -/
structure IrqWin where
  last : Option Dword
  merged : Bool
  deriving DecidableEq, Repr

/-- A hod record received and not yet taken, with its route (0xFF the package route) and the sender's die and node. -/
structure InHod where
  route : BitVec 8
  die : BitVec 3
  node : BitVec 16
  rec_ : HodRec
  deriving DecidableEq, Repr

/-- R342. A hod record in a partition's backlog, and the GT of its arrival. -/
structure BackHod where
  gt : Dword
  hod : InHod
  deriving DecidableEq, Repr

/-- R335 to R338. What the context area of a SAVED partition holds beside the records that stay in the backing store. -/
structure Saved where
  area : Dword
  ug : Nat
  gtFreeze : Dword
  depart : List Nat
  stripes : FMap Stripe
  lintels : FMap Lintel
  beds : List (Nat × Bed)
  entries : List (Nat × JEntry)
  held : List (Nat × HeldResp)
  fwdWaits : List (Nat × Dword × Nat)
  deriving DecidableEq, Repr

/-- A partition: quotas, masks, state and what suspension keeps (Tables 2.8 to 2.10, 11.3, 16.8; R332 to R345). -/
structure Part where
  qb : Nat
  qg : Nat
  cap : BitVec 5
  st : PState
  departed : Bool
  ub : Nat
  ug : Nat
  ovb : Nat
  ovg : Nat
  gmask : FMap (BitVec 5)
  dbLo : Word
  cirq : IrqWin
  iirq : IrqWin
  gtFreeze : Dword
  frozenBy : List (FreezeSrc × Nat)
  freezeTails : FMap Word
  markers : List (Nat × FreezeSrc)
  backlog : List BackHod
  depMap : List Nat
  recHods : List Hod
  recCuts : List Nat
  resetReq : Bool
  saved : Option Saved
  deriving DecidableEq, Repr

/-- Table 11.2. The assignment registers of one joint: PART and EN in force and, for each slot with a written value of a field that waits, those values. -/
structure AgReg where
  part : Word
  en : BitVec 8
  pend : FMap (Option (BitVec 4) × Option Bool)
  deriving DecidableEq, Repr

/-! ### Links -/

/-- R278, R280. A DATA frame sent and not yet acknowledged. -/
structure TxFrame where
  seq : Word
  hods : List HodRec
  deriving DecidableEq, Repr

/-- R276, R281. The latest hod of a kind that a brick has sent to a peer, and how long its last REFUSE RETRY made it wait, in microseconds. -/
structure SentHod where
  sender : Dword
  rec_ : HodRec
  wait : Nat
  deriving DecidableEq, Repr

/-- One Ethernet link (R278 to R282, R417), or the package route (255), which has no frames. dropAt holds the instants of drops in the last millisecond (R282). -/
structure Link where
  epochTx : BitVec 16
  epochRx : BitVec 16
  synced : Bool
  syncing : Bool
  seqTx : Word
  seqRx : Word
  unacked : List TxFrame
  queue : List HodRec
  sent : List SentHod
  retries : Nat
  timer : Option Dword
  ackOwed : Option Dword
  gapSeen : Bool
  hold : Option Dword
  cut : Bool
  dropAt : List Dword
  deriving DecidableEq, Repr

/-- R276, R268. A hod refused and waiting to be sent again: due at a GT instant (RETRY) or at a tile cycle (BUSY). -/
structure Backoff where
  route : BitVec 8
  sender : Dword
  rec_ : HodRec
  dueGt : Option Dword
  dueCyc : Option Nat
  deriving DecidableEq, Repr

/-- R287 to R289. The offset measurement. -/
structure TimeMeas where
  busy : Bool
  valid : Bool
  answered : Nat
  theta : Dword
  delta : Word
  toSend : Nat
  nextAt : Dword
  waiting : List (Nat × Dword × Dword)
  results : List (Int × Int)
  serial : Nat
  deriving DecidableEq, Repr

/-! ### Observation and ports -/

/-- Table 13.6. Trace and trigger registers and the mode of each logical tile. -/
structure TcMode where
  mode : BitVec 2
  size : BitVec 5
  pre : BitVec 3
  drain : Bool
  kinds : Byte
  pend : Option (BitVec 10)
  deriving DecidableEq, Repr

/-- Counters, trigger and trace registers (R401 to R414). -/
structure Obs where
  pctr : FMap (BitVec 48)
  kctr : FMap (BitVec 48)
  shadow : FMap (BitVec 48)
  frozen : Bool
  triggered : Bool
  all : Bool
  incCls : BitVec 3
  onStop : Bool
  onAt : Bool
  onTag : Bool
  frzTrace : Bool
  frzCtr : Bool
  src : BitVec 5
  trigReq : BitVec 5
  trigAt : Dword
  trigAtLo : Word
  trigGt : Dword
  tagVal : Word
  tagMask : Word
  pfilt : BitVec 16
  budget : BitVec 4
  markLo : Word
  csel : Word
  cdata : BitVec 48
  modes : FMap TcMode
  deriving DecidableEq, Repr

/-- R460, R463. One structure that the engine has written at the memory port, or one it reads (`read`): context (16 the keeper's), address, length in bytes and the little-endian number of the bytes written. MemW.requests gives its requests. -/
structure MemW where
  ctx : Nat
  addr : Dword
  len : Nat
  data : Nat
  read : Bool := false
  deriving DecidableEq, Repr

/-- What the engine has put on the fabric port: a frame on a route, or a record to a die. -/
inductive FabOut
  | data (route : BitVec 8) (f : TxFrame) (ack : Word) (epoch : BitVec 16)
  | ack (route : BitVec 8) (nak : Bool) (ack : Word) (epoch : BitVec 16)
  | sync (route : BitVec 8) (ack : Word) (epoch : BitVec 16)
  | time (route : BitVec 8) (die : BitVec 3) (reply : Bool) (t1 t2 t3 : Dword) (ack : Word) (epoch : BitVec 16)
  | pkg (die : BitVec 3) (r : HodRec)
  deriving DecidableEq, Repr

/-- R464. A register access that waits at the port: its actor, its byte offset and the data of a write. -/
structure RegAccess where
  actor : Actor
  off : Nat
  data : Option Word
  deriving DecidableEq, Repr

/-- The ports' outputs and what a stop or a pause holds back of them (R277, R416), register read data, the read latches of R479, and the accesses that wait for a tile's answer and behind one that does (R36, R464). Interrupt lines are counted by pulses: 0 I_KINC, 1 I_KCMPL, 2 + p I_CMPL, 18 + p I_INC. -/
structure Ports where
  mem : List MemW
  memHeld : List MemW := []
  fab : List FabOut
  fabHeld : List FabOut := []
  irq : FMap Nat
  rdata : Word
  latches : FMap Word
  access : List RegAccess := []
  deriving DecidableEq, Repr

/-- R235, R362. A response that waits for an incident number: its joint, its entry where it has one, and its sideband. -/
structure Await where
  joint : Nat
  entry : Option Nat
  slot : BitVec 3
  rid : BitVec 10
  resp : Resp
  deriving DecidableEq, Repr

/-- R357 to R371. The incident unit and the units that report to it. pinned keeps the numbers of the keys whose incidents later answers carry (R235), beside the last eight of each source; taken says that a report has been taken since the last reference edge (R497); wrote holds the slots whose close is on its way to the table after the entry has been given up (R370). -/
structure Inc where
  entries : FMap IncEntry
  opens : Nat
  reports : List (Source × Report)
  returns : List (Source × IncKey × Word)
  known : List (Source × IncKey × Word)
  waits : List (Source × IncKey × Nat)
  waitHods : FMap (List Hod)
  waitCompl : FMap (RingId × Compl)
  waitResp : FMap Await
  pinned : List (Source × IncKey × Word)
  taken : Bool
  serial : Nat
  fault : Bool
  ndrop : BitVec 14
  wrote : List Nat := []
  deriving DecidableEq, Repr

/-- What the commands of the data path change; flitErr holds the flit errors that wait for the next request through an output port (R31): the port as router x 8 + port, and whether it is a double-bit one. -/
structure Dp where
  joints : FMap Joint
  ag : FMap AgReg
  departing : List (Nat × BitVec 4)
  net : List Hod
  seq : Nat
  flitErr : List (Nat × Bool) := []
  comb : List Comb
  bricks : FMap Brick
  touched : List Nat
  freed : List Nat
  stripes : FMap Stripe
  ringEnds : List (Nat × RingEnd) := []
  lintels : FMap Lintel
  tiles : FMap Tile
  mirCopies : FMap MirCopy
  mirUpds : List MirUpd
  rings : FMap SubRing
  cmpl : FMap OutRing
  held : FMap (List Compl)
  incRings : FMap OutRing
  trings : FMap OutRing
  kdbLo : Word
  parts : FMap Part
  kcirq : IrqWin
  ctxRun : Option (BitVec 4)
  inbound : List InHod
  rxBuf : List (List Byte × Bool × Dword)
  backoffs : List Backoff
  links : FMap Link
  tm : TimeMeas
  inc : Inc
  obs : Obs
  port : Ports
  lastCourse : Option (Dword × Word)
  free : Nat
  deriving DecidableEq, Repr

/-- The state of the block: the environment the data path reads, the data path, and the commands that wait, first in, first out. -/
structure State where
  env : Env
  dp : Dp
  pending : List Instr
  deriving DecidableEq, Repr

/-- The reasons the machine could stop with a fault. The spec gives the block none: every failure is an incident or a status. -/
inductive Fault
  /-- Raised by no command; kept so that the interface has the type. Safe. -/
  | none
  deriving DecidableEq, Repr

/-- The reasons a command has no meaning in the model. -/
inductive Refusal
  /-- The command's arm has no meaning yet. Raised by Dispatch only. Safe: nothing can be proved of what it does. -/
  | notModelled (mnemonic : String)
  deriving DecidableEq, Repr

/-! ### The state after reset -/

/-- Log 4. The integration the reset state stands for: the Quadal die's counts with every unit's router given by a rule of the model's own, every slot with an agent of class 0. -/
def Integration.default : Integration :=
  { stages := 1, tilePorts := [], jointPorts := [], fabricPort := 44, memoryPort := 52, keeperPort := 1109
    die := 0, present := [], classes := [] }

def Filter.high : Filter := { level := true, differ := 0 }

def Filter.low : Filter := { level := false, differ := 0 }

/-- R393 to R400, R425, R432 at cold reset. -/
def Clock.reset : Clock :=
  { gt := 0, gtPrev := 0, slew := 0, stepReq := none, stepLo := 0, cyc := 0, per := 0, perOld := 0, edgeCyc := 0
    changed := false, settle := 1, throttle := false, half := false, lastSwitch := none, tpDir := 0, tpRate := false
    tpCapv := false, tpCap := 0, tpFall := none, tpRise := false, gstopFell := false, pwrFell := false
    gstopN := Filter.high, pwrwarnN := Filter.high, tpulse := Filter.low }

/-- Table 13.8. -/
def Stop.reset : Stop :=
  { stopped := false, byPin := false, goPend := false, pinEn := true, scan := false
    goAt := 0, goAtLo := 0, stopGt := 0, stopLen := 0, d2dUp := 0, d2dDown := 0 }

/-- Table 14.6, Table 12.12. -/
def Power.reset : Power :=
  { enable := false, enabledAt := 0, poweredCyc := 0, ready := false, warmBusy := false, idle := 4, ptiles := []
    pfImage := false, pfFrozen := false, pfBase := 0, pfLo := 0, gtWarn := 0, gtFrozen := 0 }

/-- Tables 2.5, 2.7, 5.6, 12.12, 16.4. -/
def Keeper.reset : Keeper :=
  { salt := 0, saltP := none, radius := 2, thresh := 4, bsBase := 0, bsLog2 := 0, bsLoP := none, bsHiP := none
    bsSizeP := none, node := 0, nodeP := none, incBase := 0, incLo := 0, incP := none, hold := 10, fwdIrq := false }

/-- Table 12.12, R19. -/
def Repair.reset : Repair :=
  { lmap := [], unavail := [], spares := [32, 33, 34, 35], lshort := false, rowsUsed := 0, lanes := 0
    auto := true, rowAuto := true, transients := 0, rows := [], fencedAgents := [], fencedTiles := []
    fencedPorts := [] }

/-- Tables 9.10 to 9.13. -/
def LfRegs.reset : LfRegs :=
  { mode := false, preempt := false, pfc := false, enable := false, ctlP := none, etype := 0x88B5#16
    etypeP := none, udpPort := 0xC990#16, udpPortP := none, pcp := 6, dscp := 0x2E#6, mtu := 1500#14, mtuP := none
    rto := 20, limit := 6, holdMax := 1000#10, mac := [], macP := [], src6 := [], src6P := [], routes := []
    routesP := [], keyWords := [], keyLatch := [], keys := [], tLink := 0xFF#8, tApply := false, tRounds := 4
    tPdie := 0, tRoot := true, tcorr := 0, d2dErr := 0, pause := false, pauseAt := 0 }

def Env.reset (cfg : Integration) : Env :=
  { cfg := cfg, clk := Clock.reset, stop := Stop.reset, pwr := Power.reset, kp := Keeper.reset
    rep := Repair.reset, lf := LfRegs.reset }

def Joint.init : Joint :=
  { entries := [], beds := [], held := [], cache := [], resp := [], hints := [], heldHints := [], seals := []
    respWait := none, stallSent := 0, reset := 0, frozen := [], fwdWaits := [] }

def AgReg.init : AgReg := { part := 0, en := 0, pend := [] }

def TBuf.init : TBuf :=
  { recs := [], after_ := none, refuse := false, flush := false, lost := [], bucket := 64, bucketCyc := 0 }

def Tile.init : Tile :=
  { slots := [], runs := [], fetches := [], work := [], idleSince := 0, idleCyc := 0, wakeAt := none, test := none
    fenceReq := [], unavailInc := none, trace := TBuf.init }

def PTile.init : PTile := { powered := false, asleep := false, lock := 0 }

def RingCfg.init : RingCfg := { base := 0, log2 := 0, loP := none, hiP := none, sizeP := none }

def SubRing.init : SubRing :=
  { cfg := RingCfg.init, head := 0, tail := 0, state := .disabled, index := 0, read := 0, ahead := [], wait := none
    targets := [], fwait := false, retried := false }

def OutRing.init : OutRing :=
  { cfg := RingCfg.init, head := 0, tail := 0, state := .disabled, index := 0 }

def IrqWin.init : IrqWin := { last := none, merged := false }

/-- Tables 2.8 to 2.10, 11.3, 16.8 at reset. -/
def Part.init : Part :=
  { qb := 0, qg := 0, cap := 0x1F#5, st := .run, departed := false, ub := 0, ug := 0, ovb := 0, ovg := 0
    gmask := [], dbLo := 0, cirq := IrqWin.init, iirq := IrqWin.init, gtFreeze := 0, frozenBy := [], markers := [], freezeTails := []
    backlog := [], depMap := [], recHods := [], recCuts := [], resetReq := false, saved := none }

def Link.init : Link :=
  { epochTx := 0, epochRx := 0, synced := false, syncing := false, seqTx := 0, seqRx := 0, unacked := [], queue := [], sent := []
    retries := 0, timer := none, ackOwed := none, gapSeen := false, hold := none, cut := false, dropAt := [] }

def TimeMeas.init : TimeMeas :=
  { busy := false, valid := false, answered := 0, theta := 0, delta := 0, toSend := 0, nextAt := 0, waiting := []
    results := [], serial := 0 }

def TcMode.init : TcMode :=
  { mode := 0, size := 0, pre := 4, drain := true, kinds := 0xFF#8, pend := none }

/-- Table 13.6 at reset. -/
def Obs.init : Obs :=
  { pctr := [], kctr := [], shadow := [], frozen := false, triggered := false, all := false, incCls := 0b100#3
    onStop := true, onAt := false, onTag := false, frzTrace := true, frzCtr := true, src := 0, trigReq := 0
    trigAt := 0, trigAtLo := 0, trigGt := 0, tagVal := 0, tagMask := 0, pfilt := 0xFFFF#16, budget := 8, markLo := 0
    csel := 0, cdata := 0, modes := [] }

def Ports.init : Ports := { mem := [], fab := [], irq := [], rdata := 0, latches := [] }

def Inc.init : Inc :=
  { entries := [], opens := 0, reports := [], returns := [], known := [], waits := [], waitHods := []
    waitCompl := [], waitResp := [], pinned := [], taken := false, serial := 0, fault := false, ndrop := 0 }

def Dp.reset : Dp :=
  { joints := [], ag := [], departing := [], net := [], seq := 0, comb := [], bricks := [], touched := [], freed := []
    stripes := [], lintels := [], tiles := [], mirCopies := [], mirUpds := [], rings := [], cmpl := [], held := []
    incRings := [], trings := [], kdbLo := 0, parts := [], kcirq := IrqWin.init, ctxRun := none, inbound := [], rxBuf := []
    backoffs := [], links := [], tm := TimeMeas.init, inc := Inc.init, obs := Obs.init, port := Ports.init
    lastCourse := none, free := 0 }

/-- R441, Table 11.9 (cold): the machine right after the release of the cold reset, nothing waiting. -/
def State.reset : State := { env := Env.reset Integration.default, dp := Dp.reset, pending := [] }

end Sys2Proof.Machine
end

