-- ==== Sys2Proof/Machine/Flags.lean ====
section
/-! DEFINITION. Sys2Proof/Machine/Flags.lean: status codes, grout flags and the fields of the response and hint beats. -/

namespace Sys2Proof.Machine

/-- Table 8.6 (R236). -/
def Status.code : Status → Nat
  | .ok => 0x00 | .okAbandoned => 0x01 | .okShrunk => 0x02 | .okEmpty => 0x03 | .busy => 0x04
  | .badHandle => 0x10 | .badType => 0x11 | .badCount => 0x12 | .access => 0x13 | .quota => 0x14
  | .badGrout => 0x15 | .notOwner => 0x16 | .timeout => 0x20 | .poisoned => 0x21 | .fenced => 0x22
  | .suspended => 0x23 | .xlateFault => 0x24 | .lost => 0x25 | .retry => 0x30

/-- Table 8.6, read back. -/
def Status.ofCode (n : Nat) : Option Status :=
  [Status.ok, .okAbandoned, .okShrunk, .okEmpty, .busy, .badHandle, .badType, .badCount, .access, .quota, .badGrout,
    .notOwner, .timeout, .poisoned, .fenced, .suspended, .xlateFault, .lost, .retry].find? (fun s => s.code == n)

/-- R235. The status of a response that an incident accompanies. -/
def Status.numbered : Status → Bool
  | .access | .timeout | .poisoned | .fenced | .xlateFault | .lost => true
  | _ => false

/-! Table 6.7 (R196): the grout flags. -/

def gfNanIn : Byte := 0x01#8
def gfInvalid : Byte := 0x02#8
def gfOvf : Byte := 0x04#8
def gfUf : Byte := 0x08#8
def gfInexact : Byte := 0x10#8
def gfScaleOvf : Byte := 0x20#8
def gfScaleUf : Byte := 0x40#8
def gfIntMixed : Byte := 0x80#8

/-- f when c holds, else no flag. -/
def flagIf (c : Bool) (f : Byte) : Byte := if c then f else 0

/-- Fields (place, width, value) as one number; a value is cut to its width. -/
def pack : List (Nat × Nat × Nat) → Nat
  | [] => 0
  | (lo, w, v) :: l => v % 2 ^ w * 2 ^ lo + pack l

/-- Table 8.5 (R233): the response beat. -/
def Resp.beat (r : Resp) : Beat :=
  BitVec.ofNat 128 (pack [(96, 32, r.course.toNat), (88, 8, r.status.code), (80, 8, r.gflags.toNat), (0, 64, r.value.toNat)])

/-- Table 8.7 (R243): the hint beat. -/
def Hint.beat (h : Hint) : Beat :=
  BitVec.ofNat 128 (pack [(64, 64, h.handle.toNat), (11, 3, h.prio.toNat), (5, 6, h.gang.toNat), (2, 3, h.slot.toNat), (0, 2, h.kind.toNat)])

/-- R234. A response with nothing but a status. -/
def Resp.plain (s : Status) : Resp := { status := s, course := 0, gflags := 0, value := 0, beats := [] }

/-- A response with a status and a course. -/
def Resp.at (s : Status) (c : Word) : Resp := { status := s, course := c, gflags := 0, value := 0, beats := [] }

/-- R4. The little-endian number of a list of words of w bits. -/
def leWords (w : Nat) : List Nat → Nat
  | [] => 0
  | x :: l => x % 2 ^ w + 2 ^ w * leWords w l

/-- R195. Bytes in result beats of 16, byte n at bits [8 (n mod 16) + 7 : 8 (n mod 16)] (R193). -/
def leNat : List Byte → Nat
  | [] => 0
  | b :: l => b.toNat + 256 * leNat l

/-- The n low bytes of a number, lowest first (R4). -/
def leBytes : Nat → Nat → List Byte
  | 0, _ => []
  | n + 1, v => BitVec.ofNat 8 v :: leBytes n (v / 256)

/-- The n low bytes of a number, highest first (R5). -/
def beBytes (n v : Nat) : List Byte := (leBytes n v).reverse

/-- The number whose bytes come highest first. -/
def beNat (l : List Byte) : Nat := leNat l.reverse

/-- A byte list cut into pieces of n bytes, at most k of them. -/
def chunks (n : Nat) : Nat → List Byte → List (List Byte)
  | 0, _ => []
  | _, [] => []
  | k + 1, l => l.take n :: chunks n k (l.drop n)

def toBeats (l : List Byte) : List Beat :=
  (chunks 16 (l.length / 16 + 1) l).map (fun c => BitVec.ofNat 128 (leNat c))

/-- The bytes of beats, in order. -/
def ofBeats (l : List Beat) : List Byte := l.flatMap (fun b => leBytes 16 b.toNat)

/-- R161. Tokens two to a beat, the even one low. -/
def tokBeats : Nat → List Dword → List Beat
  | 0, _ => []
  | _, [] => []
  | _, [t] => [BitVec.ofNat 128 t.toNat]
  | k + 1, t :: u :: l => BitVec.ofNat 128 (t.toNat + 2 ^ 64 * u.toNat) :: tokBeats k l

end Sys2Proof.Machine
end

