-- ==== Sys2Proof/Machine/Ops.lean ====
section
/-! DEFINITION. Sys2Proof/Machine/Ops.lean: the shared operations on State: sparse tables, units and their places, time, counters, trace records, incident reports and hods. -/

namespace Sys2Proof.Machine

variable {α β : Type}

/-! ### Sparse tables and lists -/

/-- The entry of key k. -/
def fget : FMap α → Nat → Option α
  | [], _ => none
  | (j, v) :: m, k => if j = k then some v else fget m k

/-- The entry of key k, or d. -/
def fgetD (m : FMap α) (k : Nat) (d : α) : α := (fget m k).getD d

/-- m with v at key k, keys rising. -/
def fput : FMap α → Nat → α → FMap α
  | [], k, v => [(k, v)]
  | (j, w) :: m, k, v =>
    if k < j then (k, v) :: (j, w) :: m
    else if k = j then (k, v) :: m
    else (j, w) :: fput m k v

/-- m without key k. -/
def fdel (m : FMap α) (k : Nat) : FMap α := m.filter (fun x => x.1 != k)

/-- The first element of a list where p holds, and the list without it. -/
def takeFirst (p : α → Bool) : List α → Option (α × List α)
  | [] => none
  | x :: l => if p x then some (x, l) else (takeFirst p l).map (fun r => (r.1, x :: r.2))

/-- The list with f applied to the first element where p holds. -/
def modFirst (p : α → Bool) (f : α → α) : List α → List α
  | [] => []
  | x :: l => if p x then f x :: l else x :: modFirst p f l

/-- A rising list with k in it. -/
def setInsert (k : Nat) : List Nat → List Nat
  | [] => [k]
  | j :: l => if k < j then k :: j :: l else if k = j then j :: l else j :: setInsert k l

/-- The list without its element at place n. -/
def eraseAt : List α → Nat → List α
  | [], _ => []
  | _ :: l, 0 => l
  | x :: l, n + 1 => x :: eraseAt l n

/-- Ceiling division. -/
def ceilDiv (a b : Nat) : Nat := (a + b - 1) / b

/-- Bits [lo + w - 1 : lo] of a number. -/
def bits (n lo w : Nat) : Nat := n / 2 ^ lo % 2 ^ w

/-! ### Places on the mortar net (R25, R28, R48, R469) -/

/-- R48. The home logical tile of an index. -/
def homeOf (e : Env) (i : Nat) : Nat :=
  ((bits i 0 5) ^^^ (bits i 5 5) ^^^ (bits i 10 5) ^^^ (bits i 15 5) ^^^ (bits i 20 4) ^^^ e.kp.salt.toNat) % 32

/-- Log 4. The local port of physical tile t: the integrator's, or the place that log 4 names. -/
def tilePort (e : Env) (t : Nat) : Nat :=
  fgetD e.cfg.tilePorts t
    (if t = 0 then 37 else if t = 1 then 29 else if t = 2 then 141 else if t = 3 then 133
     else if t = 32 then 149 else if t = 33 then 237
     else if t < 32 then (36 + 3 * (t - 4)) * 8 + 5 else (36 + 3 * (t - 6)) * 8 + 5)

/-- Log 4. The local port of joint j. -/
def jointPort (e : Env) (j : Nat) : Nat := fgetD e.cfg.jointPorts j ((12 + j) * 8 + 4)

/-- R19. The physical tile that holds logical tile t. -/
def physOf (e : Env) (t : Nat) : Nat := fgetD e.rep.lmap t t

/-- R52, R382. Logical tile t is unavailable. -/
def unavailable (e : Env) (t : Nat) : Bool := e.rep.unavail.contains t

/-- The router of logical tile t. -/
def tileRouter (e : Env) (t : Nat) : Nat := tilePort e (physOf e t) / 8

/-- The router of joint j. -/
def jointRouter (e : Env) (j : Nat) : Nat := jointPort e j / 8

/-- The router of a port. -/
def portRouter (e : Env) : Port → Nat
  | .joint j => jointRouter e j
  | .tile t => tileRouter e t
  | .router r => r
  | .fabric => e.cfg.fabricPort / 8
  | .keeper => e.cfg.keeperPort / 8

/-- The local port number of a unit at its router. DESIGN CHOICE: a hod that ends in a branch router's entry leaves by local port 4, for the counters (log 45). -/
def portNumber (e : Env) : Port → Nat
  | .joint j => jointPort e j % 8
  | .tile t => tilePort e (physOf e t) % 8
  | .router _ => 4
  | .fabric => e.cfg.fabricPort % 8
  | .keeper => e.cfg.keeperPort % 8

/-- The distance of two numbers. -/
def dist (a b : Nat) : Nat := if a ≤ b then b - a else a - b

/-- Hops between two routers of the 12 x 12 mesh. -/
def hops (a b : Nat) : Nat := dist (a % 12) (b % 12) + dist (a / 12) (b / 12)

/-- R28. The routers of the route from a to b, first along the row and then along the column, both ends included; n bounds the steps. -/
def routeAux : Nat → Nat → Nat → List Nat
  | 0, a, _ => [a]
  | n + 1, a, b =>
    if a = b then [a]
    else if a % 12 < b % 12 then a :: routeAux n (a + 1) b
    else if b % 12 < a % 12 then a :: routeAux n (a - 1) b
    else if a / 12 < b / 12 then a :: routeAux n (a + 12) b
    else a :: routeAux n (a - 12) b

def route (a b : Nat) : List Nat := routeAux 22 a b

/-- R452. The class of the agent in slot s of joint j, or none where the slot has no agent. -/
def agentClass (e : Env) (j s : Nat) : Option Nat :=
  let pr := fgetD e.cfg.present j 0xFF#8
  let c := ((fgetD e.cfg.classes j 0#24).toNat / 2 ^ (3 * s)) % 8
  if pr.getLsbD s && c < 5 then some c else none

/-- R452. Joint j is implemented: some slot has an agent. -/
def implemented (e : Env) (j : Nat) : Bool :=
  j < 128 && (List.range 8).any (fun s => (agentClass e j s).isSome)

/-! ### Time (R393 to R395) -/

/-- Tile cycles in all. -/
def now (e : Env) : Nat := e.clk.edgeCyc + e.clk.cyc

/-- The tile cycles of a reference period at the clock in force: P, halved or doubled where THROTTLE has switched since it was counted. -/
def Clock.rate (c : Clock) : Nat := if c.half == c.perHalf then c.per else if c.half then c.per / 2 else c.per * 2

/-- R394. GT extended between reference edges by interpolation; during a slew every unit takes GT_edge (R398). -/
def gtInterp (e : Env) : Dword :=
  if e.clk.rate = 0 || e.clk.slew ≠ 0 then e.clk.gt else e.clk.gt + BitVec.ofNat 64 (640 * e.clk.cyc / e.clk.rate)

/-- The power state of physical tile t. -/
def ptileOf (e : Env) (t : Nat) : PTile := fgetD e.pwr.ptiles t PTile.init

/-- R394, R395, R398. Physical tile q is locked to GT. -/
def locked (e : Env) (q : Nat) : Bool := (ptileOf e q).lock = 2 && e.clk.slew = 0

/-- R394, R395. The GT that logical tile t takes. -/
def tileGt (e : Env) (t : Nat) : Dword :=
  if locked e (physOf e t) then gtInterp e else e.clk.gt

/-- Log 8. GT has reached t: compared modulo 2^64, as R96 compares courses. -/
def reached (g t : Dword) : Bool := (g - t).toNat < 2 ^ 63

/-- R113, R150. GT units of a deadline in units of 64 ns. -/
def dlUnits (n : Nat) : Dword := BitVec.ofNat 64 (n * 1024)

/-! ### Parts of the data path -/

def jointOf (d : Dp) (j : Nat) : Joint := fgetD d.joints j Joint.init
def setJoint (d : Dp) (j : Nat) (x : Joint) : Dp := { d with joints := fput d.joints j x }
def tileOf (d : Dp) (t : Nat) : Tile := fgetD d.tiles t Tile.init
def setTile (d : Dp) (t : Nat) (x : Tile) : Dp := { d with tiles := fput d.tiles t x }
def partOf (d : Dp) (p : BitVec 4) : Part := fgetD d.parts p.toNat Part.init
def setPart (d : Dp) (p : BitVec 4) (x : Part) : Dp := { d with parts := fput d.parts p.toNat x }
def setBrick (d : Dp) (i : Nat) (x : Brick) : Dp := { d with bricks := fput d.bricks i x }
def agOf (d : Dp) (j : Nat) : AgReg := fgetD d.ag j AgReg.init
def setAg (d : Dp) (j : Nat) (x : AgReg) : Dp := { d with ag := fput d.ag j x }
def linkOf (d : Dp) (r : Nat) : Link := fgetD d.links r Link.init
def setLink (d : Dp) (r : Nat) (x : Link) : Dp := { d with links := fput d.links r x }
def modeOf (d : Dp) (t : Nat) : TcMode := fgetD d.obs.modes t TcMode.init

/-- The key of a submission ring: 8p + r, or 128 for the keeper ring. -/
def ringKey : RingId → Nat
  | .part p r => p.toNat * 8 + r.toNat
  | .keeper => 128

/-- The key of an owner: the partition number, or 16 for the keeper. -/
def ownerKey : Owner → Nat
  | .part p => p.toNat
  | .keeper => 16

def ringOwner : RingId → Owner
  | .part p _ => .part p
  | .keeper => .keeper

def ringOf (d : Dp) (r : RingId) : SubRing := fgetD d.rings (ringKey r) SubRing.init
def setRing (d : Dp) (r : RingId) (x : SubRing) : Dp := { d with rings := fput d.rings (ringKey r) x }
def cmplOf (d : Dp) (o : Owner) : OutRing := fgetD d.cmpl (ownerKey o) OutRing.init
def setCmpl (d : Dp) (o : Owner) (x : OutRing) : Dp := { d with cmpl := fput d.cmpl (ownerKey o) x }
def incRingOf (d : Dp) (p : BitVec 4) : OutRing := fgetD d.incRings p.toNat OutRing.init
def setIncRing (d : Dp) (p : BitVec 4) (x : OutRing) : Dp := { d with incRings := fput d.incRings p.toNat x }
def tringOf (d : Dp) (k : Nat) : OutRing := fgetD d.trings k OutRing.init
def setTring (d : Dp) (k : Nat) (x : OutRing) : Dp := { d with trings := fput d.trings k x }

/-- R329, R331. The partition of agent (j, s), if it is assigned to one. -/
def agentPart (d : Dp) (j s : Nat) : Option (BitVec 4) :=
  let a := agOf d j
  if a.en.getLsbD s then some (BitVec.ofNat 4 (a.part.toNat / 2 ^ (4 * s))) else none

/-- R332. Partition p is suspended. -/
def suspended (d : Dp) (p : BitVec 4) : Bool :=
  match (partOf d p).st with
  | .run | .resetting => false
  | .freezing | .frozen | .saved | .restoring => true

/-- The entries of a ring (R297). -/
def ringSize (c : RingCfg) : Nat := 2 ^ c.log2.toNat

/-- R471's filter: one more sample of the pin. -/
def Filter.sample (f : Filter) (v : Bool) : Filter :=
  if v = f.level then { f with differ := 0 }
  else if f.differ + 1 ≥ 5 then { level := v, differ := 0 }
  else { f with differ := f.differ + 1 }

/-! ### Counters (R401 to R405) -/

/-- R405, R416. Counters count while they are not frozen and the instance is not stopped. -/
def counting (e : Env) (d : Dp) : Bool := !d.obs.frozen && !e.stop.stopped

/-- Table 13.2. n events of partition counter i. -/
def bumpP (e : Env) (d : Dp) (p : BitVec 4) (i n : Nat) : Dp :=
  if counting e d && n != 0 then
    let k := p.toNat * 16 + i
    { d with obs := { d.obs with pctr := fput d.obs.pctr k (fgetD d.obs.pctr k 0 + BitVec.ofNat 48 n) } }
  else d

/-- The key of a keeper counter (Table 13.3). -/
def kctrKey (kind unit ctr : Nat) : Nat := (kind * 2048 + unit) * 64 + ctr

/-- Table 13.3. n events of a keeper counter. -/
def bumpK (e : Env) (d : Dp) (kind unit ctr n : Nat) : Dp :=
  if counting e d && n != 0 then
    let k := kctrKey kind unit ctr
    { d with obs := { d.obs with kctr := fput d.obs.kctr k (fgetD d.obs.kctr k 0 + BitVec.ofNat 48 n) } }
  else d

/-- A tile counter. -/
def bumpT (e : Env) (d : Dp) (t ctr : Nat) : Dp := bumpK e d 0 t ctr 1

/-! ### Memory port and interrupts (R460, R463, R465) -/

/-- One structure written: its bytes are the low len bytes of data, little-endian (R4). -/
def memWrite (d : Dp) (ctx : Nat) (addr : Dword) (len data : Nat) : Dp :=
  { d with port := { d.port with mem := d.port.mem ++ [{ ctx := ctx, addr := addr, len := len, data := data }] } }

/-- R461. One structure read. -/
def memRead (d : Dp) (ctx : Nat) (addr : Dword) (len : Nat) : Dp :=
  { d with port := { d.port with mem := d.port.mem ++ [{ ctx := ctx, addr := addr, len := len, data := 0, read := true }] } }

/-- Table 15.5. One request at the memory port. -/
structure MemReq where
  write : Bool
  addr : Dword
  half : Bool
  ctx : BitVec 5
  data : BitVec 512
  be : BitVec 64
  tag : BitVec 11
  deriving DecidableEq, Repr

/-- R463. The request for the part of a structure in the unit of `size` bytes from `base` on: byte enables for the bytes that belong to the structure. -/
def MemW.unit (m : MemW) (size base n : Nat) : MemReq :=
  let at_ := m.addr.toNat
  let lo := max at_ base
  let hi := min (at_ + m.len) (base + size)
  { write := !m.read, addr := BitVec.ofNat 64 base, half := size == 32, ctx := BitVec.ofNat 5 m.ctx, tag := Config.memTag n
    data := if m.read then 0 else BitVec.ofNat 512 (bits m.data (8 * (lo - at_)) (8 * (hi - lo)) * 2 ^ (8 * (lo - base)))
    be := if m.read then 0 else BitVec.ofNat 64 ((2 ^ (hi - lo) - 1) * 2 ^ (lo - base)) }

/-- R460, R463. The requests of one structure, of which the first is number n at the port: one of 32 bytes for 32 aligned bytes written, else one for each aligned unit of 64 bytes that it touches; every read is of 64 bytes (R166). -/
def MemW.requests (m : MemW) (n : Nat) : List MemReq :=
  let at_ := m.addr.toNat
  if m.read = false ∧ m.len = 32 ∧ at_ % 32 = 0 then [m.unit 32 at_ n]
  else (List.range (ceilDiv (at_ % 64 + m.len) 64)).map (fun k => m.unit 64 ((at_ / 64 + k) * 64) (n + k))

/-- Table 15.5. The requests of the structures in their order, the first of them number n. -/
def memRequests : List MemW → Nat → List MemReq
  | [], _ => []
  | m :: l, n => let r := m.requests n; r ++ memRequests l (n + r.length)

/-- R465. One pulse of an interrupt line. -/
def pulse (d : Dp) (line : Nat) : Dp :=
  { d with port := { d.port with irq := fput d.port.irq line (fgetD d.port.irq line 0 + 1) } }

/-- What the engine puts on the fabric port. -/
def fabOut (d : Dp) (x : FabOut) : Dp := { d with port := { d.port with fab := d.port.fab ++ [x] } }

/-- Log 6. The next free value's index, and the counter advanced. -/
def nextFree (d : Dp) : Nat × Dp := (d.free, { d with free := d.free + 1 })

/-! ### Trace (R406 to R411) -/

/-- The destination of a record (R412): the keeper's ring when ALL is 1 or PARTV is 0. -/
def TRec.dest (r : TRec) (all : Bool) : Nat :=
  match r.part with
  | some p => if all then 16 else p.toNat
  | none => 16

/-- A record of a kind with nothing else in it. -/
def TRec.blank (kind : Nat) : TRec :=
  { kind := BitVec.ofNat 6 kind, stretch := false, stopped := false, gt := 0, handle := 0, tag := 0, course := 0
    agent := 0, gang := 0, status := 0, opcode := 0, part := none, aux := 0 }

/-- R406. The slots of a tile's buffer in use: 32 for each KiB of SIZE, of which 17 to 31 act as 16. -/
def traceSlots (m : TcMode) : Nat := 32 * min m.size.toNat 16

/-- R410. The DROP record of destination dest. -/
def TRec.isDrop (dest : Nat) (r : TRec) : Bool := r.kind = 0x3F#6 && r.dest false = dest

/-- R410. n further losses are added to an undrained DROP record. -/
def TRec.more (n : Nat) (r : TRec) : TRec := { r with course := BitVec.ofNat 32 (min (r.course.toNat + n) 0xFFFFFFFF) }

/-- R410. n lost records of destination dest are counted at tile t. -/
def countLost (e : Env) (d : Dp) (t dest n : Nat) : Dp :=
  let d := bumpK e d 0 t 36 n
  if dest < 16 then bumpP e d (BitVec.ofNat 4 dest) 15 n else d

/-- R410. What tile t owes destination dest for n lost records: an undrained DROP record of it takes them, else the tile's loss count. -/
def traceOwe (d : Dp) (t dest n : Nat) : Dp :=
  let x := tileOf d t
  let b := x.trace
  let b := if b.recs.any (TRec.isDrop dest) then { b with recs := modFirst (TRec.isDrop dest) (TRec.more n) b.recs }
    else { b with lost := fput b.lost dest (min (fgetD b.lost dest 0 + n) 0xFFFFFFFF) }
  setTile d t { x with trace := b }

/-- R410. n records of destination dest are lost at tile t. -/
def traceLose (e : Env) (d : Dp) (t dest n : Nat) : Dp := countLost e (traceOwe d t dest n) t dest n

/-- R410. A record leaves tile t's buffer undrained: the count of a DROP record returns to what its destination has lost. -/
def traceReturn (t : Nat) (d : Dp) (r : TRec) : Dp := if r.kind = 0x3F#6 then traceOwe d t (r.dest false) r.course.toNat else d

/-- R410, R411. The oldest record of tile t is overwritten: a loss in WRAP, where R410 counts it, and none in CENTRE. -/
def traceOverwrite (e : Env) (d : Dp) (t : Nat) : Dp :=
  let x := tileOf d t
  match x.trace.recs with
  | [] => d
  | r :: rest =>
    let d := setTile d t { x with trace := { x.trace with recs := rest } }
    if r.kind = 0x3F#6 then traceReturn t d r
    else if (modeOf d t).mode = 2#2 then d
    else traceLose e d t (r.dest d.obs.all) 1

/-- R411. The buffer of tile t takes no record now: frozen by the trigger, a STOP buffer that has been full, or a CENTRE buffer that has filled. -/
def traceRefuses (d : Dp) (t : Nat) : Bool :=
  let m := modeOf d t
  let b := (tileOf d t).trace
  b.refuse || ((m.mode = 1#2 || m.mode = 2#2) && b.after_ = some 0)

/-- A record put in, with the oldest overwritten where the buffer is circular and full (R411): a DROP record takes on what its own entry loses (R410). -/
def tracePut (e : Env) (d : Dp) (t : Nat) (r : TRec) : Dp :=
  let m := modeOf d t
  let x := tileOf d t
  let b := x.trace
  let circular := m.mode = 0#2 || m.mode = 3#2 || (m.mode = 2#2 && b.after_ = none)
  let full := m.mode = 1#2 && decide (traceSlots m - 1 ≤ b.recs.length + 1)
  let d := setTile d t { x with trace := { b with recs := b.recs ++ [r], after_ := if full then some 0 else b.after_.map (fun k => k - 1) } }
  let d := if circular && decide (traceSlots m - 1 ≤ b.recs.length) then traceOverwrite e d t else d
  bumpT e d t 35

/-- R410. The DROP record of destination dest. -/
def dropRec (e : Env) (t dest n : Nat) : TRec :=
  { TRec.blank 0x3F with gt := tileGt e t, stretch := !locked e (physOf e t), stopped := (ptileOf e (physOf e t)).asleep, course := BitVec.ofNat 32 n, part := if dest < 16 then some (BitVec.ofNat 4 dest) else none }

/-- R410. A waiting loss count becomes a DROP record before the destination's next record: true when it is written or none waits. In a buffer that refuses records it takes a free slot, the reserved one among them. -/
def traceDrop (e : Env) (d : Dp) (t dest : Nat) : Bool × Dp :=
  let b := (tileOf d t).trace
  let n := fgetD b.lost dest 0
  if n = 0 then (true, d)
  else
    let put := fun (d : Dp) => tracePut e (setTile d t { tileOf d t with trace := { b with lost := fdel b.lost dest } }) t (dropRec e t dest n)
    if !traceRefuses d t then (true, put d)
    else if b.recs.length < traceSlots (modeOf d t) then
      let x := tileOf d t
      (false, bumpT e (setTile d t { x with trace := { b with lost := fdel b.lost dest, recs := b.recs ++ [dropRec e t dest n] } }) t 35)
    else (false, d)

/-- R408 to R411. Tile t writes record r of group g. -/
def trace (e : Env) (d : Dp) (t : Nat) (g : Option Nat) (r : TRec) : Dp :=
  let m := modeOf d t
  let on := m.size ≠ 0#5 && !e.stop.stopped && (match g with | some i => m.kinds.getLsbD i | none => true)
  let admitted := match r.part with | some p => d.obs.pfilt.getLsbD p.toNat | none => true
  if !(on && admitted) then d
  else
    let r := { r with stretch := !locked e (physOf e t), stopped := r.stopped || (ptileOf e (physOf e t)).asleep }
    let dest := r.dest d.obs.all
    let gone := (tringOf d dest).state = .disabled
      || (match r.part with | some p => !d.obs.all && suspended d p | none => false)
    if gone then traceLose e d t dest 1
    else
      let (ok, d) := traceDrop e d t dest
      if ok && !traceRefuses d t then tracePut e d t r else traceLose e d t dest 1

/-! ### Incident reports (R357 to R362, R497) -/

/-- Table 12.4: the class of each kind. -/
def IncKind.cls : IncKind → IncClass
  | .mirrorGap | .config | .staleHod => .notice
  | .backstore | .power | .engine | .fatalOvf => .fatal
  | .access | .timeout | .depart | .poison | .partial_ | .xlateFault | .doorbell | .auth | .uplink | .linkCut
  | .jointStall | .meshEcc | .tileFault | .fence | .sparesOut | .overflow => .error

/-- Table 12.4: the code of each kind. -/
def IncKind.code : IncKind → Nat
  | .access => 0x01 | .timeout => 0x02 | .depart => 0x03 | .poison => 0x04 | .partial_ => 0x05
  | .xlateFault => 0x06 | .doorbell => 0x07 | .auth => 0x08 | .uplink => 0x09 | .linkCut => 0x0A
  | .jointStall => 0x0B | .meshEcc => 0x0C | .tileFault => 0x0D | .fence => 0x0E | .sparesOut => 0x0F
  | .mirrorGap => 0x10 | .config => 0x11 | .staleHod => 0x12 | .backstore => 0x13 | .power => 0x14
  | .engine => 0x15 | .overflow => 0x16 | .fatalOvf => 0x17

/-- Table 12.4: the kinds that are also reported up the hall. -/
def IncKind.hall : IncKind → Bool
  | .auth | .uplink | .linkCut | .sparesOut | .power => true
  | _ => false

/-- Table 12.1: the class codes. -/
def IncClass.code : IncClass → Nat
  | .notice => 0 | .error => 1 | .fatal => 2

/-- R361, R483. A key of this instance. -/
def mkKey (e : Env) (sk sid : Nat) (k : IncKind) : IncKey :=
  { node := e.kp.node, die := e.cfg.die, srcKind := BitVec.ofNat 4 sk, srcId := BitVec.ofNat 32 sid, kind := k }

/-- A report of one event, with no detail. -/
def mkReport (e : Env) (key : IncKey) (part : Option (BitVec 4)) : Report :=
  { key := key, hall := false, part := part, d0 := 0, d1 := 0, d2 := 0, maps := [], count := 1, gtFirst := gtInterp e }

/-- R235. The kinds whose number every FENCED or LOST answer carries, whichever unit gives it. -/
def IncKind.pinned : IncKind → Bool
  | .fence | .tileFault => true
  | _ => false

/-- R235. The kinds whose number later POISONED (R118, R209, R263, R268) and XLATE_FAULT answers of the reporting unit carry, however many keys it has had since. -/
def IncKind.kept : IncKind → Bool
  | .poison | .depart | .partial_ | .uplink | .linkCut | .xlateFault => true
  | _ => false

/-- R362, R235. The number that source src knows for a key: one of its last eight, one that its answers still need, or that of the fence or tile fault. -/
def numberOf (d : Dp) (src : Source) (key : IncKey) : Option Word :=
  if key.kind.pinned then (d.inc.pinned.find? (fun x => decide (x.2.1 = key))).map (fun x => x.2.2)
  else ((d.inc.known ++ d.inc.pinned).find? (fun x => decide (x.1 = src ∧ x.2.1 = key))).map (fun x => x.2.2)

/-- R381. A fence that is lifted or made anew has no number yet. -/
def forgetNumber (d : Dp) (key : IncKey) : Dp :=
  { d with inc := { d.inc with pinned := d.inc.pinned.filter (fun x => decide (x.2.1 ≠ key)), known := d.inc.known.filter (fun x => decide (x.2.1 ≠ key)) } }

/-! ### Hods (R22, R27, R28) -/

/-- The bytes of grout that a payload takes. -/
def Payload.bytes : Payload → Nat
  | .none => 0
  | .one _ _ b => b.length
  | .acc _ n => n

/-- R27, R199. The bytes of grout, result beats or tokens that a hod carries; the target or deadline of a request is one of its fields. DESIGN CHOICE (log 69): a bounce hod brings the contribution's grout back. -/
def HodBody.bytes : HodBody → Nat
  | .arrival a | .bounce a => a.pay.bytes
  | .release r | .watcher r => 16 * r.beats.length
  | .resp _ r => 16 * r.beats.length
  | .req _ _ x => (match x.op with
    | .arrive | .arriveWait => 16 * x.req.beats.length
    | .tokPut => 8 * x.req.count.toNat
    | _ => 0)
  | .fwdPut _ _ p => 8 * p.toks.length
  | .mirUpd _ n => n
  | _ => 0

/-- R27, R198. The hods of a train: at most 10 flits, and so 64 bytes, in each. DESIGN CHOICE (log 60): a train of a configuration or lane count that R198 does not name is packed in the same way. -/
def HodBody.hods (b : HodBody) : Nat := max 1 (ceilDiv b.bytes 64)

/-- R27. The flits of a hod, or of its train: two for each hod, and one for each 8 bytes of grout. -/
def HodBody.flits (b : HodBody) : Nat := 2 * b.hods + ceilDiv b.bytes 8

/-- R24. One flit: ECC [87:80], route and control [79:64], payload [63:0]. -/
def flit (control : BitVec 16) (payload : Dword) : BitVec 88 := Config.flitEcc (control ++ payload) ++ (control ++ payload)

/-- R24, R27. The flits of one hod from local port `src` to `dst` on a channel: the handle, the other fields, and at most 8 payload flits of grout. -/
def hodFlits (src dst vc fields : Nat) (handle : Dword) (grout : List Dword) : List (BitVec 88) :=
  (handle :: Config.hodFields fields :: grout.take 8).zipIdx.map (fun x => flit (Config.flitControl src dst vc x.2) x.1)

/-- The mesh port by which a route goes from router a to its neighbour b: 0 north, 1 east, 2 south, 3 west. DESIGN CHOICE (log 44): columns rise to the east and rows to the south. -/
def meshPort (a b : Nat) : Nat :=
  if b = a + 1 then 1 else if b + 1 = a then 3 else if b = a + 12 then 2 else 0

def vcIndex : VC → Nat
  | .rsp => 0 | .req => 1 | .mgmt => 2 | .obs => 3

/-- Table 13.3, router ports: a train of k hods and n flits leaves by output port `u` (router x 8 + port). -/
def countPort (e : Env) (vc : VC) (k n : Nat) (d : Dp) (u : Nat) : Dp :=
  let d := bumpK e d 1 u 0 k
  let d := bumpK e d 1 u 1 n
  bumpK e d 1 u (2 + vcIndex vc) n

/-- The output ports (router x 8 + port) on a route that leaves its last router by local port `last`. -/
def routePorts (last : Nat) : List Nat → List Nat
  | [] => []
  | [r] => [r * 8 + last]
  | r :: r' :: rest => (r * 8 + meshPort r r') :: routePorts last (r' :: rest)

/-- Output ports count a train of k hods and n flits. -/
def countPorts (e : Env) (vc : VC) (k n : Nat) (l : List Nat) (d : Dp) : Dp := l.foldl (countPort e vc k n) d

/-- R28, R34. The routers on the way of a hod: by dimension order, and for a release down the combining tree, which joint-to-home routes make. -/
def hodRoute (e : Env) (src dst : Port) : HodBody → List Nat
  | .release _ => (route (portRouter e dst) (portRouter e src)).reverse
  | _ => route (portRouter e src) (portRouter e dst)

/-- R33. Where a hod on its way comes from: its source, or the branch router that has passed it on. -/
def Hod.origin (h : Hod) : Port := match h.via with | some r => .router r | none => h.src

/-- The output ports on the way of a hod. -/
def hodPorts (e : Env) (src dst : Port) (body : HodBody) : List Nat := routePorts (portNumber e dst) (hodRoute e src dst body)

/-! ### Reports to the incident unit (R357 to R362, R497) -/

/-- R497. The router of a source, whose reports go to the incident unit as MGMT hods; the always-on domain reaches it directly. -/
def Source.site (e : Env) : Source → Option Nat
  | .joint j => some (jointRouter e j)
  | .tile t => some (tileRouter e t)
  | .router r => some r
  | .fabric => some (portRouter e .fabric)
  | .regPort | .alwaysOn => none

/-- R497. The local port of a source at its router; a router's own reports have none. -/
def Source.port (e : Env) : Source → Nat
  | .joint j => portNumber e (.joint j)
  | .tile t => portNumber e (.tile t)
  | .fabric => portNumber e .fabric
  | .router _ | .regPort | .alwaysOn => 4

/-- R497. The routers between a source and the router of the keeper interface. -/
def reportRoute (e : Env) (src : Source) : List Nat :=
  match src.site e with
  | some r => route r (portRouter e .keeper)
  | none => []

/-- R497. A report, or a number on its way back, is one MGMT hod: the output ports on its way count it. -/
def reportHod (e : Env) (src : Source) (back : Bool) (d : Dp) : Dp :=
  let l := reportRoute e src
  countPorts e .mgmt 1 2 (if back then routePorts (src.port e) l.reverse else routePorts (portNumber e .keeper) l) d

/-- R358. Source src makes a report: it adds to a buffered one of its key; a NOTICE that finds the buffer full is dropped and counted; an ERROR then waits, as does a FATAL behind the one that is buffered. -/
def report (e : Env) (d : Dp) (src : Source) (r : Report) : Dp :=
  let same := fun (x : Source × Report) => decide (x.1 = src ∧ x.2.key = r.key)
  let buffered := (d.inc.reports.filter (fun x => decide (x.1 = src) && decide (x.2.key.kind.cls ≠ .fatal))).length
  if d.inc.reports.any same then
    { d with inc := { d.inc with reports := modFirst same (fun x => (x.1, { x.2 with count := x.2.count + r.count })) d.inc.reports } }
  else if r.key.kind.cls = .notice && buffered ≥ 4 then bumpK e d 4 0 2 1
  else reportHod e src false { d with inc := { d.inc with reports := d.inc.reports ++ [(src, r)] } }

/-- A CONFIG NOTICE of the instance about a register (Table 12.4). -/
def configNotice (e : Env) (d : Dp) (off : Nat) : Dp :=
  report e d .regPort { mkReport e (mkKey e 0 0 .config) none with d0 := BitVec.ofNat 64 off }

/-! ### Sending and taking (R28, R34, R374) -/

/-- R374. The router of a tile under test holds 64 hods; a further REQ or MGMT hod goes back to its sender. -/
def sentBack (d : Dp) (dst : Port) (vc : VC) : Bool :=
  match dst with
  | .tile t => (vc == .req || vc == .mgmt) && (tileOf d t).test.isSome
      && decide (64 ≤ (d.net.filter (fun h => h.dst == dst && !h.back)).length)
  | _ => false

/-- R374. A hod stands in the net; it enters at tile cycle `ready`, or 256 cycles from now where it is sent back. -/
def place (e : Env) (d : Dp) (src dst : Port) (vc : VC) (part : BitVec 4) (body : HodBody) (ready : Nat) : Dp :=
  let back := sentBack d dst vc
  let h : Hod := { seq := d.seq, src := src, dst := dst, vc := vc, part := part, body := body, ready := if back then now e + 256 else ready, back := back }
  { d with net := d.net ++ [h], seq := d.seq + 1 }

/-- R28, R374. A hod enters the mortar net at tile cycle `ready`; the output ports on its way count it. -/
def sendAt (e : Env) (d : Dp) (src dst : Port) (vc : VC) (part : BitVec 4) (body : HodBody) (ready : Nat) : Dp :=
  place e (countPorts e vc body.hods body.flits (hodPorts e src dst body) d) src dst vc part body ready

/-- A hod enters the mortar net. -/
def send (e : Env) (d : Dp) (src dst : Port) (vc : VC) (part : BitVec 4) (body : HodBody) : Dp :=
  sendAt e d src dst vc part body (now e)

/-- R28, R33. Branch router r passes hod h on to `dst`, unchanged but for its content: it stays the hod that its port sent, in its place among the others of that port. -/
def passOn (e : Env) (d : Dp) (h : Hod) (r : Nat) (dst : Port) (body : HodBody) : Dp :=
  let d := countPorts e h.vc body.hods body.flits (hodPorts e (.router r) dst body) d
  let back := sentBack d dst h.vc
  { d with net := d.net ++ [{ h with dst := dst, body := body, ready := if back then now e + 256 else h.ready, back := back, via := some r }] }

/-- A prepared hod enters the mortar net. -/
def sendHod (e : Env) (d : Dp) (h : Hod) : Dp := send e d h.src h.dst h.vc h.part h.body

/-- R34. The ports at which release r has been counted by earlier copies. -/
def copiedPorts (e : Env) (r : Rel) (l : List Hod) : List Nat :=
  l.flatMap (fun g => match g.body with
    | .release q => if q = r then hodPorts e g.origin g.dst g.body else []
    | _ => [])

/-- R34. A hod of a group that leaves its tile together: of a release, the home tile sends one hod, which the branch routers copy, so an output port counts it once. -/
def sendOf (e : Env) (before : List Hod) (d : Dp) (h : Hod) : Dp :=
  match h.body with
  | .release r =>
    let seen := copiedPorts e r before
    place e (countPorts e h.vc h.body.hods h.body.flits ((hodPorts e h.src h.dst h.body).filter (fun u => !seen.contains u)) d) h.src h.dst h.vc h.part h.body (now e)
  | _ => sendHod e d h

/-- Prepared hods enter the net in order. -/
def sendFrom (e : Env) : List Hod → List Hod → Dp → Dp
  | _, [], d => d
  | before, h :: hs, d => sendFrom e (before ++ [h]) hs (sendOf e before d h)

def sendAll (e : Env) (hs : List Hod) (d : Dp) : Dp := sendFrom e [] hs d

/-- A hod as it is prepared, before it is sent. -/
def mkHod (src dst : Port) (vc : VC) (part : BitVec 4) (body : HodBody) : Hod :=
  { seq := 0, src := src, dst := dst, vc := vc, part := part, body := body, ready := 0, back := false }

/-- R28, R33, R115. The local port at which a hod ends: a shrink hod passes the branch routers on its way to the home tile. -/
def Hod.ends (e : Env) (h : Hod) : Port :=
  match h.dst, h.body with
  | .router _, .shrink i _ _ _ _ _ _ => .tile (homeOf e i)
  | p, _ => p

/-- R28. Hod g went before hod h: the same source, destination and channel, and sent earlier. -/
def Hod.before (e : Env) (g h : Hod) : Bool :=
  decide (g.src = h.src ∧ (g.dst = h.dst ∨ g.ends e = h.dst) ∧ g.vc = h.vc) && !g.back
    && (decide (g.ready < h.ready) || (g.ready == h.ready && decide (g.seq < h.seq)))

/-- R28. The hod at place n of the net may be taken: none went before it, it has been sent and is not on its way back, and the instance runs. -/
def takeable (e : Env) (d : Dp) (n : Nat) : Option Hod :=
  match d.net[n]? with
  | none => none
  | some h =>
    if d.net.any (fun g => g.before e h) || h.back || decide (now e < h.ready) || e.stop.stopped || e.pwr.pfFrozen then none
    else some h

/-- The net without the hod at place n. -/
def dropHod (d : Dp) (n : Nat) : Dp := { d with net := eraseAt d.net n }

/-! ### Tiles: taking hods, sleep (R175, R428 to R430) -/

/-- R428. The handles of Table 13.5's WAKE record. -/
def wakeRec (e : Env) (t : Nat) (byHod : Bool) : TRec :=
  { TRec.blank 0x0B with gt := tileGt e t, aux := if byHod then 1 else 0 }

/-- R428. What has been outstanding at tile t ends: its idle time for SLEEP counts from now. -/
def stillBusy (e : Env) (d : Dp) (t : Nat) : Dp := setTile d t { tileOf d t with idleSince := gtInterp e }

/-- The idle time of tile t starts again, and channel counters count one hod taken (Table 13.3, 6 to 8). -/
def tookHod (e : Env) (d : Dp) (t : Nat) (vc : VC) : Dp :=
  let x := tileOf d t
  let cyc := if vc = .rsp || vc = .req then now e else x.idleCyc
  let d := setTile d t { x with idleSince := gtInterp e, idleCyc := cyc }
  match vc with
  | .rsp => bumpT e d t 6
  | .req => bumpT e d t 7
  | .mgmt => bumpT e d t 8
  | .obs => d

/-- Table 13.3, R27. Tile t takes a train of k hods. -/
def tookTrain (e : Env) (d : Dp) (t : Nat) (vc : VC) (k : Nat) : Dp :=
  let d := tookHod e d t vc
  match vc with
  | .rsp => bumpK e d 0 t 6 (k - 1)
  | .req => bumpK e d 0 t 7 (k - 1)
  | .mgmt => bumpK e d 0 t 8 (k - 1)
  | .obs => d

/-- R374, R382, R428. Tile t can take a hod: it is available and awake, and no self-test holds it. -/
def tileServes (e : Env) (d : Dp) (t : Nat) : Bool :=
  !unavailable e t && (tileOf d t).test.isNone && !(ptileOf e (physOf e t)).asleep && e.pwr.ready && !e.stop.stopped && !e.pwr.pfFrozen

end Sys2Proof.Machine
end

