-- ==== Sys2Proof/Machine/Operands.lean ====
section
/-! DEFINITION. Sys2Proof/Machine/Operands.lean: the operand forms: handles, request fields, descriptor parameters, and the checks that depend on them alone. -/

namespace Sys2Proof.Machine

/-! ### Handles (Table 2.2) -/

def hNode (h : Dword) : BitVec 16 := h.extractLsb' 48 16
def hDie (h : Dword) : BitVec 3 := h.extractLsb' 45 3
def hPart (h : Dword) : BitVec 4 := h.extractLsb' 41 4
def hIndex (h : Dword) : Nat := (h.extractLsb' 17 24).toNat
def hGen (h : Dword) : BitVec 8 := h.extractLsb' 9 8
def hType (h : Dword) : BitVec 3 := h.extractLsb' 6 3

/-- Table 2.1: the code of a brick type. -/
def BType.code : BType → Nat
  | .barrier => 0 | .semaphore => 1 | .lock => 2 | .pallet => 3 | .event => 4

/-- Table 2.1, read: 5 to 7 are reserved. -/
def BType.ofCode : Nat → Option BType
  | 0 => some .barrier | 1 => some .semaphore | 2 => some .lock | 3 => some .pallet | 4 => some .event
  | _ => none

/-- R42. The engine composes a handle. -/
def mkHandle (e : Env) (part : BitVec 4) (index : Nat) (gen : BitVec 8) (t : BType) : Dword :=
  BitVec.ofNat 64 (pack [(48, 16, e.kp.node.toNat), (45, 3, e.cfg.die.toNat), (41, 4, part.toNat), (17, 24, index),
    (9, 8, gen.toNat), (6, 3, t.code)])

/-- The handle of the brick at an index. -/
def brickHandle (e : Env) (i : Nat) (b : Brick) : Dword := mkHandle e b.part i b.gen b.typ

/-- Table 2.3, steps 1 and 2. The handle names a brick of this instance. -/
def handleHere (e : Env) (h : Dword) : Bool := decide (h.extractLsb' 0 6 = 0#6 ∧ hNode h = e.kp.node ∧ hDie h = e.cfg.die)

/-- Table 2.3, steps 1 to 5, for an issuer of partition p (none on the keeper ring, which any partition's handle passes) and the types an opcode is defined for. -/
def handleFront (e : Env) (p : Option (BitVec 4)) (types : List BType) (h : Dword) : Option Status :=
  if !handleHere e h then some .badHandle
  else if (match p with | some q => decide (hPart h ≠ q) | none => false) then some .access
  else
    match BType.ofCode (hType h).toNat with
    | none => some .badType
    | some t => if types.contains t then none else some .badType

/-! ### Agent operations (Table 8.3) -/

/-- Table 8.3: the opcode of an operation. -/
def AOp.code : AOp → Nat
  | .arrive => 0x01 | .arriveWait => 0x02 | .wait => 0x03 | .test => 0x04
  | .semTake => 0x08 | .semTry => 0x09 | .semGive => 0x0A
  | .lockAcq => 0x10 | .lockTry => 0x11 | .lockRel => 0x12
  | .tokPut => 0x18 | .tokGet => 0x19 | .tokTryget => 0x1A
  | .evtSet => 0x20 | .evtWait => 0x21 | .evtClear => 0x22 | .query => 0x30

/-- Table 8.3: the types an operation is defined for. -/
def AOp.types : AOp → List BType
  | .arrive | .arriveWait | .wait => [.barrier]
  | .test | .query => [.barrier, .semaphore, .lock, .pallet, .event]
  | .semTake | .semTry | .semGive => [.semaphore]
  | .lockAcq | .lockTry | .lockRel => [.lock]
  | .tokPut | .tokGet | .tokTryget => [.pallet]
  | .evtSet | .evtWait | .evtClear => [.event]

/-- Table 8.3: release class, which goes on only after its seal (R237). -/
def AOp.release : AOp → Bool
  | .arrive | .arriveWait | .semGive | .lockRel | .tokPut | .evtSet => true
  | .wait | .test | .semTake | .semTry | .lockAcq | .lockTry | .tokGet | .tokTryget | .evtWait | .evtClear | .query => false

/-- Table 8.3: the defined opcodes. -/
def definedOps : List Nat :=
  [AOp.arrive, .arriveWait, .wait, .test, .semTake, .semTry, .semGive, .lockAcq, .lockTry, .lockRel, .tokPut, .tokGet, .tokTryget, .evtSet, .evtWait,
    .evtClear, .query].map AOp.code

/-- R228, R249. The request carries an opcode that Table 8.3 does not define. -/
def reqUndefined (r : Req) : Bool := r.undef.any (fun c => !definedOps.contains c.toNat)

/-- Table 8.3: the types for which a request's opcode is defined; an undefined opcode has none. -/
def reqTypes (r : Req) (op : AOp) : List BType := if reqUndefined r then [] else op.types

/-- R225. The request beat of an operation. -/
def reqBeat (r : Req) (op : AOp) : Beat :=
  BitVec.ofNat 128 (pack [(64, 64, r.handle.toNat), (58, 6, (r.undef.map BitVec.toNat).getD op.code), (52, 6, r.gang.toNat), (48, 4, r.flags.toNat),
    (32, 16, r.count.toNat), (0, 32, r.tag.toNat)])

/-- R132. PRIO, and the deadline of an acquire or take. -/
def reqPrio (r : Req) : BitVec 3 := r.flags.extractLsb' 0 3

def reqDl (r : Req) : Bool := r.flags.getLsbD 3

def reqDeadline (r : Req) : Nat :=
  match r.beats with
  | b :: _ => if reqDl r then bits b.toNat 0 24 else 0
  | [] => 0

/-- R105. The target course of a WAIT or TEST. -/
def reqTarget (r : Req) : Word :=
  match r.beats with
  | b :: _ => b.extractLsb' 0 32
  | [] => 0

/-- R160. SEL and STRIPE of a token operation, and the tokens of a put. -/
def reqSel (r : Req) : Bool := r.flags.getLsbD 3

def reqStripe (r : Req) : Nat := (r.flags.extractLsb' 0 3).toNat

def reqTokens (r : Req) : List Dword :=
  (List.range r.count.toNat).map (fun i =>
    match r.beats[i / 2]? with
    | some b => BitVec.ofNat 64 (bits b.toNat (64 * (i % 2)) 64)
    | none => 0)

/-- R132, R154. One deadline beat with bits [127:24] zero when DL is 1, and no beat when it is 0. -/
def dlBeatOk (r : Req) : Bool :=
  match r.beats with
  | [] => !reqDl r
  | [b] => reqDl r && decide (b.toNat < 2 ^ 24)
  | _ => false

/-- R105, R128. One target beat with bits [127:32] zero. -/
def targetBeatOk (r : Req) : Bool :=
  match r.beats with
  | [b] => decide (b.toNat < 2 ^ 32)
  | _ => false

/-- R160, R179. ceil(n / 2) token beats, the unused half of the last zero. -/
def tokBeatsOk (r : Req) : Bool :=
  r.beats.length == (r.count.toNat + 1) / 2
  && (r.count.toNat % 2 == 0 || (match r.beats.getLast? with | some b => decide (b.toNat < 2 ^ 64) | none => true))

/-- Table 8.4, step 4, for what the request alone decides: COUNT, FLAGS and following beats under Table 8.3 and the type chapters. An arrival's grout and count are judged against its bed or at its home (R97, R192). -/
def formOk (op : AOp) (t : BType) (r : Req) : Bool :=
  match op with
  | .arrive | .arriveWait => true
  | .wait => r.count = 0#16 && r.flags = 0#4 && targetBeatOk r
  | .test =>
    if t = .barrier then r.count = 0#16 && r.flags = 0#4 && targetBeatOk r
    else r.count = 0#16 && r.flags = 0#4 && r.beats.isEmpty
  | .semTake | .semTry => dlBeatOk r
  | .semGive => r.flags = 0#4 && r.beats.isEmpty
  | .lockAcq | .lockTry => r.count = 0#16 && dlBeatOk r
  | .lockRel => r.count = 0#16 && r.flags = 0#4 && r.beats.isEmpty
  | .tokPut => decide (r.count.toNat ≤ 8) && tokBeatsOk r
  | .tokGet | .tokTryget => decide (r.count.toNat ≤ 16) && r.beats.isEmpty
  | .evtSet | .evtWait | .evtClear | .query => r.count = 0#16 && r.flags = 0#4 && r.beats.isEmpty

/-- R96. Target t has completed when COURSE is c. -/
def completed (c t : Word) : Bool := (c - t).toNat < 2 ^ 31

/-! ### Descriptors (Tables 10.3 and 10.5) -/

/-- A field of a descriptor. -/
def dfield (x : BitVec 512) (lo w : Nat) : Nat := bits x.toNat lo w

def dOp (x : BitVec 512) : Nat := dfield x 0 8
def dIrq (x : BitVec 512) : Bool := x.getLsbD 8
def dTag (x : BitVec 512) : Word := x.extractLsb' 32 32
def dHandle (x : BitVec 512) : Dword := x.extractLsb' 64 64

/-- Table 10.5: the parameter fields (place, width) of an opcode, or none where it is undefined. -/
def dFields : Nat → Option (List (Nat × Nat))
  | 0x40 => some [(128, 3), (131, 1), (132, 1), (133, 3), (136, 8), (144, 7), (160, 13), (176, 4), (192, 64)]
  | 0x41 => some [(64, 64), (128, 1), (160, 13), (192, 64)]
  | 0x42 => some [(64, 64), (128, 24), (152, 8), (160, 1), (161, 2)]
  | 0x43 => some [(64, 64), (128, 11), (144, 7), (192, 64)]
  | 0x44 => some [(64, 64), (128, 3), (132, 3), (136, 1), (137, 1), (138, 1), (140, 6), (148, 2), (152, 3)]
  | 0x45 => some [(64, 64), (128, 11), (140, 3), (144, 5), (192, 64)]
  | 0x46 => some [(64, 64), (128, 3), (132, 3), (136, 6), (144, 8), (152, 8), (192, 64), (256, 64)]
  | 0x47 => some [(64, 64), (128, 3), (132, 5), (137, 3), (140, 1), (192, 64)]
  | 0x48 => some [(64, 64), (160, 13), (192, 64), (256, 64)]
  | 0x49 => some []
  | 0x4A => some [(128, 8)]
  | 0x50 => some [(128, 4), (192, 64)]
  | 0x51 => some [(128, 4), (192, 64)]
  | 0x52 => some [(128, 2), (130, 1), (136, 11)]
  | 0x53 => some [(128, 5), (136, 6)]
  | _ => none

/-- The bits of some fields as one mask. -/
def maskOf (fs : List (Nat × Nat)) : Nat := (fs.map (fun f => (2 ^ f.2 - 1) * 2 ^ f.1)).sum

/-- Table 10.4, step 4: every bit outside the header and the opcode's parameters is zero. OPCODE, IRQ and TAG are the header's; HANDLE counts where Table 10.5 names a brick. -/
def reservedOk (x : BitVec 512) (fs : List (Nat × Nat)) : Bool :=
  x &&& ~~~(BitVec.ofNat 512 (maskOf ((0, 9) :: (32, 32) :: fs))) = 0#512

/-- The types for which step 5 of Table 2.3 admits a descriptor's opcode. -/
def dTypes : Nat → List BType
  | 0x42 | 0x43 | 0x44 | 0x45 | 0x46 => [.barrier]
  | 0x47 => [.pallet]
  | 0x41 | 0x48 => [.barrier, .semaphore, .lock, .pallet, .event]
  | _ => []

end Sys2Proof.Machine
end

