-- ==== Sys2Proof/Machine/Records.lean ====
section
/-! DEFINITION. Sys2Proof/Machine/Records.lean: the bit layouts of what the engine writes to memory: brick records, waiter entries, completions, trace and incident records. -/

namespace Sys2Proof.Config

/-- Log 6. The granules of a grout run: what the barrier holds in them. -/
opaque groutImage : Machine.Run → Option Machine.Grout → Nat

/-- Log 6. The 9 granules of a stripe: its record beside Table 5.2 and its head cache. -/
opaque stripeImage : Machine.Stripe → Nat

end Sys2Proof.Config

namespace Sys2Proof.Machine

def b2n (b : Bool) : Nat := if b then 1 else 0

/-- R185. The run in force on a barrier: one that waits switches GRT_BASE and GRT_COUNT at its boundary. -/
def Barrier.run (b : Barrier) : Option Run := b.grout.map (fun g => g.run)

/-- Table 2.4. The code of TYPE: a reserved one where software wrote such a record (R64). -/
def Brick.typeCode (b : Brick) : Nat := match b.badType with | some t => t.toNat | none => b.typ.code

/-- The granules of a brick: (base, count). -/
def Brick.granules (b : Brick) (stripe : Option Stripe) : Nat × Nat :=
  match b.body with
  | .barrier x => match x.run with
    | some r => (r.base, r.count)
    | none => (0, 0)
  | .pallet => match stripe with
    | some s => (s.base, 9)
    | none => (0, 0)
  | _ => (0, 0)

/-- Table 2.4 (R47). -/
def Brick.header (b : Brick) (stripe : Option Stripe) (mirror : Nat) : Nat :=
  let (base, cnt) := b.granules stripe
  pack [(0, 3, b.typeCode), (3, 1, b2n (b.valid && b.lost.isNone)), (4, 1, b2n b.pin), (5, 1, b2n b.mirrored), (6, 1, b2n (cnt != 0)),
    (8, 8, b.gen.toNat), (16, 4, b.part.toNat), (20, 8, b.group.toNat), (32, 5, if b.mirrored then mirror else 0),
    (64, 12, base), (80, 8, cnt)]

/-- The map of some numbers as bits. -/
def bitmap (l : List Nat) : Nat := l.foldr (fun j m => 2 ^ j ||| m) 0

/-- Table 3.1 (R85). -/
def Barrier.bits (b : Barrier) : Nat :=
  let sh := b.shArm.getD { deadline := 0, stagger := 0, depart := false, release := 0 }
  let shb := b.shBond.getD { expect := 0, lchild := 0, members := [] }
  let watch := (b.watch.zipIdx.map (fun (w, i) => (432 + 8 * i, 8, match w with | some j => 128 + j | none => 0)))
  pack ([(128, 32, b.course.toNat), (160, 16, b.expect), (176, 16, b.count), (192, 16, b.ahead),
    (208, 7, (b.bond.map Bond.lchild).getD 0), (216, 1, b2n b.armed), (217, 1, b2n b.bonded), (218, 1, b2n b.poisoned),
    (219, 1, b2n b.arm.depart), (220, 2, b.arm.release.toNat),
    (222, 1, b2n (b.shArm.isSome || b.shBond.isSome || b.shRun.isSome)), (223, 1, b2n b.shrunk),
    (224, 24, b.arm.deadline.toNat), (248, 8, b.arm.stagger.toNat), (256, 24, b.path), (288, 64, b.dlAt.toNat),
    (352, 24, sh.deadline.toNat), (376, 8, sh.stagger.toNat), (384, 1, b2n sh.depart), (385, 2, sh.release.toNat),
    (387, 1, b2n b.shBond.isSome), (392, 16, shb.expect), (408, 7, shb.lchild), (416, 16, b.nextDelta)] ++ watch)

/-- R188. A run that only keeps granules of another. -/
def Run.within (new old : Run) : Bool := new.count == 0 || (decide (old.base ≤ new.base) && decide (new.base + new.count ≤ old.base + old.count))

/-- Table 9.2. A lintel record. -/
def Lintel.record (b : Brick) (l : Lintel) : Nat :=
  { b with pin := true, body := .event { set := false, sets := 0, waitj := [] } }.header none 0 +
  pack [(128, 3, l.tier), (131, 1, b2n l.upwait), (132, 1, b2n l.upv), (133, 1, b2n l.twv), (134, 1, b2n l.upcut), (135, 1, b2n l.up2cut),
    (136, 6, l.upslot.toNat), (142, 1, b2n l.ctv), (144, 8, l.uproute.toNat), (152, 8, l.up2route.toNat), (160, 8, l.twroute.toNat), (168, 12, l.ctBase),
    (192, 64, l.uppeer.toNat), (256, 64, l.up2peer.toNat), (320, 64, l.twpeer.toNat)]

/-- R184, R501. Granules of the grout store: the first, how many, and what they hold as one number. -/
structure Granules where
  base : Nat
  count : Nat
  value : Nat
  deriving DecidableEq, Repr

def Granules.make (base count value : Nat) : Granules := { base := base, count := count, value := value % 2 ^ (512 * count) }

/-- R184, R185. The granules of a barrier's grout, and of the run that waits where it stands apart. -/
def groutGranules (b : Brick) : List Granules :=
  match b.body with
  | .barrier x =>
    (match x.grout with | some g => [Granules.make g.run.base g.run.count (Config.groutImage g.run (some g))] | none => [])
      ++ (match x.shRun with
        | some r => if x.grout.any (fun g => r.within g.run) then [] else [Granules.make r.base r.count (Config.groutImage r none)]
        | none => [])
  | _ => []

/-- R157. The granules of a stripe. -/
def stripeGranules (s : Stripe) : Granules := Granules.make s.base 9 (Config.stripeImage s)

/-- R253. A child table: the three maps, and the 32-byte entry of each child. -/
def Lintel.table (l : Lintel) : Nat :=
  pack ([(0, 64, l.seen.toNat), (64, 64, l.seenNext.toNat), (128, 64, l.gone.toNat)] ++ l.children.map (fun q =>
    (512 + 256 * q.1, 256, pack [(0, 64, q.2.peer.toNat), (64, 64, q.2.peer2.toNat), (128, 8, q.2.route.toNat), (136, 8, q.2.route2.toNat), (144, 1, b2n q.2.valid),
      (145, 1, b2n q.2.cut1), (146, 1, b2n q.2.cut2)])))

/-- R252. The granules of a child table. -/
def Lintel.granules (l : Lintel) : Granules := Granules.make l.ctBase 33 l.table

/-- The levels of a queue as bits (Table 4.2). -/
def levelsOf (q : List Waiter) : Nat := bitmap ((List.range 8).filter (fun l => q.any (fun w => w.prio.toNat == l)))

/-- Heads and tails of the levels (R136). DESIGN CHOICE (log 71): both are 0 at a level that has no waiter. -/
def queueBits (q : List Waiter) : Nat :=
  pack ((List.range 8).flatMap (fun l =>
    let ws := q.filter (fun w => w.prio.toNat == l)
    [(224 + 24 * l, 12, (ws.head?.map (fun w => w.store.toNat)).getD 0), (236 + 24 * l, 12, (ws.getLast?.map (fun w => w.store.toNat)).getD 0)]))

/-- Table 4.2 (R136). -/
def Lock.bits (l : Lock) : Nat :=
  pack [(128, 1, b2n l.held), (129, 1, b2n l.abandoned), (132, 3, l.hprio.toNat), (136, 3, l.eprio.toNat), (144, 10, l.hagent),
    (154, 6, l.hgang.toNat), (160, 32, l.grants.toNat), (192, 13, l.queue.length), (208, 8, levelsOf l.queue)] + queueBits l.queue

/-- Table 4.5 (R147). -/
def Sem.bits (s : Sem) : Nat :=
  pack [(128, 32, s.count), (192, 13, s.queue.length), (208, 8, levelsOf s.queue)] + queueBits s.queue

/-- R125. -/
def Event.bits (v : Event) : Nat :=
  pack [(128, 1, b2n v.set), (160, 32, v.sets.toNat), (192, 128, bitmap v.waitj)]

/-- R173. FAULT. -/
def Stripe.fault (s : Stripe) : Bool := s.wacc != .fine || s.racc != .fine

/-- Table 5.2 (R159). -/
def Stripe.bits (s : Stripe) : Nat :=
  pack [(128, 1, 1), (129, 1, b2n s.fault), (130, 1, b2n s.steal), (132, 3, s.k), (135, 2, s.log2s), (137, 5, s.log2),
    (144, 32, s.puts.toNat), (176, 32, s.gets.toNat), (208, 7, s.cache.length), (216, 7, s.nextj), (224, 8, s.hungry.toNat),
    (256, 64, s.ringAddr.toNat), (320, 128, bitmap s.waitj), (448, 64, s.faddr.toNat)]

/-- R47. The fields of the 64-byte record of a brick, or of a stripe of a pallet. -/
def Brick.fields (b : Brick) (stripe : Option Stripe) : Nat :=
  b.header stripe (match stripe with | some s => s.mirror | none => b.mirror) +
  match b.body with
  | .barrier x => x.bits
  | .semaphore x => x.bits
  | .lock x => x.bits
  | .event x => x.bits
  | .pallet => match stripe with
    | some s => s.bits
    | none => 0

/-- R47, R64. The record: its fields, and what software has written beside them. -/
def Brick.record (b : Brick) (stripe : Option Stripe) : Nat := b.fields stripe ||| b.stray.toNat

/-- R64. A brick whose record software wrote as w holds all of it. -/
def Brick.keepStray (b : Brick) (stripe : Option Stripe) (w : BitVec 512) : Brick := { b with stray := w &&& ~~~ BitVec.ofNat 512 (b.fields stripe) }

/-- Table 3.1. The engine has written LCHILD and the shadow fields of the record. -/
def Brick.shadowWritten (b : Brick) : Brick := { b with stray := b.stray &&& ~~~ BitVec.ofNat 512 (127 * 2 ^ 208 + (2 ^ 64 - 1) * 2 ^ 352) }

/-- Table 4.1 (R130). A waiter store entry whose level goes on with `next`. DESIGN CHOICE (log 71): with LAST 1, NEXT is 0. -/
def Waiter.bits (w : Waiter) (next : Option Waiter) : Nat :=
  pack [(0, 10, w.agent), (10, 6, w.gang.toNat), (16, 3, w.prio.toNat), (19, 1, b2n w.dlRun), (20, 1, b2n (w.op == .semTake)),
    (24, 16, w.n), (40, 12, (next.map (fun x => x.store.toNat)).getD 0), (52, 1, b2n next.isNone), (64, 64, if w.dlRun then w.dlAt.toNat else 0)]

/-- R130. The entries of a queue, each with the one that follows at its level. -/
def waiterBits (q : List Waiter) : List Nat := q.zipIdx.map (fun w => w.1.bits ((q.drop (w.2 + 1)).find? (fun v => v.prio == w.1.prio)))

/-- Table 13.4 (R407). -/
def TRec.image (r : TRec) (t : Nat) : Nat :=
  pack [(0, 6, r.kind.toNat), (6, 1, b2n r.stretch), (7, 1, b2n r.stopped), (8, 5, t), (16, 48, bits r.gt.toNat 4 48), (64, 64, r.handle.toNat),
    (128, 32, r.tag.toNat), (160, 32, r.course.toNat), (192, 10, r.agent.toNat), (202, 6, r.gang.toNat), (208, 8, r.status.toNat),
    (216, 8, r.opcode.toNat), (224, 4, (r.part.map BitVec.toNat).getD 0), (228, 1, b2n r.part.isSome), (232, 24, r.aux.toNat)]

/-- Table 12.2 (R359). The record of an entry; a copy made only for a carried number (R365) is bare. -/
def IncEntry.bits (x : IncEntry) (closed bare : Bool) : Nat :=
  let r := x.rep
  let k := r.key
  pack [(0, 32, x.number.toNat), (32, 2, x.cls.code), (34, 1, b2n r.hall), (35, 1, b2n closed),
    (36, 2, if bare then 0 else r.maps.length), (38, 1, b2n r.part.isSome), (40, 4, (r.part.map BitVec.toNat).getD 0),
    (44, 4, k.srcKind.toNat), (48, 8, k.kind.code), (64, 32, if bare then 0 else x.count.toNat), (96, 32, k.srcId.toNat),
    (128, 16, k.node.toNat), (144, 3, k.die.toNat), (160, 64, x.gtFirst.toNat), (224, 64, x.gtLast.toNat),
    (288, 64, if bare then 0 else r.d0.toNat), (352, 64, if bare then 0 else r.d1.toNat), (416, 32, if bare then 0 else r.d2.toNat)]

/-- A record and its continuation records as one number (R359). -/
def withMaps (rec_ : Nat) (maps : List (BitVec 512)) : Nat :=
  (maps.zipIdx.map (fun (m, i) => m.toNat * 2 ^ (512 * (i + 1)))).sum + rec_

end Sys2Proof.Machine
end

