-- ==== Sys2Proof/Machine/Tiles.lean ====
section
/-! DEFINITION. Sys2Proof/Machine/Tiles.lean: home tiles, slots and fetches, granule runs, quotas, mirror updates, and the hods by which a home tile answers. -/

namespace Sys2Proof.Machine

/-! ### Capacity (R62) -/

/-- R62, Table 2.7. The instance capacity C. -/
def capacity (e : Env) : Nat :=
  let l := e.kp.bsLog2.toNat
  if 21 ≤ l ∧ l ≤ 30 then 2 ^ l / 64 else 0

/-- A record never used (R43). -/
def Brick.never : Brick :=
  { valid := false, typ := .barrier, pin := false, mirrored := false, gen := 0, part := 0, group := 0, mirror := 0
    lost := none, body := .pallet }

def brickOf (d : Dp) (i : Nat) : Brick := fgetD d.bricks i Brick.never

/-- The key of stripe k of a pallet. -/
def stripeKey (i k : Nat) : Nat := i * 8 + k

def stripeOf (d : Dp) (i k : Nat) : Option Stripe := fget d.stripes (stripeKey i k)

def setStripe (d : Dp) (i k : Nat) (x : Stripe) : Dp := { d with stripes := fput d.stripes (stripeKey i k) x }

/-- The brick is allocated (a brick a lost tile took stays allocated, R378). -/
def Brick.allocated (b : Brick) : Bool := b.valid

/-- The log of R172's stripes: how many stripes a configured pallet has. -/
def stripesOf (d : Dp) (i : Nat) : Nat :=
  match stripeOf d i 0 with
  | some s => 2 ^ s.log2s
  | none => 0

/-! ### Slots (R65 to R71) -/

/-- R65. What a slot holds is held resident; the record of a freed brick is not. -/
def refHeld (d : Dp) : SlotRef → Bool
  | .brick i =>
    let b := brickOf d i
    b.lost.isSome || (b.valid && (b.pin || b.mirrored || b.stray.getLsbD 6 || (match b.body with
      | .barrier x => x.grout.isSome || x.shRun.any (fun r => r.count != 0)
      | .pallet => (stripeOf d i 0).isSome
      | _ => false) || (fget d.lintels i).isSome))
  | .stripe _ _ => true
  | .lintel _ => true
  | .mirror _ _ => true

/-- Slots of tile t that are held. -/
def heldCount (d : Dp) (t : Nat) : Nat := ((tileOf d t).slots.filter (fun r => refHeld d r.1)).length

/-- The waiters queued on a brick. -/
def Brick.queue (b : Brick) : List Waiter :=
  match b.body with
  | .lock l => l.queue
  | .semaphore s => s.queue
  | _ => []

/-- R65. A deadline is armed on the brick. -/
def Brick.timing (b : Brick) : Bool :=
  match b.body with
  | .barrier x => x.dlAt ≠ 0
  | _ => false

/-- R65. A slot may be evicted: not held, no waiter, no parked operation, no armed deadline, and no link has a contribution to it in flight. -/
def evictable (e : Env) (d : Dp) (r : SlotRef) : Bool :=
  !refHeld d r && (match r with
    | .brick i =>
      let b := brickOf d i
      b.queue.isEmpty && !b.timing && !(d.inbound.any (fun h => decide (h.rec_.handle = brickHandle e i b)))
    | _ => false)

/-- Fetches of tile t that are out. -/
def issuedFetches (d : Dp) (t : Nat) : Nat := ((tileOf d t).fetches.filter (fun f => f.issued)).length

/-- R67, R69. The record of brick i goes to the backing store, as it is. -/
def writeBack (e : Env) (d : Dp) (t i : Nat) : Dp :=
  let x := tileOf d t
  let d := if x.wbacks.any (fun w => w.1 == i) then d else setTile d t { x with wbacks := x.wbacks ++ [(i, none)] }
  memWrite d 16 (e.kp.bsBase + BitVec.ofNat 64 (64 * i)) 64 ((brickOf d i).record none)

/-- R67. Slots in use: those that hold something, those a fetch takes, and those whose last records are on their way to the backing store. -/
def Tile.used (x : Tile) : Nat := x.slots.length + (x.fetches.filter (fun f => f.issued || f.victim.isSome)).length + x.draining.length

/-- R67. Brick i leaves its slot of tile t, which stays in use until the record stands in the backing store. -/
def drainSlot (e : Env) (d : Dp) (t i : Nat) : Dp :=
  let x := tileOf d t
  bumpT e (writeBack e (setTile d t { x with slots := x.slots.filter (fun y => decide (y.1 ≠ .brick i)), draining := setInsert i x.draining }) t i) t 11

/-- R67. The slot of tile t that a fetch takes, made free: none is needed while fewer than 8,192 are in use; else the least recently used evictable one goes, written back when dirty. -/
def makeRoom (e : Env) (d : Dp) (t : Nat) : Option Dp :=
  let x := tileOf d t
  if x.used < Config.slotsPerTile then some d
  else
    match takeFirst (fun r => evictable e d r.1) x.slots with
    | none => none
    | some ((r, dirty), rest) =>
      let d := setTile d t { x with slots := rest }
      match r, dirty with
      | .brick i, true => some (bumpT e (writeBack e d t i) t 11)
      | _, _ => some d

/-- R373. The write-back of brick i is held by a fault at tile t. -/
def wbackHeld (d : Dp) (t i : Nat) : Bool := (tileOf d t).wbacks.any (fun w => w.1 == i && w.2.isSome)

/-- A slot is used: it becomes the most recently used, and dirty where it was or the use changes it. -/
def touchSlot (d : Dp) (t : Nat) (r : SlotRef) (dirty : Bool) : Dp :=
  let x := tileOf d t
  match takeFirst (fun y => decide (y.1 = r)) x.slots with
  | some ((_, old), rest) => setTile d t { x with slots := rest ++ [(r, old || dirty)] }
  | none => setTile d t { x with slots := x.slots ++ [(r, dirty)] }

def dropSlot (d : Dp) (t : Nat) (r : SlotRef) : Dp :=
  let x := tileOf d t
  setTile d t { x with slots := x.slots.filter (fun y => decide (y.1 ≠ r)) }

def resident (d : Dp) (t : Nat) (r : SlotRef) : Bool := (tileOf d t).slots.any (fun y => decide (y.1 = r))

/-- R66, R70. Bricks of tile t that PIN holds for life but that have no slot yet: each has a held place coming. -/
def pinnedOut (e : Env) (d : Dp) (t : Nat) : Nat :=
  (d.bricks.filter (fun b => b.2.valid && b.2.pin && homeOf e b.1 == t && decide ((partOf d b.2.part).st ≠ .saved) && !resident d t (.brick b.1))).length

/-- R66. Tile t may come to hold one more slot. -/
def heldRoom (e : Env) (d : Dp) (t : Nat) : Bool := decide (heldCount d t + pinnedOut e d t < Config.heldLimit)

/-- R67, R69. A slot for a new resident, if one is free or evictable. A slot whose last record is on its way to the backing store, or goes there now, is promised: it makes the tile hold more than its slots until the write-back ends (`slotsCome`). -/
def takeSlot (e : Env) (d : Dp) (t : Nat) (r : SlotRef) : Option Dp :=
  let x := tileOf d t
  if x.used < Config.slotsPerTile + (x.draining.filter (fun i => !wbackHeld d t i)).length then some (touchSlot d t r true)
  else
    match takeFirst (fun r => evictable e d r.1) x.slots with
    | none => none
    | some ((.brick i, true), _) => some (touchSlot (drainSlot e d t i) t r true)
    | some (_, rest) => some (touchSlot (setTile d t { x with slots := rest }) t r true)

/-! ### Granules (R501) -/

/-- R501. The lowest granule at which n free granules begin, above `base`; runs rise. -/
def fitFrom (n : Nat) : List (Nat × Nat) → Nat → Option Nat
  | [], base => if base + n ≤ Config.granulesPerTile then some base else none
  | (b, c) :: l, base => if base + n ≤ b then some base else fitFrom n l (max base (b + c))

def fitRun (d : Dp) (t n : Nat) : Option Nat := fitFrom n (tileOf d t).runs 0

/-- The runs with one more, rising. -/
def insertRun (base n : Nat) : List (Nat × Nat) → List (Nat × Nat)
  | [] => [(base, n)]
  | (b, c) :: l => if base < b then (base, n) :: (b, c) :: l else (b, c) :: insertRun base n l

def bindRun (d : Dp) (t base n : Nat) : Dp :=
  let x := tileOf d t
  if n = 0 then d else setTile d t { x with runs := insertRun base n x.runs }

def unbindRun (d : Dp) (t base n : Nat) : Dp :=
  let x := tileOf d t
  if n = 0 then d else setTile d t { x with runs := x.runs.filter (fun r => r.1 ≠ base) }

def unbindRuns (d : Dp) (t : Nat) (l : List (Nat × Nat)) : Dp := l.foldl (fun d r => unbindRun d t r.1 r.2) d

/-! ### Quotas (R78 to R83) -/

/-- R78. A charge of n against usage u, quota q and pool p: none where it is refused, else the units it overdraws. -/
def charge (u q n p : Nat) : Option Nat :=
  if u + n ≤ q then some 0
  else if u + n ≤ q + q / 32 ∧ p ≥ (u + n) - max u q then some ((u + n) - max u q)
  else none

def sumParts (d : Dp) (f : Part → Nat) : Nat := ((List.range 16).map (fun p => f (partOf d (BitVec.ofNat 4 p)))).sum

/-- R79. The pools of bricks and granules. -/
def poolB (e : Env) (d : Dp) : Nat := capacity e - sumParts d Part.qb - sumParts d Part.ovb
def poolG (d : Dp) : Nat := Config.granuleTotal - sumParts d Part.qg - sumParts d Part.ovg

/-- R78, R81, R83. n bricks charged to partition p, with whether they overdraw. -/
def chargeB (e : Env) (d : Dp) (p : BitVec 4) (n : Nat) : Option (Dp × Bool) :=
  let x := partOf d p
  match charge x.ub x.qb n (poolB e d) with
  | none => none
  | some o =>
    if sumParts d Part.ub + n ≤ capacity e then
      let d := setPart d p { x with ub := x.ub + n, ovb := x.ovb + o }
      some (if o = 0 then d else bumpP e d p 11 1, o ≠ 0)
    else none

/-- R78, R83. n granules charged to partition p. -/
def chargeG (e : Env) (d : Dp) (p : BitVec 4) (n : Nat) : Option (Dp × Bool) :=
  let x := partOf d p
  match charge x.ug x.qg n (poolG d) with
  | none => none
  | some o =>
    if sumParts d Part.ug + n ≤ Config.granuleTotal then
      let d := setPart d p { x with ug := x.ug + n, ovg := x.ovg + o }
      some (if o = 0 then d else bumpP e d p 11 1, o ≠ 0)
    else none

/-- R80. n bricks returned: the overdrawn part first. DESIGN CHOICE (log 47): the overdrawn part is what was granted as overdraft, and a later write of PD_QUOTA leaves it as it stands. -/
def refundB (d : Dp) (p : BitVec 4) (n : Nat) : Dp :=
  let x := partOf d p
  setPart d p { x with ub := x.ub - n, ovb := x.ovb - min x.ovb n }

def refundG (d : Dp) (p : BitVec 4) (n : Nat) : Dp :=
  let x := partOf d p
  setPart d p { x with ug := x.ug - n, ovg := x.ovg - min x.ovg n }

/-! ### Mirrors (R72 to R75) -/

def mirrorsOn (d : Dp) (t : Nat) : Nat := (d.mirCopies.filter (fun m => m.2.tile == t)).length

/-- R72. The mirror tile for a brick homed at t: available, 4 hops away or more, fewest copies, the lower number on a tie. -/
def mirrorFor (e : Env) (d : Dp) (t : Nat) : Option Nat :=
  let cand := (List.range 32).filter (fun m => !unavailable e m && m != t && decide (4 ≤ hops (tileRouter e t) (tileRouter e m)))
  cand.foldl (fun best m => match best with
    | none => some m
    | some b => if mirrorsOn d m < mirrorsOn d b then some m else some b) none

/-- The waiters in tile t's waiter store: its own and its mirror copies' (R129, R130). Those of a SAVED partition are in its area (R335). -/
def waitersAt (e : Env) (d : Dp) (t : Nat) : Nat :=
  ((d.bricks.filter (fun b => homeOf e b.1 == t && decide ((partOf d b.2.part).st ≠ .saved))).map (fun b => b.2.queue.length)).sum
  + ((d.mirCopies.filter (fun m => m.2.tile == t)).map (fun m => m.2.copy.queue.length)).sum

/-- R361. The number put into a hod that waited for it (R235). -/
def HodBody.setValue (v : Dword) : HodBody → HodBody
  | .resp n r => .resp n (if r.status.numbered && r.value == 0 then { r with value := v } else r)
  | .release r => .release (if r.status.numbered && r.value == 0 then { r with value := v } else r)
  | .watcher r => .watcher (if r.status.numbered && r.value == 0 then { r with value := v } else r)
  | .evtRelease i h c st w => .evtRelease i h c st (if st.numbered && w == 0 then v else w)
  | b => b

/-- R74. The brick whose mirror a hod waits for. -/
def HodBody.brick : HodBody → Option Nat
  | .release r | .watcher r => some r.index
  | .evtRelease i _ _ _ _ => some i
  | .resp _ r => r.brick
  | _ => none

/-- R121. A release that leaves after its course has closed, behind an incident's number or its mirror's acknowledgement: its own instant counts from then. -/
def retime (e : Env) (d : Dp) (h : Hod) : Hod :=
  let at_ := fun (t : Nat) (r : Rel) => match r.own, (brickOf d r.index).body with
    | true, .barrier x => { r with instant := some (tileGt e t + BitVec.ofNat 64 x.path) }
    | _, _ => r
  match h.src, h.body with
  | .tile t, .release r => { h with body := .release (at_ t r) }
  | .tile t, .watcher r => { h with body := .watcher (at_ t r) }
  | _, _ => h

/-- The brick whose waits a hod ends. -/
def HodBody.ends : HodBody → Option Nat
  | .release r | .watcher r => some r.index
  | .evtRelease i _ _ _ _ => some i
  | _ => none

/-- R112, R118, R362. The hods of brick i that wait at tile t for an incident's number: what leaves later goes behind the last of them. -/
def numberWait (d : Dp) (t i : Nat) : Option Nat :=
  ((d.inc.waitHods.filter (fun w => w.2.any (fun h => h.src == .tile t && h.body.ends == some i))).getLast?).map Prod.fst

/-- R74. Hods of brick i (of stripe k) leave its home tile t; a change of a mirrored brick goes to the mirror first, and the hods wait for its acknowledgement, as do later ones; until the copy of a new mirror is acknowledged, the brick is unmirrored and nothing waits (R75). `undo` names the waiter to take back when the mirror's store is full, and the effective priority before it (R130); `carry` the bytes of the contribution that the update hod brings (R199). -/
def emitNow (e : Env) (d : Dp) (t i k : Nat) (outs : List Hod) (undo : Option (Nat × Nat × BitVec 3)) (carry : Nat := 0) : Dp :=
  let b := brickOf d i
  let st := stripeOf d i k
  match fget d.mirCopies (stripeKey i k) with
  | none => sendAll e outs d
  | some m =>
    let mine := d.mirUpds.filter (fun u => u.index == i && u.k == k)
    let last := match mine.getLast? with
      | some u => (u.copy, u.stripe)
      | none => (m.copy, m.stripe)
    if last = (b, st) then
      match mine.getLast? with
      | none => sendAll e outs d
      | some u => if !m.ready then sendAll e outs d else { d with mirUpds := modFirst (fun x => x.id == u.id) (fun x => { x with outs := x.outs ++ outs }) d.mirUpds }
    else
      let u : MirUpd := { id := d.seq, index := i, k := k, home := t, copy := b, stripe := st, outs := outs, undo := undo }
      let d := bumpT e { d with mirUpds := d.mirUpds ++ [if m.ready then u else { u with outs := [], undo := none }] } t 31
      let d := send e d (.tile t) (.tile m.tile) .mgmt b.part (.mirUpd u.id carry)
      if m.ready then d else sendAll e outs d

/-- R74, R112, R118. Hods of brick i leave its home tile, behind those that still wait for an incident's number. -/
def emit (e : Env) (d : Dp) (t i k : Nat) (outs : List Hod) (undo : Option (Nat × Nat × BitVec 3)) (carry : Nat := 0) : Dp :=
  match (if k = 0 && !outs.isEmpty then numberWait d t i else none) with
  | none => emitNow e d t i k outs undo carry
  | some n =>
    let d := { d with inc := { d.inc with waitHods := fput d.inc.waitHods n (fgetD d.inc.waitHods n [] ++ outs) } }
    emitNow e d t i k [] undo carry

/-- R74. Every change of a mirrored brick that no hod waits for still goes to its mirror. -/
def emitNone (e : Env) (d : Dp) (t i k : Nat) : Dp := emit e d t i k [] none

/-! ### Hods that carry an incident's number (R235, R341, R362) -/

/-- R341. Hods of a FROZEN partition are kept until it resumes. -/
def keepFrozen (d : Dp) (h : Hod) : Dp := let x := partOf d h.part; setPart d h.part { x with recHods := x.recHods ++ [h] }

/-- R74, R121, R341. Hods that have their number leave tile t: those of a brick as that brick's hods do, those of a partition that is FROZEN or further on its way at its resumption. -/
def leave (e : Env) (hs : List Hod) (d : Dp) : Dp :=
  let frozen := fun (h : Hod) => (match (partOf d h.part).st with | .frozen | .saved | .restoring => true | _ => false)
  let out := hs.filter (fun h => !frozen h)
  let d1 := (hs.filter frozen).foldl keepFrozen d
  match out.head? with
  | none => d1
  | some h => match h.src, h.body.brick with
    | .tile t, some i => emit e d1 t i 0 (out.map (retime e d1)) none
    | _, _ => sendAll e out d1

/-- R235, R362. Hods that carry the number of incident key leave now when their unit knows it, and otherwise wait for its return. -/
def sendNumbered (e : Env) (d : Dp) (src : Source) (key : IncKey) (hs : List Hod) : Dp :=
  match numberOf d src key with
  | some n => leave e (hs.map (fun h => { h with body := h.body.setValue (n.setWidth 64) })) d
  | none =>
    if hs.isEmpty then d
    else
      let i := { d.inc with waits := d.inc.waits ++ [(src, key, d.inc.serial)], waitHods := fput d.inc.waitHods d.inc.serial hs }
      { d with inc := { i with serial := d.inc.serial + 1 } }

/-! ### Fetches (R23, R67, R68) -/

/-- Table 13.5, FETCH and FILLED. -/
def fetchRec (e : Env) (d : Dp) (t i kind aux : Nat) : TRec :=
  let b := brickOf d i
  { TRec.blank kind with gt := tileGt e t, handle := brickHandle e i b, part := some b.part, aux := BitVec.ofNat 24 aux }

/-- R373. A fetch may go to the memory port: no held write-back stands between it and its slot or its record. -/
def Fetch.mayIssue (d : Dp) (t : Nat) (f : Fetch) : Bool := !f.issued && !wbackHeld d t f.index && !f.victim.any (wbackHeld d t)

/-- The brick that tile t wrote back last, where d2 has written one more back than d1. -/
def newVictim (d1 d2 : Dp) (t : Nat) : Option Nat :=
  if (tileOf d1 t).wbacks.length < (tileOf d2 t).wbacks.length then ((tileOf d2 t).wbacks.getLast?).map Prod.fst else none

/-- R67, R68. The first waiting fetch of tile t goes to the memory port when a slot is free or evictable and fewer than 64 are out. -/
def issueFetch (e : Env) (d : Dp) (t : Nat) : Dp :=
  match (tileOf d t).fetches.find? (Fetch.mayIssue d t) with
  | none => d
  | some f =>
    if issuedFetches d t ≥ Config.fetchLimit then d
    else
      match (if f.victim.isSome then some d else makeRoom e d t) with
      | none => d
      | some d2 =>
        let d2 := memRead d2 16 (e.kp.bsBase + BitVec.ofNat 64 (64 * f.index)) 64
        let x := tileOf d2 t
        setTile d2 t { x with fetches := modFirst (fun g => g.index == f.index) (fun g => { g with issued := true, victim := g.victim.or (newVictim d d2 t) }) x.fetches }

/-- R68. Tile t takes REQ hods: fewer than 64 fetches are outstanding. -/
def reqOpen (d : Dp) (t : Nat) : Bool := decide ((tileOf d t).fetches.length < Config.fetchLimit)

/-- R23. An operation on brick i that is not resident waits for its fetch, behind the operations parked there. -/
def park (e : Env) (d : Dp) (t i : Nat) (op : Parked) : Dp :=
  let x := tileOf d t
  if x.fetches.any (fun f => f.index == i) then
    setTile d t { x with fetches := modFirst (fun f => f.index == i) (fun f => { f with parked := f.parked ++ [op] }) x.fetches }
  else
    let f : Fetch := { index := i, issued := false, start := tileGt e t, heldAt := none, parked := [op] }
    let d := setTile d t { x with fetches := x.fetches ++ [f] }
    let d := bumpT e d t 10
    let d := bumpP e d (brickOf d i).part 10 1
    let d := trace e d t (some 4) (fetchRec e d t i 0x06 0)
    issueFetch e d t

/-- Where brick i is not on its home tile and must be fetched: below C, and no lost brick. -/
def mustFetch (e : Env) (d : Dp) (i : Nat) : Bool := decide (i < capacity e) && !resident d (homeOf e i) (.brick i) && (brickOf d i).lost.isNone

/-- The ports that a hod passes from tile a to tile b. -/
def tileWay (e : Env) (a b : Nat) : List Nat := routePorts (portNumber e (.tile b)) (route (tileRouter e a) (tileRouter e b))

/-- R31. A single-bit error that waits on a way is corrected and counted. -/
def corrected (e : Env) (d : Dp) (l : List Nat) : Dp :=
  match takeFirst (fun x => l.contains x.1 && !x.2) d.flitErr with
  | none => d
  | some (x, rest) => bumpK e { d with flitErr := rest } 1 x.1 7 1

/-- R31, R36, R61, R175. k hods of n flits in all go from tile a to tile b on MGMT, and b takes them. -/
def mgmtHods (e : Env) (d : Dp) (a b k n : Nat) : Dp :=
  let l := tileWay e a b
  let d := corrected e d l
  bumpK e (tookHod e (countPorts e .mgmt k n l d) b .mgmt) 0 b 8 (k - 1)

/-! ### Requests on their way to a tile (R22, R28, R68, R374, R382) -/

/-- The hod carries an agent's request. -/
def HodBody.isReq : HodBody → Bool
  | .req _ _ _ => true
  | _ => false

/-- R31. The flit error that a request from a port to tile t meets on its way, and the errors that still wait. -/
def errorOn (e : Env) (d : Dp) (src : Port) (t : Nat) : Option ((Nat × Bool) × List (Nat × Bool)) :=
  if d.flitErr.isEmpty then none
  else
    let l := routePorts (portNumber e (.tile t)) (route (portRouter e src) (tileRouter e t))
    takeFirst (fun x => l.contains x.1) d.flitErr

/-- R22, R28, R68. Nothing stands before a request from a port to tile t: no REQ hod of that port, no request that waits there, no flit error on the way, and the tile takes REQ hods. -/
def wayClear (e : Env) (d : Dp) (src : Port) (t : Nat) : Bool :=
  tileServes e d t && reqOpen d t && (errorOn e d src t).isNone
    && !(d.net.any (fun h => h.ends e == .tile t && !h.back && h.vc == .req && (h.src == src || h.body.isReq)))

/-! ### Answers of a home tile -/

/-- A response hod to a joint entry. -/
def replyHod (t j entry : Nat) (part : BitVec 4) (r : Resp) : Hod := mkHod (.tile t) (.joint j) .rsp part (.resp entry r)

/-- R235. The number that accompanies a FENCED answer for logical tile t: that of the incident which made it unavailable. -/
def fencedReply (e : Env) (d : Dp) (t j entry : Nat) (part : BitVec 4) : Dp :=
  let h := replyHod t j entry part (Resp.plain .fenced)
  match (tileOf d t).unavailInc with
  | some k => sendNumbered e d (.tile t) k [h]
  | none => sendHod e d h

/-- R46. The ACCESS report of a brick or ring operation. -/
def accessReport (e : Env) (srcKind srcId : Nat) (part : Option (BitVec 4)) (detail : Dword) (issuer : BitVec 4) : Report :=
  { mkReport e (mkKey e srcKind srcId .access) part with d0 := detail, d2 := issuer.setWidth 32 }

/-- The tile writes its INCIDENT record when the number is known; a report enters the buffer of the unit (R358). -/
def reportTile (e : Env) (d : Dp) (t : Nat) (r : Report) : Dp := report e d (.tile t) r

/-- R31. The double-bit error at port p of router r: the hod is counted as discarded, and the router reports it. -/
def eccReport (e : Env) (d : Dp) (r p : Nat) (vc : VC) : Dp :=
  report e (bumpK e d 1 (r * 8 + p) 8 1) (.router r) { mkReport e (mkKey e 2 (r * 8 + p) .meshEcc) none with d2 := BitVec.ofNat 32 (vcIndex vc) }

/-- R31. A hod on channel vc crosses the ports of a list: at a single-bit error that waited for it there it is corrected and counted, at a double-bit one discarded (false). -/
def crossing (e : Env) (d : Dp) (vc : VC) (l : List Nat) : Dp × Bool :=
  match takeFirst (fun x => l.contains x.1) d.flitErr with
  | none => (d, true)
  | some (x, rest) =>
    let d := { d with flitErr := rest }
    if x.2 then (eccReport e d (x.1 / 8) (x.1 % 8) vc, false) else (bumpK e d 1 x.1 7 1, true)

/-- R31. A request meets a flit error that waited for it: discarded at a double-bit one, counted and sent on at another. -/
def strike (e : Env) (d : Dp) (src : Port) (t : Nat) (x : (Nat × Bool) × List (Nat × Bool)) (part : BitVec 4) (body : HodBody) : Dp :=
  let d := { d with flitErr := x.2 }
  if x.1.2 then eccReport e (countPorts e .req body.hods body.flits (hodPorts e src (.tile t) body) d) (x.1.1 / 8) (x.1.1 % 8) .req
  else send e (bumpK e d 1 x.1.1 7 1) src (.tile t) .req part body

/-- R22, R27, R28, R374, R382. A request of joint j goes from a port to tile t, and the ports on its way count it: answered FENCED by the router of an unavailable tile, taken at once where nothing stands before it, and else left in the net. -/
def reqTo (e : Env) (d : Dp) (src : Port) (t j : Nat) (x : JEntry) (take : Dp → Dp) : Dp :=
  let p := hPart x.req.handle
  let body := HodBody.req j (hIndex x.req.handle) x
  let counted := fun (_ : Unit) => countPorts e .req body.hods body.flits (hodPorts e src (.tile t) body) d
  if unavailable e t then fencedReply e (counted ()) t j x.id p
  else if wayClear e d src t then take (tookHod e (counted ()) t .req)
  else
    match errorOn e d src t with
    | some x => strike e d src t x p body
    | none => send e d src (.tile t) .req p body

/-! ### The drain of a partition (R333, R341) -/

/-- R333. The sources of drain markers: every joint, and every tile as a front end. -/
def markerSources (e : Env) : List FreezeSrc :=
  ((List.range 128).filter (implemented e)).map (fun j => .joint (BitVec.ofNat 7 j))
    ++ ((List.range 32).filter (fun t => !unavailable e t)).map (fun t => .frontEnd (BitVec.ofNat 5 t))

/-- R333. A marker of partition p has reached tile t from every source. -/
def drainedAt (e : Env) (d : Dp) (p : BitVec 4) (t : Nat) : Bool := (markerSources e).all (fun s => (partOf d p).markers.contains (t, s))

/-- R333. The drain of partition p is over: every marker is in at every tile. -/
def drainOver (e : Env) (d : Dp) (p : BitVec 4) : Bool := (List.range 32).all (fun t => unavailable e t || drainedAt e d p t)

/-- R341. What Table 11.7 records of partition p is recorded: in FREEZING only after the drain. -/
def recordsNow (e : Env) (d : Dp) (p : BitVec 4) : Bool := suspended d p && ((partOf d p).st != .freezing || drainOver e d p)

/-! ### The earliest deadline of a tile (R429) -/

/-- The running DL_AT values of a brick. -/
def Brick.deadlines (b : Brick) : List Dword :=
  match b.body with
  | .barrier x => if x.dlAt = 0 || x.expired then [] else [x.dlAt]
  | .lock l => (l.queue.filter Waiter.dlRun).map Waiter.dlAt
  | .semaphore s => (s.queue.filter Waiter.dlRun).map Waiter.dlAt
  | .pallet | .event _ => []

/-- R429. The earliest running DL_AT of tile t, as it stands against an instant. -/
def earliest (e : Env) (d : Dp) (t : Nat) : Option Dword :=
  let g := gtInterp e
  let l := (d.bricks.filter (fun b => b.2.valid && homeOf e b.1 == t && !recordsNow e d b.2.part)).flatMap (fun b => b.2.deadlines)
  l.foldl (fun best x => match best with
    | none => some x
    | some y => if (x - g).toInt < (y - g).toInt then some x else some y) none

/-- R429. A sleeping tile's wake comparator takes its earliest running DL_AT. -/
def loadWake (e : Env) (d : Dp) (t : Nat) : Dp := setTile d t { tileOf d t with wakeAt := (earliest e d t).map (fun g => g - 5120) }

end Sys2Proof.Machine
end

