-- ==== Sys2Proof/Machine/Locks.lean ====
section
/-! DEFINITION. Sys2Proof/Machine/Locks.lean: queued locks and semaphores at their home tile (04_locks_semaphores.md), and what a home tile does for every agent operation. -/

namespace Sys2Proof.Machine

/-! ### What a home tile notes of an operation -/

/-- The agent number of slot s of joint j. -/
def agentNo (j : Nat) (s : BitVec 3) : Nat := j * 8 + s.toNat

/-- Table 13.5, OP; R413's TAG source; Table 13.3's operation counters. -/
def noteRaw (e : Env) (d : Dp) (t : Nat) (b : Brick) (handle : Dword) (tag : Word) (agent : Nat) (gang : BitVec 6) (op : AOp) (st : Status)
    (course : Word) : Dp :=
  let d := bumpT e d t b.typ.code
  let d := bumpT e d t (48 + b.part.toNat)
  let hit := d.obs.onTag && decide (tag &&& d.obs.tagMask = d.obs.tagVal &&& d.obs.tagMask)
  let d := if hit then { d with obs := { d.obs with trigReq := d.obs.trigReq ||| 0x10#5 } } else d
  trace e d t (some 0)
    { TRec.blank 0x01 with gt := tileGt e t, handle := handle, tag := tag, course := course, agent := BitVec.ofNat 10 agent, gang := gang
                           status := BitVec.ofNat 8 st.code, opcode := BitVec.ofNat 8 op.code, part := some b.part }

/-- The note of a joint entry's operation. One that pends is recorded with status 0 and course 0 (log 9). -/
def noteOp (e : Env) (d : Dp) (t : Nat) (b : Brick) (j : Nat) (x : JEntry) (st : Status) (course : Word) : Dp :=
  noteRaw e d t b x.req.handle x.req.tag (agentNo j x.req.slot) x.req.gang x.op st course

/-- The answer of a home tile to an agent operation, behind the hods that go before it. -/
def homeAnswer (e : Env) (d : Dp) (t i k : Nat) (b : Brick) (j : Nat) (x : JEntry) (before : List Hod) (r : Resp) : Dp :=
  let d := noteOp e d t b j x r.status r.course
  emit e d t i k (before ++ [replyHod t j x.id b.part r]) none

/-! ### The queue and the grant loop (R134, R135) -/

/-- What a change of a lock or semaphore sends, in order: hints to a holder and grants to waiters. -/
inductive QEv
  | hint (kind : BitVec 2) (agent : Nat) (gang : BitVec 6) (prio : BitVec 3)
  | grant (w : Waiter) (st : Status) (course : Word)
  deriving DecidableEq, Repr

/-- The highest level with a waiter. -/
def topLevel (q : List Waiter) : Option Nat := (List.range 8).reverse.find? (fun l => q.any (fun w => w.prio.toNat == l))

/-- R134. The head of the highest level. -/
def topWaiter (q : List Waiter) : Option Waiter :=
  match topLevel q with
  | none => none
  | some l => q.find? (fun w => w.prio.toNat == l)

def sameWaiter (w v : Waiter) : Bool := w.agent == v.agent && w.gang == v.gang

def dequeue (w : Waiter) (q : List Waiter) : List Waiter :=
  match takeFirst (sameWaiter w) q with
  | some (_, r) => r
  | none => q

/-- R139. The effective priority of a held lock. -/
def Lock.effective (l : Lock) : BitVec 3 :=
  match topLevel l.queue with
  | none => l.hprio
  | some m => if m > l.hprio.toNat then BitVec.ofNat 3 m else l.hprio

/-- R139. INHERIT when the effective priority differs from EPRIO. -/
def Lock.inherit (l : Lock) : Lock × List QEv :=
  if l.held && l.effective != l.eprio then ({ l with eprio := l.effective }, [.hint 1 l.hagent l.hgang l.effective])
  else (l, [])

/-- R140. RESTORE for the former holder, where EPRIO is above HPRIO. -/
def Lock.restore (l : Lock) : List QEv :=
  if l.held && decide (l.hprio.toNat < l.eprio.toNat) then [.hint 2 l.hagent l.hgang l.hprio] else []

/-- R134. The waiter w takes a free lock. -/
def Lock.take (l : Lock) (w : Waiter) : Lock :=
  { l with held := true, abandoned := false, hprio := w.prio, eprio := w.prio, hagent := w.agent, hgang := w.gang, grants := l.grants + 1
           queue := dequeue w l.queue }

/-- R134. The status of the next grant. -/
def Lock.grantStatus (l : Lock) : Status := if l.abandoned then .okAbandoned else .ok

/-- R134. The grant loop of a lock: at most one grant. -/
def Lock.loop (l : Lock) : Lock × List QEv :=
  if l.held then (l, [])
  else
    match topWaiter l.queue with
    | none => (l, [])
    | some w => (l.take w, [.grant w l.grantStatus (l.take w).grants])

/-- R139, R134. After a change: the grant loop, then the effective priority. -/
def Lock.settle (l : Lock) : Lock × List QEv :=
  let (l1, g) := l.loop
  let (l2, h) := l1.inherit
  (l2, g ++ h)

/-- The outcome of an operation: answered now, or pending. -/
inductive QRes
  | answer (st : Status)
  | pend
  deriving DecidableEq, Repr

/-- The holder is (agent, gang) (R138). -/
def Lock.holder (l : Lock) (agent : Nat) (gang : BitVec 6) : Bool := l.held && l.hagent == agent && l.hgang == gang

/-- Table 4.4 (R138), LOCK_ACQ by waiter w; room: the waiter stores have room. -/
def Lock.acquire (l : Lock) (w : Waiter) (room : Bool) : Lock × QRes × List QEv :=
  if l.held then
    if l.holder w.agent w.gang || !room then (l, .answer .busy, [])
    else
      let (l2, h) := Lock.inherit { l with queue := l.queue ++ [w] }
      (l2, .pend, h)
  else (l.take w, .answer l.grantStatus, [])

/-- Table 4.4 (R138), LOCK_TRY. -/
def Lock.tryAcquire (l : Lock) (w : Waiter) : Lock × Status :=
  if l.held then (l, .busy) else (l.take w, l.grantStatus)

/-- The lock without its holder (R138, R143). -/
def Lock.drop (l : Lock) (abandon : Bool) : Lock := { l with held := false, abandoned := l.abandoned || abandon }

/-- Table 4.4 (R138), LOCK_REL. -/
def Lock.release (l : Lock) (agent : Nat) (gang : BitVec 6) : Lock × Status × List QEv :=
  if l.holder agent gang then
    let (l2, g) := (l.drop false).settle
    (l2, .ok, l.restore ++ g)
  else (l, .notOwner, [])

/-- R143, R144. The departure of an agent: its waiters leave, a lock it holds is abandoned, and the grant loop runs. -/
def Lock.depart (l : Lock) (agent : Nat) : Lock × List QEv × Bool :=
  let l1 := { l with queue := l.queue.filter (fun w => w.agent != agent) }
  if l1.held && l1.hagent == agent then
    let (l2, g) := (l1.drop true).settle
    (l2, l1.restore ++ g, true)
  else
    let (l2, g) := l1.settle
    (l2, g, false)

/-- R130. The waiter just queued goes back: the lock, whether the INHERIT held for it (`own`) goes with it, and the INHERIT that the holder is due. `before` is the effective priority before it was queued, `later` what the last INHERIT on its way behind it tells the holder. -/
def Lock.undo (l : Lock) (w : Waiter) (before : BitVec 3) (own : Bool) (later : Option (BitVec 3)) : Lock × Bool × List QEv :=
  let l1 := { l with queue := dequeue w l.queue }
  let back := l1.held && (l1.effective != l.eprio || later.isSome)
  let told := later.getD (if back && own then before else l.eprio)
  ({ l1 with eprio := if l1.held then l1.effective else l.eprio }, back,
    if l1.held && l1.effective != told then [.hint 1 l.hagent l.hgang l1.effective] else [])

/-- R139. What the INHERIT hints among some hods last tell the holder (agent, gang). -/
def lastInherit (agent : Nat) (gang : BitVec 6) (hs : List Hod) : Option (BitVec 3) :=
  ((hs.filterMap (fun h => match h.dst, h.body with
    | .joint j, .hint x => if x.kind = 1#2 && j == agent / 8 && x.slot.toNat == agent % 8 && x.gang == gang then some x.prio else none
    | _, _ => none)).getLast?)

/-- R151. The waiter leaves, and the effective priority and the grant loop run. -/
def Lock.expire (l : Lock) (w : Waiter) : Lock × List QEv := Lock.settle { l with queue := dequeue w l.queue }

/-- R134. The grant loop of a semaphore, n grants at most; each grant carries COUNT as it leaves it (log 10). -/
def Sem.loop : Nat → Sem → Sem × List QEv
  | 0, s => (s, [])
  | n + 1, s =>
    match topWaiter s.queue with
    | none => (s, [])
    | some w =>
      if w.n > s.count then (s, [])
      else
        let s1 : Sem := { count := s.count - w.n, queue := dequeue w s.queue }
        let (s2, g) := Sem.loop n s1
        (s2, QEv.grant w .ok (BitVec.ofNat 32 s1.count) :: g)

def Sem.settle (s : Sem) : Sem × List QEv := Sem.loop s.queue.length s

/-- R135. A take of w would be granted at once: it is first in the queue it joins and COUNT covers it. -/
def Sem.grants (s : Sem) (w : Waiter) : Bool :=
  (match topLevel s.queue with
    | none => true
    | some l => decide (l < w.prio.toNat)) && decide (w.n ≤ s.count)

/-- Table 4.6 (R149), SEM_TAKE. -/
def Sem.take (s : Sem) (w : Waiter) (room : Bool) : Sem × QRes :=
  if w.n = 0 then (s, .answer .ok)
  else if s.grants w then ({ s with count := s.count - w.n }, .answer .ok)
  else if room then ({ s with queue := s.queue ++ [w] }, .pend)
  else (s, .answer .busy)

/-- Table 4.6 (R149), SEM_TRY. -/
def Sem.tryTake (s : Sem) (w : Waiter) : Sem × Status :=
  if w.n = 0 then (s, .ok)
  else if s.grants w then ({ s with count := s.count - w.n }, .ok)
  else (s, .busy)

/-- Table 4.6 (R149), SEM_GIVE. -/
def Sem.give (s : Sem) (n : Nat) : Sem × Status × List QEv :=
  if n = 0 then (s, .ok, [])
  else if s.count + n > 0xFFFFFFFF then (s, .badCount, [])
  else
    let (s2, g) := Sem.settle { s with count := s.count + n }
    (s2, .ok, g)

/-- R144. The waiters of an agent leave, and the grant loop runs. -/
def Sem.depart (s : Sem) (agent : Nat) : Sem × List QEv := Sem.settle { s with queue := s.queue.filter (fun w => w.agent != agent) }

/-- R151. -/
def Sem.expire (s : Sem) (w : Waiter) : Sem × List QEv := Sem.settle { s with queue := dequeue w s.queue }

/-! ### At the home tile -/

/-- A response of a lock or semaphore; one that grants a lock names its holder (R153). -/
def grantResp (op : AOp) (agent : Nat) (st : Status) (course : Word) : Resp :=
  { Resp.at st course with holder := if (op == .lockAcq || op == .lockTry) && (st == .ok || st == .okAbandoned) then some agent else none }

/-- R141, Table 13.5. The hods of a queue's changes: hints to the holder's joint, grants to the waiters' joints. -/
def qHods (t : Nat) (b : Brick) (handle : Dword) (evs : List QEv) : List Hod :=
  evs.map (fun v => match v with
    | .hint k a g p => mkHod (.tile t) (.joint (a / 8)) .rsp b.part (.hint { handle := handle, prio := p, gang := g, slot := BitVec.ofNat 3 a, kind := k })
    | .grant w st c => replyHod t w.joint w.entry b.part (grantResp w.op w.agent st c))

/-- Table 13.5, GRANT, and partition counter 4 for the grants among the events. -/
def noteGrants (e : Env) (t : Nat) (b : Brick) (handle : Dword) : List QEv → Dp → Dp
  | [], d => d
  | .hint _ _ _ _ :: l, d => noteGrants e t b handle l d
  | .grant w _ c :: l, d =>
    let d := bumpP e d b.part 4 1
    let d := trace e d t (some 3)
      { TRec.blank 0x04 with gt := tileGt e t, handle := handle, tag := w.tag, agent := BitVec.ofNat 10 w.agent, gang := w.gang
                             opcode := BitVec.ofNat 8 w.op.code, course := c, part := some b.part, aux := w.prio.setWidth 24 }
    noteGrants e t b handle l d

/-- The entries of tile t's waiter store in use, rising. -/
def storesUsed (e : Env) (d : Dp) (t : Nat) : List Nat :=
  let own := (d.bricks.filter (fun b => homeOf e b.1 == t && decide ((partOf d b.2.part).st ≠ .saved))).flatMap (fun b => b.2.queue.map (fun w => w.store.toNat))
  own.foldl (fun l n => setInsert n l) []

/-- Free entry number n of a store, counted past the rising list of those in use. -/
def nthFree : List Nat → Nat → Nat
  | [], n => n
  | u :: l, n => if u ≤ n then nthFree l (n + 1) else n

/-- R129, R130. The entry that a queued waiter takes: a free one of tile t's store, which of them is a free value (log 6). -/
def pickStore (e : Env) (d : Dp) (t f : Nat) : BitVec 12 :=
  let used := storesUsed e d t
  BitVec.ofNat 12 (nthFree used ((Config.freeWaiterEntry f).toNat % max 1 (Config.waiterStore - used.length)))

/-- The waiter that a request stands for (R130, R150): its deadline runs from now. -/
def mkWaiter (e : Env) (t j : Nat) (x : JEntry) (store : BitVec 12) : Waiter :=
  let dl := reqDeadline x.req
  { agent := agentNo j x.req.slot, gang := x.req.gang, prio := reqPrio x.req, n := x.req.count.toNat, dlRun := dl ≠ 0
    dlAt := if dl = 0 then 0 else tileGt e t + dlUnits dl, store := store, joint := j, entry := x.id, tag := x.req.tag, op := x.op }

/-- R129, R130. The waiter stores that brick i needs have room. -/
def storeRoom (e : Env) (d : Dp) (t : Nat) : Bool := decide (waitersAt e d t < Config.waiterStore)

/-- QUERY on a lock (Table 4.3). -/
def Lock.queryValue (l : Lock) : Dword :=
  BitVec.ofNat 64 (pack [(0, 10, l.hagent), (10, 6, l.hgang.toNat), (16, 3, l.hprio.toNat), (20, 3, l.eprio.toNat), (24, 1, b2n l.held),
    (25, 1, b2n l.abandoned), (32, 13, l.queue.length), (48, 8, levelsOf l.queue)])

/-- QUERY on a semaphore (R148). -/
def Sem.queryValue (s : Sem) : Dword :=
  BitVec.ofNat 64 (pack [(0, 32, s.count), (32, 13, s.queue.length), (48, 8, levelsOf s.queue)])

/-- Brick i gets a new body. -/
def setBody (d : Dp) (i : Nat) (b : Brick) (body : Body) : Dp := setBrick d i { b with body := body }

/-- The request pends at its home: the joint's entry knows it (R142). -/
def markPended (d : Dp) (j entry : Nat) : Dp :=
  let x := jointOf d j
  setJoint d j { x with entries := modFirst (fun y => y.id == entry) (fun y => { y with phase := .pends, pended := true, seen := true }) x.entries }

/-- Table 4.4 (R138). An agent operation on lock i at its home tile t. -/
def lockHome (e : Env) (d : Dp) (t i : Nat) (b : Brick) (l : Lock) (j : Nat) (x : JEntry) : Dp :=
  let agent := agentNo j x.req.slot
  let h := x.req.handle
  match x.op with
  | .lockAcq =>
    let (f, d) := if l.held then nextFree d else (d.free, d)
    let w := mkWaiter e t j x (pickStore e d t f)
    let (l2, r, evs) := l.acquire w (storeRoom e d t)
    let d := setBody d i b (.lock l2)
    (match r with
      | .answer st =>
        let d := if st = .busy && !l.holder agent x.req.gang then bumpT e d t 18 else d
        let d := if st = .ok || st = .okAbandoned then bumpP e d b.part 4 1 else d
        homeAnswer e d t i 0 b j x (qHods t b h evs) (grantResp x.op agent st l2.grants)
      | .pend =>
        let d := noteOp e (markPended d j x.id) t b j x .ok 0
        emit e d t i 0 (qHods t b h evs) (some (agent, x.req.gang.toNat, l.eprio)))
  | .lockTry =>
    let (l2, st) := l.tryAcquire (mkWaiter e t j x 0)
    let d := setBody d i b (.lock l2)
    let d := if st = .busy then d else bumpP e d b.part 4 1
    homeAnswer e d t i 0 b j x [] (grantResp x.op agent st l2.grants)
  | .lockRel =>
    let (l2, st, evs) := l.release agent x.req.gang
    let d := setBody d i b (.lock l2)
    let d := if st = .notOwner then bumpT e d t 19 else d
    let d := noteGrants e t b h evs d
    homeAnswer e d t i 0 b j x (qHods t b h evs) (Resp.at st l2.grants)
  | .test => homeAnswer e d t i 0 b j x [] (Resp.at (if l.held then .busy else .ok) l.grants)
  | _ => homeAnswer e d t i 0 b j x [] { Resp.at .ok l.grants with value := l.queryValue }

/-- Table 4.6 (R149). An agent operation on semaphore i at its home tile t. -/
def semHome (e : Env) (d : Dp) (t i : Nat) (b : Brick) (s : Sem) (j : Nat) (x : JEntry) : Dp :=
  let h := x.req.handle
  let cnt := fun (s : Sem) => BitVec.ofNat 32 s.count
  match x.op with
  | .semTake =>
    let w0 := mkWaiter e t j x 0
    let (f, d) := if w0.n != 0 && !s.grants w0 then nextFree d else (d.free, d)
    let w := mkWaiter e t j x (pickStore e d t f)
    let (s2, r) := s.take w (storeRoom e d t)
    let d := setBody d i b (.semaphore s2)
    (match r with
      | .answer st =>
        let d := if st = .busy then bumpT e d t 18 else d
        let d := if st = .ok && w.n != 0 then bumpP e d b.part 4 1 else d
        homeAnswer e d t i 0 b j x [] (Resp.at st (cnt s2))
      | .pend =>
        let d := noteOp e (markPended d j x.id) t b j x .ok 0
        emit e d t i 0 [] (some (agentNo j x.req.slot, x.req.gang.toNat, 0)))
  | .semTry =>
    let w := mkWaiter e t j x 0
    let (s2, st) := s.tryTake w
    let d := setBody d i b (.semaphore s2)
    let d := if st = .ok && w.n != 0 then bumpP e d b.part 4 1 else d
    homeAnswer e d t i 0 b j x [] (Resp.at st (cnt s2))
  | .semGive =>
    let (s2, st, evs) := s.give x.req.count.toNat
    let d := setBody d i b (.semaphore s2)
    let d := noteGrants e t b h evs d
    homeAnswer e d t i 0 b j x (qHods t b h evs) (Resp.at st (cnt s2))
  | .test => homeAnswer e d t i 0 b j x [] (Resp.at (if s.count = 0 then .busy else .ok) (cnt s))
  | _ => homeAnswer e d t i 0 b j x [] { Resp.at .ok (cnt s) with value := s.queryValue }

/-- R151. The waiter (agent, gang) of brick i is removed and answered TIMEOUT, when its DL_AT is reached. -/
def waitExpiry (e : Env) (d : Dp) (i agent : Nat) (gang : BitVec 6) : Dp :=
  let t := homeOf e i
  let b := brickOf d i
  match b.queue.find? (fun w => w.agent == agent && w.gang == gang) with
  | none => d
  | some w =>
    if !(b.valid && b.lost.isNone && w.dlRun && reached (tileGt e t) w.dlAt) || !tileServes e d t || recordsNow e d b.part then d
    else
      let h := brickHandle e i b
      let go := fun (body : Body) (course : Word) (evs : List QEv) =>
        let d := bumpT e (setBody d i b body) t 21
        let d := touchSlot d t (.brick i) true
        let d := trace e d t (some 2) { TRec.blank 0x05 with gt := tileGt e t, handle := h, course := course, part := some b.part }
        let d := noteGrants e t b h evs d
        emit e d t i 0 (replyHod t w.joint w.entry b.part (Resp.at .timeout course) :: qHods t b h evs) none
      match b.body with
      | .lock l =>
        let (l2, evs) := l.expire w
        go (.lock l2) l.grants evs
      | .semaphore s =>
        let (s2, evs) := s.expire w
        go (.semaphore s2) (BitVec.ofNat 32 s.count) evs
      | _ => d

end Sys2Proof.Machine
end

