-- ==== Sys2Proof/Machine/Answers.lean ====
section
/-! DEFINITION. Sys2Proof/Machine/Answers.lean: what leaves a joint: responses, hints, and the responses that wait for an incident number (R233 to R235, R243 to R245). -/

namespace Sys2Proof.Machine

/-- R365. Partition p carries number n for the first time: a bare copy of its entry waits for p's ring. -/
def carry (d : Dp) (p : BitVec 4) (n : Word) : Dp :=
  let slot := n.toNat % 128
  match fget d.inc.entries slot with
  | none => d
  | some x =>
    if !(x.isOpen && x.number = n) || x.rep.part = some p || x.carried.contains p || x.rep.hall then d
    else { d with inc := { d.inc with entries := fput d.inc.entries slot { x with carried := x.carried ++ [p], copies := x.copies ++ [(p, true)] } } }

/-- R245. A hint for the FIFO of joint j. -/
def pushHint (e : Env) (d : Dp) (j : Nat) (h : Hint) : Dp :=
  let x := jointOf d j
  if x.hints.length < Config.hintFifo ∧ x.heldHints = [] then setJoint d j { x with hints := x.hints ++ [h] }
  else if h.kind = 0#2 then bumpK e d 2 j 5 1
  else
    let same := fun (g : Hint) => decide (g.kind ≠ 0#2 ∧ g.handle = h.handle ∧ g.slot = h.slot ∧ g.gang = h.gang)
    if x.hints.any same then setJoint d j { x with hints := modFirst same (fun _ => h) x.hints }
    else setJoint d j { x with heldHints := x.heldHints ++ [h] }

/-- R226, R233. The beats of a response, the response beat first; its WAKE has `ahead` hints before it. -/
def respBeats (slot : BitVec 3) (rid : BitVec 10) (r : Resp) (ahead : Nat) : List RBeat :=
  let bs := r.beat :: r.beats
  bs.zipIdx.map (fun b => { slot := slot, rid := rid, last := b.2 + 1 == bs.length, data := b.1, ahead := if b.2 = 0 then ahead else 0 })

/-- R247. The response buffer of a joint takes beats, in their order, while it has room for them (DEDUCED, log 38). -/
def Joint.fill (x : Joint) : Joint :=
  let n := Config.responseBeats - x.resp.length
  { x with resp := x.resp ++ x.respMore.take n, respMore := x.respMore.drop n }

/-- R233, R247. The beats of a response go to the response buffer of joint j; while it is full, those of a response that the joint gives itself stand behind it without bound (DEDUCED, log 38). -/
def deliver (e : Env) (d : Dp) (j : Nat) (slot : BitVec 3) (rid : BitVec 10) (r : Resp) (ahead : Nat := 0) : Dp :=
  let x := jointOf d j
  let x := ({ x with respMore := x.respMore ++ respBeats slot rid r ahead } : Joint).fill
  let d := setJoint d j { x with respWait := some (x.respWait.getD (now e)) }
  let d := if r.status = .retry then bumpK e d 2 j 1 1 else d
  match agentPart d j slot.toNat with
  | none => d
  | some p =>
    let d := bumpP e d p 0 1
    let d := if r.status = .timeout then bumpP e d p 8 1 else d
    let d := if r.status = .busy || r.status = .retry then bumpP e d p 9 1 else d
    if r.status.numbered && !(r.status = .timeout && r.value = 0) then carry d p (r.value.setWidth 32) else d

/-- R142, R243. The WAKE of a request that pended. -/
def wakeHint (x : JEntry) : Hint :=
  let prio := match x.op with
    | .lockAcq | .semTake => reqPrio x.req
    | _ => 0
  { handle := x.req.handle, prio := prio, gang := x.req.gang, slot := x.req.slot, kind := 0 }

def entryOf (d : Dp) (j id : Nat) : Option JEntry := (jointOf d j).entries.find? (fun x => x.id == id)

def modEntry (d : Dp) (j id : Nat) (f : JEntry → JEntry) : Dp :=
  let x := jointOf d j
  setJoint d j { x with entries := modFirst (fun y => y.id == id) f x.entries }

/-- R230, R244. Entry id of joint j is answered: the entry frees, a WAKE goes first where the request pended. -/
def answer (e : Env) (d : Dp) (j id : Nat) (r : Resp) : Dp :=
  match entryOf d j id with
  | none => bumpK e d 2 j 4 1
  | some x =>
    let y := jointOf d j
    let d := setJoint d j { y with entries := y.entries.filter (fun z => z.id != id) }
    let n := y.hints.length
    let d := if x.pended then pushHint e d j (wakeHint x) else d
    deliver e d j x.req.slot x.req.rid r (if n < (jointOf d j).hints.length then n else 0)

/-- R495. Entries in ascending slot order and, within a slot, in the order of acceptance. -/
def bySlot (l : List JEntry) : List JEntry :=
  (List.range 8).flatMap (fun s => l.filter (fun x => x.req.slot.toNat == s))

/-- R495. Several entries answered together. -/
def answerMany (e : Env) (d : Dp) (j : Nat) (l : List JEntry) (f : JEntry → Resp) : Dp :=
  (bySlot l).foldl (fun d x => answer e d j x.id (f x)) d

/-- R235, R362. A response with an incident's number: at once when the joint's unit knows it, and otherwise when it returns. -/
def respondNumbered (e : Env) (d : Dp) (key : IncKey) (a : Await) : Dp :=
  let src := Source.joint a.joint
  match numberOf d src key with
  | some n =>
    let r := { a.resp with value := n.setWidth 64 }
    match a.entry with
    | some id => answer e d a.joint id r
    | none => deliver e d a.joint a.slot a.rid r
  | none =>
    let d := match a.entry with
      | some id => modEntry d a.joint id (fun x => { x with phase := .numbered })
      | none => d
    { d with inc := { d.inc with waits := d.inc.waits ++ [(src, key, d.inc.serial)]
                                 waitResp := fput d.inc.waitResp d.inc.serial a, serial := d.inc.serial + 1 } }

/-- R46, R235. An ACCESS refusal at joint j: its incident, and the response with its number. -/
def refuseAccess (e : Env) (d : Dp) (j : Nat) (entry : Option Nat) (r : Req) (course : Word) : Dp :=
  let agent := agentNo j r.slot
  let p := agentPart d j r.slot.toNat
  let rep := accessReport e 3 agent p r.handle (p.getD 0)
  let d := report e d (.joint j) rep
  respondNumbered e d rep.key { joint := j, entry := entry, slot := r.slot, rid := r.rid, resp := Resp.at .access course }

/-- R381. The key of a FENCE incident: of an agent, a physical tile or a local port. -/
def fenceKey (e : Env) (srcKind srcId : Nat) : IncKey := mkKey e srcKind srcId .fence

/-- R381, R382. The fence that stands over agent (j, s). -/
def agentFence (e : Env) (j : Nat) (s : BitVec 3) : Option IncKey :=
  if e.rep.fencedAgents.contains (agentNo j s) then some (fenceKey e 3 (agentNo j s))
  else if e.rep.fencedPorts.contains (jointPort e j) then some (fenceKey e 2 (jointPort e j))
  else none

end Sys2Proof.Machine
end

