-- ==== Sys2Proof/Machine/Grout.lean ====
section
/-! DEFINITION. Sys2Proof/Machine/Grout.lean: the reduction arithmetic (06_grout_arithmetic.md, 07_grout_examples.md): formats, rounding, FAST and EXACT lanes, MX blocks, results and flags. A finite value is m x 2^e with m a Nat and e an Int. -/

namespace Sys2Proof.Machine

/-! ### Rounding -/

/-- m / 2^s, rounded to nearest, ties to even. -/
def rneShift (m s : Nat) : Nat :=
  let q := m / 2 ^ s
  let r := 2 * (m % 2 ^ s)
  if r > 2 ^ s ∨ (r = 2 ^ s ∧ q % 2 = 1) then q + 1 else q

/-- m x 2^e rounded to p significant bits and to multiples of 2^lo: (n, x) for n x 2^x. -/
def roundTo (p : Nat) (lo : Int) (m : Nat) (e : Int) : Nat × Int :=
  let x := max (e + m.log2 - (p - 1 : Nat)) lo
  if x ≤ e then (m * 2 ^ (e - x).toNat, x) else (rneShift m (x - e).toNat, x)

/-- The encoding of m x 2^e in a format of p bits of significand, w bits of exponent and least exponent lo; all ones in the exponent on overflow. -/
def encode (p w : Nat) (lo : Int) (m : Nat) (e : Int) : Nat :=
  if m = 0 then 0
  else
    let (n, x) := roundTo p lo m e
    min ((x - lo).toNat * 2 ^ (p - 1) + n) ((2 ^ w - 1) * 2 ^ (p - 1))

/-- rne32 of a value of sign neg (R201). -/
def rne32 (neg : Bool) (m : Nat) (e : Int) : Word :=
  BitVec.ofNat 32 ((if neg then 2 ^ 31 else 0) + encode 24 8 (-149) m e)

/-- The same in binary64 (R209). -/
def rne64 (neg : Bool) (m : Nat) (e : Int) : Dword :=
  BitVec.ofNat 64 ((if neg then 2 ^ 63 else 0) + encode 53 11 (-1074) m e)

def qnan32 : Word := 0x7FC00000#32
def pinf32 : Word := 0x7F800000#32
def ninf32 : Word := 0xFF800000#32

def fNeg (a : Word) : Bool := a.getLsbD 31
def fExp (a : Word) : Nat := bits a.toNat 23 8
def fFrac (a : Word) : Nat := bits a.toNat 0 23
def fNan (a : Word) : Bool := fExp a == 255 && fFrac a != 0
def fInf (a : Word) : Bool := fExp a == 255 && fFrac a == 0
def fZero (a : Word) : Bool := bits a.toNat 0 31 == 0

/-- The significand of a finite FP32 value (R201). -/
def fMant (a : Word) : Nat := if fExp a = 0 then fFrac a else 2 ^ 23 + fFrac a

/-- The exponent of its unit: value = significand x 2^fUnit. -/
def fUnit (a : Word) : Int := (max (fExp a) 1 : Nat) - 150

def sgn (neg : Bool) (n : Nat) : Int := if neg then -(n : Int) else n

/-- A finite FP32 value in units of 2^-149 (R205). -/
def fVal (a : Word) : Int := sgn (fNeg a) (fMant a * 2 ^ (max (fExp a) 1 - 1))

/-- The flags of a rounding of the exact value v to r, both in units of 2^-u (R201, R202): a change sets INEXACT, and UF below 2^-126; an infinity from finite sets OVF. -/
def roundFlags (u : Nat) (v : Int) (r : Word) : Byte :=
  if fInf r then gfOvf ||| gfInexact
  else if fVal r * 2 ^ (u - 149) = v then 0
  else gfInexact ||| flagIf (decide (v.natAbs < 2 ^ (u - 126))) gfUf

/-- fast_add (R201, R203). -/
def fastAdd (a b : Word) : Word × Byte :=
  if fNan a || fNan b then (qnan32, 0)
  else if fInf a && fInf b then (if fNeg a = fNeg b then (a, 0) else (qnan32, gfInvalid))
  else if fInf a then (a, 0)
  else if fInf b then (b, 0)
  else if fZero a && fZero b then (if fNeg a && fNeg b then 0x80000000#32 else 0, 0)
  else if fZero b then (a, 0)
  else if fZero a then (b, 0)
  else
    let (hi, lo) := if fUnit a < fUnit b then (b, a) else (a, b)
    let dd := (fUnit hi - fUnit lo).toNat
    let t := sgn (fNeg hi) (fMant hi * 8) + sgn (fNeg lo) (fMant lo * 8 / 2 ^ dd)
    let r := if t = 0 then 0 else rne32 (decide (t < 0)) t.natAbs (fUnit hi - 3)
    (r, roundFlags 149 (fVal a + fVal b) r)

/-- fast_mul (R202, R203). -/
def fastMul (a b : Word) : Word × Byte :=
  let neg := fNeg a != fNeg b
  if fNan a || fNan b then (qnan32, 0)
  else if (fZero a && fInf b) || (fInf a && fZero b) then (qnan32, gfInvalid)
  else if fInf a || fInf b then (if neg then ninf32 else pinf32, 0)
  else
    let r := rne32 neg (fMant a * fMant b) (fUnit a + fUnit b)
    (r, roundFlags 298 (fVal a * fVal b) r)

/-! ### Elements (Table 6.1, R211, R212) -/

/-- The numbers of a byte list cut into elements of n bytes. -/
def elems (n : Nat) (l : List Byte) : List Nat := (chunks n (l.length / n) l).map leNat

/-- BF16 and FP16 read as FP32. -/
def bf16 (x : Nat) : Word := BitVec.ofNat 32 (x * 2 ^ 16)

def fp16 (x : Nat) : Word :=
  let neg := bits x 15 1 == 1
  let ex := bits x 10 5
  let m := bits x 0 10
  if ex = 31 then (if m = 0 then (if neg then ninf32 else pinf32) else qnan32)
  else if ex = 0 then rne32 neg m (-24)
  else rne32 neg (1024 + m) (ex - 25 : Int)

/-- A decoded MX element or product (R211, R213). -/
inductive MxVal
  | nan
  | inf (neg : Bool)
  | fin (neg : Bool) (m : Nat) (e : Int)
  deriving DecidableEq, Repr

/-- R211. E4M3 (kind false) and E5M2 (kind true). -/
def mxElem (e5m2 : Bool) (x : Nat) : MxVal :=
  let neg := bits x 7 1 == 1
  if e5m2 then
    let ex := bits x 2 5
    let m := bits x 0 2
    if ex = 31 then (if m = 0 then .inf neg else .nan)
    else if ex = 0 then .fin neg m (-16)
    else .fin neg (4 + m) (ex - 17 : Int)
  else
    let ex := bits x 3 4
    let m := bits x 0 3
    if ex = 15 ∧ m = 7 then .nan
    else if ex = 0 then .fin neg m (-9)
    else .fin neg (8 + m) (ex - 10 : Int)

/-- R211. The 32 values of a block of 33 bytes. -/
def mxBlock (e5m2 : Bool) (l : List Byte) : List MxVal :=
  let sc := (l[32]?.getD 0).toNat
  (List.range 32).map (fun i =>
    if sc = 255 then .nan
    else match mxElem e5m2 (l[i]?.getD 0).toNat with
      | .fin neg m e => .fin neg m (e + sc - 127)
      | v => v)

/-- R213, R203. The product of two elements, and INVALID for 0 x infinity. -/
def mxMul (a b : MxVal) : MxVal × Byte :=
  match a, b with
  | .nan, _ => (.nan, 0)
  | _, .nan => (.nan, 0)
  | .inf p, .inf q => (.inf (p != q), 0)
  | .inf p, .fin q m _ => if m = 0 then (.nan, gfInvalid) else (.inf (p != q), 0)
  | .fin p m _, .inf q => if m = 0 then (.nan, gfInvalid) else (.inf (p != q), 0)
  | .fin p m e, .fin q n f => (.fin (p != q) (m * n) (e + f), 0)

/-- m x 2^e compared with c x 2^k: c x 2^k is at most it. -/
def dyLe (c : Nat) (k : Int) (m : Nat) (e : Int) : Bool :=
  if k ≤ e then decide (c ≤ m * 2 ^ (e - k).toNat) else decide (c * 2 ^ (k - e).toNat ≤ m)

/-- R212. -/
def mxTo32 : MxVal → Word × Byte
  | .nan => (qnan32, 0)
  | .inf neg => (if neg then ninf32 else pinf32, 0)
  | .fin neg m e =>
    let z : Word := if neg then 0x80000000#32 else 0
    if m = 0 then (z, 0)
    else if !dyLe m e (2 ^ 24 - 1) 104 then (z ||| 0x7F7FFFFF#32, gfScaleOvf ||| gfInexact)
    else if !dyLe 1 (-149) m e then (z, gfScaleUf ||| gfInexact)
    else
      let r := rne32 neg m e
      let same := decide (r.toNat % 2 ^ 31 = encode 24 8 (-149) m e) && dyLe (fMant r) (fUnit r) m e && dyLe m e (fMant r) (fUnit r)
      (r, if same then 0 else gfInexact ||| flagIf (!dyLe 1 (-126) m e) gfUf)

/-- A NaN lane enters (R203): NAN_IN, and the one NaN of the engine. -/
def enter (x : Word) : Word × Byte := if fNan x then (qnan32, gfNanIn) else (x, 0)

/-! ### Configurations (R180 to R184) -/

def isInt (f : BitVec 3) : Bool := f.toNat ≤ 1
def isFp (f : BitVec 3) : Bool := 2 ≤ f.toNat && f.toNat ≤ 4
def isMx (f : BitVec 3) : Bool := f.toNat == 5 || f.toNat == 6

/-- Table 6.1: bytes of an element. -/
def elemSize (f : BitVec 3) : Nat :=
  if isInt f || f = 7#3 then 8 else if f = 2#3 then 4 else if isFp f then 2 else 1

/-- Table 6.3: bytes of a contribution of format f on l lanes. -/
def contribBytes (f : BitVec 3) (l : Nat) : Nat := if isMx f then 33 else elemSize f * l

/-- Table 6.3: bytes of a result. -/
def GCfg.resultBytes (c : GCfg) : Nat :=
  if isInt c.fmt then 8 * c.lanes
  else if c.fmt = 7#3 then 16 * c.lanes + 8
  else if isMx c.fmt then (if c.mxout then 128 else 33)
  else if c.op = 5#3 then 16 * c.lanes
  else if c.f64 then 8 * c.lanes
  else 4 * c.lanes * c.passes

/-- R183, Table 6.3: a legal configuration with LANES above 0. -/
def GCfg.legal (c : GCfg) : Bool :=
  let op := c.op.toNat
  let shape :=
    if isInt c.fmt then op ≤ 3 && !c.exact && 1 ≤ c.lanes && c.lanes ≤ 8
    else if isFp c.fmt then
      if c.exact then (op == 0 || op == 4) && 1 ≤ c.lanes && c.lanes ≤ 8
      else if op == 5 then 1 ≤ c.lanes && c.lanes ≤ 8
      else op ≤ 4 && 1 ≤ c.lanes && c.lanes ≤ 16
    else if isMx c.fmt then op ≤ 4 && !c.exact && c.lanes == 32
    else op == 6 && !c.exact && 1 ≤ c.lanes && c.lanes ≤ 4
  shape && 1 ≤ c.passes && c.passes ≤ 3 && (c.exact || (c.passes == 1 && !c.f64)) && (!c.f64 || c.passes == 1)
    && (!c.mxout || isMx c.fmt) && c.wlog ≤ 6
    && (c.wlog == 0 || (!c.exact && (op == 0 || op == 4) && (isFp c.fmt || isMx c.fmt)))

/-- FAST SUM or FAST DOT on the FP or MX family: the rank-ordered fold (R200). -/
def GCfg.folds (c : GCfg) : Bool := !c.exact && (c.op = 0#3 || c.op = 4#3) && (isFp c.fmt || isMx c.fmt)

/-- Table 6.8: branch routers combine. -/
def GCfg.routers (c : GCfg) : Bool := !c.folds && !(c.exact && c.op = 4#3)

/-- Table 6.4. -/
def GCfg.stateGranules (c : GCfg) : Nat :=
  if c.folds then (if isMx c.fmt then 2 + 2 * 2 ^ c.wlog else 1 + 2 ^ c.wlog)
  else if c.exact then (if c.op = 0#3 then ceilDiv (40 * c.lanes) 64 else ceilDiv (72 * c.lanes) 64)
  else if c.op = 5#3 then ceilDiv (16 * c.lanes) 64
  else if isInt c.fmt then ceilDiv (16 * c.lanes) 64
  else if c.fmt = 7#3 then 1
  else if isMx c.fmt then 2 else 1

/-- R184. The granules of a configuration without its weights. -/
def GCfg.granules (c : GCfg) : Nat := 1 + c.stateGranules + ceilDiv c.resultBytes 64

/-- Table 6.5. -/
def Weights.granules (w : Weights) : Nat :=
  let n := w.entries.length
  if w.wkind = 0 then ceilDiv (4 * n) 64 else if w.wkind = 1 then ceilDiv (4 * w.wlanes * n) 64 else n

/-- Table 6.5. The entries that a table's bytes spell: words of FP32 weights, or the 33 bytes of a block. -/
def weightEntries (wkind wlanes n : Nat) (l : List Byte) : List (List Nat) :=
  (List.range n).map (fun r =>
    if wkind = 0 then [leNat ((l.drop (4 * r)).take 4)]
    else if wkind = 1 then elems 4 ((l.drop (64 * r)).take (4 * wlanes))
    else ((l.drop (64 * r)).take 33).map BitVec.toNat)

/-- R190. The conditions on the weights of a DOT configuration, for n local ranks. -/
def weightsOk (c : GCfg) (w : Option Weights) (n : Nat) : Bool :=
  match w with
  | none => false
  | some w =>
    (if isFp c.fmt then w.wkind == 0 || (w.wkind == 1 && w.wlanes == c.lanes) else (w.wkind == 2 || w.wkind == 3))
    && decide (n ≤ w.entries.length)

/-! ### Lanes -/

/-- The identity of every configuration. -/
def Lane.zero : Lane :=
  { has := false, fp := 0, a := 0, big := 0, nanf := false, pinf := false, ninf := false, zinf := false, nz := false
    mn := pinf32, mx := ninf32, am := 0, nanc := 0, infc := 0, x := 0 }

def Acc.zero (c : GCfg) : Acc := { lanes := List.replicate c.lanes Lane.zero, cnt := 0, flags := 0 }

/-- −0 below +0, NaN apart (R216). -/
def fKey (a : Word) : Int := if fNeg a then -(bits a.toNat 0 31 : Int) - 1 else bits a.toNat 0 31

def fMin (a b : Word) : Word := if fKey a ≤ fKey b then a else b
def fMax (a b : Word) : Word := if fKey a ≤ fKey b then b else a
def fAbs (a : Word) : Word := a &&& 0x7FFFFFFF#32

/-- R222, exact_sum_add. -/
def exactSum (x : Word) : Lane :=
  let l := { Lane.zero with has := true, nz := decide (x ≠ 0x80000000#32) }
  if fNan x then { l with nanf := true }
  else if fInf x then { l with pinf := !fNeg x, ninf := fNeg x }
  else { l with a := fVal x }

/-- R222, exact_dot_add. -/
def exactDot (x w : Word) : Lane :=
  let l := { Lane.zero with has := true }
  let neg := fNeg x != fNeg w
  if fNan x || fNan w then { l with nanf := true, nz := true }
  else if fInf x || fInf w then
    if fZero x || fZero w then { l with zinf := true, nz := true }
    else { l with pinf := !neg, ninf := neg, nz := true }
  else
    let t := (fVal x * fVal w).natAbs
    { l with nz := decide (t ≠ 0) || !neg, big := if t ≥ 2 ^ 538 then 1 else 0, a := sgn neg t }

/-- An integer of INT64 (signed) or UINT64. -/
def intOf (f : BitVec 3) (x : Nat) : Int := if f = 0#3 ∧ x ≥ 2 ^ 63 then (x : Int) - 2 ^ 64 else x

/-- One contribution to a lane: element x of a contribution in FP32, or as a number. -/
def laneInt (c : GCfg) (x : Nat) : Lane :=
  let v := intOf c.fmt x
  { Lane.zero with has := true, a := if c.op = 3#3 then (v.natAbs : Int) else v }

def laneDigest (x : Nat) : Lane := { Lane.zero with has := true, a := x, x := BitVec.ofNat 64 x }

/-- A lane of MIN, MAX, AMAX or STATS from one FP32 value (R216, R217). -/
def laneOrd (c : GCfg) (x : Word) : Lane :=
  if c.op = 5#3 then
    if fNan x then { Lane.zero with nanc := 1 }
    else { Lane.zero with has := true, mn := x, mx := x, am := fAbs x, infc := if fInf x then 1 else 0 }
  else { Lane.zero with has := true, fp := if c.op = 3#3 then fAbs x else x, nanf := fNan x }

/-- R207, R215 to R218, R200. Two partials of a lane; in FAST SUM and DOT the first is the fold so far. -/
def Lane.merge (c : GCfg) (l m : Lane) : Lane × Byte :=
  if c.folds then
    if !m.has then (l, 0)
    else if !l.has then (m, 0)
    else
      let (r, f) := fastAdd l.fp m.fp
      ({ l with fp := r }, f)
  else if c.exact then
    ({ l with has := l.has || m.has, a := l.a + m.a, big := min (l.big + m.big) (2 ^ 32 - 1), nanf := l.nanf || m.nanf
              pinf := l.pinf || m.pinf, ninf := l.ninf || m.ninf, zinf := l.zinf || m.zinf, nz := l.nz || m.nz }, 0)
  else if c.fmt = 7#3 then
    ({ l with has := l.has || m.has, a := (l.a + m.a) % 2 ^ 64, x := l.x ^^^ m.x }, 0)
  else if c.op = 5#3 then
    ({ l with has := l.has || m.has, mn := fMin l.mn m.mn, mx := fMax l.mx m.mx, am := fMax l.am m.am
              nanc := min (l.nanc + m.nanc) 0xFFFF, infc := min (l.infc + m.infc) 0xFFFF }, 0)
  else if !m.has then (l, 0)
  else if !l.has then (m, 0)
  else if isInt c.fmt then
    ({ l with a := if c.op = 0#3 then l.a + m.a else if c.op = 1#3 then min l.a m.a else max l.a m.a }, 0)
  else
    ({ l with fp := if c.op = 1#3 then fMin l.fp m.fp else fMax l.fp m.fp, nanf := l.nanf || m.nanf }, 0)

/-- Two partials, lane by lane; flags of both and of the merge (R196). -/
def Acc.merge (c : GCfg) (a b : Acc) : Acc :=
  let ls := (a.lanes.zip b.lanes).map (fun p => Lane.merge c p.1 p.2)
  { lanes := ls.map Prod.fst, cnt := (a.cnt + b.cnt) % 2 ^ 64, flags := (ls.map Prod.snd).foldl (· ||| ·) (a.flags ||| b.flags) }

/-! ### Contributions (R192, R193, R200, R213) -/

/-- The FP32 lanes of a contribution of the FP family read in cfmt. -/
def fpLanes (cfmt : BitVec 3) (l : List Byte) : List Word :=
  if cfmt = 2#3 then (elems 4 l).map (BitVec.ofNat 32)
  else if cfmt = 3#3 then (elems 2 l).map bf16
  else (elems 2 l).map fp16

/-- Weight lane i of rank k. -/
def weightOf (w : Option Weights) (k i : Nat) : Word :=
  match w with
  | none => 0
  | some w =>
    match w.entries[k]? with
    | none => 0
    | some row => BitVec.ofNat 32 ((row[if w.wkind = 0 then 0 else i]?).getD 0)

/-- One member's contribution as a partial: its lanes, each product formed first, and the flags they raise. -/
def contribution (c : GCfg) (w : Option Weights) (rank : Nat) (cfmt : BitVec 3) (l : List Byte) : Acc :=
  let l := l.take (contribBytes cfmt c.lanes)
  let mixed := flagIf (decide (cfmt ≠ c.fmt)) gfIntMixed
  let dot := decide (c.op = 4#3)
  if isInt c.fmt then { lanes := (elems 8 l).map (laneInt c), cnt := 1, flags := 0 }
  else if c.fmt = 7#3 then { lanes := (elems 8 l).map laneDigest, cnt := 1, flags := 0 }
  else if isMx c.fmt then
    let vals := mxBlock (cfmt = 6#3) l
    let prods := if dot then
        match w.bind (fun w => (w.entries[rank]?).map (fun row => (mxBlock (w.wkind == 3) (row.map (BitVec.ofNat 8)), ()))) with
        | some (ws, _) =>
          (vals.zip ws).map (fun p =>
            let (v, f) := mxMul p.1 p.2
            (v, f ||| flagIf (p.1 = .nan || p.2 = .nan) gfNanIn))
        | none => vals.map (fun v => (v, 0))
      else vals.map (fun v => (v, flagIf (v = .nan) gfNanIn))
    let ls := prods.map (fun p =>
      let (x, f) := mxTo32 p.1
      (if c.folds then { Lane.zero with has := true, fp := x } else laneOrd c x, f ||| p.2))
    { lanes := ls.map Prod.fst, cnt := 1, flags := (ls.map Prod.snd).foldl (· ||| ·) mixed }
  else
    let ls := (fpLanes cfmt l).zipIdx.map (fun p =>
      let (x, f) := enter p.1
      if c.exact then
        if dot then
          (exactDot x (weightOf w rank p.2), 0)
        else (exactSum x, 0)
      else if dot then
        let y := weightOf w rank p.2
        let (r, g) := fastMul x y
        ({ Lane.zero with has := true, fp := r }, f ||| g ||| flagIf (fNan y) gfNanIn)
      else if c.folds then ({ Lane.zero with has := true, fp := x }, f)
      else (laneOrd c x, f))
    { lanes := ls.map Prod.fst, cnt := 1, flags := (ls.map Prod.snd).foldl (· ||| ·) mixed }

/-! ### Results (R195, R208 to R210, R214 to R219, R223) -/

/-- R209. Up to n words of rem x 2^-u: the words, and what remains. -/
def readWords (u : Nat) : Nat → Int → List Word × Int
  | 0, rem => ([], rem)
  | n + 1, rem =>
    if rem = 0 then
      let (ws, r) := readWords u n rem
      (0 :: ws, r)
    else
      let w := rne32 (decide (rem < 0)) rem.natAbs (-(u : Int))
      if fInf w then (w :: List.replicate n 0, rem)
      else
        let (ws, r) := readWords u n (rem - fVal w * 2 ^ (u - 149))
        (w :: ws, r)

/-- The value of a finite binary64 in units of 2^-1074. -/
def dVal (a : Dword) : Int :=
  let ex := bits a.toNat 52 11
  let m := if ex = 0 then bits a.toNat 0 52 else 2 ^ 52 + bits a.toNat 0 52
  sgn (a.getLsbD 63) (m * 2 ^ (max ex 1 - 1))

/-- exact_read (R223): the words of a lane (one 64-bit word with F64), and the flags. -/
def exactRead (c : GCfg) (l : Lane) : List Nat × Byte :=
  let u : Nat := if c.op = 0#3 then 149 else 298
  let both := l.zinf || (l.pinf && l.ninf)
  let fl := flagIf l.nanf gfNanIn ||| flagIf both gfInvalid
  let one := fun (w32 : Word) (w64 : Dword) => if c.f64 then [w64.toNat] else w32.toNat :: List.replicate (c.passes - 1) 0
  if l.nanf || both then (one qnan32 0x7FF8000000000000#64, fl)
  else if l.pinf then (one pinf32 0x7FF0000000000000#64, fl)
  else if l.ninf then (one ninf32 0xFFF0000000000000#64, fl)
  else if l.big ≥ 2 ^ 20 then (one qnan32 0x7FF8000000000000#64, fl ||| gfInvalid)
  else if l.a = 0 then
    if l.nz || !l.has then (one 0 0, fl) else (one 0x80000000#32 0x8000000000000000#64, fl)
  else if c.f64 then
    let w := rne64 (decide (l.a < 0)) l.a.natAbs (-(u : Int))
    ([w.toNat], fl ||| flagIf (decide (dVal w ≠ l.a * 2 ^ (1074 - u))) gfInexact)
  else
    let (ws, rem) := readWords u c.passes l.a
    let ovf := match ws with | w :: _ => fInf w | [] => false
    let f := if ovf then gfOvf ||| gfInexact else flagIf (decide (rem ≠ 0)) gfInexact
    (ws.map BitVec.toNat, fl ||| f ||| flagIf (decide (l.a.natAbs < 2 ^ (u - 126)) && decide (rem ≠ 0)) gfUf)

/-- R214. The 32 lanes as one block of 33 bytes. -/
def mxEncode (e5m2 : Bool) (ws : List Word) : List Byte × Byte :=
  if ws.any (fun w => fNan w || fInf w) then (List.replicate 32 0 ++ [0xFF#8], 0)
  else if ws.all fZero then (ws.map (fun w => if fNeg w then 0x80#8 else 0) ++ [0], 0)
  else
    let am := ws.foldl (fun m w => fMax m (fAbs w)) 0
    let x := max (fUnit am + (fMant am).log2 - (if e5m2 then 15 else 8)) (-127)
    let enc := fun (w : Word) =>
      let e := fUnit w - x
      let (p, lo, top) : Nat × Int × Nat := if e5m2 then (3, -16, 0x7B) else (4, -9, 0x7E)
      let (n, k) := if fMant w = 0 then (0, lo) else roundTo p lo (fMant w) e
      let raw := (k - lo).toNat * 2 ^ (p - 1) + n
      let code := if n = 0 then 0 else min raw top
      let (m', e') : Nat × Int := if code < 2 ^ (p - 1) then (code, lo)
        else (2 ^ (p - 1) + code % 2 ^ (p - 1), lo + (code / 2 ^ (p - 1) : Nat) - 1)
      let same := dyLe (fMant w) e m' e' && dyLe m' e' (fMant w) e
      (BitVec.ofNat 8 ((if fNeg w then 128 else 0) + code),
        flagIf (!same) gfInexact ||| flagIf (code == 0 && !fZero w) gfUf)
    let r := ws.map enc
    (r.map Prod.fst ++ [BitVec.ofInt 8 (x + 127)], (r.map Prod.snd).foldl (· ||| ·) 0)

/-- Table 6.11 and Table 6.6 for one integer lane. -/
def intResult (c : GCfg) (l : Lane) : Nat × Byte :=
  if !l.has then
    (if c.op = 1#3 then (if c.fmt = 0#3 then 2 ^ 63 - 1 else 2 ^ 64 - 1)
      else if c.op = 2#3 && c.fmt = 0#3 then 2 ^ 63 else 0, 0)
  else
    let lo : Int := if c.fmt = 0#3 then -(2 ^ 63) else 0
    let hi : Int := if c.fmt = 0#3 then 2 ^ 63 else 2 ^ 64
    ((BitVec.ofInt 64 l.a).toNat, flagIf (c.op = 0#3 && !(decide (lo ≤ l.a) && decide (l.a < hi))) gfIntMixed)

/-- An FP32 lane of SUM, DOT, MIN, MAX or AMAX that is not EXACT (R216, Table 6.11). -/
def fpResult (c : GCfg) (l : Lane) : Word × Byte :=
  if !l.has then (if c.op = 1#3 then pinf32 else if c.op = 2#3 then ninf32 else 0, 0)
  else if l.nanf then (qnan32, gfNanIn)
  else (l.fp, 0)

/-- The result of a course (R195): its bytes, and the flags of its readback. -/
def result (c : GCfg) (a : Acc) : List Byte × Byte :=
  let orAll := fun (l : List Byte) => l.foldl (· ||| ·) (0 : Byte)
  if isInt c.fmt then
    let r := a.lanes.map (intResult c)
    (r.flatMap (fun p => leBytes 8 p.1), orAll (r.map Prod.snd))
  else if c.fmt = 7#3 then
    (a.lanes.flatMap (fun l => leBytes 8 (l.a % 2 ^ 64).toNat ++ leBytes 8 l.x.toNat) ++ leBytes 8 a.cnt, 0)
  else if c.exact then
    let r := a.lanes.map (exactRead c)
    if c.f64 then (r.flatMap (fun p => leBytes 8 (p.1.headD 0)), orAll (r.map Prod.snd))
    else ((List.range c.passes).flatMap (fun j => r.flatMap (fun p => leBytes 4 ((p.1[j]?).getD 0))), orAll (r.map Prod.snd))
  else if c.op = 5#3 then
    (a.lanes.flatMap (fun l =>
      let q := !l.has && l.nanc != 0
      leBytes 4 (if q then qnan32 else l.mn).toNat ++ leBytes 4 (if q then qnan32 else l.mx).toNat
        ++ leBytes 4 (if q then qnan32 else l.am).toNat ++ leBytes 2 l.nanc ++ leBytes 2 l.infc), 0)
  else
    let r := a.lanes.map (fpResult c)
    let ws := r.map Prod.fst
    let f := orAll (r.map Prod.snd)
    if isMx c.fmt && !c.mxout then
      let (b, g) := mxEncode (c.fmt = 6#3) ws
      (b, f ||| g)
    else (ws.flatMap (fun w => leBytes 4 w.toNat), f)

end Sys2Proof.Machine
end

