-- ==== Sys2Proof/Machine/Beds.lean ====
section
/-! DEFINITION. Sys2Proof/Machine/Beds.lean: a joint's beds (R90, R97 to R101, R108 to R110, R115, R121, R122, R192, R498): arrivals, waits, releases and the settling of a removed bed. -/

namespace Sys2Proof.Machine

/-! ### Beds -/

/-- The bed in force at joint j whose handle is h (R108). -/
def bedFor (d : Dp) (j : Nat) (h : Dword) : Option Bed := (jointOf d j).beds.find? (fun b => !b.waiting && b.handle == h)

/-- R92. The bed of a handle that waits for the boundary of bond number `made`. -/
def newBedFor (d : Dp) (j : Nat) (h : Dword) (made : Nat) : Option Bed := (jointOf d j).beds.find? (fun b => b.waiting && b.handle == h && b.made == made)

/-- The bed in force of handle h becomes f of it. -/
def modBed (d : Dp) (j : Nat) (h : Dword) (f : Bed → Bed) : Dp :=
  let x := jointOf d j
  setJoint d j { x with beds := modFirst (fun b => !b.waiting && b.handle == h) f x.beds }

def dropBed (d : Dp) (j : Nat) (h : Dword) (waiting : Bool) : Dp :=
  let x := jointOf d j
  setJoint d j { x with beds := x.beds.filter (fun b => !(b.waiting == waiting && b.handle == h)) }

/-- R92. The bed of bond number `made` that waits at joint j goes. -/
def dropNewBed (d : Dp) (j : Nat) (h : Dword) (made : Nat) : Dp :=
  let x := jointOf d j
  setJoint d j { x with beds := x.beds.filter (fun b => !(b.waiting && b.handle == h && b.made == made)) }

/-- R98, R198. Where the arrival hods of a bed go: to the nearest entry of the tree, or straight to the home tile where branch routers forward them unchanged. -/
def Bed.dest (e : Env) (b : Bed) : Port :=
  match b.cfg with
  | some g => if g.routers then b.up else .tile (homeOf e b.index)
  | none => b.up

def Bed.member (b : Bed) (slot : BitVec 3) : Option BedMember := b.members.find? (fun m => m.slot == slot.toNat)

def Bed.setMember (b : Bed) (m : BedMember) : Bed := { b with members := modFirst (fun x => x.slot == m.slot) (fun _ => m) b.members }

/-- R76, R108. A mask admits the class of the agent in slot s of joint j. -/
def admits (e : Env) (mask : BitVec 5) (j : Nat) (s : BitVec 3) : Bool :=
  match agentClass e j s.toNat with
  | some c => mask.getLsbD c
  | none => false

/-- R76. MASK of a group and CAP of a partition together. -/
def groupMask (d : Dp) (p : BitVec 4) (g : BitVec 8) : BitVec 5 := fgetD (partOf d p).gmask g.toNat 0 &&& (partOf d p).cap

/-- R77, R108. The admission copy of a bed takes what MASK and CAP are now: at a write of them, and where a SAVED partition's bed comes back. -/
def renewBed (d : Dp) (b : Bed) : Bed := { b with mask := groupMask d b.part (brickOf d b.index).group }

/-! ### Arrivals (R97, R192) -/

/-- R97: an arrival refused, or counted towards the open or the next course. -/
inductive ArrCase
  | refuse (st : Status)
  | opens
  | next
  deriving DecidableEq, Repr

/-- R97, for a member with e, a, b and a count of c. -/
def arrCase (m : BedMember) (c : Nat) : ArrCase :=
  if c = 0 ∨ c > m.e then .refuse .badCount
  else if m.a + c ≤ m.e then .opens
  else if m.a = m.e ∧ m.b + c ≤ m.e then .next
  else if m.a = m.e ∧ m.b = m.e then .refuse .busy
  else .refuse .badCount

/-- The bytes of a request's grout beats. -/
def groutOf (r : Req) : List Byte := ofBeats r.beats

/-- R192. The checks of an arrival's grout against the configuration of the bed. -/
def groutCheck (cfg : Option GCfg) (m : BedMember) (r : Req) : Option Status :=
  match cfg with
  | none => if r.beats.isEmpty && r.flags = 0#4 then none else some .badGrout
  | some c =>
    let cf := r.flags.extractLsb' 0 3
    let n := contribBytes cf c.lanes
    if r.count.toNat ≠ m.e then some .badCount
    else if r.flags.getLsbD 3 then some .badGrout
    else if !(cf = c.fmt || (isFp cf && isFp c.fmt) || (isMx cf && isMx c.fmt)) then some .badGrout
    else if r.beats.length ≠ ceilDiv n 16 then some .badGrout
    else if (groutOf r).drop n |>.all (fun x => x = 0) then none
    else some .badGrout

/-- Table 8.4, step 4, for an arrival of a member: the BAD_COUNT cases of R97 and the checks of R192. -/
def bedForm (b : Bed) (m : BedMember) (r : Req) : Option Status :=
  match b.cfg, arrCase m r.count.toNat with
  | none, .refuse .badCount => some .badCount
  | _, _ => groutCheck b.cfg m r

/-! ### Arrival hods (R98) -/

/-- The arrival of one member without grout, as one with c counts towards a course (R242: its TAG goes with what it completes). -/
def plainArrival (b : Bed) (j : Nat) (x : JEntry) (course : Word) (c : Nat) : Arrival :=
  { index := b.index, handle := b.handle, course := course, count := c, pay := .none, tag := x.req.tag, agent := agentNo j x.req.slot
    gang := x.req.gang, op := x.op, joint := j }

/-- R98, R242. For a barrier without grout: once every member agent has a = e, one hod with the joint's summed count and the TAG of its latest arrival. -/
def sendComplete (e : Env) (d : Dp) (j : Nat) (h : Dword) : Dp :=
  match bedFor d j h with
  | none => d
  | some b =>
    let sum := (b.members.map (fun m => m.e - m.f)).sum
    if b.cfg.isSome || !b.armed || b.poisoned.isSome || sum = 0 || !(b.members.all (fun m => m.a == m.e)) then d
    else
      let none_ : Arrival := { index := b.index, handle := h, course := 0, count := 0, pay := .none, tag := 0, agent := 0, gang := 0, op := .arrive, joint := j }
      let arr : Arrival := { b.last.getD none_ with course := b.course + 1, count := sum }
      let d := modBed d j h (fun b => { b with members := b.members.map (fun m => { m with f := m.e }) })
      send e d (.joint j) b.up .req b.part (.arrival arr)

/-- The arrival hod of one member's contribution (R98, R192). -/
def groutArrival (b : Bed) (j : Nat) (m : BedMember) (x : JEntry) (course : Word) : Arrival :=
  { index := b.index, handle := b.handle, course := course, count := x.req.count.toNat
    pay := .one m.rank (x.req.flags.extractLsb' 0 3) (groutOf x.req), tag := x.req.tag, agent := agentNo j x.req.slot
    gang := x.req.gang, op := x.op, joint := j }

/-- R96, R104. What a WAIT or TEST whose target is done is answered: the result of its course when that is the last, else OK. -/
def doneResp (course target : Word) (st : Status) (gflags : Byte) (result : List Beat) : Resp :=
  if target = course then { status := st, course := course, gflags := gflags, value := 0, beats := result }
  else Resp.at .ok course

/-- A pending entry waits for its course (R102). -/
def pendFor (d : Dp) (j id : Nat) (target : Word) : Dp :=
  modEntry d j id (fun x => { x with phase := .pends, pended := true, target := target })

/-- R97, R98, R102. An ARRIVE or ARRIVE_WAIT of a member, applied to the bed; its refusals carry COURSE, which for ACCESS no rule gives (DEDUCED, log 13). -/
def applyArrival (e : Env) (d : Dp) (j : Nat) (x : JEntry) (b : Bed) (m : BedMember) : Dp :=
  let refuse := fun (st : Status) => answer e d j x.id (Resp.at st b.course)
  if !admits e b.mask j x.req.slot then refuseAccess e d j (some x.id) x.req b.course
  else
    match b.poisoned with
    | some n => answer e d j x.id { Resp.at .poisoned b.course with value := n }
    | none =>
      if !b.armed then refuse .busy
      else
        match groutCheck b.cfg m x.req, arrCase m x.req.count.toNat with
        | some st, _ => refuse st
        | none, .refuse st => refuse st
        | none, .opens =>
          let c := b.course + 1
          let d := modBed d j b.handle (fun b => { b.setMember { m with a := m.a + x.req.count.toNat, f := if b.cfg.isSome then m.e else m.f } with
            last := some (plainArrival b j x c x.req.count.toNat) })
          let d := if x.op = .arrive then answer e d j x.id (Resp.at .ok c) else pendFor d j x.id c
          if b.cfg.isSome then send e d (.joint j) (b.dest e) .req b.part (.arrival (groutArrival b j m x c))
          else sendComplete e d j b.handle
        | none, .next =>
          if b.cfg.isSome && b.cfgWaits then refuse .busy
          else
            let c := b.course + 2
            let d := modBed d j b.handle (fun b =>
              let b := { b.setMember { m with b := m.b + x.req.count.toNat } with nextLast := some (plainArrival b j x c x.req.count.toNat) }
              if b.cfg.isSome then { b with heldPay := b.heldPay ++ [(groutArrival b j m x c, m.slot)] } else b)
            if x.op = .arrive then answer e d j x.id (Resp.at .ok c) else pendFor d j x.id c

/-! ### Waits (R108, R109) -/

/-- R109, R127, R164. Whether a request of joint j on handle h is forwarded and not yet answered. -/
def forwarded (d : Dp) (j : Nat) (h : Dword) : Bool := (jointOf d j).fwdWaits.any (fun p => p.1 == h)

def addForwarded (d : Dp) (j : Nat) (h : Dword) (id : Nat) : Dp :=
  let x := jointOf d j
  setJoint d j { x with fwdWaits := x.fwdWaits ++ [(h, id)] }

def dropForwarded (d : Dp) (j : Nat) (h : Dword) : Dp :=
  let x := jointOf d j
  setJoint d j { x with fwdWaits := x.fwdWaits.filter (fun p => p.1 != h) }

/-- R109. A WAIT of a joint without a bed: forwarded, or merged behind the one that is. -/
def forwardWait (e : Env) (d : Dp) (j : Nat) (x : JEntry) : Dp :=
  let h := x.req.handle
  let t := reqTarget x.req
  if forwarded d j h then pendFor d j x.id t
  else
    let d := modEntry (addForwarded d j h x.id) j x.id (fun y => { y with phase := .atHome, target := t })
    send e d (.joint j) (.tile (homeOf e (hIndex h))) .req (hPart h) (.fwdWait (hIndex h) j x.id t)

/-- R108, R102. A WAIT or TEST answered from the bed, or pending on it; ACCESS carries COURSE, which no rule gives (DEDUCED, log 13). -/
def bedWait (e : Env) (d : Dp) (j : Nat) (x : JEntry) (b : Bed) : Dp :=
  let t := reqTarget x.req
  if !admits e b.mask j x.req.slot then refuseAccess e d j (some x.id) x.req b.course
  else if completed b.course t then answer e d j x.id (doneResp b.course t b.status b.gflags b.result)
  else
    match b.poisoned with
    | some n => answer e d j x.id { Resp.at .poisoned b.course with value := n }
    | none => if x.op = .wait && b.armed then pendFor d j x.id t else answer e d j x.id (Resp.at .busy b.course)

/-- Pending WAITs and ARRIVE_WAITs on a handle, but for those whose response waits for its instant. -/
def pendingWaits (d : Dp) (j : Nat) (h : Dword) : List JEntry :=
  let y := jointOf d j
  y.entries.filter (fun x => (x.op == .wait || x.op == .arriveWait) && x.phase == .pends && x.req.handle == h
    && !(y.held.any (fun r => r.entry == x.id)))

/-- R100 to R104. What a release answers to a pending entry. -/
def Rel.resp (r : Rel) (x : JEntry) : Resp :=
  if r.status = .ok || r.status = .okShrunk then doneResp r.course x.target r.status r.gflags r.beats
  else { status := r.status, course := r.course, gflags := 0, value := r.value, beats := [] }

/-- R122. The instant of an entry under an aligned or staggered release, for a wave. -/
def Rel.instantOf (r : Rel) (wave : Nat) : Option Dword :=
  r.instant.map (fun i => i + BitVec.ofNat 64 (wave * r.stagger.toNat * 1024 / 7))

/-- R121. LATE: counted at the joint and for the partition. -/
def countLate (e : Env) (d : Dp) (j : Nat) (p : BitVec 4) : Dp := bumpP e (bumpK e d 2 j 2 1) p 12 1

/-- R119, R121, R122. A wait that a release completes: at once, or held until its instant. DESIGN CHOICE (log 49): under a staggered release the WAIT of an agent that is no member goes with wave 0. -/
def completeOne (e : Env) (j : Nat) (r : Rel) (b : Option Bed) (d : Dp) (x : JEntry) : Dp :=
  let wave := match b.bind (fun b => b.member x.req.slot) with | some m => m.wave | none => 0
  match r.instantOf wave with
  | none => answer e d j x.id (r.resp x)
  | some i =>
    if reached (gtInterp e) i then
      answer e (if gtInterp e = i then d else countLate e d j (hPart r.handle)) j x.id (r.resp x)
    else
      let y := jointOf d j
      setJoint d j { y with held := y.held ++ [{ entry := x.id, instant := i, resp := r.resp x }] }

/-- R119, R121, R122, R495. The waits that a release completes. -/
def completeWaits (e : Env) (d : Dp) (j : Nat) (r : Rel) (b : Option Bed) (l : List JEntry) : Dp :=
  (bySlot l).foldl (completeOne e j r b) d

/-! ### Removed beds (R92, R498) -/

/-- R498. A bed leaves joint j while its barrier stays: ARRIVE_WAITs end NOT_OWNER with COURSE, WAITs that are not done go on as from a joint without a bed, past the masks that their bed has put them through before (R77). -/
def settleBed (e : Env) (d : Dp) (j : Nat) (b : Bed) : Dp :=
  let l := pendingWaits d j b.handle
  let d := answerMany e d j (l.filter (fun x => x.op == .arriveWait)) (fun _ => Resp.at .notOwner b.course)
  (l.filter (fun x => x.op == .wait)).foldl (fun d x => forwardWait e (modEntry d j x.id (fun y => { y with seen := true })) j x) d

/-- Arrivals that a joint discards (joint counter 3). -/
def discardArrivals (e : Env) (d : Dp) (j n : Nat) : Dp := bumpK e d 2 j 3 n

/-- R92. The members of a new bed start with what their next-course arrivals left them; the second part lists the slots whose arrivals are discarded. -/
def carryOver (old nw : Bed) : List BedMember × List Nat :=
  let r := nw.members.map (fun m =>
    match old.members.find? (fun o => o.slot == m.slot) with
    | none => (m, none)
    | some o =>
      if o.b = 0 then (m, none)
      else if o.b ≤ m.e ∧ !(old.cfg.isSome && o.e != m.e) then ({ m with a := o.b }, none)
      else (m, some m.slot))
  (r.map Prod.fst, r.filterMap Prod.snd)

/-- R92. The switch at a joint: waits on discarded arrivals answered, the old bed gone, the new one in force. -/
def switchBed (e : Env) (d : Dp) (j : Nat) (r : Rel) (old nw : Option Bed) : Dp :=
  match nw with
  | none =>
    (match old with
      | none => d
      | some o =>
        if !r.removeBed then d
        else
          let d := discardArrivals e d j ((o.members.map BedMember.b).sum)
          settleBed e (dropBed d j o.handle false) j { o with course := r.course })
  | some n =>
    match old with
    | none =>
      let d := dropNewBed d j n.handle n.made
      let y := jointOf d j
      let n := { n with waiting := false, course := r.course, status := r.status, gflags := r.gflags, result := r.beats }
      setJoint d j { y with beds := y.beds ++ [n] }
    | some o =>
      let (ms, gone) := carryOver o n
      let outs := o.members.filter (fun m => !(n.members.any (fun k => k.slot == m.slot)))
      let lost := ((o.members.filter (fun m => gone.contains m.slot)).map BedMember.b).sum + (outs.map BedMember.b).sum
      let d := discardArrivals e d j lost
      let l := (pendingWaits d j o.handle).filter (fun x => x.op == .arriveWait)
      let d := answerMany e d j (l.filter (fun x => gone.contains x.req.slot.toNat)) (fun _ => Resp.at .badCount r.course)
      let d := answerMany e d j (l.filter (fun x => outs.any (fun m => m.slot == x.req.slot.toNat))) (fun _ => Resp.at .notOwner r.course)
      let d := dropNewBed (dropBed d j o.handle false) j n.handle n.made
      let keep := o.heldPay.filterMap (fun p =>
        match ms.find? (fun m => m.slot == p.2 && !gone.contains m.slot) with
        | none => none
        | some m => some ({ p.1 with pay := (match p.1.pay with | .one _ f b => .one m.rank f b | y => y) }, p.2))
      let n := { n with waiting := false, course := r.course, status := r.status, gflags := r.gflags, result := r.beats
                        members := ms, heldPay := keep, cfg := o.cfg, last := o.nextLast }
      let y := jointOf d j
      setJoint d j { y with beds := y.beds ++ [n] }

/-- R98, R101. The arrivals of the course that opens which a joint held without grout, at a bed whose new configuration has grout: one hod for each member, with its count. DESIGN CHOICE (log 52): such an arrival brings no contribution, which an empty one at its rank stands for. -/
def plainHeld (b : Bed) (j : Nat) (c : GCfg) : List Arrival :=
  (b.members.filter (fun m => m.a != 0)).map (fun m =>
    { index := b.index, handle := b.handle, course := b.course + 1, count := m.a, pay := .one m.rank c.fmt [], tag := (b.last.map Arrival.tag).getD 0, agent := j * 8 + m.slot
      gang := 0, op := .arrive, joint := j })

/-- R98, R101, R186. The release's new configuration is in force; held contributions of the course that opens are sent. -/
def openCourse (e : Env) (d : Dp) (j : Nat) (h : Dword) (r : Rel) : Dp :=
  match bedFor d j h with
  | none => d
  | some b =>
    let b2 := match r.cfg with | some c => { b with cfg := c, cfgWaits := false } | none => b
    let plain := match b.cfg, b2.cfg with | none, some c => plainHeld b2 j c | _, _ => []
    let d := modBed d j h (fun _ => { b2 with members := b2.members.map (fun m => { m with f := if b2.cfg.isSome then m.a else 0 }), heldPay := [] })
    sendComplete e ((b.heldPay.map Prod.fst ++ plain).foldl (fun d a => send e d (.joint j) (b2.dest e) .req b.part (.arrival a)) d) j h

/-- R112, R113, R118. The entries that an ended barrier's copy ends at a bed: those accepted before its home sent it (R113), and under POISONED every one, unless the barrier has been armed since. -/
def Rel.endsAt (r : Rel) (b : Option Bed) (x : JEntry) : Bool :=
  match r.upTo with
  | none => true
  | some n =>
    if r.status = .poisoned then
      match b with
      | some b => decide (b.since < n) || decide (x.id < b.since)
      | none => decide (x.id < n)
    else decide (x.id < n)

/-- R118. A POISONED copy sets its mark on a bed that has not been armed since the poisoning. -/
def Rel.marks (r : Rel) (b : Bed) : Bool :=
  r.status == .poisoned && (match r.upTo with | some n => decide (b.since < n) | none => true)

/-- R118. The bed of a poisoned barrier: its counts are discarded. -/
def Bed.poison (b : Bed) (n : Dword) : Bed :=
  { b with poisoned := some n, heldPay := [], last := none, nextLast := none, members := b.members.map (fun m => { m with a := 0, b := 0, f := 0 }) }

/-- R92. The bed that takes its place with a release, and whether the release is due at the bed of a joint. -/
def Rel.next (r : Rel) (d : Dp) (j : Nat) : Option Bed := if r.removeBed then newBedFor d j r.handle r.bond else none

def Rel.due (r : Rel) (old : Option Bed) : Bool := match old with | some b => decide (r.course = b.course + 1) | none => r.removeBed

/-- R92, R498. What a pending ARRIVE_WAIT that a release does not complete is answered where the release removes its bed. -/
def Rel.removes (r : Rel) (o : Bed) (nw : Option Bed) (x : JEntry) : Option Resp :=
  if !r.removeBed || x.op != .arriveWait || !r.due (some o) then none
  else
    match nw with
    | none => some (Resp.at .notOwner r.course)
    | some n =>
      if (carryOver o n).2.contains x.req.slot.toNat then some (Resp.at .badCount r.course)
      else if n.members.any (fun m => m.slot == x.req.slot.toNat) then none
      else some (Resp.at .notOwner r.course)

/-- R101, R92, R495. Every wait that a release completes or ends at a joint with bed o, in slot order. -/
def releaseWaits (e : Env) (d : Dp) (j : Nat) (r : Rel) (o : Bed) (l : List JEntry) : Dp :=
  let nw := r.next d j
  (bySlot (l.filter (fun x => completed r.course x.target || (r.removes o nw x).isSome))).foldl (fun d x =>
    if completed r.course x.target then completeOne e j r (some o) d x
    else match r.removes o nw x with | some y => answer e d j x.id y | none => d) d

/-- R92, R101. Release r applied to the bed of joint j: the course of the bed, or its removal and the bed that takes its place. -/
def applyCourse (e : Env) (d : Dp) (j : Nat) (r : Rel) (old : Option Bed) : Dp :=
  let nw := r.next d j
  if !r.due old then d
  else
    let d := if r.removeBed then switchBed e d j r old nw
      else modBed d j r.handle (fun b => { b with course := r.course, status := r.status, gflags := r.gflags, result := r.beats, last := b.nextLast
                                                  nextLast := none, members := b.members.map (fun m => { m with a := m.b, b := 0 }) })
    openCourse e d j r.handle r

/-- R101, R103, R118. A release, or the end of a barrier's waits with another status, at a joint. -/
def applyRelease (e : Env) (d : Dp) (j : Nat) (r : Rel) : Dp :=
  let old := bedFor d j r.handle
  let l := pendingWaits d j r.handle
  if r.status = .ok || r.status = .okShrunk then
    let d := match old with
      | none => d
      | some b => releaseWaits e d j r b l
    applyCourse e d j r old
  else
    let d := if old.any r.marks then modBed d j r.handle (fun b => b.poison r.value) else d
    let d := answerMany e d j (l.filter (r.endsAt old)) r.resp
    match r.removeBed, old with
    | true, some o => dropBed (dropBed (discardArrivals e d j ((o.members.map (fun m => (m.a - m.f) + m.b)).sum)) j r.handle false) j r.handle true
    | _, _ => d

/-- The WAITs of joint j on a handle that are forwarded, or merged behind the one that is. -/
def watchedWaits (d : Dp) (j : Nat) (h : Dword) : List JEntry :=
  (jointOf d j).entries.filter (fun x => x.op == .wait && x.req.handle == h && (x.phase == .pends || x.phase == .atHome)
    && !((jointOf d j).held.any (fun y => y.entry == x.id)))

/-- R110. The watcher slot of joint j is given up. -/
def unwatch (e : Env) (d : Dp) (j : Nat) (h : Dword) (i : Nat) : Dp :=
  send e (dropForwarded d j h) (.joint j) (.tile (homeOf e i)) .req (hPart h) (.unwatch i j)

/-- R110, R112, R118. A watcher's copy: every WAIT that it satisfies or ends completes, and the slot is given up once none is left. A WAIT accepted after the poisoning goes to the home tile again. -/
def applyWatcher (e : Env) (d : Dp) (j : Nat) (r : Rel) : Dp :=
  let ended := !(r.status = .ok || r.status = .okShrunk)
  let l := (watchedWaits d j r.handle).filter (fun x => if ended then r.endsAt none x else completed r.course x.target)
  let d := if ended then answerMany e d j l r.resp else completeWaits e d j { r with stagger := 0 } none l
  let left := watchedWaits d j r.handle
  if !forwarded d j r.handle then d
  else if left.isEmpty then unwatch e d j r.handle r.index
  else if r.status = .poisoned then left.foldl (fun d x => forwardWait e d j x) (unwatch e d j r.handle r.index)
  else d

/-! ### Departures at a joint (R115) -/

/-- R115. The bed of one barrier without a departing agent, and the shrink hod it sends. -/
def departBed (e : Env) (d : Dp) (j : Nat) (slot : Nat) (b : Bed) : Dp :=
  match b.members.find? (fun m => m.slot == slot) with
  | none => d
  | some m =>
    let d := discardArrivals e d j ((m.a - m.f) + m.b)
    let x := jointOf d j
    let d := setJoint d j { x with beds := x.beds.map (fun y => if y.handle = b.handle && y.waiting = b.waiting then
        { y with members := y.members.filter (fun k => k.slot != slot), heldPay := y.heldPay.filter (fun p => p.2 != slot) } else y) }
    if b.waiting then d
    else
      let agent := j * 8 + slot
      let d := send e d (.joint j) b.up .req b.part (.shrink b.index (b.course + 1) (m.e - m.f) m.f m.e agent m.rank)
      sendComplete e d j b.handle

end Sys2Proof.Machine
end

