-- ==== Sys2Proof/Machine/Cmac.lean ====
section
/-! DEFINITION. Sys2Proof/Machine/Cmac.lean: AES-CMAC with 128-bit keys (RFC 4493, which R277 and R282 name; PRESUMED, log 7): the tag of a frame. Blocks are lists of 16 bytes, first byte first. -/

namespace Sys2Proof.Machine

/-- The AES substitution box, 32 bytes to a row, the first lowest. -/
def sboxRows : List Nat :=
  [0xC072A49CAFA2D4ADF04759FA7DC982CA76ABD7FE2B670130C56F6BF27B777C63,
   0x75B227EBE28012079A059618C323C7041531D871F1E5A534CCF73F362693FDB7,
   0xCF584C4A39BECB6A5BB1FC20ED00D153842FE329B3D63B52A05A6E1B1A2C8309,
   0xD2F3FF1021DAB6BCF5389D928F40A351A89F3C507F02F94585334D43FBAAEFD0,
   0xDB0B5EDE14B8EE4688902A22DC4F816073195D643D7EA7C41744975FEC130CCD,
   0x08AE7A65EAF4566CA94ED58D6D37C8E779E4959162ACD3C25C2406490A3A32E0,
   0x9E1DC186B95735610EF6034866B53E708A8BBD4B1F74DDE8C6B4A61C2E2578BA,
   0x16BB54B00F2D99416842E6BF0D89A18CDF2855CEE9871E9B948ED9691198F8E1]

def sbox (x : Byte) : Byte := BitVec.ofNat 8 (bits ((sboxRows[x.toNat / 32]?).getD 0) (8 * (x.toNat % 32)) 8)

/-- Multiplication by x in the field of AES. -/
def xtime (x : Byte) : Byte := (x <<< 1) ^^^ (if x.getLsbD 7 then 0x1B#8 else 0)

def xorBytes (a b : List Byte) : List Byte := (a.zip b).map (fun p => p.1 ^^^ p.2)

/-- One round key from the one before, with its round constant. -/
def nextKey (k : List Byte) (rcon : Byte) : List Byte :=
  let w := fun i => (k.drop (4 * i)).take 4
  let l := w 3
  let t := match l with
    | [a, b, c, d] => [sbox b ^^^ rcon, sbox c, sbox d, sbox a]
    | _ => []
  let w0 := xorBytes (w 0) t
  let w1 := xorBytes (w 1) w0
  let w2 := xorBytes (w 2) w1
  let w3 := xorBytes (w 3) w2
  w0 ++ w1 ++ w2 ++ w3

/-- SubBytes and ShiftRows: byte r + 4c comes from column c + r. -/
def subShift (s : List Byte) : List Byte :=
  (List.range 16).map (fun i => sbox ((s[(i % 4 + 4 * ((i / 4 + i % 4) % 4))]?).getD 0))

def mixColumn : List Byte → List Byte
  | [a, b, c, d] =>
    let m2 := xtime
    let m3 := fun x => xtime x ^^^ x
    [m2 a ^^^ m3 b ^^^ c ^^^ d, a ^^^ m2 b ^^^ m3 c ^^^ d, a ^^^ b ^^^ m2 c ^^^ m3 d, m3 a ^^^ b ^^^ c ^^^ m2 d]
  | l => l

/-- The rounds after the first key addition; the last one mixes no columns. -/
def aesRounds : List Byte → List Byte → List Byte → List Byte
  | [], _, s => s
  | [rc], k, s => xorBytes (subShift s) (nextKey k rc)
  | rc :: rcs, k, s =>
    let k2 := nextKey k rc
    aesRounds rcs k2 (xorBytes ((chunks 4 4 (subShift s)).flatMap mixColumn) k2)

def aes (k s : List Byte) : List Byte :=
  aesRounds [0x01#8, 0x02#8, 0x04#8, 0x08#8, 0x10#8, 0x20#8, 0x40#8, 0x80#8, 0x1B#8, 0x36#8] k (xorBytes s k)

/-- RFC 4493: a subkey from the one before. -/
def subkey (l : List Byte) : List Byte :=
  let n := beNat l
  beBytes 16 ((2 * n % 2 ^ 128) ^^^ (if n ≥ 2 ^ 127 then 0x87 else 0))

def cmacBlocks (k k1 k2 : List Byte) : Nat → List Byte → List Byte → List Byte
  | 0, _, x => x
  | n + 1, m, x =>
    if m.length > 16 then cmacBlocks k k1 k2 n (m.drop 16) (aes k (xorBytes x (m.take 16)))
    else if m.length = 16 then aes k (xorBytes x (xorBytes m k1))
    else aes k (xorBytes x (xorBytes (m ++ 0x80#8 :: List.replicate (15 - m.length) 0) k2))

/-- AES-CMAC of a message. -/
def cmac (key : BitVec 128) (m : List Byte) : List Byte :=
  let k := beBytes 16 key.toNat
  let k1 := subkey (aes k (List.replicate 16 0))
  cmacBlocks k k1 (subkey k1) (m.length / 16 + 1) m (List.replicate 16 0)

/-- R282. The tag of a frame: the first 8 bytes of T. -/
def frameTag (key : BitVec 128) (m : List Byte) : List Byte := (cmac key m).take 8

end Sys2Proof.Machine
end

