-- ==== Sys2Proof/Machine/Links.lean ====
section
/-! DEFINITION. Sys2Proof/Machine/Links.lean: routes, the sending half of a link (R273 to R280, R294), the hod records, and the partials of Table 9.4. -/

namespace Sys2Proof.Machine

/-! ### Routes and keys (Tables 9.11, 9.12) -/

def routeWord (e : Env) (r w : Nat) : Nat := (fgetD e.lf.routes (r * 8 + w) 0).toNat
def routeValid (e : Env) (r : Nat) : Bool := decide (r < 255) && bits (routeWord e r 0) 0 1 == 1
def routePart (e : Env) (r : Nat) : BitVec 4 := BitVec.ofNat 4 (bits (routeWord e r 0) 1 4)
def routeKey (e : Env) (r : Nat) : Nat := bits (routeWord e r 0) 5 5
def routePeerLink (e : Env) (r : Nat) : Nat := bits (routeWord e r 0) 10 8
def routeDie (e : Env) (r : Nat) : BitVec 3 := BitVec.ofNat 3 (bits (routeWord e r 0) 18 3)
def routeNode (e : Env) (r : Nat) : BitVec 16 := BitVec.ofNat 16 (routeWord e r 1)

def keyJob (e : Env) (k : Nat) : Nat := (fgetD e.lf.keyWords (k * 16) 0).toNat
def keyCtl (e : Env) (k : Nat) : Nat := (fgetD e.lf.keyWords (k * 16 + 1) 0).toNat
def keyOf (e : Env) (k slot : Nat) : BitVec 128 := fgetD e.lf.keys (k * 2 + slot) 0

/-- R278. Route r is served by logical tile r mod 4. -/
def routeTile (r : Nat) : Nat := r % 4

/-- Table 9.17: RTO in GT units (0 acts as 20 µs), and LIMIT (0 acts as 1). -/
def rtoUnits (e : Env) : Dword := BitVec.ofNat 64 ((if e.lf.rto = 0 then 20 else e.lf.rto.toNat) * 16000)
def retryLimit (e : Env) : Nat := max e.lf.limit.toNat 1
def mtuOf (e : Env) : Nat := if 1280 ≤ e.lf.mtu.toNat ∧ e.lf.mtu.toNat ≤ 9000 then e.lf.mtu.toNat else 1500

/-- R277. PFC holds transmission. -/
def paused (e : Env) : Bool := e.lf.pfc && e.lf.pause

/-! ### Frames (Table 9.6, R282, R283) -/

/-- Table 9.7. The bytes of a hod record. -/
def HodRec.bytes (h : HodRec) : List Byte :=
  beBytes 1 h.kind.toNat ++ [h.gflags, BitVec.ofNat 8 h.child.toNat, h.status] ++ beBytes 2 h.grout.length ++ [0, 0]
    ++ beBytes 8 h.handle.toNat ++ beBytes 4 h.course.toNat ++ beBytes 4 h.tag.toNat ++ beBytes 8 h.instant.toNat ++ h.grout

def HodRec.size (h : HodRec) : Nat := 32 + h.grout.length

/-- Table 9.6. A frame header. -/
def frameHeader (e : Env) (r fkind nak hods : Nat) (seq ack epoch len : Nat) : List Byte :=
  let k := routeKey e r
  let tx := bits (keyCtl e k) 1 1
  [BitVec.ofNat 8 (16 + fkind), BitVec.ofNat 8 (nak * 128 + tx * 64 + hods)] ++ beBytes 2 (routePeerLink e r)
    ++ beBytes 2 e.kp.node.toNat ++ [BitVec.ofNat 8 (e.cfg.die.toNat * 32), 0] ++ beBytes 4 (keyJob e k) ++ beBytes 4 seq ++ beBytes 4 ack
    ++ beBytes 2 epoch ++ beBytes 2 len

/-- The Internet checksum's sum: 16-bit words, most significant byte first. -/
def sum16 : List Byte → Nat
  | [] => 0
  | [a] => a.toNat * 256
  | a :: b :: l => a.toNat * 256 + b.toNat + sum16 l

/-- RFC 768. The checksum that makes the sum of everything 0xFFFF; a computed 0 goes as 0xFFFF. -/
def udpSum (l : List Byte) : Nat :=
  let s := sum16 l
  let n := if s = 0 then 0xFFFF else 0xFFFF - ((s - 1) % 0xFFFF + 1)
  if n = 0 then 0xFFFF else n

/-- RFC 8200. The pseudo-header of a UDP datagram of n bytes. -/
def pseudo (src dst : List Byte) (n : Nat) : List Byte := src ++ dst ++ beBytes 4 n ++ [0, 0, 0, 17]

/-- Table 9.17. An EtherType that the EtherType of hod frames cannot be. -/
def etypeBad (n : Nat) : Bool := decide (n < 0x600) || n == 0x8100 || n == 0x86DD

/-- Table 9.17. The EtherType of hod frames; one that cannot be acts as 0x88B5. -/
def etypeOf (e : Env) : Nat := if etypeBad e.lf.etype.toNat then 0x88B5 else e.lf.etype.toNat

/-- Table 9.17. The UDP destination port; 0 acts as 51,600. -/
def udpPortOf (e : Env) : Nat := if e.lf.udpPort = 0 then 51600 else e.lf.udpPort.toNat

/-- R273. Frame header and tag of route r behind the headers of IPv6 and UDP. -/
def udpBytes (e : Env) (r : Nat) (f : List Byte) : List Byte :=
  let n := 8 + f.length
  let src := (List.range 4).flatMap (fun k => beBytes 4 (fgetD e.lf.src6 k 0).toNat)
  let dst := (List.range 4).flatMap (fun k => beBytes 4 (routeWord e r (4 + k)))
  let udp := fun (sum : Nat) => beBytes 2 (0xC000 + r) ++ beBytes 2 (udpPortOf e) ++ beBytes 2 n ++ beBytes 2 sum ++ f
  beBytes 4 (6 * 2 ^ 28 + e.lf.dscp.toNat * 2 ^ 22 + 0x80000 + r) ++ beBytes 2 n ++ [17, 64] ++ src ++ dst ++ udp (udpSum (pseudo src dst n ++ udp 0))

/-- R273, R457, Table 9.5. The frame of route r as the Ethernet stream carries it, filled with zeros to 60 bytes. -/
def ethBytes (e : Env) (r : Nat) (f : List Byte) : List Byte :=
  let b := beBytes 6 (bits (routeWord e r 3) 0 16 * 2 ^ 32 + routeWord e r 2) ++ beBytes 6 (bits (fgetD e.lf.mac 1 0).toNat 0 16 * 2 ^ 32 + (fgetD e.lf.mac 0 0).toNat)
    ++ beBytes 2 0x8100 ++ beBytes 2 (e.lf.pcp.toNat * 2 ^ 13 + bits (routeWord e r 1) 16 12)
    ++ (if e.lf.mode then beBytes 2 0x86DD ++ udpBytes e r f else beBytes 2 (etypeOf e) ++ f)
  b ++ List.replicate (60 - b.length) 0

/-- R283. The frame with its tag, under the key slot that TXSEL names. -/
def tagged (e : Env) (r : Nat) (f : List Byte) : List Byte :=
  let k := routeKey e r
  f ++ frameTag (keyOf e k (bits (keyCtl e k) 1 1)) f

/-- The bytes of an output, from the frame header on (R274); of one on the package route, all its bytes. -/
def FabOut.body (e : Env) : FabOut → List Byte
  | .data r f ak ep =>
    let b := f.hods.flatMap HodRec.bytes
    tagged e r.toNat (frameHeader e r.toNat 0 0 f.hods.length f.seq.toNat ak.toNat ep.toNat (24 + b.length) ++ b)
  | .ack r nak ak ep => tagged e r.toNat (frameHeader e r.toNat 1 (if nak then 1 else 0) 0 0 ak.toNat ep.toNat 24)
  | .sync r ak ep => tagged e r.toNat (frameHeader e r.toNat 3 0 0 0 ak.toNat ep.toNat 24)
  | .time r _ reply t1 t2 t3 ak ep =>
    let f := frameHeader e r.toNat 2 (if reply then 1 else 0) 0 0 ak.toNat ep.toNat 48 ++ beBytes 8 t1.toNat ++ beBytes 8 t2.toNat ++ beBytes 8 t3.toNat
    if r = 0xFF#8 then f else tagged e r.toNat f
  | .pkg _ h => h.bytes

/-- The route of an output on the Ethernet stream; none on the package stream. -/
def FabOut.route : FabOut → Option (BitVec 8)
  | .data r _ _ _ => some r
  | .ack r _ _ _ => some r
  | .sync r _ _ => some r
  | .time r _ _ _ _ _ _ _ => if r = 0xFF#8 then none else some r
  | .pkg _ _ => none

/-- R457. The bytes that an output puts on its stream. -/
def FabOut.bytes (e : Env) (x : FabOut) : List Byte :=
  match x.route with
  | some r => ethBytes e r.toNat (x.body e)
  | none => x.body e

/-- Table 15.4. One beat of a fabric stream: its data, SOP, EOP and BYTES. -/
structure FabBeat where
  data : BitVec 256
  sop : Bool
  eop : Bool
  bytes : BitVec 5
  deriving DecidableEq, Repr

/-- R457. Byte n of a stream lies in beat n / 32, at bits [8 × (n mod 32) + 7 : 8 × (n mod 32)]. -/
def fabBeats (l : List Byte) : List FabBeat :=
  let n := ceilDiv l.length 32
  (List.range n).map (fun k =>
    let c := (l.drop (32 * k)).take 32
    { data := BitVec.ofNat 256 (leNat c), sop := k == 0, eop := k + 1 == n, bytes := if k + 1 = n then BitVec.ofNat 5 c.length else 0 })

/-- R457, R475. The bytes that a received beat holds: 32, or in the last one BYTES of them, where 0 stands for 32. A row that names a frame or a record gives the bytes of its beats (log 12). -/
def FabBeat.held (b : FabBeat) : List Byte :=
  (List.range (if b.eop && b.bytes != 0 then b.bytes.toNat else 32)).map (fun i => b.data.extractLsb' (8 * i) 8)

def fromBeats (l : List FabBeat) : List Byte := l.flatMap FabBeat.held

/-- R449, R457. The beats of an output on its stream. -/
def FabOut.beats (e : Env) (x : FabOut) : List FabBeat := fabBeats (x.bytes e)

/-- Table 15.4. F_ET_EXPRESS and F_ET_TC beside an output on the Ethernet stream. -/
def FabOut.marks (e : Env) (x : FabOut) : Option (Bool × BitVec 3) := x.route.map (fun _ => (e.lf.preempt, e.lf.pcp))

def holdOut (d : Dp) (x : FabOut) : Dp := { d with port := { d.port with fabHeld := d.port.fabHeld ++ [x] } }

/-- A frame leaves; while LF_CTL.ENABLE is 0 it is not sent (Table 9.17), and while a pause is honoured (R277) or the instance stands stopped (R416) it is held. -/
def wireOut (e : Env) (d : Dp) (x : FabOut) : Dp :=
  if !e.lf.enable then d
  else if paused e || e.stop.stopped then holdOut d x
  else fabOut d x

/-- R416. A record or TIME exchange leaves on the package stream, once the instance runs. -/
def packOut (e : Env) (d : Dp) (x : FabOut) : Dp := if e.stop.stopped then holdOut d x else fabOut d x

/-- R417. A hold. -/
def FabOut.isHold : FabOut → Bool
  | .time _ _ reply t1 t2 t3 _ _ => !reply && t1 == BitVec.allOnes 64 && t2 == BitVec.allOnes 64 && t3 == BitVec.allOnes 64
  | _ => false

/-- LF_TCORR, as a signed number of GT units. -/
def corr (e : Env) : Dword := e.lf.tcorr.signExtend 64

/-- R287, R459. A TIME frame takes the GT of its transfer: t1 of a request, which its exchange keeps too, and t3 of a reply. -/
def stampOut (e : Env) (d : Dp) : FabOut → FabOut × Dp
  | .time r die reply t1 t2 t3 ak ep =>
    if FabOut.isHold (.time r die reply t1 t2 t3 ak ep) then (.time r die reply t1 t2 t3 ak ep, d)
    else if reply then (.time r die reply t1 t2 (gtInterp e) ak ep, d)
    else
      let g := gtInterp e + corr e
      (.time r die reply g t2 t3 ak ep, { d with tm := { d.tm with waiting := modFirst (fun w => w.2.1 == t1) (fun w => (w.1, g, w.2.2)) d.tm.waiting } })
  | x => (x, d)

/-- R277, R416. What a pause or a stop has held leaves, in its order, as far as nothing holds it still; unless LF_CTL.ENABLE is 0 for a frame. -/
def releaseHeld (e : Env) (d : Dp) : Dp :=
  d.port.fabHeld.foldl (fun d x => let (x, d) := stampOut e d x; if x.route.isSome then wireOut e d x else packOut e d x)
    { d with port := { d.port with fabHeld := [] } }

/-! ### Timers that stand still (R277, R417, R418) -/

/-- Since when the timers of a link stand still: the first of the stop, the honoured pause and the peer's hold that lasts. -/
def stillSince (e : Env) (l : Link) : Option Dword :=
  ((if e.stop.stopped then [e.stop.stopGt] else []) ++ (if paused e then [e.lf.pauseAt] else []) ++ l.hold.toList).foldl
    (fun best g => match best with | some b => if reached b g then some g else some b | none => some g) none

/-- The instant from which a timer of a link counts that starts now. -/
def linkNow (e : Env) (l : Link) : Dword := (stillSince e l).getD (gtInterp e)

/-- The timers of a link advance by an amount. -/
def shiftLink (l : Link) (by_ : Dword) : Link := { l with timer := l.timer.map (fun t => t + by_), ackOwed := l.ackOwed.map (fun t => t + by_) }

/-- Link l, which stood under e, goes on as l2 under e2: its timers advance by what they have stood still. -/
def moveLink (e e2 : Env) (l l2 : Link) : Link := shiftLink l2 (linkNow e2 l2 - linkNow e l)

def bumpR (e : Env) (d : Dp) (r ctr n : Nat) : Dp := bumpK e d 3 r ctr n

/-! ### Sending (R276, R278, R280) -/

/-- R276. The hods of one frame: in queue order, at most four, within LF_MTU. -/
def frameHods (room : Nat) : Nat → List HodRec → List HodRec × List HodRec
  | 0, q => ([], q)
  | _, [] => ([], [])
  | n + 1, h :: q =>
    if h.size ≤ room then
      let (a, b) := frameHods (room - h.size) n q
      (h :: a, b)
    else ([], h :: q)

/-- The payload room of a frame for hods. -/
def frameRoom (e : Env) : Nat := mtuOf e - (24 + 8 + (if e.lf.mode then 48 else 0))

/-- The bytes of a DATA frame from its header to its tag. -/
def TxFrame.size (f : TxFrame) : Nat := 32 + (f.hods.map HodRec.size).sum

/-- R278. The bytes of unacknowledged frames in the link buffer of logical tile t. -/
def bufferUse (d : Dp) (t : Nat) : Nat :=
  ((d.links.filter (fun l => routeTile l.1 == t)).map (fun l => (l.2.unacked.map TxFrame.size).sum)).sum

/-- R278. Queued hods leave in DATA frames, at most 32 unacknowledged, while the link buffer of the route's tile has room. -/
def pumpAux (e : Env) (r : Nat) : Nat → Dp → Dp
  | 0, d => d
  | n + 1, d =>
    let l := linkOf d r
    match l.queue with
    | [] => d
    | _ :: _ =>
      if !l.synced || l.unacked.length ≥ Config.linkWindow || paused e || l.hold.isSome || e.stop.stopped then d
      else
        let (hs, rest) := frameHods (frameRoom e) 4 l.queue
        let f : TxFrame := { seq := l.seqTx, hods := hs }
        if Config.linkBuffer < bufferUse d (routeTile r) + f.size then d
        else
        let l2 := { l with queue := rest, unacked := l.unacked ++ [f], seqTx := l.seqTx + 1
                           timer := some (l.timer.getD (linkNow e l + rtoUnits e)), ackOwed := none }
        let d := wireOut e (setLink d r l2) (.data (BitVec.ofNat 8 r) f l.seqRx l.epochTx)
        let d := bumpR e (bumpR e d r 0 1) r 2 ((hs.map HodRec.size).sum)
        pumpAux e r n d

def pump (e : Env) (d : Dp) (r : Nat) : Dp := pumpAux e r Config.linkWindow d

/-- The links of route r's tile go on, route r first: the link buffer has room again (log 12). -/
def pumpTile (e : Env) (d : Dp) (r : Nat) : Dp :=
  ((d.links.map Prod.fst).filter (fun q => routeTile q == routeTile r && q != r)).foldl (pump e) (pump e d r)

/-- Table 9.17. With LF_CTL.ENABLE 0, the retransmit timer of a route in use runs, so that the route is cut after LIMIT × RTO. -/
def silentTimer (e : Env) (d : Dp) (r : Nat) : Dp :=
  let l := linkOf d r
  if e.lf.enable || l.cut || l.timer.isSome || decide (255 ≤ r) then d else setLink d r { l with timer := some (linkNow e l + rtoUnits e) }

/-- R280, R295, Table 9.17. A brick comes to use route r: on a link that is cut, LIMIT retries count anew before the cut reaches it (DEDUCED, log 75). -/
def useLink (e : Env) (d : Dp) (r : Nat) : Dp :=
  let l := linkOf d r
  if l.cut && decide (r < 255) then setLink d r { l with cut := false, retries := 0, timer := some (l.timer.getD (linkNow e l + rtoUnits e)) }
  else silentTimer e d r

/-- R278. A sender starts an epoch: EPOCH advances, SEQ starts at 0, and SYNC goes out. Frames wait for the answer (log 12). Unacknowledged frames that go keep the tile busy no more (R428). -/
def startSync (e : Env) (d : Dp) (r : Nat) : Dp :=
  let l := linkOf d r
  let d := if l.unacked.isEmpty then d else stillBusy e d (routeTile r)
  let ep := l.epochTx + 1
  let d := setLink d r { l with epochTx := ep, seqTx := 0, synced := false, syncing := true, unacked := []
                                timer := some (linkNow e l + rtoUnits e) }
  wireOut e d (.sync (BitVec.ofNat 8 r) l.seqRx ep)

/-- A hod for route r: it is queued, and the link starts with SYNC where it must. While a power failure drains the net, no frame is queued (R385). -/
def queueHod (e : Env) (d : Dp) (r : Nat) (h : HodRec) : Dp :=
  let l := linkOf d r
  if e.pwr.pfDrain then d
  else
    let d := setLink d r { l with queue := l.queue ++ [h] }
    if l.synced then pump e d r
    else if l.syncing then d
    else startSync e d r

/-- Table 13.5, LINK. -/
def linkRec (e : Env) (t : Nat) (route : BitVec 8) (sent : Bool) (h : HodRec) : TRec :=
  { TRec.blank 0x09 with gt := tileGt e t, handle := h.handle, tag := h.tag, course := h.course, status := h.status, part := some (hPart h.handle)
                         aux := BitVec.ofNat 24 (h.kind.toNat + (if sent then 256 else 0) + route.toNat * 512) }

/-- R276, R281. What a brick sends to a peer is kept, in place of an earlier hod of its kind, until a REFUSE of it could no longer come (log 12). -/
def keepSent (d : Dp) (r : Nat) (sender : Dword) (h : HodRec) : Dp :=
  let l := linkOf d r
  let same := fun (s : SentHod) => decide (s.sender = sender ∧ s.rec_.handle = h.handle ∧ s.rec_.kind = h.kind)
  let wait := match l.sent.find? same with | some s => if s.rec_ = h then s.wait else 0 | none => 0
  setLink d r { l with sent := l.sent.filter (fun s => !same s) ++ [{ sender := sender, rec_ := h, wait := wait }] }

/-- R272, R276. A hod record leaves by a route for a die: on the package route to that die (on the mortar net where it is this one), else on the link. -/
def putRecord (e : Env) (d : Dp) (route : BitVec 8) (die : BitVec 3) (h : HodRec) : Dp :=
  if route = 0xFF#8 then
    if die = e.cfg.die then { d with inbound := d.inbound ++ [{ route := route, die := die, node := e.kp.node, rec_ := h }] }
    else if e.lf.d2dErr.getLsbD die.toNat then d
    else
      let d := bumpR e d 255 2 h.size
      packOut e d (.pkg die h)
  else queueHod e d route.toNat h

/-- A hod record leaves brick i by a route for the brick that its HANDLE names. -/
def linkHod (e : Env) (d : Dp) (i : Nat) (route : BitVec 8) (h : HodRec) : Dp :=
  let d := trace e d (homeOf e i) (some 6) (linkRec e (homeOf e i) route true h)
  let d := keepSent d route.toNat (brickHandle e i (brickOf d i)) h
  putRecord e d route (hDie h.handle) h

/-! ### Partials (Table 9.4, R268) -/

/-- The sticky bits of an EXACT lane. -/
def stickyByte (l : Lane) : Byte :=
  flagIf l.nanf 1 ||| flagIf l.pinf 2 ||| flagIf l.ninf 4 ||| flagIf l.zinf 8 ||| flagIf l.nz 16

/-- n bytes of a two's-complement number. -/
def intBytes (n : Nat) (a : Int) : List Byte := leBytes n (a % 2 ^ (8 * n)).toNat

/-- The signed number of n bytes. -/
def bytesInt (n : Nat) (l : List Byte) : Int :=
  let v := leNat (l.take n)
  if v ≥ 2 ^ (8 * n - 1) then (v : Int) - 2 ^ (8 * n) else v

/-- Zeros up to a multiple of 8 bytes (GLEN, R275). -/
def pad8 (l : List Byte) : List Byte := l ++ List.replicate ((8 - l.length % 8) % 8) 0

/-- Table 9.4. The partial of a subtree. -/
def encodePartial (c : GCfg) (a : Acc) : List Byte :=
  pad8 <|
  if c.exact then
    if c.op = 0#3 then a.lanes.flatMap (fun l => intBytes 40 l.a ++ [stickyByte l] ++ List.replicate 7 0)
    else a.lanes.flatMap (fun l => intBytes 72 l.a ++ leBytes 4 l.big ++ [stickyByte l, 0, 0, 0])
  else if isInt c.fmt && c.op = 0#3 then a.lanes.flatMap (fun l => intBytes 16 l.a)
  else if isInt c.fmt || c.fmt = 7#3 || c.op = 5#3 then (result c a).1
  else a.lanes.flatMap (fun l => leBytes 4 (fpResult c l).1.toNat)

/-- The bytes of a partial before padding. -/
def partialBytes (c : GCfg) : Nat :=
  if c.exact then (if c.op = 0#3 then 48 else 80) * c.lanes
  else if isInt c.fmt && c.op = 0#3 then 16 * c.lanes
  else if isInt c.fmt || c.fmt = 7#3 || c.op = 5#3 then c.resultBytes
  else 4 * c.lanes

/-- R256, R11, Table 9.4. The bytes of a partial have the configuration's length, and zeros where the table has them and behind the last lane. -/
def partialForm (c : GCfg) (l : List Byte) : Bool :=
  let zeros := fun (at_ n : Nat) => ((l.drop at_).take n).all (fun b => b == 0)
  let special := fun (at_ : Nat) => decide (((l[at_]?).getD 0).toNat < 32)
  l.length == ceilDiv (partialBytes c) 8 * 8 && zeros (partialBytes c) 8
    && (!c.exact || (List.range c.lanes).all (fun i =>
      if c.op = 0#3 then special (48 * i + 40) && zeros (48 * i + 41) 7 else special (80 * i + 76) && zeros (80 * i + 77) 3))

/-- R256, R268. The partial that a record carries, or none where its length or form does not fit the configuration. DESIGN CHOICE (log 72): a partial is a contribution to every lane, one of an empty subtree too. -/
def decodePartial (c : GCfg) (gflags : Byte) (l : List Byte) : Option Acc :=
  if !partialForm c l then none
  else
    let lane := fun (n i : Nat) => (l.drop (n * i)).take n
    let sticky := fun (b : Byte) (x : Lane) => { x with nanf := b.getLsbD 0, pinf := b.getLsbD 1, ninf := b.getLsbD 2, zinf := b.getLsbD 3, nz := b.getLsbD 4 }
    let ls := (List.range c.lanes).map (fun i =>
      if c.exact then
        if c.op = 0#3 then
          let x := lane 48 i
          sticky ((x[40]?).getD 0) { Lane.zero with has := true, a := bytesInt 40 x }
        else
          let x := lane 80 i
          sticky ((x[76]?).getD 0) { Lane.zero with has := true, a := bytesInt 72 x, big := leNat ((x.drop 72).take 4) }
      else if isInt c.fmt then
        if c.op = 0#3 then { Lane.zero with has := true, a := bytesInt 16 (lane 16 i) }
        else { Lane.zero with has := true, a := if c.fmt = 0#3 && c.op != 3#3 then bytesInt 8 (lane 8 i) else leNat (lane 8 i) }
      else if c.fmt = 7#3 then
        let x := lane 16 i
        { Lane.zero with has := true, a := leNat (x.take 8), x := BitVec.ofNat 64 (leNat (x.drop 8)) }
      else if c.op = 5#3 then
        let x := lane 16 i
        let w := fun k => BitVec.ofNat 32 (leNat ((x.drop (4 * k)).take 4))
        { Lane.zero with has := !fNan (w 0) && !(w 0 == pinf32 && w 1 == ninf32), mn := if fNan (w 0) then pinf32 else w 0, mx := if fNan (w 0) then ninf32 else w 1
                         am := if fNan (w 0) then 0 else w 2, nanc := leNat ((x.drop 12).take 2), infc := leNat ((x.drop 14).take 2) }
      else
        let w := BitVec.ofNat 32 (leNat (lane 4 i))
        { Lane.zero with has := true, fp := if fNan w then qnan32 else w, nanf := !c.folds && fNan w })
    some { lanes := ls, cnt := if c.fmt = 7#3 then leNat (l.drop (16 * c.lanes)) else 1, flags := gflags }

/-! ### Hods of a lintel brick -/

/-- A record with nothing but its kind and receiver. -/
def HodRec.blank (kind : Nat) (handle : Dword) (course : Word) : HodRec :=
  { kind := BitVec.ofNat 8 kind, gflags := 0, child := 0, status := 0, grout := [], handle := handle, course := course, tag := 0, instant := 0 }

/-- R269, R271. To the parent of brick i and to the parent's twin, but for a link that is cut. -/
def sendUp (e : Env) (d : Dp) (i : Nat) (h : HodRec) : Dp :=
  match fget d.lintels i with
  | none => d
  | some x =>
    if !x.upv then d
    else
      let h := { h with child := x.upslot }
      let d := if x.upcut then d else linkHod e d i x.uproute { h with handle := x.uppeer }
      if x.up2peer = 0 || x.up2cut then d else linkHod e d i x.up2route { h with handle := x.up2peer }

/-- R258, R263, R269. To one child and its twin, but for the peer with handle `except`. -/
def sendChild (e : Env) (d : Dp) (i : Nat) (c : Child) (h : HodRec) (except : Dword) : Dp :=
  let d := if c.cut1 || (except != 0 && c.peer == except) then d else linkHod e d i c.route { h with handle := c.peer }
  if c.peer2 = 0 || c.cut2 || (except != 0 && c.peer2 == except) then d else linkHod e d i c.route2 { h with handle := c.peer2 }

/-- To every attached child whose GONE bit is 0, but for the peer with handle `except`. -/
def sendKids (e : Env) (d : Dp) (i : Nat) (h : HodRec) (except : Dword) : Dp :=
  match fget d.lintels i with
  | none => d
  | some x => x.children.foldl (fun d c => if c.2.valid && !x.gone.getLsbD c.1 then sendChild e d i c.2 h except else d) d

/-- R270. To the twin of brick i. -/
def sendTwin (e : Env) (d : Dp) (i : Nat) (h : HodRec) : Dp :=
  match fget d.lintels i with
  | none => d
  | some x => if x.twv then linkHod e d i x.twroute { h with handle := x.twpeer } else d

/-- R258. What a closed course of brick i sends on its links leaves; a RELEASE is kept as it leaves (R281). -/
def sendKid (e : Env) (i : Nat) (d : Dp) (k : KidHod) : Dp :=
  if k.twin then sendTwin e d i k.rec_
  else
    let d := match fget d.lintels i with
      | some l => { d with lintels := fput d.lintels i { l with lastRel := some k.rec_ } }
      | none => d
    sendKids e d i k.rec_ 0

/-- R74, R258. What a closed course of brick i sends on its links waits with its releases for the mirror's acknowledgement. -/
def emitKids (e : Env) (d : Dp) (i : Nat) (l : List KidHod) : Dp :=
  match fget d.mirCopies (stripeKey i 0), (d.mirUpds.filter (fun u => u.index == i && u.k == 0)).getLast? with
  | some m, some u =>
    if m.ready then { d with mirUpds := modFirst (fun x => x.id == u.id) (fun x => { x with kids := x.kids ++ l }) d.mirUpds }
    else l.foldl (sendKid e i) d
  | _, _ => l.foldl (sendKid e i) d

/-- R121. A lintel hod that leaves after its course has closed: its own instant counts from then. -/
def retimeKid (e : Env) (d : Dp) (t i : Nat) (k : KidHod) : KidHod :=
  match k.own, (brickOf d i).body with
  | true, .barrier x => { k with rec_ := { k.rec_ with instant := tileGt e t + BitVec.ofNat 64 x.path } }
  | _, _ => k

/-- R266. The peers that take a PROBE: of each attached child that is not gone, the first (false) and its twin (true), but for a link that is cut. -/
def Lintel.probed (l : Lintel) : List (Nat × Bool) :=
  l.children.flatMap (fun c => if c.2.valid && !l.gone.getLsbD c.1 then
    (if c.2.cut1 then [] else [(c.1, false)]) ++ (if c.2.peer2 = 0 || c.2.cut2 then [] else [(c.1, true)]) else [])

/-- R120, R266. A path of n GT units, rounded up to 16, as PATH holds it. -/
def roundPath (n : Nat) : Nat := min (ceilDiv n 16 * 16) 0xFFFFFF

/-- R263. POISON to every peer of brick i but the one it came from. -/
def spreadPoison (e : Env) (d : Dp) (i : Nat) (course : Word) (from_ : Dword) : Dp :=
  match fget d.lintels i with
  | none => d
  | some x =>
    let h := HodRec.blank 4 0 course
    let d := if x.upv && !x.upcut && x.uppeer != from_ then linkHod e d i x.uproute { h with handle := x.uppeer, child := x.upslot } else d
    let d := if x.upv && x.up2peer != 0 && !x.up2cut && x.up2peer != from_ then linkHod e d i x.up2route { h with handle := x.up2peer, child := x.upslot } else d
    let d := if x.twv && x.twpeer != from_ then linkHod e d i x.twroute { h with handle := x.twpeer } else d
    sendKids e d i h from_

end Sys2Proof.Machine
end

