-- ==== Sys2Proof/Machine/Barriers.lean ====
section
/-! DEFINITION. Sys2Proof/Machine/Barriers.lean: a barrier at its home tile (03_barriers.md): the combining tree, counting, the fold window, the close of a course, shrinking, poisoning and deadlines. -/

namespace Sys2Proof.Machine

/-- R41, R95. A freshly allocated barrier. -/
def Barrier.init : Barrier :=
  { course := 0, expect := 0, count := 0, ahead := 0, armed := false, bonded := false, poisoned := false
    arm := { deadline := 0, stagger := 0, depart := false, release := 0 }, shArm := none, bond := none, shBond := none, left := []
    leaving := [], shrunk := false, nextDelta := 0, path := 0, measure := 0, dlAt := 0, watch := List.replicate 10 none
    lastStatus := .ok, poisonInc := none, sweep := [], expired := false, grout := none, shRun := none }

/-- The grout configuration in force. -/
def Barrier.cfg (b : Barrier) : Option GCfg := b.grout.bind (fun g => g.run.cfg)

def Barrier.weights (b : Barrier) : Option Weights := b.grout.bind (fun g => g.run.weights)

def barrierOf (d : Dp) (i : Nat) : Option Barrier :=
  match (brickOf d i).body with
  | .barrier b => some b
  | _ => none

def setBarrier (d : Dp) (i : Nat) (x : Barrier) : Dp := setBody d i (brickOf d i) (.barrier x)

/-- The joints with a bed of a handle, waiting or in force, in rising order. -/
def bedJoints (d : Dp) (h : Dword) (waiting : Bool) : List Nat :=
  (d.joints.filter (fun j => j.2.beds.any (fun b => b.waiting == waiting && b.handle == h))).map Prod.fst

/-! ### The combining tree (R32, R33) -/

/-- R32. The inputs of router r in the tree of some routes: tree edges that enter it, and member joints attached to it. -/
def treeInputs (paths : List (List Nat)) (r : Nat) : Nat :=
  let edges := (paths.filterMap (fun p => ((p.zip (p.drop 1)).find? (fun q => q.2 == r)).map Prod.fst)).dedup
  edges.length + (paths.filter (fun p => p.head? == some r)).length

/-- R32, R33. The nearest entry on a path of routers, else the home tile. -/
def nearest (d : Dp) (i : Nat) (waiting : Bool) (t : Nat) (path : List Nat) : Port :=
  match path.find? (fun r => d.comb.any (fun c => c.router == r && c.index == i && c.waiting == waiting)) with
  | some r => .router r
  | none => .tile t

/-- R32, R33. The entries of the tree for member joints (joint, expected count): one in each branch router with a free entry, the home tile's own among them (log 14); a full router is counted as a fallback (DESIGN CHOICE, log 45: once for each tree built, at the router's port 4, its local port 0). -/
def buildTree (e : Env) (d : Dp) (t i : Nat) (course : Word) (waiting : Bool) (js : List (Nat × Nat)) : Dp :=
  let home := tileRouter e t
  let paths := js.map (fun j => (route (jointRouter e j.1) home, j.2))
  let routers := (paths.flatMap Prod.fst).dedup
  let branch := routers.filter (fun r => decide (2 ≤ treeInputs (paths.map Prod.fst) r))
  let d := branch.foldl (fun d r =>
    if (d.comb.filter (fun c => c.router == r)).length < Config.combEntries then
      let n := ((paths.filter (fun p => p.1.contains r)).map Prod.snd).sum
      { d with comb := d.comb ++ [{ router := r, index := i, expect := n, before := 0, got := 0, nextDelta := 0, course := course + 1, acc := none, up := .tile t, waiting := waiting }] }
    else bumpK e d 1 (r * 8 + 4) 6 1) d
  { d with comb := d.comb.map (fun c => if c.index = i && c.waiting = waiting then
      { c with up := nearest d i waiting t ((route c.router home).drop 1) } else c) }

/-- The place to which joint j sends for brick i. -/
def upFor (e : Env) (d : Dp) (t i : Nat) (waiting : Bool) (j : Nat) : Port := nearest d i waiting t (route (jointRouter e j) (tileRouter e t))

def dropTree (d : Dp) (i : Nat) (waiting : Bool) : Dp := { d with comb := d.comb.filter (fun c => !(c.index == i && c.waiting == waiting)) }

/-! ### The fold (R200, R204, R219, R220) -/

/-- R89. The ranks of a bond. -/
def Barrier.ranks (b : Barrier) : Nat :=
  match b.bond with
  | some x => x.members.length + x.lchild
  | none => 0

/-- R200. Rank k contributes no more in the open course: a member that left, or a child that is gone. -/
def Barrier.skips (b : Barrier) (gone : BitVec 64) (k : Nat) : Bool :=
  match b.bond with
  | none => false
  | some x =>
    match x.members[k]? with
    | some m => b.left.contains m.agent
    | none => gone.getLsbD (k - x.members.length)

/-- The first rank from k on that still contributes. -/
def Barrier.nextRank (b : Barrier) (gone : BitVec 64) (k : Nat) : Nat :=
  (((List.range b.ranks).drop k).find? (fun r => !b.skips gone r)).getD b.ranks

/-- R196, R200. The partial that a payload of rank k brings; one that brings no contribution adds nothing (log 52). -/
def payAcc (c : GCfg) (w : Option Weights) : Payload → Acc
  | .none => { Acc.zero c with cnt := 0 }
  | .one k cf l => if l.isEmpty then { Acc.zero c with cnt := 0 } else contribution c w k cf l
  | .acc a _ => a

/-- R204. NEXT moves to rank k, past skipped ranks, folding what the window holds; n bounds the steps. -/
def advance (c : GCfg) (b : Barrier) (gone : BitVec 64) : Nat → Nat → Grout → Grout
  | 0, k, g => { g with next := b.nextRank gone k }
  | n + 1, k, g =>
    let k := b.nextRank gone k
    match g.window.find? (fun p => p.1 == k) with
    | none => { g with next := k }
    | some p => advance c b gone n (k + 1) { g with acc := Acc.merge c g.acc (payAcc c g.run.weights p.2), window := g.window.filter (fun q => q.1 != k) }

/-- R204. A contribution of rank k: folded, held in the window, or bounced (none). -/
def foldIn (c : GCfg) (b : Barrier) (gone : BitVec 64) (g : Grout) (k : Nat) (p : Payload) : Option Grout :=
  if !c.folds then some { g with acc := Acc.merge c g.acc (payAcc c g.run.weights p), empty := false }
  else if k = g.next then
    some (advance c b gone b.ranks (k + 1) { g with acc := Acc.merge c g.acc (payAcc c g.run.weights p), empty := false })
  else if g.next < k ∧ k < g.next + 2 ^ c.wlog then some { g with window := g.window ++ [(k, p)], empty := false }
  else none

/-- The grout of a course that opens. -/
def Grout.fresh (b : Barrier) (gone : BitVec 64) (g : Grout) : Grout :=
  { g with acc := (match g.run.cfg with | some c => Acc.zero c | none => { lanes := [], cnt := 0, flags := 0 }), next := b.nextRank gone 0
           window := [], empty := true }

/-- R185, R197. A run that takes effect. -/
def Run.install (r : Run) (b : Barrier) (gone : BitVec 64) (result : List Byte) (resFlags cum : Byte) : Option Grout :=
  if r.count = 0 then none
  else some (Grout.fresh b gone { run := r, acc := { lanes := [], cnt := 0, flags := 0 }, next := 0, window := [], cum := if r.byCfg then 0 else cum, result := result
                                  resFlags := resFlags, empty := true })

/-- GONE of a lintel brick. -/
def goneOf (d : Dp) (i : Nat) : BitVec 64 := ((fget d.lintels i).map (fun x => x.gone)).getD 0

/-- R200. The children whose ranks the fold of the open course skips: gone, and not counted in it. -/
def skipOf (d : Dp) (i : Nat) : BitVec 64 := ((fget d.lintels i).map (fun x => x.gone &&& ~~~ x.seen)).getD 0

/-- R73, R501. The mirror's copy of brick i gets other granule runs. -/
def setMirRuns (d : Dp) (i : Nat) (f : List (Nat × Nat) → List (Nat × Nat)) : Dp :=
  match fget d.mirCopies (stripeKey i 0) with
  | none => d
  | some m =>
    let l := f m.runs
    let d := unbindRuns d m.tile m.runs
    { (l.foldl (fun d r => bindRun d m.tile r.1 r.2) d) with mirCopies := fput d.mirCopies (stripeKey i 0) { m with runs := l } }

/-- R185. The granules of a run go back, with their charge (R73 for a mirrored brick). -/
def freeRun (e : Env) (d : Dp) (i : Nat) (b : Brick) (r : Run) (waiting : Bool) : Dp :=
  let d := unbindRun d (homeOf e i) r.base r.count
  let d := setMirRuns d i (fun l => if waiting then l.dropLast else l.drop 1)
  refundG d b.part (if b.mirrored then 2 * r.count else r.count)

/-- R185, R188. The granules of a barrier pass from one run to the next: the old run is freed, but for what the new one keeps of it. -/
def switchRun (e : Env) (d : Dp) (i : Nat) (b : Brick) (old new : Run) : Dp :=
  if new.within old then
    let n := old.count - new.count
    let d := bindRun (unbindRun d (homeOf e i) old.base old.count) (homeOf e i) new.base new.count
    let d := setMirRuns d i (fun l => match l with
      | (mb, mc) :: rest => if new.count = 0 then rest else (mb + (mc - new.count), new.count) :: rest
      | [] => [])
    refundG d b.part (if b.mirrored then 2 * n else n)
  else freeRun e d i b old false

/-- R185. A waiting run that never took effect goes back, where it bound granules of its own. -/
def dropWaiting (e : Env) (d : Dp) (i : Nat) (b : Brick) (x : Barrier) : Dp :=
  match x.shRun, x.grout with
  | some r, some g => if r.within g.run then d else freeRun e d i b r true
  | some r, none => if r.count = 0 then d else freeRun e d i b r true
  | none, _ => d

/-- R61. Every run of a freed barrier goes back. -/
def freeRuns (e : Env) (d : Dp) (i : Nat) (b : Brick) (x : Barrier) : Dp :=
  let d := dropWaiting e d i b x
  match x.grout with
  | some g => freeRun e d i b g.run false
  | none => d

/-! ### Releases -/

/-- The release hods of a course: one for each joint with a bed, then one for each watcher in slot order (R34, R110). -/
def releaseHods (d : Dp) (t : Nat) (b : Brick) (x : Barrier) (r : Rel) : List Hod :=
  let js := ((bedJoints d r.handle false) ++ (bedJoints d r.handle true)).foldl (fun l j => setInsert j l) []
  js.map (fun j => mkHod (.tile t) (.joint j) .rsp b.part (.release r))
    ++ (x.watch.filterMap id).map (fun j => mkHod (.tile t) (.joint j) .rsp b.part (.watcher { r with stagger := 0 }))

/-- R103. A release that ends every wait with another status. -/
def endRel (i : Nat) (h : Dword) (course : Word) (st : Status) : Rel :=
  { index := i, handle := h, course := course, status := st, gflags := 0, beats := [], instant := none, stagger := 0, value := 0
    removeBed := false, cfg := none }

/-- R112, R113, R118. The end of the waits that stand now. -/
def endNow (d : Dp) (i : Nat) (h : Dword) (course : Word) (st : Status) : Rel := { endRel i h course st with upTo := some d.seq }

/-- R257. ARRIVE_UP of brick i's open course. -/
def arriveUpRec (b : Barrier) (a : Acc) (st : Status) (course : Word) : HodRec :=
  { HodRec.blank 1 0 course with status := BitVec.ofNat 8 st.code, gflags := a.flags, tag := b.tag
                                 grout := match b.cfg with | some c => encodePartial c a | none => [] }

/-- R258. RELEASE or TWIN of a closed course. -/
def releaseRec (kind : Nat) (course : Word) (tag : Word) (st : Status) (gflags : Byte) (result : List Byte) (instant : Dword) : HodRec :=
  { HodRec.blank kind 0 course with tag := tag, status := BitVec.ofNat 8 st.code, gflags := gflags, grout := pad8 result, instant := instant }

/-- What a RELEASE or TWIN hod closes a course with (R258). -/
structure HodClose where
  shrunk : Bool
  result : List Byte
  gflags : Byte
  instant : Dword
  tag : Word
  deriving DecidableEq, Repr

/-- R100. The course of brick i closes, by its own count or by a hod (R258); `carry` are the bytes of the contribution that closes it (R199). -/
def closeCourse (e : Env) (d : Dp) (i : Nat) (b : Brick) (x : Barrier) (by_ : Option HodClose) (carry : Nat := 0) : Dp :=
  let t := homeOf e i
  let h := brickHandle e i b
  let lt := fget d.lintels i
  let course := x.course + 1
  let shrunk := x.shrunk || (match by_ with | some y => y.shrunk | none => false)
  let st : Status := if shrunk then .okShrunk else .ok
  let (res, fl) : List Byte × Byte := match by_, x.grout.bind (fun g => g.run.cfg.map (fun c => (c, g))) with
    | some y, some _ => (y.result, y.gflags)
    | none, some (c, g) =>
      let (r, f) := result c g.acc
      (r, g.acc.flags ||| f)
    | _, none => ([], 0)
  let (down, downFl, tag) : List Byte × Byte × Word := match by_ with
    | some y => (y.result, y.gflags, y.tag)
    | none => (res, fl, x.tag)
  let expect := x.expect - x.nextDelta
  let switch := x.shBond.isSome
  let gone := goneOf d i
  let x1 := { x with course := course, shrunk := false, nextDelta := 0, expect := expect, left := x.left ++ x.leaving, leaving := []
                     lastStatus := st, expired := false }
  let x2 := match x.shBond with
    | some nb => { x1 with expect := nb.expect, bond := some nb, shBond := none, left := [], measure := 2 }
    | none => { x1 with measure := if x1.measure = 1 then 2 else x1.measure }
  let x3 := { x2 with arm := x2.shArm.getD x2.arm, shArm := none, count := x2.ahead, ahead := 0, dlAt := 0 }
  let g1 := x3.grout.map (fun g => Grout.fresh x3 gone { g with cum := g.cum ||| fl, result := res, resFlags := fl })
  let (grout, cfg) : Option Grout × Option (Option GCfg) := match x3.shRun with
    | some r => (r.install x3 gone res fl ((x3.grout.map (fun g => g.cum)).getD 0 ||| fl), some r.cfg)
    | none => (g1, if switch then some x3.cfg else none)
  let d := match x3.shRun, x3.grout with
    | some r, some g => switchRun e d i b g.run r
    | _, _ => d
  let unbond := decide (x3.expect = 0)
  let x4 := { x3 with grout := grout, shRun := none, bonded := x3.bonded && !unbond, armed := x3.armed && !unbond }
  let x5 := if x4.count > 0 ∧ x4.arm.deadline ≠ 0#24 then { x4 with dlAt := tileGt e t + dlUnits x4.arm.deadline.toNat } else x4
  let timed := decide (x4.arm.release = 1#2) || decide (x4.arm.release = 2#2)
  let root := match lt with | some l => !l.upv | none => true
  let instant : Option Dword :=
    match by_ with
      | some y => if y.instant = 0 then none else some y.instant
      | none => if timed then some (tileGt e t + BitVec.ofNat 64 x.path) else none
  let rel : Rel := { index := i, handle := h, course := course, status := st, gflags := fl, beats := toBeats res, instant := instant
                     stagger := if x4.arm.release = 2#2 then x4.arm.stagger else 0, value := 0, removeBed := switch || unbond, cfg := cfg
                     bond := (x.shBond.map Bond.made).getD 0, own := timed && by_.isNone }
  let outs := releaseHods d t b x rel
  let d := setBarrier d i x5
  let d := if switch then
      let d := dropTree d i false
      { d with comb := d.comb.map (fun c => if c.index = i then { c with waiting := false, before := 0, course := course + 1 } else c) }
    else if unbond then dropTree d i false
    else { d with comb := d.comb.map (fun c => if c.index = i && !c.waiting then
        { c with expect := c.expect - c.nextDelta, nextDelta := 0, before := 0, got := 0, acc := none, course := course + 1 } else c) }
  let d := bumpP e d b.part 2 1
  let d := if shrunk then bumpP e d b.part 3 1 else d
  let d := trace e d t (some 2) { TRec.blank 0x03 with gt := tileGt e t, handle := h, course := course, status := BitVec.ofNat 8 st.code
                                                       part := some b.part, aux := BitVec.ofNat 24 x.expect }
  let d := { d with lastCourse := some (h, course) }
  let d := match lt with
    | none => d
    | some l => { d with lintels := fput d.lintels i { l with seen := l.seenNext, seenNext := 0, upwait := false, upPay := none, lastRel := some (releaseRec 2 course tag st downFl down (instant.getD 0)) } }
  let kids : List KidHod := { twin := false, own := rel.own, rec_ := releaseRec 2 course tag st downFl down (instant.getD 0) }
    :: (if root && by_.isNone then [{ twin := true, own := rel.own, rec_ := releaseRec 8 course tag st fl res (instant.getD 0) }] else [])
  let d := emitKids e (emit e d t i 0 outs none carry) i kids
  if unbond then sendUp e d i (HodRec.blank 3 0 (course + 1)) else d

/-- R100, R257. When COUNT has reached EXPECT: the course closes, or goes up where the brick has an uplink. A course that opens complete goes on at once. -/
def closeIfDone (e : Env) (i : Nat) : Nat → Nat → Dp → Dp
  | _, 0, d => d
  | carry, n + 1, d =>
    let b := brickOf d i
    match b.body with
    | .barrier x =>
      if !(x.armed && x.bonded && !x.poisoned) || x.count < x.expect then d
      else
        match fget d.lintels i with
        | some l =>
          if l.upv then
            if l.upwait then d
            else
              let a := match x.grout with | some g => g.acc | none => { lanes := [], cnt := 0, flags := 0 }
              let st : Status := if x.shrunk then .okShrunk else .ok
              let d := setBarrier d i { x with dlAt := 0 }
              let d := { d with lintels := fput d.lintels i { l with upwait := true, upPay := some (a, st) } }
              sendUp e d i (arriveUpRec x a st (x.course + 1))
          else closeIfDone e i 0 n (closeCourse e d i b x none carry)
        | none => closeIfDone e i 0 n (closeCourse e d i b x none carry)
    | _ => d

/-- R199. Every change of a barrier reaches its mirror, with the bytes of the contribution that made it; then the course closes if it is complete. -/
def settleBarrier (e : Env) (d : Dp) (i : Nat) (carry : Nat := 0) : Dp := emit e (closeIfDone e i carry 3 d) (homeOf e i) i 0 [] none carry

/-- R111, R112. The first arrival of a course starts its timer, which does not restart for a course that has expired. -/
def Barrier.startTimer (x : Barrier) (g : Dword) : Barrier :=
  if x.count = 0 ∧ x.arm.deadline ≠ 0#24 ∧ x.dlAt = 0 ∧ x.expired = false then { x with dlAt := g + dlUnits x.arm.deadline.toNat } else x

/-- R99. The tile discards an arrival hod. -/
def discardHod (e : Env) (d : Dp) (t : Nat) : Dp := bumpT e d t 14

/-- R99, R204. An arrival of the open course: n counted and its payload combined at rank k; none where it bounces. -/
def countArrival (e : Env) (d : Dp) (i : Nat) (x : Barrier) (n k : Nat) (tag : Word) (p : Payload) : Option Dp :=
  let x1 := { x.startTimer (tileGt e (homeOf e i)) with tag := tag }
  match x.grout with
  | none => some (settleBarrier e (setBarrier d i { x1 with count := x.count + n }) i)
  | some g =>
    match g.run.cfg with
    | none => some (settleBarrier e (setBarrier d i { x1 with count := x.count + n }) i)
    | some c =>
      match foldIn c x (skipOf d i) g k p with
      | none => none
      | some g2 => some (settleBarrier e (setBarrier d i { x1 with count := x.count + n, grout := some g2 }) i p.bytes)

/-- The rank of a payload. -/
def Payload.rank : Payload → Nat
  | .one k _ _ => k
  | _ => 0

/-- R99, R404, R408, R409. The home tile takes an arrival hod: an operation that carries the hod's TAG. -/
def takeArrival (e : Env) (d : Dp) (a : Arrival) : Dp :=
  let t := homeOf e a.index
  let b := brickOf d a.index
  match b.body with
  | .barrier x =>
    if !(b.valid && b.lost.isNone && decide (brickHandle e a.index b = a.handle)) || !(x.armed && x.bonded && !x.poisoned) || a.course ≠ x.course + 1 then
      discardHod e d t
    else
      let d := touchSlot d t (.brick a.index) true
      match countArrival e (noteRaw e d t b a.handle a.tag a.agent a.gang a.op .ok a.course) a.index x a.count a.pay.rank a.tag a.pay with
      | some d => d
      | none => send e (bumpT e d t 17) (.tile t) (.joint a.joint) .rsp b.part (.bounce a)
  | _ => discardHod e d t

/-! ### Poisoning (R118, R263) -/

/-- R118. Brick i becomes POISONED: its waits end with the incident's number, the open course's grout and every count under way is discarded, and its peers but one are told. -/
def poisonBrick (e : Env) (d : Dp) (i : Nat) (key : IncKey) (from_ : Dword) : Dp :=
  let b := brickOf d i
  let t := homeOf e i
  match b.body with
  | .barrier x =>
    if x.poisoned then d
    else
      let h := brickHandle e i b
      let g := x.grout.map (Grout.fresh x (goneOf d i))
      let outs := releaseHods d t b x (endNow d i h x.course .poisoned)
      let d := setBarrier d i { x with poisoned := true, dlAt := 0, expired := false, poisonInc := some key, grout := g }
      let d := { d with comb := d.comb.map (fun c => if c.index = i && !c.waiting then { c with before := 0, got := 0, acc := none } else c) }
      let d := sendNumbered e (emitNone e d t i 0) (.tile t) key outs
      spreadPoison e d i (x.course + 1) from_
  | _ => d

/-! ### Shrinking (R115 to R117, R262) -/

/-- R115, R118. The DEPART incident of an agent, and the poisoning it brings. -/
def departPoison (e : Env) (d : Dp) (i agent : Nat) : Dp :=
  let b := brickOf d i
  let key := mkKey e 3 agent .depart
  let d := report e d (.tile (homeOf e i)) { mkReport e key (some b.part) with d0 := brickHandle e i b }
  poisonBrick e d i key 0

/-- R115, R116. EXPECT falls by `now` in the open course and by `next` at the boundary. DESIGN CHOICE (log 11): SH_EXPECT of a bond that waits for the boundary stays as BOND_SET wrote it. -/
def shrinkBarrier (e : Env) (d : Dp) (i : Nat) (x : Barrier) (now_ next_ : Nat) (agent : Option Nat) : Dp :=
  let gone := skipOf d i
  let x1 := { x with expect := x.expect - now_, nextDelta := x.nextDelta + next_, shrunk := true }
  let x2 := match agent with
    | none => x1
    | some a => if next_ = 0 then { x1 with left := x1.left ++ [a] } else { x1 with leaving := x1.leaving ++ [a] }
  let x3 := match x2.grout with
    | some g => (match g.run.cfg with
      | some c => if c.folds then { x2 with grout := some (advance c x2 gone x2.ranks g.next g) } else x2
      | none => x2)
    | none => x2
  settleBarrier e (setBarrier d i x3) i

/-- R115, R116, R118. The home tile takes a shrink hod. Under POISON it poisons a barrier that is not POISONED, and SHRINK counts the member out of a POISONED one too. -/
def takeShrink (e : Env) (d : Dp) (i : Nat) (course : Word) (now_ next_ ex agent : Nat) : Dp :=
  let b := brickOf d i
  match b.body with
  | .barrier x =>
    if !(b.valid && b.lost.isNone && x.bonded) then d
    else
      let d := touchSlot d (homeOf e i) (.brick i) true
      if x.arm.depart then (if x.poisoned then d else departPoison e d i agent)
      else if course = x.course + 1 then shrinkBarrier e d i x now_ next_ (some agent)
      else shrinkBarrier e d i x ex 0 (some agent)
  | _ => d

/-! ### Branch routers (R32, R33, R115) -/

/-- R198. The partial that an entry has combined, at the size that it takes on the way. -/
def Comb.pay (d : Dp) (c : Comb) : Payload :=
  match c.acc with
  | some x => .acc x (match (barrierOf d c.index).bind Barrier.cfg with | some g => ceilDiv (partialBytes g) 8 * 8 | none => 0)
  | none => .none

/-- R32. An entry whose subtree is complete sends one combined hod. -/
def combSend (e : Env) (d : Dp) (c : Comb) (a : Arrival) (part : BitVec 4) : Dp :=
  if c.got = 0 ∨ c.got + c.before < c.expect then d
  else
    let d := { d with comb := d.comb.map (fun y => if y.router = c.router && y.index = c.index && y.waiting = c.waiting then { y with got := 0, acc := none } else y) }
    send e d (.router c.router) c.up .req part (.arrival { a with count := c.got, pay := c.pay d })

/-- R32, R33, R99, R198. A branch router takes an arrival hod or a shrink hod of its tree. DESIGN CHOICE (log 48): an arrival of another course is dropped there, and no counter counts it. DESIGN CHOICE (log 53): a combined hod that a shrink hod completes, and no arrival, carries TAG 0. -/
def combTake (e : Env) (d : Dp) (h : Hod) (r : Nat) : Dp :=
  match h.body with
  | .arrival a =>
    (match d.comb.find? (fun c => c.router == r && c.index == a.index && !c.waiting) with
      | none => passOn e d h r (.tile (homeOf e a.index)) (.arrival a)
      | some c =>
        let cfg := (barrierOf d a.index).bind Barrier.cfg
        if a.course ≠ c.course then d
        else
          match cfg with
          | some g =>
            if !g.routers then passOn e d h r (.tile (homeOf e a.index)) (.arrival a)
            else
              let acc := Acc.merge g (c.acc.getD (Acc.zero g)) (payAcc g none a.pay)
              let c := { c with got := c.got + a.count, acc := some acc }
              let d := { d with comb := d.comb.map (fun y => if y.router = r && y.index = a.index && !y.waiting then c else y) }
              combSend e d c a h.part
          | none =>
            let c := { c with got := c.got + a.count }
            let d := { d with comb := d.comb.map (fun y => if y.router = r && y.index = a.index && !y.waiting then c else y) }
            combSend e d c a h.part)
  | .shrink i course n k ex agent rank =>
    (match d.comb.find? (fun c => c.router == r && c.index == i && !c.waiting) with
      | none => passOn e d h r (.tile (homeOf e i)) h.body
      | some c =>
        let (n', k') := if course = c.course then (n, k) else (ex, 0)
        let c := { c with expect := c.expect - n', nextDelta := c.nextDelta + k' }
        let d := { d with comb := d.comb.map (fun y => if y.router = r && y.index = i && !y.waiting then c else y) }
        let d := passOn e d h r c.up (.shrink i course n k ex agent rank)
        let b := brickOf d i
        combSend e d c { index := i, handle := brickHandle e i b, course := c.course, count := 0, pay := .none, tag := 0, agent := agent, gang := 0
                         op := .arrive, joint := agent / 8 } h.part)
  | _ => d

/-! ### Agent operations at the home tile (Table 3.4, R499, R107) -/

/-- R74, R118, R235. A POISONED response of barrier i leaves with the number of the poisoning, behind the mirror's acknowledgement. -/
def poisonReply (e : Env) (d : Dp) (t i : Nat) (b : Brick) (x : Barrier) (j entry : Nat) : Dp :=
  let h := replyHod t j entry b.part { Resp.at .poisoned x.course with brick := some i }
  match x.poisonInc with
  | some k => sendNumbered e d (.tile t) k [h]
  | none => emit e d t i 0 [h] none

/-- R107. DESIGN CHOICE (log 54): SHADOW is 1 while anything waits for the boundary, a grout configuration or weight table among it. -/
def Barrier.queryValue (x : Barrier) : Dword :=
  BitVec.ofNat 64 (pack [(0, 16, x.count), (16, 16, x.expect), (32, 7, (x.bond.map Bond.lchild).getD 0), (40, 1, b2n x.armed), (41, 1, b2n x.bonded),
    (42, 1, b2n x.poisoned), (43, 1, b2n (x.dlAt != 0)), (44, 1, b2n (x.shArm.isSome || x.shBond.isSome || x.shRun.isSome))])

/-- R104. The result of the last course, for a target that equals COURSE. -/
def Barrier.done (x : Barrier) (target : Word) : Resp :=
  doneResp x.course target x.lastStatus ((x.grout.map (fun g => g.resFlags)).getD 0) (toBeats ((x.grout.map (fun g => g.result)).getD []))

/-- R499. The agent in slot s of joint j is a member of the bond in force or of the one that waits, and stands in its bed at the joint; a member that has departed (R114) does not. -/
def Barrier.awaited (x : Barrier) (d : Dp) (j : Nat) (h : Dword) (s : BitVec 3) : Bool :=
  let inBond := fun (o : Option Bond) => o.any (fun n => n.members.any (fun m => m.agent == agentNo j s))
  (inBond x.bond || inBond x.shBond) && (jointOf d j).beds.any (fun b => b.handle == h && (b.member s).isSome)

/-- Table 3.4 (R102) and R499, at the home tile: its two exceptions come before the table's rows. -/
def barrierHome (e : Env) (d : Dp) (t i : Nat) (b : Brick) (x : Barrier) (j : Nat) (y : JEntry) : Dp :=
  let refuse := fun (st : Status) => homeAnswer e d t i 0 b j y [] (Resp.at st x.course)
  let poisonedNow := fun (_ : Unit) =>
    poisonReply e (noteOp e d t b j y .poisoned x.course) t i b x j y.id
  match y.op with
  | .arrive | .arriveWait =>
    if x.bonded && x.armed && x.awaited d j (brickHandle e i b) y.req.slot then refuse .busy
    else if x.poisoned then poisonedNow ()
    else if !x.bonded then refuse .notOwner
    else if !x.armed then refuse .busy
    else refuse .notOwner
  | .query => homeAnswer e d t i 0 b j y [] { Resp.at .ok x.course with value := x.queryValue, gflags := (x.grout.map (fun g => g.cum)).getD 0 }
  | _ =>
    let tg := reqTarget y.req
    if completed x.course tg then homeAnswer e d t i 0 b j y [] (x.done tg)
    else if x.poisoned then poisonedNow ()
    else refuse .busy

/-- R109. The first free watcher slot takes joint j. -/
def addWatch (j : Nat) : List (Option Nat) → Option (List (Option Nat))
  | [] => none
  | none :: l => some (some j :: l)
  | some k :: l => (addWatch j l).map (fun l => some k :: l)

/-- R109. The home tile decides a forwarded WAIT that has passed Table 2.3. -/
def watchHome (e : Env) (d : Dp) (t i : Nat) (b : Brick) (x : Barrier) (j : Nat) (y : JEntry) : Dp :=
  let tg := y.target
  if completed x.course tg then
    homeAnswer e d t i 0 b j y [] { status := x.lastStatus, course := x.course, gflags := (x.grout.map (fun g => g.resFlags)).getD 0, value := 0
                                    beats := toBeats ((x.grout.map (fun g => g.result)).getD []) }
  else if x.poisoned then
    poisonReply e (noteOp e d t b j y .poisoned x.course) t i b x j y.id
  else if !x.armed || !x.bonded then homeAnswer e d t i 0 b j y [] (Resp.at .busy x.course)
  else
    match addWatch j x.watch with
    | none => homeAnswer e d t i 0 b j y [] (Resp.at .busy x.course)
    | some w =>
      let d := setBody d i b (.barrier { x with watch := w })
      emitNone e (noteOp e (markPended d j y.id) t b j y .ok 0) t i 0

/-! ### Deadlines (R111 to R113, R265) -/

/-- R112, R255, R265. The child slots below LCHILD whose SEEN bit is 0: they have not contributed to the open course, attached or not. -/
def missingKids (d : Dp) (i : Nat) (x : Barrier) : BitVec 64 :=
  BitVec.ofNat 64 (2 ^ ((x.bond.map Bond.lchild).getD 0) - 1) &&& ~~~ (((fget d.lintels i).map (fun l => l.seen)).getD 0)

/-- R265. Brick i has no uplink. -/
def isRoot (d : Dp) (i : Nat) : Bool := (fget d.lintels i).all (fun l => !l.upv)

/-- R265. Brick i raises its own deadline report: among twins, only the one with the lower NODE does. -/
def twinReports (e : Env) (d : Dp) (i : Nat) : Bool :=
  match fget d.lintels i with
  | none => true
  | some l => !(l.twv && decide ((hNode l.twpeer).toNat < e.kp.node.toNat))

/-- R112, R265. Every pending wait ends TIMEOUT, a sweep goes to each member joint, and a root sweeps its children. -/
def expireBarrier (e : Env) (d : Dp) (i : Nat) (b : Brick) (x : Barrier) : Dp :=
  let t := homeOf e i
  let h := brickHandle e i b
  let key := mkKey e 5 i .timeout
  let js := bedJoints d h false
  let outs := releaseHods d t b x (endNow d i h x.course .timeout)
  let d := setBarrier d i { x with dlAt := 0, expired := true, sweep := x.sweep ++ [{ course := x.course + 1, joints := js, missing := missingKids d i x }] }
  let d := trace e d t (some 2) { TRec.blank 0x05 with gt := tileGt e t, handle := h, course := x.course + 1, part := some b.part }
  let d := emitNone e d t i 0
  let d := if twinReports e d i then sendNumbered e d (.tile t) key outs else emit e d t i 0 outs none
  let d := js.foldl (fun d j => send e d (.tile t) (.joint j) .mgmt b.part (.sweep i (x.course + 1))) d
  if isRoot d i then sendKids e d i (HodRec.blank 5 0 (x.course + 1)) 0 else d

/-- R113. The incident of a sweep, from the answers collected: the missing agents of each joint. -/
def sweepReport (e : Env) (d : Dp) (i : Nat) (b : Brick) (w : SweepRec) (answers : List (Nat × BitVec 8)) : Dp :=
  let agents := (answers.map (fun a => a.2.toNat * 2 ^ (8 * a.1))).sum
  report e d (.tile (homeOf e i)) { mkReport e (mkKey e 5 i .timeout) (some b.part) with
    d0 := brickHandle e i b, d1 := w.missing, d2 := w.course, maps := [BitVec.ofNat 512 agents, BitVec.ofNat 512 (agents / 2 ^ 512)] }

/-- The answers in the net to the sweep of brick i's course. -/
def sweepAnswersOf (d : Dp) (i : Nat) (course : Word) : List (Nat × BitVec 8) :=
  d.net.filterMap (fun h => match h.body with
    | .sweepAns k c j m => if k = i ∧ c = course then some (j, m) else none
    | _ => none)

/-- The net without the sweep answers of brick i that a test picks by course. -/
def dropAnswers (d : Dp) (i : Nat) (p : Word → Bool) : Dp :=
  { d with net := d.net.filter (fun h => match h.body with
    | .sweepAns k c _ _ => !(k == i && p c)
    | _ => true) }

/-- R113. What joint j has answered to the oldest sweep of brick i's course. -/
def sweepAnswer (d : Dp) (i : Nat) (course : Word) (j : Nat) : Option (BitVec 8) := ((sweepAnswersOf d i course).find? (fun a => a.1 == j)).map Prod.snd

/-- The net without that answer. -/
def dropAnswer (i : Nat) (course : Word) (d : Dp) (j : Nat) : Dp :=
  match takeFirst (fun h => match h.body with | .sweepAns k c q _ => k == i && c == course && q == j | _ => false) d.net with
  | some (_, rest) => { d with net := rest }
  | none => d

/-- R113. The home tile collects the answers of one sweep of brick i; once every joint that it asked has answered it raises the TIMEOUT incident. A course that expires again after a re-arming has two sweeps: a joint answers the older one first. -/
def collectOne (e : Env) (i : Nat) (b : Brick) (force : Bool) (d : Dp) (w : SweepRec) : Dp :=
  let a := w.joints.filterMap (fun j => (sweepAnswer d i w.course j).map (fun m => (j, m)))
  match barrierOf d i with
  | none => d
  | some x =>
    if x.sweep.find? (fun v => v.course == w.course) != some w || (!force && decide (a.length < w.joints.length)) then d
    else
      let d := w.joints.foldl (dropAnswer i w.course) d
      let d := setBarrier d i { x with sweep := ((takeFirst (fun v => v.course == w.course) x.sweep).map Prod.snd).getD x.sweep }
      if twinReports e d i then sweepReport e d i b w a else d

/-- R113. The home tile collects the sweep answers, the oldest sweep first; answers to none of its sweeps are discarded. -/
def collectSweep (e : Env) (d : Dp) (i : Nat) (force : Bool) : Dp :=
  let b := brickOf d i
  match b.body with
  | .barrier x => x.sweep.foldl (collectOne e i b force) (dropAnswers d i (fun c => !x.sweep.any (fun w => w.course == c)))
  | _ => dropAnswers d i (fun _ => true)

/-! ### Probes of a tree (R266) -/

def setLintel (d : Dp) (i : Nat) (l : Lintel) : Dp := { d with lintels := fput d.lintels i l }

/-- R266. The subtree of brick i has answered its probe: the root sets PATH, another brick answers its parent. -/
def probeDone (e : Env) (d : Dp) (i : Nat) (x : Barrier) (l : Lintel) (sent latest : Dword) : Dp :=
  let d := setLintel d i { l with probe := none }
  if l.upv then sendUp e d i { HodRec.blank 7 0 (x.course + 1) with instant := latest }
  else setBarrier d i { x with path := roundPath ((latest - sent).toNat + 1024) }

/-- R266. The probe of brick i goes on without the peers that it has lost; with nobody left to wait for, the subtree has answered. -/
def probeOn (e : Env) (d : Dp) (i : Nat) : Dp :=
  match fget d.lintels i, (brickOf d i).body with
  | some l, .barrier x =>
    (match l.probe with
      | some (w, sent, latest) =>
        let w := w.filter l.probed.contains
        if w.isEmpty then probeDone e d i x l sent latest else setLintel d i { l with probe := some (w, sent, latest) }
      | none => d)
  | _, _ => d

end Sys2Proof.Machine
end

