-- ==== Sys2Proof/Machine/Pallets.lean ====
section
/-! DEFINITION. Sys2Proof/Machine/Pallets.lean: token pallets at their stripes (05_pallets.md): puts, gets, the head cache and the ring, sweeps, forwarded puts, nudges and ring faults. -/

namespace Sys2Proof.Machine

/-! ### Stripes (R156, R159) -/

/-- R156. The logical tile of stripe k of pallet i. -/
def stripeTile (e : Env) (i k : Nat) : Nat := homeOf e i ^^^ k

/-- R156. Tokens of a stripe's ring segment. -/
def Stripe.segment (s : Stripe) : Nat := 2 ^ s.log2 / 2 ^ s.log2s

/-- R159. DEPTH. -/
def Stripe.depth (s : Stripe) : Nat := (s.puts - s.gets).toNat

/-- R156, R157. Stripe k as PALLET_CFG builds it. -/
def Stripe.fresh (k log2 log2s : Nat) (steal : Bool) (addr : Dword) (base mirror : Nat) : Stripe :=
  { wacc := .fine, racc := .fine, steal := steal, k := k, log2s := log2s, log2 := log2, puts := 0, gets := 0, cache := [], seg := [], nextj := 0
    hungry := 0, ringAddr := addr, waitj := [], faddr := 0, writing := none, putq := [], refill := none, thief := none, getq := [], base := base
    mirror := mirror, lost := none }

/-- R165. The address of the token at position n of a stripe's segment (R156). -/
def Stripe.slotAddr (s : Stripe) (n : Nat) : Dword :=
  s.ringAddr + BitVec.ofNat 64 (s.k * s.segment * 8 + n % s.segment * 8)

def modStripe (d : Dp) (i k : Nat) (f : Stripe → Stripe) : Dp :=
  match stripeOf d i k with
  | some s => setStripe d i k (f s)
  | none => d

/-! ### Responses (R161) -/

/-- Table 5.3. -/
def palCourse (depth stripe log2s n : Nat) (stolen : Bool) : Word :=
  BitVec.ofNat 32 (pack [(0, 21, depth), (21, 3, stripe), (24, 2, log2s), (26, 5, n), (31, 1, b2n stolen)])

/-- R161. The response of stripe s after an operation. -/
def Stripe.resp (s : Stripe) (st : Status) (n : Nat) (stolen : Bool) (toks : List Dword) : Resp :=
  { status := st, course := palCourse s.depth s.k s.log2s n stolen, gflags := 0
    value := (toks.head?).getD 0, beats := tokBeats 8 (toks.drop 1) }

/-- The note and the response of a token operation at stripe k of pallet i. -/
def palReply (e : Env) (d : Dp) (i k : Nat) (joint entry agent : Nat) (gang : BitVec 6) (tag : Word) (op : AOp) (r : Resp) : Dp :=
  let t := stripeTile e i k
  let b := brickOf d i
  let d := noteRaw e d t b (brickHandle e i b) tag agent gang op r.status r.course
  emit e d t i k [replyHod t joint entry b.part r] none

/-- R173. The key of the XLATE_FAULT incident of pallet i. -/
def palFaultKey (e : Env) (i : Nat) : IncKey := mkKey e 5 i .xlateFault

/-- R173, R235. An operation refused because a fault holds the stripe. -/
def palFaulted (e : Env) (d : Dp) (i k : Nat) (s : Stripe) (joint entry agent : Nat) (gang : BitVec 6) (tag : Word) (op : AOp) : Dp :=
  let t := stripeTile e i k
  let b := brickOf d i
  let r := s.resp .xlateFault 0 false []
  let d := noteRaw e d t b (brickHandle e i b) tag agent gang op r.status r.course
  sendNumbered e d (.tile t) (palFaultKey e i) [replyHod t joint entry b.part r]

/-! ### Nudges (R164) -/

/-- R164. The waiting joints that a stripe of depth n nudges: ascending from NEXTJ, wrapping. -/
def Stripe.nudged (s : Stripe) (n : Nat) : List Nat :=
  ((s.waitj.filter (fun j => decide (s.nextj ≤ j))) ++ (s.waitj.filter (fun j => decide (j < s.nextj)))).take n

/-- R164. Nudges to up to DEPTH waiting joints; NEXTJ moves past the last. -/
def nudgeWaiting (e : Env) (d : Dp) (i k : Nat) : Dp :=
  match stripeOf d i k with
  | none => d
  | some s =>
    let js := s.nudged s.depth
    match js.getLast? with
    | none => d
    | some l =>
      let b := brickOf d i
      let t := stripeTile e i k
      let d := setStripe d i k { s with waitj := s.waitj.filter (fun j => !js.contains j), nextj := (l + 1) % 128 }
      emit e d t i k (js.map (fun j => mkHod (.tile t) (.joint j) .rsp b.part (.nudge i (brickHandle e i b)))) none

/-! ### The head cache (R166) -/

/-- R166, R416. A refill starts when CACHED is below 32, the ring holds tokens, none is out, and no stop keeps the memory port from it. -/
def startRefill (e : Env) (d : Dp) (i k : Nat) : Dp :=
  match stripeOf d i k with
  | none => d
  | some s =>
    if e.stop.stopped = false ∧ s.cache.length < 32 ∧ s.cache.length < s.depth ∧ s.refill = none ∧ s.racc = .fine ∧ s.wacc ≠ .held then
      let n := min 32 (min (s.depth - s.cache.length) (64 - s.cache.length))
      let t := stripeTile e i k
      let d := setStripe d i k { s with refill := some n }
      let x := tileOf d t
      bumpT e (setTile d t { x with work := x.work ++ [.refill i k] }) t 24
    else d

/-- R164, R173. The joint of a get waits at stripe k: WAITJ, and the entry pends. -/
def palPend (e : Env) (d : Dp) (i k : Nat) (g : GetOp) : Dp :=
  let t := stripeTile e i k
  let b := brickOf d i
  let d := modStripe d i k (fun s => { s with waitj := setInsert g.joint s.waitj })
  let d := match (jointOf d g.joint).entries.find? (fun y => y.id == g.entry) with
    | some _ => markPended d g.joint g.entry
    | none => d
  let d := noteRaw e d t b (brickHandle e i b) g.tag g.agent g.gang .tokGet .ok 0
  emitNone e d t i k

def GetOp.op (g : GetOp) : AOp := if g.try_ then .tokTryget else .tokGet

/-- R163, R167, R169. The first stripe of a get, or the next of its sweep, is empty or faulted: the sweep goes on, or the get ends. -/
def palEmpty (e : Env) (d : Dp) (i k : Nat) (s : Stripe) (g : GetOp) : Dp :=
  let n := 2 ^ s.log2s
  let nextK := (k + 1) % n
  let t := stripeTile e i k
  if k = g.first then
    if s.steal && !g.sel && decide (1 < n) then
      send e d (.tile t) (.tile (stripeTile e i nextK)) .req (brickOf d i).part (.palSweep i nextK g)
    else if g.try_ then palReply e d i k g.joint g.entry g.agent g.gang g.tag g.op (s.resp .okEmpty 0 false [])
    else palPend e d i k g
  else
    let s := { s with hungry := s.hungry ||| BitVec.ofNat 8 (2 ^ g.first) }
    let d := setStripe d i k s
    if nextK = g.first % n && g.try_ then
      palReply e d i k g.joint g.entry g.agent g.gang g.tag g.op { s.resp .okEmpty 0 false [] with course := palCourse 0 k s.log2s 0 false }
    else
      send e (emitNone e d t i k) (.tile t) (.tile (stripeTile e i nextK)) .req (brickOf d i).part (.palSweep i nextK g)

/-- R163, R166. A get that finds tokens takes min(n, DEPTH) of them when they are cached, and else waits for the refill. -/
def palServe (e : Env) (d : Dp) (i k : Nat) (s : Stripe) (g : GetOp) : Dp :=
  let m := min g.count s.depth
  if s.cache.length < m then setStripe d i k { s with getq := s.getq ++ [g] }
  else
    let stolen := k != g.first
    let toks := s.cache.take m
    let s2 := { s with cache := s.cache.drop m, gets := s.gets + BitVec.ofNat 32 m }
    let b := brickOf d i
    let d := bumpP e (setStripe d i k s2) b.part 6 m
    let d := if stolen then bumpP e d b.part 7 1 else d
    let d := palReply e d i k g.joint g.entry g.agent g.gang g.tag g.op (s2.resp .ok m stolen toks)
    startRefill e d i k

/-- Table 5.4 (R163), R167, R173. A get at stripe k, as its first stripe, on its sweep, or back from it (R167). -/
def palGet (e : Env) (d : Dp) (i k : Nat) (g : GetOp) (back : Bool) : Dp :=
  match stripeOf d i k with
  | none => d
  | some s =>
    let home := k = g.first
    if s.getq ≠ [] ∧ s.fault = false then setStripe d i k { s with getq := s.getq ++ [{ g with back := back }] }
    else if g.count = 0 ∧ (¬ g.try_ ∨ s.fault = false) then palReply e d i k g.joint g.entry g.agent g.gang g.tag g.op (s.resp .ok 0 false [])
    else if s.fault then
      if home then
        if g.try_ then palFaulted e d i k s g.joint g.entry g.agent g.gang g.tag g.op else palPend e d i k g
      else palEmpty e d i k s g
    else if s.depth = 0 then if back then palPend e d i k g else palEmpty e d i k s g
    else palServe e d i k s g

/-- R166. The gets that wait are served in order while their tokens are cached. -/
def drainGets (e : Env) (i k : Nat) : Nat → Dp → Dp
  | 0, d => d
  | n + 1, d =>
    match stripeOf d i k with
    | none => d
    | some s =>
      match s.getq with
      | [] => d
      | g :: rest =>
        let d1 := setStripe d i k { s with getq := rest }
        if g.count = 0 then drainGets e i k n (palReply e d1 i k g.joint g.entry g.agent g.gang g.tag g.op (s.resp .ok 0 false []))
        else if s.depth = 0 then drainGets e i k n (if g.back then palPend e d1 i k g else palEmpty e d1 i k { s with getq := rest } g)
        else if s.cache.length < min g.count s.depth then d
        else drainGets e i k n (palServe e d1 i k { s with getq := rest } g)

def serveGets (e : Env) (d : Dp) (i k : Nat) : Dp :=
  match stripeOf d i k with
  | some s => if e.stop.stopped then d else drainGets e i k s.getq.length d
  | none => d

/-! ### Puts (R163, R165, R168) -/

/-- R165. A put's tokens count, its answer goes out, and waiting joints are nudged. -/
def palStored (e : Env) (d : Dp) (i k : Nat) (s : Stripe) (p : PutOp) : Dp :=
  let n := p.toks.length
  let s := { s with puts := s.puts + BitVec.ofNat 32 n }
  let d := bumpP e (setStripe d i k s) (brickOf d i).part 5 n
  let d := palReply e d i k p.joint p.entry p.agent p.gang p.tag .tokPut (s.resp .ok n false [])
  nudgeWaiting e d i k

/-- R168. The lowest hungry sibling. -/
def Stripe.lowestHungry (s : Stripe) : Option Nat := (List.range 8).find? (fun k => s.hungry.getLsbD k && decide (k < 2 ^ s.log2s) && k != s.k)

/-- R168. A forwarded put that its sibling cannot store goes back. -/
def palReturn (e : Env) (d : Dp) (i k from_ : Nat) (p : PutOp) : Dp :=
  send e d (.tile (stripeTile e i k)) (.tile (stripeTile e i from_)) .req (brickOf d i).part (.fwdPut i from_ p)

/-- Table 5.4 (R163), R165, R168, R173. A put that stripe k takes; it waits behind a ring write in flight. -/
def palPut (e : Env) (d : Dp) (i k : Nat) (p : PutOp) : Dp :=
  match stripeOf d i k with
  | none => d
  | some s =>
    let n := p.toks.length
    let sibling := match p.from_ with | some f => if f = k then none else some f | none => none
    let answer := fun (st : Status) => palReply e d i k p.joint p.entry p.agent p.gang p.tag .tokPut (s.resp st 0 false [])
    if s.fault then
      match sibling with
      | some f => palReturn e d i k f p
      | none => palFaulted e d i k s p.joint p.entry p.agent p.gang p.tag .tokPut
    else if s.writing.isSome then setStripe d i k { s with putq := s.putq ++ [p] }
    else if n = 0 then answer .ok
    else if s.depth + n > s.segment then
      match sibling with
      | some f => palReturn e d i k f p
      | none => answer .busy
    else
      let fwd := if s.steal && s.depth = 0 && s.waitj.isEmpty && p.from_.isNone then s.lowestHungry else none
      match fwd with
      | some h =>
        let d := setStripe d i k { s with hungry := s.hungry &&& ~~~ (BitVec.ofNat 8 (2 ^ h)) }
        let t := stripeTile e i k
        let d := bumpT e (emitNone e d t i k) t 25
        send e d (.tile t) (.tile (stripeTile e i h)) .req (brickOf d i).part (.fwdPut i h { p with from_ := some k })
      | none =>
        if s.cache.length = s.depth ∧ s.cache.length + n ≤ 64 then palStored e d i k { s with cache := s.cache ++ p.toks } p
        else setStripe d i k { s with writing := some p }

/-- The puts that waited behind a ring write run in order until one of them writes to the ring; none goes on during a stop (R416). -/
def drainPuts (e : Env) (i k : Nat) : Nat → Dp → Dp
  | 0, d => d
  | n + 1, d =>
    match stripeOf d i k with
    | none => d
    | some s =>
      if s.writing.isSome || e.stop.stopped then d
      else
        match s.putq with
        | [] => d
        | p :: rest => drainPuts e i k n (palPut e (setStripe d i k { s with putq := rest }) i k p)

/-- R165, R463. The ring writes of a put's tokens: in two parts where they pass the end of the segment. -/
def ringWrites (d : Dp) (part : BitVec 4) (s : Stripe) (toks : List Dword) : Dp :=
  let at_ := s.puts.toNat % s.segment
  let first := min toks.length (s.segment - at_)
  let put := fun (d : Dp) (n : Nat) (l : List Dword) => memWrite d part.toNat (s.slotAddr n) (8 * l.length) (leWords 64 (l.map BitVec.toNat))
  let d := put d at_ (toks.take first)
  if first < toks.length then put d 0 (toks.drop first) else d

/-- R174. What follows a fault that has cleared: refill, gets and nudges go on. -/
def palResume (e : Env) (d : Dp) (i k : Nat) : Dp :=
  match stripeOf d i k with
  | none => d
  | some s =>
    if s.fault then d
    else
      let d := setStripe d i k { s with faddr := 0 }
      let d := serveGets e (startRefill e d i k) i k
      let d := nudgeWaiting e d i k
      drainPuts e i k s.putq.length d

/-- R165, R174. The memory port reports the ring write of stripe k complete. -/
def ringWritten (e : Env) (d : Dp) (i k : Nat) : Dp :=
  match stripeOf d i k with
  | none => d
  | some s =>
    match s.writing with
    | none => d
    | some p =>
      if s.wacc = .held then d
      else
        let cleared := decide (s.wacc ≠ .fine) && decide (s.racc = .fine)
        let d := stillBusy e (ringWrites d (brickOf d i).part s p.toks) (stripeTile e i k)
        let s := { s with writing := none, wacc := .fine, seg := s.seg ++ p.toks }
        let d := palStored e d i k s p
        let d := startRefill e d i k
        if cleared then palResume e d i k else drainPuts e i k s.putq.length d

/-- The refill of stripe k is no management work item any more. -/
def dropRefill (e : Env) (d : Dp) (i k : Nat) : Dp :=
  let t := stripeTile e i k
  let x := tileOf d t
  setTile d t { x with work := x.work.filter (fun w => decide (w ≠ .refill i k)) }

/-- R175. The thief of a refill sends what it read to the stripe's tile on MGMT: one hod of 8 bytes a token. -/
def stolenResult (e : Env) (d : Dp) (i k : Nat) (s : Stripe) : Dp :=
  match s.thief, s.refill with
  | some t, some n =>
    let v := stripeTile e i k
    countPorts e .mgmt (max 1 (ceilDiv n 8)) (2 * max 1 (ceilDiv n 8) + n) (routePorts (portNumber e (.tile v)) (route (tileRouter e t) (tileRouter e v))) (stillBusy e (tookHod e d v .mgmt) t)
  | _, _ => d

/-- R166. The read of a refill of n tokens: in two parts where it passes the end of the segment. -/
def refillRead (d : Dp) (part : BitVec 4) (s : Stripe) (n : Nat) : Dp :=
  let at_ := (s.gets.toNat + s.cache.length) % s.segment
  let first := min n (s.segment - at_)
  let d := memRead d part.toNat (s.slotAddr at_) (8 * first)
  if first < n then memRead d part.toNat (s.slotAddr 0) (8 * (n - first)) else d

/-- R166, R173, R174. A refill's read of stripe k completes. While a ring write of the stripe is held, its tokens stay where they are. -/
def refilled (e : Env) (d : Dp) (i k : Nat) : Dp :=
  match stripeOf d i k with
  | none => d
  | some s =>
    match s.refill with
    | none => d
    | some n =>
      if s.racc = .held then d
      else
        let cleared := decide (s.racc ≠ .fine) && decide (s.wacc = .fine)
        let d := stillBusy e (stolenResult e (dropRefill e (refillRead d (brickOf d i).part s n) i k) i k s) (stripeTile e i k)
        if s.wacc ≠ .fine then emitNone e (setStripe d i k { s with refill := none, racc := .fine, thief := none }) (stripeTile e i k) i k
        else
        let d := setStripe d i k { s with refill := none, racc := .fine, thief := none, cache := s.cache ++ s.seg.take n, seg := s.seg.drop n }
        let d := serveGets e (startRefill e d i k) i k
        let d := emitNone e d (stripeTile e i k) i k
        if cleared then palResume e d i k else d

/-- R173. A ring write or refill of stripe k faults at an address; the gets that waited for tokens pend or are answered XLATE_FAULT, as are the puts that waited behind the write. DESIGN CHOICE (log 57): while both accesses are held, FADDR is the address of the later fault, and stays when one of them clears. -/
def ringFault (e : Env) (d : Dp) (i k : Nat) (refill : Bool) (addr : Dword) : Dp :=
  match stripeOf d i k with
  | none => d
  | some s =>
    let out := if refill then s.refill.isSome && s.racc != .held else s.writing.isSome && s.wacc != .held
    if !out then d
    else
      let b := brickOf d i
      let t := stripeTile e i k
      let s := if refill then { s with racc := .held, faddr := addr } else { s with wacc := .held, faddr := addr }
      let d := setStripe (if refill then dropRefill e d i k else d) i k s
      let d := report e d (.tile t) { mkReport e (palFaultKey e i) (some b.part) with d0 := addr, d1 := brickHandle e i b }
      let d := setStripe d i k { s with getq := [], putq := [] }
      let d := s.getq.foldl (fun d g => palGet e d i k g g.back) d
      emitNone e (s.putq.foldl (fun d p => palPut e d i k p) d) t i k

/-- R416. At GO a stripe goes on with what a stop has kept from it. -/
def palGo (e : Env) (d : Dp) (i k : Nat) : Dp :=
  match stripeOf d i k with
  | none => d
  | some s => if s.lost.isSome then d else drainPuts e i k s.putq.length (serveGets e (startRefill e d i k) i k)

/-! ### At a stripe (Table 5.4) -/

/-- QUERY (Table 5.4). -/
def Stripe.queryValue (s : Stripe) : Dword :=
  BitVec.ofNat 64 (pack [(0, 21, s.depth), (21, 7, s.cache.length), (28, 1, b2n s.fault), (29, 1, 1), (30, 1, b2n s.steal), (32, 8, s.hungry.toNat)])

/-- The put and the get that a joint entry stands for. -/
def putOf (j : Nat) (x : JEntry) : PutOp :=
  { joint := j, entry := x.id, toks := reqTokens x.req, agent := agentNo j x.req.slot, gang := x.req.gang, tag := x.req.tag, from_ := none, handle := x.req.handle
    sel := if reqSel x.req then some (reqStripe x.req) else none }

def getOf (j k : Nat) (x : JEntry) : GetOp :=
  { joint := j, entry := x.id, count := x.req.count.toNat, try_ := x.op == .tokTryget, agent := agentNo j x.req.slot, gang := x.req.gang
    tag := x.req.tag, first := k, sel := reqSel x.req, handle := x.req.handle }

/-- Table 5.4 (R163). An agent operation on pallet i at stripe k, past Table 2.3. -/
def stripeHome (e : Env) (d : Dp) (i k : Nat) (s : Stripe) (j : Nat) (x : JEntry) : Dp :=
  let t := stripeTile e i k
  let b := brickOf d i
  match x.op with
  | .tokPut => palPut e d i k (putOf j x)
  | .tokGet | .tokTryget => palGet e d i k (getOf j k x) false
  | .test => homeAnswer e d t i k b j x [] (s.resp (if s.depth = 0 then .busy else .ok) 0 false [])
  | _ => homeAnswer e d t i k b j x [] { s.resp .ok 0 false [] with value := s.queryValue }

/-- R161. A response to an operation on pallet i that stripe k does not serve; a lost stripe has no tokens to count. -/
def palPlain (d : Dp) (i k : Nat) (st : Status) : Resp :=
  match stripeOf d i k with
  | some s => if s.lost.isSome then { Resp.plain st with course := palCourse 0 k s.log2s 0 false } else s.resp st 0 false []
  | none => Resp.plain st

/-- R172, R235. An operation on a lost stripe is answered LOST. -/
def stripeLost (e : Env) (d : Dp) (i k j entry : Nat) (key : IncKey) : Dp :=
  sendNumbered e d (.tile (stripeTile e i k)) key [replyHod (stripeTile e i k) j entry (brickOf d i).part (palPlain d i k .lost)]

/-- R163, R172. An agent operation on pallet i at its stripe k. -/
def stripeRun (e : Env) (d : Dp) (i k j : Nat) (x : JEntry) : Dp :=
  match stripeOf d i k with
  | none => d
  | some s =>
    match s.lost with
    | some key => stripeLost e (noteOp e d (stripeTile e i k) (brickOf d i) j x .lost 0) i k j x.id key
    | none => stripeHome e d i k s j x

/-- R162, R163. An agent operation on pallet i at the tile of stripe k: unconfigured, served there, or sent on from stripe 0 to the stripe that SEL names. -/
def palletHome (e : Env) (d : Dp) (t i : Nat) (b : Brick) (k j : Nat) (x : JEntry) : Dp :=
  let blank := fun (st : Status) => homeAnswer e d t i 0 b j x [] { Resp.plain st with course := palCourse 0 0 0 0 false }
  match stripeOf d i 0 with
  | none => if x.op = .query then blank .ok else blank .busy
  | some s0 =>
    let token := x.op == .tokPut || x.op == .tokGet || x.op == .tokTryget
    let want := if token && reqSel x.req then reqStripe x.req else k
    if token && reqSel x.req && decide (2 ^ s0.log2s ≤ want) then homeAnswer e d t i 0 b j x [] (s0.resp .badCount 0 false [])
    else if want = k || (stripeOf d i want).isNone then stripeRun e d i (if (stripeOf d i want).isNone then 0 else k) j x
    else reqTo e d (.tile t) (stripeTile e i want) j x (fun d => stripeRun e d i want j x)

end Sys2Proof.Machine
end

