-- ==== Sys2Proof/Machine/Home.lean ====
section
/-! DEFINITION. Sys2Proof/Machine/Home.lean: an agent request at its home tile: the hold, the fetch, steps 6 to 9 of Table 2.3, and the operation of its brick type; events (R125, R126). -/

namespace Sys2Proof.Machine

/-! ### Events (Table 3.7) -/

/-- R126. The releases of EVT_SET, to the joints of WAITJ in ascending order. -/
def evtHods (t i : Nat) (b : Brick) (h : Dword) (js : List Nat) (sets : Word) (st : Status) : List Hod :=
  js.map (fun j => mkHod (.tile t) (.joint j) .rsp b.part (.evtRelease i h sets st 0))

/-- Table 3.7 (R126). An agent operation on event i at its home tile t. -/
def eventHome (e : Env) (d : Dp) (t i : Nat) (b : Brick) (v : Event) (j : Nat) (x : JEntry) : Dp :=
  let h := x.req.handle
  match x.op with
  | .evtSet =>
    if v.set then homeAnswer e d t i 0 b j x [] (Resp.at .ok v.sets)
    else
      let v2 : Event := { set := true, sets := v.sets + 1, waitj := [] }
      homeAnswer e (setBody d i b (.event v2)) t i 0 b j x (evtHods t i b h v.waitj v2.sets .ok) (Resp.at .ok v2.sets)
  | .evtWait =>
    if v.set then homeAnswer e d t i 0 b j x [] (Resp.at .ok v.sets)
    else
      let d := setBody d i b (.event { v with waitj := setInsert j v.waitj })
      emitNone e (noteOp e (markPended d j x.id) t b j x .ok 0) t i 0
  | .evtClear => homeAnswer e (setBody d i b (.event { v with set := false })) t i 0 b j x [] (Resp.at .ok v.sets)
  | .test => homeAnswer e d t i 0 b j x [] (Resp.at (if v.set then .ok else .busy) v.sets)
  | _ => homeAnswer e d t i 0 b j x [] { Resp.at .ok v.sets with value := BitVec.ofNat 64 (b2n v.set) }

/-! ### Table 2.3 at the home tile -/

/-- A refusal at steps 6 to 8 of Table 2.3. -/
def homeRefuse (e : Env) (d : Dp) (t j : Nat) (x : JEntry) (st : Status) : Dp :=
  sendHod e d (replyHod t j x.id (hPart x.req.handle) (Resp.plain st))

/-- R46, R76, R137, R148, R161, Table 8.3. The refusal of step 9 at stripe k (0 for the brick itself): ACCESS, with its incident. -/
def homeDenied (e : Env) (d : Dp) (t k j : Nat) (x : JEntry) : Dp :=
  let p := hPart x.req.handle
  let rep := accessReport e 3 (agentNo j x.req.slot) (some p) x.req.handle p
  let i := hIndex x.req.handle
  let r := match (brickOf d i).body with
    | .pallet => palPlain d i k .access
    | .lock l => Resp.at .access l.grants
    | .semaphore s => Resp.at .access (BitVec.ofNat 32 s.count)
    | .event v => Resp.at .access v.sets
    | .barrier x => Resp.at .access x.course
  sendNumbered e (report e d (.tile t) rep) (.tile t) rep.key [replyHod t j x.id p r]

/-- R45 (steps 7 to 9), R378: an agent request executes on a resident record at tile t, for a pallet at stripe k. A stripe outlives the loss of stripe 0 (R172), and a request that its home has admitted before passes step 9 (R77). -/
def homeExec (e : Env) (d : Dp) (t k j : Nat) (x : JEntry) : Dp :=
  let h := x.req.handle
  let i := hIndex h
  let b := brickOf d i
  if !(b.valid && b.gen == hGen h && b.part == hPart h) then homeRefuse e d t j x .badHandle
  else if (hType h).toNat ≠ b.typeCode then homeRefuse e d t j x .badType
  else
    match (if k = 0 then b.lost else none) with
    | some key => sendNumbered e d (.tile t) key [replyHod t j x.id b.part (palPlain d i 0 .lost)]
    | none =>
      if !x.seen && !admits e (groupMask d b.part b.group) j x.req.slot then homeDenied e d t k j x
      else
        let d := touchSlot d t (if k = 0 then .brick i else .stripe i k) (x.op != .test && x.op != .query)
        match b.body with
        | .lock l => lockHome e d t i b l j x
        | .semaphore s => semHome e d t i b s j x
        | .event v => eventHome e d t i b v j x
        | .pallet => palletHome e d t i b k j x
        | .barrier y => if x.op = .wait then watchHome e d t i b y j x else barrierHome e d t i b y j x

/-- R23, R45 (step 6). A request that tile t has taken: refused, parked on a fetch, or executed. -/
def homeTake (e : Env) (d : Dp) (t j : Nat) (x : JEntry) : Dp :=
  let i := hIndex x.req.handle
  if capacity e ≤ i then homeRefuse e d t j x .badHandle
  else if mustFetch e d i then park e d t i (.req j x)
  else homeExec e d t 0 j x

/-- R162. A request that tile t has taken, for the stripe of its brick there; a tile without that stripe passes it on to stripe 0. -/
def homeAt (e : Env) (d : Dp) (t j : Nat) (x : JEntry) : Dp :=
  let i := hIndex x.req.handle
  let home := homeOf e i
  let k := t ^^^ home
  if k = 0 then homeTake e d home j x
  else if (stripeOf d i k).isSome then homeExec e d t k j x
  else reqTo e d (.tile t) home j x (fun d => homeTake e d home j x)

/-- A request of joint j for stripe k of its brick (0 for the brick itself). -/
def homeReq (e : Env) (d : Dp) (k j : Nat) (x : JEntry) : Dp :=
  let t := stripeTile e (hIndex x.req.handle) k
  reqTo e d (.joint j) t j x (fun d => homeAt e d t j x)

/-! ### Requests that wait in the net (R22, R68, R374, R376, R430) -/

/-- The first request hod for tile t that may be taken, from place n on. -/
def firstReq (e : Env) (d : Dp) (t : Nat) : List Nat → Option Nat
  | [] => none
  | n :: l =>
    match takeable e d n with
    | none => firstReq e d t l
    | some h => if h.dst == .tile t && h.body.isReq then some n else firstReq e d t l

/-- R22, R68, R374, R382. The tile that request hod n is for takes it, where it takes REQ hods; the router of an unavailable tile answers it FENCED. -/
def takeReq (e : Env) (d : Dp) (n : Nat) : Dp :=
  match takeable e d n with
  | none => d
  | some h =>
    match h.dst, h.body with
    | .tile t, .req j _ x =>
      if unavailable e t then fencedReply e (dropHod d n) t j x.id h.part
      else if tileServes e d t && reqOpen d t then homeAt e (tookHod e (dropHod d n) t .req) t j x
      else d
    | _, _ => d

/-- R22. Tile t takes the request hod that has waited longest. -/
def serveOne (e : Env) (d : Dp) (t : Nat) : Dp :=
  match firstReq e d t (List.range d.net.length) with
  | none => d
  | some n => takeReq e d n

/-- R22. Each tile takes one request hod that waits, in the order of the tiles. -/
def serveTiles (e : Env) (d : Dp) : Dp := (List.range 32).foldl (serveOne e) d

end Sys2Proof.Machine
end

