-- ==== Sys2Proof/Machine/Rings.lean ====
section
/-! DEFINITION. Sys2Proof/Machine/Rings.lean: submission and completion rings (10_rings.md): fetch batches, front-end checks, completions, interrupts, faults and doorbells. -/

namespace Sys2Proof.Machine

/-! ### Units of a ring -/

/-- The first available logical tile from t on, wrapping (R52, R306). -/
def nextAvailable (e : Env) (t : Nat) : Option Nat := ((List.range 32).map (fun k => (t + k) % 32)).find? (fun k => !unavailable e k)

/-- R306. The front-end tile of a ring. -/
def frontTile (e : Env) : RingId → Option Nat
  | .part p r => nextAvailable e ((8 * p.toNat + r.toNat) % 32)
  | .keeper => nextAvailable e 16

/-- R306. The tile at which the front end of a ring stands: it moves only between fetch batches. -/
def frontOf (e : Env) (d : Dp) (r : RingId) : Option Nat :=
  let g := ringOf d r
  if g.ahead.isEmpty then frontTile e r else (g.front.filter (fun t => !unavailable e t)).or (frontTile e r)

/-- Table 12.3. The SRCID of a ring: ring n of an owner. -/
def ringSrc (o : Owner) (n : Nat) : Nat :=
  match o with
  | .part p => 16 * p.toNat + n
  | .keeper => 256 + n

/-- The number of a submission ring in a completion (Table 10.6). -/
def ringNo : RingId → Nat
  | .part _ r => r.toNat
  | .keeper => 0

/-- The partition of a ring's owner. -/
def ownerPart : Owner → Option (BitVec 4)
  | .part p => some p
  | .keeper => none

/-- R460, R461. The translation context of an owner's structures. -/
def ownerCtx : Owner → Nat
  | .part p => p.toNat
  | .keeper => 16

/-- R461. A list or table that a descriptor of ring r names is read; address 0 names none. -/
def readForRing (d : Dp) (r : RingId) (addr : Nat) (len : Nat) : Dp :=
  if addr = 0 || len = 0 then d else memRead d (ownerCtx (ringOwner r)) (BitVec.ofNat 64 addr) len

/-! ### Interrupts (R318, R365) -/

/-- The interrupt line of an owner's completion ring, or of a partition's incident ring. -/
def irqLine : Owner → Bool → Nat
  | .part p, false => 2 + p.toNat
  | .part p, true => 18 + p.toNat
  | .keeper, _ => 1

def winOf (d : Dp) : Owner → Bool → IrqWin
  | .part p, false => (partOf d p).cirq
  | .part p, true => (partOf d p).iirq
  | .keeper, _ => d.kcirq

def setWin (d : Dp) (o : Owner) (incident : Bool) (w : IrqWin) : Dp :=
  match o, incident with
  | .part p, false => setPart d p { partOf d p with cirq := w }
  | .part p, true => setPart d p { partOf d p with iirq := w }
  | .keeper, _ => { d with kcirq := w }

/-- R318. One microsecond of GT. -/
def microsecond : Nat := 16000

/-- One pulse of an owner's line; the keeper's are counted (Table 13.3, instance counter 1). -/
def ownerPulse (e : Env) (d : Dp) (o : Owner) (incident : Bool) : Dp :=
  let d := pulse d (irqLine o incident)
  match o with
  | .part _ => d
  | .keeper => bumpK e d 4 0 1 1

/-- R318. An interrupt: sent at once after a quiet microsecond, else merged and counted. -/
def interrupt (e : Env) (d : Dp) (o : Owner) (incident : Bool) : Dp :=
  let w := winOf d o incident
  let g := gtInterp e
  let quiet := match w.last with | none => true | some t => decide (microsecond ≤ (g - t).toNat)
  if quiet && !w.merged then setWin (ownerPulse e d o incident) o incident { last := some g, merged := false }
  else
    let d := setWin d o incident { w with merged := true }
    match o with
    | .part p => bumpP e d p 14 1
    | .keeper => d

/-- R318. The window ends, and the merged interrupt goes out. -/
def mergeExpiry (e : Env) (d : Dp) (o : Owner) (incident : Bool) : Dp :=
  let w := winOf d o incident
  let g := gtInterp e
  match w.last with
  | some t => if w.merged && decide (microsecond ≤ (g - t).toNat) then setWin (ownerPulse e d o incident) o incident { last := some g, merged := false } else d
  | none => d

/-! ### Completions (R314 to R319) -/

/-- Table 10.6. -/
def Compl.bits (c : Compl) (phase : Bool) : Nat :=
  pack [(0, 32, c.tag.toNat), (32, 8, c.status.code), (40, 8, c.opcode.toNat), (48, 4, c.ring.toNat), (52, 1, b2n phase), (56, 1, b2n c.overdrawn),
    (57, 1, b2n c.hintMoved), (58, 1, b2n c.nopin), (59, 1, b2n c.retried), (64, 16, c.index.toNat), (80, 13, c.count), (96, 32, c.course.toNat),
    (128, 64, c.value.toNat), (192, 32, c.incident.toNat)]

/-- A completion of the descriptor at the head of a ring, with nothing but a status. -/
def mkCompl (d : Dp) (r : RingId) (x : BitVec 512) (st : Status) : Compl :=
  let g := ringOf d r
  { tag := dTag x, status := st, opcode := BitVec.ofNat 8 (dOp x), ring := BitVec.ofNat 4 (ringNo r), overdrawn := false, hintMoved := false
    nopin := false, retried := g.retried, index := BitVec.ofNat 16 (g.head.toNat % ringSize g.cfg), count := 0, course := 0, value := 0, incident := 0
    irq := dIrq x, advance := true }

/-- The ring of a completion that an owner's ring holds. -/
def complRing (o : Owner) (c : Compl) : RingId :=
  match o with
  | .part p => .part p (BitVec.ofNat 3 c.ring.toNat)
  | .keeper => .keeper

/-- R319. The descriptor at the head of a ring is completed; one that stopped its ring stays (R320). -/
def finishDesc (e : Env) (d : Dp) (r : RingId) (c : Compl) : Dp :=
  let g := ringOf d r
  let d := match ringOwner r with | .part p => bumpP e d p 1 1 | .keeper => d
  if c.advance then setRing d r { g with head := g.head + 1, ahead := g.ahead.drop 1, wait := none, fwait := false, targets := [], retried := false }
  else setRing d r { g with wait := none }

/-- R316, R317, R318. A completion is written to a ring with room. -/
def putCompl (e : Env) (d : Dp) (o : Owner) (c : Compl) : Dp :=
  let q := cmplOf d o
  let n := ringSize q.cfg
  let phase := (q.tail.toNat / n) % 2 == 0
  let d := memWrite d (ownerCtx o) (q.cfg.base + BitVec.ofNat 64 (q.tail.toNat % n * 32)) 32 (c.bits phase)
  let d := setCmpl d o { q with tail := q.tail + 1 }
  let d := finishDesc e d (complRing o c) c
  let d := match o with
    | .part p => if c.status.numbered && !(c.status = .access && c.incident = 0) then carry d p c.incident else d
    | .keeper => d
  if c.irq then interrupt e d o false else d

/-- R319. A completion: discarded and counted while its ring is disabled, held while the ring is full or stopped, and else written. -/
def complete (e : Env) (d : Dp) (r : RingId) (c : Compl) : Dp :=
  let o := ringOwner r
  let q := cmplOf d o
  let waiting := fgetD d.held (ownerKey o) []
  match q.state with
  | .disabled =>
    let d := match o with | .part p => bumpP e d p 13 1 | .keeper => d
    finishDesc e d r c
  | _ =>
    if q.state = .running && waiting.isEmpty && decide ((q.tail - q.head).toNat < ringSize q.cfg) then putCompl e d o c
    else
      let g := ringOf d r
      setRing { d with held := fput d.held (ownerKey o) (waiting ++ [c]) } r { g with wait := some .completion }

/-- R319, R322. The oldest held completion of an owner is written once its ring has room or has resumed. -/
def heldWrite (e : Env) (d : Dp) (o : Owner) : Dp :=
  let q := cmplOf d o
  match fgetD d.held (ownerKey o) [] with
  | [] => d
  | c :: rest =>
    if e.stop.stopped then d
    else
      let d2 := { d with held := fput d.held (ownerKey o) rest }
      match q.state with
      | .disabled => finishDesc e (match o with | .part p => bumpP e d2 p 13 1 | .keeper => d2) (complRing o c) c
      | .stopped => d
      | .running => if (q.tail - q.head).toNat < ringSize q.cfg then putCompl e d2 o c else d

/-- R362. A completion whose status an incident accompanies: at once when its unit knows the number, and else when it returns. -/
def completeNumbered (e : Env) (d : Dp) (r : RingId) (src : Source) (key : IncKey) (c : Compl) : Dp :=
  match numberOf d src key with
  | some n => complete e d r { c with incident := n }
  | none =>
    let i := { d.inc with waits := d.inc.waits ++ [(src, key, d.inc.serial)], waitCompl := fput d.inc.waitCompl d.inc.serial (r, c), serial := d.inc.serial + 1 }
    setRing { d with inc := i } r { ringOf d r with wait := some .number }

/-- The completion of a descriptor on a ring with a status and nothing else. -/
def completeWith (e : Env) (d : Dp) (r : RingId) (x : BitVec 512) (st : Status) : Dp := complete e d r (mkCompl d r x st)

/-- Table 13.5, DESC; Table 13.3, 5. The home-tile part of a descriptor completes at tile t. -/
def noteDesc (e : Env) (d : Dp) (t : Nat) (r : RingId) (x : BitVec 512) (h : Dword) (st : Status) : Dp :=
  let d := bumpT e d t 5
  trace e d t (some 1) { TRec.blank 0x02 with gt := tileGt e t, handle := h, tag := dTag x, opcode := BitVec.ofNat 8 (dOp x)
                                              status := BitVec.ofNat 8 st.code, part := some (hPart h), aux := BitVec.ofNat 24 (ringNo r) }

/-! ### Slots that a descriptor waits for (R67) -/

/-- R67. A tile of d2 has promised a slot that is not free yet. -/
def promised (d d2 : Dp) : Bool := d2.tiles.any (fun t => decide (Config.slotsPerTile < t.2.used) && decide ((tileOf d t.1).used < t.2.used))

/-- R67. What the descriptor at the head of ring r makes of d is d2, once every slot that it takes is free: until then its evictions alone go ahead, and it stays where it is (DEDUCED, log 76). -/
def slotsCome (e : Env) (r : RingId) (d d2 : Dp) : Dp :=
  if promised d d2 then
    let d := setRing d r { ringOf d r with wait := none }
    d2.tiles.foldl (fun d t => (t.2.draining.filter (fun i => !(tileOf d t.1).draining.contains i)).foldl (fun d i => drainSlot e d t.1 i) d) d
  else d2

/-! ### The front end (R306, R308) -/

/-- R46. An ACCESS of a ring: the incident, and the completion with its number. -/
def ringAccess (e : Env) (d : Dp) (t : Nat) (r : RingId) (x : BitVec 512) (h : Dword) (c : Compl) : Dp :=
  let o := ringOwner r
  let rep := accessReport e 6 (ringSrc o (ringNo r)) (ownerPart o) h ((ownerPart o).getD 0)
  completeNumbered e (report e d (.tile t) rep) r (.tile t) rep.key { c with tag := dTag x, status := .access }

/-- The partition that a descriptor concerns (Table 10.4, step 6). -/
def descPart (r : RingId) (x : BitVec 512) : BitVec 4 :=
  match r with
  | .part p _ => p
  | .keeper => if dOp x = 0x40 then BitVec.ofNat 4 (dfield x 176 4) else hPart (dHandle x)

/-- Table 10.4, step 5: whether HANDLE names a brick. -/
def namesBrick (x : BitVec 512) : Bool :=
  let op := dOp x
  (decide (0x42 ≤ op) && decide (op ≤ 0x47))
  || ((op == 0x41 || op == 0x48) && (dHandle x != 0 || (dfield x 160 13 == 1 && dfield x 192 64 == 0)))

/-- Table 10.4, steps 2 to 6, on a descriptor of ring r. BRICK_FREE judges its handle after COUNT and LIST_ADDR (R496). -/
def frontCheck (e : Env) (d : Dp) (r : RingId) (x : BitVec 512) : Option Status :=
  let op := dOp x
  match dFields op with
  | none => some .badType
  | some fs =>
    if decide (0x50 ≤ op) && r != .keeper then some .access
    else if !reservedOk x fs then some .badCount
    else
      let named := if namesBrick x then handleFront e (ownerPart (ringOwner r)) (dTypes op) (dHandle x) else none
      match named with
      | some st => if op = 0x41 then (match r with | .part p _ => if suspended d p then some .suspended else none | .keeper => none) else some st
      | none => if decide (op ≤ 0x48) && (op != 0x41 && op != 0x48 || namesBrick x || r != .keeper) && suspended d (descPart r x) then some .suspended else none

/-- The descriptor at the head of a ring that may run now, with the front-end tile. -/
def headDesc (e : Env) (d : Dp) (r : RingId) : Option (Nat × BitVec 512) :=
  let g := ringOf d r
  match g.ahead, frontOf e d r with
  | x :: _, some t => if g.state = .running && g.wait.isNone && tileServes e d t then some (t, x) else none
  | _, _ => none

/-- R404, R61. The home-tile part of the descriptor at the head of a ring goes to tile t as a MGMT hod, once. -/
def descHop (e : Env) (d : Dp) (r : RingId) (t : Nat) : Dp :=
  match frontOf e d r with
  | some a => if a = t || (ringOf d r).wait.isSome then d else mgmtHods e d a t 1 2
  | none => d

/-- R31, Table 12.9. The double-bit error that discards the hod which takes the descriptor to the home tile of the brick that it names, and the errors that still wait. -/
def descError (e : Env) (d : Dp) (r : RingId) (x : BitVec 512) : Option ((Nat × Bool) × List (Nat × Bool)) :=
  let t := homeOf e (hIndex (dHandle x))
  if d.flitErr.isEmpty || !namesBrick x then none
  else
    match frontOf e d r with
    | some a => if a = t then none else takeFirst (fun y => (tileWay e a t).contains y.1 && y.2) d.flitErr
    | none => none

/-- R31, Table 12.9. The descriptor is lost on its way: its ring stands until a reset ends it. -/
def descLost (e : Env) (d : Dp) (r : RingId) (x : BitVec 512) (err : (Nat × Bool) × List (Nat × Bool)) : Dp :=
  let l := tileWay e ((frontOf e d r).getD 0) (homeOf e (hIndex (dHandle x)))
  let d := eccReport e (countPorts e .mgmt 1 2 l { d with flitErr := err.2 }) (err.1.1 / 8) (err.1.1 % 8) .mgmt
  setRing d r { ringOf d r with wait := some .lost }

/-- R308. A descriptor with the opcode of a command, at the head of its ring: refused by the front end, or handed to its effect. -/
def runDesc (e : Env) (d : Dp) (r : RingId) (op : Nat) (k : Nat → BitVec 512 → Dp) : Dp :=
  match headDesc e d r with
  | none => d
  | some (t, x) =>
    if dOp x ≠ op then d
    else
      match frontCheck e d r x with
      | some .access => ringAccess e d t r x (dHandle x) (mkCompl d r x .access)
      | some st => completeWith e d r x st
      | none =>
        match descError e d r x with
        | some y => descLost e d r x y
        | none => k t x

/-- Table 10.4, step 2: descriptors with an undefined opcode at the head of a ring complete BAD_TYPE; n bounds them. -/
def skipUndefined (e : Env) (r : RingId) : Nat → Dp → Dp
  | 0, d => d
  | n + 1, d =>
    match headDesc e d r with
    | none => d
    | some (_, x) => if (dFields (dOp x)).isNone then skipUndefined e r n (completeWith e d r x .badType) else d

/-- After a descriptor's command. -/
def afterDesc (e : Env) (r : RingId) (d : Dp) : Dp := skipUndefined e r 16 d

/-- The tile whose work queue holds a waiting batch of a ring: one that stole it from front-end tile t, else t itself. -/
def batchTile (d : Dp) (r : RingId) (t : Nat) : Option Nat :=
  let l := (d.tiles.filter (fun t => t.2.work.contains (.batch r))).map Prod.fst
  (l.find? (fun u => u != t)).or l.head?

/-- R175. A batch that waits at tile u leaves its work queue; a thief sends what it read to front-end tile t on MGMT, one hod for each descriptor. -/
def takeBatch (e : Env) (d : Dp) (r : RingId) (t n : Nat) : Dp :=
  match batchTile d r t with
  | none => d
  | some u =>
    let x := tileOf d u
    let d := setTile d u { x with work := x.work.erase (.batch r) }
    let d := stillBusy e (stillBusy e d u) t
    if u = t then d else mgmtHods e d u t n (10 * n)

/-- No batch of a ring waits any more. -/
def clearBatches (d : Dp) (r : RingId) : Dp :=
  { d with tiles := d.tiles.map (fun t => (t.1, { t.2 with work := t.2.work.filter (fun w => decide (w ≠ .batch r)) })) }

/-- R306. The front-end tile reads a fetch batch of at most 16 descriptors, all covered by a doorbell; while what is ahead stands at another tile it reads none. -/
def fetchBatch (e : Env) (d : Dp) (r : RingId) (l : List (BitVec 512)) : Dp :=
  let g := ringOf d r
  match frontTile e r with
  | none => d
  | some t =>
    if g.state = .running && frontOf e d r == some t && tileServes e d t && decide (l ≠ [] ∧ l.length ≤ 16 ∧ l.length ≤ (g.tail - g.read).toNat ∧ g.ahead.length + l.length ≤ 16) then
      let d := (List.range l.length).foldl (fun d k =>
        memRead d (ownerCtx (ringOwner r)) (g.cfg.base + BitVec.ofNat 64 ((g.read.toNat + k) % ringSize g.cfg * 64)) 64) d
      let d := takeBatch e d r t l.length
      let g := { g with read := g.read + BitVec.ofNat 32 l.length, ahead := g.ahead ++ l, front := some t }
      afterDesc e r (setRing (if g.read = g.tail then clearBatches d r else d) r g)
    else d

/-! ### Faults (R320 to R322) -/

/-- The key of a ring's XLATE_FAULT. -/
def ringFaultKey (e : Env) (o : Owner) (n : Nat) : IncKey := mkKey e 6 (ringSrc o n) .xlateFault

/-- The XLATE_FAULT report of a ring. -/
def ringFaultReport (e : Env) (o : Owner) (n : Nat) (addr h : Dword) : Report :=
  { mkReport e (ringFaultKey e o n) (ownerPart o) with d0 := addr, d1 := h }

/-- R322. A write to a completion or incident ring faults: the ring stops at its next slot, and what it would take is held. -/
def outFault (e : Env) (d : Dp) (q : OutRingId) (addr : Dword) : Dp :=
  match q with
  | .cmpl o =>
    let x := cmplOf d o
    if x.state = .running && !e.stop.stopped then
      let d := setCmpl d o { x with state := .stopped, index := BitVec.ofNat 16 (x.tail.toNat % ringSize x.cfg) }
      report e d (.tile ((frontTile e (match o with | .part p => .part p 0 | .keeper => .keeper)).getD 0)) (ringFaultReport e o 8 addr 0)
    else d
  | .inc p =>
    let x := incRingOf d p
    if x.state = .running && !e.stop.stopped then
      let d := setIncRing d p { x with state := .stopped, index := BitVec.ofNat 16 (x.tail.toNat % ringSize x.cfg) }
      report e d .alwaysOn (ringFaultReport e (.part p) 9 addr 0)
    else d

/-! ### Doorbells (R301 to R304) -/

/-- R302. The offset of a doorbell's _HI register, as DETAIL0 shows it (Tables 16.3, 16.7). -/
def dbHiOffset : Owner → Nat
  | .part p => 0x100184 + p.toNat * 0x10000
  | .keeper => 0x444

/-- R302. The NOTICE of an ignored doorbell. -/
def doorbellNotice (e : Env) (d : Dp) (o : Owner) (n : Nat) : Dp :=
  let key := match o with
    | .part p => mkKey e 9 p.toNat .config
    | .keeper => mkKey e 0 0 .config
  report e d .regPort { mkReport e key (ownerPart o) with d0 := BitVec.ofNat 64 (dbHiOffset o), d2 := BitVec.ofNat 32 n }

/-- R303. The ERROR of a refused doorbell. -/
def doorbellRefused (e : Env) (d : Dp) (o : Owner) (n : Nat) (count : Word) : Dp :=
  let d := bumpK e d 4 0 3 1
  report e d .regPort { mkReport e (mkKey e 6 (ringSrc o n) .doorbell) (ownerPart o) with d2 := count }

/-- Whether a modular count lies at or after another. -/
def ahead31 (a b : Word) : Bool := decide ((a - b).toNat < 2 ^ 31)

/-- The doorbell count that an owner's window holds (R301). -/
def dbLatch (d : Dp) : Owner → Word
  | .part p => (partOf d p).dbLo
  | .keeper => d.kdbLo

/-- The fetch batches that a doorbell makes wait at the front-end tile (R175, R306). -/
def pushBatches (e : Env) (d : Dp) (r : RingId) (n : Nat) : Dp :=
  match frontTile e r with
  | none => d
  | some t =>
    let x := tileOf d t
    setTile d t { x with work := x.work ++ List.replicate (ceilDiv n 16) (.batch r) }

/-- R306. The front-end tile t of some rings has become unavailable: each reads its batch again from the first descriptor that is not completed and not at its home tile. -/
def rereadRing (e : Env) (t : Nat) (d : Dp) (r : RingId) : Dp :=
  let g := ringOf d r
  if g.front ≠ some t ∨ g.ahead = [] then d
  else
    let n := if g.wait.isSome then 1 else 0
    let d := setRing (clearBatches d r) r { g with ahead := g.ahead.take n, read := g.head + BitVec.ofNat 32 n, front := none }
    pushBatches e d r (g.tail - (g.head + BitVec.ofNat 32 n)).toNat

/-- Every submission ring. -/
def allRings : List RingId :=
  (List.range 16).flatMap (fun p => (List.range 8).map (fun r => RingId.part (BitVec.ofNat 4 p) (BitVec.ofNat 3 r))) ++ [.keeper]

/-- R306. The rings whose front end stands at tile t read again. -/
def rereadRings (e : Env) (d : Dp) (t : Nat) : Dp := allRings.foldl (rereadRing e t) d

/-- R303. Whether a doorbell's COUNT is one that a submission ring takes: the current one, or a later one within the ring. -/
def countTaken (g : SubRing) (count : Word) : Bool :=
  decide (count = g.tail) || (ahead31 count g.tail && decide ((count - g.head).toNat ≤ ringSize g.cfg))

/-- R306. The batches that wait at the front-end tile of a ring follow it as it moves from where it was under e to where it is under e2. -/
def followFront (e e2 : Env) (d : Dp) : Dp :=
  allRings.foldl (fun d r =>
    match frontTile e r, frontTile e2 r with
    | some a, some b =>
      let l := (tileOf d a).work.filter (fun w => decide (w = .batch r))
      if a = b || l.isEmpty then d
      else
        let d := setTile d a { tileOf d a with work := (tileOf d a).work.filter (fun w => decide (w ≠ .batch r)) }
        setTile d b { tileOf d b with work := (tileOf d b).work ++ l }
    | _, _ => d) d

/-- R303, R304, R326, R443. A doorbell to submission ring r: refused whole, or its COUNT applied and then its RESUME. Until READY every ring is found disabled. -/
def ringSubmit (e : Env) (d : Dp) (r : RingId) (resume : Bool) : Dp :=
  let o := ringOwner r
  let g := ringOf d r
  let count := dbLatch d o
  if g.state = .disabled || !e.pwr.ready then doorbellNotice e d o (ringNo r)
  else if !countTaken g count then doorbellRefused e d o (ringNo r) count
  else if resume && g.state = .stopped then
    pushBatches e (setRing (clearBatches d r) r { g with tail := count, state := .running, retried := true }) r (count - g.read).toNat
  else pushBatches e (setRing d r { g with tail := count }) r (if g.state = .stopped then 0 else (count - g.tail).toNat)

/-- R303. Whether a consumer doorbell's COUNT is one that a ring of the engine's takes. -/
def headTaken (x : OutRing) (count : Word) : Bool :=
  decide (count = x.head) || (ahead31 count x.head && decide ((x.tail - count).toNat ≤ ringSize x.cfg))

/-- R303, R304, R322, R326, R443. A consumer doorbell to a ring that the engine writes. -/
def consumed (e : Env) (d : Dp) (o : Owner) (n : Nat) (x : OutRing) (put : Dp → OutRing → Dp) (resume : Bool) : Dp :=
  let count := dbLatch d o
  if x.state = .disabled || !e.pwr.ready then doorbellNotice e d o n
  else if !headTaken x count then doorbellRefused e d o n count
  else put d { x with head := count, state := if resume && x.state = .stopped then .running else x.state }

/-! ### ORDER_FENCE (R311) -/

/-- R311. The target that a fence takes on ring q of partition p. -/
def fenceTarget (d : Dp) (p : BitVec 4) (q : Nat) : Word :=
  let g := ringOf d (.part p (BitVec.ofNat 3 q))
  if g.fwait then g.head else g.tail

/-- R311. Ring q has passed a target. -/
def passed (d : Dp) (p : BitVec 4) (q : Nat) (target : Word) : Bool :=
  let g := ringOf d (.part p (BitVec.ofNat 3 q))
  g.state = .disabled || ahead31 g.head target

/-- R311. ORDER_FENCE at the head of its ring. -/
def orderFence (e : Env) (d : Dp) (r : RingId) (x : BitVec 512) : Dp :=
  let m := dfield x 128 8
  match r with
  | .keeper => completeWith e d r x (if m = 0 then .ok else .badCount)
  | .part p own =>
    let ts := ((List.range 8).filter (fun q => bits m q 1 == 1 && q != own.toNat)).map (fun q => (q, fenceTarget d p q))
    if ts.all (fun t => passed d p t.1 t.2) then completeWith e d r x .ok
    else setRing d r { ringOf d r with wait := some .fence, fwait := true, targets := ts }

/-- R311. The rings have passed the targets. -/
def fencePassed (e : Env) (d : Dp) (r : RingId) : Dp :=
  let g := ringOf d r
  match r, g.ahead with
  | .part p _, x :: _ =>
    if g.wait = some .fence && !e.stop.stopped && g.targets.all (fun t => passed d p t.1 t.2) then
      afterDesc e r (completeWith e (setRing d r { g with wait := none, fwait := false, targets := [] }) r x .ok)
    else d
  | _, _ => d

/-! ### Meanings -/

/-- R306. -/
def execFetchBatch (r : RingId) (l : List (BitVec 512)) (s : State) : Host.Outcome State Fault Refusal :=
  .next { s with dp := fetchBatch s.env s.dp r l }

/-- R322. -/
def execCompletionWriteFault (q : OutRingId) (addr : Dword) (s : State) : Host.Outcome State Fault Refusal :=
  .next { s with dp := outFault s.env s.dp q addr }

/-- R319. -/
def execHeldCompletionWrite (o : Owner) (s : State) : Host.Outcome State Fault Refusal := .next { s with dp := heldWrite s.env s.dp o }

/-- R318. -/
def execIrqMergeExpiry (o : Owner) (incident : Bool) (s : State) : Host.Outcome State Fault Refusal :=
  .next { s with dp := mergeExpiry s.env s.dp o incident }

/-- R313. -/
def execNop (r : RingId) (s : State) : Host.Outcome State Fault Refusal :=
  .next { s with dp := afterDesc s.env r (runDesc s.env s.dp r 0x49 (fun _ x => completeWith s.env s.dp r x .ok)) }

/-- R311. -/
def execOrderFence (r : RingId) (s : State) : Host.Outcome State Fault Refusal :=
  .next { s with dp := afterDesc s.env r (runDesc s.env s.dp r 0x4A (fun _ x => orderFence s.env s.dp r x)) }

/-- R311. -/
def execOrderFencePassed (r : RingId) (s : State) : Host.Outcome State Fault Refusal := .next { s with dp := fencePassed s.env s.dp r }

end Sys2Proof.Machine
end

