-- ==== Sys2Proof/Machine/Alloc.lean ====
section
/-! DEFINITION. Sys2Proof/Machine/Alloc.lean: the allocator and the snapshot (02_bricks.md, R312): BRICK_ALLOC, BRICK_FREE, SNAPSHOT, and the end of a brick. -/

namespace Sys2Proof.Machine

/-! ### The allocator (R43, R50 to R53, R69, R70) -/

/-- R43. The generation that an allocation issues. -/
def nextGen (g : BitVec 8) : BitVec 8 := if g = 255#8 then 1 else g + 1

/-- R41. The body of a freshly allocated brick. -/
def bodyInit : BType → Body
  | .barrier => .barrier Barrier.init
  | .semaphore => .semaphore { count := 0, queue := [] }
  | .lock => .lock { held := false, abandoned := false, hprio := 0, eprio := 0, hagent := 0, hgang := 0, grants := 0, queue := [] }
  | .pallet => .pallet
  | .event => .event { set := false, sets := 0, waitj := [] }

/-- The least index from i on, of n, that is not in a rising list and passes p. -/
def leastFree (p : Nat → Bool) : Nat → Nat → List Nat → Option Nat
  | 0, _, _ => none
  | n + 1, i, [] => if p i then some i else leastFree p n (i + 1) []
  | n + 1, i, k :: l => if i = k then leastFree p n (i + 1) l else if p i then some i else leastFree p n (i + 1) (k :: l)

/-- R50 to R52. The index that has been free longest, on a wanted tile or on any available one. Every 32 consecutive indices name every home, so the scan is bounded. -/
def pickIndex (e : Env) (touched freed : List Nat) (want : Option Nat) : Option Nat :=
  let ok := fun i => decide (i < capacity e) && (match want with | some t => homeOf e i == t | none => !unavailable e (homeOf e i))
  match leastFree ok (32 * (touched.length + 2)) 0 touched with
  | some i => some i
  | none => freed.find? ok

/-- The indices of n bricks. -/
def pickMany (e : Env) (want : Option Nat) : Nat → List Nat → List Nat → Option (List Nat)
  | 0, _, _ => some []
  | n + 1, touched, freed =>
    match pickIndex e touched freed want with
    | none => none
    | some i => (pickMany e want n (setInsert i touched) (freed.filter (fun k => k != i))).map (fun l => i :: l)

/-- What the bricks of one BRICK_ALLOC share (R55). -/
structure AllocReq where
  typ : BType
  part : BitVec 4
  group : BitVec 8
  pin : Bool
  mirrored : Bool
  deriving DecidableEq, Repr

/-- R55, R69, R70, R72, R73. One brick created at index i: its handle and whether PIN was not granted; none where the held limit refuses a mirrored brick (R71), and, DESIGN CHOICE (log 46), where one of its two tiles has no slot that is free or evictable. A brick without a slot is in the backing store only. -/
def createBrick (e : Env) (d : Dp) (a : AllocReq) (i : Nat) : Option (Dp × Dword × Bool) :=
  let t := homeOf e i
  let full := !heldRoom e d t
  let m := if a.mirrored then mirrorFor e d t else none
  let g := nextGen (brickOf d i).gen
  let nopin := a.pin && !a.mirrored && full
  let b : Brick := { valid := true, typ := a.typ, pin := a.pin && !nopin, mirrored := a.mirrored, gen := g, part := a.part, group := a.group
                     mirror := m.getD 0, lost := none, body := bodyInit a.typ }
  let h := mkHandle e a.part i g a.typ
  let d1 := { setBrick d i b with touched := setInsert i d.touched, freed := d.freed.filter (fun k => k != i) }
  match a.mirrored, m with
  | true, some mt =>
    if full || !heldRoom e d mt then none
    else
      match takeSlot e d1 t (.brick i) with
      | none => none
      | some d2 =>
        (takeSlot e d2 mt (.mirror i 0)).map (fun d3 =>
          ({ d3 with mirCopies := fput d3.mirCopies (stripeKey i 0) { tile := mt, runs := [], copy := b, stripe := none } }, h, false))
  | true, none => none
  | false, _ =>
    match takeSlot e d1 t (.brick i) with
    | some d2 => some (d2, h, nopin)
    | none => some (d1, h, nopin)

/-- The bricks of a BRICK_ALLOC, created in turn. -/
def createMany (e : Env) (a : AllocReq) : List Nat → Dp → Option (Dp × List Dword × Bool)
  | [], d => some (d, [], false)
  | i :: l, d =>
    match createBrick e d a i with
    | none => none
    | some (d, h, np) => (createMany e a l d).map (fun r => (r.1, h :: r.2.1, np || r.2.2))

/-- R50. The tile that a hint names: none for kind 0. -/
def hintTile (e : Env) (kind hint : Nat) : Option Nat :=
  if kind = 1 then some hint
  else if kind = 2 then
    let cost := fun t => hops (jointRouter e hint) (tileRouter e t)
    some ((List.range 32).foldl (fun best t => if cost t < cost best then t else best) 0)
  else none

/-- R496, checks 1 and 2. -/
def allocParams (e : Env) (r : RingId) (x : BitVec 512) : Option Status :=
  let count := dfield x 160 13
  let kind := dfield x 133 3
  let hint := dfield x 144 7
  let addr := dfield x 192 64
  if 4 < dfield x 128 3 then some .badType
  else if count > 4096 || kind > 2 || (kind == 0 && hint != 0) || (kind == 1 && hint ≥ 32) || (kind == 2 && !implemented e hint)
      || (r != .keeper && dfield x 176 4 != 0) || addr % 8 != 0 || (count > 1 && addr == 0) then some .badCount
  else none

/-- R496, checks 4 to 6. What BRICK_ALLOC with COUNT above 0 allocates: the state after it, the handles in order, OVERDRAWN, HINT_MOVED and NOPIN; or the status of the first check that fails. DESIGN CHOICE (log 46): QUOTA where no index on an available tile is free. -/
def allocTry (e : Env) (d : Dp) (r : RingId) (x : BitVec 512) : Except Status (Dp × List Nat × List Dword × Bool × Bool × Bool) :=
  let count := dfield x 160 13
  let p := descPart r x
  let a : AllocReq := { typ := (BType.ofCode (dfield x 128 3)).getD .barrier, part := p, group := BitVec.ofNat 8 (dfield x 136 8)
                        pin := x.getLsbD 131, mirrored := x.getLsbD 132 }
  match chargeB e d p (if a.mirrored then 2 * count else count) with
  | none => .error .quota
  | some (d1, od) =>
    let hinted := hintTile e (dfield x 133 3) (dfield x 144 7)
    let want := hinted.bind (nextAvailable e)
    match (if hinted.isSome && want.isNone then none else pickMany e want count d1.touched d1.freed) with
    | none => .error .quota
    | some is =>
      if a.mirrored && is.any (fun i => (mirrorFor e d1 (homeOf e i)).isNone) then .error .badType
      else
        match createMany e a is d1 with
        | none => .error .busy
        | some (d2, hs, np) => .ok (d2, is, hs, od, hinted.isSome && want != hinted, np)

/-- R69. The record of a new brick i that no slot holds goes to the backing store. -/
def storeNew (e : Env) (d : Dp) (i : Nat) : Dp := let t := homeOf e i; if resident d t (.brick i) then d else writeBack e d t i

/-- R54 to R58, R67, R496. BRICK_ALLOC. The handle list is written before a record with VALID 1 is. -/
def brickAlloc (e : Env) (d : Dp) (r : RingId) (x : BitVec 512) : Dp :=
  let count := dfield x 160 13
  let addr := BitVec.ofNat 64 (dfield x 192 64)
  let refuse := fun (st : Status) => completeWith e d r x st
  match allocParams e r x with
  | some st => refuse st
  | none =>
    if count = 0 then refuse .ok
    else
      match allocTry e d r x with
      | .error st => refuse st
      | .ok (d2, is, hs, od, moved, np) =>
        let d2 := is.zip hs |>.foldl (fun d q => noteDesc e (descHop e d r (homeOf e q.1)) (homeOf e q.1) r x q.2 .ok) d2
        let d2 := if addr = 0 then d2 else memWrite d2 (ownerCtx (ringOwner r)) addr (8 * count) (leWords 64 (hs.map BitVec.toNat))
        let d2 := is.foldl (storeNew e) d2
        slotsCome e r d (complete e d2 r { mkCompl d2 r x .ok with overdrawn := od, hintMoved := moved, nopin := np, count := count, value := (hs.head?).getD 0 })

/-! ### The end of a brick (R60, R61, R146) -/

/-- The response to a waiter of brick i. -/
def endResp (st : Status) (course : Word) : Resp := Resp.at st course

/-- The hods that end the waits of a lock, semaphore or event with a status. DESIGN CHOICE (log 59): the holder of a raised lock that is lost with its tile is told its own priority again, as at a forced free (R146). -/
def endHods (e : Env) (i : Nat) (b : Brick) (st : Status) : List Hod :=
  let t := homeOf e i
  let h := brickHandle e i b
  match b.body with
  | .lock l => qHods t b h l.restore ++ l.queue.map (fun w => replyHod t w.joint w.entry b.part (endResp st l.grants))
  | .semaphore s => s.queue.map (fun w => replyHod t w.joint w.entry b.part (endResp st (BitVec.ofNat 32 s.count)))
  | .event v => evtHods t i b h v.waitj v.sets st
  | .barrier x => (x.watch.filterMap id).map (fun j => mkHod (.tile t) (.joint j) .rsp b.part (.watcher (endRel i h x.course st)))
  | .pallet => []

/-- The hods that end the puts and gets that stripe k of pallet i holds. -/
def endStripe (e : Env) (d : Dp) (i k : Nat) (b : Brick) (s : Stripe) (st : Status) : List Hod :=
  let t := stripeTile e i k
  let h := brickHandle e i b
  let r : Resp := { Resp.plain st with course := palCourse s.depth s.k s.log2s 0 false }
  (s.writing.toList ++ s.putq).map (fun p => replyHod t p.joint p.entry b.part r)
    ++ s.getq.map (fun g => replyHod t g.joint g.entry b.part r)
    ++ s.waitj.filterMap (fun j => ((jointOf d j).fwdWaits.find? (fun p => p.1 == h)).map (fun p => replyHod t j p.2 b.part r))

/-- The stripes of pallet i. -/
def stripeList (d : Dp) (i : Nat) : List (Nat × Stripe) := (List.range 8).filterMap (fun k => (stripeOf d i k).map (fun s => (k, s)))

/-- Every hod that ends what waits on brick i. -/
def allEndHods (e : Env) (d : Dp) (i : Nat) (b : Brick) (st : Status) : List Hod :=
  endHods e i b st ++ (stripeList d i).flatMap (fun q => endStripe e d i q.1 b q.2 st)

/-- R61, R103. The bed of a freed barrier goes at joint j: its waits end with a status and the record's COURSE, its arrivals are discarded and counted. -/
def endBed (e : Env) (st : Status) (h : Dword) (course : Word) (d : Dp) (j : Nat) : Dp :=
  let d := match bedFor d j h with
    | none => d
    | some b =>
      let d := answerMany e d j (pendingWaits d j h) (fun _ => Resp.at st course)
      discardArrivals e d j ((b.members.map (fun m => (m.a - m.f) + m.b)).sum)
  dropBed (dropBed d j h false) j h true

/-- R61. A freed barrier's beds and router entries. -/
def endBeds (e : Env) (d : Dp) (i : Nat) (b : Brick) (st : Status) : Dp :=
  let h := brickHandle e i b
  let js := ((bedJoints d h false) ++ (bedJoints d h true)).foldl (fun l j => setInsert j l) []
  let course := match b.body with | .barrier x => x.course | _ => 0
  dropTree (dropTree (js.foldl (endBed e st h course) d) i false) i true

/-- R252. The lintel record and child table of brick i go, with their charges. -/
def dropLintel (e : Env) (d : Dp) (i : Nat) (p : BitVec 4) : Dp :=
  match fget d.lintels i with
  | none => d
  | some l =>
    let t := homeOf e i
    let d := if l.ctv then refundG (unbindRun d t l.ctBase 33) p 33 else d
    refundB { dropSlot d t (.lintel i) with lintels := fdel d.lintels i } p 1

/-- The slots and granules of a pallet's stripes go (R157); the brick's own slot, with its mirror's, stays for stripe 0. -/
def dropStripes (e : Env) (d : Dp) (i : Nat) (b : Brick) : Dp :=
  let l := stripeList d i
  let x := if b.mirrored then 2 else 1
  let d := l.foldl (fun d q =>
    let t := stripeTile e i q.1
    let d := dropRefill e (if q.2.lost.isSome then d else unbindRun d t q.2.base 9) i q.1
    let d := dropSlot d t (.stripe i q.1)
    let d := match fget d.mirCopies (stripeKey i q.1) with
      | some m =>
        let d := unbindRuns d m.tile m.runs
        if q.1 = 0 then { d with mirCopies := fput d.mirCopies (stripeKey i 0) { m with runs := [], stripe := none } }
        else { dropSlot d m.tile (.mirror i q.1) with mirCopies := fdel d.mirCopies (stripeKey i q.1) }
      | none => d
    { d with stripes := fdel d.stripes (stripeKey i q.1) }) d
  if l.isEmpty then d else refundG (refundB d b.part (x * (l.length - 1))) b.part (x * 9 * l.length)

/-- R61. The slot, granules, mirror copy and charges of brick i go; VALID clears and GEN stays. The record that says so goes to the backing store before the slot is used again (R67). A tombstone's granules and slots went with its tile. -/
def dropBrick (e : Env) (d : Dp) (i : Nat) : Dp :=
  let b := brickOf d i
  let t := homeOf e i
  let d := dropStripes e d i b
  let d := dropLintel e d i b.part
  let d := match b.body with
    | .barrier x => freeRuns e d i b x
    | _ => d
  let d := match fget d.mirCopies (stripeKey i 0) with
    | some m => { dropSlot (unbindRuns d m.tile m.runs) m.tile (.mirror i 0) with mirCopies := fdel d.mirCopies (stripeKey i 0) }
    | none => d
  let there := resident d t (.brick i) && b.lost.isNone
  let d := refundB d b.part (if b.mirrored then 2 else 1)
  let d := { setBrick d i { b with valid := false, lost := none, body := bodyInit b.typ } with freed := d.freed ++ [i] }
  if there then drainSlot e d t i else dropSlot d t (.brick i)

/-- R60. Whether a brick that is freed without FORCE is idle: no waiter, holder, arrival in the open course, token, or held or queued put. -/
def idleBrick (e : Env) (d : Dp) (i : Nat) (b : Brick) : Bool :=
  match b.body with
  | .lock l => !l.held && l.queue.isEmpty
  | .semaphore s => s.queue.isEmpty
  | .event v => v.waitj.isEmpty
  | .barrier x =>
    let h := brickHandle e i b
    x.count == 0 && (x.watch.filterMap id).isEmpty && (bedJoints d h false).all (fun j =>
      (pendingWaits d j h).isEmpty && (match bedFor d j h with | some y => y.members.all (fun m => m.a == 0) | none => true))
  | .pallet => (stripeList d i).all (fun q => q.2.depth == 0 && q.2.waitj.isEmpty && q.2.getq.isEmpty && q.2.writing.isNone && q.2.putq.isEmpty)

/-- R61, R74. A change of brick i waits for its mirror's acknowledgement: the operations that the tile took before a free end first. -/
def mirrorOut (d : Dp) (i : Nat) : Bool := d.mirUpds.any (fun u => u.index == i)

/-- R60, R61, R146, R261. Brick i is freed: what its home has done before is answered, what waits on it ends BAD_HANDLE, and it goes. -/
def freeBrick (e : Env) (d : Dp) (i : Nat) : Dp :=
  let b := brickOf d i
  let d := match b.body with
    | .barrier _ => collectSweep e d i true
    | _ => d
  let d := sendAll e (allEndHods e d i b .badHandle) d
  let d := endBeds e d i b .badHandle
  let d := match b.body with
    | .barrier x => sendUp e d i (HodRec.blank 3 0 (x.course + 1))
    | _ => d
  dropBrick e d i

/-- Table 2.3 on one handle of a list, for ring r; `held` says that step 6 of Table 10.4 found its partition suspended. -/
def listHandleAt (e : Env) (d : Dp) (r : RingId) (types : List BType) (held : Bool) (h : Dword) : Option Status :=
  match handleFront e (ownerPart (ringOwner r)) types h with
  | some st => some st
  | none =>
    if held then some .suspended
    else
      let i := hIndex h
      let b := brickOf d i
      if capacity e ≤ i then some .badHandle
      else if !(b.valid && b.gen == hGen h && b.part == hPart h) then some .badHandle
      else if (hType h).toNat ≠ b.typeCode then some .badType
      else none

/-- Table 2.3 on one handle of a list, for ring r. -/
def listHandle (e : Env) (d : Dp) (r : RingId) (types : List BType) (h : Dword) : Option Status := listHandleAt e d r types (suspended d (hPart h)) h

/-- How the frees of a list end: with the status of the last handle, or at one whose brick must be fetched first (R45), with what is left of the list. -/
inductive FreeEnd
  | stop (st : Status) (h : Dword)
  | fetch (i : Nat) (left : List (Dword × Bool))
  deriving DecidableEq, Repr

/-- R45. A handle of a list whose brick its home tile must fetch before steps 6 to 9 of Table 2.3. -/
def mustFetchFor (e : Env) (d : Dp) (r : RingId) (h : Dword) (held : Bool) : Bool :=
  let i := hIndex h
  (handleFront e (ownerPart (ringOwner r)) (dTypes 0x41) h).isNone && !held && !unavailable e (homeOf e i) && mustFetch e d i

/-- R45, R59, R60, R380. The frees of a list, in order, until the first refusal; the handle that ACCESS refuses is kept for its report. Bricks of an unavailable tile are freed like others. With each handle stands whether its partition was suspended as the descriptor began: a descriptor that has begun takes effect whole (R333, R500). -/
def freeList (e : Env) (r : RingId) (x : BitVec 512) (force : Bool) : List (Dword × Bool) → Nat → Dp → Dp × Nat × FreeEnd
  | [], n, d => (d, n, .stop .ok 0)
  | (h, held) :: l, n, d =>
    let i := hIndex h
    if mustFetchFor e d r h held then (d, n, .fetch i ((h, held) :: l))
    else
      match listHandleAt e d r (dTypes 0x41) held h with
      | some st => (d, n, .stop st h)
      | none =>
        let b := brickOf d i
        if b.lost.isNone && !force && !idleBrick e d i b then (d, n, .stop .busy h)
        else freeList e r x force l (n + 1) (noteDesc e (freeBrick e (descHop e d r (homeOf e i)) i) (homeOf e i) r x h .ok)

/-- BRICK_FREE and SNAPSHOT: COUNT, HANDLE and LIST_ADDR together (Table 2.12, Table 10.11). -/
def listParams (x : BitVec 512) : Option Status :=
  let count := dfield x 160 13
  let addr := dfield x 192 64
  if count > 4096 || addr % 8 != 0 || (addr != 0 && dHandle x != 0) || (count > 1 && addr == 0) then some .badCount else none

/-- The handles that the descriptor names: HANDLE, or the list read at LIST_ADDR. -/
def listOf (x : BitVec 512) (l : List Dword) : List Dword := if dfield x 192 64 = 0 then [dHandle x] else l

/-- The source and key of the incident that a FENCED or LOST refusal of handle h accompanies (R235). -/
def refusalKey (e : Env) (d : Dp) (h : Dword) (st : Status) : Option (Source × IncKey) :=
  let t := homeOf e (hIndex h)
  let k := if st = .lost then (brickOf d (hIndex h)).lost else if st = .fenced then (tileOf d t).unavailInc else none
  k.map (fun k => (.tile t, k))

/-- The completion of a list of handles: with the number of the incident where its last status has one. -/
def listDone (e : Env) (d : Dp) (t : Nat) (r : RingId) (x : BitVec 512) (h : Dword) (st : Status) (c : Compl) : Dp :=
  if st = .access then ringAccess e d t r x h c
  else
    match refusalKey e d h st with
    | some (src, k) => completeNumbered e d r src k c
    | none => complete e d r c

/-- R45, R59 to R61. BRICK_FREE. It waits for the fetch of a brick that is not resident, behind the operations parked there, and goes on with what is left of its list (`held` says of which handles the partition was suspended as it began); and for the mirrors of its bricks. -/
def brickFree (e : Env) (d : Dp) (t : Nat) (r : RingId) (x : BitVec 512) (list : List Dword) (held : List Byte := []) : Dp :=
  let count := dfield x 160 13
  match listParams x with
  | some st => completeWith e d r x st
  | none =>
    if count = 0 then completeWith e d r x .ok
    else
      let l := listOf x list
      let again := decide ((ringOf d r).wait = some .fetch)
      if count < l.length || (!again && decide (l.length < count)) then d
      else if !again && l.any (fun h => let k := homeOf e (hIndex h); (!unavailable e k && !tileServes e d k) || mirrorOut d (hIndex h)) then d
      else
        let d := if again then d else readForRing d r (dfield x 192 64) (8 * count)
        let l := if again then l.zip (held.map (fun b => b != 0)) else l.map (fun h => (h, suspended d (hPart h)))
        match freeList e r x (x.getLsbD 128) l (count - l.length) (setRing d r { ringOf d r with wait := none }) with
        | (d, _, .fetch i left) =>
          park e (setRing d r { ringOf d r with wait := some .fetch }) (homeOf e i) i (.desc r (if dfield x 192 64 = 0 then [] else left.map Prod.fst) (left.map (fun q => if q.2 then 1 else 0)))
        | (d, n, .stop st h) => listDone e d t r x h st { mkCompl d r x st with count := n }

/-! ### SNAPSHOT (R312) -/

/-- R312, R378. The record of brick i as memory holds it. -/
def recordOf (d : Dp) (i : Nat) : Nat := (brickOf d i).record (stripeOf d i 0)

/-- R312. The records of a list, until the first refusal. -/
def snapList (e : Env) (r : RingId) (x : BitVec 512) (dest : Dword) : List Dword → Nat → Dp → Dp × Nat × Status × Dword
  | [], n, d => (d, n, .ok, 0)
  | h :: l, n, d =>
    match listHandle e d r (dTypes 0x48) h with
    | some st => (d, n, st, h)
    | none =>
      let i := hIndex h
      let t := homeOf e i
      if unavailable e t then (d, n, .fenced, h)
      else if (brickOf d i).lost.isSome then (d, n, .lost, h)
      else
        let d := memWrite (descHop e d r t) (ownerCtx (ringOwner r)) (dest + BitVec.ofNat 64 (64 * n)) 64 (recordOf d i)
        snapList e r x dest l (n + 1) (noteDesc e d t r x h .ok)

/-- SNAPSHOT: the list's parameters, and DEST_ADDR (Table 10.11). -/
def snapParams (x : BitVec 512) : Option Status :=
  let dest := dfield x 256 64
  match listParams x with
  | some st => some st
  | none => if dfield x 160 13 > 0 && (dest == 0 || dest % 64 != 0) then some .badCount else none

/-- R312. SNAPSHOT. -/
def snapshotDesc (e : Env) (d : Dp) (t : Nat) (r : RingId) (x : BitVec 512) (list : List Dword) : Dp :=
  let count := dfield x 160 13
  let dest := dfield x 256 64
  match snapParams x with
  | some st => completeWith e d r x st
  | none =>
    if count = 0 then completeWith e d r x .ok
    else
      let l := listOf x list
      if l.length ≠ count then d
      else if l.any (fun h => let k := homeOf e (hIndex h); !unavailable e k && !tileServes e d k) then d
      else
        let (d, n, st, h) := snapList e r x (BitVec.ofNat 64 dest) l 0 (readForRing d r (dfield x 192 64) (8 * count))
        listDone e d t r x h st { mkCompl d r x st with count := n }

/-! ### Meanings -/

/-- R55. -/
def execBrickAlloc (r : RingId) (s : State) : Host.Outcome State Fault Refusal :=
  .next { s with dp := afterDesc s.env r (runDesc s.env s.dp r 0x40 (fun _ x => brickAlloc s.env s.dp r x)) }

/-- R59. -/
def execBrickFree (r : RingId) (list : List Dword) (s : State) : Host.Outcome State Fault Refusal :=
  .next { s with dp := afterDesc s.env r (runDesc s.env s.dp r 0x41 (fun t x => brickFree s.env s.dp t r x list)) }

/-- R312. -/
def execSnapshot (r : RingId) (list : List Dword) (s : State) : Host.Outcome State Fault Refusal :=
  .next { s with dp := afterDesc s.env r (runDesc s.env s.dp r 0x48 (fun t x => snapshotDesc s.env s.dp t r x list)) }

end Sys2Proof.Machine
end

