-- ==== Sys2Proof/Machine/Descs.lean ====
section
/-! DEFINITION. Sys2Proof/Machine/Descs.lean: the descriptors that act on one brick: BARRIER_ARM, BOND_SET, GROUT_CFG, WEIGHT_LOAD, LINTEL_LINK and PALLET_CFG. -/

namespace Sys2Proof.Machine

/-! ### A descriptor at its home tile -/

/-- R383, R235. A descriptor whose tile is unavailable completes FENCED, with the number of the incident that made it so. -/
def fencedDesc (e : Env) (d : Dp) (r : RingId) (x : BitVec 512) (t : Nat) (count : Nat := 0) : Dp :=
  let c := { mkCompl d r x .fenced with count := count }
  match (tileOf d t).unavailInc with
  | some k => completeNumbered e d r (.tile t) k c
  | none => complete e d r c

/-- R308, R45 (steps 6 to 8), R378. A descriptor that names one brick, at its home tile: refused, parked on a fetch, or run. -/
def withBrick (e : Env) (d : Dp) (r : RingId) (x : BitVec 512) (list : List Dword) (table : List Byte) (k : Dp → Brick → Dp) : Dp :=
  let h := dHandle x
  let i := hIndex h
  let t := homeOf e i
  if unavailable e t then fencedDesc e d r x t
  else if !tileServes e d t then d
  else if capacity e ≤ i then completeWith e d r x .badHandle
  else if mustFetch e d i then
    let d := descHop e d r t
    park e (setRing d r { ringOf d r with wait := some .fetch }) t i (.desc r list table)
  else
    let b := brickOf d i
    let d := descHop e d r t
    if !(b.valid && b.gen == hGen h && b.part == hPart h) then completeWith e d r x .badHandle
    else if (hType h).toNat ≠ b.typeCode then completeWith e d r x .badType
    else
      match b.lost with
      | some key => completeNumbered e d r (.tile t) key (mkCompl d r x .lost)
      | none => k (touchSlot d t (.brick i) true) b

/-- The home-tile part of a descriptor ends with a completion. -/
def descDone (e : Env) (d : Dp) (r : RingId) (x : BitVec 512) (c : Compl) : Dp :=
  complete e (noteDesc e d (homeOf e (hIndex (dHandle x))) r x (dHandle x) c.status) r c

def descStatus (e : Env) (d : Dp) (r : RingId) (x : BitVec 512) (st : Status) : Dp := descDone e d r x (mkCompl d r x st)

/-- The joints with a bed of handle h, in force or waiting. -/
def allBedJoints (d : Dp) (h : Dword) : List Nat := ((bedJoints d h false) ++ (bedJoints d h true)).foldl (fun l j => setInsert j l) []

/-- Every bed of handle h becomes f of it. -/
def mapBeds (d : Dp) (h : Dword) (f : Bed → Bed) : Dp :=
  { d with joints := d.joints.map (fun j => (j.1, { j.2 with beds := j.2.beds.map (fun b => if b.handle = h then f b else b) })) }

/-- R118. The beds of a barrier that is armed: an end of its waits sent earlier leaves no mark on them. -/
def armBeds (d : Dp) (h : Dword) (f : Bed → Bed) : Dp := { mapBeds d h (fun b => { f b with since := d.seq }) with seq := d.seq + 1 }

/-- A bed without counts (Table 3.3). -/
def Bed.clear (b : Bed) : Bed :=
  { b with poisoned := none, heldPay := [], last := none, nextLast := none, members := b.members.map (fun m => { m with a := 0, b := 0, f := 0 }) }

/-! ### BARRIER_ARM (R94) -/

/-- The parameters of BARRIER_ARM. -/
def armVals (x : BitVec 512) : ArmVals :=
  { deadline := BitVec.ofNat 24 (dfield x 128 24), stagger := BitVec.ofNat 8 (dfield x 152 8), depart := x.getLsbD 160, release := BitVec.ofNat 2 (dfield x 161 2) }

/-- R92. The barrier after its waiting bond, if any, has taken effect outside a boundary. -/
def Barrier.rebond (y : Barrier) : Barrier :=
  match y.shBond with
  | some nb => { y with expect := nb.expect, bond := some nb, shBond := none, left := [], leaving := [], nextDelta := 0, measure := 2 }
  | none => y

/-- Table 3.3, bonded and not armed. -/
def armFirst (e : Env) (d : Dp) (i : Nat) (b : Brick) (y : Barrier) (v : ArmVals) : Dp :=
  let y := { y with arm := v, armed := true, count := 0, expired := false }
  let y := { y with grout := y.grout.map (Grout.fresh y (goneOf d i)) }
  let d := armBeds (setBarrier d i y) (brickHandle e i b) (fun c => { c.clear with armed := true })
  { d with comb := d.comb.map (fun c => if c.index = i && !c.waiting then { c with before := 0, got := 0, acc := none, course := y.course + 1 } else c) }

/-- Table 3.3, POISONED: the barrier is armed, whether it was or not (log 68), a waiting bond and a waiting grout configuration take effect, and every count is cleared. -/
def armPoisoned (e : Env) (d : Dp) (i : Nat) (b : Brick) (y : Barrier) (v : ArmVals) : Dp :=
  let h := brickHandle e i b
  let switch := y.shBond.isSome
  let gone := goneOf d i
  let y1 := { y.rebond with arm := v, shArm := none, armed := true, poisoned := false, poisonInc := none, count := 0, ahead := 0, dlAt := 0, expired := false }
  let res := (y.grout.map (fun g => g.result)).getD []
  let fl := (y.grout.map (fun g => g.resFlags)).getD 0
  let cum := (y.grout.map (fun g => g.cum)).getD 0
  let grout := match y.shRun with
    | some r => r.install y1 gone res fl cum
    | none => y1.grout.map (Grout.fresh y1 gone)
  let d := match y.shRun, y.grout with
    | some r, some g => switchRun e d i b g.run r
    | _, _ => d
  let y2 := { y1 with grout := grout, shRun := none }
  let d := setBarrier d i y2
  let rel : Rel := { endRel i h y.course y.lastStatus with gflags := fl, beats := toBeats res, removeBed := switch, bond := (y.shBond.map Bond.made).getD 0 }
  let d := if switch then (allBedJoints d h).foldl (fun d j => switchBed e d j rel (bedFor d j h) (rel.next d j)) d else d
  let d := armBeds d h (fun c => { c.clear with armed := true, cfg := y2.cfg, cfgWaits := false })
  let d := if switch then dropTree d i false else d
  let d := { d with comb := d.comb.map (fun c => if c.index = i then { c with waiting := false, before := 0, got := 0, acc := none, course := y.course + 1 } else c) }
  match fget d.lintels i with
  | some l => { d with lintels := fput d.lintels i { l with seen := 0, seenNext := 0, upwait := false, upPay := none } }
  | none => d

/-- R94, Table 3.3. BARRIER_ARM. -/
def barrierArm (e : Env) (d : Dp) (r : RingId) (x : BitVec 512) : Dp :=
  let v := armVals x
  if v.release = 3#2 then completeWith e d r x .badCount
  else
    withBrick e d r x [] [] (fun d b =>
      let i := hIndex (dHandle x)
      match b.body with
      | .barrier y =>
        if !y.bonded then descStatus e d r x .badCount
        else
          let d := if y.poisoned then armPoisoned e d i b y v
            else if y.armed then setBarrier d i { y with shArm := some v }
            else armFirst e d i b y v
          let d := setBrick d i (brickOf d i).shadowWritten
          descDone e (emitNone e d (homeOf e i) i 0) r x { mkCompl d r x .ok with course := y.course + 1 }
      | _ => d)

/-! ### BOND_SET (R86 to R92) -/

/-- Table 3.2. -/
def bondMember (w : Dword) : Member := { agent := bits w.toNat 0 10, gangs := bits w.toNat 16 7, wave := bits w.toNat 24 3 }

/-- Table 3.2. The reserved bits of an entry are zero. -/
def bondEntryOk (w : Dword) : Bool := bits w.toNat 10 6 == 0 && bits w.toNat 23 1 == 0 && bits w.toNat 27 37 == 0

/-- R89. The members in ascending agent number. -/
def insertMember (m : Member) : List Member → List Member
  | [] => [m]
  | k :: l => if m.agent < k.agent then m :: k :: l else k :: insertMember m l

/-- R86. EXPECT of a bond. -/
def bondExpect (ms : List Member) (lchild : Nat) : Nat := lchild + (ms.map Member.gangs).sum

/-- R86, R128. The parameters of BOND_SET. -/
def bondParams (x : BitVec 512) : Option Status :=
  let entries := dfield x 128 11
  let lchild := dfield x 144 7
  let addr := dfield x 192 64
  if entries > 1024 || lchild > 64 || (entries == 0 && lchild == 0) || (entries > 0 && (addr == 0 || addr % 8 != 0)) then some .badCount else none

/-- R88. The checks of a bond list, for a brick of partition p. -/
def bondListCheck (e : Env) (d : Dp) (p : BitVec 4) (l : List Dword) (lchild : Nat) : Option Status :=
  let ms := l.map bondMember
  if !(l.all bondEntryOk) || !(ms.all (fun m => decide (1 ≤ m.gangs ∧ m.gangs ≤ 64) && implemented e (m.agent / 8)))
      || decide ((ms.map Member.agent).dedup.length ≠ ms.length) || decide (65535 < bondExpect ms lchild) then some .badCount
  else if !(ms.all (fun m => agentPart d (m.agent / 8) (m.agent % 8) == some p)) then some .access
  else none

/-- The configuration and weights that a further descriptor meets: the waiting ones, or those in force. -/
def Barrier.latest (y : Barrier) : Option Run := (match y.shRun with | some r => some r | none => y.grout.map (fun g => g.run))

/-- R190. A barrier whose DOT configuration is in force or waiting has a weight for each of n local ranks, in the table that takes effect with a further bond. -/
def ranksFit (y : Barrier) (n : Nat) : Bool :=
  let dot := ((y.grout.map (fun g => g.run)).toList ++ y.shRun.toList).any (fun r => match r.cfg with | some c => c.op == 4#3 | none => false)
  !dot || decide (n ≤ ((y.latest.bind (fun r => r.weights)).map (fun w => w.entries.length)).getD 0)

/-- R92. A new bond of barrier y replaces bed b: every bed of a barrier that is not armed, and of an armed one that of the bond which waits for the boundary. -/
def Barrier.replaces (y : Barrier) (b : Bed) : Bool := !y.armed || (b.waiting && y.shBond.any (fun o => o.made == b.made))

/-- R90, R91. A joint has a bed for brick h beside its others; the bed that a new one replaces counts as free. -/
def bedRoom (d : Dp) (h : Dword) (y : Barrier) (j : Nat) : Bool :=
  decide (((jointOf d j).beds.filter (fun b => !(b.handle == h && y.replaces b))).length < Config.bedsPerJoint)

/-- R90, R108, R186. The bed of a bond at joint j. -/
def mkBed (e : Env) (d : Dp) (i : Nat) (b : Brick) (y : Barrier) (ms : List Member) (j : Nat) : Bed :=
  let g := y.grout
  { index := i, handle := brickHandle e i b, part := b.part, mask := groupMask d b.part b.group, armed := y.armed, poisoned := none
    cfg := y.cfg, cfgWaits := (y.shRun.map (fun r => r.byCfg)).getD false
    members := (ms.zipIdx.filter (fun m => m.1.agent / 8 == j)).map (fun m =>
      { slot := m.1.agent % 8, e := m.1.gangs, a := 0, b := 0, f := 0, wave := m.1.wave, rank := m.2 })
    course := y.course, status := y.lastStatus, gflags := (g.map (fun g => g.resFlags)).getD 0, result := toBeats ((g.map (fun g => g.result)).getD [])
    up := upFor e d (homeOf e i) i y.armed j, waiting := y.armed, heldPay := [], since := d.seq, made := d.seq + 1 }

/-- R92, R498. The beds that a new bond of barrier y replaces go from joint j; `stays` where it is a member joint of the new bond too. -/
def replaceBeds (e : Env) (h : Dword) (y : Barrier) (stays : Nat → Bool) (d : Dp) (j : Nat) : Dp :=
  let x := jointOf d j
  let d1 := setJoint d j { x with beds := x.beds.filter (fun b => !(b.handle == h && y.replaces b)) }
  match (if y.armed then none else bedFor d j h) with
  | some o => if stays j then d1 else settleBed e d1 j o
  | none => d1

/-- R90, R92. The beds and the tree of a bond are built, numbered by the next number; on a barrier that is not armed they replace those of the old bond, on an armed one those of a bond that waits for the boundary. -/
def installBond (e : Env) (d : Dp) (i : Nat) (b : Brick) (y : Barrier) (ms : List Member) : Dp :=
  let h := brickHandle e i b
  let w := y.armed
  let js := (ms.map (fun m => m.agent / 8)).dedup
  let d := (allBedJoints d h).foldl (replaceBeds e h y js.contains) (dropTree d i w)
  let d := buildTree e d (homeOf e i) i y.course w (js.map (fun j => (j, ((ms.filter (fun m => m.agent / 8 == j)).map Member.gangs).sum)))
  let d := js.foldl (fun d j =>
    let k := jointOf d j
    setJoint d j { k with beds := k.beds ++ [mkBed e d i b y ms j] }) d
  { d with seq := d.seq + 1 }

/-- R86 to R92, R190. BOND_SET. -/
def bondSet (e : Env) (d : Dp) (r : RingId) (x : BitVec 512) (list : List Dword) : Dp :=
  let entries := dfield x 128 11
  let lchild := dfield x 144 7
  match bondParams x with
  | some st => completeWith e d r x st
  | none =>
    if list.length ≠ entries then d
    else
      let read := fun (d : Dp) => readForRing d r (dfield x 192 64) (8 * entries)
      match bondListCheck e d (hPart (dHandle x)) list lchild with
      | some st => completeWith e (read d) r x st
      | none =>
        withBrick e d r x list [] (fun d b =>
          let d := read d
          let i := hIndex (dHandle x)
          match b.body with
          | .barrier y =>
            let ms := (list.map bondMember).foldl (fun l m => insertMember m l) []
            let js := (ms.map (fun m => m.agent / 8)).dedup
            if !ranksFit y ms.length then descStatus e d r x .badGrout
            else if !(js.all (bedRoom d (dHandle x) y)) then descStatus e d r x .busy
            else
              let nb : Bond := { expect := bondExpect ms lchild, lchild := lchild, members := ms, made := d.seq + 1 }
              let d := installBond e d i b y ms
              let y2 := { y with shBond := some nb }
              let y3 := if y.armed then y2 else { y2.rebond with bonded := true }
              let d := setBarrier d i y3
              descStatus e (emitNone e (setBrick d i (brickOf d i).shadowWritten) (homeOf e i) i 0) r x .ok
          | _ => d)

/-! ### GROUT_CFG and WEIGHT_LOAD (R180 to R191) -/

/-- R71. A brick that is not held may become so on its home tile. -/
def mayHold (e : Env) (d : Dp) (i : Nat) : Bool :=
  refHeld d (.brick i) || heldRoom e d (homeOf e i)

/-- R78, R83, R501. A run of n granules for barrier i on its home tile, and on its mirror's; refused BUSY where one is short of them and QUOTA where the quota is. -/
def placeRun (e : Env) (d : Dp) (i : Nat) (b : Brick) (n : Nat) : Except Status (Dp × Nat × Bool) :=
  let t := homeOf e i
  let m := fget d.mirCopies (stripeKey i 0)
  match fitRun d t n with
  | none => .error .busy
  | some base =>
    match m.map (fun m => fitRun d m.tile n) with
    | some none => .error .busy
    | k =>
      match chargeG e d b.part (if b.mirrored then 2 * n else n) with
      | none => .error .quota
      | some (d, o) =>
        let d := bindRun d t base n
        let d := match k with
          | some (some mb) => setMirRuns d i (fun l => l ++ [(mb, n)])
          | _ => d
        .ok (d, base, o)

/-- R185, R188. A new run of configuration c and weights w, not counting where it lies: it takes effect at once, or waits for the boundary. Only a GROUT_CFG that ends the grout keeps granules of the run in force. -/
def applyRun (e : Env) (d : Dp) (r : RingId) (x : BitVec 512) (i : Nat) (b : Brick) (y : Barrier) (c : Option GCfg) (w : Option Weights) (byCfg ends : Bool) : Dp :=
  let h := brickHandle e i b
  let wn := (w.map Weights.granules).getD 0
  let n := (c.map GCfg.granules).getD 0 + wn
  let old := y.grout.map (fun g => g.run)
  let keeps := ends && (match old with | some o => w == o.weights | none => n == 0)
  let d1 := dropWaiting e d i b y
  let finish := fun (d : Dp) (run : Run) (od : Bool) =>
    let d := if y.armed then
        let d := setBarrier d i { y with shRun := some run }
        if byCfg then mapBeds d h (fun k => if k.waiting then k else { k with cfgWaits := true }) else d
      else
        let res := (y.grout.map (fun g => g.result)).getD []
        let fl := (y.grout.map (fun g => g.resFlags)).getD 0
        let cum := (y.grout.map (fun g => g.cum)).getD 0
        mapBeds (setBarrier d i { y with grout := run.install y (goneOf d i) res fl cum, shRun := none }) h (fun k => { k with cfg := c })
    descDone e (emitNone e d (homeOf e i) i 0) r x { mkCompl d r x .ok with overdrawn := od }
  if n > 255 then descStatus e d r x .badGrout
  else if keeps then
    let run : Run := { cfg := c, weights := w, count := n, byCfg := byCfg
                       base := match old with | some o => o.base + (o.count - n) | none => 0 }
    let d := match y.armed, old with
      | false, some o => switchRun e d1 i b o run
      | _, _ => d1
    finish d run false
  else if n = 0 then
    let d := match y.armed, old with
      | false, some o => freeRun e d1 i b o false
      | _, _ => d1
    finish d { cfg := c, weights := w, base := 0, count := 0, byCfg := byCfg } false
  else if !mayHold e d i then descStatus e d r x .busy
  else
    let d2 := match y.armed, old with
      | false, some o => freeRun e d1 i b o false
      | _, _ => d1
    match placeRun e d2 i b n with
    | .error st => descStatus e d r x st
    | .ok (d, base, od) => finish d { cfg := c, weights := w, base := base, count := n, byCfg := byCfg } od

/-- The local ranks that a configuration taking effect next meets. -/
def Barrier.localRanks (y : Barrier) : Nat :=
  match y.shBond, y.bond with
  | some b, _ => b.members.length
  | none, some b => b.members.length
  | none, none => 0

/-- R180. The configuration of a GROUT_CFG with LANES above 0. -/
def groutParams (x : BitVec 512) : GCfg :=
  { fmt := BitVec.ofNat 3 (dfield x 128 3), op := BitVec.ofNat 3 (dfield x 132 3), exact := x.getLsbD 136, f64 := x.getLsbD 137, mxout := x.getLsbD 138
    lanes := dfield x 140 6, passes := dfield x 148 2, wlog := dfield x 152 3 }

/-- R183, R188, R221. The parameters of GROUT_CFG are legal. -/
def groutParamsOk (x : BitVec 512) : Bool :=
  if dfield x 140 6 = 0 then x &&& BitVec.ofNat 512 (maskOf [(128, 3), (132, 3), (136, 1), (137, 1), (138, 1), (148, 2), (152, 3)]) == 0#512
  else (groutParams x).legal

/-- R187. A member joint holds an arrival that counts towards the next course. -/
def nextHeld (d : Dp) (h : Dword) : Bool :=
  d.joints.any (fun j => j.2.beds.any (fun b => b.handle == h && !b.waiting && b.members.any (fun m => m.b != 0)))

/-- R180 to R188. GROUT_CFG. DESIGN CHOICE (log 61): BUSY for a held arrival of the next course (R187) comes before the BAD_GROUT of a DOT configuration without its table, and of a run above 255 granules. -/
def groutCfg (e : Env) (d : Dp) (r : RingId) (x : BitVec 512) : Dp :=
  if !groutParamsOk x then completeWith e d r x .badGrout
  else
    withBrick e d r x [] [] (fun d b =>
      let i := hIndex (dHandle x)
      match b.body with
      | .barrier y =>
        let c := if dfield x 140 6 = 0 then none else some (groutParams x)
        let w := y.latest.bind (fun r => r.weights)
        if y.armed && nextHeld d (dHandle x) then descStatus e d r x .busy
        else if (match c with | some c => c.op == 4#3 && !weightsOk c w y.localRanks | none => false) then descStatus e d r x .badGrout
        else applyRun e d r x i b y c w true c.isNone
      | _ => d)

/-- R189, R221. The parameters of WEIGHT_LOAD. -/
def weightParams (x : BitVec 512) : Option Status :=
  let entries := dfield x 128 11
  let kind := dfield x 140 3
  let lanes := dfield x 144 5
  let addr := dfield x 192 64
  if entries > 1024 || kind > 3 || (if kind = 1 then lanes == 0 || lanes > 16 else lanes != 0) || (entries > 0 && (addr == 0 || addr % 64 != 0)) then some .badCount
  else none

/-- Table 6.5. The bytes that a table of n entries takes in memory. -/
def tableBytes (kind lanes n : Nat) : Nat :=
  if n = 0 then 0 else if kind = 0 then 4 * n else if kind = 1 then 64 * (n - 1) + 4 * lanes else 64 * (n - 1) + 33

/-- R189 to R191. WEIGHT_LOAD. -/
def weightLoad (e : Env) (d : Dp) (r : RingId) (x : BitVec 512) (table : List Byte) : Dp :=
  let n := dfield x 128 11
  let kind := dfield x 140 3
  let lanes := dfield x 144 5
  match weightParams x with
  | some st => completeWith e d r x st
  | none =>
    if table.length < tableBytes kind lanes n then d
    else
      withBrick e d r x [] table (fun d b =>
        let d := readForRing d r (dfield x 192 64) (tableBytes kind lanes n)
        let i := hIndex (dHandle x)
        match b.body with
        | .barrier y =>
          let w : Option Weights := if n = 0 then none else some { wkind := kind, wlanes := lanes, entries := weightEntries kind lanes n table }
          let runs := (y.grout.map (fun g => g.run)).toList ++ y.shRun.toList
          let fits := runs.all (fun q => match q.cfg with
            | some c => c.op != 4#3 || weightsOk c w y.localRanks
            | none => true)
          if !fits then descStatus e d r x .badGrout
          else applyRun e d r x i b y (y.latest.bind (fun q => q.cfg)) w ((y.shRun.map (fun q => q.byCfg)).getD false) false
        | _ => d)

/-! ### LINTEL_LINK (R251 to R255) -/

/-- The parameters of LINTEL_LINK (R254). -/
structure LinkReq where
  action : Nat
  tier : Nat
  slot : Nat
  route : BitVec 8
  route2 : BitVec 8
  peer : Dword
  peer2 : Dword
  deriving DecidableEq, Repr

def linkReq (x : BitVec 512) : LinkReq :=
  { action := dfield x 128 3, tier := dfield x 132 3, slot := dfield x 136 6, route := BitVec.ofNat 8 (dfield x 144 8), route2 := BitVec.ofNat 8 (dfield x 152 8)
    peer := BitVec.ofNat 64 (dfield x 192 64), peer2 := BitVec.ofNat 64 (dfield x 256 64) }

/-- The peers that a LINTEL_LINK names, with their routes. -/
def LinkReq.peers (q : LinkReq) : List (Dword × BitVec 8) :=
  if 2 < q.action then [] else (q.peer, q.route) :: (if q.peer2 = 0 then [] else [(q.peer2, q.route2)])

/-- Table 9.3. PEER is where the route leads. -/
def peerFits (e : Env) (p : Dword × BitVec 8) : Bool :=
  p.1 != 0 && (if p.2 = 0xFF#8 then hNode p.1 == e.kp.node else hNode p.1 == routeNode e p.2.toNat && hDie p.1 == routeDie e p.2.toNat)

/-- Table 9.3, the rows on the request, up to those on room: the status of the first that applies. -/
def linkCheck (e : Env) (i : Nat) (b : Brick) (y : Barrier) (l : Option Lintel) (q : LinkReq) : Option Status :=
  if y.armed then some .busy
  else if 3 < homeOf e i || !b.pin || b.mirrored || q.action > 4 || q.tier > 4 || (match l with | some l => l.tier != q.tier | none => false) then some .badCount
  else if q.peers.any (fun p => p.2 != 0xFF#8 && !routeValid e p.2.toNat) then some .badCount
  else if q.peers.any (fun p => p.2 != 0xFF#8 && routePart e p.2.toNat != b.part) then some .access
  else if q.peers.any (fun p => !peerFits e p) then some .badCount
  else if (q.action = 0 || q.action = 3) && decide ((y.bond.map Bond.lchild).getD 0 ≤ q.slot) then some .badCount
  else if q.action = 0 && (q.tier == 0 || q.peers.any (fun p => if p.2 = 0xFF#8 then decide (2 ≤ q.tier) else q.tier == 1)) then some .badCount
  else if q.action = 2 && (q.tier < 3 || hNode q.peer == e.kp.node || (match y.bond with | some n => !n.members.isEmpty | none => false)) then some .badCount
  else none

/-- A lintel record with nothing attached. -/
def Lintel.init (tier : Nat) : Lintel :=
  { tier := tier, upwait := false, upv := false, twv := false, upcut := false, up2cut := false, upslot := 0, ctv := false, uproute := 0, up2route := 0xFF#8
    twroute := 0, ctBase := 0, uppeer := 0, up2peer := 0, twpeer := 0, seen := 0, seenNext := 0, gone := 0, children := []
    upPay := none, probe := none }

/-- R252. The lintel record of brick i, bound where it is not yet. -/
def bindLintel (e : Env) (d : Dp) (i : Nat) (b : Brick) (tier : Nat) : Except Status (Dp × Lintel × Bool) :=
  match fget d.lintels i with
  | some l => .ok (d, l, false)
  | none =>
    let t := homeOf e i
    if !heldRoom e d t then .error .busy
    else
      match chargeB e d b.part 1 with
      | none => .error .quota
      | some (d, o) =>
        match takeSlot e d t (.lintel i) with
        | none => .error .busy
        | some d => .ok (d, Lintel.init tier, o)

/-- R252. The child table, bound by the first child. -/
def bindTable (e : Env) (d : Dp) (i : Nat) (b : Brick) (l : Lintel) : Except Status (Dp × Lintel × Bool) :=
  if l.ctv then .ok (d, l, false)
  else
    let t := homeOf e i
    match fitRun d t 33 with
    | none => .error .busy
    | some base =>
      match chargeG e d b.part 33 with
      | none => .error .quota
      | some (d, o) => .ok (bindRun d t base 33, { l with ctv := true, ctBase := base }, o)

/-- One bit of a map. -/
def bit64 (c : Nat) : BitVec 64 := BitVec.ofNat 64 (2 ^ c)

/-- R253, R255. The fields that an accepted LINTEL_LINK sets. A child that is attached (again) has not departed and has not contributed. -/
def LinkReq.apply (q : LinkReq) (l : Lintel) : Lintel :=
  match q.action with
  | 0 => { l with children := fput l.children q.slot { peer := q.peer, peer2 := q.peer2, route := q.route, route2 := q.route2, valid := true, cut1 := false, cut2 := false }
                  gone := l.gone &&& ~~~ (bit64 q.slot), seen := l.seen &&& ~~~ (bit64 q.slot), seenNext := l.seenNext &&& ~~~ (bit64 q.slot) }
  | 1 => { l with upv := true, upslot := BitVec.ofNat 6 q.slot, uproute := q.route, up2route := if q.peer2 = 0 then 0xFF#8 else q.route2, uppeer := q.peer
                  up2peer := q.peer2, upcut := false, up2cut := false }
  | 2 => { l with twv := true, twroute := q.route, twpeer := q.peer }
  | 3 => { l with children := fdel l.children q.slot }
  | _ => { l with upv := false, upwait := false, upPay := none, uppeer := 0, up2peer := 0, up2route := 0xFF#8, upcut := false, up2cut := false }

/-- R252 to R255. An accepted LINTEL_LINK on brick i. -/
def applyLink (e : Env) (d : Dp) (i : Nat) (b : Brick) (q : LinkReq) : Except Status (Dp × Bool) :=
  if 2 < q.action then
    match fget d.lintels i with
    | none => .ok (d, false)
    | some l =>
      let l := q.apply l
      let d := { d with lintels := fput d.lintels i l }
      .ok (if l.children.isEmpty && !l.upv && !l.twv then dropLintel e d i b.part else probeOn e d i, false)
  else
    match bindLintel e d i b q.tier with
    | .error st => .error st
    | .ok (d, l, o1) =>
      match (if q.action = 0 then bindTable e d i b l else .ok (d, l, false)) with
      | .error st => .error st
      | .ok (d, l, o2) => .ok ({ d with lintels := fput d.lintels i (q.apply l) }, o1 || o2)

/-- R254, R255. LINTEL_LINK. -/
def lintelLink (e : Env) (d : Dp) (r : RingId) (x : BitVec 512) : Dp :=
  let q := linkReq x
  if (q.action == 3 || q.action == 4) && (q.peer != 0 || q.peer2 != 0 || q.route != 0 || q.route2 != 0) then completeWith e d r x .badCount
  else
    slotsCome e r d (withBrick e d r x [] [] (fun d b =>
      let i := hIndex (dHandle x)
      match b.body with
      | .barrier y =>
        (match linkCheck e i b y (fget d.lintels i) q with
          | some .access =>
            let t := homeOf e i
            ringAccess e (noteDesc e d t r x (dHandle x) .access) t r x (dHandle x) (mkCompl d r x .access)
          | some st => descStatus e d r x st
          | none =>
            match applyLink e d i b q with
            | .error st => descStatus e d r x st
            | .ok (d, o) => descDone e (q.peers.foldl (fun d p => useLink e d p.2.toNat) d) r x { mkCompl d r x .ok with overdrawn := o })
      | _ => d))

/-! ### PALLET_CFG (R155 to R158) -/

/-- R155, R179. The parameters of PALLET_CFG. -/
def palletParams (x : BitVec 512) : Option Status :=
  let action := dfield x 128 3
  let log2 := dfield x 132 5
  let log2s := dfield x 137 3
  let addr := dfield x 192 64
  if action > 1 then some .badCount
  else if action = 1 then (if log2 = 0 && log2s = 0 && !x.getLsbD 140 && addr = 0 then none else some .badCount)
  else if log2 < 6 || log2 > 20 || log2s > 3 || 2 ^ log2 / 2 ^ log2s < 64 || addr == 0 || addr % (2 ^ log2 * 8) != 0 then some .badCount
  else none

/-- Table 5.1. A configured pallet may be built again: its stripes are empty, without a pending get, a put under way or a fault. -/
def rebuildable (d : Dp) (i : Nat) : Bool :=
  (stripeList d i).all (fun q => q.2.depth == 0 && q.2.waitj.isEmpty && q.2.getq.isEmpty && q.2.writing.isNone && q.2.putq.isEmpty && !q.2.fault && q.2.lost.isNone)

/-- R156, R157, R501. Stripe k of pallet i is built on its tile, with a mirror where the pallet is mirrored. DESIGN CHOICE (log 62): BUSY too where one of its tiles has room under R66 and no slot that is free or evictable. -/
def buildStripe (e : Env) (d : Dp) (i : Nat) (b : Brick) (k log2 log2s : Nat) (steal : Bool) (addr : Dword) : Except Status Dp :=
  let t := stripeTile e i k
  let full := fun (t : Nat) => !heldRoom e d t
  if (if k = 0 then !mayHold e d i else full t) then .error .busy
  else
    match fitRun d t 9 with
    | none => .error .busy
    | some base =>
      match (if k = 0 then some d else takeSlot e d t (.stripe i k)) with
      | none => .error .busy
      | some d =>
        let d := bindRun d t base 9
        if !b.mirrored then .ok (setStripe d i k (Stripe.fresh k log2 log2s steal addr base 0))
        else
          match (if k = 0 then (fget d.mirCopies (stripeKey i 0)).map (fun m => m.tile) else mirrorFor e d t) with
          | none => .error .badType
          | some mt =>
            if k != 0 && !heldRoom e d mt then .error .busy
            else
              match fitRun d mt 9, (if k = 0 then some d else takeSlot e d mt (.mirror i k)) with
              | some mb, some d =>
                let s := Stripe.fresh k log2 log2s steal addr base mt
                let d := setStripe (bindRun d mt mb 9) i k s
                .ok { d with mirCopies := fput d.mirCopies (stripeKey i k) { tile := mt, runs := [(mb, 9)], copy := b, stripe := some s } }
              | _, _ => .error .busy

/-- The stripes of a pallet, built in turn. -/
def buildStripes (e : Env) (i : Nat) (b : Brick) (log2 log2s : Nat) (steal : Bool) (addr : Dword) : List Nat → Dp → Except Status Dp
  | [], d => .ok d
  | k :: ks, d =>
    match buildStripe e d i b k log2 log2s steal addr with
    | .error st => .error st
    | .ok d => buildStripes e i b log2 log2s steal addr ks d

/-- R158. Every joint forgets LOG2S of pallet i. -/
def forgetStripes (d : Dp) (i : Nat) : Dp :=
  { d with joints := d.joints.map (fun j => (j.1, { j.2 with cache := j.2.cache.filter (fun p => p.1 != i) })) }

/-- R174. A faulted stripe retries its held access. -/
def retryStripe (e : Env) (i : Nat) (d : Dp) (q : Nat × Stripe) : Dp :=
  let s := q.2
  let d := setStripe d i q.1 { s with wacc := if s.wacc = .held then .retrying else s.wacc, racc := if s.racc = .held then .retrying else s.racc }
  if s.racc = .held then
    let t := stripeTile e i q.1
    setTile d t { tileOf d t with work := (tileOf d t).work ++ [.refill i q.1] }
  else d

/-- Table 5.1. PALLET_CFG, ACTION 0. -/
def palletBuild (e : Env) (d : Dp) (r : RingId) (x : BitVec 512) (i : Nat) (b : Brick) : Dp :=
  let log2s := dfield x 137 3
  let n := 2 ^ log2s
  if !rebuildable d i then descStatus e d r x .busy
  else
    match ((List.range n).map (stripeTile e i)).find? (unavailable e) with
    | some t => fencedDesc e (noteDesc e d (homeOf e i) r x (dHandle x) .fenced) r x t
    | none =>
      let again := (stripeOf d i 0).isSome
      match buildStripes e i b (dfield x 132 5) log2s (x.getLsbD 140) (BitVec.ofNat 64 (dfield x 192 64)) (List.range n) (dropStripes e d i b) with
      | .error st => descStatus e d r x st
      | .ok d1 =>
        let f := if b.mirrored then 2 else 1
        match chargeB e d1 b.part (f * (n - 1)) with
        | none => descStatus e d r x .quota
        | some (d2, o1) =>
          match chargeG e d2 b.part (f * 9 * n) with
          | none => descStatus e d r x .quota
          | some (d3, o2) =>
            let d3 := if again then forgetStripes d3 i else d3
            descDone e d3 r x { mkCompl d3 r x .ok with overdrawn := o1 || o2 }

/-- R158. PALLET_CFG. -/
def palletCfg (e : Env) (d : Dp) (r : RingId) (x : BitVec 512) : Dp :=
  match palletParams x with
  | some st => completeWith e d r x st
  | none =>
    slotsCome e r d (withBrick e d r x [] [] (fun d b =>
      let i := hIndex (dHandle x)
      if dfield x 128 3 = 0 then palletBuild e d r x i b
      else if (stripeOf d i 0).isNone then descStatus e d r x .busy
      else descStatus e (((stripeList d i).filter (fun q => q.2.fault && q.2.lost.isNone)).foldl (retryStripe e i) d) r x .ok))

/-! ### Meanings -/

/-- R94. -/
def execBarrierArm (r : RingId) (s : State) : Host.Outcome State Fault Refusal :=
  .next { s with dp := afterDesc s.env r (runDesc s.env s.dp r 0x42 (fun _ x => barrierArm s.env s.dp r x)) }

/-- R92. -/
def execBondSet (r : RingId) (list : List Dword) (s : State) : Host.Outcome State Fault Refusal :=
  .next { s with dp := afterDesc s.env r (runDesc s.env s.dp r 0x43 (fun _ x => bondSet s.env s.dp r x list)) }

/-- R185. -/
def execGroutCfg (r : RingId) (s : State) : Host.Outcome State Fault Refusal :=
  .next { s with dp := afterDesc s.env r (runDesc s.env s.dp r 0x44 (fun _ x => groutCfg s.env s.dp r x)) }

/-- R189. -/
def execWeightLoad (r : RingId) (table : List Byte) (s : State) : Host.Outcome State Fault Refusal :=
  .next { s with dp := afterDesc s.env r (runDesc s.env s.dp r 0x45 (fun _ x => weightLoad s.env s.dp r x table)) }

/-- R255. -/
def execLintelLink (r : RingId) (s : State) : Host.Outcome State Fault Refusal :=
  .next { s with dp := afterDesc s.env r (runDesc s.env s.dp r 0x46 (fun _ x => lintelLink s.env s.dp r x)) }

/-- R158. -/
def execPalletCfg (r : RingId) (s : State) : Host.Outcome State Fault Refusal :=
  .next { s with dp := afterDesc s.env r (runDesc s.env s.dp r 0x47 (fun _ x => palletCfg s.env s.dp r x)) }

end Sys2Proof.Machine
end

