-- ==== Sys2Proof/Machine/Joints.lean ====
section
/-! DEFINITION. Sys2Proof/Machine/Joints.lean: agent joints (08_agent_joints.md): admission, the seal, forwarding, the taking of responses, hints and stalls; the meanings of the agent requests and of the joint's own events. -/

namespace Sys2Proof.Machine

/-! ### The stripe cache (R162) -/

/-- R162. The stripe whose tile is fewest hops from joint j, of 2^l stripes; the lower on a tie. -/
def localStripe (e : Env) (i j l : Nat) : Nat :=
  let cost := fun k => hops (jointRouter e j) (tileRouter e (stripeTile e i k))
  (List.range (2 ^ l)).foldl (fun best k => if cost k < cost best then k else best) 0

/-- The LOG2S that joint j keeps for a brick index. -/
def cachedLog2s (d : Dp) (j i : Nat) : Option Nat := ((jointOf d j).cache.find? (fun p => p.1 == i)).map Prod.snd

/-- R162. The entry of an index becomes the most recently used; the least recently used of 32 goes. -/
def cacheStripes (d : Dp) (j i l : Nat) : Dp :=
  let x := jointOf d j
  let rest := x.cache.filter (fun p => p.1 != i)
  let rest := if rest.length < Config.stripeCache then rest else rest.drop 1
  setJoint d j { x with cache := rest ++ [(i, l)] }

def AOp.token (o : AOp) : Bool := o == .tokPut || o == .tokGet || o == .tokTryget

/-- R162. The stripe to which joint j sends a request on a pallet. -/
def palStripe (e : Env) (d : Dp) (j : Nat) (x : JEntry) : Nat :=
  let i := hIndex x.req.handle
  match cachedLog2s d j i with
  | none => 0
  | some l => if x.op.token && reqSel x.req then reqStripe x.req else localStripe e i j l

/-- R162. A request on a pallet leaves the joint. -/
def palSend (e : Env) (d : Dp) (j : Nat) (x : JEntry) : Dp :=
  let i := hIndex x.req.handle
  let k := palStripe e d j x
  let d := match cachedLog2s d j i with
    | some l => cacheStripes d j i l
    | none => d
  homeReq e d k j x

/-! ### Forwarding (R109, R127, R164, R232) -/

/-- A request goes to its home tile. -/
def sendHome (e : Env) (d : Dp) (j : Nat) (x : JEntry) : Dp :=
  let d := modEntry d j x.id (fun y => { y with phase := .atHome })
  let x := { x with phase := .atHome }
  if (hType x.req.handle).toNat = 3 then palSend e d j x else homeReq e d 0 j x

/-- R127, R164. An EVT_WAIT or TOK_GET: forwarded, or held behind the one that is. -/
def sendOldest (e : Env) (d : Dp) (j : Nat) (x : JEntry) : Dp :=
  if forwarded d j x.req.handle then pendFor d j x.id 0
  else sendHome e (addForwarded d j x.req.handle x.id) j x

/-- R108, R109, R163, R232, R248. A request that nothing holds back any more: it is applied to its bed, forwarded, or answered SUSPENDED (DESIGN CHOICE, log 67: with COURSE 0). -/
def runEntry (e : Env) (d : Dp) (j : Nat) (x : JEntry) : Dp :=
  if (jointOf d j).frozen.contains x.part.toNat then answer e d j x.id (Resp.plain .suspended)
  else
    let h := x.req.handle
    match x.op with
    | .arrive | .arriveWait =>
      (match bedFor d j h with
        | some b => (match b.member x.req.slot with
          | some m => applyArrival e d j x b m
          | none => sendHome e d j x)
        | none => sendHome e d j x)
    | .wait =>
      (match bedFor d j h with
        | some b => bedWait e d j x b
        | none => forwardWait e d j x)
    | .test =>
      (match bedFor d j h with
        | some b => bedWait e d j x b
        | none => sendHome e d j x)
    | .evtWait => sendOldest e d j x
    | .tokGet => if x.req.count = 0#16 then sendHome e d j x else sendOldest e d j x
    | .semTake | .semTry | .semGive | .lockAcq | .lockTry | .lockRel | .tokPut | .tokTryget | .evtSet | .evtClear | .query => sendHome e d j x

/-- The oldest entry of joint j on a handle that its home does not know of is forwarded (R109, R127, R164). -/
def forwardNext (e : Env) (d : Dp) (j : Nat) (h : Dword) (op : AOp) : Dp :=
  match (jointOf d j).entries.find? (fun x => x.op == op && x.phase == .pends && x.req.handle == h) with
  | none => d
  | some x => if op = .wait then forwardWait e d j x else sendHome e (addForwarded d j h x.id) j x

/-! ### Admission (Table 8.4) -/

/-- R246. The joint accepts requests: it has REQ credit, and no stop, power fail or warm reset stands. -/
def accepts (e : Env) : Bool := e.pwr.ready && !e.stop.stopped && !e.pwr.pfFrozen && !e.pwr.warmBusy

/-- R230. Whether an entry is free for a slot, and whether it is a shared one. -/
def freeEntry (d : Dp) (j : Nat) (slot : BitVec 3) : Option Bool :=
  let l := (jointOf d j).entries
  if (l.filter (fun x => x.req.slot == slot && !x.shared)).length < Config.reservedEntries then some false
  else if (l.filter (fun x => x.shared)).length < Config.sharedEntries then some true
  else none

/-- R229, Table 8.3. COUNT and FLAGS of an arrival of an agent that is no member in a bed here: the count is not 0 (Table 3.8), and FLAGS holds CFMT alone, beside grout. -/
def looseForm (r : Req) : Option Status :=
  if r.count = 0#16 || r.flags.getLsbD 3 || (r.beats.isEmpty && r.flags != 0#4) then some .badCount else none

/-- Table 8.4, step 4: the request alone, the bed of a member (R97, R192), and STRIPE where the joint knows LOG2S (R162). DESIGN CHOICE (log 66): a refusal from the stripe cache is no use of its entry. -/
def stepForm (d : Dp) (j : Nat) (op : AOp) (r : Req) : Option Status :=
  let t := (BType.ofCode (hType r.handle).toNat).getD .barrier
  if !formOk op t r then some .badCount
  else if op.token && reqSel r && (match cachedLog2s d j (hIndex r.handle) with | some l => decide (2 ^ l ≤ reqStripe r) | none => false) then some .badCount
  else if op = .arrive ∨ op = .arriveWait then
    match bedFor d j r.handle with
    | some b => (match b.member r.slot with
      | some m => bedForm b m r
      | none => looseForm r)
    | none => looseForm r
  else none

/-- R131. A LOCK_ACQ or SEM_TAKE of this agent and gang is pending on the handle. -/
def alreadyQueued (d : Dp) (j : Nat) (op : AOp) (r : Req) : Bool :=
  (op == .lockAcq || op == .semTake) && (jointOf d j).entries.any (fun x => (x.op == .lockAcq || x.op == .semTake) && x.req.slot == r.slot
    && x.req.gang == r.gang && x.req.handle == r.handle)

/-- R230, R232, R237. An admitted request takes its entry: it awaits its seal, stands behind one that does, or runs. -/
def admitEntry (e : Env) (d : Dp) (j : Nat) (op : AOp) (r : Req) (p : BitVec 4) (shared : Bool) : Dp :=
  let y := jointOf d j
  let behind := y.entries.any (fun x => x.req.slot == r.slot && (x.phase == .sealing || x.phase == .behind))
  let x : JEntry := { id := d.seq, op := op, req := r, part := p, shared := shared, phase := if behind then .behind else if op.release then .sealing else .atHome
                      target := 0, pended := false }
  let seals := if !behind && op.release then fput y.seals r.slot.toNat (now e) else y.seals
  let d := setJoint { d with seq := d.seq + 1 } j { y with entries := y.entries ++ [x], seals := seals }
  if behind || op.release then d else runEntry e d j x

/-- R231. An RID is outstanding while its request has an entry, and (DEDUCED, log 73) while its refusal waits for an incident number. -/
def ridOut (d : Dp) (j : Nat) (slot : BitVec 3) (rid : BitVec 10) : Bool :=
  (jointOf d j).entries.any (fun x => x.req.slot == slot && x.req.rid == rid)
    || d.inc.waitResp.any (fun a => a.2.joint == j && a.2.slot == slot && a.2.rid == rid)

/-- R229, R228, R500. Table 8.4: a request of joint j. DESIGN CHOICE (log 55): the BUSY to a second LOCK_ACQ or SEM_TAKE (R131), which the joint gives itself, carries COURSE 0. -/
def agentRequest (e : Env) (d : Dp) (j : Nat) (r : Req) (op : AOp) : Dp :=
  let s := r.slot
  let fence := agentFence e j s
  if !accepts e || (agentClass e j s.toNat).isNone || (jointOf d j).reset.getLsbD s.toNat then d
  else if fence.isNone && d.departing.any (fun a => a.1 == agentNo j s) then d
  else
    let d := bumpK e d 2 j 0 1
    let plain := fun (st : Status) => deliver e d j s r.rid (Resp.plain st)
    if 4 < r.beats.length then plain .badCount
    else
      match fence with
      | some key => respondNumbered e d key { joint := j, entry := none, slot := s, rid := r.rid, resp := Resp.plain .fenced }
      | none =>
        match agentPart d j s.toNat with
        | none => if handleHere e r.handle then refuseAccess e d j none r 0 else plain .badHandle
        | some p =>
          match handleFront e (some p) (reqTypes r op) r.handle with
          | some .access => refuseAccess e d j none r 0
          | some st => plain st
          | none =>
            match stepForm d j op r with
            | some st => plain st
            | none =>
              if (jointOf d j).frozen.contains p.toNat || (partOf d p).st = .saved || (partOf d p).st = .restoring then plain .suspended
              else if ridOut d j s r.rid then plain .busy
              else
                match freeEntry d j s with
                | none => plain .retry
                | some shared => if alreadyQueued d j op r then plain .busy else admitEntry e d j op r p shared

/-! ### The seal (R237, R232) -/

/-- R247. Wait n of a joint is over: a later one is reported anew. -/
def unmark (m : BitVec 9) (n : Nat) : BitVec 9 := m &&& ~~~ BitVec.ofNat 9 (2 ^ n)

/-- R232. After a seal, the requests of the slot that stood behind it go on, up to the next one that needs a seal; n bounds them. -/
def releaseSlot (e : Env) (j : Nat) (slot : BitVec 3) : Nat → Dp → Dp
  | 0, d => d
  | n + 1, d =>
    match (jointOf d j).entries.find? (fun x => x.req.slot == slot && x.phase == .behind) with
    | none => d
    | some x =>
      if x.op.release then
        let d := modEntry d j x.id (fun y => { y with phase := .sealing })
        let y := jointOf d j
        setJoint d j { y with seals := fput y.seals slot.toNat (now e) }
      else
        let d := modEntry d j x.id (fun y => { y with phase := .atHome })
        releaseSlot e j slot n (runEntry e d j x)

/-- R237, R454. SEAL_ACK for a slot; a pulse during a stop is kept, and acts at GO. -/
def sealAcked (e : Env) (d : Dp) (j : Nat) (slot : BitVec 3) : Dp :=
  let y := jointOf d j
  match fget y.seals slot.toNat, y.entries.find? (fun x => x.req.slot == slot && x.phase == .sealing) with
  | some _, some x =>
    if e.stop.stopped then setJoint d j { y with acked := y.acked ||| BitVec.ofNat 8 (2 ^ slot.toNat) }
    else if e.pwr.pfFrozen then d
    else
      let d := setJoint d j { y with seals := fdel y.seals slot.toNat, stallSent := unmark y.stallSent slot.toNat }
      let d := modEntry d j x.id (fun z => { z with phase := .atHome })
      let d := runEntry e d j x
      releaseSlot e j slot y.entries.length d
  | _, _ => d

/-- R416, R454. The seals of joint j that were acknowledged during a stop. -/
def sealsKept (e : Env) (d : Dp) (j : Nat) : Dp :=
  let y := jointOf d j
  if y.acked = 0 then d
  else
    ((List.range 8).filter (fun s => y.acked.getLsbD s)).foldl (fun d s => sealAcked e d j (BitVec.ofNat 3 s)) (setJoint d j { y with acked := 0 })

/-! ### Responses, grants and releases (R109, R127, R142, R162, R495) -/

/-- R245, R247. The joint takes RSP hods: its response buffer has room and no hint is held. -/
def takesRsp (d : Dp) (j : Nat) : Bool :=
  (jointOf d j).resp.length < Config.responseBeats && (jointOf d j).respMore.isEmpty && (jointOf d j).heldHints.isEmpty

/-- R161. The statuses with which a stripe of a configured pallet answers. -/
def Status.ofStripe : Status → Bool
  | .ok | .okEmpty | .busy | .badCount | .access | .xlateFault | .lost => true
  | _ => false

/-- R162. A response of a configured pallet's stripe fills the stripe cache. -/
def fillCache (d : Dp) (j : Nat) (h : Dword) (r : Resp) : Dp :=
  if (hType h).toNat = 3 && (stripeOf d (hIndex h) 0).isSome && r.status.ofStripe then
    cacheStripes d j (hIndex h) (bits r.course.toNat 24 2)
  else d

/-- R109. The answer to a forwarded WAIT. -/
def takeWaitAnswer (e : Env) (d : Dp) (j : Nat) (x : JEntry) (r : Resp) : Dp :=
  let h := x.req.handle
  let ok := r.status = .ok || r.status = .okShrunk
  let mine := fun (y : JEntry) => doneResp r.course y.target r.status r.gflags r.beats
  let l := if ok then (jointOf d j).entries.filter (fun y => y.op == .wait && y.req.handle == h && (y.id == x.id || (y.phase == .pends && completed r.course y.target)))
    else (jointOf d j).entries.filter (fun y => y.id == x.id)
  let d := dropForwarded d j h
  let d := if ok then answerMany e d j l mine else answerMany e d j l (fun _ => r)
  forwardNext e d j h .wait

/-- R127. The answer to a forwarded EVT_WAIT. -/
def takeEvtAnswer (e : Env) (d : Dp) (j : Nat) (x : JEntry) (r : Resp) : Dp :=
  let h := x.req.handle
  let d := dropForwarded d j h
  if r.status = .ok then
    answerMany e d j ((jointOf d j).entries.filter (fun y => y.op == .evtWait && y.req.handle == h && (y.id == x.id || y.phase == .pends))) (fun _ => r)
  else forwardNext e (answer e d j x.id r) j h .evtWait

/-- R164. The answer to a forwarded TOK_GET; the next oldest goes out. -/
def takeGetAnswer (e : Env) (d : Dp) (j : Nat) (x : JEntry) (r : Resp) : Dp :=
  let h := x.req.handle
  let d := fillCache d j h r
  if (jointOf d j).fwdWaits.any (fun p => p.2 == x.id) then forwardNext e (answer e (dropForwarded d j h) j x.id r) j h .tokGet
  else answer e d j x.id r

/-- R109, R127, R164. The response to a forwarded request of an agent that has departed: what stood merged behind it completes with it, or the oldest of it goes out. -/
def orphanAnswer (e : Env) (d : Dp) (j : Nat) (h : Dword) (r : Resp) : Dp :=
  let d := dropForwarded d j h
  let l := (jointOf d j).entries.filter (fun y => y.req.handle == h && y.phase == .pends)
  match BType.ofCode (hType h).toNat with
  | some .event =>
    if r.status = .ok then answerMany e d j (l.filter (fun y => y.op == .evtWait)) (fun _ => r) else forwardNext e d j h .evtWait
  | some .barrier =>
    let done := l.filter (fun y => y.op == .wait && completed r.course y.target)
    let d := if r.status = .ok || r.status = .okShrunk then answerMany e d j done (fun y => doneResp r.course y.target r.status r.gflags r.beats) else d
    forwardNext e d j h .wait
  | _ => forwardNext e d j h .tokGet

/-- A response hod from a port for an entry; one of an agent that has departed is discarded and counted, what it stood for goes on, and a lock that it grants is abandoned by a second report (R153). -/
def takeResponse (e : Env) (d : Dp) (j : Nat) (src : Port) (part : BitVec 4) (entry : Nat) (r : Resp) : Dp :=
  match entryOf d j entry with
  | none =>
    let d := bumpK e d 2 j 4 1
    let d := match r.holder with
      | some agent => send e d (.joint j) src .req part (.depart agent)
      | none => d
    (match (jointOf d j).fwdWaits.find? (fun p => p.2 == entry) with
      | none => d
      | some p => orphanAnswer e d j p.1 r)
  | some x =>
    match x.op with
    | .wait => takeWaitAnswer e d j x r
    | .evtWait => takeEvtAnswer e d j x r
    | .tokGet => takeGetAnswer e d j x r
    | .tokPut | .tokTryget | .query | .test => answer e (fillCache d j x.req.handle r) j x.id r
    | .arrive | .arriveWait | .semTake | .semTry | .semGive | .lockAcq | .lockTry | .lockRel | .evtSet | .evtClear => answer e d j x.id r

/-- R127. The release of an event, or the end of its waits with another status. -/
def takeEvtRelease (e : Env) (d : Dp) (j : Nat) (h : Dword) (sets : Word) (st : Status) (v : Dword) : Dp :=
  let l := (jointOf d j).entries.filter (fun y => y.op == .evtWait && y.req.handle == h && y.phase == .pends)
  answerMany e (dropForwarded d j h) j l (fun _ => { Resp.at st sets with value := v })

/-- R495. The joint takes a response, grant, hint or event release. -/
def responseHod (e : Env) (d : Dp) (n : Nat) : Dp :=
  match takeable e d n with
  | none => d
  | some h =>
    match h.dst with
    | .joint j =>
      if !takesRsp d j then d
      else
        (match h.body with
          | .resp entry r => takeResponse e (dropHod d n) j h.src h.part entry r
          | .hint x => pushHint e (dropHod d n) j x
          | .evtRelease _ x sets st v => takeEvtRelease e (dropHod d n) j x sets st v
          | _ => d)
    | _ => d

/-- R164, R178. A nudge: the joint re-sends its oldest pending TOK_GET. -/
def takeNudge (e : Env) (d : Dp) (n : Nat) : Dp :=
  match takeable e d n with
  | none => d
  | some h =>
    match h.dst, h.body with
    | .joint j, .nudge _ x =>
      if !takesRsp d j then d
      else
        let d := dropHod d n
        let busy := (jointOf d j).entries.any (fun y => y.op == .tokGet && y.req.handle == x && y.phase == .atHome && y.req.count != 0#16)
        if busy then d else forwardNext e (dropForwarded d j x) j x .tokGet
    | _, _ => d

/-! ### Releases at joints (R101, R110, R121) -/

/-- R101. A joint takes a release for its bed. -/
def releaseAtJoint (e : Env) (d : Dp) (n : Nat) : Dp :=
  match takeable e d n with
  | none => d
  | some h =>
    match h.dst, h.body with
    | .joint j, .release r => if takesRsp d j then applyRelease e (dropHod d n) j r else d
    | _, _ => d

/-- R110. A watcher joint takes a release copy. -/
def watcherAtJoint (e : Env) (d : Dp) (n : Nat) : Dp :=
  match takeable e d n with
  | none => d
  | some h =>
    match h.dst, h.body with
    | .joint j, .watcher r => if takesRsp d j then applyWatcher e (dropHod d n) j r else d
    | _, _ => d

/-- R121, R122, R495. The held responses of joint j whose instant its GT has reached are delivered; late ones are counted. -/
def deliverHeld (e : Env) (d : Dp) (j : Nat) (late : BitVec 4 → Bool) : Dp :=
  let y := jointOf d j
  let due := y.held.filter (fun r => reached (gtInterp e) r.instant
    && (match entryOf d j r.entry with | some x => !y.frozen.contains x.part.toNat | none => true))
  let d := setJoint d j { y with held := y.held.filter (fun r => !(due.any (fun q => q.entry == r.entry))) }
  let l := y.entries.filter (fun x => due.any (fun r => r.entry == x.id))
  (bySlot l).foldl (fun d x =>
    match due.find? (fun r => r.entry == x.id) with
    | some r => answer e (if late x.part then countLate e d j x.part else d) j x.id r.resp
    | none => d) d

/-! ### Ports (R245, R247) -/

/-- R244. One hint has been presented: every WAKE behind it is one place nearer. -/
def RBeat.nearer (b : RBeat) : RBeat := { b with ahead := b.ahead - 1 }

/-- R244, R245, R247. The scheduler accepts a hint beat; where it is the last before a response, the wait for that response begins. -/
def hintTaken (e : Env) (d : Dp) (j : Nat) : Dp :=
  let y := jointOf d j
  match y.hints with
  | [] => d
  | _ :: rest =>
    if e.stop.stopped then d
    else
      let d := setJoint d j { y with hints := rest ++ y.heldHints.take 1, heldHints := y.heldHints.drop 1, resp := y.resp.map RBeat.nearer, respMore := y.respMore.map RBeat.nearer }
      if (y.resp.head?.map RBeat.ahead) = some 1 then setJoint d j { jointOf d j with respWait := some (now e) } else d

/-- R244, R247. The agent accepts a response beat: the first beat of a response not before its WAKE is presented. -/
def beatTaken (e : Env) (d : Dp) (j : Nat) : Dp :=
  let y := jointOf d j
  match y.resp with
  | [] => d
  | b :: rest =>
    if e.stop.stopped || b.ahead != 0 then d
    else
      let z := ({ y with resp := rest } : Joint).fill
      setJoint d j { z with respWait := if z.resp.isEmpty then none else some (now e), stallSent := unmark y.stallSent 8 }

/-- R247, R249. One JOINT_STALL incident for each wait of the joint, for the acceptance of a response or for a SEAL_ACK, that has passed 1,024 tile cycles. A beat that waits for its WAKE is not presented yet (R244). -/
def stalled (e : Env) (d : Dp) (j : Nat) : Dp :=
  let y := jointOf d j
  let long := fun (c : Nat) => decide (1024 < now e - c)
  let resp := y.respWait.any long && y.resp.head?.any (fun b => b.ahead == 0) && !y.stallSent.getLsbD 8
  let sl := y.seals.find? (fun s => long s.2 && !y.stallSent.getLsbD s.1)
  if e.stop.stopped || !(resp || sl.isSome) then d
  else
    let told := (if resp then 256#9 else 0#9) ||| (match sl with | some s => BitVec.ofNat 9 (2 ^ s.1) | none => 0#9)
    let d := setJoint d j { y with stallSent := y.stallSent ||| told }
    report e d (.joint j) { mkReport e (mkKey e 4 j .jointStall) none with
      d2 := BitVec.ofNat 32 (pack [(0, 1, b2n resp), (1, 1, b2n sl.isSome), (2, 3, (sl.map Prod.fst).getD 0)]) }

/-! ### Departures at a joint (R115, R143, R248, R341) -/

/-- R115, R330. Every bed of joint j for a brick of partition p loses an agent that departs from it. -/
def departBeds (e : Env) (d : Dp) (j slot : Nat) (p : BitVec 4) : Dp :=
  ((jointOf d j).beds.filter (fun b => b.part == p)).foldl (fun d b => departBed e d j slot b) d

/-- R143. One departure report for every available logical tile. -/
def departReports (e : Env) (d : Dp) (j agent : Nat) (p : BitVec 4) : Dp :=
  (List.range 32).foldl (fun d t => if unavailable e t then d else send e d (.joint j) (.tile t) .req p (.depart agent)) d

/-- R248. The entries of a slot end without a response; an unsealed request is discarded and counted. DESIGN CHOICE (log 56): where the forwarded TOK_GET of a handle goes with them, the next oldest is forwarded at a nudge or at the response to the one that went, and not before. -/
def dropEntries (e : Env) (d : Dp) (j slot : Nat) : Dp :=
  let y := jointOf d j
  let mine := y.entries.filter (fun x => x.req.slot.toNat == slot)
  let unsealed := (mine.filter (fun x => x.phase == .sealing || x.phase == .behind)).length
  let held := (y.held.filter (fun r => mine.any (fun x => x.id == r.entry))).length
  let d := setJoint d j { y with entries := y.entries.filter (fun x => x.req.slot.toNat != slot)
                                 held := y.held.filter (fun r => !(mine.any (fun x => x.id == r.entry))), seals := fdel y.seals slot
                                 acked := y.acked &&& ~~~ (BitVec.ofNat 8 (2 ^ slot)), stallSent := unmark y.stallSent slot }
  bumpK e (bumpK e d 2 j 3 unsealed) 2 j 4 held

/-- R341. What a departure sends while the agent's partition p is frozen is recorded instead. -/
def recordHods (d0 d1 : Dp) (p : BitVec 4) : Dp :=
  let new := d1.net.drop d0.net.length
  let x := partOf d1 p
  setPart { d1 with net := d1.net.take d0.net.length } p { x with recHods := x.recHods ++ new, departed := true }

/-- R115, R143, R341. The joint of a departing agent acts; p is the partition the agent departs from. -/
def agentDeparts (e : Env) (d : Dp) (agent : Nat) : Dp :=
  let j := agent / 8
  let slot := agent % 8
  match d.departing.find? (fun a => a.1 == agent) with
  | none => d
  | some (_, p) =>
    if e.stop.stopped || e.pwr.pfFrozen then d
    else
      let d := dropEntries e { d with departing := d.departing.filter (fun a => a.1 != agent) } j slot
      let st := (partOf d p).st
      if st = .saved || st = .restoring then
        let x := partOf d p
        setPart d p { x with departed := true, depMap := setInsert agent x.depMap }
      else
        let d2 := departReports e (departBeds e d j slot p) j agent p
        if (jointOf d j).frozen.contains p.toNat then recordHods d d2 p else d2

/-- R114. An agent is to depart from its partition; one without a partition has nothing to leave. -/
def markDeparting (d : Dp) (agent : Nat) : Dp :=
  match agentPart d (agent / 8) (agent % 8) with
  | some p => if d.departing.any (fun a => a.1 == agent) then d else { d with departing := d.departing ++ [(agent, p)] }
  | none => d

/-! ### Meanings -/

def execArrive (j : BitVec 7) (r : Req) (s : State) : Host.Outcome State Fault Refusal :=
  .next { s with dp := agentRequest s.env s.dp j.toNat r .arrive }

def execArriveWait (j : BitVec 7) (r : Req) (s : State) : Host.Outcome State Fault Refusal :=
  .next { s with dp := agentRequest s.env s.dp j.toNat r .arriveWait }

def execWait (j : BitVec 7) (r : Req) (s : State) : Host.Outcome State Fault Refusal :=
  .next { s with dp := agentRequest s.env s.dp j.toNat r .wait }

def execTest (j : BitVec 7) (r : Req) (s : State) : Host.Outcome State Fault Refusal :=
  .next { s with dp := agentRequest s.env s.dp j.toNat r .test }

def execSemTake (j : BitVec 7) (r : Req) (s : State) : Host.Outcome State Fault Refusal :=
  .next { s with dp := agentRequest s.env s.dp j.toNat r .semTake }

def execSemTry (j : BitVec 7) (r : Req) (s : State) : Host.Outcome State Fault Refusal :=
  .next { s with dp := agentRequest s.env s.dp j.toNat r .semTry }

def execSemGive (j : BitVec 7) (r : Req) (s : State) : Host.Outcome State Fault Refusal :=
  .next { s with dp := agentRequest s.env s.dp j.toNat r .semGive }

def execLockAcq (j : BitVec 7) (r : Req) (s : State) : Host.Outcome State Fault Refusal :=
  .next { s with dp := agentRequest s.env s.dp j.toNat r .lockAcq }

def execLockTry (j : BitVec 7) (r : Req) (s : State) : Host.Outcome State Fault Refusal :=
  .next { s with dp := agentRequest s.env s.dp j.toNat r .lockTry }

def execLockRel (j : BitVec 7) (r : Req) (s : State) : Host.Outcome State Fault Refusal :=
  .next { s with dp := agentRequest s.env s.dp j.toNat r .lockRel }

def execTokPut (j : BitVec 7) (r : Req) (s : State) : Host.Outcome State Fault Refusal :=
  .next { s with dp := agentRequest s.env s.dp j.toNat r .tokPut }

def execTokGet (j : BitVec 7) (r : Req) (s : State) : Host.Outcome State Fault Refusal :=
  .next { s with dp := agentRequest s.env s.dp j.toNat r .tokGet }

def execTokTryget (j : BitVec 7) (r : Req) (s : State) : Host.Outcome State Fault Refusal :=
  .next { s with dp := agentRequest s.env s.dp j.toNat r .tokTryget }

def execEvtSet (j : BitVec 7) (r : Req) (s : State) : Host.Outcome State Fault Refusal :=
  .next { s with dp := agentRequest s.env s.dp j.toNat r .evtSet }

def execEvtWait (j : BitVec 7) (r : Req) (s : State) : Host.Outcome State Fault Refusal :=
  .next { s with dp := agentRequest s.env s.dp j.toNat r .evtWait }

def execEvtClear (j : BitVec 7) (r : Req) (s : State) : Host.Outcome State Fault Refusal :=
  .next { s with dp := agentRequest s.env s.dp j.toNat r .evtClear }

def execQuery (j : BitVec 7) (r : Req) (s : State) : Host.Outcome State Fault Refusal :=
  .next { s with dp := agentRequest s.env s.dp j.toNat r .query }

/-- R237. SEAL_ACK. -/
def execSealAck (j : BitVec 7) (slot : BitVec 3) (s : State) : Host.Outcome State Fault Refusal :=
  .next { s with dp := sealAcked s.env s.dp j.toNat slot }

/-- R495. -/
def execResponseHod (n : Nat) (s : State) : Host.Outcome State Fault Refusal := .next { s with dp := responseHod s.env s.dp n }

/-- R164. -/
def execNudge (n : Nat) (s : State) : Host.Outcome State Fault Refusal := .next { s with dp := takeNudge s.env s.dp n }

/-- R101. -/
def execReleaseCopy (n : Nat) (s : State) : Host.Outcome State Fault Refusal := .next { s with dp := releaseAtJoint s.env s.dp n }

/-- R110. -/
def execWatcherCopy (n : Nat) (s : State) : Host.Outcome State Fault Refusal := .next { s with dp := watcherAtJoint s.env s.dp n }

/-- R121. -/
def execAlignedReleaseInstant (j : BitVec 7) (s : State) : Host.Outcome State Fault Refusal :=
  .next (if s.env.stop.stopped || s.env.pwr.pfFrozen then s else { s with dp := deliverHeld s.env s.dp j.toNat (fun _ => false) })

/-- R245. -/
def execHintAccept (j : BitVec 7) (s : State) : Host.Outcome State Fault Refusal := .next { s with dp := hintTaken s.env s.dp j.toNat }

/-- R247. -/
def execResponseAccept (j : BitVec 7) (s : State) : Host.Outcome State Fault Refusal := .next { s with dp := beatTaken s.env s.dp j.toNat }

/-- R247. -/
def execJointStall (j : BitVec 7) (s : State) : Host.Outcome State Fault Refusal := .next { s with dp := stalled s.env s.dp j.toNat }

/-- R115. -/
def execAgentDeparture (agent : BitVec 10) (s : State) : Host.Outcome State Fault Refusal :=
  .next { s with dp := agentDeparts s.env s.dp agent.toNat }

end Sys2Proof.Machine
end

