-- ==== Sys2Proof/Machine/Hods.lean ====
section
/-! DEFINITION. Sys2Proof/Machine/Hods.lean: hods that a home tile, a branch router or a member joint takes: arrivals, forwarded waits, unwatches, shrinks, departure reports, sweeps, forwarded puts and bounces; deadlines; and the meanings of those events. -/

namespace Sys2Proof.Machine

/-! ### Departure reports (R143, R144) -/

/-- R143, R144. What the departure of an agent does to brick i of tile t. DESIGN CHOICE (log 58): a held lock that has been evicted changes where it stands, with no fetch of its record. -/
def departBrick (e : Env) (t agent i : Nat) (d : Dp) : Dp :=
  let b := brickOf d i
  let h := brickHandle e i b
  let go := fun (body : Body) (evs : List QEv) (abandoned : Bool) =>
    let d := setBody d i b body
    let d := if abandoned then bumpT e d t 20 else d
    let d := noteGrants e t b h evs d
    emit e d t i 0 (qHods t b h evs) none
  if !b.valid || b.lost.isSome then d
  else
    match b.body with
    | .lock l =>
      if l.queue.any (fun w => w.agent == agent) || (l.held && l.hagent == agent) then
        let (l2, evs, ab) := l.depart agent
        go (.lock l2) evs ab
      else d
    | .semaphore s =>
      if s.queue.any (fun w => w.agent == agent) then
        let (s2, evs) := s.depart agent
        go (.semaphore s2) evs false
      else d
    | _ => d

/-- R23, R143, R153. A tile takes an agent's departure report from partition p. On a brick with operations parked on its fetch, which the tile took before, the report acts behind them. -/
def takeDeparture (e : Env) (d : Dp) (t agent : Nat) (p : BitVec 4) : Dp :=
  let x := tileOf d t
  let waits := fun (i : Nat) => x.fetches.any (fun f => f.index == i)
  let d := setTile d t { x with fetches := x.fetches.map (fun f => { f with parked := f.parked ++ [.depart agent] }) }
  ((d.bricks.filter (fun b => homeOf e b.1 == t && b.2.part == p && !waits b.1)).map Prod.fst).foldl (fun d i => departBrick e t agent i d) d

/-! ### Hods at a home tile -/

/-- The brick that a hod's effect needs resident. -/
def HodBody.needs : HodBody → Option Nat
  | .req _ i _ => some i
  | .arrival a => some a.index
  | .shrink i _ _ _ _ _ _ => some i
  | .fwdWait i _ _ _ => some i
  | .unwatch i _ => some i
  | _ => none

/-- R61. A token operation whose pallet has been freed meanwhile is answered BAD_HANDLE, one whose pallet is not configured BUSY. -/
def palGone (e : Env) (d : Dp) (i joint entry : Nat) (h : Dword) : Dp :=
  let b := brickOf d i
  sendHod e d (replyHod (homeOf e i) joint entry (hPart h) (if b.valid && brickHandle e i b == h then Resp.plain .busy else Resp.plain .badHandle))

/-- The pallet that a token operation names is still there, and configured. -/
def palThere (e : Env) (d : Dp) (i : Nat) (h : Dword) : Bool :=
  let b := brickOf d i
  b.valid && brickHandle e i b == h && (stripeOf d i 0).isSome

/-- R162. A hod of pallet i at the tile of a stripe k that is not there any more goes on REQ to stripe 0. -/
def missed (e : Env) (d : Dp) (i k : Nat) (body : HodBody) : Dp :=
  send e d (.tile (stripeTile e i k)) (.tile (homeOf e i)) .req (brickOf d i).part body

/-- R162, R167, R172. A sweep at the tile of stripe k, whose first stripe is one of the S that the pallet has now; a tile without that stripe passes it on to stripe 0, which is its first stripe then, a lost sibling passes it on, and a get whose own stripe is lost is answered LOST. -/
def takePalSweep (e : Env) (d : Dp) (i k : Nat) (g : GetOp) : Dp :=
  if !palThere e d i g.handle then palGone e d i g.joint g.entry g.handle
  else
    match stripeOf d i k with
    | none => missed e d i k (.palSweep i 0 { g with first := 0, miss := true })
    | some s =>
      let g := { g with first := g.first % 2 ^ s.log2s }
      match s.lost with
      | none => palGet e d i k { g with miss := false } (k == g.first && !g.miss)
      | some key => if k = g.first then stripeLost e d i k g.joint g.entry key else palEmpty e d i k s g

/-- R162, R168, R172. A forwarded put at the tile of stripe k, or one that comes back; a tile without that stripe passes it on to stripe 0, which checks STRIPE where SEL names it; a lost stripe answers LOST for its own put. -/
def takeFwdPut (e : Env) (d : Dp) (i k : Nat) (p : PutOp) : Dp :=
  if !palThere e d i p.handle then palGone e d i p.joint p.entry p.handle
  else
    match stripeOf d i k with
    | none => missed e d i k (.fwdPut i 0 { p with from_ := none, miss := true })
    | some s =>
      match s.lost, p.from_, p.miss, p.sel with
      | _, _, true, some w =>
        if 2 ^ s.log2s ≤ w then palReply e d i k p.joint p.entry p.agent p.gang p.tag .tokPut (s.resp .badCount 0 false [])
        else if w = k then (match s.lost with | some key => stripeLost e d i k p.joint p.entry key | none => palPut e d i k { p with miss := false })
        else send e d (.tile (stripeTile e i k)) (.tile (stripeTile e i w)) .req (brickOf d i).part (.fwdPut i w { p with miss := false })
      | some key, some f, _, _ => if f = k then stripeLost e d i k p.joint p.entry key else palReturn e d i k f p
      | some key, none, _, _ => stripeLost e d i k p.joint p.entry key
      | none, _, _, _ => palPut e d i k { p with miss := false }

/-- R110. A watcher slot is given up. -/
def takeUnwatch (e : Env) (d : Dp) (i j : Nat) : Dp :=
  let b := brickOf d i
  match b.body with
  | .barrier x => emitNone e (setBody d i b (.barrier { x with watch := modFirst (fun w => w == some j) (fun _ => none) x.watch })) (homeOf e i) i 0
  | _ => d

/-- A hod at tile t, its brick resident. DESIGN CHOICE (log 64): a forwarded WAIT whose entry its joint no longer holds is answered BUSY. -/
def runHod (e : Env) (d : Dp) (t : Nat) (h : Hod) : Dp :=
  match h.body with
  | .req j _ x => homeAt e d t j x
  | .arrival a => takeArrival e d a
  | .shrink i c n k ex agent _ => takeShrink e d i c n k ex agent
  | .fwdWait _ j entry target =>
    (match (jointOf d j).entries.find? (fun y => y.id == entry) with
      | some y => homeTake e d t j { y with target := target }
      | none => sendHod e d (replyHod t j entry h.part (Resp.plain .busy)))
  | .unwatch i j => takeUnwatch e d i j
  | .depart agent => takeDeparture e d t agent h.part
  | .palSweep i k g => takePalSweep e d i k g
  | .fwdPut i k p => takeFwdPut e d i k p
  | _ => d

/-- R382. The joints whose waits an arrival hod for an unavailable tile stands for: its own, or those whose way passes the router that has combined it. -/
def arrivalJoints (e : Env) (d : Dp) (t : Nat) (h : Hod) (a : Arrival) : List Nat :=
  match h.src with
  | .router r => (bedJoints d a.handle false).filter (fun j => (route (jointRouter e j) (tileRouter e t)).contains r)
  | _ => [a.joint]

/-- R382. An arrival hod for unavailable logical tile t is answered FENCED: the answer ends the waits on its barrier at the joints it comes from. -/
def fencedArrival (e : Env) (d : Dp) (t : Nat) (h : Hod) (a : Arrival) : Dp :=
  let hs := (arrivalJoints e d t h a).map (fun j => mkHod (.tile t) (.joint j) .rsp h.part (.release (endRel a.index a.handle (a.course - 1) .fenced)))
  match (tileOf d t).unavailInc with
  | some k => sendNumbered e d (.tile t) k hs
  | none => sendAll e hs d

/-- R382, R383. A hod addressed to an unavailable logical tile: what has an answer is answered FENCED. -/
def fencedHod (e : Env) (d : Dp) (t : Nat) (h : Hod) : Dp :=
  match h.body with
  | .req j _ x => fencedReply e d t j x.id h.part
  | .fwdWait _ j entry _ => fencedReply e d t j entry h.part
  | .palSweep _ _ g => fencedReply e d t g.joint g.entry h.part
  | .fwdPut _ _ p => fencedReply e d t p.joint p.entry h.part
  | .arrival a => fencedArrival e d t h a
  | _ => d

/-- R22, R23, R68. Tile t takes hod n of the kind that `is` names: parked on its brick's fetch, or run. At the fetch limit it takes no REQ hod. -/
def tileHod (e : Env) (d : Dp) (n : Nat) (is : HodBody → Bool) : Dp :=
  match takeable e d n with
  | none => d
  | some h =>
    match h.dst with
    | .tile t =>
      if !is h.body then d
      else if unavailable e t then fencedHod e (dropHod d n) t h
      else if !tileServes e d t || (h.vc == .req && !reqOpen d t) then d
      else
        let d := tookTrain e (dropHod d n) t h.vc h.body.hods
        (match h.body.needs with
          | some i => if mustFetch e d i then park e d t i (.hod h) else runHod e d t h
          | none => runHod e d t h)
    | _ => d

/-- Tile t takes a hod that holds arrivals. -/
def isArrival : HodBody → Bool
  | .arrival _ => true
  | _ => false

def isShrink : HodBody → Bool
  | .shrink _ _ _ _ _ _ _ => true
  | _ => false

def isFwdWait : HodBody → Bool
  | .fwdWait _ _ _ _ => true
  | _ => false

def isUnwatch : HodBody → Bool
  | .unwatch _ _ => true
  | _ => false

def isDepart : HodBody → Bool
  | .depart _ => true
  | _ => false

def isPalSweep : HodBody → Bool
  | .palSweep _ _ _ => true
  | _ => false

def isFwdPut : HodBody → Bool
  | .fwdPut _ _ _ => true
  | _ => false

/-- R32. A branch router takes an arrival or shrink hod. -/
def routerHod (e : Env) (d : Dp) (n : Nat) : Dp :=
  match takeable e d n with
  | none => d
  | some h =>
    match h.dst with
    | .router r => combTake e (dropHod d n) h r
    | _ => d

/-! ### Joints: sweeps and bounces -/

/-- R112. The agents of a bed whose a < e. -/
def Bed.missing (b : Bed) : BitVec 8 := BitVec.ofNat 8 (bitmap ((b.members.filter (fun m => decide (m.a < m.e))).map BedMember.slot))

/-- R112. A member joint answers a deadline sweep. -/
def takeSweepHod (e : Env) (d : Dp) (n : Nat) : Dp :=
  match takeable e d n with
  | none => d
  | some h =>
    match h.dst, h.body with
    | .joint j, .sweep i c =>
      let m := match (jointOf d j).beds.find? (fun b => !b.waiting && b.index == i) with
        | some b => b.missing
        | none => 0
      send e (dropHod d n) (.joint j) (.tile (homeOf e i)) .mgmt h.part (.sweepAns i c j m)
    | _, _ => d

/-- R204, R245, R247. A joint that takes RSP hods takes a bounce and re-sends the contribution 64 tile cycles later; once its partition is frozen there, the contribution is kept until the resumption (R220, R333). -/
def takeBounce (e : Env) (d : Dp) (n : Nat) : Dp :=
  match takeable e d n with
  | none => d
  | some h =>
    match h.dst, h.body with
    | .joint j, .bounce a =>
      if !takesRsp d j then d
      else
      let d := bumpK e (dropHod d n) 2 j 6 1
      let up := match bedFor d j a.handle with
        | some b => b.dest e
        | none => .tile (homeOf e a.index)
      if (jointOf d j).frozen.contains h.part.toNat then keepFrozen d (mkHod (.joint j) up .req h.part (.arrival a))
      else sendAt e d (.joint j) up .req h.part (.arrival a) (now e + 64)
    | _, _ => d

/-! ### Deadlines (R111, R112, R120) -/

/-- R112, R343. GT reaches DL_AT with the course open. -/
def barrierExpiry (e : Env) (d : Dp) (i : Nat) : Dp :=
  let b := brickOf d i
  let t := homeOf e i
  match b.body with
  | .barrier x =>
    if b.valid && b.lost.isNone && x.dlAt != 0 && reached (tileGt e t) x.dlAt && tileServes e d t && !recordsNow e d b.part then expireBarrier e d i b x else d
  | _ => d

/-- R113. -/
def barrierSweep (e : Env) (d : Dp) (i : Nat) : Dp := if tileServes e d (homeOf e i) then collectSweep e d i false else d

/-- R120, R266. The probes of a bond commit are answered after `delay`: PATH is that delay, rounded up to 16 GT units; the root of a tree probes its children too, and sets PATH when they have answered. -/
def probePath (e : Env) (d : Dp) (i delay : Nat) : Dp :=
  let b := brickOf d i
  let g := tileGt e (homeOf e i)
  match b.body with
  | .barrier x =>
    if b.valid && b.lost.isNone && x.measure == 2 && tileServes e d (homeOf e i) then
      match fget d.lintels i with
      | some l =>
        let n := l.probed
        if l.upv || n.isEmpty then
          emitNone e (setBody d i b (.barrier { x with path := roundPath (if l.upv then delay else delay + 1024), measure := 0 })) (homeOf e i) i 0
        else
          let d := setBody d i b (.barrier { x with measure := 0 })
          let d := { d with lintels := fput d.lintels i { l with probe := some (n, g, g + BitVec.ofNat 64 delay) } }
          sendKids e d i { HodRec.blank 6 0 (x.course + 1) with instant := g } 0
      | none => emitNone e (setBody d i b (.barrier { x with path := roundPath delay, measure := 0 })) (homeOf e i) i 0
    else d
  | _ => d

/-! ### Pallet ring accesses -/

/-- R165, R166, R173. A ring access of stripe k of pallet i has ended. -/
def ringEnd (e : Env) (i k : Nat) (d : Dp) (x : RingEnd) : Dp :=
  match x with
  | .wrote => ringWritten e d i k
  | .filled => refilled e d i k
  | .fault refill addr => ringFault e d i k refill addr

/-- The end is that of a refill. -/
def RingEnd.ofRefill : RingEnd → Bool
  | .wrote => false
  | .filled => true
  | .fault r _ => r

/-- R416. The access of a stripe that an end is of is out, and has not ended yet. -/
def stillOut (d : Dp) (i k : Nat) (x : RingEnd) : Bool :=
  (match stripeOf d i k with
    | some s => if x.ofRefill then s.refill.isSome && s.racc != .held else s.writing.isSome && s.wacc != .held
    | none => false)
  && !d.ringEnds.any (fun y => y.1 == stripeKey i k && y.2.ofRefill == x.ofRefill)

/-- R416, Table 13.7. A ring access of stripe k of pallet i ends at its tile while the tile serves; in a stop what the memory port answers is kept for GO, and the tile's state is held. -/
def stripeEvent (e : Env) (d : Dp) (i k : Nat) (x : RingEnd) : Dp :=
  let t := stripeTile e i k
  if unavailable e t || (tileOf d t).test.isSome || e.pwr.pfFrozen then d
  else if e.stop.stopped then (if stillOut d i k x then { d with ringEnds := d.ringEnds ++ [(stripeKey i k, x)] } else d)
  else ringEnd e i k d x

/-- R416. At GO the stripes go on with what the memory port answered during the stop. -/
def endKept (e : Env) (d : Dp) : Dp :=
  d.ringEnds.foldl (fun d x => ringEnd e (x.1 / 8) (x.1 % 8) d x.2) { d with ringEnds := [] }

/-! ### The flits of a hod (R24, R27, R198) -/

/-- The number of a port as router x 8 + port. -/
def portUnit (e : Env) (p : Port) : Nat := portRouter e p * 8 + portNumber e p

/-- R27. The handle that the first payload flit of hod h carries; 0 where a hod concerns no brick. -/
def Hod.handle (e : Env) (d : Dp) (h : Hod) : Dword :=
  let ofIndex := fun (i : Nat) => brickHandle e i (brickOf d i)
  match h.body with
  | .req _ _ x => x.req.handle
  | .arrival a | .bounce a => a.handle
  | .release r | .watcher r => r.handle
  | .evtRelease _ x _ _ _ => x
  | .hint x => x.handle
  | .nudge _ x => x
  | .palSweep _ _ g => g.handle
  | .fwdPut _ _ p => p.handle
  | .shrink i _ _ _ _ _ _ | .fwdWait i _ _ _ | .unwatch i _ | .sweep i _ | .sweepAns i _ _ _ => ofIndex i
  | .resp n _ => (match h.dst with | .joint j => ((entryOf d j n).map (fun x => x.req.handle)).getD 0 | _ => 0)
  | .mirUpd n _ | .mirAck n _ => ((d.mirUpds.find? (fun u => u.id == n)).map (fun u => ofIndex u.index)).getD 0
  | .depart _ => 0

/-- The bytes of grout, result beats or tokens of a hod. -/
def HodBody.content (d : Dp) : HodBody → List Byte
  | .arrival a | .bounce a => (match a.pay with
    | .none => []
    | .one _ _ b => b
    | .acc x _ => (match (barrierOf d a.index).bind Barrier.cfg with | some c => encodePartial c x | none => []))
  | .release r | .watcher r => ofBeats r.beats
  | .resp _ r => ofBeats r.beats
  | .req _ _ x => ofBeats x.req.beats
  | .fwdPut _ _ p => p.toks.flatMap (fun t => leBytes 8 t.toNat)
  | _ => []

/-- Word k of some bytes, as one flit carries it. -/
def flitWord (l : List Byte) (k : Nat) : Dword := BitVec.ofNat 64 (leNat ((l.drop (8 * k)).take 8))

/-- R24, R27, R198. The flits of hod h, or of its train, in the order in which a link carries them: of each hod two, and then at most 8 of its grout. -/
def Hod.flits (e : Env) (d : Dp) (h : Hod) : List (BitVec 88) :=
  let words := (List.range (ceilDiv h.body.bytes 8)).map (flitWord (h.body.content d))
  (List.range h.body.hods).flatMap (fun k =>
    hodFlits (portUnit e h.origin) (portUnit e h.dst) (vcIndex h.vc) (h.seq * 8 + k) (h.handle e d) ((words.drop (8 * k)).take 8))

/-! ### Meanings -/

/-- R99. -/
def execArrivalHod (n : Nat) (s : State) : Host.Outcome State Fault Refusal := .next { s with dp := tileHod s.env s.dp n isArrival }

/-- R32. -/
def execBranchCombine (n : Nat) (s : State) : Host.Outcome State Fault Refusal := .next { s with dp := routerHod s.env s.dp n }

/-- R109. -/
def execForwardedWait (n : Nat) (s : State) : Host.Outcome State Fault Refusal := .next { s with dp := tileHod s.env s.dp n isFwdWait }

/-- R110. -/
def execUnwatch (n : Nat) (s : State) : Host.Outcome State Fault Refusal := .next { s with dp := tileHod s.env s.dp n isUnwatch }

/-- R112. -/
def execBarrierDeadlineExpiry (i : BitVec 24) (s : State) : Host.Outcome State Fault Refusal :=
  .next { s with dp := barrierExpiry s.env s.dp i.toNat }

/-- R112. -/
def execSweepHod (n : Nat) (s : State) : Host.Outcome State Fault Refusal := .next { s with dp := takeSweepHod s.env s.dp n }

/-- R113. -/
def execSweepAnswers (i : BitVec 24) (s : State) : Host.Outcome State Fault Refusal := .next { s with dp := barrierSweep s.env s.dp i.toNat }

/-- R115. -/
def execShrinkHod (n : Nat) (s : State) : Host.Outcome State Fault Refusal := .next { s with dp := tileHod s.env s.dp n isShrink }

/-- R143. -/
def execDepartureReport (n : Nat) (s : State) : Host.Outcome State Fault Refusal := .next { s with dp := tileHod s.env s.dp n isDepart }

/-- R151. -/
def execWaitDeadlineExpiry (i : BitVec 24) (agent : BitVec 10) (gang : BitVec 6) (s : State) : Host.Outcome State Fault Refusal :=
  .next { s with dp := waitExpiry s.env s.dp i.toNat agent.toNat gang }

/-- R167. -/
def execPalletSweep (n : Nat) (s : State) : Host.Outcome State Fault Refusal := .next { s with dp := tileHod s.env s.dp n isPalSweep }

/-- R168. -/
def execForwardedPut (n : Nat) (s : State) : Host.Outcome State Fault Refusal := .next { s with dp := tileHod s.env s.dp n isFwdPut }

/-- R165. -/
def execRingWriteDone (i : BitVec 24) (k : BitVec 3) (s : State) : Host.Outcome State Fault Refusal :=
  .next { s with dp := stripeEvent s.env s.dp i.toNat k.toNat .wrote }

/-- R166. -/
def execRefillDone (i : BitVec 24) (k : BitVec 3) (s : State) : Host.Outcome State Fault Refusal :=
  .next { s with dp := stripeEvent s.env s.dp i.toNat k.toNat .filled }

/-- R173. -/
def execPalletRingFault (i : BitVec 24) (k : BitVec 3) (refill : Bool) (addr : Dword) (s : State) : Host.Outcome State Fault Refusal :=
  .next { s with dp := stripeEvent s.env s.dp i.toNat k.toNat (.fault refill addr) }

/-- R204. -/
def execBounce (n : Nat) (s : State) : Host.Outcome State Fault Refusal := .next { s with dp := takeBounce s.env s.dp n }

/-- R120. -/
def execPathProbe (i : BitVec 24) (delay : Nat) (s : State) : Host.Outcome State Fault Refusal :=
  .next { s with dp := probePath s.env s.dp i.toNat delay }

end Sys2Proof.Machine
end

