-- ==== Sys2Proof/Machine/Fetch.lean ====
section
/-! DEFINITION. Sys2Proof/Machine/Fetch.lean: fetches and what is parked on them (R23, R67, R68, R373), mirror updates (R74, R130), management stealing (R175, R176), hods sent back (R374) and flit errors (R31). -/

namespace Sys2Proof.Machine

/-! ### Fetches -/

/-- R310, R23, R323. The descriptor at the head of a ring, whose brick has been fetched, runs at its home tile: the front end has passed it before. -/
def rerunDesc (e : Env) (d : Dp) (r : RingId) (list : List Dword) (table : List Byte) : Dp :=
  match (ringOf d r).ahead with
  | [] => d
  | x :: _ =>
    let op := dOp x
    let t := (frontOf e d r).getD 0
    afterDesc e r
      (if op = 0x41 then brickFree e d t r x list table
      else if op = 0x42 then barrierArm e d r x
      else if op = 0x43 then bondSet e d r x list
      else if op = 0x44 then groutCfg e d r x
      else if op = 0x45 then weightLoad e d r x table
      else if op = 0x46 then lintelLink e d r x
      else if op = 0x47 then palletCfg e d r x
      else d)

/-- R23. One operation that was parked on brick i of tile t. -/
def runParked (e : Env) (t i : Nat) (d : Dp) (p : Parked) : Dp :=
  match p with
  | .req j x => homeExec e d t 0 j x
  | .hod h => runHod e d t h
  | .depart agent => departBrick e t agent i d
  | .desc r list table => rerunDesc e d r list table

/-- Nanoseconds since an instant, holding at 0xFF_FFFF (Table 13.10). -/
def waitNs (g start : Dword) : Nat := min ((g - start).toNat / 16) 0xFFFFFF

/-- Bits [lo + n - 1 : lo] of a record. -/
def recField (w : BitVec 512) (lo n : Nat) : Nat := bits w.toNat lo n

/-- Table 3.1, read back. The member lists of a bond and the grout are in no record: they stay as they were. -/
def Barrier.ofRecord (x : Barrier) (w : BitVec 512) : Barrier :=
  let f := recField w
  let b := w.getLsbD
  let bond := fun (o : Option Bond) (ex lc : Nat) => { (o.getD { expect := 0, lchild := 0, members := [] }) with expect := ex, lchild := lc }
  { x with
    course := BitVec.ofNat 32 (f 128 32), expect := f 160 16, count := f 176 16, ahead := f 192 16, bond := if b 217 then some (bond x.bond (f 160 16) (f 208 7)) else x.bond.map (fun n => { n with lchild := f 208 7 })
    armed := b 216, bonded := b 217, poisoned := b 218, shrunk := b 223, path := f 256 24, dlAt := BitVec.ofNat 64 (f 288 64), nextDelta := f 416 16
    arm := { deadline := BitVec.ofNat 24 (f 224 24), stagger := BitVec.ofNat 8 (f 248 8), depart := b 219, release := BitVec.ofNat 2 (f 220 2) }
    shArm := if b 222 && (!b 387 || f 352 35 != 0) then some { deadline := BitVec.ofNat 24 (f 352 24), stagger := BitVec.ofNat 8 (f 376 8), depart := b 384, release := BitVec.ofNat 2 (f 385 2) } else none
    shBond := if b 387 then some (bond x.shBond (f 392 16) (f 408 7)) else none
    watch := (List.range 10).map (fun i => if b (439 + 8 * i) then some (f (432 + 8 * i) 7) else none) }

/-- R130, R136. The waiters that the heads of a written record name in tile t's waiter store: each level from its head on, as the entries stand there. -/
def queueFrom (e : Env) (d : Dp) (t : Nat) (w : BitVec 512) : List Waiter :=
  let all := (d.bricks.filter (fun b => homeOf e b.1 == t)).map (fun b => b.2.queue)
  (List.range 8).flatMap (fun l =>
    if !w.getLsbD (208 + l) then []
    else
      let head := recField w (224 + 24 * l) 12
      match all.find? (fun q => q.any (fun v => v.store.toNat == head)) with
      | none => []
      | some q =>
        let lv := ((q.find? (fun v => v.store.toNat == head)).map (fun v => v.prio)).getD 0
        (q.filter (fun v => v.prio == lv)).dropWhile (fun v => v.store.toNat != head))

/-- R185. The grout of a barrier whose written header says GROUTED, GRT_BASE and GRT_COUNT; what stands in its granules is in no record. -/
def groutFrom (x : Barrier) (w : BitVec 512) : Option Grout :=
  let run := fun (r : Run) => { r with base := recField w 64 12, count := recField w 80 8 }
  if !w.getLsbD 6 then none
  else
    match x.grout with
    | some g => some { g with run := run g.run }
    | none => some { run := run { cfg := none, weights := none, base := 0, count := 0, byCfg := false }, acc := { lanes := [], cnt := 0, flags := 0 }, next := 0
                     window := [], cum := 0, result := [], resFlags := 0, empty := true }

/-- Tables 3.1, 4.2, 4.5 and R125, read back, with the waiters that the record names. -/
def Body.ofRecord (old : Body) (t : BType) (q : List Waiter) (w : BitVec 512) : Body :=
  let f := recField w
  match t with
  | .barrier =>
    let x := match old with | .barrier x => x | _ => Barrier.init
    .barrier { x.ofRecord w with grout := groutFrom x w, shRun := if w.getLsbD 222 then x.shRun else none }
  | .semaphore => .semaphore { count := f 128 32, queue := q }
  | .lock => .lock { held := w.getLsbD 128, abandoned := w.getLsbD 129, hprio := BitVec.ofNat 3 (f 132 3), eprio := BitVec.ofNat 3 (f 136 3), hagent := f 144 10
                     hgang := BitVec.ofNat 6 (f 154 6), grants := BitVec.ofNat 32 (f 160 32), queue := q }
  | .pallet => .pallet
  | .event => .event { set := w.getLsbD 128, sets := BitVec.ofNat 32 (f 160 32), waitj := (List.range 128).filter (fun j => w.getLsbD (192 + j)) }

/-- R64, Table 2.4. The brick that a record read from the backing store makes; step 8 of Table 2.3 refuses one of a reserved type. -/
def Brick.ofRecord (old : Brick) (q : List Waiter) (w : BitVec 512) : Brick :=
  let b := { old with valid := w.getLsbD 3, pin := w.getLsbD 4, mirrored := w.getLsbD 5, gen := BitVec.ofNat 8 (recField w 8 8)
                      part := BitVec.ofNat 4 (recField w 16 4), group := BitVec.ofNat 8 (recField w 20 8), mirror := recField w 32 5 }
  match BType.ofCode (recField w 0 3) with
  | none => { b with badType := some (BitVec.ofNat 3 (recField w 0 3)) }
  | some t => { b with typ := t, badType := none, body := old.body.ofRecord t q w }

/-- Table 5.2, read back. The tokens stand in granules and in the ring, and in no record: each is a free value (log 5). -/
def Stripe.ofRecord (w : BitVec 512) (mirror free : Nat) : Stripe :=
  let f := recField w
  let cached := f 208 7
  let toks := fun (a n : Nat) => (List.range n).map (fun k => Config.freeDword (free + a + k))
  { Stripe.fresh (f 132 3) (f 137 5) (f 135 2) (w.getLsbD 130) (BitVec.ofNat 64 (f 256 64)) (f 64 12) mirror with
    wacc := if w.getLsbD 129 then .held else .fine, puts := BitVec.ofNat 32 (f 144 32), gets := BitVec.ofNat 32 (f 176 32)
    cache := toks 0 cached, seg := toks cached ((BitVec.ofNat 32 (f 144 32) - BitVec.ofNat 32 (f 176 32)).toNat - cached)
    nextj := f 216 7, hungry := BitVec.ofNat 8 (f 224 8), waitj := (List.range 128).filter (fun j => w.getLsbD (320 + j)), faddr := BitVec.ofNat 64 (f 448 64) }

/-- R64. Stripe 0 of a pallet whose record software has written. -/
def readStripe (d : Dp) (i : Nat) (w : BitVec 512) : Dp :=
  if recField w 0 3 != 3 then d
  else if !w.getLsbD 128 then { d with stripes := fdel d.stripes (stripeKey i 0) }
  else
    let s := Stripe.ofRecord w (recField w 32 5) d.free
    { setStripe d i 0 s with free := d.free + s.cache.length + s.seg.length }

/-- R64. Brick i of tile t is what its record in memory says, where software has written it. -/
def readRecord (e : Env) (d : Dp) (t i : Nat) (record : Option (BitVec 512)) : Dp :=
  match record with
  | none => d
  | some w =>
    let d := readStripe (setBrick d i ((brickOf d i).ofRecord (queueFrom e d t w) w)) i w
    setBrick d i ((brickOf d i).keepStray (stripeOf d i 0) w)

/-- R67. Tile t's write-back of brick i is over, and a slot that waited for it is free. -/
def dropWback (d : Dp) (t i : Nat) : Dp :=
  let x := tileOf d t
  setTile d t { x with wbacks := x.wbacks.filter (fun w => w.1 != i), draining := x.draining.filter (fun k => k != i) }

/-- R23, R64, R67. The fetch of brick i is filled, and the operations parked on it run in arrival order. -/
def fillFetch (e : Env) (d : Dp) (t i : Nat) (f : Fetch) (record : Option (BitVec 512)) : Dp :=
  let x := tileOf d t
  let d := stillBusy e (setTile d t { x with fetches := x.fetches.filter (fun g => g.index != i) }) t
  let d := dropWback (match f.victim with | some v => dropWback d t v | none => d) t i
  let d := if (brickOf d i).lost.isSome then d else touchSlot (readRecord e d t i record) t (.brick i) false
  let d := trace e d t (some 4) (fetchRec e d t i 0x07 (waitNs (tileGt e t) f.start))
  issueFetch e (f.parked.foldl (runParked e t i) d) t

/-- R373. The BACKSTORE report of an access that faults or is retried. -/
def backstoreReport (e : Env) (d : Dp) (t : Nat) (addr : Dword) : Dp :=
  report e d (.tile t) { mkReport e (mkKey e 0 0 .backstore) none with d0 := addr }

/-- R373. The fetch of brick i faults: it is held, and every operation parked on it stays. -/
def holdFetch (e : Env) (d : Dp) (t i : Nat) : Dp :=
  let x := tileOf d t
  setTile d t { x with fetches := modFirst (fun g => g.index == i) (fun g => { g with heldAt := some (gtInterp e) }) x.fetches }

/-- R373. The write-back of brick i faults: it is held, and a fetch that waits for its slot or its record waits. -/
def holdWback (e : Env) (d : Dp) (t i : Nat) : Dp :=
  let x := tileOf d t
  setTile d t { x with wbacks := modFirst (fun w => w.1 == i) (fun w => (w.1, some (gtInterp e))) x.wbacks
                       fetches := x.fetches.map (fun f => if f.victim = some i then { f with issued := false } else f) }

/-- R374, R382, R416. Tile t takes what the memory port answers: during a stop too. -/
def tileHears (e : Env) (d : Dp) (t : Nat) : Bool := !unavailable e t && (tileOf d t).test.isNone && e.pwr.ready && !e.pwr.pfFrozen

/-- R416. The record that a fetch of brick i has brought during a stop is kept for GO. -/
def keepRecord (d : Dp) (t i : Nat) (record : Option (BitVec 512)) : Dp :=
  let x := tileOf d t
  setTile d t { x with fetches := modFirst (fun g => g.index == i) (fun g => { g with got := some record }) x.fetches }

/-- R23, R373, R416. The memory port answers the access for brick i: its fetch, or its write-back where no fetch of it is out. -/
def fetchDone (e : Env) (d : Dp) (i : Nat) (fault : Bool) (addr : Dword) (record : Option (BitVec 512)) : Dp :=
  let t := homeOf e i
  if !tileHears e d t then d
  else
    match (tileOf d t).fetches.find? (fun f => f.index == i && f.issued && f.heldAt.isNone && f.got.isNone) with
    | some f =>
      if fault then backstoreReport e (holdFetch e d t i) t addr
      else if e.stop.stopped then keepRecord d t i record
      else fillFetch e d t i f record
    | none =>
      if !((tileOf d t).wbacks.any (fun w => w.1 == i && w.2.isNone)) then d
      else if fault then backstoreReport e (holdWback e d t i) t addr
      else stillBusy e (dropWback d t i) t

/-- R416. At GO tile t goes on with the records that came during the stop. -/
def fillKept (e : Env) (d : Dp) (t : Nat) : Dp :=
  (tileOf d t).fetches.foldl (fun d f => match f.got with | some record => fillFetch e d t f.index f record | none => d) d

/-- GT units of 100 µs (R373, R289). -/
def hundredMicros : Nat := 1600000

/-- R373. 100 µs have passed since an access was held. -/
def retryDue (e : Env) (at_ : Option Dword) : Bool := match at_ with | some g => decide (hundredMicros ≤ (gtInterp e - g).toNat) | none => false

/-- R373. Every 100 µs a held fetch or write-back is retried; the BACKSTORE entry counts each retry. -/
def retryFetch (e : Env) (d : Dp) (i : Nat) (fault : Bool) (addr : Dword) (record : Option (BitVec 512)) : Dp :=
  let t := homeOf e i
  if !tileServes e d t then d
  else
    match (tileOf d t).fetches.find? (fun f => f.index == i && retryDue e f.heldAt) with
    | some f =>
      let d := memRead (backstoreReport e d t addr) 16 (e.kp.bsBase + BitVec.ofNat 64 (64 * i)) 64
      if fault then holdFetch e d t i else fillFetch e d t i f record
    | none =>
      if !((tileOf d t).wbacks.any (fun w => w.1 == i && retryDue e w.2)) then d
      else
        let d := memWrite (backstoreReport e d t addr) 16 (e.kp.bsBase + BitVec.ofNat 64 (64 * i)) 64 ((brickOf d i).record none)
        if fault then holdWback e d t i else issueFetch e (stillBusy e (dropWback d t i) t) t

/-- R67. A waiting fetch of tile t takes a slot that has become free or evictable. -/
def slotFree (e : Env) (d : Dp) (t : Nat) : Dp := if tileServes e d t then issueFetch e d t else d

/-! ### Mirrors (R74, R130) -/

/-- R67, R345. Update id makes a copy at tile t whose slot is not free yet. -/
def copyWaits (d : Dp) (t id : Nat) : Bool :=
  match d.mirUpds.find? (fun u => u.id == id) with
  | none => false
  | some u => match fget d.mirCopies (stripeKey u.index u.k) with
    | some m => !m.ready && decide (Config.slotsPerTile < (tileOf d t).used)
    | none => false

/-- R74, R199. A mirror tile takes an update: it applies it and acknowledges it, or reports that its waiter store is full. -/
def mirrorTake (e : Env) (d : Dp) (n : Nat) : Dp :=
  match takeable e d n with
  | none => d
  | some h =>
    match h.dst, h.body with
    | .tile t, .mirUpd id _ =>
      if unavailable e t then dropHod d n
      else if !tileServes e d t || copyWaits d t id then d
      else
        let d := tookHod e (dropHod d n) t .mgmt
        (match d.mirUpds.find? (fun u => u.id == id) with
          | none => d
          | some u =>
            let k := stripeKey u.index u.k
            match fget d.mirCopies k with
            | none => send e d (.tile t) (.tile u.home) .mgmt h.part (.mirAck id false)
            | some m =>
              let full := decide (m.copy.queue.length < u.copy.queue.length)
                && decide (Config.waiterStore + m.copy.queue.length < waitersAt e d t + u.copy.queue.length)
              let d := if full then d else bumpT e { d with mirCopies := fput d.mirCopies k { m with copy := u.copy, stripe := u.stripe } } t 32
              send e d (.tile t) (.tile u.home) .mgmt h.part (.mirAck id full))
    | _, _ => d

/-- R139. An INHERIT that waited for a refused update of lock i has gone: up to the next INHERIT on its way, the holder (agent, gang) knows what it knew before. -/
def toldBefore (i agent : Nat) (gang : BitVec 6) (before : BitVec 3) : List MirUpd → List MirUpd
  | [] => []
  | u :: l =>
    if u.index ≠ i then u :: toldBefore i agent gang before l
    else { u with undo := u.undo.map (fun x => (x.1, x.2.1, before)) } :: (if (lastInherit agent gang u.outs).isSome then l else toldBefore i agent gang before l)

/-- R130, R142. The waiter that a full mirror store refused is taken back and answered BUSY with the hods that were held for it, and nothing else changes: an INHERIT that it caused goes with it. -/
def undoWaiter (e : Env) (d : Dp) (t i : Nat) (agent gang : Nat) (before : BitVec 3) (outs : List Hod) : Dp :=
  let b := brickOf d i
  let h := brickHandle e i b
  match b.queue.find? (fun w => w.agent == agent && w.gang.toNat == gang) with
  | none => sendAll e outs d
  | some w =>
    let d := bumpT e d t 18
    let go := fun (d : Dp) (body : Body) (course : Word) (keep : List Hod) (evs : List QEv) =>
      let d := noteGrants e t b h evs (setBody (sendAll e keep d) i b body)
      emit e d t i 0 (replyHod t w.joint w.entry b.part (Resp.at .busy course) :: qHods t b h evs) none
    match b.body with
    | .lock l =>
      let later := lastInherit l.hagent l.hgang ((d.mirUpds.filter (fun u => u.index == i)).flatMap (fun u => u.outs))
      let own := (lastInherit l.hagent l.hgang outs).isSome
      let (l2, back, evs) := l.undo w before own later
      let d := if back && own then { d with mirUpds := toldBefore i l.hagent l.hgang before d.mirUpds } else d
      go d (.lock l2) l.grants (if back then outs.filter (fun h => match h.body with | .hint _ => false | _ => true) else outs) evs
    | .semaphore s =>
      let (s2, evs) := s.expire w
      go d (.semaphore s2) (BitVec.ofNat 32 s.count) outs evs
    | _ => d

/-- R75. Brick i (its stripe k) is mirrored: its copy has been acknowledged with every change made since. -/
def mirrored (d : Dp) (i k : Nat) : Dp :=
  match fget d.mirCopies (stripeKey i k) with
  | some m => if m.ready then d else { d with mirCopies := fput d.mirCopies (stripeKey i k) { m with ready := true } }
  | none => d

/-- R74, R75. The home tile takes the acknowledgement of an update: what waited for it is sent. -/
def mirrorAcked (e : Env) (d : Dp) (n : Nat) : Dp :=
  match takeable e d n with
  | none => d
  | some h =>
    match h.dst, h.body with
    | .tile t, .mirAck id full =>
      if unavailable e t then dropHod d n
      else if !tileServes e d t then d
      else
        let d := tookHod e (dropHod d n) t .mgmt
        (match d.mirUpds.find? (fun u => u.id == id) with
          | none => d
          | some u =>
            let rest := d.mirUpds.filter (fun v => v.id != id)
            let d := if rest.any (fun v => v.index == u.index && v.k == u.k) then { d with mirUpds := rest }
              else mirrored { d with mirUpds := rest } u.index u.k
            match full, u.undo with
            | true, some (a, g, p) => undoWaiter e d t u.index a g p u.outs
            | _, _ => (u.kids.map (retimeKid e d t u.index)).foldl (sendKid e u.index) (sendAll e (u.outs.map (retime e d)) d))
    | _, _ => d

/-! ### Management stealing (R175, R176) -/

/-- R175. Tile t is idle. -/
def tileIdle (e : Env) (d : Dp) (t : Nat) : Bool := decide (64 ≤ now e - (tileOf d t).idleCyc)

/-- R175 to R177. An idle tile takes the oldest stealable item of a busy one within RADIUS hops; RADIUS 0 turns it off. -/
def steal (e : Env) (d : Dp) (thief victim : Nat) : Dp :=
  let v := tileOf d victim
  match v.work with
  | [] => d
  | w :: rest =>
    if e.kp.radius = 0#3 || thief == victim || !tileServes e d thief || !tileServes e d victim || !tileIdle e d thief || decide (v.work.length ≤ e.kp.thresh.toNat)
        || decide (e.kp.radius.toNat < hops (tileRouter e thief) (tileRouter e victim)) then d
    else
      let d := setTile d victim { v with work := rest }
      let d := bumpT e (bumpT e d thief 22) victim 23
      let d := trace e d thief (some 5) { TRec.blank 0x08 with gt := tileGt e thief, aux := BitVec.ofNat 24 victim }
      match w with
      | .batch r => let x := tileOf d thief; setTile d thief { x with work := x.work ++ [.batch r] }
      | .refill i k => modStripe d i k (fun s => { s with thief := some thief })

/-! ### The net (R31, R374) -/

/-- R374. A hod that was sent back goes out again after 256 tile cycles. -/
def resend (e : Env) (d : Dp) (n : Nat) : Dp :=
  match d.net[n]? with
  | none => d
  | some h => if h.back && decide (h.ready ≤ now e) && !e.stop.stopped && !e.pwr.pfFrozen then sendHod e (dropHod d n) h else d

/-- R31, R34. A hod whose copies the branch routers make: an error before they part takes each copy whose way leads on from router r. -/
def eccDrop (e : Env) (d : Dp) (n r : Nat) (h : Hod) : Dp :=
  match h.body with
  | .release q => { d with net := d.net.filter (fun g => match g.body with
      | .release q' => !(q' == q && (hodRoute e g.origin g.dst g.body).contains r)
      | _ => true) }
  | _ => dropHod d n

/-- R31, R497. The site at which the error meets hod n: of the net, and past it of the reports and then of the numbers on their way back. -/
def eccRoute (e : Env) (d : Dp) (n : Nat) : List Nat :=
  let m := n - d.net.length
  match d.net[n]? with
  | some h => hodRoute e h.origin h.dst h.body
  | none =>
    match d.inc.reports[m]? with
    | some x => reportRoute e x.1
    | none =>
      match d.inc.returns[m - d.inc.reports.length]? with
      | some x => reportRoute e x.1
      | none => []

/-- R31, R497. A router on the way of hod n meets an error in one of its flits: a single-bit one is corrected and counted, a double-bit one discards the hod (log 60 for a train). An n past every hod under way names the next request that leaves the router by that port (log 60). -/
def meshError (e : Env) (d : Dp) (n r p : Nat) (double : Bool) : Dp :=
  if 5 < p || e.stop.stopped then d
  else if d.net.length + d.inc.reports.length + d.inc.returns.length ≤ n then { d with flitErr := d.flitErr ++ [(r * 8 + p, double)] }
  else if !((eccRoute e d n).contains r) then d
  else if !double then bumpK e d 1 (r * 8 + p) 7 1
  else
    let m := n - d.net.length
    match d.net[n]? with
    | some h => eccReport e (eccDrop e d n r h) r p h.vc
    | none =>
      if m < d.inc.reports.length then eccReport e { d with inc := { d.inc with reports := eraseAt d.inc.reports m } } r p .mgmt
      else eccReport e { d with inc := { d.inc with returns := eraseAt d.inc.returns (m - d.inc.reports.length) } } r p .mgmt

/-! ### Meanings -/

/-- R23. An SSTATUS other than 0 is a fault response (Table 15.5). -/
def execFetchComplete (i : BitVec 24) (sstatus : BitVec 2) (read : StoreRead) (s : State) : Host.Outcome State Fault Refusal :=
  .next { s with dp := fetchDone s.env s.dp i.toNat (sstatus != 0#2) read.addr read.record }

/-- R67. -/
def execFetchSlotFree (t : BitVec 5) (s : State) : Host.Outcome State Fault Refusal := .next { s with dp := slotFree s.env s.dp t.toNat }

/-- R373. -/
def execBackstoreRetry (i : BitVec 24) (sstatus : BitVec 2) (read : StoreRead) (s : State) : Host.Outcome State Fault Refusal :=
  .next { s with dp := retryFetch s.env s.dp i.toNat (sstatus != 0#2) read.addr read.record }

/-- R74. -/
def execMirrorUpdate (n : Nat) (s : State) : Host.Outcome State Fault Refusal := .next { s with dp := mirrorTake s.env s.dp n }

/-- R74. -/
def execMirrorAck (n : Nat) (s : State) : Host.Outcome State Fault Refusal := .next { s with dp := mirrorAcked s.env s.dp n }

/-- R175. -/
def execMgmtSteal (thief victim : BitVec 5) (s : State) : Host.Outcome State Fault Refusal :=
  .next { s with dp := steal s.env s.dp thief.toNat victim.toNat }

/-- R374. -/
def execReturnedHodResend (n : Nat) (s : State) : Host.Outcome State Fault Refusal := .next { s with dp := resend s.env s.dp n }

/-- R31. -/
def execMeshEcc (n : Nat) (r : BitVec 8) (x : FlitError) (s : State) : Host.Outcome State Fault Refusal :=
  .next { s with dp := meshError s.env s.dp n r.toNat x.port.toNat x.double }

end Sys2Proof.Machine
end

