-- ==== Sys2Proof/Machine/Incidents.lean ====
section
/-! DEFINITION. Sys2Proof/Machine/Incidents.lean: the incident unit (R357 to R371, R497): reports, coalescing, numbers, the keeper's table, partition copies, closes, and INCIDENT hods up the hall. -/

namespace Sys2Proof.Machine

/-- GT units of one millisecond. -/
def millisecond : Nat := 16000000

def incEntry (d : Dp) (s : Nat) : Option IncEntry := fget d.inc.entries s

def setEntry (d : Dp) (s : Nat) (x : IncEntry) : Dp := { d with inc := { d.inc with entries := fput d.inc.entries s x } }

/-- R366. An entry whose close has been written everywhere is free again. -/
def putEntry (d : Dp) (s : Nat) (x : IncEntry) : Dp :=
  if !x.isOpen && x.copies.isEmpty && !x.dirty then { d with inc := { d.inc with entries := fdel d.inc.entries s } } else setEntry d s x

/-- R361, R371. INC_N is low while a FATAL entry is open, and while a fault stands on the incident table. -/
def incNLow (d : Dp) : Bool := d.inc.fault || d.inc.entries.any (fun x => x.2.isOpen && decide (x.2.cls = .fatal))

/-- A count that holds at 0xFFFF_FFFF. -/
def satAdd (a : Word) (n : Nat) : Word := BitVec.ofNat 32 (min (a.toNat + n) 0xFFFFFFFF)

/-! ### Up the hall (R368) -/

/-- The code of an incident's SRCKIND, SRCID and KIND in an INCIDENT hod, with the count added since the last one. -/
def hallHod (x : IncEntry) (n : Nat) : HodRec :=
  let k := x.rep.key
  { HodRec.blank 10 0 0 with status := BitVec.ofNat 8 x.cls.code, instant := x.gtFirst
                             grout := leBytes 2 k.node.toNat ++ leBytes 1 k.die.toNat ++ leBytes 1 k.srcKind.toNat ++ leBytes 4 k.srcId.toNat
                               ++ leBytes 1 k.kind.code ++ [0, 0, 0] ++ leBytes 4 n }

/-- R278, R368. The logical tile at which INCIDENT hods of a route leave and come in. DESIGN CHOICE for the package route: tile 0 (log 63). -/
def parentTile (route : BitVec 8) : Nat := if route = 0xFF#8 then 0 else routeTile route.toNat

/-- R287, R368. A hod record to the time parent, with its LINK record (R408); it leaves once the instance runs (R416). -/
def toParent (e : Env) (d : Dp) (h : HodRec) : Dp :=
  let d2 := trace e d (parentTile e.lf.tLink) (some 6) (linkRec e (parentTile e.lf.tLink) e.lf.tLink true h)
  if e.lf.tRoot then d
  else if e.lf.tLink = 0xFF#8 then
    if e.lf.tPdie = e.cfg.die || e.lf.d2dErr.getLsbD e.lf.tPdie.toNat then d else packOut e d2 (.pkg e.lf.tPdie h)
  else if routeValid e e.lf.tLink.toNat then queueHod e d2 e.lf.tLink.toNat h
  else d

/-- R368. The entry in slot s sends what has been added since its last INCIDENT hod. -/
def sendHall (e : Env) (d : Dp) (s : Nat) (x : IncEntry) : Dp :=
  if !x.rep.key.kind.hall || e.lf.tRoot then d
  else
    let d := toParent e d (hallHod x (x.count - x.hallSent).toNat)
    setEntry d s { x with hallSent := x.count, lastHall := gtInterp e }

/-! ### Partition copies (R365 to R367) -/

/-- A waiting copy for p in slot s is the close copy: the entry has closed and no later copy for p waits. -/
def copyClosed (x : IncEntry) (p : BitVec 4) : Bool := !x.isOpen && (x.copies.filter (fun c => c.1 == p)).length == 1

/-- Copies discarded: partition counter 13. -/
def copyDropped (e : Env) (d : Dp) (p : BitVec 4) : Dp := bumpP e d p 13 1

/-- R366. A copy for p in slot s may be written: no copy of a lower entry waits for p. -/
def copyFirst (d : Dp) (s : Nat) (p : BitVec 4) : Bool := !(d.inc.entries.any (fun x => decide (x.1 < s) && x.2.copies.any (fun c => c.1 == p)))

/-- The first waiting copy for p leaves the list. -/
def takeCopy (p : BitVec 4) (l : List (BitVec 4 × Bool)) : List (BitVec 4 × Bool) := ((takeFirst (fun c => c.1 == p) l).map Prod.snd).getD l

/-- R365 to R367. A copy of entry x, in slot s, goes to p's ring, or is discarded where that ring is disabled; none while the ring is full or stopped, while p is suspended, during a stop, and behind the copies of lower entries. -/
def copyOut (e : Env) (d : Dp) (s : Nat) (x : IncEntry) (p : BitVec 4) (bare closed : Bool) : Option Dp :=
  let q := incRingOf d p
  if q.state = .disabled then some (copyDropped e d p)
  else
    let k := if bare then 0 else x.rep.maps.length
    let n := ringSize q.cfg
    if q.state = .stopped || suspended d p || e.stop.stopped || !copyFirst d s p || decide (n < (q.tail - q.head).toNat + k + 1) then none
    else
      let image := withMaps (x.bits closed bare) (if bare then [] else x.rep.maps)
      let d := (List.range (k + 1)).foldl (fun d i =>
        memWrite d p.toNat (q.cfg.base + BitVec.ofNat 64 ((q.tail.toNat + i) % n * 64)) 64 (image / 2 ^ (512 * i) % 2 ^ 512)) d
      some (interrupt e (setIncRing d p { q with tail := q.tail + BitVec.ofNat 32 (k + 1) }) (.part p) true)

/-- R365 to R367. The first waiting copy of slot s for p leaves its entry, where it can. -/
def writeCopy (e : Env) (d : Dp) (s : Nat) (p : BitVec 4) : Dp :=
  match incEntry d s with
  | none => d
  | some x =>
    match x.copies.find? (fun c => c.1 == p) with
    | none => d
    | some (_, bare) =>
      match copyOut e d s x p bare (copyClosed x p) with
      | none => d
      | some d => putEntry d s { x with copies := takeCopy p x.copies }

/-- A new copy for p: written at once where it can be. -/
def addCopy (e : Env) (d : Dp) (s : Nat) (p : BitVec 4) (bare : Bool) : Dp :=
  match incEntry d s with
  | none => d
  | some x => writeCopy e (setEntry d s { x with copies := x.copies ++ [(p, bare)] }) s p

/-! ### The keeper's table (R364, R371) -/

/-- The image of an entry as its slot of the table holds it. -/
def IncEntry.image (x : IncEntry) : Nat := withMaps (x.bits (!x.isOpen) false) x.rep.maps

/-- R364. Slot s of the table is written; with KP_INC_BASE 0 or while FAULT stands nothing is. -/
def writeSlot (e : Env) (d : Dp) (s : Nat) (x : IncEntry) : Dp :=
  let done := { x with dirty := false, lastWrite := some (gtInterp e) }
  if e.kp.incBase = 0 then putEntry d s done
  else if d.inc.fault then (if x.isOpen then d else putEntry d s done)
  else if e.stop.stopped then d
  else
    let k := x.rep.maps.length
    putEntry (memWrite d 16 (e.kp.incBase + BitVec.ofNat 64 (256 * s)) (64 * (k + 1)) x.image) s done

/-- R364, R370. The close of the entry in slot s is written behind what has gone to that slot before, in a stop at GO (R416), and its response is still to come (R371): the slot may be in use again by then. -/
def writeClosed (e : Env) (d : Dp) (s : Nat) (x : IncEntry) : Dp :=
  let m : MemW := { ctx := 16, addr := e.kp.incBase + BitVec.ofNat 64 (256 * s), len := 64 * (x.rep.maps.length + 1), data := { x with isOpen := false }.image }
  if e.kp.incBase = 0 || d.inc.fault then d
  else
    let d := { d with inc := { d.inc with wrote := d.inc.wrote ++ [s] } }
    if e.stop.stopped then { d with port := { d.port with memHeld := d.port.memHeld ++ [m] } } else memWrite d m.ctx m.addr m.len m.data

/-- R371. A fault response on the incident table. -/
def tableFault (e : Env) (d : Dp) : Dp := if e.kp.incBase = 0 || d.inc.fault || e.stop.stopped then d else { d with inc := { d.inc with fault := true } }

/-- R364, R371. A changed entry's slot is written, at most once per microsecond while it is open; a fault response sets FAULT. The response to the close of an entry that has given the slot up comes first. -/
def tableWrite (e : Env) (d : Dp) (s : Nat) (fault : Bool) : Dp :=
  if d.inc.wrote.contains s then
    if e.stop.stopped then d
    else
      let d := { d with inc := { d.inc with wrote := d.inc.wrote.erase s } }
      if fault then tableFault e d else d
  else
  match incEntry d s with
  | none => d
  | some x =>
    let due := match x.lastWrite with | none => true | some t => !x.isOpen || decide (microsecond ≤ (gtInterp e - t).toNat)
    if !x.dirty || !due then d
    else if fault then tableFault e d
    else writeSlot e d s x

/-! ### Closes (R363, R370) -/

/-- R364, R366, R370. The close of slot s goes to the table, and the slot is free again once no copy waits in it. -/
def closeSlot (e : Env) (d : Dp) (s : Nat) (x : IncEntry) : Dp :=
  let x := { x with isOpen := false, closing := false, dirty := false, lastWrite := none }
  putEntry (writeClosed e d s x) s x

/-- R365, R370. The close copies of an overflow entry that can be written or discarded now, and the partitions whose cannot. -/
def closeCopies (e : Env) (s : Nat) (x : IncEntry) : List (BitVec 4) → Dp → Dp × List (BitVec 4)
  | [], d => (d, [])
  | p :: l, d =>
    match (if suspended d p then some (copyDropped e d p) else copyOut e d s x p true true) with
    | some d => closeCopies e s x l d
    | none => let (d, left) := closeCopies e s x l d; (d, p :: left)

/-- R363 to R366, R370. The entry in slot s closes: copies that wait for a suspended partition are discarded, every partition that has had a copy gets its close copy, and the table is to show CLOSED. Entries 63 and 127 stay open until no copy waits, their close copies among them, and are then free at once. -/
def closeEntry (e : Env) (d : Dp) (s : Nat) : Dp :=
  match incEntry d s with
  | none => d
  | some x =>
    if !x.isOpen then d
    else if s == 63 || s == 127 then
      if !x.copies.isEmpty then setEntry d s { x with closing := true }
      else
        let (d, left) := closeCopies e s x x.carried d
        if left.isEmpty then
          let d := writeClosed e d s x
          { d with inc := { d.inc with entries := fdel d.inc.entries s } }
        else setEntry d s { x with closing := true, carried := left }
    else
      let gone := x.copies.filter (fun c => suspended d c.1)
      let d := gone.foldl (fun d c => copyDropped e d c.1) d
      let own := if x.rep.hall then [] else x.rep.part.toList
      let ps := own.map (fun p => (p, false)) ++ x.carried.map (fun p => (p, true))
      let x := { x with isOpen := false, closing := false, dirty := true, lastWrite := none, copies := x.copies.filter (fun c => !suspended d c.1) }
      let d := setEntry d s x
      let d := ps.foldl (fun d c => if suspended d c.1 then copyDropped e d c.1 else addCopy e d s c.1 c.2) d
      match incEntry d s with
      | some x => closeSlot e d s x
      | none => d

/-- R370. A deferred close takes effect once no copy waits. -/
def closeDeferred (e : Env) (d : Dp) (s : Nat) : Dp :=
  match incEntry d s with
  | some x => if x.closing && x.copies.isEmpty then closeEntry e d s else d
  | none => d

/-! ### Reports (R361, R362, R370) -/

/-- The bits of SRC and of the trigger requests (Table 13.6). -/
def srcBit : Nat → BitVec 5
  | 0 => 1
  | 1 => 2
  | 2 => 4
  | 3 => 8
  | _ => 16

/-- R413. A trigger source has shown. -/
def requestTrigger (d : Dp) (src : Nat) : Dp := { d with obs := { d.obs with trigReq := d.obs.trigReq ||| srcBit src } }

/-- R362. The number of a report goes back to its source. -/
def returnNumber (e : Env) (d : Dp) (src : Source) (key : IncKey) (n : Word) : Dp :=
  reportHod e src true { d with inc := { d.inc with returns := d.inc.returns ++ [(src, key, n)] } }

/-- R361. A report opens slot s as the entry with record r and class c. -/
def openEntry (e : Env) (d : Dp) (s : Nat) (r : Report) (c : IncClass) : Dp :=
  let n : Word := BitVec.ofNat 32 (d.inc.opens % 2 ^ 25 * 128 + s)
  let x : IncEntry := { isOpen := true, number := n, rep := r, cls := c, count := satAdd 0 r.count, gtFirst := r.gtFirst, gtLast := gtInterp e, dirty := true
                        lastWrite := none, hallSent := 0, lastHall := 0, closing := false, carried := [], copies := [], order := d.inc.opens }
  let d := setEntry { d with inc := { d.inc with opens := d.inc.opens + 1 } } s x
  let d := bumpK e d 4 0 0 1
  let d := if !r.hall || e.lf.tRoot || e.kp.fwdIrq then bumpK e (pulse d 0) 4 0 1 1 else d
  let d := if d.obs.incCls.getLsbD c.code then requestTrigger d 1 else d
  let d := sendHall e d s x
  match r.part with
  | some p => if r.hall then d else addCopy e d s p false
  | none => d

/-- R361. A report adds to the open entry in slot s. -/
def mergeEntry (e : Env) (d : Dp) (s n : Nat) : Dp :=
  match incEntry d s with
  | none => d
  | some x =>
    let count := satAdd x.count n
    let rep := if s = 63 ∨ s = 127 then { x.rep with d2 := count } else x.rep
    setEntry d s { x with count := count, gtLast := gtInterp e, dirty := true, rep := rep }

/-- The number of slot s. -/
def slotNumber (d : Dp) (s : Nat) : Word := ((incEntry d s).map (fun x => x.number)).getD 0

/-- The lowest free slot of a range. -/
def freeSlot (d : Dp) (lo n : Nat) : Option Nat := ((List.range n).map (fun k => lo + k)).find? (fun s => (incEntry d s).isNone)

/-- R370. A report without a free entry merges into an overflow entry. -/
def overflow (e : Env) (d : Dp) (s n : Nat) (c : IncClass) (k : IncKind) : Dp :=
  match incEntry d s with
  | some x => if x.isOpen then mergeEntry e d s n else d
  | none => openEntry e d s { mkReport e (mkKey e 0 0 k) none with d2 := satAdd 0 n, count := n } c

/-- R370. The oldest open NOTICE entry without a waiting copy. -/
def oldestNotice (d : Dp) : Option Nat :=
  (d.inc.entries.filter (fun x => decide (x.1 < 63) && x.2.isOpen && decide (x.2.cls = .notice) && x.2.copies.isEmpty)).foldl (fun best x =>
    match best with
    | none => some x.1
    | some b => (match incEntry d b with | some y => if x.2.order < y.order then some x.1 else some b | none => some x.1)) none

/-- R370. A NOTICE entry gives its place up: it closes, and a close copy that cannot be written is discarded. -/
def evictNotice (e : Env) (d : Dp) (s : Nat) : Dp :=
  let d := closeEntry e d s
  match incEntry d s with
  | none => d
  | some x =>
    let d := x.copies.foldl (fun d c => copyDropped e d c.1) d
    { d with inc := { d.inc with entries := fdel d.inc.entries s } }

/-- R357, R361. The open entry of a key in the range of a class: entries 0 to 63, or 64 to 127 for FATAL. -/
def openFor (d : Dp) (key : IncKey) (c : IncClass) : Option Nat :=
  (d.inc.entries.find? (fun x => x.2.isOpen && decide (x.2.rep.key = key) && (decide (64 ≤ x.1) == decide (c = .fatal)))).map Prod.fst

/-- R361, R362, R370. The incident unit takes a report of class c from src. -/
def enterReport (e : Env) (d : Dp) (src : Option Source) (r : Report) (c : IncClass) : Dp :=
  let back := fun (d : Dp) (s : Nat) => match src with
    | some src => returnNumber e d src r.key (slotNumber d s)
    | none => d
  match openFor d r.key c with
  | some s => back (mergeEntry e d s r.count) s
  | none =>
    match c with
    | .fatal =>
      (match freeSlot d 64 63 with
        | some s => back (openEntry e d s r c) s
        | none => back (overflow e d 127 r.count .fatal .fatalOvf) 127)
    | .notice =>
      (match freeSlot d 0 63 with
        | some s => back (openEntry e d s r c) s
        | none => { d with inc := { d.inc with ndrop := BitVec.ofNat 14 (min (d.inc.ndrop.toNat + 1) 0x3FFF) } })
    | .error =>
      match freeSlot d 0 63 with
      | some s => back (openEntry e d s r c) s
      | none =>
        match oldestNotice d with
        | some s => back (openEntry e (evictNotice e d s) s r c) s
        | none => back (overflow e d 63 r.count .error .overflow) 63

/-- A source of the always-on domain (R416, R497). -/
def Source.alwaysOnDomain : Source → Bool
  | .alwaysOn | .regPort => true
  | .joint _ | .tile _ | .router _ | .fabric => false

/-- R357, R358, R497. The incident unit takes report n: the first of its source, where a FATAL report passes the others; one in a period of the reference. -/
def takeReport (e : Env) (d : Dp) (n : Nat) : Dp :=
  match d.inc.reports[n]? with
  | none => d
  | some (src, r) =>
    let fatal := fun (x : Report) => decide (x.key.kind.cls = .fatal)
    if d.inc.taken || (e.stop.stopped && !src.alwaysOnDomain) || (d.inc.reports.take n).any (fun x => decide (x.1 = src) && fatal x.2 == fatal r) then d
    else enterReport e { d with inc := { d.inc with reports := eraseAt d.inc.reports n, taken := true } } (some src) r r.key.kind.cls

/-! ### Numbers (R362, R235) -/

/-- R362. A source keeps the numbers of its last eight keys, and those that later answers carry; that of a fence or tile fault is known to every unit that answers with it. -/
def learnNumber (d : Dp) (src : Source) (key : IncKey) (n : Word) : Dp :=
  let mine := (d.inc.known.filter (fun x => decide (x.1 = src ∧ x.2.1 ≠ key)))
  let others := d.inc.known.filter (fun x => decide (x.1 ≠ src))
  let kept := if mine.length < 8 then mine else mine.drop (mine.length - 7)
  let pinned := if key.kind.pinned then d.inc.pinned.filter (fun x => decide (x.2.1 ≠ key)) ++ [(src, key, n)]
    else if key.kind.kept then d.inc.pinned.filter (fun x => !decide (x.1 = src ∧ x.2.1 = key)) ++ [(src, key, n)]
    else d.inc.pinned
  { d with inc := { d.inc with known := others ++ kept ++ [(src, key, n)], pinned := pinned } }

/-- What waited under serial number k goes on with number n. -/
def releaseWait (e : Env) (d : Dp) (n : Word) (k : Nat) : Dp :=
  let v : Dword := n.setWidth 64
  match fget d.inc.waitHods k, fget d.inc.waitCompl k, fget d.inc.waitResp k with
  | some hs, _, _ => leave e (hs.map (fun h => { h with body := h.body.setValue v })) { d with inc := { d.inc with waitHods := fdel d.inc.waitHods k } }
  | _, some (r, c), _ =>
    let d := { d with inc := { d.inc with waitCompl := fdel d.inc.waitCompl k } }
    afterDesc e r (complete e (setRing d r { ringOf d r with wait := none }) r { c with incident := n })
  | _, _, some a =>
    let d := { d with inc := { d.inc with waitResp := fdel d.inc.waitResp k } }
    let r := { a.resp with value := v }
    (match a.entry with
      | some id => answer e d a.joint id r
      | none => deliver e d a.joint a.slot a.rid r)
  | _, _, _ => d

/-- R495. Waits for a number, the responses among them last: as R495 orders the responses that one hod completes, in ascending slot order and within a slot in the order of acceptance (DEDUCED, log 74). -/
def slotOrder (d : Dp) (l : List (Source × IncKey × Nat)) : List (Source × IncKey × Nat) :=
  let slot := fun (x : Source × IncKey × Nat) => (fget d.inc.waitResp x.2.2).map (fun a => a.slot.toNat)
  l.filter (fun x => (slot x).isNone) ++ (List.range 8).flatMap (fun s => l.filter (fun x => slot x == some s))

/-- R362, R235, R495. Number n of the list of returns reaches its source: the operations that wait for it are answered, and a tile writes its INCIDENT record. -/
def numberReturns (e : Env) (d : Dp) (n : Nat) : Dp :=
  match d.inc.returns[n]? with
  | none => d
  | some (src, key, num) =>
    if (e.stop.stopped && !src.alwaysOnDomain) || (d.inc.returns.take n).any (fun x => decide (x.1 = src)) then d
    else
      let d := learnNumber { d with inc := { d.inc with returns := eraseAt d.inc.returns n } } src key num
      let d := match src with
        | .tile t => trace e d t none { TRec.blank 0x0F with gt := tileGt e t, course := num, aux := BitVec.ofNat 24 key.kind.code }
        | _ => d
      let mine := d.inc.waits.filter (fun x => decide (x.2.1 = key) && (key.kind.pinned || decide (x.1 = src)))
      let d := { d with inc := { d.inc with waits := d.inc.waits.filter (fun x => !(decide (x.2.1 = key) && (key.kind.pinned || decide (x.1 = src)))) } }
      (slotOrder d mine).foldl (fun d x => releaseWait e d num x.2.2) d

/-! ### Closes by time and by the keeper (R363) -/

/-- R363. HOLD ms of GT without a matching report close an ERROR or NOTICE entry. -/
def holdClose (e : Env) (d : Dp) (s : Nat) : Dp :=
  match incEntry d s with
  | none => d
  | some x =>
    if x.isOpen && decide (x.cls ≠ .fatal) && e.kp.hold != 0#8 && decide (e.kp.hold.toNat * millisecond ≤ (gtInterp e - x.gtLast).toNat) then closeEntry e d s else d

/-- R363. KP_INC_CLOSE closes the open entry with the written number. -/
def keeperClose (e : Env) (d : Dp) (v : Word) : Dp :=
  let s := v.toNat % 128
  match incEntry d s with
  | some x => if x.isOpen && x.number = v then closeEntry e d s else d
  | none => d

/-- R368. A further INCIDENT hod, at most once per ms of GT after a COUNT change. -/
def hallResend (e : Env) (d : Dp) (s : Nat) : Dp :=
  match incEntry d s with
  | some x => if x.isOpen && x.count != x.hallSent && decide (millisecond ≤ (gtInterp e - x.lastHall).toNat) && !e.stop.stopped then sendHall e d s x else d
  | none => d

/-! ### Meanings -/

/-- R361. -/
def execIncidentReport (n : Nat) (s : State) : Host.Outcome State Fault Refusal := .next { s with dp := takeReport s.env s.dp n }

/-- R362. -/
def execIncidentNumberReturn (n : Nat) (s : State) : Host.Outcome State Fault Refusal := .next { s with dp := numberReturns s.env s.dp n }

/-- R363. -/
def execIncidentHoldClose (x : BitVec 7) (s : State) : Host.Outcome State Fault Refusal := .next { s with dp := holdClose s.env s.dp x.toNat }

/-- R364, R371. An SSTATUS other than 0 is a fault response (R473). -/
def execIncidentTableWrite (x : BitVec 7) (sstatus : BitVec 2) (s : State) : Host.Outcome State Fault Refusal :=
  .next { s with dp := tableWrite s.env s.dp x.toNat (sstatus != 0#2) }

/-- R366, R370. -/
def execIncidentCopyWrite (x : BitVec 7) (p : BitVec 4) (s : State) : Host.Outcome State Fault Refusal :=
  .next { s with dp := closeDeferred s.env (writeCopy s.env s.dp x.toNat p) x.toNat }

/-- R363. -/
def execKpIncClose (v : Word) (s : State) : Host.Outcome State Fault Refusal := .next { s with dp := keeperClose s.env s.dp v }

/-- R368. -/
def execHallIncidentResend (x : BitVec 7) (s : State) : Host.Outcome State Fault Refusal := .next { s with dp := hallResend s.env s.dp x.toNat }

end Sys2Proof.Machine
end

