-- ==== Sys2Proof/Machine/Lintels.lean ====
section
/-! DEFINITION. Sys2Proof/Machine/Lintels.lean: what a lintel brick does with the hods of other dies and nodes (R256 to R271), refusals and back-offs (R275, R276), lost peers (R261, R264, R271), and INCIDENT hods (R369). -/

namespace Sys2Proof.Machine

/-! ### Peers -/

/-- Table 12.3. The key of a peer instance. -/
def peerKey (node : BitVec 16) (die : BitVec 3) (k : IncKind) : IncKey := { node := node, die := die, srcKind := 8, srcId := 0, kind := k }

/-- The report of brick i about a peer instance. -/
def peerReport (e : Env) (d : Dp) (i : Nat) (key : IncKey) (d0 : Dword) (d2 : Nat) : Dp :=
  reportTile e d (homeOf e i) { mkReport e key (some (brickOf d i).part) with d0 := d0, d2 := BitVec.ofNat 32 d2 }

/-- The peer with handle p on a route is where a record came from. -/
def isFrom (h : InHod) (p : Dword) (route : BitVec 8) : Bool :=
  p != 0 && h.route == route && hNode p == h.node && hDie p == h.die

/-- A child's entry names the sender of a record. -/
def Child.isFrom (c : Child) (h : InHod) : Bool := c.valid && (Machine.isFrom h c.peer c.route || Machine.isFrom h c.peer2 c.route2)

/-- The handle of the peer of a lintel brick that sent a record, or 0 where none did. A record on an upward kind names its child number. -/
def Lintel.sender (l : Lintel) (h : InHod) : Dword :=
  let ofChild := fun (c : Child) => if isFrom h c.peer c.route then c.peer else c.peer2
  if l.upv && isFrom h l.uppeer l.uproute then l.uppeer
  else if l.upv && isFrom h l.up2peer l.up2route then l.up2peer
  else if l.twv && isFrom h l.twpeer l.twroute then l.twpeer
  else
    match fget l.children h.rec_.child.toNat with
    | some c => if c.isFrom h then ofChild c else 0
    | none => (match l.children.find? (fun c => c.2.isFrom h) with | some c => ofChild c.2 | none => 0)

/-- A hod that a lintel brick discards is counted (tile counter 16). -/
def discardLintel (e : Env) (d : Dp) (i : Nat) : Dp := bumpT e d (homeOf e i) 16

/-! ### Refusals sent (R275) -/

/-- R275. REFUSE goes back to the sender of a record. It names the sender's brick where the lintel record here does, and else echoes HANDLE (log 30). -/
def refuseHod (e : Env) (d : Dp) (h : InHod) (st : Status) : Dp :=
  let i := hIndex h.rec_.handle
  let t := homeOf e i
  let peer := match fget d.lintels i with
    | some l => if l.sender h = 0 then h.rec_.handle else l.sender h
    | none => h.rec_.handle
  let r : HodRec := { HodRec.blank 9 peer h.rec_.course with status := BitVec.ofNat 8 st.code, child := h.rec_.child }
  let d := if st = .retry then bumpT e d t 34 else d
  let d := trace e d t (some 6) (linkRec e t h.route true r)
  putRecord e d h.route h.die r

/-! ### Departures and lost peers (R256, R261, R262, R264, R271) -/

/-- R262, R118. Child c leaves brick i; `key` is the incident of its departure. -/
def childLeaves (e : Env) (d : Dp) (i c : Nat) (key : IncKey) : Dp :=
  match fget d.lintels i, (brickOf d i).body with
  | some l, .barrier x =>
    if l.gone.getLsbD c then d
    else
      let f := l.seen.getLsbD c
      let next := l.seenNext.getLsbD c
      let d := setLintel d i { l with gone := l.gone ||| bit64 c, seenNext := l.seenNext &&& ~~~ (bit64 c) }
      let x := if next then { x with ahead := x.ahead - 1 } else x
      let d := setBarrier d i x
      if !x.bonded || x.poisoned then d
      else if x.arm.depart then
        poisonBrick e (if key.kind = .poison then peerReport e d i key (brickHandle e i (brickOf d i)) 0 else d) i key 0
      else shrinkBarrier e d i x (if f then 0 else 1) (if f then 1 else 0) none
  | _, _ => d

/-- R262, R266. Child c departs from brick i, and a probe that waits for it goes on. -/
def childGone (e : Env) (d : Dp) (i c : Nat) (key : IncKey) : Dp := probeOn e (childLeaves e d i c key) i

/-- R261, R271. The link to one peer of child c is lost (`second` its twin): the child departs when it has no other. -/
def loseChild (e : Env) (d : Dp) (i c : Nat) (second : Bool) (route : Nat) : Dp :=
  match fget d.lintels i with
  | none => d
  | some l =>
    match fget l.children c with
    | none => d
    | some y =>
      if !y.valid || l.gone.getLsbD c || (if second then y.cut2 else y.cut1) then d
      else
        let y := if second then { y with cut2 := true } else { y with cut1 := true }
        let p := if second then y.peer2 else y.peer
        let key := peerKey (hNode p) (hDie p) .linkCut
        let d := setLintel d i { l with children := fput l.children c y }
        let d := peerReport e d i key 0 route
        if y.cut1 && (y.cut2 || y.peer2 = 0) then childGone e d i c key else probeOn e d i

/-- R264, R271. The link to the parent of brick i, or to its twin, is lost. An orphaned brick is poisoned. -/
def loseParent (e : Env) (d : Dp) (i : Nat) (second : Bool) (route : Nat) : Dp :=
  match fget d.lintels i with
  | none => d
  | some l =>
    if !l.upv || (if second then l.up2cut || l.up2peer = 0 else l.upcut) then d
    else
      let l := if second then { l with up2cut := true } else { l with upcut := true }
      let p := if second then l.up2peer else l.uppeer
      let d := setLintel d i l
      if l.upcut && (l.up2cut || l.up2peer = 0) then
        let key := peerKey (hNode p) (hDie p) .uplink
        poisonBrick e (peerReport e d i key (brickHandle e i (brickOf d i)) 0) i key 0
      else peerReport e d i (peerKey (hNode p) (hDie p) .linkCut) 0 route

/-- R271. The link between twins is lost: the incident, and both go on. -/
def loseTwin (e : Env) (d : Dp) (i : Nat) (route : Nat) : Dp :=
  match fget d.lintels i with
  | some l => if l.twv then peerReport e d i (peerKey (hNode l.twpeer) (hDie l.twpeer) .linkCut) 0 route else d
  | none => d

/-- The peer with a handle is lost to brick i. -/
def losePeer (e : Env) (d : Dp) (i : Nat) (p : Dword) (route : Nat) : Dp :=
  match fget d.lintels i with
  | none => d
  | some l =>
    if l.upv && l.uppeer = p then loseParent e d i false route
    else if l.upv && p != 0 && l.up2peer = p then loseParent e d i true route
    else if l.twv && l.twpeer = p then loseTwin e d i route
    else
      match l.children.find? (fun c => c.2.valid && (c.2.peer == p || (c.2.peer2 == p && p != 0))) with
      | some (c, y) => loseChild e d i c (y.peer != p) route
      | none => d

/-- The peers of a lintel record that a route reaches; on the package route, those of one die. -/
def Lintel.over_ (l : Lintel) (r : BitVec 8) (die : Option (BitVec 3)) : List Dword :=
  let on := fun (p : Dword) (q : BitVec 8) => p != 0 && q == r && (match die with | some k => hDie p == k | none => true)
  ((if l.upv then [(l.uppeer, l.uproute), (l.up2peer, l.up2route)] else []) ++ (if l.twv then [(l.twpeer, l.twroute)] else [])
    ++ l.children.flatMap (fun c => if c.2.valid then [(c.2.peer, c.2.route), (c.2.peer2, c.2.route2)] else [])).filterMap (fun p => if on p.1 p.2 then some p.1 else none)

/-- R341. The number by which a partition records a cut: the route, or 256 and the die for a package link; with 1024 added, the SYNC after which its bricks are to replay (R281). -/
def cutNo (r : BitVec 8) (die : Option (BitVec 3)) : Nat := match die with | some k => 256 + k.toNat | none => r.toNat

/-- R280, R272. A cut reaches every brick that uses the route; for a suspended partition it is recorded (R341). -/
def applyCut (e : Env) (d : Dp) (r : BitVec 8) (die : Option (BitVec 3)) : Dp :=
  let d := (List.range 16).foldl (fun d p =>
    let q := BitVec.ofNat 4 p
    if recordsNow e d q && (die.isSome || routePart e r.toNat = q) then setPart d q { partOf d q with recCuts := (partOf d q).recCuts ++ [cutNo r die] } else d) d
  d.lintels.foldl (fun d x =>
    if recordsNow e d (brickOf d x.1).part then d else (x.2.over_ r die).foldl (fun d p => losePeer e d x.1 p r.toNat) d) d

/-! ### Hods taken by a lintel brick (R256 to R266) -/

/-- Table 9.4, R256. The payload of an ARRIVE_UP for a barrier: none where its form or length does not fit. -/
def upPayload (x : Barrier) (r : HodRec) : Option Payload :=
  match x.cfg with
  | none => if r.grout.isEmpty then some .none else none
  | some c => (decodePartial c r.gflags r.grout).map (fun a => Payload.acc a r.grout.length)

/-- R256. A partial that does not fit poisons the brick, with a PARTIAL incident. -/
def partialPoison (e : Env) (d : Dp) (i : Nat) (h : InHod) : Dp :=
  let key := peerKey h.node h.die .partial_
  poisonBrick e (peerReport e d i key (brickHandle e i (brickOf d i)) 0) i key 0

/-- The local agents of a barrier's bond: the rank of its first child (R89). -/
def Barrier.locals (x : Barrier) : Nat := match x.bond with | some b => b.members.length | none => 0

/-- R260. ARRIVE_UP from a child. -/
def takeArriveUp (e : Env) (d : Dp) (i : Nat) (x : Barrier) (h : InHod) : Dp :=
  let r := h.rec_
  let c := r.child.toNat
  match fget d.lintels i with
  | none => discardLintel e d i
  | some l =>
    let mine := match fget l.children c with | some y => y.isFrom h && !l.gone.getLsbD c | none => false
    if !mine || !(x.armed && x.bonded && !x.poisoned) then discardLintel e d i
    else
      let shrunk := x.shrunk || r.status = 0x02#8
      if r.course = x.course + 1 ∧ ¬ l.seen.getLsbD c then
        match upPayload x r with
        | none => partialPoison e d i h
        | some p =>
          match countArrival e (setLintel d i { l with seen := l.seen ||| bit64 c }) i { x with shrunk := shrunk } 1 (x.locals + c) r.tag p with
          | some d => d
          | none => refuseHod e (bumpT e d (homeOf e i) 17) h .busy
      else if r.course = x.course + 2 ∧ ¬ l.seenNext.getLsbD c ∧ x.cfg.isNone then
        if r.grout.isEmpty then setBarrier (setLintel d i { l with seenNext := l.seenNext ||| bit64 c }) i { x with ahead := x.ahead + 1, shrunk := shrunk, tag := r.tag }
        else partialPoison e d i h
      else discardLintel e d i

/-- R259. A RELEASE or TWIN that closes no course: discarded, and counted with a NOTICE unless its course has completed. -/
def staleRelease (e : Env) (d : Dp) (i : Nat) (x : Barrier) (r : HodRec) : Dp :=
  if completed x.course r.course then d
  else
    let d := bumpT e d (homeOf e i) 15
    let b := brickOf d i
    if b.staleSent then d
    else reportTile e (setBrick d i { b with staleSent := true }) (homeOf e i) { mkReport e (mkKey e 5 i .staleHod) (some b.part) with d2 := r.course }

/-- R258, R270. A RELEASE from a parent, or TWIN from the twin, closes the open course. -/
def takeRelease (e : Env) (d : Dp) (i : Nat) (x : Barrier) (twin : Bool) (h : InHod) : Dp :=
  let r := h.rec_
  let from_ := match fget d.lintels i with
    | some l => if twin then l.twv && isFrom h l.twpeer l.twroute else l.upv && (isFrom h l.uppeer l.uproute || isFrom h l.up2peer l.up2route)
    | none => false
  if from_ && x.armed && x.bonded && !x.poisoned && r.course = x.course + 1 then
    let d := closeCourse e d i (brickOf d i) x (some { shrunk := r.status = 0x02#8, result := r.grout, gflags := r.gflags, instant := r.instant, tag := r.tag })
    settleBarrier e d i
  else staleRelease e d i x r

/-- R261. DEPART_UP from a child. -/
def takeDepartUp (e : Env) (d : Dp) (i : Nat) (h : InHod) : Dp :=
  let c := h.rec_.child.toNat
  match fget d.lintels i with
  | none => discardLintel e d i
  | some l =>
    match fget l.children c with
    | some y => if y.isFrom h then childGone e d i c (peerKey h.node h.die .poison) else discardLintel e d i
    | none => discardLintel e d i

/-- R263, R118. POISON from a peer: a brick without a bond becomes POISONED too, and forwards it. -/
def takePoison (e : Env) (d : Dp) (i : Nat) (x : Barrier) (h : InHod) : Dp :=
  match fget d.lintels i with
  | none => discardLintel e d i
  | some l =>
    let p := l.sender h
    if p = 0 then discardLintel e d i
    else if x.poisoned then d
    else
      let key := peerKey h.node h.die .poison
      poisonBrick e (peerReport e d i key (brickHandle e i (brickOf d i)) 0) i key p

/-- R265, R294. SWEEP from the parent: pending waits end TIMEOUT and the children are swept; an incomplete brick whose timer has not expired acts as at its own expiry. -/
def takeSweepUp (e : Env) (d : Dp) (i : Nat) (x : Barrier) (h : InHod) : Dp :=
  let b := brickOf d i
  match fget d.lintels i with
  | none => discardLintel e d i
  | some l =>
    let ok := l.upv && (isFrom h l.uppeer l.uproute || isFrom h l.up2peer l.up2route)
    if !ok || !(x.armed && x.bonded && !x.poisoned) || h.rec_.course ≠ x.course + 1 then discardLintel e d i
    else
      let t := homeOf e i
      let outs := releaseHods d t b x (endNow d i (brickHandle e i b) x.course .timeout)
      let d :=
        if !l.upwait && x.count < x.expect && !x.expired then expireBarrier e d i b x
        else if !l.upwait && twinReports e d i then sendNumbered e d (.tile t) (mkKey e 5 i .timeout) outs
        else emit e d t i 0 outs none
      sendKids e d i (HodRec.blank 5 0 (x.course + 1)) 0

/-- R266, R120. PROBE: the children are probed, and the brick's own joints, whose latest delivery is a free value (log 6). A PROBE of the other twin meanwhile is answered with the one that is under way, since an answer goes to both (log 24). -/
def takeProbe (e : Env) (d : Dp) (i : Nat) (x : Barrier) (h : InHod) : Dp :=
  match fget d.lintels i with
  | none => discardLintel e d i
  | some l =>
    if l.probe.isSome then d
    else
      let r := h.rec_
      let own := (bedJoints d (brickHandle e i (brickOf d i)) false).isEmpty
      let (k, d) := nextFree d
      let latest := if own then r.instant else Config.freeDword k
      if l.probed.isEmpty then probeDone e d i x l r.instant latest
      else sendKids e (setLintel d i { l with probe := some (l.probed, r.instant, latest) }) i { HodRec.blank 6 0 (x.course + 1) with instant := r.instant } 0

/-- R266. PROBE_ANS of a child or of its twin: the latest of the answers is kept, a second one of the same peer among them. -/
def takeProbeAns (e : Env) (d : Dp) (i : Nat) (h : InHod) : Dp :=
  let c := h.rec_.child.toNat
  match fget d.lintels i with
  | none => discardLintel e d i
  | some l =>
    match l.probe, fget l.children c with
    | some (w, sent, latest), some y =>
      if !y.isFrom h then discardLintel e d i
      else
        let latest := if reached h.rec_.instant latest then h.rec_.instant else latest
        probeOn e (setLintel d i { l with probe := some (w.filter (fun q => q != (c, !isFrom h y.peer y.route)), sent, latest) }) i
    | _, _ => discardLintel e d i

/-! ### REFUSE (R261, R268, R271, R275, R276) -/

/-- What a REFUSE refuses: a hod kept for its route with the COURSE and CHILD that it echoes, not yet waiting to go again (log 30). -/
def refused (d : Dp) (h : InHod) : Option SentHod :=
  (linkOf d h.route.toNat).sent.find? (fun s => s.rec_.course == h.rec_.course && s.rec_.child == h.rec_.child && hDie s.rec_.handle == h.die
    && (s.sender == h.rec_.handle || s.rec_.handle == h.rec_.handle) && (h.rec_.status != 0x04#8 || s.rec_.kind == 1#8)
    && !(d.backoffs.any (fun b => b.route == h.route && b.rec_ == s.rec_)))

/-- R276. The wait of the next RETRY, in microseconds. -/
def nextWait (w : Nat) : Nat := if w = 0 then 1 else min (2 * w) 64

/-- R275. REFUSE of a hod of this instance. -/
def takeRefuse (e : Env) (d : Dp) (h : InHod) : Dp :=
  match refused d h with
  | none => d
  | some s =>
    let st := h.rec_.status
    let l := linkOf d h.route.toNat
    if st = 0x04#8 then
      { d with backoffs := d.backoffs ++ [{ route := h.route, sender := s.sender, rec_ := s.rec_, dueGt := none, dueCyc := some (now e + 64) }] }
    else if st = 0x30#8 then
      let w := nextWait s.wait
      let d := bumpR e d h.route.toNat 9 1
      let d := setLink d h.route.toNat { l with sent := l.sent.map (fun y => if y = s then { y with wait := w } else y) }
      { d with backoffs := d.backoffs ++ [{ route := h.route, sender := s.sender, rec_ := s.rec_, dueGt := some (gtInterp e + BitVec.ofNat 64 (16000 * w)), dueCyc := none }] }
    else if st = 0x22#8 ∨ st = 0x10#8 then
      let i := hIndex s.sender
      if brickHandle e i (brickOf d i) = s.sender && (brickOf d i).valid then losePeer e d i s.rec_.handle h.route.toNat else d
    else d

/-- R276, R268. A back-off ends, and the hod goes again. -/
def backoffEnds (e : Env) (d : Dp) (n : Nat) : Dp :=
  match d.backoffs[n]? with
  | none => d
  | some b =>
    let due := (match b.dueGt with | some g => reached (gtInterp e) g | none => true) && (match b.dueCyc with | some c => decide (c ≤ now e) | none => true)
    if !due || e.stop.stopped || e.pwr.pfFrozen then d
    else
      let d := { d with backoffs := eraseAt d.backoffs n }
      let i := hIndex b.sender
      putRecord e (trace e d (homeOf e i) (some 6) (linkRec e (homeOf e i) b.route true b.rec_)) b.route (hDie b.rec_.handle) b.rec_

/-! ### Taking a record -/

/-- The handle of the brick here that a record is for: the sender's brick for a REFUSE. -/
def InHod.brick (d : Dp) (h : InHod) : Dword :=
  if h.rec_.kind = 9#8 then (match refused d h with | some s => s.sender | none => h.rec_.handle) else h.rec_.handle

/-- The index of the valid barrier that a record is for. -/
def InHod.target (e : Env) (d : Dp) (h : InHod) : Option Nat :=
  let x := h.brick d
  let i := hIndex x
  let b := brickOf d i
  if b.valid && decide (brickHandle e i b = x) && (match b.body with | .barrier _ => true | _ => false) then some i else none

/-- R333, R342. The record is for a brick of a suspended partition whose tile has drained. -/
def InHod.waits (e : Env) (d : Dp) (h : InHod) : Bool :=
  match h.target e d with
  | some i =>
    let p := (brickOf d i).part
    suspended d p && ((partOf d p).st != .freezing || drainedAt e d p (homeOf e i))
  | none => false

/-- R353, R378, R382. A record of a lintel kind at the tile of its brick: refused, or taken. -/
def runInHod (e : Env) (d : Dp) (h : InHod) : Dp :=
  let t := homeOf e (hIndex (h.brick d))
  let d := trace e d t (some 6) (linkRec e t h.route false h.rec_)
  if h.rec_.kind = 9#8 then takeRefuse e d h
  else if unavailable e t then refuseHod e d h .fenced
  else
    match h.target e d with
    | none => refuseHod e d h .badHandle
    | some i =>
      let b := brickOf d i
      match b.body with
      | .barrier x =>
        if b.lost.isSome then refuseHod e d h .badHandle
        else if h.rec_.kind = 1#8 then takeArriveUp e d i x h
        else if h.rec_.kind = 2#8 then takeRelease e d i x false h
        else if h.rec_.kind = 3#8 then takeDepartUp e d i h
        else if h.rec_.kind = 4#8 then takePoison e d i x h
        else if h.rec_.kind = 5#8 then takeSweepUp e d i x h
        else if h.rec_.kind = 6#8 then takeProbe e d i x h
        else if h.rec_.kind = 7#8 then takeProbeAns e d i h
        else if h.rec_.kind = 8#8 then takeRelease e d i x true h
        else discardLintel e d i
      | _ => d

/-- Record n of those received that may be taken: the first of its route and sender, while the instance runs. -/
def inboundAt (e : Env) (d : Dp) (n : Nat) : Option InHod :=
  match d.inbound[n]? with
  | none => none
  | some h =>
    if e.stop.stopped || e.pwr.pfFrozen || (d.inbound.take n).any (fun g => g.route == h.route && g.die == h.die && g.node == h.node) then none else some h

def dropInbound (d : Dp) (n : Nat) : Dp := { d with inbound := eraseAt d.inbound n }

/-- A record of one kind is taken at its brick's tile, unless its partition is suspended (R342). -/
def lintelRow (e : Env) (d : Dp) (n : Nat) (kind : Byte) : Dp :=
  match inboundAt e d n with
  | none => d
  | some h =>
    let t := homeOf e (hIndex (h.brick d))
    if h.rec_.kind ≠ kind || h.waits e d then d
    else if unavailable e t then runInHod e (dropInbound d n) h
    else if !tileServes e d t then d
    else runInHod e (tookHod e (dropInbound d n) t .req) h

/-! ### INCIDENT hods (R369) -/

/-- Table 12.4, read. -/
def IncKind.ofCode (n : Nat) : Option IncKind :=
  [IncKind.access, .timeout, .depart, .poison, .partial_, .xlateFault, .doorbell, .auth, .uplink, .linkCut, .jointStall, .meshEcc, .tileFault, .fence,
    .sparesOut, .mirrorGap, .config, .staleHod, .backstore, .power, .engine, .overflow, .fatalOvf].find? (fun k => k.code == n)

/-- Table 12.1, read. -/
def IncClass.ofCode : Nat → Option IncClass
  | 0 => some .notice | 1 => some .error | 2 => some .fatal | _ => none

/-- R368, R369. The report of an INCIDENT hod; none with a reserved code or a byte that is not zero where it must be (R11). -/
def hallReport (r : HodRec) : Option (Report × IncClass) :=
  let byte := fun (n : Nat) => ((r.grout[n]?).getD 0).toNat
  let word := fun (n w : Nat) => leNat ((r.grout.drop n).take w)
  match IncKind.ofCode (byte 8), IncClass.ofCode r.status.toNat with
  | some k, some c =>
    if r.grout.length ≠ 16 ∨ 8 ≤ byte 2 ∨ 11 ≤ byte 3 ∨ word 9 3 ≠ 0 then none
    else
      let key : IncKey := { node := BitVec.ofNat 16 (word 0 2), die := BitVec.ofNat 3 (byte 2), srcKind := BitVec.ofNat 4 (byte 3), srcId := BitVec.ofNat 32 (word 4 4), kind := k }
      some ({ key := key, hall := true, part := none, d0 := 0, d1 := 0, d2 := 0, maps := [], count := word 12 4, gtFirst := r.instant }, c)
  | _, _ => none

/-- R369. A time parent enters an INCIDENT hod, with its LINK record (R408). -/
def takeIncidentHod (e : Env) (d : Dp) (n : Nat) : Dp :=
  match inboundAt e d n with
  | none => d
  | some h =>
    if h.rec_.kind ≠ 10#8 then d
    else
      let t := parentTile h.route
      let d := trace e (dropInbound d n) t (some 6) (linkRec e t h.route false h.rec_)
      match hallReport h.rec_ with
      | some (r, c) => enterReport e d none r c
      | none => bumpT e d t 16

/-! ### Meanings -/

/-- R260. -/
def execArriveUp (n : Nat) (s : State) : Host.Outcome State Fault Refusal := .next { s with dp := lintelRow s.env s.dp n 1#8 }

/-- R258. -/
def execLintelRelease (n : Nat) (s : State) : Host.Outcome State Fault Refusal := .next { s with dp := lintelRow s.env s.dp n 2#8 }

/-- R270. -/
def execTwin (n : Nat) (s : State) : Host.Outcome State Fault Refusal := .next { s with dp := lintelRow s.env s.dp n 8#8 }

/-- R261. -/
def execDepartUp (n : Nat) (s : State) : Host.Outcome State Fault Refusal := .next { s with dp := lintelRow s.env s.dp n 3#8 }

/-- R263. -/
def execPoison (n : Nat) (s : State) : Host.Outcome State Fault Refusal := .next { s with dp := lintelRow s.env s.dp n 4#8 }

/-- R265. -/
def execSweep (n : Nat) (s : State) : Host.Outcome State Fault Refusal := .next { s with dp := lintelRow s.env s.dp n 5#8 }

/-- R266. -/
def execProbe (n : Nat) (s : State) : Host.Outcome State Fault Refusal := .next { s with dp := lintelRow s.env s.dp n 6#8 }

/-- R266. -/
def execProbeAns (n : Nat) (s : State) : Host.Outcome State Fault Refusal := .next { s with dp := lintelRow s.env s.dp n 7#8 }

/-- R275. -/
def execRefuse (n : Nat) (s : State) : Host.Outcome State Fault Refusal := .next { s with dp := lintelRow s.env s.dp n 9#8 }

/-- R276. -/
def execRefuseRetryBackoff (n : Nat) (s : State) : Host.Outcome State Fault Refusal := .next { s with dp := backoffEnds s.env s.dp n }

/-- R369. -/
def execIncidentHod (n : Nat) (s : State) : Host.Outcome State Fault Refusal := .next { s with dp := takeIncidentHod s.env s.dp n }

end Sys2Proof.Machine
end

