-- ==== Sys2Proof/Machine/Frames.lean ====
section
/-! DEFINITION. Sys2Proof/Machine/Frames.lean: the receiving half of a link (R278 to R282, R417), records of the package stream (R272), pause (R277), and the offset measurement (R287 to R289). -/

namespace Sys2Proof.Machine

/-! ### Fields of a received frame (Table 9.6) -/

def fByte (f : List Byte) (n : Nat) : Nat := ((f[n]?).getD 0).toNat
def fField (f : List Byte) (n w : Nat) : Nat := beNat ((f.drop n).take w)

def fKind (f : List Byte) : Nat := fByte f 0 % 16
def fNak (f : List Byte) : Bool := decide (128 ≤ fByte f 1)
def fKsel (f : List Byte) : Nat := fByte f 1 / 64 % 2
def fHods (f : List Byte) : Nat := fByte f 1 % 8
def fLink (f : List Byte) : Nat := fField f 2 2
def fSrcNode (f : List Byte) : BitVec 16 := BitVec.ofNat 16 (fField f 4 2)
def fSrcDie (f : List Byte) : BitVec 3 := BitVec.ofNat 3 (fByte f 6 / 32)
def fJob (f : List Byte) : Nat := fField f 8 4
def fSeq (f : List Byte) : Word := BitVec.ofNat 32 (fField f 12 4)
def fAck (f : List Byte) : Word := BitVec.ofNat 32 (fField f 16 4)
def fEpoch (f : List Byte) : BitVec 16 := BitVec.ofNat 16 (fField f 20 2)
def fLen (f : List Byte) : Nat := fField f 22 2
def fTime (f : List Byte) (n : Nat) : Dword := BitVec.ofNat 64 (fField f n 8)

/-- R417. A TIME frame whose three instants are all ones, with NAK 0. -/
def isHold (f : List Byte) : Bool := fKind f == 2 && !fNak f && fField f 24 24 == 2 ^ 192 - 1

/-- Where the frame header stands behind the Ethernet header, and in UDP mode those of IPv6 and UDP (R273). -/
def headerAt (e : Env) : Nat := if e.lf.mode then 66 else 18

/-- R273, R277. A frame of the Ethernet stream, from its frame header on: none without the one tag and the EtherType, and in UDP mode none that is not IPv6, has an extension header or is a fragment, or whose UDP checksum is zero or wrong. -/
def deframe (e : Env) (f : List Byte) : Option (List Byte) :=
  if fField f 12 2 ≠ 0x8100 then none
  else if !e.lf.mode then (if fField f 16 2 = etypeOf e then some (f.drop 18) else none)
  else
    let n := fField f 62 2
    let ip := fField f 16 2 == 0x86DD && fByte f 18 / 16 == 6 && fByte f 24 == 17
    let udp := decide (8 ≤ n ∧ 58 + n ≤ f.length ∧ fField f 22 2 = n) && fField f 64 2 != 0
    let sum := sum16 (pseudo ((f.drop 26).take 16) ((f.drop 42).take 16) n ++ (f.drop 58).take n)
    if ip && udp && sum != 0 && sum % 0xFFFF == 0 then some ((f.drop 66).take (n - 8)) else none

/-- R11, Table 9.6. The version of a frame header and its reserved bits. -/
def headerForm (f : List Byte) : Bool := decide (fByte f 0 / 16 = 1) && fByte f 1 / 8 % 8 == 0 && fByte f 6 % 32 == 0 && fByte f 7 == 0

/-- R11, R282. The checks of a frame, tag and reserved bits included. -/
def frameOk (e : Env) (f : List Byte) : Bool :=
  let r := fLink f
  let k := routeKey e r
  let n := fLen f
  headerForm f && routeValid e r && decide (fSrcNode f = routeNode e r ∧ fSrcDie f = routeDie e r)
    && decide (fJob f = keyJob e k) && bits (keyCtl e k) 0 1 == 1 && bits (keyCtl e k) (2 + fKsel f) 1 == 1
    && decide (24 ≤ n ∧ n + 8 ≤ f.length) && decide (frameTag (keyOf e k (fKsel f)) (f.take n) = (f.drop n).take 8)

/-- Table 9.7. The record at the head of some bytes, whether it may be taken, and the bytes after it: not with a reserved bit (R11), a GLEN above 640 or no multiple of 8, or one that runs past the end (Table 9.17). -/
def parseRec (l : List Byte) : Option (HodRec × Bool × List Byte) :=
  let g := fField l 4 2
  if l.length < 32 then none
  else
    some ({ kind := BitVec.ofNat 8 (fByte l 0), gflags := BitVec.ofNat 8 (fByte l 1), child := BitVec.ofNat 6 (fByte l 2), status := BitVec.ofNat 8 (fByte l 3)
            grout := (l.drop 32).take g, handle := BitVec.ofNat 64 (fField l 8 8), course := BitVec.ofNat 32 (fField l 16 4)
            tag := BitVec.ofNat 32 (fField l 20 4), instant := BitVec.ofNat 64 (fField l 24 8) },
          decide (fByte l 2 < 64 ∧ fField l 6 2 = 0 ∧ g ≤ 640 ∧ g % 8 = 0 ∧ 32 + g ≤ l.length), l.drop (32 + g))

/-- The hods of a DATA frame, with what parseRec says of each. -/
def parseRecs : Nat → List Byte → List (HodRec × Bool)
  | 0, _ => []
  | n + 1, l => match parseRec l with
    | none => []
    | some (h, ok, rest) => (h, ok) :: parseRecs n rest

/-! ### Drops (R282) -/

/-- R282. A frame dropped by the checks: counted, and 256 drops of one link within 1 ms raise an AUTH incident. -/
def dropFrame (e : Env) (d : Dp) (r : Nat) : Dp :=
  let d := bumpR e d r 7 1
  if !routeValid e r then d
  else
    let l := linkOf d r
    let g := gtInterp e
    let q := l.dropAt.filter (fun t => decide ((g - t).toNat < millisecond)) ++ [g]
    if q.length < 256 then setLink d r { l with dropAt := q }
    else report e (setLink d r { l with dropAt := [] }) .fabric { mkReport e (mkKey e 7 r .auth) (some (routePart e r)) with d2 := 256 }

/-! ### Sending again (R280, R281) -/

/-- R280. Every unacknowledged frame goes out again, from the oldest. -/
def goBack (e : Env) (d : Dp) (r : Nat) : Dp :=
  (linkOf d r).unacked.foldl (fun d f =>
    let l := linkOf d r
    let d := wireOut e (setLink d r { l with ackOwed := none }) (.data (BitVec.ofNat 8 r) f l.seqRx l.epochTx)
    bumpR e (bumpR e d r 0 1) r 2 ((f.hods.map HodRec.size).sum)) d

/-- R281. RELEASE of brick i's last closed course goes again to the children that a route reaches, as it went; for a course that closed before the brick had a lintel record, as the barrier still holds it. -/
def replayDown (e : Env) (d : Dp) (i : Nat) (l : Lintel) (x : Barrier) (ps : List Dword) : Dp :=
  let rel := l.lastRel.getD (releaseRec 2 x.course 0 x.lastStatus ((x.grout.map (fun g => g.resFlags)).getD 0) ((x.grout.map (fun g => g.result)).getD []) 0)
  if x.course = 0 && l.lastRel.isNone then d
  else
    l.children.foldl (fun d c =>
      if !c.2.valid || l.gone.getLsbD c.1 then d
      else
        let d := if ps.contains c.2.peer && !c.2.cut1 then linkHod e d i c.2.route { rel with handle := c.2.peer } else d
        if ps.contains c.2.peer2 && !c.2.cut2 then linkHod e d i c.2.route2 { rel with handle := c.2.peer2 } else d) d

/-- R281. ARRIVE_UP of a brick in UPWAIT goes again to the parents that a route reaches. -/
def replayUp (e : Env) (d : Dp) (i : Nat) (l : Lintel) (x : Barrier) (ps : List Dword) : Dp :=
  match l.upPay with
  | some (a, st) =>
    if !(l.upv && l.upwait) then d
    else
      let h := { arriveUpRec x a st (x.course + 1) with child := l.upslot }
      let d := if ps.contains l.uppeer && !l.upcut then linkHod e d i l.uproute { h with handle := l.uppeer } else d
      if ps.contains l.up2peer && !l.up2cut then linkHod e d i l.up2route { h with handle := l.up2peer } else d
  | none => d

/-- R281, R294 (log 12). The link to some peers is up again: their cut marks clear, but for a child that has departed and a brick that has been orphaned. -/
def Lintel.mend (l : Lintel) (ps : List Dword) : Lintel :=
  let kids := l.children.map (fun c => if l.gone.getLsbD c.1 then c else
    (c.1, { c.2 with cut1 := c.2.cut1 && !ps.contains c.2.peer, cut2 := c.2.cut2 && !ps.contains c.2.peer2 }))
  let orphan := l.upcut && (l.up2cut || l.up2peer = 0)
  { l with children := kids, upcut := l.upcut && (orphan || !ps.contains l.uppeer), up2cut := l.up2cut && (orphan || !ps.contains l.up2peer) }

/-- R281. After a SYNC, each brick that uses the route and that `who` names replays. -/
def replayFor (e : Env) (d : Dp) (r : BitVec 8) (die : Option (BitVec 3)) (who : Nat → Bool) : Dp :=
  d.lintels.foldl (fun d p =>
    match (brickOf d p.1).body with
    | .barrier x =>
      let ps := p.2.over_ r die
      if ps.isEmpty || !who p.1 then d
      else
        let l := p.2.mend ps
        replayUp e (replayDown e (setLintel d p.1 l) p.1 l x ps) p.1 l x ps
    | _ => d) d

/-- R281, R341. After a SYNC the bricks that use the route replay, those of a suspended partition at its resume. -/
def replay (e : Env) (d : Dp) (r : BitVec 8) (die : Option (BitVec 3)) : Dp :=
  let k := 1024 + cutNo r die
  let late := (List.range 16).filter (fun p => recordsNow e d (BitVec.ofNat 4 p))
  let d := late.foldl (fun d p =>
    let q := BitVec.ofNat 4 p
    let y := partOf d q
    if (die.isSome || routePart e r.toNat = q) && y.recCuts.getLast? != some k then setPart d q { y with recCuts := y.recCuts ++ [k] } else d) d
  replayFor e d r die (fun i => !late.contains (brickOf d i).part.toNat)

/-- R289. The route to the time parent is cut: no exchange is answered any more. -/
def timeCut (d : Dp) : Dp := { d with tm := { d.tm with toSend := 0, waiting := [] } }

/-- R280, R281. A link is cut: its bricks' peers are lost, and it restarts with SYNC. -/
def cutLink (e : Env) (d : Dp) (r : Nat) : Dp :=
  let l := linkOf d r
  let d := if l.unacked.isEmpty && l.queue.isEmpty then d else stillBusy e d (routeTile r)
  let d := setLink d r { l with cut := true, synced := false, syncing := false, unacked := [], queue := [], sent := [], retries := 0, timer := none, hold := none }
  let d := { d with backoffs := d.backoffs.filter (fun b => b.route.toNat != r) }
  let d := applyCut e d (BitVec.ofNat 8 r) none
  let d := if !e.lf.tRoot && e.lf.tLink.toNat = r then timeCut d else d
  pumpTile e (startSync e d r) r

/-- R280. One retry: at LIMIT the link is cut, unless it is already; below it the frames, or the SYNC, go again. -/
def retry (e : Env) (d : Dp) (r : Nat) : Dp :=
  let l := linkOf d r
  let d := bumpR e d r 4 1
  if retryLimit e ≤ l.retries + 1 && !l.cut then cutLink e d r
  else
    let d := setLink d r { l with retries := l.retries + 1, timer := some (linkNow e l + rtoUnits e) }
    if l.syncing then wireOut e d (.sync (BitVec.ofNat 8 r) l.seqRx l.epochTx) else goBack e d r

/-! ### Received frames (R278 to R280) -/

/-- R280. The number ACK of a frame: the frames before it are acknowledged. Any ACK that comes while a SYNC is out answers it (log 12). -/
def takeAck (e : Env) (d : Dp) (r : Nat) (ack : Word) : Dp :=
  let l := linkOf d r
  if l.syncing then
    let d := setLink d r { l with syncing := false, synced := true, cut := false, retries := 0, timer := none }
    pumpTile e (replay e d (BitVec.ofNat 8 r) none) r
  else
    match l.unacked with
    | [] => d
    | f :: _ =>
      let n := (ack - f.seq).toNat
      if n = 0 ∨ l.unacked.length < n then d
      else
        let rest := l.unacked.drop n
        pumpTile e (setLink (stillBusy e d (routeTile r)) r { l with unacked := rest, retries := 0, timer := if rest.isEmpty then none else some (linkNow e l + rtoUnits e) }) r

/-- R279. An acknowledgement is owed within 1 µs. -/
def oweAck (e : Env) (d : Dp) (r : Nat) : Dp :=
  let l := linkOf d r
  setLink d r { l with ackOwed := some (l.ackOwed.getD (linkNow e l + 16000)) }

/-- A standalone ACK leaves. -/
def sendAck (e : Env) (d : Dp) (r : Nat) (nak : Bool) : Dp :=
  let l := linkOf d r
  wireOut e (setLink d r { l with ackOwed := none }) (.ack (BitVec.ofNat 8 r) nak l.seqRx l.epochTx)

/-- R275, R11, Table 9.17. A hod that has come in: kept for its brick, or discarded and counted where its kind is reserved or its record may not be taken. -/
def arriveRec (e : Env) (d : Dp) (route : BitVec 8) (die : BitVec 3) (node : BitVec 16) (h : HodRec) (ok : Bool) : Dp :=
  if h.kind.toNat = 0 ∨ 10 < h.kind.toNat ∨ ok = false then discardLintel e d (hIndex h.handle)
  else { d with inbound := d.inbound ++ [{ route := route, die := die, node := node, rec_ := h }] }

/-- R279. A DATA frame of the current epoch. -/
def takeData (e : Env) (d : Dp) (r : Nat) (f : List Byte) : Dp :=
  let l := linkOf d r
  let seq := fSeq f
  if fHods f = 0 ∨ 4 < fHods f then bumpR e d r 7 1
  else
    let hs := parseRecs (fHods f) ((f.take (fLen f)).drop 24)
    if seq = l.seqRx then
      let d := setLink d r { l with seqRx := l.seqRx + 1, gapSeen := false }
      let d := bumpR e d r 3 (fLen f - 24)
      takeAck e (oweAck e (hs.foldl (fun d h => arriveRec e d (BitVec.ofNat 8 r) (routeDie e r) (routeNode e r) h.1 h.2) d) r) r (fAck f)
    else if (l.seqRx - seq).toNat < 2 ^ 31 then takeAck e (sendAck e (bumpR e d r 5 1) r false) r (fAck f)
    else
      let d := takeAck e (bumpR e d r 6 1) r (fAck f)
      if l.gapSeen then d else sendAck e (setLink d r { linkOf d r with gapSeen := true }) r true

/-- R417. Any frame but a hold ends the peer's hold. -/
def endHold (e : Env) (d : Dp) (r : Nat) : Dp :=
  let l := linkOf d r
  if l.hold.isNone then d else pump e (setLink d r (moveLink e e l { l with hold := none })) r

/-- R281 (log 12). The peer has reset: its SYNC names no epoch that follows the last, or acknowledges what this side has not sent or had acknowledged. -/
def peerReset (l : Link) (ep : BitVec 16) (ack : Word) : Bool :=
  let first := (l.unacked.head?.map TxFrame.seq).getD l.seqTx
  l.synced && ((ep != l.epochRx + 1 && !(ep == l.epochRx && l.seqRx == 0)) || decide ((l.seqTx - first).toNat < (ack - first).toNat))

/-- R278, R281. SYNC: the new epoch is adopted, ACK answers it, and the bricks replay: after this side's own SYNC where the peer has reset. -/
def takeSync (e : Env) (d : Dp) (r : Nat) (f : List Byte) : Dp :=
  let l := linkOf d r
  let d := sendAck e (setLink d r { l with epochRx := fEpoch f, seqRx := 0, gapSeen := false }) r false
  if peerReset l (fEpoch f) (fAck f) then pumpTile e (startSync e d r) r else replay e d (BitVec.ofNat 8 r) none

/-! ### Offset measurement (R287 to R289) -/

/-- R287. The time parent is not reachable: the package route to this die, or to one with a die-to-die error, or an invalid route. -/
def parentLost (e : Env) : Bool :=
  if e.lf.tLink = 0xFF#8 then e.lf.tPdie == e.cfg.die || e.lf.d2dErr.getLsbD e.lf.tPdie.toNat else !routeValid e e.lf.tLink.toNat

/-- Half of a difference: R288 gives no rounding, so an odd one leaves its last half unit to a free value (log 6). -/
def half (k : Nat) (v : Int) : Int := if v % 2 = 0 then v / 2 else (v - 1) / 2 + (if (Config.freeDword k).getLsbD 0 then 1 else 0)

/-- The signed value of a difference of instants. -/
def sdiff (a b : Dword) : Int := (a - b).toInt

/-- R287. The parent takes a request, which came at GT g, and answers it; the requester takes a reply that matches a request out. -/
def takeTime (e : Env) (d : Dp) (route : BitVec 8) (die : BitVec 3) (f : List Byte) (g : Dword) : Dp :=
  let l := linkOf d route.toNat
  let put := fun (d : Dp) (x : FabOut) => if route = 0xFF#8 then packOut e d x else wireOut e d x
  let t1 := fTime f 24
  if !fNak f then put d (.time route die true t1 g (gtInterp e) l.seqRx l.epochTx)
  else if e.lf.tRoot || e.lf.tLink != route || (route == 0xFF#8 && die != e.lf.tPdie) then d
  else
    match d.tm.waiting.find? (fun w => w.2.1 == t1) with
    | none => d
    | some w =>
      let t4 := g + corr e
      let t2 := fTime f 32
      let t3 := fTime f 40
      let (k, d) := nextFree d
      let th := half k (sdiff t2 t1 - sdiff t4 t3)
      let (k, d) := nextFree d
      let de := half k (sdiff t4 t1 - sdiff t3 t2)
      { d with tm := { d.tm with waiting := d.tm.waiting.filter (fun v => v.1 != w.1), results := d.tm.results ++ [(th, de)] } }

/-- R287. The next exchange of a measurement goes out, 10 µs after the last. -/
def sendTime (e : Env) (d : Dp) : Dp :=
  let m := d.tm
  let g := gtInterp e
  if !m.busy || m.toSend = 0 || !reached g m.nextAt || e.stop.stopped || e.pwr.pfFrozen then d
  else
    let t1 := g + corr e
    let d := { d with tm := { m with toSend := m.toSend - 1, nextAt := g + 160000, serial := m.serial + 1, waiting := m.waiting ++ [(m.serial, t1, g)] } }
    if parentLost e then d
    else
      let l := linkOf d e.lf.tLink.toNat
      let x := FabOut.time e.lf.tLink e.lf.tPdie false t1 0 0 l.seqRx l.epochTx
      if e.lf.tLink = 0xFF#8 then packOut e d x else wireOut e d x

/-- R289. An exchange without a reply after 100 µs of GT is unanswered. -/
def timeoutTime (e : Env) (d : Dp) (n : Nat) : Dp :=
  match d.tm.waiting.find? (fun w => w.1 == n) with
  | some (_, _, at_) => if 1600000 ≤ (gtInterp e - at_).toNat then { d with tm := { d.tm with waiting := d.tm.waiting.filter (fun v => v.1 != n) } } else d
  | none => d

/-! ### A frame at the fabric port -/

/-- R279. A frame that has passed R282, from its frame header on; it came at GT g (R459). -/
def okFrame (e : Env) (d : Dp) (r : Nat) (f : List Byte) (g : Dword) : Dp :=
  let d := bumpR e d r 1 1
  let d := if isHold f then d else endHold e d r
  if fKind f = 3 then takeSync e d r f
  else if fEpoch f ≠ (linkOf d r).epochRx then bumpR e d r 8 1
  else if isHold f then
    let l := linkOf d r
    setLink d r { l with hold := some (l.hold.getD (gtInterp e)) }
  else if fKind f = 2 then takeTime e d (BitVec.ofNat 8 r) (routeDie e r) f g
  else if fKind f = 0 then takeData e d r f
  else if fKind f = 1 then
    let before := (linkOf d r).unacked.length
    let d := takeAck e d r (fAck f)
    if fNak f && before != 0 && !(linkOf d r).unacked.isEmpty then retry e d r else d
  else bumpR e d r 7 1

/-- The link at which a frame of the stream counts that is not taken (log 12). -/
def linkAt (e : Env) (f : List Byte) : Nat := min (fLink (f.drop (headerAt e))) 255

/-- R277, R279, R282, Table 15.12. A frame that the Ethernet stream handed over at GT t: one shorter than 18 bytes, longer than LF_MTU and 22, with F_ER_ERR or without the headers of its mode is dropped and counted. -/
def takeFrame (e : Env) (d : Dp) (f : List Byte) (err : Bool) (t : Dword) : Dp :=
  if !e.lf.enable then d
  else if err || f.length < 18 || mtuOf e + 22 < f.length then bumpR e d (linkAt e f) 7 1
  else
    match deframe e f with
    | none => bumpR e d (linkAt e f) 7 1
    | some g => if frameOk e g then okFrame e d (fLink g) g t else dropFrame e d (min (fLink g) 255)

/-- R416, R459. The 64 KiB receive buffer of a stopped instance; it keeps the GT at which each frame came. -/
def bufferFrame (e : Env) (d : Dp) (f : List Byte) (err : Bool) : Dp :=
  if ((d.rxBuf.map (fun x => x.1.length)).sum + f.length) ≤ 65536 then { d with rxBuf := d.rxBuf ++ [(f, err, gtInterp e)] } else d

/-- A frame of the stream arrives, of the kind that `is` names; one without a frame header is of any kind. -/
def frameRow (e : Env) (d : Dp) (f : List Byte) (err : Bool) (is : List Byte → Bool) : Dp :=
  if ((deframe e f).map is) == some false || e.pwr.pfFrozen then d
  else if e.stop.stopped then bufferFrame e d f err
  else takeFrame e d f err (gtInterp e)

/-! ### The package stream (R272) -/

/-- R272, R458. A record arrives from another die: discarded and counted while that die's error stands. The fabric holds it during a stop. -/
def packageRec (e : Env) (d : Dp) (die : BitVec 3) (l : List Byte) : Dp :=
  if e.stop.stopped || e.pwr.pfFrozen then d
  else if e.lf.d2dErr.getLsbD die.toNat then bumpR e d 255 7 1
  else
    match parseRec l with
    | some (h, ok, []) => arriveRec e (bumpR e (bumpR e d 255 1 1) 255 3 l.length) 0xFF#8 die e.kp.node h ok
    | _ => bumpR e d 255 7 1

/-- R272, R287. A TIME exchange on the package route: the bare frame header and payload, 48 bytes in all. -/
def packageTime (e : Env) (d : Dp) (die : BitVec 3) (f : List Byte) : Dp :=
  if e.stop.stopped || e.pwr.pfFrozen then d
  else if e.lf.d2dErr.getLsbD die.toNat || f.length ≠ 48 || fLen f ≠ 48 || fKind f ≠ 2 || !headerForm f then bumpR e d 255 7 1
  else takeTime e (bumpR e d 255 1 1) 0xFF#8 die f (gtInterp e)

/-- R272. A die-to-die error: every package link to that die is cut, with a LINK_CUT incident. -/
def d2dCut (e : Env) (d : Dp) (die : BitVec 3) : Dp :=
  let d := report e d .fabric { mkReport e (peerKey e.kp.node die .linkCut) none with d2 := 255 }
  let d := { d with backoffs := d.backoffs.filter (fun b => !(b.route == 0xFF#8 && hDie b.rec_.handle == die)) }
  let d := applyCut e d 0xFF#8 (some die)
  if !e.lf.tRoot && e.lf.tLink = 0xFF#8 && e.lf.tPdie = die then timeCut d else d

/-- R416. The die-to-die errors that rose or cleared while the instance stood stopped act as it resumes. -/
def d2dResume (e : Env) (up down : BitVec 8) (d : Dp) (k : Nat) : Dp :=
  let die := BitVec.ofNat 3 k
  let d := if up.getLsbD k then d2dCut e d die else d
  if down.getLsbD k && !e.lf.d2dErr.getLsbD k then replay e d 0xFF#8 (some die) else d

/-! ### Timers -/

/-- The timers of links run. -/
def timersRun (e : Env) (l : Link) : Bool := !e.stop.stopped && !e.pwr.pfFrozen && !paused e && l.hold.isNone

/-- R280, Table 9.17. The retransmit timer of a link expires. -/
def retransmit (e : Env) (d : Dp) (r : Nat) : Dp :=
  let l := linkOf d r
  match l.timer with
  | some t => if timersRun e l && reached (gtInterp e) t && (l.syncing || !l.unacked.isEmpty || !e.lf.enable) then retry e d r else d
  | none => d

/-- R277, R279, R417. A standalone ACK is due, where the link's timers run. -/
def ackTimer (e : Env) (d : Dp) (r : Nat) : Dp :=
  match (linkOf d r).ackOwed with
  | some t => if reached (gtInterp e) t && timersRun e (linkOf d r) then sendAck e d r false else d
  | none => d

/-- R417. HOLDMAX has passed with the peer still holding: the link is cut. -/
def holdMaxed (e : Env) (d : Dp) (r : Nat) : Dp :=
  match (linkOf d r).hold with
  | some g =>
    if e.lf.holdMax != 0#10 && !e.stop.stopped && !e.pwr.pfFrozen && decide (e.lf.holdMax.toNat * millisecond ≤ (gtInterp e - g).toNat) then cutLink e d r else d
  | none => d

/-- R277. A pause under e is honoured no more under e2: the timers of every link go on from where they stood, and frames leave, those of a stopped instance at its GO. -/
def resumeLinks (e e2 : Env) (d : Dp) : Dp :=
  let ls : FMap Link := d.links.map (fun (p : Nat × Link) => (p.1, moveLink e e2 p.2 p.2))
  if e2.stop.stopped then { d with links := ls } else ls.foldl (fun d p => pump e2 d p.1) (releaseHeld e2 { d with links := ls })

/-! ### Meanings -/

/-- R279. -/
def execData (f : List Byte) (err : Bool) (s : State) : Host.Outcome State Fault Refusal :=
  .next { s with dp := frameRow s.env s.dp f err (fun f => fKind f == 0) }

/-- R280. -/
def execAck (f : List Byte) (err : Bool) (s : State) : Host.Outcome State Fault Refusal :=
  .next { s with dp := frameRow s.env s.dp f err (fun f => fKind f == 1) }

/-- R278. -/
def execSync (f : List Byte) (err : Bool) (s : State) : Host.Outcome State Fault Refusal :=
  .next { s with dp := frameRow s.env s.dp f err (fun f => fKind f == 3) }

/-- R417. -/
def execHold (f : List Byte) (err : Bool) (s : State) : Host.Outcome State Fault Refusal :=
  .next { s with dp := frameRow s.env s.dp f err isHold }

/-- R287. -/
def execTime (f : List Byte) (err : Bool) (die : Option (BitVec 3)) (s : State) : Host.Outcome State Fault Refusal :=
  match die with
  | some k => .next (if isHold f then s else { s with dp := packageTime s.env s.dp k f })
  | none => .next { s with dp := frameRow s.env s.dp f err (fun f => fKind f == 2 && !isHold f) }

/-- R279. -/
def execStandaloneAckTimer (r : BitVec 8) (s : State) : Host.Outcome State Fault Refusal := .next { s with dp := ackTimer s.env s.dp r.toNat }

/-- R280. -/
def execRetransmitExpiry (r : BitVec 8) (s : State) : Host.Outcome State Fault Refusal := .next { s with dp := retransmit s.env s.dp r.toNat }

/-- R417. -/
def execHoldmaxExpiry (r : BitVec 8) (s : State) : Host.Outcome State Fault Refusal := .next { s with dp := holdMaxed s.env s.dp r.toNat }

/-- R287. -/
def execTimeExchangeSend (s : State) : Host.Outcome State Fault Refusal := .next { s with dp := sendTime s.env s.dp }

/-- R289. -/
def execTimeExchangeTimeout (n : Nat) (s : State) : Host.Outcome State Fault Refusal := .next { s with dp := timeoutTime s.env s.dp n }

/-- R272. -/
def execPackageRecord (die : BitVec 3) (l : List Byte) (s : State) : Host.Outcome State Fault Refusal :=
  .next { s with dp := packageRec s.env s.dp die l }

/-- R272. -/
def execD2dErr (die : BitVec 3) (s : State) : Host.Outcome State Fault Refusal :=
  if s.env.lf.d2dErr.getLsbD die.toNat then .next s
  else
    let e := { s.env with lf := { s.env.lf with d2dErr := s.env.lf.d2dErr ||| BitVec.ofNat 8 (2 ^ die.toNat) } }
    if e.pwr.pfFrozen then .next { s with env := e }
    else if e.stop.stopped then .next { s with env := { e with stop := { e.stop with d2dUp := e.stop.d2dUp ||| BitVec.ofNat 8 (2 ^ die.toNat) } } }
    else .next { s with env := e, dp := d2dCut e s.dp die }

/-- R272, R281. -/
def execD2dErrClear (die : BitVec 3) (s : State) : Host.Outcome State Fault Refusal :=
  if !s.env.lf.d2dErr.getLsbD die.toNat then .next s
  else
    let e := { s.env with lf := { s.env.lf with d2dErr := s.env.lf.d2dErr &&& ~~~ (BitVec.ofNat 8 (2 ^ die.toNat)) } }
    if e.pwr.pfFrozen then .next { s with env := e }
    else if e.stop.stopped then .next { s with env := { e with stop := { e.stop with d2dDown := e.stop.d2dDown ||| BitVec.ofNat 8 (2 ^ die.toNat) } } }
    else .next { s with env := e, dp := replay e s.dp 0xFF#8 (some die) }

/-- R277. -/
def execPause (level : Bool) (s : State) : Host.Outcome State Fault Refusal :=
  if level = s.env.lf.pause then .next s
  else
    let g := gtInterp s.env
    let e := { s.env with lf := { s.env.lf with pause := level, pauseAt := if level then g else s.env.lf.pauseAt } }
    if level || !e.lf.pfc then .next { s with env := e }
    else .next { s with env := e, dp := resumeLinks s.env e s.dp }

end Sys2Proof.Machine
end

