-- ==== Sys2Proof/Machine/Observe.lean ====
section
/-! DEFINITION. Sys2Proof/Machine/Observe.lean: counters, the trace drain, trace rings, the trigger and the TC_ commands of the keeper (R401 to R414). -/

namespace Sys2Proof.Machine

/-! ### The trace drain (R410 to R412, R414) -/

/-- Table 13.6. The flits that a tile's bucket gains in 400 tile cycles; 13 to 15 act as 12. -/
def budgetOf (d : Dp) : Nat := min d.obs.budget.toNat 12

/-- R414. The bucket of tile t, filled for the cycles since it was last brought up to date. -/
def fillBucket (e : Env) (d : Dp) (t : Nat) : Dp :=
  let x := tileOf d t
  let b := x.trace
  let n := (now e - b.bucketCyc) / 400
  setTile d t { x with trace := { b with bucket := min 64 (b.bucket + n * budgetOf d), bucketCyc := b.bucketCyc + 400 * n } }

/-- R411. Whether the buffer of tile t drains. -/
def drains (d : Dp) (t : Nat) : Bool :=
  let m := modeOf d t
  let b := (tileOf d t).trace
  b.flush || (m.drain && (m.mode ≠ 2#2 || b.after_.isSome))

/-- R412. The destination of a buffered record: with ALL 1 the keeper's ring for every record, DROP records among them. -/
def drainDest (d : Dp) (r : TRec) : Nat := r.dest d.obs.all

/-- R410. Records of destination k are lost: its ring is disabled, or it is a suspended partition. -/
def destGone (d : Dp) (k : Nat) : Bool := (tringOf d k).state = .disabled || (decide (k < 16) && suspended d (BitVec.ofNat 4 k))

/-- R412. The ring of destination k takes a record. -/
def destTakes (d : Dp) (k : Nat) : Bool :=
  let q := tringOf d k
  q.state = .running && decide ((q.tail - q.head).toNat < ringSize q.cfg)

/-- The ports that a record of tile t passes on its way to memory. -/
def traceWay (e : Env) (t : Nat) : List Nat := routePorts (e.cfg.memoryPort % 8) (route (tileRouter e t) (e.cfg.memoryPort / 8))

/-- R31, R412, R414. Record r of tile t goes to the ring of destination k: a hod of 5 flits on OBS, and one slot, but for a record whose hod a flit error discards. -/
def writeTrace (e : Env) (d : Dp) (t k : Nat) (r : TRec) : Dp :=
  let (d, there) := crossing e (bumpT e (countPorts e .obs 1 5 (traceWay e t) d) t 9) .obs (traceWay e t)
  if !there then d
  else
    let q := tringOf d k
    setTring (memWrite d k (q.cfg.base + BitVec.ofNat 64 (q.tail.toNat % ringSize q.cfg * 32)) 32 (r.image t)) k { q with tail := q.tail + 1 }

/-- R410. In a buffer that refuses records, the waiting DROP records take the n slots that have come free, the lowest destination first. -/
def lateDrop (e : Env) (d : Dp) (t n : Nat) : Dp :=
  let x := tileOf d t
  let b := x.trace
  let l := b.lost.take n
  if traceRefuses d t then
    bumpK e (setTile d t { x with trace := { b with recs := b.recs ++ l.map (fun w => dropRec e t w.1 w.2), lost := b.lost.drop n } }) 0 t 35 l.length
  else d

/-- R410. A buffered record that cannot be written any more: a DROP record's count goes back to the tile, any other is lost and counted. -/
def loseRec (e : Env) (d : Dp) (t k : Nat) (r : TRec) : Dp :=
  if r.kind = 0x3F#6 then traceReturn t d r else traceLose e d t k 1

/-- R410 to R414. The records of a list, which are tile t's buffer in order, drain as far as `bucketed` allows: those that wait are kept, those whose destination is gone are lost. `stuck` are the destinations of which a record waits, `owed` the losses that the DROP records still ahead take on. A DROP record whose destination is gone waits: no access is made for a suspended partition (R351). -/
def drainList (e : Env) (t : Nat) (bucketed : Bool) : List TRec → List Nat → FMap Nat → Dp → Dp
  | [], _, _, d => d
  | r :: rest, stuck, owed, d =>
    let drop := decide (r.kind = 0x3F#6)
    let r := if drop then r.more (fgetD owed (r.dest false) 0) else r
    let owed := if drop then fdel owed (r.dest false) else owed
    let k := drainDest d r
    let b := (tileOf d t).trace
    let keep := fun (d : Dp) =>
      let x := tileOf d t
      setTile d t { x with trace := { x.trace with recs := x.trace.recs ++ [r] } }
    if destGone d k && !drop then
      if rest.any (TRec.isDrop k) then drainList e t bucketed rest stuck (fput owed k (fgetD owed k 0 + 1)) (countLost e d t k 1)
      else drainList e t bucketed rest stuck owed (loseRec e d t k r)
    else if destGone d k || stuck.contains k || !destTakes d k || (bucketed && decide (b.bucket < 5)) then drainList e t bucketed rest (k :: stuck) owed (keep d)
    else
      let d := if bucketed then (let x := tileOf d t; setTile d t { x with trace := { x.trace with bucket := x.trace.bucket - 5 } }) else d
      drainList e t bucketed rest stuck owed (writeTrace e d t k r)

/-- R411, R414. Tile t drains its buffer; a flush ends with an empty buffer. -/
def drainTile (e : Env) (d : Dp) (t : Nat) (bucketed : Bool) : Dp :=
  let x := tileOf d t
  let l := x.trace.recs
  let d := drainList e t bucketed l [] [] (setTile d t { x with trace := { x.trace with recs := [] } })
  let d := lateDrop e d t (l.length - (tileOf d t).trace.recs.length)
  let x := tileOf d t
  if x.trace.recs.isEmpty then setTile d t { x with trace := { x.trace with flush := false } } else d

/-- R414. TRACE_DRAIN. -/
def traceDrain (e : Env) (d : Dp) (t : Nat) : Dp :=
  if !tileServes e d t then d
  else
    let d := fillBucket e d t
    if drains d t && budgetOf d != 0 then drainTile e (if (tileOf d t).trace.recs.isEmpty then d else stillBusy e d t) t true else d

/-- The records of a buffer are lost, and counted for their destinations (R375, R383). -/
def loseTrace (e : Env) (d : Dp) (t : Nat) : Dp :=
  let x := tileOf d t
  let l := x.trace.recs
  l.foldl (fun d r => loseRec e d t (drainDest d r) r) (setTile d t { x with trace := { x.trace with recs := [] } })

/-- R412. A write to a trace ring faults: the ring stops, and its records wait. -/
def tringFault (e : Env) (d : Dp) (o : Owner) (addr : Dword) : Dp :=
  let k := ownerKey o
  let q := tringOf d k
  if q.state = .running && !e.stop.stopped && !destGone d k then
    report e (setTring d k { q with state := .stopped }) .fabric (ringFaultReport e o 10 addr 0)
  else d

/-- R412. A stopped trace ring restarts. -/
def tringResume (d : Dp) (k : Nat) : Dp :=
  let q := tringOf d k
  if q.state = .stopped then setTring d k { q with state := .running } else d

/-! ### The trigger (R405, R413) -/

/-- R411. At the trigger, tile t's buffer changes its filling: a CENTRE buffer keeps its latest records, with the loss counts of the others (R410), and takes as many as are left. -/
def centreTile (t : Nat) (d : Dp) : Dp :=
  let m := modeOf d t
  let x := tileOf d t
  let b := x.trace
  let r := traceSlots m
  if m.mode = 2#2 && b.after_.isNone && m.size ≠ 0#5 then
    let k := (r - 1) * m.pre.toNat / 8
    (b.recs.take (b.recs.length - k)).foldl (traceReturn t)
      (setTile d t { x with trace := { b with recs := b.recs.drop (b.recs.length - k), after_ := some (r - 1 - k) } })
  else d

/-- R413. With FRZTRACE a WRAP or STOP buffer takes no more records. -/
def freezeTile (t : Nat) (d : Dp) : Dp :=
  let x := tileOf d t
  if (modeOf d t).mode = 2#2 then d else setTile d t { x with trace := { x.trace with refuse := true } }

/-- The logical tiles that are available. -/
def tiles (e : Env) : List Nat := (List.range 32).filter (fun t => !unavailable e t)

/-- R413. Source src of the trigger shows: the first one fires it. -/
def fireTrigger (e : Env) (d : Dp) (src : Nat) : Dp :=
  let o := d.obs
  let d := { d with obs := { o with src := o.src ||| srcBit src, trigReq := o.trigReq &&& ~~~ srcBit src } }
  if o.triggered then d
  else
    let g := gtInterp e
    let d := bumpK e { d with obs := { d.obs with triggered := true, trigGt := g } } 4 0 6 1
    let d := (tiles e).foldl (fun d t => trace e (centreTile t d) t none { TRec.blank 0x10 with gt := g }) d
    let d := if o.frzTrace then (tiles e).foldl (fun d t => freezeTile t d) d else d
    if o.frzCtr then { d with obs := { d.obs with frozen := true } } else d

/-- R413. TRIGGER: source 3 is GT reaching TC_TRIG_AT; the others have been requested. -/
def trigger (e : Env) (d : Dp) (src : Nat) : Dp :=
  if src = 3 then (if d.obs.onAt && reached (gtInterp e) d.obs.trigAt && d.obs.src &&& srcBit 3 = 0#5 then fireTrigger e d 3 else d)
  else if src ≤ 4 && d.obs.trigReq &&& srcBit src ≠ 0#5 then fireTrigger e d src
  else d

/-- R413. REARM: buffers empty, counters count, the trigger is armed. -/
def rearm (d : Dp) : Dp :=
  let clear := fun (b : TBuf) => { b with recs := [], after_ := none, refuse := false, flush := false, lost := [] }
  { d with tiles := d.tiles.map (fun (t : Nat × Tile) => (t.1, { t.2 with trace := clear t.2.trace }))
           obs := { d.obs with frozen := false, triggered := false, src := 0, trigReq := 0 } }

/-- Table 13.6. A keeper write of TC_CTL: ALL, and then the command bits from the lowest up. -/
def writeTcCtl (e : Env) (d : Dp) (v : Word) : Dp :=
  let d := { d with obs := { d.obs with all := v.getLsbD 4 } }
  let d := if v.getLsbD 0 then fireTrigger e d 0 else d
  let d := if v.getLsbD 1 then rearm d else d
  let d := if v.getLsbD 2 then tringResume d 16 else d
  let d := if v.getLsbD 3 then (tiles e).foldl (fun d t => let x := tileOf d t; setTile d t { x with trace := { x.trace with flush := true } }) d else d
  if v.getLsbD 5 then { d with obs := { d.obs with pctr := [], kctr := [] } } else d

/-- R408. A write of TC_MARK_HI: every tile writes a MARK record. -/
def writeMark (e : Env) (d : Dp) (v : Word) : Dp :=
  (tiles e).foldl (fun d t => trace e d t none { TRec.blank 0x11 with gt := tileGt e t, handle := v ++ d.obs.markLo }) d

/-- Table 13.3: the units and counters that exist. -/
def kctrExists (kind unit ctr : Nat) : Bool :=
  match kind with
  | 0 => decide (unit < 32 ∧ (ctr < 37 ∨ 48 ≤ ctr))
  | 1 => decide (unit < 1152 ∧ unit % 8 < 6 ∧ ctr < 9)
  | 2 => decide (unit < 128 ∧ ctr < 8)
  | 3 => decide (unit < 256 ∧ ctr < 10)
  | 4 => decide (unit = 0 ∧ ctr < 7)
  | _ => false

/-- R404. A write of TC_CSEL latches the selected counter. -/
def writeCsel (d : Dp) (v : Word) : Dp :=
  let k := bits v.toNat 0 3
  let u := bits v.toNat 3 11
  let c := bits v.toNat 14 6
  let n := if kctrExists k u c then fgetD d.obs.kctr (kctrKey k u c) 0 else 0
  { d with obs := { d.obs with csel := v &&& 0xFFFFF#32, cdata := n } }

/-- R403. The 16 counters of partition p are copied into its read shadow. -/
def copyShadow (d : Dp) (p : BitVec 4) : Dp :=
  { d with obs := { d.obs with shadow := (List.range 16).foldl (fun m i => fput m (p.toNat * 16 + i) (fgetD d.obs.pctr (p.toNat * 16 + i) 0)) d.obs.shadow } }

/-- R403. Table 13.6. A write of PW_OBSCTL of partition p. -/
def writeObsctl (d : Dp) (p : BitVec 4) (v : Word) : Dp :=
  let d := if v.getLsbD 0 then { d with obs := { d.obs with pctr := (List.range 16).foldl (fun m i => fdel m (p.toNat * 16 + i)) d.obs.pctr } } else d
  if v.getLsbD 1 then tringResume d p.toNat else d

/-! ### The IEEE 1687 instruments (R419, R466) -/

/-- R419. The instruments are open: the segment-insertion bits can be set while the instance stands stopped with SCAN 1. -/
def instrumentsOpen (e : Env) : Bool := e.stop.stopped && e.stop.scan

/-- R419. One 72-bit word of an SRAM: 64 bits of data and the raw check bits over them (log 6). -/
def scanWord (v : Nat) : BitVec 72 := Config.sramEcc (BitVec.ofNat 64 v) ++ BitVec.ofNat 64 v

/-- R419. The words of n bytes. -/
def scanWords (n v : Nat) : List (BitVec 72) := (List.range (ceilDiv n 8)).map (fun k => scanWord (bits v (64 * k) 64))

/-- R419. What the instruments of a physical tile show, as words: its brick store slots, the granules of its grout store by their first granule, its waiter store and its trace buffer. A word in use by nothing is not shown (log 6). -/
structure TileScan where
  bricks : List (List (BitVec 72))
  grout : List (Nat × List (BitVec 72))
  waiters : List (List (BitVec 72))
  traces : List (List (BitVec 72))
  deriving DecidableEq, Repr

/-- R65, R252. The record in a slot. -/
def slotRecord (d : Dp) : SlotRef → Nat
  | .brick i => (brickOf d i).record (stripeOf d i 0)
  | .stripe i k => (brickOf d i).record (stripeOf d i k)
  | .mirror i k => ((fget d.mirCopies (stripeKey i k)).map (fun m => m.copy.record m.stripe)).getD 0
  | .lintel i => ((fget d.lintels i).map (fun l => l.record (brickOf d i))).getD 0

/-- R74, R184, R253. The granules that belong to a slot: a mirror's stand in runs of its own tile. -/
def slotGranules (d : Dp) : SlotRef → List Granules
  | .brick i => groutGranules (brickOf d i) ++ (stripeOf d i 0).toList.map stripeGranules
  | .stripe i k => (stripeOf d i k).toList.map stripeGranules
  | .mirror i k => (match fget d.mirCopies (stripeKey i k) with
    | some m => (m.runs.zip (groutGranules m.copy ++ m.stripe.toList.map stripeGranules)).map (fun x => { x.2 with base := x.1.1 })
    | none => [])
  | .lintel i => (fget d.lintels i).toList.flatMap (fun l => if l.ctv then [l.granules] else [])

/-- R74, R130. The waiter store entries that belong to a slot, a mirror copy's among them. -/
def slotWaiters (d : Dp) : SlotRef → List Nat
  | .brick i => waiterBits (brickOf d i).queue
  | .mirror i 0 => ((fget d.mirCopies (stripeKey i 0)).toList.flatMap (fun m => waiterBits m.copy.queue))
  | _ => []

/-- R419. The stores of logical tile t. -/
def scanTile (d : Dp) (t : Nat) : TileScan :=
  let x := tileOf d t
  let refs := x.slots.map Prod.fst
  { bricks := refs.map (fun r => scanWords 64 (slotRecord d r))
    grout := (refs.flatMap (slotGranules d)).map (fun g => (g.base, scanWords (64 * g.count) g.value))
    waiters := (refs.flatMap (slotWaiters d)).map (scanWords 16)
    traces := x.trace.recs.map (fun r => scanWords 32 (r.image t)) }

/-- R419. What the open instruments show: of every physical tile its stores where a logical tile has it, of every router its flits and combining entries, of every joint its entries and beds, and the incident table. A closed segment shows nothing, and reading changes no state. -/
structure Scan where
  tiles : List (Option TileScan)
  flits : List (Nat × Hod)
  comb : List Comb
  entries : List (Nat × List JEntry)
  beds : List (Nat × List Bed)
  incidents : List (Nat × Nat)
  deriving DecidableEq, Repr

def scan (e : Env) (d : Dp) : Option Scan :=
  if !instrumentsOpen e then none
  else
    some { tiles := (List.range 36).map (fun q => ((List.range 32).find? (fun t => physOf e t == q && !unavailable e t)).map (scanTile d)), flits := d.net.map (fun h => (portRouter e h.src, h)), comb := d.comb
           entries := d.joints.map (fun j => (j.1, j.2.entries)), beds := d.joints.map (fun j => (j.1, j.2.beds))
           incidents := d.inc.entries.map (fun x => (x.1, x.2.image)) }

/-! ### Meanings -/

/-- R413. -/
def execTrigger (src : BitVec 3) (s : State) : Host.Outcome State Fault Refusal := .next { s with dp := trigger s.env s.dp src.toNat }

/-- R414. -/
def execTraceDrain (t : BitVec 5) (s : State) : Host.Outcome State Fault Refusal := .next { s with dp := traceDrain s.env s.dp t.toNat }

/-- R412. -/
def execTraceRingFault (o : Owner) (addr : Dword) (s : State) : Host.Outcome State Fault Refusal := .next { s with dp := tringFault s.env s.dp o addr }

end Sys2Proof.Machine
end

