-- ==== Sys2Proof/Machine/Partitions.lean ====
section
/-! DEFINITION. Sys2Proof/Machine/Partitions.lean: partitions (11_partitions.md): freezing, saving, restoring, the backlog, and partition resets. -/

/-! ### Contents whose layout the spec does not give (R337, log 6) -/

namespace Sys2Proof.Config

/-- Log 6. The 64 bytes that a context area holds of a bed. -/
opaque bedImage : Machine.Bed → Nat

/-- Log 6. The 112 bytes that a context area holds of a joint entry behind its request beat: its sideband, its following beat or deadline, the instant of a held response, and its grout. -/
opaque entryImage : Machine.JEntry → Option Machine.HeldResp → Nat

end Sys2Proof.Config

namespace Sys2Proof.Machine

/-- The indices of partition p's allocated bricks. -/
def bricksOf (d : Dp) (p : BitVec 4) : List Nat := (d.bricks.filter (fun b => b.2.valid && b.2.part == p)).map Prod.fst

/-- An index is of one of partition p's bricks. -/
def ownIndex (d : Dp) (p : BitVec 4) (i : Nat) : Bool := (brickOf d i).valid && (brickOf d i).part == p

/-! ### FREEZE and the drain (R333) -/

/-- The port of a source of markers. -/
def freezePort : FreezeSrc → Port
  | .joint j => .joint j.toNat
  | .frontEnd t => .tile t.toNat
  | .tile t => .tile t.toNat

/-- R351. The doorbell counts of p's rings as a freeze begins. -/
def ringTails (d : Dp) (p : BitVec 4) : FMap Word := (List.range 8).map (fun r => (r, (ringOf d (.part p (BitVec.ofNat 3 r))).tail))

/-- R333, R351. The front end at tile t has completed every descriptor of p that a doorbell covered when the freeze began, but for those of a ring that is not running. -/
def frontDone (e : Env) (d : Dp) (p : BitVec 4) (t : Nat) : Bool :=
  (partOf d p).freezeTails.all (fun m =>
    let r : RingId := .part p (BitVec.ofNat 3 m.1)
    let g := ringOf d r
    frontOf e d r != some t || g.state != .running || ahead31 g.head m.2)

/-- R333. A source takes FREEZE(p). -/
def takeFreeze (e : Env) (d : Dp) (src : FreezeSrc) (p : BitVec 4) : Dp :=
  let x := partOf d p
  let ok := match src with
    | .joint j => implemented e j.toNat
    | .frontEnd t => !unavailable e t.toNat
    | .tile t => !unavailable e t.toNat
  if x.st != .freezing || !ok || x.frozenBy.any (fun f => decide (f.1 = src)) || e.stop.stopped || e.pwr.pfFrozen then d
  else
    let d := setPart d p { x with frozenBy := x.frozenBy ++ [(src, d.seq)] }
    match src with
    | .joint j => setJoint d j.toNat { jointOf d j.toNat with frozen := setInsert p.toNat (jointOf d j.toNat).frozen }
    | _ => d

/-- R28, R333. The marker of a source has reached tile t behind every hod that it must follow. -/
def markerDue (d : Dp) (src : FreezeSrc) (p : BitVec 4) (t : Nat) : Bool :=
  match (partOf d p).frozenBy.find? (fun f => decide (f.1 = src)) with
  | none => false
  | some (_, q) => !(d.net.any (fun h => h.vc == .req && decide (h.seq < q) && h.src == freezePort src && h.part == p && h.dst == .tile t))

/-- R333. A tile takes a drain marker. -/
def takeMarker (e : Env) (d : Dp) (t : Nat) (src : FreezeSrc) (p : BitVec 4) : Dp :=
  let x := partOf d p
  let due := match src with
    | .joint _ => true
    | .frontEnd u => frontDone e d p u.toNat
    | .tile _ => false
  if x.st != .freezing || !due || x.markers.contains (t, src) || !markerDue d src p t || !tileServes e d t then d
  else setPart d p { x with markers := x.markers ++ [(t, src)] }

/-- R333. Every branch router entry of p's trees forwards its partial as a flush hod and is released. -/
def flushTrees (e : Env) (d : Dp) (p : BitVec 4) : Dp :=
  let mine := d.comb.filter (fun c => ownIndex d p c.index)
  let d := { d with comb := d.comb.filter (fun c => !ownIndex d p c.index) }
  mine.foldl (fun d c =>
    if c.got = 0 || c.waiting then d
    else
      let a : Arrival := { index := c.index, handle := brickHandle e c.index (brickOf d c.index), course := c.course, count := c.got, pay := c.pay d, tag := 0
                           agent := 0, gang := 0, op := .arrive, joint := 0 }
      send e d (.router c.router) c.up .req p (.arrival a)) d

/-- R333. Nothing of p is under way: markers are in at every tile, no hod is on its way, and no access is out but those that a translation fault holds; a fetch or write-back under R373 is awaited. -/
def drained (e : Env) (d : Dp) (p : BitVec 4) : Bool :=
  drainOver e d p
  && d.net.all (fun h => h.part != p)
  && d.comb.all (fun c => !ownIndex d p c.index)
  && d.inc.waitHods.all (fun w => w.2.all (fun h => h.part != p))
  && d.mirUpds.all (fun u => !ownIndex d p u.index)
  && d.tiles.all (fun t => t.2.fetches.all (fun f => !ownIndex d p f.index) && t.2.wbacks.all (fun w => !ownIndex d p w.1))
  && d.stripes.all (fun s => !ownIndex d p (s.1 / 8) || ((s.2.writing.isNone || s.2.wacc == .held) && (s.2.refill.isNone || s.2.racc == .held)
      && s.2.wacc != .retrying && s.2.racc != .retrying))

/-- R333. Every source has taken FREEZE, and no joint's hod is on its way to a router: the trees may flush. -/
def mayFlush (e : Env) (d : Dp) (p : BitVec 4) : Bool :=
  (markerSources e).all (fun s => (partOf d p).frozenBy.any (fun f => decide (f.1 = s)))
  && d.net.all (fun h => h.part != p || (match h.dst with | .router _ => false | _ => true))

/-! ### The context area (R337, R338) -/

/-- R337. A brick entry: a record, then its index, kind and stripe. -/
def areaEntry (rec_ i kind k : Nat) : Nat := rec_ + pack [(512, 24, i), (536, 4, kind), (540, 3, k)]

/-- R337. The brick entries of p: bricks, stripe records, lintel records. -/
def areaEntries (d : Dp) (p : BitVec 4) : List Nat :=
  (bricksOf d p).flatMap (fun i =>
    let b := brickOf d i
    let ss := (stripeList d i).filter (fun q => q.1 != 0)
    areaEntry (recordOf d i) i 0 0 :: ss.map (fun q => areaEntry (b.record (some q.2)) i 1 q.1)
      ++ (match fget d.lintels i with | some l => [areaEntry (l.record b) i 2 0] | none => []))

/-- R342. Bytes of backlog slot k of an area. -/
def backlogSlot (_ : Env) (d : Dp) (area : Dword) (k : Nat) (x : BackHod) : Dp :=
  let route := if x.hod.route = 0xFF#8 then 0xFFFF else x.hod.route.toNat
  let h := x.hod.rec_.bytes
  memWrite d 16 (area + BitVec.ofNat 64 (4096 + 768 * k)) (16 + h.length) (x.gt.toNat + route * 2 ^ 64 + leNat h * 2 ^ 128)

/-- R342. The count of backlog slots in use, in the header. -/
def backlogCount (d : Dp) (area : Dword) (n : Nat) : Dp := memWrite d 16 (area + 60) 4 n

def align64 (n : Nat) : Nat := ceilDiv n 64 * 64

/-- Bytes of an area: a length in bytes, and the number they hold. -/
abbrev Piece := Nat × Nat

/-- Pieces written one behind the other. -/
def writePieces (addr : Dword) : List Piece → Dp → Dp
  | [], d => d
  | (n, v) :: l, d => writePieces (addr + BitVec.ofNat 64 n) l (if n = 0 then d else memWrite d 16 addr n v)

/-- The bytes of pieces. -/
def pieceBytes (l : List Piece) : List Byte := l.flatMap (fun q => leBytes q.1 q.2)

/-- Pieces as one piece. -/
def joined (l : List Piece) : Piece := l.foldr (fun q r => (q.1 + r.1, q.2 % 256 ^ q.1 + r.2 * 256 ^ q.1)) (0, 0)

/-- R337, R463. A region ends on a 64-byte boundary, and pieces smaller than a unit go out as one run of units. -/
def padded (l : List Piece) : Piece :=
  let q := joined l
  (align64 q.1, q.2)

/-- R184, R253. The granules of brick i, in the order of its entries: those of its grout, 9 for each stripe, and its child table. -/
def granulePieces (d : Dp) (i : Nat) : List Piece :=
  let piece := fun (g : Granules) => ((64 * g.count, g.value) : Piece)
  (groutGranules (brickOf d i)).map piece
  ++ (stripeList d i).flatMap (fun q => if q.2.lost.isSome then [] else [piece (stripeGranules q.2)])
  ++ (match fget d.lintels i with | some l => (if l.ctv then [piece l.granules] else []) | none => [])

/-- Table 11.5. A pending joint entry: its request beat first, and then 112 bytes of what else stands in it. -/
def entryPieces (x : JEntry) (held : Option HeldResp) : List Piece :=
  [(16, (reqBeat x.req x.op).toNat), (112, Config.entryImage x held % 2 ^ 896)]

/-- CRC-32C of some bytes after a state of its register. -/
def crcByte (c : Word) (b : Byte) : Word :=
  (List.range 8).foldl (fun c _ => if c.getLsbD 0 then (c >>> 1) ^^^ 0x82F63B78#32 else c >>> 1) (c ^^^ b.setWidth 32)

/-- R338. CRC-32C. -/
def crc32c (l : List Byte) : Word := ~~~(l.foldl crcByte 0xFFFFFFFF#32)

/-- R341. The agents that departed from p while it was frozen. -/
def departedOf (x : Part) : List Nat :=
  x.recHods.foldl (fun l h => match h.body with | .depart a => setInsert a l | _ => l) x.depMap

/-- The waiters queued on p's bricks, with the one that follows each at its level. -/
def areaWaiters (d : Dp) (p : BitVec 4) : List Nat :=
  (bricksOf d p).flatMap (fun i => waiterBits (brickOf d i).queue)

/-- R335. An entry that the area takes. -/
def JEntry.saved (x : JEntry) (p : BitVec 4) : Bool := x.part == p && (x.phase == .atHome || x.phase == .pends)

/-- R337. The regions of p's area behind its backlog. -/
def areaPieces (d : Dp) (p : BitVec 4) : List Piece :=
  (areaEntries d p).map (fun y => (128, y))
  ++ (bricksOf d p).flatMap (granulePieces d)
  ++ [padded ((areaWaiters d p).map (fun y => (16, y)))]
  ++ (d.joints.flatMap (fun j => j.2.beds.filter (fun b => b.part == p))).map (fun b => (64, Config.bedImage b % 2 ^ 512))
  ++ d.joints.flatMap (fun j => (j.2.entries.filter (fun y => y.saved p)).map (fun y => joined (entryPieces y (j.2.held.find? (fun r => r.entry == y.id)))))

/-- Table 11.6. The header of p's area, with its backlog count and CRC. -/
def areaHeader (e : Env) (d : Dp) (p : BitVec 4) (backlog : Nat) (crc : Word) : Nat :=
  let x := partOf d p
  let bytes := fun (l : List Piece) => (l.map Prod.fst).sum
  pack [(0, 32, 0x49474358), (32, 32, Config.kpId.toNat), (64, 16, e.kp.node.toNat), (80, 8, e.cfg.die.toNat), (88, 8, p.toNat),
    (96, 32, capacity e), (128, 8, e.kp.salt.toNat), (192, 64, x.gtFreeze.toNat), (256, 32, (areaEntries d p).length),
    (288, 32, bytes ((bricksOf d p).flatMap (granulePieces d)) / 64), (320, 32, (areaWaiters d p).length),
    (352, 32, (d.joints.map (fun j => (j.2.beds.filter (fun b => b.part == p)).length)).sum),
    (384, 32, (d.joints.map (fun j => (j.2.entries.filter (fun y => y.saved p)).length)).sum),
    (416, 32, x.ub), (448, 32, x.ug), (480, 32, backlog), (512, 1024, bitmap (departedOf x)), (1536, 32, crc.toNat)]

/-- R335, R337, R338. The context area of p is written. -/
def writeArea (e : Env) (d : Dp) (p : BitVec 4) (area : Dword) : Dp :=
  let x := partOf d p
  let ps := areaPieces d p
  let d := writePieces (area + 200704) ps d
  let d := (x.backlog.zipIdx).foldl (fun d y => backlogSlot e d area y.2 y.1) d
  let crc := crc32c (leBytes 4096 (areaHeader e d p 0 0) ++ pieceBytes ps)
  memWrite d 16 area 4096 (areaHeader e d p x.backlog.length crc)

/-- R344, check 2. An area as it is read back: its MAGIC, CRC, PART, NODE, DIE, CAP and SALT are this instance's for p, and its REV names the same block code and revision. -/
def areaMatches (e : Env) (p : BitVec 4) (bytes : List Byte) : Bool :=
  let h := leNat (bytes.take 4096)
  let f := fun (lo w : Nat) => bits h lo w
  let region := fun (n k : Nat) => align64 (n * k)
  let len := region 128 (f 256 32) + region 64 (f 288 32) + region 16 (f 320 32) + region 64 (f 352 32) + region 128 (f 384 32)
  let plain := h - pack [(480, 32, f 480 32), (1536, 32, f 1536 32)]
  decide (f 0 32 = 0x49474358 ∧ f 32 32 = Config.kpId.toNat ∧ f 64 16 = e.kp.node.toNat ∧ f 80 8 = e.cfg.die.toNat ∧ f 88 8 = p.toNat
    ∧ f 96 32 = capacity e ∧ f 128 8 = e.kp.salt.toNat ∧ 200704 + len ≤ bytes.length)
  && decide (BitVec.ofNat 32 (f 1536 32) = crc32c (leBytes 4096 plain ++ (bytes.drop 200704).take len))

/-! ### CTX_SAVE (R333 to R336) -/

/-- R335. The granule runs of brick i and of its mirror copies go back to their tiles; the charge is settled with the whole partition. -/
def unbindBrick (e : Env) (d : Dp) (i : Nat) : Dp :=
  let t := homeOf e i
  let d := match (brickOf d i).body with
    | .barrier x =>
      let d := match x.shRun, x.grout with
        | some r, some g => if r.within g.run then d else unbindRun d t r.base r.count
        | some r, none => unbindRun d t r.base r.count
        | none, _ => d
      (match x.grout with | some g => unbindRun d t g.run.base g.run.count | none => d)
    | _ => d
  let d := match fget d.lintels i with
    | some l => if l.ctv then unbindRun d t l.ctBase 33 else d
    | none => d
  let d := (stripeList d i).foldl (fun d q => if q.2.lost.isSome then d else unbindRun d (stripeTile e i q.1) q.2.base 9) d
  (List.range 8).foldl (fun d k => match fget d.mirCopies (stripeKey i k) with
    | some m => { (unbindRuns d m.tile m.runs) with mirCopies := fdel d.mirCopies (stripeKey i k) }
    | none => d) d

/-- What a slot holds is of partition p. -/
def SlotRef.own (d : Dp) (p : BitVec 4) : SlotRef → Bool
  | .brick i => ownIndex d p i
  | .stripe i _ => ownIndex d p i
  | .lintel i => ownIndex d p i
  | .mirror i _ => ownIndex d p i

/-- Work on a stripe of partition p. -/
def Work.own (d : Dp) (p : BitVec 4) : Work → Bool
  | .refill i _ => ownIndex d p i
  | .batch _ => false

/-- R335. The area of p holds its state, and its slots, granules, beds and entries are released. -/
def savePart (e : Env) (d : Dp) (p : BitVec 4) (area : Dword) : Dp :=
  let x := partOf d p
  let d := writeArea e d p area
  let own := fun (k : Nat) => ownIndex d p (k / 8)
  let sv : Saved :=
    { area := area, ug := x.ug, gtFreeze := x.gtFreeze, depart := departedOf x
      stripes := d.stripes.filter (fun s => own s.1), lintels := d.lintels.filter (fun l => ownIndex d p l.1)
      beds := d.joints.flatMap (fun j => (j.2.beds.filter (fun b => b.part == p)).map (fun b => (j.1, b)))
      entries := d.joints.flatMap (fun j => (j.2.entries.filter (fun y => y.saved p)).map (fun y => (j.1, y)))
      held := d.joints.flatMap (fun j => (j.2.held.filter (fun r => j.2.entries.any (fun y => y.id == r.entry && y.saved p))).map (fun r => (j.1, r)))
      fwdWaits := d.joints.flatMap (fun j => (j.2.fwdWaits.filter (fun f => hPart f.1 == p)).map (fun f => (j.1, f))) }
  let d := (bricksOf d p).foldl (unbindBrick e) d
  let tiles := d.tiles.map (fun (t : Nat × Tile) => (t.1, { t.2 with slots := t.2.slots.filter (fun r => !r.1.own d p), work := t.2.work.filter (fun w => !w.own d p) }))
  let joints := d.joints.map (fun (j : Nat × Joint) =>
    (j.1, { j.2 with beds := j.2.beds.filter (fun b => b.part != p), entries := j.2.entries.filter (fun y => !y.saved p)
                     held := j.2.held.filter (fun r => !(j.2.entries.any (fun y => y.id == r.entry && y.saved p)))
                     fwdWaits := j.2.fwdWaits.filter (fun f => hPart f.1 != p) }))
  let d := { d with tiles := tiles, joints := joints, stripes := d.stripes.filter (fun s => !own s.1), lintels := d.lintels.filter (fun l => !ownIndex d p l.1) }
  setPart d p { partOf d p with st := .saved, ug := 0, ovg := 0, saved := some sv }

/-! ### Partition reset (R353) -/

/-- R353. Every pending request of partition p's agents is answered BAD_HANDLE. -/
def resetEntries (e : Env) (d : Dp) (p : BitVec 4) : Dp :=
  d.joints.foldl (fun d q =>
    let j := q.1
    let y := jointOf d j
    let mine := y.entries.filter (fun x => x.part == p)
    let sealing := mine.filter (fun x => x.phase == .sealing)
    let d := setJoint d j { y with seals := sealing.foldl (fun s x => fdel s x.req.slot.toNat) y.seals, held := y.held.filter (fun r => !(mine.any (fun x => x.id == r.entry)))
                                   fwdWaits := y.fwdWaits.filter (fun f => hPart f.1 != p), frozen := y.frozen.filter (fun k => k != p.toNat) }
    answerMany e d j mine (fun _ => Resp.plain .badHandle)) d

/-- R353, R61, R140, R146. A brick of a reset partition goes; its peers are told, and the holder of a lock whose priority was raised. -/
def resetBrick (e : Env) (d : Dp) (i : Nat) : Dp :=
  let b := brickOf d i
  let d := match b.body with
    | .barrier x =>
      let d := if x.sweep.isEmpty then d else collectSweep e d i true
      sendUp e (spreadPoison e d i (x.course + 1) 0) i (HodRec.blank 3 0 (x.course + 1))
    | .lock l => sendAll e (qHods (homeOf e i) b (brickHandle e i b) l.restore) d
    | _ => d
  dropBrick e (endBeds e d i b .badHandle) i

/-- R353. The rings of a partition are disabled, and what waits for them goes. -/
def resetRings (d : Dp) (p : BitVec 4) : Dp :=
  let mine := fun (r : RingId) => decide (ringOwner r = .part p)
  let k := p.toNat
  let parkedOut := fun (x : Parked) => match x with | .desc r _ _ => mine r | _ => false
  let tiles := d.tiles.map (fun (t : Nat × Tile) =>
    (t.1, { t.2 with work := t.2.work.filter (fun w => match w with | .batch r => !mine r | _ => true)
                     fetches := t.2.fetches.map (fun f => { f with parked := f.parked.filter (fun x => !parkedOut x) }) }))
  let gone := (d.inc.waitCompl.filter (fun w => mine w.2.1)).map Prod.fst
  let inc := { d.inc with waitCompl := d.inc.waitCompl.filter (fun w => !mine w.2.1), waits := d.inc.waits.filter (fun w => !gone.contains w.2.2) }
  { d with tiles := tiles, inc := inc, rings := d.rings.filter (fun r => !(decide (8 * k ≤ r.1) && decide (r.1 < 8 * k + 8))), cmpl := fdel d.cmpl k
           held := fdel d.held k, incRings := fdel d.incRings k, trings := fdel d.trings k }

/-- R353, R403, R480. The counters of partition p, their read shadow and the read latches of its window are as after reset. -/
def clearCounters (d : Dp) (p : BitVec 4) : Dp :=
  let keep := fun (m : FMap (BitVec 48)) => m.filter (fun c => c.1 / 16 != p.toNat)
  { d with obs := { d.obs with pctr := keep d.obs.pctr, shadow := keep d.obs.shadow }
           port := { d.port with latches := d.port.latches.filter (fun l => l.1 / 32 / 0x4000 != 16 + p.toNat) } }

/-- R353. Partition p is reset: RESETTING and back to RUN. -/
def resetPart (e : Env) (d : Dp) (p : BitVec 4) : Dp :=
  let was := (partOf d p).st
  let d := setPart d p { partOf d p with st := .resetting }
  let d := resetEntries e d p
  let d := if was = .saved then
      (bricksOf d p).foldl (fun d i => let b := brickOf d i
        { setBrick d i { b with valid := false, lost := none, body := bodyInit b.typ } with freed := d.freed ++ [i] }) d
    else (bricksOf d p).foldl (resetBrick e) d
  let d := clearCounters (resetRings d p) p
  let x := partOf d p
  setPart d p { Part.init with qb := x.qb, qg := x.qg, cap := x.cap }

/-- R355. A CTX_SAVE that a reset of its partition overtakes completes BUSY. -/
def stopCtx (e : Env) (d : Dp) (p : BitVec 4) : Dp :=
  if d.ctxRun ≠ some p then d
  else
    let d := { d with ctxRun := none }
    match (ringOf d .keeper).ahead with
    | y :: _ => afterDesc e .keeper (completeWith e (setRing d .keeper { ringOf d .keeper with wait := none }) .keeper y .busy)
    | [] => d

/-- R353, R355. A written PD_PCTL.RESET: in FREEZING it waits for FROZEN. -/
def requestReset (e : Env) (d : Dp) (p : BitVec 4) : Dp :=
  let x := partOf d p
  if x.st = .freezing then setPart d p { x with resetReq := true } else stopCtx e (resetPart e d p) p

/-! ### The end of a freeze -/

/-- R333, R355. Partition p becomes FROZEN; a reset that waited for that runs, and the CTX_SAVE then answers BUSY. -/
def toFrozen (e : Env) (d : Dp) (p : BitVec 4) : Dp :=
  let x := partOf d p
  if x.resetReq then stopCtx e (resetPart e d p) p
  else setPart d p { x with st := .frozen, gtFreeze := gtInterp e, frozenBy := [], markers := [], freezeTails := [] }

/-- R334, R335. The CTX_SAVE of a FROZEN partition ends. -/
def endSave (e : Env) (d : Dp) (p : BitVec 4) (x : BitVec 512) : Dp :=
  let area : Dword := BitVec.ofNat 64 (dfield x 192 64)
  let d := if area = 0 then d else savePart e d p area
  completeWith e { setRing d .keeper { ringOf d .keeper with wait := none } with ctxRun := none } .keeper x .ok

/-- R333 to R335. What a running CTX_SAVE does in one tile cycle: the trees flush, the partition becomes FROZEN, and the area is written in the cycle after that. -/
def freezeTick (e : Env) (d : Dp) : Dp :=
  match d.ctxRun with
  | none => d
  | some p =>
    if e.stop.stopped || e.pwr.pfFrozen then d
    else
      match (partOf d p).st with
      | .freezing =>
        let d := if mayFlush e d p then flushTrees e d p else d
        if drained e d p then toFrozen e d p else d
      | .frozen =>
        (match (ringOf d .keeper).ahead with
          | x :: _ => if (ringOf d .keeper).wait = some .freeze then afterDesc e .keeper (endSave e d p x) else d
          | [] => d)
      | _ => d

/-- R336, Table 11.4. CTX_SAVE. -/
def ctxSave (e : Env) (d : Dp) (x : BitVec 512) : Dp :=
  let p := BitVec.ofNat 4 (dfield x 128 4)
  let area := dfield x 192 64
  if area % 4096 ≠ 0 then completeWith e d .keeper x .badCount
  else
    match (partOf d p).st with
    | .run =>
      let d := setPart d p { partOf d p with st := .freezing, frozenBy := [], markers := [], freezeTails := ringTails d p }
      setRing { d with ctxRun := some p } .keeper { ringOf d .keeper with wait := some .freeze }
    | .frozen => endSave e d p x
    | .saved | .resetting | .freezing | .restoring => completeWith e d .keeper x .busy

/-! ### CTX_RESTORE (R344 to R347) -/

/-- R344, check 3. An agent of a saved entry may have it back. -/
def entryFits (d : Dp) (p : BitVec 4) (s : Saved) (q : Nat × JEntry) : Bool :=
  let j := q.1
  let slot := q.2.req.slot
  let agent := agentNo j slot
  decide (agentPart d j slot.toNat = some p) && !(s.depart.contains agent) && !((partOf d p).depMap.contains agent)
    && !((jointOf d j).entries.any (fun y => y.req.slot == slot))

/-- R501. A run of n granules placed on tile t. -/
def fitBind (d : Dp) (t n : Nat) : Option (Dp × Nat) := if n = 0 then some (d, 0) else (fitRun d t n).map (fun b => (bindRun d t b n, b))

/-- R66, R344 (check 5). A slot for what is held; a brick that PIN holds has its held place (`pinnedOut`). -/
def heldSlot (e : Env) (d : Dp) (t : Nat) (r : SlotRef) : Option Dp :=
  let own := match r with
    | .brick i => if (brickOf d i).pin then 1 else 0
    | _ => 0
  if heldCount d t + pinnedOut e d t < Config.heldLimit + own then takeSlot e d t r else none

/-- Runs of given lengths placed on tile t, in order. -/
def fitRuns (t : Nat) : List Nat → Dp → Option (Dp × List (Nat × Nat))
  | [], d => some (d, [])
  | n :: l, d => match fitBind d t n with
    | none => none
    | some (d, b) => (fitRuns t l d).map (fun r => (r.1, (b, n) :: r.2))

/-- R345. The mirror copy of brick i (of stripe k) is made again, with runs of given lengths. -/
def remirror (e : Env) (d : Dp) (i k t : Nat) (ns : List Nat) : Option (Dp × Nat) :=
  match mirrorFor e d t with
  | none => none
  | some mt =>
    match heldSlot e d mt (.mirror i k) with
    | none => none
    | some d => (fitRuns mt ns d).map (fun r =>
        ({ r.1 with mirCopies := fput r.1.mirCopies (stripeKey i k) { tile := mt, runs := r.2, copy := brickOf r.1 i, stripe := stripeOf r.1 i k } }, mt))

/-- R345. The runs of a barrier find their places again. -/
def rebindBarrier (e : Env) (d : Dp) (i : Nat) (x : Barrier) : Option (Dp × Barrier × List Nat) :=
  let t := homeOf e i
  match x.grout, x.shRun with
  | none, none => some (d, x, [])
  | none, some r => (fitBind d t r.count).map (fun q => (q.1, { x with shRun := some { r with base := q.2 } }, [r.count]))
  | some g, sh =>
    match fitBind d t g.run.count with
    | none => none
    | some (d, b) =>
      let x := { x with grout := some { g with run := { g.run with base := b } } }
      match sh with
      | none => some (d, x, [g.run.count])
      | some r =>
        if r.within g.run then some (d, { x with shRun := some { r with base := b + (r.base - g.run.base) } }, [g.run.count])
        else (fitBind d t r.count).map (fun q => (q.1, { x with shRun := some { r with base := q.2 } }, [g.run.count, r.count]))

/-- R345. A stripe finds its slot and granules again. -/
def restoreStripe (e : Env) (b : Brick) (i : Nat) (q : Nat × Stripe) (d : Dp) : Option Dp :=
  let t := stripeTile e i q.1
  match (if q.1 = 0 then some d else heldSlot e d t (.stripe i q.1)) with
  | none => none
  | some d =>
    if q.2.lost.isSome then some d
    else
      match fitBind d t 9 with
      | none => none
      | some (d, base) =>
        let d := setStripe d i q.1 { q.2 with base := base }
        if !b.mirrored then some d
        else if q.1 = 0 then
          (match fget d.mirCopies (stripeKey i 0) with
            | none => none
            | some m => (fitBind d m.tile 9).map (fun r =>
                let s := { q.2 with base := base, mirror := m.tile }
                { (setStripe r.1 i 0 s) with mirCopies := fput r.1.mirCopies (stripeKey i 0) { m with runs := m.runs ++ [(r.2, 9)], stripe := some s } }))
        else (remirror e d i q.1 t [9]).map (fun r => modStripe r.1 i q.1 (fun s => { s with mirror := r.2 }))

def restoreStripes (e : Env) (b : Brick) (i : Nat) : List (Nat × Stripe) → Dp → Option Dp
  | [], d => some d
  | q :: l, d => (restoreStripe e b i q d).bind (restoreStripes e b i l)

/-- R344 (check 5), R345. Brick i of a restored partition is resident again where it was held, waited for, or timed. -/
def restoreBrick (e : Env) (d : Dp) (i : Nat) : Option Dp :=
  let b := brickOf d i
  let t := homeOf e i
  let held := refHeld d (.brick i)
  if !held && b.queue.isEmpty && !b.timing then some d
  else
    match (if held then heldSlot e d t (.brick i) else takeSlot e d t (.brick i)) with
    | none => none
    | some d =>
      match (match b.body with
        | .barrier x => (rebindBarrier e d i x).map (fun (r : Dp × Barrier × List Nat) => (setBarrier r.1 i r.2.1, r.2.2))
        | _ => some (d, [])) with
      | none => none
      | some (d, ns) =>
        match (if b.mirrored && b.lost.isNone then (remirror e d i 0 t ns).map (fun (r : Dp × Nat) => setBrick r.1 i { brickOf r.1 i with mirror := r.2 }) else some d) with
        | none => none
        | some d =>
          match restoreStripes e b i (stripeList d i) d with
          | none => none
          | some d =>
            match fget d.lintels i with
            | none => some d
            | some l =>
              match heldSlot e d t (.lintel i) with
              | none => none
              | some d => if l.ctv then (fitBind d t 33).map (fun (r : Dp × Nat) => setLintel r.1 i { l with ctBase := r.2 }) else some d

/-- A brick with other waiters. -/
def Brick.withQueue (b : Brick) (l : List Waiter) : Brick :=
  { b with body := match b.body with
      | .lock x => .lock { x with queue := l }
      | .semaphore x => .semaphore { x with queue := l }
      | .barrier x => .barrier x
      | .pallet => .pallet
      | .event x => .event x }

/-- R345 (step 4), R346. The waiters of brick i take entries of the waiter store that are free now. -/
def requeue (e : Env) (d : Dp) (q : Nat × List Waiter) : Dp :=
  let i := q.1
  let d := q.2.foldl (fun d w =>
    let (k, d) := nextFree d
    let b := brickOf d i
    setBrick d i (b.withQueue (b.queue ++ [{ w with store := pickStore e d (homeOf e i) k }]))) d
  { d with mirCopies := d.mirCopies.map (fun (m : Nat × MirCopy) => if m.1 = stripeKey i 0 then (m.1, { m.2 with copy := brickOf d i }) else m) }

/-- R345 (step 4). The waiter queues of some bricks are built again. -/
def requeueAll (e : Env) (d : Dp) (l : List Nat) : Dp :=
  let qs := (l.map (fun i => (i, (brickOf d i).queue))).filter (fun q => !q.2.isEmpty)
  qs.foldl (requeue e) (qs.foldl (fun d q => setBrick d q.1 ((brickOf d q.1).withQueue [])) d)

/-- R345 (step 2). The record of brick i goes to the backing store. -/
def putRecordBack (e : Env) (d : Dp) (i : Nat) : Dp := memWrite d 16 (e.kp.bsBase + BitVec.ofNat 64 (64 * i)) 64 (recordOf d i)

def restoreBricks (e : Env) : List Nat → Dp → Option Dp
  | [], d => some d
  | i :: l, d => (restoreBrick e d i).bind (restoreBricks e l)

/-- R344, R345 (steps 1 to 4). The saved state is back on the chip, with OVERDRAWN (R78), or the status of the check that fails. -/
def restoreState (e : Env) (d : Dp) (p : BitVec 4) (s : Saved) : Except Status (Dp × Bool) :=
  if !(s.entries.all (entryFits d p s)) then .error .busy
  else
    match chargeG e d p s.ug with
    | none => .error .quota
    | some (d, od) =>
      let d := setPart d p { partOf d p with st := .restoring, saved := none }
      let d := { d with stripes := s.stripes.foldl (fun m q => fput m q.1 q.2) d.stripes, lintels := s.lintels.foldl (fun m q => fput m q.1 q.2) d.lintels }
      match restoreBricks e (bricksOf d p) d with
      | none => .error .busy
      | some d =>
        let joint := fun (d : Dp) (j : Nat) (f : Joint → Joint) => setJoint d j (f (jointOf d j))
        let d := s.beds.foldl (fun d q => joint d q.1 (fun y => { y with beds := y.beds ++ [renewBed d q.2] })) d
        let d := s.entries.foldl (fun d q => joint d q.1 (fun y => { y with entries := y.entries ++ [q.2] })) d
        let d := s.held.foldl (fun d q => joint d q.1 (fun y => { y with held := y.held ++ [q.2] })) d
        let d := s.fwdWaits.foldl (fun d q => joint d q.1 (fun y => { y with fwdWaits := y.fwdWaits ++ [q.2] })) d
        if d.joints.any (fun j => decide (Config.bedsPerJoint < j.2.beds.length)) || (List.range 32).any (fun t => decide (Config.waiterStore < waitersAt e d t)) then .error .busy
        else .ok ((bricksOf d p).foldl (putRecordBack e) (requeueAll e d (bricksOf d p)), od)

/-! ### Leaving suspension (R343, R345, Table 11.8) -/

/-- R343, R418. The running deadlines of a brick are advanced. -/
def Brick.advance (by_ : Dword) (b : Brick) : Brick :=
  let q := fun (l : List Waiter) => l.map (fun w => if w.dlRun then { w with dlAt := w.dlAt + by_ } else w)
  { b with body := match b.body with
      | .barrier x => .barrier (if x.dlAt = 0 || x.expired then x else { x with dlAt := x.dlAt + by_ })
      | .lock l => .lock { l with queue := q l.queue }
      | .semaphore s => .semaphore { s with queue := q s.queue }
      | .pallet => .pallet
      | .event v => .event v }

/-- R343. The running deadlines of brick i and of its mirror copy are advanced. -/
def advanceBrick (d : Dp) (by_ : Dword) (i : Nat) : Dp :=
  { (setBrick d i ((brickOf d i).advance by_)) with
    mirCopies := d.mirCopies.map (fun (m : Nat × MirCopy) => if m.1 = stripeKey i 0 then (m.1, { m.2 with copy := m.2.copy.advance by_ }) else m) }

/-- The members and forwarded arrivals of brick i's beds, joint by joint. -/
def bedCounts (d : Dp) (h : Dword) (waiting : Bool) (f : BedMember → Nat) : List (Nat × Nat) :=
  d.joints.filterMap (fun j => (j.2.beds.find? (fun b => b.waiting == waiting && b.handle == h)).map (fun b => (j.1, (b.members.map f).sum)))

/-- R345 (step 5). The combining trees of barrier i are built again; an entry does not expect what its subtree delivered before the freeze. -/
def rebuildTrees (e : Env) (d : Dp) (i : Nat) : Dp :=
  let b := brickOf d i
  let h := brickHandle e i b
  let t := homeOf e i
  match b.body with
  | .barrier x =>
    let d := buildTree e (dropTree d i false) t i x.course false (bedCounts d h false BedMember.e)
    let d := buildTree e (dropTree d i true) t i x.course true (bedCounts d h true BedMember.e)
    let sent := bedCounts d h false BedMember.f
    let d := { d with comb := d.comb.map (fun (c : Comb) => if c.index = i && !c.waiting then
        { c with before := ((sent.filter (fun (j : Nat × Nat) => (route (jointRouter e j.1) (tileRouter e t)).contains c.router)).map Prod.snd).sum } else c) }
    { d with joints := d.joints.map (fun (j : Nat × Joint) => (j.1, { j.2 with beds := j.2.beds.map (fun (k : Bed) =>
        if k.handle = h then { k with up := upFor e d t i k.waiting j.1 } else k) })) }
  | _ => d

/-- R341, R281. A recorded cut, or the SYNC after it, reaches partition p's bricks. -/
def lateCut (e : Env) (p : BitVec 4) (d : Dp) (k : Nat) : Dp :=
  let n := k % 1024
  let r : BitVec 8 := if n < 256 then BitVec.ofNat 8 n else 0xFF#8
  let die := if n < 256 then none else some (BitVec.ofNat 3 (n - 256))
  if 1024 ≤ k then replayFor e d r die (ownIndex d p) else
  d.lintels.foldl (fun d x => if ownIndex d p x.1 then (x.2.over_ r die).foldl (fun d q => losePeer e d x.1 q r.toNat) d else d) d

/-- R341, R345. A hod takes effect at the tile or branch router that it is bound for as it is sent, with the hods of its kind that follow from it on the way up; n bounds them. Another hod stays in the net. -/
def actNow (e : Env) : Nat → Dp → Hod → Dp
  | 0, d, h => { d with net := d.net ++ [h] }
  | n + 1, d, h =>
    match h.dst, isShrink h.body || isDepart h.body with
    | .tile t, true =>
      if unavailable e t then d
      else
        (match h.body.needs with
          | some i => if mustFetch e d i then park e d t i (.hod h) else runHod e d t h
          | none => runHod e d t h)
    | .router r, true =>
      let d1 := combTake e d h r
      (d1.net.drop d.net.length).foldl (actNow e n) { d1 with net := d1.net.take d.net.length }
    | _, _ => { d with net := d.net ++ [h] }

/-- R341, R345. What a step of a resumption sends acts at once. -/
def actSent (e : Env) (d0 d1 : Dp) : Dp :=
  (d1.net.drop d0.net.length).foldl (actNow e 24) { d1 with net := d1.net.take d0.net.length }

/-- R341. A recorded hod: an arrival, shrink hod or departure report acts at its brick's home, whose tree has been built again without it; a response goes out. -/
def takeRecorded (e : Env) (d : Dp) (h : Hod) : Dp :=
  let home := match h.body with
    | .arrival a => some a.index
    | .shrink i _ _ _ _ _ _ => some i
    | _ => none
  actSent e d (sendHod e d (match home with | some i => { h with dst := .tile (homeOf e i) } | none => h))

/-- R343, R429. The wake comparators of sleeping tiles take up the deadlines that run again. -/
def reloadWakes (e : Env) (d : Dp) : Dp :=
  ((List.range 32).filter (fun t => (ptileOf e (physOf e t)).asleep)).foldl (loadWake e) d

/-- Table 9.17. With LF_CTL.ENABLE 0 the timers run of the routes that partition p's bricks use again. -/
def silentRoutes (e : Env) (d : Dp) (p : BitVec 4) : Dp :=
  ((List.range 255).filter (fun r => d.lintels.any (fun l => ownIndex d p l.1 && !(l.2.over_ (BitVec.ofNat 8 r) none).isEmpty))).foldl (silentTimer e) d

/-- R343, R345 (steps 5 to 9), Table 11.8. The partition runs again: what it held is delivered, then the departures, the cuts and the backlog act in order. -/
def resumePart (e : Env) (d : Dp) (p : BitVec 4) (gtFreeze : Dword) (departs : List Nat) : Dp :=
  let x := partOf d p
  let d := (bricksOf d p).foldl (fun d i => advanceBrick (rebuildTrees e d i) (gtInterp e - gtFreeze) i) d
  let d := { d with joints := d.joints.map (fun (j : Nat × Joint) => (j.1, { j.2 with frozen := j.2.frozen.filter (fun k => k != p.toNat) })) }
  let d := d.joints.foldl (fun d j => deliverHeld e d j.1 (fun q => q == p)) d
  let d := setPart d p { partOf d p with st := .restoring, recHods := [] }
  let d := x.recHods.foldl (takeRecorded e) d
  let d := departs.foldl (fun d a => actSent e d (departReports e (departBeds e d (a / 8) (a % 8) p) (a / 8) a p)) d
  let d := x.recCuts.foldl (lateCut e p) d
  let d := x.backlog.foldl (fun d b => runInHod e d b.hod) d
  let y := partOf d p
  reloadWakes e (setPart (silentRoutes e d p) p { y with st := .run, departed := false, backlog := [], depMap := [], recCuts := [], saved := none, frozenBy := [], markers := [], freezeTails := [] })

/-- Table 11.8. CTX_RESTORE; `bytes` is the area as it is read. -/
def ctxRestore (e : Env) (d : Dp) (x : BitVec 512) (bytes : List Byte) : Dp :=
  let p := BitVec.ofNat 4 (dfield x 128 4)
  let area : Dword := BitVec.ofNat 64 (dfield x 192 64)
  let done := fun (d : Dp) (st : Status) => completeWith e d .keeper x st
  let y := partOf d p
  if area.toNat % 4096 ≠ 0 then done d .badCount
  else
    match y.st, y.saved with
    | .frozen, _ => if area = 0 then done (resumePart e d p y.gtFreeze y.depMap) .ok else done d .busy
    | .saved, some s =>
      if area = 0 || area != s.area then done d .badCount
      else
        let read := memRead d 16 area bytes.length
        if !areaMatches e p bytes then done read .badCount
        else
          match restoreState e read p s with
          | .error st => done read st
          | .ok (d2, o) =>
            let d2 := resumePart e d2 p s.gtFreeze y.depMap
            slotsCome e .keeper d (complete e d2 .keeper { mkCompl d2 .keeper x .ok with overdrawn := o })
    | _, _ => done d .busy

/-! ### A fault on an access of a descriptor (R320) -/

/-- R348. A CTX_SAVE at the head of the keeper ring writes its area: its partition is FROZEN. -/
def savesNow (d : Dp) (x : BitVec 512) : Bool := dOp x == 0x50 && (partOf d (BitVec.ofNat 4 (dfield x 128 4))).st == .frozen

/-- Table 10.4, steps 7 and 8; R496. Whether a descriptor that passes steps 1 to 6 reads or writes memory beside itself: its parameters are legal, and what comes before the access does not refuse it. -/
def accesses (e : Env) (d : Dp) (r : RingId) (x : BitVec 512) : Bool :=
  let count := dfield x 160 13
  let addr := dfield x 192 64
  match dOp x with
  | 0x40 => (allocParams e r x).isNone && count != 0 && addr != 0 && (match allocTry e d r x with | .ok _ => true | .error _ => false)
  | 0x41 => (listParams x).isNone && count != 0 && addr != 0
  | 0x43 => (bondParams x).isNone && dfield x 128 11 != 0
  | 0x45 => (weightParams x).isNone && dfield x 128 11 != 0
  | 0x48 => (snapParams x).isNone && count != 0 && (addr != 0 || (snapList e r x 0 [dHandle x] 0 d).2.1 != 0)
  | 0x50 => savesNow d x && addr != 0
  | 0x51 =>
    let y := partOf d (BitVec.ofNat 4 (dfield x 128 4))
    y.st == .saved && addr != 0 && (match y.saved with | some s => s.area.toNat == addr | none => false)
  | _ => false

/-- R320. A translation fault on an access of the descriptor at the head of a ring, or on the read of that descriptor. -/
def descFault (e : Env) (d : Dp) (r : RingId) (addr : Dword) : Dp :=
  let g := ringOf d r
  match frontOf e d r with
  | none => d
  | some t =>
    let x := (g.ahead.head?).getD 0
    let can := if g.ahead.isEmpty then g.tail != g.read else accesses e d r x && (frontCheck e d r x).isNone
    if g.state = .running && (g.wait.isNone || (g.wait == some .freeze && savesNow d x)) && tileServes e d t && can then
      let o := ringOwner r
      let c := { mkCompl d r x .xlateFault with value := addr, advance := false }
      let d := if r = .keeper then { d with ctxRun := none } else d
      let d := setRing d r { g with state := .stopped, index := BitVec.ofNat 16 (g.head.toNat % ringSize g.cfg), ahead := [], read := g.head }
      let d := report e d (.tile t) (ringFaultReport e o (ringNo r) addr (if g.ahead.isEmpty then 0 else dHandle x))
      completeNumbered e d r (.tile t) (ringFaultKey e o (ringNo r)) c
    else d

/-! ### The backlog (R342, R350) -/

/-- R342, R350. A record for a suspended brick goes to its partition's backlog, or is answered REFUSE RETRY when that is full or its write faults. -/
def backlogRow (e : Env) (d : Dp) (n : Nat) (fault : Option Dword) : Dp :=
  match inboundAt e d n with
  | none => d
  | some h =>
    if !h.waits e d then d
    else
      match h.target e d with
      | none => d
      | some i =>
        let p := (brickOf d i).part
        let t := homeOf e i
        if unavailable e t then refuseHod e (dropInbound d n) h .fenced
        else if !tileServes e d t then d
        else
          let d := tookHod e (dropInbound d n) t .req
          let x := partOf d p
          let k := x.backlog.length
          if Config.backlogSlots ≤ k then refuseHod e d h .retry
          else
            match x.st, x.saved, fault with
            | .saved, some _, some a =>
              refuseHod e (reportTile e d t { mkReport e (mkKey e 5 i .xlateFault) (some p) with d0 := a, d1 := h.brick d }) h .retry
            | .saved, some s, none =>
              let b : BackHod := { gt := gtInterp e, hod := h }
              let d := bumpT e (setPart d p { x with backlog := x.backlog ++ [b] }) t 33
              backlogCount (backlogSlot e d s.area k b) s.area (k + 1)
            | _, _, _ => bumpT e (setPart d p { x with backlog := x.backlog ++ [{ gt := gtInterp e, hod := h }] }) t 33

/-! ### Meanings -/

/-- R320. -/
def execDescriptorXlateFault (r : RingId) (addr : Dword) (s : State) : Host.Outcome State Fault Refusal :=
  .next { s with dp := descFault s.env s.dp r addr }

/-- R333. -/
def execCtxSave (r : RingId) (s : State) : Host.Outcome State Fault Refusal :=
  .next { s with dp := afterDesc s.env r (runDesc s.env s.dp r 0x50 (fun _ x => ctxSave s.env s.dp x)) }

/-- R345. -/
def execCtxRestore (r : RingId) (area : List Byte) (s : State) : Host.Outcome State Fault Refusal :=
  .next { s with dp := afterDesc s.env r (runDesc s.env s.dp r 0x51 (fun _ x => ctxRestore s.env s.dp x area)) }

/-- R333. -/
def execFreeze (src : FreezeSrc) (p : BitVec 4) (s : State) : Host.Outcome State Fault Refusal := .next { s with dp := takeFreeze s.env s.dp src p }

/-- R333. -/
def execDrainMarker (t : BitVec 5) (src : FreezeSrc) (p : BitVec 4) (s : State) : Host.Outcome State Fault Refusal :=
  .next { s with dp := freezeTick s.env (takeMarker s.env s.dp t.toNat src p) }

/-- R342. -/
def execBacklogHod (n : Nat) (fault : Option Dword) (s : State) : Host.Outcome State Fault Refusal := .next { s with dp := backlogRow s.env s.dp n fault }

end Sys2Proof.Machine
end

