-- ==== Sys2Proof/Machine/Faults.lean ====
section
/-! DEFINITION. Sys2Proof/Machine/Faults.lean: failed tiles, self-tests, repointing, tombstones, mirrors replaced, fences and the repair map (R372 to R383, R388); ENGINE errors. -/

namespace Sys2Proof.Machine

/-! ### What a loss does to a brick (R375, R378) -/

/-- The key of a physical tile's TILE_FAULT. -/
def tileFaultKey (e : Env) (q : Nat) : IncKey := mkKey e 1 q .tileFault

/-- R378, R391. Stripe k of brick i, or the brick for k = 0, can be had again from its mirror: a mirror tile that is only under test has it still. -/
def intact (e : Env) (d : Dp) (i k : Nat) : Bool :=
  match fget d.mirCopies (stripeKey i k) with
  | some m => m.ready && !unavailable e m.tile
  | none => false

/-- R75. The mirror copy of brick i (of stripe k) goes, and what waited for its acknowledgement is sent. -/
def dropMirror (e : Env) (d : Dp) (i k : Nat) : Dp :=
  match fget d.mirCopies (stripeKey i k) with
  | none => d
  | some m =>
    let mine := d.mirUpds.filter (fun u => u.index == i && u.k == k)
    let d := dropSlot (unbindRuns d m.tile m.runs) m.tile (.mirror i k)
    let d := { d with mirCopies := fdel d.mirCopies (stripeKey i k), mirUpds := d.mirUpds.filter (fun u => !(u.index == i && u.k == k)) }
    mine.foldl (fun d u => u.kids.foldl (sendKid e i) (sendAll e u.outs d)) d

/-- R75. A lost mirror is replaced: MIRROR_GAP, and a copy hod to a tile that takes one; until it is acknowledged, the brick is unmirrored. -/
def replaceMirror (e : Env) (d : Dp) (i k : Nat) : Dp :=
  match fget d.mirCopies (stripeKey i k) with
  | none => d
  | some m =>
    let b := brickOf d i
    let t := stripeTile e i k
    let d := dropMirror e d i k
    let d := reportTile e d t { mkReport e (mkKey e 5 i .mirrorGap) (some b.part) with d0 := brickHandle e i b }
    match remirror e d i k t (m.runs.map Prod.snd) with
    | none => d
    | some (d, mt) =>
      let d := if k = 0 then setBrick d i { brickOf d i with mirror := mt } else d
      let d := modStripe d i k (fun s => { s with mirror := mt })
      match fget d.mirCopies (stripeKey i k) with
      | some c =>
        let u : MirUpd := { id := d.seq, index := i, k := k, home := t, copy := brickOf d i, stripe := stripeOf d i k, outs := [], undo := none }
        let d := { d with mirCopies := fput d.mirCopies (stripeKey i k) { c with ready := false }, mirUpds := d.mirUpds ++ [u] }
        send e (bumpT e d t 31) (.tile t) (.tile mt) .mgmt b.part (.mirUpd u.id 0)
      | none => d

/-- R378. What a tombstone keeps of a record: the granules it is charged for. -/
def Brick.husk (b : Brick) : Body :=
  match b.body with
  | .barrier x => .barrier { Barrier.init with grout := x.grout, shRun := x.shRun }
  | .lock _ => bodyInit .lock
  | .semaphore _ => bodyInit .semaphore
  | .event _ => bodyInit .event
  | .pallet => .pallet

/-- R172, R378. Stripe k of pallet i is lost: its gets and puts end LOST. -/
def loseStripe (e : Env) (d : Dp) (i k : Nat) (key : IncKey) : Dp :=
  let b := brickOf d i
  match stripeOf d i k with
  | none => d
  | some s =>
    if s.lost.isSome then d
    else
      let t := stripeTile e i k
      let hs := endStripe e d i k b s .lost
      let d := dropMirror e (dropRefill e (unbindRun d t s.base 9) i k) i k
      let d := setStripe d i k { Stripe.fresh k s.log2 s.log2s s.steal s.ringAddr 0 s.mirror with lost := some key }
      sendNumbered e d (.tile t) key hs

/-- R65, R66, R378. The slot of a tombstone: the one that the brick has, or one that is free, while fewer than 7,680 are held; past that the tombstone has none (DESIGN CHOICE, log 65), and answers LOST all the same. -/
def graveSlot (e : Env) (d : Dp) (t i : Nat) : Dp :=
  let b := brickOf d i
  let here := resident d t (.brick i)
  if (here && refHeld d (.brick i)) || b.pin || heldRoom e d t then
    (if here then touchSlot d t (.brick i) true else (takeSlot e d t (.brick i)).getD d)
  else dropSlot d t (.brick i)

/-- R378, R61. Brick i becomes a tombstone: its waits end LOST with the incident's number, and its beds and trees go. -/
def loseBrick (e : Env) (d : Dp) (i : Nat) (key : IncKey) : Dp :=
  let b := brickOf d i
  if !b.valid || b.lost.isSome then d
  else
    let t := homeOf e i
    let h := brickHandle e i b
    let hs := match b.body with
      | .barrier x => releaseHods d t b x { endRel i h x.course .lost with removeBed := true }
      | _ => endHods e i b .lost
    let d := dropMirror e (dropTree (dropTree d i false) i true) i 0
    let d := match fget d.lintels i with
      | some l => setLintel d i { Lintel.init l.tier with ctv := l.ctv, ctBase := l.ctBase }
      | none => d
    let d := loseStripe e d i 0 key
    let d := setBrick (graveSlot e d t i) i { b with lost := some key, body := b.husk }
    sendNumbered e d (.tile t) key hs

/-- R375. An uncorrectable error hits what tile t holds of brick i: restored from its mirror, lost, or, for a mirror copy, replaced. -/
def hitBrick (e : Env) (d : Dp) (t i : Nat) (key : IncKey) : Dp :=
  let k := t ^^^ homeOf e i
  if k = 0 && resident d t (.brick i) then (if intact e d i 0 then d else loseBrick e d i key)
  else if resident d t (.stripe i k) then (if intact e d i k then d else loseStripe e d i k key)
  else
    match (List.range 8).find? (fun k => resident d t (.mirror i k)) with
    | some k => replaceMirror e d i k
    | none => d

/-- R378. Every allocated brick of logical tile t, but those of SAVED partitions, whose records are in their areas. -/
def bricksAt (e : Env) (d : Dp) (t : Nat) : List Nat :=
  (d.bricks.filter (fun b => b.2.valid && homeOf e b.1 == t && decide ((partOf d b.2.part).st ≠ .saved))).map Prod.fst

/-- R375, R378. The data that an error of tile t destroys. -/
def applyHit (e : Env) (d : Dp) (t : Nat) (hit : TileHit) (key : IncKey) : Dp :=
  match hit with
  | .check | .corrected => d
  | .brick i => hitBrick e d t i.toNat key
  | .granule i => hitBrick e d t i.toNat key
  | .waiter i => hitBrick e d t i.toNat key
  | .tags =>
    let l := bricksAt e d t
    let here := fun i => resident d t (.brick i)
    (l.filter here ++ l.filter (fun i => !here i)).foldl (fun d i => loseBrick e d i key) d
  | .trace => loseTrace e d t
  | .linkBuffer => ((List.range 255).filter (fun r => routeTile r == t && (!(linkOf d r).unacked.isEmpty || !(linkOf d r).queue.isEmpty))).foldl (fun d r => cutLink e d r) d

/-- The tombstones of an incident's key. -/
def tombstones (d : Dp) (key : IncKey) : Nat := (d.bricks.filter (fun b => decide (b.2.lost = some key))).length

/-- R374. Of the hods that are on their way to tile t as its test starts, its router holds 64; a further REQ or MGMT hod goes back to its sender. -/
def sendRestBack (e : Env) (t : Nat) : Nat → List Hod → List Hod
  | _, [] => []
  | n, h :: l =>
    if h.dst != .tile t || h.back then h :: sendRestBack e t n l
    else if n < 64 || (h.vc != .req && h.vc != .mgmt) then h :: sendRestBack e t (n + 1) l
    else { h with back := true, ready := now e + 256 } :: sendRestBack e t n l

/-- R372, R374, R391. TILE_FAULT: the tile holds and its test starts; a second error of a tile under test destroys its data too. A corrected single-bit error is only counted. -/
def tileFault (e : Env) (d : Dp) (t : Nat) (hit : TileHit) : Dp :=
  let x := tileOf d t
  if unavailable e t || (ptileOf e (physOf e t)).asleep || !e.pwr.ready || e.stop.stopped || e.pwr.pfFrozen then d
  else if hit = .corrected then bumpT e d t 26
  else
    let key := tileFaultKey e (physOf e t)
    let d := match x.test with
      | none =>
        let d := setTile d t { x with test := some hit, lostBase := tombstones d key }
        reportTile e { d with net := sendRestBack e t 0 d.net } t (mkReport e key none)
      | some _ => d
    applyHit e d t hit key

/-! ### Repointing (R377 to R380) -/

/-- R35. The physical tiles that can hold lintel state. -/
def lintelCapable (q : Nat) : Bool := decide (q < 4) || q == 32 || q == 33

/-- R377. The free spare for logical tile t: fewest hops, the lower number on a tie. -/
def spareFor (e : Env) (t : Nat) : Option Nat :=
  let cost := fun q => hops (tileRouter e t) (tilePort e q / 8)
  (e.rep.spares.filter (fun q => decide (4 ≤ t) || lintelCapable q)).foldl (fun best q => match best with
    | none => some q
    | some b => if cost q < cost b then some q else some b) none

/-- R35. The shortfall: a logical tile of the first four is unavailable and no spare can hold it. -/
def fixShort (e : Env) : Env :=
  { e with rep := { e.rep with lshort := (List.range 4).any (unavailable e) && !e.rep.spares.any lintelCapable } }

def setPTile (e : Env) (q : Nat) (x : PTile) : Env := { e with pwr := { e.pwr with ptiles := fput e.pwr.ptiles q x } }

/-- R21, R430. Physical tile q, which holds logical tile t no more, is powered down, unless another logical tile holds it. -/
def leavePTile (e : Env) (t q : Nat) : Env :=
  if (List.range 32).any (fun u => u != t && !unavailable e u && physOf e u == q) then e else setPTile e q PTile.init

/-- Logical tile t moves to physical tile q, which is powered and must lock; the tile that held it is powered down, unless another logical tile holds it by now. -/
def moveTo (e : Env) (t q : Nat) : Env :=
  let old := physOf e t
  let e := leavePTile e t old
  let e := setPTile e q { powered := true, asleep := false, lock := 0 }
  fixShort { e with rep := { e.rep with lmap := fput e.rep.lmap t q, spares := e.rep.spares.filter (fun x => x != q), unavail := e.rep.unavail.filter (fun x => x != t) } }

/-- R379. The PATH raise for D hops: D × (2 + s) tile cycles in GT units, up to a multiple of 16. -/
def pathRaise (e : Env) (hop : Nat) : Nat := roundPath (ceilDiv (hop * (2 + e.cfg.stages) * 640) e.clk.per)

/-- R379. PATH of every brick at logical tile t, of a SAVED partition too, whose RELEASE is 1 or 2 is raised, until its next bond commit. -/
def raisePaths (e : Env) (d : Dp) (t hop : Nat) : Dp :=
  ((d.bricks.filter (fun b => b.2.valid && homeOf e b.1 == t)).map Prod.fst).foldl (fun d i =>
    let b := brickOf d i
    match b.body with
    | .barrier x =>
      if b.lost.isNone && (x.arm.release = 1#2 || x.arm.release = 2#2) then
        emitNone e (setBody d i b (.barrier { x with path := min (x.path + pathRaise e hop) 0xFFFFFF, measure := if x.measure = 0 then 3 else x.measure })) t i 0
      else d
    | _ => d) d

/-- R378. The spare goes through the slots of the failed tile t. -/
def takeSlots (e : Env) (d : Dp) (t : Nat) (key : IncKey) : Dp :=
  (tileOf d t).slots.foldl (fun d r => match r.1 with
    | .brick i => if intact e d i 0 then d else loseBrick e d i key
    | .stripe i k => if k = 0 || intact e d i k then d else loseStripe e d i k key
    | .lintel _ => d
    | .mirror i k => replaceMirror e d i k) d

/-- R377, R378, R383. A failed or fenced logical tile t goes to spare q with what can be had of its state, and it serves the held hods. -/
def repointLost (e : Env) (d : Dp) (t q : Nat) (key : IncKey) : Env × Dp :=
  let hop := hops (tileRouter e t) (tilePort e q / 8)
  let d := loseTrace e d t
  let d := setTile d t { tileOf d t with test := none, fenceReq := [], idleSince := gtInterp e, wakeAt := none }
  let e := moveTo e t q
  (e, raisePaths e (takeSlots e d t key) t hop)

/-- R315, R382, R383. What was parked at an unavailable tile is answered FENCED; a BRICK_FREE list with the number of bricks it has freed. -/
def fenceParked (e : Env) (t : Nat) (d : Dp) (p : Parked) : Dp :=
  match p with
  | .req j x => fencedReply e d t j x.id (hPart x.req.handle)
  | .hod h => fencedHod e d t h
  | .depart _ => d
  | .desc r _ held =>
    let d := setRing d r { ringOf d r with wait := none }
    (match (ringOf d r).ahead with
      | x :: _ => afterDesc e r (fencedDesc e d r x t (if dOp x = 0x41 then dfield x 160 13 - held.length else 0))
      | [] => d)

/-- R306, R377 (outcome 3), R382, R383, R392. Logical tile t becomes unavailable. -/
def loseTile (e : Env) (d : Dp) (t : Nat) (key : IncKey) : Env × Dp :=
  let e := leavePTile (fixShort { e with rep := { e.rep with unavail := setInsert t e.rep.unavail } }) t (physOf e t)
  let d := rereadRings e (loseTrace e d t) t
  let x := tileOf d t
  let batches := x.work.filter (fun w => match w with | .batch _ => true | .refill _ _ => false)
  let d := setTile d t { x with test := none, fenceReq := [], unavailInc := some key, fetches := [], work := [], wakeAt := none }
  let d := { d with mirUpds := d.mirUpds.filter (fun u => u.home != t) }
  let d := batches.foldl (fun d w => match w with
    | .batch r => (match frontTile e r with
      | some f => setTile d f { tileOf d f with work := (tileOf d f).work ++ [w] }
      | none => d)
    | .refill _ _ => d) d
  let d := x.slots.foldl (fun d r => match r.1 with | .mirror i k => replaceMirror e d i k | _ => d) d
  let d := (x.fetches.flatMap Fetch.parked).foldl (fenceParked e t) d
  let d := if e.rep.spares.isEmpty then report e d .alwaysOn { mkReport e (mkKey e 0 0 .sparesOut) none with d2 := BitVec.ofNat 32 e.rep.unavail.length } else d
  (e, d)

/-- R376, R377, Table 12.9. A tile that is given up: repointed where AUTO is 1 and a spare fits, and else unavailable; with the outcome's code and the new physical tile. -/
def giveUp (e : Env) (d : Dp) (t : Nat) (key : IncKey) : Env × Dp × Nat × Nat :=
  match (if e.rep.auto then spareFor e t else none) with
  | some q => let r := repointLost e d t q key; (r.1, r.2, 2, q)
  | none => let r := loseTile e d t key; (r.1, r.2, 3, 0)

/-! ### The self-test (R376) -/

/-- R361, R376. The TILE_FAULT record of this test gets its details: in the report that has not been taken yet, or in the entry that it opened. -/
def fillDetails (d : Dp) (key : IncKey) (d0 d1 : Dword) (d2 : Word) : Dp :=
  let mine := fun (r : Report) => decide (r.key = key) && r.count == 1
  let set := fun (r : Report) => { r with d0 := d0, d1 := d1, d2 := d2 }
  if d.inc.reports.any (fun x => mine x.2) then { d with inc := { d.inc with reports := modFirst (fun x => mine x.2) (fun x => (x.1, set x.2)) d.inc.reports } }
  else
    { d with inc := { d.inc with entries := d.inc.entries.map (fun (x : Nat × IncEntry) =>
        if x.2.isOpen && decide (x.2.rep.key = key) && x.2.count == 1#32 then (x.1, { x.2 with rep := set x.2.rep, dirty := true }) else x) } }

/-- The array that a hit names, where it names one. -/
def hitArray : TileHit → Option Nat
  | .brick _ => some 0
  | .granule _ => some 1
  | .waiter _ => some 2
  | .trace => some 3
  | .check | .tags | .linkBuffer | .corrected => none

/-- Table 12.4, TILE_FAULT DETAIL0: array and row. The spec gives no row for a hit that the test does not find again (log 6). -/
def faultPlace (d : Dp) (hit : TileHit) (r : TestResult) : Dword × Dp :=
  match r with
  | .row a n => (BitVec.ofNat 64 (a.toNat + n.toNat * 256), d)
  | _ =>
    let (k, d) := nextFree d
    let v := Config.freeDword k
    (match hitArray hit with
      | some a => (BitVec.ofNat 64 (a + bits v.toNat 8 13 * 256), d)
      | none => (BitVec.ofNat 64 (bits v.toNat 0 2 + bits v.toNat 8 13 * 256), d))

/-- The key of an array's spare rows in the repair map. -/
def rowKey (q a : Nat) : Nat := q * 4 + a

/-- R388. A spare row of array a of physical tile q replaces a row; rows are kept as spare x 8192 + row, and ROWS_USED counts spares in use. -/
def useRow (e : Env) (q a spare row : Nat) : Env :=
  let l := fgetD e.rep.rows (rowKey q a) []
  let known := l.any (fun x => x / 8192 == spare)
  { e with rep := { e.rep with rows := fput e.rep.rows (rowKey q a) (setInsert (spare * 8192 + row) (l.filter (fun x => x / 8192 != spare)))
                               rowsUsed := if known then e.rep.rowsUsed else BitVec.ofNat 8 (min (e.rep.rowsUsed.toNat + 1) 255) } }

/-- R388. The lowest free spare row of an array. -/
def freeRow (e : Env) (q a : Nat) : Option Nat := (List.range 8).find? (fun s => !(fgetD e.rep.rows (rowKey q a) []).any (fun x => x / 8192 == s))

/-- R381. Tile t, or its port, is fenced now: the fence stands in the repair map and its incident opens. -/
def fenceTile (e : Env) (d : Dp) (q : Nat) (key : IncKey) : Env × Dp :=
  let d := forgetNumber d key
  let e := if key.srcKind = 1#4 then { e with rep := { e.rep with fencedTiles := setInsert q e.rep.fencedTiles, spares := e.rep.spares.filter (fun x => x != q) } }
    else { e with rep := { e.rep with fencedPorts := setInsert (tilePort e q) e.rep.fencedPorts, spares := e.rep.spares.filter (fun x => x != q) } }
  (e, report e d .alwaysOn (mkReport e key none))

/-- R381, R391. The fences that waited for the end of a test stand in the repair map, each with its incident. -/
def fenceAll (q : Nat) (keys : List IncKey) (e : Env) (d : Dp) : Env × Dp := keys.foldl (fun x key => fenceTile x.1 x.2 q key) (e, d)

/-- R360, R376, R391. SELF_TEST_DONE: fences that waited for the end of the test take the place of its outcome, and the record of the test says what became of the tile. -/
def selfTestDone (e : Env) (d : Dp) (t : Nat) (r : TestResult) : Env × Dp :=
  let x := tileOf d t
  match x.test with
  | none => (e, d)
  | some hit =>
    if e.stop.stopped || e.pwr.pfFrozen || unavailable e t then (e, d)
    else
      let q := physOf e t
      let key := tileFaultKey e q
      let (d0, d) := faultPlace d hit r
      match x.fenceReq with
      | fence :: more =>
        let (e, d) := fenceAll q (fence :: more) e d
        let before := tombstones d fence
        let (e, d, code, nq) := giveUp e d t fence
        let lost := (tombstones d key - x.lostBase + (tombstones d fence - before)) % 2 ^ 24 * 256
        (e, fillDetails d key d0 (BitVec.ofNat 64 (nq + lost)) (BitVec.ofNat 32 code))
      | [] =>
        let lost := fun (d : Dp) => (tombstones d key - x.lostBase) % 2 ^ 24 * 256
        let resume := fun (e : Env) (d : Dp) (code : Nat) =>
          (e, fillDetails (setTile d t { tileOf d t with test := none, idleSince := gtInterp e }) key d0 (BitVec.ofNat 64 (lost d)) (BitVec.ofNat 32 code))
        let spare := match r with
          | .row a _ => if e.rep.rowAuto then freeRow e q a.toNat else none
          | _ => none
        match r, spare with
        | .pass, _ =>
          resume { e with rep := { e.rep with transients := BitVec.ofNat 16 (min (e.rep.transients.toNat + 1) 0xFFFF) } } (bumpT e d t 27) 0
        | .row a n, some s => resume (useRow e q a.toNat s n.toNat) d 1
        | _, _ =>
          let (e, d, code, nq) := giveUp e d t key
          let e := if code = 3 then { e with rep := { e.rep with fencedTiles := setInsert q e.rep.fencedTiles } } else e
          (e, fillDetails d key d0 (BitVec.ofNat 64 (nq + lost d)) (BitVec.ofNat 32 code))

/-! ### FENCE_UNIT and REPOINT (R380, R381) -/

/-- The logical tile that physical tile q holds. -/
def logicalOf (e : Env) (q : Nat) : Option Nat := (List.range 32).find? (fun t => !unavailable e t && physOf e t == q)

/-- R381. Physical tile q stands behind a fence. -/
def tileFenced (e : Env) (q : Nat) : Bool := e.rep.fencedTiles.contains q || e.rep.fencedPorts.contains (tilePort e q)

/-- Table 12.9. LIFT 0 on physical tile q or its port. -/
def fencePhys (e : Env) (d : Dp) (q : Nat) (key : IncKey) : Env × Dp :=
  match logicalOf e q with
  | none => let r := fenceTile e d q key; (fixShort r.1, r.2)
  | some t =>
    if (tileOf d t).test.isSome then (e, setTile d t { tileOf d t with fenceReq := (tileOf d t).fenceReq.filter (fun k => decide (k ≠ key)) ++ [key] })
    else
      let (e, d) := fenceTile e d q key
      let (e, d, _, _) := giveUp e d t key
      (e, d)

/-- R391. A LIFT before the end of the test withdraws the fence that waits for it (DESIGN CHOICE, log 29). -/
def withdrawFence (e : Env) (d : Dp) (q : Nat) (key : IncKey) : Dp :=
  match logicalOf e q with
  | none => d
  | some t => setTile d t { tileOf d t with fenceReq := (tileOf d t).fenceReq.filter (fun k => decide (k ≠ key)) }

/-- Table 12.9. LIFT 1 on physical tile q or its port: once no fence stands, the tile joins the spare pool, powered down (R430). -/
def liftPhys (e : Env) (q : Nat) : Env :=
  if tileFenced e q || (logicalOf e q).isSome then e else fixShort { setPTile e q PTile.init with rep := { e.rep with spares := setInsert q e.rep.spares } }

/-- The joint at a local port, and the physical tile at one. -/
def portJoint (e : Env) (p : Nat) : Option Nat := (List.range 128).find? (fun j => implemented e j && jointPort e j == p)

def portTile (e : Env) (p : Nat) : Option Nat := (List.range 36).find? (fun q => tilePort e q == p)

/-- Table 12.9. FENCE_UNIT. -/
def fenceUnit (e : Env) (d : Dp) (x : BitVec 512) : Env × Dp × Status :=
  let lift := x.getLsbD 130
  let u := dfield x 136 11
  match dfield x 128 2 with
  | 0 =>
    if 1023 < u ∨ (agentClass e (u / 8) (u % 8)).isNone then (e, d, .badCount)
    else if e.rep.fencedAgents.contains u == !lift then (e, d, .ok)
    else if lift then ({ e with rep := { e.rep with fencedAgents := e.rep.fencedAgents.filter (fun a => a != u) } }, d, .ok)
    else
      let d := report e (forgetNumber d (fenceKey e 3 u)) .alwaysOn (mkReport e (fenceKey e 3 u) (agentPart d (u / 8) (u % 8)))
      ({ e with rep := { e.rep with fencedAgents := setInsert u e.rep.fencedAgents } }, markDeparting d u, .ok)
  | 1 =>
    if 35 < u then (e, d, .badCount)
    else if e.rep.fencedTiles.contains u == !lift then (e, if lift then withdrawFence e d u (fenceKey e 1 u) else d, .ok)
    else if lift then (liftPhys { e with rep := { e.rep with fencedTiles := e.rep.fencedTiles.filter (fun a => a != u) } } u, d, .ok)
    else
      let (e, d) := fencePhys e d u (fenceKey e 1 u)
      (e, d, .ok)
  | 2 =>
    if u % 8 ≠ 4 ∧ u % 8 ≠ 5 then (e, d, .badCount)
    else
      match portJoint e u, portTile e u with
      | none, none => (e, d, .badCount)
      | some j, _ =>
        if e.rep.fencedPorts.contains u == !lift then (e, d, .ok)
        else if lift then ({ e with rep := { e.rep with fencedPorts := e.rep.fencedPorts.filter (fun a => a != u) } }, d, .ok)
        else
          let d := report e (forgetNumber d (fenceKey e 2 u)) .alwaysOn (mkReport e (fenceKey e 2 u) none)
          let d := (List.range 8).foldl (fun d s => if (agentClass e j s).isSome then markDeparting d (j * 8 + s) else d) d
          ({ e with rep := { e.rep with fencedPorts := setInsert u e.rep.fencedPorts } }, d, .ok)
      | none, some q =>
        if e.rep.fencedPorts.contains u == !lift then (e, if lift then withdrawFence e d q (fenceKey e 2 u) else d, .ok)
        else if lift then (liftPhys { e with rep := { e.rep with fencedPorts := e.rep.fencedPorts.filter (fun a => a != u) } } q, d, .ok)
        else
          let (e, d) := fencePhys e d q (fenceKey e 2 u)
          (e, d, .ok)
  | _ => (e, d, .badCount)

/-- R380, R383. A healthy logical tile t moves to physical tile q with its state; its trace records are drained first, and the old tile joins the spare pool. -/
def moveTile (e : Env) (d : Dp) (t q : Nat) : Env × Dp :=
  let old := physOf e t
  let hop := hops (tilePort e old / 8) (tilePort e q / 8)
  let d := drainTile e d t false
  let d := setTile d t { tileOf d t with idleSince := gtInterp e, wakeAt := none }
  let e := moveTo e t q
  let e := fixShort { e with rep := { e.rep with spares := setInsert old e.rep.spares } }
  (e, raisePaths e d t hop)

/-- Table 12.8, log 29. The fence that a FENCED completion of REPOINT to physical tile q names: that of the tile, or else of its port; of a tile that failed its test, the fault that made it unavailable. -/
def fenceOf (e : Env) (d : Dp) (q : Nat) : IncKey :=
  if e.rep.fencedTiles.contains q then
    match (List.range 32).find? (fun t => unavailable e t && physOf e t == q) with
    | some t => (tileOf d t).unavailInc.getD (fenceKey e 1 q)
    | none => fenceKey e 1 q
  else fenceKey e 2 (tilePort e q)

/-- Table 12.8. REPOINT, with the fence that a FENCED completion names. -/
def repoint (e : Env) (d : Dp) (x : BitVec 512) : Env × Dp × Status × Option IncKey :=
  let l := dfield x 128 5
  let q := dfield x 136 6
  if 35 < q ∨ (l < 4 ∧ !lintelCapable q) then (e, d, .badCount, none)
  else if tileFenced e q then (e, d, .fenced, some (fenceOf e d q))
  else
    match logicalOf e q with
    | some t => if t = l then (if (tileOf d l).test.isSome then (e, d, .busy, none) else (e, d, .ok, none)) else (e, d, .busy, none)
    | none =>
      if !unavailable e l then
        if (tileOf d l).test.isSome then (e, d, .busy, none)
        else
          let (e, d) := moveTile e d l q
          (e, d, .ok, none)
      else if d.bricks.any (fun b => b.2.valid && homeOf e b.1 == l) then (e, d, .busy, none)
      else
        let e2 := moveTo e l q
        (e2, followFront e e2 (setTile d l { Tile.init with idleSince := gtInterp e, trace := { TBuf.init with lost := (tileOf d l).trace.lost } }), .ok, none)

/-- The descriptor of an opcode at the head of a ring that passes the front end now. -/
def descNow (e : Env) (d : Dp) (r : RingId) (op : Nat) : Option (BitVec 512) :=
  match headDesc e d r with
  | some (_, x) => if dOp x = op && (frontCheck e d r x).isNone then some x else none
  | none => none

/-- A descriptor of the keeper ring that changes the environment: f is its effect, with the status and the incident that it completes with. -/
def keeperDesc (s : State) (r : RingId) (op : Nat) (f : Env → Dp → BitVec 512 → Env × Dp × Status × Option IncKey) : State :=
  match descNow s.env s.dp r op with
  | none => { s with dp := afterDesc s.env r (runDesc s.env s.dp r op (fun _ _ => s.dp)) }
  | some x =>
    let (e, d, st, key) := f s.env s.dp x
    let d := match key with
      | some k => completeNumbered e d r .alwaysOn k (mkCompl d r x st)
      | none => completeWith e d r x st
    { s with env := e, dp := afterDesc e r d }

/-! ### The repair map and ENGINE errors -/

/-- R379. REMEASURE: every brick whose PATH stands raised measures it again at its next boundary. -/
def remeasure (d : Dp) : Dp :=
  { d with bricks := d.bricks.map (fun (b : Nat × Brick) => match b.2.body with
      | .barrier x => if x.measure = 3 then (b.1, { b.2 with body := .barrier { x with measure := 1 } }) else b
      | _ => b)
           mirCopies := d.mirCopies.map (fun (m : Nat × MirCopy) => match m.2.copy.body with
      | .barrier x => if x.measure = 3 then (m.1, { m.2 with copy := { m.2.copy with body := .barrier { x with measure := 1 } } }) else m
      | _ => m) }

/-- R388. Rows of 64 bytes in each array. -/
def arrayRows (a : Nat) : Nat :=
  if a = 0 then Config.slotsPerTile else if a = 1 then Config.granulesPerTile else if a = 2 then Config.waiterStore / 4 else 256

/-- R388, Table 12.16. A write of KP_ROWFIX. -/
def rowfix (e : Env) (d : Dp) (v : Word) : Env × Dp :=
  let q := bits v.toNat 0 6
  let a := bits v.toNat 6 2
  let row := bits v.toNat 8 13
  if 35 < q ∨ (ptileOf e q).powered ∨ arrayRows a ≤ row then (e, configNotice e d 0xC4) else (useRow e q a (bits v.toNat 21 3) row, d)

/-- R372, Table 12.4. An uncorrectable error of the always-on domain, the incident unit or the repair map. -/
def engineError (e : Env) (d : Dp) (q : Option (BitVec 6)) (off : BitVec 20) : Dp :=
  let key := match q with | some q => mkKey e 1 q.toNat .engine | none => mkKey e 0 0 .engine
  report e d .alwaysOn { mkReport e key none with d0 := BitVec.ofNat 64 (off.toNat * 4) }

/-! ### Meanings -/

/-- R374. -/
def execTileFault (t : BitVec 5) (hit : TileHit) (s : State) : Host.Outcome State Fault Refusal := .next { s with dp := tileFault s.env s.dp t.toNat hit }

/-- R376. -/
def execSelfTestDone (t : BitVec 5) (r : TestResult) (s : State) : Host.Outcome State Fault Refusal :=
  let x := selfTestDone s.env s.dp t.toNat r
  .next { s with env := x.1, dp := x.2 }

/-- R381. -/
def execFenceUnit (r : RingId) (s : State) : Host.Outcome State Fault Refusal :=
  .next (keeperDesc s r 0x52 (fun e d x => let y := fenceUnit e d x; (y.1, y.2.1, y.2.2, none)))

/-- R380. -/
def execRepoint (r : RingId) (s : State) : Host.Outcome State Fault Refusal := .next (keeperDesc s r 0x53 repoint)

/-- R372. -/
def execEngineEccError (t : Option (BitVec 6)) (off : BitVec 20) (s : State) : Host.Outcome State Fault Refusal :=
  .next { s with dp := engineError s.env s.dp t off }

/-- R475, Table 15.12. A response that matches no request is ignored; ENGINE reports it. -/
def execUnmatchedMStag (_ : BitVec 11) (s : State) : Host.Outcome State Fault Refusal := .next { s with dp := engineError s.env s.dp none 0 }

end Sys2Proof.Machine
end

