-- ==== Sys2Proof/Machine/Clocks.lean ====
section
/-! DEFINITION. Sys2Proof/Machine/Clocks.lean: reference edges, clock changes, throttle, steps of GT, TPULSE, sleep and wake, global stop, offset results (R288, R289, R393 to R400, R415 to R418, R425 to R432, R442). -/

namespace Sys2Proof.Machine

/-! ### Tiles and their clocks -/

/-- The available logical tiles whose physical tile is powered and awake. -/
def awakeTiles (e : Env) : List Nat := (tiles e).filter (fun t => (ptileOf e (physOf e t)).powered && !(ptileOf e (physOf e t)).asleep)

/-- R395. The locks of awake tiles start again at n full periods. -/
def relock (n : Nat) (e : Env) : Env :=
  { e with pwr := { e.pwr with ptiles := e.pwr.ptiles.map (fun (p : Nat × PTile) => (p.1, if p.2.powered && !p.2.asleep then { p.2 with lock := n } else p.2)) } }

/-- R394. A full period has been counted: an awake tile comes one closer to its lock. -/
def lockMore (e : Env) : Env :=
  { e with pwr := { e.pwr with ptiles := e.pwr.ptiles.map (fun (p : Nat × PTile) => (p.1, if p.2.powered && !p.2.asleep then { p.2 with lock := min 2 (p.2.lock + 1) } else p.2)) } }

/-- R425, Table 13.5. Every powered tile writes a CLOCK record of a tile clock of 25 x P MHz, a sleeping one with STOPPED (R396). -/
def clockRecs (e : Env) (d : Dp) : Dp :=
  ((tiles e).filter (fun t => (ptileOf e (physOf e t)).powered)).foldl (fun d t => trace e d t (some 7) { TRec.blank 0x0C with gt := tileGt e t, aux := BitVec.ofNat 24 (bits (25 * e.clk.per) 0 12) }) d

/-- R123, R425, R432. PATH of every barrier on the chip is scaled; a mirror hears of it as of any change. DESIGN CHOICE (log 70): a barrier of a SAVED partition keeps its PATH. -/
def scalePaths (e : Env) (d : Dp) (f : Nat → Nat) : Dp :=
  (d.bricks.map Prod.fst).foldl (fun d i =>
    let b := brickOf d i
    match b.body with
    | .barrier x =>
      if b.valid && b.lost.isNone && decide ((partOf d b.part).st ≠ .saved) then
        emitNone e (setBody d i b (.barrier { x with path := min (f x.path) 0xFFFFFF })) (homeOf e i) i 0
      else d
    | _ => d) d

/-- R425, R432. THROTTLE has switched, and nothing else has moved the clock: P is half or twice what it was, but for the counts that a switch can round. -/
def pureSwitch (c : Clock) : Bool :=
  c.perHalf != c.oldHalf && (if c.perHalf then decide (dist c.per (c.perOld / 2) ≤ 1) else decide (dist c.per (c.perOld * 2) ≤ 2))

/-- R123, R425, R432. PATH n after a clock change: by exactly 2 or 1/2 where THROTTLE alone has switched, else by the ratio of the old P to the new one. DESIGN CHOICE (log 51): half of an odd PATH is rounded down. -/
def scaledPath (c : Clock) (n : Nat) : Nat :=
  if pureSwitch c then (if c.perHalf then n * 2 else n / 2) else ceilDiv (n * c.perOld) c.per

/-- R425, R447. A clock change, measured once the new P is stable, is taken up: PATH is scaled, and CLOCK records are written. -/
def clockChange (e : Env) (d : Dp) : Env × Dp :=
  let c := e.clk
  if !c.changed || c.mixed || e.stop.stopped || c.per = 0 then (e, d)
  else
    let d := clockRecs e (scalePaths e d (scaledPath c))
    ({ e with clk := { c with changed := false, perOld := c.per, oldHalf := c.perHalf } }, d)

/-- R432. The throttle switch that is due: half frequency, or full frequency again, at most once per 80 ns of GT. The cycles since the edge count at the new rate, so that GT runs on (R397); P follows with the next full period. -/
def switchThrottle (e : Env) : Env :=
  let c := e.clk
  let quiet := match c.lastSwitch with
    | some g => decide (1280 ≤ (gtInterp e - g).toNat)
    | none => true
  if c.throttle = c.half || e.stop.stopped || !quiet then e
  else
    let k := if c.throttle then ceilDiv c.cyc 2 else c.cyc * 2
    relock 0 { e with clk := { c with half := c.throttle, lastSwitch := some (gtInterp e), settle := 1, cyc := k, edgeCyc := c.edgeCyc + c.cyc - k } }

/-! ### The reference edge (R393, R394, R442, R471) -/

/-- Table 14.8. A tile clock outside 500 to 2,200 MHz, under THROTTLE outside 250 to 1,100, beyond one count of P. -/
def clockOut (half : Bool) (p : Nat) : Bool := p ≠ 0 && (if half then decide (p < 9) || decide (45 < p) else decide (p < 19) || decide (89 < p))

/-- R442. Before READY, group k of four logical tiles is powered 0.2 µs of GT after its step at k x 0.5 µs; the tile cycle of the latest power-up is kept. -/
def powerGroups (e : Env) : Env :=
  if !e.pwr.enable || e.pwr.ready || e.pwr.pfFrozen then e
  else (List.range 32).foldl (fun e t =>
    let due := e.pwr.enabledAt + BitVec.ofNat 64 (8000 * (t / 4) + 3200)
    if reached e.clk.gt due && !unavailable e t && !(ptileOf e (physOf e t)).powered then
      let e := setPTile e (physOf e t) { powered := true, asleep := false, lock := 0 }
      { e with pwr := { e.pwr with poweredCyc := now e - (e.clk.gt - due).toNat * e.clk.per / 640 } }
    else e) e

/-- R394, R395, R425, R432. The period that ends with n tile cycles: P, and a clock change where it differs by 2 or more from the one that PATH stands at, or was counted at the other level of THROTTLE. The first period at another clock than the last may have been counted at two; an edge that ends no full period measures nothing (log 3). -/
def measure (n : Nat) (c : Clock) : Clock :=
  let moved := c.per ≠ 0 && decide (2 ≤ dist n c.rate)
  let c := { c with edgeCyc := c.edgeCyc + n, cyc := 0 }
  if c.settle ≠ 0 then { c with settle := c.settle - 1, mixed := false }
  else
    let c := { c with per := n, perHalf := c.half, mixed := moved && !c.mixed }
    if c.perOld ≠ 0 && (decide (2 ≤ dist n c.perOld) || c.perHalf != c.oldHalf) then { c with changed := true }
    else if c.changed then c
    else { c with perOld := n, oldHalf := c.half }

/-- R393, R400, R415, R471. The always-on part of an edge: GT, the pins' filters, the end of a TPULSE. -/
def edgePins (e : Env) (p : Pins) : Env :=
  let c := e.clk
  let k := min 320 c.slew
  let g := c.gt + BitVec.ofNat 64 (640 - k)
  let s := c.gstopN.sample p.gstopN
  let w := c.pwrwarnN.sample p.pwrwarnN
  let t := c.tpulse.sample p.tpulse
  let fall := match c.tpFall with
    | some f => if reached g f then none else some f
    | none => none
  let clk := { c with gt := g, gtPrev := c.gt, slew := c.slew - k, gstopN := s, pwrwarnN := w, tpulse := t, tpFall := fall
                      gstopFell := c.gstopFell || (c.gstopN.level && !s.level && e.stop.pinEn)
                      pwrFell := c.pwrFell || (c.pwrwarnN.level && !w.level)
                      tpRise := c.tpRise || (!c.tpulse.level && t.level && decide (c.tpDir = 2#2)) }
  let pwr := { e.pwr with gtWarn := if c.pwrwarnN.level && !w.level then g else e.pwr.gtWarn }
  { e with clk := clk, pwr := pwr }

/-- REFERENCE_EDGE: the pins' levels, and the tile cycles of the period that it ends. -/
def refEdge (e : Env) (d : Dp) (cycles : Nat) (p : Pins) : Env × Dp :=
  let old := e.clk
  let e := edgePins e p
  let d := { d with inc := { d.inc with taken := false } }
  if e.stop.stopped then (powerGroups { e with clk := { e.clk with edgeCyc := e.clk.edgeCyc + e.clk.cyc, cyc := 0 } }, d)
  else
    let e := powerGroups { e with clk := measure (max cycles e.clk.cyc) e.clk }
    let d := if clockOut e.clk.perHalf e.clk.per && !clockOut old.perHalf old.per then configNotice e d 0x08 else d
    let e := if e.clk.mixed then relock 1 e else lockMore e
    (switchThrottle e, d)

/-! ### Steps of GT and TPULSE (R398, R400) -/

/-- R398. A requested step of GT is applied. -/
def gtStep (e : Env) (d : Dp) : Env × Dp :=
  match e.clk.stepReq with
  | none => (e, d)
  | some th =>
    let e := { e with clk := { e.clk with stepReq := none } }
    if th = 0 then (e, d)
    else
      let d := bumpK e d 4 0 5 1
      let rest : Int := th - (e.clk.slew : Int)
      if (!d.bricks.any (fun b => b.2.valid) && !e.lf.enable) || decide (0 ≤ rest) then
        ({ e with clk := { e.clk with gt := e.clk.gt + BitVec.ofInt 64 rest, slew := 0 } }, d)
      else ({ e with clk := { e.clk with slew := rest.natAbs } }, d)

/-- R400. The multiple of GT at which TPULSE rises. -/
def pulseUnits (rate : Bool) : Nat := if rate then 16000000 else 16000000000

/-- R400. TPULSE rises at the first edge at which GT has reached a multiple, and falls 160,000 units later. -/
def pulseOut (e : Env) : Env :=
  let c := e.clk
  let n := pulseUnits c.tpRate
  if c.tpDir = 1#2 && c.tpFall.isNone && c.gt.toNat / n ≠ c.gtPrev.toNat / n then
    { e with clk := { c with tpFall := some (c.gt + 160000), gtPrev := c.gt } }
  else e

/-- R400. The capture of a filtered rising edge of TPULSE. -/
def pulseIn (e : Env) : Env :=
  if e.clk.tpRise then { e with clk := { e.clk with tpRise := false, tpCap := e.clk.gt - 3520, tpCapv := true } } else e

/-! ### Offset measurement (R288, R289) -/

/-- R288. The answered exchange with the smallest delay. -/
def bestExchange : List (Int × Int) → Option (Int × Int)
  | [] => none
  | x :: l => match bestExchange l with
    | some y => if y.2 < x.2 then some y else some x
    | none => some x

/-- R287. START: a measurement of 2^ROUNDS exchanges begins, unless this is the time root or one is running. -/
def startTime (e : Env) (d : Dp) : Dp :=
  if e.lf.tRoot || d.tm.busy then d
  else { d with tm := { d.tm with busy := true, answered := 0, toSend := 2 ^ min e.lf.tRounds.toNat 8, nextAt := gtInterp e, waiting := [], results := [] } }

/-- R288, R289. Every exchange is answered or unanswered. -/
def offsetResult (e : Env) (d : Dp) : Env × Dp :=
  let m := d.tm
  if !m.busy || m.toSend ≠ 0 || !m.waiting.isEmpty then (e, d)
  else
    let m := { m with busy := false, answered := m.results.length }
    match bestExchange m.results with
    | none => (e, configNotice e { d with tm := { m with valid := false } } 0x310040)
    | some (th, de) =>
      let e := if e.lf.tApply then { e with clk := { e.clk with stepReq := some (e.clk.stepReq.getD 0 + th) } } else e
      (e, { d with tm := { m with valid := true, theta := BitVec.ofInt 64 th, delta := BitVec.ofInt 32 de } })

/-! ### Sleep and wake (R428 to R430) -/

/-- R428. Nothing of tile t is outstanding. -/
def restful (e : Env) (d : Dp) (t : Nat) : Bool :=
  let x := tileOf d t
  x.fetches.isEmpty && x.wbacks.isEmpty && x.work.isEmpty && x.test.isNone
  && !d.tiles.any (fun u => u.1 != t && u.2.work.any (fun w => match w with | .batch r => frontTile e r == some t | .refill _ _ => false))
  && !d.stripes.any (fun s => stripeTile e (s.1 / 8) (s.1 % 8) == t && (s.2.writing.isSome || s.2.refill.isSome))
  && !d.stripes.any (fun s => s.2.thief == some t)
  && !d.mirUpds.any (fun u => u.home == t)
  && !(List.range 255).any (fun r => routeTile r == t && (!(linkOf d r).unacked.isEmpty || !(linkOf d r).queue.isEmpty))
  && (budgetOf d == 0 || x.trace.recs.isEmpty || !drains d t)
  && !d.net.any (fun h => h.dst == .tile t)

/-- R428, R429. Tile t enters sleep. -/
def sleepTile (e : Env) (d : Dp) (t : Nat) : Env × Dp :=
  let q := physOf e t
  let p := ptileOf e q
  let x := tileOf d t
  if e.pwr.idle = 0 || !tileServes e d t || !p.powered || !restful e d t || decide ((gtInterp e - x.idleSince).toNat < e.pwr.idle.toNat * 16000) then (e, d)
  else
    let d := trace e d t (some 7) { TRec.blank 0x0A with gt := tileGt e t }
    (setPTile e q { p with asleep := true, lock := 0 }, bumpT e (loadWake e d t) t 29)

/-- R430. Tile t wakes; it takes again what its router held. -/
def wakeTile (e : Env) (d : Dp) (t : Nat) (byHod : Bool) : Env × Dp :=
  let q := physOf e t
  let p := ptileOf e q
  if !p.asleep || unavailable e t || e.stop.stopped || e.pwr.pfFrozen then (e, d)
  else
    let e := setPTile e q { p with asleep := false, lock := 0 }
    let d := trace e d t (some 7) (wakeRec e t byHod)
    (e, setTile d t { tileOf d t with wakeAt := none, idleSince := gtInterp e, idleCyc := now e })

/-- R429. The wake comparator of tile t fires. -/
def comparator (e : Env) (d : Dp) (t : Nat) : Env × Dp :=
  match (tileOf d t).wakeAt with
  | some g => if reached (gtInterp e) g then wakeTile e d t false else (e, d)
  | none => (e, d)

/-! ### Global stop (R415 to R418) -/

/-- R417. The hold frames that leave before a stop. -/
def sendHolds (e : Env) (d : Dp) : Dp :=
  ((List.range 255).filter (routeValid e)).foldl (fun d r =>
    wireOut e d (.time (BitVec.ofNat 8 r) (routeDie e r) false (BitVec.allOnes 64) (BitVec.allOnes 64) (BitVec.allOnes 64) (linkOf d r).seqRx (linkOf d r).epochTx)) d

/-- R415, R416. The instance stops. -/
def doStop (e : Env) (d : Dp) (pin : Bool) : Env × Dp :=
  if e.stop.stopped then (e, d)
  else
    let g := gtInterp e
    let d := if d.obs.onStop then fireTrigger e d 2 else d
    let d := sendHolds e d
    let d := (tiles e).foldl (fun d t => trace e d t (some 7) { TRec.blank 0x0D with gt := tileGt e t, stopped := (ptileOf e (physOf e t)).asleep }) d
    let d := bumpK e d 4 0 4 1
    ({ e with stop := { e.stop with stopped := true, byPin := pin, goPend := false, stopGt := g } }, d)

/-- R418. Deadlines (but those of a suspended partition, which R343 advances) and back-off waits are advanced. -/
def advanceTimers (d : Dp) (by_ : Dword) : Dp :=
  let f := fun (b : Brick) => match (partOf d b.part).st with
    | .frozen | .saved | .restoring => b
    | .run | .freezing | .resetting => b.advance by_
  { d with
      bricks := d.bricks.map (fun (b : Nat × Brick) => (b.1, f b.2))
      mirCopies := d.mirCopies.map (fun (m : Nat × MirCopy) => (m.1, { m.2 with copy := f m.2.copy }))
      mirUpds := d.mirUpds.map (fun (u : MirUpd) => { u with copy := f u.copy })
      tiles := d.tiles.map (fun (t : Nat × Tile) => (t.1, { t.2 with wakeAt := t.2.wakeAt.map (fun g => g + by_) }))
      backoffs := d.backoffs.map (fun (b : Backoff) => { b with dueGt := b.dueGt.map (fun g => g + by_) }) }

/-- R418. The timers of links, and the holds of their peers, are advanced. -/
def advanceLinks (e e2 : Env) (d : Dp) (by_ : Dword) : Dp :=
  { d with links := d.links.map (fun (l : Nat × Link) => (l.1, moveLink e e2 l.2 { l.2 with hold := l.2.hold.map (fun g => g + by_) })) }

/-- R416. At GO the ports go on with what the stop has kept from them; a hold that a pause kept back goes no more (log 12). -/
def leaveHeld (e : Env) (d : Dp) : Dp :=
  releaseHeld e { d with port := { d.port with fabHeld := d.port.fabHeld.filter (fun x => !x.isHold), mem := d.port.mem ++ d.port.memHeld, memHeld := [] } }

/-- R416. At GO the joints, tiles and stripes go on with what came during the stop. -/
def goKept (e : Env) (d : Dp) : Dp :=
  let d := (d.joints.map Prod.fst).foldl (sealsKept e) d
  let d := endKept e ((List.range 32).foldl (fillKept e) d)
  (d.stripes.map Prod.fst).foldl (fun d k => palGo e d (k / 8) (k % 8)) d

/-- R418, Table 13.7. The instance resumes. -/
def goNow (e : Env) (d : Dp) : Env × Dp :=
  let g := gtInterp e
  let by_ := g - e.stop.stopGt
  let up := e.stop.d2dUp
  let down := e.stop.d2dDown
  let e0 := e
  let e := relock 0 { e with stop := { e.stop with stopped := false, goPend := false, stopLen := by_, d2dUp := 0, d2dDown := 0 }, clk := { e.clk with settle := 1 } }
  let d := advanceLinks e0 e (advanceTimers d by_) by_
  let d := leaveHeld e d
  let d := (awakeTiles e).foldl (fun d t => trace e d t (some 7) { TRec.blank 0x0E with gt := tileGt e t }) d
  let d := (d.joints.map Prod.fst).foldl (fun d j => deliverHeld e d j (fun _ => true)) d
  let d := (List.range 8).foldl (d2dResume e up down) d
  let l := d.rxBuf
  let d := l.foldl (fun d f => takeFrame e d f.1 f.2.1 f.2.2) { d with rxBuf := [] }
  let d := goKept e d
  let d := (d.links.map Prod.fst).foldl (fun d r => pump e d r) d
  (switchThrottle e, d)

/-- R418. A GO: ignored while the pin holds the instance, and otherwise at once or at KP_GO_AT. -/
def doGo (e : Env) (d : Dp) (at_ : Bool) : Env × Dp :=
  if !e.stop.stopped then (e, d)
  else if e.stop.pinEn && !e.clk.gstopN.level then (e, configNotice e d 0x50)
  else if at_ && !reached (gtInterp e) e.stop.goAt then ({ e with stop := { e.stop with goPend := true } }, d)
  else goNow e d

/-- Table 13.8. A keeper write of KP_STOP: PINEN and SCAN, then STOP, then GO. -/
def writeStop (e : Env) (d : Dp) (v : Word) : Env × Dp :=
  let e := { e with stop := { e.stop with pinEn := v.getLsbD 3, scan := v.getLsbD 4 } }
  let (e, d) := if v.getLsbD 0 then doStop e d false else (e, d)
  if v.getLsbD 1 then doGo e d (v.getLsbD 2) else (e, d)

/-- R415. GSTOP_N has passed its filter low. -/
def pinStop (e : Env) (d : Dp) : Env × Dp :=
  if !e.clk.gstopFell then (e, d) else doStop { e with clk := { e.clk with gstopFell := false } } d true

/-- R418. GT has reached KP_GO_AT with a timed GO pending. -/
def goReached (e : Env) (d : Dp) : Env × Dp :=
  if e.stop.stopped && e.stop.goPend && reached (gtInterp e) e.stop.goAt then goNow e d else (e, d)

/-! ### Meanings -/

/-- R393. -/
def execReferenceEdge (cycles : Nat) (p : Pins) (s : State) : Host.Outcome State Fault Refusal :=
  let x := refEdge s.env s.dp cycles p
  .next { s with env := x.1, dp := x.2 }

/-- R425. -/
def execClockChange (s : State) : Host.Outcome State Fault Refusal :=
  let x := clockChange s.env s.dp
  .next { s with env := x.1, dp := x.2 }

/-- R432. -/
def execThrottle (level : Bool) (s : State) : Host.Outcome State Fault Refusal :=
  .next { s with env := switchThrottle { s.env with clk := { s.env.clk with throttle := level } } }

/-- R398. -/
def execGtStepApply (s : State) : Host.Outcome State Fault Refusal :=
  let x := gtStep s.env s.dp
  .next { s with env := x.1, dp := x.2 }

/-- R400. -/
def execTpulseInput (s : State) : Host.Outcome State Fault Refusal := .next { s with env := pulseIn s.env }

/-- R400. -/
def execTpulseOutput (s : State) : Host.Outcome State Fault Refusal := .next { s with env := pulseOut s.env }

/-- R288. -/
def execOffsetResult (s : State) : Host.Outcome State Fault Refusal :=
  let x := offsetResult s.env s.dp
  .next { s with env := x.1, dp := x.2 }

/-- R428. -/
def execTileSleep (t : BitVec 5) (s : State) : Host.Outcome State Fault Refusal :=
  let x := sleepTile s.env s.dp t.toNat
  .next { s with env := x.1, dp := x.2 }

/-- R430. -/
def execTileWakeHod (t : BitVec 5) (s : State) : Host.Outcome State Fault Refusal :=
  let x := wakeTile s.env s.dp t.toNat true
  .next { s with env := x.1, dp := x.2 }

/-- R429. -/
def execWakeComparator (t : BitVec 5) (s : State) : Host.Outcome State Fault Refusal :=
  let x := comparator s.env s.dp t.toNat
  .next { s with env := x.1, dp := x.2 }

/-- R415. -/
def execGlobalStopPin (s : State) : Host.Outcome State Fault Refusal :=
  let x := pinStop s.env s.dp
  .next { s with env := x.1, dp := x.2 }

/-- R418. -/
def execGoAtReached (s : State) : Host.Outcome State Fault Refusal :=
  let x := goReached s.env s.dp
  .next { s with env := x.1, dp := x.2 }

end Sys2Proof.Machine
end

