-- ==== Sys2Proof/Machine/Quiet.lean ====
section
/-! DEFINITION. Sys2Proof/Machine/Quiet.lean: QUIET values: when each commits and what its commit changes (R14, R16, R299, R330, R437 to R439, R484, R491, Table 14.3). -/

namespace Sys2Proof.Machine

variable {α : Type}

/-- R13, R438. A write of v to a QUIET field with value cur in force: it becomes the pending value, but for the value in force over a pending one, which ends the wait. -/
def qset [DecidableEq α] (cur : α) (p : Option α) (v : α) : Option α := if p.isSome && decide (v = cur) then none else some v

/-- R49, R63. The instance holds no allocated brick. -/
def noBricks (d : Dp) : Bool := !d.bricks.any (fun b => b.2.valid)

/-! ### Rings (R299, R412) -/

def RingCfg.lo (c : RingCfg) : Word := (c.loP.or c.loS).getD (c.base.setWidth 32)

def RingCfg.hi (c : RingCfg) : Word := (c.hiP.or c.hiS).getD (c.base.extractLsb' 32 32)

def RingCfg.pending (c : RingCfg) : Bool := c.loP.isSome || c.hiP.isSome || c.loS.isSome || c.hiS.isSome || c.sizeP.isSome

/-- R299. The bases written before the SIZE that waits commit together with it; those written since stay pending. -/
def RingCfg.commit (c : RingCfg) : RingCfg :=
  { c with
    base := c.hiS.getD (c.base.extractLsb' 32 32) ++ c.loS.getD (c.base.setWidth 32)
    log2 := c.sizeP.getD c.log2
    loS := none
    hiS := none
    sizeP := none }

/-- R298, R412. LOG2 values outside the range act as 0: the ring is disabled. -/
def enabledState (lo hi : Nat) (c : RingCfg) : RState := if lo ≤ c.log2.toNat ∧ c.log2.toNat ≤ hi then .running else .disabled

/-- R299. A submission ring commits when it is quiescent, once its SIZE has been written. -/
def SubRing.commit (x : SubRing) : SubRing :=
  let quiet := x.state = .disabled || (x.state = .running && x.head = x.tail && x.wait.isNone && x.ahead.isEmpty)
  if x.cfg.sizeP.isSome && quiet then { SubRing.init with cfg := x.cfg.commit, state := enabledState 4 16 x.cfg.commit } else x

/-- R299, R412. A ring that the engine writes commits when it is quiescent; `held` says that an entry is held for it. -/
def OutRing.commit (x : OutRing) (lo hi : Nat) (held : Bool) : OutRing :=
  if x.cfg.sizeP.isSome && (x.state = .disabled || (x.head = x.tail && !held)) then
    { OutRing.init with cfg := x.cfg.commit, state := enabledState lo hi x.cfg.commit }
  else x

/-- R366. A copy waits for the incident ring of partition p. -/
def copiesWait (d : Dp) (p : BitVec 4) : Bool := d.inc.entries.any (fun x => x.2.copies.any (fun c => c.1 == p))

def commitRing (d : Dp) (r : RingId) : Dp := setRing d r (ringOf d r).commit

def commitCmpl (d : Dp) (o : Owner) : Dp := setCmpl d o ((cmplOf d o).commit 4 16 (!(fgetD d.held (ownerKey o) []).isEmpty))

def commitIncRing (d : Dp) (p : BitVec 4) : Dp := setIncRing d p ((incRingOf d p).commit 4 16 (copiesWait d p))

def commitTring (d : Dp) (o : Owner) : Dp := setTring d (ownerKey o) ((tringOf d (ownerKey o)).commit 8 20 false)

/-! ### The other fields of Table 14.3 -/

/-- R484, R64. The backing store's base and size commit together; a base that is not aligned to the size is used with its low bits 0. A store set anew holds the zeros that keeper firmware filled it with: every GEN starts from 0 again (notes/assumptions/5). -/
def commitBacking (e : Env) (d : Dp) : Env × Dp :=
  let k := e.kp
  if !(k.bsLoP.isSome || k.bsHiP.isSome || k.bsSizeP.isSome) || !noBricks d then (e, d)
  else
    let lo : Word := k.bsLoP.getD (k.bsBase.setWidth 32)
    let hi : Word := k.bsHiP.getD (k.bsBase.extractLsb' 32 32)
    let l := k.bsSizeP.getD k.bsLog2
    let n := (hi ++ lo).toNat
    let m := if 21 ≤ l.toNat ∧ l.toNat ≤ 30 then 2 ^ l.toNat else 1
    let d := if n % m = 0 then d else configNotice e d 0x20
    let d := if BitVec.ofNat 64 (n / m * m) = k.bsBase ∧ l = k.bsLog2 then d else { d with bricks := [] }
    ({ e with kp := { k with bsBase := BitVec.ofNat 64 (n / m * m), bsLog2 := l, bsLoP := none, bsHiP := none, bsSizeP := none } }, d)

/-- R330. A written assignment of slot s of joint j commits when the slot holds no entry; where the slot was enabled and changes, its agent departs from its old partition. -/
def commitAgent (d : Dp) (j s : Nat) : Dp :=
  let a := agOf d j
  match fget a.pend s with
  | none => d
  | some (p, en) =>
    if (jointOf d j).entries.any (fun x => x.req.slot.toNat == s) then d
    else
      let old := BitVec.ofNat 4 (bits a.part.toNat (4 * s) 4)
      let p := p.getD old
      let en := en.getD (a.en.getLsbD s)
      let d := if a.en.getLsbD s && (!en || old != p) then markDeparting d (j * 8 + s) else d
      setAg d j { part := BitVec.ofNat 32 (a.part.toNat - bits a.part.toNat (4 * s) 4 * 2 ^ (4 * s) + p.toNat * 2 ^ (4 * s))
                  en := BitVec.ofNat 8 (a.en.toNat - bits a.en.toNat s 1 * 2 ^ s + (if en then 2 ^ s else 0))
                  pend := fdel a.pend s }

/-- R491. TC_MODE of logical tile t commits when the tile is available, idle, without undrained records and not between a trigger and REARM (Table 13.9). -/
def commitMode (e : Env) (d : Dp) (t : Nat) : Dp :=
  let m := modeOf d t
  match m.pend with
  | none => d
  | some v =>
    let x := tileOf d t
    if unavailable e t || !tileIdle e d t || !x.trace.recs.isEmpty || d.obs.triggered || x.test.isSome || e.stop.stopped then d
    else
      let m := { m with mode := v.extractLsb' 0 2, size := v.extractLsb' 2 5, pre := v.extractLsb' 7 3, pend := none }
      setTile { d with obs := { d.obs with modes := fput d.obs.modes t m } } t { x with trace := { x.trace with after_ := none } }

/-- R284. No link has a frame queued or unacknowledged, and none is held at the port. -/
def linksQuiet (d : Dp) : Bool := d.links.all (fun l => l.2.queue.isEmpty && l.2.unacked.isEmpty) && d.port.fabHeld.isEmpty

/-- Words of one sparse table put into another. -/
def overlay (m p : FMap Word) : FMap Word := p.foldl (fun m w => fput m w.1 w.2) m

/-- R285. A lintel record or child entry names route r. -/
def routeNamed (d : Dp) (r : Nat) : Bool :=
  let is := fun (x : BitVec 8) => decide (x.toNat = r)
  d.lintels.any (fun l => (l.2.upv && (is l.2.uproute || (l.2.up2peer ≠ 0 && is l.2.up2route))) || (l.2.twv && is l.2.twroute)
    || l.2.children.any (fun c => c.2.valid && (is c.2.route || (c.2.peer2 ≠ 0 && is c.2.route2))))

/-- R284, Table 9.17. The set-up registers of the links commit together. With ENABLE 0 the timers of the routes in use run; as ENABLE rises, a timer with nothing outstanding stops. A pause that stands is honoured from the commit of PFC 1 on, and no more from that of PFC 0 on (R277). -/
def commitSetup (e : Env) (d : Dp) : Env × Dp :=
  if !linksQuiet d then (e, d)
  else
    let l := e.lf
    let c := l.ctlP.getD (BitVec.ofNat 4 (pack4 l))
    let e2 := { e with lf := { l with
        mode := c.getLsbD 0, preempt := c.getLsbD 1, pfc := c.getLsbD 2, enable := c.getLsbD 3, ctlP := none
        etype := l.etypeP.getD l.etype, etypeP := none, udpPort := l.udpPortP.getD l.udpPort, udpPortP := none
        mtu := l.mtuP.getD l.mtu, mtuP := none, mac := overlay l.mac l.macP, macP := [], src6 := overlay l.src6 l.src6P, src6P := [] } }
    let e2 := if paused e2 && !paused e then { e2 with lf := { e2.lf with pauseAt := gtInterp e } } else e2
    let d := if paused e && !paused e2 then resumeLinks e e2 d else d
    let rested := d.links.map (fun (x : Nat × Link) => (x.1, if x.2.syncing || !x.2.unacked.isEmpty then x.2 else { x.2 with timer := none, retries := 0 }))
    (e2, if l.enable && !e2.lf.enable then ((List.range 255).filter (routeNamed d)).foldl (silentTimer e2) d
         else if !l.enable && e2.lf.enable then { d with links := rested } else d)
where
  /-- The low bits of LF_CTL in force. -/
  pack4 (l : LfRegs) : Nat := (if l.mode then 1 else 0) + (if l.preempt then 2 else 0) + (if l.pfc then 4 else 0) + (if l.enable then 8 else 0)

/-- R285, R479. The pending words of route r commit together. -/
def commitRoute (e : Env) (d : Dp) (r : Nat) : Env :=
  if routeNamed d r then e
  else
    let mine := fun (w : Nat × Word) => w.1 / 8 == r
    { e with lf := { e.lf with routes := overlay e.lf.routes (e.lf.routesP.filter mine), routesP := e.lf.routesP.filter (fun w => !mine w) } }

/-- R371, Table 16.2. A new base of the incident table commits while no table write is in flight, and every open entry is written again. -/
def commitInc (e : Env) (d : Dp) : Env × Dp :=
  match e.kp.incP with
  | none => (e, d)
  | some b =>
    if !d.inc.wrote.isEmpty then (e, d)
    else ({ e with kp := { e.kp with incBase := b, incP := none } },
     { d with inc := { d.inc with entries := d.inc.entries.map (fun (x : Nat × IncEntry) => (x.1, if x.2.isOpen then { x.2 with dirty := true, lastWrite := none } else x.2)) } })

/-- R437, Table 14.3. A pending value commits if its condition holds. -/
def quietCommit (e : Env) (d : Dp) : QuietField → Env × Dp
  | .salt => if e.kp.saltP.isSome && noBricks d then ({ e with kp := { e.kp with salt := e.kp.saltP.getD e.kp.salt, saltP := none } }, d) else (e, d)
  | .backing => commitBacking e d
  | .nodeId =>
    if e.kp.nodeP.isSome && noBricks d && !e.lf.enable then ({ e with kp := { e.kp with node := e.kp.nodeP.getD e.kp.node, nodeP := none } }, d) else (e, d)
  | .incBase => commitInc e d
  | .agent j s => (e, commitAgent d j.toNat s.toNat)
  | .ring r => (e, commitRing d r)
  | .cmpl o => (e, commitCmpl d o)
  | .incRing p => (e, commitIncRing d p)
  | .trace o => (e, commitTring d o)
  | .tcMode t => (e, commitMode e d t.toNat)
  | .lfSetup => commitSetup e d
  | .lfRoute r => if r = 0xFF#8 then (e, d) else (commitRoute e d r.toNat, d)

/-! ### Meaning -/

/-- R437. -/
def execQuietCommit (f : QuietField) (s : State) : Host.Outcome State Fault Refusal :=
  let x := quietCommit s.env s.dp f
  .next { s with env := x.1, dp := x.2 }

end Sys2Proof.Machine
end

