-- ==== Sys2Proof/Machine/Resets.lean ====
section
/-! DEFINITION. Sys2Proof/Machine/Resets.lean: start-up, resets, and power-fail warning (R352, R385, R386, R441 to R445, R455). -/

namespace Sys2Proof.Machine

/-! ### Start-up (R442) -/

/-- KP_CTL.ENABLE: 1 starts the tiles; 0 after 1 is ignored with a notice. -/
def writeEnable (e : Env) (d : Dp) (on : Bool) : Env × Dp :=
  if on && !e.pwr.enable then ({ e with pwr := { e.pwr with enable := true, enabledAt := gtInterp e } }, d)
  else if !on && e.pwr.enable then (e, configNotice e d 0x04)
  else (e, d)

/-- R442. The last group of tiles has been powered, 3.7 µs of GT after ENABLE, and has scrubbed its arrays for 8,192 tile cycles since, whatever their length. -/
def scrubbed (e : Env) : Bool :=
  reached (gtInterp e) (e.pwr.enabledAt + 59200) && decide (8192 ≤ now e - e.pwr.poweredCyc)
  && (List.range 32).all (fun t => unavailable e t || (ptileOf e (physOf e t)).powered)

/-- R442. READY; the tiles' idle time starts. -/
def tilesReady (e : Env) (d : Dp) : Env × Dp :=
  if !e.pwr.enable || e.pwr.ready || e.pwr.pfFrozen || e.stop.stopped || !scrubbed e then (e, d)
  else
    let g := gtInterp e
    ({ e with pwr := { e.pwr with ready := true } },
     (List.range 32).foldl (fun d t => setTile d t { tileOf d t with idleSince := g, idleCyc := now e }) d)

/-! ### Instance warm reset (R352, R445) -/

/-- R445. The descriptor at the head of the keeper ring has not taken effect: it waits for a fetch or a freeze. -/
def keeperInFlight (d : Dp) : Bool :=
  let g := ringOf d .keeper
  g.wait = some .fetch || g.wait = some .freeze

/-- R373, R445. A fetch or a write-back of partition p is held by a fault of the backing store. -/
def storeHeld (d : Dp) (p : BitVec 4) : Bool :=
  d.tiles.any (fun t => t.2.fetches.any (fun f => f.heldAt.isSome && ownIndex d p f.index) || t.2.wbacks.any (fun w => w.2.isSome && ownIndex d p w.1))

/-- R445. A CTX_SAVE that would wait for a held fetch or write-back of its partition, or that a frozen instance cannot end, completes BUSY. -/
def abandonSave (e : Env) (d : Dp) : Dp :=
  let g := ringOf d .keeper
  match g.wait, g.ahead with
  | some .freeze, x :: _ =>
    if d.ctxRun.any (storeHeld d) || e.pwr.pfFrozen then afterDesc e .keeper (completeWith e { setRing d .keeper { g with wait := none } with ctxRun := none } .keeper x .busy) else d
  | _, _ => d

/-- The refusals of joint j that wait for an incident number and hold no entry, in slot order (R495). -/
def waitingRefusals (d : Dp) (j : Nat) : List Await :=
  (List.range 8).flatMap (fun s => (d.inc.waitResp.map Prod.snd).filter (fun a => a.joint == j && a.entry.isNone && a.slot.toNat == s))

/-- R352. A joint after the warm reset: every pending request is answered BAD_HANDLE, a refused one that waits for its incident's number among them; beds and what waited go. -/
def warmJoint (e : Env) (j : Nat) (d : Dp) : Dp :=
  let d := answerMany e d j (jointOf d j).entries (fun _ => Resp.plain .badHandle)
  let d := (waitingRefusals d j).foldl (fun d a => deliver e d j a.slot a.rid (Resp.plain .badHandle)) d
  let y := jointOf d j
  setJoint d j { Joint.init with resp := y.resp, respMore := y.respMore, hints := y.hints, heldHints := y.heldHints, respWait := y.respWait, stallSent := y.stallSent &&& 256#9, reset := y.reset }

/-- R352. A tile after the warm reset: nothing resident, bound or parked; its trace and its test go on. -/
def warmTile (x : Tile) : Tile := { x with slots := [], runs := [], fetches := [], wbacks := [], draining := [], work := [], wakeAt := none }

/-- R352. A partition after the warm reset. -/
def warmPart (x : Part) : Part := { Part.init with qb := x.qb, qg := x.qg, cap := x.cap }

/-- R352, R445. Every brick is freed: VALID is cleared, in the backing store too, and GEN kept; the indices are free in ascending order. -/
def freeAll (e : Env) (d : Dp) : Dp :=
  let l := (d.bricks.filter (fun b => b.2.valid)).map Prod.fst
  let d : Dp := { d with bricks := d.bricks.map (fun (b : Nat × Brick) => (b.1, if b.2.valid then { b.2 with valid := false, lost := none, body := bodyInit b.2.typ } else b.2)), freed := d.freed ++ l }
  l.foldl (fun d i => memWrite d 16 (e.kp.bsBase + BitVec.ofNat 64 (64 * i)) 64 ((brickOf d i).record none)) d

/-- R352, R428. The links of the routes are emptied; their epochs stay. -/
def emptyLinks (e : Env) (d : Dp) : Dp :=
  let d := d.links.foldl (fun d l => if l.2.unacked.isEmpty && l.2.queue.isEmpty then d else stillBusy e d (routeTile l.1)) d
  { d with links := d.links.map (fun (l : Nat × Link) => (l.1, { Link.init with epochTx := l.2.epochTx, epochRx := l.2.epochRx })) }

/-- R352. Links restart with SYNC. -/
def restartLinks (e : Env) (d : Dp) : Dp :=
  ((d.links.map Prod.fst).filter (fun r => r < 255)).foldl (fun d r => if routeValid e r then startSync e d r else d) d

/-- R439. The fields of KP_, PD_ and LF_ whose pending values the reset's own freeing lets commit. -/
def warmFields (d : Dp) : List QuietField :=
  [.salt, .backing, .lfSetup, .nodeId, .incBase, .ring .keeper, .cmpl .keeper]
  ++ (d.ag.flatMap (fun a => a.2.pend.map (fun s => QuietField.agent (BitVec.ofNat 7 a.1) (BitVec.ofNat 3 s.1))))
  ++ (List.range 255).map (fun r => QuietField.lfRoute (BitVec.ofNat 8 r))

/-- R352, R445. The instance warm reset takes effect. -/
def warmReset (e : Env) (d : Dp) : Env × Dp :=
  let d := (d.joints.map Prod.fst).foldl (fun d j => warmJoint e j d) d
  let d := freeAll e d
  let keep := fun (w : Nat × RingId × Compl) => decide (w.2.1 = .keeper)
  let kept := (d.inc.waitCompl.filter keep).map Prod.fst
  let inc := { d.inc with waitCompl := d.inc.waitCompl.filter keep, waitHods := [], waitResp := [], waits := d.inc.waits.filter (fun w => kept.contains w.2.2) }
  let own := fun (k : Nat) => decide (k = 16)
  let d : Dp := { d with
    net := [], comb := [], stripes := [], ringEnds := [], lintels := [], mirCopies := [], mirUpds := [], backoffs := [], inbound := [], rxBuf := [], ctxRun := none,
    tiles := d.tiles.map (fun (t : Nat × Tile) => (t.1, warmTile t.2)),
    rings := d.rings.filter (fun r => r.1 == 128), cmpl := d.cmpl.filter (fun r => own r.1), held := d.held.filter (fun r => own r.1),
    incRings := [], trings := d.trings.filter (fun r => own r.1), parts := d.parts.map (fun (p : Nat × Part) => (p.1, warmPart p.2)),
    inc := inc, obs := { d.obs with pctr := [], shadow := [] }, port := { d.port with latches := [], fabHeld := [] } }
  let e := { e with pwr := { e.pwr with warmBusy := false, pfFrozen := false } }
  let r := (warmFields d).foldl (fun (x : Env × Dp) f => quietCommit x.1 x.2 f) (e, emptyLinks e d)
  (r.1, restartLinks r.1 r.2)

/-- R445. A running warm reset takes effect once nothing of the keeper ring is in flight; a stop of the tile clock holds it. -/
def warmTick (e : Env) (d : Dp) : Env × Dp :=
  if !e.pwr.warmBusy || e.stop.stopped then (e, d)
  else
    let d := abandonSave e d
    if keeperInFlight d && !e.pwr.pfFrozen then (e, d) else warmReset e d

/-- Table 14.6. A keeper write of KP_CTL: ENABLE, then WARM. -/
def writeCtl (e : Env) (d : Dp) (v : Word) : Env × Dp :=
  let (e, d) := writeEnable e d (v.getLsbD 0)
  if v.getLsbD 1 && !e.pwr.warmBusy then warmTick { e with pwr := { e.pwr with warmBusy := true } } d else (e, d)

/-! ### Power-fail warning (R385, R386) -/

/-- R385, step 2. Hod n of the net is taken by its unit. -/
def takeAny (e : Env) (d : Dp) (n : Nat) : Dp :=
  match d.net[n]? with
  | none => d
  | some h =>
    if h.back then resend e d n
    else
    match h.body, h.dst with
    | .arrival _, .router _ => routerHod e d n
    | .shrink _ _ _ _ _ _ _, .router _ => routerHod e d n
    | .arrival _, _ => tileHod e d n isArrival
    | .shrink _ _ _ _ _ _ _, _ => tileHod e d n isShrink
    | .fwdWait _ _ _ _, _ => tileHod e d n isFwdWait
    | .unwatch _ _, _ => tileHod e d n isUnwatch
    | .depart _, _ => tileHod e d n isDepart
    | .palSweep _ _ _, _ => tileHod e d n isPalSweep
    | .fwdPut _ _ _, _ => tileHod e d n isFwdPut
    | .release _, _ => releaseAtJoint e d n
    | .watcher _, _ => watcherAtJoint e d n
    | .sweep _ _, _ => takeSweepHod e d n
    | .sweepAns i _ _ _, _ => barrierSweep e d i
    | .resp _ _, _ => responseHod e d n
    | .evtRelease _ _ _ _ _, _ => responseHod e d n
    | .hint _, _ => responseHod e d n
    | .nudge _ _, _ => takeNudge e d n
    | .mirUpd _ _, _ => mirrorTake e d n
    | .mirAck _ _, _ => mirrorAcked e d n
    | .bounce _, _ => takeBounce e d n
    | .req _ _ _, _ => takeReq e d n

/-- R430. The tiles that hods of the net are for wake. -/
def wakeAll (e : Env) (d : Dp) : Env × Dp :=
  (List.range 32).foldl (fun x t => if x.2.net.any (fun h => h.dst == .tile t) then wakeTile x.1 x.2 t true else x) (e, d)

/-- The lintel records that have come in are taken by their bricks' tiles, or go to the backlog, and the incident unit takes the reports. -/
def drainOther (e : Env) (d : Dp) : Dp :=
  let d := (List.range d.inbound.length).foldr (fun n d => match inboundAt e d n with
    | some h =>
      if h.rec_.kind = 10#8 then takeIncidentHod e d n
      else if h.waits e d then backlogRow e d n none
      else lintelRow e d n h.rec_.kind
    | none => d) d
  let d := (List.range d.inc.returns.length).foldr (fun n d => numberReturns e d n) d
  (List.range d.inc.reports.length).foldr (fun n d => takeReport e { d with inc := { d.inc with taken := false } } n) d

/-- One round over the hods that are in the net now, in sending order, which 64 tile cycles allow for. -/
def drainRound (e : Env) (d : Dp) : Env × Dp :=
  let x := wakeAll e d
  let d := (x.2.net.map Hod.seq).foldl (fun d q => match d.net.findIdx? (fun h => h.seq == q) with
    | some n => takeAny x.1 d n
    | none => d) x.2
  ({ x.1 with clk := { x.1.clk with edgeCyc := x.1.clk.edgeCyc + 64 } }, drainOther x.1 d)

/-- Nothing of the net has moved, and no hod waits for a later cycle. -/
def drainEnds (e : Env) (d d' : Dp) : Bool :=
  d'.net.map Hod.seq == d.net.map Hod.seq && d'.inbound == d.inbound && d'.inc.reports.length == d.inc.reports.length
    && d'.inc.returns.length == d.inc.returns.length && !d'.net.any (fun h => decide (now e < h.ready))

/-- R385, step 2. Rounds until the net changes no more; n bounds them. -/
def drainNet : Nat → Env × Dp → Env × Dp
  | 0, x => x
  | n + 1, x =>
    let y := drainRound x.1 x.2
    if drainEnds x.1 x.2 y.2 then y else drainNet n y

/-- R385, steps 1 and 2. The net empties, in at most 8,000 tile cycles; no frame is queued meanwhile. -/
def drain (e : Env) (d : Dp) : Env × Dp :=
  let x := drainNet 125 ({ e with pwr := { e.pwr with pfDrain := true } }, d)
  ({ e with pwr := { x.1.pwr with pfDrain := false } }, x.2)

/-- R386. The records of the image: brick and stripe records resident on tiles that serve, tile by tile in slot order, with their indices. -/
def imageRecords (e : Env) (d : Dp) : List (Nat × Nat) :=
  (List.range 32).flatMap (fun t =>
    if unavailable e t || (tileOf d t).test.isSome then []
    else (tileOf d t).slots.filterMap (fun r => match r.1 with
      | .brick i => let b := brickOf d i; if b.valid && b.lost.isNone then some (i, b.record (stripeOf d i 0)) else none
      | .stripe i k => let b := brickOf d i; if b.valid && b.lost.isNone && decide (k ≠ 0) then some (i, b.record (stripeOf d i k)) else none
      | .lintel _ => none
      | .mirror _ _ => none))

/-- R386. The brick image: records, indices and, last, the header. -/
def writeImage (e : Env) (d : Dp) (number : Word) : Dp :=
  let base := e.pwr.pfBase
  let l := imageRecords e d
  let n := l.length
  let d := l.zipIdx.foldl (fun d r => memWrite d 16 (base + BitVec.ofNat 64 (ceilDiv (64 + 4 * n) 64 * 64 + 64 * r.2)) 64 r.1.2) d
  let d := if l.isEmpty then d else memWrite d 16 (base + 64) (4 * n) (leWords 32 (l.map Prod.fst))
  memWrite d 16 base 64 (pack [(0, 32, 0x49475046), (32, 32, Config.kpId.toNat), (64, 16, e.kp.node.toNat), (80, 8, e.cfg.die.toNat), (96, 32, n),
    (128, 64, e.pwr.gtWarn.toNat), (192, 64, e.pwr.gtFrozen.toNat), (256, 32, number.toNat), (480, 32, 1)])

/-- R385. The POWER report: the last-course record. -/
def powerReport (e : Env) (last : Option (Dword × Word)) : Report :=
  let l := if e.pwr.ready then last else none
  { mkReport e (mkKey e 10 1 .power) none with
    d0 := (l.map Prod.fst).getD 0, d1 := e.pwr.gtFrozen, d2 := (l.map Prod.snd).getD 0, gtFirst := e.pwr.gtWarn }

/-- R385, R474. PWRWARN_N has passed its filter. A stop of GSTOP_N in the same period is applied first, and then no hod is taken (R422). -/
def powerFail (e : Env) (d : Dp) : Env × Dp :=
  if !e.clk.pwrFell then (e, d)
  else
    let (e, d) := pinStop e d
    let (e, d) := if e.stop.stopped || !e.pwr.ready then (e, d) else drain e d
    let e := { e with clk := { e.clk with pwrFell := false }, pwr := { e.pwr with pfFrozen := true, warmBusy := false, gtFrozen := gtInterp e } }
    let r := powerReport e d.lastCourse
    let d := enterReport e d none r .fatal
    let number := ((d.inc.entries.find? (fun x => x.2.isOpen && decide (x.2.rep.key = r.key))).map (fun x => x.2.number)).getD 0
    if e.pwr.pfImage && e.pwr.pfBase ≠ 0 && e.pwr.ready then (e, writeImage e d number) else (e, d)

/-! ### Agent reset (R455) -/

/-- R455. The level of J_AGRST of slot s of joint j: high, the slot's entries and responses go and the agent departs; low, the slot takes requests again. -/
def agentReset (e : Env) (d : Dp) (j s : Nat) (level : Bool) : Dp :=
  let y := jointOf d j
  if !level then setJoint d j { y with reset := y.reset &&& ~~~ BitVec.ofNat 8 (2 ^ s) }
  else if y.reset.getLsbD s then d
  else
    let gone := ((y.resp ++ y.respMore).filter (fun b => b.slot.toNat == s && b.last)).length
    let stays := fun (l : List RBeat) => l.filter (fun b => b.slot.toNat != s)
    let z := ({ y with reset := y.reset ||| BitVec.ofNat 8 (2 ^ s), resp := stays y.resp, respMore := stays y.respMore } : Joint).fill
    let d := setJoint d j { z with respWait := if z.resp.isEmpty then none else z.respWait }
    let mine := fun (a : Nat × Await) => a.2.joint == j && a.2.slot.toNat == s && a.2.entry.isNone
    let gone := gone + (d.inc.waitResp.filter mine).length
    let d := { d with inc := { d.inc with waitResp := d.inc.waitResp.filter (fun a => !mine a) } }
    markDeparting (dropEntries e (bumpK e d 2 j 4 gone) j s) (j * 8 + s)

/-! ### Meanings -/

/-- R442. -/
def execTilesReady (s : State) : Host.Outcome State Fault Refusal :=
  let x := tilesReady s.env s.dp
  .next { s with env := x.1, dp := x.2 }

/-- R441. Every register and store is in the cold-reset state; what the integrator fixed, and the commands that wait, stay. -/
def execColdReset (s : State) : Host.Outcome State Fault Refusal :=
  .next { env := Env.reset s.env.cfg, dp := Dp.reset, pending := s.pending }

/-- R455. -/
def execAgentReset (j : BitVec 7) (slot : BitVec 3) (level : Bool) (s : State) : Host.Outcome State Fault Refusal :=
  .next { s with dp := agentReset s.env s.dp j.toNat slot.toNat level }

/-- R385. -/
def execPowerFailWarning (s : State) : Host.Outcome State Fault Refusal :=
  let x := powerFail s.env s.dp
  .next { s with env := x.1, dp := x.2 }

end Sys2Proof.Machine
end

