-- ==== Sys2Proof/Machine/Regs.lean ====
section
/-! DEFINITION. Sys2Proof/Machine/Regs.lean: the register port: who reaches what, and the effect of every read and write (R8 to R16, R327, R328, R435, R440, R464, R476 to R493). -/

namespace Sys2Proof.Machine

/-! ### Where an offset lies (Table 16.1) -/

/-- Table 16.1. The block of a byte offset, with the offset inside it. -/
inductive Loc
  | kp (o : Nat)
  | pd (o : Nat)
  | pw (p : BitVec 4) (o : Nat)
  | tl (q o : Nat)
  | tc (o : Nat)
  | lf (o : Nat)
  | empty
  deriving DecidableEq, Repr

/-- Table 16.1. -/
def locate (off : Nat) : Loc :=
  if off < 0x10000 then .kp off
  else if off < 0x20000 then .pd (off - 0x10000)
  else if off < 0x100000 then .empty
  else if off < 0x200000 then .pw (BitVec.ofNat 4 (off / 0x10000 - 16)) (off % 0x10000)
  else if off < 0x290000 then .tl ((off - 0x200000) / 0x4000) (off % 0x4000)
  else if off < 0x300000 then .empty
  else if off < 0x310000 then .tc (off - 0x300000)
  else if off < 0x320000 then .lf (off - 0x310000)
  else .empty

/-- Table 16.5, R485. The partition whose own register stands at an offset of the partition directory. -/
def pdOwner (o : Nat) : Option Nat := if o < 0x140 then some (o % 0x40 / 4) else none

/-- R9, R464. An actor's access is inside a block or window that it does not own. -/
def foreign (a : Actor) (l : Loc) : Bool :=
  !a.keeper && (match l with
    | .kp _ | .pd _ | .tl _ _ | .tc _ | .lf _ => true
    | .pw p _ => p != a.pid
    | .empty => false)

/-! ### Notices and refusals -/

/-- A CONFIG NOTICE of partition p about a register of its window (R464). -/
def windowNotice (e : Env) (d : Dp) (p : BitVec 4) (off : Nat) : Dp :=
  report e d .regPort { mkReport e (mkKey e 9 p.toNat .config) (some p) with d0 := BitVec.ofNat 64 off }

/-- A CONFIG NOTICE of ring n of an owner about its SIZE register (Table 10.8). -/
def ringNotice (e : Env) (d : Dp) (o : Owner) (n off : Nat) : Dp :=
  report e d .regPort { mkReport e (mkKey e 6 (ringSrc o n) .config) (ownerPart o) with d0 := BitVec.ofNat 64 off }

/-- R9. A partition's write that is refused: discarded, with an ACCESS incident. -/
def registerAccess (e : Env) (d : Dp) (p : BitVec 4) (off : Nat) : Dp :=
  report e d .regPort (accessReport e 9 p.toNat (some p) (BitVec.ofNat 64 off) p)

/-! ### Accesses that travel to a tile (R36, R440, R490, R493) -/

/-- The ports that an access passes from the register port to tile t. -/
def accessTo (e : Env) (t : Nat) : List Nat := routePorts (portNumber e (.tile t)) (route (e.cfg.keeperPort / 8) (tileRouter e t))

/-- The ports that its answer passes. -/
def accessBack (e : Env) (t : Nat) : List Nat := routePorts (portNumber e .keeper) (route (e.cfg.keeperPort / 8) (tileRouter e t)).reverse

/-- R31, R36, R430. The access is a MGMT hod to tile t; a sleeping tile wakes. False where a flit error discards the hod: the access is not made then. -/
def visit (e : Env) (d : Dp) (t : Nat) : Env × Dp × Bool :=
  let (d, there) := crossing e (countPorts e .mgmt 1 2 (accessTo e t) d) .mgmt (accessTo e t)
  if !there then (e, d, false)
  else
    let (e, d) := wakeTile e d t true
    (e, tookHod e d t .mgmt, true)

/-- R31, R36. The answer to an access goes back to the register port; false where a flit error discards it. -/
def answered (e : Env) (d : Dp) (t : Nat) : Dp × Bool := crossing e (countPorts e .mgmt 1 2 (accessBack e t) d) .mgmt (accessBack e t)

/-- R31 (log 60). What a read gives whose hod or answer is lost: no rule says it. -/
def lostRead (d : Dp) : Word × Dp := let (k, d) := nextFree d; ((Config.freeDword k).setWidth 32, d)

/-- R440. Logical tile t can be reached. -/
def reaches (e : Env) (t : Nat) : Bool := e.pwr.ready && !e.stop.stopped && !unavailable e t && (ptileOf e (physOf e t)).powered

/-- R493. The logical tile that serves an access of the TC_ block. -/
def tcTile (o : Nat) : Nat := if 0x100 ≤ o ∧ o < 0x180 then (o - 0x100) / 4 else 16

/-! ### Rings (R298 to R300, R478) -/

/-- Table 10.1, R299, R438. A write of register k of a ring group to the ring's QUIET values: BASE_LO, BASE_HI or SIZE. A SIZE write takes every base written before it along; a base written later waits for the next SIZE write. -/
def RingCfg.write (c : RingCfg) (k : Nat) (v : Word) : RingCfg :=
  if k = 0 then { c with loP := qset (c.loS.getD (c.base.setWidth 32)) c.loP (v &&& 0xFFFFF000#32) }
  else if k = 4 then { c with hiP := qset (c.hiS.getD (c.base.extractLsb' 32 32)) c.hiP v }
  else if k = 8 then
    let c := { c with loS := c.loP.or c.loS, hiS := c.hiP.or c.hiS, loP := none, hiP := none }
    { c with sizeP := if c.loS.isSome || c.hiS.isSome then some (v.setWidth 5) else qset c.log2 c.sizeP (v.setWidth 5) }
  else c

/-- A LOG2 outside 0 and its range acts as 0, with a notice (Tables 10.8, 13.10). -/
def sizeNotice (e : Env) (d : Dp) (o : Owner) (n off k lo hi : Nat) (v : Word) : Dp :=
  let l := bits v.toNat 0 5
  if k = 8 ∧ l ≠ 0 ∧ (l < lo ∨ hi < l) then ringNotice e d o n off else d

/-- R299. A SIZE write of a disabled ring commits at once. -/
def writeRing (e : Env) (d : Dp) (r : RingId) (off k : Nat) (v : Word) : Dp :=
  let d := sizeNotice e d (ringOwner r) (ringNo r) off k 4 16 v
  let x := ringOf d r
  let d := setRing d r { x with cfg := x.cfg.write k v }
  if x.state = .disabled then commitRing d r else d

def writeCmpl (e : Env) (d : Dp) (o : Owner) (off k : Nat) (v : Word) : Dp :=
  let d := sizeNotice e d o 8 off k 4 16 v
  let x := cmplOf d o
  let d := setCmpl d o { x with cfg := x.cfg.write k v }
  if x.state = .disabled then commitCmpl d o else d

def writeIncRing (e : Env) (d : Dp) (p : BitVec 4) (off k : Nat) (v : Word) : Dp :=
  let d := sizeNotice e d (.part p) 9 off k 4 16 v
  let x := incRingOf d p
  let d := setIncRing d p { x with cfg := x.cfg.write k v }
  if x.state = .disabled then commitIncRing d p else d

/-- Table 13.6. The HEAD of a trace ring is written by its owner. -/
def writeTring (e : Env) (d : Dp) (o : Owner) (off k : Nat) (v : Word) : Dp :=
  let d := sizeNotice e d o 10 off k 8 20 v
  let x := tringOf d (ownerKey o)
  let d := setTring d (ownerKey o) { x with cfg := x.cfg.write k v, head := if k = 0x10 then v else x.head }
  if x.state = .disabled then commitTring d o else d

def RState.code : RState → Nat
  | .disabled => 0 | .running => 1 | .stopped => 2

def boolBit (b : Bool) (n : Nat) : Nat := if b then 2 ^ n else 0

/-- Table 10.1. A register of a ring group, read; a QUIET value reads as written. -/
def ringRead (c : RingCfg) (k : Nat) (tail head : Word) (st : RState) (fwait : Bool) (index : BitVec 16) : Word :=
  if k = 0 then c.lo
  else if k = 4 then c.hi
  else if k = 8 then BitVec.ofNat 32 ((c.sizeP.getD c.log2).toNat + boolBit c.pending 31)
  else if k = 12 then tail
  else if k = 16 then head
  else if k = 20 then BitVec.ofNat 32 (st.code + boolBit fwait 2 + index.toNat * 16)
  else 0

def SubRing.reg (x : SubRing) (k : Nat) : Word := ringRead x.cfg k x.tail x.head x.state x.fwait x.index

def OutRing.reg (x : OutRing) (k : Nat) : Word := ringRead x.cfg k x.tail x.head x.state false x.index

/-! ### Doorbells (R301 to R304) -/

/-- R301. A write of PW_DB_LO or KP_DB_LO. -/
def latchDb (d : Dp) (o : Owner) (v : Word) : Dp :=
  match o with
  | .part p => setPart d p { partOf d p with dbLo := v }
  | .keeper => { d with kdbLo := v }

/-- R301 to R304. A write of PW_DB_HI or KP_DB_HI: RING and RESUME. -/
def doorbell (e : Env) (d : Dp) (o : Owner) (v : Word) : Dp :=
  let n := bits v.toNat 0 4
  let resume := v.getLsbD 4
  match o with
  | .part p =>
    if n < 8 then ringSubmit e d (.part p (BitVec.ofNat 3 n)) resume
    else if n = 8 then consumed e d o 8 (cmplOf d o) (fun d x => setCmpl d o x) resume
    else if n = 9 then consumed e d o 9 (incRingOf d p) (fun d x => setIncRing d p x) resume
    else doorbellNotice e d o n
  | .keeper =>
    if n = 0 then ringSubmit e d .keeper resume
    else if n = 8 then consumed e d o 8 (cmplOf d o) (fun d x => setCmpl d o x) resume
    else doorbellNotice e d o n

/-! ### Writes of the keeper block (Table 16.3) -/

/-- Registers of the keeper block that no write changes. -/
def kpReadOnly (o : Nat) : Bool :=
  o == 0x00 || o == 0x08 || o == 0x10 || o == 0x14 || o == 0x30 || o == 0x34 || o == 0x40 || o == 0x48 || o == 0x4C
  || (decide (0x60 ≤ o) && decide (o < 0x70)) || (decide (0x90 ≤ o) && decide (o < 0xA0))
  || (decide (0x100 ≤ o) && decide (o < 0x124)) || (decide (0x200 ≤ o) && decide (o < 0x2AC))

/-- R398. A signed 64-bit number. -/
def signed64 (x : Dword) : Int := x.toInt

/-- A keeper write to the keeper block. -/
def writeKp (e : Env) (d : Dp) (o : Nat) (v : Word) : Env × Dp :=
  let n := v.toNat
  let k := e.kp
  if kpReadOnly o then (e, d)
  else if 0x400 ≤ o ∧ o < 0x418 then (e, writeRing e d .keeper o (o - 0x400) v)
  else if 0x420 ≤ o ∧ o < 0x438 then (e, writeCmpl e d .keeper o (o - 0x420) v)
  else match o with
  | 0x04 => writeCtl e d v
  | 0x0C => ({ e with pwr := { e.pwr with idle := v.setWidth 8 } }, d)
  | 0x18 => ({ e with kp := { k with saltP := qset k.salt k.saltP (v.setWidth 5) } }, d)
  | 0x1C => ({ e with kp := { k with radius := v.setWidth 3, thresh := v.extractLsb' 8 6 } }, d)
  | 0x20 => ({ e with kp := { k with bsLoP := qset (k.bsBase.setWidth 32) k.bsLoP (v &&& 0xFFE00000#32) } }, d)
  | 0x24 => ({ e with kp := { k with bsHiP := qset (k.bsBase.extractLsb' 32 32) k.bsHiP v } }, d)
  | 0x28 =>
    let l := bits n 0 5
    ({ e with kp := { k with bsSizeP := qset k.bsLog2 k.bsSizeP (v.setWidth 5) } }, if l = 0 ∨ (21 ≤ l ∧ l ≤ 30) then d else configNotice e d 0x28)
  | 0x2C => ({ e with kp := { k with nodeP := qset k.node k.nodeP (v.setWidth 16) } }, d)
  | 0x38 => ({ e with clk := { e.clk with stepLo := v } }, d)
  | 0x3C => ({ e with clk := { e.clk with stepReq := some (e.clk.stepReq.getD 0 + signed64 (v ++ e.clk.stepLo)) } }, d)
  | 0x44 =>
    ({ e with clk := { e.clk with tpDir := v.setWidth 2, tpRate := v.getLsbD 2, tpCapv := e.clk.tpCapv && !v.getLsbD 3, tpFall := if bits n 0 2 = 1 then e.clk.tpFall else none } },
     if bits n 0 2 = 3 then configNotice e d 0x44 else d)
  | 0x50 => writeStop e d v
  | 0x58 => ({ e with stop := { e.stop with goAtLo := v } }, d)
  | 0x5C => ({ e with stop := { e.stop with goAt := v ++ e.stop.goAtLo } }, d)
  | 0x80 => ({ e with kp := { k with incLo := v &&& 0xFFFF8000#32 } }, d)
  | 0x84 => commitInc { e with kp := { k with incP := some (v ++ k.incLo) } } { d with inc := { d.inc with fault := false } }
  | 0x88 => ({ e with kp := { k with hold := v.setWidth 8, fwdIrq := v.getLsbD 8 } }, d)
  | 0x8C => (e, keeperClose e d v)
  | 0xA0 => ({ e with pwr := { e.pwr with pfImage := v.getLsbD 0 } }, d)
  | 0xA8 => ({ e with pwr := { e.pwr with pfLo := v &&& 0xFFFFF000#32 } }, d)
  | 0xAC => ({ e with pwr := { e.pwr with pfBase := v ++ e.pwr.pfLo } }, d)
  | 0xC0 => ({ e with rep := { e.rep with auto := v.getLsbD 0, rowAuto := v.getLsbD 1 } }, if v.getLsbD 2 then remeasure d else d)
  | 0xC4 => rowfix e d v
  | 0x124 => ({ e with rep := { e.rep with lanes := v } }, d)
  | 0x440 => (e, latchDb d .keeper v)
  | 0x444 => (e, doorbell e d .keeper v)
  | _ => (e, configNotice e d o)

/-! ### Writes of the partition directory and windows (Tables 16.5, 16.7) -/

/-- R77, R108. Every admission copy of partition p is renewed. -/
def renewMasks (d : Dp) (p : BitVec 4) : Dp :=
  { d with joints := d.joints.map (fun (j : Nat × Joint) => (j.1, { j.2 with beds := j.2.beds.map (fun (b : Bed) =>
      if b.part = p then renewBed d b else b) })) }

/-- The partition and the enable bit in force for slot s. -/
def slotForce (a : AgReg) (s : Nat) : BitVec 4 × Bool := (BitVec.ofNat 4 (bits a.part.toNat (4 * s) 4), a.en.getLsbD s)

/-- What waits for slot s: PART_s and EN bit s are two QUIET fields, each with a pending value of its own. -/
def slotPend (a : AgReg) (s : Nat) : Option (BitVec 4) × Option Bool := fgetD a.pend s (none, none)

def setPend (a : AgReg) (s : Nat) (x : Option (BitVec 4) × Option Bool) : AgReg :=
  { a with pend := if x.1.isSome || x.2.isSome then fput a.pend s x else fdel a.pend s }

/-- R16, R330, R438. A written PART_s waits, or ends the wait of one. -/
def pendPart (a : AgReg) (s : Nat) (p : BitVec 4) : AgReg := setPend a s (qset (slotForce a s).1 (slotPend a s).1 p, (slotPend a s).2)

/-- R16, R330, R438. A written EN bit s waits, or ends the wait of one. -/
def pendEn (a : AgReg) (s : Nat) (en : Bool) : AgReg := setPend a s ((slotPend a s).1, qset (slotForce a s).2 (slotPend a s).2 en)

/-- The assignment of slot s as it reads: what is written. -/
def slotValue (a : AgReg) (s : Nat) : BitVec 4 × Bool := ((slotPend a s).1.getD (slotForce a s).1, (slotPend a s).2.getD (slotForce a s).2)

/-- Table 11.2. A write of PD_AGPART[j]. -/
def writeAgPart (d : Dp) (j : Nat) (v : Word) : Dp :=
  setAg d j ((List.range 8).foldl (fun a s => pendPart a s (BitVec.ofNat 4 (bits v.toNat (4 * s) 4))) (agOf d j))

/-- Table 11.2. A write of PD_AGEN[j]. -/
def writeAgEn (d : Dp) (j : Nat) (v : Word) : Dp :=
  setAg d j ((List.range 8).foldl (fun a s => pendEn a s (v.getLsbD s)) (agOf d j))

/-- A keeper write to the partition directory. -/
def writePd (e : Env) (d : Dp) (o : Nat) (v : Word) : Dp :=
  let p := BitVec.ofNat 4 (o % 0x40 / 4)
  let x := partOf d p
  if o < 0x40 then setPart d p { x with qb := bits v.toNat 0 25 }
  else if o < 0x80 then setPart d p { x with qg := bits v.toNat 0 18 }
  else if o < 0xC0 then renewMasks (setPart d p { x with cap := v.setWidth 5 }) p
  else if o < 0x100 then (if v.getLsbD 8 then requestReset e d p else d)
  else if o < 0x140 then d
  else if 0x200 ≤ o ∧ o < 0x400 then writeAgPart d ((o - 0x200) / 4) v
  else if 0x400 ≤ o ∧ o < 0x600 then writeAgEn d ((o - 0x400) / 4) v
  else if o = 0x600 ∨ o = 0x604 then d
  else configNotice e d (0x10000 + o)

/-- The base of partition window p. -/
def windowBase (p : BitVec 4) : Nat := 0x100000 + p.toNat * 0x10000

/-- A write by the owner, or by keeper firmware, to partition window p. -/
def writePw (e : Env) (d : Dp) (p : BitVec 4) (o : Nat) (v : Word) : Dp :=
  let off := windowBase p + o
  if o < 0x160 ∧ 0x18 ≤ o % 0x20 then windowNotice e d p off
  else if o < 0x100 then writeRing e d (.part p (BitVec.ofNat 3 (o / 0x20))) off (o % 0x20) v
  else if o < 0x120 then writeCmpl e d (.part p) off (o - 0x100) v
  else if o < 0x140 then writeIncRing e d p off (o - 0x120) v
  else if o < 0x160 then writeTring e d (.part p) off (o - 0x140) v
  else if o = 0x180 then latchDb d (.part p) v
  else if o = 0x184 then doorbell e d (.part p) v
  else if 0x190 ≤ o ∧ o < 0x1A0 then d
  else if o = 0x1A0 then writeObsctl d p v
  else if 0x200 ≤ o ∧ o < 0x280 then d
  else if 0x400 ≤ o ∧ o < 0x800 then
    let x := partOf d p
    renewMasks (setPart d p { x with gmask := fput x.gmask ((o - 0x400) / 4) (v.setWidth 5) }) p
  else windowNotice e d p off

/-! ### Writes of the trace and counter block (Table 16.11) -/

/-- Table 13.6. A write of TC_MODE[t]: MODE, SIZE and PRE wait, DRAIN and KINDS act at once. -/
def writeMode (e : Env) (d : Dp) (t : Nat) (v : Word) : Dp :=
  let m := modeOf d t
  let m := { m with drain := v.getLsbD 10, kinds := v.extractLsb' 11 8, pend := qset (m.pre ++ m.size ++ m.mode) m.pend (v.setWidth 10) }
  let d := { d with obs := { d.obs with modes := fput d.obs.modes t m } }
  if bits v.toNat 0 2 = 3 then configNotice e d (0x300100 + 4 * t) else d

/-- A keeper write to the trace and counter block, at its tile. -/
def writeTc (e : Env) (d : Dp) (o : Nat) (v : Word) : Dp :=
  let x := d.obs
  if 0x40 ≤ o ∧ o < 0x58 then writeTring e d .keeper (0x300000 + o) (o - 0x40) v
  else if 0x100 ≤ o ∧ o < 0x180 then writeMode e d ((o - 0x100) / 4) v
  else match o with
  | 0x00 => writeTcCtl e d v
  | 0x04 => { d with obs := { x with incCls := v.setWidth 3, onStop := v.getLsbD 3, onAt := v.getLsbD 4, onTag := v.getLsbD 5, frzTrace := v.getLsbD 6, frzCtr := v.getLsbD 7 } }
  | 0x08 => { d with obs := { x with trigAtLo := v } }
  | 0x0C => { d with obs := { x with trigAt := v ++ x.trigAtLo } }
  | 0x18 => { d with obs := { x with tagVal := v } }
  | 0x1C => { d with obs := { x with tagMask := v } }
  | 0x20 => { d with obs := { x with pfilt := v.setWidth 16 } }
  | 0x24 =>
    let d := (tiles e).foldl (fun d t => fillBucket e d t) d
    let d := if budgetOf d != 0 && bits v.toNat 0 4 == 0 then
        (tiles e).foldl (fun d t => if (tileOf d t).trace.recs.isEmpty || !drains d t then d else stillBusy e d t) d
      else d
    let d := { d with obs := { d.obs with budget := v.setWidth 4 } }
    if 13 ≤ bits v.toNat 0 4 then configNotice e d 0x300024 else d
  | 0x28 => { d with obs := { x with markLo := v } }
  | 0x2C => writeMark e d v
  | 0x30 => writeCsel d v
  | 0x10 | 0x14 | 0x34 | 0x38 => d
  | _ => configNotice e d (0x300000 + o)

/-! ### Writes of the lintel and fabric block (Table 16.12) -/

/-- R13, R438. A word of a register set whose words wait together. -/
def qword (cur pend : FMap Word) (k : Nat) (v : Word) : FMap Word :=
  match qset (fgetD cur k 0) (fget pend k) v with
  | some w => fput pend k w
  | none => fdel pend k

/-- Table 9.11. The bits of a route word that are no reserved ones. -/
def routeMask (w : Nat) : Word := if w = 0 then 0x1FFFFF#32 else if w = 1 then 0x0FFFFFFF#32 else if w = 3 then 0xFFFF#32 else 0xFFFFFFFF#32

/-- R286, R479. A write of word w of key entry k; word 7 or 11 replaces the slot key. -/
def writeKey (l : LfRegs) (k w : Nat) (v : Word) : LfRegs :=
  let at_ := fun (w : Nat) => fgetD l.keyLatch (k * 16 + w) 0
  if w = 0 then { l with keyWords := fput l.keyWords (k * 16) v }
  else if w = 1 then { l with keyWords := fput l.keyWords (k * 16 + 1) (v &&& 0xF#32) }
  else if w = 7 then { l with keys := fput l.keys (k * 2) (at_ 4 ++ at_ 5 ++ at_ 6 ++ v) }
  else if w = 11 then { l with keys := fput l.keys (k * 2 + 1) (at_ 8 ++ at_ 9 ++ at_ 10 ++ v) }
  else if 4 ≤ w ∧ w < 11 then { l with keyLatch := fput l.keyLatch (k * 16 + w) v }
  else l

/-- The bits of LF_CTL in force. -/
def ctlBits (l : LfRegs) : BitVec 4 := BitVec.ofNat 4 (boolBit l.mode 0 + boolBit l.preempt 1 + boolBit l.pfc 2 + boolBit l.enable 3)

/-- A keeper write to the lintel and fabric block, at logical tile 0. -/
def writeLf (e : Env) (d : Dp) (o : Nat) (v : Word) : Env × Dp :=
  let l := e.lf
  let n := v.toNat
  let put := fun (l : LfRegs) => ({ e with lf := l }, d)
  let noticed := fun (l : LfRegs) (c : Bool) => ({ e with lf := l }, if c then configNotice e d (0x310000 + o) else d)
  if 0x1000 ≤ o ∧ o < 0x2FE0 then
    let k := (o - 0x1000) / 4
    put { l with routesP := qword l.routes l.routesP k (v &&& routeMask (k % 8)) }
  else if 0x4000 ≤ o ∧ o < 0x4800 then put (writeKey l ((o - 0x4000) / 64) (o % 64 / 4) v)
  else if 0x20 ≤ o ∧ o < 0x30 then put { l with src6P := qword l.src6 l.src6P ((o - 0x20) / 4) v }
  else match o with
  | 0x00 => put { l with ctlP := qset (ctlBits l) l.ctlP (v.setWidth 4) }
  | 0x04 => noticed { l with etypeP := qset l.etype l.etypeP (v.setWidth 16) } (etypeBad (bits n 0 16))
  | 0x08 => noticed { l with udpPortP := qset l.udpPort l.udpPortP (v.setWidth 16) } (bits n 0 16 == 0)
  | 0x0C => put { l with pcp := v.setWidth 3, dscp := v.extractLsb' 3 6 }
  | 0x10 => noticed { l with mtuP := qset l.mtu l.mtuP (v.setWidth 14) } (decide (bits n 0 14 < 1280) || decide (9000 < bits n 0 14))
  | 0x14 => noticed { l with rto := v.setWidth 8, limit := v.extractLsb' 8 4, holdMax := v.extractLsb' 16 10 } (bits n 0 8 == 0)
  | 0x18 => put { l with macP := qword l.mac l.macP 0 v }
  | 0x1C => put { l with macP := qword l.mac l.macP 1 (v &&& 0xFFFF#32) }
  | 0x40 =>
    let e := { e with lf := { l with tLink := v.setWidth 8, tApply := v.getLsbD 9, tRounds := v.extractLsb' 12 4, tPdie := v.extractLsb' 16 3, tRoot := v.getLsbD 19 } }
    (e, if v.getLsbD 8 then startTime e d else d)
  | 0x44 => put { l with tcorr := v.setWidth 16 }
  | 0x48 | 0x4C | 0x50 => (e, d)
  | _ => (e, configNotice e d (0x310000 + o))

/-! ### A write at the register port -/

/-- R491. A write of TC_MODE for an unavailable logical tile stays pending, and needs no tile. -/
def modeAway (e : Env) (o : Nat) : Bool := decide (0x100 ≤ o ∧ o < 0x180) && unavailable e (tcTile o) && e.pwr.ready && !e.stop.stopped

/-- R36, R440. An access that travels to logical tile t: f acts there, and what cannot reach it is discarded with a notice. -/
def atTile (e : Env) (d : Dp) (t off : Nat) (f : Env → Dp → Env × Dp) : Env × Dp :=
  if reaches e t then
    let (e, d, there) := visit e d t
    if !there then (e, d)
    else
      let (e, d) := f e d
      (e, (answered e d t).1)
  else (e, configNotice e d off)

/-- R8, R9, R12, R464, R489. A write of v at byte offset off by an actor. -/
def writeReg (e : Env) (d : Dp) (a : Actor) (off : Nat) (v : Word) : Env × Dp :=
  let l := locate off
  if foreign a l then (e, registerAccess e d a.pid off)
  else match l with
  | .kp o => writeKp e d o v
  | .pd o => (e, writePd e d o v)
  | .pw p o => (e, if e.pwr.warmBusy || decide ((partOf d p).st = .resetting) then d else writePw e d p o v)
  | .tl q o =>
    if o < 12 then
      (match logicalOf e q with
        | some t => atTile e d t off (fun e d => (e, d))
        | none => (e, configNotice e d off))
    else (e, configNotice e d off)
  | .tc o => if modeAway e o then (e, writeTc e d o v) else atTile e d (tcTile o) off (fun e d => (e, writeTc e d o v))
  | .lf o => atTile e d 0 off (fun e d => writeLf e d o v)
  | .empty => (e, configNotice e d off)

/-! ### Reads -/

def loOf (x : Dword) : Word := x.setWidth 32

def hiOf (x : Dword) : Word := x.extractLsb' 32 32

/-- Table 14.6. LOCKED: some tile is awake, and every awake tile is locked. -/
def allLocked (e : Env) : Bool :=
  let l := e.pwr.ptiles.filter (fun p => p.2.powered && !p.2.asleep)
  !l.isEmpty && l.all (fun p => locked e p.1)

/-- KP_AWAKE. -/
def awakeMap (e : Env) : Nat := ((e.pwr.ptiles.filter (fun p => p.2.powered && !p.2.asleep)).map (fun p => 2 ^ p.1)).sum

/-- R339. J: the joints with an agent enabled for p, in force or pending (R486). -/
def joinedJoints (d : Dp) (p : BitVec 4) : Nat :=
  (d.ag.filter (fun a => (List.range 8).any (fun s => decide (agentPart d a.1 s = some p) || ((fget a.2.pend s).isSome && slotValue a.2 s == (p, true))))).length

/-- R339. PD_CTXSZ[p]. -/
def contextPages (d : Dp) (p : BitVec 4) : Nat :=
  let x := partOf d p
  ceilDiv (201024 + 128 * (x.qb + x.qb / 32) + 64 * (x.qg + x.qg / 32) + 163840 * joinedJoints d p) 4096

def PState.code : PState → Nat
  | .run => 0 | .freezing => 1 | .frozen => 2 | .saved => 3 | .restoring => 4 | .resetting => 5

/-- The open entries from 32w on, as bits. -/
def openMap (d : Dp) (w : Nat) : Nat := ((d.inc.entries.filter (fun x => x.2.isOpen && x.1 / 32 == w)).map (fun x => 2 ^ (x.1 % 32))).sum

/-- Table 12.12. KP_FENCE[w]: agents, physical tiles, local ports. -/
def fenceMap (e : Env) (w : Nat) : Nat :=
  let r := e.rep
  if w < 32 then ((r.fencedAgents.filter (fun a => a / 32 == w)).map (fun a => 2 ^ (a % 32))).sum
  else if w < 34 then ((r.fencedTiles.filter (fun q => 32 + q / 32 == w)).map (fun q => 2 ^ (q % 32))).sum
  else ((r.fencedPorts.filter (fun p => 34 + (p / 8 * 2 + p % 8 - 4) / 32 == w)).map (fun p => 2 ^ ((p / 8 * 2 + p % 8 - 4) % 32))).sum

/-- Table 12.12. KP_REPAIR_MAP[w]. -/
def repairMap (e : Env) (w : Nat) : Nat :=
  if w < 8 then ((List.range 4).map (fun k => physOf e (4 * w + k) * 2 ^ (8 * k) + boolBit (unavailable e (4 * w + k)) (8 * k + 7))).sum
  else if w = 8 then e.rep.spares.length + boolBit e.rep.lshort 6 + e.rep.rowsUsed.toNat * 256
  else e.rep.lanes.toNat

/-- A register of the keeper block, read by keeper firmware; the pairs of Table 16.2 that a read latches go through pairValue. DESIGN CHOICE (log 50): KP_INC_BASE_LO reads the pending or the present base, and not a half that has only been latched. -/
def readKp (e : Env) (d : Dp) (o : Nat) : Nat :=
  let k := e.kp
  if 0x400 ≤ o ∧ o < 0x418 then ((ringOf d .keeper).reg (o - 0x400)).toNat
  else if 0x420 ≤ o ∧ o < 0x438 then ((cmplOf d .keeper).reg (o - 0x420)).toNat
  else if 0x90 ≤ o ∧ o < 0xA0 then openMap d ((o - 0x90) / 4)
  else if 0x100 ≤ o ∧ o < 0x128 then repairMap e ((o - 0x100) / 4)
  else if 0x200 ≤ o ∧ o < 0x2AC then fenceMap e ((o - 0x200) / 4)
  else match o with
  | 0x00 => Config.kpId.toNat
  | 0x04 => boolBit e.pwr.enable 0
  | 0x08 => boolBit e.pwr.ready 0 + boolBit e.pwr.warmBusy 1 + boolBit e.clk.half 2 + boolBit (allLocked e) 3 + min (25 * e.clk.per) 0xFFF * 65536
  | 0x0C => e.pwr.idle.toNat
  | 0x10 => bits (awakeMap e) 0 32
  | 0x14 => bits (awakeMap e) 32 4
  | 0x18 => (k.saltP.getD k.salt).toNat + boolBit k.saltP.isSome 31
  | 0x1C => k.radius.toNat + k.thresh.toNat * 256
  | 0x20 => (k.bsLoP.getD (loOf k.bsBase)).toNat
  | 0x24 => (k.bsHiP.getD (hiOf k.bsBase)).toNat
  | 0x28 => (k.bsSizeP.getD k.bsLog2).toNat + boolBit (k.bsSizeP.isSome || k.bsLoP.isSome || k.bsHiP.isSome) 31
  | 0x2C => (k.nodeP.getD k.node).toNat + e.cfg.die.toNat * 65536 + boolBit k.nodeP.isSome 31
  | 0x40 => boolBit (e.clk.slew ≠ 0) 0
  | 0x44 => e.clk.tpDir.toNat + boolBit e.clk.tpRate 2 + boolBit e.clk.tpCapv 3
  | 0x50 => boolBit e.stop.pinEn 3 + boolBit e.stop.scan 4 + boolBit e.stop.stopped 5 + boolBit e.stop.byPin 6 + boolBit e.stop.goPend 7
  | 0x58 => e.stop.goAtLo.toNat
  | 0x5C => (hiOf e.stop.goAt).toNat
  | 0x80 => (loOf (k.incP.getD k.incBase)).toNat
  | 0x84 => (hiOf (k.incP.getD k.incBase)).toNat
  | 0x88 => k.hold.toNat + boolBit k.fwdIrq 8 + boolBit d.inc.fault 9 + d.inc.ndrop.toNat * 1024 + boolBit k.incP.isSome 31
  | 0xA0 => boolBit e.pwr.pfImage 0 + boolBit e.pwr.pfFrozen 1
  | 0xA8 => e.pwr.pfLo.toNat
  | 0xAC => (hiOf e.pwr.pfBase).toNat
  | 0xC0 => boolBit e.rep.auto 0 + boolBit e.rep.rowAuto 1 + e.rep.transients.toNat * 65536
  | 0x440 => d.kdbLo.toNat
  | _ => 0

/-- A register of the partition directory. -/
def readPd (e : Env) (d : Dp) (o : Nat) : Nat :=
  let p := BitVec.ofNat 4 (o % 0x40 / 4)
  let x := partOf d p
  if o < 0x40 then x.qb
  else if o < 0x80 then x.qg
  else if o < 0xC0 then x.cap.toNat
  else if o < 0x100 then x.st.code + boolBit x.departed 3
  else if o < 0x140 then bits (contextPages d p) 0 20
  else if 0x200 ≤ o ∧ o < 0x400 then ((List.range 8).map (fun s => (slotValue (agOf d ((o - 0x200) / 4)) s).1.toNat * 2 ^ (4 * s))).sum
  else if 0x400 ≤ o ∧ o < 0x600 then
    let a := agOf d ((o - 0x400) / 4)
    ((List.range 8).map (fun s => boolBit (slotValue a s).2 s + boolBit (fget a.pend s).isSome (8 + s))).sum
  else if o = 0x600 then bits (poolB e d) 0 25
  else if o = 0x604 then bits (poolG d) 0 18
  else 0

/-- A register of partition window p, but for its counters and GT. -/
def readPw (d : Dp) (p : BitVec 4) (o : Nat) : Nat :=
  let x := partOf d p
  if o < 0x160 ∧ 0x18 ≤ o % 0x20 then 0
  else if o < 0x100 then ((ringOf d (.part p (BitVec.ofNat 3 (o / 0x20)))).reg (o % 0x20)).toNat
  else if o < 0x120 then ((cmplOf d (.part p)).reg (o - 0x100)).toNat
  else if o < 0x140 then ((incRingOf d p).reg (o - 0x120)).toNat
  else if o < 0x160 then ((tringOf d p.toNat).reg (o - 0x140)).toNat
  else if o = 0x190 then bits x.ub 0 25 + boolBit (decide (x.qb < x.ub)) 31
  else if o = 0x194 then bits x.ug 0 18 + boolBit (decide (x.qg < x.ug)) 31
  else if o = 0x1A0 then boolBit d.obs.frozen 2
  else if 0x200 ≤ o ∧ o < 0x280 then
    let i := (o - 0x200) / 4
    let c := (fgetD d.obs.shadow (p.toNat * 16 + i / 2) 0).toNat
    if i % 2 = 0 then bits c 0 32 else bits c 32 16
  else if 0x400 ≤ o ∧ o < 0x800 then (fgetD x.gmask ((o - 0x400) / 4) 0).toNat
  else 0

/-- The longest run of free granules, and all of them, above `base`; runs rise. -/
def freeGranules : List (Nat × Nat) → Nat → Nat × Nat
  | [], base => (Config.granulesPerTile - base, Config.granulesPerTile - base)
  | (b, c) :: l, base =>
    let r := freeGranules l (max base (b + c))
    (r.1 + (b - base), max r.2 (b - base))

/-- R490. A register of the window of the physical tile that holds logical tile t. -/
def readTl (e : Env) (d : Dp) (t o : Nat) : Nat :=
  let x := tileOf d t
  if o = 0 then t + boolBit (locked e (physOf e t)) 6 + boolBit e.clk.half 7 + boolBit (modeOf d t).pend.isSome 8
  else if o = 4 then heldCount d t + x.slots.length * 65536
  else if o = 8 then (let f := freeGranules x.runs 0; f.1 + f.2 * 65536)
  else 0

/-- A register of the trace and counter block. -/
def readTc (d : Dp) (o : Nat) : Nat :=
  let x := d.obs
  if 0x40 ≤ o ∧ o < 0x58 then ((tringOf d 16).reg (o - 0x40)).toNat
  else if 0x100 ≤ o ∧ o < 0x180 then
    let m := modeOf d ((o - 0x100) / 4)
    (m.pend.getD (m.pre ++ m.size ++ m.mode)).toNat + boolBit m.drain 10 + m.kinds.toNat * 2048 + boolBit m.pend.isSome 31
  else match o with
  | 0x00 => boolBit x.all 4 + boolBit x.triggered 6 + boolBit x.frozen 7
  | 0x04 => x.incCls.toNat + boolBit x.onStop 3 + boolBit x.onAt 4 + boolBit x.onTag 5 + boolBit x.frzTrace 6 + boolBit x.frzCtr 7 + x.src.toNat * 65536
  | 0x08 => x.trigAtLo.toNat
  | 0x0C => (hiOf x.trigAt).toNat
  | 0x18 => x.tagVal.toNat
  | 0x1C => x.tagMask.toNat
  | 0x20 => x.pfilt.toNat
  | 0x24 => x.budget.toNat
  | 0x30 => x.csel.toNat
  | 0x34 => bits x.cdata.toNat 0 32
  | 0x38 => bits x.cdata.toNat 32 16
  | _ => 0

/-- A register of the lintel and fabric block; a partition reads its KW fields only (R477). -/
def readLf (e : Env) (d : Dp) (keeper : Bool) (o : Nat) : Nat :=
  let l := e.lf
  let own := fun (b : Bool) (n : Nat) => boolBit (keeper && b) n
  if 0x1000 ≤ o ∧ o < 0x2FE0 then
    if keeper then
      let k := (o - 0x1000) / 4
      let r := k / 8
      ((fget l.routesP k).getD (fgetD l.routes k 0)).toNat + (if k % 8 = 0 then boolBit (l.routesP.any (fun w => w.1 / 8 == r)) 31 else 0)
    else 0
  else if 0x4000 ≤ o ∧ o < 0x4800 then
    if keeper && decide (o % 64 < 8) then (fgetD l.keyWords ((o - 0x4000) / 64 * 16 + o % 64 / 4) 0).toNat else 0
  else if 0x20 ≤ o ∧ o < 0x30 then ((fget l.src6P ((o - 0x20) / 4)).getD (fgetD l.src6 ((o - 0x20) / 4) 0)).toNat
  else match o with
  | 0x00 => (l.ctlP.getD (ctlBits l)).toNat + own l.ctlP.isSome 31
  | 0x04 => (l.etypeP.getD l.etype).toNat + own l.etypeP.isSome 31
  | 0x08 => (l.udpPortP.getD l.udpPort).toNat + own l.udpPortP.isSome 31
  | 0x0C => l.pcp.toNat + l.dscp.toNat * 8
  | 0x10 => (l.mtuP.getD l.mtu).toNat + own l.mtuP.isSome 31
  | 0x14 => l.rto.toNat + l.limit.toNat * 256 + l.holdMax.toNat * 65536
  | 0x18 => ((fget l.macP 0).getD (fgetD l.mac 0 0)).toNat
  | 0x1C => ((fget l.macP 1).getD (fgetD l.mac 1 0)).toNat
  | 0x40 =>
    l.tLink.toNat + boolBit l.tApply 9 + own d.tm.busy 10 + own d.tm.valid 11 + l.tRounds.toNat * 4096 + l.tPdie.toNat * 65536 + boolBit l.tRoot 19
    + (if keeper then d.tm.answered * 2 ^ 20 else 0)
  | 0x44 => l.tcorr.toNat
  | 0x50 => if keeper then d.tm.delta.toNat else 0
  | _ => 0

/-- Table 16.2. The value of a read-latched pair whose _LO register stands at an offset. -/
def pairValue (e : Env) (d : Dp) (off : Nat) : Option Dword :=
  match locate off with
  | .kp 0x30 => some (gtInterp e)
  | .kp 0x48 => some e.clk.tpCap
  | .kp 0x60 => some e.stop.stopGt
  | .kp 0x68 => some e.stop.stopLen
  | .pw _ 0x198 => some (gtInterp e)
  | .tc 0x10 => some d.obs.trigGt
  | .lf 0x48 => some d.tm.theta
  | _ => none

/-- R479. The reader of an actor: 16 for keeper firmware, else the partition. -/
def reader (a : Actor) : Nat := if a.keeper then 16 else a.pid.toNat

/-- R479. The latch of the pair whose _LO register stands at an offset, for one reader. -/
def latchKey (off : Nat) (a : Actor) : Nat := off / 4 * 32 + reader a

/-- R479, R480. A read that reaches its register: the value, and the latch or shadow that it fills. -/
def readHere (e : Env) (d : Dp) (a : Actor) (off : Nat) : Word × Dp :=
  match pairValue e d off with
  | some x => (loOf x, { d with port := { d.port with latches := fput d.port.latches (latchKey off a) (hiOf x) } })
  | none =>
    if (pairValue e d (off - 4)).isSome then (fgetD d.port.latches (latchKey (off - 4) a) 0, d)
    else
      let d := match locate off with
        | .pw p 0x200 => copyShadow d p
        | _ => d
      (BitVec.ofNat 32 (match locate off with
        | .kp o => readKp e d o
        | .pd o => readPd e d o
        | .pw p o => readPw d p o
        | .tl q o => (match logicalOf e q with | some t => readTl e d t o | none => 0)
        | .tc o => readTc d o
        | .lf o => readLf e d a.keeper o
        | .empty => 0), d)

/-- Table 11.1. A read that returns 0 under R9 whatever stands there. -/
def readDenied (a : Actor) (l : Loc) : Bool :=
  !a.keeper && (match l with
    | .kp o => o != 0
    | .pd o => pdOwner o != some a.pid.toNat
    | .pw p _ => p != a.pid
    | .tl _ _ | .tc _ => true
    | .lf o => decide (0x48 ≤ o)
    | .empty => false)

/-- The logical tile to which a read travels: none for the register files of the port itself. -/
def readTile (e : Env) (l : Loc) : Option (Option Nat) :=
  match l with
  | .tl q _ => some (logicalOf e q)
  | .tc o => some (some (tcTile o))
  | .lf _ => some (some 0)
  | .kp _ | .pd _ | .pw _ _ | .empty => none

/-- R9, R36, R440, R464, R479, R489. A read at byte offset off by an actor; the value goes to the port. -/
def readReg (e : Env) (d : Dp) (a : Actor) (off : Nat) : Env × Dp :=
  let l := locate off
  let out := fun (v : Word) (d : Dp) => { d with port := { d.port with rdata := v } }
  let busy := match l with
    | .pw p _ => e.pwr.warmBusy || decide ((partOf d p).st = .resetting)
    | _ => false
  if readDenied a l || busy then (e, out 0 d)
  else
    match readTile e l with
    | none => (let x := readHere e d a off; (e, out x.1 x.2))
    | some none => (e, out 0 d)
    | some (some t) =>
      if reaches e t then
        let (e, d, there) := visit e d t
        if !there then (let (v, d) := lostRead d; (e, out v d))
        else
          let x := readHere e d a off
          let (d, back) := answered e x.2 t
          if back then (e, out x.1 d) else (let (v, d) := lostRead d; (e, out v d))
      else (e, out 0 d)

/-! ### Meanings -/

/-- Keeper firmware, as an actor. -/
def keeperActor : Actor := { keeper := true, pid := 0 }

/-- The logical tile to which an access travels, where it passes R9 and finds a register there. -/
def accessTile (e : Env) (x : RegAccess) : Option Nat :=
  let l := locate x.off
  match x.data with
  | some _ =>
    if foreign x.actor l then none
    else (match l with
      | .tl q o => if o < 12 then logicalOf e q else none
      | .tc o => some (tcTile o)
      | .lf _ => some 0
      | .kp _ | .pd _ | .pw _ _ | .empty => none)
  | none => if readDenied x.actor l then none else (readTile e l).join

/-- R36, R374. The tile of an access is under test, and does not answer now. -/
def accessHeld (e : Env) (d : Dp) (x : RegAccess) : Bool :=
  match accessTile e x with
  | some t => reaches e t && (tileOf d t).test.isSome
  | none => false

/-- An access takes effect and completes. -/
def access (e : Env) (d : Dp) (x : RegAccess) : Env × Dp :=
  match x.data with
  | some v => writeReg e d x.actor x.off v
  | none => readReg e d x.actor x.off

/-- R464. The port serves what waits, in order, up to the first access whose tile does not answer; n bounds them. -/
def servePort : Nat → Env → Dp → Env × Dp
  | 0, e, d => (e, d)
  | n + 1, e, d =>
    match d.port.access with
    | [] => (e, d)
    | x :: rest =>
      if accessHeld e d x then (e, d)
      else
        let y := access e { d with port := { d.port with access := rest } } x
        servePort n y.1 y.2

/-- R36, R464. An access at the register port: it takes effect behind those that wait. -/
def portAccess (s : State) (x : RegAccess) : State :=
  let y := servePort s.dp.port.access.length s.env s.dp
  if !y.2.port.access.isEmpty || accessHeld y.1 y.2 x then
    { s with env := y.1, dp := { y.2 with port := { y.2.port with access := y.2.port.access ++ [x] } } }
  else
    let z := access y.1 y.2 x
    { s with env := z.1, dp := z.2 }

/-- A write at the register port. -/
def portWrite (s : State) (a : Actor) (off : Nat) (v : Word) : State := portAccess s { actor := a, off := off, data := some v }

/-- A read at the register port. -/
def portRead (s : State) (a : Actor) (off : Nat) : State := portAccess s { actor := a, off := off, data := none }

/-- The offsets of an owner's doorbell pair. -/
def dbOffset (o : Owner) (hi : Bool) : Nat := if hi then dbHiOffset o else dbHiOffset o - 4

/-- R301. -/
def execDbLoWrite (a : Actor) (o : Owner) (v : Word) (s : State) : Host.Outcome State Fault Refusal := .next (portWrite s a (dbOffset o false) v)

/-- R303. -/
def execDoorbellSubmit (a : Actor) (o : Owner) (v : Word) (s : State) : Host.Outcome State Fault Refusal := .next (portWrite s a (dbOffset o true) v)

/-- R303. -/
def execDoorbellCmplHead (a : Actor) (o : Owner) (v : Word) (s : State) : Host.Outcome State Fault Refusal := .next (portWrite s a (dbOffset o true) v)

/-- R303. -/
def execDoorbellIncHead (a : Actor) (o : Owner) (v : Word) (s : State) : Host.Outcome State Fault Refusal := .next (portWrite s a (dbOffset o true) v)

/-- R304. -/
def execResume (a : Actor) (o : Owner) (v : Word) (s : State) : Host.Outcome State Fault Refusal := .next (portWrite s a (dbOffset o true) v)

/-- R415. -/
def execKpStopStop (v : Word) (s : State) : Host.Outcome State Fault Refusal := .next (portWrite s keeperActor 0x50 v)

/-- R418. -/
def execKpStopGo (v : Word) (s : State) : Host.Outcome State Fault Refusal := .next (portWrite s keeperActor 0x50 v)

/-- R442. -/
def execKpCtlEnable (v : Word) (s : State) : Host.Outcome State Fault Refusal := .next (portWrite s keeperActor 0x04 v)

/-- R445. -/
def execKpCtlWarm (v : Word) (s : State) : Host.Outcome State Fault Refusal := .next (portWrite s keeperActor 0x04 v)

/-- R353. -/
def execPdPctlReset (p : BitVec 4) (v : Word) (s : State) : Host.Outcome State Fault Refusal := .next (portWrite s keeperActor (0x100C0 + 4 * p.toNat) v)

/-- R398. -/
def execKpGtStepHi (v : Word) (s : State) : Host.Outcome State Fault Refusal := .next (portWrite s keeperActor 0x3C v)

/-- R287. -/
def execLfTctlStart (v : Word) (s : State) : Host.Outcome State Fault Refusal := .next (portWrite s keeperActor 0x310040 v)

/-- R379. -/
def execKpRepairRemeasure (v : Word) (s : State) : Host.Outcome State Fault Refusal := .next (portWrite s keeperActor 0xC0 v)

/-- R388. -/
def execKpRowfix (v : Word) (s : State) : Host.Outcome State Fault Refusal := .next (portWrite s keeperActor 0xC4 v)

/-- R413. -/
def execTcCtlTrig (v : Word) (s : State) : Host.Outcome State Fault Refusal := .next (portWrite s keeperActor 0x300000 v)

/-- R413. -/
def execTcCtlRearm (v : Word) (s : State) : Host.Outcome State Fault Refusal := .next (portWrite s keeperActor 0x300000 v)

/-- R412. -/
def execTcCtlResume (v : Word) (s : State) : Host.Outcome State Fault Refusal := .next (portWrite s keeperActor 0x300000 v)

/-- R411. -/
def execTcCtlFlush (v : Word) (s : State) : Host.Outcome State Fault Refusal := .next (portWrite s keeperActor 0x300000 v)

/-- R401. -/
def execTcCtlClrctr (v : Word) (s : State) : Host.Outcome State Fault Refusal := .next (portWrite s keeperActor 0x300000 v)

/-- R408. -/
def execTcMarkHi (v : Word) (s : State) : Host.Outcome State Fault Refusal := .next (portWrite s keeperActor 0x30002C v)

/-- R404. -/
def execTcCsel (v : Word) (s : State) : Host.Outcome State Fault Refusal := .next (portWrite s keeperActor 0x300030 v)

/-- R403. -/
def execPwObsctlClear (a : Actor) (p : BitVec 4) (v : Word) (s : State) : Host.Outcome State Fault Refusal := .next (portWrite s a (windowBase p + 0x1A0) v)

/-- R412. -/
def execPwObsctlResume (a : Actor) (p : BitVec 4) (v : Word) (s : State) : Host.Outcome State Fault Refusal := .next (portWrite s a (windowBase p + 0x1A0) v)

/-- R403. -/
def execPwCtrShadowRead (a : Actor) (p : BitVec 4) (s : State) : Host.Outcome State Fault Refusal := .next (portRead s a (windowBase p + 0x200))

/-- R479. The offset is B_ADDR, in words; a read of any other register is served too. -/
def execPairLoRead (a : Actor) (off : BitVec 20) (s : State) : Host.Outcome State Fault Refusal := .next (portRead s a (4 * off.toNat))

/-- R435. -/
def execPairLoWrite (a : Actor) (off : BitVec 20) (v : Word) (s : State) : Host.Outcome State Fault Refusal := .next (portWrite s a (4 * off.toNat) v)

/-- R479. -/
def execLfKeyWrite (a : Actor) (off : BitVec 20) (v : Word) (s : State) : Host.Outcome State Fault Refusal := .next (portWrite s a (4 * off.toNat) v)

/-- R12. -/
def execRegisterWrite (a : Actor) (off : BitVec 20) (v : Word) (s : State) : Host.Outcome State Fault Refusal := .next (portWrite s a (4 * off.toNat) v)

end Sys2Proof.Machine
end

