-- ==== Sys2Proof/Machine/Dispatch.lean ====
section
/-! DEFINITION. Sys2Proof/Machine/Dispatch.lean: the effect of each command on everything but the queue. -/

namespace Sys2Proof.Machine

def exec (i : Instr) (s : State) : Host.Outcome State Fault Refusal :=
  match i with
  | .arrive joint req => Sys2Proof.Machine.execArrive joint req s
  | .arriveWait joint req => Sys2Proof.Machine.execArriveWait joint req s
  | .wait joint req => Sys2Proof.Machine.execWait joint req s
  | .test joint req => Sys2Proof.Machine.execTest joint req s
  | .semTake joint req => Sys2Proof.Machine.execSemTake joint req s
  | .semTry joint req => Sys2Proof.Machine.execSemTry joint req s
  | .semGive joint req => Sys2Proof.Machine.execSemGive joint req s
  | .lockAcq joint req => Sys2Proof.Machine.execLockAcq joint req s
  | .lockTry joint req => Sys2Proof.Machine.execLockTry joint req s
  | .lockRel joint req => Sys2Proof.Machine.execLockRel joint req s
  | .tokPut joint req => Sys2Proof.Machine.execTokPut joint req s
  | .tokGet joint req => Sys2Proof.Machine.execTokGet joint req s
  | .tokTryget joint req => Sys2Proof.Machine.execTokTryget joint req s
  | .evtSet joint req => Sys2Proof.Machine.execEvtSet joint req s
  | .evtWait joint req => Sys2Proof.Machine.execEvtWait joint req s
  | .evtClear joint req => Sys2Proof.Machine.execEvtClear joint req s
  | .query joint req => Sys2Proof.Machine.execQuery joint req s
  | .sealAck joint slot => Sys2Proof.Machine.execSealAck joint slot s
  | .arrivalHod hod => Sys2Proof.Machine.execArrivalHod hod s
  | .branchCombine hod => Sys2Proof.Machine.execBranchCombine hod s
  | .releaseCopy hod => Sys2Proof.Machine.execReleaseCopy hod s
  | .watcherCopy hod => Sys2Proof.Machine.execWatcherCopy hod s
  | .forwardedWait hod => Sys2Proof.Machine.execForwardedWait hod s
  | .unwatch hod => Sys2Proof.Machine.execUnwatch hod s
  | .alignedReleaseInstant joint => Sys2Proof.Machine.execAlignedReleaseInstant joint s
  | .barrierDeadlineExpiry index => Sys2Proof.Machine.execBarrierDeadlineExpiry index s
  | .sweepHod hod => Sys2Proof.Machine.execSweepHod hod s
  | .sweepAnswers index => Sys2Proof.Machine.execSweepAnswers index s
  | .agentDeparture agent => Sys2Proof.Machine.execAgentDeparture agent s
  | .shrinkHod hod => Sys2Proof.Machine.execShrinkHod hod s
  | .departureReport hod => Sys2Proof.Machine.execDepartureReport hod s
  | .waitDeadlineExpiry index agent gang => Sys2Proof.Machine.execWaitDeadlineExpiry index agent gang s
  | .responseHod hod => Sys2Proof.Machine.execResponseHod hod s
  | .hintAccept joint => Sys2Proof.Machine.execHintAccept joint s
  | .nudge hod => Sys2Proof.Machine.execNudge hod s
  | .palletSweep hod => Sys2Proof.Machine.execPalletSweep hod s
  | .forwardedPut hod => Sys2Proof.Machine.execForwardedPut hod s
  | .ringWriteDone index stripe => Sys2Proof.Machine.execRingWriteDone index stripe s
  | .refillDone index stripe => Sys2Proof.Machine.execRefillDone index stripe s
  | .palletRingFault index stripe refill addr => Sys2Proof.Machine.execPalletRingFault index stripe refill addr s
  | .mgmtSteal thief victim => Sys2Proof.Machine.execMgmtSteal thief victim s
  | .fetchComplete index sstatus read => Sys2Proof.Machine.execFetchComplete index sstatus read s
  | .fetchSlotFree tile => Sys2Proof.Machine.execFetchSlotFree tile s
  | .backstoreRetry index sstatus read => Sys2Proof.Machine.execBackstoreRetry index sstatus read s
  | .mirrorUpdate hod => Sys2Proof.Machine.execMirrorUpdate hod s
  | .mirrorAck hod => Sys2Proof.Machine.execMirrorAck hod s
  | .bounce hod => Sys2Proof.Machine.execBounce hod s
  | .pathProbe index delay => Sys2Proof.Machine.execPathProbe index delay s
  | .brickAlloc ring => Sys2Proof.Machine.execBrickAlloc ring s
  | .brickFree ring list => Sys2Proof.Machine.execBrickFree ring list s
  | .barrierArm ring => Sys2Proof.Machine.execBarrierArm ring s
  | .bondSet ring list => Sys2Proof.Machine.execBondSet ring list s
  | .groutCfg ring => Sys2Proof.Machine.execGroutCfg ring s
  | .weightLoad ring table => Sys2Proof.Machine.execWeightLoad ring table s
  | .lintelLink ring => Sys2Proof.Machine.execLintelLink ring s
  | .palletCfg ring => Sys2Proof.Machine.execPalletCfg ring s
  | .snapshot ring list => Sys2Proof.Machine.execSnapshot ring list s
  | .nop ring => Sys2Proof.Machine.execNop ring s
  | .orderFence ring => Sys2Proof.Machine.execOrderFence ring s
  | .orderFencePassed ring => Sys2Proof.Machine.execOrderFencePassed ring s
  | .ctxSave ring => Sys2Proof.Machine.execCtxSave ring s
  | .ctxRestore ring area => Sys2Proof.Machine.execCtxRestore ring area s
  | .fenceUnit ring => Sys2Proof.Machine.execFenceUnit ring s
  | .repoint ring => Sys2Proof.Machine.execRepoint ring s
  | .fetchBatch ring descs => Sys2Proof.Machine.execFetchBatch ring descs s
  | .descriptorXlateFault ring addr => Sys2Proof.Machine.execDescriptorXlateFault ring addr s
  | .completionWriteFault ring addr => Sys2Proof.Machine.execCompletionWriteFault ring addr s
  | .heldCompletionWrite owner => Sys2Proof.Machine.execHeldCompletionWrite owner s
  | .irqMergeExpiry owner incident => Sys2Proof.Machine.execIrqMergeExpiry owner incident s
  | .dbLoWrite actor owner value => Sys2Proof.Machine.execDbLoWrite actor owner value s
  | .doorbellSubmit actor owner value => Sys2Proof.Machine.execDoorbellSubmit actor owner value s
  | .doorbellCmplHead actor owner value => Sys2Proof.Machine.execDoorbellCmplHead actor owner value s
  | .doorbellIncHead actor owner value => Sys2Proof.Machine.execDoorbellIncHead actor owner value s
  | .resume actor owner value => Sys2Proof.Machine.execResume actor owner value s
  | .freeze src part => Sys2Proof.Machine.execFreeze src part s
  | .drainMarker tile src part => Sys2Proof.Machine.execDrainMarker tile src part s
  | .backlogHod hod fault => Sys2Proof.Machine.execBacklogHod hod fault s
  | .arriveUp hod => Sys2Proof.Machine.execArriveUp hod s
  | .lintelRelease hod => Sys2Proof.Machine.execLintelRelease hod s
  | .twin hod => Sys2Proof.Machine.execTwin hod s
  | .departUp hod => Sys2Proof.Machine.execDepartUp hod s
  | .poison hod => Sys2Proof.Machine.execPoison hod s
  | .sweep hod => Sys2Proof.Machine.execSweep hod s
  | .probe hod => Sys2Proof.Machine.execProbe hod s
  | .probeAns hod => Sys2Proof.Machine.execProbeAns hod s
  | .refuse hod => Sys2Proof.Machine.execRefuse hod s
  | .refuseRetryBackoff hod => Sys2Proof.Machine.execRefuseRetryBackoff hod s
  | .incidentHod hod => Sys2Proof.Machine.execIncidentHod hod s
  | .data frame err => Sys2Proof.Machine.execData frame err s
  | .ack frame err => Sys2Proof.Machine.execAck frame err s
  | .sync frame err => Sys2Proof.Machine.execSync frame err s
  | .standaloneAckTimer route => Sys2Proof.Machine.execStandaloneAckTimer route s
  | .retransmitExpiry route => Sys2Proof.Machine.execRetransmitExpiry route s
  | .hold frame err => Sys2Proof.Machine.execHold frame err s
  | .holdmaxExpiry route => Sys2Proof.Machine.execHoldmaxExpiry route s
  | .time frame err die => Sys2Proof.Machine.execTime frame err die s
  | .timeExchangeSend => Sys2Proof.Machine.execTimeExchangeSend s
  | .timeExchangeTimeout exchange => Sys2Proof.Machine.execTimeExchangeTimeout exchange s
  | .offsetResult => Sys2Proof.Machine.execOffsetResult s
  | .d2dErr die => Sys2Proof.Machine.execD2dErr die s
  | .pause level => Sys2Proof.Machine.execPause level s
  | .packageRecord die record => Sys2Proof.Machine.execPackageRecord die record s
  | .incidentReport report => Sys2Proof.Machine.execIncidentReport report s
  | .incidentNumberReturn report => Sys2Proof.Machine.execIncidentNumberReturn report s
  | .incidentHoldClose entry => Sys2Proof.Machine.execIncidentHoldClose entry s
  | .incidentTableWrite entry sstatus => Sys2Proof.Machine.execIncidentTableWrite entry sstatus s
  | .incidentCopyWrite entry part => Sys2Proof.Machine.execIncidentCopyWrite entry part s
  | .kpIncClose value => Sys2Proof.Machine.execKpIncClose value s
  | .meshEcc hod router port => Sys2Proof.Machine.execMeshEcc hod router port s
  | .jointStall joint => Sys2Proof.Machine.execJointStall joint s
  | .tileFault tile hit => Sys2Proof.Machine.execTileFault tile hit s
  | .selfTestDone tile result => Sys2Proof.Machine.execSelfTestDone tile result s
  | .powerFailWarning => Sys2Proof.Machine.execPowerFailWarning s
  | .globalStopPin => Sys2Proof.Machine.execGlobalStopPin s
  | .kpStopStop value => Sys2Proof.Machine.execKpStopStop value s
  | .kpStopGo value => Sys2Proof.Machine.execKpStopGo value s
  | .goAtReached => Sys2Proof.Machine.execGoAtReached s
  | .throttle level => Sys2Proof.Machine.execThrottle level s
  | .clockChange => Sys2Proof.Machine.execClockChange s
  | .coldReset => Sys2Proof.Machine.execColdReset s
  | .agentReset joint slot level => Sys2Proof.Machine.execAgentReset joint slot level s
  | .tpulseInput => Sys2Proof.Machine.execTpulseInput s
  | .tpulseOutput => Sys2Proof.Machine.execTpulseOutput s
  | .tileSleep tile => Sys2Proof.Machine.execTileSleep tile s
  | .tileWakeHod tile => Sys2Proof.Machine.execTileWakeHod tile s
  | .wakeComparator tile => Sys2Proof.Machine.execWakeComparator tile s
  | .kpCtlEnable value => Sys2Proof.Machine.execKpCtlEnable value s
  | .tilesReady => Sys2Proof.Machine.execTilesReady s
  | .kpCtlWarm value => Sys2Proof.Machine.execKpCtlWarm value s
  | .pdPctlReset part value => Sys2Proof.Machine.execPdPctlReset part value s
  | .kpGtStepHi value => Sys2Proof.Machine.execKpGtStepHi value s
  | .gtStepApply => Sys2Proof.Machine.execGtStepApply s
  | .lfTctlStart value => Sys2Proof.Machine.execLfTctlStart value s
  | .kpRepairRemeasure value => Sys2Proof.Machine.execKpRepairRemeasure value s
  | .kpRowfix value => Sys2Proof.Machine.execKpRowfix value s
  | .tcCtlTrig value => Sys2Proof.Machine.execTcCtlTrig value s
  | .trigger source => Sys2Proof.Machine.execTrigger source s
  | .tcCtlRearm value => Sys2Proof.Machine.execTcCtlRearm value s
  | .tcCtlResume value => Sys2Proof.Machine.execTcCtlResume value s
  | .tcCtlFlush value => Sys2Proof.Machine.execTcCtlFlush value s
  | .tcCtlClrctr value => Sys2Proof.Machine.execTcCtlClrctr value s
  | .tcMarkHi value => Sys2Proof.Machine.execTcMarkHi value s
  | .tcCsel value => Sys2Proof.Machine.execTcCsel value s
  | .pwObsctlClear actor part value => Sys2Proof.Machine.execPwObsctlClear actor part value s
  | .pwObsctlResume actor part value => Sys2Proof.Machine.execPwObsctlResume actor part value s
  | .pwCtrShadowRead actor part => Sys2Proof.Machine.execPwCtrShadowRead actor part s
  | .pairLoRead actor offset => Sys2Proof.Machine.execPairLoRead actor offset s
  | .pairLoWrite actor offset value => Sys2Proof.Machine.execPairLoWrite actor offset value s
  | .lfKeyWrite actor offset value => Sys2Proof.Machine.execLfKeyWrite actor offset value s
  | .registerWrite actor offset value => Sys2Proof.Machine.execRegisterWrite actor offset value s
  | .quietCommit field => Sys2Proof.Machine.execQuietCommit field s
  | .traceDrain tile => Sys2Proof.Machine.execTraceDrain tile s
  | .traceRingFault owner addr => Sys2Proof.Machine.execTraceRingFault owner addr s
  | .referenceEdge cycles pins => Sys2Proof.Machine.execReferenceEdge cycles pins s
  | .responseAccept joint => Sys2Proof.Machine.execResponseAccept joint s
  | .d2dErrClear die => Sys2Proof.Machine.execD2dErrClear die s
  | .unmatchedMStag tag => Sys2Proof.Machine.execUnmatchedMStag tag s
  | .engineEccError tile offset => Sys2Proof.Machine.execEngineEccError tile offset s
  | .returnedHodResend hod => Sys2Proof.Machine.execReturnedHodResend hod s
  | .hallIncidentResend entry => Sys2Proof.Machine.execHallIncidentResend entry s

end Sys2Proof.Machine
end

