-- ==== Sys2Proof/Machine/Ticks.lean ====
section
/-! DEFINITION. Sys2Proof/Machine/Ticks.lean: a cycle of the tile clock, which passes when no command waits (log 3). -/

namespace Sys2Proof.Machine

/-- Table 13.3, counters 12, 13, 28 and 30 of tile t. -/
def cycleTile (e : Env) (d : Dp) (t : Nat) : Dp :=
  let x := tileOf d t
  let waits := x.fetches.any (fun f => !f.issued)
  let full := decide (Config.fetchLimit ≤ issuedFetches d t)
  let d := if waits && !full then bumpT e d t 12 else d
  let d := if !reqOpen d t then bumpT e d t 13 else d
  let d := if tileIdle e d t then d else bumpT e d t 28
  if e.clk.half then bumpT e d t 30 else d

/-- Table 13.3, joint counter 7. A joint that waits for a SEAL_ACK counts the cycle. -/
def cycleSeals (e : Env) (d : Dp) : Dp := (d.joints.filter (fun j => !j.2.seals.isEmpty)).foldl (fun d j => bumpK e d 2 j.1 7 1) d

/-- What the tiles do in one cycle: counters of cycles, one waiting request taken by each tile, a freeze under way. -/
def cycleTiles (e : Env) (d : Dp) : Dp :=
  let d := if e.pwr.ready && !e.pwr.pfFrozen then cycleSeals e ((awakeTiles e).foldl (fun d t => cycleTile e d t) d) else d
  freezeTick e (serveTiles e d)

/-- One tile cycle; a warm reset under way goes on, and the register port serves what waits. The clock of a stopped instance stands still, but its port does not. -/
def cycle (e : Env) (d : Dp) : Env × Dp :=
  let x :=
    if e.stop.stopped then (e, d)
    else
      let e := { e with clk := { e.clk with cyc := e.clk.cyc + 1 } }
      warmTick e (cycleTiles e d)
  servePort x.2.port.access.length x.1 x.2

/-- What a step does when no command waits (log 3). -/
def idle (s : State) : State :=
  let x := cycle s.env s.dp
  { s with env := x.1, dp := x.2 }

end Sys2Proof.Machine
end

