-- ==== Sys2Proof/Safety.lean ====
section
/-! DEFINITION. Sys2Proof/Safety.lean: the terms in which claims are stated: what a safe step is, and the conditions under which a command has its own effect. -/

namespace Sys2Proof.Safety

open Sys2Proof.Machine

/-- The step of s answers a next state: the block has no fault of its own (NOTES.md, Stops). -/
def Runs (s : State) : Prop := ∃ t, step s = .next t

/-- What hods say and where they go: source, destination, channel, content. -/
def posts (l : List Hod) : List (Port × Port × VC × HodBody) := l.map (fun h => (h.src, h.dst, h.vc, h.body))

/-- Table 8.3. The command of an agent operation. -/
def requestOf (op : AOp) (j : BitVec 7) (r : Req) : Instr :=
  match op with
  | .arrive => .arrive j r
  | .arriveWait => .arriveWait j r
  | .wait => .wait j r
  | .test => .test j r
  | .semTake => .semTake j r
  | .semTry => .semTry j r
  | .semGive => .semGive j r
  | .lockAcq => .lockAcq j r
  | .lockTry => .lockTry j r
  | .lockRel => .lockRel j r
  | .tokPut => .tokPut j r
  | .tokGet => .tokGet j r
  | .tokTryget => .tokTryget j r
  | .evtSet => .evtSet j r
  | .evtWait => .evtWait j r
  | .evtClear => .evtClear j r
  | .query => .query j r

/-- R229, R246. The joint takes the request: it accepts requests, the slot has an agent that is neither held in reset, fenced nor departing. -/
abbrev Presented (e : Env) (d : Dp) (j : Nat) (r : Req) : Prop :=
  accepts e = true ∧ (agentClass e j r.slot.toNat).isSome = true ∧ (jointOf d j).reset.getLsbD r.slot.toNat = false
  ∧ agentFence e j r.slot = none ∧ d.departing.any (fun a => a.1 == agentNo j r.slot) = false

/-- Table 8.4, steps 1 to 4, and steps 1 to 5 of Table 2.3, for an agent of partition p. -/
abbrev Formed (e : Env) (d : Dp) (j : Nat) (op : AOp) (r : Req) (p : BitVec 4) : Prop :=
  r.beats.length ≤ 4 ∧ agentPart d j r.slot.toNat = some p ∧ handleFront e (some p) (reqTypes r op) r.handle = none ∧ stepForm d j op r = none

/-- Table 8.4, step 5 and R131: the partition runs, RID is free, an entry is free (a shared one where sh), and no earlier acquire of the gang waits. -/
abbrev Entered (d : Dp) (j : Nat) (op : AOp) (r : Req) (p : BitVec 4) (sh : Bool) : Prop :=
  (jointOf d j).frozen.contains p.toNat = false ∧ (partOf d p).st ≠ .saved ∧ (partOf d p).st ≠ .restoring
  ∧ ridOut d j r.slot r.rid = false ∧ freeEntry d j r.slot = some sh ∧ alreadyQueued d j op r = false

/-- R229. The request passes every step of Table 8.4. -/
abbrev Admitted (e : Env) (d : Dp) (j : Nat) (op : AOp) (r : Req) (p : BitVec 4) (sh : Bool) : Prop :=
  Presented e d j r ∧ Formed e d j op r p ∧ Entered d j op r p sh

/-- R232. No request of the slot awaits its seal. -/
abbrev SlotClear (d : Dp) (j : Nat) (slot : BitVec 3) : Prop :=
  (jointOf d j).entries.any (fun x => x.req.slot == slot && (x.phase == .sealing || x.phase == .behind)) = false

/-- R230. The entry of a request. -/
def newEntry (id : Nat) (op : AOp) (r : Req) (p : BitVec 4) (sh : Bool) (ph : EPhase) : JEntry :=
  { id := id, op := op, req := r, part := p, shared := sh, phase := ph, target := 0, pended := false }

/-- The next entry number is in no entry of the joint (EntriesNumbered). -/
abbrev FreshId (d : Dp) (j : Nat) : Prop := (jointOf d j).entries.any (fun x => x.id == d.seq) = false

/-- R45, R48. The handle names brick b, resident at its home tile, which serves. -/
abbrev AtHome (e : Env) (d : Dp) (h : Dword) (b : Brick) : Prop :=
  hIndex h < capacity e ∧ resident d (homeOf e (hIndex h)) (.brick (hIndex h)) = true ∧ tileServes e d (homeOf e (hIndex h)) = true
  ∧ brickOf d (hIndex h) = b ∧ b.valid = true ∧ b.gen = hGen h ∧ b.part = hPart h ∧ (hType h).toNat = b.typeCode ∧ b.lost = none

/-- R74, R362. What brick i sends leaves its tile at once: no mirror keeps a copy of it, and none of its hods waits for an incident's number. -/
abbrev Prompt (e : Env) (d : Dp) (i : Nat) : Prop := fget d.mirCopies (stripeKey i 0) = none ∧ numberWait d (homeOf e i) i = none

/-- The handle names brick b, resident at its home tile, which serves, and what the brick sends leaves at once. -/
abbrev Homed (e : Env) (d : Dp) (h : Dword) (b : Brick) : Prop := AtHome e d h b ∧ Prompt e d (hIndex h)

/-- R74, R362. A hod for dst that `tells` holds of has left its tile, or waits there for the mirror's acknowledgement or for an incident's number. -/
def Sent (d : Dp) (dst : Port) (tells : HodBody → Prop) : Prop :=
  (∃ g ∈ d.net, g.dst = dst ∧ tells g.body) ∨ (∃ u ∈ d.mirUpds, ∃ g ∈ u.outs, g.dst = dst ∧ tells g.body)
  ∨ (∃ w ∈ d.inc.waitHods, ∃ g ∈ w.2, g.dst = dst ∧ tells g.body)

/-- R22, R28, R68. Nothing stands between joint j and the home tile of a handle: the tile takes REQ hods, and none waits in front. -/
abbrev Near (e : Env) (d : Dp) (j : Nat) (h : Dword) : Prop := wayClear e d (.joint j) (homeOf e (hIndex h)) = true

/-- R76. The brick's group and partition admit the agent's class. -/
abbrev Allowed (e : Env) (d : Dp) (j : Nat) (slot : BitVec 3) (b : Brick) : Prop := admits e (groupMask d b.part b.group) j slot = true

/-- R237. Entry x of the slot awaits its seal since tile cycle n, nothing of the slot stands behind it, its partition runs, and the instance runs. -/
abbrev Sealing (e : Env) (d : Dp) (j : Nat) (slot : BitVec 3) (x : JEntry) (n : Nat) : Prop :=
  fget (jointOf d j).seals slot.toNat = some n ∧ (jointOf d j).entries.find? (fun y => y.req.slot == slot && y.phase == .sealing) = some x
  ∧ entryOf d j x.id = some x ∧ (jointOf d j).entries.any (fun y => y.req.slot == slot && y.phase == .behind) = false
  ∧ (jointOf d j).frozen.contains x.part.toNat = false ∧ e.stop.stopped = false ∧ e.pwr.pfFrozen = false

/-- R28, R374. Hod h stands at place n of the net, tile t may take it now, and nothing it needs is missing from the tile. -/
abbrev TileTakes (e : Env) (d : Dp) (n t : Nat) (h : Hod) : Prop :=
  takeable e d n = some h ∧ h.dst = .tile t ∧ tileServes e d t = true ∧ (h.vc == .req && !reqOpen d t) = false
  ∧ (match h.body.needs with | some i => mustFetch e d i = false | none => True)

/-- R28, R247. Hod h stands at place n of the net and joint j may take it now. -/
abbrev JointTakes (e : Env) (d : Dp) (n j : Nat) (h : Hod) : Prop :=
  takeable e d n = some h ∧ h.dst = .joint j ∧ takesRsp d j = true

/-- R226, R233. What beats of responses say: slot, RID, LAST and data. -/
def said (l : List RBeat) : List (BitVec 3 × BitVec 10 × Bool × Beat) := l.map (fun b => (b.slot, b.rid, b.last, b.data))

/-- R233, R247. The beats that joint j's agents are still to take: of the response buffer, and of what waits for room in it. -/
def beatsOf (d : Dp) (j : Nat) : List (BitVec 3 × BitVec 10 × Bool × Beat) := said ((jointOf d j).resp ++ (jointOf d j).respMore)

/-- R233. The beats of a response. -/
def beatsFor (slot : BitVec 3) (rid : BitVec 10) (r : Resp) : List (BitVec 3 × BitVec 10 × Bool × Beat) := said (respBeats slot rid r 0)

/-- Table 4.3, R148, R107, R126. VALUE of a QUERY of a brick that is no pallet. -/
def queryValue (b : Brick) : Dword :=
  match b.body with
  | .lock l => l.queryValue
  | .semaphore q => q.queryValue
  | .barrier x => x.queryValue
  | .event v => BitVec.ofNat 64 (b2n v.set)
  | .pallet => 0

/-- Table 4.4, Table 4.6, Table 3.7. A TEST of a lock, semaphore or event finds it ready. -/
def readyNow (b : Brick) : Bool :=
  match b.body with
  | .lock l => !l.held
  | .semaphore q => decide (q.count ≠ 0)
  | .event v => v.set
  | .barrier _ | .pallet => false

/-- R306, R308. Descriptor x stands at the head of ring r, front-end tile t may run it, it passes steps 2 to 6 of Table 10.4, and no error meets it on its way (R31). -/
abbrev AtHead (e : Env) (d : Dp) (r : RingId) (t : Nat) (x : BitVec 512) (op : Nat) : Prop :=
  headDesc e d r = some (t, x) ∧ dOp x = op ∧ frontCheck e d r x = none ∧ descError e d r x = none

/-- R256 to R266, R342. Record h of a kind stands at place n of those received and may be taken by barrier i, with lintel record l, whose home tile serves. -/
abbrev LintelTakes (e : Env) (d : Dp) (n i : Nat) (kind : Byte) (h : InHod) (b : Brick) (x : Barrier) (l : Lintel) : Prop :=
  inboundAt e d n = some h ∧ h.rec_.kind = kind ∧ kind ≠ 9#8 ∧ h.waits e d = false ∧ hIndex h.rec_.handle = i ∧ h.target e d = some i
  ∧ tileServes e d (homeOf e i) = true ∧ brickOf d i = b ∧ b.body = .barrier x ∧ b.lost = none ∧ fget d.lintels i = some l
  ∧ Prompt e d i

/-- R273, R279, R282, R417. A frame f of the stream, g from its frame header on, passes every check of R277 and R282 while the link block is enabled and the instance runs; its link's peer holds nothing. -/
abbrev FrameIn (e : Env) (d : Dp) (f g : List Byte) : Prop :=
  e.lf.enable = true ∧ e.stop.stopped = false ∧ e.pwr.pfFrozen = false ∧ 18 ≤ f.length ∧ f.length ≤ mtuOf e + 22 ∧ deframe e f = some g ∧ frameOk e g = true
  ∧ (linkOf d (fLink g)).hold = none

/-- R11, R275, Table 9.17. What parseRecs gives of a record that is taken: of a defined kind, without a reserved bit, and with a legal GLEN. -/
abbrev RecordOk (x : HodRec × Bool) : Prop := 1 ≤ x.1.kind.toNat ∧ x.1.kind.toNat ≤ 10 ∧ x.2 = true

/-- R272, R287, Table 9.6. The bytes of a TIME exchange on the package route: header and payload, 48 bytes, with no reserved bit set. -/
abbrev PackageTime (f : List Byte) : Prop := f.length = 48 ∧ fLen f = 48 ∧ fKind f = 2 ∧ headerForm f = true

/-- R277. What the engine has put on the fabric port, and what a pause holds back. -/
def wired (d : Dp) : List FabOut := d.port.fab ++ d.port.fabHeld

/-- The descriptor behind x at ring r, if one has been fetched, has a defined opcode: nothing but x completes (Table 10.4, step 2). -/
abbrev Followed (d : Dp) (r : RingId) (x : BitVec 512) : Prop :=
  (ringOf d r).ahead.head? = some x ∧ ∀ y, ((ringOf d r).ahead.drop 1).head? = some y → (dFields (dOp y)).isSome = true

/-- R319. The completion ring of ring r's owner takes an entry at once: it runs, has room, and no completion waits for it. -/
abbrev Room (d : Dp) (r : RingId) : Prop :=
  (cmplOf d (ringOwner r)).state = .running ∧ fgetD d.held (ownerKey (ringOwner r)) [] = []
  ∧ ((cmplOf d (ringOwner r)).tail - (cmplOf d (ringOwner r)).head).toNat < ringSize (cmplOf d (ringOwner r)).cfg

/-- R316, R317. The 32 bytes of completion c, at the tail of its ring. -/
def complWrite (d : Dp) (o : Owner) (c : Compl) : MemW :=
  let q := cmplOf d o
  { ctx := ownerCtx o, addr := q.cfg.base + BitVec.ofNat 64 (q.tail.toNat % ringSize q.cfg * 32), len := 32
    data := c.bits ((q.tail.toNat / ringSize q.cfg) % 2 == 0) }

/-- R316, R319. From d to d2 the descriptor at the head of ring r has completed with c: the entry is written, TAIL and HEAD have gone on by one. -/
def Completed (d d2 : Dp) (r : RingId) (c : Compl) : Prop :=
  complWrite d (ringOwner r) c ∈ d2.port.mem ∧ (cmplOf d2 (ringOwner r)).tail = (cmplOf d (ringOwner r)).tail + 1
  ∧ (cmplOf d2 (ringOwner r)).head = (cmplOf d (ringOwner r)).head ∧ (ringOf d2 r).head = (ringOf d r).head + 1
  ∧ (ringOf d2 r).ahead = (ringOf d r).ahead.drop 1 ∧ (ringOf d2 r).wait = none

/-- The keys of the brick table rise: no index stands twice (DataPathInvariant). -/
abbrev BricksRise (d : Dp) : Prop := (d.bricks.map Prod.fst).Pairwise (· < ·)

/-- A rising list of numbers below n. -/
abbrev Rising (n : Nat) (l : List Nat) : Prop := l.Pairwise (· < ·) ∧ ∀ k ∈ l, k < n

/-- R19, R377, R395, R400, R415, R428, R442, R471. What the environment keeps to: filters count at most four samples, TPULSE is high only as an output, a timed GO waits only in a stopped instance, READY follows ENABLE, a sleeping tile is powered and unlocked, the pool and the fences list each unit once and in its range, and every logical tile stands on one of the 36 physical tiles. -/
abbrev EnvOk (e : Env) : Prop :=
  e.clk.gstopN.differ < 5 ∧ e.clk.pwrwarnN.differ < 5 ∧ e.clk.tpulse.differ < 5
  ∧ (e.clk.tpFall.isSome = true → e.clk.tpDir = 1#2) ∧ (e.stop.goPend = true → e.stop.stopped = true)
  ∧ (e.pwr.ready = true → e.pwr.enable = true)
  ∧ (∀ p ∈ e.pwr.ptiles, p.2.lock ≤ 2 ∧ (p.2.asleep = true → p.2.powered = true ∧ p.2.lock = 0) ∧ (p.2.powered = false → p.2.lock = 0))
  ∧ Rising 36 e.rep.spares ∧ Rising 32 e.rep.unavail ∧ Rising 1024 e.rep.fencedAgents ∧ Rising 36 e.rep.fencedTiles
  ∧ e.rep.fencedPorts.Pairwise (· < ·) ∧ ∀ p ∈ e.rep.lmap, p.2 < 36

/-- What the data path keeps to: the keys of the brick table rise; every joint entry, also of a SAVED partition, was numbered before the next number; and exactly a SAVED partition has saved context. -/
abbrev DpOk (d : Dp) : Prop :=
  BricksRise d ∧ (∀ j ∈ d.joints, ∀ x ∈ j.2.entries, x.id < d.seq)
  ∧ (∀ p ∈ d.parts, (p.2.st = .saved ↔ p.2.saved.isSome = true) ∧ ∀ q ∈ (p.2.saved.map (fun v => v.entries)).getD [], q.2.id < d.seq)

/-- R464. No access waits at the register port. -/
abbrev PortFree (d : Dp) : Prop := d.port.access = []

/-- R8, R9, R445. The register port takes actor a's access to the window, or keeper block, of owner o. -/
abbrev WindowOpen (e : Env) (d : Dp) (a : Actor) (o : Owner) : Prop :=
  PortFree d ∧ match o with
  | .part p => (a.keeper = true ∨ a.pid = p) ∧ e.pwr.warmBusy = false ∧ (partOf d p).st ≠ .resetting
  | .keeper => a.keeper = true

/-- R31. No double-bit error waits at a port of a way. -/
abbrev ClearWay (d : Dp) (l : List Nat) : Prop := ∀ x ∈ d.flitErr, x.2 = true → x.1 ∉ l

/-- R31, R36, R374, R440. An access to logical tile t travels at once, there and back, and finds the tile awake and not under test. -/
abbrev TileAnswers (e : Env) (d : Dp) (t : Nat) : Prop :=
  PortFree d ∧ reaches e t = true ∧ (ptileOf e (physOf e t)).asleep = false ∧ (tileOf d t).test = none ∧ ClearWay d (accessTo e t) ∧ ClearWay d (accessBack e t)

end Sys2Proof.Safety
end

