-- ==== Sys2Proof/WellFormed.lean ====
section
/-! DEFINITION. Sys2Proof/WellFormed.lean: the operands that the spec's tables admit, for the rows whose operand types are wider than the table says. Every other row is well formed by its types. -/

namespace Sys2Proof

/-- R306. A fetch batch is 1 to 16 descriptors. -/
def batchWf (l : List (BitVec 512)) : Bool := decide (1 ≤ l.length) && decide (l.length ≤ 16)

/-- Table 10.5. COUNT of a handle list has 13 bits. -/
def listWf (l : List Dword) : Bool := decide (l.length < 2 ^ 13)

/-- Table 6.5 (R189). A weight table is at most 2,047 entries of at most 64 bytes. -/
def tableWf (l : List Byte) : Bool := decide (l.length ≤ 64 * 2047)

/-- R333. A marker comes from a joint or a front-end tile. -/
def FreezeSrc.marks : FreezeSrc → Bool
  | .joint _ => true
  | .frontEnd _ => true
  | .tile _ => false

/-- R25. Routers 0 to 143 of the 12 x 12 mesh. -/
def routerWf (r : BitVec 8) : Bool := decide (r.toNat < 144)

/-- R372. Physical tiles 0 to 35. -/
def ptileWf : Option (BitVec 6) → Bool
  | some t => decide (t.toNat < 36)
  | none => true

/-- Table 13.6. Trigger sources 0 to 4. -/
def sourceWf (n : BitVec 3) : Bool := decide (n.toNat ≤ 4)

/-- Table 8.3. The defined opcodes of agent requests. -/
def opcodes : List Nat := [0x01, 0x02, 0x03, 0x04, 0x08, 0x09, 0x0A, 0x10, 0x11, 0x12, 0x18, 0x19, 0x1A, 0x20, 0x21, 0x22, 0x30]

/-- R249. An opcode that is named undefined is none of Table 8.3. -/
def reqWf (r : Req) : Bool := r.undef.all (fun c => !opcodes.contains c.toNat)

/-- The operands of a command are ones that the tables admit. -/
def Instr.wf : Instr → Bool
  | .fetchBatch _ l => batchWf l
  | .brickFree _ l => listWf l
  | .bondSet _ l => listWf l
  | .snapshot _ l => listWf l
  | .weightLoad _ l => tableWf l
  | .drainMarker _ src _ => src.marks
  | .meshEcc _ r _ => routerWf r
  | .engineEccError t _ => ptileWf t
  | .trigger n => sourceWf n
  | .arrive _ r | .arriveWait _ r | .wait _ r | .test _ r | .semTake _ r | .semTry _ r | .semGive _ r | .lockAcq _ r
  | .lockTry _ r | .lockRel _ r | .tokPut _ r | .tokGet _ r | .tokTryget _ r | .evtSet _ r | .evtWait _ r | .evtClear _ r
  | .query _ r => reqWf r
  | .sealAck _ _ | .arrivalHod _ | .branchCombine _ | .releaseCopy _ | .watcherCopy _ | .forwardedWait _
  | .unwatch _ | .alignedReleaseInstant _ | .barrierDeadlineExpiry _ | .sweepHod _ | .sweepAnswers _ | .agentDeparture _
  | .shrinkHod _ | .departureReport _ | .waitDeadlineExpiry _ _ _ | .responseHod _ | .hintAccept _ | .nudge _
  | .palletSweep _ | .forwardedPut _ | .ringWriteDone _ _ | .refillDone _ _ | .palletRingFault _ _ _ _ | .mgmtSteal _ _
  | .fetchComplete _ _ _ | .fetchSlotFree _ | .backstoreRetry _ _ _ | .mirrorUpdate _ | .mirrorAck _ | .bounce _
  | .pathProbe _ _ | .brickAlloc _ | .barrierArm _ | .groutCfg _ | .lintelLink _ | .palletCfg _ | .nop _ | .orderFence _
  | .orderFencePassed _ | .ctxSave _ | .ctxRestore _ _ | .fenceUnit _ | .repoint _ | .descriptorXlateFault _ _
  | .completionWriteFault _ _ | .heldCompletionWrite _ | .irqMergeExpiry _ _ | .dbLoWrite _ _ _ | .doorbellSubmit _ _ _
  | .doorbellCmplHead _ _ _ | .doorbellIncHead _ _ _ | .resume _ _ _ | .freeze _ _ | .backlogHod _ _ | .arriveUp _
  | .lintelRelease _ | .twin _ | .departUp _ | .poison _ | .sweep _ | .probe _ | .probeAns _ | .refuse _
  | .refuseRetryBackoff _ | .incidentHod _ | .data _ _ | .ack _ _ | .sync _ _ | .standaloneAckTimer _ | .retransmitExpiry _
  | .hold _ _ | .holdmaxExpiry _ | .time _ _ _ | .timeExchangeSend | .timeExchangeTimeout _ | .offsetResult | .d2dErr _
  | .pause _ | .packageRecord _ _ | .incidentReport _ | .incidentNumberReturn _ | .incidentHoldClose _
  | .incidentTableWrite _ _ | .incidentCopyWrite _ _ | .kpIncClose _ | .jointStall _ | .tileFault _ _ | .selfTestDone _ _
  | .powerFailWarning | .globalStopPin | .kpStopStop _ | .kpStopGo _ | .goAtReached | .throttle _ | .clockChange
  | .coldReset | .agentReset _ _ _ | .tpulseInput | .tpulseOutput | .tileSleep _ | .tileWakeHod _ | .wakeComparator _
  | .kpCtlEnable _ | .tilesReady | .kpCtlWarm _ | .pdPctlReset _ _ | .kpGtStepHi _ | .gtStepApply | .lfTctlStart _
  | .kpRepairRemeasure _ | .kpRowfix _ | .tcCtlTrig _ | .tcCtlRearm _ | .tcCtlResume _ | .tcCtlFlush _ | .tcCtlClrctr _
  | .tcMarkHi _ | .tcCsel _ | .pwObsctlClear _ _ _ | .pwObsctlResume _ _ _ | .pwCtrShadowRead _ _ | .pairLoRead _ _
  | .pairLoWrite _ _ _ | .lfKeyWrite _ _ _ | .registerWrite _ _ _ | .quietCommit _ | .traceDrain _ | .traceRingFault _ _
  | .referenceEdge _ _ | .responseAccept _ | .d2dErrClear _ | .unmatchedMStag _ | .returnedHodResend _
  | .hallIncidentResend _ => true

end Sys2Proof
end

