-- ==== Sys2Proof/Certificates/Slice0/Obligations.lean ====
section
/-! DEFINITION. Sys2Proof/Certificates/Slice0/Obligations.lean: the statements for the provers. -/

open Sys2Proof Sys2Proof.Machine Sys2Proof.Safety

/-! ### The queue -/

/-- A step takes the command at the front of the queue and runs it with the queue's rest. Without a waiting command it is one tile clock cycle (the model's choice, log 3): it counts the cycle, unless the instance is stopped; while no CTX_SAVE and no warm reset is under way, and no request and no register access waits, it changes counters only. -/
def Obligations.StepRunsFront : Prop :=
  (∀ (c : Instr) (rest : List Instr) (s : State), step { s with pending := c :: rest } = exec c { s with pending := rest })
  ∧ (∀ (s : State), s.pending = [] →
     (∃ t, step s = .next t ∧ t.pending = [])
     ∧ (s.env.stop.stopped = true → s.dp.port.access = [] → step s = .next s)
     ∧ (s.env.stop.stopped = false → s.dp.ctxRun = none → s.env.pwr.warmBusy = false → s.dp.port.access = [] →
         s.dp.net.any (fun h => h.body.isReq) = false →
         ∃ t, step s = .next t ∧ t.pending = [] ∧ t.env = { s.env with clk := { s.env.clk with cyc := s.env.clk.cyc + 1 } }
           ∧ t.dp = { s.dp with obs := t.dp.obs } ∧ t.dp.obs.pctr = s.dp.obs.pctr))

/-- Every command answers a next state, whatever the state: the block has no fault of its own, and a command whose condition does not hold leaves the state as it is, which is the model's choice (log 2). None changes what the integrator fixed, fields of the model's own State (log 4), and none touches the queue's rest. -/
def Obligations.CommandsComplete : Prop :=
  ∀ (c : Instr) (s : State), ∃ t, exec c s = .next t ∧ t.pending = s.pending ∧ t.env.cfg = s.env.cfg

/-! ### Agent requests at the joint -/

/-- R230, R232, R237: a release-class request that passes Table 8.4 takes its entry and asks for its seal; a request of a slot whose earlier request awaits its seal is held back behind it, whatever its operation. Nothing else but the request count, the entry numbering and the joint changes. -/
def Obligations.RequestWaitsForSeal : Prop :=
  (∀ (s : State) (op : AOp) (j : BitVec 7) (r : Req) (p : BitVec 4) (sh : Bool),
     op.release = true → Admitted s.env s.dp j.toNat op r p sh → SlotClear s.dp j.toNat r.slot →
     let y := jointOf s.dp j.toNat
     let y2 : Joint := { y with entries := y.entries ++ [newEntry s.dp.seq op r p sh .sealing], seals := fput y.seals r.slot.toNat (now s.env) }
     let d : Dp := { bumpK s.env s.dp 2 j.toNat 0 1 with seq := s.dp.seq + 1 }
     exec (requestOf op j r) s = .next { s with dp := setJoint d j.toNat y2 })
  ∧ (∀ (s : State) (op : AOp) (j : BitVec 7) (r : Req) (p : BitVec 4) (sh : Bool),
     Admitted s.env s.dp j.toNat op r p sh → ¬ SlotClear s.dp j.toNat r.slot →
     let y := jointOf s.dp j.toNat
     let y2 : Joint := { y with entries := y.entries ++ [newEntry s.dp.seq op r p sh .behind] }
     let d : Dp := { bumpK s.env s.dp 2 j.toNat 0 1 with seq := s.dp.seq + 1 }
     exec (requestOf op j r) s = .next { s with dp := setJoint d j.toNat y2 })

/-- R229, R231, R46, R235, R500, R131: what each failing step of Table 8.4 answers, and that such a request takes no entry and reaches no brick. FENCED and ACCESS carry their incident's number, and wait for it while the joint does not know it; ACCESS raises its incident. That the RID of a refused request which waits for that number is outstanding (log 73), and that the BUSY of a second queued request carries COURSE 0 (log 55), are the model's choice. -/
def Obligations.RequestRefused : Prop :=
  ∀ (s : State) (op : AOp) (j : BitVec 7) (r : Req),
    let tells := fun (st : Status) => ∃ t, exec (requestOf op j r) s = .next t
      ∧ beatsOf t.dp j.toNat = beatsOf s.dp j.toNat ++ beatsFor r.slot r.rid (Resp.plain st)
      ∧ (jointOf t.dp j.toNat).entries = (jointOf s.dp j.toNat).entries
      ∧ t.dp.bricks = s.dp.bricks ∧ t.dp.net = s.dp.net ∧ t.dp.stripes = s.dp.stripes ∧ t.env = s.env
    let numbers := fun (key : IncKey) (st : Status) => ∃ t, exec (requestOf op j r) s = .next t
      ∧ (∀ n, numberOf s.dp (.joint j.toNat) key = some n →
          beatsOf t.dp j.toNat = beatsOf s.dp j.toNat ++ beatsFor r.slot r.rid { Resp.plain st with value := n.setWidth 64 })
      ∧ (numberOf s.dp (.joint j.toNat) key = none → beatsOf t.dp j.toNat = beatsOf s.dp j.toNat
          ∧ (.joint j.toNat, key, s.dp.inc.serial) ∈ t.dp.inc.waits
          ∧ fget t.dp.inc.waitResp s.dp.inc.serial = some { joint := j.toNat, entry := none, slot := r.slot, rid := r.rid, resp := Resp.plain st })
      ∧ (st = .access → ∃ q ∈ t.dp.inc.reports, q.1 = .joint j.toNat ∧ q.2.key = key)
      ∧ (jointOf t.dp j.toNat).entries = (jointOf s.dp j.toNat).entries
      ∧ t.dp.bricks = s.dp.bricks ∧ t.dp.net = s.dp.net ∧ t.dp.stripes = s.dp.stripes ∧ t.env = s.env
    (∀ key, accepts s.env = true → (agentClass s.env j.toNat r.slot.toNat).isSome = true → (jointOf s.dp j.toNat).reset.getLsbD r.slot.toNat = false →
      agentFence s.env j.toNat r.slot = some key →
      (4 < r.beats.length → tells .badCount) ∧ (r.beats.length ≤ 4 → numbers key .fenced))
    ∧ (Presented s.env s.dp j.toNat r → r.beats.length ≤ 4 → agentPart s.dp j.toNat r.slot.toNat = none →
        (handleHere s.env r.handle = false → tells .badHandle)
        ∧ (handleHere s.env r.handle = true → numbers (mkKey s.env 3 (agentNo j.toNat r.slot) .access) .access))
    ∧ (∀ p, Presented s.env s.dp j.toNat r → agentPart s.dp j.toNat r.slot.toNat = some p → r.beats.length ≤ 4 →
        handleFront s.env (some p) (reqTypes r op) r.handle = some .access → numbers (mkKey s.env 3 (agentNo j.toNat r.slot) .access) .access)
    ∧ (∀ p st, Presented s.env s.dp j.toNat r → agentPart s.dp j.toNat r.slot.toNat = some p →
    (4 < r.beats.length ∧ st = .badCount
      ∨ r.beats.length ≤ 4 ∧ handleFront s.env (some p) (reqTypes r op) r.handle = some st ∧ st ≠ .access
      ∨ r.beats.length ≤ 4 ∧ handleFront s.env (some p) (reqTypes r op) r.handle = none ∧ stepForm s.dp j.toNat op r = some st
      ∨ Formed s.env s.dp j.toNat op r p ∧ st = .suspended
        ∧ ((jointOf s.dp j.toNat).frozen.contains p.toNat = true ∨ (partOf s.dp p).st = .saved ∨ (partOf s.dp p).st = .restoring)
      ∨ Formed s.env s.dp j.toNat op r p ∧ (jointOf s.dp j.toNat).frozen.contains p.toNat = false ∧ (partOf s.dp p).st = .run
        ∧ ridOut s.dp j.toNat r.slot r.rid = true ∧ st = .busy
      ∨ Formed s.env s.dp j.toNat op r p ∧ (jointOf s.dp j.toNat).frozen.contains p.toNat = false ∧ (partOf s.dp p).st = .run
        ∧ ridOut s.dp j.toNat r.slot r.rid = false
        ∧ (freeEntry s.dp j.toNat r.slot = none ∧ st = .retry ∨ freeEntry s.dp j.toNat r.slot ≠ none ∧ alreadyQueued s.dp j.toNat op r = true ∧ st = .busy)) →
      tells st)

/-! ### Locks and semaphores -/

/-- Table 4.4 (R138): LOCK_TRY and LOCK_ACQ at the home tile: the lock becomes what the table's decision makes of it, every other brick stays, and the answer or the INHERIT hint goes out; an acquire that cannot be granted pends. -/
def Obligations.LockRequestsDecide : Prop :=
  ∀ (s : State) (j : BitVec 7) (r : Req) (p : BitVec 4) (sh : Bool) (b : Brick) (l : Lock),
    SlotClear s.dp j.toNat r.slot → Homed s.env s.dp r.handle b → Near s.env s.dp j.toNat r.handle → Allowed s.env s.dp j.toNat r.slot b →
    b.body = .lock l →
    FreshId s.dp j.toNat →
    (Admitted s.env s.dp j.toNat .lockTry r p sh →
      ∃ t, exec (.lockTry j r) s = .next t ∧ t.env = s.env
        ∧ (let i := hIndex r.handle
           let x := newEntry s.dp.seq .lockTry r p sh .atHome
           let q := l.tryAcquire (mkWaiter s.env (homeOf s.env i) j.toNat x 0)
           brickOf t.dp i = { b with body := .lock q.1 } ∧ (∀ k, k ≠ i → brickOf t.dp k = brickOf s.dp k)
           ∧ posts t.dp.net = posts s.dp.net
               ++ posts [replyHod (homeOf s.env i) j.toNat x.id b.part (grantResp .lockTry (agentNo j.toNat r.slot) q.2 q.1.grants)]))
    ∧ (Admitted s.env s.dp j.toNat .lockAcq r p sh →
      ∃ t, exec (.lockAcq j r) s = .next t ∧ t.env = s.env
        ∧ (let i := hIndex r.handle
           let x := newEntry s.dp.seq .lockAcq r p sh .atHome
           let w := mkWaiter s.env (homeOf s.env i) j.toNat x (pickStore s.env s.dp (homeOf s.env i) s.dp.free)
           let q := l.acquire w (storeRoom s.env s.dp (homeOf s.env i))
           brickOf t.dp i = { b with body := .lock q.1 } ∧ (∀ k, k ≠ i → brickOf t.dp k = brickOf s.dp k)
           ∧ posts t.dp.net = posts s.dp.net ++ posts (qHods (homeOf s.env i) b r.handle q.2.2)
               ++ (match q.2.1 with
                 | .answer st => posts [replyHod (homeOf s.env i) j.toNat x.id b.part (grantResp .lockAcq (agentNo j.toNat r.slot) st q.1.grants)]
                 | .pend => [])
           ∧ (q.2.1 = .pend →
               (jointOf t.dp j.toNat).entries = (jointOf s.dp j.toNat).entries ++ [{ x with phase := .pends, pended := true, seen := true }])))

/-- Table 4.4 (R138), R134, R135: a free lock goes to the requester at its priority; a held lock is not taken; an acquire of the holder is BUSY; another one queues when the waiter store has room, and raises the effective priority to the highest waiting one (R139). A release by another than the holder changes nothing (R138); the holder's release frees a lock without waiters, and hands a lock with waiters to the oldest waiter of the highest level, with one grant; the former holder gets a RESTORE hint with its own priority exactly where the effective one was above it (R140). -/
def Obligations.LockDecision : Prop :=
  ∀ (l : Lock) (w : Waiter) (room : Bool) (agent : Nat) (gang : BitVec 6),
    (l.held = false → l.acquire w room = (l.take w, .answer (if l.abandoned then .okAbandoned else .ok), [])
      ∧ l.tryAcquire w = (l.take w, if l.abandoned then .okAbandoned else .ok)
      ∧ (l.take w).held = true ∧ (l.take w).hagent = w.agent ∧ (l.take w).hgang = w.gang ∧ (l.take w).hprio = w.prio
      ∧ (l.take w).eprio = w.prio ∧ (l.take w).abandoned = false ∧ (l.take w).grants = l.grants + 1)
    ∧ (l.held = true → l.tryAcquire w = (l, .busy))
    ∧ (l.held = true → (w.agent = l.hagent ∧ w.gang = l.hgang ∨ room = false) → l.acquire w room = (l, .answer .busy, []))
    ∧ (l.held = true → ¬ (w.agent = l.hagent ∧ w.gang = l.hgang) → room = true →
        (l.acquire w room).2.1 = .pend ∧ (l.acquire w room).1.queue = l.queue ++ [w]
        ∧ (l.acquire w room).1.held = true ∧ (l.acquire w room).1.hagent = l.hagent ∧ (l.acquire w room).1.hgang = l.hgang
        ∧ (l.acquire w room).1.grants = l.grants
        ∧ (l.acquire w room).1.eprio = (l.acquire w room).1.effective
        ∧ (∀ v ∈ l.queue ++ [w], v.prio.toNat ≤ (l.acquire w room).1.eprio.toNat)
        ∧ l.hprio.toNat ≤ (l.acquire w room).1.eprio.toNat)
    ∧ (l.holder agent gang = false → l.release agent gang = (l, .notOwner, []))
    ∧ (l.holder agent gang = true → (l.release agent gang).2.1 = .ok
        ∧ (l.hprio.toNat < l.eprio.toNat → .hint 2 l.hagent l.hgang l.hprio ∈ (l.release agent gang).2.2)
        ∧ (l.eprio.toNat ≤ l.hprio.toNat → ∀ a g p, .hint 2 a g p ∉ (l.release agent gang).2.2))
    ∧ (l.holder agent gang = true → l.queue = [] → (l.release agent gang).1.held = false ∧ (l.release agent gang).1.grants = l.grants)
    ∧ (l.holder agent gang = true → l.queue ≠ [] →
        ∃ w, w ∈ l.queue ∧ (∀ v ∈ l.queue, v.prio.toNat ≤ w.prio.toNat)
          ∧ (l.queue.find? (fun v => v.prio == w.prio)) = some w
          ∧ (l.release agent gang).1.held = true ∧ (l.release agent gang).1.hagent = w.agent ∧ (l.release agent gang).1.hgang = w.gang
          ∧ (l.release agent gang).1.hprio = w.prio ∧ (l.release agent gang).1.grants = l.grants + 1
          ∧ (l.release agent gang).1.queue = dequeue w l.queue
          ∧ .grant w (if l.abandoned then .okAbandoned else .ok) (l.grants + 1) ∈ (l.release agent gang).2.2)

/-- Table 4.6 (R149): SEM_TRY and SEM_TAKE at the home tile. -/
def Obligations.SemaphoreRequestsDecide : Prop :=
  ∀ (s : State) (j : BitVec 7) (r : Req) (p : BitVec 4) (sh : Bool) (b : Brick) (m : Sem),
    SlotClear s.dp j.toNat r.slot → Homed s.env s.dp r.handle b → Near s.env s.dp j.toNat r.handle → Allowed s.env s.dp j.toNat r.slot b →
    b.body = .semaphore m →
    FreshId s.dp j.toNat →
    (Admitted s.env s.dp j.toNat .semTry r p sh →
      ∃ t, exec (.semTry j r) s = .next t ∧ t.env = s.env
        ∧ (let i := hIndex r.handle
           let x := newEntry s.dp.seq .semTry r p sh .atHome
           let q := m.tryTake (mkWaiter s.env (homeOf s.env i) j.toNat x 0)
           brickOf t.dp i = { b with body := .semaphore q.1 } ∧ (∀ k, k ≠ i → brickOf t.dp k = brickOf s.dp k)
           ∧ posts t.dp.net = posts s.dp.net ++ posts [replyHod (homeOf s.env i) j.toNat x.id b.part (Resp.at q.2 (BitVec.ofNat 32 q.1.count))]))
    ∧ (Admitted s.env s.dp j.toNat .semTake r p sh →
      ∃ t, exec (.semTake j r) s = .next t ∧ t.env = s.env
        ∧ (let i := hIndex r.handle
           let x := newEntry s.dp.seq .semTake r p sh .atHome
           let w := mkWaiter s.env (homeOf s.env i) j.toNat x (pickStore s.env s.dp (homeOf s.env i) s.dp.free)
           let q := m.take w (storeRoom s.env s.dp (homeOf s.env i))
           brickOf t.dp i = { b with body := .semaphore q.1 } ∧ (∀ k, k ≠ i → brickOf t.dp k = brickOf s.dp k)
           ∧ (match q.2 with
             | .answer st =>
               posts t.dp.net = posts s.dp.net ++ posts [replyHod (homeOf s.env i) j.toNat x.id b.part (Resp.at st (BitVec.ofNat 32 q.1.count))]
             | .pend =>
               posts t.dp.net = posts s.dp.net
               ∧ (jointOf t.dp j.toNat).entries = (jointOf s.dp j.toNat).entries ++ [{ x with phase := .pends, pended := true, seen := true }])))

/-- Table 4.6 (R149), R134, R135: takes never overtake a waiter of their level or above and never make COUNT negative; a give adds n, refuses an overflow, and the grant loop takes from COUNT exactly what it grants, stopping only at a head waiter whose n is above COUNT. -/
def Obligations.SemaphoreDecision : Prop :=
  ∀ (m : Sem) (w : Waiter) (room : Bool) (n : Nat),
    (w.n = 0 → m.take w room = (m, .answer .ok) ∧ m.tryTake w = (m, .ok))
    ∧ (w.n ≠ 0 → w.n ≤ m.count → (∀ v ∈ m.queue, v.prio.toNat < w.prio.toNat) →
        m.take w room = ({ m with count := m.count - w.n }, .answer .ok) ∧ m.tryTake w = ({ m with count := m.count - w.n }, .ok))
    ∧ (w.n ≠ 0 → (m.count < w.n ∨ ∃ v ∈ m.queue, w.prio.toNat ≤ v.prio.toNat) →
        m.tryTake w = (m, .busy) ∧ m.take w false = (m, .answer .busy) ∧ m.take w true = ({ m with queue := m.queue ++ [w] }, .pend))
    ∧ (n ≠ 0 → 0xFFFFFFFF < m.count + n → m.give n = (m, .badCount, []))
    ∧ (m.count + n ≤ 0xFFFFFFFF → n ≠ 0 →
        (m.give n).2.1 = .ok
        ∧ (m.give n).1.count + ((m.give n).2.2.map (fun v => match v with | .grant u _ _ => u.n | .hint _ _ _ _ => 0)).sum = m.count + n
        ∧ (m.give n).1.queue.length + (m.give n).2.2.length = m.queue.length
        ∧ (∀ u, topWaiter (m.give n).1.queue = some u → (m.give n).1.count < u.n))

/-! ### Events, TEST and QUERY -/

/-- Table 3.7 (R126): EVT_CLEAR clears SET; EVT_WAIT of a set event is answered at once, and of a clear one pends with its joint in WAITJ. -/
def Obligations.EventRequestsDecide : Prop :=
  ∀ (s : State) (j : BitVec 7) (r : Req) (p : BitVec 4) (sh : Bool) (b : Brick) (v : Event),
    SlotClear s.dp j.toNat r.slot → Homed s.env s.dp r.handle b → Allowed s.env s.dp j.toNat r.slot b → b.body = .event v →
    FreshId s.dp j.toNat →
    (Admitted s.env s.dp j.toNat .evtClear r p sh → Near s.env s.dp j.toNat r.handle →
      ∃ t, exec (.evtClear j r) s = .next t ∧ t.env = s.env
        ∧ brickOf t.dp (hIndex r.handle) = { b with body := .event { v with set := false } }
        ∧ (∀ k, k ≠ hIndex r.handle → brickOf t.dp k = brickOf s.dp k)
        ∧ posts t.dp.net = posts s.dp.net ++ posts [replyHod (homeOf s.env (hIndex r.handle)) j.toNat s.dp.seq b.part (Resp.at .ok v.sets)])
    ∧ (Admitted s.env s.dp j.toNat .evtWait r p sh → Near s.env s.dp j.toNat r.handle → forwarded s.dp j.toNat r.handle = false →
      ∃ t, exec (.evtWait j r) s = .next t ∧ t.env = s.env
        ∧ brickOf t.dp (hIndex r.handle) = { b with body := .event (if v.set then v else { v with waitj := setInsert j.toNat v.waitj }) }
        ∧ (∀ k, k ≠ hIndex r.handle → brickOf t.dp k = brickOf s.dp k)
        ∧ posts t.dp.net = posts s.dp.net
            ++ (if v.set then posts [replyHod (homeOf s.env (hIndex r.handle)) j.toNat s.dp.seq b.part (Resp.at .ok v.sets)] else [])
        ∧ forwarded t.dp j.toNat r.handle = true)
    ∧ (Admitted s.env s.dp j.toNat .evtWait r p sh → forwarded s.dp j.toNat r.handle = true →
      ∃ t, exec (.evtWait j r) s = .next t ∧ t.env = s.env ∧ t.dp.bricks = s.dp.bricks ∧ t.dp.net = s.dp.net
        ∧ (jointOf t.dp j.toNat).entries = (jointOf s.dp j.toNat).entries ++ [{ newEntry s.dp.seq .evtWait r p sh .pends with pended := true }])

/-- R228, R107, R108, R161, R163, Tables 3.4, 3.7, 4.4, 4.6, 5.4, 8.3: what TEST and QUERY of a lock, semaphore, event, barrier or pallet answer, from the brick, or TEST of a barrier from the joint's bed where there is one (with the COURSE of log 13 where it refuses); from every state they leave every brick record, stripe and lintel record, every partition (but for the answers that a frozen one keeps) and the environment as they are. -/
def Obligations.TestAndQueryReport : Prop :=
  (∀ (s : State) (j : BitVec 7) (r : Req) (p : BitVec 4) (sh : Bool) (b : Brick),
     SlotClear s.dp j.toNat r.slot → Homed s.env s.dp r.handle b → Near s.env s.dp j.toNat r.handle → Allowed s.env s.dp j.toNat r.slot b →
     b.body ≠ .pallet → b.typ ≠ .pallet →
     (Admitted s.env s.dp j.toNat .query r p sh →
       ∃ t a, exec (.query j r) s = .next t ∧ t.env = s.env ∧ t.dp.bricks = s.dp.bricks
         ∧ posts t.dp.net = posts s.dp.net ++ posts [replyHod (homeOf s.env (hIndex r.handle)) j.toNat s.dp.seq b.part a]
         ∧ a.status = .ok ∧ a.value = queryValue b ∧ a.beats = [])
     ∧ (Admitted s.env s.dp j.toNat .test r p sh → (∀ x, b.body ≠ .barrier x) → bedFor s.dp j.toNat r.handle = none →
       ∃ t a, exec (.test j r) s = .next t ∧ t.env = s.env ∧ t.dp.bricks = s.dp.bricks
         ∧ posts t.dp.net = posts s.dp.net ++ posts [replyHod (homeOf s.env (hIndex r.handle)) j.toNat s.dp.seq b.part a]
         ∧ a.status = (if readyNow b then .ok else .busy)))
  ∧ (∀ (s : State) (j : BitVec 7) (r : Req) (p : BitVec 4) (sh : Bool) (bed : Bed),
     SlotClear s.dp j.toNat r.slot → FreshId s.dp j.toNat → Admitted s.env s.dp j.toNat .test r p sh → bedFor s.dp j.toNat r.handle = some bed →
     admits s.env bed.mask j.toNat r.slot = true →
     ∃ t, exec (.test j r) s = .next t ∧ t.dp.net = s.dp.net ∧ (jointOf t.dp j.toNat).entries = (jointOf s.dp j.toNat).entries
       ∧ beatsOf t.dp j.toNat = beatsOf s.dp j.toNat ++ beatsFor r.slot r.rid
           (if completed bed.course (reqTarget r) then doneResp bed.course (reqTarget r) bed.status bed.gflags bed.result
            else match bed.poisoned with
              | some n => { Resp.at .poisoned bed.course with value := n }
              | none => Resp.at .busy bed.course))
  ∧ (∀ (s : State) (j : BitVec 7) (r : Req) (p : BitVec 4) (sh : Bool) (b : Brick) (x : Barrier),
     SlotClear s.dp j.toNat r.slot → Homed s.env s.dp r.handle b → Near s.env s.dp j.toNat r.handle → Allowed s.env s.dp j.toNat r.slot b →
     b.body = .barrier x → Admitted s.env s.dp j.toNat .test r p sh → bedFor s.dp j.toNat r.handle = none →
     let tells := fun (a : Resp) => ∃ t, exec (.test j r) s = .next t
       ∧ posts t.dp.net = posts s.dp.net ++ posts [replyHod (homeOf s.env (hIndex r.handle)) j.toNat s.dp.seq b.part a]
     (completed x.course (reqTarget r) = true → tells (x.done (reqTarget r)))
     ∧ (completed x.course (reqTarget r) = false → x.poisoned = false → tells (Resp.at .busy x.course))
     ∧ (∀ key v, completed x.course (reqTarget r) = false → x.poisoned = true → x.poisonInc = some key →
         numberOf s.dp (.tile (homeOf s.env (hIndex r.handle))) key = some v →
         (partOf s.dp b.part).st ≠ .frozen → (partOf s.dp b.part).st ≠ .saved → (partOf s.dp b.part).st ≠ .restoring →
         tells { Resp.at .poisoned x.course with value := v.setWidth 64, brick := some (hIndex r.handle) }))
  ∧ (∀ (s : State) (j : BitVec 7) (r : Req) (p : BitVec 4) (sh : Bool) (b : Brick),
     SlotClear s.dp j.toNat r.slot → Homed s.env s.dp r.handle b → Near s.env s.dp j.toNat r.handle → Allowed s.env s.dp j.toNat r.slot b →
     b.body = .pallet → b.typ = .pallet → cachedLog2s s.dp j.toNat (hIndex r.handle) = none →
     let tells := fun (i : Instr) (a : Resp) => ∃ t, exec i s = .next t
       ∧ posts t.dp.net = posts s.dp.net ++ posts [replyHod (homeOf s.env (hIndex r.handle)) j.toNat s.dp.seq b.part a]
     (stripeOf s.dp (hIndex r.handle) 0 = none →
         (Admitted s.env s.dp j.toNat .query r p sh → tells (.query j r) { Resp.plain .ok with course := palCourse 0 0 0 0 false })
         ∧ (Admitted s.env s.dp j.toNat .test r p sh → tells (.test j r) { Resp.plain .busy with course := palCourse 0 0 0 0 false }))
     ∧ (∀ q, stripeOf s.dp (hIndex r.handle) 0 = some q → q.lost = none →
         (Admitted s.env s.dp j.toNat .query r p sh → tells (.query j r) { q.resp .ok 0 false [] with value := q.queryValue })
         ∧ (Admitted s.env s.dp j.toNat .test r p sh → tells (.test j r) (q.resp (if q.depth = 0 then .busy else .ok) 0 false []))))
  ∧ (∀ (s t : State) (j : BitVec 7) (r : Req), (exec (.test j r) s = .next t ∨ exec (.query j r) s = .next t) →
     t.env = s.env ∧ t.dp.bricks = s.dp.bricks ∧ t.dp.stripes = s.dp.stripes ∧ t.dp.lintels = s.dp.lintels
     ∧ (∀ q, { partOf t.dp q with recHods := [] } = { partOf s.dp q with recHods := [] }) ∧ t.dp.ag = s.dp.ag ∧ t.dp.links = s.dp.links
     ∧ t.dp.rings = s.dp.rings)

/-- R237, Tables 3.7, 4.4, 4.6: SEAL_ACK lets the sealed LOCK_REL, SEM_GIVE or EVT_SET run at its home tile: the brick becomes what its table says, grants and releases leave before the response. That the response follows the grants and tells the state after them is the model's reading (log 10). -/
def Obligations.SealAckRunsHome : Prop :=
  ∀ (s : State) (j : BitVec 7) (slot : BitVec 3) (x : JEntry) (n : Nat) (b : Brick),
    Sealing s.env s.dp j.toNat slot x n → Homed s.env s.dp x.req.handle b → Near s.env s.dp j.toNat x.req.handle → b.typ ≠ .pallet →
    Allowed s.env s.dp j.toNat slot b →
    let i := hIndex x.req.handle
    let home := homeOf s.env i
    let agent := agentNo j.toNat slot
    (∀ l, x.op = .lockRel → b.body = .lock l →
      ∃ t, exec (.sealAck j slot) s = .next t ∧ t.env = s.env
        ∧ brickOf t.dp i = { b with body := .lock (l.release agent x.req.gang).1 } ∧ (∀ k, k ≠ i → brickOf t.dp k = brickOf s.dp k)
        ∧ posts t.dp.net = posts s.dp.net ++ posts (qHods home b x.req.handle (l.release agent x.req.gang).2.2)
            ++ posts [replyHod home j.toNat x.id b.part (Resp.at (l.release agent x.req.gang).2.1 (l.release agent x.req.gang).1.grants)])
    ∧ (∀ m, x.op = .semGive → b.body = .semaphore m →
      ∃ t, exec (.sealAck j slot) s = .next t ∧ t.env = s.env
        ∧ brickOf t.dp i = { b with body := .semaphore (m.give x.req.count.toNat).1 } ∧ (∀ k, k ≠ i → brickOf t.dp k = brickOf s.dp k)
        ∧ posts t.dp.net = posts s.dp.net ++ posts (qHods home b x.req.handle (m.give x.req.count.toNat).2.2)
            ++ posts [replyHod home j.toNat x.id b.part
              (Resp.at (m.give x.req.count.toNat).2.1 (BitVec.ofNat 32 (m.give x.req.count.toNat).1.count))])
    ∧ (∀ v, x.op = .evtSet → b.body = .event v → v.set = false →
      ∃ t, exec (.sealAck j slot) s = .next t ∧ t.env = s.env
        ∧ brickOf t.dp i = { b with body := .event { set := true, sets := v.sets + 1, waitj := [] } }
        ∧ (∀ k, k ≠ i → brickOf t.dp k = brickOf s.dp k)
        ∧ posts t.dp.net = posts s.dp.net ++ posts (evtHods home i b x.req.handle v.waitj (v.sets + 1) .ok)
            ++ posts [replyHod home j.toNat x.id b.part (Resp.at .ok (v.sets + 1))])
    ∧ (∀ v, x.op = .evtSet → b.body = .event v → v.set = true →
      ∃ t, exec (.sealAck j slot) s = .next t ∧ t.env = s.env ∧ t.dp.bricks = s.dp.bricks
        ∧ posts t.dp.net = posts s.dp.net ++ posts [replyHod home j.toNat x.id b.part (Resp.at .ok v.sets)])

/-! ### Arrivals and waits at the bed -/

/-- R97, R98, R102, R242: a sealed ARRIVE or ARRIVE_WAIT of a member counts its COUNT in the open course or, where the open course is complete for the member, in the next one. Under a grout what counts towards the open course goes on at once, as a hod of its own; without one the joint sends one hod with its summed count, and the TAG of the arrival that completes it, once every member has a = e; what counts towards the next course is held. ARRIVE is answered with the course it counted towards and ARRIVE_WAIT pends for it. What R97 refuses is answered and counts nothing. Which counts are taken, and that a refused one is none of them: a member never contributes more than e to a course. The COURSE that a refusal carries is the model's reading (log 13). -/
def Obligations.ArrivalCountsAtBed : Prop :=
  (∀ (s : State) (j : BitVec 7) (slot : BitVec 3) (x : JEntry) (n : Nat) (bed : Bed) (m : BedMember),
     Sealing s.env s.dp j.toNat slot x n → (x.op = .arrive ∨ x.op = .arriveWait) → bedFor s.dp j.toNat x.req.handle = some bed →
     bed.member slot = some m → admits s.env bed.mask j.toNat slot = true → bed.poisoned = none → bed.armed = true →
     groutCheck bed.cfg m x.req = none → (bed.cfg.isSome && bed.cfgWaits) = false →
     ∃ t bed2 m2, exec (.sealAck j slot) s = .next t ∧ t.env = s.env ∧ t.dp.bricks = s.dp.bricks
       ∧ bedFor t.dp j.toNat x.req.handle = some bed2 ∧ bed2.member slot = some m2 ∧ bed2.course = bed.course ∧ m2.e = m.e
       ∧ (arrCase m x.req.count.toNat = .opens →
           (∀ c, bed.cfg = some c → posts t.dp.net = posts s.dp.net
               ++ [(.joint j.toNat, bed.dest s.env, .req, .arrival (groutArrival bed j.toNat m x (bed.course + 1)))])
           ∧ (bed.cfg = none →
               let all := (bed.setMember { m with a := m.a + x.req.count.toNat }).members.all (fun k => k.a == k.e)
               let sum := (bed.members.map (fun k => k.e - k.f)).sum
               (all = true → sum ≠ 0 → posts t.dp.net = posts s.dp.net
                   ++ [(.joint j.toNat, bed.up, .req, .arrival (plainArrival bed j.toNat x (bed.course + 1) sum))])
               ∧ (all = false ∨ sum = 0 → t.dp.net = s.dp.net)))
       ∧ (arrCase m x.req.count.toNat ≠ .opens → t.dp.net = s.dp.net)
       ∧ (match arrCase m x.req.count.toNat with
         | .opens => m2.a = m.a + x.req.count.toNat ∧ m2.b = m.b
             ∧ (x.op = .arrive → beatsOf t.dp j.toNat = beatsOf s.dp j.toNat ++ beatsFor slot x.req.rid (Resp.at .ok (bed.course + 1)))
             ∧ (x.op = .arriveWait → entryOf t.dp j.toNat x.id = some { x with phase := .pends, pended := true, target := bed.course + 1 })
         | .next => m2.a = m.a ∧ m2.b = m.b + x.req.count.toNat
             ∧ (x.op = .arrive → beatsOf t.dp j.toNat = beatsOf s.dp j.toNat ++ beatsFor slot x.req.rid (Resp.at .ok (bed.course + 2)))
             ∧ (x.op = .arriveWait → entryOf t.dp j.toNat x.id = some { x with phase := .pends, pended := true, target := bed.course + 2 })
         | .refuse st => m2 = m
             ∧ beatsOf t.dp j.toNat = beatsOf s.dp j.toNat ++ beatsFor slot x.req.rid (Resp.at st bed.course)))
  ∧ (∀ (m : BedMember) (c : Nat), m.a ≤ m.e → m.b ≤ m.e →
     (arrCase m c = .opens ↔ 1 ≤ c ∧ m.a + c ≤ m.e)
     ∧ (arrCase m c = .next ↔ 1 ≤ c ∧ m.a = m.e ∧ m.b + c ≤ m.e)
     ∧ (arrCase m c = .refuse .busy ↔ 1 ≤ c ∧ c ≤ m.e ∧ m.a = m.e ∧ m.b = m.e)
     ∧ (arrCase m c = .refuse .badCount ↔ c = 0 ∨ m.e < c ∨ m.a < m.e ∧ m.e < m.a + c ∨ m.a = m.e ∧ m.b < m.e ∧ m.e < m.b + c))

/-- R96, R104, R108, R109: a target T has completed when (COURSE - T) mod 2^32 is below 2^31 and is pending in every other case. WAIT at a joint with a bed is answered at once when its target is done and otherwise pends; without a bed it is forwarded to the home tile, once for each handle. -/
def Obligations.WaitAtJoint : Prop :=
  ∀ (s : State) (j : BitVec 7) (r : Req) (p : BitVec 4) (sh : Bool),
    (∀ course target : Word, completed course target = true ↔ (course - target).toNat < 2 ^ 31)
    ∧ (Admitted s.env s.dp j.toNat .wait r p sh → SlotClear s.dp j.toNat r.slot → FreshId s.dp j.toNat →
    (∀ bed, bedFor s.dp j.toNat r.handle = some bed → admits s.env bed.mask j.toNat r.slot = true → completed bed.course (reqTarget r) = true →
      ∃ t, exec (.wait j r) s = .next t ∧ t.env = s.env ∧ t.dp.bricks = s.dp.bricks ∧ t.dp.net = s.dp.net
        ∧ (jointOf t.dp j.toNat).entries = (jointOf s.dp j.toNat).entries
        ∧ beatsOf t.dp j.toNat = beatsOf s.dp j.toNat ++ beatsFor r.slot r.rid (doneResp bed.course (reqTarget r) bed.status bed.gflags bed.result))
    ∧ (∀ bed, bedFor s.dp j.toNat r.handle = some bed → admits s.env bed.mask j.toNat r.slot = true → completed bed.course (reqTarget r) = false →
        bed.poisoned = none → bed.armed = true →
      ∃ t, exec (.wait j r) s = .next t ∧ t.env = s.env ∧ t.dp.bricks = s.dp.bricks ∧ t.dp.net = s.dp.net
        ∧ (jointOf t.dp j.toNat).entries = (jointOf s.dp j.toNat).entries
            ++ [{ newEntry s.dp.seq .wait r p sh .pends with pended := true, target := reqTarget r }])
    ∧ (bedFor s.dp j.toNat r.handle = none → forwarded s.dp j.toNat r.handle = false →
      ∃ t, exec (.wait j r) s = .next t ∧ t.env = s.env ∧ t.dp.bricks = s.dp.bricks ∧ forwarded t.dp j.toNat r.handle = true
        ∧ posts t.dp.net = posts s.dp.net ++ [(.joint j.toNat, .tile (homeOf s.env (hIndex r.handle)), .req,
            .fwdWait (hIndex r.handle) j.toNat s.dp.seq (reqTarget r))])
    ∧ (bedFor s.dp j.toNat r.handle = none → forwarded s.dp j.toNat r.handle = true →
      ∃ t, exec (.wait j r) s = .next t ∧ t.env = s.env ∧ t.dp.bricks = s.dp.bricks ∧ t.dp.net = s.dp.net
        ∧ (jointOf t.dp j.toNat).entries = (jointOf s.dp j.toNat).entries
            ++ [{ newEntry s.dp.seq .wait r p sh .pends with pended := true, target := reqTarget r }]))

/-! ### What reaches a joint, and its ports -/

/-- R230, R233, R495: RESPONSE_HOD: a response frees its entry and its beats enter the response buffer; one whose entry has gone is counted and dropped; a hint enters the hint FIFO; an event release answers every EVT_WAIT that pends on the event, in slot order. -/
def Obligations.ResponseHodDelivers : Prop :=
  ∀ (s : State) (n j : Nat) (h : Hod), JointTakes s.env s.dp n j h →
    (∀ id r x, h.body = .resp id r → entryOf s.dp j id = some x → x.op ≠ .wait → x.op ≠ .evtWait → x.op ≠ .tokGet →
      ∃ t, exec (.responseHod n) s = .next t ∧ t.env = s.env ∧ t.dp.bricks = s.dp.bricks ∧ t.dp.net = eraseAt s.dp.net n
        ∧ (jointOf t.dp j).entries = (jointOf s.dp j).entries.filter (fun y => y.id != id)
        ∧ beatsOf t.dp j = beatsOf s.dp j ++ beatsFor x.req.slot x.req.rid r)
    ∧ (∀ id r x, h.body = .resp id r → entryOf s.dp j id = some x → (x.op = .wait ∨ x.op = .evtWait ∨ x.op = .tokGet) →
        (jointOf s.dp j).entries.filter (fun y => y.op == x.op && y.req.handle == x.req.handle && (y.id == id || y.phase == .pends)) = [x] →
      ∃ t, exec (.responseHod n) s = .next t ∧ t.env = s.env ∧ t.dp.bricks = s.dp.bricks ∧ t.dp.net = eraseAt s.dp.net n
        ∧ (jointOf t.dp j).entries = (jointOf s.dp j).entries.filter (fun y => y.id != id)
        ∧ beatsOf t.dp j = beatsOf s.dp j ++ beatsFor x.req.slot x.req.rid
            (if x.op = .wait ∧ (r.status = .ok ∨ r.status = .okShrunk) then doneResp r.course x.target r.status r.gflags r.beats else r)
        ∧ (x.op = .wait ∨ x.op = .evtWait → forwarded t.dp j x.req.handle = false))
    ∧ (∀ id r, h.body = .resp id r → entryOf s.dp j id = none → r.holder = none → (jointOf s.dp j).fwdWaits.any (fun p => p.2 == id) = false →
      exec (.responseHod n) s = .next { s with dp := bumpK s.env (dropHod s.dp n) 2 j 4 1 })
    ∧ (∀ x, h.body = .hint x → (jointOf s.dp j).hints.length < Config.hintFifo →
      ∃ t, exec (.responseHod n) s = .next t ∧ t.env = s.env ∧ t.dp.bricks = s.dp.bricks ∧ t.dp.net = eraseAt s.dp.net n
        ∧ (jointOf t.dp j).hints = (jointOf s.dp j).hints ++ [x] ∧ (jointOf t.dp j).entries = (jointOf s.dp j).entries)
    ∧ (∀ i x sets st v, h.body = .evtRelease i x sets st v →
      ∃ t, exec (.responseHod n) s = .next t ∧ t.env = s.env ∧ t.dp.bricks = s.dp.bricks ∧ t.dp.net = eraseAt s.dp.net n
        ∧ (∀ y ∈ (jointOf s.dp j).entries, y.op = .evtWait → y.req.handle = x → y.phase = .pends → entryOf t.dp j y.id = none)
        ∧ (((jointOf s.dp j).entries.map (fun y => y.id)).Nodup →
            beatsOf t.dp j = beatsOf s.dp j
              ++ (bySlot ((jointOf s.dp j).entries.filter (fun y => y.op == .evtWait && y.req.handle == x && y.phase == .pends))).flatMap
                (fun y => beatsFor y.req.slot y.req.rid { Resp.at st sets with value := v }))
        ∧ forwarded t.dp j x = false)

/-- R98, R101, R110, R121: a release moves the bed to the next course, with the members' next-course counts as its counts, and ends the waits that it satisfies; where the bed is complete for the course that opens the joint sends that course's arrival hod at once, and under a grout the arrivals it has held; one of another course leaves the bed; one that takes the bed away puts in its place the bed that waits for its bond's boundary; the end of a barrier's waits with another status ends them, and a poisoning marks the bed; a watcher's copy ends its joint's WAITs. -/
def Obligations.ReleasesCompleteWaits : Prop :=
  ∀ (s : State) (n j : Nat) (h : Hod),
    (∀ r bed, JointTakes s.env s.dp n j h → h.body = .release r → (r.status = .ok ∨ r.status = .okShrunk) → r.removeBed = false →
        bedFor s.dp j r.handle = some bed → r.course = bed.course + 1 →
      ∃ t bed2, exec (.releaseCopy n) s = .next t ∧ t.env = s.env ∧ t.dp.bricks = s.dp.bricks ∧ bedFor t.dp j r.handle = some bed2
        ∧ bed2.course = r.course ∧ bed2.status = r.status ∧ bed2.gflags = r.gflags ∧ bed2.result = r.beats
        ∧ bed2.members.map (fun m => (m.slot, m.e, m.a, m.b)) = bed.members.map (fun m => (m.slot, m.e, m.b, 0))
        ∧ (r.cfg = none →
            (∀ c, bed.cfg = some c → posts t.dp.net = posts (eraseAt s.dp.net n)
                ++ bed.heldPay.map (fun p => (.joint j, bed.dest s.env, .req, .arrival p.1)))
            ∧ (bed.cfg = none → bed.heldPay = [] →
                let all := bed.members.all (fun m => m.b == m.e)
                let sum := (bed.members.map (fun m => m.e)).sum
                (∀ a, all = true → sum ≠ 0 → bed.armed = true → bed.poisoned = none → bed.nextLast = some a →
                    posts t.dp.net = posts (eraseAt s.dp.net n) ++ [(.joint j, bed.up, .req, .arrival { a with course := r.course + 1, count := sum })])
                ∧ (all = false → t.dp.net = eraseAt s.dp.net n)))
        ∧ (r.instant = none → ∀ y ∈ pendingWaits s.dp j r.handle, completed r.course y.target = true → entryOf t.dp j y.id = none))
    ∧ (∀ r bed, JointTakes s.env s.dp n j h → h.body = .release r → (r.status = .ok ∨ r.status = .okShrunk) → bedFor s.dp j r.handle = some bed →
        r.course ≠ bed.course + 1 →
      ∃ t, exec (.releaseCopy n) s = .next t ∧ t.env = s.env ∧ t.dp.bricks = s.dp.bricks ∧ bedFor t.dp j r.handle = some bed)
    ∧ (∀ r bed, JointTakes s.env s.dp n j h → h.body = .release r → (r.status = .ok ∨ r.status = .okShrunk) → r.removeBed = true →
        bedFor s.dp j r.handle = some bed → r.course = bed.course + 1 →
      ∃ t, exec (.releaseCopy n) s = .next t ∧ t.env = s.env ∧ t.dp.bricks = s.dp.bricks
        ∧ (newBedFor s.dp j r.handle r.bond = none → bedFor t.dp j r.handle = none)
        ∧ (∀ nb, newBedFor s.dp j r.handle r.bond = some nb → ∃ bed2, bedFor t.dp j r.handle = some bed2 ∧ bed2.course = r.course
            ∧ bed2.members.map (fun m => (m.slot, m.e)) = nb.members.map (fun m => (m.slot, m.e))))
    ∧ (∀ r bed, JointTakes s.env s.dp n j h → h.body = .release r → r.status ≠ .ok → r.status ≠ .okShrunk → r.removeBed = false →
        bedFor s.dp j r.handle = some bed →
      ∃ t bed2, exec (.releaseCopy n) s = .next t ∧ t.env = s.env ∧ t.dp.bricks = s.dp.bricks ∧ bedFor t.dp j r.handle = some bed2
        ∧ bed2.course = bed.course ∧ (r.marks bed = true → bed2.poisoned = some r.value)
        ∧ (∀ y ∈ pendingWaits s.dp j r.handle, r.endsAt (some bed) y = true → entryOf t.dp j y.id = none))
    ∧ (∀ r, JointTakes s.env s.dp n j h → h.body = .watcher r → r.status ≠ .ok → r.status ≠ .okShrunk →
      ∃ t, exec (.watcherCopy n) s = .next t ∧ t.env = s.env ∧ t.dp.bricks = s.dp.bricks
        ∧ (∀ y ∈ watchedWaits s.dp j r.handle, r.endsAt none y = true → entryOf t.dp j y.id = none))
    ∧ (∀ r, JointTakes s.env s.dp n j h → h.body = .watcher r → (r.status = .ok ∨ r.status = .okShrunk) → r.instant = none →
      ∃ t, exec (.watcherCopy n) s = .next t ∧ t.env = s.env ∧ t.dp.bricks = s.dp.bricks
        ∧ (∀ y ∈ (jointOf s.dp j).entries, y.op = .wait → y.req.handle = r.handle → (y.phase = .pends ∨ y.phase = .atHome) →
            (jointOf s.dp j).held.any (fun q => q.entry == y.id) = false → completed r.course y.target = true → entryOf t.dp j y.id = none))

/-- R121, R164, R245, R247: the held responses whose instant the joint's GT has reached leave it and their entries are answered; the scheduler frees one hint FIFO entry, and the agent takes one response beat, but not before the WAKE that goes first; a nudge makes the joint send its oldest pending TOK_GET again, when none is on its way; one JOINT_STALL report for each wait of a joint for its agent, of the response port or of a slot's seal, that lasts more than 1,024 tile cycles, and none for a wait that has been reported. -/
def Obligations.JointPortsProgress : Prop :=
  (∀ (s : State) (j : BitVec 7), s.env.stop.stopped = false → s.env.pwr.pfFrozen = false →
     let y := jointOf s.dp j.toNat
     (∃ t, exec (.alignedReleaseInstant j) s = .next t ∧ t.env = s.env ∧ t.dp.bricks = s.dp.bricks ∧ t.dp.net = s.dp.net
       ∧ (∀ q ∈ y.held, reached (gtInterp s.env) q.instant = true → (∀ x, entryOf s.dp j.toNat q.entry = some x → y.frozen.contains x.part.toNat = false) →
           q ∉ (jointOf t.dp j.toNat).held ∧ entryOf t.dp j.toNat q.entry = none)
       ∧ (∀ q ∈ (jointOf t.dp j.toNat).held, q ∈ y.held))
     ∧ (∀ g rest, y.hints = g :: rest →
         ∃ t, exec (.hintAccept j) s = .next t ∧ t.env = s.env ∧ t.dp.bricks = s.dp.bricks ∧ t.dp.net = s.dp.net
           ∧ jointOf t.dp j.toNat = { y with
               hints := rest ++ y.heldHints.take 1, heldHints := y.heldHints.drop 1, resp := y.resp.map RBeat.nearer, respMore := y.respMore.map RBeat.nearer
               respWait := if (y.resp.head?.map RBeat.ahead) = some 1 then some (now s.env) else y.respWait }
           ∧ (∀ k, k ≠ j.toNat → jointOf t.dp k = jointOf s.dp k))
     ∧ (∀ g rest, y.resp = g :: rest → g.ahead ≠ 0 → exec (.responseAccept j) s = .next s)
     ∧ (∀ g rest, y.resp = g :: rest → g.ahead = 0 →
         ∃ t, exec (.responseAccept j) s = .next t ∧ t.env = s.env ∧ t.dp.bricks = s.dp.bricks ∧ t.dp.net = s.dp.net
           ∧ beatsOf t.dp j.toNat = said (rest ++ y.respMore) ∧ (jointOf t.dp j.toNat).entries = y.entries))
  ∧ (∀ (s : State),
     (∀ n j h i x y, JointTakes s.env s.dp n j h → h.body = .nudge i x →
         (jointOf s.dp j).entries.any (fun z => z.op == .tokGet && z.req.handle == x && z.phase == .atHome && z.req.count != 0#16) = false →
         (jointOf s.dp j).entries.find? (fun z => z.op == .tokGet && z.phase == .pends && z.req.handle == x) = some y →
         exec (.nudge n) s = .next { s with dp := sendHome s.env (addForwarded (dropForwarded (dropHod s.dp n) j x) j x y.id) j y })
     ∧ (∀ n j h i x, JointTakes s.env s.dp n j h → h.body = .nudge i x →
         (jointOf s.dp j).entries.any (fun z => z.op == .tokGet && z.req.handle == x && z.phase == .atHome && z.req.count != 0#16) = true →
         exec (.nudge n) s = .next { s with dp := dropHod s.dp n })
     ∧ (∀ (j : BitVec 7), s.env.stop.stopped = false →
         let y := jointOf s.dp j.toNat
         let respLong := y.stallSent.getLsbD 8 = false ∧ (∃ c, y.respWait = some c ∧ 1024 < now s.env - c) ∧ ∃ b, y.resp.head? = some b ∧ b.ahead = 0
         let sealLong := fun (q : Nat × Nat) => 1024 < now s.env - q.2 ∧ y.stallSent.getLsbD q.1 = false
         let reports := fun (k : Nat) => ∃ t, exec (.jointStall j) s = .next t ∧ t.env = s.env ∧ t.dp.bricks = s.dp.bricks ∧ t.dp.net = s.dp.net
           ∧ (jointOf t.dp j.toNat).stallSent.getLsbD k = true
           ∧ (∃ q ∈ t.dp.inc.reports, q.1 = .joint j.toNat ∧ q.2.key.kind = .jointStall ∧ q.2.key.srcId = BitVec.ofNat 32 j.toNat)
         (respLong → reports 8)
         ∧ (∀ q, y.seals.find? (fun z => decide (sealLong z)) = some q → q.1 < 8 → reports q.1)
         ∧ (¬ respLong → (∀ q ∈ y.seals, ¬ sealLong q) → exec (.jointStall j) s = .next s)))

/-- R115, R143, R248: the joint of a departing agent drops the agent's entries, takes it from every bed of its partition, sends for each bed in force a shrink hod with its counts off the open and the next course, tagged with the open course, and reports it to every available tile; while the partition is frozen what it would send is kept, and a SAVED one keeps the departure for its restoration. That it leaves the waiting bed too is the model's choice (log 11); the departure of a SAVED partition is R341's. -/
def Obligations.AgentDepartureClears : Prop :=
  ∀ (s : State) (agent : BitVec 10) (p : BitVec 4), s.env.stop.stopped = false → s.env.pwr.pfFrozen = false →
    s.dp.departing.find? (fun a => a.1 == agent.toNat) = some (agent.toNat, p) →
    let shrinks := fun (l : List Hod) => ∀ b ∈ (jointOf s.dp (agent.toNat / 8)).beds, b.part = p → b.waiting = false →
      ∀ m, b.members.find? (fun m => m.slot == agent.toNat % 8) = some m →
        ∃ h ∈ l, h.src = .joint (agent.toNat / 8) ∧ h.dst = b.up ∧ h.vc = .req
          ∧ h.body = .shrink b.index (b.course + 1) (m.e - m.f) m.f m.e agent.toNat m.rank
    ∃ t, exec (.agentDeparture agent) s = .next t ∧ t.env = s.env ∧ t.dp.bricks = s.dp.bricks
      ∧ t.dp.departing = s.dp.departing.filter (fun a => a.1 != agent.toNat)
      ∧ (∀ x ∈ (jointOf t.dp (agent.toNat / 8)).entries, x.req.slot.toNat ≠ agent.toNat % 8)
      ∧ ((partOf s.dp p).st = .saved ∨ (partOf s.dp p).st = .restoring →
          t.dp.net = s.dp.net ∧ (partOf t.dp p).departed = true ∧ agent.toNat ∈ (partOf t.dp p).depMap)
      ∧ ((partOf s.dp p).st ≠ .saved → (partOf s.dp p).st ≠ .restoring →
          (∀ b ∈ (jointOf t.dp (agent.toNat / 8)).beds, b.part = p → ∀ m ∈ b.members, m.slot ≠ agent.toNat % 8)
          ∧ (∀ b ∈ (jointOf s.dp (agent.toNat / 8)).beds, b.part ≠ p → (∀ b2 ∈ (jointOf s.dp (agent.toNat / 8)).beds, b2.handle = b.handle → b2.part = b.part) →
              b ∈ (jointOf t.dp (agent.toNat / 8)).beds)
          ∧ ((jointOf s.dp (agent.toNat / 8)).frozen.contains p.toNat = false →
              (∀ k, k < 32 → unavailable s.env k = false → ∃ h ∈ t.dp.net, h.dst = .tile k ∧ h.body = .depart agent.toNat) ∧ shrinks t.dp.net)
          ∧ ((jointOf s.dp (agent.toNat / 8)).frozen.contains p.toNat = true → t.dp.net = s.dp.net ∧ (partOf t.dp p).departed = true
              ∧ (∀ k, k < 32 → unavailable s.env k = false → ∃ h ∈ (partOf t.dp p).recHods, h.dst = .tile k ∧ h.body = .depart agent.toNat)
              ∧ shrinks (partOf t.dp p).recHods))

/-! ### Barriers at the home tile -/

/-- R99, R100, R92, R195 to R197, R204, R257, R199: the home tile takes an arrival hod: it counts towards the open course, and under a grout its contribution is folded in, held in the window, or bounced. The arrival that completes the course closes it, or, at a brick with an uplink, goes up once. A close advances COURSE, makes AHEAD the COUNT, and sends every joint with a bed the release, with the course's result and flags; where a bond waits it comes into force, and the old beds go. A mirrored brick tells its mirror, and what it sends may wait for it. An arrival hod for another course is discarded. -/
def Obligations.ArrivalHodCounts : Prop :=
  ∀ (s : State) (n : Nat) (h : Hod) (a : Arrival) (b : Brick) (x : Barrier),
    TileTakes s.env s.dp n (homeOf s.env a.index) h → h.body = .arrival a → brickOf s.dp a.index = b → b.body = .barrier x →
    b.valid = true → b.lost = none → brickHandle s.env a.index b = a.handle → x.armed = true → x.bonded = true → x.poisoned = false →
    let counted : Barrier := { x.startTimer (tileGt s.env (homeOf s.env a.index)) with count := x.count + a.count, tag := a.tag }
    let st : Status := if x.shrunk then .okShrunk else .ok
    let becomes := fun (t : State) (y : Barrier) => brickOf t.dp a.index = { b with body := .barrier y } ∧ (∀ k, k ≠ a.index → brickOf t.dp k = brickOf s.dp k)
    let counts := fun (y : Barrier) => ∃ t, exec (.arrivalHod n) s = .next t ∧ t.env = s.env ∧ becomes t y
      ∧ (fget s.dp.mirCopies (stripeKey a.index 0) = none → t.dp.net = eraseAt s.dp.net n)
      ∧ (∀ m, fget s.dp.mirCopies (stripeKey a.index 0) = some m →
          ((t.dp.mirUpds.filter (fun u => u.index == a.index && u.k == 0)).getLast?.map (fun u => u.copy)).getD m.copy = brickOf t.dp a.index)
    let released := fun (t : State) (w : Bool) (ok : Rel → Prop) => ∀ j ∈ bedJoints s.dp a.handle w,
      Sent t.dp (.joint j) (fun c => ∃ r, c = .release r ∧ r.handle = a.handle ∧ r.course = x.course + 1 ∧ r.status = st ∧ ok r)
    let root := ∀ l, fget s.dp.lintels a.index = some l → l.upv = false
    let closed := fun (t : State) (y : Barrier) => becomes t y ∧ y.course = x.course + 1 ∧ y.count = x.ahead ∧ y.ahead = 0 ∧ y.nextDelta = 0
      ∧ y.shrunk = false ∧ y.armed = true ∧ y.bonded = true ∧ y.lastStatus = st
      ∧ (∀ l, fget s.dp.lintels a.index = some l → ∃ m, fget t.dp.lintels a.index = some m ∧ m.seen = l.seenNext ∧ m.seenNext = 0 ∧ m.upwait = false)
    (a.course = x.course + 1 → x.cfg = none →
        (x.count + a.count < x.expect → counts counted)
        ∧ (x.expect ≤ x.count + a.count → root → x.shRun = none → x.shBond = none → x.ahead + x.nextDelta < x.expect →
            ∃ t y, exec (.arrivalHod n) s = .next t ∧ t.env = s.env ∧ closed t y ∧ y.expect = x.expect - x.nextDelta
              ∧ released t false (fun r => r.beats = [] ∧ r.gflags = 0 ∧ r.removeBed = false))
        ∧ (∀ nb, x.expect ≤ x.count + a.count → root → x.shRun = none → x.shBond = some nb → x.ahead < nb.expect →
            ∃ t y, exec (.arrivalHod n) s = .next t ∧ t.env = s.env ∧ closed t y ∧ y.expect = nb.expect ∧ y.bond = some nb ∧ y.shBond = none
              ∧ (∀ w, released t w (fun r => r.removeBed = true ∧ r.bond = nb.made)))
        ∧ (∀ l, x.expect ≤ x.count + a.count → x.grout = none → fget s.dp.lintels a.index = some l → l.upv = true → l.upwait = false →
            ∃ t, exec (.arrivalHod n) s = .next t ∧ t.env = s.env ∧ becomes t { counted with dlAt := 0 }
              ∧ fget t.dp.lintels a.index = some { l with upwait := true, upPay := some ({ lanes := [], cnt := 0, flags := 0 }, st) }))
    ∧ (∀ g c, a.course = x.course + 1 → x.grout = some g → g.run.cfg = some c →
        (foldIn c x (skipOf s.dp a.index) g a.pay.rank a.pay = none →
          ∃ t, exec (.arrivalHod n) s = .next t ∧ t.env = s.env ∧ t.dp.bricks = s.dp.bricks
            ∧ posts t.dp.net = posts (eraseAt s.dp.net n) ++ [(.tile (homeOf s.env a.index), .joint a.joint, .rsp, .bounce a)])
        ∧ (∀ g2, foldIn c x (skipOf s.dp a.index) g a.pay.rank a.pay = some g2 →
            (x.count + a.count < x.expect → counts { counted with grout := some g2 })
            ∧ (x.expect ≤ x.count + a.count → root → x.shRun = none → x.shBond = none → x.ahead + x.nextDelta < x.expect →
                let res := (result c g2.acc).1
                let fl := g2.acc.flags ||| (result c g2.acc).2
                ∃ t y z, exec (.arrivalHod n) s = .next t ∧ t.env = s.env ∧ closed t y ∧ y.expect = x.expect - x.nextDelta
                  ∧ y.grout = some z ∧ z.run = g.run ∧ z.acc = Acc.zero c ∧ z.window = [] ∧ z.empty = true
                  ∧ z.result = res ∧ z.resFlags = fl ∧ z.cum = g.cum ||| fl
                  ∧ released t false (fun r => r.beats = toBeats res ∧ r.gflags = fl ∧ r.removeBed = false))
            ∧ (∀ l, x.expect ≤ x.count + a.count → fget s.dp.lintels a.index = some l → l.upv = true → l.upwait = false →
                ∃ t, exec (.arrivalHod n) s = .next t ∧ t.env = s.env ∧ becomes t { counted with grout := some g2, dlAt := 0 }
                  ∧ fget t.dp.lintels a.index = some { l with upwait := true, upPay := some (g2.acc, st) })))
    ∧ (a.course ≠ x.course + 1 →
      ∃ t, exec (.arrivalHod n) s = .next t ∧ t.env = s.env ∧ t.dp.bricks = s.dp.bricks ∧ t.dp.net = eraseAt s.dp.net n)

/-- R32, R33, R198, Table 6.8: a branch router adds an arrival to its entry of the tree and, when every member below it has arrived, sends one hod with the sum upward, under a grout whose partials routers combine with the combined partial; under a grout whose partials routers do not combine the arrival goes on to the home tile as it is, still its port's own hod; an arrival of another course is dropped (the model's choice, log 48). -/
def Obligations.BranchCombineSums : Prop :=
  ∀ (s : State) (n r : Nat) (h : Hod) (a : Arrival) (c : Comb),
    takeable s.env s.dp n = some h → h.dst = .router r → h.body = .arrival a →
    s.dp.comb.find? (fun c => c.router == r && c.index == a.index && !c.waiting) = some c →
    (a.course ≠ c.course → exec (.branchCombine n) s = .next { s with dp := dropHod s.dp n })
    ∧ (∀ g, (barrierOf s.dp a.index).bind Barrier.cfg = some g → a.course = c.course → 0 < a.count →
      (g.routers = false →
        ∃ t, exec (.branchCombine n) s = .next t ∧ t.env = s.env ∧ t.dp.bricks = s.dp.bricks ∧ t.dp.comb = s.dp.comb
          ∧ posts t.dp.net = posts (eraseAt s.dp.net n) ++ [(h.src, .tile (homeOf s.env a.index), h.vc, .arrival a)])
      ∧ (g.routers = true → c.got + a.count + c.before < c.expect →
        ∃ t, exec (.branchCombine n) s = .next t ∧ t.env = s.env ∧ t.dp.bricks = s.dp.bricks ∧ t.dp.net = eraseAt s.dp.net n
          ∧ t.dp.comb.find? (fun c => c.router == r && c.index == a.index && !c.waiting)
            = some { c with got := c.got + a.count, acc := some (Acc.merge g (c.acc.getD (Acc.zero g)) (payAcc g none a.pay)) })
      ∧ (g.routers = true → c.expect ≤ c.got + a.count + c.before →
        ∃ t, exec (.branchCombine n) s = .next t ∧ t.env = s.env ∧ t.dp.bricks = s.dp.bricks
          ∧ posts t.dp.net = posts (eraseAt s.dp.net n) ++ [(.router r, c.up, .req, .arrival { a with
              count := c.got + a.count
              pay := .acc (Acc.merge g (c.acc.getD (Acc.zero g)) (payAcc g none a.pay)) (ceilDiv (partialBytes g) 8 * 8) })]
          ∧ t.dp.comb.find? (fun c => c.router == r && c.index == a.index && !c.waiting) = some { c with got := 0, acc := none }))
    ∧ ((barrierOf s.dp a.index).bind Barrier.cfg = none → a.course = c.course → 0 < a.count →
    (c.got + a.count + c.before < c.expect →
      ∃ t, exec (.branchCombine n) s = .next t ∧ t.env = s.env ∧ t.dp.bricks = s.dp.bricks ∧ t.dp.net = eraseAt s.dp.net n
        ∧ t.dp.comb.find? (fun c => c.router == r && c.index == a.index && !c.waiting) = some { c with got := c.got + a.count })
    ∧ (c.expect ≤ c.got + a.count + c.before → c.acc = none →
      ∃ t, exec (.branchCombine n) s = .next t ∧ t.env = s.env ∧ t.dp.bricks = s.dp.bricks
        ∧ posts t.dp.net = posts (eraseAt s.dp.net n) ++ [(.router r, c.up, .req, .arrival { a with count := c.got + a.count, pay := .none })]
        ∧ t.dp.comb.find? (fun c => c.router == r && c.index == a.index && !c.waiting) = some { c with got := 0 }))

/-- R109, R110: a forwarded WAIT takes the first free watcher slot of an armed, bonded barrier and its entry pends; it is answered with the last course's result when its target is done, BUSY at a barrier that is not armed or bonded or has no free slot, and POISONED at a poisoned one; one whose entry has gone is answered too. An unwatch hod frees the joint's slot. A mirrored barrier's answer may wait for its mirror. That one whose entry has gone is answered BUSY is the model's choice (log 64). -/
def Obligations.WatcherSlots : Prop :=
  ∀ (s : State) (n : Nat) (h : Hod) (b : Brick),
    (∀ j entry target y x, TileTakes s.env s.dp n (homeOf s.env (hIndex y.req.handle)) h →
        h.body = .fwdWait (hIndex y.req.handle) j entry target → entryOf s.dp j entry = some y → y.op = .wait →
        AtHome s.env s.dp y.req.handle b → Allowed s.env s.dp j y.req.slot b → b.body = .barrier x →
        let i := hIndex y.req.handle
        let home := homeOf s.env i
        (∀ w, completed x.course target = false → x.poisoned = false → x.armed = true → x.bonded = true → addWatch j x.watch = some w →
          ∃ t, exec (.forwardedWait n) s = .next t ∧ t.env = s.env
            ∧ brickOf t.dp i = { b with body := .barrier { x with watch := w } } ∧ (∀ k, k ≠ i → brickOf t.dp k = brickOf s.dp k)
            ∧ entryOf t.dp j entry = some { y with phase := .pends, pended := true, seen := true }
            ∧ (Prompt s.env s.dp i → t.dp.net = eraseAt s.dp.net n))
        ∧ (completed x.course target = true
            ∨ x.poisoned = false ∧ (x.armed = false ∨ x.bonded = false ∨ addWatch j x.watch = none) →
          ∃ t a, exec (.forwardedWait n) s = .next t ∧ t.env = s.env ∧ t.dp.bricks = s.dp.bricks
            ∧ a.status = (if completed x.course target then x.lastStatus else .busy) ∧ a.course = x.course
            ∧ Sent t.dp (.joint j) (fun c => c = .resp entry a)
            ∧ (Prompt s.env s.dp i → posts t.dp.net = posts (eraseAt s.dp.net n) ++ posts [replyHod home j entry b.part a]))
        ∧ (∀ key v, completed x.course target = false → x.poisoned = true → x.poisonInc = some key → numberOf s.dp (.tile home) key = some v →
            Prompt s.env s.dp i → (partOf s.dp b.part).st ≠ .frozen → (partOf s.dp b.part).st ≠ .saved → (partOf s.dp b.part).st ≠ .restoring →
          ∃ t, exec (.forwardedWait n) s = .next t ∧ t.env = s.env ∧ t.dp.bricks = s.dp.bricks
            ∧ posts t.dp.net = posts (eraseAt s.dp.net n)
                ++ posts [replyHod home j entry b.part { Resp.at .poisoned x.course with value := v.setWidth 64, brick := some i }])
        ∧ (∀ key, completed x.course target = false → x.poisoned = true → x.poisonInc = some key → numberOf s.dp (.tile home) key = none →
          ∃ t, exec (.forwardedWait n) s = .next t ∧ t.env = s.env ∧ t.dp.bricks = s.dp.bricks ∧ t.dp.net = eraseAt s.dp.net n
            ∧ (.tile home, key, s.dp.inc.serial) ∈ t.dp.inc.waits))
    ∧ (∀ i j entry target, TileTakes s.env s.dp n (homeOf s.env i) h → h.body = .fwdWait i j entry target → entryOf s.dp j entry = none →
      ∃ t, exec (.forwardedWait n) s = .next t ∧ t.env = s.env ∧ t.dp.bricks = s.dp.bricks
        ∧ posts t.dp.net = posts (eraseAt s.dp.net n) ++ posts [replyHod (homeOf s.env i) j entry h.part (Resp.plain .busy)])
    ∧ (∀ i j x, TileTakes s.env s.dp n (homeOf s.env i) h → h.body = .unwatch i j → brickOf s.dp i = b → b.body = .barrier x →
      ∃ t, exec (.unwatch n) s = .next t ∧ t.env = s.env
        ∧ brickOf t.dp i = { b with body := .barrier { x with watch := modFirst (fun w => w == some j) (fun _ => none) x.watch } }
        ∧ (∀ k, k ≠ i → brickOf t.dp k = brickOf s.dp k)
        ∧ (fget s.dp.mirCopies (stripeKey i 0) = none → t.dp.net = eraseAt s.dp.net n))

/-- R111 to R113: when GT reaches DL_AT with the course open, the deadline is spent, the end of every wait that stands goes with TIMEOUT to each joint with a bed and to each watcher (with the incident's number, once it is known), a sweep goes to every joint with a bed, and each answers with the members still missing; once all that it asked have answered the oldest sweep, one TIMEOUT report is made, with the open course and the missing children (of twins, by the one of the lower NODE). -/
def Obligations.DeadlineSweeps : Prop :=
  ∀ (s : State) (b : Brick) (x : Barrier),
    (∀ i : BitVec 24, brickOf s.dp i.toNat = b → b.body = .barrier x → b.valid = true → b.lost = none → x.dlAt ≠ 0 →
        reached (tileGt s.env (homeOf s.env i.toNat)) x.dlAt = true → tileServes s.env s.dp (homeOf s.env i.toNat) = true →
        recordsNow s.env s.dp b.part = false →
      ∃ t x2, exec (.barrierDeadlineExpiry i) s = .next t ∧ t.env = s.env ∧ brickOf t.dp i.toNat = { b with body := .barrier x2 }
        ∧ x2.dlAt = 0 ∧ x2.course = x.course ∧ x2.count = x.count ∧ x2.expired = true
        ∧ (∃ w, x2.sweep = x.sweep ++ [w] ∧ w.course = x.course + 1 ∧ w.joints = bedJoints s.dp (brickHandle s.env i.toNat b) false
            ∧ w.missing = missingKids s.dp i.toNat x)
        ∧ (∀ j ∈ bedJoints s.dp (brickHandle s.env i.toNat b) false, ∃ g ∈ t.dp.net, g.dst = .joint j ∧ g.body = .sweep i.toNat (x.course + 1))
        ∧ (let ends := fun (r : Rel) => r.handle = brickHandle s.env i.toNat b ∧ r.course = x.course ∧ r.status = .timeout ∧ r.upTo = some s.dp.seq ∧ r.removeBed = false
           (∀ j ∈ bedJoints s.dp (brickHandle s.env i.toNat b) false, Sent t.dp (.joint j) (fun c => ∃ r, c = .release r ∧ ends r))
           ∧ (∀ j, some j ∈ x.watch → Sent t.dp (.joint j) (fun c => ∃ r, c = .watcher r ∧ ends r))))
    ∧ (∀ n j h i c bed, takeable s.env s.dp n = some h → h.dst = .joint j → h.body = .sweep i c →
        (jointOf s.dp j).beds.find? (fun b => !b.waiting && b.index == i) = some bed →
      ∃ t, exec (.sweepHod n) s = .next t ∧ t.env = s.env ∧ t.dp.joints = s.dp.joints ∧ t.dp.bricks = s.dp.bricks
        ∧ posts t.dp.net = posts (eraseAt s.dp.net n) ++ [(.joint j, .tile (homeOf s.env i), .mgmt, .sweepAns i c j bed.missing)])
    ∧ (∀ n j h i c, takeable s.env s.dp n = some h → h.dst = .joint j → h.body = .sweep i c →
        (jointOf s.dp j).beds.find? (fun b => !b.waiting && b.index == i) = none →
      ∃ t, exec (.sweepHod n) s = .next t ∧ t.env = s.env ∧ t.dp.joints = s.dp.joints ∧ t.dp.bricks = s.dp.bricks
        ∧ posts t.dp.net = posts (eraseAt s.dp.net n) ++ [(.joint j, .tile (homeOf s.env i), .mgmt, .sweepAns i c j 0)])
    ∧ (∀ (i : BitVec 24) w rest, brickOf s.dp i.toNat = b → b.body = .barrier x → x.sweep = w :: rest →
        tileServes s.env s.dp (homeOf s.env i.toNat) = true → (∀ j ∈ w.joints, (sweepAnswer s.dp i.toNat w.course j).isSome = true) →
        (∀ v ∈ rest, v.course ≠ w.course ∧ ∃ j ∈ v.joints, sweepAnswer s.dp i.toNat v.course j = none) →
      ∃ t, exec (.sweepAnswers i) s = .next t ∧ t.env = s.env ∧ brickOf t.dp i.toNat = { b with body := .barrier { x with sweep := rest } }
        ∧ (w.joints.Nodup → (sweepAnswersOf t.dp i.toNat w.course).length + w.joints.length = (sweepAnswersOf s.dp i.toNat w.course).length)
        ∧ (∀ v ∈ rest, sweepAnswersOf t.dp i.toNat v.course = sweepAnswersOf s.dp i.toNat v.course)
        ∧ (twinReports s.env s.dp i.toNat = false → t.dp.inc.reports = s.dp.inc.reports)
        ∧ (twinReports s.env s.dp i.toNat = true → ∃ q ∈ t.dp.inc.reports, q.1 = .tile (homeOf s.env i.toNat) ∧ q.2.key = mkKey s.env 5 i.toNat .timeout)
        ∧ (twinReports s.env s.dp i.toNat = true → (∀ q ∈ s.dp.inc.reports, q.2.key ≠ mkKey s.env 5 i.toNat .timeout) →
            ∃ q ∈ t.dp.inc.reports, q.1 = .tile (homeOf s.env i.toNat) ∧ q.2.key = mkKey s.env 5 i.toNat .timeout ∧ q.2.d1 = w.missing ∧ q.2.d2 = w.course))
    ∧ (∀ (i : BitVec 24) w rest, brickOf s.dp i.toNat = b → b.body = .barrier x → x.sweep = w :: rest →
        tileServes s.env s.dp (homeOf s.env i.toNat) = true → (∀ v ∈ x.sweep, ∃ j ∈ v.joints, sweepAnswer s.dp i.toNat v.course j = none) →
      ∃ t, exec (.sweepAnswers i) s = .next t ∧ t.env = s.env ∧ t.dp.bricks = s.dp.bricks ∧ t.dp.inc = s.dp.inc)

/-- R115, R116, R118: a shrink hod under SHRINK takes the departed agent's counts off EXPECT (all of them where the course it names is not the open one) and marks the course shrunk; where COUNT then reaches EXPECT the course closes with OK_SHRUNK, and where EXPECT is then 0 the barrier is neither bonded nor armed and its beds go; under POISON it poisons the barrier. -/
def Obligations.ShrinkHodApplies : Prop :=
  ∀ (s : State) (n : Nat) (h : Hod) (i : Nat) (c : Word) (now_ next_ ex agent rank : Nat) (b : Brick) (x : Barrier),
    TileTakes s.env s.dp n (homeOf s.env i) h → h.body = .shrink i c now_ next_ ex agent rank → brickOf s.dp i = b → b.body = .barrier x →
    b.valid = true → b.lost = none → x.bonded = true → x.grout = none →
    fget s.dp.mirCopies (stripeKey i 0) = none → fget s.dp.lintels i = none →
    (x.arm.depart = false → c ≠ x.course + 1 → (x.armed = true → x.count < x.expect - ex) →
      ∃ t x2, exec (.shrinkHod n) s = .next t ∧ t.env = s.env ∧ brickOf t.dp i = { b with body := .barrier x2 }
        ∧ (∀ k, k ≠ i → brickOf t.dp k = brickOf s.dp k) ∧ t.dp.net = eraseAt s.dp.net n
        ∧ x2.expect = x.expect - ex ∧ x2.nextDelta = x.nextDelta ∧ x2.shrunk = true ∧ x2.course = x.course ∧ x2.count = x.count ∧ x2.poisoned = x.poisoned)
    ∧ (x.arm.depart = false → c = x.course + 1 → (x.armed = true → x.count < x.expect - now_) →
      ∃ t x2, exec (.shrinkHod n) s = .next t ∧ t.env = s.env ∧ brickOf t.dp i = { b with body := .barrier x2 }
        ∧ (∀ k, k ≠ i → brickOf t.dp k = brickOf s.dp k) ∧ t.dp.net = eraseAt s.dp.net n
        ∧ x2.expect = x.expect - now_ ∧ x2.nextDelta = x.nextDelta + next_ ∧ x2.shrunk = true ∧ x2.course = x.course ∧ x2.count = x.count ∧ x2.poisoned = x.poisoned)
    ∧ (∀ off next, (c = x.course + 1 ∧ off = now_ ∧ next = next_ ∨ c ≠ x.course + 1 ∧ off = ex ∧ next = 0) →
        x.arm.depart = false → x.armed = true → x.poisoned = false → x.expect - off ≤ x.count → x.shBond = none → x.shRun = none →
        let left := x.expect - off - (x.nextDelta + next)
        (x.ahead < left ∨ left = 0) →
      ∃ t x2, exec (.shrinkHod n) s = .next t ∧ t.env = s.env ∧ brickOf t.dp i = { b with body := .barrier x2 }
        ∧ (∀ k, k ≠ i → brickOf t.dp k = brickOf s.dp k)
        ∧ x2.course = x.course + 1 ∧ x2.expect = left ∧ x2.nextDelta = 0 ∧ x2.shrunk = false ∧ x2.count = x.ahead ∧ x2.ahead = 0 ∧ x2.lastStatus = .okShrunk
        ∧ x2.armed = decide (left ≠ 0) ∧ x2.bonded = decide (left ≠ 0)
        ∧ (∀ j ∈ bedJoints s.dp (brickHandle s.env i b) false, Sent t.dp (.joint j) (fun g => ∃ r, g = .release r ∧ r.course = x.course + 1
            ∧ r.status = .okShrunk ∧ r.removeBed = decide (left = 0))))
    ∧ (x.arm.depart = true → x.poisoned = false →
      ∃ t x2, exec (.shrinkHod n) s = .next t ∧ t.env = s.env ∧ brickOf t.dp i = { b with body := .barrier x2 }
        ∧ (∀ k, k ≠ i → brickOf t.dp k = brickOf s.dp k)
        ∧ x2.poisoned = true ∧ x2.course = x.course ∧ x2.dlAt = 0
        ∧ (∃ q ∈ t.dp.inc.reports, q.1 = .tile (homeOf s.env i) ∧ q.2.key.kind = .depart ∧ q.2.key.srcId = BitVec.ofNat 32 agent))

/-- R143, R144: a tile that takes an agent's departure report keeps no waiter of the agent at the partition's locks and semaphores, and none of those locks stays with the agent; at bricks whose fetch is out the report acts behind the operations parked there. That the report acts behind the parked operations, and only on bricks of its partition, is the model's reading (log 18). -/
def Obligations.DepartureReportAbandons : Prop :=
  ∀ (s : State) (n t agent : Nat) (h : Hod), TileTakes s.env s.dp n t h → h.body = .depart agent →
    ∃ s2, exec (.departureReport n) s = .next s2 ∧ s2.env = s.env
      ∧ (∀ i b, fget s.dp.bricks i = some b → b.valid = true → b.lost = none → b.part = h.part → homeOf s.env i = t →
          (tileOf s.dp t).fetches.any (fun f => f.index == i) = false →
          (∀ l, b.body = .lock l → ∃ l2, (brickOf s2.dp i).body = .lock l2 ∧ (l2.held = true → l2.hagent ≠ agent)
            ∧ (∀ w ∈ l2.queue, w.agent ≠ agent) ∧ (l.held = true → l.hagent = agent → l2.grants = l.grants → l2.abandoned = true))
          ∧ (∀ m, b.body = .semaphore m → ∃ m2, (brickOf s2.dp i).body = .semaphore m2 ∧ (∀ w ∈ m2.queue, w.agent ≠ agent)))
      ∧ (∀ f ∈ (tileOf s.dp t).fetches, { f with parked := f.parked ++ [.depart agent] } ∈ (tileOf s2.dp t).fetches)
      ∧ (∀ i, (∀ b, (i, b) ∈ s.dp.bricks → b.part ≠ h.part) ∨ homeOf s.env i ≠ t → brickOf s2.dp i = brickOf s.dp i)

/-- R151: a waiter whose deadline GT has reached leaves the queue and is answered TIMEOUT; a mirrored brick answers when its mirror has acknowledged (R74). -/
def Obligations.WaitDeadlineExpires : Prop :=
  ∀ (s : State) (i : BitVec 24) (agent : BitVec 10) (gang : BitVec 6) (b : Brick) (w : Waiter),
    brickOf s.dp i.toNat = b → b.valid = true → b.lost = none → b.queue.find? (fun w => w.agent == agent.toNat && w.gang == gang) = some w →
    w.dlRun = true → reached (tileGt s.env (homeOf s.env i.toNat)) w.dlAt = true → tileServes s.env s.dp (homeOf s.env i.toNat) = true →
    suspended s.dp b.part = false →
    ∃ t, exec (.waitDeadlineExpiry i agent gang) s = .next t ∧ t.env = s.env
      ∧ (∀ l, b.body = .lock l → brickOf t.dp i.toNat = { b with body := .lock (l.expire w).1 })
      ∧ (∀ m, b.body = .semaphore m → brickOf t.dp i.toNat = { b with body := .semaphore (m.expire w).1 })
      ∧ (∀ k, k ≠ i.toNat → brickOf t.dp k = brickOf s.dp k)
      ∧ Sent t.dp (.joint w.joint) (fun c => ∃ r, c = .resp w.entry r ∧ r.status = .timeout)
      ∧ (Prompt s.env s.dp i.toNat → ∃ g ∈ t.dp.net, ∃ r, g.dst = .joint w.joint ∧ g.body = .resp w.entry r ∧ r.status = .timeout)

/-- R204: a bounced contribution is sent again 64 tile cycles later; while its partition is frozen at the joint it is kept (R220, R333). R266: the root of a tree probes its children too. R120: the probes of a bond commit set PATH to the delay of their answers, rounded up to 16 units of GT. The model's choices are that a bounced contribution is kept at its joint (log 17) and that PATH's probe delays are operands of the command (log 39). -/
def Obligations.BounceAndProbe : Prop :=
  ∀ (s : State),
    (∀ n j h a bed, takeable s.env s.dp n = some h → h.dst = .joint j → h.body = .bounce a → takesRsp s.dp j = true →
        (jointOf s.dp j).frozen.contains h.part.toNat = false → bedFor s.dp j a.handle = some bed → (∀ k, bed.dest s.env ≠ .tile k) →
      ∃ t, exec (.bounce n) s = .next t ∧ t.env = s.env ∧ t.dp.bricks = s.dp.bricks ∧ t.dp.joints = s.dp.joints
        ∧ t.dp.net = eraseAt s.dp.net n ++ [{ seq := s.dp.seq, src := .joint j, dst := bed.dest s.env, vc := .req, part := h.part, body := .arrival a
                                              ready := now s.env + 64, back := false }])
    ∧ (∀ n j h a, takeable s.env s.dp n = some h → h.dst = .joint j → h.body = .bounce a → takesRsp s.dp j = true →
        (jointOf s.dp j).frozen.contains h.part.toNat = true →
      ∃ t, exec (.bounce n) s = .next t ∧ t.env = s.env ∧ t.dp.bricks = s.dp.bricks ∧ t.dp.joints = s.dp.joints ∧ t.dp.net = eraseAt s.dp.net n
        ∧ ∃ g, (partOf t.dp h.part).recHods = (partOf s.dp h.part).recHods ++ [g] ∧ g.body = .arrival a)
    ∧ (∀ n j h a, takeable s.env s.dp n = some h → h.dst = .joint j → h.body = .bounce a → takesRsp s.dp j = true →
        (jointOf s.dp j).frozen.contains h.part.toNat = false →
      ∃ t up, exec (.bounce n) s = .next t ∧ t.env = s.env ∧ t.dp.bricks = s.dp.bricks ∧ t.dp.joints = s.dp.joints
        ∧ posts t.dp.net = posts (eraseAt s.dp.net n) ++ [(.joint j, up, .req, .arrival a)]
        ∧ (∀ g, t.dp.net = eraseAt s.dp.net n ++ [g] → now s.env + 64 ≤ g.ready))
    ∧ (∀ (i : BitVec 24) delay b x, brickOf s.dp i.toNat = b → b.body = .barrier x → b.valid = true → b.lost = none → x.measure = 2 →
        tileServes s.env s.dp (homeOf s.env i.toNat) = true → fget s.dp.lintels i.toNat = none →
      ∃ t, exec (.pathProbe i delay) s = .next t ∧ t.env = s.env ∧ (fget s.dp.mirCopies (stripeKey i.toNat 0) = none → t.dp.net = s.dp.net)
        ∧ brickOf t.dp i.toNat = { b with body := .barrier { x with path := min ((delay + 15) / 16 * 16) 0xFFFFFF, measure := 0 } }
        ∧ (∀ k, k ≠ i.toNat → brickOf t.dp k = brickOf s.dp k))
    ∧ (∀ (i : BitVec 24) delay b x l, brickOf s.dp i.toNat = b → b.body = .barrier x → b.valid = true → b.lost = none → x.measure = 2 →
        tileServes s.env s.dp (homeOf s.env i.toNat) = true → fget s.dp.lintels i.toNat = some l → l.upv = false → l.probed ≠ [] →
      ∃ t l2, exec (.pathProbe i delay) s = .next t ∧ t.env = s.env ∧ fget t.dp.lintels i.toNat = some l2
        ∧ l2.probe = some (l.probed, tileGt s.env (homeOf s.env i.toNat), tileGt s.env (homeOf s.env i.toNat) + BitVec.ofNat 64 delay))

/-! ### Pallets -/

/-- R163, R165, R166: TOK_GET and TOK_TRYGET at a single-stripe pallet take the oldest tokens from the head cache; on an empty one TOK_TRYGET is answered OK_EMPTY and TOK_GET waits with its joint in WAITJ. -/
def Obligations.PalletGets : Prop :=
  ∀ (s : State) (j : BitVec 7) (r : Req) (p : BitVec 4) (sh : Bool) (b : Brick) (q : Stripe),
    SlotClear s.dp j.toNat r.slot → FreshId s.dp j.toNat → Homed s.env s.dp r.handle b → Near s.env s.dp j.toNat r.handle →
    Allowed s.env s.dp j.toNat r.slot b → b.body = .pallet →
    cachedLog2s s.dp j.toNat (hIndex r.handle) = none → stripeOf s.dp (hIndex r.handle) 0 = some q → q.k = 0 → q.log2s = 0 → q.lost = none →
    q.fault = false → q.getq = [] → reqSel r = false → 0 < r.count.toNat →
    let home := homeOf s.env (hIndex r.handle)
    (∀ op, (op = .tokTryget ∨ op = .tokGet ∧ forwarded s.dp j.toNat r.handle = false) → Admitted s.env s.dp j.toNat op r p sh →
        r.count.toNat ≤ q.depth → r.count.toNat ≤ q.cache.length →
      ∃ t q2 a, exec (requestOf op j r) s = .next t ∧ t.env = s.env ∧ t.dp.bricks = s.dp.bricks
        ∧ stripeOf t.dp (hIndex r.handle) 0 = some q2 ∧ q2.cache = q.cache.drop r.count.toNat ∧ q2.gets = q.gets + BitVec.ofNat 32 r.count.toNat
        ∧ q2.puts = q.puts ∧ q2.seg = q.seg
        ∧ posts t.dp.net = posts s.dp.net ++ posts [replyHod home j.toNat s.dp.seq b.part a]
        ∧ a.status = .ok ∧ a.value = (q.cache.head?).getD 0 ∧ a.beats = tokBeats 8 ((q.cache.take r.count.toNat).drop 1))
    ∧ (Admitted s.env s.dp j.toNat .tokTryget r p sh → q.depth = 0 →
      ∃ t a, exec (.tokTryget j r) s = .next t ∧ t.env = s.env ∧ t.dp.bricks = s.dp.bricks ∧ t.dp.stripes = s.dp.stripes
        ∧ posts t.dp.net = posts s.dp.net ++ posts [replyHod home j.toNat s.dp.seq b.part a] ∧ a.status = .okEmpty)
    ∧ (Admitted s.env s.dp j.toNat .tokGet r p sh → forwarded s.dp j.toNat r.handle = false → q.depth = 0 →
      ∃ t q2, exec (.tokGet j r) s = .next t ∧ t.env = s.env ∧ t.dp.bricks = s.dp.bricks ∧ t.dp.net = s.dp.net
        ∧ stripeOf t.dp (hIndex r.handle) 0 = some q2 ∧ q2.waitj = setInsert j.toNat q.waitj ∧ q2.cache = q.cache ∧ q2.gets = q.gets
        ∧ (jointOf t.dp j.toNat).entries = (jointOf s.dp j.toNat).entries
            ++ [{ newEntry s.dp.seq .tokGet r p sh .pends with pended := true, seen := true }])

/-- R163, R165: a sealed TOK_PUT on a pallet's stripe 0 with room in the head cache appends its tokens there and is answered OK; with the cache behind the ring's tail, or full, it waits for its ring write; with no room in the ring it is answered BUSY. -/
def Obligations.PalletPuts : Prop :=
  ∀ (s : State) (j : BitVec 7) (slot : BitVec 3) (x : JEntry) (n : Nat) (b : Brick) (q : Stripe),
    Sealing s.env s.dp j.toNat slot x n → x.op = .tokPut → Homed s.env s.dp x.req.handle b → Near s.env s.dp j.toNat x.req.handle → Allowed s.env s.dp j.toNat slot b →
    b.typ = .pallet → b.body = .pallet → cachedLog2s s.dp j.toNat (hIndex x.req.handle) = none →
    stripeOf s.dp (hIndex x.req.handle) 0 = some q → q.k = 0 → q.lost = none → q.fault = false → q.writing = none → q.steal = false → reqSel x.req = false → 0 < x.req.count.toNat →
    let i := hIndex x.req.handle
    let c := x.req.count.toNat
    (q.depth + c ≤ q.segment → q.cache.length = q.depth → q.cache.length + c ≤ 64 →
      ∃ t q2, exec (.sealAck j slot) s = .next t ∧ t.env = s.env ∧ t.dp.bricks = s.dp.bricks ∧ stripeOf t.dp i 0 = some q2
        ∧ q2.cache = q.cache ++ reqTokens x.req ∧ q2.puts = q.puts + BitVec.ofNat 32 c ∧ q2.gets = q.gets
        ∧ (∃ g ∈ t.dp.net, g.dst = .joint j.toNat ∧ ∃ a, g.body = .resp x.id a ∧ a.status = .ok))
    ∧ (q.depth + c ≤ q.segment → ¬ (q.cache.length = q.depth ∧ q.cache.length + c ≤ 64) →
      ∃ t q2, exec (.sealAck j slot) s = .next t ∧ t.env = s.env ∧ t.dp.bricks = s.dp.bricks ∧ t.dp.net = s.dp.net
        ∧ stripeOf t.dp i 0 = some q2 ∧ q2.puts = q.puts ∧ q2.cache = q.cache ∧ (∃ w, q2.writing = some w ∧ w.toks = reqTokens x.req ∧ w.entry = x.id))
    ∧ (q.segment < q.depth + c →
      ∃ t a, exec (.sealAck j slot) s = .next t ∧ t.env = s.env ∧ t.dp.bricks = s.dp.bricks ∧ stripeOf t.dp i 0 = some q
        ∧ posts t.dp.net = posts s.dp.net ++ posts [replyHod (homeOf s.env i) j.toNat x.id b.part a] ∧ a.status = .busy)

/-- R165 to R168, R173: a finished ring write counts its tokens in PUTS, puts them in memory at the tail, in two runs where they pass the segment's end, and answers the put; a finished refill moves tokens from the ring to the head cache; a faulting access is held, with FADDR and an XLATE_FAULT report. During a global stop the tile keeps what the memory port answers for GO (R416). A sweep at a sibling stripe takes the tokens it asks for as stolen ones, or leaves the getter's mark in HUNGRY and goes on to the next stripe; a put forwarded to a stripe with room is stored there. -/
def Obligations.PalletRingsAndSiblings : Prop :=
  (∀ (s : State) (i : BitVec 24) (k : BitVec 3) (q : Stripe), stripeOf s.dp i.toNat k.toNat = some q →
     unavailable s.env (stripeTile s.env i.toNat k.toNat) = false → (tileOf s.dp (stripeTile s.env i.toNat k.toNat)).test = none →
     s.env.pwr.pfFrozen = false → s.env.stop.stopped = false → fget s.dp.mirCopies (stripeKey i.toNat k.toNat) = none →
     numberWait s.dp (stripeTile s.env i.toNat k.toNat) i.toNat = none →
     (∀ p, q.writing = some p → q.wacc = .fine → q.putq = [] →
       ∃ t q2, exec (.ringWriteDone i k) s = .next t ∧ t.env = s.env ∧ t.dp.bricks = s.dp.bricks ∧ stripeOf t.dp i.toNat k.toNat = some q2
         ∧ q2.puts = q.puts + BitVec.ofNat 32 p.toks.length ∧ q2.gets = q.gets ∧ q2.seg = q.seg ++ p.toks ∧ q2.cache = q.cache ∧ q2.writing = none
         ∧ (let at_ := q.puts.toNat % q.segment
            let first := min p.toks.length (q.segment - at_)
            let run := fun (n : Nat) (l : List Dword) =>
              ({ ctx := (brickOf s.dp i.toNat).part.toNat, addr := q.slotAddr n, len := 8 * l.length, data := leWords 64 (l.map BitVec.toNat) } : MemW)
            t.dp.port.mem = s.dp.port.mem ++ (run at_ (p.toks.take first) :: (if first < p.toks.length then [run 0 (p.toks.drop first)] else [])))
         ∧ (∃ g ∈ t.dp.net, g.dst = .joint p.joint ∧ ∃ a, g.body = .resp p.entry a ∧ a.status = .ok))
     ∧ (∀ n, q.refill = some n → q.racc = .fine → q.wacc ≠ .fine →
       ∃ t, exec (.refillDone i k) s = .next t ∧ t.env = s.env ∧ t.dp.bricks = s.dp.bricks
         ∧ stripeOf t.dp i.toNat k.toNat = some { q with refill := none, thief := none })
     ∧ (∀ n, q.refill = some n → q.racc = .fine → q.wacc = .fine → q.getq = [] →
       ∃ t q2, exec (.refillDone i k) s = .next t ∧ t.env = s.env ∧ t.dp.bricks = s.dp.bricks ∧ stripeOf t.dp i.toNat k.toNat = some q2
         ∧ q2.cache = q.cache ++ q.seg.take n ∧ q2.seg = q.seg.drop n ∧ q2.puts = q.puts ∧ q2.gets = q.gets)
     ∧ (∀ addr refill, (if refill then q.refill.isSome = true ∧ q.racc ≠ .held else q.writing.isSome = true ∧ q.wacc ≠ .held) →
       ∃ t q2, exec (.palletRingFault i k refill addr) s = .next t ∧ t.env = s.env ∧ t.dp.bricks = s.dp.bricks ∧ (q.getq = [] → q.putq = [] → t.dp.net = s.dp.net)
         ∧ stripeOf t.dp i.toNat k.toNat = some q2 ∧ q2.fault = true ∧ q2.faddr = addr ∧ q2.puts = q.puts ∧ q2.gets = q.gets ∧ q2.cache = q.cache
         ∧ (∃ r ∈ t.dp.inc.reports, r.1 = .tile (stripeTile s.env i.toNat k.toNat) ∧ r.2.key.kind = .xlateFault)))
  ∧ (∀ (s : State) (i : BitVec 24) (k : BitVec 3) (c : Instr) (x : RingEnd), unavailable s.env (stripeTile s.env i.toNat k.toNat) = false →
     (tileOf s.dp (stripeTile s.env i.toNat k.toNat)).test = none → s.env.pwr.pfFrozen = false → s.env.stop.stopped = true →
     (c = .ringWriteDone i k ∧ x = .wrote ∨ c = .refillDone i k ∧ x = .filled ∨ ∃ refill addr, c = .palletRingFault i k refill addr ∧ x = .fault refill addr) →
     (stillOut s.dp i.toNat k.toNat x = true →
       exec c s = .next { s with dp := { s.dp with ringEnds := s.dp.ringEnds ++ [(stripeKey i.toNat k.toNat, x)] } })
     ∧ (stillOut s.dp i.toNat k.toNat x = false → exec c s = .next s))
  ∧ (∀ (s : State) (n i k : Nat) (h : Hod) (q : Stripe),
     TileTakes s.env s.dp n (stripeTile s.env i k) h → stripeOf s.dp i k = some q → q.k = k → q.lost = none → q.fault = false →
     fget s.dp.mirCopies (stripeKey i k) = none → numberWait s.dp (stripeTile s.env i k) i = none →
     (∀ g, h.body = .palSweep i k g → palThere s.env s.dp i g.handle = true → k ≠ g.first % 2 ^ q.log2s → g.count ≠ 0 → q.getq = [] → q.depth ≠ 0 → g.count ≤ q.depth → g.count ≤ q.cache.length →
       ∃ t q2 a, exec (.palletSweep n) s = .next t ∧ t.env = s.env ∧ t.dp.bricks = s.dp.bricks ∧ stripeOf t.dp i k = some q2
         ∧ q2.cache = q.cache.drop g.count ∧ q2.gets = q.gets + BitVec.ofNat 32 g.count
         ∧ posts t.dp.net = posts (eraseAt s.dp.net n) ++ posts [replyHod (stripeTile s.env i k) g.joint g.entry (brickOf s.dp i).part a]
         ∧ a.status = .ok ∧ a.course.getLsbD 31 = true)
     ∧ (∀ g, h.body = .palSweep i k g → palThere s.env s.dp i g.handle = true → k ≠ g.first % 2 ^ q.log2s → g.count ≠ 0 → g.try_ = false → q.getq = [] → q.depth = 0 →
       ∃ t, exec (.palletSweep n) s = .next t ∧ t.env = s.env ∧ t.dp.bricks = s.dp.bricks
         ∧ stripeOf t.dp i k = some { q with hungry := q.hungry ||| BitVec.ofNat 8 (2 ^ (g.first % 2 ^ q.log2s)) }
         ∧ posts t.dp.net = posts (eraseAt s.dp.net n) ++ [(.tile (stripeTile s.env i k), .tile (stripeTile s.env i ((k + 1) % 2 ^ q.log2s)), .req,
             .palSweep i ((k + 1) % 2 ^ q.log2s) { g with first := g.first % 2 ^ q.log2s, miss := false })])
     ∧ (∀ p f, h.body = .fwdPut i k p → palThere s.env s.dp i p.handle = true → p.from_ = some f → f ≠ k → p.miss = false → p.toks ≠ [] → q.writing = none → q.depth + p.toks.length ≤ q.segment →
         q.cache.length = q.depth → q.cache.length + p.toks.length ≤ 64 →
       ∃ t q2, exec (.forwardedPut n) s = .next t ∧ t.env = s.env ∧ t.dp.bricks = s.dp.bricks ∧ stripeOf t.dp i k = some q2
         ∧ q2.cache = q.cache ++ p.toks ∧ q2.puts = q.puts + BitVec.ofNat 32 p.toks.length
         ∧ (∃ g ∈ t.dp.net, g.dst = .joint p.joint ∧ ∃ a, g.body = .resp p.entry a ∧ a.status = .ok))
     ∧ (∀ p f, h.body = .fwdPut i k p → palThere s.env s.dp i p.handle = true → p.from_ = some f → f ≠ k → p.miss = false → p.toks ≠ [] → q.writing = none → q.segment < q.depth + p.toks.length →
       ∃ t, exec (.forwardedPut n) s = .next t ∧ t.env = s.env ∧ t.dp.bricks = s.dp.bricks ∧ t.dp.stripes = s.dp.stripes
         ∧ posts t.dp.net = posts (eraseAt s.dp.net n) ++ [(.tile (stripeTile s.env i k), .tile (stripeTile s.env i f), .req, .fwdPut i f p)]))

/-! ### Fetches, mirrors, stealing and the net -/

/-- R23, R64, R67, R373: a completed fetch makes its brick resident and clean, with all that software wrote into its record, and lets what was parked run; a faulted one is held with its operations and reported as BACKSTORE; a held one is tried again after 100 µs of GT, and reported each time; a write-back that completes is over, and a faulted one is held and reported; a waiting fetch is issued when the tile has a free slot and fewer than 64 are out. The record that the command brings, what is read from it, and that an operation parked on the fetch then runs, are the model's choice (log 5). -/
def Obligations.FetchesComplete : Prop :=
  ∀ (s : State) (i : BitVec 24) (f : Fetch) (addr : Dword) (st : BitVec 2) (record : Option (BitVec 512)),
    let t := homeOf s.env i.toNat
    let filled : Brick := match record with
      | some w =>
        let b := (brickOf s.dp i.toNat).ofRecord (queueFrom s.env s.dp t w) w
        b.keepStray (stripeOf (readStripe (setBrick s.dp i.toNat b) i.toNat w) i.toNat 0) w
      | none => brickOf s.dp i.toNat
    let out : Option Fetch := (tileOf s.dp t).fetches.find? (fun f => f.index == i.toNat && f.issued && f.heldAt.isNone && f.got.isNone)
    let due : Option Fetch := (tileOf s.dp t).fetches.find? (fun f => f.index == i.toNat && retryDue s.env f.heldAt)
    tileServes s.env s.dp t = true →
    (out = some f → st ≠ 0 →
      ∃ u, exec (.fetchComplete i st ⟨addr, record⟩) s = .next u ∧ u.env = s.env ∧ u.dp.bricks = s.dp.bricks ∧ u.dp.net = s.dp.net
        ∧ (∃ g ∈ (tileOf u.dp t).fetches, g.index = i.toNat ∧ g.heldAt = some (gtInterp s.env))
        ∧ (∃ r ∈ u.dp.inc.reports, r.1 = .tile t ∧ r.2.key.kind = .backstore))
    ∧ (out = some f → (brickOf s.dp i.toNat).lost = none → f.parked = [] → (∀ g ∈ (tileOf s.dp t).fetches, g.index ≠ i.toNat → g.issued = true) →
      ∃ u, exec (.fetchComplete i 0 ⟨addr, record⟩) s = .next u ∧ u.env = s.env ∧ brickOf u.dp i.toNat = filled
        ∧ (∀ k, k ≠ i.toNat → brickOf u.dp k = brickOf s.dp k)
        ∧ resident u.dp t (.brick i.toNat) = true ∧ (resident s.dp t (.brick i.toNat) = false → (.brick i.toNat, false) ∈ (tileOf u.dp t).slots)
        ∧ (∀ g ∈ (tileOf u.dp t).fetches, g.index ≠ i.toNat))
    ∧ (out = none → (tileOf s.dp t).wbacks.any (fun w => w.1 == i.toNat && w.2.isNone) = true →
      (∃ u, exec (.fetchComplete i 0 ⟨addr, record⟩) s = .next u ∧ u.env = s.env ∧ u.dp.bricks = s.dp.bricks ∧ u.dp.net = s.dp.net
        ∧ (tileOf u.dp t).wbacks = (tileOf s.dp t).wbacks.filter (fun w => w.1 != i.toNat))
      ∧ (st ≠ 0 → ∃ u, exec (.fetchComplete i st ⟨addr, record⟩) s = .next u ∧ u.env = s.env ∧ u.dp.bricks = s.dp.bricks ∧ u.dp.net = s.dp.net
        ∧ (i.toNat, some (gtInterp s.env)) ∈ (tileOf u.dp t).wbacks
        ∧ (∃ r ∈ u.dp.inc.reports, r.1 = .tile t ∧ r.2.key.kind = .backstore)))
    ∧ (due = some f → (brickOf s.dp i.toNat).lost = none → f.parked = [] → (∀ g ∈ (tileOf s.dp t).fetches, g.index ≠ i.toNat → g.issued = true) →
      ∃ u, exec (.backstoreRetry i 0 ⟨addr, record⟩) s = .next u ∧ u.env = s.env ∧ brickOf u.dp i.toNat = filled
        ∧ (∀ k, k ≠ i.toNat → brickOf u.dp k = brickOf s.dp k)
        ∧ resident u.dp t (.brick i.toNat) = true ∧ (resident s.dp t (.brick i.toNat) = false → (.brick i.toNat, false) ∈ (tileOf u.dp t).slots)
        ∧ (∀ g ∈ (tileOf u.dp t).fetches, g.index ≠ i.toNat)
        ∧ (∃ r ∈ u.dp.inc.reports, r.1 = .tile t ∧ r.2.key.kind = .backstore))
    ∧ (due = some f → st ≠ 0 →
      ∃ u, exec (.backstoreRetry i st ⟨addr, record⟩) s = .next u ∧ u.env = s.env ∧ u.dp.bricks = s.dp.bricks ∧ u.dp.net = s.dp.net
        ∧ (∃ g ∈ (tileOf u.dp t).fetches, g.index = i.toNat ∧ g.heldAt = some (gtInterp s.env))
        ∧ (∃ r ∈ u.dp.inc.reports, r.1 = .tile t ∧ r.2.key.kind = .backstore))
    ∧ (due = none → (tileOf s.dp t).wbacks.any (fun w => w.1 == i.toNat && retryDue s.env w.2) = true →
      ∃ u, exec (.backstoreRetry i st ⟨addr, record⟩) s = .next u ∧ u.env = s.env ∧ u.dp.bricks = s.dp.bricks ∧ u.dp.net = s.dp.net
        ∧ (∃ m ∈ u.dp.port.mem, m.addr = s.env.kp.bsBase + BitVec.ofNat 64 (64 * i.toNat) ∧ m.len = 64)
        ∧ (∃ r ∈ u.dp.inc.reports, r.1 = .tile t ∧ r.2.key.kind = .backstore))
    ∧ (∀ k : BitVec 5, k.toNat = t → (tileOf s.dp t).fetches.find? (Fetch.mayIssue s.dp t) = some f → issuedFetches s.dp t < Config.fetchLimit →
        (f.victim.isSome = true ∨ (makeRoom s.env s.dp t).isSome = true) →
      ∃ u, exec (.fetchSlotFree k) s = .next u ∧ u.env = s.env ∧ u.dp.bricks = s.dp.bricks
        ∧ (∃ g ∈ (tileOf u.dp t).fetches, g.index = f.index ∧ g.issued = true))

/-- R74, R130: a mirror takes an update and acknowledges it, or reports that its waiter store is full, and the home then sends what waited, or takes the refused waiter back and answers it BUSY. R175 to R177: an idle tile takes the oldest item of a busy one within RADIUS hops. R374, R31: a hod sent back goes out again; a router corrects and counts a single-bit error, and with a double-bit error discards the hod, report or number that it meets and reports MESH_ECC. Which hod of a train an error of a port loses, and that a request of one hod is that hod, are the model's choice (log 60). -/
def Obligations.MirrorsStealingAndNet : Prop :=
  ∀ (s : State) (n : Nat) (h : Hod),
    (∀ t id carry u m, TileTakes s.env s.dp n t h → h.body = .mirUpd id carry → s.dp.mirUpds.find? (fun u => u.id == id) = some u →
        fget s.dp.mirCopies (stripeKey u.index u.k) = some m → copyWaits s.dp t id = false →
      let full := decide (m.copy.queue.length < u.copy.queue.length)
        && decide (Config.waiterStore + m.copy.queue.length < waitersAt s.env s.dp t + u.copy.queue.length)
      ∃ s2, exec (.mirrorUpdate n) s = .next s2 ∧ s2.env = s.env ∧ s2.dp.bricks = s.dp.bricks
        ∧ fget s2.dp.mirCopies (stripeKey u.index u.k) = some (if full then m else { m with copy := u.copy, stripe := u.stripe })
        ∧ posts s2.dp.net = posts (eraseAt s.dp.net n) ++ [(.tile t, .tile u.home, .mgmt, .mirAck id full)])
    ∧ (∀ t id u full, TileTakes s.env s.dp n t h → h.body = .mirAck id full → s.dp.mirUpds.find? (fun u => u.id == id) = some u →
        (full = false ∨ u.undo = none) →
      ∃ s2, exec (.mirrorAck n) s = .next s2 ∧ s2.env = s.env ∧ s2.dp.bricks = s.dp.bricks
        ∧ s2.dp.mirUpds = s.dp.mirUpds.filter (fun v => v.id != id)
        ∧ posts s2.dp.net = posts (eraseAt s.dp.net n) ++ posts (u.outs.map (retime s.env s.dp)))
    ∧ (∀ t id u a g p b w, TileTakes s.env s.dp n t h → h.body = .mirAck id true → s.dp.mirUpds.find? (fun u => u.id == id) = some u →
        u.undo = some (a, g, p) → brickOf s.dp u.index = b → b.queue.find? (fun w => w.agent == a && w.gang.toNat == g) = some w →
      ∃ s2, exec (.mirrorAck n) s = .next s2 ∧ s2.env = s.env
        ∧ (∀ l, b.body = .lock l → brickOf s2.dp u.index = { b with body := .lock (l.undo w p false none).1 })
        ∧ (∀ m, b.body = .semaphore m → brickOf s2.dp u.index = { b with body := .semaphore (m.expire w).1 })
        ∧ (∀ k, k ≠ u.index → brickOf s2.dp k = brickOf s.dp k)
        ∧ Sent s2.dp (.joint w.joint) (fun c => ∃ r, c = .resp w.entry r ∧ r.status = .busy))
    ∧ (∀ (thief victim : BitVec 5) w rest, s.env.kp.radius ≠ 0 → thief ≠ victim → tileServes s.env s.dp thief.toNat = true →
        tileServes s.env s.dp victim.toNat = true → tileIdle s.env s.dp thief.toNat = true → (tileOf s.dp victim.toNat).work = w :: rest →
        s.env.kp.thresh.toNat < (tileOf s.dp victim.toNat).work.length →
        hops (tileRouter s.env thief.toNat) (tileRouter s.env victim.toNat) ≤ s.env.kp.radius.toNat →
      ∃ s2, exec (.mgmtSteal thief victim) s = .next s2 ∧ s2.env = s.env ∧ s2.dp.bricks = s.dp.bricks ∧ s2.dp.net = s.dp.net
        ∧ (tileOf s2.dp victim.toNat).work = rest ∧ s2.dp.rings = s.dp.rings
        ∧ (∀ r, w = .batch r → (tileOf s2.dp thief.toNat).work = (tileOf s.dp thief.toNat).work ++ [.batch r] ∧ s2.dp.stripes = s.dp.stripes)
        ∧ (∀ i k q, w = .refill i k → stripeOf s.dp i k = some q → stripeOf s2.dp i k = some { q with thief := some thief.toNat }))
    ∧ (s.dp.net[n]? = some h → h.back = true → h.ready ≤ now s.env → s.env.stop.stopped = false → s.env.pwr.pfFrozen = false →
      ∃ s2, exec (.returnedHodResend n) s = .next s2 ∧ s2.env = s.env ∧ s2.dp.bricks = s.dp.bricks
        ∧ posts s2.dp.net = posts (eraseAt s.dp.net n) ++ posts [h])
    ∧ (∀ (r : BitVec 8) (p : BitVec 3), p.toNat ≤ 5 → s.env.stop.stopped = false → (eccRoute s.env s.dp n).contains r.toNat = true →
      exec (.meshEcc n r ⟨p, false⟩) s = .next { s with dp := bumpK s.env s.dp 1 (r.toNat * 8 + p.toNat) 7 1 }
      ∧ ∃ s2, exec (.meshEcc n r ⟨p, true⟩) s = .next s2 ∧ s2.env = s.env ∧ s2.dp.bricks = s.dp.bricks
        ∧ (∃ q ∈ s2.dp.inc.reports, q.1 = .router r.toNat ∧ q.2.key.kind = .meshEcc)
        ∧ (s.dp.net[n]? = some h → (∀ q, h.body ≠ .release q) → s2.dp.net = eraseAt s.dp.net n)
        ∧ (∀ q, s.dp.net[n]? = some h → h.body = .release q → h ∉ s2.dp.net)
        ∧ (s.dp.net[n]? = none → s2.dp.net = s.dp.net)
        ∧ (s.dp.net.length + s.dp.inc.reports.length ≤ n →
            s2.dp.inc.returns = eraseAt s.dp.inc.returns (n - s.dp.net.length - s.dp.inc.reports.length)))
    ∧ (∀ (r : BitVec 8) (p : BitVec 3) (double : Bool), p.toNat ≤ 5 → s.env.stop.stopped = false →
        s.dp.net.length + s.dp.inc.reports.length + s.dp.inc.returns.length ≤ n →
      exec (.meshEcc n r ⟨p, double⟩) s = .next { s with dp := { s.dp with flitErr := s.dp.flitErr ++ [(r.toNat * 8 + p.toNat, double)] } })

/-! ### Rings -/

/-- R306, R311, R313, R316, R319: a fetch batch that a doorbell covers enters the ring; NOP completes OK; ORDER_FENCE completes when every named ring has passed its target and otherwise waits with its targets; ORDER_FENCE_PASSED ends the wait. No brick, joint or hod changes. -/
def Obligations.RingDescriptorsRun : Prop :=
  ∀ (s : State) (r : RingId) (t : Nat) (x : BitVec 512),
    (∀ l, frontTile s.env r = some t → frontOf s.env s.dp r = some t → tileServes s.env s.dp t = true → (ringOf s.dp r).state = .running → l ≠ [] → l.length ≤ 16 →
        l.length ≤ ((ringOf s.dp r).tail - (ringOf s.dp r).read).toNat → (ringOf s.dp r).ahead.length + l.length ≤ 16 →
        (∀ y, ((ringOf s.dp r).ahead ++ l).head? = some y → (dFields (dOp y)).isSome = true) →
      ∃ u, exec (.fetchBatch r l) s = .next u ∧ u.env = s.env ∧ u.dp.bricks = s.dp.bricks ∧ u.dp.joints = s.dp.joints ∧ u.dp.net = s.dp.net
        ∧ ringOf u.dp r = { ringOf s.dp r with read := (ringOf s.dp r).read + BitVec.ofNat 32 l.length, ahead := (ringOf s.dp r).ahead ++ l, front := some t })
    ∧ (AtHead s.env s.dp r t x 0x49 → Followed s.dp r x → Room s.dp r →
      ∃ u, exec (.nop r) s = .next u ∧ u.env = s.env ∧ u.dp.bricks = s.dp.bricks ∧ u.dp.joints = s.dp.joints ∧ u.dp.net = s.dp.net
        ∧ Completed s.dp u.dp r (mkCompl s.dp r x .ok))
    ∧ (∀ p own, r = .part p own → AtHead s.env s.dp r t x 0x4A → Followed s.dp r x → Room s.dp r →
        (∀ q, q < 8 → bits (dfield x 128 8) q 1 = 1 → q ≠ own.toNat → passed s.dp p q (fenceTarget s.dp p q) = true) →
      ∃ u, exec (.orderFence r) s = .next u ∧ u.env = s.env ∧ u.dp.bricks = s.dp.bricks ∧ u.dp.joints = s.dp.joints ∧ u.dp.net = s.dp.net
        ∧ Completed s.dp u.dp r (mkCompl s.dp r x .ok))
    ∧ (r = .keeper → AtHead s.env s.dp r t x 0x4A → Followed s.dp r x → Room s.dp r →
      ∃ u, exec (.orderFence r) s = .next u ∧ u.env = s.env ∧ u.dp.bricks = s.dp.bricks ∧ u.dp.joints = s.dp.joints ∧ u.dp.net = s.dp.net
        ∧ Completed s.dp u.dp r (mkCompl s.dp r x (if dfield x 128 8 = 0 then .ok else .badCount)))
    ∧ (∀ p own q, r = .part p own → AtHead s.env s.dp r t x 0x4A → q < 8 → bits (dfield x 128 8) q 1 = 1 → q ≠ own.toNat →
        passed s.dp p q (fenceTarget s.dp p q) = false →
      ∃ u, exec (.orderFence r) s = .next u ∧ u.env = s.env ∧ u.dp.bricks = s.dp.bricks ∧ u.dp.joints = s.dp.joints ∧ u.dp.net = s.dp.net
        ∧ u.dp.port = s.dp.port ∧ (ringOf u.dp r).wait = some .fence ∧ (ringOf u.dp r).head = (ringOf s.dp r).head
        ∧ (q, fenceTarget s.dp p q) ∈ (ringOf u.dp r).targets)
    ∧ (∀ p own, r = .part p own → Followed s.dp r x → Room s.dp r → (ringOf s.dp r).wait = some .fence → s.env.stop.stopped = false →
        (∀ q ∈ (ringOf s.dp r).targets, passed s.dp p q.1 q.2 = true) →
      ∃ u, exec (.orderFencePassed r) s = .next u ∧ u.env = s.env ∧ u.dp.bricks = s.dp.bricks ∧ u.dp.joints = s.dp.joints ∧ u.dp.net = s.dp.net
        ∧ Completed s.dp u.dp r (mkCompl s.dp r x .ok))

/-- R318 to R322: a translation fault stops its submission ring at the descriptor, which does not advance, with an XLATE_FAULT report and an XLATE_FAULT completion that carries the report's number, or waits for it, and no other ring changes; a faulted completion write stops its ring at the next slot; a held completion is written once there is room, and discarded when its ring has been disabled; the merged interrupt of a window goes out when the window ends. Which descriptors meet a fault, and that a faulted completion or incident write stops a running ring at its next slot, are the model's reading (log 38). -/
def Obligations.RingFaultsAndHeldEntries : Prop :=
  ∀ (s : State),
    (∀ r t x addr, headDesc s.env s.dp r = some (t, x) → accesses s.env s.dp r x = true → frontCheck s.env s.dp r x = none →
      ∃ u, exec (.descriptorXlateFault r addr) s = .next u ∧ u.env = s.env ∧ u.dp.bricks = s.dp.bricks ∧ u.dp.joints = s.dp.joints
        ∧ (ringOf u.dp r).state = .stopped ∧ (ringOf u.dp r).head = (ringOf s.dp r).head ∧ (ringOf u.dp r).read = (ringOf s.dp r).head
        ∧ (ringOf u.dp r).index = BitVec.ofNat 16 ((ringOf s.dp r).head.toNat % ringSize (ringOf s.dp r).cfg)
        ∧ (∃ q ∈ u.dp.inc.reports, q.1 = .tile t ∧ q.2.key.kind = .xlateFault ∧ q.2.d0 = addr)
        ∧ (∀ q, q ≠ r → ringOf u.dp q = ringOf s.dp q)
        ∧ (let key := ringFaultKey s.env (ringOwner r) (ringNo r)
           let c := { mkCompl s.dp r x .xlateFault with value := addr, advance := false }
           (∀ n, numberOf s.dp (.tile t) key = some n → Room s.dp r →
              complWrite s.dp (ringOwner r) { c with incident := n } ∈ u.dp.port.mem ∧ (cmplOf u.dp (ringOwner r)).tail = (cmplOf s.dp (ringOwner r)).tail + 1)
           ∧ (numberOf s.dp (.tile t) key = none →
              (.tile t, key, s.dp.inc.serial) ∈ u.dp.inc.waits ∧ fget u.dp.inc.waitCompl s.dp.inc.serial = some (r, c)
              ∧ (ringOf u.dp r).wait = some .number ∧ u.dp.port.mem = s.dp.port.mem)))
    ∧ (∀ o addr, (cmplOf s.dp o).state = .running → s.env.stop.stopped = false →
      ∃ u, exec (.completionWriteFault (.cmpl o) addr) s = .next u ∧ u.env = s.env ∧ u.dp.bricks = s.dp.bricks ∧ u.dp.rings = s.dp.rings
        ∧ cmplOf u.dp o = { cmplOf s.dp o with state := .stopped, index := BitVec.ofNat 16 ((cmplOf s.dp o).tail.toNat % ringSize (cmplOf s.dp o).cfg) }
        ∧ (∃ q ∈ u.dp.inc.reports, q.2.key.kind = .xlateFault))
    ∧ (∀ p addr, (incRingOf s.dp p).state = .running → s.env.stop.stopped = false →
      ∃ u, exec (.completionWriteFault (.inc p) addr) s = .next u ∧ u.env = s.env ∧ u.dp.bricks = s.dp.bricks ∧ u.dp.rings = s.dp.rings
        ∧ incRingOf u.dp p = { incRingOf s.dp p with state := .stopped, index := BitVec.ofNat 16 ((incRingOf s.dp p).tail.toNat % ringSize (incRingOf s.dp p).cfg) }
        ∧ (∃ q ∈ u.dp.inc.reports, q.2.key.kind = .xlateFault))
    ∧ (∀ o c rest, fgetD s.dp.held (ownerKey o) [] = c :: rest → s.env.stop.stopped = false → (cmplOf s.dp o).state = .disabled →
      ∃ u, exec (.heldCompletionWrite o) s = .next u ∧ u.env = s.env ∧ u.dp.bricks = s.dp.bricks ∧ fgetD u.dp.held (ownerKey o) [] = rest
        ∧ u.dp.port.mem = s.dp.port.mem ∧ (cmplOf u.dp o).tail = (cmplOf s.dp o).tail
        ∧ (ringOf u.dp (complRing o c)).head = (ringOf s.dp (complRing o c)).head + (if c.advance then 1 else 0))
    ∧ (∀ o c rest, fgetD s.dp.held (ownerKey o) [] = c :: rest → s.env.stop.stopped = false → (cmplOf s.dp o).state = .running →
        ((cmplOf s.dp o).tail - (cmplOf s.dp o).head).toNat < ringSize (cmplOf s.dp o).cfg →
      ∃ u, exec (.heldCompletionWrite o) s = .next u ∧ u.env = s.env ∧ u.dp.bricks = s.dp.bricks ∧ fgetD u.dp.held (ownerKey o) [] = rest
        ∧ complWrite s.dp o c ∈ u.dp.port.mem ∧ (cmplOf u.dp o).tail = (cmplOf s.dp o).tail + 1
        ∧ (ringOf u.dp (complRing o c)).head = (ringOf s.dp (complRing o c)).head + (if c.advance then 1 else 0))
    ∧ (∀ o incident g, (winOf s.dp o incident).last = some g → (winOf s.dp o incident).merged = true → 16000 ≤ (gtInterp s.env - g).toNat →
        let w : IrqWin := { last := some (gtInterp s.env), merged := false }
        exec (.irqMergeExpiry o incident) s = .next { s with dp := setWin (ownerPulse s.env s.dp o incident) o incident w })

/-! ### Descriptors on bricks -/

/-- R55, R43, R78: BRICK_ALLOC charges the partition and creates COUNT bricks in their initial state, all of one type, writes the list of their handles, and completes OK with COUNT; one that is refused changes no brick, and one whose slots are still on their way to the backing store waits (R67; that the descriptor then stands where it is, is the model's reading, log 76). R59 to R61: BRICK_FREE clears VALID, keeps GEN and completes with the number of bricks freed, and without FORCE a brick that is not idle answers BUSY; of a list it frees in order up to the first refusal, whose status it completes with. R312: SNAPSHOT writes the 64-byte record and changes no brick. -/
def Obligations.AllocFreeSnapshot : Prop :=
  ∀ (s : State) (r : RingId) (t : Nat) (x : BitVec 512), Followed s.dp r x → Room s.dp r →
    (∀ d2 is hs od mv np, AtHead s.env s.dp r t x 0x40 → allocParams s.env r x = none → dfield x 160 13 ≠ 0 →
        allocTry s.env s.dp r x = .ok (d2, is, hs, od, mv, np) → promised s.dp d2 = false →
      ∃ u c, exec (.brickAlloc r) s = .next u ∧ u.env = s.env ∧ Completed s.dp u.dp r c ∧ c.status = .ok ∧ c.count = dfield x 160 13
        ∧ c.overdrawn = od ∧ c.hintMoved = mv ∧ c.nopin = np ∧ c.value = (hs.head?).getD 0 ∧ u.dp.bricks = d2.bricks
        ∧ (dfield x 192 64 ≠ 0 → { ctx := ownerCtx (ringOwner r), addr := BitVec.ofNat 64 (dfield x 192 64), len := 8 * dfield x 160 13
                                   data := leWords 64 (hs.map BitVec.toNat) : MemW } ∈ u.dp.port.mem))
    ∧ (∀ d2 is hs od mv np, AtHead s.env s.dp r t x 0x40 → allocParams s.env r x = none → dfield x 160 13 ≠ 0 →
        allocTry s.env s.dp r x = .ok (d2, is, hs, od, mv, np) → promised s.dp d2 = true →
      ∃ u, exec (.brickAlloc r) s = .next u ∧ u.env = s.env ∧ u.dp.bricks = s.dp.bricks ∧ u.dp.parts = s.dp.parts
        ∧ (ringOf u.dp r).head = (ringOf s.dp r).head ∧ (ringOf u.dp r).wait = none)
    ∧ (∀ st, AtHead s.env s.dp r t x 0x40 → allocParams s.env r x = none → dfield x 160 13 ≠ 0 → allocTry s.env s.dp r x = .error st →
      ∃ u, exec (.brickAlloc r) s = .next u ∧ u.env = s.env ∧ u.dp.bricks = s.dp.bricks ∧ Completed s.dp u.dp r (mkCompl s.dp r x st))
    ∧ (∀ d1 od is, AtHead s.env s.dp r t x 0x40 → allocParams s.env r x = none → dfield x 160 13 ≠ 0 → x.getLsbD 132 = false →
        chargeB s.env s.dp (descPart r x) (dfield x 160 13) = some (d1, od) → dfield x 133 3 = 0 →
        pickMany s.env none (dfield x 160 13) s.dp.touched s.dp.freed = some is →
        (∀ k, (tileOf s.dp k).used + dfield x 160 13 ≤ Config.slotsPerTile) →
      ∃ u c ty, exec (.brickAlloc r) s = .next u ∧ u.env = s.env ∧ BType.ofCode (dfield x 128 3) = some ty
        ∧ Completed s.dp u.dp r c ∧ c.status = .ok ∧ c.count = dfield x 160 13 ∧ c.overdrawn = od
        ∧ (partOf u.dp (descPart r x)).ub = (partOf s.dp (descPart r x)).ub + dfield x 160 13
        ∧ (∀ i ∈ is, (brickOf u.dp i).valid = true ∧ (brickOf u.dp i).typ = ty ∧ (brickOf u.dp i).part = descPart r x ∧ (brickOf u.dp i).lost = none
            ∧ (brickOf u.dp i).body = bodyInit ty ∧ (is.Nodup → (brickOf u.dp i).gen = nextGen (brickOf s.dp i).gen))
        ∧ (∀ i, i ∉ is → brickOf u.dp i = brickOf s.dp i))
    ∧ (∀ b, AtHead s.env s.dp r t x 0x41 → listParams x = none → dfield x 160 13 = 1 → dfield x 192 64 = 0 →
        AtHome s.env s.dp (dHandle x) b → listHandle s.env s.dp r (dTypes 0x41) (dHandle x) = none → mirrorOut s.dp (hIndex (dHandle x)) = false →
        (x.getLsbD 128 = true ∨ idleBrick s.env s.dp (hIndex (dHandle x)) b = true) →
      ∃ u c, exec (.brickFree r []) s = .next u ∧ u.env = s.env ∧ Completed s.dp u.dp r c ∧ c.status = .ok ∧ c.count = 1
        ∧ (brickOf u.dp (hIndex (dHandle x))).valid = false ∧ (brickOf u.dp (hIndex (dHandle x))).gen = b.gen
        ∧ hIndex (dHandle x) ∈ u.dp.freed)
    ∧ (∀ b, AtHead s.env s.dp r t x 0x41 → listParams x = none → dfield x 160 13 = 1 → dfield x 192 64 = 0 →
        AtHome s.env s.dp (dHandle x) b → listHandle s.env s.dp r (dTypes 0x41) (dHandle x) = none → mirrorOut s.dp (hIndex (dHandle x)) = false →
        x.getLsbD 128 = false → idleBrick s.env s.dp (hIndex (dHandle x)) b = false →
      ∃ u c, exec (.brickFree r []) s = .next u ∧ u.env = s.env ∧ Completed s.dp u.dp r c ∧ c.status = .busy ∧ c.count = 0 ∧ u.dp.bricks = s.dp.bricks)
    ∧ (∀ freed left st, AtHead s.env s.dp r t x 0x41 → listParams x = none → dfield x 160 13 = (freed ++ left).length → freed ++ left ≠ [] →
        dfield x 192 64 ≠ 0 → (freed.map hIndex).Nodup →
        (∀ h ∈ freed, ∃ b, AtHome s.env s.dp h b ∧ listHandle s.env s.dp r (dTypes 0x41) h = none ∧ mirrorOut s.dp (hIndex h) = false
          ∧ (x.getLsbD 128 = true ∨ (∀ y, b.body ≠ .barrier y) ∧ b.body ≠ .pallet ∧ idleBrick s.env s.dp (hIndex h) b = true)) →
        (∀ h ∈ left, tileServes s.env s.dp (homeOf s.env (hIndex h)) = true ∧ mirrorOut s.dp (hIndex h) = false) →
        (left = [] ∧ st = .ok ∨ ∃ h, left.head? = some h ∧ handleFront s.env (ownerPart (ringOwner r)) (dTypes 0x41) h = some st ∧ st ≠ .access) →
      ∃ u c, exec (.brickFree r (freed ++ left)) s = .next u ∧ u.env = s.env ∧ Completed s.dp u.dp r c ∧ c.status = st ∧ c.count = freed.length
        ∧ (∀ h ∈ freed, (brickOf u.dp (hIndex h)).valid = false ∧ (brickOf u.dp (hIndex h)).gen = (brickOf s.dp (hIndex h)).gen)
        ∧ (∀ k, k ∉ freed.map hIndex → brickOf u.dp k = brickOf s.dp k))
    ∧ (∀ b, AtHead s.env s.dp r t x 0x48 → listParams x = none → dfield x 160 13 = 1 → dfield x 192 64 = 0 → dfield x 256 64 ≠ 0 →
        dfield x 256 64 % 64 = 0 → AtHome s.env s.dp (dHandle x) b → listHandle s.env s.dp r (dTypes 0x48) (dHandle x) = none →
      ∃ u c, exec (.snapshot r []) s = .next u ∧ u.env = s.env ∧ Completed s.dp u.dp r c ∧ c.status = .ok ∧ c.count = 1 ∧ u.dp.bricks = s.dp.bricks
        ∧ { ctx := ownerCtx (ringOwner r), addr := BitVec.ofNat 64 (dfield x 256 64), len := 64, data := recordOf s.dp (hIndex (dHandle x)) : MemW }
            ∈ u.dp.port.mem)

/-- R94, Table 3.3: BARRIER_ARM arms a bonded barrier at once, waits for the boundary on an armed one, clears the poison of a poisoned one, and is refused BAD_COUNT on one without a bond. R86, R92: BOND_SET gives a barrier its bond, at once where it is not armed and else at the boundary, with a bed in every member joint. That a poisoned barrier which was not armed is armed then (log 68), and that what software wrote into the fields of a waiting arming and bond goes (log 5), are the model's reading. -/
def Obligations.BarrierDescriptorsApply : Prop :=
  ∀ (s : State) (r : RingId) (t : Nat) (x : BitVec 512) (b : Brick) (y : Barrier), Followed s.dp r x → Room s.dp r →
    AtHome s.env s.dp (dHandle x) b → b.body = .barrier y →
    (AtHead s.env s.dp r t x 0x42 → dfield x 161 2 ≠ 3 → y.bonded = true →
      ∃ u y2, exec (.barrierArm r) s = .next u ∧ u.env = s.env ∧ Completed s.dp u.dp r { mkCompl s.dp r x .ok with course := y.course + 1 }
        ∧ brickOf u.dp (hIndex (dHandle x)) = ({ b with body := .barrier y2 } : Brick).shadowWritten
        ∧ (∀ k, k ≠ hIndex (dHandle x) → brickOf u.dp k = brickOf s.dp k) ∧ y2.course = y.course ∧ y2.bonded = true ∧ y2.poisoned = false
        ∧ (y.poisoned = true → y2.armed = true ∧ y2.arm = armVals x ∧ y2.shArm = none ∧ y2.count = 0 ∧ y2.ahead = 0 ∧ y2.dlAt = 0 ∧ y2.shBond = none)
        ∧ (y.poisoned = false → y.armed = true → y2 = { y with shArm := some (armVals x) })
        ∧ (y.poisoned = false → y.armed = false → y2.armed = true ∧ y2.arm = armVals x ∧ y2.count = 0 ∧ y2.expect = y.expect))
    ∧ (AtHead s.env s.dp r t x 0x42 → dfield x 161 2 ≠ 3 → y.bonded = false →
      ∃ u, exec (.barrierArm r) s = .next u ∧ u.env = s.env ∧ u.dp.bricks = s.dp.bricks ∧ Completed s.dp u.dp r (mkCompl s.dp r x .badCount))
    ∧ (∀ list, AtHead s.env s.dp r t x 0x43 → bondParams x = none → list.length = dfield x 128 11 →
        bondListCheck s.env s.dp (hPart (dHandle x)) list (dfield x 144 7) = none →
        ranksFit y list.length = true → (∀ w ∈ list, bedRoom s.dp (dHandle x) y ((bondMember w).agent / 8) = true) →
      ∃ u y2 nb, exec (.bondSet r list) s = .next u ∧ u.env = s.env ∧ Completed s.dp u.dp r (mkCompl s.dp r x .ok)
        ∧ brickOf u.dp (hIndex (dHandle x)) = ({ b with body := .barrier y2 } : Brick).shadowWritten
        ∧ (∀ k, k ≠ hIndex (dHandle x) → brickOf u.dp k = brickOf s.dp k)
        ∧ nb.expect = dfield x 144 7 + (list.map (fun w => (bondMember w).gangs)).sum ∧ nb.lchild = dfield x 144 7
        ∧ (∀ m, m ∈ nb.members ↔ ∃ w ∈ list, m = bondMember w)
        ∧ (y.armed = true → y2 = { y with shBond := some nb })
        ∧ (y.armed = false → y2.bond = some nb ∧ y2.expect = nb.expect ∧ y2.bonded = true ∧ y2.shBond = none ∧ y2.armed = false)
        ∧ (∀ w ∈ list, ∃ bed ∈ (jointOf u.dp ((bondMember w).agent / 8)).beds, bed.index = hIndex (dHandle x) ∧ bed.waiting = y.armed
            ∧ ∃ m ∈ bed.members, m.slot = (bondMember w).agent % 8 ∧ m.e = (bondMember w).gangs ∧ m.a = 0 ∧ m.b = 0))

/-- R180 to R189, R501: GROUT_CFG and WEIGHT_LOAD on a barrier without grout bind the lowest granules that fit on the home tile and charge them; an armed barrier gets its run at the boundary. GROUT_CFG with LANES 0 takes none, and one with illegal parameters is refused BAD_GROUT. -/
def Obligations.GroutDescriptorsBind : Prop :=
  ∀ (s : State) (r : RingId) (t : Nat) (x : BitVec 512) (b : Brick) (y : Barrier) (base : Nat) (d1 : Dp) (od : Bool),
    Followed s.dp r x → Room s.dp r → Homed s.env s.dp (dHandle x) b → b.body = .barrier y → b.mirrored = false →
    y.grout = none → y.shRun = none → heldRoom s.env s.dp (homeOf s.env (hIndex (dHandle x))) = true →
    let i := hIndex (dHandle x)
    let home := homeOf s.env i
    (AtHead s.env s.dp r t x 0x44 → groutParamsOk x = true → dfield x 140 6 = 0 → (y.armed = true → nextHeld s.dp (dHandle x) = false) →
      ∃ u y2, exec (.groutCfg r) s = .next u ∧ u.env = s.env ∧ Completed s.dp u.dp r (mkCompl s.dp r x .ok)
        ∧ brickOf u.dp i = { b with body := .barrier y2 } ∧ (∀ k, k ≠ i → brickOf u.dp k = brickOf s.dp k)
        ∧ (y.armed = true → y2 = { y with shRun := some { cfg := none, weights := none, base := 0, count := 0, byCfg := true } })
        ∧ (y.armed = false → y2 = y))
    ∧ (AtHead s.env s.dp r t x 0x44 → groutParamsOk x = false →
      ∃ u, exec (.groutCfg r) s = .next u ∧ u.env = s.env ∧ u.dp.bricks = s.dp.bricks ∧ Completed s.dp u.dp r (mkCompl s.dp r x .badGrout))
    ∧ (∀ n, AtHead s.env s.dp r t x 0x44 → groutParamsOk x = true → dfield x 140 6 ≠ 0 → (groutParams x).op ≠ 4 →
        (y.armed = true → nextHeld s.dp (dHandle x) = false) → n = (groutParams x).granules → 0 < n → n ≤ 255 →
        fitRun s.dp home n = some base → chargeG s.env s.dp b.part n = some (d1, od) →
      ∃ u y2 run, exec (.groutCfg r) s = .next u ∧ u.env = s.env ∧ Completed s.dp u.dp r { mkCompl s.dp r x .ok with overdrawn := od }
        ∧ brickOf u.dp i = { b with body := .barrier y2 } ∧ (∀ k, k ≠ i → brickOf u.dp k = brickOf s.dp k)
        ∧ run = { cfg := some (groutParams x), weights := none, base := base, count := n, byCfg := true }
        ∧ (base, n) ∈ (tileOf u.dp home).runs ∧ (partOf u.dp b.part).ug = (partOf s.dp b.part).ug + n
        ∧ (y.armed = true → y2 = { y with shRun := some run })
        ∧ (y.armed = false → y2.shRun = none ∧ ∃ g, y2.grout = some g ∧ g.run = run ∧ g.cum = 0 ∧ g.empty = true))
    ∧ (∀ table w n, AtHead s.env s.dp r t x 0x45 → weightParams x = none → dfield x 128 11 ≠ 0 →
        tableBytes (dfield x 140 3) (dfield x 144 5) (dfield x 128 11) ≤ table.length →
        w = { wkind := dfield x 140 3, wlanes := dfield x 144 5, entries := weightEntries (dfield x 140 3) (dfield x 144 5) (dfield x 128 11) table } →
        n = w.granules → 0 < n → n ≤ 255 → fitRun s.dp home n = some base → chargeG s.env s.dp b.part n = some (d1, od) →
      ∃ u y2 run, exec (.weightLoad r table) s = .next u ∧ u.env = s.env
        ∧ Completed s.dp u.dp r { mkCompl s.dp r x .ok with overdrawn := od }
        ∧ brickOf u.dp i = { b with body := .barrier y2 } ∧ (∀ k, k ≠ i → brickOf u.dp k = brickOf s.dp k)
        ∧ run = { cfg := none, weights := some w, base := base, count := n, byCfg := false }
        ∧ (base, n) ∈ (tileOf u.dp home).runs ∧ (partOf u.dp b.part).ug = (partOf s.dp b.part).ug + n
        ∧ (y.armed = true → y2 = { y with shRun := some run })
        ∧ (y.armed = false → y2.shRun = none ∧ ∃ g, y2.grout = some g ∧ g.run = run))

/-- R254, R255: an accepted LINTEL_LINK attaches or detaches a child, uplink or twin of a bound lintel record: what each ACTION sets, and that it leaves the other children. That a child which is attached again is neither gone nor seen, and that detaching what is not attached is accepted, is the model's choice (log 24). R156, R157, R158: PALLET_CFG builds the single stripe of an unmirrored pallet on its home tile, and on a configured pallet resumes the faulted stripes. -/
def Obligations.LintelAndPalletDescriptors : Prop :=
  ∀ (s : State) (r : RingId) (t : Nat) (x : BitVec 512) (b : Brick), Followed s.dp r x → Room s.dp r → Homed s.env s.dp (dHandle x) b →
    let i := hIndex (dHandle x)
    (∀ (q : LinkReq) (l : Lintel),
      (q.action = 0 → fget (q.apply l).children q.slot = some { peer := q.peer, peer2 := q.peer2, route := q.route, route2 := q.route2, valid := true, cut1 := false, cut2 := false }
        ∧ (∀ k, k ≠ q.slot → fget (q.apply l).children k = fget l.children k) ∧ (q.apply l).upv = l.upv ∧ (q.apply l).twv = l.twv
        ∧ (q.apply l).gone.getLsbD q.slot = false ∧ (q.apply l).seen.getLsbD q.slot = false ∧ (q.apply l).seenNext.getLsbD q.slot = false
        ∧ ∀ k, k ≠ q.slot → k < 64 → (q.apply l).gone.getLsbD k = l.gone.getLsbD k ∧ (q.apply l).seen.getLsbD k = l.seen.getLsbD k)
      ∧ (q.action = 1 → (q.apply l).upv = true ∧ (q.apply l).upslot = BitVec.ofNat 6 q.slot ∧ (q.apply l).uppeer = q.peer ∧ (q.apply l).uproute = q.route
        ∧ (q.apply l).up2peer = q.peer2 ∧ (q.peer2 ≠ 0 → (q.apply l).up2route = q.route2) ∧ (q.apply l).upcut = false ∧ (q.apply l).up2cut = false
        ∧ (q.apply l).children = l.children ∧ (q.apply l).twv = l.twv)
      ∧ (q.action = 2 → q.apply l = { l with twv := true, twpeer := q.peer, twroute := q.route })
      ∧ (q.action = 3 → q.apply l = { l with children := fdel l.children q.slot } ∧ fget (q.apply l).children q.slot = none
        ∧ ∀ k, k ≠ q.slot → fget (q.apply l).children k = fget l.children k)
      ∧ (q.action = 4 → (q.apply l).upv = false ∧ (q.apply l).upwait = false ∧ (q.apply l).upPay = none ∧ (q.apply l).uppeer = 0 ∧ (q.apply l).up2peer = 0
        ∧ (q.apply l).children = l.children ∧ (q.apply l).twv = l.twv))
    ∧ (∀ y l, AtHead s.env s.dp r t x 0x46 → b.body = .barrier y → fget s.dp.lintels i = some l → (linkReq x).action ≤ 2 →
        ((linkReq x).action = 0 → l.ctv = true) → linkCheck s.env i b y (some l) (linkReq x) = none →
      ∃ u, exec (.lintelLink r) s = .next u ∧ u.env = s.env ∧ Completed s.dp u.dp r (mkCompl s.dp r x .ok) ∧ u.dp.bricks = s.dp.bricks
        ∧ fget u.dp.lintels i = some ((linkReq x).apply l) ∧ (∀ k, k ≠ i → fget u.dp.lintels k = fget s.dp.lintels k))
    ∧ (∀ y l, AtHead s.env s.dp r t x 0x46 → b.body = .barrier y → fget s.dp.lintels i = some l → ((linkReq x).action = 3 ∨ (linkReq x).action = 4) →
        (linkReq x).peer = 0 → (linkReq x).peer2 = 0 → (linkReq x).route = 0 → (linkReq x).route2 = 0 →
        linkCheck s.env i b y (some l) (linkReq x) = none →
        (((linkReq x).apply l).children ≠ [] ∨ ((linkReq x).apply l).upv = true ∨ ((linkReq x).apply l).twv = true) →
      ∃ u m, exec (.lintelLink r) s = .next u ∧ u.env = s.env ∧ Completed s.dp u.dp r (mkCompl s.dp r x .ok)
        ∧ fget u.dp.lintels i = some m ∧ { m with probe := none } = { (linkReq x).apply l with probe := none }
        ∧ (l.probe = none → m.probe = none ∧ u.dp.bricks = s.dp.bricks)
        ∧ (∀ k, k ≠ i → fget u.dp.lintels k = fget s.dp.lintels k) ∧ (∀ k, k ≠ i → brickOf u.dp k = brickOf s.dp k))
    ∧ (∀ base d1 od, AtHead s.env s.dp r t x 0x47 → palletParams x = none → dfield x 128 3 = 0 → dfield x 137 3 = 0 → b.mirrored = false →
        (∀ k, stripeOf s.dp i k = none) → heldRoom s.env s.dp (homeOf s.env i) = true → fitRun s.dp (homeOf s.env i) 9 = some base →
        (partOf s.dp b.part).ub ≤ (partOf s.dp b.part).qb → sumParts s.dp Part.ub ≤ capacity s.env → chargeG s.env s.dp b.part 9 = some (d1, od) →
      ∃ u, exec (.palletCfg r) s = .next u ∧ u.env = s.env ∧ Completed s.dp u.dp r { mkCompl s.dp r x .ok with overdrawn := od }
        ∧ u.dp.bricks = s.dp.bricks
        ∧ stripeOf u.dp i 0 = some (Stripe.fresh 0 (dfield x 132 5) 0 (x.getLsbD 140) (BitVec.ofNat 64 (dfield x 192 64)) base 0)
        ∧ (base, 9) ∈ (tileOf u.dp (homeOf s.env i)).runs ∧ (partOf u.dp b.part).ug = (partOf s.dp b.part).ug + 9)
    ∧ (AtHead s.env s.dp r t x 0x47 → palletParams x = none → dfield x 128 3 = 1 → (stripeOf s.dp i 0).isSome = true →
      ∃ u, exec (.palletCfg r) s = .next u ∧ u.env = s.env ∧ Completed s.dp u.dp r (mkCompl s.dp r x .ok) ∧ u.dp.bricks = s.dp.bricks
        ∧ (∀ k q, k < 8 → stripeOf s.dp i k = some q → q.lost = none →
            ∃ q2, stripeOf u.dp i k = some q2 ∧ q2.wacc ≠ .held ∧ q2.racc ≠ .held ∧ q2.puts = q.puts ∧ q2.gets = q.gets ∧ q2.cache = q.cache))

/-! ### Lintels -/

/-- R256 to R263, R270: ARRIVE_UP counts a child once for the open or the next course; a RELEASE from the parent, or TWIN from the twin, closes the open course, and one of a course that has completed is discarded; DEPART_UP shrinks the barrier by its child, or poisons it where it was armed with POISON; POISON poisons it. -/
def Obligations.LintelCourseHods : Prop :=
  ∀ (s : State) (n i : Nat) (h : InHod) (b : Brick) (x : Barrier) (l : Lintel), x.armed = true → x.bonded = true → x.poisoned = false →
    x.grout = none → x.shBond = none → x.shRun = none →
    let c := h.rec_.child.toNat
    (∀ y, LintelTakes s.env s.dp n i 1#8 h b x l → fget l.children c = some y → y.isFrom h = true → l.gone.getLsbD c = false → h.rec_.grout = [] →
      (h.rec_.course = x.course + 1 → l.seen.getLsbD c = false → x.count + 1 < x.expect →
        ∃ t x2, exec (.arriveUp n) s = .next t ∧ t.env = s.env ∧ t.dp.inbound = eraseAt s.dp.inbound n
          ∧ brickOf t.dp i = { b with body := .barrier x2 } ∧ (∀ k, k ≠ i → brickOf t.dp k = brickOf s.dp k)
          ∧ x2.count = x.count + 1 ∧ x2.ahead = x.ahead ∧ x2.course = x.course ∧ x2.shrunk = (x.shrunk || h.rec_.status == 0x02#8)
          ∧ fget t.dp.lintels i = some { l with seen := l.seen ||| bit64 c })
      ∧ (h.rec_.course = x.course + 2 → l.seenNext.getLsbD c = false →
        ∃ t x2, exec (.arriveUp n) s = .next t ∧ t.env = s.env ∧ t.dp.inbound = eraseAt s.dp.inbound n
          ∧ brickOf t.dp i = { b with body := .barrier x2 } ∧ (∀ k, k ≠ i → brickOf t.dp k = brickOf s.dp k)
          ∧ x2.count = x.count ∧ x2.ahead = x.ahead + 1 ∧ x2.course = x.course
          ∧ fget t.dp.lintels i = some { l with seenNext := l.seenNext ||| bit64 c }))
    ∧ (∀ twin : Bool, LintelTakes s.env s.dp n i (if twin then 8#8 else 2#8) h b x l → h.rec_.course = x.course + 1 →
        (if twin then l.twv = true ∧ isFrom h l.twpeer l.twroute = true
          else l.upv = true ∧ (isFrom h l.uppeer l.uproute = true ∨ isFrom h l.up2peer l.up2route = true)) →
        x.ahead + x.nextDelta < x.expect →
        ∃ t x2, exec (if twin then .twin n else .lintelRelease n) s = .next t ∧ t.env = s.env ∧ brickOf t.dp i = { b with body := .barrier x2 }
          ∧ (∀ k, k ≠ i → brickOf t.dp k = brickOf s.dp k) ∧ x2.course = x.course + 1 ∧ x2.count = x.ahead ∧ x2.ahead = 0
          ∧ x2.lastStatus = (if x.shrunk || h.rec_.status == 0x02#8 then .okShrunk else .ok)
          ∧ (∀ j ∈ bedJoints s.dp (brickHandle s.env i b) false, ∃ g ∈ t.dp.net, g.dst = .joint j ∧ ∃ r, g.body = .release r ∧ r.course = x.course + 1))
    ∧ (∀ twin : Bool, LintelTakes s.env s.dp n i (if twin then 8#8 else 2#8) h b x l → h.rec_.course ≠ x.course + 1 → completed x.course h.rec_.course = true →
        ∃ t, exec (if twin then .twin n else .lintelRelease n) s = .next t ∧ t.env = s.env ∧ t.dp.bricks = s.dp.bricks ∧ t.dp.net = s.dp.net
          ∧ t.dp.inbound = eraseAt s.dp.inbound n)
    ∧ (∀ y, LintelTakes s.env s.dp n i 3#8 h b x l → fget l.children c = some y → y.isFrom h = true → l.gone.getLsbD c = false → x.arm.depart = true →
        ∃ t x2, exec (.departUp n) s = .next t ∧ t.env = s.env ∧ brickOf t.dp i = { b with body := .barrier x2 }
          ∧ (∀ k, k ≠ i → brickOf t.dp k = brickOf s.dp k) ∧ x2.poisoned = true ∧ x2.course = x.course)
    ∧ (∀ y, LintelTakes s.env s.dp n i 3#8 h b x l → fget l.children c = some y → y.isFrom h = true → l.gone.getLsbD c = false →
        l.seenNext.getLsbD c = false → x.arm.depart = false → (if l.seen.getLsbD c then x.count < x.expect else x.count < x.expect - 1) →
        ∃ t x2, exec (.departUp n) s = .next t ∧ t.env = s.env ∧ brickOf t.dp i = { b with body := .barrier x2 }
          ∧ (∀ k, k ≠ i → brickOf t.dp k = brickOf s.dp k) ∧ x2.shrunk = true ∧ x2.count = x.count
          ∧ x2.expect = x.expect - (if l.seen.getLsbD c then 0 else 1) ∧ x2.nextDelta = x.nextDelta + (if l.seen.getLsbD c then 1 else 0)
          ∧ (∃ l2, fget t.dp.lintels i = some l2 ∧ l2.gone = l.gone ||| bit64 c))
    ∧ (LintelTakes s.env s.dp n i 4#8 h b x l → l.sender h ≠ 0 →
        ∃ t x2, exec (.poison n) s = .next t ∧ t.env = s.env ∧ brickOf t.dp i = { b with body := .barrier x2 }
          ∧ (∀ k, k ≠ i → brickOf t.dp k = brickOf s.dp k) ∧ x2.poisoned = true ∧ x2.course = x.course
          ∧ (∃ q ∈ t.dp.inc.reports, q.1 = .tile (homeOf s.env i) ∧ q.2.key.kind = .poison))

/-- R265, R266, R275, R276, R268, R369: SWEEP from the parent acts as the brick's own expiry, or only ends the waits TIMEOUT where the brick has gone up already; a PROBE goes on to the children and their twins, but for one while another is under way (log 24), and PROBE_ANS keeps the latest of their answers until all of them that are still there have answered; a REFUSE BUSY or RETRY makes the refused hod wait, and the end of the wait sends it again; an INCIDENT hod enters the unit as a hall report. How a REFUSE finds the hod it refuses is the model's reading (log 30); the delay that the root of a tree sees is an operand (log 39), and the delay of its own probe is free (log 6). -/
def Obligations.LintelControlHods : Prop :=
  ∀ (s : State) (n i : Nat) (h : InHod) (b : Brick) (x : Barrier) (l : Lintel),
    (LintelTakes s.env s.dp n i 5#8 h b x l → x.armed = true → x.bonded = true → x.poisoned = false → l.upv = true →
        (isFrom h l.uppeer l.uproute = true ∨ isFrom h l.up2peer l.up2route = true) → h.rec_.course = x.course + 1 → l.upwait = false → x.count < x.expect → x.expired = false →
        ∃ t x2, exec (.sweep n) s = .next t ∧ t.env = s.env ∧ brickOf t.dp i = { b with body := .barrier x2 }
          ∧ x2.expired = true ∧ x2.dlAt = 0 ∧ x2.course = x.course ∧ x2.count = x.count
          ∧ (∀ j ∈ bedJoints s.dp (brickHandle s.env i b) false, ∃ g ∈ t.dp.net, g.dst = .joint j ∧ g.body = .sweep i (x.course + 1)))
    ∧ (LintelTakes s.env s.dp n i 5#8 h b x l → x.armed = true → x.bonded = true → x.poisoned = false → l.upv = true →
        (isFrom h l.uppeer l.uproute = true ∨ isFrom h l.up2peer l.up2route = true) → h.rec_.course = x.course + 1 →
        (l.upwait = true ∨ x.expect ≤ x.count ∨ x.expired = true) →
        ∃ t, exec (.sweep n) s = .next t ∧ t.env = s.env ∧ t.dp.bricks = s.dp.bricks
          ∧ (l.upwait = true → ∀ j ∈ bedJoints s.dp (brickHandle s.env i b) false, ∃ g ∈ t.dp.net, g.dst = .joint j
              ∧ ∃ r, g.body = .release r ∧ r.status = .timeout ∧ r.course = x.course))
    ∧ (LintelTakes s.env s.dp n i 6#8 h b x l → l.probe = none → l.probed = [] →
        ∃ t latest, exec (.probe n) s = .next t ∧ t.env = s.env ∧ fget t.dp.lintels i = some { l with probe := none }
          ∧ (l.upv = true → t.dp.bricks = s.dp.bricks)
          ∧ (l.upv = false → brickOf t.dp i = { b with body := .barrier { x with path := roundPath ((latest - h.rec_.instant).toNat + 1024) } })
          ∧ (bedJoints s.dp (brickHandle s.env i b) false = [] → latest = h.rec_.instant))
    ∧ (LintelTakes s.env s.dp n i 6#8 h b x l → l.probe.isSome = true →
        ∃ t, exec (.probe n) s = .next t ∧ t.env = s.env ∧ t.dp.bricks = s.dp.bricks ∧ t.dp.lintels = s.dp.lintels
          ∧ t.dp.inbound = eraseAt s.dp.inbound n)
    ∧ (LintelTakes s.env s.dp n i 6#8 h b x l → l.probe = none → l.probed ≠ [] →
        ∃ t latest, exec (.probe n) s = .next t ∧ t.env = s.env ∧ t.dp.bricks = s.dp.bricks
          ∧ fget t.dp.lintels i = some { l with probe := some (l.probed, h.rec_.instant, latest) }
          ∧ (bedJoints s.dp (brickHandle s.env i b) false = [] → latest = h.rec_.instant))
    ∧ (∀ y w sent latest, LintelTakes s.env s.dp n i 7#8 h b x l → fget l.children h.rec_.child.toNat = some y → y.isFrom h = true →
        l.probe = some (w, sent, latest) →
        let late := if reached h.rec_.instant latest then h.rec_.instant else latest
        let rest := (w.filter (fun q => q != (h.rec_.child.toNat, !isFrom h y.peer y.route))).filter l.probed.contains
        (rest ≠ [] → ∃ t, exec (.probeAns n) s = .next t ∧ t.env = s.env ∧ t.dp.bricks = s.dp.bricks
          ∧ fget t.dp.lintels i = some { l with probe := some (rest, sent, late) })
        ∧ (rest = [] → l.upv = false → ∃ t, exec (.probeAns n) s = .next t ∧ t.env = s.env ∧ fget t.dp.lintels i = some { l with probe := none }
          ∧ brickOf t.dp i = { b with body := .barrier { x with path := roundPath ((late - sent).toNat + 1024) } })
        ∧ (rest = [] → l.upv = true → ∃ t, exec (.probeAns n) s = .next t ∧ t.env = s.env ∧ t.dp.bricks = s.dp.bricks
          ∧ fget t.dp.lintels i = some { l with probe := none }))
    ∧ (inboundAt s.env s.dp n = some h → h.rec_.kind = 9#8 → h.waits s.env s.dp = false → refused s.dp h = none →
        tileServes s.env s.dp (homeOf s.env (hIndex h.rec_.handle)) = true →
        ∃ t, exec (.refuse n) s = .next t ∧ t.env = s.env ∧ t.dp.bricks = s.dp.bricks ∧ t.dp.inbound = eraseAt s.dp.inbound n
          ∧ t.dp.backoffs = s.dp.backoffs)
    ∧ (∀ q, inboundAt s.env s.dp n = some h → h.rec_.kind = 9#8 → h.waits s.env s.dp = false → refused s.dp h = some q →
        tileServes s.env s.dp (homeOf s.env (hIndex q.sender)) = true → (h.rec_.status = 0x04#8 ∨ h.rec_.status = 0x30#8) →
        ∃ t, exec (.refuse n) s = .next t ∧ t.env = s.env ∧ t.dp.bricks = s.dp.bricks ∧ t.dp.inbound = eraseAt s.dp.inbound n
          ∧ t.dp.backoffs = s.dp.backoffs ++ [if h.rec_.status = 0x04#8
              then { route := h.route, sender := q.sender, rec_ := q.rec_, dueGt := none, dueCyc := some (now s.env + 64) }
              else { route := h.route, sender := q.sender, rec_ := q.rec_, dueGt := some (gtInterp s.env + BitVec.ofNat 64 (16000 * nextWait q.wait)), dueCyc := none }])
    ∧ (∀ q, s.dp.backoffs[n]? = some q → (∀ g, q.dueGt = some g → reached (gtInterp s.env) g = true) → (∀ c, q.dueCyc = some c → c ≤ now s.env) →
        s.env.stop.stopped = false → s.env.pwr.pfFrozen = false →
        ∃ t d1, exec (.refuseRetryBackoff n) s = .next t ∧ t.env = s.env ∧ t.dp = putRecord s.env d1 q.route (hDie q.rec_.handle) q.rec_
          ∧ d1.backoffs = eraseAt s.dp.backoffs n ∧ d1.links = s.dp.links ∧ d1.bricks = s.dp.bricks ∧ d1.net = s.dp.net ∧ d1.inbound = s.dp.inbound
          ∧ d1.port = s.dp.port)
    ∧ (∀ r c, inboundAt s.env s.dp n = some h → h.rec_.kind = 10#8 → hallReport h.rec_ = some (r, c) →
        let home := parentTile h.route
        let d := trace s.env (dropInbound s.dp n) home (some 6) (linkRec s.env home h.route false h.rec_)
        exec (.incidentHod n) s = .next { s with dp := enterReport s.env d none r c })

/-! ### Links -/

/-- R11, R278 to R280, R282, R417, R272: a DATA frame of the expected SEQ delivers its hods in order, but for one of a reserved kind or with a reserved bit or an illegal GLEN; one already taken is acknowledged again and delivers nothing; one behind a gap delivers nothing and asks once for the missing one; ACK ends the frames before it, or answers the SYNC that is out; SYNC begins the peer's epoch at SEQ 0, and where the peer has reset this side starts with SYNC itself (R281); a hold frame starts the peer's hold; a frame of another epoch or with a stream error delivers nothing; a bare record from another die is delivered. That any ACK of the epoch answers the SYNC, and by what a SYNC shows that the peer has reset (log 12), and where a stream error counts (log 16) are the model's reading. -/
def Obligations.FramesTaken : Prop :=
  ∀ (s : State) (f g : List Byte),
    let r := fLink g
    let l := linkOf s.dp r
    (FrameIn s.env s.dp f g → fKind g = 0 → fEpoch g = l.epochRx → 1 ≤ fHods g → fHods g ≤ 4 →
        (fSeq g = l.seqRx → l.syncing = false →
          ∃ t, exec (.data f false) s = .next t ∧ t.env = s.env ∧ t.dp.bricks = s.dp.bricks ∧ (linkOf t.dp r).seqRx = l.seqRx + 1
            ∧ t.dp.inbound = s.dp.inbound ++ ((parseRecs (fHods g) ((g.take (fLen g)).drop 24)).filter (fun h => decide (RecordOk h))).map (fun h =>
                { route := BitVec.ofNat 8 r, die := routeDie s.env r, node := routeNode s.env r, rec_ := h.1 }))
        ∧ (fSeq g ≠ l.seqRx → (l.seqRx - fSeq g).toNat < 2 ^ 31 → l.syncing = false →
          ∃ t, exec (.data f false) s = .next t ∧ t.env = s.env ∧ t.dp.bricks = s.dp.bricks ∧ t.dp.inbound = s.dp.inbound
            ∧ (linkOf t.dp r).seqRx = l.seqRx ∧ .ack (BitVec.ofNat 8 r) false l.seqRx l.epochTx ∈ wired t.dp)
        ∧ (2 ^ 31 ≤ (l.seqRx - fSeq g).toNat → l.gapSeen = false → l.syncing = false →
          ∃ t, exec (.data f false) s = .next t ∧ t.env = s.env ∧ t.dp.bricks = s.dp.bricks ∧ t.dp.inbound = s.dp.inbound
            ∧ (linkOf t.dp r).seqRx = l.seqRx ∧ (linkOf t.dp r).gapSeen = true ∧ .ack (BitVec.ofNat 8 r) true l.seqRx l.epochTx ∈ wired t.dp))
    ∧ (FrameIn s.env s.dp f g → fKind g = 0 → fEpoch g ≠ l.epochRx →
        exec (.data f false) s = .next { s with dp := bumpR s.env (bumpR s.env s.dp r 1 1) r 8 1 })
    ∧ (s.env.lf.enable = true → s.env.stop.stopped = false → s.env.pwr.pfFrozen = false → deframe s.env f = some g →
        (fKind g = 0 → exec (.data f true) s = .next { s with dp := bumpR s.env s.dp (linkAt s.env f) 7 1 })
        ∧ (fKind g = 1 → exec (.ack f true) s = .next { s with dp := bumpR s.env s.dp (linkAt s.env f) 7 1 })
        ∧ (fKind g = 3 → exec (.sync f true) s = .next { s with dp := bumpR s.env s.dp (linkAt s.env f) 7 1 }))
    ∧ (s.env.lf.enable = true → s.env.stop.stopped = false → s.env.pwr.pfFrozen = false → 18 ≤ f.length → f.length ≤ mtuOf s.env + 22 → deframe s.env f = some g →
        frameOk s.env g = false → fKind g = 0 →
        exec (.data f false) s = .next { s with dp := dropFrame s.env s.dp (min r 255) })
    ∧ (s.env.lf.enable = true → s.env.stop.stopped = false → s.env.pwr.pfFrozen = false → f.length < 18 ∨ mtuOf s.env + 22 < f.length → deframe s.env f = some g →
        fKind g = 0 → exec (.data f false) s = .next { s with dp := bumpR s.env s.dp (linkAt s.env f) 7 1 })
    ∧ (∀ q rest, FrameIn s.env s.dp f g → fKind g = 1 → fEpoch g = l.epochRx → fNak g = false → l.syncing = false → l.unacked = q :: rest → l.queue = [] →
        1 ≤ (fAck g - q.seq).toNat → (fAck g - q.seq).toNat ≤ l.unacked.length →
        ∃ t, exec (.ack f false) s = .next t ∧ t.env = s.env ∧ t.dp.bricks = s.dp.bricks ∧ t.dp.inbound = s.dp.inbound
          ∧ (linkOf t.dp r).unacked = l.unacked.drop (fAck g - q.seq).toNat ∧ (linkOf t.dp r).retries = 0)
    ∧ (FrameIn s.env s.dp f g → fKind g = 1 → fEpoch g = l.epochRx → fNak g = false → l.syncing = true →
        ∃ t, exec (.ack f false) s = .next t ∧ t.env = s.env ∧ t.dp.bricks = s.dp.bricks ∧ t.dp.inbound = s.dp.inbound
          ∧ (linkOf t.dp r).synced = true ∧ (linkOf t.dp r).syncing = false ∧ (linkOf t.dp r).cut = false)
    ∧ (FrameIn s.env s.dp f g → fKind g = 3 →
        ∃ t, exec (.sync f false) s = .next t ∧ t.env = s.env ∧ t.dp.bricks = s.dp.bricks ∧ (linkOf t.dp r).epochRx = fEpoch g
          ∧ (linkOf t.dp r).seqRx = 0 ∧ .ack (BitVec.ofNat 8 r) false 0 l.epochTx ∈ wired t.dp
          ∧ (peerReset l (fEpoch g) (fAck g) = true →
              (linkOf t.dp r).epochTx = l.epochTx + 1 ∧ (linkOf t.dp r).seqTx = 0 ∧ (linkOf t.dp r).syncing = true ∧ (linkOf t.dp r).unacked = []
              ∧ .sync (BitVec.ofNat 8 r) 0 (l.epochTx + 1) ∈ wired t.dp))
    ∧ (FrameIn s.env s.dp f g → isHold g = true → fEpoch g = l.epochRx →
        ∃ t, exec (.hold f false) s = .next t ∧ t.env = s.env ∧ t.dp.bricks = s.dp.bricks ∧ t.dp.inbound = s.dp.inbound
          ∧ linkOf t.dp r = { l with hold := some (gtInterp s.env) })
    ∧ (∀ die h, s.env.stop.stopped = false → s.env.pwr.pfFrozen = false → s.env.lf.d2dErr.getLsbD die.toNat = false → parseRec f = some (h, true, []) →
        RecordOk (h, true) →
        ∃ t, exec (.packageRecord die f) s = .next t ∧ t.env = s.env ∧ t.dp.bricks = s.dp.bricks ∧ t.dp.links = s.dp.links
          ∧ t.dp.inbound = s.dp.inbound ++ [{ route := 0xFF#8, die := die, node := s.env.kp.node, rec_ := h }])

/-- R272, R277, R279, R280, R417: the timers of a link: the standalone ACK; the retransmission of every unacknowledged frame or of the SYNC, or the cut at LIMIT; the cut after HOLDMAX; F_PAUSE and F_D2D_ERR. What a cut drops and when SYNC goes out (log 12), and the replay at the end of a die-to-die error (log 16), are the model's reading. -/
def Obligations.LinkTimersAct : Prop :=
  ∀ (s : State) (r : BitVec 8), s.env.stop.stopped = false → s.env.pwr.pfFrozen = false →
    let l := linkOf s.dp r.toNat
    (∀ g, l.ackOwed = some g → reached (gtInterp s.env) g = true → timersRun s.env l = true → s.env.lf.enable = true →
        let d : Dp := fabOut (setLink s.dp r.toNat { l with ackOwed := none }) (.ack (BitVec.ofNat 8 r.toNat) false l.seqRx l.epochTx)
        exec (.standaloneAckTimer r) s = .next { s with dp := d })
    ∧ (∀ g, l.timer = some g → reached (gtInterp s.env) g = true → timersRun s.env l = true → l.unacked ≠ [] → l.syncing = false →
        l.retries + 1 < retryLimit s.env → s.env.lf.enable = true →
        ∃ t, exec (.retransmitExpiry r) s = .next t ∧ t.env = s.env ∧ t.dp.bricks = s.dp.bricks ∧ (linkOf t.dp r.toNat).retries = l.retries + 1
          ∧ (linkOf t.dp r.toNat).unacked = l.unacked
          ∧ t.dp.port.fab = s.dp.port.fab ++ l.unacked.map (fun f => .data (BitVec.ofNat 8 r.toNat) f l.seqRx l.epochTx))
    ∧ (∀ g, l.timer = some g → reached (gtInterp s.env) g = true → timersRun s.env l = true → l.syncing = true →
        (l.retries + 1 < retryLimit s.env ∨ l.cut = true) → s.env.lf.enable = true →
        ∃ t, exec (.retransmitExpiry r) s = .next t ∧ t.env = s.env ∧ t.dp.bricks = s.dp.bricks ∧ (linkOf t.dp r.toNat).retries = l.retries + 1
          ∧ t.dp.port.fab = s.dp.port.fab ++ [.sync (BitVec.ofNat 8 r.toNat) l.seqRx l.epochTx])
    ∧ (∀ g, l.timer = some g → reached (gtInterp s.env) g = true → timersRun s.env l = true →
        (l.unacked ≠ [] ∨ l.syncing = true ∨ s.env.lf.enable = false) →
        retryLimit s.env ≤ l.retries + 1 → l.cut = false →
        ∃ t, exec (.retransmitExpiry r) s = .next t ∧ t.env = s.env ∧ (linkOf t.dp r.toNat).cut = true ∧ (linkOf t.dp r.toNat).syncing = true
          ∧ (linkOf t.dp r.toNat).unacked = [] ∧ (∀ b ∈ t.dp.backoffs, b.route ≠ r))
    ∧ (∀ g, l.hold = some g → s.env.lf.holdMax ≠ 0 → s.env.lf.holdMax.toNat * 16000000 ≤ (gtInterp s.env - g).toNat →
        ∃ t, exec (.holdmaxExpiry r) s = .next t ∧ t.env = s.env ∧ (linkOf t.dp r.toNat).cut = true ∧ (linkOf t.dp r.toNat).syncing = true
          ∧ (linkOf t.dp r.toNat).unacked = [] ∧ (linkOf t.dp r.toNat).hold = none)
    ∧ (s.env.lf.pause = false → exec (.pause true) s = .next { s with env := { s.env with lf := { s.env.lf with pause := true, pauseAt := gtInterp s.env } } })
    ∧ (s.env.lf.pause = true → ∃ t, exec (.pause false) s = .next t ∧ t.env = { s.env with lf := { s.env.lf with pause := false } }
        ∧ t.dp.bricks = s.dp.bricks ∧ t.dp.inbound = s.dp.inbound)
    ∧ (∀ die : BitVec 3, s.env.lf.d2dErr.getLsbD die.toNat = false →
        ∃ t, exec (.d2dErr die) s = .next t ∧ t.env.lf.d2dErr = s.env.lf.d2dErr ||| BitVec.ofNat 8 (2 ^ die.toNat)
          ∧ (∃ q ∈ t.dp.inc.reports, q.1 = .fabric ∧ q.2.key.kind = .linkCut) ∧ (∀ b ∈ t.dp.backoffs, b.route = 0xFF#8 → hDie b.rec_.handle ≠ die))
    ∧ (∀ die : BitVec 3, s.env.lf.d2dErr.getLsbD die.toNat = true →
        ∃ t, exec (.d2dErrClear die) s = .next t ∧ t.env.lf.d2dErr = s.env.lf.d2dErr &&& ~~~ (BitVec.ofNat 8 (2 ^ die.toNat)) ∧ t.dp.bricks = s.dp.bricks)

/-! ### Time exchanges, partitions, faults and fences -/

/-- R287, R288, R289: the time parent answers a request at once with its own instants; the requester sends the next exchange when it is due, takes the reply that matches a request out, gives an exchange up after 100 µs, and ends with the answered exchange of the smallest delay, or with VALID 0 when there is none. θ and δ are exact where the difference is even; the half unit of an odd one is the model's free value (log 6). The parent's t3 is its t2 (log 16, the model's reading). -/
def Obligations.TimeExchange : Prop :=
  ∀ (s : State),
    let g := gtInterp s.env
    let m := s.dp.tm
    (∀ f die, s.env.stop.stopped = false → s.env.pwr.pfFrozen = false → s.env.lf.d2dErr.getLsbD die.toNat = false → PackageTime f →
        isHold f = false → fNak f = false →
        exec (.time f false (some die)) s
          = .next { s with dp := fabOut (bumpR s.env s.dp 255 1 1) (.time 0xFF#8 die true (fTime f 24) g g (linkOf s.dp 255).seqRx (linkOf s.dp 255).epochTx) })
    ∧ (∀ f b, FrameIn s.env s.dp f b → fKind b = 2 → isHold b = false → fNak b = false → fEpoch b = (linkOf s.dp (fLink b)).epochRx →
        ∃ t, exec (.time f false none) s = .next t ∧ t.env = s.env ∧ t.dp.bricks = s.dp.bricks ∧ t.dp.tm = m
          ∧ .time (BitVec.ofNat 8 (fLink b)) (routeDie s.env (fLink b)) true (fTime b 24) g g
              (linkOf s.dp (BitVec.ofNat 8 (fLink b)).toNat).seqRx (linkOf s.dp (BitVec.ofNat 8 (fLink b)).toNat).epochTx ∈ wired t.dp)
    ∧ (∀ f w, s.env.stop.stopped = false → s.env.pwr.pfFrozen = false → s.env.lf.d2dErr.getLsbD s.env.lf.tPdie.toNat = false → PackageTime f → isHold f = false →
        fNak f = true → s.env.lf.tRoot = false → s.env.lf.tLink = 0xFF#8 → m.waiting.find? (fun w => w.2.1 == fTime f 24) = some w →
        ∃ t th de, exec (.time f false (some s.env.lf.tPdie)) s = .next t ∧ t.env = s.env ∧ t.dp.bricks = s.dp.bricks
          ∧ t.dp.tm = { m with waiting := m.waiting.filter (fun v => v.1 != w.1), results := m.results ++ [(th, de)] }
          ∧ (let a := sdiff (fTime f 32) (fTime f 24) - sdiff (g + corr s.env) (fTime f 40)
             let b := sdiff (g + corr s.env) (fTime f 24) - sdiff (fTime f 40) (fTime f 32)
             (a % 2 = 0 → 2 * th = a) ∧ 2 * th ≤ a + 1 ∧ a ≤ 2 * th + 1 ∧ (b % 2 = 0 → 2 * de = b) ∧ 2 * de ≤ b + 1 ∧ b ≤ 2 * de + 1))
    ∧ (m.busy = true → m.toSend ≠ 0 → reached g m.nextAt = true → s.env.stop.stopped = false → s.env.pwr.pfFrozen = false →
        (s.env.lf.tLink = 0xFF#8 ∨ s.env.lf.enable = true ∧ paused s.env = false) →
        ∃ t, exec .timeExchangeSend s = .next t ∧ t.env = s.env ∧ t.dp.bricks = s.dp.bricks
          ∧ t.dp.tm = { m with toSend := m.toSend - 1, nextAt := g + 160000, serial := m.serial + 1,
                               waiting := m.waiting ++ [(m.serial, g + corr s.env, g)] }
          ∧ t.dp.port.fab = s.dp.port.fab
              ++ (if parentLost s.env then [] else [.time s.env.lf.tLink s.env.lf.tPdie false (g + corr s.env) 0 0
                    (linkOf s.dp s.env.lf.tLink.toNat).seqRx (linkOf s.dp s.env.lf.tLink.toNat).epochTx]))
    ∧ (∀ n t1 at_, m.waiting.find? (fun w => w.1 == n) = some (n, t1, at_) → 1600000 ≤ (g - at_).toNat →
        let d : Dp := { s.dp with tm := { m with waiting := m.waiting.filter (fun v => v.1 != n) } }
        exec (.timeExchangeTimeout n) s = .next { s with dp := d })
    ∧ (m.busy = true → m.toSend = 0 → m.waiting = [] →
        ∃ t, exec .offsetResult s = .next t ∧ t.dp.tm.busy = false ∧ t.dp.tm.answered = m.results.length ∧ t.dp.bricks = s.dp.bricks
          ∧ t.env.clk.gt = s.env.clk.gt
          ∧ (m.results = [] → t.dp.tm.valid = false ∧ t.env = s.env)
          ∧ (m.results ≠ [] → ∃ th de, (th, de) ∈ m.results ∧ (∀ x ∈ m.results, de ≤ x.2) ∧ t.dp.tm.valid = true
              ∧ t.dp.tm.theta = BitVec.ofInt 64 th ∧ t.dp.tm.delta = BitVec.ofInt 32 de
              ∧ t.env.clk.stepReq = (if s.env.lf.tApply then some (s.env.clk.stepReq.getD 0 + th) else s.env.clk.stepReq)))

/-- R333 to R335, R342 to R345: CTX_SAVE starts a freeze, or saves a FROZEN partition; each source takes FREEZE once; the drain marker that leaves nothing under way makes the partition FROZEN; a record for a FROZEN partition goes to its backlog; CTX_RESTORE makes a FROZEN partition run again and gives running deadlines the time it was frozen. What FROZEN waits for and the instant of the save are the model's reading (log 17). -/
def Obligations.PartitionsFreezeAndResume : Prop :=
  ∀ (s : State) (p : BitVec 4),
    let y := partOf s.dp p
    (∀ t x, AtHead s.env s.dp .keeper t x 0x50 → BitVec.ofNat 4 (dfield x 128 4) = p → dfield x 192 64 % 4096 = 0 → y.st = .run →
        let d : Dp := { setPart s.dp p { y with st := .freezing, frozenBy := [], markers := [], freezeTails := ringTails s.dp p } with ctxRun := some p }
        exec (.ctxSave .keeper) s = .next { s with dp := setRing d .keeper { ringOf s.dp .keeper with wait := some .freeze } })
    ∧ (∀ t x, AtHead s.env s.dp .keeper t x 0x50 → BitVec.ofNat 4 (dfield x 128 4) = p → dfield x 192 64 % 4096 = 0 → y.st = .frozen →
        Followed s.dp .keeper x → Room s.dp .keeper →
        ∃ u, exec (.ctxSave .keeper) s = .next u ∧ u.env = s.env ∧ u.dp.bricks = s.dp.bricks ∧ u.dp.ctxRun = none
          ∧ Completed s.dp u.dp .keeper (mkCompl s.dp .keeper x .ok)
          ∧ (dfield x 192 64 = 0 → (partOf u.dp p).st = .frozen ∧ u.dp.tiles = s.dp.tiles)
          ∧ (dfield x 192 64 ≠ 0 → (partOf u.dp p).st = .saved ∧ (partOf u.dp p).ug = 0
              ∧ (∀ j, ∀ b ∈ (jointOf u.dp j).beds, b.part ≠ p)
              ∧ (∀ j, ∀ z ∈ (jointOf u.dp j).entries, z.saved p = false)
              ∧ (∀ q, (tileOf u.dp q).slots = (tileOf s.dp q).slots.filter (fun r => !r.1.own s.dp p))))
    ∧ (∀ t x, AtHead s.env s.dp .keeper t x 0x50 → BitVec.ofNat 4 (dfield x 128 4) = p → Followed s.dp .keeper x → Room s.dp .keeper →
        let answers := fun st => ∃ u, exec (.ctxSave .keeper) s = .next u ∧ u.env = s.env ∧ u.dp.bricks = s.dp.bricks ∧ u.dp.parts = s.dp.parts
          ∧ Completed s.dp u.dp .keeper (mkCompl s.dp .keeper x st)
        (dfield x 192 64 % 4096 ≠ 0 → answers .badCount)
        ∧ (dfield x 192 64 % 4096 = 0 → (y.st = .freezing ∨ y.st = .saved ∨ y.st = .restoring ∨ y.st = .resetting) → answers .busy))
    ∧ (∀ t x area, AtHead s.env s.dp .keeper t x 0x51 → BitVec.ofNat 4 (dfield x 128 4) = p → dfield x 192 64 = 0 → y.st = .frozen →
        ∃ u, exec (.ctxRestore .keeper area) s = .next u ∧ u.env = s.env ∧ (partOf u.dp p).st = .run ∧ (partOf u.dp p).backlog = []
          ∧ (partOf u.dp p).recHods = [] ∧ (partOf u.dp p).recCuts = [] ∧ (partOf u.dp p).depMap = [] ∧ (partOf u.dp p).saved = none)
    ∧ (∀ t x area, AtHead s.env s.dp .keeper t x 0x51 → BitVec.ofNat 4 (dfield x 128 4) = p → Followed s.dp .keeper x → Room s.dp .keeper →
        let answers := fun st => ∃ u, exec (.ctxRestore .keeper area) s = .next u ∧ u.env = s.env ∧ u.dp.bricks = s.dp.bricks ∧ u.dp.parts = s.dp.parts
          ∧ Completed s.dp u.dp .keeper (mkCompl s.dp .keeper x st)
        (dfield x 192 64 % 4096 ≠ 0 → answers .badCount)
        ∧ (dfield x 192 64 % 4096 = 0 → (y.st = .run ∨ y.st = .freezing ∨ y.st = .frozen ∧ dfield x 192 64 ≠ 0) → answers .busy)
        ∧ (∀ v, dfield x 192 64 % 4096 = 0 → y.st = .saved → y.saved = some v →
            (dfield x 192 64 = 0 ∨ BitVec.ofNat 64 (dfield x 192 64) ≠ v.area ∨ areaMatches s.env p area = false) → answers .badCount)
        ∧ (∀ v, dfield x 192 64 ≠ 0 → dfield x 192 64 % 4096 = 0 → y.st = .saved → y.saved = some v → BitVec.ofNat 64 (dfield x 192 64) = v.area →
            areaMatches s.env p area = true →
            let dr := memRead s.dp 16 v.area area.length
            (v.entries.all (entryFits s.dp p v) = false → answers .busy)
            ∧ (∀ st, restoreState s.env dr p v = .error st → answers st)
            ∧ (∀ d, restoreState s.env dr p v = .ok d →
                ∃ u, exec (.ctxRestore .keeper area) s = .next u ∧ u.env = s.env ∧ (partOf u.dp p).st = .run ∧ (partOf u.dp p).saved = none
                  ∧ (partOf u.dp p).backlog = [] ∧ (partOf u.dp p).recHods = [] ∧ (partOf u.dp p).recCuts = [] ∧ (partOf u.dp p).depMap = [])))
    ∧ (∀ i l by_, (brickOf s.dp i).body = .lock l →
        brickOf (advanceBrick s.dp by_ i) i
          = { brickOf s.dp i with body := .lock { l with queue := l.queue.map (fun w => if w.dlRun then { w with dlAt := w.dlAt + by_ } else w) } })
    ∧ (∀ src, y.st = .freezing → y.frozenBy.any (fun f => decide (f.1 = src)) = false → s.env.stop.stopped = false → s.env.pwr.pfFrozen = false →
        (∀ j, src = .joint j → implemented s.env j.toNat = true) →
        (∀ t, src = .frontEnd t ∨ src = .tile t → unavailable s.env t.toNat = false) →
        ∃ u, exec (.freeze src p) s = .next u ∧ u.env = s.env ∧ u.dp.bricks = s.dp.bricks ∧ u.dp.net = s.dp.net
          ∧ partOf u.dp p = { y with frozenBy := y.frozenBy ++ [(src, s.dp.seq)] }
          ∧ (∀ j, src = .joint j → (jointOf u.dp j.toNat).frozen.contains p.toNat = true))
    ∧ (∀ (t : BitVec 5) src, y.st = .freezing → s.dp.ctxRun = some p → (∀ q, src ≠ .tile q) →
        (∀ q, src = .frontEnd q → frontDone s.env s.dp p q.toNat = true) → y.markers.contains (t.toNat, src) = false →
        markerDue s.dp src p t.toNat = true → tileServes s.env s.dp t.toNat = true →
        let d := setPart s.dp p { y with markers := y.markers ++ [(t.toNat, src)] }
        let d := if mayFlush s.env d p then flushTrees s.env d p else d
        ∃ u, exec (.drainMarker t src p) s = .next u ∧ u.env = s.env
          ∧ (drained s.env d p = true → y.resetReq = false → u.dp.bricks = s.dp.bricks
              ∧ partOf u.dp p = { y with st := .frozen, gtFreeze := gtInterp s.env, frozenBy := [], markers := [], freezeTails := [] })
          ∧ (drained s.env d p = false → u.dp.bricks = s.dp.bricks ∧ partOf u.dp p = { y with markers := y.markers ++ [(t.toNat, src)] }))
    ∧ (∀ n h i fault, inboundAt s.env s.dp n = some h → h.waits s.env s.dp = true → h.target s.env s.dp = some i → (brickOf s.dp i).part = p →
        tileServes s.env s.dp (homeOf s.env i) = true →
        let ends := fun (z : Part) => ∃ u, exec (.backlogHod n fault) s = .next u ∧ u.env = s.env ∧ u.dp.bricks = s.dp.bricks
          ∧ u.dp.inbound = eraseAt s.dp.inbound n ∧ partOf u.dp p = z
        let more := { y with backlog := y.backlog ++ [{ gt := gtInterp s.env, hod := h }] }
        (y.st ≠ .saved → y.backlog.length < Config.backlogSlots → ends more)
        ∧ (∀ v, y.st = .saved → y.saved = some v → fault = none → y.backlog.length < Config.backlogSlots →
            ends more ∧ ∃ u, exec (.backlogHod n fault) s = .next u
              ∧ ∃ w ∈ u.dp.port.mem, w.ctx = 16 ∧ w.addr = v.area + BitVec.ofNat 64 (4096 + 768 * y.backlog.length))
        ∧ (Config.backlogSlots ≤ y.backlog.length ∨ y.st = .saved ∧ y.saved.isSome = true ∧ fault.isSome = true →
            ∃ u, exec (.backlogHod n fault) s = .next u ∧ u.env = s.env ∧ u.dp.bricks = s.dp.bricks ∧ partOf u.dp p = y
              ∧ (h.route ≠ 0xFF#8 ∨ h.die ≠ s.env.cfg.die → u.dp.inbound = eraseAt s.dp.inbound n)))

/-- Table 12.9, R376, R380, R381: FENCE_UNIT fences an agent, the agents of a joint's port, or a tile, whose logical tile moves to a spare or becomes unavailable (once its self-test ends), and lifts such fences; REPOINT moves a healthy logical tile, or an unavailable one without bricks, to a spare; both answer what they do not do, a REPOINT to a fenced tile with FENCED and the fence's incident. That a fence moves its tile only under AUTO, waits for the end of a self-test, and which incident a REPOINT to a fenced tile names are the model's choice (log 29). -/
def Obligations.FenceAndRepoint : Prop :=
  ∀ (s : State) (t : Nat) (x : BitVec 512),
    (∀ u, AtHead s.env s.dp .keeper t x 0x52 → dfield x 128 2 = 0 → dfield x 136 11 = u → u ≤ 1023 → (agentClass s.env (u / 8) (u % 8)).isSome = true →
        x.getLsbD 130 = false → s.env.rep.fencedAgents.contains u = false → Followed s.dp .keeper x → Room s.dp .keeper →
        ∃ v, exec (.fenceUnit .keeper) s = .next v ∧ v.env.rep = { s.env.rep with fencedAgents := setInsert u s.env.rep.fencedAgents }
          ∧ v.dp.bricks = s.dp.bricks ∧ v.dp.net = s.dp.net ∧ Completed s.dp v.dp .keeper (mkCompl s.dp .keeper x .ok)
          ∧ (∃ q ∈ v.dp.inc.reports, q.1 = .alwaysOn ∧ q.2.key = fenceKey s.env 3 u)
          ∧ ((agentPart s.dp (u / 8) (u % 8)).isSome = true → v.dp.departing.any (fun a => a.1 == u) = true))
    ∧ (∀ u, AtHead s.env s.dp .keeper t x 0x52 → dfield x 128 2 = 0 → dfield x 136 11 = u → u ≤ 1023 → (agentClass s.env (u / 8) (u % 8)).isSome = true →
        x.getLsbD 130 = true → s.env.rep.fencedAgents.contains u = true → Followed s.dp .keeper x → Room s.dp .keeper →
        ∃ v, exec (.fenceUnit .keeper) s = .next v ∧ v.env.rep.fencedAgents = s.env.rep.fencedAgents.filter (fun a => a != u)
          ∧ v.dp.bricks = s.dp.bricks ∧ Completed s.dp v.dp .keeper (mkCompl s.dp .keeper x .ok))
    ∧ (∀ q l, AtHead s.env s.dp .keeper t x 0x52 → dfield x 128 2 = 1 → dfield x 136 11 = q → q ≤ 35 → x.getLsbD 130 = false →
        s.env.rep.fencedTiles.contains q = false → logicalOf s.env q = some l → (tileOf s.dp l).test = none →
        let e1 := (fenceTile s.env s.dp q (fenceKey s.env 1 q)).1
        ∃ v, exec (.fenceUnit .keeper) s = .next v ∧ v.env.rep.fencedTiles.contains q = true
          ∧ (∀ n, e1.rep.auto = true → spareFor e1 l = some n → physOf v.env l = n ∧ unavailable v.env l = unavailable s.env l)
          ∧ (e1.rep.auto = false ∨ spareFor e1 l = none → unavailable v.env l = true))
    ∧ (∀ q l, AtHead s.env s.dp .keeper t x 0x52 → dfield x 128 2 = 1 → dfield x 136 11 = q → q ≤ 35 → x.getLsbD 130 = false →
        s.env.rep.fencedTiles.contains q = false → logicalOf s.env q = some l → (tileOf s.dp l).test.isSome = true →
        ∃ v, exec (.fenceUnit .keeper) s = .next v ∧ v.env = s.env ∧ v.dp.bricks = s.dp.bricks ∧ (tileOf v.dp l).fenceReq = (tileOf s.dp l).fenceReq.filter (fun k => decide (k ≠ fenceKey s.env 1 q)) ++ [fenceKey s.env 1 q])
    ∧ (∀ q, AtHead s.env s.dp .keeper t x 0x52 → dfield x 128 2 = 1 → dfield x 136 11 = q → q ≤ 35 → x.getLsbD 130 = false →
        s.env.rep.fencedTiles.contains q = false → logicalOf s.env q = none → Followed s.dp .keeper x → Room s.dp .keeper →
        ∃ v, exec (.fenceUnit .keeper) s = .next v ∧ v.env.rep.fencedTiles.contains q = true ∧ v.env.rep.spares = s.env.rep.spares.filter (fun n => n != q)
          ∧ v.dp.bricks = s.dp.bricks ∧ Completed s.dp v.dp .keeper (mkCompl s.dp .keeper x .ok)
          ∧ (∃ r ∈ v.dp.inc.reports, r.1 = .alwaysOn ∧ r.2.key = fenceKey s.env 1 q))
    ∧ (∀ q, AtHead s.env s.dp .keeper t x 0x52 → dfield x 128 2 = 1 → dfield x 136 11 = q → q ≤ 35 → x.getLsbD 130 = true →
        s.env.rep.fencedTiles.contains q = true → Followed s.dp .keeper x → Room s.dp .keeper →
        ∃ v, exec (.fenceUnit .keeper) s = .next v ∧ v.env.rep.fencedTiles = s.env.rep.fencedTiles.filter (fun n => n != q)
          ∧ v.dp.bricks = s.dp.bricks ∧ Completed s.dp v.dp .keeper (mkCompl s.dp .keeper x .ok)
          ∧ (s.env.rep.fencedPorts.contains (tilePort s.env q) = false → logicalOf s.env q = none →
              v.env.rep.spares = setInsert q s.env.rep.spares ∧ (ptileOf v.env q).powered = false))
    ∧ (∀ u j, AtHead s.env s.dp .keeper t x 0x52 → dfield x 128 2 = 2 → dfield x 136 11 = u → (u % 8 = 4 ∨ u % 8 = 5) → portJoint s.env u = some j →
        x.getLsbD 130 = false → s.env.rep.fencedPorts.contains u = false → Followed s.dp .keeper x → Room s.dp .keeper →
        ∃ v, exec (.fenceUnit .keeper) s = .next v ∧ v.env.rep = { s.env.rep with fencedPorts := setInsert u s.env.rep.fencedPorts }
          ∧ v.dp.bricks = s.dp.bricks ∧ Completed s.dp v.dp .keeper (mkCompl s.dp .keeper x .ok)
          ∧ (∃ r ∈ v.dp.inc.reports, r.1 = .alwaysOn ∧ r.2.key = fenceKey s.env 2 u)
          ∧ (∀ k, k < 8 → (agentClass s.env j k).isSome = true → (agentPart s.dp j k).isSome = true → v.dp.departing.any (fun a => a.1 == j * 8 + k) = true))
    ∧ (∀ u, AtHead s.env s.dp .keeper t x 0x52 → dfield x 136 11 = u → Followed s.dp .keeper x → Room s.dp .keeper →
        let lift := x.getLsbD 130
        let answers := fun st => ∃ v, exec (.fenceUnit .keeper) s = .next v ∧ v.env = s.env ∧ v.dp.bricks = s.dp.bricks
          ∧ Completed s.dp v.dp .keeper (mkCompl s.dp .keeper x st)
        ((dfield x 128 2 = 3 ∨ dfield x 128 2 = 0 ∧ (1023 < u ∨ (agentClass s.env (u / 8) (u % 8)).isSome = false) ∨ dfield x 128 2 = 1 ∧ 35 < u
            ∨ dfield x 128 2 = 2 ∧ (u % 8 ≠ 4 ∧ u % 8 ≠ 5 ∨ portJoint s.env u = none ∧ portTile s.env u = none)) → answers .badCount)
        ∧ ((dfield x 128 2 = 0 ∧ u ≤ 1023 ∧ (agentClass s.env (u / 8) (u % 8)).isSome = true ∧ s.env.rep.fencedAgents.contains u = !lift
            ∨ dfield x 128 2 = 1 ∧ u ≤ 35 ∧ s.env.rep.fencedTiles.contains u = !lift
            ∨ dfield x 128 2 = 2 ∧ (u % 8 = 4 ∨ u % 8 = 5) ∧ ((portJoint s.env u).isSome = true ∨ (portTile s.env u).isSome = true)
              ∧ s.env.rep.fencedPorts.contains u = !lift) → answers .ok))
    ∧ (∀ l q, AtHead s.env s.dp .keeper t x 0x53 → dfield x 128 5 = l → dfield x 136 6 = q → Followed s.dp .keeper x → Room s.dp .keeper →
        let answers := fun st => ∃ v, exec (.repoint .keeper) s = .next v ∧ v.env = s.env ∧ v.dp.bricks = s.dp.bricks
          ∧ Completed s.dp v.dp .keeper (mkCompl s.dp .keeper x st)
        let legal := q ≤ 35 ∧ (l < 4 → lintelCapable q = true)
        (¬ legal → answers .badCount)
        ∧ (legal → tileFenced s.env q = true →
            let fence := fenceOf s.env s.dp q
            ∃ v, exec (.repoint .keeper) s = .next v ∧ v.env = s.env ∧ v.dp.bricks = s.dp.bricks
              ∧ (∀ n, numberOf s.dp .alwaysOn fence = some n → Completed s.dp v.dp .keeper { mkCompl s.dp .keeper x .fenced with incident := n })
              ∧ (numberOf s.dp .alwaysOn fence = none →
                  (ringOf v.dp .keeper).wait = some .number ∧ (ringOf v.dp .keeper).head = (ringOf s.dp .keeper).head
                  ∧ (.alwaysOn, fence, s.dp.inc.serial) ∈ v.dp.inc.waits
                  ∧ fget v.dp.inc.waitCompl s.dp.inc.serial = some (.keeper, mkCompl s.dp .keeper x .fenced)))
        ∧ (∀ k, legal → tileFenced s.env q = false → logicalOf s.env q = some k →
            (k = l → (tileOf s.dp l).test = none → answers .ok) ∧ ((k ≠ l ∨ (tileOf s.dp l).test.isSome = true) → answers .busy))
        ∧ (legal → tileFenced s.env q = false → logicalOf s.env q = none →
            (unavailable s.env l = false → (tileOf s.dp l).test.isSome = true → answers .busy)
            ∧ (unavailable s.env l = true → s.dp.bricks.any (fun b => b.2.valid && homeOf s.env b.1 == l) = true → answers .busy)
            ∧ (unavailable s.env l = true → s.dp.bricks.any (fun b => b.2.valid && homeOf s.env b.1 == l) = false →
                ∃ v, exec (.repoint .keeper) s = .next v ∧ physOf v.env l = q ∧ unavailable v.env l = false ∧ (ptileOf v.env q).powered = true
                  ∧ v.dp.bricks = s.dp.bricks ∧ Completed s.dp v.dp .keeper (mkCompl s.dp .keeper x .ok))))
    ∧ (∀ l q, AtHead s.env s.dp .keeper t x 0x53 → dfield x 128 5 = l → dfield x 136 6 = q → q ≤ 35 → (l < 4 → lintelCapable q = true) →
        tileFenced s.env q = false → logicalOf s.env q = none → unavailable s.env l = false → (tileOf s.dp l).test = none →
        ∃ v, exec (.repoint .keeper) s = .next v ∧ physOf v.env l = q ∧ v.env.rep.spares.contains (physOf s.env l) = true
          ∧ (ptileOf v.env q).powered = true ∧ (∀ k, k ≠ l → physOf v.env k = physOf s.env k))

/-- R361, R374 to R378, R388: an error holds a tile and starts its test, with 64 of the hods that stand for it held at its router and each further REQ or MGMT hod on its way back, and destroys what it hit and no mirror keeps; a pass resumes the tile, a failing row takes a spare row, any other outcome, or a fence that waited for the test, moves the tile or gives it up; a corrected error is counted. That the deferred fence honours AUTO is the model's choice (log 29), and so are the key of the fault and the tombstones its record counts (log 27). R372, R475: an ENGINE report for an error of the always-on domain and for a memory response that matches nothing. -/
def Obligations.TileFaultsAndTests : Prop :=
  ∀ (s : State) (t : BitVec 5), s.env.stop.stopped = false → s.env.pwr.pfFrozen = false → unavailable s.env t.toNat = false →
    let q := physOf s.env t.toNat
    (s.env.pwr.ready = true → (ptileOf s.env q).asleep = false → (tileOf s.dp t.toNat).test = none →
        ∃ u, exec (.tileFault t .check) s = .next u ∧ u.env = s.env ∧ u.dp.bricks = s.dp.bricks ∧ u.dp.stripes = s.dp.stripes
          ∧ (let here := fun (h : Hod) => h.dst == .tile t.toNat && !h.back
             ((s.dp.net.filter here).length ≤ 64 → u.dp.net = s.dp.net)
             ∧ (∀ (k : Nat) h, s.dp.net[k]? = some h →
                 u.dp.net[k]? = some (if here h = true ∧ (h.vc = .req ∨ h.vc = .mgmt) ∧ 64 ≤ ((s.dp.net.take k).filter here).length
                   then { h with back := true, ready := now s.env + 256 } else h)))
          ∧ tileOf u.dp t.toNat = { tileOf s.dp t.toNat with test := some .check, lostBase := tombstones s.dp (tileFaultKey s.env q) }
          ∧ (∃ r ∈ u.dp.inc.reports, r.1 = .tile t.toNat ∧ r.2.key = tileFaultKey s.env q))
    ∧ (∀ hit, hit ≠ .corrected → s.env.pwr.ready = true → (ptileOf s.env q).asleep = false → (tileOf s.dp t.toNat).test = none →
        ∃ u, exec (.tileFault t hit) s = .next u ∧ u.env = s.env ∧ (tileOf u.dp t.toNat).test = some hit
          ∧ (∃ r ∈ u.dp.inc.reports, r.1 = .tile t.toNat ∧ r.2.key = tileFaultKey s.env q))
    ∧ (s.env.pwr.ready = true → (ptileOf s.env q).asleep = false → (tileOf s.dp t.toNat).test.isSome = true → exec (.tileFault t .check) s = .next s)
    ∧ (s.env.pwr.ready = true → (ptileOf s.env q).asleep = false →
        exec (.tileFault t .corrected) s = .next { s with dp := bumpT s.env s.dp t.toNat 26 })
    ∧ (∀ i : BitVec 24, s.env.pwr.ready = true → (ptileOf s.env q).asleep = false → homeOf s.env i.toNat = t.toNat →
        resident s.dp t.toNat (.brick i.toNat) = true → intact s.env s.dp i.toNat 0 = false → (brickOf s.dp i.toNat).valid = true →
        (brickOf s.dp i.toNat).lost = none →
        ∃ u, exec (.tileFault t (.brick i)) s = .next u ∧ u.env = s.env ∧ (tileOf u.dp t.toNat).test.isSome = true
          ∧ (brickOf u.dp i.toNat).lost = some (tileFaultKey s.env q) ∧ (brickOf u.dp i.toNat).valid = true)
    ∧ (∀ hit, (tileOf s.dp t.toNat).test = some hit → (tileOf s.dp t.toNat).fenceReq = [] →
        ∃ u, exec (.selfTestDone t .pass) s = .next u ∧ (tileOf u.dp t.toNat).test = none
          ∧ u.env.rep = { s.env.rep with transients := BitVec.ofNat 16 (min (s.env.rep.transients.toNat + 1) 0xFFFF) })
    ∧ (∀ hit a n k, (tileOf s.dp t.toNat).test = some hit → (tileOf s.dp t.toNat).fenceReq = [] → s.env.rep.rowAuto = true →
        freeRow s.env q a.toNat = some k →
        ∃ u, exec (.selfTestDone t (.row a n)) s = .next u ∧ (tileOf u.dp t.toNat).test = none ∧ u.env = useRow s.env q a.toNat k n.toNat)
    ∧ (∀ hit r, (tileOf s.dp t.toNat).test = some hit → (tileOf s.dp t.toNat).fenceReq = [] →
        (r = .fails ∨ ∃ a n, r = .row a n ∧ (s.env.rep.rowAuto = false ∨ freeRow s.env q a.toNat = none)) →
        ∃ u, exec (.selfTestDone t r) s = .next u
          ∧ (∀ n, s.env.rep.auto = true → spareFor s.env t.toNat = some n → physOf u.env t.toNat = n ∧ u.env.rep.spares.contains n = false)
          ∧ (s.env.rep.auto = false ∨ spareFor s.env t.toNat = none →
              unavailable u.env t.toNat = true ∧ u.env.rep.fencedTiles.contains q = true))
    ∧ (∀ hit r key more, (tileOf s.dp t.toNat).test = some hit → (tileOf s.dp t.toNat).fenceReq = key :: more →
        let e1 := (fenceAll q (key :: more) s.env s.dp).1
        ∃ u, exec (.selfTestDone t r) s = .next u
          ∧ (∀ k ∈ key :: more, ∃ w ∈ u.dp.inc.reports, w.1 = .alwaysOn ∧ w.2.key = k)
          ∧ (∀ n, e1.rep.auto = true → spareFor e1 t.toNat = some n → physOf u.env t.toNat = n)
          ∧ (e1.rep.auto = false ∨ spareFor e1 t.toNat = none → unavailable u.env t.toNat = true))
    ∧ (∀ k off, ∃ u, exec (.engineEccError k off) s = .next u ∧ u.env = s.env ∧ u.dp.bricks = s.dp.bricks ∧ u.dp.net = s.dp.net
          ∧ (∃ r ∈ u.dp.inc.reports, r.1 = .alwaysOn
            ∧ r.2.key = (match k with | some n => mkKey s.env 1 n.toNat .engine | none => mkKey s.env 0 0 .engine)))
    ∧ (∀ tag, ∃ u, exec (.unmatchedMStag tag) s = .next u ∧ u.env = s.env ∧ u.dp.bricks = s.dp.bricks ∧ u.dp.net = s.dp.net
          ∧ u.dp.port.mem = s.dp.port.mem ∧ (∃ r ∈ u.dp.inc.reports, r.1 = .alwaysOn ∧ r.2.key = mkKey s.env 0 0 .engine))

/-! ### Incidents and observation -/

/-- R235, R361, R362, R370: the incident unit takes a report: it adds to the open entry of its key, opens the lowest free entry with a new number, or (a NOTICE without room) is counted and lost; the number goes back to the source, which keeps it; hods that waited for it leave with it as their VALUE, and nothing of that source and key waits any more. That DETAIL2 of an overflow entry follows COUNT and that GT_LAST is GT at the take are the model's reading (log 25). -/
def Obligations.IncidentReports : Prop :=
  (∀ (s : State) (n : Nat) (src : Source) (r : Report), s.dp.inc.reports[n]? = some (src, r) → s.dp.inc.taken = false →
     (s.env.stop.stopped = false ∨ src.alwaysOnDomain = true) →
     (∀ x ∈ s.dp.inc.reports.take n, x.1 = src → (x.2.key.kind.cls = .fatal ↔ ¬ r.key.kind.cls = .fatal)) →
     let c := r.key.kind.cls
     let taken := fun (t : State) => t.env = s.env ∧ t.dp.bricks = s.dp.bricks ∧ t.dp.net = s.dp.net ∧ t.dp.inc.taken = true
       ∧ t.dp.inc.reports = eraseAt s.dp.inc.reports n
     let adds := fun (k : Nat) (x : IncEntry) => ∃ t, exec (.incidentReport n) s = .next t ∧ taken t ∧ t.dp.inc.opens = s.dp.inc.opens
       ∧ incEntry t.dp k = some { x with count := satAdd x.count r.count, gtLast := gtInterp s.env, dirty := true
                                         rep := if k = 63 ∨ k = 127 then { x.rep with d2 := satAdd x.count r.count } else x.rep }
       ∧ (∀ m, m ≠ k → incEntry t.dp m = incEntry s.dp m)
       ∧ t.dp.inc.returns = s.dp.inc.returns ++ [(src, r.key, x.number)]
     let opens := fun (k : Nat) (ok : Report → Prop) => ∃ t x, exec (.incidentReport n) s = .next t ∧ taken t ∧ t.dp.inc.opens = s.dp.inc.opens + 1
       ∧ incEntry t.dp k = some x ∧ x.isOpen = true ∧ x.number = BitVec.ofNat 32 (s.dp.inc.opens % 2 ^ 25 * 128 + k) ∧ ok x.rep
       ∧ x.gtFirst = x.rep.gtFirst ∧ x.cls = c ∧ x.count = satAdd 0 r.count ∧ x.gtLast = gtInterp s.env
       ∧ (∀ m, m ≠ k → incEntry t.dp m = incEntry s.dp m)
       ∧ t.dp.inc.returns = s.dp.inc.returns ++ [(src, r.key, x.number)]
     (∀ k x, openFor s.dp r.key c = some k → incEntry s.dp k = some x → adds k x)
     ∧ (∀ k, openFor s.dp r.key c = none → (c = .fatal → freeSlot s.dp 64 63 = some k) → (c ≠ .fatal → freeSlot s.dp 0 63 = some k) → opens k (fun y => y = r))
     ∧ (∀ k, openFor s.dp r.key c = none → c = .error → freeSlot s.dp 0 63 = none → oldestNotice s.dp = some k → opens k (fun y => y = r))
     ∧ (openFor s.dp r.key c = none → c = .notice → freeSlot s.dp 0 63 = none →
         let inc := { s.dp.inc with reports := eraseAt s.dp.inc.reports n, taken := true, ndrop := BitVec.ofNat 14 (min (s.dp.inc.ndrop.toNat + 1) 0x3FFF) }
         exec (.incidentReport n) s = .next { s with dp := { s.dp with inc := inc } })
     ∧ (∀ k, openFor s.dp r.key c = none → (c = .fatal ∧ freeSlot s.dp 64 63 = none ∧ k = 127 ∨ c = .error ∧ freeSlot s.dp 0 63 = none ∧ oldestNotice s.dp = none ∧ k = 63) →
         (∀ x, incEntry s.dp k = some x → x.isOpen = true → adds k x)
         ∧ (incEntry s.dp k = none → opens k (fun y => y.key = mkKey s.env 0 0 (if k = 127 then .fatalOvf else .overflow) ∧ y.d2 = satAdd 0 r.count))))
  ∧ (∀ (s : State) (n : Nat) (src : Source) (key : IncKey) (num : Word), s.dp.inc.returns[n]? = some (src, key, num) →
     (s.env.stop.stopped = false ∨ src.alwaysOnDomain = true) → (∀ x ∈ s.dp.inc.returns.take n, x.1 ≠ src) →
     let valued := fun (h : Hod) => { h with body := h.body.setValue (num.setWidth 64) }
     let kept := fun (h : Hod) => (partOf s.dp h.part).st = .frozen ∨ (partOf s.dp h.part).st = .saved ∨ (partOf s.dp h.part).st = .restoring
     let waiting := s.dp.inc.waits.filter (fun x => decide (x.2.1 = key) && (key.kind.pinned || decide (x.1 = src)))
     (∃ t, exec (.incidentNumberReturn n) s = .next t ∧ t.env = s.env ∧ t.dp.bricks = s.dp.bricks ∧ t.dp.inc.returns = eraseAt s.dp.inc.returns n
       ∧ t.dp.inc.known.any (fun x => decide (x = (src, key, num))) = true
       ∧ (∀ x ∈ t.dp.inc.waits, ¬ (x.1 = src ∧ x.2.1 = key)))
     ∧ (∀ k hs, waiting = [(src, key, k)] → fget s.dp.inc.waitHods k = some hs →
         (∃ t, exec (.incidentNumberReturn n) s = .next t
           ∧ (∀ h ∈ hs, kept h → valued h ∈ (partOf t.dp h.part).recHods)
           ∧ (∀ h ∈ hs, ¬ kept h → Sent t.dp h.dst (fun b => b = (retime s.env s.dp (valued h)).body)))
         ∧ ((∀ h ∈ hs, ¬ kept h) →
             (∀ h ∈ hs, ∀ i, h.body.brick = some i → fget s.dp.mirCopies (stripeKey i 0) = none
               ∧ ∀ w ∈ s.dp.inc.waitHods, w.1 ≠ k → ∀ g ∈ w.2, g.body.ends ≠ some i) →
             ∃ t, exec (.incidentNumberReturn n) s = .next t ∧ posts t.dp.net = posts s.dp.net ++ posts (hs.map (fun h => retime s.env s.dp (valued h))))))

/-- R363 to R366, R368, R370, R371: an entry closes after HOLD or at the keeper's word, an overflow entry only once no copy of it waits; its close is written into the table at once (behind a stop where one stands), where there is a table without FAULT, and its slot is free again once no copy waits; the table write puts the record of an open entry into memory, and a faulting one sets FAULT, as does a faulting response to a close; a waiting copy goes to the partition's ring or is discarded where the ring is disabled; the count goes up the hall again. That the close is written at once and its response comes later, that nothing of it is written with KP_INC_BASE 0 or FAULT set, that an overflow entry is then free at once, and that with base 0 the mark of a change is cleared without a write, are the model's reading (log 25). -/
def Obligations.IncidentEntriesProgress : Prop :=
  ∀ (s : State) (k : BitVec 7) (x : IncEntry), incEntry s.dp k.toNat = some x →
    let g := gtInterp s.env
    let ovf := k.toNat = 63 ∨ k.toNat = 127
    (∀ c : Instr, x.isOpen = true →
        (c = .incidentHoldClose k ∧ x.cls ≠ .fatal ∧ s.env.kp.hold ≠ 0 ∧ s.env.kp.hold.toNat * 16000000 ≤ (g - x.gtLast).toNat
          ∨ ∃ v : Word, c = .kpIncClose v ∧ PortFree s.dp ∧ v.toNat % 128 = k.toNat ∧ x.number = v) →
        ((¬ ovf ∨ x.copies = [] ∧ x.carried = []) →
          ∃ t, exec c s = .next t ∧ t.env = s.env ∧ t.dp.bricks = s.dp.bricks ∧ t.dp.net = s.dp.net
            ∧ (∀ y, incEntry t.dp k.toNat = some y → y.isOpen = false ∧ y.number = x.number ∧ y.dirty = false ∧ y.copies ≠ [])
            ∧ (ovf → incEntry t.dp k.toNat = none)
            ∧ (¬ ovf → x.copies = [] → x.carried = [] → (x.rep.hall = true ∨ x.rep.part = none) → incEntry t.dp k.toNat = none)
            ∧ (let close : MemW := { ctx := 16, addr := s.env.kp.incBase + BitVec.ofNat 64 (256 * k.toNat), len := 64 * (x.rep.maps.length + 1), data := withMaps (x.bits true false) x.rep.maps }
               let none_ := s.env.kp.incBase = 0 ∨ s.dp.inc.fault = true
               (none_ → t.dp.inc.wrote = s.dp.inc.wrote)
               ∧ (¬ none_ → t.dp.inc.wrote = s.dp.inc.wrote ++ [k.toNat]
                  ∧ (s.env.stop.stopped = false → close ∈ t.dp.port.mem)
                  ∧ (s.env.stop.stopped = true → t.dp.port.memHeld = s.dp.port.memHeld ++ [close])))
            ∧ (∀ m, m ≠ k.toNat → incEntry t.dp m = incEntry s.dp m))
        ∧ (ovf → x.copies ≠ [] → exec c s = .next { s with dp := setEntry s.dp k.toNat { x with closing := true } }))
    ∧ (s.dp.inc.wrote.contains k.toNat = true → s.env.stop.stopped = false →
        let inc := { s.dp.inc with wrote := s.dp.inc.wrote.erase k.toNat }
        exec (.incidentTableWrite k 0) s = .next { s with dp := { s.dp with inc := inc } }
        ∧ (∀ st : BitVec 2, st ≠ 0 → s.env.kp.incBase ≠ 0 → exec (.incidentTableWrite k st) s = .next { s with dp := { s.dp with inc := { inc with fault := true } } }))
    ∧ (s.dp.inc.wrote.contains k.toNat = false → x.dirty = true → (x.isOpen = false ∨ ∀ w, x.lastWrite = some w → microsecond ≤ (g - w).toNat) → s.env.kp.incBase ≠ 0 → s.dp.inc.fault = false → s.env.stop.stopped = false →
        (∃ t, exec (.incidentTableWrite k 0) s = .next t ∧ t.env = s.env ∧ t.dp.bricks = s.dp.bricks
          ∧ t.dp.port.mem = s.dp.port.mem ++ [{ ctx := 16, addr := s.env.kp.incBase + BitVec.ofNat 64 (256 * k.toNat), len := 64 * (x.rep.maps.length + 1),
                                                data := withMaps (x.bits (!x.isOpen) false) x.rep.maps }]
          ∧ (x.isOpen = true → incEntry t.dp k.toNat = some { x with dirty := false, lastWrite := some g }))
        ∧ (∀ st : BitVec 2, st ≠ 0 →
            exec (.incidentTableWrite k st) s = .next { s with dp := { s.dp with inc := { s.dp.inc with fault := true } } }))
    ∧ (s.dp.inc.wrote.contains k.toNat = false → x.dirty = true → x.isOpen = true → (∀ w, x.lastWrite = some w → microsecond ≤ (g - w).toNat) → s.env.kp.incBase = 0 →
        exec (.incidentTableWrite k 0) s = .next { s with dp := setEntry s.dp k.toNat { x with dirty := false, lastWrite := some g } })
    ∧ (∀ p bare, x.copies.find? (fun c => c.1 == p) = some (p, bare) → x.closing = false →
        ((incRingOf s.dp p).state ≠ .disabled → ((incRingOf s.dp p).state = .stopped ∨ suspended s.dp p = true ∨ s.env.stop.stopped = true
            ∨ copyFirst s.dp k.toNat p = false ∨ ringSize (incRingOf s.dp p).cfg
              < ((incRingOf s.dp p).tail - (incRingOf s.dp p).head).toNat + (if bare then 0 else x.rep.maps.length) + 1) →
            exec (.incidentCopyWrite k p) s = .next s)
        ∧
        ((incRingOf s.dp p).state = .running → suspended s.dp p = false → s.env.stop.stopped = false → copyFirst s.dp k.toNat p = true →
            ((incRingOf s.dp p).tail - (incRingOf s.dp p).head).toNat + (if bare then 0 else x.rep.maps.length) + 1 ≤ ringSize (incRingOf s.dp p).cfg →
            ∃ t w, exec (.incidentCopyWrite k p) s = .next t ∧ t.env = s.env ∧ t.dp.bricks = s.dp.bricks
              ∧ (incRingOf t.dp p).tail = (incRingOf s.dp p).tail + BitVec.ofNat 32 ((if bare then 0 else x.rep.maps.length) + 1)
              ∧ (incRingOf t.dp p).head = (incRingOf s.dp p).head ∧ w ∈ t.dp.port.mem ∧ w.ctx = p.toNat ∧ w.len = 64
              ∧ w.addr = (incRingOf s.dp p).cfg.base + BitVec.ofNat 64 ((incRingOf s.dp p).tail.toNat % ringSize (incRingOf s.dp p).cfg * 64)
              ∧ (∀ y, incEntry t.dp k.toNat = some y → y.copies = takeCopy p x.copies))
        ∧ ((incRingOf s.dp p).state = .disabled →
            ∃ t, exec (.incidentCopyWrite k p) s = .next t ∧ t.env = s.env ∧ t.dp.bricks = s.dp.bricks ∧ t.dp.port.mem = s.dp.port.mem
              ∧ (∀ y, incEntry t.dp k.toNat = some y → y.copies = takeCopy p x.copies)))
    ∧ ((x.rep.key.kind.hall = false ∨ s.env.lf.tRoot = true) → exec (.hallIncidentResend k) s = .next s)
    ∧ (x.isOpen = true → x.count ≠ x.hallSent → 16000000 ≤ (g - x.lastHall).toNat → s.env.stop.stopped = false → x.rep.key.kind.hall = true →
        s.env.lf.tRoot = false → ∃ t, exec (.hallIncidentResend k) s = .next t ∧ t.env = s.env ∧ t.dp.bricks = s.dp.bricks
          ∧ incEntry t.dp k.toNat = some { x with hallSent := x.count, lastHall := g }
          ∧ (s.env.lf.tLink = 0xFF#8 → s.env.lf.tPdie ≠ s.env.cfg.die → s.env.lf.d2dErr.getLsbD s.env.lf.tPdie.toNat = false →
              t.dp.port.fab = s.dp.port.fab ++ [.pkg s.env.lf.tPdie (hallHod x (x.count - x.hallSent).toNat)]))

/-- R405, R412, R413, R414: the first source that shows fires the trigger, once, and freezes the counters where FRZCTR says so; a drain writes the oldest record to its ring in memory while the bucket and the ring allow it, but for one whose hod a double-bit error discards (R31), which is reported as MESH_ECC; a faulting trace ring stops. The fabric unit as the source of its report is the model's choice (log 26). -/
def Obligations.TriggerAndTrace : Prop :=
  ∀ (s : State),
    let o := s.dp.obs
    (∀ src : BitVec 3, (src.toNat ≤ 4 ∧ src.toNat ≠ 3 ∧ o.trigReq &&& srcBit src.toNat ≠ 0
          ∨ src.toNat = 3 ∧ o.onAt = true ∧ reached (gtInterp s.env) o.trigAt = true ∧ o.src &&& srcBit 3 = 0) →
        (o.triggered = false →
          ∃ t, exec (.trigger src) s = .next t ∧ t.env = s.env ∧ t.dp.bricks = s.dp.bricks ∧ t.dp.net = s.dp.net ∧ t.dp.obs.triggered = true
            ∧ t.dp.obs.trigGt = gtInterp s.env ∧ t.dp.obs.src = o.src ||| srcBit src.toNat
            ∧ t.dp.obs.trigReq = o.trigReq &&& ~~~ srcBit src.toNat ∧ t.dp.obs.frozen = (o.frozen || o.frzCtr))
        ∧ (o.triggered = true →
            let o2 := { o with src := o.src ||| srcBit src.toNat, trigReq := o.trigReq &&& ~~~ srcBit src.toNat }
            exec (.trigger src) s = .next { s with dp := { s.dp with obs := o2 } }))
    ∧ (∀ (t : BitVec 5) r rest, tileServes s.env s.dp t.toNat = true → drains s.dp t.toNat = true → budgetOf s.dp ≠ 0 →
        (tileOf s.dp t.toNat).trace.recs = r :: rest → 5 ≤ (tileOf (fillBucket s.env s.dp t.toNat) t.toNat).trace.bucket →
        let k := drainDest s.dp r
        let q := tringOf s.dp k
        destGone s.dp k = false → destTakes s.dp k = true →
        (∀ p, s.dp.flitErr = [(p, true)] → p ∈ traceWay s.env t.toNat → rest = [] →
          ∃ u, exec (.traceDrain t) s = .next u ∧ u.env = s.env ∧ u.dp.bricks = s.dp.bricks ∧ u.dp.net = s.dp.net ∧ u.dp.port.mem = s.dp.port.mem
            ∧ u.dp.trings = s.dp.trings ∧ (∃ y ∈ u.dp.inc.reports, y.1 = .router (p / 8) ∧ y.2.key.kind = .meshEcc))
        ∧ (ClearWay s.dp (traceWay s.env t.toNat) → ∃ u, exec (.traceDrain t) s = .next u ∧ u.env = s.env ∧ u.dp.bricks = s.dp.bricks ∧ u.dp.net = s.dp.net
          ∧ { ctx := k, addr := q.cfg.base + BitVec.ofNat 64 (q.tail.toNat % ringSize q.cfg * 32), len := 32, data := r.image t.toNat : MemW }
              ∈ u.dp.port.mem
          ∧ (tileOf u.dp t.toNat).trace.recs.length ≤ rest.length + 1))
    ∧ (∀ (t : BitVec 5), tileServes s.env s.dp t.toNat = true → (drains s.dp t.toNat = false ∨ budgetOf s.dp = 0) →
        ∃ u, exec (.traceDrain t) s = .next u ∧ u.env = s.env ∧ u.dp.port = s.dp.port ∧ u.dp.trings = s.dp.trings
          ∧ (tileOf u.dp t.toNat).trace.recs = (tileOf s.dp t.toNat).trace.recs)
    ∧ (∀ w addr, (tringOf s.dp (ownerKey w)).state = .running → s.env.stop.stopped = false → destGone s.dp (ownerKey w) = false →
        ∃ u, exec (.traceRingFault w addr) s = .next u ∧ u.env = s.env ∧ u.dp.bricks = s.dp.bricks ∧ u.dp.port = s.dp.port
          ∧ tringOf u.dp (ownerKey w) = { tringOf s.dp (ownerKey w) with state := .stopped }
          ∧ (∃ r ∈ u.dp.inc.reports, r.1 = .fabric ∧ r.2.key = ringFaultKey s.env w 10))

/-! ### Time, clocks, stop, sleep and resets -/

/-- R393, R394, R398, R425, R471: every reference edge advances GT by 640 units, 320 while it slews, and ends the period whose tile cycles it counts; a pin's filtered level changes after five samples that differ; a change of P by 2 or more is a clock change, at which PATH is scaled. R432: THROTTLE switches at most once per 80 ns of GT, and P follows with the next full period. The model's choice are the count of a period (the edge's own or that of CYCLES, whichever is larger), that the period of a switch measures nothing (log 3), how PATH is rounded and when a change is one of THROTTLE alone (logs 31 and 51). -/
def Obligations.ReferenceEdges : Prop :=
  (∀ (f : Filter) (v : Bool), v ≠ f.level → f.differ = 0 →
      ((((f.sample v).sample v).sample v).sample v).level = f.level ∧ (((((f.sample v).sample v).sample v).sample v).sample v).level = v)
  ∧ ∀ (s : State) (n : Nat) (p : Pins),
      let c := s.env.clk
      (∃ t, exec (.referenceEdge n p) s = .next t ∧ t.env.clk.gt = c.gt + BitVec.ofNat 64 (640 - min 320 c.slew)
        ∧ t.env.clk.slew = c.slew - min 320 c.slew ∧ t.env.clk.gtPrev = c.gt ∧ t.env.clk.cyc = 0 ∧ t.env.stop = s.env.stop ∧ t.env.lf = s.env.lf
        ∧ t.env.clk.gstopN = c.gstopN.sample p.gstopN ∧ t.env.clk.pwrwarnN = c.pwrwarnN.sample p.pwrwarnN ∧ t.env.clk.tpulse = c.tpulse.sample p.tpulse
        ∧ (c.gstopN.level = true → (c.gstopN.sample p.gstopN).level = false → s.env.stop.pinEn = true → t.env.clk.gstopFell = true)
        ∧ (s.env.stop.stopped = false → t.env.clk.edgeCyc = c.edgeCyc + max n c.cyc)
        ∧ (s.env.stop.stopped = true → t.env.clk.edgeCyc = c.edgeCyc + c.cyc ∧ t.env.clk.per = c.per
            ∧ t.dp = { s.dp with inc := { s.dp.inc with taken := false } })
        ∧ t.dp.inc.taken = false
        ∧ (s.env.stop.stopped = false → t.dp.bricks = s.dp.bricks ∧ t.dp.net = s.dp.net
            ∧ (c.settle ≠ 0 → t.env.clk.per = c.per)
            ∧ (c.settle = 0 → t.env.clk.per = max n c.cyc
                ∧ (c.perOld ≠ 0 → 2 ≤ Sys2Proof.Machine.dist (max n c.cyc) c.perOld → t.env.clk.changed = true))))
      ∧ (c.changed = true → c.mixed = false → s.env.stop.stopped = false → c.per ≠ 0 →
          let scaled := fun (n : Nat) => if pureSwitch c then (if c.perHalf then n * 2 else n / 2) else ceilDiv (n * c.perOld) c.per
          ∃ t, exec .clockChange s = .next t ∧ t.env.clk = { c with changed := false, perOld := c.per, oldHalf := c.perHalf }
            ∧ (BricksRise s.dp → ∀ i b x, fget s.dp.bricks i = some b → b.body = .barrier x → b.valid = true → b.lost = none → (partOf s.dp b.part).st ≠ .saved →
                brickOf t.dp i = { b with body := .barrier { x with path := min (scaled x.path) 0xFFFFFF } }))
      ∧ ((c.changed = false ∨ c.mixed = true ∨ s.env.stop.stopped = true) → exec .clockChange s = .next s)
      ∧ (∀ v, v ≠ c.half → s.env.stop.stopped = false → (∀ g, c.lastSwitch = some g → 1280 ≤ (gtInterp s.env - g).toNat) →
          ∃ t, exec (.throttle v) s = .next t ∧ t.env.clk.throttle = v ∧ t.env.clk.half = v ∧ t.env.clk.lastSwitch = some (gtInterp s.env)
            ∧ t.env.clk.settle = 1 ∧ t.env.clk.cyc = (if v then ceilDiv c.cyc 2 else c.cyc * 2)
            ∧ t.env.clk.per = c.per ∧ t.env.clk.gt = c.gt ∧ t.env.stop = s.env.stop ∧ t.dp = s.dp)
      ∧ (∀ v, (s.env.stop.stopped = true ∨ ∃ g, c.lastSwitch = some g ∧ (gtInterp s.env - g).toNat < 1280) →
          exec (.throttle v) s = .next { s with env := { s.env with clk := { c with throttle := v } } })
      ∧ (exec (.throttle c.half) s = .next { s with env := { s.env with clk := { c with throttle := c.half } } })

/-- R398, R400: a requested step of GT is a jump, but a negative one, while bricks are allocated or links enabled, is slewed; TPULSE rises at a multiple of GT and falls at the first edge 10 µs later, and as an input captures GT − 3,520. That a jump is net of a running slew, that a second step written before an edge adds to the first, and that the pulse is due where GT divided by its unit differs from before the last edge, are the model's reading (log 31). -/
def Obligations.GtStepsAndPulses : Prop :=
  ∀ (s : State),
    let c := s.env.clk
    (∀ th : Int, c.stepReq = some th → th ≠ 0 →
        ((0 ≤ th - c.slew ∨ (s.dp.bricks.any (fun b => b.2.valid) = false ∧ s.env.lf.enable = false)) →
          ∃ t, exec .gtStepApply s = .next t ∧ t.dp.bricks = s.dp.bricks ∧ t.dp.net = s.dp.net
            ∧ t.env = { s.env with clk := { c with stepReq := none, gt := c.gt + BitVec.ofInt 64 (th - c.slew), slew := 0 } })
        ∧ (th - c.slew < 0 → (s.dp.bricks.any (fun b => b.2.valid) = true ∨ s.env.lf.enable = true) →
          ∃ t, exec .gtStepApply s = .next t ∧ t.dp.bricks = s.dp.bricks ∧ t.dp.net = s.dp.net
            ∧ t.env = { s.env with clk := { c with stepReq := none, slew := (th - c.slew).natAbs } }))
    ∧ (c.tpRise = true →
        exec .tpulseInput s = .next { s with env := { s.env with clk := { c with tpRise := false, tpCap := c.gt - 3520, tpCapv := true } } })
    ∧ (c.tpDir = 1#2 → c.tpFall = none → c.gt.toNat / pulseUnits c.tpRate ≠ c.gtPrev.toNat / pulseUnits c.tpRate →
        exec .tpulseOutput s = .next { s with env := { s.env with clk := { c with tpFall := some (c.gt + 160000), gtPrev := c.gt } } })
    ∧ (∀ f n p, c.tpFall = some f →
        ∃ t, exec (.referenceEdge n p) s = .next t
          ∧ t.env.clk.tpFall = if reached (c.gt + BitVec.ofNat 64 (640 - min 320 c.slew)) f then none else some f)
    ∧ (∀ v : Word, PortFree s.dp → exec (.kpGtStepHi v) s
        = .next { s with env := { s.env with clk := { c with stepReq := some (c.stepReq.getD 0 + (v ++ c.stepLo).toInt) } } })

/-- R415, R417, R418, Table 13.8: the filtered pin or STOP stops the instance, after a hold frame on every valid route; GO, or GT reaching KP_GO_AT, makes it run again, with KP_STOP_LEN and (where no frame, seal, record or die-to-die error came during the stop, whose effect follows at once) every running deadline advanced by the time it stood; GO is ignored while the pin is held low, and waits where KP_GO_AT lies ahead. That a timed GO which waits resumes whatever the pin's level, and that a hold frame goes to every valid route, are the model's reading (log 32). -/
def Obligations.StopAndGo : Prop :=
  ∀ (s : State),
    let g := gtInterp s.env
    let ones : Dword := BitVec.allOnes 64
    let holdOf := fun (r : Nat) => FabOut.time (BitVec.ofNat 8 r) (routeDie s.env r) false ones ones ones (linkOf s.dp r).seqRx (linkOf s.dp r).epochTx
    (s.env.clk.gstopFell = true → s.env.stop.stopped = false →
        ∃ t, exec .globalStopPin s = .next t ∧ t.dp.bricks = s.dp.bricks ∧ t.dp.net = s.dp.net ∧ t.dp.links = s.dp.links
          ∧ t.env = { s.env with clk := { s.env.clk with gstopFell := false }, stop := { s.env.stop with stopped := true, byPin := true, goPend := false, stopGt := g } }
          ∧ (s.env.lf.enable = true → ∀ r, r < 255 → routeValid s.env r = true → holdOf r ∈ wired t.dp))
    ∧ (∀ v : Word, PortFree s.dp → v.getLsbD 0 = true → v.getLsbD 1 = false → s.env.stop.stopped = false →
        ∃ t, exec (.kpStopStop v) s = .next t ∧ t.dp.bricks = s.dp.bricks ∧ t.dp.net = s.dp.net ∧ t.dp.links = s.dp.links
          ∧ (s.env.lf.enable = true → ∀ r, r < 255 → routeValid s.env r = true → holdOf r ∈ wired t.dp)
          ∧ t.env = { s.env with stop := { s.env.stop with stopped := true, byPin := false, goPend := false, stopGt := g, pinEn := v.getLsbD 3, scan := v.getLsbD 4 } })
    ∧ (∀ c : Instr, s.env.stop.stopped = true →
        (c = .goAtReached ∧ s.env.stop.goPend = true ∧ reached g s.env.stop.goAt = true
          ∨ ∃ v : Word, c = .kpStopGo v ∧ PortFree s.dp ∧ v.getLsbD 0 = false ∧ v.getLsbD 1 = true ∧ (v.getLsbD 3 = false ∨ s.env.clk.gstopN.level = true)
              ∧ (v.getLsbD 2 = false ∨ reached g s.env.stop.goAt = true)) →
        ∃ t, exec c s = .next t ∧ t.env.stop.stopped = false ∧ t.env.stop.goPend = false ∧ t.env.stop.stopLen = g - s.env.stop.stopGt
          ∧ t.env.clk.gt = s.env.clk.gt
          ∧ (s.dp.rxBuf = [] → s.env.stop.d2dUp = 0 → s.env.stop.d2dDown = 0 → (∀ j, (jointOf s.dp j).acked = 0) →
              (∀ k, ∀ f ∈ (tileOf s.dp k).fetches, f.got = none) → ∀ i b, fget s.dp.bricks i = some b →
              brickOf t.dp i = (match (partOf s.dp b.part).st with
                | .frozen | .saved | .restoring => b
                | .run | .freezing | .resetting => b.advance (g - s.env.stop.stopGt))))
    ∧ (∀ v : Word, PortFree s.dp → s.env.stop.stopped = true → v.getLsbD 0 = false → v.getLsbD 1 = true →
        (v.getLsbD 3 = true → s.env.clk.gstopN.level = false →
          ∃ t, exec (.kpStopGo v) s = .next t ∧ t.env = { s.env with stop := { s.env.stop with pinEn := true, scan := v.getLsbD 4 } } ∧ t.dp.bricks = s.dp.bricks)
        ∧ ((v.getLsbD 3 = false ∨ s.env.clk.gstopN.level = true) → v.getLsbD 2 = true → reached g s.env.stop.goAt = false →
          exec (.kpStopGo v) s
            = .next { s with env := { s.env with stop := { s.env.stop with goPend := true, pinEn := v.getLsbD 3, scan := v.getLsbD 4 } } }))

/-- R428 to R430: a tile that has rested for IDLE sleeps, with its wake instant 5,120 units before its earliest deadline; a hod, or that instant, wakes it, and it must lock again. -/
def Obligations.SleepAndWake : Prop :=
  ∀ (s : State) (t : BitVec 5),
    let q := physOf s.env t.toNat
    let p := ptileOf s.env q
    (s.env.pwr.idle ≠ 0 → tileServes s.env s.dp t.toNat = true → p.powered = true → restful s.env s.dp t.toNat = true →
        s.env.pwr.idle.toNat * 16000 ≤ (gtInterp s.env - (tileOf s.dp t.toNat).idleSince).toNat →
        ∃ u, exec (.tileSleep t) s = .next u ∧ u.dp.bricks = s.dp.bricks ∧ u.dp.net = s.dp.net
          ∧ u.env = setPTile s.env q { p with asleep := true, lock := 0 }
          ∧ (tileOf u.dp t.toNat).wakeAt = (earliest s.env s.dp t.toNat).map (fun g => g - 5120))
    ∧ (p.asleep = true → unavailable s.env t.toNat = false → s.env.stop.stopped = false → s.env.pwr.pfFrozen = false →
        (∃ u, exec (.tileWakeHod t) s = .next u ∧ u.env = setPTile s.env q { p with asleep := false, lock := 0 } ∧ u.dp.bricks = s.dp.bricks ∧ u.dp.net = s.dp.net
              ∧ (tileOf u.dp t.toNat).wakeAt = none)
        ∧ (∀ g, (tileOf s.dp t.toNat).wakeAt = some g → reached (gtInterp s.env) g = true →
            ∃ u, exec (.wakeComparator t) s = .next u ∧ u.env = setPTile s.env q { p with asleep := false, lock := 0 } ∧ u.dp.bricks = s.dp.bricks ∧ u.dp.net = s.dp.net
              ∧ (tileOf u.dp t.toNat).wakeAt = none))

/-- R442, R445, R455, R385, R422, R441, Table 11.9 (R352): what start-up, an agent's reset, the power-fail warning (behind a stop of the same period), the warm reset and the cold reset leave. That the warning ends a warm reset under way (log 34), what an agent's reset drops at once, and what the warm and the cold reset keep where Table 11.9 does not tell (log 35), are the model's reading. -/
def Obligations.StartAndResets : Prop :=
  ∀ (s : State),
    let g := gtInterp s.env
    (∀ v : Word, PortFree s.dp → v.getLsbD 0 = true → v.getLsbD 1 = false → s.env.pwr.enable = false →
        exec (.kpCtlEnable v) s = .next { s with env := { s.env with pwr := { s.env.pwr with enable := true, enabledAt := g } } })
    ∧ (s.env.pwr.enable = true → s.env.pwr.ready = false → s.env.pwr.pfFrozen = false → s.env.stop.stopped = false → scrubbed s.env = true →
        ∃ t, exec .tilesReady s = .next t ∧ t.env = { s.env with pwr := { s.env.pwr with ready := true } } ∧ t.dp.bricks = s.dp.bricks ∧ t.dp.net = s.dp.net
          ∧ (∀ k, k < 32 → tileOf t.dp k = { tileOf s.dp k with idleSince := g, idleCyc := now s.env }))
    ∧ (∀ (j : BitVec 7) (slot : BitVec 3), (jointOf s.dp j.toNat).reset.getLsbD slot.toNat = false →
        ∃ t, exec (.agentReset j slot true) s = .next t ∧ t.env = s.env ∧ t.dp.bricks = s.dp.bricks ∧ t.dp.net = s.dp.net
          ∧ (jointOf t.dp j.toNat).reset.getLsbD slot.toNat = true
          ∧ (jointOf t.dp j.toNat).entries = (jointOf s.dp j.toNat).entries.filter (fun x => x.req.slot.toNat != slot.toNat)
          ∧ beatsOf t.dp j.toNat = (beatsOf s.dp j.toNat).filter (fun b => b.1.toNat != slot.toNat)
          ∧ (∀ a ∈ t.dp.inc.waitResp, ¬ (a.2.joint = j.toNat ∧ a.2.slot = slot ∧ a.2.entry = none))
          ∧ ((agentPart s.dp j.toNat slot.toNat).isSome = true → t.dp.departing.any (fun a => a.1 == j.toNat * 8 + slot.toNat) = true))
    ∧ (∀ (j : BitVec 7) (slot : BitVec 3),
        let y := jointOf s.dp j.toNat
        exec (.agentReset j slot false) s
          = .next { s with dp := setJoint s.dp j.toNat { y with reset := y.reset &&& ~~~ BitVec.ofNat 8 (2 ^ slot.toNat) } })
    ∧ (s.env.clk.pwrFell = true → s.env.clk.gstopFell = true → s.env.stop.stopped = false →
        ∃ t, exec .powerFailWarning s = .next t ∧ t.dp.bricks = s.dp.bricks ∧ t.dp.net = s.dp.net
          ∧ t.env = { s.env with clk := { s.env.clk with pwrFell := false, gstopFell := false }
                                 stop := { s.env.stop with stopped := true, byPin := true, goPend := false, stopGt := g }
                                 pwr := { s.env.pwr with pfFrozen := true, warmBusy := false, gtFrozen := g } })
    ∧ (s.env.clk.pwrFell = true → s.env.clk.gstopFell = false →
        ∃ t, exec .powerFailWarning s = .next t
          ∧ (let pwr := { s.env.pwr with pfFrozen := true, warmBusy := false, gtFrozen := g }
             t.env = { s.env with clk := { s.env.clk with pwrFell := false }
                                  pwr := if s.env.stop.stopped || !s.env.pwr.ready then pwr else { pwr with ptiles := t.env.pwr.ptiles, pfDrain := false } })
          ∧ (s.env.pwr.ready = false → freeSlot s.dp 64 63 ≠ none → openFor s.dp (mkKey s.env 10 1 .power) .fatal = none →
              ∃ k x, incEntry t.dp k = some x ∧ x.isOpen = true ∧ x.cls = .fatal ∧ x.rep.key = mkKey s.env 10 1 .power))
    ∧ (∀ v : Word, PortFree s.dp → v.getLsbD 1 = true → v.getLsbD 0 = s.env.pwr.enable → s.env.pwr.warmBusy = false → s.env.stop.stopped = false →
        keeperInFlight s.dp = false →
        ∃ t, exec (.kpCtlWarm v) s = .next t ∧ t.env.pwr = { s.env.pwr with pfFrozen := false } ∧ t.env.clk = s.env.clk ∧ t.env.rep = s.env.rep
          ∧ (∀ i, (brickOf t.dp i).valid = false)
          ∧ (s.env.kp.bsLoP = none → s.env.kp.bsHiP = none → s.env.kp.bsSizeP = none → ∀ i, (brickOf t.dp i).gen = (brickOf s.dp i).gen)
          ∧ t.dp.net = [] ∧ t.dp.stripes = [] ∧ t.dp.lintels = [] ∧ t.dp.comb = [] ∧ (∀ j, (jointOf t.dp j).beds = [] ∧ (jointOf t.dp j).entries = [])
          ∧ (∀ k, (tileOf t.dp k).slots = [] ∧ (tileOf t.dp k).runs = []) ∧ (∀ p r, ringOf t.dp (.part p r) = SubRing.init)
          ∧ (∀ p, partOf t.dp p = { Part.init with qb := (partOf s.dp p).qb, qg := (partOf s.dp p).qg, cap := (partOf s.dp p).cap }))
    ∧ (∀ v : Word, PortFree s.dp → v.getLsbD 1 = true → v.getLsbD 0 = s.env.pwr.enable → s.env.pwr.warmBusy = false →
        (s.env.stop.stopped = true ∨ s.env.pwr.pfFrozen = false ∧ (ringOf s.dp .keeper).wait = some .fetch) →
        exec (.kpCtlWarm v) s = .next { s with env := { s.env with pwr := { s.env.pwr with warmBusy := true } } })
    ∧ (exec .coldReset s = .next { env := Env.reset s.env.cfg, dp := Dp.reset, pending := s.pending })

/-! ### The register port -/

/-- R301, R303, R304: a doorbell's low half is latched; its high half moves a submission ring's TAIL, or the HEAD of a ring the engine writes, to the latched count, or, with RESUME, restarts a stopped ring; a count the ring has no room for changes no ring and is reported, as is a doorbell to a disabled ring or a reserved one, with a NOTICE (R302; of four reports that wait at the register port a further NOTICE is lost, R358); one that it takes, RESUME on a running ring among them, raises no incident. R443: before READY no doorbell changes a ring. -/
def Obligations.DoorbellWrites : Prop :=
  ∀ (s : State) (a : Actor) (v : Word),
    let refused := fun (i : Instr) (kind : IncKind) => ∃ t, exec i s = .next t ∧ t.env = s.env ∧ t.dp.bricks = s.dp.bricks
      ∧ t.dp.rings = s.dp.rings ∧ t.dp.cmpl = s.dp.cmpl ∧ t.dp.incRings = s.dp.incRings ∧ t.dp.parts = s.dp.parts ∧ t.dp.kdbLo = s.dp.kdbLo
      ∧ t.dp.port = s.dp.port ∧ ((s.dp.inc.reports.filter (fun x => decide (x.1 = .regPort))).length < 4 ∨ kind = .doorbell →
          ∃ q ∈ t.dp.inc.reports, q.1 = .regPort ∧ q.2.key.kind = kind)
    (∀ o i, WindowOpen s.env s.dp a o →
        i = .doorbellSubmit a o v ∨ i = .doorbellCmplHead a o v ∨ i = .doorbellIncHead a o v ∨ i = .resume a o v →
        let n := bits v.toNat 0 4
        (s.env.pwr.ready = false ∨ n = 8 ∧ (cmplOf s.dp o).state = .disabled
          ∨ (match o with
            | .part p => 9 < n ∨ n = 9 ∧ (incRingOf s.dp p).state = .disabled ∨ n < 8 ∧ (ringOf s.dp (.part p (BitVec.ofNat 3 n))).state = .disabled
            | .keeper => n ≠ 0 ∧ n ≠ 8 ∨ n = 0 ∧ (ringOf s.dp .keeper).state = .disabled)) →
        refused i .config)
    ∧ (∀ p, WindowOpen s.env s.dp a (.part p) →
        exec (.dbLoWrite a (.part p) v) s = .next { s with dp := setPart s.dp p { partOf s.dp p with dbLo := v } })
    ∧ (WindowOpen s.env s.dp a .keeper → exec (.dbLoWrite a .keeper v) s = .next { s with dp := { s.dp with kdbLo := v } })
    ∧ (∀ r, s.env.pwr.ready = true → WindowOpen s.env s.dp a (ringOwner r) → bits v.toNat 0 4 = (match r with | .part _ n => n.toNat | .keeper => 0) → (ringOf s.dp r).state ≠ .disabled →
        let o := ringOwner r
        let c := dbLatch s.dp o
        let g := ringOf s.dp r
        let fits := c = g.tail ∨ ahead31 c g.tail = true ∧ (c - g.head).toNat ≤ ringSize g.cfg
        let rings := fun (i : Instr) (x : SubRing) => ∃ t, exec i s = .next t ∧ t.env = s.env ∧ t.dp.bricks = s.dp.bricks ∧ t.dp.net = s.dp.net
          ∧ ringOf t.dp r = x ∧ (∀ q, q ≠ r → ringOf t.dp q = ringOf s.dp q) ∧ t.dp.port = s.dp.port ∧ t.dp.inc = s.dp.inc
          ∧ t.dp.parts = s.dp.parts ∧ t.dp.kdbLo = s.dp.kdbLo
        (fits → v.getLsbD 4 = false → rings (.doorbellSubmit a o v) { g with tail := c })
        ∧ (fits → v.getLsbD 4 = true → g.state = .stopped → rings (.resume a o v) { g with tail := c, state := .running, retried := true })
        ∧ (fits → v.getLsbD 4 = true → g.state = .running → rings (.resume a o v) { g with tail := c })
        ∧ (∀ i, ¬ fits → i = .doorbellSubmit a o v ∨ i = .resume a o v → refused i .doorbell))
    ∧ (∀ o i, s.env.pwr.ready = true → WindowOpen s.env s.dp a o → bits v.toNat 0 4 = 8 → (cmplOf s.dp o).state ≠ .disabled → i = .doorbellCmplHead a o v ∨ i = .resume a o v →
        let c := dbLatch s.dp o
        let g := cmplOf s.dp o
        let fits := c = g.head ∨ ahead31 c g.head = true ∧ (g.tail - c).toNat ≤ ringSize g.cfg
        (fits → exec i s = .next { s with dp := setCmpl s.dp o { g with head := c, state := if v.getLsbD 4 && g.state = .stopped then .running else g.state } })
        ∧ (¬ fits → refused i .doorbell))
    ∧ (∀ p i, s.env.pwr.ready = true → WindowOpen s.env s.dp a (.part p) → bits v.toNat 0 4 = 9 → (incRingOf s.dp p).state ≠ .disabled →
        i = .doorbellIncHead a (.part p) v ∨ i = .resume a (.part p) v →
        let c := (partOf s.dp p).dbLo
        let g := incRingOf s.dp p
        let fits := c = g.head ∨ ahead31 c g.head = true ∧ (g.tail - c).toNat ≤ ringSize g.cfg
        (fits → exec i s = .next { s with dp := setIncRing s.dp p { g with head := c, state := if v.getLsbD 4 && g.state = .stopped then .running else g.state } })
        ∧ (¬ fits → refused i .doorbell))

/-- R403, R435, R479, R480: a read of a pair's low half latches its high half for its reader, and the read of the high half returns the latch; a read of PW_CTR[0] copies the partition's sixteen counters; the low half of a LIVE pair is only latched, and reads back (that it does is the model's reading, log 37); word 7 or 11 of a key entry replaces a slot key; START begins a measurement, but at the time root or while one runs. -/
def Obligations.PairsLatch : Prop :=
  ∀ (s : State) (a : Actor),
    (∀ (off : BitVec 20) x, PortFree s.dp → pairValue s.env s.dp (4 * off.toNat) = some x → readDenied a (locate (4 * off.toNat)) = false →
        (∀ q, readTile s.env (locate (4 * off.toNat)) = some q → ∃ l, q = some l ∧ TileAnswers s.env s.dp l) →
        (∀ p o, locate (4 * off.toNat) = .pw p o → s.env.pwr.warmBusy = false ∧ (partOf s.dp p).st ≠ .resetting) →
        ∃ t, exec (.pairLoRead a off) s = .next t ∧ t.env = s.env ∧ t.dp.bricks = s.dp.bricks ∧ t.dp.net = s.dp.net
          ∧ (readTile s.env (locate (4 * off.toNat)) = none → t.dp = { s.dp with port := t.dp.port }) ∧ t.dp.port.rdata = loOf x
          ∧ t.dp.port.mem = s.dp.port.mem ∧ t.dp.port.fab = s.dp.port.fab
          ∧ fgetD t.dp.port.latches (latchKey (4 * off.toNat) a) 0 = hiOf x
          ∧ (∀ k, k ≠ latchKey (4 * off.toNat) a → fget t.dp.port.latches k = fget s.dp.port.latches k)
          ∧ (∃ u, exec (.pairLoRead a (off + 1)) t = .next u ∧ u.env = s.env ∧ u.dp.port.rdata = hiOf x))
    ∧ (∀ p, WindowOpen s.env s.dp a (.part p) →
        ∃ t, exec (.pwCtrShadowRead a p) s = .next t ∧ t.env = s.env ∧ t.dp.bricks = s.dp.bricks
          ∧ t.dp.port.rdata = BitVec.ofNat 32 (bits (fgetD s.dp.obs.pctr (p.toNat * 16) 0).toNat 0 32)
          ∧ (∀ i, i < 16 → fgetD t.dp.obs.shadow (p.toNat * 16 + i) 0 = fgetD s.dp.obs.pctr (p.toNat * 16 + i) 0)
          ∧ t.dp.obs.pctr = s.dp.obs.pctr)
    ∧ (∀ v : Word,
        PortFree s.dp →
        exec (.pairLoWrite keeperActor (BitVec.ofNat 20 (0x38 / 4)) v) s = .next { s with env := { s.env with clk := { s.env.clk with stepLo := v } } }
        ∧ exec (.pairLoWrite keeperActor (BitVec.ofNat 20 (0x58 / 4)) v) s = .next { s with env := { s.env with stop := { s.env.stop with goAtLo := v } } }
        ∧ exec (.pairLoWrite keeperActor (BitVec.ofNat 20 (0xA8 / 4)) v) s
            = .next { s with env := { s.env with pwr := { s.env.pwr with pfLo := v &&& 0xFFFFF000#32 } } }
        ∧ exec (.registerWrite keeperActor (BitVec.ofNat 20 (0x5C / 4)) v) s
            = .next { s with env := { s.env with stop := { s.env.stop with goAt := v ++ s.env.stop.goAtLo } } }
        ∧ exec (.pairLoWrite keeperActor (BitVec.ofNat 20 (0x80 / 4)) v) s
            = .next { s with env := { s.env with kp := { s.env.kp with incLo := v &&& 0xFFFF8000#32 } } }
        ∧ (TileAnswers s.env s.dp 16 → ∃ u, exec (.pairLoWrite keeperActor (BitVec.ofNat 20 (0x300008 / 4)) v) s = .next u ∧ u.env = s.env
            ∧ u.dp.bricks = s.dp.bricks ∧ u.dp.obs.trigAtLo = v ∧ u.dp.obs.trigAt = s.dp.obs.trigAt)
        ∧ (TileAnswers s.env s.dp 16 → ∃ u, exec (.registerWrite keeperActor (BitVec.ofNat 20 (0x30000C / 4)) v) s = .next u ∧ u.env = s.env
            ∧ u.dp.bricks = s.dp.bricks ∧ u.dp.obs.trigAtLo = s.dp.obs.trigAtLo ∧ u.dp.obs.trigAt = v ++ s.dp.obs.trigAtLo)
        ∧ exec (.registerWrite keeperActor (BitVec.ofNat 20 (0xAC / 4)) v) s
            = .next { s with env := { s.env with pwr := { s.env.pwr with pfBase := v ++ s.env.pwr.pfLo } } }
        ∧ (∃ u, exec (.pairLoRead keeperActor (BitVec.ofNat 20 (0x58 / 4))) s = .next u ∧ u.env = s.env ∧ u.dp.port.rdata = s.env.stop.goAtLo)
        ∧ (∃ u, exec (.pairLoRead keeperActor (BitVec.ofNat 20 (0xA8 / 4))) s = .next u ∧ u.env = s.env ∧ u.dp.port.rdata = s.env.pwr.pfLo))
    ∧ (∀ (k w : Nat) (v : Word), k < 32 → (w = 7 ∨ w = 11) → TileAnswers s.env s.dp 0 →
        ∃ t, exec (.lfKeyWrite keeperActor (BitVec.ofNat 20 ((0x314000 + 64 * k + 4 * w) / 4)) v) s = .next t ∧ t.dp.bricks = s.dp.bricks
          ∧ t.env.lf.keys = fput s.env.lf.keys (k * 2 + (if w = 7 then 0 else 1))
              (fgetD s.env.lf.keyLatch (k * 16 + w - 3) 0 ++ fgetD s.env.lf.keyLatch (k * 16 + w - 2) 0 ++ fgetD s.env.lf.keyLatch (k * 16 + w - 1) 0 ++ v))
    ∧ (∀ (k w : Nat) (v : Word), k < 32 → (4 ≤ w ∧ w < 7 ∨ 8 ≤ w ∧ w < 11) → TileAnswers s.env s.dp 0 →
        ∃ t, exec (.lfKeyWrite keeperActor (BitVec.ofNat 20 ((0x314000 + 64 * k + 4 * w) / 4)) v) s = .next t ∧ t.dp.bricks = s.dp.bricks
          ∧ t.env = { s.env with lf := { s.env.lf with keyLatch := fput s.env.lf.keyLatch (k * 16 + w) v } })
    ∧ (∀ v : Word, TileAnswers s.env s.dp 0 → v.getLsbD 8 = true → (v.getLsbD 19 = true ∨ s.dp.tm.busy = true) →
        ∃ t, exec (.lfTctlStart v) s = .next t ∧ t.dp.bricks = s.dp.bricks ∧ t.env.lf.tRoot = v.getLsbD 19 ∧ t.dp.tm = s.dp.tm)
    ∧ (∀ v : Word, TileAnswers s.env s.dp 0 → v.getLsbD 8 = true → v.getLsbD 19 = false → s.dp.tm.busy = false →
        ∃ t, exec (.lfTctlStart v) s = .next t ∧ t.dp.bricks = s.dp.bricks ∧ t.env.lf.tLink = v.setWidth 8 ∧ t.env.lf.tApply = v.getLsbD 9 ∧ t.env.lf.tRoot = false
          ∧ t.dp.tm = { s.dp.tm with busy := true, answered := 0, toSend := 2 ^ min (bits v.toNat 12 4) 8, nextAt := gtInterp s.env, waiting := [], results := [] })

/-- R401, R404, R408, R411 to R413, Table 13.6: the commands of TC_CTL, TC_MARK_HI and TC_CSEL, at an awake tile, and of PW_OBSCTL. CLRCTR clears every counter; the answer to the access counts at the ports that it passes after that, and TC_CSEL latches what the access finds. -/
def Obligations.ObservationCommands : Prop :=
  ∀ (s : State),
    (TileAnswers s.env s.dp 16 → ∀ v : Word,
      (v &&& 0x2F#32 = 1#32 → s.dp.obs.triggered = false →
        ∃ t, exec (.tcCtlTrig v) s = .next t ∧ t.env = s.env ∧ t.dp.bricks = s.dp.bricks ∧ t.dp.obs.triggered = true ∧ t.dp.obs.trigGt = gtInterp s.env
          ∧ t.dp.obs.src = s.dp.obs.src ||| 1 ∧ t.dp.obs.all = v.getLsbD 4 ∧ t.dp.obs.frozen = (s.dp.obs.frozen || s.dp.obs.frzCtr))
      ∧ (v &&& 0x2F#32 = 1#32 → s.dp.obs.triggered = true →
        ∃ t, exec (.tcCtlTrig v) s = .next t ∧ t.env = s.env ∧ t.dp.bricks = s.dp.bricks ∧ t.dp.obs.triggered = true ∧ t.dp.obs.trigGt = s.dp.obs.trigGt
          ∧ t.dp.obs.src = s.dp.obs.src ||| 1 ∧ t.dp.obs.all = v.getLsbD 4 ∧ t.dp.obs.frozen = s.dp.obs.frozen)
      ∧ (v &&& 0x2F#32 = 2#32 →
        ∃ t, exec (.tcCtlRearm v) s = .next t ∧ t.env = s.env ∧ t.dp.bricks = s.dp.bricks ∧ t.dp.obs.triggered = false ∧ t.dp.obs.frozen = false
          ∧ t.dp.obs.src = 0 ∧ t.dp.obs.trigReq = 0 ∧ (∀ k, (tileOf t.dp k).trace.recs = [] ∧ (tileOf t.dp k).trace.refuse = false))
      ∧ (v &&& 0x2F#32 = 4#32 → (tringOf s.dp 16).state = .stopped →
        ∃ t, exec (.tcCtlResume v) s = .next t ∧ t.env = s.env ∧ t.dp.bricks = s.dp.bricks ∧ tringOf t.dp 16 = { tringOf s.dp 16 with state := .running })
      ∧ (v &&& 0x2F#32 = 8#32 →
        ∃ t, exec (.tcCtlFlush v) s = .next t ∧ t.env = s.env ∧ t.dp.bricks = s.dp.bricks
          ∧ (∀ k, k < 32 → unavailable s.env k = false → (tileOf t.dp k).trace.flush = true))
      ∧ (v &&& 0x2F#32 = 0x20#32 →
        ∃ t, exec (.tcCtlClrctr v) s = .next t ∧ t.env = s.env ∧ t.dp.bricks = s.dp.bricks ∧ t.dp.obs.pctr = []
          ∧ (∀ k u c, kctrExists k u c = true → (k = 1 → u ∉ accessBack s.env 16) → fgetD t.dp.obs.kctr (kctrKey k u c) 0 = 0))
      ∧ (∃ t, exec (.tcMarkHi v) s = .next t ∧ t.env = s.env ∧ t.dp.bricks = s.dp.bricks ∧ t.dp.net = s.dp.net
          ∧ (∀ k, k < 32 → unavailable s.env k = false → (modeOf s.dp k).size ≠ 0 → (modeOf s.dp k).mode = 0 → (tringOf s.dp 16).state ≠ .disabled →
              (tileOf s.dp k).trace.refuse = false → fgetD (tileOf s.dp k).trace.lost 16 0 = 0 →
              ∃ r, (tileOf t.dp k).trace.recs.getLast? = some r ∧ r.kind = 0x11 ∧ r.handle = v ++ s.dp.obs.markLo))
      ∧ (∃ t, exec (.tcCsel v) s = .next t ∧ t.env = s.env ∧ t.dp.bricks = s.dp.bricks ∧ t.dp.obs.csel = v &&& 0xFFFFF#32
          ∧ t.dp.obs.cdata = (if kctrExists (bits v.toNat 0 3) (bits v.toNat 3 11) (bits v.toNat 14 6)
              then fgetD (visit s.env s.dp 16).2.1.obs.kctr (kctrKey (bits v.toNat 0 3) (bits v.toNat 3 11) (bits v.toNat 14 6)) 0 else 0)))
    ∧ (∀ (a : Actor) (p : BitVec 4) (v : Word), WindowOpen s.env s.dp a (.part p) →
        (v.getLsbD 0 = true → v.getLsbD 1 = false →
          ∃ t, exec (.pwObsctlClear a p v) s = .next t ∧ t.env = s.env ∧ t.dp = { s.dp with obs := { s.dp.obs with pctr := t.dp.obs.pctr } }
            ∧ (∀ k, fget t.dp.obs.pctr k = if k / 16 = p.toNat then none else fget s.dp.obs.pctr k))
        ∧ (v.getLsbD 0 = false → v.getLsbD 1 = true → (tringOf s.dp p.toNat).state = .stopped →
          exec (.pwObsctlResume a p v) s
            = .next { s with dp := setTring s.dp p.toNat { tringOf s.dp p.toNat with state := .running } }))

/-- R9, R12, R13, R16, R299, R330, R353, R371, R379, R388, R437, R464, R484, R491, Table 14.3: REMEASURE, ROWFIX and the partition reset at the register port; a write outside an actor's own window changes nothing and is reported. A pending QUIET value commits when its condition holds, and only then: the placement salt and the backing store without bricks, the node number without bricks and with LF_CTL.ENABLE 0, the incident table's base with no table write in flight, a ring's size, and the bases written before it, when the ring is quiescent, a tile's TC_MODE when the tile is idle and drained, an agent's assignment when its slot holds no entry, the link block's set-up when no frame is under way, a route when no record names it. That the partition reset is whole in one step (log 17), and how a value pends (log 36), are the model's reading. -/
def Obligations.RegisterWritesAndCommits : Prop :=
  (∀ (s : State) (v : Word), PortFree s.dp →
     (v.getLsbD 2 = true →
         ∃ t, exec (.kpRepairRemeasure v) s = .next t ∧ t.env = { s.env with rep := { s.env.rep with auto := v.getLsbD 0, rowAuto := v.getLsbD 1 } }
           ∧ (∀ i b x, fget s.dp.bricks i = some b → b.body = .barrier x →
               brickOf t.dp i = { b with body := .barrier (if x.measure = 3 then { x with measure := 1 } else x) })
           ∧ (∀ i b, fget s.dp.bricks i = some b → (∀ x, b.body ≠ .barrier x) → brickOf t.dp i = b))
     ∧ (bits v.toNat 0 6 ≤ 35 → (ptileOf s.env (bits v.toNat 0 6)).powered = false → bits v.toNat 8 13 < arrayRows (bits v.toNat 6 2) →
         exec (.kpRowfix v) s
           = .next { s with env := useRow s.env (bits v.toNat 0 6) (bits v.toNat 6 2) (bits v.toNat 21 3) (bits v.toNat 8 13) })
     ∧ ((35 < bits v.toNat 0 6 ∨ (ptileOf s.env (bits v.toNat 0 6)).powered = true ∨ arrayRows (bits v.toNat 6 2) ≤ bits v.toNat 8 13) →
         ∃ t, exec (.kpRowfix v) s = .next t ∧ t.env = s.env ∧ t.dp.bricks = s.dp.bricks)
     ∧ (∀ p : BitVec 4, v.getLsbD 8 = true → (partOf s.dp p).st = .freezing →
         exec (.pdPctlReset p v) s = .next { s with dp := setPart s.dp p { partOf s.dp p with resetReq := true } })
     ∧ (∀ p : BitVec 4, v.getLsbD 8 = true → (partOf s.dp p).st ≠ .freezing →
         ∃ t, exec (.pdPctlReset p v) s = .next t ∧ t.env = s.env ∧ (partOf t.dp p).st = .run ∧ (partOf t.dp p).ub = 0 ∧ (partOf t.dp p).ug = 0
           ∧ (partOf t.dp p).qb = (partOf s.dp p).qb ∧ (partOf t.dp p).qg = (partOf s.dp p).qg ∧ (partOf t.dp p).cap = (partOf s.dp p).cap
           ∧ (∀ i, ownIndex s.dp p i = true → (brickOf t.dp i).valid = false)
           ∧ (∀ r, ringOf t.dp (.part p r) = SubRing.init))
     ∧ (∀ (a : Actor) (off : BitVec 20), foreign a (locate (4 * off.toNat)) = true →
         ∃ t, exec (.registerWrite a off v) s = .next t ∧ t.env = s.env ∧ t.dp.bricks = s.dp.bricks ∧ t.dp.parts = s.dp.parts ∧ t.dp.rings = s.dp.rings
           ∧ t.dp.net = s.dp.net ∧ t.dp.joints = s.dp.joints ∧ t.dp.port = s.dp.port
           ∧ (∃ q ∈ t.dp.inc.reports, q.1 = .regPort ∧ q.2.key.kind = .access ∧ q.2.key.srcId = BitVec.ofNat 32 a.pid.toNat))
     ∧ (∀ p : BitVec 4,
         exec (.registerWrite keeperActor (BitVec.ofNat 20 ((0x10000 + 4 * p.toNat) / 4)) v) s
           = .next { s with dp := setPart s.dp p { partOf s.dp p with qb := bits v.toNat 0 25 } }
         ∧ exec (.registerWrite keeperActor (BitVec.ofNat 20 ((0x10040 + 4 * p.toNat) / 4)) v) s
           = .next { s with dp := setPart s.dp p { partOf s.dp p with qg := bits v.toNat 0 18 } })
     ∧ exec (.registerWrite keeperActor (BitVec.ofNat 20 (0x0C / 4)) v) s = .next { s with env := { s.env with pwr := { s.env.pwr with idle := v.setWidth 8 } } }
     ∧ exec (.registerWrite keeperActor (BitVec.ofNat 20 (0x1C / 4)) v) s
         = .next { s with env := { s.env with kp := { s.env.kp with radius := v.setWidth 3, thresh := v.extractLsb' 8 6 } } }
     ∧ exec (.registerWrite keeperActor (BitVec.ofNat 20 (0x88 / 4)) v) s
         = .next { s with env := { s.env with kp := { s.env.kp with hold := v.setWidth 8, fwdIrq := v.getLsbD 8 } } }
     ∧ (∀ (a : Actor) (p : BitVec 4) (g : Nat), WindowOpen s.env s.dp a (.part p) → g < 256 →
         ∃ t, exec (.registerWrite a (BitVec.ofNat 20 ((windowBase p + 0x400 + 4 * g) / 4)) v) s = .next t ∧ t.env = s.env ∧ t.dp.bricks = s.dp.bricks
           ∧ t.dp.net = s.dp.net ∧ (partOf t.dp p).gmask = fput (partOf s.dp p).gmask g (v.setWidth 5))
     ∧ (∀ (a : Actor) (off : BitVec 20), locate (4 * off.toNat) = .empty →
         ∃ t, exec (.registerWrite a off v) s = .next t ∧ t.env = s.env ∧ t.dp.bricks = s.dp.bricks ∧ t.dp.port = s.dp.port))
  ∧ (∀ (s : State),
     (∀ x, s.env.kp.saltP = some x → noBricks s.dp = true →
         exec (.quietCommit .salt) s = .next { s with env := { s.env with kp := { s.env.kp with salt := x, saltP := none } } })
     ∧ (noBricks s.dp = false → ∀ f, f = .salt ∨ f = .backing ∨ f = .nodeId → exec (.quietCommit f) s = .next s)
     ∧ (s.env.kp.saltP = none → exec (.quietCommit .salt) s = .next s)
     ∧ (s.env.kp.bsLoP = none → s.env.kp.bsHiP = none → s.env.kp.bsSizeP = none → exec (.quietCommit .backing) s = .next s)
     ∧ (s.env.kp.nodeP = none ∨ s.env.lf.enable = true → exec (.quietCommit .nodeId) s = .next s)
     ∧ (s.env.kp.incP = none ∨ s.dp.inc.wrote ≠ [] → exec (.quietCommit .incBase) s = .next s)
     ∧ (noBricks s.dp = true → (s.env.kp.bsLoP.isSome = true ∨ s.env.kp.bsHiP.isSome = true ∨ s.env.kp.bsSizeP.isSome = true) →
         let k := s.env.kp
         let l := k.bsSizeP.getD k.bsLog2
         let b := (k.bsHiP.getD (k.bsBase.extractLsb' 32 32) ++ k.bsLoP.getD (k.bsBase.setWidth 32)).toNat
         let m := if 21 ≤ l.toNat ∧ l.toNat ≤ 30 then 2 ^ l.toNat else 1
         ∃ t, exec (.quietCommit .backing) s = .next t ∧ t.dp.net = s.dp.net
           ∧ t.env = { s.env with kp := { k with bsBase := BitVec.ofNat 64 (b / m * m), bsLog2 := l, bsLoP := none, bsHiP := none, bsSizeP := none } })
     ∧ (∀ x, s.env.kp.nodeP = some x → noBricks s.dp = true → s.env.lf.enable = false →
         exec (.quietCommit .nodeId) s = .next { s with env := { s.env with kp := { s.env.kp with node := x, nodeP := none } } })
     ∧ (∀ x, s.env.kp.incP = some x → s.dp.inc.wrote = [] →
         ∃ t, exec (.quietCommit .incBase) s = .next t ∧ t.env = { s.env with kp := { s.env.kp with incBase := x, incP := none } } ∧ t.dp.bricks = s.dp.bricks
           ∧ (∀ k y, incEntry s.dp k = some y → incEntry t.dp k = some (if y.isOpen then { y with dirty := true, lastWrite := none } else y)))
     ∧ (∀ o, (cmplOf s.dp o).cfg.sizeP.isSome = true →
         ((cmplOf s.dp o).state = .disabled ∨ (cmplOf s.dp o).head = (cmplOf s.dp o).tail ∧ fgetD s.dp.held (ownerKey o) [] = []) →
         let c := (cmplOf s.dp o).cfg.commit
         exec (.quietCommit (.cmpl o)) s = .next { s with dp := setCmpl s.dp o { OutRing.init with cfg := c, state := enabledState 4 16 c } })
     ∧ (∀ p, (incRingOf s.dp p).cfg.sizeP.isSome = true →
         ((incRingOf s.dp p).state = .disabled ∨ (incRingOf s.dp p).head = (incRingOf s.dp p).tail ∧ copiesWait s.dp p = false) →
         let c := (incRingOf s.dp p).cfg.commit
         exec (.quietCommit (.incRing p)) s = .next { s with dp := setIncRing s.dp p { OutRing.init with cfg := c, state := enabledState 4 16 c } })
     ∧ (∀ o, ((cmplOf s.dp o).cfg.sizeP = none
           ∨ (cmplOf s.dp o).state ≠ .disabled ∧ ((cmplOf s.dp o).head ≠ (cmplOf s.dp o).tail ∨ fgetD s.dp.held (ownerKey o) [] ≠ [])) →
         ∃ t, exec (.quietCommit (.cmpl o)) s = .next t ∧ t = { s with dp := { s.dp with cmpl := t.dp.cmpl } } ∧ ∀ q, cmplOf t.dp q = cmplOf s.dp q)
     ∧ (∀ p, ((incRingOf s.dp p).cfg.sizeP = none
           ∨ (incRingOf s.dp p).state ≠ .disabled ∧ ((incRingOf s.dp p).head ≠ (incRingOf s.dp p).tail ∨ copiesWait s.dp p = true)) →
         ∃ t, exec (.quietCommit (.incRing p)) s = .next t ∧ t = { s with dp := { s.dp with incRings := t.dp.incRings } } ∧ ∀ q, incRingOf t.dp q = incRingOf s.dp q)
     ∧ (∀ o, ((tringOf s.dp (ownerKey o)).cfg.sizeP = none
           ∨ (tringOf s.dp (ownerKey o)).state ≠ .disabled ∧ (tringOf s.dp (ownerKey o)).head ≠ (tringOf s.dp (ownerKey o)).tail) →
         ∃ t, exec (.quietCommit (.trace o)) s = .next t ∧ t = { s with dp := { s.dp with trings := t.dp.trings } } ∧ ∀ k, tringOf t.dp k = tringOf s.dp k)
     ∧ (∀ r, ((ringOf s.dp r).cfg.sizeP = none
           ∨ (ringOf s.dp r).state ≠ .disabled ∧ ((ringOf s.dp r).state ≠ .running ∨ (ringOf s.dp r).head ≠ (ringOf s.dp r).tail
               ∨ (ringOf s.dp r).wait ≠ none ∨ (ringOf s.dp r).ahead ≠ [])) →
         ∃ t, exec (.quietCommit (.ring r)) s = .next t ∧ t = { s with dp := { s.dp with rings := t.dp.rings } } ∧ ∀ q, ringOf t.dp q = ringOf s.dp q)
     ∧ (∀ t : BitVec 5, ((modeOf s.dp t.toNat).pend = none ∨ unavailable s.env t.toNat = true ∨ tileIdle s.env s.dp t.toNat = false
           ∨ (tileOf s.dp t.toNat).trace.recs ≠ [] ∨ s.dp.obs.triggered = true ∨ (tileOf s.dp t.toNat).test ≠ none ∨ s.env.stop.stopped = true) →
         exec (.quietCommit (.tcMode t)) s = .next s)
     ∧ (∀ o, (tringOf s.dp (ownerKey o)).cfg.sizeP.isSome = true →
         ((tringOf s.dp (ownerKey o)).state = .disabled ∨ (tringOf s.dp (ownerKey o)).head = (tringOf s.dp (ownerKey o)).tail) →
         let c := (tringOf s.dp (ownerKey o)).cfg.commit
         exec (.quietCommit (.trace o)) s = .next { s with dp := setTring s.dp (ownerKey o) { OutRing.init with cfg := c, state := enabledState 8 20 c } })
     ∧ (∀ (t : BitVec 5) v, (modeOf s.dp t.toNat).pend = some v → unavailable s.env t.toNat = false → tileIdle s.env s.dp t.toNat = true →
         (tileOf s.dp t.toNat).trace.recs = [] → s.dp.obs.triggered = false → (tileOf s.dp t.toNat).test = none → s.env.stop.stopped = false →
         ∃ u, exec (.quietCommit (.tcMode t)) s = .next u ∧ u.env = s.env ∧ u.dp.bricks = s.dp.bricks ∧ u.dp.net = s.dp.net
           ∧ modeOf u.dp t.toNat = { modeOf s.dp t.toNat with mode := v.extractLsb' 0 2, size := v.extractLsb' 2 5, pre := v.extractLsb' 7 3, pend := none })
     ∧ (linksQuiet s.dp = true →
         ∃ t, exec (.quietCommit .lfSetup) s = .next t ∧ t.dp.bricks = s.dp.bricks ∧ t.dp.net = s.dp.net
           ∧ t.env.lf.etype = s.env.lf.etypeP.getD s.env.lf.etype ∧ t.env.lf.udpPort = s.env.lf.udpPortP.getD s.env.lf.udpPort
           ∧ t.env.lf.mtu = s.env.lf.mtuP.getD s.env.lf.mtu ∧ t.env.lf.enable = (s.env.lf.ctlP.map (fun c => c.getLsbD 3)).getD s.env.lf.enable
           ∧ t.env.lf.mode = (s.env.lf.ctlP.map (fun c => c.getLsbD 0)).getD s.env.lf.mode
           ∧ t.env.lf.ctlP = none ∧ t.env.lf.etypeP = none ∧ t.env.lf.udpPortP = none ∧ t.env.lf.mtuP = none ∧ t.env.lf.macP = [] ∧ t.env.lf.src6P = [])
     ∧ (linksQuiet s.dp = false → exec (.quietCommit .lfSetup) s = .next s)
     ∧ exec (.quietCommit (.lfRoute 0xFF#8)) s = .next s
     ∧ (∀ r : BitVec 8, r ≠ 0xFF#8 →
         (routeNamed s.dp r.toNat = true → exec (.quietCommit (.lfRoute r)) s = .next s)
         ∧ (routeNamed s.dp r.toNat = false → (s.env.lf.routesP.map Prod.fst).Nodup →
             ∃ t, exec (.quietCommit (.lfRoute r)) s = .next t ∧ t.dp = s.dp ∧ (∀ w ∈ t.env.lf.routesP, w.1 / 8 ≠ r.toNat)
               ∧ (∀ k, fgetD t.env.lf.routes k 0
                   = if k / 8 = r.toNat then (fget s.env.lf.routesP k).getD (fgetD s.env.lf.routes k 0) else fgetD s.env.lf.routes k 0)))
     ∧ (∀ r, (ringOf s.dp r).cfg.sizeP.isSome = true →
         ((ringOf s.dp r).state = .disabled ∨ (ringOf s.dp r).state = .running ∧ (ringOf s.dp r).head = (ringOf s.dp r).tail
           ∧ (ringOf s.dp r).wait = none ∧ (ringOf s.dp r).ahead = []) →
         let c := (ringOf s.dp r).cfg.commit
         exec (.quietCommit (.ring r)) s = .next { s with dp := setRing s.dp r { SubRing.init with cfg := c, state := enabledState 4 16 c } })
     ∧ (∀ (j : BitVec 7) (slot : BitVec 3) w v, fget (agOf s.dp j.toNat).pend slot.toNat = some (w, v) →
         let a := agOf s.dp j.toNat
         let p := w.getD (BitVec.ofNat 4 (bits a.part.toNat (4 * slot.toNat) 4))
         let en := v.getD (a.en.getLsbD slot.toNat)
         (jointOf s.dp j.toNat).entries.any (fun x => x.req.slot.toNat == slot.toNat) = false →
         ∃ t, exec (.quietCommit (.agent j slot)) s = .next t ∧ t.env = s.env ∧ t.dp.bricks = s.dp.bricks ∧ t.dp.net = s.dp.net
           ∧ agentPart t.dp j.toNat slot.toNat = (if en then some p else none)
           ∧ (∀ k, k < 8 → k ≠ slot.toNat → agentPart t.dp j.toNat k = agentPart s.dp j.toNat k)
           ∧ fget (agOf t.dp j.toNat).pend slot.toNat = none
           ∧ ((agentPart s.dp j.toNat slot.toNat).isSome = true → agentPart s.dp j.toNat slot.toNat ≠ (if en then some p else none) →
               t.dp.departing.any (fun a => a.1 == j.toNat * 8 + slot.toNat) = true))
     ∧ (∀ (j : BitVec 7) (slot : BitVec 3), (jointOf s.dp j.toNat).entries.any (fun x => x.req.slot.toNat == slot.toNat) = true →
         exec (.quietCommit (.agent j slot)) s = .next s))

/-! ### Headlines -/

/-- R196, R200, R204, R207, R215 to R218: the reduction of a course never depends on the order in which contributions arrive. Outside the rank-ordered fold, any order of contributions gives the same partial, and so does combining the partials of two parts of them, whatever routers did so. In the rank-ordered fold, any two orders in which every contributing rank arrives once, with none bounced, end in the same fold. -/
def Obligations.GroutOrderIndependent : Prop :=
  ∀ (c : GCfg),
    (c.folds = false → ∀ (w : Option Weights) (l m : List (Nat × BitVec 3 × List Byte)),
        let fold := fun (l : List (Nat × BitVec 3 × List Byte)) => l.foldl (fun a x => Acc.merge c a (contribution c w x.1 x.2.1 x.2.2)) (Acc.zero c)
        (l.Perm m → fold l = fold m) ∧ Acc.merge c (fold l) (fold m) = fold (l ++ m))
    ∧ (c.folds = true → ∀ (b : Barrier) (gone : BitVec 64) (g g1 g2 : Grout) (l m : List (Nat × Payload)),
        g.run.cfg = some c → l.Perm m → (l.map Prod.fst).Nodup → (∀ k, k ∈ l.map Prod.fst ↔ k < b.ranks ∧ b.skips gone k = false) →
        l.foldlM (fun g x => foldIn c b gone g x.1 x.2) (Grout.fresh b gone g) = some g1 →
        m.foldlM (fun g x => foldIn c b gone g x.1 x.2) (Grout.fresh b gone g) = some g2 →
        g1.acc = g2.acc ∧ g1.next = b.ranks ∧ g2.next = b.ranks ∧ g1.window = [] ∧ g2.window = [])

/-- R19, R377, R395, R400, R415, R428, R442, R471: every step keeps what the environment keeps to (EnvOk), from every state. -/
def Obligations.EnvironmentInvariant : Prop :=
  ∀ (s t : State), EnvOk s.env → step s = .next t → EnvOk t.env

/-- R47, R230, R335: every step keeps what the data path keeps to (DpOk), from every state: brick indices stand once, entry numbers are fresh, and exactly a SAVED partition has saved context. -/
def Obligations.DataPathInvariant : Prop :=
  ∀ (s t : State), DpOk s.dp → step s = .next t → DpOk t.dp

/-- R441, Table 11.9 and the reset columns of the register tables: what reset leaves where the spec gives a value; both invariants hold there. -/
def Obligations.ResetState : Prop :=
  State.reset.pending = [] ∧ EnvOk State.reset.env ∧ DpOk State.reset.dp
  ∧ (let e := State.reset.env
     e.clk.gt = 0 ∧ e.clk.slew = 0 ∧ e.clk.tpDir = 0 ∧ e.stop.stopped = false ∧ e.stop.pinEn = true ∧ e.pwr.enable = false ∧ e.pwr.ready = false ∧ e.pwr.idle = 4
     ∧ (∀ q, (ptileOf e q).powered = false) ∧ e.kp.salt = 0 ∧ e.kp.radius = 2 ∧ e.kp.thresh = 4 ∧ e.kp.hold = 10 ∧ e.rep.auto = true ∧ e.rep.rowAuto = true
     ∧ e.rep.spares = [32, 33, 34, 35] ∧ (∀ t, physOf e t = t) ∧ e.lf.etype = 0x88B5 ∧ e.lf.udpPort = 0xC990 ∧ e.lf.pcp = 6 ∧ e.lf.dscp = 0x2E
     ∧ e.lf.mtu = 1500 ∧ e.lf.rto = 20 ∧ e.lf.limit = 6 ∧ e.lf.holdMax = 1000 ∧ e.lf.tLink = 0xFF ∧ e.lf.tRounds = 4 ∧ e.lf.tRoot = true
     ∧ e.lf.enable = false)
  ∧ (let d := State.reset.dp
     (∀ i, (brickOf d i).valid = false ∧ (brickOf d i).gen = 0) ∧ d.net = [] ∧ (∀ j s, agentPart d j s = none)
     ∧ (∀ p, (partOf d p).qb = 0 ∧ (partOf d p).qg = 0 ∧ (partOf d p).cap = 0x1F ∧ (partOf d p).st = .run)
     ∧ (∀ r, (ringOf d r).state = .disabled) ∧ d.inc.entries = [] ∧ d.obs.pfilt = 0xFFFF ∧ d.obs.budget = 8 ∧ d.obs.frozen = false
     ∧ d.obs.triggered = false ∧ d.obs.onStop = true ∧ d.obs.frzTrace = true ∧ d.obs.frzCtr = true)
end

