-- ==== Sys2Proof/Laws/State.lean ====
section
/-! SUPPORT. Sys2Proof/Laws/State.lean: what each named update of the state leaves: one lemma per field per update, true by rfl. -/

namespace Sys2Proof.Machine

/-! ### Updates of the machine -/

@[simp] theorem State.withDp_env (s : State) (d : Dp) : ({ s with dp := d } : State).env = s.env := rfl
@[simp] theorem State.withDp_dp (s : State) (d : Dp) : ({ s with dp := d } : State).dp = d := rfl
@[simp] theorem State.withDp_pending (s : State) (d : Dp) : ({ s with dp := d } : State).pending = s.pending := rfl
@[simp] theorem State.withEnv_env (s : State) (e : Env) : ({ s with env := e } : State).env = e := rfl
@[simp] theorem State.withEnv_dp (s : State) (e : Env) : ({ s with env := e } : State).dp = s.dp := rfl
@[simp] theorem State.withEnv_pending (s : State) (e : Env) : ({ s with env := e } : State).pending = s.pending := rfl
@[simp] theorem State.withPending_env (s : State) (l : List Instr) : ({ s with pending := l } : State).env = s.env := rfl
@[simp] theorem State.withPending_dp (s : State) (l : List Instr) : ({ s with pending := l } : State).dp = s.dp := rfl
@[simp] theorem State.withPending_pending (s : State) (l : List Instr) : ({ s with pending := l } : State).pending = l := rfl

/-! ### setJoint -/

@[simp] theorem setJoint_joints (d : Dp) (j : Nat) (x : Joint) : (setJoint d j x).joints = fput d.joints j x := rfl
@[simp] theorem setJoint_ag (d : Dp) (j : Nat) (x : Joint) : (setJoint d j x).ag = d.ag := rfl
@[simp] theorem setJoint_departing (d : Dp) (j : Nat) (x : Joint) : (setJoint d j x).departing = d.departing := rfl
@[simp] theorem setJoint_net (d : Dp) (j : Nat) (x : Joint) : (setJoint d j x).net = d.net := rfl
@[simp] theorem setJoint_seq (d : Dp) (j : Nat) (x : Joint) : (setJoint d j x).seq = d.seq := rfl
@[simp] theorem setJoint_comb (d : Dp) (j : Nat) (x : Joint) : (setJoint d j x).comb = d.comb := rfl
@[simp] theorem setJoint_bricks (d : Dp) (j : Nat) (x : Joint) : (setJoint d j x).bricks = d.bricks := rfl
@[simp] theorem setJoint_touched (d : Dp) (j : Nat) (x : Joint) : (setJoint d j x).touched = d.touched := rfl
@[simp] theorem setJoint_freed (d : Dp) (j : Nat) (x : Joint) : (setJoint d j x).freed = d.freed := rfl
@[simp] theorem setJoint_stripes (d : Dp) (j : Nat) (x : Joint) : (setJoint d j x).stripes = d.stripes := rfl
@[simp] theorem setJoint_ringEnds (d : Dp) (j : Nat) (x : Joint) : (setJoint d j x).ringEnds = d.ringEnds := rfl
@[simp] theorem setJoint_lintels (d : Dp) (j : Nat) (x : Joint) : (setJoint d j x).lintels = d.lintels := rfl
@[simp] theorem setJoint_tiles (d : Dp) (j : Nat) (x : Joint) : (setJoint d j x).tiles = d.tiles := rfl
@[simp] theorem setJoint_mirCopies (d : Dp) (j : Nat) (x : Joint) : (setJoint d j x).mirCopies = d.mirCopies := rfl
@[simp] theorem setJoint_mirUpds (d : Dp) (j : Nat) (x : Joint) : (setJoint d j x).mirUpds = d.mirUpds := rfl
@[simp] theorem setJoint_rings (d : Dp) (j : Nat) (x : Joint) : (setJoint d j x).rings = d.rings := rfl
@[simp] theorem setJoint_cmpl (d : Dp) (j : Nat) (x : Joint) : (setJoint d j x).cmpl = d.cmpl := rfl
@[simp] theorem setJoint_held (d : Dp) (j : Nat) (x : Joint) : (setJoint d j x).held = d.held := rfl
@[simp] theorem setJoint_incRings (d : Dp) (j : Nat) (x : Joint) : (setJoint d j x).incRings = d.incRings := rfl
@[simp] theorem setJoint_trings (d : Dp) (j : Nat) (x : Joint) : (setJoint d j x).trings = d.trings := rfl
@[simp] theorem setJoint_kdbLo (d : Dp) (j : Nat) (x : Joint) : (setJoint d j x).kdbLo = d.kdbLo := rfl
@[simp] theorem setJoint_parts (d : Dp) (j : Nat) (x : Joint) : (setJoint d j x).parts = d.parts := rfl
@[simp] theorem setJoint_kcirq (d : Dp) (j : Nat) (x : Joint) : (setJoint d j x).kcirq = d.kcirq := rfl
@[simp] theorem setJoint_ctxRun (d : Dp) (j : Nat) (x : Joint) : (setJoint d j x).ctxRun = d.ctxRun := rfl
@[simp] theorem setJoint_inbound (d : Dp) (j : Nat) (x : Joint) : (setJoint d j x).inbound = d.inbound := rfl
@[simp] theorem setJoint_rxBuf (d : Dp) (j : Nat) (x : Joint) : (setJoint d j x).rxBuf = d.rxBuf := rfl
@[simp] theorem setJoint_backoffs (d : Dp) (j : Nat) (x : Joint) : (setJoint d j x).backoffs = d.backoffs := rfl
@[simp] theorem setJoint_links (d : Dp) (j : Nat) (x : Joint) : (setJoint d j x).links = d.links := rfl
@[simp] theorem setJoint_tm (d : Dp) (j : Nat) (x : Joint) : (setJoint d j x).tm = d.tm := rfl
@[simp] theorem setJoint_inc (d : Dp) (j : Nat) (x : Joint) : (setJoint d j x).inc = d.inc := rfl
@[simp] theorem setJoint_obs (d : Dp) (j : Nat) (x : Joint) : (setJoint d j x).obs = d.obs := rfl
@[simp] theorem setJoint_port (d : Dp) (j : Nat) (x : Joint) : (setJoint d j x).port = d.port := rfl
@[simp] theorem setJoint_lastCourse (d : Dp) (j : Nat) (x : Joint) : (setJoint d j x).lastCourse = d.lastCourse := rfl
@[simp] theorem setJoint_flitErr (d : Dp) (j : Nat) (x : Joint) : (setJoint d j x).flitErr = d.flitErr := rfl
@[simp] theorem setJoint_free (d : Dp) (j : Nat) (x : Joint) : (setJoint d j x).free = d.free := rfl

/-! ### setAg -/

@[simp] theorem setAg_joints (d : Dp) (j : Nat) (x : AgReg) : (setAg d j x).joints = d.joints := rfl
@[simp] theorem setAg_ag (d : Dp) (j : Nat) (x : AgReg) : (setAg d j x).ag = fput d.ag j x := rfl
@[simp] theorem setAg_departing (d : Dp) (j : Nat) (x : AgReg) : (setAg d j x).departing = d.departing := rfl
@[simp] theorem setAg_net (d : Dp) (j : Nat) (x : AgReg) : (setAg d j x).net = d.net := rfl
@[simp] theorem setAg_seq (d : Dp) (j : Nat) (x : AgReg) : (setAg d j x).seq = d.seq := rfl
@[simp] theorem setAg_comb (d : Dp) (j : Nat) (x : AgReg) : (setAg d j x).comb = d.comb := rfl
@[simp] theorem setAg_bricks (d : Dp) (j : Nat) (x : AgReg) : (setAg d j x).bricks = d.bricks := rfl
@[simp] theorem setAg_touched (d : Dp) (j : Nat) (x : AgReg) : (setAg d j x).touched = d.touched := rfl
@[simp] theorem setAg_freed (d : Dp) (j : Nat) (x : AgReg) : (setAg d j x).freed = d.freed := rfl
@[simp] theorem setAg_stripes (d : Dp) (j : Nat) (x : AgReg) : (setAg d j x).stripes = d.stripes := rfl
@[simp] theorem setAg_ringEnds (d : Dp) (j : Nat) (x : AgReg) : (setAg d j x).ringEnds = d.ringEnds := rfl
@[simp] theorem setAg_lintels (d : Dp) (j : Nat) (x : AgReg) : (setAg d j x).lintels = d.lintels := rfl
@[simp] theorem setAg_tiles (d : Dp) (j : Nat) (x : AgReg) : (setAg d j x).tiles = d.tiles := rfl
@[simp] theorem setAg_mirCopies (d : Dp) (j : Nat) (x : AgReg) : (setAg d j x).mirCopies = d.mirCopies := rfl
@[simp] theorem setAg_mirUpds (d : Dp) (j : Nat) (x : AgReg) : (setAg d j x).mirUpds = d.mirUpds := rfl
@[simp] theorem setAg_rings (d : Dp) (j : Nat) (x : AgReg) : (setAg d j x).rings = d.rings := rfl
@[simp] theorem setAg_cmpl (d : Dp) (j : Nat) (x : AgReg) : (setAg d j x).cmpl = d.cmpl := rfl
@[simp] theorem setAg_held (d : Dp) (j : Nat) (x : AgReg) : (setAg d j x).held = d.held := rfl
@[simp] theorem setAg_incRings (d : Dp) (j : Nat) (x : AgReg) : (setAg d j x).incRings = d.incRings := rfl
@[simp] theorem setAg_trings (d : Dp) (j : Nat) (x : AgReg) : (setAg d j x).trings = d.trings := rfl
@[simp] theorem setAg_kdbLo (d : Dp) (j : Nat) (x : AgReg) : (setAg d j x).kdbLo = d.kdbLo := rfl
@[simp] theorem setAg_parts (d : Dp) (j : Nat) (x : AgReg) : (setAg d j x).parts = d.parts := rfl
@[simp] theorem setAg_kcirq (d : Dp) (j : Nat) (x : AgReg) : (setAg d j x).kcirq = d.kcirq := rfl
@[simp] theorem setAg_ctxRun (d : Dp) (j : Nat) (x : AgReg) : (setAg d j x).ctxRun = d.ctxRun := rfl
@[simp] theorem setAg_inbound (d : Dp) (j : Nat) (x : AgReg) : (setAg d j x).inbound = d.inbound := rfl
@[simp] theorem setAg_rxBuf (d : Dp) (j : Nat) (x : AgReg) : (setAg d j x).rxBuf = d.rxBuf := rfl
@[simp] theorem setAg_backoffs (d : Dp) (j : Nat) (x : AgReg) : (setAg d j x).backoffs = d.backoffs := rfl
@[simp] theorem setAg_links (d : Dp) (j : Nat) (x : AgReg) : (setAg d j x).links = d.links := rfl
@[simp] theorem setAg_tm (d : Dp) (j : Nat) (x : AgReg) : (setAg d j x).tm = d.tm := rfl
@[simp] theorem setAg_inc (d : Dp) (j : Nat) (x : AgReg) : (setAg d j x).inc = d.inc := rfl
@[simp] theorem setAg_obs (d : Dp) (j : Nat) (x : AgReg) : (setAg d j x).obs = d.obs := rfl
@[simp] theorem setAg_port (d : Dp) (j : Nat) (x : AgReg) : (setAg d j x).port = d.port := rfl
@[simp] theorem setAg_lastCourse (d : Dp) (j : Nat) (x : AgReg) : (setAg d j x).lastCourse = d.lastCourse := rfl
@[simp] theorem setAg_flitErr (d : Dp) (j : Nat) (x : AgReg) : (setAg d j x).flitErr = d.flitErr := rfl
@[simp] theorem setAg_free (d : Dp) (j : Nat) (x : AgReg) : (setAg d j x).free = d.free := rfl

/-! ### setTile -/

@[simp] theorem setTile_joints (d : Dp) (t : Nat) (x : Tile) : (setTile d t x).joints = d.joints := rfl
@[simp] theorem setTile_ag (d : Dp) (t : Nat) (x : Tile) : (setTile d t x).ag = d.ag := rfl
@[simp] theorem setTile_departing (d : Dp) (t : Nat) (x : Tile) : (setTile d t x).departing = d.departing := rfl
@[simp] theorem setTile_net (d : Dp) (t : Nat) (x : Tile) : (setTile d t x).net = d.net := rfl
@[simp] theorem setTile_seq (d : Dp) (t : Nat) (x : Tile) : (setTile d t x).seq = d.seq := rfl
@[simp] theorem setTile_comb (d : Dp) (t : Nat) (x : Tile) : (setTile d t x).comb = d.comb := rfl
@[simp] theorem setTile_bricks (d : Dp) (t : Nat) (x : Tile) : (setTile d t x).bricks = d.bricks := rfl
@[simp] theorem setTile_touched (d : Dp) (t : Nat) (x : Tile) : (setTile d t x).touched = d.touched := rfl
@[simp] theorem setTile_freed (d : Dp) (t : Nat) (x : Tile) : (setTile d t x).freed = d.freed := rfl
@[simp] theorem setTile_stripes (d : Dp) (t : Nat) (x : Tile) : (setTile d t x).stripes = d.stripes := rfl
@[simp] theorem setTile_ringEnds (d : Dp) (t : Nat) (x : Tile) : (setTile d t x).ringEnds = d.ringEnds := rfl
@[simp] theorem setTile_lintels (d : Dp) (t : Nat) (x : Tile) : (setTile d t x).lintels = d.lintels := rfl
@[simp] theorem setTile_tiles (d : Dp) (t : Nat) (x : Tile) : (setTile d t x).tiles = fput d.tiles t x := rfl
@[simp] theorem setTile_mirCopies (d : Dp) (t : Nat) (x : Tile) : (setTile d t x).mirCopies = d.mirCopies := rfl
@[simp] theorem setTile_mirUpds (d : Dp) (t : Nat) (x : Tile) : (setTile d t x).mirUpds = d.mirUpds := rfl
@[simp] theorem setTile_rings (d : Dp) (t : Nat) (x : Tile) : (setTile d t x).rings = d.rings := rfl
@[simp] theorem setTile_cmpl (d : Dp) (t : Nat) (x : Tile) : (setTile d t x).cmpl = d.cmpl := rfl
@[simp] theorem setTile_held (d : Dp) (t : Nat) (x : Tile) : (setTile d t x).held = d.held := rfl
@[simp] theorem setTile_incRings (d : Dp) (t : Nat) (x : Tile) : (setTile d t x).incRings = d.incRings := rfl
@[simp] theorem setTile_trings (d : Dp) (t : Nat) (x : Tile) : (setTile d t x).trings = d.trings := rfl
@[simp] theorem setTile_kdbLo (d : Dp) (t : Nat) (x : Tile) : (setTile d t x).kdbLo = d.kdbLo := rfl
@[simp] theorem setTile_parts (d : Dp) (t : Nat) (x : Tile) : (setTile d t x).parts = d.parts := rfl
@[simp] theorem setTile_kcirq (d : Dp) (t : Nat) (x : Tile) : (setTile d t x).kcirq = d.kcirq := rfl
@[simp] theorem setTile_ctxRun (d : Dp) (t : Nat) (x : Tile) : (setTile d t x).ctxRun = d.ctxRun := rfl
@[simp] theorem setTile_inbound (d : Dp) (t : Nat) (x : Tile) : (setTile d t x).inbound = d.inbound := rfl
@[simp] theorem setTile_rxBuf (d : Dp) (t : Nat) (x : Tile) : (setTile d t x).rxBuf = d.rxBuf := rfl
@[simp] theorem setTile_backoffs (d : Dp) (t : Nat) (x : Tile) : (setTile d t x).backoffs = d.backoffs := rfl
@[simp] theorem setTile_links (d : Dp) (t : Nat) (x : Tile) : (setTile d t x).links = d.links := rfl
@[simp] theorem setTile_tm (d : Dp) (t : Nat) (x : Tile) : (setTile d t x).tm = d.tm := rfl
@[simp] theorem setTile_inc (d : Dp) (t : Nat) (x : Tile) : (setTile d t x).inc = d.inc := rfl
@[simp] theorem setTile_obs (d : Dp) (t : Nat) (x : Tile) : (setTile d t x).obs = d.obs := rfl
@[simp] theorem setTile_port (d : Dp) (t : Nat) (x : Tile) : (setTile d t x).port = d.port := rfl
@[simp] theorem setTile_lastCourse (d : Dp) (t : Nat) (x : Tile) : (setTile d t x).lastCourse = d.lastCourse := rfl
@[simp] theorem setTile_flitErr (d : Dp) (t : Nat) (x : Tile) : (setTile d t x).flitErr = d.flitErr := rfl
@[simp] theorem setTile_free (d : Dp) (t : Nat) (x : Tile) : (setTile d t x).free = d.free := rfl

/-! ### setPart -/

@[simp] theorem setPart_joints (d : Dp) (p : BitVec 4) (x : Part) : (setPart d p x).joints = d.joints := rfl
@[simp] theorem setPart_ag (d : Dp) (p : BitVec 4) (x : Part) : (setPart d p x).ag = d.ag := rfl
@[simp] theorem setPart_departing (d : Dp) (p : BitVec 4) (x : Part) : (setPart d p x).departing = d.departing := rfl
@[simp] theorem setPart_net (d : Dp) (p : BitVec 4) (x : Part) : (setPart d p x).net = d.net := rfl
@[simp] theorem setPart_seq (d : Dp) (p : BitVec 4) (x : Part) : (setPart d p x).seq = d.seq := rfl
@[simp] theorem setPart_comb (d : Dp) (p : BitVec 4) (x : Part) : (setPart d p x).comb = d.comb := rfl
@[simp] theorem setPart_bricks (d : Dp) (p : BitVec 4) (x : Part) : (setPart d p x).bricks = d.bricks := rfl
@[simp] theorem setPart_touched (d : Dp) (p : BitVec 4) (x : Part) : (setPart d p x).touched = d.touched := rfl
@[simp] theorem setPart_freed (d : Dp) (p : BitVec 4) (x : Part) : (setPart d p x).freed = d.freed := rfl
@[simp] theorem setPart_stripes (d : Dp) (p : BitVec 4) (x : Part) : (setPart d p x).stripes = d.stripes := rfl
@[simp] theorem setPart_ringEnds (d : Dp) (p : BitVec 4) (x : Part) : (setPart d p x).ringEnds = d.ringEnds := rfl
@[simp] theorem setPart_lintels (d : Dp) (p : BitVec 4) (x : Part) : (setPart d p x).lintels = d.lintels := rfl
@[simp] theorem setPart_tiles (d : Dp) (p : BitVec 4) (x : Part) : (setPart d p x).tiles = d.tiles := rfl
@[simp] theorem setPart_mirCopies (d : Dp) (p : BitVec 4) (x : Part) : (setPart d p x).mirCopies = d.mirCopies := rfl
@[simp] theorem setPart_mirUpds (d : Dp) (p : BitVec 4) (x : Part) : (setPart d p x).mirUpds = d.mirUpds := rfl
@[simp] theorem setPart_rings (d : Dp) (p : BitVec 4) (x : Part) : (setPart d p x).rings = d.rings := rfl
@[simp] theorem setPart_cmpl (d : Dp) (p : BitVec 4) (x : Part) : (setPart d p x).cmpl = d.cmpl := rfl
@[simp] theorem setPart_held (d : Dp) (p : BitVec 4) (x : Part) : (setPart d p x).held = d.held := rfl
@[simp] theorem setPart_incRings (d : Dp) (p : BitVec 4) (x : Part) : (setPart d p x).incRings = d.incRings := rfl
@[simp] theorem setPart_trings (d : Dp) (p : BitVec 4) (x : Part) : (setPart d p x).trings = d.trings := rfl
@[simp] theorem setPart_kdbLo (d : Dp) (p : BitVec 4) (x : Part) : (setPart d p x).kdbLo = d.kdbLo := rfl
@[simp] theorem setPart_parts (d : Dp) (p : BitVec 4) (x : Part) : (setPart d p x).parts = fput d.parts p.toNat x := rfl
@[simp] theorem setPart_kcirq (d : Dp) (p : BitVec 4) (x : Part) : (setPart d p x).kcirq = d.kcirq := rfl
@[simp] theorem setPart_ctxRun (d : Dp) (p : BitVec 4) (x : Part) : (setPart d p x).ctxRun = d.ctxRun := rfl
@[simp] theorem setPart_inbound (d : Dp) (p : BitVec 4) (x : Part) : (setPart d p x).inbound = d.inbound := rfl
@[simp] theorem setPart_rxBuf (d : Dp) (p : BitVec 4) (x : Part) : (setPart d p x).rxBuf = d.rxBuf := rfl
@[simp] theorem setPart_backoffs (d : Dp) (p : BitVec 4) (x : Part) : (setPart d p x).backoffs = d.backoffs := rfl
@[simp] theorem setPart_links (d : Dp) (p : BitVec 4) (x : Part) : (setPart d p x).links = d.links := rfl
@[simp] theorem setPart_tm (d : Dp) (p : BitVec 4) (x : Part) : (setPart d p x).tm = d.tm := rfl
@[simp] theorem setPart_inc (d : Dp) (p : BitVec 4) (x : Part) : (setPart d p x).inc = d.inc := rfl
@[simp] theorem setPart_obs (d : Dp) (p : BitVec 4) (x : Part) : (setPart d p x).obs = d.obs := rfl
@[simp] theorem setPart_port (d : Dp) (p : BitVec 4) (x : Part) : (setPart d p x).port = d.port := rfl
@[simp] theorem setPart_lastCourse (d : Dp) (p : BitVec 4) (x : Part) : (setPart d p x).lastCourse = d.lastCourse := rfl
@[simp] theorem setPart_flitErr (d : Dp) (p : BitVec 4) (x : Part) : (setPart d p x).flitErr = d.flitErr := rfl
@[simp] theorem setPart_free (d : Dp) (p : BitVec 4) (x : Part) : (setPart d p x).free = d.free := rfl

/-! ### setBrick -/

@[simp] theorem setBrick_joints (d : Dp) (i : Nat) (x : Brick) : (setBrick d i x).joints = d.joints := rfl
@[simp] theorem setBrick_ag (d : Dp) (i : Nat) (x : Brick) : (setBrick d i x).ag = d.ag := rfl
@[simp] theorem setBrick_departing (d : Dp) (i : Nat) (x : Brick) : (setBrick d i x).departing = d.departing := rfl
@[simp] theorem setBrick_net (d : Dp) (i : Nat) (x : Brick) : (setBrick d i x).net = d.net := rfl
@[simp] theorem setBrick_seq (d : Dp) (i : Nat) (x : Brick) : (setBrick d i x).seq = d.seq := rfl
@[simp] theorem setBrick_comb (d : Dp) (i : Nat) (x : Brick) : (setBrick d i x).comb = d.comb := rfl
@[simp] theorem setBrick_bricks (d : Dp) (i : Nat) (x : Brick) : (setBrick d i x).bricks = fput d.bricks i x := rfl
@[simp] theorem setBrick_touched (d : Dp) (i : Nat) (x : Brick) : (setBrick d i x).touched = d.touched := rfl
@[simp] theorem setBrick_freed (d : Dp) (i : Nat) (x : Brick) : (setBrick d i x).freed = d.freed := rfl
@[simp] theorem setBrick_stripes (d : Dp) (i : Nat) (x : Brick) : (setBrick d i x).stripes = d.stripes := rfl
@[simp] theorem setBrick_ringEnds (d : Dp) (i : Nat) (x : Brick) : (setBrick d i x).ringEnds = d.ringEnds := rfl
@[simp] theorem setBrick_lintels (d : Dp) (i : Nat) (x : Brick) : (setBrick d i x).lintels = d.lintels := rfl
@[simp] theorem setBrick_tiles (d : Dp) (i : Nat) (x : Brick) : (setBrick d i x).tiles = d.tiles := rfl
@[simp] theorem setBrick_mirCopies (d : Dp) (i : Nat) (x : Brick) : (setBrick d i x).mirCopies = d.mirCopies := rfl
@[simp] theorem setBrick_mirUpds (d : Dp) (i : Nat) (x : Brick) : (setBrick d i x).mirUpds = d.mirUpds := rfl
@[simp] theorem setBrick_rings (d : Dp) (i : Nat) (x : Brick) : (setBrick d i x).rings = d.rings := rfl
@[simp] theorem setBrick_cmpl (d : Dp) (i : Nat) (x : Brick) : (setBrick d i x).cmpl = d.cmpl := rfl
@[simp] theorem setBrick_held (d : Dp) (i : Nat) (x : Brick) : (setBrick d i x).held = d.held := rfl
@[simp] theorem setBrick_incRings (d : Dp) (i : Nat) (x : Brick) : (setBrick d i x).incRings = d.incRings := rfl
@[simp] theorem setBrick_trings (d : Dp) (i : Nat) (x : Brick) : (setBrick d i x).trings = d.trings := rfl
@[simp] theorem setBrick_kdbLo (d : Dp) (i : Nat) (x : Brick) : (setBrick d i x).kdbLo = d.kdbLo := rfl
@[simp] theorem setBrick_parts (d : Dp) (i : Nat) (x : Brick) : (setBrick d i x).parts = d.parts := rfl
@[simp] theorem setBrick_kcirq (d : Dp) (i : Nat) (x : Brick) : (setBrick d i x).kcirq = d.kcirq := rfl
@[simp] theorem setBrick_ctxRun (d : Dp) (i : Nat) (x : Brick) : (setBrick d i x).ctxRun = d.ctxRun := rfl
@[simp] theorem setBrick_inbound (d : Dp) (i : Nat) (x : Brick) : (setBrick d i x).inbound = d.inbound := rfl
@[simp] theorem setBrick_rxBuf (d : Dp) (i : Nat) (x : Brick) : (setBrick d i x).rxBuf = d.rxBuf := rfl
@[simp] theorem setBrick_backoffs (d : Dp) (i : Nat) (x : Brick) : (setBrick d i x).backoffs = d.backoffs := rfl
@[simp] theorem setBrick_links (d : Dp) (i : Nat) (x : Brick) : (setBrick d i x).links = d.links := rfl
@[simp] theorem setBrick_tm (d : Dp) (i : Nat) (x : Brick) : (setBrick d i x).tm = d.tm := rfl
@[simp] theorem setBrick_inc (d : Dp) (i : Nat) (x : Brick) : (setBrick d i x).inc = d.inc := rfl
@[simp] theorem setBrick_obs (d : Dp) (i : Nat) (x : Brick) : (setBrick d i x).obs = d.obs := rfl
@[simp] theorem setBrick_port (d : Dp) (i : Nat) (x : Brick) : (setBrick d i x).port = d.port := rfl
@[simp] theorem setBrick_lastCourse (d : Dp) (i : Nat) (x : Brick) : (setBrick d i x).lastCourse = d.lastCourse := rfl
@[simp] theorem setBrick_flitErr (d : Dp) (i : Nat) (x : Brick) : (setBrick d i x).flitErr = d.flitErr := rfl
@[simp] theorem setBrick_free (d : Dp) (i : Nat) (x : Brick) : (setBrick d i x).free = d.free := rfl

/-! ### setLink -/

@[simp] theorem setLink_joints (d : Dp) (r : Nat) (x : Link) : (setLink d r x).joints = d.joints := rfl
@[simp] theorem setLink_ag (d : Dp) (r : Nat) (x : Link) : (setLink d r x).ag = d.ag := rfl
@[simp] theorem setLink_departing (d : Dp) (r : Nat) (x : Link) : (setLink d r x).departing = d.departing := rfl
@[simp] theorem setLink_net (d : Dp) (r : Nat) (x : Link) : (setLink d r x).net = d.net := rfl
@[simp] theorem setLink_seq (d : Dp) (r : Nat) (x : Link) : (setLink d r x).seq = d.seq := rfl
@[simp] theorem setLink_comb (d : Dp) (r : Nat) (x : Link) : (setLink d r x).comb = d.comb := rfl
@[simp] theorem setLink_bricks (d : Dp) (r : Nat) (x : Link) : (setLink d r x).bricks = d.bricks := rfl
@[simp] theorem setLink_touched (d : Dp) (r : Nat) (x : Link) : (setLink d r x).touched = d.touched := rfl
@[simp] theorem setLink_freed (d : Dp) (r : Nat) (x : Link) : (setLink d r x).freed = d.freed := rfl
@[simp] theorem setLink_stripes (d : Dp) (r : Nat) (x : Link) : (setLink d r x).stripes = d.stripes := rfl
@[simp] theorem setLink_ringEnds (d : Dp) (r : Nat) (x : Link) : (setLink d r x).ringEnds = d.ringEnds := rfl
@[simp] theorem setLink_lintels (d : Dp) (r : Nat) (x : Link) : (setLink d r x).lintels = d.lintels := rfl
@[simp] theorem setLink_tiles (d : Dp) (r : Nat) (x : Link) : (setLink d r x).tiles = d.tiles := rfl
@[simp] theorem setLink_mirCopies (d : Dp) (r : Nat) (x : Link) : (setLink d r x).mirCopies = d.mirCopies := rfl
@[simp] theorem setLink_mirUpds (d : Dp) (r : Nat) (x : Link) : (setLink d r x).mirUpds = d.mirUpds := rfl
@[simp] theorem setLink_rings (d : Dp) (r : Nat) (x : Link) : (setLink d r x).rings = d.rings := rfl
@[simp] theorem setLink_cmpl (d : Dp) (r : Nat) (x : Link) : (setLink d r x).cmpl = d.cmpl := rfl
@[simp] theorem setLink_held (d : Dp) (r : Nat) (x : Link) : (setLink d r x).held = d.held := rfl
@[simp] theorem setLink_incRings (d : Dp) (r : Nat) (x : Link) : (setLink d r x).incRings = d.incRings := rfl
@[simp] theorem setLink_trings (d : Dp) (r : Nat) (x : Link) : (setLink d r x).trings = d.trings := rfl
@[simp] theorem setLink_kdbLo (d : Dp) (r : Nat) (x : Link) : (setLink d r x).kdbLo = d.kdbLo := rfl
@[simp] theorem setLink_parts (d : Dp) (r : Nat) (x : Link) : (setLink d r x).parts = d.parts := rfl
@[simp] theorem setLink_kcirq (d : Dp) (r : Nat) (x : Link) : (setLink d r x).kcirq = d.kcirq := rfl
@[simp] theorem setLink_ctxRun (d : Dp) (r : Nat) (x : Link) : (setLink d r x).ctxRun = d.ctxRun := rfl
@[simp] theorem setLink_inbound (d : Dp) (r : Nat) (x : Link) : (setLink d r x).inbound = d.inbound := rfl
@[simp] theorem setLink_rxBuf (d : Dp) (r : Nat) (x : Link) : (setLink d r x).rxBuf = d.rxBuf := rfl
@[simp] theorem setLink_backoffs (d : Dp) (r : Nat) (x : Link) : (setLink d r x).backoffs = d.backoffs := rfl
@[simp] theorem setLink_links (d : Dp) (r : Nat) (x : Link) : (setLink d r x).links = fput d.links r x := rfl
@[simp] theorem setLink_tm (d : Dp) (r : Nat) (x : Link) : (setLink d r x).tm = d.tm := rfl
@[simp] theorem setLink_inc (d : Dp) (r : Nat) (x : Link) : (setLink d r x).inc = d.inc := rfl
@[simp] theorem setLink_obs (d : Dp) (r : Nat) (x : Link) : (setLink d r x).obs = d.obs := rfl
@[simp] theorem setLink_port (d : Dp) (r : Nat) (x : Link) : (setLink d r x).port = d.port := rfl
@[simp] theorem setLink_lastCourse (d : Dp) (r : Nat) (x : Link) : (setLink d r x).lastCourse = d.lastCourse := rfl
@[simp] theorem setLink_flitErr (d : Dp) (r : Nat) (x : Link) : (setLink d r x).flitErr = d.flitErr := rfl
@[simp] theorem setLink_free (d : Dp) (r : Nat) (x : Link) : (setLink d r x).free = d.free := rfl

/-! ### setRing -/

@[simp] theorem setRing_joints (d : Dp) (r : RingId) (x : SubRing) : (setRing d r x).joints = d.joints := rfl
@[simp] theorem setRing_ag (d : Dp) (r : RingId) (x : SubRing) : (setRing d r x).ag = d.ag := rfl
@[simp] theorem setRing_departing (d : Dp) (r : RingId) (x : SubRing) : (setRing d r x).departing = d.departing := rfl
@[simp] theorem setRing_net (d : Dp) (r : RingId) (x : SubRing) : (setRing d r x).net = d.net := rfl
@[simp] theorem setRing_seq (d : Dp) (r : RingId) (x : SubRing) : (setRing d r x).seq = d.seq := rfl
@[simp] theorem setRing_comb (d : Dp) (r : RingId) (x : SubRing) : (setRing d r x).comb = d.comb := rfl
@[simp] theorem setRing_bricks (d : Dp) (r : RingId) (x : SubRing) : (setRing d r x).bricks = d.bricks := rfl
@[simp] theorem setRing_touched (d : Dp) (r : RingId) (x : SubRing) : (setRing d r x).touched = d.touched := rfl
@[simp] theorem setRing_freed (d : Dp) (r : RingId) (x : SubRing) : (setRing d r x).freed = d.freed := rfl
@[simp] theorem setRing_stripes (d : Dp) (r : RingId) (x : SubRing) : (setRing d r x).stripes = d.stripes := rfl
@[simp] theorem setRing_ringEnds (d : Dp) (r : RingId) (x : SubRing) : (setRing d r x).ringEnds = d.ringEnds := rfl
@[simp] theorem setRing_lintels (d : Dp) (r : RingId) (x : SubRing) : (setRing d r x).lintels = d.lintels := rfl
@[simp] theorem setRing_tiles (d : Dp) (r : RingId) (x : SubRing) : (setRing d r x).tiles = d.tiles := rfl
@[simp] theorem setRing_mirCopies (d : Dp) (r : RingId) (x : SubRing) : (setRing d r x).mirCopies = d.mirCopies := rfl
@[simp] theorem setRing_mirUpds (d : Dp) (r : RingId) (x : SubRing) : (setRing d r x).mirUpds = d.mirUpds := rfl
@[simp] theorem setRing_rings (d : Dp) (r : RingId) (x : SubRing) : (setRing d r x).rings = fput d.rings (ringKey r) x := rfl
@[simp] theorem setRing_cmpl (d : Dp) (r : RingId) (x : SubRing) : (setRing d r x).cmpl = d.cmpl := rfl
@[simp] theorem setRing_held (d : Dp) (r : RingId) (x : SubRing) : (setRing d r x).held = d.held := rfl
@[simp] theorem setRing_incRings (d : Dp) (r : RingId) (x : SubRing) : (setRing d r x).incRings = d.incRings := rfl
@[simp] theorem setRing_trings (d : Dp) (r : RingId) (x : SubRing) : (setRing d r x).trings = d.trings := rfl
@[simp] theorem setRing_kdbLo (d : Dp) (r : RingId) (x : SubRing) : (setRing d r x).kdbLo = d.kdbLo := rfl
@[simp] theorem setRing_parts (d : Dp) (r : RingId) (x : SubRing) : (setRing d r x).parts = d.parts := rfl
@[simp] theorem setRing_kcirq (d : Dp) (r : RingId) (x : SubRing) : (setRing d r x).kcirq = d.kcirq := rfl
@[simp] theorem setRing_ctxRun (d : Dp) (r : RingId) (x : SubRing) : (setRing d r x).ctxRun = d.ctxRun := rfl
@[simp] theorem setRing_inbound (d : Dp) (r : RingId) (x : SubRing) : (setRing d r x).inbound = d.inbound := rfl
@[simp] theorem setRing_rxBuf (d : Dp) (r : RingId) (x : SubRing) : (setRing d r x).rxBuf = d.rxBuf := rfl
@[simp] theorem setRing_backoffs (d : Dp) (r : RingId) (x : SubRing) : (setRing d r x).backoffs = d.backoffs := rfl
@[simp] theorem setRing_links (d : Dp) (r : RingId) (x : SubRing) : (setRing d r x).links = d.links := rfl
@[simp] theorem setRing_tm (d : Dp) (r : RingId) (x : SubRing) : (setRing d r x).tm = d.tm := rfl
@[simp] theorem setRing_inc (d : Dp) (r : RingId) (x : SubRing) : (setRing d r x).inc = d.inc := rfl
@[simp] theorem setRing_obs (d : Dp) (r : RingId) (x : SubRing) : (setRing d r x).obs = d.obs := rfl
@[simp] theorem setRing_port (d : Dp) (r : RingId) (x : SubRing) : (setRing d r x).port = d.port := rfl
@[simp] theorem setRing_lastCourse (d : Dp) (r : RingId) (x : SubRing) : (setRing d r x).lastCourse = d.lastCourse := rfl
@[simp] theorem setRing_flitErr (d : Dp) (r : RingId) (x : SubRing) : (setRing d r x).flitErr = d.flitErr := rfl
@[simp] theorem setRing_free (d : Dp) (r : RingId) (x : SubRing) : (setRing d r x).free = d.free := rfl

/-! ### setCmpl -/

@[simp] theorem setCmpl_joints (d : Dp) (o : Owner) (x : OutRing) : (setCmpl d o x).joints = d.joints := rfl
@[simp] theorem setCmpl_ag (d : Dp) (o : Owner) (x : OutRing) : (setCmpl d o x).ag = d.ag := rfl
@[simp] theorem setCmpl_departing (d : Dp) (o : Owner) (x : OutRing) : (setCmpl d o x).departing = d.departing := rfl
@[simp] theorem setCmpl_net (d : Dp) (o : Owner) (x : OutRing) : (setCmpl d o x).net = d.net := rfl
@[simp] theorem setCmpl_seq (d : Dp) (o : Owner) (x : OutRing) : (setCmpl d o x).seq = d.seq := rfl
@[simp] theorem setCmpl_comb (d : Dp) (o : Owner) (x : OutRing) : (setCmpl d o x).comb = d.comb := rfl
@[simp] theorem setCmpl_bricks (d : Dp) (o : Owner) (x : OutRing) : (setCmpl d o x).bricks = d.bricks := rfl
@[simp] theorem setCmpl_touched (d : Dp) (o : Owner) (x : OutRing) : (setCmpl d o x).touched = d.touched := rfl
@[simp] theorem setCmpl_freed (d : Dp) (o : Owner) (x : OutRing) : (setCmpl d o x).freed = d.freed := rfl
@[simp] theorem setCmpl_stripes (d : Dp) (o : Owner) (x : OutRing) : (setCmpl d o x).stripes = d.stripes := rfl
@[simp] theorem setCmpl_ringEnds (d : Dp) (o : Owner) (x : OutRing) : (setCmpl d o x).ringEnds = d.ringEnds := rfl
@[simp] theorem setCmpl_lintels (d : Dp) (o : Owner) (x : OutRing) : (setCmpl d o x).lintels = d.lintels := rfl
@[simp] theorem setCmpl_tiles (d : Dp) (o : Owner) (x : OutRing) : (setCmpl d o x).tiles = d.tiles := rfl
@[simp] theorem setCmpl_mirCopies (d : Dp) (o : Owner) (x : OutRing) : (setCmpl d o x).mirCopies = d.mirCopies := rfl
@[simp] theorem setCmpl_mirUpds (d : Dp) (o : Owner) (x : OutRing) : (setCmpl d o x).mirUpds = d.mirUpds := rfl
@[simp] theorem setCmpl_rings (d : Dp) (o : Owner) (x : OutRing) : (setCmpl d o x).rings = d.rings := rfl
@[simp] theorem setCmpl_cmpl (d : Dp) (o : Owner) (x : OutRing) : (setCmpl d o x).cmpl = fput d.cmpl (ownerKey o) x := rfl
@[simp] theorem setCmpl_held (d : Dp) (o : Owner) (x : OutRing) : (setCmpl d o x).held = d.held := rfl
@[simp] theorem setCmpl_incRings (d : Dp) (o : Owner) (x : OutRing) : (setCmpl d o x).incRings = d.incRings := rfl
@[simp] theorem setCmpl_trings (d : Dp) (o : Owner) (x : OutRing) : (setCmpl d o x).trings = d.trings := rfl
@[simp] theorem setCmpl_kdbLo (d : Dp) (o : Owner) (x : OutRing) : (setCmpl d o x).kdbLo = d.kdbLo := rfl
@[simp] theorem setCmpl_parts (d : Dp) (o : Owner) (x : OutRing) : (setCmpl d o x).parts = d.parts := rfl
@[simp] theorem setCmpl_kcirq (d : Dp) (o : Owner) (x : OutRing) : (setCmpl d o x).kcirq = d.kcirq := rfl
@[simp] theorem setCmpl_ctxRun (d : Dp) (o : Owner) (x : OutRing) : (setCmpl d o x).ctxRun = d.ctxRun := rfl
@[simp] theorem setCmpl_inbound (d : Dp) (o : Owner) (x : OutRing) : (setCmpl d o x).inbound = d.inbound := rfl
@[simp] theorem setCmpl_rxBuf (d : Dp) (o : Owner) (x : OutRing) : (setCmpl d o x).rxBuf = d.rxBuf := rfl
@[simp] theorem setCmpl_backoffs (d : Dp) (o : Owner) (x : OutRing) : (setCmpl d o x).backoffs = d.backoffs := rfl
@[simp] theorem setCmpl_links (d : Dp) (o : Owner) (x : OutRing) : (setCmpl d o x).links = d.links := rfl
@[simp] theorem setCmpl_tm (d : Dp) (o : Owner) (x : OutRing) : (setCmpl d o x).tm = d.tm := rfl
@[simp] theorem setCmpl_inc (d : Dp) (o : Owner) (x : OutRing) : (setCmpl d o x).inc = d.inc := rfl
@[simp] theorem setCmpl_obs (d : Dp) (o : Owner) (x : OutRing) : (setCmpl d o x).obs = d.obs := rfl
@[simp] theorem setCmpl_port (d : Dp) (o : Owner) (x : OutRing) : (setCmpl d o x).port = d.port := rfl
@[simp] theorem setCmpl_lastCourse (d : Dp) (o : Owner) (x : OutRing) : (setCmpl d o x).lastCourse = d.lastCourse := rfl
@[simp] theorem setCmpl_flitErr (d : Dp) (o : Owner) (x : OutRing) : (setCmpl d o x).flitErr = d.flitErr := rfl
@[simp] theorem setCmpl_free (d : Dp) (o : Owner) (x : OutRing) : (setCmpl d o x).free = d.free := rfl

/-! ### setIncRing -/

@[simp] theorem setIncRing_joints (d : Dp) (p : BitVec 4) (x : OutRing) : (setIncRing d p x).joints = d.joints := rfl
@[simp] theorem setIncRing_ag (d : Dp) (p : BitVec 4) (x : OutRing) : (setIncRing d p x).ag = d.ag := rfl
@[simp] theorem setIncRing_departing (d : Dp) (p : BitVec 4) (x : OutRing) : (setIncRing d p x).departing = d.departing := rfl
@[simp] theorem setIncRing_net (d : Dp) (p : BitVec 4) (x : OutRing) : (setIncRing d p x).net = d.net := rfl
@[simp] theorem setIncRing_seq (d : Dp) (p : BitVec 4) (x : OutRing) : (setIncRing d p x).seq = d.seq := rfl
@[simp] theorem setIncRing_comb (d : Dp) (p : BitVec 4) (x : OutRing) : (setIncRing d p x).comb = d.comb := rfl
@[simp] theorem setIncRing_bricks (d : Dp) (p : BitVec 4) (x : OutRing) : (setIncRing d p x).bricks = d.bricks := rfl
@[simp] theorem setIncRing_touched (d : Dp) (p : BitVec 4) (x : OutRing) : (setIncRing d p x).touched = d.touched := rfl
@[simp] theorem setIncRing_freed (d : Dp) (p : BitVec 4) (x : OutRing) : (setIncRing d p x).freed = d.freed := rfl
@[simp] theorem setIncRing_stripes (d : Dp) (p : BitVec 4) (x : OutRing) : (setIncRing d p x).stripes = d.stripes := rfl
@[simp] theorem setIncRing_ringEnds (d : Dp) (p : BitVec 4) (x : OutRing) : (setIncRing d p x).ringEnds = d.ringEnds := rfl
@[simp] theorem setIncRing_lintels (d : Dp) (p : BitVec 4) (x : OutRing) : (setIncRing d p x).lintels = d.lintels := rfl
@[simp] theorem setIncRing_tiles (d : Dp) (p : BitVec 4) (x : OutRing) : (setIncRing d p x).tiles = d.tiles := rfl
@[simp] theorem setIncRing_mirCopies (d : Dp) (p : BitVec 4) (x : OutRing) : (setIncRing d p x).mirCopies = d.mirCopies := rfl
@[simp] theorem setIncRing_mirUpds (d : Dp) (p : BitVec 4) (x : OutRing) : (setIncRing d p x).mirUpds = d.mirUpds := rfl
@[simp] theorem setIncRing_rings (d : Dp) (p : BitVec 4) (x : OutRing) : (setIncRing d p x).rings = d.rings := rfl
@[simp] theorem setIncRing_cmpl (d : Dp) (p : BitVec 4) (x : OutRing) : (setIncRing d p x).cmpl = d.cmpl := rfl
@[simp] theorem setIncRing_held (d : Dp) (p : BitVec 4) (x : OutRing) : (setIncRing d p x).held = d.held := rfl
@[simp] theorem setIncRing_incRings (d : Dp) (p : BitVec 4) (x : OutRing) : (setIncRing d p x).incRings = fput d.incRings p.toNat x := rfl
@[simp] theorem setIncRing_trings (d : Dp) (p : BitVec 4) (x : OutRing) : (setIncRing d p x).trings = d.trings := rfl
@[simp] theorem setIncRing_kdbLo (d : Dp) (p : BitVec 4) (x : OutRing) : (setIncRing d p x).kdbLo = d.kdbLo := rfl
@[simp] theorem setIncRing_parts (d : Dp) (p : BitVec 4) (x : OutRing) : (setIncRing d p x).parts = d.parts := rfl
@[simp] theorem setIncRing_kcirq (d : Dp) (p : BitVec 4) (x : OutRing) : (setIncRing d p x).kcirq = d.kcirq := rfl
@[simp] theorem setIncRing_ctxRun (d : Dp) (p : BitVec 4) (x : OutRing) : (setIncRing d p x).ctxRun = d.ctxRun := rfl
@[simp] theorem setIncRing_inbound (d : Dp) (p : BitVec 4) (x : OutRing) : (setIncRing d p x).inbound = d.inbound := rfl
@[simp] theorem setIncRing_rxBuf (d : Dp) (p : BitVec 4) (x : OutRing) : (setIncRing d p x).rxBuf = d.rxBuf := rfl
@[simp] theorem setIncRing_backoffs (d : Dp) (p : BitVec 4) (x : OutRing) : (setIncRing d p x).backoffs = d.backoffs := rfl
@[simp] theorem setIncRing_links (d : Dp) (p : BitVec 4) (x : OutRing) : (setIncRing d p x).links = d.links := rfl
@[simp] theorem setIncRing_tm (d : Dp) (p : BitVec 4) (x : OutRing) : (setIncRing d p x).tm = d.tm := rfl
@[simp] theorem setIncRing_inc (d : Dp) (p : BitVec 4) (x : OutRing) : (setIncRing d p x).inc = d.inc := rfl
@[simp] theorem setIncRing_obs (d : Dp) (p : BitVec 4) (x : OutRing) : (setIncRing d p x).obs = d.obs := rfl
@[simp] theorem setIncRing_port (d : Dp) (p : BitVec 4) (x : OutRing) : (setIncRing d p x).port = d.port := rfl
@[simp] theorem setIncRing_lastCourse (d : Dp) (p : BitVec 4) (x : OutRing) : (setIncRing d p x).lastCourse = d.lastCourse := rfl
@[simp] theorem setIncRing_flitErr (d : Dp) (p : BitVec 4) (x : OutRing) : (setIncRing d p x).flitErr = d.flitErr := rfl
@[simp] theorem setIncRing_free (d : Dp) (p : BitVec 4) (x : OutRing) : (setIncRing d p x).free = d.free := rfl

/-! ### setTring -/

@[simp] theorem setTring_joints (d : Dp) (k : Nat) (x : OutRing) : (setTring d k x).joints = d.joints := rfl
@[simp] theorem setTring_ag (d : Dp) (k : Nat) (x : OutRing) : (setTring d k x).ag = d.ag := rfl
@[simp] theorem setTring_departing (d : Dp) (k : Nat) (x : OutRing) : (setTring d k x).departing = d.departing := rfl
@[simp] theorem setTring_net (d : Dp) (k : Nat) (x : OutRing) : (setTring d k x).net = d.net := rfl
@[simp] theorem setTring_seq (d : Dp) (k : Nat) (x : OutRing) : (setTring d k x).seq = d.seq := rfl
@[simp] theorem setTring_comb (d : Dp) (k : Nat) (x : OutRing) : (setTring d k x).comb = d.comb := rfl
@[simp] theorem setTring_bricks (d : Dp) (k : Nat) (x : OutRing) : (setTring d k x).bricks = d.bricks := rfl
@[simp] theorem setTring_touched (d : Dp) (k : Nat) (x : OutRing) : (setTring d k x).touched = d.touched := rfl
@[simp] theorem setTring_freed (d : Dp) (k : Nat) (x : OutRing) : (setTring d k x).freed = d.freed := rfl
@[simp] theorem setTring_stripes (d : Dp) (k : Nat) (x : OutRing) : (setTring d k x).stripes = d.stripes := rfl
@[simp] theorem setTring_ringEnds (d : Dp) (k : Nat) (x : OutRing) : (setTring d k x).ringEnds = d.ringEnds := rfl
@[simp] theorem setTring_lintels (d : Dp) (k : Nat) (x : OutRing) : (setTring d k x).lintels = d.lintels := rfl
@[simp] theorem setTring_tiles (d : Dp) (k : Nat) (x : OutRing) : (setTring d k x).tiles = d.tiles := rfl
@[simp] theorem setTring_mirCopies (d : Dp) (k : Nat) (x : OutRing) : (setTring d k x).mirCopies = d.mirCopies := rfl
@[simp] theorem setTring_mirUpds (d : Dp) (k : Nat) (x : OutRing) : (setTring d k x).mirUpds = d.mirUpds := rfl
@[simp] theorem setTring_rings (d : Dp) (k : Nat) (x : OutRing) : (setTring d k x).rings = d.rings := rfl
@[simp] theorem setTring_cmpl (d : Dp) (k : Nat) (x : OutRing) : (setTring d k x).cmpl = d.cmpl := rfl
@[simp] theorem setTring_held (d : Dp) (k : Nat) (x : OutRing) : (setTring d k x).held = d.held := rfl
@[simp] theorem setTring_incRings (d : Dp) (k : Nat) (x : OutRing) : (setTring d k x).incRings = d.incRings := rfl
@[simp] theorem setTring_trings (d : Dp) (k : Nat) (x : OutRing) : (setTring d k x).trings = fput d.trings k x := rfl
@[simp] theorem setTring_kdbLo (d : Dp) (k : Nat) (x : OutRing) : (setTring d k x).kdbLo = d.kdbLo := rfl
@[simp] theorem setTring_parts (d : Dp) (k : Nat) (x : OutRing) : (setTring d k x).parts = d.parts := rfl
@[simp] theorem setTring_kcirq (d : Dp) (k : Nat) (x : OutRing) : (setTring d k x).kcirq = d.kcirq := rfl
@[simp] theorem setTring_ctxRun (d : Dp) (k : Nat) (x : OutRing) : (setTring d k x).ctxRun = d.ctxRun := rfl
@[simp] theorem setTring_inbound (d : Dp) (k : Nat) (x : OutRing) : (setTring d k x).inbound = d.inbound := rfl
@[simp] theorem setTring_rxBuf (d : Dp) (k : Nat) (x : OutRing) : (setTring d k x).rxBuf = d.rxBuf := rfl
@[simp] theorem setTring_backoffs (d : Dp) (k : Nat) (x : OutRing) : (setTring d k x).backoffs = d.backoffs := rfl
@[simp] theorem setTring_links (d : Dp) (k : Nat) (x : OutRing) : (setTring d k x).links = d.links := rfl
@[simp] theorem setTring_tm (d : Dp) (k : Nat) (x : OutRing) : (setTring d k x).tm = d.tm := rfl
@[simp] theorem setTring_inc (d : Dp) (k : Nat) (x : OutRing) : (setTring d k x).inc = d.inc := rfl
@[simp] theorem setTring_obs (d : Dp) (k : Nat) (x : OutRing) : (setTring d k x).obs = d.obs := rfl
@[simp] theorem setTring_port (d : Dp) (k : Nat) (x : OutRing) : (setTring d k x).port = d.port := rfl
@[simp] theorem setTring_lastCourse (d : Dp) (k : Nat) (x : OutRing) : (setTring d k x).lastCourse = d.lastCourse := rfl
@[simp] theorem setTring_flitErr (d : Dp) (k : Nat) (x : OutRing) : (setTring d k x).flitErr = d.flitErr := rfl
@[simp] theorem setTring_free (d : Dp) (k : Nat) (x : OutRing) : (setTring d k x).free = d.free := rfl

/-! ### dropHod -/

@[simp] theorem dropHod_joints (d : Dp) (n : Nat) : (dropHod d n).joints = d.joints := rfl
@[simp] theorem dropHod_ag (d : Dp) (n : Nat) : (dropHod d n).ag = d.ag := rfl
@[simp] theorem dropHod_departing (d : Dp) (n : Nat) : (dropHod d n).departing = d.departing := rfl
@[simp] theorem dropHod_net (d : Dp) (n : Nat) : (dropHod d n).net = eraseAt d.net n := rfl
@[simp] theorem dropHod_seq (d : Dp) (n : Nat) : (dropHod d n).seq = d.seq := rfl
@[simp] theorem dropHod_comb (d : Dp) (n : Nat) : (dropHod d n).comb = d.comb := rfl
@[simp] theorem dropHod_bricks (d : Dp) (n : Nat) : (dropHod d n).bricks = d.bricks := rfl
@[simp] theorem dropHod_touched (d : Dp) (n : Nat) : (dropHod d n).touched = d.touched := rfl
@[simp] theorem dropHod_freed (d : Dp) (n : Nat) : (dropHod d n).freed = d.freed := rfl
@[simp] theorem dropHod_stripes (d : Dp) (n : Nat) : (dropHod d n).stripes = d.stripes := rfl
@[simp] theorem dropHod_ringEnds (d : Dp) (n : Nat) : (dropHod d n).ringEnds = d.ringEnds := rfl
@[simp] theorem dropHod_lintels (d : Dp) (n : Nat) : (dropHod d n).lintels = d.lintels := rfl
@[simp] theorem dropHod_tiles (d : Dp) (n : Nat) : (dropHod d n).tiles = d.tiles := rfl
@[simp] theorem dropHod_mirCopies (d : Dp) (n : Nat) : (dropHod d n).mirCopies = d.mirCopies := rfl
@[simp] theorem dropHod_mirUpds (d : Dp) (n : Nat) : (dropHod d n).mirUpds = d.mirUpds := rfl
@[simp] theorem dropHod_rings (d : Dp) (n : Nat) : (dropHod d n).rings = d.rings := rfl
@[simp] theorem dropHod_cmpl (d : Dp) (n : Nat) : (dropHod d n).cmpl = d.cmpl := rfl
@[simp] theorem dropHod_held (d : Dp) (n : Nat) : (dropHod d n).held = d.held := rfl
@[simp] theorem dropHod_incRings (d : Dp) (n : Nat) : (dropHod d n).incRings = d.incRings := rfl
@[simp] theorem dropHod_trings (d : Dp) (n : Nat) : (dropHod d n).trings = d.trings := rfl
@[simp] theorem dropHod_kdbLo (d : Dp) (n : Nat) : (dropHod d n).kdbLo = d.kdbLo := rfl
@[simp] theorem dropHod_parts (d : Dp) (n : Nat) : (dropHod d n).parts = d.parts := rfl
@[simp] theorem dropHod_kcirq (d : Dp) (n : Nat) : (dropHod d n).kcirq = d.kcirq := rfl
@[simp] theorem dropHod_ctxRun (d : Dp) (n : Nat) : (dropHod d n).ctxRun = d.ctxRun := rfl
@[simp] theorem dropHod_inbound (d : Dp) (n : Nat) : (dropHod d n).inbound = d.inbound := rfl
@[simp] theorem dropHod_rxBuf (d : Dp) (n : Nat) : (dropHod d n).rxBuf = d.rxBuf := rfl
@[simp] theorem dropHod_backoffs (d : Dp) (n : Nat) : (dropHod d n).backoffs = d.backoffs := rfl
@[simp] theorem dropHod_links (d : Dp) (n : Nat) : (dropHod d n).links = d.links := rfl
@[simp] theorem dropHod_tm (d : Dp) (n : Nat) : (dropHod d n).tm = d.tm := rfl
@[simp] theorem dropHod_inc (d : Dp) (n : Nat) : (dropHod d n).inc = d.inc := rfl
@[simp] theorem dropHod_obs (d : Dp) (n : Nat) : (dropHod d n).obs = d.obs := rfl
@[simp] theorem dropHod_port (d : Dp) (n : Nat) : (dropHod d n).port = d.port := rfl
@[simp] theorem dropHod_lastCourse (d : Dp) (n : Nat) : (dropHod d n).lastCourse = d.lastCourse := rfl
@[simp] theorem dropHod_flitErr (d : Dp) (n : Nat) : (dropHod d n).flitErr = d.flitErr := rfl
@[simp] theorem dropHod_free (d : Dp) (n : Nat) : (dropHod d n).free = d.free := rfl

/-! ### memWrite -/

@[simp] theorem memWrite_joints (d : Dp) (c : Nat) (a : Dword) (l v : Nat) : (memWrite d c a l v).joints = d.joints := rfl
@[simp] theorem memWrite_ag (d : Dp) (c : Nat) (a : Dword) (l v : Nat) : (memWrite d c a l v).ag = d.ag := rfl
@[simp] theorem memWrite_departing (d : Dp) (c : Nat) (a : Dword) (l v : Nat) : (memWrite d c a l v).departing = d.departing := rfl
@[simp] theorem memWrite_net (d : Dp) (c : Nat) (a : Dword) (l v : Nat) : (memWrite d c a l v).net = d.net := rfl
@[simp] theorem memWrite_seq (d : Dp) (c : Nat) (a : Dword) (l v : Nat) : (memWrite d c a l v).seq = d.seq := rfl
@[simp] theorem memWrite_comb (d : Dp) (c : Nat) (a : Dword) (l v : Nat) : (memWrite d c a l v).comb = d.comb := rfl
@[simp] theorem memWrite_bricks (d : Dp) (c : Nat) (a : Dword) (l v : Nat) : (memWrite d c a l v).bricks = d.bricks := rfl
@[simp] theorem memWrite_touched (d : Dp) (c : Nat) (a : Dword) (l v : Nat) : (memWrite d c a l v).touched = d.touched := rfl
@[simp] theorem memWrite_freed (d : Dp) (c : Nat) (a : Dword) (l v : Nat) : (memWrite d c a l v).freed = d.freed := rfl
@[simp] theorem memWrite_stripes (d : Dp) (c : Nat) (a : Dword) (l v : Nat) : (memWrite d c a l v).stripes = d.stripes := rfl
@[simp] theorem memWrite_ringEnds (d : Dp) (c : Nat) (a : Dword) (l v : Nat) : (memWrite d c a l v).ringEnds = d.ringEnds := rfl
@[simp] theorem memWrite_lintels (d : Dp) (c : Nat) (a : Dword) (l v : Nat) : (memWrite d c a l v).lintels = d.lintels := rfl
@[simp] theorem memWrite_tiles (d : Dp) (c : Nat) (a : Dword) (l v : Nat) : (memWrite d c a l v).tiles = d.tiles := rfl
@[simp] theorem memWrite_mirCopies (d : Dp) (c : Nat) (a : Dword) (l v : Nat) : (memWrite d c a l v).mirCopies = d.mirCopies := rfl
@[simp] theorem memWrite_mirUpds (d : Dp) (c : Nat) (a : Dword) (l v : Nat) : (memWrite d c a l v).mirUpds = d.mirUpds := rfl
@[simp] theorem memWrite_rings (d : Dp) (c : Nat) (a : Dword) (l v : Nat) : (memWrite d c a l v).rings = d.rings := rfl
@[simp] theorem memWrite_cmpl (d : Dp) (c : Nat) (a : Dword) (l v : Nat) : (memWrite d c a l v).cmpl = d.cmpl := rfl
@[simp] theorem memWrite_held (d : Dp) (c : Nat) (a : Dword) (l v : Nat) : (memWrite d c a l v).held = d.held := rfl
@[simp] theorem memWrite_incRings (d : Dp) (c : Nat) (a : Dword) (l v : Nat) : (memWrite d c a l v).incRings = d.incRings := rfl
@[simp] theorem memWrite_trings (d : Dp) (c : Nat) (a : Dword) (l v : Nat) : (memWrite d c a l v).trings = d.trings := rfl
@[simp] theorem memWrite_kdbLo (d : Dp) (c : Nat) (a : Dword) (l v : Nat) : (memWrite d c a l v).kdbLo = d.kdbLo := rfl
@[simp] theorem memWrite_parts (d : Dp) (c : Nat) (a : Dword) (l v : Nat) : (memWrite d c a l v).parts = d.parts := rfl
@[simp] theorem memWrite_kcirq (d : Dp) (c : Nat) (a : Dword) (l v : Nat) : (memWrite d c a l v).kcirq = d.kcirq := rfl
@[simp] theorem memWrite_ctxRun (d : Dp) (c : Nat) (a : Dword) (l v : Nat) : (memWrite d c a l v).ctxRun = d.ctxRun := rfl
@[simp] theorem memWrite_inbound (d : Dp) (c : Nat) (a : Dword) (l v : Nat) : (memWrite d c a l v).inbound = d.inbound := rfl
@[simp] theorem memWrite_rxBuf (d : Dp) (c : Nat) (a : Dword) (l v : Nat) : (memWrite d c a l v).rxBuf = d.rxBuf := rfl
@[simp] theorem memWrite_backoffs (d : Dp) (c : Nat) (a : Dword) (l v : Nat) : (memWrite d c a l v).backoffs = d.backoffs := rfl
@[simp] theorem memWrite_links (d : Dp) (c : Nat) (a : Dword) (l v : Nat) : (memWrite d c a l v).links = d.links := rfl
@[simp] theorem memWrite_tm (d : Dp) (c : Nat) (a : Dword) (l v : Nat) : (memWrite d c a l v).tm = d.tm := rfl
@[simp] theorem memWrite_inc (d : Dp) (c : Nat) (a : Dword) (l v : Nat) : (memWrite d c a l v).inc = d.inc := rfl
@[simp] theorem memWrite_obs (d : Dp) (c : Nat) (a : Dword) (l v : Nat) : (memWrite d c a l v).obs = d.obs := rfl
@[simp] theorem memWrite_lastCourse (d : Dp) (c : Nat) (a : Dword) (l v : Nat) : (memWrite d c a l v).lastCourse = d.lastCourse := rfl
@[simp] theorem memWrite_flitErr (d : Dp) (c : Nat) (a : Dword) (l v : Nat) : (memWrite d c a l v).flitErr = d.flitErr := rfl
@[simp] theorem memWrite_free (d : Dp) (c : Nat) (a : Dword) (l v : Nat) : (memWrite d c a l v).free = d.free := rfl

/-! ### memRead -/

@[simp] theorem memRead_joints (d : Dp) (c : Nat) (a : Dword) (l : Nat) : (memRead d c a l).joints = d.joints := rfl
@[simp] theorem memRead_ag (d : Dp) (c : Nat) (a : Dword) (l : Nat) : (memRead d c a l).ag = d.ag := rfl
@[simp] theorem memRead_departing (d : Dp) (c : Nat) (a : Dword) (l : Nat) : (memRead d c a l).departing = d.departing := rfl
@[simp] theorem memRead_net (d : Dp) (c : Nat) (a : Dword) (l : Nat) : (memRead d c a l).net = d.net := rfl
@[simp] theorem memRead_seq (d : Dp) (c : Nat) (a : Dword) (l : Nat) : (memRead d c a l).seq = d.seq := rfl
@[simp] theorem memRead_comb (d : Dp) (c : Nat) (a : Dword) (l : Nat) : (memRead d c a l).comb = d.comb := rfl
@[simp] theorem memRead_bricks (d : Dp) (c : Nat) (a : Dword) (l : Nat) : (memRead d c a l).bricks = d.bricks := rfl
@[simp] theorem memRead_touched (d : Dp) (c : Nat) (a : Dword) (l : Nat) : (memRead d c a l).touched = d.touched := rfl
@[simp] theorem memRead_freed (d : Dp) (c : Nat) (a : Dword) (l : Nat) : (memRead d c a l).freed = d.freed := rfl
@[simp] theorem memRead_stripes (d : Dp) (c : Nat) (a : Dword) (l : Nat) : (memRead d c a l).stripes = d.stripes := rfl
@[simp] theorem memRead_ringEnds (d : Dp) (c : Nat) (a : Dword) (l : Nat) : (memRead d c a l).ringEnds = d.ringEnds := rfl
@[simp] theorem memRead_lintels (d : Dp) (c : Nat) (a : Dword) (l : Nat) : (memRead d c a l).lintels = d.lintels := rfl
@[simp] theorem memRead_tiles (d : Dp) (c : Nat) (a : Dword) (l : Nat) : (memRead d c a l).tiles = d.tiles := rfl
@[simp] theorem memRead_mirCopies (d : Dp) (c : Nat) (a : Dword) (l : Nat) : (memRead d c a l).mirCopies = d.mirCopies := rfl
@[simp] theorem memRead_mirUpds (d : Dp) (c : Nat) (a : Dword) (l : Nat) : (memRead d c a l).mirUpds = d.mirUpds := rfl
@[simp] theorem memRead_rings (d : Dp) (c : Nat) (a : Dword) (l : Nat) : (memRead d c a l).rings = d.rings := rfl
@[simp] theorem memRead_cmpl (d : Dp) (c : Nat) (a : Dword) (l : Nat) : (memRead d c a l).cmpl = d.cmpl := rfl
@[simp] theorem memRead_held (d : Dp) (c : Nat) (a : Dword) (l : Nat) : (memRead d c a l).held = d.held := rfl
@[simp] theorem memRead_incRings (d : Dp) (c : Nat) (a : Dword) (l : Nat) : (memRead d c a l).incRings = d.incRings := rfl
@[simp] theorem memRead_trings (d : Dp) (c : Nat) (a : Dword) (l : Nat) : (memRead d c a l).trings = d.trings := rfl
@[simp] theorem memRead_kdbLo (d : Dp) (c : Nat) (a : Dword) (l : Nat) : (memRead d c a l).kdbLo = d.kdbLo := rfl
@[simp] theorem memRead_parts (d : Dp) (c : Nat) (a : Dword) (l : Nat) : (memRead d c a l).parts = d.parts := rfl
@[simp] theorem memRead_kcirq (d : Dp) (c : Nat) (a : Dword) (l : Nat) : (memRead d c a l).kcirq = d.kcirq := rfl
@[simp] theorem memRead_ctxRun (d : Dp) (c : Nat) (a : Dword) (l : Nat) : (memRead d c a l).ctxRun = d.ctxRun := rfl
@[simp] theorem memRead_inbound (d : Dp) (c : Nat) (a : Dword) (l : Nat) : (memRead d c a l).inbound = d.inbound := rfl
@[simp] theorem memRead_rxBuf (d : Dp) (c : Nat) (a : Dword) (l : Nat) : (memRead d c a l).rxBuf = d.rxBuf := rfl
@[simp] theorem memRead_backoffs (d : Dp) (c : Nat) (a : Dword) (l : Nat) : (memRead d c a l).backoffs = d.backoffs := rfl
@[simp] theorem memRead_links (d : Dp) (c : Nat) (a : Dword) (l : Nat) : (memRead d c a l).links = d.links := rfl
@[simp] theorem memRead_tm (d : Dp) (c : Nat) (a : Dword) (l : Nat) : (memRead d c a l).tm = d.tm := rfl
@[simp] theorem memRead_inc (d : Dp) (c : Nat) (a : Dword) (l : Nat) : (memRead d c a l).inc = d.inc := rfl
@[simp] theorem memRead_obs (d : Dp) (c : Nat) (a : Dword) (l : Nat) : (memRead d c a l).obs = d.obs := rfl
@[simp] theorem memRead_lastCourse (d : Dp) (c : Nat) (a : Dword) (l : Nat) : (memRead d c a l).lastCourse = d.lastCourse := rfl
@[simp] theorem memRead_flitErr (d : Dp) (c : Nat) (a : Dword) (l : Nat) : (memRead d c a l).flitErr = d.flitErr := rfl
@[simp] theorem memRead_free (d : Dp) (c : Nat) (a : Dword) (l : Nat) : (memRead d c a l).free = d.free := rfl

/-! ### pulse -/

@[simp] theorem pulse_joints (d : Dp) (n : Nat) : (pulse d n).joints = d.joints := rfl
@[simp] theorem pulse_ag (d : Dp) (n : Nat) : (pulse d n).ag = d.ag := rfl
@[simp] theorem pulse_departing (d : Dp) (n : Nat) : (pulse d n).departing = d.departing := rfl
@[simp] theorem pulse_net (d : Dp) (n : Nat) : (pulse d n).net = d.net := rfl
@[simp] theorem pulse_seq (d : Dp) (n : Nat) : (pulse d n).seq = d.seq := rfl
@[simp] theorem pulse_comb (d : Dp) (n : Nat) : (pulse d n).comb = d.comb := rfl
@[simp] theorem pulse_bricks (d : Dp) (n : Nat) : (pulse d n).bricks = d.bricks := rfl
@[simp] theorem pulse_touched (d : Dp) (n : Nat) : (pulse d n).touched = d.touched := rfl
@[simp] theorem pulse_freed (d : Dp) (n : Nat) : (pulse d n).freed = d.freed := rfl
@[simp] theorem pulse_stripes (d : Dp) (n : Nat) : (pulse d n).stripes = d.stripes := rfl
@[simp] theorem pulse_ringEnds (d : Dp) (n : Nat) : (pulse d n).ringEnds = d.ringEnds := rfl
@[simp] theorem pulse_lintels (d : Dp) (n : Nat) : (pulse d n).lintels = d.lintels := rfl
@[simp] theorem pulse_tiles (d : Dp) (n : Nat) : (pulse d n).tiles = d.tiles := rfl
@[simp] theorem pulse_mirCopies (d : Dp) (n : Nat) : (pulse d n).mirCopies = d.mirCopies := rfl
@[simp] theorem pulse_mirUpds (d : Dp) (n : Nat) : (pulse d n).mirUpds = d.mirUpds := rfl
@[simp] theorem pulse_rings (d : Dp) (n : Nat) : (pulse d n).rings = d.rings := rfl
@[simp] theorem pulse_cmpl (d : Dp) (n : Nat) : (pulse d n).cmpl = d.cmpl := rfl
@[simp] theorem pulse_held (d : Dp) (n : Nat) : (pulse d n).held = d.held := rfl
@[simp] theorem pulse_incRings (d : Dp) (n : Nat) : (pulse d n).incRings = d.incRings := rfl
@[simp] theorem pulse_trings (d : Dp) (n : Nat) : (pulse d n).trings = d.trings := rfl
@[simp] theorem pulse_kdbLo (d : Dp) (n : Nat) : (pulse d n).kdbLo = d.kdbLo := rfl
@[simp] theorem pulse_parts (d : Dp) (n : Nat) : (pulse d n).parts = d.parts := rfl
@[simp] theorem pulse_kcirq (d : Dp) (n : Nat) : (pulse d n).kcirq = d.kcirq := rfl
@[simp] theorem pulse_ctxRun (d : Dp) (n : Nat) : (pulse d n).ctxRun = d.ctxRun := rfl
@[simp] theorem pulse_inbound (d : Dp) (n : Nat) : (pulse d n).inbound = d.inbound := rfl
@[simp] theorem pulse_rxBuf (d : Dp) (n : Nat) : (pulse d n).rxBuf = d.rxBuf := rfl
@[simp] theorem pulse_backoffs (d : Dp) (n : Nat) : (pulse d n).backoffs = d.backoffs := rfl
@[simp] theorem pulse_links (d : Dp) (n : Nat) : (pulse d n).links = d.links := rfl
@[simp] theorem pulse_tm (d : Dp) (n : Nat) : (pulse d n).tm = d.tm := rfl
@[simp] theorem pulse_inc (d : Dp) (n : Nat) : (pulse d n).inc = d.inc := rfl
@[simp] theorem pulse_obs (d : Dp) (n : Nat) : (pulse d n).obs = d.obs := rfl
@[simp] theorem pulse_lastCourse (d : Dp) (n : Nat) : (pulse d n).lastCourse = d.lastCourse := rfl
@[simp] theorem pulse_flitErr (d : Dp) (n : Nat) : (pulse d n).flitErr = d.flitErr := rfl
@[simp] theorem pulse_free (d : Dp) (n : Nat) : (pulse d n).free = d.free := rfl

/-! ### fabOut -/

@[simp] theorem fabOut_joints (d : Dp) (x : FabOut) : (fabOut d x).joints = d.joints := rfl
@[simp] theorem fabOut_ag (d : Dp) (x : FabOut) : (fabOut d x).ag = d.ag := rfl
@[simp] theorem fabOut_departing (d : Dp) (x : FabOut) : (fabOut d x).departing = d.departing := rfl
@[simp] theorem fabOut_net (d : Dp) (x : FabOut) : (fabOut d x).net = d.net := rfl
@[simp] theorem fabOut_seq (d : Dp) (x : FabOut) : (fabOut d x).seq = d.seq := rfl
@[simp] theorem fabOut_comb (d : Dp) (x : FabOut) : (fabOut d x).comb = d.comb := rfl
@[simp] theorem fabOut_bricks (d : Dp) (x : FabOut) : (fabOut d x).bricks = d.bricks := rfl
@[simp] theorem fabOut_touched (d : Dp) (x : FabOut) : (fabOut d x).touched = d.touched := rfl
@[simp] theorem fabOut_freed (d : Dp) (x : FabOut) : (fabOut d x).freed = d.freed := rfl
@[simp] theorem fabOut_stripes (d : Dp) (x : FabOut) : (fabOut d x).stripes = d.stripes := rfl
@[simp] theorem fabOut_ringEnds (d : Dp) (x : FabOut) : (fabOut d x).ringEnds = d.ringEnds := rfl
@[simp] theorem fabOut_lintels (d : Dp) (x : FabOut) : (fabOut d x).lintels = d.lintels := rfl
@[simp] theorem fabOut_tiles (d : Dp) (x : FabOut) : (fabOut d x).tiles = d.tiles := rfl
@[simp] theorem fabOut_mirCopies (d : Dp) (x : FabOut) : (fabOut d x).mirCopies = d.mirCopies := rfl
@[simp] theorem fabOut_mirUpds (d : Dp) (x : FabOut) : (fabOut d x).mirUpds = d.mirUpds := rfl
@[simp] theorem fabOut_rings (d : Dp) (x : FabOut) : (fabOut d x).rings = d.rings := rfl
@[simp] theorem fabOut_cmpl (d : Dp) (x : FabOut) : (fabOut d x).cmpl = d.cmpl := rfl
@[simp] theorem fabOut_held (d : Dp) (x : FabOut) : (fabOut d x).held = d.held := rfl
@[simp] theorem fabOut_incRings (d : Dp) (x : FabOut) : (fabOut d x).incRings = d.incRings := rfl
@[simp] theorem fabOut_trings (d : Dp) (x : FabOut) : (fabOut d x).trings = d.trings := rfl
@[simp] theorem fabOut_kdbLo (d : Dp) (x : FabOut) : (fabOut d x).kdbLo = d.kdbLo := rfl
@[simp] theorem fabOut_parts (d : Dp) (x : FabOut) : (fabOut d x).parts = d.parts := rfl
@[simp] theorem fabOut_kcirq (d : Dp) (x : FabOut) : (fabOut d x).kcirq = d.kcirq := rfl
@[simp] theorem fabOut_ctxRun (d : Dp) (x : FabOut) : (fabOut d x).ctxRun = d.ctxRun := rfl
@[simp] theorem fabOut_inbound (d : Dp) (x : FabOut) : (fabOut d x).inbound = d.inbound := rfl
@[simp] theorem fabOut_rxBuf (d : Dp) (x : FabOut) : (fabOut d x).rxBuf = d.rxBuf := rfl
@[simp] theorem fabOut_backoffs (d : Dp) (x : FabOut) : (fabOut d x).backoffs = d.backoffs := rfl
@[simp] theorem fabOut_links (d : Dp) (x : FabOut) : (fabOut d x).links = d.links := rfl
@[simp] theorem fabOut_tm (d : Dp) (x : FabOut) : (fabOut d x).tm = d.tm := rfl
@[simp] theorem fabOut_inc (d : Dp) (x : FabOut) : (fabOut d x).inc = d.inc := rfl
@[simp] theorem fabOut_obs (d : Dp) (x : FabOut) : (fabOut d x).obs = d.obs := rfl
@[simp] theorem fabOut_lastCourse (d : Dp) (x : FabOut) : (fabOut d x).lastCourse = d.lastCourse := rfl
@[simp] theorem fabOut_flitErr (d : Dp) (x : FabOut) : (fabOut d x).flitErr = d.flitErr := rfl
@[simp] theorem fabOut_free (d : Dp) (x : FabOut) : (fabOut d x).free = d.free := rfl

/-! ### What goes out at the ports -/

@[simp] theorem memWrite_mem (d : Dp) (c : Nat) (a : Dword) (l v : Nat) :
    (memWrite d c a l v).port.mem = d.port.mem ++ [{ ctx := c, addr := a, len := l, data := v }] := rfl
@[simp] theorem memRead_mem (d : Dp) (c : Nat) (a : Dword) (l : Nat) :
    (memRead d c a l).port.mem = d.port.mem ++ [{ ctx := c, addr := a, len := l, data := 0, read := true }] := rfl
@[simp] theorem memWrite_fab (d : Dp) (c : Nat) (a : Dword) (l v : Nat) : (memWrite d c a l v).port.fab = d.port.fab := rfl
@[simp] theorem pulse_mem (d : Dp) (n : Nat) : (pulse d n).port.mem = d.port.mem := rfl
@[simp] theorem pulse_fab (d : Dp) (n : Nat) : (pulse d n).port.fab = d.port.fab := rfl
@[simp] theorem fabOut_mem (d : Dp) (x : FabOut) : (fabOut d x).port.mem = d.port.mem := rfl
@[simp] theorem fabOut_fab (d : Dp) (x : FabOut) : (fabOut d x).port.fab = d.port.fab ++ [x] := rfl

end Sys2Proof.Machine
end

