-- ==== Sys2Proof/Laws/Tables.lean ====
section
/-! SUPPORT. Sys2Proof/Laws/Tables.lean: the sparse tables: a read after a write to the same key gives the value written, a write leaves every other key alone, and the keys of a rising table stay rising. -/

namespace Sys2Proof.Machine

variable {α : Type}

/-! ### Read after write -/

@[simp] theorem fget_fput_self (m : FMap α) (k : Nat) (v : α) : fget (fput m k v) k = some v := by
  induction m with
  | nil => simp [fput, fget]
  | cons p m ih =>
    obtain ⟨j, w⟩ := p
    simp only [fput]
    split
    · simp [fget]
    · split
      · simp [fget]
      · next h => simp [fget, Ne.symm h, ih]

theorem fget_fput_ne (m : FMap α) {k j : Nat} (v : α) (h : j ≠ k) : fget (fput m k v) j = fget m j := by
  induction m with
  | nil => simp [fput, fget, Ne.symm h]
  | cons p m ih =>
    obtain ⟨i, w⟩ := p
    simp only [fput]
    split
    · simp [fget, Ne.symm h]
    · split
      · next e => subst e; simp [fget, Ne.symm h]
      · simp only [fget, ih]

@[simp] theorem fgetD_fput_self (m : FMap α) (k : Nat) (v d : α) : fgetD (fput m k v) k d = v := by simp [fgetD]

theorem fgetD_fput_ne (m : FMap α) {k j : Nat} (v d : α) (h : j ≠ k) : fgetD (fput m k v) j d = fgetD m j d := by
  simp [fgetD, fget_fput_ne m v h]

@[simp] theorem fget_fdel_self (m : FMap α) (k : Nat) : fget (fdel m k) k = none := by
  induction m with
  | nil => rfl
  | cons p m ih =>
    obtain ⟨j, w⟩ := p
    by_cases h : j = k
    · subst h
      simpa [fdel] using ih
    · have e : fdel ((j, w) :: m) k = (j, w) :: fdel m k := by simp [fdel, h]
      rw [e, fget, if_neg h, ih]

theorem fget_fdel_ne (m : FMap α) {k j : Nat} (h : j ≠ k) : fget (fdel m k) j = fget m j := by
  induction m with
  | nil => rfl
  | cons p m ih =>
    obtain ⟨i, w⟩ := p
    by_cases e : i = k
    · subst e
      simpa [fdel, fget, Ne.symm h] using ih
    · have : fdel ((i, w) :: m) k = (i, w) :: fdel m k := by simp [fdel, e]
      rw [this, fget, fget, ih]

/-- A map that keeps the keys maps what each key reads as. -/
theorem fget_map (m : FMap α) (f : α → α) (k : Nat) : fget (m.map (fun (p : Nat × α) => (p.1, f p.2)) : FMap α) k = (fget m k).map f := by
  induction m with
  | nil => rfl
  | cons p m ih =>
    obtain ⟨j, w⟩ := p
    simp only [List.map_cons, fget]
    split <;> simp_all

/-! ### Rising keys -/

theorem fput_keys_bound (m : FMap α) (k : Nat) (v : α) : ∀ p ∈ fput m k v, p = (k, v) ∨ p ∈ m := by
  induction m with
  | nil => simp [fput]
  | cons q m ih =>
    obtain ⟨j, w⟩ := q
    intro p hp
    simp only [fput] at hp
    split at hp
    · simpa using hp
    · split at hp
      · simp only [List.mem_cons] at hp ⊢; tauto
      · simp only [List.mem_cons] at hp ⊢
        rcases hp with h | h
        · exact .inr (.inl h)
        · rcases ih p h with h | h
          · exact .inl h
          · exact .inr (.inr h)

/-- A write keeps the keys rising. -/
theorem fput_rising (m : FMap α) (k : Nat) (v : α) (h : (m.map Prod.fst).Pairwise (· < ·)) : ((fput m k v).map Prod.fst).Pairwise (· < ·) := by
  induction m with
  | nil => simp [fput]
  | cons p m ih =>
    obtain ⟨j, w⟩ := p
    simp only [List.map_cons, List.pairwise_cons] at h
    simp only [fput]
    split
    · next hk =>
      simp only [List.map_cons, List.pairwise_cons]
      refine ⟨?_, h⟩
      intro a ha
      simp only [List.mem_cons] at ha
      rcases ha with rfl | ha
      · exact hk
      · exact lt_trans hk (h.1 a ha)
    · split
      · next _ e => subst e; simpa using h
      · next h1 h2 =>
        simp only [List.map_cons, List.pairwise_cons]
        refine ⟨?_, ih h.2⟩
        intro a ha
        obtain ⟨p, hp, rfl⟩ := List.mem_map.1 ha
        rcases fput_keys_bound m k v p hp with rfl | hp
        · exact lt_of_le_of_ne (Nat.le_of_not_lt h1) (Ne.symm h2)
        · exact h.1 _ (List.mem_map.2 ⟨p, hp, rfl⟩)

/-- A map over the entries that keeps the keys keeps them rising. -/
theorem map_rising (m : FMap α) (f : Nat × α → Nat × α) (hf : ∀ p, (f p).1 = p.1) (h : (m.map Prod.fst).Pairwise (· < ·)) :
    ((m.map f).map Prod.fst).Pairwise (· < ·) := by
  have : (m.map f).map Prod.fst = m.map Prod.fst := by simp [hf]
  rw [this]; exact h

/-- An inserted number keeps a list rising. -/
theorem mem_setInsert (k j : Nat) (l : List Nat) : j ∈ setInsert k l ↔ j = k ∨ j ∈ l := by
  induction l with
  | nil => simp [setInsert]
  | cons a l ih =>
    simp only [setInsert]
    split
    · simp
    · split
      · next e => subst e; simp
      · simp only [List.mem_cons, ih]; tauto

theorem setInsert_rising (k : Nat) (l : List Nat) (h : l.Pairwise (· < ·)) : (setInsert k l).Pairwise (· < ·) := by
  induction l with
  | nil => simp [setInsert]
  | cons a l ih =>
    simp only [List.pairwise_cons] at h
    simp only [setInsert]
    split
    · next hk =>
      simp only [List.pairwise_cons]
      refine ⟨?_, h⟩
      intro b hb
      rcases List.mem_cons.1 hb with rfl | hb
      · exact hk
      · exact lt_trans hk (h.1 b hb)
    · split
      · simpa using h
      · next h1 h2 =>
        simp only [List.pairwise_cons]
        refine ⟨?_, ih h.2⟩
        intro b hb
        rcases (mem_setInsert k b l).1 hb with rfl | hb
        · exact lt_of_le_of_ne (Nat.le_of_not_lt h1) (Ne.symm h2)
        · exact h.1 b hb

/-! ### Parts of the data path -/

@[simp] theorem jointOf_setJoint (d : Dp) (j : Nat) (x : Joint) : jointOf (setJoint d j x) j = x := by simp [jointOf]
theorem jointOf_setJoint_ne (d : Dp) {j k : Nat} (x : Joint) (h : k ≠ j) : jointOf (setJoint d j x) k = jointOf d k := by
  simp [jointOf, fgetD_fput_ne _ _ _ h]
@[simp] theorem tileOf_setTile (d : Dp) (t : Nat) (x : Tile) : tileOf (setTile d t x) t = x := by simp [tileOf]
theorem tileOf_setTile_ne (d : Dp) {t k : Nat} (x : Tile) (h : k ≠ t) : tileOf (setTile d t x) k = tileOf d k := by
  simp [tileOf, fgetD_fput_ne _ _ _ h]
@[simp] theorem partOf_setPart (d : Dp) (p : BitVec 4) (x : Part) : partOf (setPart d p x) p = x := by simp [partOf]
theorem partOf_setPart_ne (d : Dp) {p q : BitVec 4} (x : Part) (h : q ≠ p) : partOf (setPart d p x) q = partOf d q := by
  have : q.toNat ≠ p.toNat := fun e => h (BitVec.eq_of_toNat_eq e)
  simp [partOf, fgetD_fput_ne _ _ _ this]
@[simp] theorem agOf_setAg (d : Dp) (j : Nat) (x : AgReg) : agOf (setAg d j x) j = x := by simp [agOf]
@[simp] theorem linkOf_setLink (d : Dp) (r : Nat) (x : Link) : linkOf (setLink d r x) r = x := by simp [linkOf]
theorem linkOf_setLink_ne (d : Dp) {r k : Nat} (x : Link) (h : k ≠ r) : linkOf (setLink d r x) k = linkOf d k := by
  simp [linkOf, fgetD_fput_ne _ _ _ h]
@[simp] theorem ringOf_setRing (d : Dp) (r : RingId) (x : SubRing) : ringOf (setRing d r x) r = x := by simp [ringOf]
@[simp] theorem cmplOf_setCmpl (d : Dp) (o : Owner) (x : OutRing) : cmplOf (setCmpl d o x) o = x := by simp [cmplOf]
@[simp] theorem incRingOf_setIncRing (d : Dp) (p : BitVec 4) (x : OutRing) : incRingOf (setIncRing d p x) p = x := by simp [incRingOf]
@[simp] theorem tringOf_setTring (d : Dp) (k : Nat) (x : OutRing) : tringOf (setTring d k x) k = x := by simp [tringOf]

/-- Rings have keys of their own. -/
theorem ringKey_injective (a b : RingId) (h : ringKey a = ringKey b) : a = b := by
  cases a with
  | keeper => cases b with
    | keeper => rfl
    | part p r => simp only [ringKey] at h; have := p.isLt; have := r.isLt; omega
  | part p r => cases b with
    | keeper => simp only [ringKey] at h; have := p.isLt; have := r.isLt; omega
    | part q u =>
      simp only [ringKey] at h
      have := r.isLt; have := u.isLt
      have hp : p.toNat = q.toNat := by omega
      have hr : r.toNat = u.toNat := by omega
      rw [BitVec.eq_of_toNat_eq hp, BitVec.eq_of_toNat_eq hr]

theorem ringOf_setRing_ne (d : Dp) {r q : RingId} (x : SubRing) (h : q ≠ r) : ringOf (setRing d r x) q = ringOf d q := by
  have : ringKey q ≠ ringKey r := fun e => h (ringKey_injective q r e)
  simp [ringOf, fgetD_fput_ne _ _ _ this]

end Sys2Proof.Machine
end

