-- ==== Sys2Proof/Laws/Ops.lean ====
section
/-! SUPPORT. Sys2Proof/Laws/Ops.lean: what each shared operation can do: counters, trace records, reports and hods change their own parts of the data path and nothing else. Provers cite these and need not unfold the operations. -/

namespace Sys2Proof.Machine

/-! ### Counters -/

theorem bumpP_frame (e : Env) (d : Dp) (p : BitVec 4) (i n : Nat) : ∃ m, bumpP e d p i n = { d with obs := { d.obs with pctr := m } } := by
  unfold bumpP; split
  · exact ⟨_, rfl⟩
  · exact ⟨d.obs.pctr, rfl⟩

theorem bumpK_frame (e : Env) (d : Dp) (k u c n : Nat) : ∃ m, bumpK e d k u c n = { d with obs := { d.obs with kctr := m } } := by
  unfold bumpK; split
  · exact ⟨_, rfl⟩
  · exact ⟨d.obs.kctr, rfl⟩

theorem bumpT_frame (e : Env) (d : Dp) (t c : Nat) : ∃ m, bumpT e d t c = { d with obs := { d.obs with kctr := m } } := bumpK_frame e d 0 t c 1

/-- What counting can change: the unit counters. -/
abbrev CountFrame (d d2 : Dp) : Prop := ∃ m, d2 = { d with obs := { d.obs with kctr := m } }

theorem CountFrame.trans {a b c : Dp} (h : CountFrame a b) (g : CountFrame b c) : CountFrame a c := by
  obtain ⟨_, rfl⟩ := h
  obtain ⟨m, rfl⟩ := g
  exact ⟨m, rfl⟩

theorem countPort_frame (e : Env) (vc : VC) (k n : Nat) (d : Dp) (u : Nat) : CountFrame d (countPort e vc k n d u) := by
  unfold countPort
  exact ((CountFrame.trans (bumpK_frame e d 1 _ 0 k) (bumpK_frame e _ 1 _ 1 n))).trans (bumpK_frame e _ 1 _ _ n)

theorem countPorts_frame (e : Env) (vc : VC) (k n : Nat) (l : List Nat) (d : Dp) : CountFrame d (countPorts e vc k n l d) := by
  induction l generalizing d with
  | nil => exact ⟨d.obs.kctr, rfl⟩
  | cons u l ih => exact (countPort_frame e vc k n d u).trans (ih (countPort e vc k n d u))

theorem reportHod_frame (e : Env) (src : Source) (back : Bool) (d : Dp) : CountFrame d (reportHod e src back d) := countPorts_frame e .mgmt 1 2 _ d

/-! ### Trace records -/

/-- What writing trace records can change: buffers of tiles, and counters. -/
abbrev TraceFrame (d d2 : Dp) : Prop :=
  (∃ ts k p, d2 = { d with tiles := ts, obs := { d.obs with kctr := k, pctr := p } }) ∧ ∀ t, ∃ b, tileOf d2 t = { tileOf d t with trace := b }

theorem TraceFrame.refl (d : Dp) : TraceFrame d d := ⟨⟨d.tiles, d.obs.kctr, d.obs.pctr, rfl⟩, fun t => ⟨(tileOf d t).trace, rfl⟩⟩

theorem TraceFrame.trans {a b c : Dp} (h : TraceFrame a b) (g : TraceFrame b c) : TraceFrame a c := by
  obtain ⟨⟨ts, k, p, rfl⟩, h⟩ := h
  obtain ⟨⟨us, l, q, rfl⟩, g⟩ := g
  refine ⟨⟨us, l, q, rfl⟩, fun t => ?_⟩
  obtain ⟨x, hx⟩ := h t
  obtain ⟨y, hy⟩ := g t
  exact ⟨y, by rw [hy, hx]⟩

theorem TraceFrame.setTrace (d : Dp) (t : Nat) (b : TBuf) : TraceFrame d (setTile d t { tileOf d t with trace := b }) := by
  refine ⟨⟨_, d.obs.kctr, d.obs.pctr, rfl⟩, fun k => ?_⟩
  by_cases h : k = t
  · subst h; exact ⟨b, by simp⟩
  · exact ⟨(tileOf d k).trace, by rw [tileOf_setTile_ne _ _ h]⟩

theorem TraceFrame.bumpK (e : Env) (d : Dp) (k u c n : Nat) : TraceFrame d (bumpK e d k u c n) := by
  obtain ⟨m, h⟩ := bumpK_frame e d k u c n
  exact ⟨⟨d.tiles, m, d.obs.pctr, h⟩, fun t => ⟨(tileOf d t).trace, by rw [h]; rfl⟩⟩

theorem TraceFrame.bumpP (e : Env) (d : Dp) (p : BitVec 4) (i n : Nat) : TraceFrame d (bumpP e d p i n) := by
  obtain ⟨m, h⟩ := bumpP_frame e d p i n
  exact ⟨⟨d.tiles, d.obs.kctr, m, h⟩, fun t => ⟨(tileOf d t).trace, by rw [h]; rfl⟩⟩

theorem TraceFrame.bumpT (e : Env) (d : Dp) (t i : Nat) : TraceFrame d (bumpT e d t i) := TraceFrame.bumpK e d 0 t i 1

theorem countLost_frame (e : Env) (d : Dp) (t dest n : Nat) : TraceFrame d (countLost e d t dest n) := by
  unfold countLost
  simp only
  split
  · exact (TraceFrame.bumpK e d 0 t 36 n).trans (TraceFrame.bumpP e _ _ 15 n)
  · exact TraceFrame.bumpK e d 0 t 36 n

theorem traceOwe_frame (d : Dp) (t dest n : Nat) : TraceFrame d (traceOwe d t dest n) := TraceFrame.setTrace d t _

theorem traceLose_frame (e : Env) (d : Dp) (t dest n : Nat) : TraceFrame d (traceLose e d t dest n) := by
  exact (traceOwe_frame d t dest n).trans (countLost_frame e _ t dest n)

theorem traceReturn_frame (t : Nat) (d : Dp) (r : TRec) : TraceFrame d (traceReturn t d r) := by
  unfold traceReturn
  split
  · exact traceOwe_frame d t _ _
  · exact TraceFrame.refl d

theorem traceOverwrite_frame (e : Env) (d : Dp) (t : Nat) : TraceFrame d (traceOverwrite e d t) := by
  unfold traceOverwrite
  simp only
  split
  · exact TraceFrame.refl d
  · split
    · exact (TraceFrame.setTrace d t _).trans (traceReturn_frame t _ _)
    · split
      · exact TraceFrame.setTrace d t _
      · exact (TraceFrame.setTrace d t _).trans (traceLose_frame e _ t _ 1)

theorem tracePut_frame (e : Env) (d : Dp) (t : Nat) (r : TRec) : TraceFrame d (tracePut e d t r) := by
  unfold tracePut
  simp only
  split
  · exact (TraceFrame.setTrace d t _).trans ((traceOverwrite_frame e _ t).trans (TraceFrame.bumpT e _ t 35))
  · exact (TraceFrame.setTrace d t _).trans (TraceFrame.bumpT e _ t 35)

theorem traceDrop_frame (e : Env) (d : Dp) (t dest : Nat) : TraceFrame d (traceDrop e d t dest).2 := by
  unfold traceDrop
  simp only
  split
  · exact TraceFrame.refl d
  · split
    · exact (TraceFrame.setTrace d t _).trans (tracePut_frame e _ t _)
    · split
      · exact (TraceFrame.setTrace d t _).trans (TraceFrame.bumpK e _ 0 t 35 1)
      · exact TraceFrame.refl d

/-- R408 to R411. Writing a trace record changes trace buffers and counters only. -/
theorem trace_frame (e : Env) (d : Dp) (t : Nat) (g : Option Nat) (r : TRec) : TraceFrame d (trace e d t g r) := by
  unfold trace
  extract_lets m on admitted r dest gone
  split
  · exact TraceFrame.refl d
  · split
    · exact traceLose_frame e d t _ 1
    · refine (traceDrop_frame e d t dest).trans ?_
      cases (traceDrop e d t dest) with
      | mk ok d2 =>
        simp only
        split
        · exact tracePut_frame e d2 t _
        · exact traceLose_frame e d2 t dest 1

/-- R428. Taking a hod restarts the idle time of its tile and counts it. -/
theorem tookHod_frame (e : Env) (d : Dp) (t : Nat) (vc : VC) :
    ∃ ts k, tookHod e d t vc = { d with tiles := ts, obs := { d.obs with kctr := k } } := by
  unfold tookHod
  cases vc
  · obtain ⟨m, h⟩ := bumpT_frame e (setTile d t { tileOf d t with idleSince := gtInterp e, idleCyc := now e }) t 6
    exact ⟨_, m, h⟩
  · obtain ⟨m, h⟩ := bumpT_frame e (setTile d t { tileOf d t with idleSince := gtInterp e, idleCyc := now e }) t 7
    exact ⟨_, m, h⟩
  · obtain ⟨m, h⟩ := bumpT_frame e (setTile d t { tileOf d t with idleSince := gtInterp e, idleCyc := (tileOf d t).idleCyc }) t 8
    exact ⟨_, m, h⟩
  · exact ⟨_, d.obs.kctr, rfl⟩

/-! ### Reports -/

/-- R358. A report enters its source's buffer, adds to one there, or (a NOTICE that finds the buffer full) is only counted. -/
theorem report_frame (e : Env) (d : Dp) (src : Source) (r : Report) :
    ∃ l k, report e d src r = { d with inc := { d.inc with reports := l }, obs := { d.obs with kctr := k } } := by
  unfold report
  extract_lets
  split
  · exact ⟨_, d.obs.kctr, rfl⟩
  · split
    · obtain ⟨m, h⟩ := bumpK_frame e d 4 0 2 1
      exact ⟨d.inc.reports, m, h⟩
    · obtain ⟨m, h⟩ := reportHod_frame e src false { d with inc := { d.inc with reports := d.inc.reports ++ [(src, r)] } }
      exact ⟨d.inc.reports ++ [(src, r)], m, h⟩

/-! ### Flit errors (R31) -/

theorem eccReport_frame (e : Env) (d : Dp) (r p : Nat) (vc : VC) :
    ∃ l k, eccReport e d r p vc = { d with inc := { d.inc with reports := l }, obs := { d.obs with kctr := k } } := by
  unfold eccReport
  obtain ⟨m, h⟩ := bumpK_frame e d 1 (r * 8 + p) 8 1
  obtain ⟨l, k, g⟩ := report_frame e (bumpK e d 1 (r * 8 + p) 8 1) (.router r) { mkReport e (mkKey e 2 (r * 8 + p) .meshEcc) none with d2 := BitVec.ofNat 32 (vcIndex vc) }
  rw [g, h]
  exact ⟨l, k, rfl⟩

/-- R31. A way takes the first error that waits on it, and changes counters and reports besides. -/
theorem crossing_frame (e : Env) (d : Dp) (vc : VC) (l : List Nat) :
    ∃ r k f, (crossing e d vc l).1 = { d with flitErr := f, inc := { d.inc with reports := r }, obs := { d.obs with kctr := k } } := by
  unfold crossing
  split
  · exact ⟨d.inc.reports, d.obs.kctr, d.flitErr, rfl⟩
  · rename_i x rest _
    split
    · obtain ⟨r, k, h⟩ := eccReport_frame e { d with flitErr := rest } (x.1 / 8) (x.1 % 8) vc
      exact ⟨r, k, rest, h⟩
    · obtain ⟨k, h⟩ := bumpK_frame e { d with flitErr := rest } 1 x.1 7 1
      exact ⟨d.inc.reports, k, rest, h⟩

/-- R31. A hod crosses a way on which no error waits, and nothing changes. -/
theorem crossing_clear (e : Env) (d : Dp) (vc : VC) (l : List Nat) (h : takeFirst (fun x => l.contains x.1) d.flitErr = none) :
    crossing e d vc l = (d, true) := by unfold crossing; rw [h]

/-! ### Hods -/

/-- R374. Placing adds one hod behind those of the net and numbers it. -/
theorem place_frame (e : Env) (d : Dp) (src dst : Port) (vc : VC) (p : BitVec 4) (b : HodBody) (n : Nat) :
    ∃ h, h.seq = d.seq ∧ h.src = src ∧ h.dst = dst ∧ h.vc = vc ∧ h.part = p ∧ h.body = b
      ∧ place e d src dst vc p b n = { d with net := d.net ++ [h], seq := d.seq + 1 } :=
  ⟨_, rfl, rfl, rfl, rfl, rfl, rfl, rfl⟩

/-- R28. Sending adds one hod behind those of the net, numbers it, and counts it along its route. -/
theorem sendAt_frame (e : Env) (d : Dp) (src dst : Port) (vc : VC) (p : BitVec 4) (b : HodBody) (n : Nat) :
    ∃ h k, h.seq = d.seq ∧ h.src = src ∧ h.dst = dst ∧ h.vc = vc ∧ h.part = p ∧ h.body = b
      ∧ sendAt e d src dst vc p b n = { d with net := d.net ++ [h], seq := d.seq + 1, obs := { d.obs with kctr := k } } := by
  obtain ⟨m, hm⟩ := countPorts_frame e vc b.hods b.flits (hodPorts e src dst b) d
  unfold sendAt
  rw [hm]
  obtain ⟨h, h1, h2, h3, h4, h5, h6, h7⟩ := place_frame e { d with obs := { d.obs with kctr := m } } src dst vc p b n
  exact ⟨h, m, h1, h2, h3, h4, h5, h6, h7⟩

theorem send_frame (e : Env) (d : Dp) (src dst : Port) (vc : VC) (p : BitVec 4) (b : HodBody) :
    ∃ h k, h.seq = d.seq ∧ h.src = src ∧ h.dst = dst ∧ h.vc = vc ∧ h.part = p ∧ h.body = b
      ∧ send e d src dst vc p b = { d with net := d.net ++ [h], seq := d.seq + 1, obs := { d.obs with kctr := k } } :=
  sendAt_frame e d src dst vc p b (now e)

theorem sendHod_frame (e : Env) (d : Dp) (x : Hod) :
    ∃ h k, h.seq = d.seq ∧ h.src = x.src ∧ h.dst = x.dst ∧ h.vc = x.vc ∧ h.part = x.part ∧ h.body = x.body
      ∧ sendHod e d x = { d with net := d.net ++ [h], seq := d.seq + 1, obs := { d.obs with kctr := k } } :=
  send_frame e d x.src x.dst x.vc x.part x.body

/-- R34. A hod of a group enters the net as any hod does; only what its ports count depends on those before it. -/
theorem sendOf_frame (e : Env) (before : List Hod) (d : Dp) (x : Hod) :
    ∃ h k, h.seq = d.seq ∧ h.src = x.src ∧ h.dst = x.dst ∧ h.vc = x.vc ∧ h.part = x.part ∧ h.body = x.body
      ∧ sendOf e before d x = { d with net := d.net ++ [h], seq := d.seq + 1, obs := { d.obs with kctr := k } } := by
  unfold sendOf
  split
  · extract_lets seen
    obtain ⟨m, hm⟩ := countPorts_frame e x.vc x.body.hods x.body.flits ((hodPorts e x.src x.dst x.body).filter (fun u => !seen.contains u)) d
    rw [hm]
    obtain ⟨h, h1, h2, h3, h4, h5, h6, h7⟩ := place_frame e { d with obs := { d.obs with kctr := m } } x.src x.dst x.vc x.part x.body (now e)
    exact ⟨h, m, h1, h2, h3, h4, h5, h6, h7⟩
  · exact sendHod_frame e d x

theorem sendFrom_frame (e : Env) (l before : List Hod) (d : Dp) :
    ∃ hs k, hs.map (fun h => (h.src, h.dst, h.vc, h.body)) = l.map (fun h => (h.src, h.dst, h.vc, h.body))
      ∧ sendFrom e before l d = { d with net := d.net ++ hs, seq := d.seq + l.length, obs := { d.obs with kctr := k } } := by
  induction l generalizing d before with
  | nil => exact ⟨[], d.obs.kctr, rfl, by simp [sendFrom]⟩
  | cons x l ih =>
    obtain ⟨h, k, _, h2, h3, h4, _, h6, hd⟩ := sendOf_frame e before d x
    obtain ⟨hs, m, hp, hs2⟩ := ih (before ++ [x]) (sendOf e before d x)
    refine ⟨h :: hs, m, ?_, ?_⟩
    · simp [h2, h3, h4, h6, hp]
    · rw [sendFrom, hs2, hd]
      simp [Nat.add_assoc, Nat.add_comm 1]

theorem sendAll_frame (e : Env) (l : List Hod) (d : Dp) :
    ∃ hs k, hs.map (fun h => (h.src, h.dst, h.vc, h.body)) = l.map (fun h => (h.src, h.dst, h.vc, h.body))
      ∧ sendAll e l d = { d with net := d.net ++ hs, seq := d.seq + l.length, obs := { d.obs with kctr := k } } := sendFrom_frame e l [] d

/-! ### Field by field -/

@[simp] theorem bumpP_joints (e : Env) (d : Dp) (p : BitVec 4) (i n : Nat) : (bumpP e d p i n).joints = d.joints := by obtain ⟨_, h⟩ := bumpP_frame e d p i n; rw [h]
@[simp] theorem bumpP_ag (e : Env) (d : Dp) (p : BitVec 4) (i n : Nat) : (bumpP e d p i n).ag = d.ag := by obtain ⟨_, h⟩ := bumpP_frame e d p i n; rw [h]
@[simp] theorem bumpP_departing (e : Env) (d : Dp) (p : BitVec 4) (i n : Nat) : (bumpP e d p i n).departing = d.departing := by obtain ⟨_, h⟩ := bumpP_frame e d p i n; rw [h]
@[simp] theorem bumpP_net (e : Env) (d : Dp) (p : BitVec 4) (i n : Nat) : (bumpP e d p i n).net = d.net := by obtain ⟨_, h⟩ := bumpP_frame e d p i n; rw [h]
@[simp] theorem bumpP_seq (e : Env) (d : Dp) (p : BitVec 4) (i n : Nat) : (bumpP e d p i n).seq = d.seq := by obtain ⟨_, h⟩ := bumpP_frame e d p i n; rw [h]
@[simp] theorem bumpP_comb (e : Env) (d : Dp) (p : BitVec 4) (i n : Nat) : (bumpP e d p i n).comb = d.comb := by obtain ⟨_, h⟩ := bumpP_frame e d p i n; rw [h]
@[simp] theorem bumpP_bricks (e : Env) (d : Dp) (p : BitVec 4) (i n : Nat) : (bumpP e d p i n).bricks = d.bricks := by obtain ⟨_, h⟩ := bumpP_frame e d p i n; rw [h]
@[simp] theorem bumpP_touched (e : Env) (d : Dp) (p : BitVec 4) (i n : Nat) : (bumpP e d p i n).touched = d.touched := by obtain ⟨_, h⟩ := bumpP_frame e d p i n; rw [h]
@[simp] theorem bumpP_freed (e : Env) (d : Dp) (p : BitVec 4) (i n : Nat) : (bumpP e d p i n).freed = d.freed := by obtain ⟨_, h⟩ := bumpP_frame e d p i n; rw [h]
@[simp] theorem bumpP_stripes (e : Env) (d : Dp) (p : BitVec 4) (i n : Nat) : (bumpP e d p i n).stripes = d.stripes := by obtain ⟨_, h⟩ := bumpP_frame e d p i n; rw [h]
@[simp] theorem bumpP_ringEnds (e : Env) (d : Dp) (p : BitVec 4) (i n : Nat) : (bumpP e d p i n).ringEnds = d.ringEnds := by obtain ⟨_, h⟩ := bumpP_frame e d p i n; rw [h]
@[simp] theorem bumpP_lintels (e : Env) (d : Dp) (p : BitVec 4) (i n : Nat) : (bumpP e d p i n).lintels = d.lintels := by obtain ⟨_, h⟩ := bumpP_frame e d p i n; rw [h]
@[simp] theorem bumpP_tiles (e : Env) (d : Dp) (p : BitVec 4) (i n : Nat) : (bumpP e d p i n).tiles = d.tiles := by obtain ⟨_, h⟩ := bumpP_frame e d p i n; rw [h]
@[simp] theorem bumpP_mirCopies (e : Env) (d : Dp) (p : BitVec 4) (i n : Nat) : (bumpP e d p i n).mirCopies = d.mirCopies := by obtain ⟨_, h⟩ := bumpP_frame e d p i n; rw [h]
@[simp] theorem bumpP_mirUpds (e : Env) (d : Dp) (p : BitVec 4) (i n : Nat) : (bumpP e d p i n).mirUpds = d.mirUpds := by obtain ⟨_, h⟩ := bumpP_frame e d p i n; rw [h]
@[simp] theorem bumpP_rings (e : Env) (d : Dp) (p : BitVec 4) (i n : Nat) : (bumpP e d p i n).rings = d.rings := by obtain ⟨_, h⟩ := bumpP_frame e d p i n; rw [h]
@[simp] theorem bumpP_cmpl (e : Env) (d : Dp) (p : BitVec 4) (i n : Nat) : (bumpP e d p i n).cmpl = d.cmpl := by obtain ⟨_, h⟩ := bumpP_frame e d p i n; rw [h]
@[simp] theorem bumpP_held (e : Env) (d : Dp) (p : BitVec 4) (i n : Nat) : (bumpP e d p i n).held = d.held := by obtain ⟨_, h⟩ := bumpP_frame e d p i n; rw [h]
@[simp] theorem bumpP_incRings (e : Env) (d : Dp) (p : BitVec 4) (i n : Nat) : (bumpP e d p i n).incRings = d.incRings := by obtain ⟨_, h⟩ := bumpP_frame e d p i n; rw [h]
@[simp] theorem bumpP_trings (e : Env) (d : Dp) (p : BitVec 4) (i n : Nat) : (bumpP e d p i n).trings = d.trings := by obtain ⟨_, h⟩ := bumpP_frame e d p i n; rw [h]
@[simp] theorem bumpP_kdbLo (e : Env) (d : Dp) (p : BitVec 4) (i n : Nat) : (bumpP e d p i n).kdbLo = d.kdbLo := by obtain ⟨_, h⟩ := bumpP_frame e d p i n; rw [h]
@[simp] theorem bumpP_parts (e : Env) (d : Dp) (p : BitVec 4) (i n : Nat) : (bumpP e d p i n).parts = d.parts := by obtain ⟨_, h⟩ := bumpP_frame e d p i n; rw [h]
@[simp] theorem bumpP_kcirq (e : Env) (d : Dp) (p : BitVec 4) (i n : Nat) : (bumpP e d p i n).kcirq = d.kcirq := by obtain ⟨_, h⟩ := bumpP_frame e d p i n; rw [h]
@[simp] theorem bumpP_ctxRun (e : Env) (d : Dp) (p : BitVec 4) (i n : Nat) : (bumpP e d p i n).ctxRun = d.ctxRun := by obtain ⟨_, h⟩ := bumpP_frame e d p i n; rw [h]
@[simp] theorem bumpP_inbound (e : Env) (d : Dp) (p : BitVec 4) (i n : Nat) : (bumpP e d p i n).inbound = d.inbound := by obtain ⟨_, h⟩ := bumpP_frame e d p i n; rw [h]
@[simp] theorem bumpP_rxBuf (e : Env) (d : Dp) (p : BitVec 4) (i n : Nat) : (bumpP e d p i n).rxBuf = d.rxBuf := by obtain ⟨_, h⟩ := bumpP_frame e d p i n; rw [h]
@[simp] theorem bumpP_backoffs (e : Env) (d : Dp) (p : BitVec 4) (i n : Nat) : (bumpP e d p i n).backoffs = d.backoffs := by obtain ⟨_, h⟩ := bumpP_frame e d p i n; rw [h]
@[simp] theorem bumpP_links (e : Env) (d : Dp) (p : BitVec 4) (i n : Nat) : (bumpP e d p i n).links = d.links := by obtain ⟨_, h⟩ := bumpP_frame e d p i n; rw [h]
@[simp] theorem bumpP_tm (e : Env) (d : Dp) (p : BitVec 4) (i n : Nat) : (bumpP e d p i n).tm = d.tm := by obtain ⟨_, h⟩ := bumpP_frame e d p i n; rw [h]
@[simp] theorem bumpP_inc (e : Env) (d : Dp) (p : BitVec 4) (i n : Nat) : (bumpP e d p i n).inc = d.inc := by obtain ⟨_, h⟩ := bumpP_frame e d p i n; rw [h]
@[simp] theorem bumpP_port (e : Env) (d : Dp) (p : BitVec 4) (i n : Nat) : (bumpP e d p i n).port = d.port := by obtain ⟨_, h⟩ := bumpP_frame e d p i n; rw [h]
@[simp] theorem bumpP_lastCourse (e : Env) (d : Dp) (p : BitVec 4) (i n : Nat) : (bumpP e d p i n).lastCourse = d.lastCourse := by obtain ⟨_, h⟩ := bumpP_frame e d p i n; rw [h]
@[simp] theorem bumpP_flitErr (e : Env) (d : Dp) (p : BitVec 4) (i n : Nat) : (bumpP e d p i n).flitErr = d.flitErr := by obtain ⟨_, h⟩ := bumpP_frame e d p i n; rw [h]
@[simp] theorem bumpP_free (e : Env) (d : Dp) (p : BitVec 4) (i n : Nat) : (bumpP e d p i n).free = d.free := by obtain ⟨_, h⟩ := bumpP_frame e d p i n; rw [h]
@[simp] theorem bumpK_joints (e : Env) (d : Dp) (k u c n : Nat) : (bumpK e d k u c n).joints = d.joints := by obtain ⟨_, h⟩ := bumpK_frame e d k u c n; rw [h]
@[simp] theorem bumpK_ag (e : Env) (d : Dp) (k u c n : Nat) : (bumpK e d k u c n).ag = d.ag := by obtain ⟨_, h⟩ := bumpK_frame e d k u c n; rw [h]
@[simp] theorem bumpK_departing (e : Env) (d : Dp) (k u c n : Nat) : (bumpK e d k u c n).departing = d.departing := by obtain ⟨_, h⟩ := bumpK_frame e d k u c n; rw [h]
@[simp] theorem bumpK_net (e : Env) (d : Dp) (k u c n : Nat) : (bumpK e d k u c n).net = d.net := by obtain ⟨_, h⟩ := bumpK_frame e d k u c n; rw [h]
@[simp] theorem bumpK_seq (e : Env) (d : Dp) (k u c n : Nat) : (bumpK e d k u c n).seq = d.seq := by obtain ⟨_, h⟩ := bumpK_frame e d k u c n; rw [h]
@[simp] theorem bumpK_comb (e : Env) (d : Dp) (k u c n : Nat) : (bumpK e d k u c n).comb = d.comb := by obtain ⟨_, h⟩ := bumpK_frame e d k u c n; rw [h]
@[simp] theorem bumpK_bricks (e : Env) (d : Dp) (k u c n : Nat) : (bumpK e d k u c n).bricks = d.bricks := by obtain ⟨_, h⟩ := bumpK_frame e d k u c n; rw [h]
@[simp] theorem bumpK_touched (e : Env) (d : Dp) (k u c n : Nat) : (bumpK e d k u c n).touched = d.touched := by obtain ⟨_, h⟩ := bumpK_frame e d k u c n; rw [h]
@[simp] theorem bumpK_freed (e : Env) (d : Dp) (k u c n : Nat) : (bumpK e d k u c n).freed = d.freed := by obtain ⟨_, h⟩ := bumpK_frame e d k u c n; rw [h]
@[simp] theorem bumpK_stripes (e : Env) (d : Dp) (k u c n : Nat) : (bumpK e d k u c n).stripes = d.stripes := by obtain ⟨_, h⟩ := bumpK_frame e d k u c n; rw [h]
@[simp] theorem bumpK_ringEnds (e : Env) (d : Dp) (k u c n : Nat) : (bumpK e d k u c n).ringEnds = d.ringEnds := by obtain ⟨_, h⟩ := bumpK_frame e d k u c n; rw [h]
@[simp] theorem bumpK_lintels (e : Env) (d : Dp) (k u c n : Nat) : (bumpK e d k u c n).lintels = d.lintels := by obtain ⟨_, h⟩ := bumpK_frame e d k u c n; rw [h]
@[simp] theorem bumpK_tiles (e : Env) (d : Dp) (k u c n : Nat) : (bumpK e d k u c n).tiles = d.tiles := by obtain ⟨_, h⟩ := bumpK_frame e d k u c n; rw [h]
@[simp] theorem bumpK_mirCopies (e : Env) (d : Dp) (k u c n : Nat) : (bumpK e d k u c n).mirCopies = d.mirCopies := by obtain ⟨_, h⟩ := bumpK_frame e d k u c n; rw [h]
@[simp] theorem bumpK_mirUpds (e : Env) (d : Dp) (k u c n : Nat) : (bumpK e d k u c n).mirUpds = d.mirUpds := by obtain ⟨_, h⟩ := bumpK_frame e d k u c n; rw [h]
@[simp] theorem bumpK_rings (e : Env) (d : Dp) (k u c n : Nat) : (bumpK e d k u c n).rings = d.rings := by obtain ⟨_, h⟩ := bumpK_frame e d k u c n; rw [h]
@[simp] theorem bumpK_cmpl (e : Env) (d : Dp) (k u c n : Nat) : (bumpK e d k u c n).cmpl = d.cmpl := by obtain ⟨_, h⟩ := bumpK_frame e d k u c n; rw [h]
@[simp] theorem bumpK_held (e : Env) (d : Dp) (k u c n : Nat) : (bumpK e d k u c n).held = d.held := by obtain ⟨_, h⟩ := bumpK_frame e d k u c n; rw [h]
@[simp] theorem bumpK_incRings (e : Env) (d : Dp) (k u c n : Nat) : (bumpK e d k u c n).incRings = d.incRings := by obtain ⟨_, h⟩ := bumpK_frame e d k u c n; rw [h]
@[simp] theorem bumpK_trings (e : Env) (d : Dp) (k u c n : Nat) : (bumpK e d k u c n).trings = d.trings := by obtain ⟨_, h⟩ := bumpK_frame e d k u c n; rw [h]
@[simp] theorem bumpK_kdbLo (e : Env) (d : Dp) (k u c n : Nat) : (bumpK e d k u c n).kdbLo = d.kdbLo := by obtain ⟨_, h⟩ := bumpK_frame e d k u c n; rw [h]
@[simp] theorem bumpK_parts (e : Env) (d : Dp) (k u c n : Nat) : (bumpK e d k u c n).parts = d.parts := by obtain ⟨_, h⟩ := bumpK_frame e d k u c n; rw [h]
@[simp] theorem bumpK_kcirq (e : Env) (d : Dp) (k u c n : Nat) : (bumpK e d k u c n).kcirq = d.kcirq := by obtain ⟨_, h⟩ := bumpK_frame e d k u c n; rw [h]
@[simp] theorem bumpK_ctxRun (e : Env) (d : Dp) (k u c n : Nat) : (bumpK e d k u c n).ctxRun = d.ctxRun := by obtain ⟨_, h⟩ := bumpK_frame e d k u c n; rw [h]
@[simp] theorem bumpK_inbound (e : Env) (d : Dp) (k u c n : Nat) : (bumpK e d k u c n).inbound = d.inbound := by obtain ⟨_, h⟩ := bumpK_frame e d k u c n; rw [h]
@[simp] theorem bumpK_rxBuf (e : Env) (d : Dp) (k u c n : Nat) : (bumpK e d k u c n).rxBuf = d.rxBuf := by obtain ⟨_, h⟩ := bumpK_frame e d k u c n; rw [h]
@[simp] theorem bumpK_backoffs (e : Env) (d : Dp) (k u c n : Nat) : (bumpK e d k u c n).backoffs = d.backoffs := by obtain ⟨_, h⟩ := bumpK_frame e d k u c n; rw [h]
@[simp] theorem bumpK_links (e : Env) (d : Dp) (k u c n : Nat) : (bumpK e d k u c n).links = d.links := by obtain ⟨_, h⟩ := bumpK_frame e d k u c n; rw [h]
@[simp] theorem bumpK_tm (e : Env) (d : Dp) (k u c n : Nat) : (bumpK e d k u c n).tm = d.tm := by obtain ⟨_, h⟩ := bumpK_frame e d k u c n; rw [h]
@[simp] theorem bumpK_inc (e : Env) (d : Dp) (k u c n : Nat) : (bumpK e d k u c n).inc = d.inc := by obtain ⟨_, h⟩ := bumpK_frame e d k u c n; rw [h]
@[simp] theorem bumpK_port (e : Env) (d : Dp) (k u c n : Nat) : (bumpK e d k u c n).port = d.port := by obtain ⟨_, h⟩ := bumpK_frame e d k u c n; rw [h]
@[simp] theorem bumpK_lastCourse (e : Env) (d : Dp) (k u c n : Nat) : (bumpK e d k u c n).lastCourse = d.lastCourse := by obtain ⟨_, h⟩ := bumpK_frame e d k u c n; rw [h]
@[simp] theorem bumpK_flitErr (e : Env) (d : Dp) (k u c n : Nat) : (bumpK e d k u c n).flitErr = d.flitErr := by obtain ⟨_, h⟩ := bumpK_frame e d k u c n; rw [h]
@[simp] theorem bumpK_free (e : Env) (d : Dp) (k u c n : Nat) : (bumpK e d k u c n).free = d.free := by obtain ⟨_, h⟩ := bumpK_frame e d k u c n; rw [h]
@[simp] theorem bumpT_joints (e : Env) (d : Dp) (t c : Nat) : (bumpT e d t c).joints = d.joints := by obtain ⟨_, h⟩ := bumpT_frame e d t c; rw [h]
@[simp] theorem bumpT_ag (e : Env) (d : Dp) (t c : Nat) : (bumpT e d t c).ag = d.ag := by obtain ⟨_, h⟩ := bumpT_frame e d t c; rw [h]
@[simp] theorem bumpT_departing (e : Env) (d : Dp) (t c : Nat) : (bumpT e d t c).departing = d.departing := by obtain ⟨_, h⟩ := bumpT_frame e d t c; rw [h]
@[simp] theorem bumpT_net (e : Env) (d : Dp) (t c : Nat) : (bumpT e d t c).net = d.net := by obtain ⟨_, h⟩ := bumpT_frame e d t c; rw [h]
@[simp] theorem bumpT_seq (e : Env) (d : Dp) (t c : Nat) : (bumpT e d t c).seq = d.seq := by obtain ⟨_, h⟩ := bumpT_frame e d t c; rw [h]
@[simp] theorem bumpT_comb (e : Env) (d : Dp) (t c : Nat) : (bumpT e d t c).comb = d.comb := by obtain ⟨_, h⟩ := bumpT_frame e d t c; rw [h]
@[simp] theorem bumpT_bricks (e : Env) (d : Dp) (t c : Nat) : (bumpT e d t c).bricks = d.bricks := by obtain ⟨_, h⟩ := bumpT_frame e d t c; rw [h]
@[simp] theorem bumpT_touched (e : Env) (d : Dp) (t c : Nat) : (bumpT e d t c).touched = d.touched := by obtain ⟨_, h⟩ := bumpT_frame e d t c; rw [h]
@[simp] theorem bumpT_freed (e : Env) (d : Dp) (t c : Nat) : (bumpT e d t c).freed = d.freed := by obtain ⟨_, h⟩ := bumpT_frame e d t c; rw [h]
@[simp] theorem bumpT_stripes (e : Env) (d : Dp) (t c : Nat) : (bumpT e d t c).stripes = d.stripes := by obtain ⟨_, h⟩ := bumpT_frame e d t c; rw [h]
@[simp] theorem bumpT_ringEnds (e : Env) (d : Dp) (t c : Nat) : (bumpT e d t c).ringEnds = d.ringEnds := by obtain ⟨_, h⟩ := bumpT_frame e d t c; rw [h]
@[simp] theorem bumpT_lintels (e : Env) (d : Dp) (t c : Nat) : (bumpT e d t c).lintels = d.lintels := by obtain ⟨_, h⟩ := bumpT_frame e d t c; rw [h]
@[simp] theorem bumpT_tiles (e : Env) (d : Dp) (t c : Nat) : (bumpT e d t c).tiles = d.tiles := by obtain ⟨_, h⟩ := bumpT_frame e d t c; rw [h]
@[simp] theorem bumpT_mirCopies (e : Env) (d : Dp) (t c : Nat) : (bumpT e d t c).mirCopies = d.mirCopies := by obtain ⟨_, h⟩ := bumpT_frame e d t c; rw [h]
@[simp] theorem bumpT_mirUpds (e : Env) (d : Dp) (t c : Nat) : (bumpT e d t c).mirUpds = d.mirUpds := by obtain ⟨_, h⟩ := bumpT_frame e d t c; rw [h]
@[simp] theorem bumpT_rings (e : Env) (d : Dp) (t c : Nat) : (bumpT e d t c).rings = d.rings := by obtain ⟨_, h⟩ := bumpT_frame e d t c; rw [h]
@[simp] theorem bumpT_cmpl (e : Env) (d : Dp) (t c : Nat) : (bumpT e d t c).cmpl = d.cmpl := by obtain ⟨_, h⟩ := bumpT_frame e d t c; rw [h]
@[simp] theorem bumpT_held (e : Env) (d : Dp) (t c : Nat) : (bumpT e d t c).held = d.held := by obtain ⟨_, h⟩ := bumpT_frame e d t c; rw [h]
@[simp] theorem bumpT_incRings (e : Env) (d : Dp) (t c : Nat) : (bumpT e d t c).incRings = d.incRings := by obtain ⟨_, h⟩ := bumpT_frame e d t c; rw [h]
@[simp] theorem bumpT_trings (e : Env) (d : Dp) (t c : Nat) : (bumpT e d t c).trings = d.trings := by obtain ⟨_, h⟩ := bumpT_frame e d t c; rw [h]
@[simp] theorem bumpT_kdbLo (e : Env) (d : Dp) (t c : Nat) : (bumpT e d t c).kdbLo = d.kdbLo := by obtain ⟨_, h⟩ := bumpT_frame e d t c; rw [h]
@[simp] theorem bumpT_parts (e : Env) (d : Dp) (t c : Nat) : (bumpT e d t c).parts = d.parts := by obtain ⟨_, h⟩ := bumpT_frame e d t c; rw [h]
@[simp] theorem bumpT_kcirq (e : Env) (d : Dp) (t c : Nat) : (bumpT e d t c).kcirq = d.kcirq := by obtain ⟨_, h⟩ := bumpT_frame e d t c; rw [h]
@[simp] theorem bumpT_ctxRun (e : Env) (d : Dp) (t c : Nat) : (bumpT e d t c).ctxRun = d.ctxRun := by obtain ⟨_, h⟩ := bumpT_frame e d t c; rw [h]
@[simp] theorem bumpT_inbound (e : Env) (d : Dp) (t c : Nat) : (bumpT e d t c).inbound = d.inbound := by obtain ⟨_, h⟩ := bumpT_frame e d t c; rw [h]
@[simp] theorem bumpT_rxBuf (e : Env) (d : Dp) (t c : Nat) : (bumpT e d t c).rxBuf = d.rxBuf := by obtain ⟨_, h⟩ := bumpT_frame e d t c; rw [h]
@[simp] theorem bumpT_backoffs (e : Env) (d : Dp) (t c : Nat) : (bumpT e d t c).backoffs = d.backoffs := by obtain ⟨_, h⟩ := bumpT_frame e d t c; rw [h]
@[simp] theorem bumpT_links (e : Env) (d : Dp) (t c : Nat) : (bumpT e d t c).links = d.links := by obtain ⟨_, h⟩ := bumpT_frame e d t c; rw [h]
@[simp] theorem bumpT_tm (e : Env) (d : Dp) (t c : Nat) : (bumpT e d t c).tm = d.tm := by obtain ⟨_, h⟩ := bumpT_frame e d t c; rw [h]
@[simp] theorem bumpT_inc (e : Env) (d : Dp) (t c : Nat) : (bumpT e d t c).inc = d.inc := by obtain ⟨_, h⟩ := bumpT_frame e d t c; rw [h]
@[simp] theorem bumpT_port (e : Env) (d : Dp) (t c : Nat) : (bumpT e d t c).port = d.port := by obtain ⟨_, h⟩ := bumpT_frame e d t c; rw [h]
@[simp] theorem bumpT_lastCourse (e : Env) (d : Dp) (t c : Nat) : (bumpT e d t c).lastCourse = d.lastCourse := by obtain ⟨_, h⟩ := bumpT_frame e d t c; rw [h]
@[simp] theorem bumpT_flitErr (e : Env) (d : Dp) (t c : Nat) : (bumpT e d t c).flitErr = d.flitErr := by obtain ⟨_, h⟩ := bumpT_frame e d t c; rw [h]
@[simp] theorem bumpT_free (e : Env) (d : Dp) (t c : Nat) : (bumpT e d t c).free = d.free := by obtain ⟨_, h⟩ := bumpT_frame e d t c; rw [h]
@[simp] theorem trace_joints (e : Env) (d : Dp) (t : Nat) (g : Option Nat) (r : TRec) : (trace e d t g r).joints = d.joints := by obtain ⟨⟨_, _, _, h⟩, _⟩ := trace_frame e d t g r; rw [h]
@[simp] theorem trace_ag (e : Env) (d : Dp) (t : Nat) (g : Option Nat) (r : TRec) : (trace e d t g r).ag = d.ag := by obtain ⟨⟨_, _, _, h⟩, _⟩ := trace_frame e d t g r; rw [h]
@[simp] theorem trace_departing (e : Env) (d : Dp) (t : Nat) (g : Option Nat) (r : TRec) : (trace e d t g r).departing = d.departing := by obtain ⟨⟨_, _, _, h⟩, _⟩ := trace_frame e d t g r; rw [h]
@[simp] theorem trace_net (e : Env) (d : Dp) (t : Nat) (g : Option Nat) (r : TRec) : (trace e d t g r).net = d.net := by obtain ⟨⟨_, _, _, h⟩, _⟩ := trace_frame e d t g r; rw [h]
@[simp] theorem trace_seq (e : Env) (d : Dp) (t : Nat) (g : Option Nat) (r : TRec) : (trace e d t g r).seq = d.seq := by obtain ⟨⟨_, _, _, h⟩, _⟩ := trace_frame e d t g r; rw [h]
@[simp] theorem trace_comb (e : Env) (d : Dp) (t : Nat) (g : Option Nat) (r : TRec) : (trace e d t g r).comb = d.comb := by obtain ⟨⟨_, _, _, h⟩, _⟩ := trace_frame e d t g r; rw [h]
@[simp] theorem trace_bricks (e : Env) (d : Dp) (t : Nat) (g : Option Nat) (r : TRec) : (trace e d t g r).bricks = d.bricks := by obtain ⟨⟨_, _, _, h⟩, _⟩ := trace_frame e d t g r; rw [h]
@[simp] theorem trace_touched (e : Env) (d : Dp) (t : Nat) (g : Option Nat) (r : TRec) : (trace e d t g r).touched = d.touched := by obtain ⟨⟨_, _, _, h⟩, _⟩ := trace_frame e d t g r; rw [h]
@[simp] theorem trace_freed (e : Env) (d : Dp) (t : Nat) (g : Option Nat) (r : TRec) : (trace e d t g r).freed = d.freed := by obtain ⟨⟨_, _, _, h⟩, _⟩ := trace_frame e d t g r; rw [h]
@[simp] theorem trace_stripes (e : Env) (d : Dp) (t : Nat) (g : Option Nat) (r : TRec) : (trace e d t g r).stripes = d.stripes := by obtain ⟨⟨_, _, _, h⟩, _⟩ := trace_frame e d t g r; rw [h]
@[simp] theorem trace_ringEnds (e : Env) (d : Dp) (t : Nat) (g : Option Nat) (r : TRec) : (trace e d t g r).ringEnds = d.ringEnds := by obtain ⟨⟨_, _, _, h⟩, _⟩ := trace_frame e d t g r; rw [h]
@[simp] theorem trace_lintels (e : Env) (d : Dp) (t : Nat) (g : Option Nat) (r : TRec) : (trace e d t g r).lintels = d.lintels := by obtain ⟨⟨_, _, _, h⟩, _⟩ := trace_frame e d t g r; rw [h]
@[simp] theorem trace_mirCopies (e : Env) (d : Dp) (t : Nat) (g : Option Nat) (r : TRec) : (trace e d t g r).mirCopies = d.mirCopies := by obtain ⟨⟨_, _, _, h⟩, _⟩ := trace_frame e d t g r; rw [h]
@[simp] theorem trace_mirUpds (e : Env) (d : Dp) (t : Nat) (g : Option Nat) (r : TRec) : (trace e d t g r).mirUpds = d.mirUpds := by obtain ⟨⟨_, _, _, h⟩, _⟩ := trace_frame e d t g r; rw [h]
@[simp] theorem trace_rings (e : Env) (d : Dp) (t : Nat) (g : Option Nat) (r : TRec) : (trace e d t g r).rings = d.rings := by obtain ⟨⟨_, _, _, h⟩, _⟩ := trace_frame e d t g r; rw [h]
@[simp] theorem trace_cmpl (e : Env) (d : Dp) (t : Nat) (g : Option Nat) (r : TRec) : (trace e d t g r).cmpl = d.cmpl := by obtain ⟨⟨_, _, _, h⟩, _⟩ := trace_frame e d t g r; rw [h]
@[simp] theorem trace_held (e : Env) (d : Dp) (t : Nat) (g : Option Nat) (r : TRec) : (trace e d t g r).held = d.held := by obtain ⟨⟨_, _, _, h⟩, _⟩ := trace_frame e d t g r; rw [h]
@[simp] theorem trace_incRings (e : Env) (d : Dp) (t : Nat) (g : Option Nat) (r : TRec) : (trace e d t g r).incRings = d.incRings := by obtain ⟨⟨_, _, _, h⟩, _⟩ := trace_frame e d t g r; rw [h]
@[simp] theorem trace_trings (e : Env) (d : Dp) (t : Nat) (g : Option Nat) (r : TRec) : (trace e d t g r).trings = d.trings := by obtain ⟨⟨_, _, _, h⟩, _⟩ := trace_frame e d t g r; rw [h]
@[simp] theorem trace_kdbLo (e : Env) (d : Dp) (t : Nat) (g : Option Nat) (r : TRec) : (trace e d t g r).kdbLo = d.kdbLo := by obtain ⟨⟨_, _, _, h⟩, _⟩ := trace_frame e d t g r; rw [h]
@[simp] theorem trace_parts (e : Env) (d : Dp) (t : Nat) (g : Option Nat) (r : TRec) : (trace e d t g r).parts = d.parts := by obtain ⟨⟨_, _, _, h⟩, _⟩ := trace_frame e d t g r; rw [h]
@[simp] theorem trace_kcirq (e : Env) (d : Dp) (t : Nat) (g : Option Nat) (r : TRec) : (trace e d t g r).kcirq = d.kcirq := by obtain ⟨⟨_, _, _, h⟩, _⟩ := trace_frame e d t g r; rw [h]
@[simp] theorem trace_ctxRun (e : Env) (d : Dp) (t : Nat) (g : Option Nat) (r : TRec) : (trace e d t g r).ctxRun = d.ctxRun := by obtain ⟨⟨_, _, _, h⟩, _⟩ := trace_frame e d t g r; rw [h]
@[simp] theorem trace_inbound (e : Env) (d : Dp) (t : Nat) (g : Option Nat) (r : TRec) : (trace e d t g r).inbound = d.inbound := by obtain ⟨⟨_, _, _, h⟩, _⟩ := trace_frame e d t g r; rw [h]
@[simp] theorem trace_rxBuf (e : Env) (d : Dp) (t : Nat) (g : Option Nat) (r : TRec) : (trace e d t g r).rxBuf = d.rxBuf := by obtain ⟨⟨_, _, _, h⟩, _⟩ := trace_frame e d t g r; rw [h]
@[simp] theorem trace_backoffs (e : Env) (d : Dp) (t : Nat) (g : Option Nat) (r : TRec) : (trace e d t g r).backoffs = d.backoffs := by obtain ⟨⟨_, _, _, h⟩, _⟩ := trace_frame e d t g r; rw [h]
@[simp] theorem trace_links (e : Env) (d : Dp) (t : Nat) (g : Option Nat) (r : TRec) : (trace e d t g r).links = d.links := by obtain ⟨⟨_, _, _, h⟩, _⟩ := trace_frame e d t g r; rw [h]
@[simp] theorem trace_tm (e : Env) (d : Dp) (t : Nat) (g : Option Nat) (r : TRec) : (trace e d t g r).tm = d.tm := by obtain ⟨⟨_, _, _, h⟩, _⟩ := trace_frame e d t g r; rw [h]
@[simp] theorem trace_inc (e : Env) (d : Dp) (t : Nat) (g : Option Nat) (r : TRec) : (trace e d t g r).inc = d.inc := by obtain ⟨⟨_, _, _, h⟩, _⟩ := trace_frame e d t g r; rw [h]
@[simp] theorem trace_port (e : Env) (d : Dp) (t : Nat) (g : Option Nat) (r : TRec) : (trace e d t g r).port = d.port := by obtain ⟨⟨_, _, _, h⟩, _⟩ := trace_frame e d t g r; rw [h]
@[simp] theorem trace_lastCourse (e : Env) (d : Dp) (t : Nat) (g : Option Nat) (r : TRec) : (trace e d t g r).lastCourse = d.lastCourse := by obtain ⟨⟨_, _, _, h⟩, _⟩ := trace_frame e d t g r; rw [h]
@[simp] theorem trace_flitErr (e : Env) (d : Dp) (t : Nat) (g : Option Nat) (r : TRec) : (trace e d t g r).flitErr = d.flitErr := by obtain ⟨⟨_, _, _, h⟩, _⟩ := trace_frame e d t g r; rw [h]
@[simp] theorem trace_free (e : Env) (d : Dp) (t : Nat) (g : Option Nat) (r : TRec) : (trace e d t g r).free = d.free := by obtain ⟨⟨_, _, _, h⟩, _⟩ := trace_frame e d t g r; rw [h]
@[simp] theorem tookHod_joints (e : Env) (d : Dp) (t : Nat) (vc : VC) : (tookHod e d t vc).joints = d.joints := by obtain ⟨_, _, h⟩ := tookHod_frame e d t vc; rw [h]
@[simp] theorem tookHod_ag (e : Env) (d : Dp) (t : Nat) (vc : VC) : (tookHod e d t vc).ag = d.ag := by obtain ⟨_, _, h⟩ := tookHod_frame e d t vc; rw [h]
@[simp] theorem tookHod_departing (e : Env) (d : Dp) (t : Nat) (vc : VC) : (tookHod e d t vc).departing = d.departing := by obtain ⟨_, _, h⟩ := tookHod_frame e d t vc; rw [h]
@[simp] theorem tookHod_net (e : Env) (d : Dp) (t : Nat) (vc : VC) : (tookHod e d t vc).net = d.net := by obtain ⟨_, _, h⟩ := tookHod_frame e d t vc; rw [h]
@[simp] theorem tookHod_seq (e : Env) (d : Dp) (t : Nat) (vc : VC) : (tookHod e d t vc).seq = d.seq := by obtain ⟨_, _, h⟩ := tookHod_frame e d t vc; rw [h]
@[simp] theorem tookHod_comb (e : Env) (d : Dp) (t : Nat) (vc : VC) : (tookHod e d t vc).comb = d.comb := by obtain ⟨_, _, h⟩ := tookHod_frame e d t vc; rw [h]
@[simp] theorem tookHod_bricks (e : Env) (d : Dp) (t : Nat) (vc : VC) : (tookHod e d t vc).bricks = d.bricks := by obtain ⟨_, _, h⟩ := tookHod_frame e d t vc; rw [h]
@[simp] theorem tookHod_touched (e : Env) (d : Dp) (t : Nat) (vc : VC) : (tookHod e d t vc).touched = d.touched := by obtain ⟨_, _, h⟩ := tookHod_frame e d t vc; rw [h]
@[simp] theorem tookHod_freed (e : Env) (d : Dp) (t : Nat) (vc : VC) : (tookHod e d t vc).freed = d.freed := by obtain ⟨_, _, h⟩ := tookHod_frame e d t vc; rw [h]
@[simp] theorem tookHod_stripes (e : Env) (d : Dp) (t : Nat) (vc : VC) : (tookHod e d t vc).stripes = d.stripes := by obtain ⟨_, _, h⟩ := tookHod_frame e d t vc; rw [h]
@[simp] theorem tookHod_ringEnds (e : Env) (d : Dp) (t : Nat) (vc : VC) : (tookHod e d t vc).ringEnds = d.ringEnds := by obtain ⟨_, _, h⟩ := tookHod_frame e d t vc; rw [h]
@[simp] theorem tookHod_lintels (e : Env) (d : Dp) (t : Nat) (vc : VC) : (tookHod e d t vc).lintels = d.lintels := by obtain ⟨_, _, h⟩ := tookHod_frame e d t vc; rw [h]
@[simp] theorem tookHod_mirCopies (e : Env) (d : Dp) (t : Nat) (vc : VC) : (tookHod e d t vc).mirCopies = d.mirCopies := by obtain ⟨_, _, h⟩ := tookHod_frame e d t vc; rw [h]
@[simp] theorem tookHod_mirUpds (e : Env) (d : Dp) (t : Nat) (vc : VC) : (tookHod e d t vc).mirUpds = d.mirUpds := by obtain ⟨_, _, h⟩ := tookHod_frame e d t vc; rw [h]
@[simp] theorem tookHod_rings (e : Env) (d : Dp) (t : Nat) (vc : VC) : (tookHod e d t vc).rings = d.rings := by obtain ⟨_, _, h⟩ := tookHod_frame e d t vc; rw [h]
@[simp] theorem tookHod_cmpl (e : Env) (d : Dp) (t : Nat) (vc : VC) : (tookHod e d t vc).cmpl = d.cmpl := by obtain ⟨_, _, h⟩ := tookHod_frame e d t vc; rw [h]
@[simp] theorem tookHod_held (e : Env) (d : Dp) (t : Nat) (vc : VC) : (tookHod e d t vc).held = d.held := by obtain ⟨_, _, h⟩ := tookHod_frame e d t vc; rw [h]
@[simp] theorem tookHod_incRings (e : Env) (d : Dp) (t : Nat) (vc : VC) : (tookHod e d t vc).incRings = d.incRings := by obtain ⟨_, _, h⟩ := tookHod_frame e d t vc; rw [h]
@[simp] theorem tookHod_trings (e : Env) (d : Dp) (t : Nat) (vc : VC) : (tookHod e d t vc).trings = d.trings := by obtain ⟨_, _, h⟩ := tookHod_frame e d t vc; rw [h]
@[simp] theorem tookHod_kdbLo (e : Env) (d : Dp) (t : Nat) (vc : VC) : (tookHod e d t vc).kdbLo = d.kdbLo := by obtain ⟨_, _, h⟩ := tookHod_frame e d t vc; rw [h]
@[simp] theorem tookHod_parts (e : Env) (d : Dp) (t : Nat) (vc : VC) : (tookHod e d t vc).parts = d.parts := by obtain ⟨_, _, h⟩ := tookHod_frame e d t vc; rw [h]
@[simp] theorem tookHod_kcirq (e : Env) (d : Dp) (t : Nat) (vc : VC) : (tookHod e d t vc).kcirq = d.kcirq := by obtain ⟨_, _, h⟩ := tookHod_frame e d t vc; rw [h]
@[simp] theorem tookHod_ctxRun (e : Env) (d : Dp) (t : Nat) (vc : VC) : (tookHod e d t vc).ctxRun = d.ctxRun := by obtain ⟨_, _, h⟩ := tookHod_frame e d t vc; rw [h]
@[simp] theorem tookHod_inbound (e : Env) (d : Dp) (t : Nat) (vc : VC) : (tookHod e d t vc).inbound = d.inbound := by obtain ⟨_, _, h⟩ := tookHod_frame e d t vc; rw [h]
@[simp] theorem tookHod_rxBuf (e : Env) (d : Dp) (t : Nat) (vc : VC) : (tookHod e d t vc).rxBuf = d.rxBuf := by obtain ⟨_, _, h⟩ := tookHod_frame e d t vc; rw [h]
@[simp] theorem tookHod_backoffs (e : Env) (d : Dp) (t : Nat) (vc : VC) : (tookHod e d t vc).backoffs = d.backoffs := by obtain ⟨_, _, h⟩ := tookHod_frame e d t vc; rw [h]
@[simp] theorem tookHod_links (e : Env) (d : Dp) (t : Nat) (vc : VC) : (tookHod e d t vc).links = d.links := by obtain ⟨_, _, h⟩ := tookHod_frame e d t vc; rw [h]
@[simp] theorem tookHod_tm (e : Env) (d : Dp) (t : Nat) (vc : VC) : (tookHod e d t vc).tm = d.tm := by obtain ⟨_, _, h⟩ := tookHod_frame e d t vc; rw [h]
@[simp] theorem tookHod_inc (e : Env) (d : Dp) (t : Nat) (vc : VC) : (tookHod e d t vc).inc = d.inc := by obtain ⟨_, _, h⟩ := tookHod_frame e d t vc; rw [h]
@[simp] theorem tookHod_port (e : Env) (d : Dp) (t : Nat) (vc : VC) : (tookHod e d t vc).port = d.port := by obtain ⟨_, _, h⟩ := tookHod_frame e d t vc; rw [h]
@[simp] theorem tookHod_lastCourse (e : Env) (d : Dp) (t : Nat) (vc : VC) : (tookHod e d t vc).lastCourse = d.lastCourse := by obtain ⟨_, _, h⟩ := tookHod_frame e d t vc; rw [h]
@[simp] theorem tookHod_flitErr (e : Env) (d : Dp) (t : Nat) (vc : VC) : (tookHod e d t vc).flitErr = d.flitErr := by obtain ⟨_, _, h⟩ := tookHod_frame e d t vc; rw [h]
@[simp] theorem tookHod_free (e : Env) (d : Dp) (t : Nat) (vc : VC) : (tookHod e d t vc).free = d.free := by obtain ⟨_, _, h⟩ := tookHod_frame e d t vc; rw [h]
@[simp] theorem report_joints (e : Env) (d : Dp) (src : Source) (r : Report) : (report e d src r).joints = d.joints := by obtain ⟨_, _, h⟩ := report_frame e d src r; rw [h]
@[simp] theorem report_ag (e : Env) (d : Dp) (src : Source) (r : Report) : (report e d src r).ag = d.ag := by obtain ⟨_, _, h⟩ := report_frame e d src r; rw [h]
@[simp] theorem report_departing (e : Env) (d : Dp) (src : Source) (r : Report) : (report e d src r).departing = d.departing := by obtain ⟨_, _, h⟩ := report_frame e d src r; rw [h]
@[simp] theorem report_net (e : Env) (d : Dp) (src : Source) (r : Report) : (report e d src r).net = d.net := by obtain ⟨_, _, h⟩ := report_frame e d src r; rw [h]
@[simp] theorem report_seq (e : Env) (d : Dp) (src : Source) (r : Report) : (report e d src r).seq = d.seq := by obtain ⟨_, _, h⟩ := report_frame e d src r; rw [h]
@[simp] theorem report_comb (e : Env) (d : Dp) (src : Source) (r : Report) : (report e d src r).comb = d.comb := by obtain ⟨_, _, h⟩ := report_frame e d src r; rw [h]
@[simp] theorem report_bricks (e : Env) (d : Dp) (src : Source) (r : Report) : (report e d src r).bricks = d.bricks := by obtain ⟨_, _, h⟩ := report_frame e d src r; rw [h]
@[simp] theorem report_touched (e : Env) (d : Dp) (src : Source) (r : Report) : (report e d src r).touched = d.touched := by obtain ⟨_, _, h⟩ := report_frame e d src r; rw [h]
@[simp] theorem report_freed (e : Env) (d : Dp) (src : Source) (r : Report) : (report e d src r).freed = d.freed := by obtain ⟨_, _, h⟩ := report_frame e d src r; rw [h]
@[simp] theorem report_stripes (e : Env) (d : Dp) (src : Source) (r : Report) : (report e d src r).stripes = d.stripes := by obtain ⟨_, _, h⟩ := report_frame e d src r; rw [h]
@[simp] theorem report_ringEnds (e : Env) (d : Dp) (src : Source) (r : Report) : (report e d src r).ringEnds = d.ringEnds := by obtain ⟨_, _, h⟩ := report_frame e d src r; rw [h]
@[simp] theorem report_lintels (e : Env) (d : Dp) (src : Source) (r : Report) : (report e d src r).lintels = d.lintels := by obtain ⟨_, _, h⟩ := report_frame e d src r; rw [h]
@[simp] theorem report_tiles (e : Env) (d : Dp) (src : Source) (r : Report) : (report e d src r).tiles = d.tiles := by obtain ⟨_, _, h⟩ := report_frame e d src r; rw [h]
@[simp] theorem report_mirCopies (e : Env) (d : Dp) (src : Source) (r : Report) : (report e d src r).mirCopies = d.mirCopies := by obtain ⟨_, _, h⟩ := report_frame e d src r; rw [h]
@[simp] theorem report_mirUpds (e : Env) (d : Dp) (src : Source) (r : Report) : (report e d src r).mirUpds = d.mirUpds := by obtain ⟨_, _, h⟩ := report_frame e d src r; rw [h]
@[simp] theorem report_rings (e : Env) (d : Dp) (src : Source) (r : Report) : (report e d src r).rings = d.rings := by obtain ⟨_, _, h⟩ := report_frame e d src r; rw [h]
@[simp] theorem report_cmpl (e : Env) (d : Dp) (src : Source) (r : Report) : (report e d src r).cmpl = d.cmpl := by obtain ⟨_, _, h⟩ := report_frame e d src r; rw [h]
@[simp] theorem report_held (e : Env) (d : Dp) (src : Source) (r : Report) : (report e d src r).held = d.held := by obtain ⟨_, _, h⟩ := report_frame e d src r; rw [h]
@[simp] theorem report_incRings (e : Env) (d : Dp) (src : Source) (r : Report) : (report e d src r).incRings = d.incRings := by obtain ⟨_, _, h⟩ := report_frame e d src r; rw [h]
@[simp] theorem report_trings (e : Env) (d : Dp) (src : Source) (r : Report) : (report e d src r).trings = d.trings := by obtain ⟨_, _, h⟩ := report_frame e d src r; rw [h]
@[simp] theorem report_kdbLo (e : Env) (d : Dp) (src : Source) (r : Report) : (report e d src r).kdbLo = d.kdbLo := by obtain ⟨_, _, h⟩ := report_frame e d src r; rw [h]
@[simp] theorem report_parts (e : Env) (d : Dp) (src : Source) (r : Report) : (report e d src r).parts = d.parts := by obtain ⟨_, _, h⟩ := report_frame e d src r; rw [h]
@[simp] theorem report_kcirq (e : Env) (d : Dp) (src : Source) (r : Report) : (report e d src r).kcirq = d.kcirq := by obtain ⟨_, _, h⟩ := report_frame e d src r; rw [h]
@[simp] theorem report_ctxRun (e : Env) (d : Dp) (src : Source) (r : Report) : (report e d src r).ctxRun = d.ctxRun := by obtain ⟨_, _, h⟩ := report_frame e d src r; rw [h]
@[simp] theorem report_inbound (e : Env) (d : Dp) (src : Source) (r : Report) : (report e d src r).inbound = d.inbound := by obtain ⟨_, _, h⟩ := report_frame e d src r; rw [h]
@[simp] theorem report_rxBuf (e : Env) (d : Dp) (src : Source) (r : Report) : (report e d src r).rxBuf = d.rxBuf := by obtain ⟨_, _, h⟩ := report_frame e d src r; rw [h]
@[simp] theorem report_backoffs (e : Env) (d : Dp) (src : Source) (r : Report) : (report e d src r).backoffs = d.backoffs := by obtain ⟨_, _, h⟩ := report_frame e d src r; rw [h]
@[simp] theorem report_links (e : Env) (d : Dp) (src : Source) (r : Report) : (report e d src r).links = d.links := by obtain ⟨_, _, h⟩ := report_frame e d src r; rw [h]
@[simp] theorem report_tm (e : Env) (d : Dp) (src : Source) (r : Report) : (report e d src r).tm = d.tm := by obtain ⟨_, _, h⟩ := report_frame e d src r; rw [h]
@[simp] theorem report_port (e : Env) (d : Dp) (src : Source) (r : Report) : (report e d src r).port = d.port := by obtain ⟨_, _, h⟩ := report_frame e d src r; rw [h]
@[simp] theorem report_lastCourse (e : Env) (d : Dp) (src : Source) (r : Report) : (report e d src r).lastCourse = d.lastCourse := by obtain ⟨_, _, h⟩ := report_frame e d src r; rw [h]
@[simp] theorem report_flitErr (e : Env) (d : Dp) (src : Source) (r : Report) : (report e d src r).flitErr = d.flitErr := by obtain ⟨_, _, h⟩ := report_frame e d src r; rw [h]
@[simp] theorem report_free (e : Env) (d : Dp) (src : Source) (r : Report) : (report e d src r).free = d.free := by obtain ⟨_, _, h⟩ := report_frame e d src r; rw [h]
@[simp] theorem send_joints (e : Env) (d : Dp) (a b : Port) (vc : VC) (p : BitVec 4) (x : HodBody) : (send e d a b vc p x).joints = d.joints := by obtain ⟨_, _, _, _, _, _, _, _, h⟩ := send_frame e d a b vc p x; rw [h]
@[simp] theorem send_ag (e : Env) (d : Dp) (a b : Port) (vc : VC) (p : BitVec 4) (x : HodBody) : (send e d a b vc p x).ag = d.ag := by obtain ⟨_, _, _, _, _, _, _, _, h⟩ := send_frame e d a b vc p x; rw [h]
@[simp] theorem send_departing (e : Env) (d : Dp) (a b : Port) (vc : VC) (p : BitVec 4) (x : HodBody) : (send e d a b vc p x).departing = d.departing := by obtain ⟨_, _, _, _, _, _, _, _, h⟩ := send_frame e d a b vc p x; rw [h]
@[simp] theorem send_comb (e : Env) (d : Dp) (a b : Port) (vc : VC) (p : BitVec 4) (x : HodBody) : (send e d a b vc p x).comb = d.comb := by obtain ⟨_, _, _, _, _, _, _, _, h⟩ := send_frame e d a b vc p x; rw [h]
@[simp] theorem send_bricks (e : Env) (d : Dp) (a b : Port) (vc : VC) (p : BitVec 4) (x : HodBody) : (send e d a b vc p x).bricks = d.bricks := by obtain ⟨_, _, _, _, _, _, _, _, h⟩ := send_frame e d a b vc p x; rw [h]
@[simp] theorem send_touched (e : Env) (d : Dp) (a b : Port) (vc : VC) (p : BitVec 4) (x : HodBody) : (send e d a b vc p x).touched = d.touched := by obtain ⟨_, _, _, _, _, _, _, _, h⟩ := send_frame e d a b vc p x; rw [h]
@[simp] theorem send_freed (e : Env) (d : Dp) (a b : Port) (vc : VC) (p : BitVec 4) (x : HodBody) : (send e d a b vc p x).freed = d.freed := by obtain ⟨_, _, _, _, _, _, _, _, h⟩ := send_frame e d a b vc p x; rw [h]
@[simp] theorem send_stripes (e : Env) (d : Dp) (a b : Port) (vc : VC) (p : BitVec 4) (x : HodBody) : (send e d a b vc p x).stripes = d.stripes := by obtain ⟨_, _, _, _, _, _, _, _, h⟩ := send_frame e d a b vc p x; rw [h]
@[simp] theorem send_ringEnds (e : Env) (d : Dp) (a b : Port) (vc : VC) (p : BitVec 4) (x : HodBody) : (send e d a b vc p x).ringEnds = d.ringEnds := by obtain ⟨_, _, _, _, _, _, _, _, h⟩ := send_frame e d a b vc p x; rw [h]
@[simp] theorem send_lintels (e : Env) (d : Dp) (a b : Port) (vc : VC) (p : BitVec 4) (x : HodBody) : (send e d a b vc p x).lintels = d.lintels := by obtain ⟨_, _, _, _, _, _, _, _, h⟩ := send_frame e d a b vc p x; rw [h]
@[simp] theorem send_tiles (e : Env) (d : Dp) (a b : Port) (vc : VC) (p : BitVec 4) (x : HodBody) : (send e d a b vc p x).tiles = d.tiles := by obtain ⟨_, _, _, _, _, _, _, _, h⟩ := send_frame e d a b vc p x; rw [h]
@[simp] theorem send_mirCopies (e : Env) (d : Dp) (a b : Port) (vc : VC) (p : BitVec 4) (x : HodBody) : (send e d a b vc p x).mirCopies = d.mirCopies := by obtain ⟨_, _, _, _, _, _, _, _, h⟩ := send_frame e d a b vc p x; rw [h]
@[simp] theorem send_mirUpds (e : Env) (d : Dp) (a b : Port) (vc : VC) (p : BitVec 4) (x : HodBody) : (send e d a b vc p x).mirUpds = d.mirUpds := by obtain ⟨_, _, _, _, _, _, _, _, h⟩ := send_frame e d a b vc p x; rw [h]
@[simp] theorem send_rings (e : Env) (d : Dp) (a b : Port) (vc : VC) (p : BitVec 4) (x : HodBody) : (send e d a b vc p x).rings = d.rings := by obtain ⟨_, _, _, _, _, _, _, _, h⟩ := send_frame e d a b vc p x; rw [h]
@[simp] theorem send_cmpl (e : Env) (d : Dp) (a b : Port) (vc : VC) (p : BitVec 4) (x : HodBody) : (send e d a b vc p x).cmpl = d.cmpl := by obtain ⟨_, _, _, _, _, _, _, _, h⟩ := send_frame e d a b vc p x; rw [h]
@[simp] theorem send_held (e : Env) (d : Dp) (a b : Port) (vc : VC) (p : BitVec 4) (x : HodBody) : (send e d a b vc p x).held = d.held := by obtain ⟨_, _, _, _, _, _, _, _, h⟩ := send_frame e d a b vc p x; rw [h]
@[simp] theorem send_incRings (e : Env) (d : Dp) (a b : Port) (vc : VC) (p : BitVec 4) (x : HodBody) : (send e d a b vc p x).incRings = d.incRings := by obtain ⟨_, _, _, _, _, _, _, _, h⟩ := send_frame e d a b vc p x; rw [h]
@[simp] theorem send_trings (e : Env) (d : Dp) (a b : Port) (vc : VC) (p : BitVec 4) (x : HodBody) : (send e d a b vc p x).trings = d.trings := by obtain ⟨_, _, _, _, _, _, _, _, h⟩ := send_frame e d a b vc p x; rw [h]
@[simp] theorem send_kdbLo (e : Env) (d : Dp) (a b : Port) (vc : VC) (p : BitVec 4) (x : HodBody) : (send e d a b vc p x).kdbLo = d.kdbLo := by obtain ⟨_, _, _, _, _, _, _, _, h⟩ := send_frame e d a b vc p x; rw [h]
@[simp] theorem send_parts (e : Env) (d : Dp) (a b : Port) (vc : VC) (p : BitVec 4) (x : HodBody) : (send e d a b vc p x).parts = d.parts := by obtain ⟨_, _, _, _, _, _, _, _, h⟩ := send_frame e d a b vc p x; rw [h]
@[simp] theorem send_kcirq (e : Env) (d : Dp) (a b : Port) (vc : VC) (p : BitVec 4) (x : HodBody) : (send e d a b vc p x).kcirq = d.kcirq := by obtain ⟨_, _, _, _, _, _, _, _, h⟩ := send_frame e d a b vc p x; rw [h]
@[simp] theorem send_ctxRun (e : Env) (d : Dp) (a b : Port) (vc : VC) (p : BitVec 4) (x : HodBody) : (send e d a b vc p x).ctxRun = d.ctxRun := by obtain ⟨_, _, _, _, _, _, _, _, h⟩ := send_frame e d a b vc p x; rw [h]
@[simp] theorem send_inbound (e : Env) (d : Dp) (a b : Port) (vc : VC) (p : BitVec 4) (x : HodBody) : (send e d a b vc p x).inbound = d.inbound := by obtain ⟨_, _, _, _, _, _, _, _, h⟩ := send_frame e d a b vc p x; rw [h]
@[simp] theorem send_rxBuf (e : Env) (d : Dp) (a b : Port) (vc : VC) (p : BitVec 4) (x : HodBody) : (send e d a b vc p x).rxBuf = d.rxBuf := by obtain ⟨_, _, _, _, _, _, _, _, h⟩ := send_frame e d a b vc p x; rw [h]
@[simp] theorem send_backoffs (e : Env) (d : Dp) (a b : Port) (vc : VC) (p : BitVec 4) (x : HodBody) : (send e d a b vc p x).backoffs = d.backoffs := by obtain ⟨_, _, _, _, _, _, _, _, h⟩ := send_frame e d a b vc p x; rw [h]
@[simp] theorem send_links (e : Env) (d : Dp) (a b : Port) (vc : VC) (p : BitVec 4) (x : HodBody) : (send e d a b vc p x).links = d.links := by obtain ⟨_, _, _, _, _, _, _, _, h⟩ := send_frame e d a b vc p x; rw [h]
@[simp] theorem send_tm (e : Env) (d : Dp) (a b : Port) (vc : VC) (p : BitVec 4) (x : HodBody) : (send e d a b vc p x).tm = d.tm := by obtain ⟨_, _, _, _, _, _, _, _, h⟩ := send_frame e d a b vc p x; rw [h]
@[simp] theorem send_inc (e : Env) (d : Dp) (a b : Port) (vc : VC) (p : BitVec 4) (x : HodBody) : (send e d a b vc p x).inc = d.inc := by obtain ⟨_, _, _, _, _, _, _, _, h⟩ := send_frame e d a b vc p x; rw [h]
@[simp] theorem send_port (e : Env) (d : Dp) (a b : Port) (vc : VC) (p : BitVec 4) (x : HodBody) : (send e d a b vc p x).port = d.port := by obtain ⟨_, _, _, _, _, _, _, _, h⟩ := send_frame e d a b vc p x; rw [h]
@[simp] theorem send_lastCourse (e : Env) (d : Dp) (a b : Port) (vc : VC) (p : BitVec 4) (x : HodBody) : (send e d a b vc p x).lastCourse = d.lastCourse := by obtain ⟨_, _, _, _, _, _, _, _, h⟩ := send_frame e d a b vc p x; rw [h]
@[simp] theorem send_flitErr (e : Env) (d : Dp) (a b : Port) (vc : VC) (p : BitVec 4) (x : HodBody) : (send e d a b vc p x).flitErr = d.flitErr := by obtain ⟨_, _, _, _, _, _, _, _, h⟩ := send_frame e d a b vc p x; rw [h]
@[simp] theorem send_free (e : Env) (d : Dp) (a b : Port) (vc : VC) (p : BitVec 4) (x : HodBody) : (send e d a b vc p x).free = d.free := by obtain ⟨_, _, _, _, _, _, _, _, h⟩ := send_frame e d a b vc p x; rw [h]
@[simp] theorem sendAll_joints (e : Env) (l : List Hod) (d : Dp) : (sendAll e l d).joints = d.joints := by obtain ⟨_, _, _, h⟩ := sendAll_frame e l d; rw [h]
@[simp] theorem sendAll_ag (e : Env) (l : List Hod) (d : Dp) : (sendAll e l d).ag = d.ag := by obtain ⟨_, _, _, h⟩ := sendAll_frame e l d; rw [h]
@[simp] theorem sendAll_departing (e : Env) (l : List Hod) (d : Dp) : (sendAll e l d).departing = d.departing := by obtain ⟨_, _, _, h⟩ := sendAll_frame e l d; rw [h]
@[simp] theorem sendAll_comb (e : Env) (l : List Hod) (d : Dp) : (sendAll e l d).comb = d.comb := by obtain ⟨_, _, _, h⟩ := sendAll_frame e l d; rw [h]
@[simp] theorem sendAll_bricks (e : Env) (l : List Hod) (d : Dp) : (sendAll e l d).bricks = d.bricks := by obtain ⟨_, _, _, h⟩ := sendAll_frame e l d; rw [h]
@[simp] theorem sendAll_touched (e : Env) (l : List Hod) (d : Dp) : (sendAll e l d).touched = d.touched := by obtain ⟨_, _, _, h⟩ := sendAll_frame e l d; rw [h]
@[simp] theorem sendAll_freed (e : Env) (l : List Hod) (d : Dp) : (sendAll e l d).freed = d.freed := by obtain ⟨_, _, _, h⟩ := sendAll_frame e l d; rw [h]
@[simp] theorem sendAll_stripes (e : Env) (l : List Hod) (d : Dp) : (sendAll e l d).stripes = d.stripes := by obtain ⟨_, _, _, h⟩ := sendAll_frame e l d; rw [h]
@[simp] theorem sendAll_ringEnds (e : Env) (l : List Hod) (d : Dp) : (sendAll e l d).ringEnds = d.ringEnds := by obtain ⟨_, _, _, h⟩ := sendAll_frame e l d; rw [h]
@[simp] theorem sendAll_lintels (e : Env) (l : List Hod) (d : Dp) : (sendAll e l d).lintels = d.lintels := by obtain ⟨_, _, _, h⟩ := sendAll_frame e l d; rw [h]
@[simp] theorem sendAll_tiles (e : Env) (l : List Hod) (d : Dp) : (sendAll e l d).tiles = d.tiles := by obtain ⟨_, _, _, h⟩ := sendAll_frame e l d; rw [h]
@[simp] theorem sendAll_mirCopies (e : Env) (l : List Hod) (d : Dp) : (sendAll e l d).mirCopies = d.mirCopies := by obtain ⟨_, _, _, h⟩ := sendAll_frame e l d; rw [h]
@[simp] theorem sendAll_mirUpds (e : Env) (l : List Hod) (d : Dp) : (sendAll e l d).mirUpds = d.mirUpds := by obtain ⟨_, _, _, h⟩ := sendAll_frame e l d; rw [h]
@[simp] theorem sendAll_rings (e : Env) (l : List Hod) (d : Dp) : (sendAll e l d).rings = d.rings := by obtain ⟨_, _, _, h⟩ := sendAll_frame e l d; rw [h]
@[simp] theorem sendAll_cmpl (e : Env) (l : List Hod) (d : Dp) : (sendAll e l d).cmpl = d.cmpl := by obtain ⟨_, _, _, h⟩ := sendAll_frame e l d; rw [h]
@[simp] theorem sendAll_held (e : Env) (l : List Hod) (d : Dp) : (sendAll e l d).held = d.held := by obtain ⟨_, _, _, h⟩ := sendAll_frame e l d; rw [h]
@[simp] theorem sendAll_incRings (e : Env) (l : List Hod) (d : Dp) : (sendAll e l d).incRings = d.incRings := by obtain ⟨_, _, _, h⟩ := sendAll_frame e l d; rw [h]
@[simp] theorem sendAll_trings (e : Env) (l : List Hod) (d : Dp) : (sendAll e l d).trings = d.trings := by obtain ⟨_, _, _, h⟩ := sendAll_frame e l d; rw [h]
@[simp] theorem sendAll_kdbLo (e : Env) (l : List Hod) (d : Dp) : (sendAll e l d).kdbLo = d.kdbLo := by obtain ⟨_, _, _, h⟩ := sendAll_frame e l d; rw [h]
@[simp] theorem sendAll_parts (e : Env) (l : List Hod) (d : Dp) : (sendAll e l d).parts = d.parts := by obtain ⟨_, _, _, h⟩ := sendAll_frame e l d; rw [h]
@[simp] theorem sendAll_kcirq (e : Env) (l : List Hod) (d : Dp) : (sendAll e l d).kcirq = d.kcirq := by obtain ⟨_, _, _, h⟩ := sendAll_frame e l d; rw [h]
@[simp] theorem sendAll_ctxRun (e : Env) (l : List Hod) (d : Dp) : (sendAll e l d).ctxRun = d.ctxRun := by obtain ⟨_, _, _, h⟩ := sendAll_frame e l d; rw [h]
@[simp] theorem sendAll_inbound (e : Env) (l : List Hod) (d : Dp) : (sendAll e l d).inbound = d.inbound := by obtain ⟨_, _, _, h⟩ := sendAll_frame e l d; rw [h]
@[simp] theorem sendAll_rxBuf (e : Env) (l : List Hod) (d : Dp) : (sendAll e l d).rxBuf = d.rxBuf := by obtain ⟨_, _, _, h⟩ := sendAll_frame e l d; rw [h]
@[simp] theorem sendAll_backoffs (e : Env) (l : List Hod) (d : Dp) : (sendAll e l d).backoffs = d.backoffs := by obtain ⟨_, _, _, h⟩ := sendAll_frame e l d; rw [h]
@[simp] theorem sendAll_links (e : Env) (l : List Hod) (d : Dp) : (sendAll e l d).links = d.links := by obtain ⟨_, _, _, h⟩ := sendAll_frame e l d; rw [h]
@[simp] theorem sendAll_tm (e : Env) (l : List Hod) (d : Dp) : (sendAll e l d).tm = d.tm := by obtain ⟨_, _, _, h⟩ := sendAll_frame e l d; rw [h]
@[simp] theorem sendAll_inc (e : Env) (l : List Hod) (d : Dp) : (sendAll e l d).inc = d.inc := by obtain ⟨_, _, _, h⟩ := sendAll_frame e l d; rw [h]
@[simp] theorem sendAll_port (e : Env) (l : List Hod) (d : Dp) : (sendAll e l d).port = d.port := by obtain ⟨_, _, _, h⟩ := sendAll_frame e l d; rw [h]
@[simp] theorem sendAll_lastCourse (e : Env) (l : List Hod) (d : Dp) : (sendAll e l d).lastCourse = d.lastCourse := by obtain ⟨_, _, _, h⟩ := sendAll_frame e l d; rw [h]
@[simp] theorem sendAll_flitErr (e : Env) (l : List Hod) (d : Dp) : (sendAll e l d).flitErr = d.flitErr := by obtain ⟨_, _, _, h⟩ := sendAll_frame e l d; rw [h]
@[simp] theorem sendAll_free (e : Env) (l : List Hod) (d : Dp) : (sendAll e l d).free = d.free := by obtain ⟨_, _, _, h⟩ := sendAll_frame e l d; rw [h]

/-- R27. A hod has two flits and one for each 8 bytes of grout, ten at most. -/
theorem hodFlits_length (src dst vc fields : Nat) (handle : Dword) (grout : List Dword) :
    (hodFlits src dst vc fields handle grout).length = 2 + min 8 grout.length := by
  simp [hodFlits]; omega

/-! ### Slots (R67) -/

theorem writeBack_frame (e : Env) (d : Dp) (t i : Nat) :
    (writeBack e d t i).bricks = d.bricks ∧ (writeBack e d t i).rings = d.rings ∧ (writeBack e d t i).joints = d.joints ∧ (writeBack e d t i).net = d.net := by
  simp only [writeBack]
  split <;> exact ⟨rfl, rfl, rfl, rfl⟩

/-- R67. A slot that leaves its tile changes no record, no ring, no joint and no hod. -/
theorem drainSlot_frame (e : Env) (d : Dp) (t i : Nat) :
    (drainSlot e d t i).bricks = d.bricks ∧ (drainSlot e d t i).rings = d.rings ∧ (drainSlot e d t i).joints = d.joints ∧ (drainSlot e d t i).net = d.net := by
  simp [drainSlot, writeBack_frame]

end Sys2Proof.Machine
end

