-- ==== Sys2Proof/Laws/Answers.lean ====
section
/-! SUPPORT. Sys2Proof/Laws/Answers.lean: what the answers of a joint and the hods of a home tile can change. -/

namespace Sys2Proof.Machine

open Sys2Proof.Safety

/-! ### Hods sent -/

/-- What is sent is what was handed over, in its order. -/
theorem posts_sendAll (e : Env) (l : List Hod) (d : Dp) : posts (sendAll e l d).net = posts d.net ++ posts l := by
  obtain ⟨hs, k, hp, h⟩ := sendAll_frame e l d
  rw [h]
  simp only [posts, List.map_append]
  rw [hp]

theorem posts_send (e : Env) (d : Dp) (a b : Port) (vc : VC) (p : BitVec 4) (x : HodBody) :
    posts (send e d a b vc p x).net = posts d.net ++ [(a, b, vc, x)] := by
  obtain ⟨h, k, _, h2, h3, h4, _, h6, hd⟩ := send_frame e d a b vc p x
  rw [hd]
  simp [posts, h2, h3, h4, h6]

/-- R74, R362. A brick without a mirror copy, none of whose hods waits for a number: its hods leave at once. -/
theorem emit_plain (e : Env) (d : Dp) (t i k : Nat) (outs : List Hod) (u : Option (Nat × Nat × BitVec 3))
    (h : fget d.mirCopies (stripeKey i k) = none) (w : numberWait d t i = none) : emit e d t i k outs u = sendAll e outs d := by
  simp [emit, emitNow, h, w]

/-- R341. A hod kept for a FROZEN partition changes that partition only. -/
theorem keepFrozen_frame (d : Dp) (h : Hod) : keepFrozen d h = setPart d h.part { partOf d h.part with recHods := (partOf d h.part).recHods ++ [h] } := rfl

/-! ### Slots -/

/-- Using a slot changes the slots of its tile only. -/
theorem touchSlot_frame (d : Dp) (t : Nat) (r : SlotRef) (dirty : Bool) :
    ∃ l, touchSlot d t r dirty = setTile d t { tileOf d t with slots := l } := by
  unfold touchSlot
  extract_lets
  split
  · exact ⟨_, rfl⟩
  · exact ⟨_, rfl⟩

theorem dropSlot_frame (d : Dp) (t : Nat) (r : SlotRef) : ∃ l, dropSlot d t r = setTile d t { tileOf d t with slots := l } := ⟨_, rfl⟩

/-! ### Answers -/

/-- R365. Carrying a number changes the incident table only. -/
theorem carry_frame (d : Dp) (p : BitVec 4) (n : Word) : ∃ l, carry d p n = { d with inc := { d.inc with entries := l } } := by
  unfold carry
  extract_lets
  split
  · exact ⟨d.inc.entries, rfl⟩
  · split
    · exact ⟨d.inc.entries, rfl⟩
    · exact ⟨_, rfl⟩

/-- R245. A hint changes the hint FIFO of its joint, its held hints, and the counter of discarded ones. -/
theorem pushHint_frame (e : Env) (d : Dp) (j : Nat) (h : Hint) :
    ∃ a b, CountFrame (setJoint d j { jointOf d j with hints := a, heldHints := b }) (pushHint e d j h) ∨ CountFrame d (pushHint e d j h) := by
  unfold pushHint
  extract_lets
  split
  · exact ⟨_, _, .inl ⟨d.obs.kctr, rfl⟩⟩
  · split
    · exact ⟨[], [], .inr (bumpK_frame e d 2 j 5 1)⟩
    · split
      · exact ⟨_, _, .inl ⟨d.obs.kctr, rfl⟩⟩
      · exact ⟨_, _, .inl ⟨d.obs.kctr, rfl⟩⟩

/-- R247. Filling the buffer moves beats into it and loses none. -/
theorem fill_beats (x : Joint) : x.fill.resp ++ x.fill.respMore = x.resp ++ x.respMore := by simp [Joint.fill]

/-- R233, R247. A delivery puts the response's beats behind those of the joint; beside it only counters and carried numbers change. -/
theorem deliver_frame (e : Env) (d : Dp) (j : Nat) (slot : BitVec 3) (rid : BitVec 10) (r : Resp) (ahead : Nat) :
    ∃ l k p, deliver e d j slot rid r ahead
      = { d with
          joints := fput d.joints j { ({ jointOf d j with respMore := (jointOf d j).respMore ++ respBeats slot rid r ahead } : Joint).fill with
            respWait := some (((jointOf d j).respWait).getD (now e)) },
          inc := { d.inc with entries := l }, obs := { d.obs with kctr := k, pctr := p } } := by
  unfold deliver
  extract_lets x y d1 d2
  obtain ⟨k, h2⟩ : CountFrame d1 d2 := by
    by_cases h : r.status = .retry
    · simp only [d2, h, if_true]; exact bumpK_frame e d1 2 j 1 1
    · simp only [d2, h, if_false]; exact ⟨d1.obs.kctr, rfl⟩
  split
  · exact ⟨d.inc.entries, k, d.obs.pctr, h2⟩
  · rename_i p _
    extract_lets d3 d4 d5
    have g : ∀ (c : Prop) [Decidable c] (x y : Dp) (i : Nat), (∃ m, x = { y with obs := { y.obs with pctr := m } }) →
        ∃ m, (if c then bumpP e x p i 1 else x) = { y with obs := { y.obs with pctr := m } } := by
      rintro c _ x y i ⟨m, rfl⟩
      split
      · obtain ⟨m2, h⟩ := bumpP_frame e { y with obs := { y.obs with pctr := m } } p i 1
        exact ⟨m2, h⟩
      · exact ⟨m, rfl⟩
    obtain ⟨m3, h3⟩ := bumpP_frame e d2 p 0 1
    obtain ⟨m4, h4⟩ := g (r.status = .timeout) d3 d2 8 ⟨m3, h3⟩
    obtain ⟨m, h5⟩ := g ((r.status = .busy || r.status = .retry) = true) d4 d2 9 ⟨m4, h4⟩
    have h5 : d5 = { d2 with obs := { d2.obs with pctr := m } } := h5
    split
    · obtain ⟨l, hc⟩ := carry_frame d5 p (r.value.setWidth 32)
      exact ⟨l, k, m, by rw [hc, h5, h2]; rfl⟩
    · exact ⟨d.inc.entries, k, m, by rw [h5, h2]; rfl⟩

/-- R230. An answer to an entry that is not there is only counted. -/
theorem answer_none (e : Env) (d : Dp) (j id : Nat) (r : Resp) (h : entryOf d j id = none) : answer e d j id r = bumpK e d 2 j 4 1 := by
  simp [answer, h]

/-- R230, R244. An answer to an entry that never pended: the entry frees and its response is delivered. -/
theorem answer_now (e : Env) (d : Dp) (j id : Nat) (r : Resp) (x : JEntry) (h : entryOf d j id = some x) (hp : x.pended = false) :
    answer e d j id r
      = deliver e (setJoint d j { jointOf d j with entries := (jointOf d j).entries.filter (fun z => z.id != id) }) j x.req.slot x.req.rid r := by
  simp [answer, h, hp]

/-- R142, R243, R244. An answer to an entry that pended: its WAKE goes first, and the response waits behind the hints before it. -/
theorem answer_pended (e : Env) (d : Dp) (j id : Nat) (r : Resp) (x : JEntry) (h : entryOf d j id = some x) (hp : x.pended = true) :
    ∃ ahead, ahead ≤ (jointOf d j).hints.length ∧ answer e d j id r
      = deliver e (pushHint e (setJoint d j { jointOf d j with entries := (jointOf d j).entries.filter (fun z => z.id != id) }) j (wakeHint x))
          j x.req.slot x.req.rid r ahead := by
  simp only [answer, h, hp, if_true]
  refine ⟨_, ?_, rfl⟩
  split
  · exact Nat.le_refl _
  · exact Nat.zero_le _

end Sys2Proof.Machine
end

