-- ==== Sys2Proof/Tests/Slice0.lean ====
section
/-! SUPPORT. Sys2Proof/Tests/Slice0.lean: the author's own tests: an ill-formed term for each check of WellFormed, and for each statement with hypotheses a concrete state and operands that meet them, with what the rule gives there where it is a fixed value. -/

namespace Sys2Proof.Tests

open Sys2Proof.Machine Sys2Proof.Safety

set_option Elab.async false

/-! ### The machine the tests start from -/

/-- The state after a command. -/
def after (c : Instr) (s : State) : State :=
  match exec c s with
  | .next t => t
  | .fault _ => State.reset
  | .refused _ => State.reset

/-- A started instance: ready, every tile powered and locked, 2^15 bricks of backing store, GT at 1,000,000. -/
def env0 : Env :=
  let e := Env.reset Integration.default
  { e with
    clk := { e.clk with gt := 1000000, gtPrev := 999360, per := 40, settle := 0, edgeCyc := 40000 },
    pwr := { e.pwr with enable := true, ready := true, ptiles := (List.range 36).map (fun k => (k, { powered := true, asleep := false, lock := 2 })) },
    kp := { e.kp with bsLog2 := 21 } }

/-- A valid brick of partition 0 and group 0. -/
def brick (t : BType) (g : BitVec 8) (b : Body) : Brick := { Brick.never with valid := true, typ := t, gen := g, body := b }

/-- A running ring of 16 entries. -/
def cfg4 : RingCfg := { RingCfg.init with base := 0x10000, log2 := 4 }

/-- Agents 0 to 7 in partition 0, its ring 0, the keeper ring and both completion rings enabled; no brick yet. -/
def dp0 : Dp :=
  { Dp.reset with
    ag := [(0, { AgReg.init with en := 0xFF })],
    parts := [(0, { Part.init with qb := 100, qg := 300, ub := 5, gmask := [(0, 0x1F)] })],
    rings := [(0, { SubRing.init with cfg := cfg4, state := .running }), (1, { SubRing.init with cfg := cfg4, state := .running }),
              (128, { SubRing.init with cfg := cfg4, state := .running })],
    cmpl := [(0, { OutRing.init with cfg := cfg4, state := .running }), (16, { OutRing.init with cfg := cfg4, state := .running })] }

/-- Brick b placed at index i, resident and clean on its home tile. -/
def place (d : Dp) (i : Nat) (b : Brick) : Dp :=
  let t := homeOf env0 i
  setTile (setBrick d i b) t { tileOf d t with slots := (tileOf d t).slots ++ [(.brick i, false)] }

def st (d : Dp) : State := { env := env0, dp := d, pending := [] }

/-- A request of agent (0, 0), gang 0. -/
def req (i : Nat) (b : Brick) (c : BitVec 16) (bs : List Beat) : Req :=
  { slot := 0, rid := 7, handle := brickHandle env0 i b, gang := 0, flags := 0, count := c, tag := 0, beats := bs }

/-- Status, COURSE and VALUE of the responses in the net. -/
def answers (s : State) : List (Status × Word × Dword) :=
  s.dp.net.filterMap (fun g => match g.body with | .resp _ a => some (a.status, a.course, a.value) | _ => none)

/-- Where the releases and watchers' copies in the net go, and what they say. -/
def rels (s : State) : List (Port × Rel) :=
  s.dp.net.filterMap (fun g => match g.body with | .release r => some (g.dst, r) | .watcher r => some (g.dst, r) | _ => none)

/-- Where the combined partials in the net go: count, contributions, lane sums and bytes. -/
def partials (s : State) : List (Port × Nat × Nat × List Int × Nat) :=
  s.dp.net.filterMap (fun g => match g.body with
    | .arrival a => (match a.pay with | .acc p n => some (g.dst, a.count, p.cnt, p.lanes.map (fun l => l.a), n) | _ => none)
    | _ => none)

/-- A hod at tile cycle 0 of partition 0. -/
def hod (src dst : Port) (vc : VC) (b : HodBody) : Hod := mkHod src dst vc 0 b

/-- TileTakes, evaluated. -/
def tileTakes (e : Env) (d : Dp) (n t : Nat) (h : Hod) : Bool :=
  decide (takeable e d n = some h ∧ h.dst = .tile t ∧ tileServes e d t = true ∧ (h.vc == .req && !reqOpen d t) = false) && (match h.body.needs with | some i => !mustFetch e d i | none => true)

theorem tileTakes_spec (e : Env) (d : Dp) (n t : Nat) (h : Hod) (g : tileTakes e d n t h = true) : TileTakes e d n t h := by
  simp only [tileTakes, Bool.and_eq_true, decide_eq_true_eq] at g
  refine ⟨g.1.1, g.1.2.1, g.1.2.2.1, g.1.2.2.2, ?_⟩
  have := g.2
  split <;> simp_all

/-! ### WellFormed -/

theorem test_wf_fetchBatch : (Instr.fetchBatch .keeper []).wf = false ∧ (Instr.fetchBatch .keeper (List.replicate 16 0)).wf = true := by decide +kernel
theorem test_wf_brickFree : (Instr.brickFree .keeper (List.replicate 8192 0)).wf = false := by
  simp only [Instr.wf, listWf, List.length_replicate]; decide
theorem test_wf_bondSet : (Instr.bondSet .keeper (List.replicate 8192 0)).wf = false := by
  simp only [Instr.wf, listWf, List.length_replicate]; decide
theorem test_wf_snapshot : (Instr.snapshot .keeper (List.replicate 8192 0)).wf = false := by
  simp only [Instr.wf, listWf, List.length_replicate]; decide
theorem test_wf_weightLoad : (Instr.weightLoad .keeper (List.replicate 131009 0)).wf = false := by
  simp only [Instr.wf, tableWf, List.length_replicate]; decide
theorem test_wf_drainMarker : (Instr.drainMarker 0 (.tile 3) 0).wf = false ∧ (Instr.drainMarker 0 (.joint 127) 0).wf = true := by decide +kernel
theorem test_wf_meshEcc : (Instr.meshEcc 0 144 ⟨0, true⟩).wf = false ∧ (Instr.meshEcc 0 143 ⟨0, true⟩).wf = true := by decide +kernel
theorem test_wf_engineEccError : (Instr.engineEccError (some 36) 0).wf = false ∧ (Instr.engineEccError (some 35) 0).wf = true := by decide +kernel
theorem test_wf_trigger : (Instr.trigger 5).wf = false ∧ (Instr.trigger 4).wf = true := by decide +kernel

/-! ### Requests, locks, semaphores, events -/

def lock0 : Brick := brick .lock 1 (.lock { held := false, abandoned := false, hprio := 0, eprio := 0, hagent := 0, hgang := 0, grants := 5, queue := [] })
def lock1 : Brick := brick .lock 1 (.lock { held := true, abandoned := false, hprio := 2, eprio := 2, hagent := 0, hgang := 0, grants := 6, queue := [] })
def sem0 : Brick := brick .semaphore 1 (.semaphore { count := 3, queue := [] })
def evt0 : Brick := brick .event 1 (.event { set := false, sets := 9, waitj := [] })

/-- One brick at index 33, whose home is tile 0 (R48: 1 xor 1). -/
def one (b : Brick) : State := st (place dp0 33 b)

def rq (b : Brick) (c : BitVec 16) (bs : List Beat) : Req := req 33 b c bs

/-- An entry of slot 0 of joint 0 that awaits its seal since tile cycle 39,990. -/
def sealing (d : Dp) (op : AOp) (r : Req) : State :=
  st (setJoint d 0 { jointOf d 0 with entries := [newEntry 3 op r 0 false .sealing], seals := [(0, 39990)] })

theorem test_wf_undefined : (Instr.query 0 { rq lock0 0 [] with undef := some 0x30 }).wf = false ∧ (Instr.query 0 { rq lock0 0 [] with undef := some 0x31 }).wf = true := by decide +kernel

/-- R228, R249: a request whose OPCODE no row of Table 8.3 defines is answered BAD_TYPE. -/
theorem test_undefined_opcode :
    let r := { rq lock0 0 [] with undef := some 0x31 }
    ((jointOf (after (.query 0 r) (one lock0)).dp 0).resp.map (fun b => b.data)) = [(Resp.plain .badType).beat]
    ∧ (jointOf (after (.query 0 r) (one lock0)).dp 0).entries = [] := by decide +kernel

theorem test_home_33 : homeOf env0 33 = 0 ∧ homeOf env0 7 = 7 ∧ capacity env0 = 32768 := by decide +kernel

theorem wit_RequestWaitsForSeal_first :
    AOp.release .lockRel = true ∧ Admitted env0 (one lock1).dp 0 .lockRel (rq lock1 0 []) 0 false ∧ SlotClear (one lock1).dp 0 0
    ∧ (jointOf (after (.lockRel 0 (rq lock1 0 [])) (one lock1)).dp 0).entries = [newEntry 0 .lockRel (rq lock1 0 []) 0 false .sealing] := by decide +kernel

theorem wit_RequestWaitsForSeal_behind :
    let s := sealing (one lock1).dp .lockRel { rq lock1 0 [] with rid := 1 }
    Admitted s.env s.dp 0 .lockTry (rq lock1 0 []) 0 false ∧ ¬ SlotClear s.dp 0 0
    ∧ ((jointOf (after (.lockTry 0 (rq lock1 0 [])) s).dp 0).entries.map (fun x => x.phase)) = [.sealing, .behind] := by decide +kernel

theorem wit_RequestRefused_beats :
    let r := rq lock0 0 [0, 0, 0, 0, 0]
    Presented env0 (one lock0).dp 0 r ∧ agentPart (one lock0).dp 0 0 = some 0 ∧ 4 < r.beats.length
    ∧ ((jointOf (after (.lockTry 0 r) (one lock0)).dp 0).resp.map (fun b => b.data)) = [(Resp.plain .badCount).beat] := by decide +kernel

theorem wit_RequestRefused_handle :
    let r := { rq lock0 0 [] with handle := brickHandle env0 33 sem0 }
    Presented env0 (one lock0).dp 0 r ∧ r.beats.length ≤ 4 ∧ handleFront env0 (some 0) AOp.lockTry.types r.handle = some .badType
    ∧ ((jointOf (after (.lockTry 0 r) (one lock0)).dp 0).resp.map (fun b => b.data)) = [(Resp.plain .badType).beat] := by decide +kernel

theorem wit_RequestRefused_saved :
    let d := setPart (one lock0).dp 0 { partOf (one lock0).dp 0 with st := .saved }
    let r := rq lock0 0 []
    Presented env0 d 0 r ∧ Formed env0 d 0 .lockTry r 0 ∧ (partOf d 0).st = .saved
    ∧ ((jointOf (after (.lockTry 0 r) (st d)).dp 0).resp.map (fun b => b.data)) = [(Resp.plain .suspended).beat] := by decide +kernel

theorem wit_RequestRefused_busy :
    let s := sealing (one lock0).dp .lockRel (rq lock0 0 [])
    let r := rq lock0 0 []
    Presented env0 s.dp 0 r ∧ Formed env0 s.dp 0 .lockTry r 0 ∧ (jointOf s.dp 0).frozen.contains 0 = false ∧ (partOf s.dp 0).st = .run
    ∧ ridOut s.dp 0 r.slot r.rid = true
    ∧ ((jointOf (after (.lockTry 0 r) s).dp 0).resp.map (fun b => b.data)) = [(Resp.plain .busy).beat] := by decide +kernel

theorem wit_RequestRefused_retry :
    let r := rq lock0 0 []
    let es := (List.range 1024).map (fun k => newEntry k .lockAcq { r with rid := BitVec.ofNat 10 (k + 8) } 0 (decide (64 ≤ k)) .pends)
    let d := setJoint (one lock0).dp 0 { jointOf (one lock0).dp 0 with entries := es.filter (fun x => x.req.rid != 7) }
    Presented env0 d 0 r ∧ Formed env0 d 0 .lockTry r 0 ∧ (partOf d 0).st = .run
    ∧ ridOut d 0 r.slot r.rid = false ∧ freeEntry d 0 r.slot = none
    ∧ ((jointOf (after (.lockTry 0 r) (st d)).dp 0).resp.map (fun b => b.data)) = [(Resp.plain .retry).beat] := by decide +kernel

theorem wit_RequestRefused_fenced :
    let key := fenceKey env0 3 0
    let e := { env0 with rep := { env0.rep with fencedAgents := [0] } }
    let s : State := { one lock0 with env := e }
    let k : State := { s with dp := { s.dp with inc := { s.dp.inc with pinned := [(.alwaysOn, key, 0x281)] } } }
    let r := rq lock0 0 []
    let long := rq lock0 0 [0, 0, 0, 0, 0]
    accepts e = true ∧ (agentClass e 0 0).isSome = true ∧ agentFence e 0 0 = some key ∧ 4 < long.beats.length
    ∧ beatsOf (after (.lockTry 0 long) s).dp 0 = beatsFor 0 7 (Resp.plain .badCount)
    ∧ numberOf k.dp (.joint 0) key = some 0x281 ∧ beatsOf (after (.lockTry 0 r) k).dp 0 = beatsFor 0 7 { Resp.plain .fenced with value := 0x281 }
    ∧ numberOf s.dp (.joint 0) key = none ∧ beatsOf (after (.lockTry 0 r) s).dp 0 = []
    ∧ ((after (.lockTry 0 r) s).dp.inc.waits, (fget (after (.lockTry 0 r) s).dp.inc.waitResp 0).map (fun w => w.resp.status)) = ([(.joint 0, key, 0)], some .fenced) := by decide +kernel

theorem wit_RequestRefused_access :
    let key := mkKey env0 3 0 .access
    let r := rq lock0 0 []
    let s := one lock0
    let free := st { s.dp with ag := [] }
    let other := st { s.dp with ag := [(0, { AgReg.init with en := 0xFF, part := 0x11111111 })] }
    let known := st { free.dp with inc := { free.dp.inc with known := [(.joint 0, key, 0x281)] } }
    let far := { r with handle := r.handle ||| 1 }
    Presented env0 free.dp 0 r ∧ agentPart free.dp 0 0 = none ∧ handleHere env0 far.handle = false
    ∧ beatsOf (after (.lockTry 0 far) free).dp 0 = beatsFor 0 7 (Resp.plain .badHandle)
    ∧ handleHere env0 r.handle = true ∧ beatsOf (after (.lockTry 0 r) known).dp 0 = beatsFor 0 7 { Resp.plain .access with value := 0x281 }
    ∧ (after (.lockTry 0 r) free).dp.inc.waits = [(.joint 0, key, 0)] ∧ (after (.lockTry 0 r) free).dp.inc.reports.map (fun q => (q.1, q.2.key)) = [(.joint 0, key)]
    ∧ agentPart other.dp 0 0 = some 1 ∧ handleFront env0 (some 1) (reqTypes r .lockTry) r.handle = some .access
    ∧ (after (.lockTry 0 r) other).dp.inc.waits = [(.joint 0, key, 0)] ∧ ridOut (after (.lockTry 0 r) other).dp 0 0 7 = true := by decide +kernel

theorem wit_RequestRefused_rest :
    let d := setJoint (one lock1).dp 0 { jointOf (one lock1).dp 0 with entries := [newEntry 3 .lockAcq { rq lock1 0 [] with rid := 9 } 0 false .pends] }
    let r := rq lock1 0 []
    let bad := rq lock1 0 [0, 0]
    Formed env0 d 0 .lockAcq r 0 ∧ ridOut d 0 0 7 = false ∧ freeEntry d 0 0 ≠ none ∧ alreadyQueued d 0 .lockAcq r = true
    ∧ beatsOf (after (.lockAcq 0 r) (st d)).dp 0 = beatsFor 0 7 (Resp.plain .busy)
    ∧ stepForm d 0 .lockAcq bad = some .badCount ∧ beatsOf (after (.lockAcq 0 bad) (st d)).dp 0 = beatsFor 0 7 (Resp.plain .badCount) := by decide +kernel

theorem wit_LockRequestsDecide :
    let s := one lock0
    let r := rq lock0 0 []
    SlotClear s.dp 0 0 ∧ Homed s.env s.dp r.handle lock0 ∧ Near s.env s.dp 0 r.handle ∧ Allowed s.env s.dp 0 0 lock0 ∧ FreshId s.dp 0
    ∧ Admitted s.env s.dp 0 .lockTry r 0 false ∧ Admitted s.env s.dp 0 .lockAcq r 0 false
    ∧ [after (.lockTry 0 r) s, after (.lockAcq 0 r) s].all (fun t => t.dp.net.map (fun h => h.body) == [.resp 0 { Resp.at .ok 6 with holder := some 0 }]) = true := by decide +kernel

theorem wit_LockRequestsDecide_pends :
    let s := one lock1
    let r := { rq lock1 0 [] with gang := 1, flags := 4 }
    SlotClear s.dp 0 0 ∧ Homed s.env s.dp r.handle lock1 ∧ Near s.env s.dp 0 r.handle ∧ Admitted s.env s.dp 0 .lockAcq r 0 false
    ∧ (jointOf (after (.lockAcq 0 r) s).dp 0).entries.map (fun x => (x.phase, x.pended)) = [(.pends, true)]
    ∧ ((after (.lockAcq 0 r) s).dp.net.map (fun h => h.body)) = [.hint { handle := r.handle, prio := 4, gang := 0, slot := 0, kind := 1 }] := by decide +kernel

/-- Two waiters, of levels 1 and 3. -/
def waiters : List Waiter :=
  [{ agent := 1, gang := 0, prio := 1, n := 2, dlRun := false, dlAt := 0, store := 0, joint := 0, entry := 9, tag := 0, op := .lockAcq },
   { agent := 2, gang := 5, prio := 3, n := 3, dlRun := true, dlAt := 999000, store := 1, joint := 0, entry := 10, tag := 0, op := .lockAcq }]

def lock2 : Brick := brick .lock 1 (.lock { held := true, abandoned := false, hprio := 2, eprio := 3, hagent := 0, hgang := 0, grants := 6, queue := waiters })
def sem2 : Brick := brick .semaphore 1 (.semaphore { count := 1, queue := waiters })

theorem wit_LockDecision :
    let l : Lock := { held := true, abandoned := false, hprio := 2, eprio := 3, hagent := 0, hgang := 0, grants := 6, queue := waiters }
    l.held = true ∧ l.holder 0 0 = true ∧ l.holder 0 1 = false ∧ l.queue ≠ [] ∧ (l.release 0 0).1.hagent = 2 ∧ (l.release 0 0).1.hprio = 3
    ∧ (l.release 0 0).1.grants = 7 ∧ (l.release 0 1).2.1 = .notOwner ∧ .hint 2 0 0 2 ∈ (l.release 0 0).2.2
    ∧ (let k := { l with eprio := 2, queue := [] }
       k.eprio.toNat ≤ k.hprio.toNat ∧ (k.release 0 0).2.2 = []) := by decide +kernel

theorem wit_SemaphoreRequestsDecide :
    let s := one sem0
    let r := rq sem0 3 []
    SlotClear s.dp 0 0 ∧ Homed s.env s.dp r.handle sem0 ∧ Near s.env s.dp 0 r.handle ∧ Allowed s.env s.dp 0 0 sem0 ∧ FreshId s.dp 0
    ∧ Admitted s.env s.dp 0 .semTry r 0 false ∧ Admitted s.env s.dp 0 .semTake r 0 false
    ∧ brickOf (after (.semTry 0 r) s).dp 33 = brick .semaphore 1 (.semaphore { count := 0, queue := [] })
    ∧ posts (after (.semTake 0 r) s).dp.net = posts [replyHod 0 0 0 0 (Resp.at .ok 0)] := by decide +kernel

theorem wit_SemaphoreDecision :
    let m : Sem := { count := 1, queue := waiters }
    (∃ v ∈ m.queue, (0 : Nat) ≤ v.prio.toNat) ∧ m.count + 4 ≤ 0xFFFFFFFF ∧ 0xFFFFFFFF < m.count + 0xFFFFFFFF
    ∧ (m.give 4).1.count = 0 ∧ (m.give 4).1.queue = [] ∧ (m.give 3).1.count = 1 ∧ (m.give 3).1.queue.length = 1
    ∧ (m.give 0xFFFFFFFF).2.1 = .badCount := by decide +kernel

theorem wit_EventRequestsDecide :
    let s := one evt0
    let r := rq evt0 0 []
    SlotClear s.dp 0 0 ∧ Homed s.env s.dp r.handle evt0 ∧ Near s.env s.dp 0 r.handle ∧ Allowed s.env s.dp 0 0 evt0 ∧ FreshId s.dp 0
    ∧ (Admitted s.env s.dp 0 .evtClear r 0 false ∧ Admitted s.env s.dp 0 .evtWait r 0 false ∧ forwarded s.dp 0 r.handle = false)
    ∧ (posts (after (.evtClear 0 r) s).dp.net = posts [replyHod 0 0 0 0 (Resp.at .ok 9)]
       ∧ forwarded (after (.evtWait 0 r) s).dp 0 r.handle = true) := by
  refine ⟨?_, ?_, ?_, ?_, ?_, ?_, ?_⟩ <;> decide +kernel

theorem wit_EventRequestsDecide_second :
    let s := after (.evtWait 0 { rq evt0 0 [] with rid := 1 }) (one evt0)
    Admitted s.env s.dp 0 .evtWait (rq evt0 0 []) 0 false ∧ forwarded s.dp 0 (rq evt0 0 []).handle = true
    ∧ (after (.evtWait 0 (rq evt0 0 [])) s).dp.net = s.dp.net := by decide +kernel

theorem wit_TestAndQueryReport :
    let s := one lock1
    let r := rq lock1 0 []
    SlotClear s.dp 0 0 ∧ Homed s.env s.dp r.handle lock1 ∧ Near s.env s.dp 0 r.handle ∧ Allowed s.env s.dp 0 0 lock1 ∧ Admitted s.env s.dp 0 .query r 0 false
    ∧ Admitted s.env s.dp 0 .test r 0 false ∧ bedFor s.dp 0 r.handle = none
    ∧ (after (.test 0 r) s).dp.net.map (fun h => h.body) = [.resp 0 (Resp.at .busy 6)] := by decide +kernel

theorem wit_SealAckRunsHome_lock :
    let s := sealing (place dp0 33 lock2) .lockRel (rq lock2 0 [])
    let x := newEntry 3 .lockRel (rq lock2 0 []) 0 false .sealing
    Sealing s.env s.dp 0 0 x 39990 ∧ Homed s.env s.dp x.req.handle lock2 ∧ Near s.env s.dp 0 x.req.handle ∧ Allowed s.env s.dp 0 0 lock2
    ∧ ((after (.sealAck 0 0) s).dp.net.map (fun h => h.dst)) = [.joint 0, .joint 0, .joint 0] := by decide +kernel

theorem wit_SealAckRunsHome_sem :
    let s := sealing (place dp0 33 sem0) .semGive (rq sem0 2 [])
    let x := newEntry 3 .semGive (rq sem0 2 []) 0 false .sealing
    Sealing s.env s.dp 0 0 x 39990 ∧ Homed s.env s.dp x.req.handle sem0 ∧ Near s.env s.dp 0 x.req.handle ∧ Allowed s.env s.dp 0 0 sem0
    ∧ brickOf (after (.sealAck 0 0) s).dp 33 = brick .semaphore 1 (.semaphore { count := 5, queue := [] }) := by decide +kernel

theorem wit_SealAckRunsHome_event :
    let s := sealing (place dp0 33 evt0) .evtSet (rq evt0 0 [])
    let x := newEntry 3 .evtSet (rq evt0 0 []) 0 false .sealing
    Sealing s.env s.dp 0 0 x 39990 ∧ Homed s.env s.dp x.req.handle evt0 ∧ Near s.env s.dp 0 x.req.handle ∧ Allowed s.env s.dp 0 0 evt0
    ∧ brickOf (after (.sealAck 0 0) s).dp 33 = brick .event 1 (.event { set := true, sets := 10, waitj := [] })
    ∧ (let t := sealing (after (.sealAck 0 0) s).dp .evtSet (rq evt0 0 [])
       Sealing t.env t.dp 0 0 x 39990 ∧ (after (.sealAck 0 0) t).dp.bricks = t.dp.bricks) := by decide +kernel

/-! ### Barriers: beds, joints, home tiles -/

/-- A barrier of two members of joint 0: agent 0 with one gang and agent 1 with two; its courses up to 4 are complete. -/
def bar : Barrier :=
  { Barrier.init with
    course := 4, expect := 3, armed := true, bonded := true, watch := List.replicate 10 none,
    bond := some { expect := 3, lchild := 0, members := [{ agent := 0, gangs := 1, wave := 0 }, { agent := 1, gangs := 2, wave := 0 }] } }

def barB (x : Barrier) : Brick := brick .barrier 1 (.barrier x)

def barH : Dword := brickHandle env0 33 (barB bar)

def bed0 : Bed :=
  { index := 33, handle := barH, part := 0, mask := 0x1F, armed := true, poisoned := none, cfg := none, cfgWaits := false
    members := [{ slot := 0, e := 1, a := 0, b := 0, f := 0, wave := 0, rank := 0 }, { slot := 1, e := 2, a := 2, b := 1, f := 2, wave := 0, rank := 1 }]
    course := 4, status := .ok, gflags := 0, result := [], up := .tile 0, waiting := false, heldPay := [] }

/-- The barrier x placed, and its bed at joint 0. -/
def barDp (x : Barrier) : Dp :=
  let d := place dp0 33 (barB x)
  setJoint d 0 { jointOf d 0 with beds := [bed0] }

def breq (slot : BitVec 3) (c : BitVec 16) (bs : List Beat) : Req := { rq (barB bar) c bs with slot := slot }

/-- An entry 3 of joint 0 in a phase. -/
def withEntry (d : Dp) (op : AOp) (r : Req) (ph : EPhase) : Dp :=
  setJoint { d with seq := 4 } 0 { jointOf d 0 with entries := [newEntry 3 op r 0 false ph], seals := if ph = .sealing then [(r.slot.toNat, 39990)] else [] }

def netOf (d : Dp) (l : List Hod) : Dp := { d with net := l }

theorem wit_ArrivalCountsAtBed_opens :
    let s := st (withEntry (barDp bar) .arrive (breq 0 1 []) .sealing)
    let x := newEntry 3 .arrive (breq 0 1 []) 0 false .sealing
    Sealing s.env s.dp 0 0 x 39990 ∧ bedFor s.dp 0 barH = some bed0 ∧ admits s.env bed0.mask 0 0 = true ∧ groutCheck none { slot := 0, e := 1, a := 0, b := 0, f := 0, wave := 0, rank := 0 } x.req = none
    ∧ ((bedFor (after (.sealAck 0 0) s).dp 0 barH).map (fun b => b.members.map (fun m => (m.a, m.b)))) = some [(1, 0), (2, 1)]
    ∧ ((jointOf (after (.sealAck 0 0) s).dp 0).resp.map (fun b => b.data)) = [(Resp.at .ok 5).beat] := by decide +kernel

/-- The last count of the open course: the joint sends the whole of it, with the TAG of this arrival. -/
theorem wit_ArrivalCountsAtBed_complete :
    let r := { breq 0 1 [] with tag := 0xAB }
    let b := { bed0 with up := .router 13, members := [{ slot := 0, e := 1, a := 0, b := 0, f := 0, wave := 0, rank := 0 }, { slot := 1, e := 2, a := 2, b := 1, f := 0, wave := 0, rank := 1 }] }
    let d := withEntry (barDp bar) .arrive r .sealing
    let s := st (setJoint d 0 { jointOf d 0 with beds := [b] })
    let x := newEntry 3 .arrive r 0 false .sealing
    Sealing s.env s.dp 0 0 x 39990 ∧ bedFor s.dp 0 barH = some b ∧ (b.members.map (fun k => k.e - k.f)).sum = 3
    ∧ posts (after (.sealAck 0 0) s).dp.net = [(.joint 0, .router 13, .req, .arrival { plainArrival b 0 x 5 3 with tag := 0xAB })] := by decide +kernel

theorem wit_ArrivalCountsAtBed_grout :
    let c : GCfg := { fmt := 1, op := 0, exact := false, lanes := 1, passes := 1, f64 := false, mxout := false, wlog := 0 }
    let b := { bed0 with cfg := some c, up := .router 13 }
    let r := { breq 0 1 [5] with flags := 1 }
    let d := withEntry (barDp bar) .arrive r .sealing
    let s := st (setJoint d 0 { jointOf d 0 with beds := [b] })
    let x := newEntry 3 .arrive r 0 false .sealing
    let m : BedMember := { slot := 0, e := 1, a := 0, b := 0, f := 0, wave := 0, rank := 0 }
    Sealing s.env s.dp 0 0 x 39990 ∧ bedFor s.dp 0 barH = some b ∧ b.member 0 = some m ∧ groutCheck b.cfg m r = none ∧ arrCase m 1 = .opens
    ∧ posts (after (.sealAck 0 0) s).dp.net = [(.joint 0, b.dest s.env, .req, .arrival (groutArrival b 0 m x 5))] := by decide +kernel

theorem wit_ArrivalCountsAtBed_next :
    let s := st (withEntry (barDp bar) .arriveWait (breq 1 1 []) .sealing)
    let x := newEntry 3 .arriveWait (breq 1 1 []) 0 false .sealing
    Sealing s.env s.dp 0 1 x 39990
    ∧ ((bedFor (after (.sealAck 0 1) s).dp 0 barH).map (fun b => b.members.map (fun m => (m.a, m.b)))) = some [(0, 0), (2, 2)]
    ∧ ((jointOf (after (.sealAck 0 1) s).dp 0).entries.map (fun y => (y.phase, y.target))) = [(.pends, 6)] := by decide +kernel

theorem wit_ArrivalCountsAtBed_refused :
    let s := st (withEntry (barDp bar) .arrive (breq 1 2 []) .sealing)
    let x := newEntry 3 .arrive (breq 1 2 []) 0 false .sealing
    Sealing s.env s.dp 0 1 x 39990 ∧ arrCase { slot := 1, e := 2, a := 2, b := 1, f := 2, wave := 0, rank := 1 } 2 = .refuse .badCount
    ∧ ((jointOf (after (.sealAck 0 1) s).dp 0).resp.map (fun b => b.data)) = [(Resp.at .badCount 4).beat] := by decide +kernel

theorem wit_WaitAtJoint :
    let s := st (barDp bar)
    Admitted s.env s.dp 0 .wait (breq 0 0 [4]) 0 false ∧ SlotClear s.dp 0 0 ∧ FreshId s.dp 0 ∧ bedFor s.dp 0 barH = some bed0
    ∧ completed bed0.course (reqTarget (breq 0 0 [4])) = true ∧ Admitted s.env s.dp 0 .wait (breq 0 0 [5]) 0 false
    ∧ completed bed0.course (reqTarget (breq 0 0 [5])) = false ∧ completed 4 (4 - 0x7FFFFFFF) = true ∧ completed 4 (4 - 0x80000000) = false
    ∧ ((jointOf (after (.wait 0 (breq 0 0 [4])) s).dp 0).resp.length = 1)
    ∧ ((jointOf (after (.wait 0 (breq 0 0 [5])) s).dp 0).entries.map (fun y => (y.phase, y.target)) = [(.pends, 5)]) := by decide +kernel

theorem wit_TestAndQueryReport_bed :
    let s := st (barDp bar)
    let r := fun (t : Beat) => breq 0 0 [t]
    let d := setJoint s.dp 0 { jointOf s.dp 0 with beds := [{ bed0 with poisoned := some 0x281 }] }
    (SlotClear s.dp 0 0 ∧ FreshId s.dp 0 ∧ Admitted s.env s.dp 0 .test (r 4) 0 false)
    ∧ (Admitted s.env s.dp 0 .test (r 5) 0 false ∧ bedFor s.dp 0 barH = some bed0 ∧ admits s.env bed0.mask 0 0 = true)
    ∧ (completed bed0.course (reqTarget (r 4)) = true ∧ beatsOf (after (.test 0 (r 4)) s).dp 0 = beatsFor 0 7 (Resp.at .ok 4)
    ∧ completed bed0.course (reqTarget (r 5)) = false ∧ beatsOf (after (.test 0 (r 5)) s).dp 0 = beatsFor 0 7 (Resp.at .busy 4)
    ∧ beatsOf (after (.test 0 (r 5)) (st d)).dp 0 = beatsFor 0 7 { Resp.at .poisoned 4 with value := 0x281 }) := by
  refine ⟨?_, ?_, ?_⟩ <;> decide +kernel

theorem wit_TestAndQueryReport_barrier :
    let key := mkKey env0 0 33 .depart
    let s := one (barB bar)
    let p := one (barB { bar with poisoned := true, poisonInc := some key })
    let k := st { p.dp with inc := { p.dp.inc with known := [(.tile 0, key, 0x281)] } }
    let r := fun (t : Beat) => breq 0 0 [t]
    let told := fun (s : State) (t : Beat) => (after (.test 0 (r t)) s).dp.net.map (fun g => g.body)
    Homed s.env s.dp barH (barB bar) ∧ Near s.env s.dp 0 barH ∧ Allowed s.env s.dp 0 0 (barB bar) ∧ Admitted s.env s.dp 0 .test (r 5) 0 false ∧ bedFor s.dp 0 barH = none
    ∧ told s 4 = [.resp 0 (Resp.at .ok 4)] ∧ told s 5 = [.resp 0 (Resp.at .busy 4)]
    ∧ numberOf k.dp (.tile 0) key = some 0x281 ∧ (partOf k.dp 0).st = .run
    ∧ told k 5 = [.resp 0 { Resp.at .poisoned 4 with value := 0x281, brick := some 33 }] := by decide +kernel

theorem wit_WaitAtJoint_forwarded :
    let s := st (place dp0 33 (barB bar))
    let t := after (.wait 0 (breq 0 0 [5])) s
    Admitted s.env s.dp 0 .wait (breq 0 0 [5]) 0 false ∧ bedFor s.dp 0 barH = none ∧ forwarded s.dp 0 barH = false
    ∧ posts t.dp.net = [(.joint 0, .tile 0, .req, .fwdWait 33 0 0 5)]
    ∧ (let r := { breq 0 0 [5] with rid := 8 }
       Admitted t.env t.dp 0 .wait r 0 false ∧ forwarded t.dp 0 barH = true ∧ (after (.wait 0 r) t).dp.net = t.dp.net) := by decide +kernel

theorem wit_ResponseHodDelivers :
    let d := withEntry (barDp bar) .lockAcq (rq lock0 0 []) .atHome
    let r := Resp.at .ok 6
    let g : Hint := { handle := 64, prio := 1, gang := 2, slot := 3, kind := 0 }
    let s := st (netOf d [hod (.tile 0) (.joint 0) .rsp (.resp 3 r), hod (.tile 1) (.joint 0) .rsp (.hint g)])
    JointTakes s.env s.dp 0 0 (hod (.tile 0) (.joint 0) .rsp (.resp 3 r)) ∧ JointTakes s.env s.dp 1 0 (hod (.tile 1) (.joint 0) .rsp (.hint g))
    ∧ entryOf s.dp 0 3 = some (newEntry 3 .lockAcq (rq lock0 0 []) 0 false .atHome)
    ∧ (jointOf (after (.responseHod 0) s).dp 0).entries = [] ∧ (jointOf (after (.responseHod 0) s).dp 0).resp = respBeats 0 7 r 0
    ∧ (jointOf (after (.responseHod 1) s).dp 0).hints = [g] := by decide +kernel

theorem wit_ResponseHodDelivers_event :
    let d := withEntry (barDp bar) .evtWait (rq evt0 0 []) .pends
    let h := hod (.tile 0) (.joint 0) .rsp (.evtRelease 33 (brickHandle env0 33 evt0) 10 .ok 0)
    JointTakes env0 (netOf d [h]) 0 0 h ∧ (jointOf (after (.responseHod 0) (st (netOf d [h]))).dp 0).entries = [] := by decide +kernel

theorem wit_ResponseHodDelivers_wait :
    let h := hod (.tile 0) (.joint 0) .rsp (.resp 3 (Resp.at .ok 5))
    let x := newEntry 3 .wait (breq 0 0 [5]) 0 false .atHome
    let d := netOf { withEntry (barDp bar) .wait (breq 0 0 [5]) .atHome with seq := 4 } [h]
    let d := setJoint d 0 { jointOf d 0 with fwdWaits := [(barH, 3)] }
    let t := after (.responseHod 0) (st d)
    JointTakes env0 d 0 0 h ∧ entryOf d 0 3 = some x
    ∧ (jointOf d 0).entries.filter (fun y => y.op == x.op && y.req.handle == x.req.handle && (y.id == 3 || y.phase == .pends)) = [x]
    ∧ forwarded d 0 barH = true ∧ (jointOf t.dp 0).entries = [] ∧ forwarded t.dp 0 barH = false := by decide +kernel

theorem wit_ResponseHodDelivers_beats :
    let h := hod (.tile 0) (.joint 0) .rsp (.resp 3 (Resp.at .ok 5))
    let wait := setJoint dp0 0 { jointOf (netOf (withEntry (barDp bar) .wait (breq 0 0 [5]) .atHome) []) 0 with fwdWaits := [(barH, 3)] }
    let two := [{ newEntry 4 .evtWait { rq evt0 0 [] with slot := 2, rid := 9 } 0 false .pends with pended := true }, newEntry 3 .evtWait (rq evt0 0 []) 0 false .pends]
    let g := hod (.tile 0) (.joint 0) .rsp (.evtRelease 33 (brickHandle env0 33 evt0) 10 .ok 0)
    let evts := setJoint dp0 0 { jointOf dp0 0 with entries := two, fwdWaits := [(brickHandle env0 33 evt0, 3)] }
    let a : Resp := { Resp.at .ok 10 with value := 0 }
    beatsOf (after (.responseHod 0) (st (netOf wait [h]))).dp 0 = beatsFor 0 7 (doneResp 5 0 .ok 0 [])
    ∧ JointTakes env0 (netOf evts [g]) 0 0 g ∧ (two.map (fun y => y.id)).Nodup
    ∧ beatsOf (after (.responseHod 0) (st (netOf evts [g]))).dp 0 = beatsFor 0 7 a ++ beatsFor 2 9 a := by decide +kernel

theorem wit_ResponseHodDelivers_gone :
    let r := Resp.at .ok 6
    let h := hod (.tile 0) (.joint 0) .rsp (.resp 3 r)
    let d := netOf dp0 [h]
    JointTakes env0 d 0 0 h ∧ entryOf d 0 3 = none ∧ r.holder = none ∧ (jointOf d 0).fwdWaits.any (fun p => p.2 == 3) = false
    ∧ (after (.responseHod 0) (st d)).dp.net = [] ∧ (jointOf (after (.responseHod 0) (st d)).dp 0).resp = [] := by decide +kernel

/-- An arrival of agent 0 with nothing to say but where it goes. -/
def arrival0 : Arrival := { index := 33, handle := barH, course := 6, count := 2, pay := .none, tag := 0, agent := 0, gang := 0, op := .arrive, joint := 0 }

/-- The release of course 5. -/
def rel5 : Rel :=
  { index := 33, handle := barH, course := 5, status := .ok, gflags := 0, beats := [], instant := none, stagger := 0, value := 0, removeBed := false, cfg := none }

theorem wit_ReleasesCompleteWaits :
    let d := withEntry (barDp bar) .wait (breq 0 0 [5]) .pends
    let d := modEntry d 0 3 (fun x => { x with target := 5 })
    let h := hod (.tile 0) (.joint 0) .rsp (.release rel5)
    let g := hod (.tile 0) (.joint 0) .rsp (.watcher rel5)
    JointTakes env0 (netOf d [h]) 0 0 h ∧ bedFor d 0 barH = some bed0 ∧ newBedFor d 0 barH rel5.bond = none ∧ JointTakes env0 (netOf d [g]) 0 0 g
    ∧ (jointOf (after (.releaseCopy 0) (st (netOf d [h]))).dp 0).entries = []
    ∧ ((bedFor (after (.releaseCopy 0) (st (netOf d [h]))).dp 0 barH).map (fun b => (b.course, b.members.map (fun m => (m.a, m.b))))) = some (5, [(0, 0), (1, 0)])
    ∧ (jointOf (after (.watcherCopy 0) (st (netOf d [g]))).dp 0).entries = [] := by decide +kernel

/-- The next course is complete at the bed, or its contributions wait there. -/
theorem wit_ReleasesCompleteWaits_next :
    let full := [{ slot := 0, e := 1, a := 1, b := 1, f := 1, wave := 0, rank := 0 }, { slot := 1, e := 2, a := 2, b := 2, f := 2, wave := 0, rank := 1 }]
    let late : Arrival := { arrival0 with agent := 1, tag := 0xCD }
    let c : GCfg := { fmt := 1, op := 0, exact := false, lanes := 1, passes := 1, f64 := false, mxout := false, wlog := 0 }
    let b := { bed0 with up := .router 13, members := full, nextLast := some late }
    let g := { bed0 with up := .router 13, cfg := some c, heldPay := [(late, 7)] }
    let run := fun (b : Bed) =>
      let d := setJoint (barDp bar) 0 { jointOf (barDp bar) 0 with beds := [b] }
      after (.releaseCopy 0) (st (netOf d [hod (.tile 0) (.joint 0) .rsp (.release rel5)]))
    b.members.all (fun m => m.b == m.e) = true ∧ (b.members.map (fun m => m.e)).sum = 3 ∧ b.armed = true ∧ rel5.cfg = none
    ∧ posts (run b).dp.net = [(.joint 0, .router 13, .req, .arrival { late with course := 6, count := 3 })]
    ∧ posts (run g).dp.net = [(.joint 0, g.dest env0, .req, .arrival late)]
    ∧ bed0.members.all (fun m => m.b == m.e) = false ∧ (run bed0).dp.net = [] := by decide +kernel

theorem wit_ReleasesCompleteWaits_bed :
    let d := withEntry (barDp bar) .wait (breq 0 0 [5]) .pends
    let d := modEntry d 0 3 (fun x => { x with target := 5 })
    let run := fun (d : Dp) (r : Rel) => after (.releaseCopy 0) (st (netOf d [hod (.tile 0) (.joint 0) .rsp (.release r)]))
    let w := setJoint d 0 { jointOf d 0 with beds := [bed0, { bed0 with waiting := true, members := [{ slot := 4, e := 2, a := 0, b := 0, f := 0, wave := 0, rank := 0 }] }] }
    let other := { rel5 with course := 9 }
    let away := { rel5 with removeBed := true }
    let bad := { rel5 with course := 4, status := .poisoned, value := 0x281 }
    bedFor (run d other).dp 0 barH = some bed0
    ∧ newBedFor d 0 barH away.bond = none ∧ bedFor (run d away).dp 0 barH = none
    ∧ (newBedFor w 0 barH away.bond).isSome = true ∧ (bedFor (run w away).dp 0 barH).map (fun b => (b.course, b.members.map (fun m => (m.slot, m.e)))) = some (5, [(4, 2)])
    ∧ bad.marks bed0 = true ∧ (bedFor (run d bad).dp 0 barH).map (fun b => (b.course, b.poisoned)) = some (4, some 0x281)
    ∧ (jointOf (run d bad).dp 0).entries = [] := by decide +kernel

theorem wit_ReleasesCompleteWaits_watcher :
    let d := withEntry (place dp0 33 (barB bar)) .wait (breq 0 0 [5]) .pends
    let d := modEntry d 0 3 (fun x => { x with target := 5 })
    let run := fun (r : Rel) => after (.watcherCopy 0) (st (netOf d [hod (.tile 0) (.joint 0) .rsp (.watcher r)]))
    let bad := { rel5 with status := .poisoned, value := 0x281 }
    (watchedWaits d 0 barH).length = 1 ∧ (watchedWaits d 0 barH).all (fun y => bad.endsAt none y) = true
    ∧ (jointOf (run bad).dp 0).entries = [] ∧ (jointOf (run rel5).dp 0).entries = [] := by decide +kernel

/-- A beat for agent 0. -/
def rbeat : RBeat := { slot := 0, rid := 7, last := true, data := 0 }

theorem wit_JointPortsProgress :
    let d := withEntry (barDp bar) .wait (breq 0 0 [5]) .pends
    let g : Hint := { handle := 64, prio := 1, gang := 2, slot := 3, kind := 0 }
    let d := setJoint d 0 { jointOf d 0 with held := [{ entry := 3, instant := 999999, resp := Resp.at .ok 5 }, { entry := 4, instant := 1000001, resp := Resp.at .ok 5 }]
                                             hints := [g], heldHints := [g, g], resp := [rbeat, rbeat], respWait := some 38975 }
    let s := st d
    s.env.stop.stopped = false ∧ s.env.pwr.pfFrozen = false ∧ 1024 < now s.env - 38975
    ∧ ((jointOf (after (.alignedReleaseInstant 0) s).dp 0).held.map (fun q => q.entry)) = [4] ∧ entryOf (after (.alignedReleaseInstant 0) s).dp 0 3 = none
    ∧ (jointOf (after (.hintAccept 0) s).dp 0).hints = [g] ∧ (jointOf (after (.hintAccept 0) s).dp 0).heldHints = [g]
    ∧ (jointOf (after (.responseAccept 0) s).dp 0).resp = [rbeat] ∧ (jointOf (after (.jointStall 0) s).dp 0).stallSent = 256 := by decide +kernel

theorem wit_JointPortsProgress_nudge :
    let d := withEntry (barDp bar) .tokGet { breq 0 2 [] with handle := 0x2C0 } .pends
    let h := hod (.tile 0) (.joint 0) .rsp (.nudge 0 0x2C0)
    JointTakes env0 (netOf d [h]) 0 0 h
    ∧ (jointOf d 0).entries.find? (fun z => z.op == .tokGet && z.phase == .pends && z.req.handle == 0x2C0) = some (newEntry 3 .tokGet { breq 0 2 [] with handle := 0x2C0 } 0 false .pends)
    ∧ (after (.nudge 0) (st (netOf d [h]))).dp.net ≠ [h] := by decide +kernel

theorem wit_JointPortsProgress_waits :
    let d := withEntry (barDp bar) .tokGet { breq 0 2 [] with handle := 0x2C0 } .atHome
    let h := hod (.tile 0) (.joint 0) .rsp (.nudge 0 0x2C0)
    let a := st (setJoint dp0 0 { jointOf dp0 0 with resp := [{ rbeat with ahead := 1 }], hints := [{ handle := 64, prio := 1, gang := 2, slot := 3, kind := 1 }] })
    let q := st (setJoint dp0 0 { jointOf dp0 0 with seals := [(0, 38975)] })
    JointTakes env0 (netOf d [h]) 0 0 h
    ∧ (jointOf d 0).entries.any (fun z => z.op == .tokGet && z.req.handle == 0x2C0 && z.phase == .atHome && z.req.count != 0#16) = true
    ∧ (after (.nudge 0) (st (netOf d [h]))).dp.net = []
    ∧ after (.responseAccept 0) a = a ∧ (jointOf (after (.hintAccept 0) a).dp 0).resp = [rbeat]
    ∧ 1024 < now q.env - 38975 ∧ (jointOf (after (.jointStall 0) q).dp 0).stallSent = 1
    ∧ ((after (.jointStall 0) q).dp.inc.reports.map (fun x => x.2.key.kind)) = [.jointStall] := by decide +kernel

/-- A second slot's seal, long out, is reported while the first one's report stands; taking a hint lets the beat behind its WAKE go. -/
theorem wit_JointPortsProgress_slots :
    let g : Hint := { handle := 64, prio := 1, gang := 2, slot := 3, kind := 1 }
    let q := st (setJoint dp0 0 { jointOf dp0 0 with seals := [(0, 38970), (3, 38975)], stallSent := 1 })
    let r := after (.jointStall 0) q
    let a := st (setJoint dp0 0 { jointOf dp0 0 with resp := [{ rbeat with ahead := 1 }], hints := [g], respWait := some 7 })
    ((jointOf q.dp 0).seals.find? (fun z => decide (1024 < now q.env - z.2 ∧ (jointOf q.dp 0).stallSent.getLsbD z.1 = false))) = some (3, 38975)
    ∧ (jointOf r.dp 0).stallSent = 9 ∧ (r.dp.inc.reports.map (fun x => x.2.key.kind)) = [.jointStall] ∧ after (.jointStall 0) r = r
    ∧ after (.jointStall 0) a = a ∧ (jointOf (after (.hintAccept 0) a).dp 0).respWait = some (now a.env) := by decide +kernel

theorem wit_AgentDepartureClears :
    let d := { withEntry (barDp bar) .lockAcq (rq lock0 0 []) .pends with departing := [(0, 0)] }
    let s := { st d with env := { env0 with rep := { env0.rep with unavail := (List.range 30).map (fun k => k + 2) } } }
    let t := after (.agentDeparture 0) s
    s.dp.departing.find? (fun a => a.1 == 0) = some (0, 0) ∧ (partOf s.dp 0).st = .run ∧ (jointOf s.dp 0).frozen.contains 0 = false
    ∧ t.dp.departing = [] ∧ (jointOf t.dp 0).entries = [] ∧ ((jointOf t.dp 0).beds.map (fun b => b.members.map (fun m => m.slot))) = [[1]]
    ∧ [0, 1].all (fun k => t.dp.net.any (fun h => decide (h.dst = .tile k) && decide (h.body = .depart 0))) = true := by decide +kernel

/-- The counts of agent 0 off the open and the next course, on the way up, or kept while the partition is frozen. -/
theorem wit_AgentDepartureClears_shrink :
    let m : BedMember := { slot := 0, e := 3, a := 2, b := 0, f := 1, wave := 0, rank := 5 }
    let b := { bed0 with up := .router 13, members := [m] }
    let d := { setJoint (barDp bar) 0 { jointOf (barDp bar) 0 with beds := [b] } with departing := [(0, 0)] }
    let f := setJoint d 0 { jointOf d 0 with frozen := [0] }
    let e := { env0 with rep := { env0.rep with unavail := List.range 32 } }
    posts (after (.agentDeparture 0) { st d with env := e }).dp.net = [(.joint 0, .router 13, .req, .shrink 33 5 2 1 3 0 5)]
    ∧ posts (partOf (after (.agentDeparture 0) { st f with env := e }).dp 0).recHods = [(.joint 0, .router 13, .req, .shrink 33 5 2 1 3 0 5)]
    ∧ (jointOf (after (.agentDeparture 0) { st d with env := e }).dp 0).beds.map (fun b => b.members.length) = [0] := by decide +kernel

theorem wit_AgentDepartureClears_frozen :
    let d := { withEntry (barDp bar) .lockAcq (rq lock0 0 []) .pends with departing := [(0, 0)] }
    let f := setJoint d 0 { jointOf d 0 with frozen := [0] }
    let v := setPart d 0 { partOf d 0 with st := .saved }
    let e := { env0 with rep := { env0.rep with unavail := (List.range 30).map (fun k => k + 2) } }
    let t := after (.agentDeparture 0) { st f with env := e }
    let u := after (.agentDeparture 0) { st v with env := e }
    t.dp.net = [] ∧ (partOf t.dp 0).departed = true ∧ (partOf t.dp 0).recHods.any (fun h => decide (h.dst = .tile 0) && decide (h.body = .depart 0)) = true
    ∧ u.dp.net = [] ∧ (partOf u.dp 0).departed = true ∧ (partOf u.dp 0).depMap = [0] := by decide +kernel

def arrival (c : Word) (n : Nat) : Arrival :=
  { index := 33, handle := barH, course := c, count := n, pay := .none, tag := 0, agent := 0, gang := 0, op := .arrive, joint := 0 }

theorem wit_ArrivalHodCounts :
    let h := hod (.joint 0) (.tile 0) .req (.arrival (arrival 5 1))
    let s := st (netOf (barDp bar) [h])
    let x := { bar with count := 2 }
    let u := st (netOf (barDp x) [h])
    tileTakes s.env s.dp 0 (homeOf s.env 33) h = true ∧ brickOf s.dp 33 = barB bar ∧ brickHandle s.env 33 (barB bar) = barH ∧ fget s.dp.mirCopies (stripeKey 33 0) = none
    ∧ fget s.dp.lintels 33 = none ∧ numberWait s.dp (homeOf s.env 33) 33 = none ∧ bar.count + 1 < bar.expect ∧ ((barrierOf (after (.arrivalHod 0) s).dp 33).map (fun y => (y.course, y.count))) = some (4, 1)
    ∧ tileTakes u.env u.dp 0 (homeOf u.env 33) h = true ∧ x.expect ≤ x.count + 1 ∧ x.ahead + x.nextDelta < x.expect
    ∧ ((barrierOf (after (.arrivalHod 0) u).dp 33).map (fun y => (y.course, y.count))) = some (5, 0)
    ∧ ((after (.arrivalHod 0) u).dp.net.map (fun g => g.dst)) = [.joint 0] := by decide +kernel

theorem wit_ArrivalHodCounts_other_course :
    let h := hod (.joint 0) (.tile 0) .req (.arrival (arrival 6 1))
    let s := st (netOf (barDp bar) [h])
    tileTakes s.env s.dp 0 (homeOf s.env 33) h = true ∧ (after (.arrivalHod 0) s).dp.bricks = s.dp.bricks ∧ (after (.arrivalHod 0) s).dp.net = [] := by decide +kernel

/-- A configuration that folds in rank order, FP32 FAST SUM on one lane. -/
def foldCfg : GCfg := { fmt := 2, op := 0, exact := false, lanes := 1, passes := 1, f64 := false, mxout := false, wlog := 2 }

/-- INT64 SUM on one lane. -/
def sumCfg : GCfg := { fmt := 1, op := 0, exact := false, lanes := 1, passes := 1, f64 := false, mxout := false, wlog := 0 }

def groutIn (c : GCfg) : Grout :=
  { run := { cfg := some c, weights := none, base := 0, count := 4, byCfg := true }, acc := Acc.zero c, next := 0, window := [], cum := 0, result := [], resFlags := 0, empty := true }

def groutBar (c : GCfg) : Barrier := { bar with grout := some (groutIn c) }

def eight (n : Byte) : List Byte := [n, 0, 0, 0, 0, 0, 0, 0]

theorem wit_ArrivalHodCounts_grout :
    let a := { arrival 5 1 with pay := .one 0 1 (eight 5) }
    let f := { arrival 5 1 with pay := .one 5 2 [0, 0, 0x80, 0x3F] }
    let at_ := fun (x : Barrier) (a : Arrival) => st (netOf (barDp x) [hod (.joint 0) (.tile 0) .req (.arrival a)])
    let x := groutBar sumCfg
    let last := { x with count := 2 }
    let run := fun (x : Barrier) (a : Arrival) => after (.arrivalHod 0) (at_ x a)
    let z := (barrierOf (run last a).dp 33).bind (fun y => y.grout)
    (foldIn sumCfg x (skipOf (at_ x a).dp 33) (groutIn sumCfg) 0 a.pay).isSome = true ∧ (barrierOf (run x a).dp 33).map (fun y => (y.count, y.grout.map (fun g => g.acc.lanes.map (fun l => l.a)))) = some (1, some [5])
    ∧ foldIn foldCfg (groutBar foldCfg) (skipOf (at_ x a).dp 33) (groutIn foldCfg) 5 f.pay = none
    ∧ posts (run (groutBar foldCfg) f).dp.net = [(.tile 0, .joint 0, .rsp, .bounce f)]
    ∧ (barrierOf (run last a).dp 33).map (fun y => (y.course, y.count)) = some (5, 0) ∧ z.map (fun g => (g.result, g.empty, g.window)) = some (eight 5, true, [])
    ∧ (rels (run last a)).map (fun r => (r.1, r.2.course, r.2.beats)) = [(.joint 0, 5, [5])] := by decide +kernel

/-- A mirror's copy of brick 33. -/
theorem wit_ArrivalHodCounts_mirrored :
    let m : MirCopy := { tile := 9, runs := [], copy := barB bar, stripe := none }
    let h := hod (.joint 0) (.tile 0) .req (.arrival (arrival 5 1))
    let d := netOf (barDp bar) [h]
    let s := st { setBrick d 33 { barB bar with mirrored := true } with mirCopies := [(stripeKey 33 0, { m with copy := { barB bar with mirrored := true } })] }
    let t := after (.arrivalHod 0) s
    tileTakes s.env s.dp 0 0 h = true ∧ (t.dp.mirUpds.filter (fun u => u.index == 33 && u.k == 0)).map (fun u => u.copy) = [brickOf t.dp 33]
    ∧ (barrierOf t.dp 33).map (fun y => y.count) = some 1 := by decide +kernel

def comb0 : Comb := { router := 13, index := 33, expect := 3, before := 0, got := 1, nextDelta := 0, course := 5, acc := none, up := .router 14, waiting := false }

theorem wit_BranchCombineSums :
    let h := hod (.joint 0) (.router 13) .req (.arrival (arrival 5 1))
    let g := hod (.joint 0) (.router 13) .req (.arrival (arrival 5 2))
    let s := st { netOf (barDp bar) [h] with comb := [comb0] }
    let u := st { netOf (barDp bar) [g] with comb := [comb0] }
    takeable s.env s.dp 0 = some h ∧ (barrierOf s.dp 33).bind Barrier.cfg = none ∧ comb0.got + 1 + comb0.before < comb0.expect
    ∧ (after (.branchCombine 0) s).dp.comb = [{ comb0 with got := 2 }] ∧ (after (.branchCombine 0) s).dp.net = []
    ∧ takeable u.env u.dp 0 = some g ∧ comb0.expect ≤ comb0.got + 2 + comb0.before
    ∧ posts (after (.branchCombine 0) u).dp.net = [(.router 13, .router 14, .req, .arrival (arrival 5 3))] := by decide +kernel

theorem wit_BranchCombineSums_grout :
    let c := sumCfg
    let g := groutBar
    let h := fun (course : Word) => hod (.joint 0) (.router 13) .req (.arrival { arrival course 1 with pay := .one 0 1 [5, 0, 0, 0, 0, 0, 0, 0] })
    let s := fun (c : GCfg) (course : Word) => st { netOf (barDp (g c)) [h course] with comb := [comb0] }
    let d := { c with fmt := 2, wlog := 2 }
    takeable env0 (s c 5).dp 0 = some (h 5) ∧ ((barrierOf (s c 5).dp 33).bind Barrier.cfg).map GCfg.routers = some true
    ∧ comb0.got + 1 + comb0.before < comb0.expect ∧ ((after (.branchCombine 0) (s c 5)).dp.comb.map (fun x => (x.got, x.acc.isSome))) = [(2, true)]
    ∧ ((barrierOf (s d 5).dp 33).bind Barrier.cfg).map GCfg.routers = some false
    ∧ posts (after (.branchCombine 0) (s d 5)).dp.net = [(.joint 0, .tile 0, .req, (h 5).body)]
    ∧ (after (.branchCombine 0) (s c 6)).dp.net = [] ∧ (after (.branchCombine 0) (s c 6)).dp.comb = [comb0] := by decide +kernel

theorem wit_BranchCombineSums_whole :
    let a := { arrival 5 1 with pay := .one 0 1 (eight 5) }
    let c := { comb0 with got := 2, acc := some (contribution sumCfg none 1 1 (eight 7)) }
    let s := st { netOf (barDp (groutBar sumCfg)) [hod (.joint 0) (.router 13) .req (.arrival a)] with comb := [c] }
    let t := after (.branchCombine 0) s
    ((barrierOf s.dp 33).bind Barrier.cfg).map GCfg.routers = some true ∧ c.expect ≤ c.got + 1 + c.before ∧ t.dp.comb = [{ comb0 with got := 0, acc := none }]
    ∧ partials t = [(.router 14, 3, 2, [12], 16)] := by decide +kernel

theorem wit_WatcherSlots :
    let d := withEntry (place dp0 33 (barB bar)) .wait (breq 0 0 [5]) .atHome
    let h := hod (.joint 0) (.tile 0) .req (.fwdWait 33 0 3 5)
    let s := st (netOf d [h])
    tileTakes s.env s.dp 0 (homeOf s.env 33) h = true ∧ entryOf s.dp 0 3 = some (newEntry 3 .wait (breq 0 0 [5]) 0 false .atHome)
    ∧ Homed s.env s.dp barH (barB bar) ∧ Allowed s.env s.dp 0 0 (barB bar) ∧ completed bar.course 5 = false ∧ addWatch 0 bar.watch = some (some 0 :: List.replicate 9 none)
    ∧ ((barrierOf (after (.forwardedWait 0) s).dp 33).map (fun y => y.watch)) = some (some 0 :: List.replicate 9 none)
    ∧ ((entryOf (after (.forwardedWait 0) s).dp 0 3).map (fun y => y.phase)) = some .pends := by decide +kernel

theorem wit_WatcherSlots_others :
    let d := withEntry (place dp0 33 (barB { bar with watch := some 0 :: List.replicate 9 none })) .wait (breq 0 0 [4]) .atHome
    let h := hod (.joint 0) (.tile 0) .req (.fwdWait 33 0 3 4)
    let g := hod (.joint 0) (.tile 0) .mgmt (.unwatch 33 0)
    let s := st (netOf d [h, g])
    tileTakes s.env s.dp 0 (homeOf s.env 33) h = true ∧ completed bar.course 4 = true ∧ tileTakes s.env s.dp 1 (homeOf s.env 33) g = true
    ∧ ((after (.forwardedWait 0) s).dp.net.map (fun x => x.dst)) = [.tile 0, .joint 0]
    ∧ ((barrierOf (after (.unwatch 1) s).dp 33).map (fun y => y.watch)) = some (List.replicate 10 none) := by decide +kernel

theorem wit_WatcherSlots_poisoned :
    let h := hod (.joint 0) (.tile 0) .req (.fwdWait 33 0 3 5)
    let s := fun (x : Barrier) => st (netOf (withEntry (place dp0 33 (barB x)) .wait (breq 0 0 [5]) .atHome) [h])
    let key := mkKey env0 0 33 .depart
    let p := { bar with poisoned := true, poisonInc := some key }
    let k : State := { s p with dp := { (s p).dp with inc := { (s p).dp.inc with known := [(.tile 0, key, 0x281)] } } }
    let told := fun (s : State) => (after (.forwardedWait 0) s).dp.net.map (fun g => match g.body with | .resp 3 r => some (r.status, r.value) | _ => none)
    told (s { bar with armed := false }) = [some (.busy, 0)] ∧ addWatch 0 (List.replicate 10 (some 9)) = none
    ∧ told (s { bar with watch := List.replicate 10 (some 9) }) = [some (.busy, 0)]
    ∧ numberOf k.dp (.tile 0) key = some 0x281 ∧ told k = [some (.poisoned, 0x281)]
    ∧ numberOf (s p).dp (.tile 0) key = none ∧ told (s p) = [] ∧ (after (.forwardedWait 0) (s p)).dp.inc.waits.length = 1 := by decide +kernel

theorem wit_WatcherSlots_gone :
    let h := hod (.joint 0) (.tile 0) .req (.fwdWait 33 0 3 5)
    let s := st (netOf (place dp0 33 (barB bar)) [h])
    tileTakes s.env s.dp 0 (homeOf s.env 33) h = true ∧ entryOf s.dp 0 3 = none
    ∧ posts (after (.forwardedWait 0) s).dp.net = posts [replyHod 0 0 3 0 (Resp.plain .busy)] := by decide +kernel

theorem wit_DeadlineSweeps :
    let x := { bar with dlAt := 1000000 }
    let s := st (barDp x)
    let t := after (.barrierDeadlineExpiry 33) s
    brickOf s.dp 33 = barB x ∧ reached (tileGt s.env (homeOf s.env 33)) x.dlAt = true ∧ tileServes s.env s.dp (homeOf s.env 33) = true ∧ suspended s.dp 0 = false
    ∧ posts t.dp.net = [(.tile 0, .joint 0, .mgmt, .sweep 33 5)]
    ∧ (∃ h, h = t.dp.net[0]? ∧ takeable t.env t.dp 0 = h)
    ∧ (let u := after (.sweepHod 0) t
       posts u.dp.net = [(.joint 0, .tile 0, .mgmt, .sweepAns 33 5 0 1)]
       ∧ (sweepAnswersOf u.dp 33 5).length = 1 ∧ tileServes u.env u.dp 0 = true
       ∧ ((after (.sweepAnswers 33) u).dp.inc.reports.map (fun q => q.2.key.kind)) = [.timeout]) := by
  refine ⟨by decide +kernel, by decide +kernel, by decide +kernel, by decide +kernel, by decide +kernel, ⟨_, rfl, by decide +kernel⟩, by decide +kernel⟩

theorem wit_DeadlineSweeps_none :
    let h := hod (.tile 0) (.joint 1) .mgmt (.sweep 33 5)
    let s := st (netOf (barDp bar) [h])
    takeable s.env s.dp 0 = some h ∧ (jointOf s.dp 1).beds = []
    ∧ posts (after (.sweepHod 0) s).dp.net = [(.joint 1, .tile 0, .mgmt, .sweepAns 33 5 1 0)] := by decide +kernel

theorem wit_DeadlineSweeps_two :
    let x := { bar with sweep := [{ course := 5, joints := [0], missing := 0 }, { course := 6, joints := [0, 1], missing := 0 }] }
    let ans := fun (c : Word) => hod (.joint 0) (.tile 0) .mgmt (.sweepAns 33 c 0 1)
    let s := st (netOf (barDp x) [ans 5, ans 6])
    let t := after (.sweepAnswers 33) s
    sweepAnswer s.dp 33 5 0 = some 1 ∧ sweepAnswer s.dp 33 6 1 = none ∧ (barrierOf t.dp 33).map (fun y => y.sweep.map (fun w => w.course)) = some [6]
    ∧ sweepAnswersOf t.dp 33 5 = [] ∧ (sweepAnswersOf t.dp 33 6).length = 1 ∧ twinReports s.env s.dp 33 = true
    ∧ (t.dp.inc.reports.map (fun q => q.2.key.kind)) = [.timeout] := by decide +kernel

/-- The waits end TIMEOUT, at the beds and at the watchers, with the number the tile knows; a sweep still to be answered reports nothing. -/
theorem wit_DeadlineSweeps_ends :
    let x := { bar with dlAt := 1000000, watch := some 3 :: List.replicate 9 none }
    let d := barDp x
    let s := st { d with inc := { d.inc with known := [(.tile 0, mkKey env0 5 33 .timeout, 0x281)] } }
    let t := after (.barrierDeadlineExpiry 33) s
    let w := st (barDp { bar with sweep := [{ course := 5, joints := [0], missing := 0 }] })
    recordsNow s.env s.dp 0 = false
    ∧ (rels t).map (fun r => (r.1, r.2.course, r.2.status, r.2.value)) = [(.joint 0, 4, .timeout, 0x281), (.joint 3, 4, .timeout, 0x281)]
    ∧ (barrierOf t.dp 33).map (fun y => y.sweep) = some [{ course := 5, joints := [0], missing := 0 }]
    ∧ sweepAnswer w.dp 33 5 0 = none ∧ (after (.sweepAnswers 33) w).dp.inc = w.dp.inc ∧ (after (.sweepAnswers 33) w).dp.bricks = w.dp.bricks := by decide +kernel

theorem wit_ShrinkHodApplies :
    let h := hod (.joint 0) (.tile 0) .mgmt (.shrink 33 5 1 0 1 0 0)
    let s := st (netOf (barDp bar) [h])
    let x := { bar with arm := { bar.arm with depart := true } }
    let u := st (netOf (barDp x) [h])
    tileTakes s.env s.dp 0 (homeOf s.env 33) h = true ∧ bar.arm.depart = false ∧ bar.count < bar.expect - 1
    ∧ ((barrierOf (after (.shrinkHod 0) s).dp 33).map (fun y => (y.expect, y.nextDelta, y.shrunk))) = some (2, 0, true)
    ∧ tileTakes u.env u.dp 0 (homeOf u.env 33) h = true ∧ ((barrierOf (after (.shrinkHod 0) u).dp 33).map (fun y => y.poisoned)) = some true
    ∧ ((after (.shrinkHod 0) u).dp.inc.reports.map (fun q => q.2.key.kind)) = [.depart] := by decide +kernel

/-- The last missing member goes: the course closes with OK_SHRUNK; and without any member left the beds go. -/
theorem wit_ShrinkHodApplies_closes :
    let h := hod (.joint 0) (.tile 0) .mgmt (.shrink 33 5 1 0 1 0 0)
    let s := st (netOf (barDp { bar with count := 2 }) [h])
    let g := hod (.joint 0) (.tile 0) .mgmt (.shrink 33 5 1 2 3 0 0)
    let u := st (netOf (barDp { bar with count := 2 }) [g])
    let run := fun (s : State) => after (.shrinkHod 0) s
    let told := fun (s : State) => (rels (run s)).map (fun r => (r.1, r.2.course, r.2.status, r.2.removeBed))
    tileTakes s.env s.dp 0 0 h = true ∧ (barrierOf (run s).dp 33).map (fun y => (y.course, y.expect, y.shrunk, y.armed, y.bonded)) = some (5, 2, false, true, true)
    ∧ told s = [(.joint 0, 5, .okShrunk, false)]
    ∧ tileTakes u.env u.dp 0 0 g = true ∧ (barrierOf (run u).dp 33).map (fun y => (y.course, y.expect, y.armed, y.bonded)) = some (5, 0, false, false)
    ∧ told u = [(.joint 0, 5, .okShrunk, true)] := by decide +kernel

theorem wit_ShrinkHodApplies_other_course :
    let h := hod (.joint 0) (.tile 0) .mgmt (.shrink 33 7 1 0 2 0 0)
    let s := st (netOf (barDp bar) [h])
    tileTakes s.env s.dp 0 (homeOf s.env 33) h = true ∧ bar.count < bar.expect - 2
    ∧ ((barrierOf (after (.shrinkHod 0) s).dp 33).map (fun y => (y.expect, y.nextDelta, y.shrunk))) = some (1, 0, true) := by decide +kernel

theorem wit_ShrinkHodApplies_poisoned :
    let h := hod (.joint 0) (.tile 0) .mgmt (.shrink 33 5 1 0 1 0 0)
    let s := st (netOf (barDp { bar with poisoned := true }) [h])
    tileTakes s.env s.dp 0 (homeOf s.env 33) h = true
    ∧ ((barrierOf (after (.shrinkHod 0) s).dp 33).map (fun y => (y.expect, y.shrunk, y.poisoned))) = some (2, true, true) := by decide +kernel

theorem wit_DepartureReportAbandons :
    let h := hod (.joint 0) (.tile 0) .mgmt (.depart 0)
    let s := st (netOf (place dp0 33 lock2) [h])
    tileTakes s.env s.dp 0 0 h = true ∧ fget s.dp.bricks 33 = some lock2 ∧ lock2.part = h.part ∧ homeOf s.env 33 = 0
    ∧ (match (brickOf (after (.departureReport 0) s).dp 33).body with
       | .lock l => decide (l.held = true ∧ l.hagent = 2 ∧ l.queue.map (fun w => w.agent) = [1]) | _ => false) = true := by decide +kernel

theorem wit_DepartureReportAbandons_fetch :
    let h := hod (.joint 0) (.tile 0) .mgmt (.depart 0)
    let f : Fetch := { index := 33, issued := true, start := 999000, heldAt := none, parked := [] }
    let d := setBrick dp0 33 lock2
    let s := st (netOf (setTile d 0 { tileOf d 0 with fetches := [f] }) [h])
    tileTakes s.env s.dp 0 0 h = true ∧ brickOf (after (.departureReport 0) s).dp 33 = lock2
    ∧ (tileOf (after (.departureReport 0) s).dp 0).fetches = [{ f with parked := [.depart 0] }] := by decide +kernel

theorem wit_WaitDeadlineExpires :
    let s := st (place dp0 33 lock2)
    let t := after (.waitDeadlineExpiry 33 2 5) s
    brickOf s.dp 33 = lock2 ∧ (lock2.queue.find? (fun w => w.agent == 2 && w.gang == 5)).map (fun w => (w.dlRun, w.dlAt)) = some (true, 999000)
    ∧ reached (tileGt s.env 0) 999000 = true ∧ tileServes s.env s.dp 0 = true ∧ suspended s.dp 0 = false
    ∧ t.dp.net.any (fun g => decide (g.dst = .joint 0) && (match g.body with | .resp 10 r => decide (r.status = .timeout) | _ => false)) = true := by decide +kernel

theorem wit_BounceAndProbe :
    let a := arrival 5 1
    let h := hod (.tile 0) (.joint 0) .mgmt (.bounce a)
    let d := barDp bar
    let d := setJoint d 0 { jointOf d 0 with beds := [{ bed0 with up := .router 13 }] }
    let s := st (netOf d [h])
    takeable s.env s.dp 0 = some h ∧ (bedFor s.dp 0 a.handle).map (fun b => b.up) = some (.router 13)
    ∧ ((after (.bounce 0) s).dp.net.map (fun g => (g.dst, g.ready))) = [(.router 13, 40064)]
    ∧ (let u := st (barDp { bar with measure := 2 })
       tileServes u.env u.dp (homeOf u.env 33) = true ∧ fget u.dp.lintels 33 = none
       ∧ ((barrierOf (after (.pathProbe 33 17) u).dp 33).map (fun y => (y.path, y.measure))) = some (32, 0)) := by decide +kernel

theorem wit_BounceAndProbe_frozen :
    let h := hod (.tile 0) (.joint 0) .mgmt (.bounce (arrival 5 1))
    let d := barDp bar
    let d := setJoint d 0 { jointOf d 0 with frozen := [0] }
    let s := st (netOf d [h])
    takeable s.env s.dp 0 = some h ∧ takesRsp s.dp 0 = true ∧ (after (.bounce 0) s).dp.net = []
    ∧ ((partOf (after (.bounce 0) s).dp 0).recHods.map (fun g => g.body)) = [.arrival (arrival 5 1)] := by decide +kernel

/-! ### Pallets -/

def palB : Brick := brick .pallet 1 .pallet

/-- A single stripe of 64 places with three tokens, all in the head cache. -/
def str0 : Stripe := { Stripe.fresh 0 6 0 false 0x20000 0 0 with puts := 5, gets := 2, cache := [11, 12, 13] }

/-- The pallet at index 33 with a stripe 0. -/
def palDp (q : Stripe) : Dp := setStripe (place dp0 33 palB) 33 0 q

theorem wit_PalletGets :
    let s := st (palDp str0)
    let r := rq palB 3 []
    (SlotClear s.dp 0 0 ∧ FreshId s.dp 0 ∧ Homed s.env s.dp r.handle palB ∧ Near s.env s.dp 0 r.handle ∧ Allowed s.env s.dp 0 0 palB ∧ cachedLog2s s.dp 0 33 = none)
    ∧ (str0.fault = false ∧ reqSel r = false ∧ Admitted s.env s.dp 0 .tokGet r 0 false ∧ Admitted s.env s.dp 0 .tokTryget r 0 false)
    ∧ (forwarded s.dp 0 r.handle = false ∧ r.count.toNat ≤ str0.depth
    ∧ ((stripeOf (after (.tokGet 0 r) s).dp 33 0).map (fun q => (q.cache, q.gets))) = some ([], 5)
    ∧ ((stripeOf (after (.tokTryget 0 r) s).dp 33 0).map (fun q => (q.cache, q.gets))) = some ([], 5)) := by
  refine ⟨?_, ?_, ?_⟩ <;> decide +kernel

theorem wit_TestAndQueryReport_pallet :
    let e := st (place dp0 33 palB)
    let s := st (palDp str0)
    let z := st (palDp { str0 with gets := 5, cache := [] })
    let r := rq palB 0 []
    (Homed s.env s.dp r.handle palB ∧ Near s.env s.dp 0 r.handle ∧ Allowed s.env s.dp 0 0 palB) ∧ (Admitted s.env s.dp 0 .query r 0 false ∧ Admitted s.env s.dp 0 .test r 0 false)
    ∧ (cachedLog2s s.dp 0 33 = none ∧ stripeOf e.dp 33 0 = none ∧ answers (after (.query 0 r) e) = [(.ok, 0, 0)] ∧ answers (after (.test 0 r) e) = [(.busy, 0, 0)]
    ∧ stripeOf s.dp 33 0 = some str0 ∧ str0.lost = none ∧ answers (after (.query 0 r) s) = [(.ok, 3, 3 + 3 * 2 ^ 21 + 2 ^ 29)]
    ∧ answers (after (.test 0 r) s) = [(.ok, 3, 0)] ∧ answers (after (.test 0 r) z) = [(.busy, 0, 0)]) := by
  refine ⟨?_, ?_, ?_⟩ <;> decide +kernel

theorem wit_PalletGets_empty :
    let s := st (palDp { str0 with gets := 5, cache := [] })
    let r := rq palB 3 []
    Homed s.env s.dp r.handle palB ∧ Admitted s.env s.dp 0 .tokGet r 0 false ∧ Admitted s.env s.dp 0 .tokTryget r 0 false
    ∧ ((after (.tokTryget 0 r) s).dp.net.map (fun h => match h.body with | .resp _ a => some a.status | _ => none)) = [some .okEmpty]
    ∧ ((stripeOf (after (.tokGet 0 r) s).dp 33 0).map (fun q => q.waitj)) = some [0]
    ∧ ((jointOf (after (.tokGet 0 r) s).dp 0).entries.map (fun y => y.phase)) = [.pends] := by decide +kernel

/-- An entry of agent 0 that puts two tokens and awaits its seal. -/
def putS (q : Stripe) : State := st (withEntry (palDp q) .tokPut (rq palB 2 [0x00000000000000220000000000000021]) .sealing)

def putX : JEntry := newEntry 3 .tokPut (rq palB 2 [0x00000000000000220000000000000021]) 0 false .sealing

theorem wit_PalletPuts :
    let s := putS str0
    Sealing s.env s.dp 0 0 putX 39990 ∧ Homed s.env s.dp putX.req.handle palB ∧ Near s.env s.dp 0 putX.req.handle ∧ Allowed s.env s.dp 0 0 palB ∧ str0.depth + 2 ≤ str0.segment
    ∧ str0.cache.length = str0.depth ∧ ((stripeOf (after (.sealAck 0 0) s).dp 33 0).map (fun q => (q.cache, q.puts))) = some ([11, 12, 13, 0x21, 0x22], 7) := by decide +kernel

theorem wit_PalletPuts_ring :
    let q := { str0 with cache := [11], seg := [12, 13] }
    let s := putS q
    Sealing s.env s.dp 0 0 putX 39990 ∧ ¬ (q.cache.length = q.depth ∧ q.cache.length + 2 ≤ 64)
    ∧ ((stripeOf (after (.sealAck 0 0) s).dp 33 0).map (fun q => (q.cache, q.writing.map (fun w => w.toks)))) = some ([11], some [0x21, 0x22]) := by decide +kernel

theorem wit_PalletPuts_full :
    let q := { str0 with puts := 65, gets := 2 }
    let s := putS q
    Sealing s.env s.dp 0 0 putX 39990 ∧ q.segment < q.depth + 2 ∧ str0.segment = 64
    ∧ ((after (.sealAck 0 0) s).dp.net.map (fun h => match h.body with | .resp _ a => some a.status | _ => none)) = [some .busy] := by decide +kernel

def palH : Dword := brickHandle env0 33 palB

def putOp : PutOp := { joint := 0, entry := 3, toks := [31, 32], agent := 0, gang := 0, tag := 0, from_ := none, handle := palH }

theorem wit_PalletRingsAndSiblings_ring :
    let s := st (palDp { str0 with cache := [11], seg := [12, 13], writing := some putOp })
    let u := st (palDp { str0 with cache := [11], seg := [12, 13], refill := some 2 })
    unavailable s.env (stripeTile s.env 33 0) = false ∧ (tileOf s.dp (stripeTile s.env 33 0)).test = none
    ∧ ((stripeOf (after (.ringWriteDone 33 0) s).dp 33 0).map (fun q => (q.puts, q.seg))) = some (7, [12, 13, 31, 32])
    ∧ ((after (.ringWriteDone 33 0) s).dp.port.mem.map (fun m => (m.addr, m.data))) = [(0x20028, 31 + 32 * 2 ^ 64)]
    ∧ ((stripeOf (after (.refillDone 33 0) u).dp 33 0).map (fun q => (q.cache, q.seg))) = some ([11, 12, 13], [])
    ∧ ((stripeOf (after (.palletRingFault 33 0 true 0x20010) u).dp 33 0).map (fun q => (q.fault, q.faddr))) = some (true, 0x20010)
    ∧ ((stripeOf (after (.palletRingFault 33 0 false 0x20028) s).dp 33 0).map (fun q => (q.fault, q.faddr))) = some (true, 0x20028) := by decide +kernel

theorem wit_PalletRingsAndSiblings_held :
    let q := { str0 with cache := [11], seg := [12, 13], refill := some 2, writing := some putOp, wacc := .held }
    let s := st (palDp q)
    stripeOf (after (.refillDone 33 0) s).dp 33 0 = some { q with refill := none, thief := none } ∧ q.thief = none
    ∧ ((stripeOf (after (.palletRingFault 33 0 true 0x20010) s).dp 33 0).map (fun q => (q.fault, q.faddr))) = some (true, 0x20010)
    ∧ ((after (.palletRingFault 33 0 true 0x20010) s).dp.inc.reports.map (fun x => x.2.key.kind)) = [.xlateFault] := by decide +kernel

/-- A write that passes the segment's end goes in two runs; in a stop what the memory port answers waits for GO. -/
theorem wit_PalletRingsAndSiblings_stop :
    let q := { str0 with puts := 63, gets := 60, cache := [11], seg := [12, 13], writing := some putOp }
    let s := st (palDp q)
    let u : State := { st (palDp { q with refill := some 2 }) with env := { env0 with stop := { env0.stop with stopped := true } } }
    let t := after (.ringWriteDone 33 0) u
    ((after (.ringWriteDone 33 0) s).dp.port.mem.map (fun m => (m.addr, m.len, m.data))) = [(q.slotAddr 63, 8, 31), (q.slotAddr 0, 8, 32)]
    ∧ q.segment = 64 ∧ stillOut u.dp 33 0 .wrote = true ∧ t.dp.ringEnds = [(stripeKey 33 0, .wrote)] ∧ stripeOf t.dp 33 0 = stripeOf u.dp 33 0
    ∧ stillOut t.dp 33 0 .wrote = false ∧ after (.ringWriteDone 33 0) t = t ∧ stillOut t.dp 33 0 .filled = true ∧ stillOut t.dp 33 0 (.fault true 0x20010) = true := by decide +kernel

/-- Stripe 1 of two stripes, on tile 1. -/
def str1 : Stripe := { Stripe.fresh 1 7 1 true 0x20000 9 0 with puts := 5, gets := 2, cache := [11, 12, 13] }

def get2 : GetOp := { joint := 0, entry := 3, count := 2, try_ := false, agent := 0, gang := 0, tag := 0, first := 0, sel := false, handle := palH }

theorem wit_PalletRingsAndSiblings_sweep :
    let h := hod (.tile 0) (.tile 1) .req (.palSweep 33 1 get2)
    let s := st (netOf (setStripe (palDp str0) 33 1 str1) [h])
    let u := st (netOf (setStripe (palDp str0) 33 1 { str1 with gets := 5, cache := [] }) [h])
    tileTakes s.env s.dp 0 (stripeTile s.env 33 1) h = true ∧ palThere s.env s.dp 33 palH = true ∧ str1.depth = 3
    ∧ ((stripeOf (after (.palletSweep 0) s).dp 33 1).map (fun q => (q.cache, q.gets))) = some ([13], 4)
    ∧ tileTakes u.env u.dp 0 (stripeTile u.env 33 1) h = true ∧ ((stripeOf (after (.palletSweep 0) u).dp 33 1).map (fun q => q.hungry)) = some 1
    ∧ posts (after (.palletSweep 0) u).dp.net = [(.tile 1, .tile 0, .req, .palSweep 33 0 get2)] := by decide +kernel

/-- A getter's own stripe counts among those that the pallet has now. -/
theorem wit_PalletRingsAndSiblings_fewer :
    let g := { get2 with first := 6 }
    let h := hod (.tile 0) (.tile 1) .req (.palSweep 33 1 g)
    let u := st (netOf (setStripe (palDp str0) 33 1 { str1 with gets := 5, cache := [] }) [h])
    tileTakes u.env u.dp 0 1 h = true ∧ 6 % 2 ^ str1.log2s = 0 ∧ ((stripeOf (after (.palletSweep 0) u).dp 33 1).map (fun q => q.hungry)) = some 1
    ∧ posts (after (.palletSweep 0) u).dp.net = [(.tile 1, .tile 0, .req, .palSweep 33 0 { g with first := 0 })] := by decide +kernel

theorem wit_PalletRingsAndSiblings_forwarded :
    let p := { putOp with from_ := some 0 }
    let h := hod (.tile 0) (.tile 1) .req (.fwdPut 33 1 p)
    let s := st (netOf (setStripe (palDp str0) 33 1 str1) [h])
    let u := st (netOf (setStripe (palDp str0) 33 1 { str1 with puts := 65, gets := 2 }) [h])
    tileTakes s.env s.dp 0 (stripeTile s.env 33 1) h = true ∧ ((stripeOf (after (.forwardedPut 0) s).dp 33 1).map (fun q => (q.cache, q.puts))) = some ([11, 12, 13, 31, 32], 7)
    ∧ str1.segment = 64 ∧ posts (after (.forwardedPut 0) u).dp.net = [(.tile 1, .tile 0, .req, .fwdPut 33 0 p)] := by decide +kernel

/-! ### Fetches, mirrors, stealing and the net -/

def fetch0 : Fetch := { index := 33, issued := true, start := 999000, heldAt := none, parked := [] }

/-- Brick 33 known and not resident, with the fetch f. -/
def fetchS (f : Fetch) : State :=
  let d := setBrick dp0 33 lock0
  st (setTile d 0 { tileOf d 0 with fetches := [f] })

theorem wit_FetchesComplete :
    let s := fetchS fetch0
    let h := { fetchS { fetch0 with heldAt := some 1000000 } with env := { env0 with clk := { env0.clk with gt := 2600000 } } }
    let w := fetchS { fetch0 with issued := false }
    tileServes s.env s.dp (homeOf s.env 33) = true ∧ resident s.dp 0 (.brick 33) = false ∧ resident (after (.fetchComplete 33 0 ⟨0, none⟩) s).dp 0 (.brick 33) = true
    ∧ ((tileOf (after (.fetchComplete 33 1 ⟨0x840, none⟩) s).dp 0).fetches.map (fun f => f.heldAt)) = [some 1000000]
    ∧ 1600000 ≤ (gtInterp h.env - 1000000).toNat ∧ resident (after (.backstoreRetry 33 0 ⟨0, none⟩) h).dp 0 (.brick 33) = true
    ∧ issuedFetches w.dp 0 < Config.fetchLimit ∧ (makeRoom w.env w.dp 0).isSome = true
    ∧ ((tileOf (after (.fetchSlotFree 0) w).dp 0).fetches.map (fun f => f.issued)) = [true] := by decide +kernel

/-- A tile 0 from which brick 33 is being written back, as the pair says. -/
def wbackS (g : Option Dword) : State :=
  let d := setBrick dp0 33 lock0
  { st (setTile d 0 { tileOf d 0 with wbacks := [(33, g)] }) with env := { env0 with clk := { env0.clk with gt := 2600000 } } }

theorem wit_FetchesComplete_record :
    let s := fetchS fetch0
    let w : BitVec 512 := recordOf (setBrick dp0 33 lock1) 33
    let h := { fetchS { fetch0 with heldAt := some 1000000 } with env := { env0 with clk := { env0.clk with gt := 2600000 } } }
    brickOf (after (.fetchComplete 33 0 ⟨0, some w⟩) s).dp 33 = (brickOf s.dp 33).ofRecord (queueFrom s.env s.dp 0 w) w
    ∧ (match (brickOf (after (.fetchComplete 33 0 ⟨0, some w⟩) s).dp 33).body with | .lock l => decide (l.held = true ∧ l.hprio = 2 ∧ l.grants = 6) | _ => false) = true
    ∧ ((tileOf (after (.backstoreRetry 33 1 ⟨0x840, none⟩) h).dp 0).fetches.map (fun f => f.heldAt)) = [some 2600000]
    ∧ ((after (.backstoreRetry 33 0 ⟨0x840, none⟩) h).dp.inc.reports.map (fun x => x.2.key.kind)) = [.backstore] := by decide +kernel

theorem wit_FetchesComplete_wback :
    let s := wbackS none
    let h := wbackS (some 1000000)
    tileServes s.env s.dp 0 = true ∧ (tileOf (after (.fetchComplete 33 0 ⟨0, none⟩) s).dp 0).wbacks = []
    ∧ (tileOf (after (.fetchComplete 33 2 ⟨0x840, none⟩) s).dp 0).wbacks = [(33, some 2600000)]
    ∧ ((after (.fetchComplete 33 2 ⟨0x840, none⟩) s).dp.inc.reports.map (fun x => x.2.key.kind)) = [.backstore]
    ∧ retryDue h.env (some 1000000) = true ∧ ((after (.backstoreRetry 33 0 ⟨0x840, none⟩) h).dp.port.mem.map (fun m => (m.addr, m.len))) = [(0x840, 64)] := by decide +kernel

theorem wit_MirrorsStealingAndNet_mirror :
    let u : MirUpd := { id := 2, index := 33, k := 0, home := 0, copy := lock1, stripe := none, outs := [hod (.tile 0) (.joint 0) .rsp (.resp 3 (Resp.at .ok 6))], undo := none }
    let m : MirCopy := { tile := 9, runs := [], copy := lock0, stripe := none }
    let h := hod (.tile 0) (.tile 9) .mgmt (.mirUpd 2 0)
    let g := hod (.tile 9) (.tile 0) .mgmt (.mirAck 2 false)
    let s := st { netOf (place dp0 33 lock1) [h, g] with mirUpds := [u], mirCopies := [(stripeKey 33 0, m)] }
    tileTakes s.env s.dp 0 9 h = true ∧ tileTakes s.env s.dp 1 0 g = true ∧ u.copy.queue.length ≤ m.copy.queue.length
    ∧ posts (after (.mirrorUpdate 0) s).dp.net = posts [g] ++ [(.tile 9, .tile 0, .mgmt, .mirAck 2 false)]
    ∧ (after (.mirrorAck 1) s).dp.mirUpds = [] ∧ posts (after (.mirrorAck 1) s).dp.net = posts [h] ++ posts u.outs := by decide +kernel

theorem wit_MirrorsStealingAndNet_full :
    let u : MirUpd := { id := 2, index := 33, k := 0, home := 0, copy := lock2, stripe := none, outs := [], undo := some (2, 5, 2) }
    let g := hod (.tile 9) (.tile 0) .mgmt (.mirAck 2 true)
    let s := st { netOf (place dp0 33 lock2) [g] with mirUpds := [u] }
    let t := after (.mirrorAck 0) s
    tileTakes s.env s.dp 0 0 g = true ∧ (lock2.queue.find? (fun w => w.agent == 2 && w.gang.toNat == 5)).isSome = true
    ∧ (brickOf t.dp 33).queue.map (fun w => w.agent) = [1]
    ∧ t.dp.net.any (fun h => decide (h.dst = .joint 0) && (match h.body with | .resp 10 a => decide (a.status = .busy) | _ => false)) = true := by decide +kernel

theorem wit_MirrorsStealingAndNet_steal :
    let d := setTile dp0 1 { tileOf dp0 1 with work := List.replicate 5 (.batch (.part 0 0)) }
    let s := st d
    tileServes s.env s.dp 0 = true ∧ tileServes s.env s.dp 1 = true ∧ tileIdle s.env s.dp 0 = true ∧ s.env.kp.thresh.toNat < (tileOf d 1).work.length
    ∧ hops (tileRouter s.env 0) (tileRouter s.env 1) ≤ s.env.kp.radius.toNat ∧ (tileOf (after (.mgmtSteal 0 1) s).dp 1).work.length = 4
    ∧ s.env.kp.radius ≠ 0 ∧ (tileOf (after (.mgmtSteal 0 1) s).dp 0).work = [.batch (.part 0 0)] := by decide +kernel

theorem wit_MirrorsStealingAndNet_steal_refill :
    let d := palDp { str0 with refill := some 2 }
    let s := st (setTile d 1 { tileOf d 1 with work := List.replicate 5 (.refill 33 0) })
    ((stripeOf (after (.mgmtSteal 0 1) s).dp 33 0).map (fun q => q.thief)) = some (some 0) := by decide +kernel

theorem wit_MirrorsStealingAndNet_net :
    let h := { hod (.joint 0) (.tile 0) .mgmt (.unwatch 33 0) with back := true, ready := 40000 }
    let s := st (netOf dp0 [h])
    h.ready ≤ now s.env ∧ posts (after (.returnedHodResend 0) s).dp.net = posts [h]
    ∧ (route (portRouter s.env h.src) (portRouter s.env h.dst)).contains 12 = true ∧ (after (.meshEcc 0 12 ⟨5, true⟩) s).dp.net = [] ∧ (after (.meshEcc 0 12 ⟨5, false⟩) s).dp.net = [h]
    ∧ ((after (.meshEcc 0 12 ⟨5, true⟩) s).dp.inc.reports.map (fun q => q.2.key.kind)) = [.meshEcc] := by decide +kernel

theorem wit_MirrorsStealingAndNet_flit :
    exec (.meshEcc 0 12 ⟨4, true⟩) (st dp0) = .next (st { dp0 with flitErr := [(100, true)] }) := by rfl

/-! ### Rings and descriptors -/

def r0 : RingId := .part 0 0

/-- A descriptor: opcode, TAG 0xAB, handle and parameters. -/
def desc (op : Nat) (h : Dword) (fs : List (Nat × Nat × Nat)) : BitVec 512 := BitVec.ofNat 512 (pack ((0, 8, op) :: (32, 32, 0xAB) :: (64, 64, h.toNat) :: fs))

/-- The descriptors stand fetched at the head of ring r. -/
def heads (d : Dp) (r : RingId) (xs : List (BitVec 512)) : Dp :=
  setRing d r { ringOf d r with ahead := xs, tail := BitVec.ofNat 32 xs.length, read := BitVec.ofNat 32 xs.length }

/-- The status bytes of the completions of owner o. -/
def statuses (s : State) (ctx : Nat) : List Nat := (s.dp.port.mem.filter (fun m => m.ctx == ctx && m.len == 32)).map (fun m => bits m.data 32 8)

/-- What a witness of a descriptor needs: at the head of r at tile t, nothing undefined behind it, room for the completion. -/
abbrev Ready (s : State) (r : RingId) (t : Nat) (x : BitVec 512) (op : Nat) : Prop := AtHead s.env s.dp r t x op ∧ Room s.dp r ∧ (ringOf s.dp r).ahead = [x]

/-- Ready gives Followed. -/
theorem ready_followed (s : State) (r : RingId) (t : Nat) (x : BitVec 512) (op : Nat) (h : Ready s r t x op) : Followed s.dp r x := by
  obtain ⟨_, _, h⟩ := h
  exact ⟨by rw [h]; rfl, by rw [h]; intro y hy; cases hy⟩

def xNop : BitVec 512 := desc 0x49 0 []
def xFence : BitVec 512 := desc 0x4A 0 [(128, 8, 2)]

theorem wit_RingDescriptorsRun_fetch :
    let s := st (setRing dp0 r0 { ringOf dp0 r0 with tail := 16 })
    frontOf s.env s.dp r0 = some 0 ∧ tileServes s.env s.dp 0 = true ∧ (ringOf s.dp r0).state = .running ∧ (16 : Nat) ≤ ((ringOf s.dp r0).tail - (ringOf s.dp r0).read).toNat
    ∧ (dFields (dOp xNop)).isSome = true ∧ (ringOf (after (.fetchBatch r0 (List.replicate 16 xNop)) s).dp r0).read = 16
    ∧ (ringOf (after (.fetchBatch r0 (List.replicate 16 xNop)) s).dp r0).ahead = List.replicate 16 xNop := by decide +kernel

theorem wit_RingDescriptorsRun_nop :
    let s := st (heads dp0 r0 [xNop])
    Ready s r0 0 xNop 0x49 ∧ statuses (after (.nop r0) s) 0 = [0] ∧ (ringOf (after (.nop r0) s).dp r0).head = 1
    ∧ (after (.nop r0) s).dp.port.mem = [complWrite s.dp (.part 0) (mkCompl s.dp r0 xNop .ok)] := by decide +kernel

theorem wit_RingDescriptorsRun_fence :
    let s := st (heads dp0 r0 [xFence])
    let w := st (setRing (heads dp0 r0 [xFence]) (.part 0 1) { ringOf dp0 (.part 0 1) with tail := 3 })
    let u := after (.orderFence r0) w
    let v := { u with dp := setRing u.dp (.part 0 1) { ringOf u.dp (.part 0 1) with head := 3 } }
    Ready s r0 0 xFence 0x4A ∧ passed s.dp 0 1 (fenceTarget s.dp 0 1) = true ∧ statuses (after (.orderFence r0) s) 0 = [0]
    ∧ Ready w r0 0 xFence 0x4A ∧ passed w.dp 0 1 (fenceTarget w.dp 0 1) = false ∧ (ringOf u.dp r0).wait = some .fence ∧ (ringOf u.dp r0).targets = [(1, 3)]
    ∧ passed v.dp 0 1 3 = true ∧ Room v.dp r0 ∧ statuses (after (.orderFencePassed r0) v) 0 = [0] := by decide +kernel

theorem wit_RingDescriptorsRun_keeper :
    let s := st (heads dp0 .keeper [xFence])
    let x := desc 0x4A 0 []
    let u := st (heads dp0 .keeper [x])
    Ready s .keeper 16 xFence 0x4A ∧ dfield xFence 128 8 ≠ 0 ∧ statuses (after (.orderFence .keeper) s) 16 = [0x12]
    ∧ Ready u .keeper 16 x 0x4A ∧ dfield x 128 8 = 0 ∧ statuses (after (.orderFence .keeper) u) 16 = [0] := by decide +kernel

theorem wit_RingFaultsAndHeldEntries_rings :
    let x := desc 0x43 barH [(128, 11, 1), (192, 64, 0x8000)]
    let s := st (heads (barDp bar) r0 [x])
    let t := after (.descriptorXlateFault r0 0x8000) s
    headDesc s.env s.dp r0 = some (0, x) ∧ accesses s.env s.dp r0 x = true ∧ frontCheck s.env s.dp r0 x = none
    ∧ (ringOf t.dp r0).state = .stopped ∧ (ringOf t.dp r0).read = 0 ∧ (t.dp.inc.reports.map (fun q => q.2.key.kind)) = [.xlateFault]
    ∧ (cmplOf (after (.completionWriteFault (.cmpl (.part 0)) 0x10000) s).dp (.part 0)).state = .stopped
    ∧ (let u := st (setIncRing dp0 0 { OutRing.init with cfg := cfg4, state := .running })
       (incRingOf (after (.completionWriteFault (.inc 0) 0x10000) u).dp 0).state = .stopped) := by decide +kernel

/-- The completion of a faulted descriptor, with its number, or waiting for it. -/
theorem wit_RingFaultsAndHeldEntries_completion :
    let x := desc 0x43 barH [(128, 11, 1), (192, 64, 0x8000)]
    let key := ringFaultKey env0 (.part 0) 0
    let s := st (heads (barDp bar) r0 [x])
    let k := st { s.dp with inc := { s.dp.inc with known := [(.tile 0, key, 0x281)] } }
    let t := after (.descriptorXlateFault r0 0x8000) s
    let u := after (.descriptorXlateFault r0 0x8000) k
    let c := { mkCompl s.dp r0 x .xlateFault with value := 0x8000, advance := false }
    numberOf s.dp (.tile 0) key = none ∧ fget t.dp.inc.waitCompl 0 = some (r0, c) ∧ t.dp.inc.waits = [(.tile 0, key, 0)] ∧ t.dp.port.mem = []
    ∧ numberOf k.dp (.tile 0) key = some 0x281 ∧ Room k.dp r0 ∧ u.dp.port.mem = [complWrite k.dp (.part 0) { c with incident := 0x281 }]
    ∧ (ringOf u.dp r0).head = 0 ∧ (cmplOf u.dp (.part 0)).tail = 1 := by decide +kernel

theorem wit_RingFaultsAndHeldEntries_held :
    let c := mkCompl (heads dp0 r0 [xNop]) r0 xNop .ok
    let s := st { heads dp0 r0 [xNop] with held := [(0, [c])] }
    let w := st (setPart dp0 0 { partOf dp0 0 with cirq := { last := some 984000, merged := true } })
    fgetD s.dp.held (ownerKey (.part 0)) [] = [c] ∧ ((cmplOf s.dp (.part 0)).tail - (cmplOf s.dp (.part 0)).head).toNat < ringSize (cmplOf s.dp (.part 0)).cfg
    ∧ (after (.heldCompletionWrite (.part 0)) s).dp.port.mem = [complWrite s.dp (.part 0) c] ∧ (ringOf (after (.heldCompletionWrite (.part 0)) s).dp r0).head = 1
    ∧ 16000 ≤ (gtInterp w.env - 984000).toNat ∧ (after (.irqMergeExpiry (.part 0) false) w).dp.port.irq = [(2, 1)] := by decide +kernel

theorem wit_RingFaultsAndHeldEntries_disabled :
    let c := mkCompl (heads dp0 r0 [xNop]) r0 xNop .ok
    let d := { heads dp0 r0 [xNop] with held := [(0, [c])] }
    let s := st (setCmpl d (.part 0) { cmplOf d (.part 0) with state := .disabled })
    c.advance = true ∧ (after (.heldCompletionWrite (.part 0)) s).dp.port.mem = [] ∧ (ringOf (after (.heldCompletionWrite (.part 0)) s).dp r0).head = 1
    ∧ (cmplOf (after (.heldCompletionWrite (.part 0)) s).dp (.part 0)).tail = 0 := by decide +kernel

theorem wit_AllocFreeSnapshot_alloc :
    let x := desc 0x40 0 [(128, 3, 2), (160, 13, 2), (192, 64, 0x8000)]
    let s := st (heads dp0 r0 [x])
    let t := after (.brickAlloc r0) s
    Ready s r0 0 x 0x40 ∧ allocParams s.env r0 x = none ∧ (chargeB s.env s.dp 0 2).isSome = true ∧ pickMany s.env none 2 s.dp.touched s.dp.freed = some [0, 1]
    ∧ statuses t 0 = [0] ∧ (partOf t.dp 0).ub = 7 ∧ [0, 1].map (fun i => ((brickOf t.dp i).valid, (brickOf t.dp i).typ)) = [(true, .lock), (true, .lock)] := by decide +kernel

theorem wit_AllocFreeSnapshot_refused :
    let x := desc 0x40 0 [(128, 3, 2), (160, 13, 2), (192, 64, 0x8000)]
    let d := heads dp0 r0 [x]
    let s := st (setPart d 0 { partOf d 0 with qb := 6 })
    Ready s r0 0 x 0x40 ∧ (match allocTry s.env s.dp r0 x with | .error st => st.code | .ok _ => 0) = 0x14 ∧ statuses (after (.brickAlloc r0) s) 0 = [0x14]
    ∧ (after (.brickAlloc r0) s).dp.bricks = s.dp.bricks ∧ x.getLsbD 132 = false ∧ dfield x 133 3 = 0 := by decide +kernel

/-- The list of the new handles in one piece. -/
theorem wit_AllocFreeSnapshot_list :
    let x := desc 0x40 0 [(128, 3, 2), (160, 13, 2), (192, 64, 0x8000)]
    let s := st (heads dp0 r0 [x])
    let hs := (match allocTry s.env s.dp r0 x with | .ok (_, _, hs, _) => hs | .error _ => [])
    hs.length = 2 ∧ (after (.brickAlloc r0) s).dp.port.mem.contains { ctx := 0, addr := 0x8000, len := 16, data := leWords 64 (hs.map BitVec.toNat) } = true := by decide +kernel

/-- A dp whose tile 0 has its 8,192 slots in use, many of them by a write-back that runs. -/
def fullTile (d : Dp) : Dp :=
  setTile d 0 { tileOf d 0 with
    slots := List.replicate 2731 (.stripe 1 1, false),
    fetches := List.replicate 2731 { index := 0, issued := true, start := 0, heldAt := none, parked := [] },
    draining := List.replicate 2730 5 }

theorem wit_AllocFreeSnapshot_slots :
    let x := desc 0x40 0 [(128, 3, 2), (160, 13, 2), (192, 64, 0x8000)]
    let w := st (fullTile (heads dp0 r0 [x]))
    Ready w r0 0 x 0x40 ∧ (match allocTry w.env w.dp r0 x with | .ok (d2, _) => promised w.dp d2 | .error _ => false) = true
    ∧ (after (.brickAlloc r0) w).dp.bricks = w.dp.bricks ∧ (ringOf (after (.brickAlloc r0) w).dp r0).head = 0 := by decide +kernel

/-- One brick of a list of two is freed: the second handle names another node. And a lock with waiters is not idle. -/
theorem wit_AllocFreeSnapshot_free_list :
    let h := brickHandle env0 33 lock0
    let far := h ||| 1
    let x := desc 0x41 0 [(160, 13, 2), (192, 64, 0x8000)]
    let s := st (heads (place dp0 33 lock0) r0 [x])
    let t := after (.brickFree r0 [h, far]) s
    let y := desc 0x41 (brickHandle env0 33 lock2) [(160, 13, 1)]
    let b := st (heads (place dp0 33 lock2) r0 [y])
    Ready s r0 0 x 0x41 ∧ listParams x = none ∧ listHandle s.env s.dp r0 (dTypes 0x41) h = none ∧ idleBrick s.env s.dp 33 lock0 = true
    ∧ handleFront s.env (ownerPart (ringOwner r0)) (dTypes 0x41) far = some .badHandle ∧ tileServes s.env s.dp (homeOf s.env (hIndex far)) = true
    ∧ statuses t 0 = [Status.badHandle.code] ∧ (brickOf t.dp 33).valid = false ∧ t.dp.freed = [33]
    ∧ Ready b r0 0 y 0x41 ∧ idleBrick b.env b.dp 33 lock2 = false ∧ statuses (after (.brickFree r0 []) b) 0 = [Status.busy.code]
    ∧ (after (.brickFree r0 []) b).dp.bricks = b.dp.bricks := by decide +kernel

theorem wit_AllocFreeSnapshot_free :
    let h := brickHandle env0 33 lock0
    let x := desc 0x41 h [(160, 13, 1)]
    let s := st (heads (place dp0 33 lock0) r0 [x])
    let t := after (.brickFree r0 []) s
    Ready s r0 0 x 0x41 ∧ listParams x = none ∧ Homed s.env s.dp h lock0 ∧ listHandle s.env s.dp r0 (dTypes 0x41) h = none ∧ mirrorOut s.dp 33 = false
    ∧ idleBrick s.env s.dp 33 lock0 = true ∧ statuses t 0 = [0] ∧ (brickOf t.dp 33).valid = false ∧ (brickOf t.dp 33).gen = 1 := by decide +kernel

theorem wit_AllocFreeSnapshot_snapshot :
    let h := brickHandle env0 33 lock0
    let x := desc 0x48 h [(160, 13, 1), (256, 64, 0x9040)]
    let s := st (heads (place dp0 33 lock0) r0 [x])
    let t := after (.snapshot r0 []) s
    Ready s r0 0 x 0x48 ∧ listParams x = none ∧ Homed s.env s.dp h lock0 ∧ listHandle s.env s.dp r0 (dTypes 0x48) h = none
    ∧ statuses t 0 = [0] ∧ t.dp.bricks = s.dp.bricks
    ∧ t.dp.port.mem.contains { ctx := 0, addr := 0x9040, len := 64, data := recordOf s.dp 33 } = true := by decide +kernel

theorem wit_BarrierDescriptorsApply_arm :
    let x := desc 0x42 barH [(128, 24, 100), (152, 8, 3)]
    let run := fun (y : Barrier) => (barrierOf (after (.barrierArm r0) (st (heads (barDp y) r0 [x]))).dp 33)
    let s := st (heads (barDp bar) r0 [x])
    Ready s r0 0 x 0x42 ∧ Homed s.env s.dp barH (barB bar) ∧ run bar = some { bar with shArm := some (armVals x) }
    ∧ (run { bar with armed := false }).map (fun y => (y.armed, y.count, y.arm == armVals x)) = some (true, 0, true)
    ∧ (run { bar with poisoned := true, count := 1 }).map (fun y => (y.poisoned, y.count, y.dlAt)) = some (false, 0, 0)
    ∧ (run { bar with poisoned := true, armed := false }).map (fun y => (y.poisoned, y.armed)) = some (false, true)
    ∧ (let w := place dp0 33 { barB bar with stray := BitVec.ofNat 512 (2 ^ 352 + 2 ^ 65) }
       (brickOf (after (.barrierArm r0) (st (heads w r0 [x]))).dp 33).stray = BitVec.ofNat 512 (2 ^ 65))
    ∧ run { bar with bonded := false } = some { bar with bonded := false }
    ∧ statuses (after (.barrierArm r0) (st (heads (barDp { bar with bonded := false }) r0 [x]))) 0 = [0x12] := by decide +kernel

theorem wit_BarrierDescriptorsApply_bond :
    let x := desc 0x43 barH [(128, 11, 2), (192, 64, 0x8000)]
    let l : List Dword := [0x00020005, 0x00010002]
    let s := st (heads (barDp bar) r0 [x])
    let u := st (heads (barDp { bar with armed := false }) r0 [x])
    let t := after (.bondSet r0 l) s
    let v := after (.bondSet r0 l) u
    Ready s r0 0 x 0x43 ∧ bondParams x = none ∧ l.length = dfield x 128 11 ∧ bondListCheck s.env s.dp (hPart barH) l 0 = none ∧ ranksFit bar 2 = true
    ∧ bedRoom s.dp barH bar 0 = true ∧ (barrierOf t.dp 33).map (fun y => (y.expect, y.shBond.map Bond.expect)) = some (3, some 3)
    ∧ ((jointOf t.dp 0).beds.map (fun b => (b.waiting, b.members.map (fun m => (m.slot, m.e, m.rank))))) = [(false, [(0, 1, 0), (1, 2, 1)]), (true, [(2, 1, 0), (5, 2, 1)])]
    ∧ (barrierOf v.dp 33).map (fun y => (y.expect, y.bonded, y.armed)) = some (3, true, false) ∧ statuses v 0 = [0] := by decide +kernel

theorem wit_GroutDescriptorsBind :
    let x := desc 0x44 barH [(128, 3, 1), (140, 6, 8), (148, 2, 1)]
    let n := (groutParams x).granules
    let s := st (heads (barDp { bar with armed := false }) r0 [x])
    let a := st (heads (setJoint (barDp bar) 0 { jointOf (barDp bar) 0 with beds := [{ bed0 with members := [] }] }) r0 [x])
    let t := after (.groutCfg r0) s
    Ready s r0 0 x 0x44 ∧ Homed s.env s.dp barH (barB { bar with armed := false }) ∧ groutParamsOk x = true ∧ (groutParams x).op ≠ 4 ∧ n = 4 ∧ fitRun s.dp 0 n = some 0
    ∧ (chargeG s.env s.dp 0 n).isSome = true ∧ heldRoom s.env s.dp 0 = true
    ∧ (tileOf t.dp 0).runs = [(0, 4)] ∧ (partOf t.dp 0).ug = 4 ∧ (barrierOf t.dp 33).map (fun y => y.cfg) = some (some (groutParams x))
    ∧ nextHeld a.dp barH = false ∧ (barrierOf (after (.groutCfg r0) a).dp 33).map (fun y => (y.cfg, y.shRun.map (fun r => r.count))) = some (none, some 4) := by decide +kernel

theorem wit_GroutDescriptorsBind_weights :
    let x := desc 0x45 barH [(128, 11, 2), (192, 64, 0x8000)]
    let table : List Byte := [0, 0, 0x80, 0x3F, 0, 0, 0, 0x40]
    let s := st (heads (barDp { bar with armed := false }) r0 [x])
    let t := after (.weightLoad r0 table) s
    Ready s r0 0 x 0x45 ∧ weightParams x = none ∧ tableBytes 0 0 2 ≤ table.length ∧ weightEntries 0 0 2 table = [[0x3F800000], [0x40000000]]
    ∧ (tileOf t.dp 0).runs = [(0, 1)] ∧ (partOf t.dp 0).ug = 1 ∧ statuses t 0 = [0] := by decide +kernel

theorem wit_GroutDescriptorsBind_none :
    let x := desc 0x44 barH []
    let w := desc 0x44 barH [(128, 3, 1), (140, 6, 9)]
    let s := st (heads (barDp { bar with armed := false }) r0 [x])
    let a := st (heads (setJoint (barDp bar) 0 { jointOf (barDp bar) 0 with beds := [{ bed0 with members := [] }] }) r0 [x])
    let u := st (heads (barDp bar) r0 [w])
    Ready s r0 0 x 0x44 ∧ groutParamsOk x = true ∧ dfield x 140 6 = 0 ∧ (after (.groutCfg r0) s).dp.bricks = s.dp.bricks ∧ statuses (after (.groutCfg r0) s) 0 = [0]
    ∧ nextHeld a.dp barH = false ∧ ((barrierOf (after (.groutCfg r0) a).dp 33).map (fun y => y.shRun.map (fun r => r.count))) = some (some 0)
    ∧ Ready u r0 0 w 0x44 ∧ groutParamsOk w = false ∧ statuses (after (.groutCfg r0) u) 0 = [0x15] := by decide +kernel

/-- A root barrier of tier 1 with one child, of handle childH on die 1, and one local member. -/
def childH : Dword := (barH ||| 0x0000200000000000)

def child0 : Child := { peer := childH, peer2 := 0, route := 0xFF, route2 := 0xFF, valid := true, cut1 := false, cut2 := false }

def lin0 : Lintel := { Lintel.init 1 with ctv := true, children := [(0, child0)] }

def linBar : Barrier := { bar with bond := some { expect := 4, lchild := 1, members := (bar.bond.getD { expect := 0, lchild := 0, members := [] }).members }, expect := 4 }

def linB (x : Barrier) : Brick := { barB x with pin := true }

def linDp (x : Barrier) (l : Lintel) : Dp :=
  let d := place dp0 33 (linB x)
  { setJoint d 0 { jointOf d 0 with beds := [bed0] } with lintels := [(33, l)] }

theorem wit_LintelAndPalletDescriptors_attach :
    let y := { linBar with armed := false }
    let x := desc 0x46 barH [(132, 3, 1), (144, 8, 0xFF), (192, 64, childH.toNat)]
    let w := desc 0x46 barH [(128, 3, 1), (132, 3, 1), (136, 6, 5), (144, 8, 0xFF), (192, 64, childH.toNat)]
    let s := st (heads (linDp y { lin0 with children := [], seen := 1 }) r0 [x])
    let u := st (heads (linDp y lin0) r0 [w])
    Ready s r0 0 x 0x46 ∧ Homed s.env s.dp barH (linB y) ∧ linkCheck s.env 33 (linB y) y (some { lin0 with children := [], seen := 1 }) (linkReq x) = none
    ∧ fget (after (.lintelLink r0) s).dp.lintels 33 = some { lin0 with children := [(0, { peer := childH, peer2 := 0, route := 0xFF, route2 := 0, valid := true, cut1 := false, cut2 := false })] }
    ∧ Ready u r0 0 w 0x46 ∧ linkCheck u.env 33 (linB y) y (some lin0) (linkReq w) = none
    ∧ (fget (after (.lintelLink r0) u).dp.lintels 33).map (fun l => (l.upv, l.upslot, l.uppeer)) = some (true, 5, childH) := by decide +kernel

theorem wit_LintelAndPalletDescriptors_detach :
    let y := { linBar with armed := false }
    let x := desc 0x46 barH [(128, 3, 3), (132, 3, 1), (136, 6, 0)]
    let l := { lin0 with upv := true, uppeer := childH, uproute := 0xFF }
    let s := st (heads (linDp y l) r0 [x])
    Ready s r0 0 x 0x46 ∧ linkCheck s.env 33 (linB y) y (some l) (linkReq x) = none ∧ ((linkReq x).apply l).upv = true
    ∧ (fget (after (.lintelLink r0) s).dp.lintels 33).map (fun l => (l.upv, l.children)) = some (true, []) := by decide +kernel

/-- A DETACH of the child that a probe still waits for ends the probe. -/
theorem wit_LintelAndPalletDescriptors_detach_probe :
    let y := { linBar with armed := false }
    let x := desc 0x46 barH [(128, 3, 3), (132, 3, 1), (136, 6, 0)]
    let l := { lin0 with upv := true, uppeer := childH, uproute := 0xFF, probe := some ([(0, false)], 1000000, 1000400) }
    let s := st (heads (linDp y l) r0 [x])
    Ready s r0 0 x 0x46 ∧ linkCheck s.env 33 (linB y) y (some l) (linkReq x) = none
    ∧ (fget (after (.lintelLink r0) s).dp.lintels 33).map (fun l => (l.upv, l.children.length, l.probe.isSome)) = some (true, 0, false) := by decide +kernel

theorem wit_LintelAndPalletDescriptors_pallet :
    let h := brickHandle env0 33 palB
    let x := desc 0x47 h [(132, 5, 6), (192, 64, 0x20000)]
    let w := desc 0x47 h [(128, 3, 1)]
    let s := st (heads (place dp0 33 palB) r0 [x])
    let u := st (heads (palDp { str0 with wacc := .held, faddr := 0x20010 }) r0 [w])
    let t := after (.palletCfg r0) s
    Ready s r0 0 x 0x47 ∧ Homed s.env s.dp h palB ∧ palletParams x = none ∧ (chargeG s.env s.dp 0 9).isSome = true
    ∧ stripeOf t.dp 33 0 = some (Stripe.fresh 0 6 0 false 0x20000 0 0) ∧ (partOf t.dp 0).ug = 9
    ∧ Ready u r0 0 w 0x47 ∧ palletParams w = none ∧ (stripeOf (after (.palletCfg r0) u).dp 33 0).map (fun q => q.wacc) = some .retrying := by decide +kernel

/-! ### Lintels -/

/-- A record from the child, or the parent, of handle p at die 1. -/
def inHod (kind : Byte) (course : Word) : InHod :=
  { route := 0xFF, die := 1, node := 0, rec_ := { kind := kind, gflags := 0, child := 0, status := 0, grout := [], handle := barH, course := course, tag := 0, instant := 1000500 } }

def inS (x : Barrier) (l : Lintel) (h : InHod) : State := st { linDp x l with inbound := [h] }

/-- The lintel with its uplink and twin at childH. -/
def linUp : Lintel := { lin0 with upv := true, uproute := 0xFF, uppeer := childH, twv := true, twroute := 0xFF, twpeer := childH }

/-- LintelTakes, evaluated, at index 33. -/
def lintelTakes (s : State) (kind : Byte) (h : InHod) (x : Barrier) (l : Lintel) : Bool :=
  decide (inboundAt s.env s.dp 0 = some h ∧ h.rec_.kind = kind ∧ kind ≠ 9#8 ∧ h.waits s.env s.dp = false ∧ hIndex h.rec_.handle = 33)
  && decide (h.target s.env s.dp = some 33 ∧ tileServes s.env s.dp (homeOf s.env 33) = true ∧ brickOf s.dp 33 = linB x ∧ fget s.dp.lintels 33 = some l
    ∧ Prompt s.env s.dp 33)

theorem lintelTakes_spec (s : State) (kind : Byte) (h : InHod) (x : Barrier) (l : Lintel) (g : lintelTakes s kind h x l = true) :
    LintelTakes s.env s.dp 0 33 kind h (linB x) x l := by
  simp only [lintelTakes, Bool.and_eq_true, decide_eq_true_eq] at g
  obtain ⟨⟨a, b, c, d, e⟩, f, g, h, i, j⟩ := g
  exact ⟨a, b, c, d, e, f, g, h, rfl, rfl, i, j⟩

theorem wit_LintelCourseHods_arrive :
    let h := inHod 1 5
    let g := inHod 1 6
    let s := inS linBar lin0 h
    let u := inS linBar lin0 g
    lintelTakes s 1 h linBar lin0 = true ∧ (fget lin0.children 0).map (fun y => y.isFrom h) = some true ∧ linBar.count + 1 < linBar.expect
    ∧ (barrierOf (after (.arriveUp 0) s).dp 33).map (fun y => (y.count, y.ahead)) = some (1, 0) ∧ (fget (after (.arriveUp 0) s).dp.lintels 33).map (fun l => l.seen) = some 1
    ∧ lintelTakes u 1 g linBar lin0 = true ∧ (barrierOf (after (.arriveUp 0) u).dp 33).map (fun y => (y.count, y.ahead)) = some (0, 1)
    ∧ (fget (after (.arriveUp 0) u).dp.lintels 33).map (fun l => l.seenNext) = some 1 := by decide +kernel

theorem wit_LintelCourseHods_release :
    let h := inHod 2 5
    let g := { inHod 8 5 with rec_ := { (inHod 8 5).rec_ with status := 2 } }
    let s := inS linBar linUp h
    let u := inS linBar linUp g
    lintelTakes s 2 h linBar linUp = true ∧ isFrom h linUp.uppeer linUp.uproute = true ∧ linBar.ahead + linBar.nextDelta < linBar.expect
    ∧ (barrierOf (after (.lintelRelease 0) s).dp 33).map (fun y => (y.course, y.lastStatus)) = some (5, .ok)
    ∧ lintelTakes u 8 g linBar linUp = true ∧ isFrom g linUp.twpeer linUp.twroute = true
    ∧ (barrierOf (after (.twin 0) u).dp 33).map (fun y => (y.course, y.lastStatus)) = some (5, .okShrunk)
    ∧ ((after (.lintelRelease 0) s).dp.net.map (fun g => g.dst)) = [.joint 0] := by decide +kernel

theorem wit_LintelCourseHods_depart :
    let h := inHod 3 5
    let g := inHod 4 5
    let s := inS linBar lin0 h
    let u := inS linBar lin0 g
    lintelTakes s 3 h linBar lin0 = true ∧ linBar.arm.depart = false ∧ linBar.count < linBar.expect - 1
    ∧ (barrierOf (after (.departUp 0) s).dp 33).map (fun y => (y.expect, y.shrunk)) = some (3, true) ∧ (fget (after (.departUp 0) s).dp.lintels 33).map (fun l => l.gone) = some 1
    ∧ lintelTakes u 4 g linBar lin0 = true ∧ lin0.sender g ≠ 0 ∧ (barrierOf (after (.poison 0) u).dp 33).map (fun y => y.poisoned) = some true
    ∧ ((after (.poison 0) u).dp.inc.reports.map (fun q => q.2.key.kind)) = [.poison] := by decide +kernel

theorem wit_LintelCourseHods_depart_poison :
    let h := inHod 3 5
    let y := { linBar with arm := { linBar.arm with depart := true } }
    let s := inS y lin0 h
    let l := { lin0 with seen := 1 }
    let u := inS { linBar with count := 1 } l h
    lintelTakes s 3 h y lin0 = true ∧ (barrierOf (after (.departUp 0) s).dp 33).map (fun y => y.poisoned) = some true
    ∧ lintelTakes u 3 h { linBar with count := 1 } l = true
    ∧ (barrierOf (after (.departUp 0) u).dp 33).map (fun y => (y.expect, y.nextDelta, y.count)) = some (4, 1, 1) := by decide +kernel

theorem wit_LintelCourseHods_stale :
    let h := inHod 2 4
    let g := inHod 8 3
    let s := inS linBar linUp h
    let u := inS linBar linUp g
    lintelTakes s 2 h linBar linUp = true ∧ completed linBar.course 4 = true ∧ (after (.lintelRelease 0) s).dp.bricks = s.dp.bricks ∧ (after (.lintelRelease 0) s).dp.inbound = []
    ∧ lintelTakes u 8 g linBar linUp = true ∧ (after (.twin 0) u).dp.net = [] ∧ (after (.twin 0) u).dp.inbound = [] := by decide +kernel

/-- The brick at whose root the course closes, the one that goes up, and the one whose bond waits for the boundary. -/
theorem wit_ArrivalHodCounts_tree :
    let h := hod (.joint 0) (.tile 0) .req (.arrival (arrival 5 1))
    let l := { lin0 with seen := 1, seenNext := 1 }
    let x := { linBar with count := 3 }
    let s := st (netOf (linDp x l) [h])
    let u := st (netOf (linDp x { l with upv := true, uppeer := childH, uproute := 0xFF }) [h])
    let nb : Bond := { expect := 2, lchild := 0, members := [{ agent := 0, gangs := 2, wave := 0 }], made := 7 }
    let y := { bar with count := 2, shBond := some nb }
    let b := st (netOf (setJoint (barDp y) 0 { jointOf (barDp y) 0 with beds := [bed0, { bed0 with waiting := true, made := 7 }] }) [h])
    let t := after (.arrivalHod 0) b
    (barrierOf (after (.arrivalHod 0) s).dp 33).map (fun y => (y.course, y.count)) = some (5, 0)
    ∧ (fget (after (.arrivalHod 0) s).dp.lintels 33).map (fun m => (m.seen, m.seenNext, m.upwait)) = some (1, 0, false)
    ∧ (barrierOf (after (.arrivalHod 0) u).dp 33).map (fun y => (y.course, y.count)) = some (4, 4)
    ∧ (fget (after (.arrivalHod 0) u).dp.lintels 33).map (fun m => (m.upwait, m.upPay)) = some (true, some ({ lanes := [], cnt := 0, flags := 0 }, .ok))
    ∧ (barrierOf t.dp 33).map (fun y => (y.course, y.expect, y.bond, y.shBond)) = some (5, 2, some nb, none)
    ∧ (rels t).map (fun r => (r.1, r.2.course, r.2.removeBed, r.2.bond)) = [(.joint 0, 5, true, 7)] := by decide +kernel

theorem wit_LintelControlHods_probes :
    let h := inHod 5 5
    let g := inHod 6 5
    let k := inHod 7 5
    let l := { lin0 with children := [(0, child0), (1, child0)], probe := some ([(0, false), (1, false)], 1000000, 1000400) }
    let m := { lin0 with probe := some ([(0, false)], 1000000, 1000600) }
    let s := inS linBar linUp h
    let u := inS linBar linUp g
    let v := inS linBar l k
    let w := inS linBar m k
    lintelTakes s 5 h linBar linUp = true ∧ (barrierOf (after (.sweep 0) s).dp 33).map (fun y => (y.expired, y.dlAt)) = some (true, 0)
    ∧ lintelTakes u 6 g linBar linUp = true ∧ linUp.probed = [(0, false)] ∧ ((fget (after (.probe 0) u).dp.lintels 33).bind (fun l => l.probe)).map (fun p => (p.1, p.2.1)) = some ([(0, false)], 1000500)
    ∧ lintelTakes v 7 k linBar l = true ∧ (fget (after (.probeAns 0) v).dp.lintels 33).map (fun l => l.probe) = some (some ([(1, false)], 1000000, 1000500))
    ∧ lintelTakes w 7 k linBar m = true ∧ (barrierOf (after (.probeAns 0) w).dp 33).map (fun y => y.path) = some 1632 := by decide +kernel

/-- A PROBE while another is under way changes nothing. -/
theorem wit_LintelControlHods_again :
    let g := inHod 6 5
    let l := { linUp with probe := some ([(0, false)], 1000000, 1000400) }
    let u := inS linBar l g
    lintelTakes u 6 g linBar l = true ∧ (after (.probe 0) u).dp.lintels = u.dp.lintels ∧ (after (.probe 0) u).dp.inbound = [] := by decide +kernel

theorem wit_LintelControlHods_waiting :
    let h := inHod 5 5
    let l := { linUp with upwait := true }
    let s := inS linBar l h
    let n := { lin0 with children := [], seen := 1, upv := true, uproute := 0xFF, uppeer := childH }
    let g := inHod 6 5
    let u := inS linBar n g
    let m := { linUp with probe := some ([(0, false)], 1000000, 1000600) }
    let k := inHod 7 5
    let v := inS linBar m k
    lintelTakes s 5 h linBar l = true ∧ (after (.sweep 0) s).dp.bricks = s.dp.bricks
    ∧ (after (.sweep 0) s).dp.net.any (fun x => decide (x.dst = .joint 0) && (match x.body with | .release q => decide (q.status = .timeout ∧ q.course = 4) | _ => false)) = true
    ∧ lintelTakes u 6 g linBar n = true ∧ n.probed = [] ∧ (fget (after (.probe 0) u).dp.lintels 33).map (fun l => l.probe.isSome) = some false
    ∧ lintelTakes v 7 k linBar m = true ∧ (fget (after (.probeAns 0) v).dp.lintels 33).map (fun l => l.probe.isSome) = some false ∧ (after (.probeAns 0) v).dp.bricks = v.dp.bricks := by decide +kernel

/-- The hod of barH that the child has refused with status v. -/
def refusedS (v : Byte) : State :=
  let r : HodRec := { kind := 1, gflags := 0, child := 0, status := 0, grout := [], handle := childH, course := 5, tag := 0, instant := 0 }
  let h : InHod := { route := 0xFF, die := 1, node := 0, rec_ := { r with kind := 9, status := v, handle := barH } }
  let d := linDp linBar linUp
  st { setLink d 255 { linkOf d 255 with sent := [{ sender := barH, rec_ := r, wait := 64 }] } with inbound := [h] }

theorem wit_LintelControlHods_refuse :
    let s := refusedS 0x04
    let u := refusedS 0x30
    let h := fun (s : State) => s.dp.inbound[0]?.getD (inHod 9 5)
    (refused s.dp (h s)).isSome = true ∧ inboundAt s.env s.dp 0 = some (h s) ∧ (h s).waits s.env s.dp = false ∧ tileServes s.env s.dp 0 = true
    ∧ ((after (.refuse 0) s).dp.backoffs.map (fun b => (b.dueCyc, b.dueGt))) = [(some 40064, none)]
    ∧ (refused u.dp (h u)).isSome = true ∧ ((after (.refuse 0) u).dp.backoffs.map (fun b => (b.dueCyc, b.dueGt))) = [(none, some 2024000)]
    ∧ (let w := { after (.refuse 0) s with env := { env0 with clk := { env0.clk with edgeCyc := 40064 } } }
       now w.env = 40064 ∧ (after (.refuseRetryBackoff 0) w).dp.backoffs = []) := by decide +kernel

theorem wit_LintelControlHods_refuse_none :
    let s := inS linBar lin0 (inHod 9 5)
    refused s.dp (inHod 9 5) = none ∧ inboundAt s.env s.dp 0 = some (inHod 9 5) ∧ (inHod 9 5).waits s.env s.dp = false
    ∧ (after (.refuse 0) s).dp.inbound = [] ∧ (after (.refuse 0) s).dp.backoffs = [] := by decide +kernel

theorem wit_LintelControlHods_incident :
    let g : List Byte := [5, 0, 1, 3, 7, 0, 0, 0, 10, 0, 0, 0, 2, 0, 0, 0]
    let h := { inHod 10 0 with rec_ := { (inHod 10 0).rec_ with grout := g, status := 1 } }
    let s := st { dp0 with inbound := [h] }
    inboundAt s.env s.dp 0 = some h ∧ (hallReport h.rec_).map (fun r => (r.1.key.node, r.1.key.die, r.1.key.srcId, r.1.count, r.2)) = some (5, 1, 7, 2, .error)
    ∧ ((after (.incidentHod 0) s).dp.inc.entries.map (fun x => (x.1, x.2.rep.hall, x.2.count))) = [(0, true, 2)] := by decide +kernel

/-- A code or a byte that is reserved is discarded (R11). -/
theorem test_incidentHod_reserved :
    let g := fun (kind : Byte) => ([5, 0, 1, kind, 7, 0, 0, 0, 10, 0, 0, 0, 2, 0, 0, 0] : List Byte)
    (hallReport { (inHod 10 0).rec_ with grout := g 3, status := 1 }).isSome = true ∧ hallReport { (inHod 10 0).rec_ with grout := g 11, status := 1 } = none := by decide +kernel

/-! ### Links -/

/-- RFC 4493, example 2. -/
theorem test_cmac :
    beNat (cmac 0x2b7e151628aed2a6abf7158809cf4f3c (beBytes 16 0x6bc1bee22e409f96e93d7e117393172a)) = 0x070a16b46b4d4144f79bdd9dd04a287c := by decide +kernel

/-- Link 0 leads to die 1 of node 5, in partition 0, with key 0 in its slot 0. -/
def envL : Env :=
  { env0 with lf := { env0.lf with enable := true, routes := [(0, 0x40001), (1, 5)], keyWords := [(0, 0x77), (1, 5)], keys := [(0, 0x2b7e151628aed2a6abf7158809cf4f3c)] } }

/-- A frame of the peer with its tag, from the frame header on. -/
def frame (kind flags : Nat) (seq ack epoch : Nat) (body : List Byte) (tag : Nat) : List Byte :=
  [BitVec.ofNat 8 (16 + kind), BitVec.ofNat 8 flags] ++ beBytes 2 0 ++ beBytes 2 5 ++ [0x20, 0] ++ beBytes 4 0x77 ++ beBytes 4 seq ++ beBytes 4 ack
    ++ beBytes 2 epoch ++ beBytes 2 (24 + body.length) ++ body ++ beBytes 8 tag

/-- A frame behind Table 9.5's 18 bytes: two MAC addresses, the tag 0x8100, and EtherType 0x88B5. -/
def eth (g : List Byte) : List Byte := List.replicate 12 0 ++ [0x81, 0, 0, 0, 0x88, 0xB5] ++ g

def lnk : Link := { Link.init with epochTx := 3, epochRx := 9, synced := true, seqTx := 12, seqRx := 20, unacked := [{ seq := 10, hods := [] }, { seq := 11, hods := [] }], timer := some 1000000, ackOwed := some 1000000 }

def linkS (l : Link) : State := { env := envL, dp := setLink dp0 0 l, pending := [] }

def arriveRec : HodRec := (inHod 1 5).rec_

theorem wit_FramesTaken_data :
    let g := frame 0 1 20 0 9 arriveRec.bytes 14389295241840413456
    let f := eth g
    let s := linkS lnk
    FrameIn s.env s.dp f g ∧ parseRecs 1 ((g.take (fLen g)).drop 24) = [(arriveRec, true)] ∧ RecordOk (arriveRec, true) ∧ fHods g = 1 ∧ fEpoch g = 9 ∧ fKind g = 0
    ∧ (after (.data f false) s).dp.inbound = [{ route := 0, die := 1, node := 5, rec_ := arriveRec }] := by decide +kernel

theorem wit_FramesTaken_data_again :
    let g := frame 0 1 19 0 9 arriveRec.bytes 17334612385924084222
    let f := eth g
    let s := linkS lnk
    FrameIn s.env s.dp f g ∧ (lnk.seqRx - fSeq g).toNat < 2 ^ 31 ∧ (after (.data f false) s).dp.inbound = []
    ∧ (after (.data f false) s).dp.port.fab = [.ack 0 false 20 3] := by decide +kernel

theorem wit_FramesTaken_data_gap :
    let g := frame 0 1 21 0 9 arriveRec.bytes 1383154436358257956
    let f := eth g
    let s := linkS lnk
    FrameIn s.env s.dp f g ∧ 2 ^ 31 ≤ (lnk.seqRx - fSeq g).toNat ∧ (fun t => ((linkOf t.dp 0).gapSeen, t.dp.port.fab)) (after (.data f false) s) = (true, [.ack 0 true 20 3]) := by decide +kernel

theorem wit_FramesTaken_dropped :
    let g := frame 0 1 20 0 9 arriveRec.bytes 14389295241840413456
    let f := eth g
    let b := eth (frame 0 1 20 0 9 arriveRec.bytes 14389295241840413457)
    let s := linkS { lnk with epochRx := 8 }
    FrameIn s.env s.dp f g ∧ fEpoch g ≠ 8 ∧ (after (.data f false) s).dp.inbound = [] ∧ (after (.data f true) s).dp.inbound = []
    ∧ deframe s.env b = some (b.drop 18) ∧ frameOk s.env (b.drop 18) = false ∧ (linkOf (after (.data b false) s).dp 0).dropAt = [1000000] := by decide +kernel

theorem wit_FramesTaken_long :
    let g := frame 0 1 20 0 9 arriveRec.bytes 14389295241840413456
    let s := linkS lnk
    let f := eth g ++ List.replicate (mtuOf s.env + 23 - (eth g).length) 0
    mtuOf s.env + 22 < f.length ∧ (deframe s.env f).isSome = true ∧ (after (.data f false) s).dp.inbound = [] ∧ (linkOf (after (.data f false) s).dp 0).dropAt = [] := by decide +kernel

/-- R457: 40 bytes in two beats, and back. -/
theorem test_fabBeats :
    let l : List Byte := (List.range 40).map (fun k => BitVec.ofNat 8 (7 * k))
    (fabBeats l).map (fun b => (b.sop, b.eop, b.bytes)) = [(true, false, 0), (false, true, 8)] ∧ fromBeats (fabBeats l) = l := by decide +kernel

theorem wit_FramesTaken_control :
    let a := frame 1 0 0 12 9 [] 3930724165633771626
    let y := frame 3 0 0 0 4 [] 4923923214091598368
    let h := frame 2 0 0 0 9 (List.replicate 24 0xFF) 998968953377580172
    let s := linkS lnk
    let u := linkS { lnk with syncing := true, synced := false }
    FrameIn s.env s.dp (eth a) a ∧ fKind a = 1 ∧ fNak a = false ∧ (fAck a - 10).toNat = 2 ∧ (linkOf (after (.ack (eth a) false) s).dp 0).unacked = []
    ∧ (linkOf (after (.ack (eth a) false) u).dp 0).synced = true
    ∧ FrameIn s.env s.dp (eth y) y ∧ fKind y = 3 ∧ peerReset lnk (fEpoch y) (fAck y) = true
    ∧ (fun l => (l.seqRx, l.epochRx, l.epochTx, l.syncing, l.unacked)) (linkOf (after (.sync (eth y) false) s).dp 0) = (0, 4, 4, true, [])
    ∧ wired (after (.sync (eth y) false) s).dp = [.ack 0 false 0 3, .sync 0 0 4]
    ∧ FrameIn s.env s.dp (eth h) h ∧ isHold h = true ∧ (linkOf (after (.hold (eth h) false) s).dp 0).hold = some 1000000 := by decide +kernel

theorem wit_FramesTaken_package :
    parseRec arriveRec.bytes = some (arriveRec, true, []) ∧ RecordOk (arriveRec, true)
    ∧ (after (.packageRecord 1 arriveRec.bytes) (st dp0)).dp.inbound = [{ route := 0xFF, die := 1, node := 0, rec_ := arriveRec }] := by decide +kernel

/-- A record with a reserved bit of CHILD set is discarded (R11). -/
theorem test_packageRecord_reserved :
    (after (.packageRecord 1 (arriveRec.bytes.take 2 ++ [0x40] ++ arriveRec.bytes.drop 3)) (st dp0)).dp.inbound = [] := by decide +kernel

theorem wit_LinkTimersAct :
    let s := linkS lnk
    let c := linkS { lnk with retries := 5 }
    let h := { linkS { lnk with hold := some 1000000 } with env := { envL with lf := { envL.lf with holdMax := 1 }, clk := { envL.clk with gt := 17000000 } } }
    reached (gtInterp s.env) 1000000 = true ∧ (after (.standaloneAckTimer 0) s).dp.port.fab = [.ack 0 false 20 3] ∧ timersRun s.env lnk = true
    ∧ lnk.retries + 1 < retryLimit s.env ∧ (linkOf (after (.retransmitExpiry 0) s).dp 0).retries = 1 ∧ (after (.retransmitExpiry 0) s).dp.port.fab.length = 2
    ∧ retryLimit c.env ≤ 5 + 1 ∧ (linkOf (after (.retransmitExpiry 0) c).dp 0).cut = true ∧ (linkOf (after (.retransmitExpiry 0) c).dp 0).unacked = []
    ∧ h.env.lf.holdMax.toNat * 16000000 ≤ (gtInterp h.env - 1000000).toNat ∧ (linkOf (after (.holdmaxExpiry 0) h).dp 0).cut = true := by decide +kernel

theorem wit_LinkTimersAct_sync :
    let s := linkS { lnk with syncing := true, unacked := [], cut := true }
    let d : State := { linkS { lnk with unacked := [], retries := 9 } with env := { envL with lf := { envL.lf with enable := false } } }
    timersRun s.env (linkOf s.dp 0) = true ∧ (after (.retransmitExpiry 0) s).dp.port.fab = [.sync 0 20 3] ∧ (linkOf (after (.retransmitExpiry 0) s).dp 0).retries = 1
    ∧ retryLimit d.env ≤ 10 ∧ (linkOf (after (.retransmitExpiry 0) d).dp 0).cut = true ∧ (linkOf (after (.retransmitExpiry 0) d).dp 0).syncing = true := by decide +kernel

theorem wit_LinkTimersAct_pins :
    let s := linkS lnk
    let t := after (.pause true) s
    let u := after (.d2dErr 1) s
    s.env.lf.pause = false ∧ t.env.lf.pause = true ∧ (after (.pause false) t).env.lf.pause = false ∧ s.env.lf.d2dErr.getLsbD 1 = false ∧ u.env.lf.d2dErr = 2
    ∧ (u.dp.inc.reports.map (fun q => q.2.key.kind)) = [.linkCut] ∧ (after (.d2dErrClear 1) u).env.lf.d2dErr = 0 := by decide +kernel

theorem wit_TimeExchange_parent :
    let g := frame 2 0 0 0 9 (beBytes 8 999000 ++ beBytes 8 0 ++ beBytes 8 0) 17826311112447682034
    let f := eth g
    let s := linkS lnk
    PackageTime (g.take 48) ∧ isHold g = false ∧ fNak g = false ∧ fKind g = 2 ∧ FrameIn s.env s.dp f g ∧ fEpoch g = lnk.epochRx
    ∧ (after (.time f false none) s).dp.port.fab = [.time 0 1 true 999000 1000000 1000000 20 3]
    ∧ (after (.time (g.take 48) false (some 2)) s).dp.port.fab = [.time 0xFF 2 true 999000 1000000 1000000 0 0] := by decide +kernel

theorem wit_TimeExchange_requester :
    let f := (frame 2 0x80 0 0 0 (beBytes 8 999000 ++ beBytes 8 999600 ++ beBytes 8 999700) 0).take 48
    let e := { env0 with lf := { env0.lf with tRoot := false, tPdie := 1 } }
    let m : TimeMeas := { TimeMeas.init with busy := true, toSend := 1, nextAt := 1000000, waiting := [(0, 999000, 999000)], serial := 1 }
    let s : State := { env := e, dp := { dp0 with tm := m }, pending := [] }
    let t := after (.time f false (some 1)) s
    PackageTime f ∧ fNak f = true ∧ m.waiting.find? (fun w => w.2.1 == fTime f 24) = some (0, 999000, 999000) ∧ t.dp.tm.results = [(150, 450)] ∧ t.dp.tm.waiting = []
    ∧ (after .timeExchangeSend s).dp.port.fab = [.time 0xFF 1 false 1000000 0 0 0 0] ∧ (after .timeExchangeSend s).dp.tm.toSend = 0
    ∧ (let u : State := { s with env := { e with clk := { e.clk with gt := 2599000 } } }
       1600000 ≤ (gtInterp u.env - 999000).toNat ∧ (after (.timeExchangeTimeout 0) u).dp.tm.waiting = []) := by decide +kernel

theorem wit_TimeExchange_result :
    let e := { env0 with lf := { env0.lf with tRoot := false, tApply := true } }
    let m : TimeMeas := { TimeMeas.init with busy := true, results := [(200, 500), (150, 450)] }
    let t := after .offsetResult { env := e, dp := { dp0 with tm := m }, pending := [] }
    let u := after .offsetResult { env := e, dp := { dp0 with tm := { m with results := [] } }, pending := [] }
    t.dp.tm.theta = 150 ∧ t.dp.tm.delta = 450 ∧ t.dp.tm.valid = true ∧ t.env.clk.stepReq = some 150 ∧ u.dp.tm.valid = false := by decide +kernel

/-! ### Partitions -/

/-- One joint with agents, and one available tile: two sources of markers. -/
def envP : Env :=
  { env0 with cfg := { env0.cfg with present := (List.range 127).map (fun k => (k + 1, 0)) }, rep := { env0.rep with unavail := (List.range 31).map (fun k => k + 1) } }

def kx (op : Nat) (fs : List (Nat × Nat × Nat)) : BitVec 512 := desc op 0 fs

/-- The keeper ring with descriptor x, over data path d. -/
def kS (e : Env) (d : Dp) (x : BitVec 512) : State := { env := e, dp := heads d .keeper [x], pending := [] }

def inState (d : Dp) (v : PState) : Dp := setPart d 0 { partOf d 0 with st := v }

theorem wit_PartitionsFreezeAndResume_save :
    let x := kx 0x50 [(192, 64, 0x40000)]
    let s := kS env0 (place dp0 33 lock2) x
    let f := kS env0 (inState (place dp0 33 lock2) .frozen) x
    let n := kS env0 (inState (place dp0 33 lock2) .frozen) (kx 0x50 [])
    let t := after (.ctxSave .keeper) f
    Ready s .keeper 16 x 0x50 ∧ BitVec.ofNat 4 (dfield x 128 4) = 0 ∧ dfield x 192 64 % 4096 = 0 ∧ (partOf (after (.ctxSave .keeper) s).dp 0).st = .freezing
    ∧ Ready f .keeper 16 x 0x50 ∧ (partOf t.dp 0).st = .saved ∧ (statuses t 16).getLast? = some 0 ∧ (tileOf t.dp 0).slots = []
    ∧ (partOf (after (.ctxSave .keeper) n).dp 0).st = .frozen ∧ statuses (after (.ctxSave .keeper) n) 16 = [0] := by decide +kernel

theorem wit_PartitionsFreezeAndResume_restore :
    let x := kx 0x51 []
    let b := kx 0x51 [(192, 64, 0x40001)]
    let bs := kS env0 (place dp0 33 lock2) b
    let fb := kS env0 (inState dp0 .freezing) (kx 0x50 [(192, 64, 0x40000)])
    let f := kS env0 (setPart (place dp0 33 lock2) 0 { partOf dp0 0 with st := .frozen, gtFreeze := 400000 }) x
    let r := kS env0 (place dp0 33 lock2) x
    let t := after (.ctxRestore .keeper []) f
    Ready f .keeper 16 x 0x51 ∧ (partOf t.dp 0).st = .run
    ∧ (match (brickOf t.dp 33).body with | .lock l => l.queue.map (fun w => w.dlAt) | _ => []) = [0, 1599000]
    ∧ Ready r .keeper 16 x 0x51 ∧ statuses (after (.ctxRestore .keeper []) r) 16 = [4]
    ∧ Ready bs .keeper 16 b 0x51 ∧ statuses (after (.ctxRestore .keeper []) bs) 16 = [0x12] ∧ statuses (after (.ctxSave .keeper) fb) 16 = [4] := by decide +kernel

/-- Partition 0 saved at 0x40000 with the lock of brick 33, and the 8 KiB of its area as written. -/
def savedS (x : BitVec 512) : State :=
  let t := after (.ctxSave .keeper) (kS env0 (inState (place dp0 33 lock2) .frozen) (kx 0x50 [(192, 64, 0x40000)]))
  kS env0 { t.dp with cmpl := dp0.cmpl, rings := dp0.rings, port := dp0.port } x

theorem wit_PartitionsFreezeAndResume_saved :
    let x := kx 0x51 [(192, 64, 0x40000)]
    let s := savedS x
    let z := savedS (kx 0x51 [])
    let b := savedS (kx 0x50 [(192, 64, 0x40000)])
    Ready s .keeper 16 x 0x51 ∧ (partOf s.dp 0).st = .saved ∧ ((partOf s.dp 0).saved.map (fun v => v.area)) = some 0x40000
    ∧ areaMatches s.env 0 [] = false ∧ statuses (after (.ctxRestore .keeper []) s) 16 = [0x12] ∧ statuses (after (.ctxRestore .keeper []) z) 16 = [0x12]
    ∧ statuses (after (.ctxSave .keeper) b) 16 = [4]
    ∧ (match (partOf s.dp 0).saved with | some v => v.entries.all (entryFits s.dp 0 v) && (match restoreState s.env (memRead s.dp 16 v.area 0) 0 v with | .ok _ => true | .error _ => false) | none => false) = true := by decide +kernel

/-! An area that a restoration may read back. -/

/-- The header of an area of partition 0 (Table 11.6) that lists nothing, with a CRC. -/
def areaHead (crc : Nat) : Nat := pack [(0, 32, 0x49474358), (32, 32, 0x49470301), (96, 32, 32768), (1536, 32, crc)]

/-- Words that the register of the CRC holds one after the other, 64 zero bytes apart. -/
def zeroSteps : List Word → Bool
  | a :: b :: w => decide ((List.replicate 64 0).foldl crcByte a = b) && zeroSteps (b :: w)
  | _ => true

theorem zeroSteps_last (w : List Word) (a : Word) (h : zeroSteps (a :: w) = true) :
    (List.replicate (64 * w.length) 0).foldl crcByte a = (a :: w).getLast (by simp) := by
  induction w generalizing a with
  | nil => rfl
  | cons b w ih =>
    simp only [zeroSteps, Bool.and_eq_true, decide_eq_true_eq] at h
    rw [List.length_cons, Nat.mul_succ, Nat.add_comm, ← List.replicate_append_replicate, List.foldl_append, h.1, ih b h.2, List.getLast_cons_cons]

theorem leBytes_length (n v : Nat) : (leBytes n v).length = n := by
  induction n generalizing v with
  | zero => rfl
  | succ n ih => simp [leBytes, ih]

theorem leBytes_zero (n : Nat) : leBytes n 0 = List.replicate n 0 := by
  induction n with
  | zero => rfl
  | succ n ih => simp [leBytes, ih, List.replicate_succ]

theorem leBytes_add (m n v : Nat) : leBytes (m + n) v = leBytes m v ++ leBytes n (v / 256 ^ m) := by
  induction m generalizing v with
  | zero => simp [leBytes]
  | succ m ih => rw [Nat.succ_add]; simp [leBytes, ih, Nat.div_div_eq_div_mul, Nat.pow_succ, Nat.mul_comm]

def crcWords : List Word :=
  [0xf68a55ea, 0x37de1996, 0xe5fca73, 0xf337015a, 0x69dd317c, 0x35908809, 0x7868c872, 0x44f5e6fd, 0xdb14f2c2, 0x49348db2, 0x42cc98da, 0xa0a1c4c6, 0x26d67133, 0xb49e6c01, 0xb69a1388, 0x891c09ff]
    ++ [0xa98bf3ac, 0xf6713e10, 0xb1460332, 0x39bdd818, 0x1679194, 0xe87cac86, 0x7067ed9c, 0x802c459d, 0xfc9c7bbb, 0xb7d54e04, 0xc55138d4, 0xcd614540, 0x1e20ba5, 0x77463f19, 0xed22044c, 0x370d301b]
    ++ [0x3b7b1bf7, 0x13a0d785, 0x12b134d, 0xa7b2f994, 0x531d2d56, 0xca4bd4dd, 0xe059f1f5, 0xd5135ef1, 0x174de4aa, 0xc7f211a0, 0x9bf7be00, 0xaea65ef6, 0x53c5cbc8, 0x6f34c414, 0xee816208, 0x6335d4bb]
    ++ [0x61593f5b, 0xe76f2281, 0xea5ed41b, 0xe21542c8, 0xeeb98bc7, 0xe6db860a, 0xf3a9372, 0x8daab068, 0x5f53de6c, 0xc3a4e0c5, 0xb2b02653, 0xb5803ccf, 0x2f6e8580, 0xfa21a4d5, 0x614e8ab4]

theorem area_first : (leBytes 64 (areaHead 0)).foldl crcByte 0xFFFFFFFF#32 = 0xa124487c := by decide +kernel

theorem area_zeros : zeroSteps (0xa124487c :: crcWords) = true := by decide +kernel

theorem area_crc : crc32c (leBytes 4096 (areaHead 0)) = 2662430027 := by
  have z := zeroSteps_last _ _ area_zeros
  have d : areaHead 0 / 256 ^ 64 = 0 := by decide +kernel
  rw [crc32c, show (4096 : Nat) = 64 + 4032 from rfl, leBytes_add, d, leBytes_zero, List.foldl_append, area_first]
  rw [show 64 * crcWords.length = 4032 from rfl] at z
  rw [z]
  decide +kernel

/-- An area of partition 0 as a restoration reads it. -/
def area0 : List Byte := leBytes 4096 (areaHead 2662430027) ++ List.replicate 196608 0

theorem area_head : leNat (leBytes 4096 (areaHead 2662430027)) = areaHead 2662430027 := by decide +kernel

theorem wit_PartitionsFreezeAndResume_area : areaMatches env0 0 area0 = true := by
  have h : area0.take 4096 = leBytes 4096 (areaHead 2662430027) := by
    rw [area0, List.take_left' (leBytes_length _ _)]
  have n : area0.length = 200704 := by rw [area0, List.length_append, leBytes_length, List.length_replicate]
  have z : area0.drop 200704 = [] := List.drop_eq_nil_of_le (by rw [n])
  simp only [areaMatches, h, area_head, n, z, List.take_nil, List.append_nil]
  have p : areaHead 2662430027 - pack [(480, 32, bits (areaHead 2662430027) 480 32), (1536, 32, bits (areaHead 2662430027) 1536 32)] = areaHead 0 := by decide +kernel
  rw [p, area_crc]
  decide +kernel

theorem wit_PartitionsFreezeAndResume_drain :
    let d := { setPart dp0 0 { partOf dp0 0 with st := .freezing } with ctxRun := some 0 }
    let s : State := { env := envP, dp := d, pending := [] }
    let s1 := after (.freeze (.joint 0) 0) s
    let s2 := after (.freeze (.frontEnd 0) 0) s1
    let s3 := after (.freeze (.tile 0) 0) s2
    let s4 := after (.drainMarker 0 (.joint 0) 0) s3
    implemented s.env 0 = true ∧ unavailable s.env 0 = false ∧ (jointOf s1.dp 0).frozen = [0] ∧ ((partOf s3.dp 0).frozenBy.map (fun f => f.1)) = [.joint 0, .frontEnd 0, .tile 0]
    ∧ markerDue s3.dp (.joint 0) 0 0 = true ∧ tileServes s3.env s3.dp 0 = true ∧ (partOf s4.dp 0).markers = [(0, .joint 0)]
    ∧ (partOf (after (.drainMarker 0 (.frontEnd 0) 0) s4).dp 0).st = .frozen := by decide +kernel

theorem wit_PartitionsFreezeAndResume_backlog :
    let h := inHod 1 5
    let d := inState (linDp linBar lin0) .frozen
    let s := st { d with inbound := [h] }
    inboundAt s.env s.dp 0 = some h ∧ h.waits s.env s.dp = true ∧ h.target s.env s.dp = some 33 ∧ tileServes s.env s.dp 0 = true ∧ (partOf s.dp 0).backlog.length < Config.backlogSlots
    ∧ ((partOf (after (.backlogHod 0 none) s).dp 0).backlog.map (fun b => (b.gt, b.hod.rec_.kind))) = [(1000000, 1)] := by decide +kernel

theorem wit_PartitionsFreezeAndResume_backlog_refused :
    let h := inHod 1 5
    let d := inState (linDp linBar lin0) .frozen
    let s := st { setPart d 0 { partOf d 0 with backlog := List.replicate 256 { gt := 5, hod := h } } with inbound := [h] }
    h.waits s.env s.dp = true ∧ Config.backlogSlots ≤ (partOf s.dp 0).backlog.length ∧ (h.route ≠ 0xFF ∨ h.die ≠ s.env.cfg.die)
    ∧ (after (.backlogHod 0 none) s).dp.inbound = [] ∧ (partOf (after (.backlogHod 0 none) s).dp 0).backlog.length = (partOf s.dp 0).backlog.length := by decide +kernel

/-! ### Fences and faults of tiles -/

theorem wit_FenceAndRepoint_agent :
    let x := kx 0x52 [(136, 11, 3)]
    let w := kx 0x52 [(130, 1, 1), (136, 11, 3)]
    let s := kS env0 dp0 x
    let t := after (.fenceUnit .keeper) s
    let u : State := { kS env0 dp0 w with env := { env0 with rep := { env0.rep with fencedAgents := [3] } } }
    Ready s .keeper 16 x 0x52 ∧ (agentClass s.env 0 3).isSome = true ∧ (agentPart s.dp 0 3).isSome = true ∧ t.env.rep.fencedAgents = [3] ∧ statuses t 16 = [0]
    ∧ t.dp.departing = [(3, 0)] ∧ (t.dp.inc.reports.map (fun q => q.2.key.kind)) = [.fence]
    ∧ Ready u .keeper 16 w 0x52 ∧ (after (.fenceUnit .keeper) u).env.rep.fencedAgents = [] := by decide +kernel

theorem wit_FenceAndRepoint_tile :
    let x := kx 0x52 [(128, 2, 1), (136, 11, 5)]
    let s := kS env0 dp0 x
    let u := kS { env0 with rep := { env0.rep with auto := false } } dp0 x
    Ready s .keeper 16 x 0x52 ∧ logicalOf s.env 5 = some 5 ∧ (tileOf s.dp 5).test = none ∧ (spareFor (fenceTile s.env s.dp 5 (fenceKey s.env 1 5)).1 5).isSome = true
    ∧ (after (.fenceUnit .keeper) s).env.rep.fencedTiles = [5] ∧ spareFor (fenceTile s.env s.dp 5 (fenceKey s.env 1 5)).1 5 = some (physOf (after (.fenceUnit .keeper) s).env 5)
    ∧ Ready u .keeper 16 x 0x52 ∧ unavailable (after (.fenceUnit .keeper) u).env 5 = true := by decide +kernel

theorem wit_FenceAndRepoint_tile_waits :
    let x := kx 0x52 [(128, 2, 1), (136, 11, 5)]
    let w := kx 0x52 [(128, 2, 1), (136, 11, 33)]
    let l := kx 0x52 [(128, 2, 1), (130, 1, 1), (136, 11, 33)]
    let s := kS env0 (setTile dp0 5 { tileOf dp0 5 with test := some .check }) x
    let u := kS env0 dp0 w
    let v := kS { env0 with rep := { env0.rep with fencedTiles := [33], spares := [32, 34, 35] } } dp0 l
    Ready s .keeper 16 x 0x52 ∧ (after (.fenceUnit .keeper) s).env = s.env ∧ (tileOf (after (.fenceUnit .keeper) s).dp 5).fenceReq = [fenceKey env0 1 5]
    ∧ logicalOf u.env 33 = none ∧ (after (.fenceUnit .keeper) u).env.rep.fencedTiles = [33] ∧ (after (.fenceUnit .keeper) u).env.rep.spares = [32, 34, 35]
    ∧ Ready v .keeper 16 l 0x52 ∧ (after (.fenceUnit .keeper) v).env.rep.fencedTiles = [] ∧ (after (.fenceUnit .keeper) v).env.rep.spares = [32, 33, 34, 35]
    ∧ (ptileOf (after (.fenceUnit .keeper) v).env 33).powered = false := by decide +kernel

theorem wit_FenceAndRepoint_port :
    let u := jointPort env0 0
    let x := kx 0x52 [(128, 2, 2), (136, 11, u)]
    let s := kS env0 dp0 x
    (u % 8 = 4 ∨ u % 8 = 5) ∧ portJoint s.env u = some 0 ∧ Ready s .keeper 16 x 0x52 ∧ (after (.fenceUnit .keeper) s).env.rep.fencedPorts = [u]
    ∧ (after (.fenceUnit .keeper) s).dp.departing.any (fun a => a.1 == 3) = true ∧ (after (.fenceUnit .keeper) s).dp.net = [] := by decide +kernel

theorem wit_FenceAndRepoint_answers :
    let f := fun (l : List (Nat × Nat × Nat)) => kx 0x52 l
    let code := fun (e : Env) (x : BitVec 512) => statuses (after (.fenceUnit .keeper) (kS e dp0 x)) 16
    let fenced := { env0 with rep := { env0.rep with fencedAgents := [3] } }
    code env0 (f [(128, 2, 3)]) = [0x12] ∧ code env0 (f [(136, 11, 1024)]) = [0x12] ∧ code env0 (f [(128, 2, 1), (136, 11, 36)]) = [0x12]
    ∧ code env0 (f [(128, 2, 2), (136, 11, 3)]) = [0x12] ∧ code fenced (f [(136, 11, 3)]) = [0] ∧ code env0 (f [(130, 1, 1), (136, 11, 3)]) = [0]
    ∧ code env0 (f [(128, 2, 1), (130, 1, 1), (136, 11, 3)]) = [0] ∧ frontCheck env0 (heads dp0 .keeper [f [(128, 2, 3)]]) .keeper (f [(128, 2, 3)]) = none := by decide +kernel

theorem wit_FenceAndRepoint_move :
    let x := kx 0x53 [(128, 5, 2), (136, 6, 33)]
    let s := kS env0 dp0 x
    let t := after (.repoint .keeper) s
    Ready s .keeper 16 x 0x53 ∧ lintelCapable 33 = true ∧ tileFenced s.env 33 = false ∧ logicalOf s.env 33 = none ∧ unavailable s.env 2 = false ∧ (tileOf s.dp 2).test = none
    ∧ physOf t.env 2 = 33 ∧ t.env.rep.spares = [2, 32, 34, 35] := by decide +kernel

theorem wit_FenceAndRepoint_move_answers :
    let f := fun (l q : Nat) => kx 0x53 [(128, 5, l), (136, 6, q)]
    let code := fun (e : Env) (d : Dp) (x : BitVec 512) => statuses (after (.repoint .keeper) (kS e d x)) 16
    let gone := { env0 with rep := { env0.rep with unavail := [4], lmap := env0.rep.lmap.filter (fun p => p.1 != 4) } }
    let tested := setTile dp0 2 { tileOf dp0 2 with test := some .check }
    code env0 dp0 (f 2 36) = [0x12] ∧ code env0 dp0 (f 2 2) = [0] ∧ code env0 dp0 (f 2 3) = [4] ∧ code env0 tested (f 2 33) = [4] ∧ logicalOf env0 33 = none
    ∧ unavailable gone 4 = true ∧ code gone dp0 (f 4 33) = [0] ∧ physOf (after (.repoint .keeper) (kS gone dp0 (f 4 33))).env 4 = 33
    ∧ code gone (place dp0 4 lock0) (f 4 33) = [4] ∧ homeOf env0 4 = 4
    ∧ tileFenced { env0 with rep := { env0.rep with fencedTiles := [33] } } 33 = true := by decide +kernel

theorem wit_FenceAndRepoint_fenced :
    let x := kx 0x53 [(128, 5, 2), (136, 6, 33)]
    let e := { env0 with rep := { env0.rep with fencedTiles := [33] } }
    let key := fenceKey env0 1 33
    let k := kS e { dp0 with inc := { dp0.inc with pinned := [(.alwaysOn, key, 0x281)] } } x
    let s := kS e dp0 x
    let t := after (.repoint .keeper) s
    tileFenced e 33 = true ∧ fenceOf e s.dp 33 = key ∧ numberOf k.dp .alwaysOn key = some 0x281 ∧ statuses (after (.repoint .keeper) k) 16 = [0x22]
    ∧ (after (.repoint .keeper) k).dp.port.mem = [complWrite dp0 .keeper { mkCompl k.dp .keeper x .fenced with incident := 0x281 }]
    ∧ numberOf s.dp .alwaysOn key = none ∧ (ringOf t.dp .keeper).wait = some .number ∧ t.dp.inc.waits = [(.alwaysOn, key, 0)] := by decide +kernel

theorem wit_TileFaultsAndTests_hit :
    let s := one lock1
    let t := after (.tileFault 0 (.brick 33)) s
    (ptileOf s.env 0).asleep = false ∧ (tileOf s.dp 0).test = none ∧ resident s.dp 0 (.brick 33) = true ∧ intact s.env s.dp 33 0 = false ∧ lock1.valid = true
    ∧ (tileOf (after (.tileFault 0 .check) s).dp 0).test = some .check ∧ (brickOf t.dp 33).lost = some (tileFaultKey s.env 0) ∧ (brickOf t.dp 33).valid = true
    ∧ (t.dp.inc.reports.map (fun q => q.2.key.kind)) = [.tileFault] := by decide +kernel

/-- Of 66 requests on their way to tile 0 its router holds 64. -/
theorem wit_TileFaultsAndTests_back :
    let h := hod (.joint 0) (.tile 0) .req (.fwdWait 33 0 3 5)
    let s := st (netOf dp0 (List.replicate 66 h ++ [{ h with vc := .rsp }]))
    (after (.tileFault 0 .check) s).dp.net = List.replicate 64 h ++ List.replicate 2 { h with back := true, ready := now env0 + 256 } ++ [{ h with vc := .rsp }] := by decide +kernel

theorem wit_TileFaultsAndTests_test :
    let d := setTile dp0 6 { tileOf dp0 6 with test := some .check }
    let s := st d
    let u : State := { st d with env := { env0 with rep := { env0.rep with auto := false } } }
    (tileOf s.dp 6).test = some .check ∧ (tileOf s.dp 6).fenceReq = [] ∧ (after (.selfTestDone 6 .pass) s).env.rep.transients = 1 ∧ (tileOf (after (.selfTestDone 6 .pass) s).dp 6).test = none
    ∧ freeRow s.env 6 1 = some 0 ∧ (after (.selfTestDone 6 (.row 1 77)) s).env.rep.rowsUsed = 1 ∧ (after (.selfTestDone 6 (.row 1 77)) s).env = useRow s.env 6 1 0 77
    ∧ spareFor s.env 6 = some (physOf (after (.selfTestDone 6 .fails) s).env 6) ∧ unavailable (after (.selfTestDone 6 .fails) u).env 6 = true
    ∧ (after (.selfTestDone 6 .fails) u).env.rep.fencedTiles = [6] := by decide +kernel

theorem wit_TileFaultsAndTests_held :
    let d := setTile dp0 6 { tileOf dp0 6 with test := some .check }
    let w := setTile dp0 6 { tileOf dp0 6 with test := some .check, fenceReq := [fenceKey env0 1 6] }
    let s := st d
    let u := st w
    let e1 := (fenceTile env0 w (physOf env0 6) (fenceKey env0 1 6)).1
    after (.tileFault 6 .check) s = s ∧ (after (.tileFault 6 .corrected) s).env = s.env ∧ (after (.tileFault 6 .corrected) (st dp0)).dp = bumpT env0 dp0 6 26
    ∧ (let two := st (setTile d 6 { tileOf d 6 with fenceReq := [fenceKey env0 1 6, fenceKey env0 2 (tilePort env0 6)] })
       ((after (.selfTestDone 6 .pass) two).dp.inc.reports.filter (fun q => decide (q.1 = .alwaysOn))).length = 2 ∧ (after (.selfTestDone 6 .pass) two).env.rep.fencedPorts = [tilePort env0 6])
    ∧ spareFor e1 6 = some (physOf (after (.selfTestDone 6 .pass) u).env 6) ∧ (after (.selfTestDone 6 .pass) u).env.rep.fencedTiles = [6]
    ∧ (let v : State := { st d with env := { env0 with rep := { env0.rep with rowAuto := false, auto := false } } }
       unavailable (after (.selfTestDone 6 (.row 1 77)) v).env 6 = true) := by decide +kernel

theorem wit_TileFaultsAndTests_engine :
    ((after (.engineEccError (some 3) 0x40) (st dp0)).dp.inc.reports.map (fun q => (q.1, q.2.key.kind))) = [(.alwaysOn, .engine)]
    ∧ ((after (.unmatchedMStag 9) (st dp0)).dp.inc.reports.map (fun q => (q.1, q.2.key.kind))) = [(.alwaysOn, .engine)] := by decide +kernel

/-! ### Incidents, trigger, trace -/

def rep0 (k : IncKind) : Report := { key := mkKey env0 8 3 k, hall := false, part := some 0, d0 := 1, d1 := 2, d2 := 3, maps := [], count := 2, gtFirst := 999000 }

def ent (k : IncKind) : IncEntry :=
  { isOpen := true, number := 0x280, rep := rep0 k, cls := k.cls, count := 4, gtFirst := 900000, gtLast := 950000, dirty := true, lastWrite := none, hallSent := 0, lastHall := 0
    closing := false, carried := [], copies := [], order := 5 }

def incS (es : FMap IncEntry) (rs : List (Source × Report)) : State := st { dp0 with inc := { dp0.inc with entries := es, opens := 6, reports := rs } }

theorem wit_IncidentReports_join :
    let s := incS [(0, ent .auth)] [(.joint 3, rep0 .auth)]
    s.dp.inc.entries.find? (fun x => x.2.isOpen && decide (x.2.rep.key = (rep0 .auth).key)) = some (0, ent .auth)
    ∧ ((incEntry (after (.incidentReport 0) s).dp 0).map (fun x => (x.count, x.gtLast))) = some (6, 1000000)
    ∧ (after (.incidentReport 0) s).dp.inc.returns = [(.joint 3, (rep0 .auth).key, 0x280)] := by decide +kernel

theorem wit_IncidentReports_open :
    let s := incS [(0, ent .timeout)] [(.joint 3, rep0 .auth)]
    let f := incS [(0, ent .timeout)] [(.alwaysOn, rep0 .power)]
    s.dp.inc.entries.find? (fun x => x.2.isOpen && decide (x.2.rep.key = (rep0 .auth).key)) = none ∧ freeSlot s.dp 0 63 = some 1 ∧ IncKind.auth.cls ≠ .fatal
    ∧ ((incEntry (after (.incidentReport 0) s).dp 1).map (fun x => (x.number, x.count))) = some (6 * 128 + 1, 2)
    ∧ freeSlot f.dp 64 63 = some 64 ∧ ((incEntry (after (.incidentReport 0) f).dp 64).map (fun x => (x.number, x.cls))) = some (6 * 128 + 64, .fatal) := by decide +kernel

theorem wit_IncidentReports_lost :
    let s := incS ((List.range 63).map (fun k => (k, ent .timeout))) [(.joint 3, rep0 .config)]
    s.dp.inc.entries.find? (fun x => x.2.isOpen && decide (x.2.rep.key = (rep0 .config).key)) = none ∧ IncKind.config.cls = .notice ∧ freeSlot s.dp 0 63 = none
    ∧ (after (.incidentReport 0) s).dp.inc.ndrop = 1 := by decide +kernel

theorem wit_IncidentReports_overflow :
    let full := (List.range 63).map (fun k => (k, ent .timeout))
    let e := incS full [(.joint 3, rep0 .auth)]
    let f := incS ((List.range 63).map (fun k => (k + 64, ent .power))) [(.alwaysOn, rep0 .meshEcc)]
    let j := incS ((63, ent .overflow) :: full) [(.joint 3, rep0 .auth)]
    let v := incS ((0, { ent .config with order := 1 }) :: ((List.range 62).map (fun k => (k + 1, ent .timeout)))) [(.joint 3, rep0 .auth)]
    openFor e.dp (rep0 .auth).key .error = none ∧ freeSlot e.dp 0 63 = none ∧ oldestNotice e.dp = none
    ∧ (incEntry (after (.incidentReport 0) e).dp 63).map (fun x => (x.rep.key.kind, x.rep.d2, x.number)) = some (.overflow, 2, 6 * 128 + 63)
    ∧ IncKind.power.cls = .fatal ∧ (incEntry (after (.incidentReport 0) j).dp 63).map (fun x => (x.count, x.rep.d2)) = some (6, 6)
    ∧ freeSlot f.dp 64 63 = none ∧ oldestNotice v.dp = some 0 ∧ (incEntry (after (.incidentReport 0) v).dp 0).map (fun x => x.rep.key.kind) = some .auth := by decide +kernel

theorem wit_IncidentReports_number :
    let k := (rep0 .timeout).key
    let h := hod (.tile 0) (.joint 0) .rsp (.resp 3 (Resp.plain .timeout))
    let s := st { dp0 with inc := { dp0.inc with returns := [(.tile 0, k, 0x281)], waits := [(.tile 0, k, 4)], waitHods := [(4, [h])] } }
    let t := after (.incidentNumberReturn 0) s
    s.dp.inc.waits.filter (fun x => decide (x.2.1 = k) && (k.kind.pinned || decide (x.1 = .tile 0))) = [(.tile 0, k, 4)] ∧ (partOf s.dp h.part).st ≠ .frozen
    ∧ t.dp.inc.waits = [] ∧ posts t.dp.net = posts [{ h with body := .resp 3 { Resp.plain .timeout with value := 0x281 } }] := by decide +kernel

theorem wit_IncidentReports_number_frozen :
    let k := (rep0 .timeout).key
    let h := hod (.tile 0) (.joint 0) .rsp (.resp 3 (Resp.plain .timeout))
    let d := setPart { dp0 with inc := { dp0.inc with returns := [(.tile 0, k, 0x281)], waits := [(.tile 0, k, 4)], waitHods := [(4, [h])] } } 0 { partOf dp0 0 with st := .frozen }
    let t := after (.incidentNumberReturn 0) (st d)
    (partOf d h.part).st = .frozen ∧ t.dp.net = [] ∧ posts (partOf t.dp 0).recHods = posts [{ h with body := .resp 3 { Resp.plain .timeout with value := 0x281 } }]
    ∧ t.dp.inc.known.any (fun x => decide (x = (.tile 0, k, 0x281))) = true := by decide +kernel

theorem wit_IncidentReports_number_saved :
    let k := (rep0 .timeout).key
    let h := hod (.tile 0) (.joint 0) .rsp (.resp 3 { Resp.plain .timeout with brick := some 33 })
    let d : Dp := { dp0 with inc := { dp0.inc with returns := [(.tile 0, k, 0x281)], waits := [(.tile 0, k, 4)], waitHods := [(4, [h])] } }
    let t := after (.incidentNumberReturn 0) (st (inState d .saved))
    let u := after (.incidentNumberReturn 0) (st d)
    (partOf t.dp 0).recHods.length = 1 ∧ t.dp.net = [] ∧ h.body.brick = some 33 ∧ fget d.mirCopies (stripeKey 33 0) = none ∧ u.dp.net.length = 1 := by decide +kernel

theorem wit_IncidentEntriesProgress_close :
    let x := { ent .auth with count := 4 }
    let s : State := { incS [(0, x)] [] with env := { env0 with clk := { env0.clk with gt := 160950000 }, kp := { env0.kp with incBase := 0x70000 } } }
    let t := after (.incidentHoldClose 0) s
    let u := after (.kpIncClose 0x280) s
    incEntry s.dp 0 = some x ∧ s.env.kp.hold.toNat * 16000000 ≤ (gtInterp s.env - x.gtLast).toNat ∧ incEntry t.dp 0 = none
    ∧ (0x280 : Word).toNat % 128 = 0 ∧ PortFree s.dp ∧ incEntry u.dp 0 = none ∧ x.copies = [] ∧ x.carried = []
    ∧ t.dp.port.mem = [{ ctx := 16, addr := 0x70000, len := 64, data := withMaps (x.bits true false) x.rep.maps }] ∧ t.dp.inc.wrote = [0]
    ∧ (let v : State := { s with env := { s.env with stop := { s.env.stop with stopped := true } } }
       (after (.kpIncClose 0x280) v).dp.port.mem = [] ∧ (after (.kpIncClose 0x280) v).dp.port.memHeld.map (fun m => m.addr) = [0x70000]
       ∧ (after (.incidentHoldClose 0) { s with env := { s.env with kp := { s.env.kp with incBase := 0 } } }).dp.inc.wrote = []) := by decide +kernel

theorem wit_IncidentEntriesProgress_close_overflow :
    let x := { ent .overflow with copies := [(0, false)] }
    let s : State := { incS [(63, x)] [] with env := { env0 with clk := { env0.clk with gt := 160950000 } } }
    let n := { ent .overflow with copies := [] }
    let u : State := { incS [(63, n)] [] with env := s.env }
    incEntry s.dp 63 = some x ∧ x.cls ≠ .fatal ∧ incEntry (after (.incidentHoldClose 63) s).dp 63 = some { x with closing := true }
    ∧ n.carried = [] ∧ incEntry (after (.incidentHoldClose 63) u).dp 63 = none := by decide +kernel

theorem wit_IncidentEntriesProgress_write :
    let s : State := { incS [(5, ent .auth)] [] with env := { env0 with kp := { env0.kp with incBase := 0x70000 } } }
    let t := after (.incidentTableWrite 5 0) s
    let c := st { (incS [(5, { ent .auth with copies := [(0, false)] })] []).dp with incRings := [(0, { OutRing.init with cfg := cfg4, state := .running })] }
    let v := after (.incidentCopyWrite 5 0) c
    let w := incS [(5, { ent .auth with copies := [(0, false)] })] []
    t.dp.port.mem.map (fun m => (m.ctx, m.addr, m.len)) = [(16, 0x70500, 64)] ∧ (incEntry t.dp 5).map (fun y => (y.dirty, y.lastWrite)) = some (false, some 1000000)
    ∧ (after (.incidentTableWrite 5 1) s).dp.inc.fault = true ∧ copyFirst c.dp 5 0 = true ∧ suspended c.dp 0 = false
    ∧ (incRingOf v.dp 0).tail = 1 ∧ v.dp.port.mem.map (fun m => (m.ctx, m.addr, m.len)) = [(0, 0x10000, 64)] ∧ (incEntry v.dp 5).map (fun y => y.copies) = some []
    ∧ (incRingOf w.dp 0).state = .disabled ∧ (incEntry (after (.incidentCopyWrite 5 0) w).dp 5).map (fun y => y.copies) = some [] := by decide +kernel

theorem wit_IncidentEntriesProgress_wrote :
    let s : State := { st { dp0 with inc := { dp0.inc with entries := [(5, ent .auth)], wrote := [5] } } with env := { env0 with kp := { env0.kp with incBase := 0x70000 } } }
    let c : State := { incS [(0, { ent .auth with rep := { rep0 .auth with part := none } })] [] with env := { s.env with clk := { env0.clk with gt := 160950000 } } }
    (after (.incidentTableWrite 5 0) s).dp.inc.wrote = [] ∧ (after (.incidentTableWrite 5 0) s).dp.port.mem = [] ∧ (after (.incidentTableWrite 5 1) s).dp.inc.fault = true
    ∧ incEntry (after (.incidentHoldClose 0) c).dp 0 = none := by decide +kernel

theorem wit_IncidentEntriesProgress_waits :
    let x := { ent .auth with copies := [(0, false)] }
    let s := incS [(5, x)] []
    let b := st { s.dp with incRings := [(0, { OutRing.init with cfg := cfg4, state := .stopped })] }
    s.env.kp.incBase = 0 ∧ incEntry (after (.incidentTableWrite 5 0) s).dp 5 = some { x with dirty := false, lastWrite := some 1000000 }
    ∧ (incRingOf b.dp 0).state = .stopped ∧ after (.incidentCopyWrite 5 0) b = b := by decide +kernel

theorem wit_IncidentEntriesProgress_hall :
    let s : State := { incS [(5, ent .auth)] [] with env := { env0 with lf := { env0.lf with tRoot := false, tPdie := 2 }, clk := { env0.clk with gt := 16000000 } } }
    16000000 ≤ (gtInterp s.env - 0).toNat ∧ IncKind.auth.hall = true ∧ s.env.lf.tLink = 0xFF ∧ s.env.lf.tPdie ≠ s.env.cfg.die
    ∧ (after (.hallIncidentResend 5) s).dp.port.fab = [.pkg 2 (hallHod (ent .auth) 4)] := by decide +kernel

theorem wit_IncidentEntriesProgress_hall_none :
    let s := incS [(5, ent .auth)] []
    s.env.lf.tRoot = true ∧ after (.hallIncidentResend 5) s = s := by decide +kernel

theorem wit_TriggerAndTrace_trigger :
    let s := st { dp0 with obs := { dp0.obs with trigReq := 1, onAt := true, trigAt := 1000000 } }
    let t := after (.trigger 3) s
    s.dp.obs.trigReq &&& srcBit 0 ≠ 0 ∧ reached (gtInterp s.env) s.dp.obs.trigAt = true ∧ t.dp.obs.triggered = true ∧ t.dp.obs.trigGt = 1000000 ∧ t.dp.obs.src = srcBit 3
    ∧ t.dp.obs.frozen = true ∧ (after (.trigger 0) t).dp.obs.src = srcBit 3 ||| srcBit 0 := by decide +kernel

/-- Tile 0 traces into a buffer of 1 KiB in mode DRAIN, with one record of the keeper. -/
def traceD : Dp :=
  let d := setTile dp0 0 { tileOf dp0 0 with trace := { TBuf.init with recs := [{ TRec.blank 0x11 with handle := 5 }] } }
  { d with obs := { d.obs with modes := [(0, { TcMode.init with size := 1 })] }, trings := [(16, { OutRing.init with cfg := cfg4, state := .running })] }

theorem wit_TriggerAndTrace_drain :
    let s := st traceD
    let t := after (.traceDrain 0) s
    let n := st { traceD with obs := { traceD.obs with budget := 0 } }
    tileServes s.env s.dp 0 = true ∧ drains s.dp 0 = true ∧ budgetOf s.dp ≠ 0 ∧ 5 ≤ (tileOf (fillBucket s.env s.dp 0) 0).trace.bucket ∧ destGone s.dp 16 = false
    ∧ destTakes s.dp 16 = true ∧ t.dp.port.mem.map (fun m => (m.ctx, m.addr, m.len)) = [(16, 0x10000, 32)] ∧ (tileOf t.dp 0).trace.recs = []
    ∧ budgetOf n.dp = 0 ∧ (after (.traceDrain 0) n).dp.port = n.dp.port
    ∧ (tringOf (after (.traceRingFault .keeper 0x10000) s).dp 16).state = .stopped ∧ ClearWay s.dp (traceWay s.env 0) := by decide +kernel

theorem wit_TriggerAndTrace_lost :
    let p := ((traceWay env0 0).head?).getD 0
    let s := st { traceD with flitErr := [(p, true)] }
    let t := after (.traceDrain 0) s
    p ∈ traceWay s.env 0 ∧ (tileOf s.dp 0).trace.recs.length = 1 ∧ t.dp.port.mem = [] ∧ t.dp.trings = s.dp.trings ∧ (tileOf t.dp 0).trace.recs = []
    ∧ (t.dp.inc.reports.map (fun y => (y.1, y.2.key.kind))) = [(.router (p / 8), .meshEcc)] := by decide +kernel

/-! ### Time, clocks, stop, sleep, resets -/

def withClk (f : Clock → Clock) : State := { st dp0 with env := { env0 with clk := f env0.clk } }

def pins (g p t : Bool) : Pins := { gstopN := g, pwrwarnN := p, tpulse := t }

theorem wit_ReferenceEdges :
    let s := withClk (fun c => { c with cyc := 38, perOld := 40, gstopN := { level := true, differ := 4 } })
    let t := after (.referenceEdge 0 (pins false true false)) s
    let v : State := { t with dp := place dp0 33 (barB { bar with path := 320 }) }
    let set := fun (f : Clock → Clock) => ({ v with env := { v.env with clk := f v.env.clk } } : State)
    let x := set (fun c => { c with per := 20, perOld := 40, changed := true, mixed := false })
    let y := set (fun c => { c with per := 20, perOld := 41, changed := true, mixed := false, perHalf := true, oldHalf := false })
    let path := fun (s : State) => (barrierOf (after .clockChange s).dp 33).map (fun y => y.path)
    t.env.clk.gt = 1000640 ∧ t.env.clk.per = 38 ∧ t.env.clk.changed = true ∧ t.env.clk.gstopFell = true ∧ t.env.clk.cyc = 0 ∧ t.env.clk.edgeCyc = 40038
    ∧ BricksRise x.dp ∧ path x = some 640 ∧ (after .clockChange x).env.clk.perOld = 20 ∧ pureSwitch y.env.clk = true ∧ path y = some 640
    ∧ (after .clockChange (set (fun c => { c with changed := true, mixed := true }))).env.clk.changed = true := by decide +kernel

theorem wit_ReferenceEdges_slew :
    (after (.referenceEdge 40 (pins true true false)) (withClk (fun c => { c with slew := 400 }))).env.clk.gt = 1000320
    ∧ (after (.referenceEdge 40 (pins true true false)) (withClk (fun c => { c with slew := 400 }))).env.clk.slew = 80
    ∧ (after (.pairLoWrite keeperActor 0x16 6) (st dp0)).env.stop.goAtLo = 6 ∧ (after (.throttle true) (st dp0)).env.clk.per = 40 ∧ (after (.throttle true) (st dp0)).env.clk.half = true := by decide +kernel

theorem wit_ReferenceEdges_throttle :
    let s := withClk (fun c => { c with lastSwitch := some 999000 })
    let h := withClk (fun c => { c with half := true, throttle := true, per := 20, lastSwitch := some 990000 })
    let p : State := { s with env := { s.env with stop := { s.env.stop with stopped := true } } }
    (gtInterp s.env - 999000).toNat < 1280 ∧ (after (.throttle true) s).env.clk.half = false ∧ (after (.throttle true) s).env.clk.throttle = true
    ∧ 1280 ≤ (gtInterp h.env - 990000).toNat ∧ (after (.throttle false) h).env.clk.per = 20 ∧ (after (.throttle false) h).env.clk.settle = 1
    ∧ (after (.throttle true) p).env = { p.env with clk := { p.env.clk with throttle := true } }
    ∧ (after (.referenceEdge 40 (pins true true false)) p).env.clk.edgeCyc = 40000 ∧ (after (.throttle false) s).env = s.env := by decide +kernel

theorem wit_GtStepsAndPulses :
    let s := withClk (fun c => { c with stepReq := some (-500) })
    let a : State := { s with dp := place dp0 33 lock0 }
    let p := withClk (fun c => { c with tpDir := 1, gt := 16000000000, gtPrev := 15999999360 })
    (after .gtStepApply s).env.clk.gt = 999500 ∧ (after .gtStepApply a).env.clk.slew = 500 ∧ a.dp.bricks.any (fun b => b.2.valid) = true
    ∧ (after .gtStepApply (withClk (fun c => { c with stepReq := some 700, slew := 100 }))).env.clk.gt = 1000600
    ∧ (after .tpulseInput (withClk (fun c => { c with tpRise := true }))).env.clk.tpCap = 996480
    ∧ p.env.clk.gt.toNat / pulseUnits false ≠ p.env.clk.gtPrev.toNat / pulseUnits false ∧ (after .tpulseOutput p).env.clk.tpFall = some 16000160000
    ∧ (let f := withClk (fun c => { c with tpFall := some 1000640 })
       let l := withClk (fun c => { c with tpFall := some 1000641 })
       (after (.referenceEdge 40 ⟨true, true, false⟩) f).env.clk.tpFall = none ∧ (after (.referenceEdge 40 ⟨true, true, false⟩) l).env.clk.tpFall = some 1000641)
    ∧ (after (.kpGtStepHi 0xFFFFFFFF) (withClk (fun c => { c with stepLo := 0xFFFFFFF6 }))).env.clk.stepReq = some (-10) := by decide +kernel

theorem wit_StopAndGo :
    let s : State := { st (place dp0 33 lock2) with env := { envL with clk := { envL.clk with gstopFell := true } } }
    let t := after .globalStopPin s
    let later := fun (e : Env) => { e with clk := { e.clk with gt := 1640000 } }
    let u : State := { after (.kpStopStop 1) s with env := later (after (.kpStopStop 1) s).env }
    let v := after (.kpStopGo 2) u
    s.env.stop.stopped = false ∧ t.env.stop.stopped = true ∧ t.env.stop.byPin = true ∧ routeValid s.env 0 = true ∧ t.dp.port.fab.length = 1
    ∧ u.env.stop.stopped = true ∧ v.env.stop.stopped = false ∧ v.env.stop.stopLen = 640000 ∧ suspended u.dp 0 = false
    ∧ (match (brickOf v.dp 33).body with | .lock l => l.queue.map (fun w => w.dlAt) | _ => []) = [0, 1639000] := by decide +kernel

theorem wit_StopAndGo_timed :
    let e := { env0 with stop := { env0.stop with stopped := true, goAt := 1000001, stopGt := 900000 } }
    let s : State := { st dp0 with env := e }
    let t := after (.kpStopGo 6) s
    let u : State := { t with env := { t.env with clk := { t.env.clk with gt := 1000001 } } }
    let w : State := { s with env := { e with clk := { e.clk with gstopN := Filter.low } } }
    reached (gtInterp s.env) s.env.stop.goAt = false ∧ t.env.stop.goPend = true ∧ t.env.stop.stopped = true ∧ reached (gtInterp u.env) u.env.stop.goAt = true
    ∧ (after .goAtReached u).env.stop.stopped = false ∧ (after (.kpStopGo 10) w).env.stop.stopped = true := by decide +kernel

theorem wit_StopAndGo_pin :
    let e := { env0 with stop := { env0.stop with stopped := true, goAt := 999999, stopGt := 900000, goPend := true } }
    let s : State := { st (inState (place dp0 33 lock2) .frozen) with env := e }
    let t := after .goAtReached s
    reached (gtInterp e) 999999 = true ∧ t.env.stop.stopped = false ∧ t.env.stop.stopLen = 100000 ∧ brickOf t.dp 33 = lock2
    ∧ PortFree s.dp ∧ (after (.kpStopGo 6) s).env.stop.stopped = false := by decide +kernel

theorem wit_SleepAndWake :
    let s := one lock2
    let t := after (.tileSleep 0) s
    let u : State := { t with env := { t.env with clk := { t.env.clk with gt := 993880 } } }
    s.env.pwr.idle ≠ 0 ∧ restful s.env s.dp 0 = true ∧ s.env.pwr.idle.toNat * 16000 ≤ (gtInterp s.env - (tileOf s.dp 0).idleSince).toNat
    ∧ (ptileOf t.env 0).asleep = true ∧ (tileOf t.dp 0).wakeAt = some 993880 ∧ reached (gtInterp u.env) 993880 = true
    ∧ (ptileOf (after (.wakeComparator 0) u).env 0).asleep = false ∧ (ptileOf (after (.tileWakeHod 0) t).env 0).lock = 0 := by decide +kernel

theorem wit_StartAndResets_start :
    let e := { env0 with pwr := { env0.pwr with enable := false, ready := false } }
    let s : State := { st dp0 with env := e }
    let t := after (.kpCtlEnable 1) s
    let u : State := { t with env := { t.env with clk := { t.env.clk with gt := 1059200, edgeCyc := 51892 }, pwr := { t.env.pwr with poweredCyc := 43700 } } }
    let p : State := { t with env := { t.env with pwr := { t.env.pwr with ptiles := [] }, clk := { t.env.clk with gt := 1059200 } } }
    t.env.pwr.enable = true ∧ t.env.pwr.enabledAt = 1000000 ∧ scrubbed t.env = false ∧ now u.env - 43700 = 8192
    ∧ scrubbed { u.env with pwr := { u.env.pwr with poweredCyc := 43701 } } = false
    ∧ ((after (.referenceEdge 40 ⟨true, true, false⟩) p).env.pwr.poweredCyc, (ptileOf (after (.referenceEdge 40 ⟨true, true, false⟩) p).env 31).powered) = (40040 - 40, true) ∧ scrubbed u.env = true ∧ (after .tilesReady u).env.pwr.ready = true := by decide +kernel

theorem wit_StartAndResets_resets :
    let s := st (withEntry (barDp bar) .lockAcq (rq lock0 0 []) .pends)
    let a := after (.agentReset 0 0 true) s
    let w := after (.kpCtlWarm 3) s
    let p : State := { s with env := { env0 with clk := { env0.clk with pwrFell := true }, pwr := { env0.pwr with ready := false } } }
    (agentPart s.dp 0 0).isSome = true ∧ (jointOf a.dp 0).entries = [] ∧ a.dp.departing = [(0, 0)] ∧ (jointOf (after (.agentReset 0 0 false) a).dp 0).reset = 0
    ∧ keeperInFlight s.dp = false ∧ (brickOf w.dp 33).valid = false ∧ (brickOf w.dp 33).gen = 1 ∧ (jointOf w.dp 0).beds = [] ∧ (partOf w.dp 0).qb = 100
    ∧ freeSlot p.dp 64 63 = some 64 ∧ (after .powerFailWarning p).env.pwr.pfFrozen = true
    ∧ ((incEntry (after .powerFailWarning p).dp 64).map (fun x => x.cls)) = some .fatal ∧ (after .coldReset s).dp = Dp.reset := by decide +kernel

theorem wit_StartAndResets_busy :
    let r := setRing dp0 .keeper { ringOf dp0 .keeper with wait := some .fetch }
    let s := st r
    let p : State := { st dp0 with env := { env0 with stop := { env0.stop with stopped := true } } }
    let f : State := { st dp0 with env := { env0 with clk := { env0.clk with pwrFell := true } } }
    (after (.kpCtlWarm 3) s).env.pwr.warmBusy = true ∧ (after (.kpCtlWarm 3) p).env.pwr.warmBusy = true ∧ s.env.pwr.pfFrozen = false
    ∧ (after .powerFailWarning f).env.pwr.pfFrozen = true ∧ (after .powerFailWarning f).env.pwr.gtFrozen = 1000000 ∧ (after .powerFailWarning f).env.clk = { f.env.clk with pwrFell := false } := by decide +kernel

theorem wit_StartAndResets_power :
    let f : State := { st (barDp bar) with env := { env0 with clk := { env0.clk with pwrFell := true, gstopFell := true } } }
    let t := after .powerFailWarning f
    let a : Await := { joint := 0, slot := 0, rid := 0, entry := none, resp := Resp.plain .fenced }
    let r := after (.agentReset 0 0 true) (st { dp0 with inc := { dp0.inc with waitResp := [(3, a)] } })
    t.env.stop.stopped = true ∧ t.env.stop.byPin = true ∧ t.env.pwr.pfFrozen = true ∧ t.env.clk.gstopFell = false ∧ t.dp.bricks = f.dp.bricks ∧ r.dp.inc.waitResp = [] := by decide +kernel

/-! ### Registers -/

def act0 : Actor := { keeper := false, pid := 0 }

/-- The doorbell pair of partition 0 with its low half latched. -/
def dbS (lo : Word) (d : Dp) : State := st (setPart d 0 { partOf d 0 with dbLo := lo })

theorem wit_DoorbellWrites_submit :
    let s := dbS 16 dp0
    let n := dbS 17 dp0
    WindowOpen s.env s.dp act0 (.part 0) ∧ ¬ WindowOpen s.env s.dp act0 (.part 1) ∧ ahead31 16 0 = true ∧ dbLatch s.dp (.part 0) = 16
    ∧ (partOf (after (.dbLoWrite act0 (.part 0) 5) s).dp 0).dbLo = 5 ∧ (ringOf (after (.doorbellSubmit act0 (.part 0) 0) s).dp r0).tail = 16
    ∧ ringSize cfg4 < ((17 : Word) - 0).toNat ∧ (ringOf (after (.doorbellSubmit act0 (.part 0) 0) n).dp r0).tail = 0
    ∧ ((after (.doorbellSubmit act0 (.part 0) 0) n).dp.inc.reports.map (fun q => q.2.key.kind)) = [.doorbell]
    ∧ (after (.dbLoWrite keeperActor .keeper 5) s).dp.kdbLo = 5 := by decide +kernel

theorem wit_DoorbellWrites_heads :
    let d := setCmpl dp0 (.part 0) { cmplOf dp0 (.part 0) with tail := 3 }
    let d := setIncRing d 0 { OutRing.init with cfg := cfg4, state := .running, tail := 4 }
    let s := dbS 2 d
    ahead31 2 0 = true ∧ (cmplOf (after (.doorbellCmplHead act0 (.part 0) 8) s).dp (.part 0)).head = 2 ∧ (incRingOf (after (.doorbellIncHead act0 (.part 0) 9) s).dp 0).head = 2 := by decide +kernel

theorem wit_DoorbellWrites_refused :
    let d := setCmpl dp0 (.part 0) { cmplOf dp0 (.part 0) with tail := 3 }
    let d := setIncRing d 0 { OutRing.init with cfg := cfg4, state := .running, tail := 4 }
    let d := setRing d r0 { ringOf d r0 with state := .stopped }
    let s := dbS 0xFFFFFFFE d
    let told := fun (i : Instr) => (after i s).dp.inc.reports.map (fun q => q.2.key.kind)
    ahead31 0xFFFFFFFE 0 = false ∧ told (.doorbellCmplHead act0 (.part 0) 8) = [.doorbell] ∧ told (.doorbellIncHead act0 (.part 0) 9) = [.doorbell]
    ∧ told (.resume act0 (.part 0) 0x10) = [.doorbell] ∧ (ringOf (after (.resume act0 (.part 0) 0x10) s).dp r0).state = .stopped
    ∧ told (.resume act0 (.part 0) 0x18) = [.doorbell] ∧ told (.resume act0 (.part 0) 0x19) = [.doorbell] := by decide +kernel

theorem wit_DoorbellWrites_ignored :
    let n : State := { dbS 4 dp0 with env := { env0 with pwr := { env0.pwr with ready := false } } }
    let told := fun (s : State) (i : Instr) => ((after i s).dp.inc.reports.map (fun q => q.2.key.kind), (after i s).dp.rings == s.dp.rings)
    told n (.doorbellSubmit act0 (.part 0) 0) = ([.config], true) ∧ told (dbS 4 dp0) (.doorbellSubmit act0 (.part 0) 12) = ([.config], true)
    ∧ (ringOf dp0 (.part 0 5)).state = .disabled ∧ told (dbS 4 dp0) (.resume act0 (.part 0) 0x15) = ([.config], true)
    ∧ told (dbS 4 dp0) (.doorbellSubmit keeperActor .keeper 3) = ([.config], true) := by decide +kernel

theorem wit_DoorbellWrites_resume :
    let d := setRing dp0 r0 { ringOf dp0 r0 with state := .stopped }
    let d := setCmpl d (.part 0) { cmplOf d (.part 0) with state := .stopped }
    let d := setIncRing d 0 { OutRing.init with cfg := cfg4, state := .stopped }
    let s := dbS 0 d
    WindowOpen s.env s.dp act0 (.part 0) ∧ (ringOf (after (.resume act0 (.part 0) 0x10) s).dp r0).state = .running ∧ (ringOf (after (.resume act0 (.part 0) 0x10) s).dp r0).retried = true
    ∧ (ringOf (after (.resume act0 (.part 0) 0x10) (dbS 4 d)).dp r0).tail = 4 ∧ (after (.resume act0 (.part 0) 0x11) s).dp.rings = s.dp.rings
    ∧ (cmplOf (after (.resume act0 (.part 0) 0x18) s).dp (.part 0)).state = .running ∧ (incRingOf (after (.resume act0 (.part 0) 0x19) s).dp 0).state = .running := by decide +kernel

theorem wit_PairsLatch :
    let s := withClk (fun c => { c with gt := 0x123456789A })
    let t := after (.pairLoRead act0 (BitVec.ofNat 20 (0x100198 / 4))) s
    pairValue s.env s.dp 0x100198 = some 0x123456789A ∧ readDenied act0 (locate 0x100198) = false ∧ readTile s.env (locate 0x100198) = none
    ∧ t.dp.port.rdata = 0x3456789A ∧ (after (.pairLoRead act0 (BitVec.ofNat 20 (0x100198 / 4 + 1))) t).dp.port.rdata = 0x12
    ∧ pairValue s.env s.dp 0x30 = some 0x123456789A ∧ readDenied act0 (locate 0x30) = true := by decide +kernel

theorem wit_PairsLatch_others :
    let s := st { dp0 with obs := { dp0.obs with pctr := [(3, 77)] } }
    let k := fun (w v : Nat) (s : State) => after (.lfKeyWrite keeperActor (BitVec.ofNat 20 ((0x314000 + 4 * w) / 4)) (BitVec.ofNat 32 v)) s
    let t := after (.lfTctlStart 0x3108) s
    fgetD (after (.pwCtrShadowRead act0 0) s).dp.obs.shadow 3 0 = 77 ∧ TileAnswers s.env s.dp 0
    ∧ (k 7 4 (k 6 3 (k 5 2 (k 4 1 s)))).env.lf.keys = [(0, 0x00000001000000020000000300000004)]
    ∧ t.dp.tm.busy = true ∧ t.dp.tm.toSend = 8 ∧ t.env.lf.tLink = 8 := by decide +kernel

theorem wit_PairsLatch_writes :
    let s := st dp0
    let w := fun (o v : Nat) => after (.pairLoWrite keeperActor (BitVec.ofNat 20 (o / 4)) (BitVec.ofNat 32 v)) s
    let rd := fun (t : State) (o : Nat) => (after (.pairLoRead keeperActor (BitVec.ofNat 20 (o / 4))) t).dp.port.rdata
    let m := st { dp0 with tm := { dp0.tm with busy := true } }
    TileAnswers s.env s.dp 16 ∧ (w 0x38 7).env.clk.stepLo = 7 ∧ rd (w 0x58 9) 0x58 = 9 ∧ rd (w 0xA8 0x12345) 0xA8 = 0x12000
    ∧ (w 0x300008 5).dp.obs.trigAtLo = 5 ∧ (w 0x30000C 6).dp.obs.trigAt = 0x600000000 ∧ (w 0xAC 6).env.pwr.pfBase = 0x600000000 ∧ (w 0x80 0x1FFFF).env.kp.incLo = 0x18000
    ∧ (after (.registerWrite keeperActor (BitVec.ofNat 20 (0x5C / 4)) 1) (w 0x58 9)).env.stop.goAt = 0x100000009
    ∧ (after (.lfTctlStart 0x80108) s).dp.tm = s.dp.tm ∧ (after (.lfTctlStart 0x80108) s).env.lf.tRoot = true ∧ (after (.lfTctlStart 0x108) m).dp.tm = m.dp.tm := by decide +kernel

theorem wit_ObservationCommands :
    let s := st traceD
    let f := st { traceD with trings := [(16, { OutRing.init with cfg := cfg4, state := .stopped }), (0, { OutRing.init with cfg := cfg4, state := .stopped })], obs := { traceD.obs with pctr := [(3, 77), (20, 5)] } }
    let t := after (.tcCtlTrig 1) s
    TileAnswers s.env s.dp 16 ∧ t.dp.obs.triggered = true ∧ (after (.tcCtlRearm 2) t).dp.obs.triggered = false ∧ (tileOf (after (.tcCtlRearm 2) t).dp 0).trace.recs = []
    ∧ (tringOf (after (.tcCtlResume 4) f).dp 16).state = .running ∧ (tileOf (after (.tcCtlFlush 8) s).dp 0).trace.flush = true ∧ (after (.tcCtlClrctr 0x20) f).dp.obs.pctr = []
    ∧ (let c := st { traceD with obs := { traceD.obs with kctr := [(kctrKey 0 0 28, 9), (kctrKey 1 1 1, 7)] } }
       fgetD (after (.tcCtlClrctr 0x20) c).dp.obs.kctr (kctrKey 0 0 28) 0 = 0 ∧ kctrExists 0 0 28 = true
       ∧ (after (.tcCsel 0x70000) c).dp.obs.cdata = 9
       ∧ (accessBack c.env 16).all (fun u => decide (fgetD (after (.tcCtlClrctr 0x20) c).dp.obs.kctr (kctrKey 1 u 1) 0 = 2)) = true)
    ∧ ((tileOf (after (.tcMarkHi 9) s).dp 0).trace.recs.map (fun r => r.handle)) = [5, 0x900000000] ∧ (after (.tcCsel 0x4001) s).dp.obs.csel = 0x4001
    ∧ (after (.pwObsctlClear act0 0 1) f).dp.obs.pctr = [(20, 5)] ∧ (tringOf (after (.pwObsctlResume act0 0 2) f).dp 0).state = .running := by decide +kernel

theorem wit_ObservationCommands_again :
    let s := st { dp0 with obs := { dp0.obs with triggered := true, trigGt := 77, src := 8 } }
    let t := after (.tcCtlTrig 0x11) s
    (0x11 : Word) &&& 0x2F#32 = 1#32 ∧ t.dp.obs.trigGt = 77 ∧ t.dp.obs.src = 9 ∧ t.dp.obs.all = true := by decide +kernel

theorem wit_RegisterWritesAndCommits_writes :
    let e := { env0 with pwr := { env0.pwr with ptiles := [] } }
    let s : State := { st (barDp { bar with measure := 3 }) with env := e }
    let f := st (inState dp0 .freezing)
    (barrierOf (after (.kpRepairRemeasure 7) s).dp 33).map (fun y => y.measure) = some 1
    ∧ (ptileOf s.env 35).powered = false ∧ (after (.kpRowfix (35 + 1 * 64 + 4095 * 256 + 7 * 2097152)) s).env.rep.rows = (useRow s.env 35 1 7 4095).rep.rows
    ∧ (after (.kpRowfix (35 + 1 * 64 + 4096 * 256)) s).env = s.env ∧ (partOf (after (.pdPctlReset 0 0x100) f).dp 0).resetReq = true
    ∧ (brickOf (after (.pdPctlReset 0 0x100) s).dp 33).valid = false ∧ (partOf (after (.pdPctlReset 0 0x100) s).dp 0).qb = 100
    ∧ foreign act0 (locate 0x110000) = true ∧ ((after (.registerWrite act0 (BitVec.ofNat 20 (0x110000 / 4)) 1) s).dp.inc.reports.map (fun q => q.2.key.kind)) = [.access]
    ∧ (partOf (after (.registerWrite keeperActor (BitVec.ofNat 20 (0x10004 / 4)) 55) s).dp 1).qb = 55 := by decide +kernel

theorem wit_RegisterWritesAndCommits_plain :
    let s := st dp0
    let w := fun (a : Actor) (o v : Nat) => after (.registerWrite a (BitVec.ofNat 20 (o / 4)) (BitVec.ofNat 32 v)) s
    (w keeperActor 0x10044 66).dp = setPart dp0 1 { partOf dp0 1 with qg := 66 } ∧ (w keeperActor 0x0C 9).env.pwr.idle = 9
    ∧ (w keeperActor 0x1C 0x0503).env.kp.radius = 3 ∧ (w keeperActor 0x1C 0x0503).env.kp.thresh = 5 ∧ (w keeperActor 0x88 0x114).env.kp.hold = 0x14
    ∧ WindowOpen s.env s.dp act0 (.part 0) ∧ fgetD (partOf (w act0 (windowBase 0 + 0x40C) 0x15).dp 0).gmask 3 0 = 0x15
    ∧ locate 0xFFFFC = .empty ∧ (w keeperActor 0xFFFFC 1).env = s.env := by decide +kernel

theorem wit_RegisterWritesAndCommits_commits :
    let e := { env0 with kp := { env0.kp with saltP := some 9 } }
    let s : State := { st dp0 with env := e }
    let r := st (setRing dp0 r0 { ringOf dp0 r0 with cfg := { cfg4 with loS := some 0x30000, hiP := some 7, sizeP := some 5 } })
    let a := st { dp0 with ag := [(0, { AgReg.init with en := 0xFF, pend := [(2, some 3, none)] })] }
    let b := st (withEntry a.dp .lockAcq { rq lock0 0 [] with slot := 2 } .pends)
    let t := after (.quietCommit (.agent 0 2)) a
    noBricks s.dp = true ∧ (after (.quietCommit .salt) s).env.kp.salt = 9 ∧ noBricks (place dp0 33 lock0) = false
    ∧ (after (.quietCommit .salt) { s with dp := place dp0 33 lock0 }).env.kp.salt = 0
    ∧ (fun (c : RingCfg) => (c.base, c.log2, c.hiP)) (ringOf (after (.quietCommit (.ring r0)) r).dp r0).cfg = (0x30000, 5, some 7)
    ∧ agentPart t.dp 0 2 = some 3 ∧ agentPart t.dp 0 1 = some 0 ∧ t.dp.departing = [(2, 0)] ∧ after (.quietCommit (.agent 0 2)) b = b := by decide +kernel

/-- Base and size written, not yet in force. -/
def cfgP : RingCfg := { cfg4 with loS := some 0x30000, sizeP := some 5 }

theorem wit_RegisterWritesAndCommits_rings :
    let o := st (setCmpl dp0 (.part 0) { cmplOf dp0 (.part 0) with cfg := cfgP })
    let i := st (setIncRing dp0 0 { OutRing.init with cfg := cfgP })
    let t := st { dp0 with trings := [(0, { OutRing.init with cfg := cfgP })] }
    fgetD o.dp.held 0 [] = [] ∧ ((cmplOf (after (.quietCommit (.cmpl (.part 0))) o).dp (.part 0)).cfg.base, (cmplOf (after (.quietCommit (.cmpl (.part 0))) o).dp (.part 0)).cfg.log2) = (0x30000, 5)
    ∧ (incRingOf (after (.quietCommit (.incRing 0)) i).dp 0).cfg.log2 = 5 ∧ (tringOf (after (.quietCommit (.trace (.part 0))) t).dp 0).cfg.log2 = 5 := by decide +kernel

/-- What does not commit: nothing pending, a ring that is not quiescent, a write in flight, an enabled link block, a buffer with records. -/
theorem wit_RegisterWritesAndCommits_waits :
    let o := st (setCmpl dp0 (.part 0) { cmplOf dp0 (.part 0) with cfg := cfgP, tail := 1 })
    let i := st (setIncRing dp0 0 { OutRing.init with cfg := cfgP, state := .running, tail := 1 })
    let t := st { dp0 with trings := [(0, { OutRing.init with cfg := cfgP, state := .running, tail := 1 })] }
    let r := st (setRing dp0 r0 { ringOf dp0 r0 with cfg := cfgP, tail := 1 })
    let k := { st { dp0 with inc := { dp0.inc with wrote := [5] } } with env := { env0 with lf := { env0.lf with enable := true }, kp := { env0.kp with nodeP := some 8, incP := some 0x80000 } } }
    let m := st { setTile dp0 0 { tileOf dp0 0 with trace := { (tileOf dp0 0).trace with recs := [TRec.blank 0x11] } } with obs := { dp0.obs with modes := [(0, { TcMode.init with pend := some 0x9 })] } }
    cmplOf (after (.quietCommit (.cmpl (.part 0))) o).dp (.part 0) = cmplOf o.dp (.part 0) ∧ incRingOf (after (.quietCommit (.incRing 0)) i).dp 0 = incRingOf i.dp 0
    ∧ tringOf (after (.quietCommit (.trace (.part 0))) t).dp 0 = tringOf t.dp 0 ∧ ringOf (after (.quietCommit (.ring r0)) r).dp r0 = ringOf r.dp r0
    ∧ after (.quietCommit .incBase) k = k ∧ after (.quietCommit .nodeId) k = k ∧ after (.quietCommit .salt) k = k ∧ after (.quietCommit .backing) k = k
    ∧ after (.quietCommit (.lfRoute 0xFF)) k = k ∧ after (.quietCommit (.tcMode 0)) m = m := by decide +kernel

theorem wit_RegisterWritesAndCommits_quiet :
    let k := { st dp0 with env := { env0 with kp := { env0.kp with bsLoP := some 0x40000000, bsSizeP := some 22, nodeP := some 8, incP := some 0x80000 } } }
    let b : State := { k with dp := place dp0 33 lock0 }
    let l := { st dp0 with env := { env0 with lf := { env0.lf with mtuP := some 9000, ctlP := some 8, routesP := [(9, 5)] } } }
    let n : State := { l with dp := { dp0 with lintels := [(33, { Lintel.init 1 with upv := true, uproute := 1, uppeer := childH })] } }
    let m := st { setTile dp0 0 { tileOf dp0 0 with idleCyc := 0 } with obs := { dp0.obs with modes := [(0, { TcMode.init with pend := some 0x9 })] } }
    (let t := after (.quietCommit .backing) k; (t.env.kp.bsBase, t.env.kp.bsLog2) = (0x40000000, 22)) ∧ (after (.quietCommit .nodeId) k).env.kp.node = 8
    ∧ (after (.quietCommit .incBase) k).env.kp.incBase = 0x80000 ∧ noBricks b.dp = false ∧ after (.quietCommit .backing) b = b
    ∧ linksQuiet l.dp = true ∧ (after (.quietCommit .lfSetup) l).env.lf.mtu = 9000 ∧ (after (.quietCommit .lfSetup) l).env.lf.enable = true
    ∧ routeNamed l.dp 1 = false ∧ fgetD (after (.quietCommit (.lfRoute 1)) l).env.lf.routes 9 0 = 5 ∧ routeNamed n.dp 1 = true ∧ after (.quietCommit (.lfRoute 1)) n = n
    ∧ tileIdle m.env m.dp 0 = true ∧ (modeOf (after (.quietCommit (.tcMode 0)) m).dp 0).mode = 1 := by decide +kernel

theorem wit_RegisterWritesAndCommits_links :
    let s := linkS { lnk with unacked := [{ seq := 10, hods := [] }] }
    linksQuiet s.dp = false ∧ after (.quietCommit .lfSetup) s = s := by decide +kernel

/-! ### Invariants and headlines -/

theorem wit_StepRunsFront :
    let s := st dp0
    s.pending = [] ∧ s.env.stop.stopped = false ∧ s.dp.ctxRun = none ∧ s.env.pwr.warmBusy = false ∧ s.dp.port.access = []
    ∧ s.dp.net.any (fun h => h.body.isReq) = false
    ∧ (match step s with | .next t => t.env.clk.cyc | _ => 0) = 1 ∧ (match step { s with env := { env0 with stop := { env0.stop with stopped := true } } } with | .next t => t.env.clk.cyc | _ => 7) = 0 := by decide +kernel

theorem wit_EnvironmentInvariant : EnvOk env0 := by decide +kernel

theorem wit_DataPathInvariant : DpOk (withEntry (barDp bar) .wait (breq 0 0 [5]) .pends) := by decide +kernel

def foldBar : Barrier := groutBar foldCfg

/-- 1.0 and 2.0 of ranks 0 and 1. -/
def foldIns : List (Nat × Payload) := [(0, .one 0 2 [0, 0, 0x80, 0x3F]), (1, .one 1 2 [0, 0, 0, 0x40])]

theorem wit_GroutOrderIndependent :
    (match foldBar.grout with
      | some g =>
        let run := fun (l : List (Nat × Payload)) => l.foldlM (fun g x => foldIn foldCfg foldBar 0 g x.1 x.2) (Grout.fresh foldBar 0 g)
        decide (foldCfg.folds = true) && decide (foldBar.ranks = 2) && foldBar.skips 0 0 == false && foldBar.skips 0 1 == false
          && (run foldIns).isSome && decide ((run foldIns).map (fun g => g.acc) = (run foldIns.reverse).map (fun g => g.acc))
          && decide ((run foldIns).map (fun g => g.acc.lanes.map (fun l => l.fp)) = some [0x40400000])
      | none => false) = true := by decide +kernel

theorem wit_GroutOrderIndependent_sum :
    let c : GCfg := { fmt := 1, op := 0, exact := false, lanes := 1, passes := 1, f64 := false, mxout := false, wlog := 0 }
    let a := contribution c none 0 1 [5, 0, 0, 0, 0, 0, 0, 0]
    let b := contribution c none 1 1 [0xFE, 0xFF, 0xFF, 0xFF, 0xFF, 0xFF, 0xFF, 0xFF]
    c.folds = false ∧ Acc.merge c (Acc.merge c (Acc.zero c) a) b = Acc.merge c (Acc.merge c (Acc.zero c) b) a := by decide +kernel


end Sys2Proof.Tests
end

section
/-! Refutation of Obligations.FramesTaken. The ACK that answers a SYNC replays the course hods of every brick whose peers the link reaches (R281); a peer is known by its handle, so one that stands behind the link and, in the same lintel record, behind the package route of this die gets its copy by the mortar net too: it enters the received records at once. -/

namespace Sys2Proof.Machine

open Sys2Proof.Safety

/-- R280. What an ACK frame leaves of the data path. -/
theorem exec_ack_dp {f : List Byte} {err : Bool} {s t : State} (h : exec (.ack f err) s = .next t) :
    t.dp = frameRow s.env s.dp f err (fun f => fKind f == 1) := by
  have hack : exec (.ack f err) s = .next { s with dp := frameRow s.env s.dp f err (fun f => fKind f == 1) } := rfl
  rw [hack] at h
  injection h with h
  rw [← h]

/-! ### A link whose far end is this die -/

/-- The link block runs; route 0 leads to node 0 and die 0, which is this die itself, with key 0, whose receiving slot 0 is enabled. -/
def loopEnv : Env :=
  let e := Env.reset Integration.default
  { e with lf := { e.lf with enable := true, routes := [(0, 1)], keyWords := [(1, 5)] } }

/-- The handle of barrier 1 of this die, generation 1. -/
def loopPeer : Dword := 0x20200#64

/-- Barrier 1 as a child that the package route reaches. -/
def loopChild : Child := { peer := loopPeer, peer2 := 0, route := 0xFF#8, route2 := 0, valid := true, cut1 := false, cut2 := false }

/-- A tier 1 lintel with barrier 1 as its child by the package route and as its parent by route 0. -/
def loopLintel : Lintel := { Lintel.init 1 with upv := true, uproute := 0, uppeer := loopPeer, children := [(0, loopChild)] }

/-- Barrier 0 has that lintel record and has closed course 1; on link 0 this side's SYNC is out. -/
def loopDp : Dp :=
  { Dp.reset with
    bricks := [(0, { Brick.never with valid := true, gen := 1, body := .barrier { Barrier.init with course := 1 } })]
    lintels := [(0, loopLintel)]
    links := [(0, { Link.init with syncing := true })] }

def loopState : State := { env := loopEnv, dp := loopDp, pending := [] }

/-- An ACK of epoch 0 on link 0, its tag behind the 24 bytes of the header. -/
def loopAck : List Byte := [0x11, 0, 0, 0, 0, 0, 0, 0, 0, 0, 0, 0, 0, 0, 0, 0, 0, 0, 0, 0, 0, 0, 0, 24] ++ [141, 249, 72, 139, 245, 39, 2, 104]

/-- The ACK as the Ethernet stream carries it: addresses, the tag 0x8100, and EtherType 0x88B5. -/
def loopFrame : List Byte := List.replicate 12 0 ++ [0x81, 0, 0, 0, 0x88, 0xB5] ++ loopAck

/-- The ACK passes every check of a received frame, and answers the SYNC that is out. -/
theorem loopFrame_taken :
    FrameIn loopState.env loopState.dp loopFrame loopAck ∧ fKind loopAck = 1 ∧ fEpoch loopAck = (linkOf loopState.dp (fLink loopAck)).epochRx
      ∧ fNak loopAck = false ∧ (linkOf loopState.dp (fLink loopAck)).syncing = true := by
  decide +kernel

/-- The replay puts the RELEASE for barrier 1 among the received records, of which there were none. -/
theorem loopFrame_replay_received :
    loopState.dp.inbound = [] ∧ (frameRow loopState.env loopState.dp loopFrame false (fun f => fKind f == 1)).inbound.length = 1 := by
  decide +kernel

/-- Refutes O39: an ACK that answers the SYNC does change the received records, where the replay goes to a peer of this die by the package route. -/
theorem not_framesTaken : ¬ Obligations.FramesTaken := by
  unfold Obligations.FramesTaken
  intro h
  obtain ⟨-, -, -, -, -, -, ackOfSync, -⟩ := h loopState loopFrame loopAck
  obtain ⟨hin, hkind, hepoch, hnak, hsync⟩ := loopFrame_taken
  obtain ⟨t, hrun, -, -, hinbound, -⟩ := ackOfSync hin hkind hepoch hnak hsync
  obtain ⟨hbefore, hafter⟩ := loopFrame_replay_received
  rw [← exec_ack_dp hrun, hinbound, hbefore] at hafter
  exact absurd hafter (by decide)

end Sys2Proof.Machine
end

section
/-! What the sending half of a link can change: links, tiles, counters, the fabric port, the offset measurement, and the records received by the mortar net. Nothing else of the data path. -/

namespace Sys2Proof.Machine

/-- What sending on links can change. -/
abbrev LinkFrame (d d2 : Dp) : Prop :=
  ∃ ls ts o q m l, d2 = { d with links := ls, tiles := ts, obs := o, port := q, tm := m, inbound := l }

theorem LinkFrame.refl (d : Dp) : LinkFrame d d := ⟨_, _, _, _, _, _, rfl⟩

theorem LinkFrame.trans {a b c : Dp} (h : LinkFrame a b) (g : LinkFrame b c) : LinkFrame a c := by
  obtain ⟨_, _, _, _, _, _, rfl⟩ := h
  obtain ⟨_, _, _, _, _, _, rfl⟩ := g
  exact ⟨_, _, _, _, _, _, rfl⟩

theorem LinkFrame.foldl {β : Type} {f : Dp → β → Dp} (h : ∀ d x, LinkFrame d (f d x)) (l : List β) (d : Dp) : LinkFrame d (l.foldl f d) :=
  List.foldlRecOn l f (LinkFrame.refl d) (fun d2 h2 x _ => h2.trans (h d2 x))

theorem LinkFrame.setLink (d : Dp) (r : Nat) (x : Link) : LinkFrame d (setLink d r x) := ⟨_, _, _, _, _, _, rfl⟩

theorem LinkFrame.bumpR (e : Env) (d : Dp) (r c n : Nat) : LinkFrame d (bumpR e d r c n) := by
  obtain ⟨m, h⟩ := bumpK_frame e d 3 r c n
  exact ⟨_, _, _, _, _, _, h⟩

theorem LinkFrame.stillBusy (e : Env) (d : Dp) (t : Nat) : LinkFrame d (stillBusy e d t) := ⟨_, _, _, _, _, _, rfl⟩

theorem LinkFrame.trace (e : Env) (d : Dp) (t : Nat) (g : Option Nat) (r : TRec) : LinkFrame d (trace e d t g r) := by
  obtain ⟨⟨ts, k, p, h⟩, -⟩ := trace_frame e d t g r
  exact ⟨_, ts, _, _, _, _, h⟩

theorem LinkFrame.wireOut (e : Env) (d : Dp) (x : FabOut) : LinkFrame d (wireOut e d x) := by
  unfold Machine.wireOut
  split
  · exact LinkFrame.refl d
  · split <;> exact ⟨_, _, _, _, _, _, rfl⟩

theorem LinkFrame.packOut (e : Env) (d : Dp) (x : FabOut) : LinkFrame d (packOut e d x) := by
  unfold Machine.packOut
  split <;> exact ⟨_, _, _, _, _, _, rfl⟩

theorem LinkFrame.pumpAux (e : Env) (r n : Nat) (d : Dp) : LinkFrame d (pumpAux e r n d) := by
  induction n generalizing d with
  | zero => exact LinkFrame.refl d
  | succ n ih =>
    unfold Machine.pumpAux
    extract_lets l
    split
    · exact LinkFrame.refl d
    · split
      · exact LinkFrame.refl d
      · split
        extract_lets f l2 d2 d3
        split
        · exact LinkFrame.refl d
        · exact ((LinkFrame.setLink d r l2).trans (LinkFrame.wireOut e _ _)).trans
            (((LinkFrame.bumpR e _ r 0 1).trans (LinkFrame.bumpR e _ r 2 _)).trans (ih d3))

theorem LinkFrame.pump (e : Env) (d : Dp) (r : Nat) : LinkFrame d (pump e d r) := LinkFrame.pumpAux e r _ d

theorem LinkFrame.startSync (e : Env) (d : Dp) (r : Nat) : LinkFrame d (startSync e d r) := by
  unfold Machine.startSync
  extract_lets l d1 ep d2
  have h1 : LinkFrame d d1 := by
    unfold d1
    split
    · exact LinkFrame.refl d
    · exact LinkFrame.stillBusy e d _
  exact (h1.trans (LinkFrame.setLink d1 r _)).trans (LinkFrame.wireOut e d2 _)

theorem LinkFrame.queueHod (e : Env) (d : Dp) (r : Nat) (h : HodRec) : LinkFrame d (queueHod e d r h) := by
  unfold Machine.queueHod
  extract_lets l d2
  have h2 : LinkFrame d d2 := LinkFrame.setLink d r _
  split
  · exact LinkFrame.refl d
  · split
    · exact h2.trans (LinkFrame.pump e d2 r)
    · split
      · exact h2
      · exact h2.trans (LinkFrame.startSync e d2 r)

theorem LinkFrame.putRecord (e : Env) (d : Dp) (route : BitVec 8) (die : BitVec 3) (h : HodRec) : LinkFrame d (putRecord e d route die h) := by
  unfold Machine.putRecord
  split
  · split
    · exact ⟨_, _, _, _, _, _, rfl⟩
    · split
      · exact LinkFrame.refl d
      · exact (LinkFrame.bumpR e d 255 2 h.size).trans (LinkFrame.packOut e _ _)
  · exact LinkFrame.queueHod e d _ h

/-- R272, R276. A hod record that leaves a brick. -/
theorem LinkFrame.linkHod (e : Env) (d : Dp) (i : Nat) (route : BitVec 8) (h : HodRec) : LinkFrame d (linkHod e d i route h) :=
  ((LinkFrame.trace e d _ _ _).trans (LinkFrame.setLink _ _ _)).trans (LinkFrame.putRecord e _ route _ h)

theorem LinkFrame.ite {c : Prop} [Decidable c] {d a b : Dp} (ha : LinkFrame d a) (hb : LinkFrame d b) : LinkFrame d (if c then a else b) := by
  split
  · exact ha
  · exact hb

theorem LinkFrame.sendUp (e : Env) (d : Dp) (i : Nat) (h : HodRec) : LinkFrame d (sendUp e d i h) := by
  unfold Machine.sendUp
  split
  · exact LinkFrame.refl d
  · split
    · exact LinkFrame.refl d
    · extract_lets h2 d2
      have hd2 : LinkFrame d d2 := LinkFrame.ite (LinkFrame.refl d) (LinkFrame.linkHod e d i _ _)
      exact LinkFrame.ite hd2 (hd2.trans (LinkFrame.linkHod e d2 i _ _))

theorem LinkFrame.sendChild (e : Env) (d : Dp) (i : Nat) (c : Child) (h : HodRec) (except : Dword) : LinkFrame d (sendChild e d i c h except) := by
  unfold Machine.sendChild
  extract_lets d2
  have hd2 : LinkFrame d d2 := LinkFrame.ite (LinkFrame.refl d) (LinkFrame.linkHod e d i _ _)
  exact LinkFrame.ite hd2 (hd2.trans (LinkFrame.linkHod e d2 i _ _))

theorem LinkFrame.sendKids (e : Env) (d : Dp) (i : Nat) (h : HodRec) (except : Dword) : LinkFrame d (sendKids e d i h except) := by
  unfold Machine.sendKids
  split
  · exact LinkFrame.refl d
  · exact LinkFrame.foldl (fun d (c : Nat × Child) => LinkFrame.ite (LinkFrame.sendChild e d i c.2 h except) (LinkFrame.refl d)) _ d

/-- R263. POISON to the peers of a brick. -/
theorem LinkFrame.spreadPoison (e : Env) (d : Dp) (i : Nat) (course : Word) (from_ : Dword) : LinkFrame d (spreadPoison e d i course from_) := by
  unfold Machine.spreadPoison
  split
  · exact LinkFrame.refl d
  · extract_lets h d1 d2 d3
    have h1 : LinkFrame d d1 := LinkFrame.ite (LinkFrame.linkHod e d i _ _) (LinkFrame.refl d)
    have h2 : LinkFrame d1 d2 := LinkFrame.ite (LinkFrame.linkHod e d1 i _ _) (LinkFrame.refl d1)
    have h3 : LinkFrame d2 d3 := LinkFrame.ite (LinkFrame.linkHod e d2 i _ _) (LinkFrame.refl d2)
    exact ((h1.trans h2).trans h3).trans (LinkFrame.sendKids e d3 i h from_)

/-! ### Pause and set-up (R277, R284) -/

theorem LinkFrame.stampOut (e : Env) (d : Dp) (x : FabOut) : LinkFrame d (stampOut e d x).2 := by
  unfold Machine.stampOut
  split
  · split
    · exact LinkFrame.refl d
    · split
      · exact LinkFrame.refl d
      · exact ⟨_, _, _, _, _, _, rfl⟩
  · exact LinkFrame.refl d

theorem LinkFrame.releaseHeld (e : Env) (d : Dp) : LinkFrame d (releaseHeld e d) := by
  unfold Machine.releaseHeld
  refine LinkFrame.trans ⟨_, _, _, _, _, _, rfl⟩ (LinkFrame.foldl (fun d x => ?_) _ _)
  exact (LinkFrame.stampOut e d x).trans (LinkFrame.ite (LinkFrame.wireOut e _ _) (LinkFrame.packOut e _ _))

theorem LinkFrame.resumeLinks (e e2 : Env) (d : Dp) : LinkFrame d (resumeLinks e e2 d) := by
  unfold Machine.resumeLinks
  extract_lets ls
  have hls : LinkFrame d { d with links := ls } := ⟨_, _, _, _, _, _, rfl⟩
  exact LinkFrame.ite hls ((hls.trans (LinkFrame.releaseHeld e2 _)).trans (LinkFrame.foldl (fun d p => LinkFrame.pump e2 d p.1) ls _))

theorem LinkFrame.silentTimer (e : Env) (d : Dp) (r : Nat) : LinkFrame d (silentTimer e d r) := by
  unfold Machine.silentTimer
  exact LinkFrame.ite (LinkFrame.refl d) (LinkFrame.setLink d r _)

/-- R284. The commit of the set-up registers changes links only. -/
theorem LinkFrame.commitSetup (e : Env) (d : Dp) : LinkFrame d (commitSetup e d).2 := by
  unfold Machine.commitSetup
  split
  · exact LinkFrame.refl d
  · extract_lets l c e1 e2 e3 d2 rested
    have h2 : LinkFrame d d2 := LinkFrame.ite (LinkFrame.resumeLinks e e3 d) (LinkFrame.refl d)
    exact LinkFrame.ite (h2.trans (LinkFrame.foldl (fun d r => LinkFrame.silentTimer e3 d r) _ d2))
      (LinkFrame.ite (h2.trans ⟨_, _, _, _, _, _, rfl⟩) h2)

end Sys2Proof.Machine
end

section
/-! A partition reset (R353): what each of its parts keeps, and that no brick of the partition stays allocated. -/

namespace Sys2Proof.Machine

/-! ### Answers at a joint -/

/-- What answering requests can change: joints, the incident table, and counters. -/
abbrev AnswerFrame (d d2 : Dp) : Prop := ∃ js i o, d2 = { d with joints := js, inc := i, obs := o }

theorem AnswerFrame.refl (d : Dp) : AnswerFrame d d := ⟨_, _, _, rfl⟩

theorem AnswerFrame.trans {a b c : Dp} (h : AnswerFrame a b) (g : AnswerFrame b c) : AnswerFrame a c := by
  obtain ⟨_, _, _, rfl⟩ := h
  obtain ⟨_, _, _, rfl⟩ := g
  exact ⟨_, _, _, rfl⟩

theorem AnswerFrame.foldl {β : Type} {f : Dp → β → Dp} (h : ∀ d x, AnswerFrame d (f d x)) (l : List β) (d : Dp) : AnswerFrame d (l.foldl f d) :=
  List.foldlRecOn l f (AnswerFrame.refl d) (fun d2 h2 x _ => h2.trans (h d2 x))

theorem AnswerFrame.setJoint (d : Dp) (j : Nat) (x : Joint) : AnswerFrame d (setJoint d j x) := ⟨_, _, _, rfl⟩

theorem AnswerFrame.bumpK (e : Env) (d : Dp) (k u c n : Nat) : AnswerFrame d (bumpK e d k u c n) := by
  obtain ⟨m, h⟩ := bumpK_frame e d k u c n
  exact ⟨_, _, _, h⟩

theorem AnswerFrame.pushHint (e : Env) (d : Dp) (j : Nat) (h : Hint) : AnswerFrame d (pushHint e d j h) := by
  obtain ⟨a, b, ⟨m, h⟩ | ⟨m, h⟩⟩ := pushHint_frame e d j h
  · exact ⟨_, _, _, h⟩
  · exact ⟨_, _, _, h⟩

theorem AnswerFrame.deliver (e : Env) (d : Dp) (j : Nat) (slot : BitVec 3) (rid : BitVec 10) (r : Resp) (n : Nat) :
    AnswerFrame d (deliver e d j slot rid r n) := by
  obtain ⟨l, k, p, h⟩ := deliver_frame e d j slot rid r n
  exact ⟨_, _, _, h⟩

/-- R230, R244. -/
theorem AnswerFrame.answer (e : Env) (d : Dp) (j id : Nat) (r : Resp) : AnswerFrame d (answer e d j id r) := by
  cases hx : entryOf d j id with
  | none => rw [answer_none e d j id r hx]; exact AnswerFrame.bumpK e d 2 j 4 1
  | some x =>
    have hfree : AnswerFrame d _ := AnswerFrame.setJoint d j { jointOf d j with entries := (jointOf d j).entries.filter (fun z => z.id != id) }
    cases hp : x.pended with
    | false => rw [answer_now e d j id r x hx hp]; exact hfree.trans (AnswerFrame.deliver e _ j _ _ r 0)
    | true =>
      obtain ⟨n, -, h⟩ := answer_pended e d j id r x hx hp
      rw [h]
      exact (hfree.trans (AnswerFrame.pushHint e _ j _)).trans (AnswerFrame.deliver e _ j _ _ r n)

theorem AnswerFrame.answerMany (e : Env) (d : Dp) (j : Nat) (l : List JEntry) (f : JEntry → Resp) : AnswerFrame d (answerMany e d j l f) :=
  AnswerFrame.foldl (fun d (x : JEntry) => AnswerFrame.answer e d j x.id (f x)) (bySlot l) d

/-- R353. Answering the requests of a reset partition. -/
theorem AnswerFrame.resetEntries (e : Env) (d : Dp) (p : BitVec 4) : AnswerFrame d (resetEntries e d p) :=
  AnswerFrame.foldl (fun d (q : Nat × Joint) => (AnswerFrame.setJoint d q.1 _).trans (AnswerFrame.answerMany e _ q.1 _ _)) d.joints d

theorem AnswerFrame.dropBed (d : Dp) (j : Nat) (h : Dword) (waiting : Bool) : AnswerFrame d (dropBed d j h waiting) := AnswerFrame.setJoint d j _

/-- R61, R103. -/
theorem AnswerFrame.endBed (e : Env) (st : Status) (h : Dword) (course : Word) (d : Dp) (j : Nat) : AnswerFrame d (endBed e st h course d j) := by
  unfold Machine.endBed
  refine AnswerFrame.trans ?_ ((AnswerFrame.dropBed _ j h false).trans (AnswerFrame.dropBed _ j h true))
  split
  · exact AnswerFrame.refl d
  · exact (AnswerFrame.answerMany e d j _ _).trans (AnswerFrame.bumpK e _ 2 j 3 _)

/-! ### What a reset keeps -/

/-- From d to d2 no brick record becomes valid, and every partition keeps its quotas and CAP. -/
abbrev ResetKeeps (d d2 : Dp) : Prop :=
  (∀ i, (brickOf d i).valid = false → (brickOf d2 i).valid = false)
  ∧ ∀ q, (partOf d2 q).qb = (partOf d q).qb ∧ (partOf d2 q).qg = (partOf d q).qg ∧ (partOf d2 q).cap = (partOf d q).cap

theorem ResetKeeps.of_eq {d d2 : Dp} (hb : d2.bricks = d.bricks) (hp : d2.parts = d.parts) : ResetKeeps d d2 :=
  ⟨fun i h => by rw [brickOf, hb]; exact h, fun q => by simp [partOf, hp]⟩

theorem ResetKeeps.refl (d : Dp) : ResetKeeps d d := ResetKeeps.of_eq rfl rfl

theorem ResetKeeps.trans {a b c : Dp} (h : ResetKeeps a b) (g : ResetKeeps b c) : ResetKeeps a c := by
  obtain ⟨hv, hq⟩ := h
  obtain ⟨gv, gq⟩ := g
  refine ⟨fun i hi => gv i (hv i hi), fun q => ?_⟩
  obtain ⟨h1, h2, h3⟩ := hq q
  obtain ⟨g1, g2, g3⟩ := gq q
  exact ⟨g1.trans h1, g2.trans h2, g3.trans h3⟩

theorem ResetKeeps.foldl {β : Type} {f : Dp → β → Dp} (h : ∀ d x, ResetKeeps d (f d x)) (l : List β) (d : Dp) : ResetKeeps d (l.foldl f d) :=
  List.foldlRecOn l f (ResetKeeps.refl d) (fun d2 h2 x _ => h2.trans (h d2 x))

theorem ResetKeeps.ite {c : Prop} [Decidable c] {d a b : Dp} (ha : ResetKeeps d a) (hb : ResetKeeps d b) : ResetKeeps d (if c then a else b) := by
  split
  · exact ha
  · exact hb

theorem LinkFrame.keeps {d d2 : Dp} (h : LinkFrame d d2) : ResetKeeps d d2 := by
  obtain ⟨_, _, _, _, _, _, rfl⟩ := h
  exact ResetKeeps.of_eq rfl rfl

theorem AnswerFrame.keeps {d d2 : Dp} (h : AnswerFrame d d2) : ResetKeeps d d2 := by
  obtain ⟨_, _, _, rfl⟩ := h
  exact ResetKeeps.of_eq rfl rfl

theorem ResetKeeps.setPart {d : Dp} {p : BitVec 4} {x : Part} (h : x.qb = (partOf d p).qb ∧ x.qg = (partOf d p).qg ∧ x.cap = (partOf d p).cap) :
    ResetKeeps d (setPart d p x) := by
  refine ⟨fun i hi => hi, fun q => ?_⟩
  by_cases hq : q = p
  · subst hq; simpa using h
  · simp [partOf_setPart_ne d x hq]

theorem brickOf_setBrick (d : Dp) (i k : Nat) (b : Brick) : brickOf (setBrick d i b) k = if k = i then b else brickOf d k := by
  by_cases h : k = i
  · subst h; simp [brickOf]
  · simp [brickOf, fgetD_fput_ne _ _ _ h, h]

/-- A brick record that is written without becoming valid. -/
theorem ResetKeeps.setBrick {d : Dp} {i : Nat} {b : Brick} (h : (brickOf d i).valid = false → b.valid = false) : ResetKeeps d (setBrick d i b) := by
  refine ⟨fun k hk => ?_, fun q => ⟨rfl, rfl, rfl⟩⟩
  rw [brickOf_setBrick]
  split
  · next hki => subst hki; exact h hk
  · exact hk

/-! ### The parts of a brick that go -/

theorem ResetKeeps.refundB (d : Dp) (p : BitVec 4) (n : Nat) : ResetKeeps d (refundB d p n) := ResetKeeps.setPart ⟨rfl, rfl, rfl⟩

theorem ResetKeeps.refundG (d : Dp) (p : BitVec 4) (n : Nat) : ResetKeeps d (refundG d p n) := ResetKeeps.setPart ⟨rfl, rfl, rfl⟩

theorem ResetKeeps.unbindRun (d : Dp) (t base n : Nat) : ResetKeeps d (unbindRun d t base n) :=
  ResetKeeps.ite (ResetKeeps.refl d) (ResetKeeps.of_eq rfl rfl)

theorem ResetKeeps.unbindRuns (d : Dp) (t : Nat) (l : List (Nat × Nat)) : ResetKeeps d (unbindRuns d t l) :=
  ResetKeeps.foldl (fun d (r : Nat × Nat) => ResetKeeps.unbindRun d t r.1 r.2) l d

theorem ResetKeeps.dropSlot (d : Dp) (t : Nat) (r : SlotRef) : ResetKeeps d (dropSlot d t r) := ResetKeeps.of_eq rfl rfl

theorem ResetKeeps.drainSlot (e : Env) (d : Dp) (t i : Nat) : ResetKeeps d (drainSlot e d t i) := by
  refine ResetKeeps.of_eq (drainSlot_frame e d t i).1 ?_
  simp only [Machine.drainSlot, Machine.writeBack, bumpT_parts, memWrite_parts]
  split <;> rfl

theorem ResetKeeps.bindRun (d : Dp) (t base n : Nat) : ResetKeeps d (bindRun d t base n) :=
  ResetKeeps.ite (ResetKeeps.refl d) (ResetKeeps.of_eq rfl rfl)

theorem ResetKeeps.setMirRuns (d : Dp) (i : Nat) (f : List (Nat × Nat) → List (Nat × Nat)) : ResetKeeps d (setMirRuns d i f) := by
  unfold Machine.setMirRuns
  split
  · exact ResetKeeps.refl d
  · next m _ =>
    exact (ResetKeeps.unbindRuns d m.tile m.runs).trans
      ((ResetKeeps.foldl (fun d (r : Nat × Nat) => ResetKeeps.bindRun d m.tile r.1 r.2) _ _).trans (ResetKeeps.of_eq rfl rfl))

theorem ResetKeeps.freeRun (e : Env) (d : Dp) (i : Nat) (b : Brick) (r : Run) (waiting : Bool) : ResetKeeps d (freeRun e d i b r waiting) :=
  ((ResetKeeps.unbindRun d _ _ _).trans (ResetKeeps.setMirRuns _ i _)).trans (ResetKeeps.refundG _ _ _)

theorem ResetKeeps.dropWaiting (e : Env) (d : Dp) (i : Nat) (b : Brick) (x : Barrier) : ResetKeeps d (dropWaiting e d i b x) := by
  unfold Machine.dropWaiting
  split
  · exact ResetKeeps.ite (ResetKeeps.refl d) (ResetKeeps.freeRun e d i b _ true)
  · exact ResetKeeps.ite (ResetKeeps.refl d) (ResetKeeps.freeRun e d i b _ true)
  · exact ResetKeeps.refl d

theorem ResetKeeps.freeRuns (e : Env) (d : Dp) (i : Nat) (b : Brick) (x : Barrier) : ResetKeeps d (freeRuns e d i b x) := by
  unfold Machine.freeRuns
  split
  · exact (ResetKeeps.dropWaiting e d i b x).trans (ResetKeeps.freeRun e _ i b _ false)
  · exact ResetKeeps.dropWaiting e d i b x

theorem ResetKeeps.dropLintel (e : Env) (d : Dp) (i : Nat) (p : BitVec 4) : ResetKeeps d (dropLintel e d i p) := by
  unfold Machine.dropLintel
  split
  · exact ResetKeeps.refl d
  · next l _ =>
    have hct : ResetKeeps d (if l.ctv then Machine.refundG (Machine.unbindRun d (homeOf e i) l.ctBase 33) p 33 else d) :=
      ResetKeeps.ite ((ResetKeeps.unbindRun d _ _ _).trans (ResetKeeps.refundG _ p 33)) (ResetKeeps.refl d)
    exact hct.trans (ResetKeeps.trans (ResetKeeps.of_eq rfl rfl) (ResetKeeps.refundB _ p 1))

theorem ResetKeeps.dropRefill (e : Env) (d : Dp) (i k : Nat) : ResetKeeps d (dropRefill e d i k) := ResetKeeps.of_eq rfl rfl

theorem ResetKeeps.dropStripes (e : Env) (d : Dp) (i : Nat) (b : Brick) : ResetKeeps d (dropStripes e d i b) := by
  unfold Machine.dropStripes
  refine ResetKeeps.ite ?_ ((ResetKeeps.trans ?_ (ResetKeeps.refundB _ _ _)).trans (ResetKeeps.refundG _ _ _))
  all_goals
    refine ResetKeeps.foldl (fun d (q : Nat × Stripe) => ?_) _ d
    extract_lets t d1 d2 d3
    have h1 : ResetKeeps d d1 :=
      (ResetKeeps.ite (ResetKeeps.refl d) (ResetKeeps.unbindRun d t _ 9)).trans (ResetKeeps.dropRefill e _ i q.1)
    have h2 : ResetKeeps d d2 := h1.trans (ResetKeeps.dropSlot d1 t _)
    have h3 : ResetKeeps d2 d3 := by
      unfold d3
      split
      · exact (ResetKeeps.unbindRuns d2 _ _).trans (ResetKeeps.ite (ResetKeeps.of_eq rfl rfl) (ResetKeeps.of_eq rfl rfl))
      · exact ResetKeeps.refl d2
    exact (h2.trans h3).trans (ResetKeeps.of_eq rfl rfl)

/-! ### A brick of a reset partition -/

/-- R61. A brick that is dropped keeps the quotas, makes no other brick valid, and is not valid itself. -/
theorem dropBrick_keeps (e : Env) (d : Dp) (i : Nat) : ResetKeeps d (dropBrick e d i) ∧ (brickOf (dropBrick e d i) i).valid = false := by
  unfold dropBrick
  extract_lets b t d1 d2 d3 d4 there d5 d6 d7
  have h3 : ResetKeeps d d3 := by
    have h2 : ResetKeeps d d2 := (ResetKeeps.dropStripes e d i b).trans (ResetKeeps.dropLintel e d1 i b.part)
    refine h2.trans ?_
    unfold d3
    split
    · exact ResetKeeps.freeRuns e d2 i b _
    · exact ResetKeeps.refl d2
  have h4 : ResetKeeps d3 d4 := by
    unfold d4
    split
    · next m _ => exact (ResetKeeps.unbindRuns d3 m.tile m.runs).trans (ResetKeeps.of_eq rfl rfl)
    · exact ResetKeeps.refl d3
  have h5 : ResetKeeps d d5 := (h3.trans h4).trans (ResetKeeps.refundB d4 b.part _)
  have h6 : ResetKeeps d5 d6 := ResetKeeps.setBrick (fun _ => rfl)
  have h7 : ResetKeeps d6 d7 := ResetKeeps.of_eq rfl rfl
  have hgone : (brickOf d7 i).valid = false := by
    change (brickOf d6 i).valid = false
    rw [brickOf_setBrick, if_pos rfl]
  have hlast : ResetKeeps d7 (if there = true then drainSlot e d7 t i else dropSlot d7 t (.brick i)) :=
    ResetKeeps.ite (ResetKeeps.drainSlot e d7 t i) (ResetKeeps.dropSlot d7 t _)
  exact ⟨((h5.trans h6).trans h7).trans hlast, hlast.1 i hgone⟩

theorem ResetKeeps.endBeds (e : Env) (d : Dp) (i : Nat) (b : Brick) (st : Status) : ResetKeeps d (endBeds e d i b st) :=
  (AnswerFrame.foldl (fun d (j : Nat) => AnswerFrame.endBed e st _ _ d j) _ d).keeps.trans (ResetKeeps.of_eq rfl rfl)

theorem ResetKeeps.setBarrier (d : Dp) (i : Nat) (x : Barrier) : ResetKeeps d (setBarrier d i x) := ResetKeeps.setBrick (fun h => h)

theorem ResetKeeps.dropAnswer (i : Nat) (course : Word) (d : Dp) (j : Nat) : ResetKeeps d (dropAnswer i course d j) := by
  unfold Machine.dropAnswer
  split
  · exact ResetKeeps.of_eq rfl rfl
  · exact ResetKeeps.refl d

theorem ResetKeeps.collectOne (e : Env) (i : Nat) (b : Brick) (force : Bool) (d : Dp) (w : SweepRec) : ResetKeeps d (collectOne e i b force d w) := by
  unfold Machine.collectOne
  extract_lets a d1
  split
  · exact ResetKeeps.refl d
  · refine ResetKeeps.ite (ResetKeeps.refl d) ?_
    extract_lets d2
    have h2 : ResetKeeps d d2 :=
      (ResetKeeps.foldl (fun d (j : Nat) => ResetKeeps.dropAnswer i w.course d j) w.joints d).trans (ResetKeeps.setBarrier d1 i _)
    exact ResetKeeps.ite (h2.trans (ResetKeeps.of_eq (report_bricks _ _ _ _) (report_parts _ _ _ _))) h2

theorem ResetKeeps.collectSweep (e : Env) (d : Dp) (i : Nat) (force : Bool) : ResetKeeps d (collectSweep e d i force) := by
  unfold Machine.collectSweep
  extract_lets b
  split
  · refine ResetKeeps.trans ?_ (ResetKeeps.foldl (fun d (w : SweepRec) => ResetKeeps.collectOne e i b force d w) _ _)
    exact ResetKeeps.of_eq rfl rfl
  · exact ResetKeeps.of_eq rfl rfl

/-- R353. -/
theorem resetBrick_keeps (e : Env) (d : Dp) (i : Nat) : ResetKeeps d (resetBrick e d i) ∧ (brickOf (resetBrick e d i) i).valid = false := by
  unfold resetBrick
  extract_lets b d1
  have h1 : ResetKeeps d d1 := by
    unfold d1
    split
    · refine ResetKeeps.trans ?_ ((LinkFrame.spreadPoison e _ i _ 0).trans (LinkFrame.sendUp e _ i _)).keeps
      exact ResetKeeps.ite (ResetKeeps.refl d) (ResetKeeps.collectSweep e d i true)
    · exact ResetKeeps.of_eq (sendAll_bricks e _ d) (sendAll_parts e _ d)
    · exact ResetKeeps.refl d
  obtain ⟨hdrop, hgone⟩ := dropBrick_keeps e (endBeds e d1 i b .badHandle) i
  exact ⟨(h1.trans (ResetKeeps.endBeds e d1 i b .badHandle)).trans hdrop, hgone⟩

/-- Steps that each drop their brick leave none of the list valid. -/
theorem foldl_drops {f : Dp → Nat → Dp} (h : ∀ d i, ResetKeeps d (f d i) ∧ (brickOf (f d i) i).valid = false) (l : List Nat) (d : Dp) :
    ResetKeeps d (l.foldl f d) ∧ ∀ i ∈ l, (brickOf (l.foldl f d) i).valid = false := by
  induction l generalizing d with
  | nil => exact ⟨ResetKeeps.refl d, by simp⟩
  | cons k l ih =>
    obtain ⟨hk, hgone⟩ := h d k
    obtain ⟨hl, hrest⟩ := ih (f d k)
    refine ⟨hk.trans hl, fun i hi => ?_⟩
    rcases List.mem_cons.1 hi with rfl | hi
    · exact hl.1 i hgone
    · exact hrest i hi

/-- An allocated brick of a partition is in its list. -/
theorem mem_bricksOf {d : Dp} {p : BitVec 4} {i : Nat} (h : ownIndex d p i = true) : i ∈ bricksOf d p := by
  obtain ⟨hvalid, hpart⟩ : (brickOf d i).valid = true ∧ (brickOf d i).part == p := by simpa [ownIndex] using h
  have hmem : ∀ m : FMap Brick, (fgetD m i Brick.never).valid = true → (i, fgetD m i Brick.never) ∈ m := by
    intro m
    induction m with
    | nil => intro hv; exact absurd hv (by simp [fgetD, fget, Brick.never])
    | cons q m ih =>
      obtain ⟨j, w⟩ := q
      intro hv
      by_cases hj : j = i
      · subst hj; simp [fgetD, fget]
      · have hq : fgetD ((j, w) :: m) i Brick.never = fgetD m i Brick.never := by simp [fgetD, fget, hj]
        rw [hq] at hv ⊢
        exact List.mem_cons_of_mem _ (ih hv)
  refine List.mem_map.2 ⟨(i, brickOf d i), List.mem_filter.2 ⟨hmem d.bricks hvalid, ?_⟩, rfl⟩
  simp [hvalid, hpart]

end Sys2Proof.Machine
end

section
namespace Sys2Proof.Machine

/-! ### The partition after its reset -/

/-- R353. In a SAVED partition the records alone go. -/
theorem dropRecord_keeps (d : Dp) (i : Nat) :
    let b := brickOf d i
    let d2 : Dp := { setBrick d i { b with valid := false, lost := none, body := bodyInit b.typ } with freed := d.freed ++ [i] }
    ResetKeeps d d2 ∧ (brickOf d2 i).valid = false := by
  intro b d2
  have h : ResetKeeps d (setBrick d i { b with valid := false, lost := none, body := bodyInit b.typ }) := ResetKeeps.setBrick (fun _ => rfl)
  refine ⟨h.trans (ResetKeeps.of_eq rfl rfl), ?_⟩
  change (brickOf (setBrick d i _) i).valid = false
  rw [brickOf_setBrick, if_pos rfl]

/-- R353. A reset first drops every brick of its partition, and then disables the rings, clears the counters and starts the partition anew. -/
theorem resetPart_drops (e : Env) (d : Dp) (p : BitVec 4) :
    ∃ d2, ResetKeeps d d2 ∧ (∀ i, ownIndex d p i = true → (brickOf d2 i).valid = false)
      ∧ (let d3 := clearCounters (resetRings d2 p) p
         resetPart e d p = setPart d3 p { Part.init with qb := (partOf d3 p).qb, qg := (partOf d3 p).qg, cap := (partOf d3 p).cap }) := by
  unfold resetPart
  extract_lets was x0 d0 d1 d2
  refine ⟨d2, ?_⟩
  have h0 : ResetKeeps d d0 := ResetKeeps.setPart ⟨rfl, rfl, rfl⟩
  have h1 : AnswerFrame d0 d1 := AnswerFrame.resetEntries e d0 p
  have hown : ∀ i, ownIndex d p i = true → i ∈ bricksOf d1 p := by
    intro i hi
    refine mem_bricksOf ?_
    obtain ⟨js, ic, o, h⟩ := h1
    rw [h]
    exact hi
  have hdrop : ResetKeeps d1 d2 ∧ ∀ i ∈ bricksOf d1 p, (brickOf d2 i).valid = false := by
    unfold d2
    split
    · exact foldl_drops dropRecord_keeps (bricksOf d1 p) d1
    · exact foldl_drops (resetBrick_keeps e) (bricksOf d1 p) d1
  obtain ⟨hkeep, hgone⟩ := hdrop
  exact ⟨(h0.trans h1.keeps).trans hkeep, fun i hi => hgone i (hown i hi), rfl⟩

theorem resetPart_part (e : Env) (d : Dp) (p : BitVec 4) :
    partOf (resetPart e d p) p = { Part.init with qb := (partOf d p).qb, qg := (partOf d p).qg, cap := (partOf d p).cap } := by
  obtain ⟨d2, ⟨-, hq⟩, -, h⟩ := resetPart_drops e d p
  obtain ⟨hqb, hqg, hcap⟩ := hq p
  rw [h, partOf_setPart, ← hqb, ← hqg, ← hcap]
  rfl

theorem resetPart_brick (e : Env) (d : Dp) (p : BitVec 4) {i : Nat} (hi : ownIndex d p i = true) : (brickOf (resetPart e d p) i).valid = false := by
  obtain ⟨d2, -, hgone, h⟩ := resetPart_drops e d p
  rw [h]
  exact hgone i hi

/-- Dropping entries of a table leaves none of those that the test picks. -/
theorem fget_filter_none {α : Type} (m : FMap α) (f : Nat × α → Bool) (k : Nat) (h : ∀ v, f (k, v) = false) : fget (m.filter f) k = none := by
  induction m with
  | nil => rfl
  | cons q m ih =>
    obtain ⟨j, v⟩ := q
    rw [List.filter_cons]
    split
    · next hf =>
      have hj : j ≠ k := fun hj => by rw [hj, h v] at hf; exact absurd hf (by decide)
      rw [fget, if_neg hj, ih]
    · exact ih

theorem resetPart_ring (e : Env) (d : Dp) (p : BitVec 4) (r : BitVec 3) : ringOf (resetPart e d p) (.part p r) = SubRing.init := by
  obtain ⟨d2, -, -, h⟩ := resetPart_drops e d p
  have hr := r.isLt
  have hnone : fget (d2.rings.filter (fun x => !(decide (8 * p.toNat ≤ x.1) && decide (x.1 < 8 * p.toNat + 8)))) (p.toNat * 8 + r.toNat) = none := by
    refine fget_filter_none _ _ _ (fun v => ?_)
    simp only [Bool.not_eq_false', Bool.and_eq_true, decide_eq_true_eq]
    omega
  rw [h]
  change (fget (d2.rings.filter _) (p.toNat * 8 + r.toNat)).getD SubRing.init = SubRing.init
  rw [hnone]
  rfl

/-! ### A CTX_SAVE that the reset overtakes (R355) -/

/-- What completing descriptors of the keeper ring leaves: bricks, partitions, and the rings of partitions. -/
abbrev KeeperFrame (d d2 : Dp) : Prop :=
  d2.bricks = d.bricks ∧ d2.parts = d.parts ∧ ∀ p r, ringOf d2 (.part p r) = ringOf d (.part p r)

theorem KeeperFrame.trans {a b c : Dp} (h : KeeperFrame a b) (g : KeeperFrame b c) : KeeperFrame a c := by
  obtain ⟨hb, hp, hr⟩ := h
  obtain ⟨gb, gp, gr⟩ := g
  exact ⟨gb.trans hb, gp.trans hp, fun p r => (gr p r).trans (hr p r)⟩

theorem KeeperFrame.of_eq {d d2 : Dp} (hb : d2.bricks = d.bricks) (hp : d2.parts = d.parts) (hr : d2.rings = d.rings) : KeeperFrame d d2 :=
  ⟨hb, hp, fun p r => by simp [ringOf, hr]⟩

theorem KeeperFrame.setRing (d : Dp) (x : SubRing) : KeeperFrame d (setRing d .keeper x) :=
  ⟨rfl, rfl, fun p r => ringOf_setRing_ne d x (by simp)⟩

theorem KeeperFrame.finishDesc (e : Env) (d : Dp) (c : Compl) : KeeperFrame d (finishDesc e d .keeper c) := by
  unfold Machine.finishDesc
  simp only [ringOwner]
  split
  · exact KeeperFrame.setRing d _
  · exact KeeperFrame.setRing d _

theorem KeeperFrame.ownerPulse (e : Env) (d : Dp) (b : Bool) : KeeperFrame d (ownerPulse e d .keeper b) :=
  KeeperFrame.of_eq (bumpK_bricks e _ 4 0 1 1) (bumpK_parts e _ 4 0 1 1) (bumpK_rings e _ 4 0 1 1)

theorem KeeperFrame.setWin (d : Dp) (b : Bool) (w : IrqWin) : KeeperFrame d (setWin d .keeper b w) := KeeperFrame.of_eq rfl rfl rfl

theorem KeeperFrame.interrupt (e : Env) (d : Dp) (b : Bool) : KeeperFrame d (interrupt e d .keeper b) := by
  unfold Machine.interrupt
  extract_lets w g quiet d2
  split
  · exact (KeeperFrame.ownerPulse e d b).trans (KeeperFrame.setWin _ b _)
  · exact KeeperFrame.setWin d b _

theorem KeeperFrame.putCompl (e : Env) (d : Dp) (c : Compl) : KeeperFrame d (putCompl e d .keeper c) := by
  unfold Machine.putCompl
  extract_lets q n phase d1 d2 d3 d4
  have h4 : KeeperFrame d d4 := KeeperFrame.trans (KeeperFrame.of_eq rfl rfl rfl) (KeeperFrame.finishDesc e d2 c)
  split
  · exact h4.trans (KeeperFrame.interrupt e d4 false)
  · exact h4

theorem KeeperFrame.complete (e : Env) (d : Dp) (c : Compl) : KeeperFrame d (complete e d .keeper c) := by
  unfold Machine.complete
  extract_lets o q waiting
  split
  · exact KeeperFrame.finishDesc e d c
  · split
    · exact KeeperFrame.putCompl e d c
    · exact KeeperFrame.trans (KeeperFrame.of_eq rfl rfl rfl) (KeeperFrame.setRing _ _)

theorem KeeperFrame.skipUndefined (e : Env) (n : Nat) (d : Dp) : KeeperFrame d (skipUndefined e .keeper n d) := by
  induction n generalizing d with
  | zero => exact KeeperFrame.of_eq rfl rfl rfl
  | succ n ih =>
    unfold Machine.skipUndefined
    split
    · exact KeeperFrame.of_eq rfl rfl rfl
    · split
      · exact (KeeperFrame.complete e d _).trans (ih _)
      · exact KeeperFrame.of_eq rfl rfl rfl

/-- R355. The CTX_SAVE that a reset overtakes completes on the keeper's ring. -/
theorem KeeperFrame.stopCtx (e : Env) (d : Dp) (p : BitVec 4) : KeeperFrame d (stopCtx e d p) := by
  unfold Machine.stopCtx
  split
  · exact KeeperFrame.of_eq rfl rfl rfl
  · extract_lets d1
    have h1 : KeeperFrame d d1 := KeeperFrame.of_eq rfl rfl rfl
    split
    · exact ((h1.trans (KeeperFrame.setRing d1 _)).trans (KeeperFrame.complete e _ _)).trans (KeeperFrame.skipUndefined e 16 _)
    · exact h1

/-- R353. What a reset leaves of a partition that is not FREEZING. -/
theorem requestReset_leaves (e : Env) (d : Dp) (p : BitVec 4) (h : (partOf d p).st ≠ .freezing) :
    partOf (requestReset e d p) p = { Part.init with qb := (partOf d p).qb, qg := (partOf d p).qg, cap := (partOf d p).cap }
      ∧ (∀ i, ownIndex d p i = true → (brickOf (requestReset e d p) i).valid = false)
      ∧ ∀ r, ringOf (requestReset e d p) (.part p r) = SubRing.init := by
  obtain ⟨hb, hp, hr⟩ := KeeperFrame.stopCtx e (resetPart e d p) p
  have hreq : requestReset e d p = stopCtx e (resetPart e d p) p := if_neg h
  rw [hreq]
  refine ⟨?_, fun i hi => ?_, fun r => ?_⟩
  · rw [partOf, hp]; exact resetPart_part e d p
  · rw [brickOf, hb]; exact resetPart_brick e d p hi
  · rw [hr]; exact resetPart_ring e d p r

end Sys2Proof.Machine
end

section
/-! Writes at a free register port (R9, R12, R464), register by register. -/

namespace Sys2Proof.Machine

open Sys2Proof.Safety

/-! ### The way of a write -/

/-- R464. A write for which no tile has to answer takes effect at once at a free port. -/
theorem portWrite_free {s : State} {a : Actor} {off : Nat} {v : Word} (hfree : PortFree s.dp)
    (hnone : accessTile s.env { actor := a, off := off, data := some v } = none) :
    portWrite s a off v = { s with env := (writeReg s.env s.dp a off v).1, dp := (writeReg s.env s.dp a off v).2 } := by
  have hserve : servePort s.dp.port.access.length s.env s.dp = (s.env, s.dp) := by rw [hfree]; rfl
  have hheld : accessHeld s.env s.dp { actor := a, off := off, data := some v } = false := by unfold accessHeld; rw [hnone]
  unfold portWrite portAccess
  simp only [hserve]
  rw [if_neg (by simp [hheld, show s.dp.port.access = [] from hfree])]
  rfl

theorem accessTile_of_foreign {e : Env} {a : Actor} {off : Nat} {v : Word} (h : foreign a (locate off) = true) :
    accessTile e { actor := a, off := off, data := some v } = none := by
  simp [accessTile, h]

/-- The blocks whose registers stand at the port itself. -/
theorem accessTile_of_port {e : Env} {a : Actor} {off : Nat} {v : Word} (h : readTile e (locate off) = none) :
    accessTile e { actor := a, off := off, data := some v } = none := by
  unfold readTile at h
  unfold accessTile
  split at h <;> simp_all

theorem foreign_keeper (l : Loc) : foreign keeperActor l = false := rfl

/-- A keeper write to the keeper block. -/
theorem portWrite_kp {s : State} {off o : Nat} {v : Word} (hfree : PortFree s.dp) (hl : locate off = .kp o) :
    portWrite s keeperActor off v = { s with env := (writeKp s.env s.dp o v).1, dp := (writeKp s.env s.dp o v).2 } := by
  rw [portWrite_free hfree (accessTile_of_port (by rw [hl]; rfl))]
  simp [writeReg, hl, foreign_keeper]

/-- A keeper write to the partition directory. -/
theorem portWrite_pd {s : State} {off o : Nat} {v : Word} (hfree : PortFree s.dp) (hl : locate off = .pd o) :
    portWrite s keeperActor off v = { s with dp := writePd s.env s.dp o v } := by
  rw [portWrite_free hfree (accessTile_of_port (by rw [hl]; rfl))]
  simp [writeReg, hl, foreign_keeper]

/-- A write to an open partition window. -/
theorem portWrite_pw {s : State} {a : Actor} {p : BitVec 4} {off o : Nat} {v : Word} (hopen : WindowOpen s.env s.dp a (.part p))
    (hl : locate off = .pw p o) : portWrite s a off v = { s with dp := writePw s.env s.dp p o v } := by
  obtain ⟨hfree, hactor, hwarm, hst⟩ := hopen
  have hf : foreign a (.pw p o) = false := by
    rcases hactor with h | h <;> simp [foreign, h]
  rw [portWrite_free hfree (accessTile_of_port (by rw [hl]; rfl))]
  simp [writeReg, hl, hf, hwarm, hst]

/-- R9. A write inside a block or window of another. -/
theorem portWrite_foreign {s : State} {a : Actor} {off : Nat} {v : Word} (hfree : PortFree s.dp) (h : foreign a (locate off) = true) :
    portWrite s a off v = { s with dp := registerAccess s.env s.dp a.pid off } := by
  rw [portWrite_free hfree (accessTile_of_foreign h)]
  simp [writeReg, h]

/-- R12. A write where no block stands. -/
theorem portWrite_empty {s : State} {a : Actor} {off : Nat} {v : Word} (hfree : PortFree s.dp) (hl : locate off = .empty) :
    portWrite s a off v = { s with dp := configNotice s.env s.dp off } := by
  rw [portWrite_free hfree (accessTile_of_port (by rw [hl]; rfl))]
  simp [writeReg, hl, foreign]

/-- The byte offset of a register from the word offset at the port. -/
theorem byteOffset {n : Nat} (h4 : 4 ∣ n) (hn : n < 2 ^ 22) : 4 * (BitVec.ofNat 20 (n / 4)).toNat = n := by
  rw [BitVec.toNat_ofNat, Nat.mod_eq_of_lt (by omega)]
  omega

/-! ### Reports of the register port -/

/-- The first element that the test picks stands changed in the list. -/
theorem mem_modFirst_of_any {α : Type} (p : α → Bool) (f : α → α) (l : List α) (h : l.any p = true) : ∃ x ∈ l, p x = true ∧ f x ∈ modFirst p f l := by
  induction l with
  | nil => simp at h
  | cons y l ih =>
    rw [modFirst]
    by_cases hy : p y = true
    · exact ⟨y, List.mem_cons_self, hy, by simp [hy]⟩
    · have hl : l.any p = true := by simpa [hy] using h
      obtain ⟨x, hx, hpx, hfx⟩ := ih hl
      exact ⟨x, List.mem_cons_of_mem _ hx, hpx, by simp [hy, hfx]⟩

/-- R358. A report that is no NOTICE stands in its source's buffer afterwards. -/
theorem report_buffered (e : Env) (d : Dp) (src : Source) (r : Report) (h : r.key.kind.cls ≠ .notice) :
    ∃ q ∈ (report e d src r).inc.reports, q.1 = src ∧ q.2.key = r.key := by
  unfold report
  extract_lets same buffered
  split
  · next hany =>
    obtain ⟨x, -, hx, hmem⟩ := mem_modFirst_of_any same (fun x => (x.1, { x.2 with count := x.2.count + r.count })) d.inc.reports hany
    obtain ⟨hsrc, hkey⟩ : x.1 = src ∧ x.2.key = r.key := by simpa [same] using hx
    exact ⟨_, hmem, hsrc, hkey⟩
  · obtain ⟨m, hm⟩ := reportHod_frame e src false { d with inc := { d.inc with reports := d.inc.reports ++ [(src, r)] } }
    rw [if_neg (by simp [h]), hm]
    exact ⟨(src, r), by simp, rfl, rfl⟩

/-- R464. A CONFIG NOTICE changes reports and counters only. -/
theorem configNotice_frame (e : Env) (d : Dp) (off : Nat) :
    ∃ l k, configNotice e d off = { d with inc := { d.inc with reports := l }, obs := { d.obs with kctr := k } } := report_frame e d .regPort _

/-- R9. The ACCESS report of a refused write. -/
theorem registerAccess_report (e : Env) (d : Dp) (p : BitVec 4) (off : Nat) :
    ∃ q ∈ (registerAccess e d p off).inc.reports, q.1 = .regPort ∧ q.2.key.kind = .access ∧ q.2.key.srcId = BitVec.ofNat 32 p.toNat := by
  obtain ⟨q, hq, hsrc, hkey⟩ := report_buffered e d .regPort (accessReport e 9 p.toNat (some p) (BitVec.ofNat 64 off) p) (by change IncClass.error ≠ .notice; decide)
  exact ⟨q, hq, hsrc, by rw [hkey]; rfl, by rw [hkey]; rfl⟩

/-! ### Registers of the keeper block and of the partition directory -/

theorem exec_registerWrite (a : Actor) (off : BitVec 20) (v : Word) (s : State) :
    exec (.registerWrite a off v) s = .next (portWrite s a (4 * off.toNat) v) := rfl

/-- R379. A brick whose PATH stands raised is to measure it again. -/
def measureAgain (b : Brick) : Brick :=
  match b.body with
  | .barrier x => { b with body := .barrier (if x.measure = 3 then { x with measure := 1 } else x) }
  | _ => b

theorem measureAgain_barrier {b : Brick} {x : Barrier} (h : b.body = .barrier x) :
    measureAgain b = { b with body := .barrier (if x.measure = 3 then { x with measure := 1 } else x) } := by
  simp [measureAgain, h]

theorem measureAgain_other {b : Brick} (h : ∀ x, b.body ≠ .barrier x) : measureAgain b = b := by
  unfold measureAgain
  split
  · next x hx => exact absurd hx (h x)
  · rfl

theorem remeasure_bricks (d : Dp) : (remeasure d).bricks = d.bricks.map (fun (p : Nat × Brick) => (p.1, measureAgain p.2)) := by
  refine List.map_congr_left (fun p _ => ?_)
  obtain ⟨i, b⟩ := p
  cases hb : b.body with
  | barrier x =>
    rw [measureAgain_barrier hb]
    simp only
    split
    · rfl
    · rw [← hb]
  | _ => simp [measureAgain, hb]

theorem brickOf_remeasure {d : Dp} {i : Nat} {b : Brick} (h : fget d.bricks i = some b) : brickOf (remeasure d) i = measureAgain b := by
  rw [brickOf, remeasure_bricks, fgetD, fget_map, h]
  rfl

/-- A write of KP_REPAIR_CTL. -/
theorem writeKp_repair (e : Env) (d : Dp) (v : Word) :
    writeKp e d 0xC0 v = ({ e with rep := { e.rep with auto := v.getLsbD 0, rowAuto := v.getLsbD 1 } }, if v.getLsbD 2 then remeasure d else d) := rfl

theorem writeKp_rowfix (e : Env) (d : Dp) (v : Word) : writeKp e d 0xC4 v = rowfix e d v := rfl

/-- R388. A row that KP_ROWFIX can replace. -/
theorem rowfix_fits {e : Env} {d : Dp} {v : Word} (hq : bits v.toNat 0 6 ≤ 35) (hoff : (ptileOf e (bits v.toNat 0 6)).powered = false)
    (hrow : bits v.toNat 8 13 < arrayRows (bits v.toNat 6 2)) :
    rowfix e d v = (useRow e (bits v.toNat 0 6) (bits v.toNat 6 2) (bits v.toNat 21 3) (bits v.toNat 8 13), d) := by
  refine if_neg ?_
  simp only [hoff, Bool.false_eq_true, false_or]
  omega

/-- R388. Any other is refused with a notice. -/
theorem rowfix_refused {e : Env} {d : Dp} {v : Word}
    (h : 35 < bits v.toNat 0 6 ∨ (ptileOf e (bits v.toNat 0 6)).powered = true ∨ arrayRows (bits v.toNat 6 2) ≤ bits v.toNat 8 13) :
    rowfix e d v = (e, configNotice e d 0xC4) := if_pos h

/-! ### The register of a partition at its offset -/

theorem locate_pd {off : Nat} (h1 : 0x10000 ≤ off) (h2 : off < 0x20000) : locate off = .pd (off - 0x10000) := by
  unfold locate
  rw [if_neg (by omega), if_pos h2]

/-- Register k of those that the partition directory has for each partition. -/
theorem locate_partReg (k : Nat) (hk : k < 4) (p : BitVec 4) : locate (0x10000 + 0x40 * k + 4 * p.toNat) = .pd (0x40 * k + 4 * p.toNat) := by
  have hp := p.isLt
  have hoff : 0x10000 + 0x40 * k + 4 * p.toNat - 0x10000 = 0x40 * k + 4 * p.toNat := by omega
  rw [locate_pd (by omega) (by omega), hoff]

theorem partReg_part (k : Nat) (p : BitVec 4) : BitVec.ofNat 4 ((0x40 * k + 4 * p.toNat) % 0x40 / 4) = p := by
  have hp := p.isLt
  have h : (0x40 * k + 4 * p.toNat) % 0x40 / 4 = p.toNat := by omega
  rw [h, BitVec.ofNat_toNat, BitVec.setWidth_eq]

theorem writePd_qb (e : Env) (d : Dp) (p : BitVec 4) (v : Word) :
    writePd e d (0x40 * 0 + 4 * p.toNat) v = setPart d p { partOf d p with qb := bits v.toNat 0 25 } := by
  have hp := p.isLt
  unfold writePd
  simp only [partReg_part]
  rw [if_pos (by omega)]

theorem writePd_qg (e : Env) (d : Dp) (p : BitVec 4) (v : Word) :
    writePd e d (0x40 * 1 + 4 * p.toNat) v = setPart d p { partOf d p with qg := bits v.toNat 0 18 } := by
  have hp := p.isLt
  unfold writePd
  simp only [partReg_part]
  rw [if_neg (by omega), if_pos (by omega)]

theorem writePd_reset (e : Env) (d : Dp) (p : BitVec 4) {v : Word} (hv : v.getLsbD 8 = true) :
    writePd e d (0x40 * 3 + 4 * p.toNat) v = requestReset e d p := by
  have hp := p.isLt
  unfold writePd
  simp only [partReg_part]
  rw [if_neg (by omega), if_neg (by omega), if_neg (by omega), if_pos (by omega), if_pos hv]

/-! ### Group masks of a partition window (R77) -/

theorem locate_window (p : BitVec 4) {o : Nat} (ho : o < 0x10000) : locate (windowBase p + o) = .pw p o := by
  have hp := p.isLt
  unfold locate windowBase
  rw [if_neg (by omega), if_neg (by omega), if_neg (by omega), if_pos (by omega)]
  have hpart : (0x100000 + p.toNat * 0x10000 + o) / 0x10000 - 16 = p.toNat := by omega
  have hoff : (0x100000 + p.toNat * 0x10000 + o) % 0x10000 = o := by omega
  rw [hpart, hoff, BitVec.ofNat_toNat, BitVec.setWidth_eq]

theorem writePw_gmask (e : Env) (d : Dp) (p : BitVec 4) {g : Nat} (hg : g < 256) (v : Word) :
    writePw e d p (0x400 + 4 * g) v = renewMasks (setPart d p { partOf d p with gmask := fput (partOf d p).gmask g (v.setWidth 5) }) p := by
  have hreg : (0x400 + 4 * g - 0x400) / 4 = g := by omega
  unfold writePw
  extract_lets off x
  iterate 10 rw [if_neg (by omega)]
  rw [if_pos (by omega), hreg]

/-- R77. Renewing admission copies changes beds only. -/
theorem renewMasks_frame (d : Dp) (p : BitVec 4) : ∃ js, renewMasks d p = { d with joints := js } := ⟨_, rfl⟩

end Sys2Proof.Machine
end

section
/-! The commits of QUIET values (R437, Table 14.3): each as its condition holds, and as it does not. -/

namespace Sys2Proof.Machine

/-- R437. A commit acts on the environment and the data path. -/
theorem exec_quietCommit {f : QuietField} {s : State} {e : Env} {d : Dp} (h : quietCommit s.env s.dp f = (e, d)) :
    exec (.quietCommit f) s = .next { s with env := e, dp := d } := by
  change Host.Outcome.next { s with env := (quietCommit s.env s.dp f).1, dp := (quietCommit s.env s.dp f).2 } = _
  rw [h]

/-! ### Values of the keeper block -/

theorem quietCommit_salt {e : Env} {d : Dp} {x : BitVec 5} (hx : e.kp.saltP = some x) (hb : noBricks d = true) :
    quietCommit e d .salt = ({ e with kp := { e.kp with salt := x, saltP := none } }, d) := by
  simp [quietCommit, hx, hb]

theorem quietCommit_salt_none {e : Env} {d : Dp} (h : e.kp.saltP = none) : quietCommit e d .salt = (e, d) := by
  simp [quietCommit, h]

theorem quietCommit_backing_none {e : Env} {d : Dp} (hlo : e.kp.bsLoP = none) (hhi : e.kp.bsHiP = none) (hsize : e.kp.bsSizeP = none) :
    quietCommit e d .backing = (e, d) := by
  simp [quietCommit, commitBacking, hlo, hhi, hsize]

theorem quietCommit_nodeId {e : Env} {d : Dp} {x : BitVec 16} (hx : e.kp.nodeP = some x) (hb : noBricks d = true) (hen : e.lf.enable = false) :
    quietCommit e d .nodeId = ({ e with kp := { e.kp with node := x, nodeP := none } }, d) := by
  simp [quietCommit, hx, hb, hen]

theorem quietCommit_nodeId_waits {e : Env} {d : Dp} (h : e.kp.nodeP = none ∨ e.lf.enable = true) : quietCommit e d .nodeId = (e, d) := by
  rcases h with h | h <;> simp [quietCommit, h]

/-- R49, R63. With a brick allocated, the salt, the backing store and the node number stay. -/
theorem quietCommit_bricks_wait {e : Env} {d : Dp} {f : QuietField} (hb : noBricks d = false) (hf : f = .salt ∨ f = .backing ∨ f = .nodeId) :
    quietCommit e d f = (e, d) := by
  rcases hf with rfl | rfl | rfl
  · simp [quietCommit, hb]
  · simp [quietCommit, commitBacking, hb]
  · simp [quietCommit, hb]

theorem ite_bricks_net (c : Prop) [Decidable c] (d : Dp) : (if c then d else { d with bricks := [] }).net = d.net := by
  split <;> rfl

/-- R484. The base and the size of the backing store commit together; the base keeps no bit below the size. -/
theorem commitBacking_commits {e : Env} {d : Dp} (hb : noBricks d = true)
    (hp : e.kp.bsLoP.isSome = true ∨ e.kp.bsHiP.isSome = true ∨ e.kp.bsSizeP.isSome = true) :
    let k := e.kp
    let l := k.bsSizeP.getD k.bsLog2
    let b := (k.bsHiP.getD (k.bsBase.extractLsb' 32 32) ++ k.bsLoP.getD (k.bsBase.setWidth 32)).toNat
    let m := if 21 ≤ l.toNat ∧ l.toNat ≤ 30 then 2 ^ l.toNat else 1
    (commitBacking e d).1 = { e with kp := { k with bsBase := BitVec.ofNat 64 (b / m * m), bsLog2 := l, bsLoP := none, bsHiP := none, bsSizeP := none } }
      ∧ (commitBacking e d).2.net = d.net := by
  have hpend : ¬ (!(e.kp.bsLoP.isSome || e.kp.bsHiP.isSome || e.kp.bsSizeP.isSome) || !noBricks d) = true := by
    rcases hp with h | h | h <;> simp [h, hb]
  intro k l b m
  unfold commitBacking
  rw [if_neg hpend]
  refine ⟨rfl, ?_⟩
  have hnotice : (if b % m = 0 then d else configNotice e d 0x20).net = d.net := by
    split
    · rfl
    · exact report_net e d .regPort _
  exact (ite_bricks_net _ _).trans hnotice

/-- R371. An open entry is to be written again, at the new base. -/
def writtenAgain (y : IncEntry) : IncEntry := if y.isOpen then { y with dirty := true, lastWrite := none } else y

/-- R371. The base of the incident table commits while no table write is in flight. -/
theorem quietCommit_incBase {e : Env} {d : Dp} {x : Dword} (hx : e.kp.incP = some x) (hw : d.inc.wrote = []) :
    quietCommit e d .incBase = ({ e with kp := { e.kp with incBase := x, incP := none } },
      { d with inc := { d.inc with entries := d.inc.entries.map (fun (p : Nat × IncEntry) => (p.1, writtenAgain p.2)) } }) := by
  simp [quietCommit, commitInc, writtenAgain, hx, hw]

theorem quietCommit_incBase_waits {e : Env} {d : Dp} (h : e.kp.incP = none ∨ d.inc.wrote ≠ []) : quietCommit e d .incBase = (e, d) := by
  simp only [quietCommit, commitInc]
  rcases h with h | h
  · rw [h]
  · split
    · rfl
    · simp [h]

/-! ### Rings (R299) -/

theorem OutRing.commit_quiet {x : OutRing} {lo hi : Nat} {held : Bool} (hs : x.cfg.sizeP.isSome = true)
    (hq : x.state = .disabled ∨ x.head = x.tail ∧ held = false) :
    x.commit lo hi held = { OutRing.init with cfg := x.cfg.commit, state := enabledState lo hi x.cfg.commit } := by
  refine if_pos ?_
  rcases hq with h | ⟨h, hheld⟩
  · simp [hs, h]
  · simp [hs, h, hheld]

theorem OutRing.commit_waits {x : OutRing} {lo hi : Nat} {held : Bool}
    (h : x.cfg.sizeP = none ∨ x.state ≠ .disabled ∧ (x.head ≠ x.tail ∨ held = true)) : x.commit lo hi held = x := by
  refine if_neg ?_
  rcases h with h | ⟨hst, h | h⟩
  · simp [h]
  · simp [hst, h]
  · simp [hst, h]

theorem SubRing.commit_quiet {x : SubRing} (hs : x.cfg.sizeP.isSome = true)
    (hq : x.state = .disabled ∨ x.state = .running ∧ x.head = x.tail ∧ x.wait = none ∧ x.ahead = []) :
    x.commit = { SubRing.init with cfg := x.cfg.commit, state := enabledState 4 16 x.cfg.commit } := by
  refine if_pos ?_
  rcases hq with h | ⟨hrun, hht, hwait, hahead⟩
  · simp [hs, h]
  · simp [hs, hrun, hht, hwait, hahead]

theorem SubRing.commit_waits {x : SubRing}
    (h : x.cfg.sizeP = none ∨ x.state ≠ .disabled ∧ (x.state ≠ .running ∨ x.head ≠ x.tail ∨ x.wait ≠ none ∨ x.ahead ≠ [])) : x.commit = x := by
  refine if_neg ?_
  rcases h with h | ⟨hst, h | h | h | h⟩
  · simp [h]
  · simp [hst, h]
  · simp [hst, h]
  · simp [hst, h]
  · simp [hst, h]

/-- A table entry that is written as it stands. -/
theorem fgetD_fput_same {α : Type} (m : FMap α) (k j : Nat) (v : α) : fgetD (fput m k (fgetD m k v)) j v = fgetD m j v := by
  by_cases h : j = k
  · subst h; simp
  · exact fgetD_fput_ne m _ v h

/-! ### TC_MODE (R491) -/

theorem commitMode_waits {e : Env} {d : Dp} {t : Nat}
    (h : (modeOf d t).pend = none ∨ unavailable e t = true ∨ tileIdle e d t = false ∨ (tileOf d t).trace.recs ≠ [] ∨ d.obs.triggered = true
      ∨ (tileOf d t).test ≠ none ∨ e.stop.stopped = true) : commitMode e d t = d := by
  unfold commitMode
  extract_lets m x
  split
  · rfl
  · next v hv =>
    refine if_pos ?_
    rcases h with h | h | h | h | h | h | h
    · exact absurd (hv.symm.trans h) (by simp)
    all_goals simp [x, h, Option.isSome_iff_ne_none]

theorem commitMode_commits {e : Env} {d : Dp} {t : Nat} {v : BitVec 10} (hv : (modeOf d t).pend = some v) (hun : unavailable e t = false)
    (hidle : tileIdle e d t = true) (hrecs : (tileOf d t).trace.recs = []) (htrig : d.obs.triggered = false) (htest : (tileOf d t).test = none)
    (hstop : e.stop.stopped = false) :
    let m := { modeOf d t with mode := v.extractLsb' 0 2, size := v.extractLsb' 2 5, pre := v.extractLsb' 7 3, pend := none }
    let x := tileOf d t
    commitMode e d t = setTile { d with obs := { d.obs with modes := fput d.obs.modes t m } } t { x with trace := { x.trace with after_ := none } } := by
  simp [commitMode, hv, hun, hidle, hrecs, htrig, htest, hstop]

/-! ### The link block (R284, R285) -/

theorem quietCommit_lfSetup_waits {e : Env} {d : Dp} (h : linksQuiet d = false) : quietCommit e d .lfSetup = (e, d) := by
  simp [quietCommit, commitSetup, h]

/-- The bits of LF_CTL as they stand. -/
theorem pack4_bits (l : LfRegs) :
    (BitVec.ofNat 4 (commitSetup.pack4 l)).getLsbD 0 = l.mode ∧ (BitVec.ofNat 4 (commitSetup.pack4 l)).getLsbD 3 = l.enable := by
  unfold commitSetup.pack4
  cases l.mode <;> cases l.preempt <;> cases l.pfc <;> cases l.enable <;> decide

/-- R284. What the set-up registers hold after their commit. -/
theorem commitSetup_lf {e : Env} {d : Dp} (h : linksQuiet d = true) :
    let l := e.lf
    let l2 := (commitSetup e d).1.lf
    l2.etype = l.etypeP.getD l.etype ∧ l2.udpPort = l.udpPortP.getD l.udpPort ∧ l2.mtu = l.mtuP.getD l.mtu
      ∧ l2.enable = (l.ctlP.map (fun c => c.getLsbD 3)).getD l.enable ∧ l2.mode = (l.ctlP.map (fun c => c.getLsbD 0)).getD l.mode
      ∧ l2.ctlP = none ∧ l2.etypeP = none ∧ l2.udpPortP = none ∧ l2.mtuP = none ∧ l2.macP = [] ∧ l2.src6P = [] := by
  obtain ⟨hmode, henable⟩ := pack4_bits e.lf
  have hbit : ∀ (n : Nat) (b : Bool), (BitVec.ofNat 4 (commitSetup.pack4 e.lf)).getLsbD n = b →
      (e.lf.ctlP.getD (BitVec.ofNat 4 (commitSetup.pack4 e.lf))).getLsbD n = (e.lf.ctlP.map (fun c => c.getLsbD n)).getD b := by
    intro n b hb
    cases e.lf.ctlP with
    | none => exact hb
    | some c => rfl
  unfold commitSetup
  rw [if_neg (by simp [h])]
  extract_lets l c e1 lf1 e2 d2 rested l2
  have hpause : ∃ g, l2 = { lf1 with pauseAt := g } := by
    unfold l2 e2
    split
    · exact ⟨_, rfl⟩
    · exact ⟨lf1.pauseAt, rfl⟩
  obtain ⟨g, hg⟩ := hpause
  rw [hg]
  exact ⟨rfl, rfl, rfl, hbit 3 _ henable, hbit 0 _ hmode, rfl, rfl, rfl, rfl, rfl, rfl⟩

theorem fget_of_not_key {α : Type} {m : FMap α} {k : Nat} (h : k ∉ m.map Prod.fst) : fget m k = none := by
  induction m with
  | nil => rfl
  | cons q m ih =>
    obtain ⟨j, v⟩ := q
    rw [List.map_cons, List.mem_cons, not_or] at h
    obtain ⟨hkj, hm⟩ := h
    rw [fget, if_neg (Ne.symm hkj), ih hm]

/-- Words of one table put into another stand before those that were there. -/
theorem fgetD_overlay (m p : FMap Word) (hp : (p.map Prod.fst).Nodup) (k : Nat) : fgetD (overlay m p) k 0 = (fget p k).getD (fgetD m k 0) := by
  induction p generalizing m with
  | nil => rfl
  | cons q p ih =>
    obtain ⟨j, w⟩ := q
    obtain ⟨hj, hp⟩ := List.nodup_cons.1 hp
    have hstep : overlay m ((j, w) :: p) = overlay (fput m j w) p := rfl
    rw [hstep, ih _ hp, fget]
    by_cases hjk : j = k
    · subst hjk
      rw [fget_of_not_key hj, if_pos rfl]
      simp
    · rw [if_neg hjk, fgetD_fput_ne m w 0 (Ne.symm hjk)]

/-- What a filter on keys leaves of a table. -/
theorem fget_filter_key {α : Type} (m : FMap α) (f : Nat → Bool) (k : Nat) :
    fget (m.filter (fun w => f w.1)) k = if f k then fget m k else none := by
  induction m with
  | nil => simp [fget]
  | cons q m ih =>
    obtain ⟨j, v⟩ := q
    rw [List.filter_cons]
    by_cases hjk : j = k
    · subst hjk
      cases hf : f j with
      | true => simp [fget]
      | false => simpa [hf] using ih
    · cases hf : f j with
      | true => simp only [if_true, fget, if_neg hjk, ih]
      | false => simp only [Bool.false_eq_true, if_false, fget, if_neg hjk, ih]

/-- R285. The words of route r commit together, and no other route changes. -/
theorem commitRoute_routes {e : Env} {d : Dp} {r : Nat} (hn : routeNamed d r = false) (hp : (e.lf.routesP.map Prod.fst).Nodup) :
    (∀ w ∈ (commitRoute e d r).lf.routesP, w.1 / 8 ≠ r)
      ∧ ∀ k, fgetD (commitRoute e d r).lf.routes k 0
          = if k / 8 = r then (fget e.lf.routesP k).getD (fgetD e.lf.routes k 0) else fgetD e.lf.routes k 0 := by
  unfold commitRoute
  rw [if_neg (by simp [hn])]
  refine ⟨fun w hw => by simpa using (List.mem_filter.1 hw).2, fun k => ?_⟩
  have hnodup : ((e.lf.routesP.filter (fun w => w.1 / 8 == r)).map Prod.fst).Nodup := hp.sublist (List.filter_sublist.map Prod.fst)
  change fgetD (overlay e.lf.routes (e.lf.routesP.filter (fun w => w.1 / 8 == r))) k 0 = _
  rw [fgetD_overlay _ _ hnodup, fget_filter_key _ (fun j => j / 8 == r)]
  by_cases hk : k / 8 = r <;> simp [hk]

end Sys2Proof.Machine
end

section
/-! The commit of an agent's assignment (R330): one digit of AG_PART and one bit of AG_EN. -/

namespace Sys2Proof.Machine

/-! ### One digit of a number -/

theorem digit_eq (B k n : Nat) : n / B ^ k % B = n % B ^ (k + 1) / B ^ k := (Nat.mod_mul_right_div_self n (B ^ k) B).symm

/-- A truncation to m digits keeps the digits below m. -/
theorem digit_mod {B k m : Nat} (n : Nat) (hk : k < m) : n % B ^ m / B ^ k % B = n / B ^ k % B := by
  rw [digit_eq, digit_eq, Nat.mod_mod_of_dvd n (Nat.pow_dvd_pow B hk)]

/-- A number whose digit s is replaced: the digits above s, the new digit, the digits below s. -/
theorem replaceDigit_eq (B s x v : Nat) :
    x - x / B ^ s % B * B ^ s + v * B ^ s = B ^ s * (B * (x / B ^ s / B) + v) + x % B ^ s := by
  have hx : x = B ^ s * (B * (x / B ^ s / B) + x / B ^ s % B) + x % B ^ s := by rw [Nat.div_add_mod, Nat.div_add_mod]
  generalize x / B ^ s / B = h at hx ⊢
  generalize x / B ^ s % B = d at hx ⊢
  generalize x % B ^ s = r at hx ⊢
  rw [hx, Nat.mul_add, Nat.mul_add, Nat.mul_comm d, Nat.mul_comm v]
  omega

/-- The new digit stands at its place, and every other digit is the old one. -/
theorem digit_replaceDigit {B s x v : Nat} (k : Nat) (hv : v < B) :
    (x - x / B ^ s % B * B ^ s + v * B ^ s) / B ^ k % B = if k = s then v else x / B ^ k % B := by
  have hB : 0 < B := Nat.zero_lt_of_lt hv
  have hdiv : (B ^ s * (B * (x / B ^ s / B) + v) + x % B ^ s) / B ^ s = B * (x / B ^ s / B) + v := by
    rw [Nat.mul_add_div (Nat.pow_pos hB), Nat.div_eq_of_lt (Nat.mod_lt _ (Nat.pow_pos hB)), Nat.add_zero]
  rw [replaceDigit_eq]
  rcases Nat.lt_trichotomy k s with hk | hk | hk
  · have hlow : (B ^ s * (B * (x / B ^ s / B) + v) + x % B ^ s) % B ^ s = x % B ^ s := by rw [Nat.mul_add_mod, Nat.mod_mod]
    rw [if_neg (Nat.ne_of_lt hk), ← digit_mod _ hk, hlow, digit_mod _ hk]
  · rw [if_pos hk, hk, hdiv, Nat.mul_add_mod, Nat.mod_eq_of_lt hv]
  · obtain ⟨c, rfl⟩ := Nat.exists_eq_add_of_lt hk
    have hpow : B ^ (s + c + 1) = B ^ s * B * B ^ c := by ring
    rw [if_neg (Nat.ne_of_gt hk), hpow, ← Nat.div_div_eq_div_mul, ← Nat.div_div_eq_div_mul, hdiv, Nat.mul_add_div hB, Nat.div_eq_of_lt hv,
      Nat.add_zero, ← Nat.div_div_eq_div_mul, ← Nat.div_div_eq_div_mul]

/-! ### AG_PART and AG_EN -/

/-- AG_PART with the field of slot s replaced: field k. -/
theorem partField_replace (P : Word) (p : BitVec 4) {s k : Nat} (hk : k < 8) :
    BitVec.ofNat 4 ((BitVec.ofNat 32 (P.toNat - bits P.toNat (4 * s) 4 * 2 ^ (4 * s) + p.toNat * 2 ^ (4 * s))).toNat / 2 ^ (4 * k))
      = if k = s then p else BitVec.ofNat 4 (P.toNat / 2 ^ (4 * k)) := by
  have hpow : ∀ i, 2 ^ (4 * i) = 16 ^ i := fun i => Nat.pow_mul 2 4 i
  have hdigit := digit_replaceDigit (s := s) (x := P.toNat) k p.isLt
  apply BitVec.eq_of_toNat_eq
  rw [BitVec.toNat_ofNat, BitVec.toNat_ofNat, bits, hpow, hpow]
  refine ((digit_mod _ hk).trans hdigit).trans ?_
  split
  · rfl
  · exact (BitVec.toNat_ofNat _ 4).symm

/-- AG_EN with the bit of slot s replaced: bit k. -/
theorem enBit_replace (E : Byte) (b : Bool) {s k : Nat} (hk : k < 8) :
    (BitVec.ofNat 8 (E.toNat - bits E.toNat s 1 * 2 ^ s + (if b then 2 ^ s else 0))).getLsbD k = if k = s then b else E.getLsbD k := by
  have hval : (if b then 2 ^ s else 0) = b.toNat * 2 ^ s := by cases b <;> simp
  have hdigit := digit_replaceDigit (s := s) (x := E.toNat) k b.toNat_lt
  rw [BitVec.getLsbD_ofNat, decide_eq_true hk, Bool.true_and, Nat.testBit_eq_decide_div_mod_eq, bits, hval]
  refine (congrArg (fun n => decide (n = 1)) hdigit).trans ?_
  split
  · cases b <;> rfl
  · rw [BitVec.getLsbD, Nat.testBit_eq_decide_div_mod_eq]

/-! ### The commit -/

/-- What marking an agent as departing leaves. -/
theorem markDeparting_frame (d : Dp) (a : Nat) :
    (markDeparting d a).ag = d.ag ∧ (markDeparting d a).bricks = d.bricks ∧ (markDeparting d a).net = d.net := by
  unfold markDeparting
  split
  · split
    · exact ⟨rfl, rfl, rfl⟩
    · exact ⟨rfl, rfl, rfl⟩
  · exact ⟨rfl, rfl, rfl⟩

/-- An agent that is enabled is on the list once it has been marked. -/
theorem markDeparting_listed {d : Dp} {a : Nat} (h : (agentPart d (a / 8) (a % 8)).isSome = true) :
    (markDeparting d a).departing.any (fun x => x.1 == a) = true := by
  unfold markDeparting
  split
  · split
    · assumption
    · simp
  · next hnone => simp [hnone] at h

theorem commitAgent_waits {d : Dp} {j s : Nat} (h : (jointOf d j).entries.any (fun x => x.req.slot.toNat == s) = true) : commitAgent d j s = d := by
  cases hpend : fget (agOf d j).pend s with
  | none => simp [commitAgent, hpend]
  | some w => simp [commitAgent, hpend, h]

/-- R330. What the commit of slot s writes. -/
theorem commitAgent_writes {d : Dp} {j s : Nat} {w : Option (BitVec 4)} {v : Option Bool} (hpend : fget (agOf d j).pend s = some (w, v))
    (hfree : (jointOf d j).entries.any (fun x => x.req.slot.toNat == s) = false) :
    let a := agOf d j
    let old := BitVec.ofNat 4 (bits a.part.toNat (4 * s) 4)
    let p := w.getD old
    let en := v.getD (a.en.getLsbD s)
    commitAgent d j s = setAg (if a.en.getLsbD s && (!en || old != p) then markDeparting d (j * 8 + s) else d) j
      { part := BitVec.ofNat 32 (a.part.toNat - bits a.part.toNat (4 * s) 4 * 2 ^ (4 * s) + p.toNat * 2 ^ (4 * s))
        en := BitVec.ofNat 8 (a.en.toNat - bits a.en.toNat s 1 * 2 ^ s + (if en then 2 ^ s else 0))
        pend := fdel a.pend s } := by
  simp only [commitAgent, hpend, hfree, Bool.false_eq_true, if_false]

/-- An agent's partition depends on the registers of its joint alone. -/
theorem agentPart_setAg (d : Dp) (j k : Nat) (x : AgReg) :
    agentPart (setAg d j x) j k = if x.en.getLsbD k then some (BitVec.ofNat 4 (x.part.toNat / 2 ^ (4 * k))) else none := by
  simp [agentPart, agOf]

theorem agentPart_field {d : Dp} {j s : Nat} :
    agentPart d j s = if (agOf d j).en.getLsbD s then some (BitVec.ofNat 4 (bits (agOf d j).part.toNat (4 * s) 4)) else none := by
  have h : BitVec.ofNat 4 (bits (agOf d j).part.toNat (4 * s) 4) = BitVec.ofNat 4 ((agOf d j).part.toNat / 2 ^ (4 * s)) :=
    BitVec.eq_of_toNat_eq (by simp [bits])
  rw [h, agentPart]

/-- R330. The commit of slot s of joint j: the agent's new partition, the other agents' old ones, and the departure of an agent that leaves its partition. -/
theorem commitAgent_commits {d : Dp} {j s : Nat} {w : Option (BitVec 4)} {v : Option Bool} (hs : s < 8) (hpend : fget (agOf d j).pend s = some (w, v))
    (hfree : (jointOf d j).entries.any (fun x => x.req.slot.toNat == s) = false) :
    let a := agOf d j
    let p := w.getD (BitVec.ofNat 4 (bits a.part.toNat (4 * s) 4))
    let en := v.getD (a.en.getLsbD s)
    let d2 := commitAgent d j s
    d2.bricks = d.bricks ∧ d2.net = d.net ∧ agentPart d2 j s = (if en then some p else none)
      ∧ (∀ k, k < 8 → k ≠ s → agentPart d2 j k = agentPart d j k) ∧ fget (agOf d2 j).pend s = none
      ∧ ((agentPart d j s).isSome = true → agentPart d j s ≠ (if en then some p else none) → d2.departing.any (fun a => a.1 == j * 8 + s) = true) := by
  intro a p en d2
  have hd2 : d2 = _ := commitAgent_writes hpend hfree
  obtain ⟨-, hbricks, hnet⟩ := markDeparting_frame d (j * 8 + s)
  refine ⟨?_, ?_, ?_, fun k hk hks => ?_, ?_, fun hsome hne => ?_⟩
  · rw [hd2, setAg_bricks]; split
    · exact hbricks
    · rfl
  · rw [hd2, setAg_net]; split
    · exact hnet
    · rfl
  · rw [hd2, agentPart_setAg, partField_replace _ _ hs, enBit_replace _ _ hs, if_pos rfl, if_pos rfl]
  · rw [hd2, agentPart_setAg, partField_replace _ _ hk, enBit_replace _ _ hk, if_neg hks, if_neg hks, agentPart]
  · rw [hd2]; simp [agOf]
  · have hen : a.en.getLsbD s = true := by
      rw [agentPart_field] at hsome
      by_contra hoff
      simp [a, hoff] at hsome
    have hleaves : (a.en.getLsbD s && (!en || BitVec.ofNat 4 (bits a.part.toNat (4 * s) 4) != p)) = true := by
      rw [agentPart_field, if_pos hen] at hne
      cases hnew : en with
      | false => simp [hen]
      | true =>
        rw [hnew, if_pos rfl] at hne
        simpa [hen] using fun heq => hne (congrArg some heq)
    have hat : (j * 8 + s) / 8 = j ∧ (j * 8 + s) % 8 = s := by omega
    rw [hd2, if_pos hleaves, setAg_departing]
    exact markDeparting_listed (by rw [hat.1, hat.2]; exact hsome)

end Sys2Proof.Machine
end

section
/-! Register writes and commits of QUIET values (O56). -/

namespace Sys2Proof.Machine

open Sys2Proof.Safety

/-! ### Writes at the port -/

/-- R379. A write of KP_REPAIR_CTL with REMEASURE. -/
theorem exec_kpRepairRemeasure {s : State} {v : Word} (hfree : PortFree s.dp) (hv : v.getLsbD 2 = true) :
    exec (.kpRepairRemeasure v) s
      = .next { s with env := { s.env with rep := { s.env.rep with auto := v.getLsbD 0, rowAuto := v.getLsbD 1 } }, dp := remeasure s.dp } := by
  change Host.Outcome.next (portWrite s keeperActor 0xC0 v) = _
  rw [portWrite_kp hfree (o := 0xC0) rfl, writeKp_repair, if_pos hv]

/-- R388. -/
theorem exec_kpRowfix {s : State} {v : Word} {e : Env} {d : Dp} (hfree : PortFree s.dp) (h : rowfix s.env s.dp v = (e, d)) :
    exec (.kpRowfix v) s = .next { s with env := e, dp := d } := by
  change Host.Outcome.next (portWrite s keeperActor 0xC4 v) = _
  rw [portWrite_kp hfree (o := 0xC4) rfl, writeKp_rowfix, h]

/-- R353. A write of PD_PCTL with RESET. -/
theorem exec_pdPctlReset {s : State} {v : Word} (p : BitVec 4) (hfree : PortFree s.dp) (hv : v.getLsbD 8 = true) :
    exec (.pdPctlReset p v) s = .next { s with dp := requestReset s.env s.dp p } := by
  change Host.Outcome.next (portWrite s keeperActor (0x10000 + 0x40 * 3 + 4 * p.toNat) v) = _
  rw [portWrite_pd hfree (locate_partReg 3 (by decide) p), writePd_reset _ _ _ hv]

/-- R353. A reset that finds the partition FREEZING waits for the freeze. -/
theorem requestReset_freezing {e : Env} {d : Dp} {p : BitVec 4} (h : (partOf d p).st = .freezing) :
    requestReset e d p = setPart d p { partOf d p with resetReq := true } := if_pos h

/-- R9. -/
theorem exec_foreign {s : State} {a : Actor} {off : BitVec 20} {v : Word} (hfree : PortFree s.dp) (h : foreign a (locate (4 * off.toNat)) = true) :
    exec (.registerWrite a off v) s = .next { s with dp := registerAccess s.env s.dp a.pid (4 * off.toNat) } := by
  rw [exec_registerWrite, portWrite_foreign hfree h]

theorem exec_empty {s : State} {a : Actor} {off : BitVec 20} {v : Word} (hfree : PortFree s.dp) (h : locate (4 * off.toNat) = .empty) :
    exec (.registerWrite a off v) s = .next { s with dp := configNotice s.env s.dp (4 * off.toNat) } := by
  rw [exec_registerWrite, portWrite_empty hfree h]

theorem locate_kp {n : Nat} (hn : n < 0x10000) : locate n = .kp n := if_pos hn

/-- A keeper write to the register of the keeper block at byte offset n. -/
theorem exec_keeperBlock {s : State} {v : Word} {n : Nat} (hfree : PortFree s.dp) (h4 : 4 ∣ n) (hn : n < 0x10000) :
    exec (.registerWrite keeperActor (BitVec.ofNat 20 (n / 4)) v) s
      = .next { s with env := (writeKp s.env s.dp n v).1, dp := (writeKp s.env s.dp n v).2 } := by
  rw [exec_registerWrite, byteOffset h4 (by omega), portWrite_kp hfree (locate_kp hn)]

/-- A keeper write to register k of partition p in the partition directory. -/
theorem exec_partReg {s : State} {v : Word} (k : Nat) (hk : k < 4) (p : BitVec 4) (hfree : PortFree s.dp) :
    exec (.registerWrite keeperActor (BitVec.ofNat 20 ((0x10000 + 0x40 * k + 4 * p.toNat) / 4)) v) s
      = .next { s with dp := writePd s.env s.dp (0x40 * k + 4 * p.toNat) v } := by
  have hp := p.isLt
  rw [exec_registerWrite, byteOffset (by omega) (by omega), portWrite_pd hfree (locate_partReg k hk p)]

/-- R77. A write of group mask g in the window of partition p. -/
theorem exec_gmask {s : State} {a : Actor} {p : BitVec 4} {g : Nat} {v : Word} (hopen : WindowOpen s.env s.dp a (.part p)) (hg : g < 256) :
    exec (.registerWrite a (BitVec.ofNat 20 ((windowBase p + 0x400 + 4 * g) / 4)) v) s
      = .next { s with dp := renewMasks (setPart s.dp p { partOf s.dp p with gmask := fput (partOf s.dp p).gmask g (v.setWidth 5) }) p } := by
  have hp := p.isLt
  have hbase : windowBase p = 0x100000 + p.toNat * 0x10000 := rfl
  rw [exec_registerWrite, byteOffset (by omega) (by omega), Nat.add_assoc, portWrite_pw hopen (locate_window p (by omega)), writePw_gmask _ _ _ hg]

/-! ### Commits -/

/-- R299. The ring of an owner as the commit leaves it while it waits: the same ring, written again. -/
theorem cmplOf_setCmpl_same (d : Dp) (o q : Owner) : cmplOf (setCmpl d o (cmplOf d o)) q = cmplOf d q :=
  fgetD_fput_same d.cmpl (ownerKey o) (ownerKey q) OutRing.init

theorem incRingOf_setIncRing_same (d : Dp) (p q : BitVec 4) : incRingOf (setIncRing d p (incRingOf d p)) q = incRingOf d q :=
  fgetD_fput_same d.incRings p.toNat q.toNat OutRing.init

theorem tringOf_setTring_same (d : Dp) (k q : Nat) : tringOf (setTring d k (tringOf d k)) q = tringOf d q :=
  fgetD_fput_same d.trings k q OutRing.init

theorem ringOf_setRing_same (d : Dp) (r q : RingId) : ringOf (setRing d r (ringOf d r)) q = ringOf d q :=
  fgetD_fput_same d.rings (ringKey r) (ringKey q) SubRing.init

theorem commitCmpl_waits {d : Dp} {o : Owner} (h : (cmplOf d o).cfg.sizeP = none
      ∨ (cmplOf d o).state ≠ .disabled ∧ ((cmplOf d o).head ≠ (cmplOf d o).tail ∨ fgetD d.held (ownerKey o) [] ≠ [])) :
    commitCmpl d o = setCmpl d o (cmplOf d o) := by
  rw [commitCmpl, OutRing.commit_waits]
  simpa using h

theorem commitCmpl_quiet {d : Dp} {o : Owner} (hs : (cmplOf d o).cfg.sizeP.isSome = true)
    (hq : (cmplOf d o).state = .disabled ∨ (cmplOf d o).head = (cmplOf d o).tail ∧ fgetD d.held (ownerKey o) [] = []) :
    commitCmpl d o = setCmpl d o { OutRing.init with cfg := (cmplOf d o).cfg.commit, state := enabledState 4 16 (cmplOf d o).cfg.commit } := by
  rw [commitCmpl, OutRing.commit_quiet hs]
  simpa using hq

theorem commitTring_waits {d : Dp} {o : Owner} (h : (tringOf d (ownerKey o)).cfg.sizeP = none
      ∨ (tringOf d (ownerKey o)).state ≠ .disabled ∧ (tringOf d (ownerKey o)).head ≠ (tringOf d (ownerKey o)).tail) :
    commitTring d o = setTring d (ownerKey o) (tringOf d (ownerKey o)) := by
  rw [commitTring, OutRing.commit_waits]
  simpa using h

theorem commitTring_quiet {d : Dp} {o : Owner} (hs : (tringOf d (ownerKey o)).cfg.sizeP.isSome = true)
    (hq : (tringOf d (ownerKey o)).state = .disabled ∨ (tringOf d (ownerKey o)).head = (tringOf d (ownerKey o)).tail) :
    commitTring d o = setTring d (ownerKey o)
      { OutRing.init with cfg := (tringOf d (ownerKey o)).cfg.commit, state := enabledState 8 20 (tringOf d (ownerKey o)).cfg.commit } := by
  rw [commitTring, OutRing.commit_quiet hs]
  simpa using hq

theorem incEntry_map {d : Dp} {f : IncEntry → IncEntry} {k : Nat} {y : IncEntry} (h : incEntry d k = some y) :
    incEntry { d with inc := { d.inc with entries := d.inc.entries.map (fun (p : Nat × IncEntry) => (p.1, f p.2)) } } k = some (f y) := by
  rw [incEntry] at h
  rw [incEntry, fget_map, h]
  rfl

theorem quietCommit_route_own (e : Env) (d : Dp) : quietCommit e d (.lfRoute 0xFF#8) = (e, d) := rfl

theorem quietCommit_route {e : Env} {d : Dp} {r : BitVec 8} (hr : r ≠ 0xFF#8) : quietCommit e d (.lfRoute r) = (commitRoute e d r.toNat, d) := if_neg hr

theorem commitRoute_named {e : Env} {d : Dp} {r : Nat} (h : routeNamed d r = true) : commitRoute e d r = e := if_pos h

/-! ### The statement -/

/-- Settles O56: each register write by the register it reaches at the free port, each commit by its condition and by the condition's negative. -/
theorem registerWritesAndCommits : Obligations.RegisterWritesAndCommits := by
  unfold Obligations.RegisterWritesAndCommits
  refine ⟨fun s v hfree => ⟨fun hv => ?remeasure, fun hq hoff hrow => exec_kpRowfix hfree (rowfix_fits hq hoff hrow), fun hno => ?rowfix,
      fun p hv hst => ?freezing, fun p hv hst => ?reset, fun a off hf => ?foreign, fun p => ⟨?qb, ?qg⟩, exec_keeperBlock hfree (by decide) (by decide),
      exec_keeperBlock hfree (by decide) (by decide), exec_keeperBlock hfree (by decide) (by decide), fun a p g hopen hg => ?gmask,
      fun a off hl => ?empty⟩,
    fun s => ⟨fun x hx hb => exec_quietCommit (quietCommit_salt hx hb), fun hb f hf => exec_quietCommit (quietCommit_bricks_wait hb hf),
      fun hx => exec_quietCommit (quietCommit_salt_none hx), fun hlo hhi hsize => exec_quietCommit (quietCommit_backing_none hlo hhi hsize),
      fun h => exec_quietCommit (quietCommit_nodeId_waits h), fun h => exec_quietCommit (quietCommit_incBase_waits h), fun hb hp => ?backing,
      fun x hx hb hen => exec_quietCommit (quietCommit_nodeId hx hb hen), fun x hx hw => ?incBase, fun o hs hq => ?cmpl, fun p hs hq => ?incRing,
      fun o h => ?cmplWaits, fun p h => ?incRingWaits, fun o h => ?traceWaits, fun r h => ?ringWaits, fun t h => ?modeWaits, fun o hs hq => ?trace,
      fun t v hv hun hidle hrecs htrig htest hstop => ?mode, fun h => ?setup, fun h => exec_quietCommit (quietCommit_lfSetup_waits h),
      exec_quietCommit (quietCommit_route_own s.env s.dp), fun r hr => ⟨fun hn => ?routeNamed, fun hn hp => ?route⟩, fun r hs hq => ?ring,
      fun j slot w v hpend => ?agent, fun j slot h => ?agentWaits⟩⟩
  case remeasure =>
    exact ⟨_, exec_kpRepairRemeasure hfree hv, rfl, fun i b x hb hx => (brickOf_remeasure hb).trans (measureAgain_barrier hx),
      fun i b hb hx => (brickOf_remeasure hb).trans (measureAgain_other hx)⟩
  case rowfix =>
    obtain ⟨l, k, hnotice⟩ := configNotice_frame s.env s.dp 0xC4
    refine ⟨_, exec_kpRowfix hfree (rowfix_refused hno), rfl, ?_⟩
    rw [hnotice]
  case freezing => rw [exec_pdPctlReset p hfree hv, requestReset_freezing hst]
  case reset =>
    obtain ⟨hpart, hgone, hrings⟩ := requestReset_leaves s.env s.dp p hst
    exact ⟨_, exec_pdPctlReset p hfree hv, rfl, by rw [hpart]; exact ⟨rfl, rfl, rfl, rfl, rfl, rfl, hgone, hrings⟩⟩
  case foreign =>
    obtain ⟨l, k, hacc⟩ : ∃ l k, registerAccess s.env s.dp a.pid (4 * off.toNat) = _ := report_frame s.env s.dp .regPort _
    have hreport := registerAccess_report s.env s.dp a.pid (4 * off.toNat)
    rw [hacc] at hreport
    refine ⟨_, exec_foreign hfree hf, rfl, ?_⟩
    rw [hacc]
    exact ⟨rfl, rfl, rfl, rfl, rfl, rfl, hreport⟩
  case qb => exact (exec_partReg 0 (by decide) p hfree).trans (by rw [writePd_qb])
  case qg => exact (exec_partReg 1 (by decide) p hfree).trans (by rw [writePd_qg])
  case gmask =>
    refine ⟨_, exec_gmask hopen hg, rfl, ?_⟩
    obtain ⟨js, hmasks⟩ := renewMasks_frame (setPart s.dp p { partOf s.dp p with gmask := fput (partOf s.dp p).gmask g (v.setWidth 5) }) p
    rw [hmasks]
    exact ⟨rfl, rfl, congrArg Part.gmask (partOf_setPart s.dp p _)⟩
  case empty =>
    obtain ⟨l, k, hnotice⟩ := configNotice_frame s.env s.dp (4 * off.toNat)
    refine ⟨_, exec_empty hfree hl, rfl, ?_⟩
    rw [hnotice]
    exact ⟨rfl, rfl⟩
  case backing =>
    obtain ⟨henv, hnet⟩ := commitBacking_commits hb hp
    exact ⟨_, rfl, hnet, henv⟩
  case incBase => exact ⟨_, exec_quietCommit (quietCommit_incBase hx hw), rfl, rfl, fun k y hy => incEntry_map (f := writtenAgain) hy⟩
  case cmpl => exact exec_quietCommit (congrArg (Prod.mk s.env) (commitCmpl_quiet hs hq))
  case incRing => exact exec_quietCommit (congrArg (fun x => (s.env, setIncRing s.dp p x)) (OutRing.commit_quiet hs hq))
  case cmplWaits =>
    exact ⟨_, exec_quietCommit (congrArg (Prod.mk s.env) (commitCmpl_waits h)), rfl, cmplOf_setCmpl_same s.dp o⟩
  case incRingWaits =>
    exact ⟨_, exec_quietCommit (congrArg (fun x => (s.env, setIncRing s.dp p x)) (OutRing.commit_waits h)), rfl, incRingOf_setIncRing_same s.dp p⟩
  case traceWaits =>
    exact ⟨_, exec_quietCommit (congrArg (Prod.mk s.env) (commitTring_waits h)), rfl, tringOf_setTring_same s.dp (ownerKey o)⟩
  case ringWaits =>
    exact ⟨_, exec_quietCommit (congrArg (fun x => (s.env, setRing s.dp r x)) (SubRing.commit_waits h)), rfl, ringOf_setRing_same s.dp r⟩
  case modeWaits => exact exec_quietCommit (congrArg (Prod.mk s.env) (commitMode_waits h))
  case trace => exact exec_quietCommit (congrArg (Prod.mk s.env) (commitTring_quiet hs hq))
  case mode =>
    exact ⟨_, exec_quietCommit (congrArg (Prod.mk s.env) (commitMode_commits hv hun hidle hrecs htrig htest hstop)), rfl, rfl, rfl,
      fgetD_fput_self s.dp.obs.modes t.toNat _ _⟩
  case setup =>
    obtain ⟨ls, ts, o, q, m, l, hd⟩ := LinkFrame.commitSetup s.env s.dp
    exact ⟨_, rfl, (congrArg Dp.bricks hd :), (congrArg Dp.net hd :), commitSetup_lf h⟩
  case routeNamed => exact exec_quietCommit ((quietCommit_route hr).trans (congrArg (fun e => (e, s.dp)) (commitRoute_named hn)))
  case route =>
    obtain ⟨hgone, hwords⟩ := commitRoute_routes (e := s.env) hn hp
    exact ⟨_, exec_quietCommit (quietCommit_route hr), rfl, hgone, hwords⟩
  case ring => exact exec_quietCommit (congrArg (fun x => (s.env, setRing s.dp r x)) (SubRing.commit_quiet hs hq))
  case agent => exact fun hfree => ⟨_, rfl, rfl, commitAgent_commits slot.isLt hpend hfree⟩
  case agentWaits => exact exec_quietCommit (congrArg (Prod.mk s.env) (commitAgent_waits h))

end Sys2Proof.Machine
end

section
/-! What the environment keeps to (EnvOk), part by part: the clock, the stop, the power states, the repair map. Fields that EnvOk does not name may change at will, so EnvOk of the old environment is that of the new one. -/

namespace Sys2Proof.Machine

open Sys2Proof.Safety

variable {e : Env} {d : Dp} {t q : Nat}

/-! ### The four parts -/

/-- R400, R471. Filters count at most four samples, and TPULSE is high only as an output. -/
abbrev ClockOk (c : Clock) : Prop :=
  c.gstopN.differ < 5 ∧ c.pwrwarnN.differ < 5 ∧ c.tpulse.differ < 5 ∧ (c.tpFall.isSome = true → c.tpDir = 1#2)

/-- R415. A timed GO waits only during a stop. -/
abbrev StopOk (s : Stop) : Prop := s.goPend = true → s.stopped = true

/-- R395, R428. A sleeping tile is powered and unlocked, and so is one without power. -/
abbrev PTileOk (p : PTile) : Prop := p.lock ≤ 2 ∧ (p.asleep = true → p.powered = true ∧ p.lock = 0) ∧ (p.powered = false → p.lock = 0)

/-- R428, R442. READY follows ENABLE, and each physical tile is in order. -/
abbrev PowerOk (p : Power) : Prop := (p.ready = true → p.enable = true) ∧ ∀ x ∈ p.ptiles, PTileOk x.2

/-- R19, R377. The lists of the repair map rise in their ranges, and logical tiles stand on physical ones. -/
abbrev RepairOk (r : Repair) : Prop :=
  Rising 36 r.spares ∧ Rising 32 r.unavail ∧ Rising 1024 r.fencedAgents ∧ Rising 36 r.fencedTiles ∧ r.fencedPorts.Pairwise (· < ·)
    ∧ ∀ p ∈ r.lmap, p.2 < 36

theorem envOk_iff : EnvOk e ↔ ClockOk e.clk ∧ StopOk e.stop ∧ PowerOk e.pwr ∧ RepairOk e.rep := by
  constructor
  · rintro ⟨h1, h2, h3, h4, h5, h6, h7, h8⟩
    exact ⟨⟨h1, h2, h3, h4⟩, h5, ⟨h6, h7⟩, h8⟩
  · rintro ⟨⟨h1, h2, h3, h4⟩, h5, ⟨h6, h7⟩, h8⟩
    exact ⟨h1, h2, h3, h4, h5, h6, h7, h8⟩

theorem envOk_clock (h : EnvOk e) : ClockOk e.clk := (envOk_iff.1 h).1

theorem envOk_power (h : EnvOk e) : PowerOk e.pwr := (envOk_iff.1 h).2.2.1

theorem envOk_repair (h : EnvOk e) : RepairOk e.rep := (envOk_iff.1 h).2.2.2

theorem envOk_withClock {c : Clock} (h : EnvOk e) (hc : ClockOk c) : EnvOk { e with clk := c } := by
  obtain ⟨-, hs, hp, hr⟩ := envOk_iff.1 h
  exact envOk_iff.2 ⟨hc, hs, hp, hr⟩

theorem envOk_withStop {s : Stop} (h : EnvOk e) (hs : StopOk s) : EnvOk { e with stop := s } := by
  obtain ⟨hc, -, hp, hr⟩ := envOk_iff.1 h
  exact envOk_iff.2 ⟨hc, hs, hp, hr⟩

theorem envOk_withPower {p : Power} (h : EnvOk e) (hp : PowerOk p) : EnvOk { e with pwr := p } := by
  obtain ⟨hc, hs, -, hr⟩ := envOk_iff.1 h
  exact envOk_iff.2 ⟨hc, hs, hp, hr⟩

theorem envOk_withRepair {r : Repair} (h : EnvOk e) (hr : RepairOk r) : EnvOk { e with rep := r } := by
  obtain ⟨hc, hs, hp, -⟩ := envOk_iff.1 h
  exact envOk_iff.2 ⟨hc, hs, hp, hr⟩

/-- A choice between two environments that are both in order. -/
theorem envOk_ite {c : Prop} [Decidable c] {x y : Env × Dp} (hx : EnvOk x.1) (hy : EnvOk y.1) : EnvOk (if c then x else y).1 := by
  split
  · exact hx
  · exact hy

/-! ### Rising lists and tables -/

theorem rising_filter {n : Nat} {l : List Nat} (p : Nat → Bool) (h : Rising n l) : Rising n (l.filter p) :=
  ⟨h.1.filter p, fun k hk => h.2 k (List.mem_of_mem_filter hk)⟩

theorem rising_setInsert {n k : Nat} {l : List Nat} (h : Rising n l) (hk : k < n) : Rising n (setInsert k l) := by
  refine ⟨setInsert_rising k l h.1, fun j hj => ?_⟩
  obtain rfl | hj := (mem_setInsert k j l).1 hj
  · exact hk
  · exact h.2 j hj

theorem mem_of_fget {α : Type} {m : FMap α} {k : Nat} {v : α} (h : fget m k = some v) : (k, v) ∈ m := by
  induction m with
  | nil => simp [fget] at h
  | cons p m ih =>
    obtain ⟨j, w⟩ := p
    by_cases hj : j = k
    · subst hj
      simp only [fget, if_true, Option.some.injEq] at h
      exact h ▸ List.mem_cons_self
    · rw [fget, if_neg hj] at h
      exact List.mem_cons_of_mem _ (ih h)

/-- What a read gives is the default or stands in the table. -/
theorem fgetD_cases {α : Type} (m : FMap α) (k : Nat) (v : α) : fgetD m k v = v ∨ (k, fgetD m k v) ∈ m := by
  unfold fgetD
  cases h : fget m k with
  | none => exact .inl rfl
  | some w => exact .inr (mem_of_fget h)

/-! ### Tiles of the repair map (R19, R35, R377) -/

theorem physOf_lt (h : EnvOk e) (ht : t < 36) : physOf e t < 36 := by
  obtain ⟨-, -, -, -, -, hmap⟩ := envOk_repair h
  obtain hp | hp := fgetD_cases e.rep.lmap t t
  · exact lt_of_eq_of_lt hp ht
  · exact hmap _ hp

theorem logicalOf_lt (h : logicalOf e q = some t) : t < 32 := List.mem_range.1 (List.mem_of_find?_eq_some h)

theorem portTile_lt {p : Nat} (h : portTile e p = some q) : q < 36 := List.mem_range.1 (List.mem_of_find?_eq_some h)

/-- R377. The spare that a tile goes to is of the pool. -/
theorem spareFor_lt (h : EnvOk e) (hs : spareFor e t = some q) : q < 36 := by
  obtain ⟨⟨-, hpool⟩, -⟩ := envOk_repair h
  unfold spareFor at hs
  extract_lets cost at hs
  refine List.foldlRecOn (motive := fun best => ∀ q, best = some q → q < 36) _ _ (by simp) (fun best ih p hp q hq => ?_) q hs
  have hp := hpool p (List.mem_of_mem_filter hp)
  cases best with
  | none => exact Option.some.inj hq ▸ hp
  | some b =>
    simp only at hq
    split at hq
    · exact Option.some.inj hq ▸ hp
    · exact ih q hq

theorem envOk_withSpares {l : List Nat} (h : EnvOk e) (hl : Rising 36 l) : EnvOk { e with rep := { e.rep with spares := l } } := by
  obtain ⟨-, hr⟩ := envOk_repair h
  exact envOk_withRepair h ⟨hl, hr⟩

theorem envOk_spares_filter (h : EnvOk e) (p : Nat → Bool) : EnvOk { e with rep := { e.rep with spares := e.rep.spares.filter p } } :=
  envOk_withSpares h (rising_filter p (envOk_repair h).1)

theorem envOk_withFencedAgents {l : List Nat} (h : EnvOk e) (hl : Rising 1024 l) : EnvOk { e with rep := { e.rep with fencedAgents := l } } := by
  obtain ⟨hs, hu, -, hr⟩ := envOk_repair h
  exact envOk_withRepair h ⟨hs, hu, hl, hr⟩

theorem envOk_withFencedTiles {l : List Nat} (h : EnvOk e) (hl : Rising 36 l) : EnvOk { e with rep := { e.rep with fencedTiles := l } } := by
  obtain ⟨hs, hu, ha, -, hr⟩ := envOk_repair h
  exact envOk_withRepair h ⟨hs, hu, ha, hl, hr⟩

theorem envOk_withFencedPorts {l : List Nat} (h : EnvOk e) (hl : l.Pairwise (· < ·)) : EnvOk { e with rep := { e.rep with fencedPorts := l } } := by
  obtain ⟨hs, hu, ha, ht, -, hm⟩ := envOk_repair h
  exact envOk_withRepair h ⟨hs, hu, ha, ht, hl, hm⟩

theorem envOk_fenceTileAt (h : EnvOk e) (hq : q < 36) : EnvOk { e with rep := { e.rep with fencedTiles := setInsert q e.rep.fencedTiles } } := by
  obtain ⟨-, -, -, hf, -⟩ := envOk_repair h
  exact envOk_withFencedTiles h (rising_setInsert hf hq)

theorem envOk_fenceAgentAt {u : Nat} (h : EnvOk e) (hu : u < 1024) : EnvOk { e with rep := { e.rep with fencedAgents := setInsert u e.rep.fencedAgents } } := by
  obtain ⟨-, -, hf, -⟩ := envOk_repair h
  exact envOk_withFencedAgents h (rising_setInsert hf hu)

theorem envOk_fencePortAt (h : EnvOk e) (u : Nat) : EnvOk { e with rep := { e.rep with fencedPorts := setInsert u e.rep.fencedPorts } } := by
  obtain ⟨-, -, -, -, hf, -⟩ := envOk_repair h
  exact envOk_withFencedPorts h (setInsert_rising u _ hf)

theorem envOk_liftTile (h : EnvOk e) (p : Nat → Bool) : EnvOk { e with rep := { e.rep with fencedTiles := e.rep.fencedTiles.filter p } } := by
  obtain ⟨-, -, -, hf, -⟩ := envOk_repair h
  exact envOk_withFencedTiles h (rising_filter p hf)

theorem envOk_liftAgent (h : EnvOk e) (p : Nat → Bool) : EnvOk { e with rep := { e.rep with fencedAgents := e.rep.fencedAgents.filter p } } := by
  obtain ⟨-, -, hf, -⟩ := envOk_repair h
  exact envOk_withFencedAgents h (rising_filter p hf)

theorem envOk_liftPort (h : EnvOk e) (p : Nat → Bool) : EnvOk { e with rep := { e.rep with fencedPorts := e.rep.fencedPorts.filter p } } := by
  obtain ⟨-, -, -, -, hf, -⟩ := envOk_repair h
  exact envOk_withFencedPorts h (hf.filter p)

/-! ### Physical tiles (R428 to R430) -/

theorem ptileOf_ok (h : EnvOk e) (q : Nat) : PTileOk (ptileOf e q) := by
  obtain ⟨-, hall⟩ := envOk_power h
  obtain hp | hp := fgetD_cases e.pwr.ptiles q PTile.init
  · rw [ptileOf, hp]
    decide
  · exact hall _ hp

theorem envOk_setPTile {x : PTile} (h : EnvOk e) (q : Nat) (hx : PTileOk x) : EnvOk (setPTile e q x) := by
  obtain ⟨hready, hall⟩ := envOk_power h
  refine envOk_withPower h ⟨hready, fun p hp => ?_⟩
  obtain rfl | hp := fput_keys_bound e.pwr.ptiles q x p hp
  · exact hx
  · exact hall p hp

/-- A change of each physical tile by itself. -/
theorem envOk_mapPTiles {f : PTile → PTile} (h : EnvOk e) (hf : ∀ p, PTileOk p → PTileOk (f p)) :
    EnvOk { e with pwr := { e.pwr with ptiles := e.pwr.ptiles.map (fun (p : Nat × PTile) => (p.1, f p.2)) } } := by
  obtain ⟨hready, hall⟩ := envOk_power h
  refine envOk_withPower h ⟨hready, fun p hp => ?_⟩
  obtain ⟨x, hx, rfl⟩ := List.mem_map.1 hp
  exact hf x.2 (hall x hx)

theorem envOk_fixShort (h : EnvOk e) : EnvOk (fixShort e) := h

theorem envOk_leavePTile (h : EnvOk e) (t q : Nat) : EnvOk (leavePTile e t q) := by
  unfold leavePTile
  split
  · exact h
  · exact envOk_setPTile h q (by decide)

theorem envOk_moveTo (h : EnvOk e) (t : Nat) (hq : q < 36) : EnvOk (moveTo e t q) := by
  have h2 : EnvOk (setPTile (leavePTile e t (physOf e t)) q { powered := true, asleep := false, lock := 0 }) :=
    envOk_setPTile (envOk_leavePTile h t _) q (by decide)
  obtain ⟨hs, hu, ha, hf, hp, hm⟩ := envOk_repair h2
  refine envOk_fixShort (envOk_withRepair h2 ⟨rising_filter _ hs, rising_filter _ hu, ha, hf, hp, fun p hp => ?_⟩)
  obtain rfl | hp := fput_keys_bound _ t q p hp
  · exact hq
  · exact hm p hp

/-! ### Failed and fenced tiles (R376 to R383, R388) -/

theorem envOk_repointLost (h : EnvOk e) (d : Dp) (t : Nat) (hq : q < 36) (key : IncKey) : EnvOk (repointLost e d t q key).1 :=
  envOk_moveTo h t hq

theorem envOk_loseTile (h : EnvOk e) (d : Dp) (ht : t < 32) (key : IncKey) : EnvOk (loseTile e d t key).1 := by
  obtain ⟨hs, hu, hr⟩ := envOk_repair h
  have h2 : EnvOk { e with rep := { e.rep with unavail := setInsert t e.rep.unavail } } := envOk_withRepair h ⟨hs, rising_setInsert hu ht, hr⟩
  exact envOk_leavePTile (envOk_fixShort h2) t _

theorem envOk_giveUp (h : EnvOk e) (d : Dp) (ht : t < 32) (key : IncKey) : EnvOk (giveUp e d t key).1 := by
  unfold giveUp
  split
  case h_1 q hq =>
    split at hq
    · exact envOk_repointLost h d t (spareFor_lt h hq) key
    · cases hq
  case h_2 => exact envOk_loseTile h d ht key

theorem envOk_useRow (h : EnvOk e) (q a spare row : Nat) : EnvOk (useRow e q a spare row) := h

theorem envOk_fenceTile (h : EnvOk e) (d : Dp) (hq : q < 36) (key : IncKey) : EnvOk (fenceTile e d q key).1 := by
  simp only [fenceTile]
  split
  · exact envOk_spares_filter (envOk_fenceTileAt h hq) _
  · exact envOk_spares_filter (envOk_fencePortAt h _) _

theorem envOk_fenceAll (h : EnvOk e) (d : Dp) (hq : q < 36) (keys : List IncKey) : EnvOk (fenceAll q keys e d).1 :=
  List.foldlRecOn keys _ (motive := fun x : Env × Dp => EnvOk x.1) h (fun _ hx key _ => envOk_fenceTile hx _ hq key)

theorem envOk_selfTestDone (h : EnvOk e) (d : Dp) (ht : t < 32) (r : TestResult) : EnvOk (selfTestDone e d t r).1 := by
  have hq : physOf e t < 36 := physOf_lt h (by omega)
  unfold selfTestDone
  simp only
  split
  · exact h
  · split
    · exact h
    · split
      · exact envOk_giveUp (envOk_fenceAll h _ hq _) _ ht _
      · split
        · exact h
        · exact envOk_useRow h _ _ _ _
        · simp only
          split
          · exact envOk_fenceTileAt (envOk_giveUp h _ ht _) hq
          · exact envOk_giveUp h _ ht _

theorem envOk_fencePhys (h : EnvOk e) (d : Dp) (hq : q < 36) (key : IncKey) : EnvOk (fencePhys e d q key).1 := by
  unfold fencePhys
  split
  case h_1 => exact envOk_fixShort (envOk_fenceTile h d hq key)
  case h_2 t ht =>
    split
    · exact h
    · exact envOk_giveUp (envOk_fenceTile h d hq key) _ (logicalOf_lt ht) key

theorem envOk_liftPhys (h : EnvOk e) (hq : q < 36) : EnvOk (liftPhys e q) := by
  unfold liftPhys
  split
  · exact h
  · have h2 : EnvOk (setPTile e q PTile.init) := envOk_setPTile h q (by decide)
    exact envOk_fixShort (envOk_withSpares h2 (rising_setInsert (envOk_repair h).1 hq))

/-- Table 12.9. FENCE_UNIT names agents, physical tiles and ports in their ranges. -/
theorem envOk_fenceUnit (h : EnvOk e) (d : Dp) (x : BitVec 512) : EnvOk (fenceUnit e d x).1 := by
  unfold fenceUnit
  extract_lets lift u
  split
  -- an agent, a physical tile, a local port, or a reserved kind
  case h_1 =>
    split
    · exact h
    · next hu =>
      split
      · exact h
      · split
        · exact envOk_liftAgent h _
        · exact envOk_fenceAgentAt h (by omega)
  case h_2 =>
    split
    · exact h
    · next hu =>
      split
      · exact h
      · split
        · exact envOk_liftPhys (envOk_liftTile h _) (by omega)
        · exact envOk_fencePhys h d (by omega) _
  case h_3 =>
    split
    · exact h
    · split
      · exact h
      · split
        · exact h
        · split
          · exact envOk_liftPort h _
          · exact envOk_fencePortAt h u
      · next q _ hq =>
        split
        · exact h
        · split
          · exact envOk_liftPhys (envOk_liftPort h _) (portTile_lt hq)
          · exact envOk_fencePhys h d (portTile_lt hq) _
  case h_4 => exact h

theorem envOk_moveTile (h : EnvOk e) (d : Dp) (ht : t < 36) (hq : q < 36) : EnvOk (moveTile e d t q).1 := by
  have hm := envOk_moveTo h t hq
  exact envOk_fixShort (envOk_withSpares hm (rising_setInsert (envOk_repair hm).1 (physOf_lt h ht)))

/-- Table 12.8. REPOINT names one of 32 logical tiles and one of 36 physical ones. -/
theorem envOk_repoint (h : EnvOk e) (d : Dp) (x : BitVec 512) : EnvOk (repoint e d x).1 := by
  unfold repoint
  extract_lets l q
  have hl : l < 32 := Nat.mod_lt _ (by decide)
  split
  · exact h
  · next hq =>
    split
    · exact h
    · split
      · split
        · split <;> exact h
        · exact h
      · split
        · split
          · exact h
          · exact envOk_moveTile h d (by omega) (by omega)
        · split
          · exact h
          · exact envOk_moveTo h l (by omega)

/-- R380, R381. A descriptor of the keeper ring whose effect keeps EnvOk. -/
theorem envOk_keeperDesc {s : State} {f : Env → Dp → BitVec 512 → Env × Dp × Status × Option IncKey} (h : EnvOk s.env)
    (hf : ∀ d x, EnvOk (f s.env d x).1) (r : RingId) (op : Nat) : EnvOk (keeperDesc s r op f).env := by
  unfold keeperDesc
  split
  · exact h
  · exact hf s.dp _

theorem envOk_rowfix (h : EnvOk e) (d : Dp) (v : Word) : EnvOk (rowfix e d v).1 := by
  unfold rowfix
  exact envOk_ite h (envOk_useRow h _ _ _ _)

/-! ### Clocks, sleep and the global stop (R393 to R400, R415 to R418, R428 to R432) -/

theorem envOk_relock (h : EnvOk e) {n : Nat} (hn : n ≤ 2) : EnvOk (relock n e) := by
  refine envOk_mapPTiles (f := fun p => if p.powered && !p.asleep then { p with lock := n } else p) h (fun p hp => ?_)
  split
  · next hawake =>
    simp only [Bool.and_eq_true, Bool.not_eq_true'] at hawake
    exact ⟨hn, by simp [hawake], by simp [hawake]⟩
  · exact hp

theorem envOk_lockMore (h : EnvOk e) : EnvOk (lockMore e) := by
  refine envOk_mapPTiles (f := fun p => if p.powered && !p.asleep then { p with lock := min 2 (p.lock + 1) } else p) h (fun p hp => ?_)
  split
  · next hawake =>
    simp only [Bool.and_eq_true, Bool.not_eq_true'] at hawake
    exact ⟨Nat.min_le_left _ _, by simp [hawake], by simp [hawake]⟩
  · exact hp

theorem envOk_clockChange (h : EnvOk e) (d : Dp) : EnvOk (clockChange e d).1 := by
  unfold clockChange
  exact envOk_ite h h

theorem envOk_switchThrottle (h : EnvOk e) : EnvOk (switchThrottle e) := by
  unfold switchThrottle
  extract_lets c quiet k
  split
  · exact h
  · exact envOk_relock (envOk_withClock h (envOk_clock h)) (Nat.zero_le 2)

theorem envOk_powerGroups (h : EnvOk e) : EnvOk (powerGroups e) := by
  unfold powerGroups
  split
  · exact h
  · refine List.foldlRecOn _ _ (motive := fun x : Env => EnvOk x) h (fun e2 h2 t _ => ?_)
    extract_lets due e3
    split
    · exact envOk_setPTile h2 _ (by decide)
    · exact h2

/-- R471. A filter counts at most four samples that differ. -/
theorem sample_differ_lt (f : Filter) (v : Bool) : (f.sample v).differ < 5 := by
  unfold Filter.sample
  split
  · exact Nat.zero_lt_succ 4
  · split
    · exact Nat.zero_lt_succ 4
    · next hd => exact Nat.lt_of_not_le hd

/-- R400. An edge may end a TPULSE, and starts none. -/
theorem edgePins_tpFall (e : Env) (p : Pins) : (edgePins e p).clk.tpFall.isSome = true → e.clk.tpFall.isSome = true := by
  unfold edgePins
  simp only
  split
  · next hf => exact fun _ => hf ▸ rfl
  · exact fun hs => absurd hs Bool.false_ne_true

theorem envOk_edgePins (h : EnvOk e) (p : Pins) : EnvOk (edgePins e p) := by
  obtain ⟨-, -, -, hfall⟩ := envOk_clock h
  have hpower : PowerOk e.pwr := envOk_power h
  have hp : EnvOk { e with pwr := (edgePins e p).pwr } := envOk_withPower h hpower
  exact envOk_withClock (c := (edgePins e p).clk) hp
    ⟨sample_differ_lt _ _, sample_differ_lt _ _, sample_differ_lt _ _, fun hs => hfall (edgePins_tpFall e p hs)⟩

theorem clockOk_measure {c : Clock} (h : ClockOk c) (n : Nat) : ClockOk (measure n c) := by
  unfold measure
  extract_lets moved c1 c2
  split
  · exact h
  · split
    · exact h
    · split <;> exact h

theorem envOk_refEdge (h : EnvOk e) (d : Dp) (cycles : Nat) (p : Pins) : EnvOk (refEdge e d cycles p).1 := by
  have h1 := envOk_edgePins h p
  unfold refEdge
  simp only
  split
  · exact envOk_powerGroups h1
  · have h2 := envOk_powerGroups (envOk_withClock h1 (clockOk_measure (envOk_clock h1) (max cycles (edgePins e p).clk.cyc)))
    split
    · exact envOk_switchThrottle (envOk_relock h2 (by decide))
    · exact envOk_switchThrottle (envOk_lockMore h2)

theorem envOk_gtStep (h : EnvOk e) (d : Dp) : EnvOk (gtStep e d).1 := by
  unfold gtStep
  split
  · exact h
  · exact envOk_ite h (envOk_ite h h)

theorem envOk_pulseOut (h : EnvOk e) : EnvOk (pulseOut e) := by
  unfold pulseOut
  extract_lets c n
  split
  · next hout =>
    simp only [Bool.and_eq_true, decide_eq_true_eq] at hout
    obtain ⟨⟨hdir, -⟩, -⟩ := hout
    obtain ⟨hg, hw, ht, -⟩ := envOk_clock h
    exact envOk_withClock h ⟨hg, hw, ht, fun _ => hdir⟩
  · exact h

theorem envOk_pulseIn (h : EnvOk e) : EnvOk (pulseIn e) := by
  unfold pulseIn
  split
  · exact envOk_withClock h (envOk_clock h)
  · exact h

theorem envOk_offsetResult (h : EnvOk e) (d : Dp) : EnvOk (offsetResult e d).1 := by
  unfold offsetResult
  extract_lets m m2
  refine envOk_ite h ?_
  split
  · exact h
  · simp only
    split <;> exact h

theorem envOk_sleepTile (h : EnvOk e) (d : Dp) (t : Nat) : EnvOk (sleepTile e d t).1 := by
  unfold sleepTile
  extract_lets q p x d1
  split
  · exact h
  · next hrest =>
    simp only [Bool.or_eq_true, Bool.not_eq_true', not_or, Bool.not_eq_false] at hrest
    obtain ⟨⟨⟨-, hpowered⟩, -⟩, -⟩ := hrest
    refine envOk_setPTile h q ⟨Nat.zero_le 2, fun _ => ⟨hpowered, rfl⟩, fun _ => rfl⟩

theorem envOk_wakeTile (h : EnvOk e) (d : Dp) (t : Nat) (byHod : Bool) : EnvOk (wakeTile e d t byHod).1 := by
  unfold wakeTile
  extract_lets q p e1 d1
  exact envOk_ite h (envOk_setPTile h q ⟨Nat.zero_le 2, fun hsleep => absurd hsleep Bool.false_ne_true, fun _ => rfl⟩)

theorem envOk_comparator (h : EnvOk e) (d : Dp) (t : Nat) : EnvOk (comparator e d t).1 := by
  unfold comparator
  split
  · exact envOk_ite (envOk_wakeTile h d t false) h
  · exact h

theorem envOk_doStop (h : EnvOk e) (d : Dp) (pin : Bool) : EnvOk (doStop e d pin).1 := by
  unfold doStop
  exact envOk_ite h (envOk_withStop h (fun hp => absurd hp Bool.false_ne_true))

/-- R418. The resumption ends a timed GO. -/
theorem envOk_goNow (h : EnvOk e) (d : Dp) : EnvOk (goNow e d).1 := by
  have h1 : EnvOk { e with stop := { e.stop with stopped := false, goPend := false, stopLen := gtInterp e - e.stop.stopGt, d2dUp := 0, d2dDown := 0 }
                           clk := { e.clk with settle := 1 } } :=
    envOk_withStop (e := { e with clk := { e.clk with settle := 1 } }) h (fun hp => absurd hp Bool.false_ne_true)
  exact envOk_switchThrottle (envOk_relock h1 (Nat.zero_le 2))

theorem envOk_doGo (h : EnvOk e) (d : Dp) (at_ : Bool) : EnvOk (doGo e d at_).1 := by
  unfold doGo
  split
  · exact h
  · next hstop =>
    have hstop : e.stop.stopped = true := by simpa using hstop
    exact envOk_ite h (envOk_ite (envOk_withStop h (fun _ => hstop)) (envOk_goNow h d))

theorem envOk_writeStop (h : EnvOk e) (d : Dp) (v : Word) : EnvOk (writeStop e d v).1 := by
  have h1 : EnvOk { e with stop := { e.stop with pinEn := v.getLsbD 3, scan := v.getLsbD 4 } } := h
  have h2 := envOk_ite (c := v.getLsbD 0 = true) (envOk_doStop h1 d false) (y := (_, d)) h1
  exact envOk_ite (envOk_doGo h2 _ _) h2

theorem envOk_pinStop (h : EnvOk e) (d : Dp) : EnvOk (pinStop e d).1 := by
  unfold pinStop
  exact envOk_ite h (envOk_doStop (e := { e with clk := { e.clk with gstopFell := false } }) h d true)

theorem envOk_goReached (h : EnvOk e) (d : Dp) : EnvOk (goReached e d).1 := by
  unfold goReached
  exact envOk_ite (envOk_goNow h d) h

/-! ### QUIET values, start-up, resets and power fail (R352, R385, R437, R441 to R445) -/

theorem envOk_commitSetup (h : EnvOk e) (d : Dp) : EnvOk (commitSetup e d).1 := by
  unfold commitSetup
  extract_lets l c e1 e2 e3 d2 rested
  refine envOk_ite h ?_
  show EnvOk e3
  unfold e3
  split <;> exact h

theorem envOk_commitRoute (h : EnvOk e) (d : Dp) (r : Nat) : EnvOk (commitRoute e d r) := by
  unfold commitRoute
  split <;> exact h

theorem envOk_commitInc (h : EnvOk e) (d : Dp) : EnvOk (commitInc e d).1 := by
  unfold commitInc
  split
  · exact h
  · exact envOk_ite h h

/-- R437. No QUIET value is of the clock, the stop, the power states or the repair map. -/
theorem envOk_quietCommit (h : EnvOk e) (d : Dp) (f : QuietField) : EnvOk (quietCommit e d f).1 := by
  cases f with
  | salt => exact envOk_ite h h
  | backing => exact envOk_ite h h
  | nodeId => exact envOk_ite h h
  | incBase => exact envOk_commitInc h d
  | lfSetup => exact envOk_commitSetup h d
  | lfRoute r => exact envOk_ite h (envOk_commitRoute h d r.toNat)
  | agent _ _ | ring _ | cmpl _ | incRing _ | trace _ | tcMode _ => exact h

theorem envOk_writeEnable (h : EnvOk e) (d : Dp) (on : Bool) : EnvOk (writeEnable e d on).1 := by
  unfold writeEnable
  obtain ⟨-, htiles⟩ := envOk_power h
  exact envOk_ite (envOk_withPower h ⟨fun _ => rfl, htiles⟩) (envOk_ite h h)

theorem envOk_tilesReady (h : EnvOk e) (d : Dp) : EnvOk (tilesReady e d).1 := by
  unfold tilesReady
  split
  · exact h
  · next hon =>
    simp only [Bool.or_eq_true, Bool.not_eq_true', not_or, Bool.not_eq_false] at hon
    obtain ⟨⟨⟨⟨hen, -⟩, -⟩, -⟩, -⟩ := hon
    obtain ⟨-, htiles⟩ := envOk_power h
    exact envOk_withPower h ⟨fun _ => hen, htiles⟩

theorem envOk_warmReset (h : EnvOk e) (d : Dp) : EnvOk (warmReset e d).1 :=
  List.foldlRecOn _ _ (motive := fun x : Env × Dp => EnvOk x.1) h (fun x hx f _ => envOk_quietCommit hx x.2 f)

theorem envOk_warmTick (h : EnvOk e) (d : Dp) : EnvOk (warmTick e d).1 := by
  unfold warmTick
  exact envOk_ite h (envOk_ite h (envOk_warmReset h _))

theorem envOk_writeCtl (h : EnvOk e) (d : Dp) (v : Word) : EnvOk (writeCtl e d v).1 := by
  have h1 := envOk_writeEnable h d (v.getLsbD 0)
  unfold writeCtl
  simp only
  refine envOk_ite (envOk_warmTick ?_ _) h1
  exact h1

theorem envOk_wakeAll (h : EnvOk e) (d : Dp) : EnvOk (wakeAll e d).1 := by
  unfold wakeAll
  exact List.foldlRecOn (List.range 32) _ (motive := fun x : Env × Dp => EnvOk x.1) h
    (fun x hx t _ => envOk_ite (envOk_wakeTile hx x.2 t true) hx)

theorem envOk_drainRound (h : EnvOk e) (d : Dp) : EnvOk (drainRound e d).1 := by
  have hlater : ∀ x : Env, EnvOk x → EnvOk { x with clk := { x.clk with edgeCyc := x.clk.edgeCyc + 64 } } := fun _ hx => hx
  exact hlater _ (envOk_wakeAll h d)

theorem envOk_drainNet (n : Nat) : ∀ x : Env × Dp, EnvOk x.1 → EnvOk (drainNet n x).1 := by
  induction n with
  | zero => exact fun _ h => h
  | succ n ih =>
    intro x h
    have hy := envOk_drainRound h x.2
    unfold drainNet
    extract_lets y
    exact envOk_ite hy (ih y hy)

theorem envOk_drain (h : EnvOk e) (d : Dp) : EnvOk (drain e d).1 := by
  have hleft : ∀ x : Env × Dp, EnvOk x.1 → EnvOk { e with pwr := { x.1.pwr with pfDrain := false } } :=
    fun x hx => envOk_withPower h (envOk_power hx)
  exact hleft _ (envOk_drainNet 125 _ h)

theorem envOk_powerFail (h : EnvOk e) (d : Dp) : EnvOk (powerFail e d).1 := by
  have h1 := envOk_pinStop h d
  unfold powerFail
  split
  · exact h
  · simp only
    split
    · exact envOk_ite h1 h1
    · have h2 : ∀ x : Env × Dp, EnvOk x.1 → EnvOk { x.1 with clk := { x.1.clk with pwrFell := false }, pwr := { x.1.pwr with pfFrozen := true, warmBusy := false, gtFrozen := gtInterp x.1 } } := fun x hx => hx
      exact envOk_ite (h2 _ (envOk_drain h1 _)) (h2 _ (envOk_drain h1 _))

/-! ### The register port (R8, R36, R464) -/

theorem envOk_visit (h : EnvOk e) (d : Dp) (t : Nat) : EnvOk (visit e d t).1 := by
  unfold visit
  simp only
  split
  · exact h
  · exact envOk_wakeTile h _ t true

/-- R400. A write of KP_TPULSE that ends the output ends the pulse that stands on it. -/
theorem envOk_writeTpulse (h : EnvOk e) (v : Word) :
    EnvOk { e with clk := { e.clk with
      tpDir := v.setWidth 2, tpRate := v.getLsbD 2, tpCapv := e.clk.tpCapv && !v.getLsbD 3
      tpFall := if bits v.toNat 0 2 = 1 then e.clk.tpFall else none } } := by
  obtain ⟨hg, hw, ht, -⟩ := envOk_clock h
  refine envOk_withClock h ⟨hg, hw, ht, fun hs => ?_⟩
  have hout : bits v.toNat 0 2 = 1 := by
    by_contra hne
    simp only [hne, if_false] at hs
    exact Bool.false_ne_true hs
  exact BitVec.eq_of_toNat_eq (by simpa [bits] using hout)

/-- Table 16.3. A write of the keeper block. -/
theorem envOk_writeKp (h : EnvOk e) (d : Dp) (o : Nat) (v : Word) : EnvOk (writeKp e d o v).1 := by
  unfold writeKp
  extract_lets n k
  refine envOk_ite h (envOk_ite h (envOk_ite h ?_))
  split
  -- KP_CTL, KP_TPULSE, KP_STOP, KP_INC_BASE and KP_ROWFIX; what the others change EnvOk does not name
  case h_1 => exact envOk_writeCtl h d v
  case h_11 => exact envOk_writeTpulse h v
  case h_12 => exact envOk_writeStop h d v
  case h_16 => exact envOk_commitInc (e := { e with kp := { k with incP := some (v ++ k.incLo) } }) h _
  case h_23 => exact envOk_rowfix h d v
  all_goals exact h

theorem envOk_writeLf (h : EnvOk e) (d : Dp) (o : Nat) (v : Word) : EnvOk (writeLf e d o v).1 := by
  unfold writeLf
  extract_lets n put noticed l
  refine envOk_ite h (envOk_ite h (envOk_ite h ?_))
  split <;> exact h

/-- R36. An access that travels to a tile. -/
theorem envOk_atTile {f : Env → Dp → Env × Dp} (h : EnvOk e) (hf : ∀ e d, EnvOk e → EnvOk (f e d).1) (d : Dp) (t off : Nat) :
    EnvOk (atTile e d t off f).1 := by
  have hv := envOk_visit h d t
  unfold atTile
  split
  · simp only
    split
    · exact hv
    · exact hf _ _ hv
  · exact h

theorem envOk_writeReg (h : EnvOk e) (d : Dp) (a : Actor) (off : Nat) (v : Word) : EnvOk (writeReg e d a off v).1 := by
  unfold writeReg
  generalize locate off = l
  refine envOk_ite h ?_
  cases l with
  | kp o => exact envOk_writeKp h d o v
  | tl q o =>
    refine envOk_ite ?_ h
    split
    · exact envOk_atTile h (fun _ _ he => he) d _ off
    · exact h
  | tc o => exact envOk_ite h (envOk_atTile h (fun _ _ he => he) d _ off)
  | lf o => exact envOk_atTile h (fun _ _ he => envOk_writeLf he _ o v) d 0 off
  | pd _ | pw _ _ | empty => exact h

theorem envOk_readReg (h : EnvOk e) (d : Dp) (a : Actor) (off : Nat) : EnvOk (readReg e d a off).1 := by
  unfold readReg
  extract_lets l out busy
  refine envOk_ite h ?_
  cases readTile e l with
  | none => exact h
  | some u =>
    cases u with
    | none => exact h
    | some t =>
      have hv := envOk_visit h d t
      refine envOk_ite ?_ h
      simp only
      split
      · exact hv
      · split <;> exact hv

theorem envOk_access (h : EnvOk e) (d : Dp) (x : RegAccess) : EnvOk (access e d x).1 := by
  unfold access
  split
  · exact envOk_writeReg h d _ _ _
  · exact envOk_readReg h d _ _

theorem envOk_servePort (n : Nat) (h : EnvOk e) (d : Dp) : EnvOk (servePort n e d).1 := by
  induction n generalizing e d with
  | zero => exact h
  | succ n ih =>
    unfold servePort
    split
    · exact h
    · exact envOk_ite h (ih (envOk_access h _ _) _)

theorem envOk_portAccess {s : State} (h : EnvOk s.env) (x : RegAccess) : EnvOk (portAccess s x).env := by
  have hy := envOk_servePort s.dp.port.access.length h s.dp
  unfold portAccess
  extract_lets y z
  split
  · exact hy
  · exact envOk_access hy _ x

theorem envOk_portWrite {s : State} (h : EnvOk s.env) (a : Actor) (off : Nat) (v : Word) : EnvOk (portWrite s a off v).env := envOk_portAccess h _

theorem envOk_portRead {s : State} (h : EnvOk s.env) (a : Actor) (off : Nat) : EnvOk (portRead s a off).env := envOk_portAccess h _

/-! ### Every step -/

/-- R441. The cold reset, whatever the integrator fixed. -/
theorem envOk_reset (cfg : Integration) : EnvOk (Env.reset cfg) :=
  envOk_iff.2 (by decide : ClockOk Clock.reset ∧ StopOk Stop.reset ∧ PowerOk Power.reset ∧ RepairOk Repair.reset)

theorem envOk_cycle (h : EnvOk e) (d : Dp) : EnvOk (cycle e d).1 := by
  unfold cycle
  extract_lets x
  refine envOk_servePort _ ?_ _
  exact envOk_ite h (envOk_warmTick (e := { e with clk := { e.clk with cyc := e.clk.cyc + 1 } }) h _)

/-- A state as the outcome of a command that changes no environment, or lets it be. -/
theorem envOk_choice {c : Prop} [Decidable c] {s t : State} (hs : EnvOk s.env) (ht : EnvOk t.env) : EnvOk (if c then s else t).env := by
  split
  · exact hs
  · exact ht

/-- The outcome is no next state whose environment breaks EnvOk. -/
def EnvKept : Host.Outcome State Fault Refusal → Prop
  | .next t => EnvOk t.env
  | .fault _ | .refused _ => True

theorem envKept_ite {c : Prop} [Decidable c] {x y : Host.Outcome State Fault Refusal} (hx : EnvKept x) (hy : EnvKept y) : EnvKept (if c then x else y) := by
  split
  · exact hx
  · exact hy

/-- Every command keeps what the environment keeps to. All but those named here change the data path only. -/
theorem envKept_exec {s : State} (h : EnvOk s.env) (i : Instr) : EnvKept (exec i s) := by
  cases i with
  | alignedReleaseInstant j => exact envOk_choice h h
  | time f err die =>
    cases die with
    | none => exact h
    | some k => exact envOk_choice h h
  | d2dErr die => exact envKept_ite h (envKept_ite h (envKept_ite h h))
  | d2dErrClear die => exact envKept_ite h (envKept_ite h (envKept_ite h h))
  | pause level => exact envKept_ite h (envKept_ite h h)
  | selfTestDone t r => exact envOk_selfTestDone h s.dp t.isLt r
  | fenceUnit r => exact envOk_keeperDesc h (fun d x => envOk_fenceUnit h d x) r 0x52
  | repoint r => exact envOk_keeperDesc h (fun d x => envOk_repoint h d x) r 0x53
  | referenceEdge cycles p => exact envOk_refEdge h s.dp cycles p
  | clockChange => exact envOk_clockChange h s.dp
  | throttle level => exact envOk_switchThrottle (e := { s.env with clk := { s.env.clk with throttle := level } }) h
  | gtStepApply => exact envOk_gtStep h s.dp
  | tpulseInput => exact envOk_pulseIn h
  | tpulseOutput => exact envOk_pulseOut h
  | offsetResult => exact envOk_offsetResult h s.dp
  | tileSleep t => exact envOk_sleepTile h s.dp t.toNat
  | tileWakeHod t => exact envOk_wakeTile h s.dp t.toNat true
  | wakeComparator t => exact envOk_comparator h s.dp t.toNat
  | globalStopPin => exact envOk_pinStop h s.dp
  | goAtReached => exact envOk_goReached h s.dp
  | quietCommit f => exact envOk_quietCommit h s.dp f
  | tilesReady => exact envOk_tilesReady h s.dp
  | coldReset => exact envOk_reset s.env.cfg
  | powerFailWarning => exact envOk_powerFail h s.dp
  | dbLoWrite a o v => exact envOk_portWrite h a _ v
  | doorbellSubmit a o v => exact envOk_portWrite h a _ v
  | doorbellCmplHead a o v => exact envOk_portWrite h a _ v
  | doorbellIncHead a o v => exact envOk_portWrite h a _ v
  | resume a o v => exact envOk_portWrite h a _ v
  | kpStopStop v | kpStopGo v | kpCtlEnable v | kpCtlWarm v | kpGtStepHi v | lfTctlStart v | kpRepairRemeasure v | kpRowfix v
  | tcCtlTrig v | tcCtlRearm v | tcCtlResume v | tcCtlFlush v | tcCtlClrctr v | tcMarkHi v | tcCsel v => exact envOk_portWrite h keeperActor _ v
  | pdPctlReset p v => exact envOk_portWrite h keeperActor _ v
  | pwObsctlClear a p v => exact envOk_portWrite h a _ v
  | pwObsctlResume a p v => exact envOk_portWrite h a _ v
  | pairLoWrite a off v => exact envOk_portWrite h a _ v
  | lfKeyWrite a off v => exact envOk_portWrite h a _ v
  | registerWrite a off v => exact envOk_portWrite h a _ v
  | pwCtrShadowRead a p => exact envOk_portRead h a _
  | pairLoRead a off => exact envOk_portRead h a _
  | _ => exact h

/-- Settles O58: an idle cycle moves the clock and serves the register port, and each command keeps the clock, the stop, the power states and the repair map in order. -/
theorem environmentInvariant : Obligations.EnvironmentInvariant := by
  unfold Obligations.EnvironmentInvariant
  intro s t h hstep
  have hkept : EnvKept (step s) := by
    unfold step
    split
    · exact envOk_cycle h s.dp
    · next c rest _ => exact envKept_exec (s := { s with pending := rest }) h c
  rw [hstep] at hkept
  exact hkept

end Sys2Proof.Machine
end

section
/-! Branch routers (R32, R33, R198): what an entry of the tree holds after an arrival, and what the router sends on. -/

namespace Sys2Proof.Machine

open Sys2Proof.Safety

/-! ### Entries of the tree -/

/-- R32. Entry c is that of router r in the tree of brick i in force. -/
def treeEntry (r i : Nat) (c : Comb) : Bool := c.router == r && c.index == i && !c.waiting

theorem treeEntry_iff {r i : Nat} {c : Comb} : treeEntry r i c = true ↔ c.router = r ∧ c.index = i ∧ c.waiting = false := by
  simp [treeEntry, and_assoc]

/-- R32. The entries with c in the place of those of router r and brick i. -/
def treePut (r i : Nat) (c : Comb) (l : List Comb) : List Comb := l.map (fun y => if y.router = r && y.index = i && !y.waiting then c else y)

/-- R32. The entries with that of c emptied for its next course. -/
def treeClear (c : Comb) (l : List Comb) : List Comb :=
  l.map (fun y => if y.router = c.router && y.index = c.index && y.waiting = c.waiting then { y with got := 0, acc := none } else y)

/-- A change that no test of the search sees changes what is found. -/
theorem find?_map_of_same {α : Type} {p : α → Bool} {f : α → α} {l : List α} {x : α} (hf : ∀ y, p (f y) = p y) (h : l.find? p = some x) :
    (l.map f).find? p = some (f x) := by
  rw [List.find?_map, show p ∘ f = p from funext hf, h]
  rfl

theorem find?_treePut {r i : Nat} {c x : Comb} {l : List Comb} (hx : treeEntry r i x = true) (h : l.find? (treeEntry r i) = some c) :
    (treePut r i x l).find? (treeEntry r i) = some x := by
  have hsame : ∀ y : Comb, treeEntry r i (if y.router = r && y.index = i && !y.waiting then x else y) = treeEntry r i y := by
    intro y
    split
    · next hy => rw [hx]; simpa [treeEntry] using hy.symm
    · rfl
  have hc : treeEntry r i c = true := List.find?_some h
  refine (find?_map_of_same hsame h).trans ?_
  rw [if_pos (by simpa [treeEntry] using hc)]

theorem find?_treeClear {r i : Nat} {c : Comb} {l : List Comb} (h : l.find? (treeEntry r i) = some c) :
    (treeClear c l).find? (treeEntry r i) = some { c with got := 0, acc := none } := by
  refine (find?_map_of_same (fun y => ?_) h).trans (by simp)
  split <;> rfl

/-! ### What a branch router does -/

/-- R28, R33. A hod that is passed on keeps its source and channel, and counters are all that changes beside the net. -/
theorem passOn_frame (e : Env) (d : Dp) (h : Hod) (r : Nat) (dst : Port) (body : HodBody) :
    ∃ g k, g.src = h.src ∧ g.dst = dst ∧ g.vc = h.vc ∧ g.body = body ∧ passOn e d h r dst body = { d with net := d.net ++ [g], obs := { d.obs with kctr := k } } := by
  obtain ⟨m, hm⟩ := countPorts_frame e h.vc body.hods body.flits (hodPorts e (.router r) dst body) d
  unfold passOn
  rw [hm]
  refine ⟨_, m, ?_, ?_, ?_, ?_, rfl⟩ <;> rfl

/-- R32. An entry whose subtree is not complete sends nothing. -/
theorem combSend_waits {e : Env} {d : Dp} {c : Comb} {a : Arrival} {p : BitVec 4} (h : c.got + c.before < c.expect) : combSend e d c a p = d :=
  if_pos (.inr h)

/-- R32. An entry whose subtree is complete sends one hod with its count and partial, and empties. -/
theorem combSend_complete {e : Env} {d : Dp} {c : Comb} {a : Arrival} {p : BitVec 4} (hgot : c.got ≠ 0) (h : c.expect ≤ c.got + c.before) :
    combSend e d c a p = send e { d with comb := treeClear c d.comb } (.router c.router) c.up .req p (.arrival { a with count := c.got, pay := c.pay d }) :=
  if_neg (by omega)

variable {e : Env} {d : Dp} {h : Hod} {r : Nat} {a : Arrival} {c : Comb}

/-- Log 48. An arrival of another course is dropped. -/
theorem combTake_otherCourse (hb : h.body = .arrival a) (hc : d.comb.find? (treeEntry r a.index) = some c) (hk : a.course ≠ c.course) : combTake e d h r = d := by
  have hc : d.comb.find? (fun c => c.router == r && c.index == a.index && !c.waiting) = some c := hc
  unfold combTake
  rw [hb]
  simp [hc, hk]

/-- R198. Under a grout whose partials routers do not combine the arrival goes on as it is. -/
theorem combTake_passes {g : GCfg} (hb : h.body = .arrival a) (hc : d.comb.find? (treeEntry r a.index) = some c) (hk : a.course = c.course)
    (hg : (barrierOf d a.index).bind Barrier.cfg = some g) (hr : g.routers = false) :
    combTake e d h r = passOn e d h r (.tile (homeOf e a.index)) (.arrival a) := by
  have hc : d.comb.find? (fun c => c.router == r && c.index == a.index && !c.waiting) = some c := hc
  unfold combTake
  rw [hb]
  simp [hc, hk, hg, hr]

/-- R32. Without grout the entry counts the arrival. -/
theorem combTake_counts (hb : h.body = .arrival a) (hc : d.comb.find? (treeEntry r a.index) = some c) (hk : a.course = c.course)
    (hg : (barrierOf d a.index).bind Barrier.cfg = none) :
    combTake e d h r = (let x := { c with got := c.got + a.count }; combSend e { d with comb := treePut r a.index x d.comb } x a h.part) := by
  have hc : d.comb.find? (fun c => c.router == r && c.index == a.index && !c.waiting) = some c := hc
  unfold combTake
  rw [hb]
  simp only [hc, hk, hg, ne_eq, not_true_eq_false, if_false]
  rfl

/-- R33, R198. Under a grout whose partials routers combine the entry counts the arrival and combines its partial. -/
theorem combTake_combines {g : GCfg} (hb : h.body = .arrival a) (hc : d.comb.find? (treeEntry r a.index) = some c) (hk : a.course = c.course)
    (hg : (barrierOf d a.index).bind Barrier.cfg = some g) (hr : g.routers = true) :
    combTake e d h r = (let x := { c with got := c.got + a.count, acc := some (Acc.merge g (c.acc.getD (Acc.zero g)) (payAcc g none a.pay)) }
      combSend e { d with comb := treePut r a.index x d.comb } x a h.part) := by
  have hc : d.comb.find? (fun c => c.router == r && c.index == a.index && !c.waiting) = some c := hc
  unfold combTake
  rw [hb]
  simp only [hc, hk, hg, hr, ne_eq, not_true_eq_false, Bool.not_true, Bool.false_eq_true, if_false]
  rfl

/-! ### The command -/

/-- R32. BRANCH_COMBINE of a hod at its router. -/
theorem exec_branchCombine {s : State} {n : Nat} (ht : takeable s.env s.dp n = some h) (hd : h.dst = .router r) :
    exec (.branchCombine n) s = .next { s with dp := combTake s.env (dropHod s.dp n) h r } := by
  have hr : routerHod s.env s.dp n = combTake s.env (dropHod s.dp n) h r := by
    unfold routerHod
    rw [ht]
    simp [hd]
  exact congrArg (fun d => Host.Outcome.next { s with dp := d }) hr

/-- R32. The entry with x in it and the subtree not complete: nothing else changes. -/
theorem combined_waits {x : Comb} {p : BitVec 4} (hx : treeEntry r a.index x = true) (hc : d.comb.find? (treeEntry r a.index) = some c)
    (h : x.got + x.before < x.expect) :
    let d2 := combSend e { d with comb := treePut r a.index x d.comb } x a p
    d2.bricks = d.bricks ∧ d2.net = d.net ∧ d2.comb.find? (treeEntry r a.index) = some x := by
  rw [combSend_waits h]
  exact ⟨rfl, rfl, find?_treePut hx hc⟩

/-- R32, R33. The entry with x in it completes its subtree: one hod goes up, and the entry is empty. -/
theorem combined_sends {x : Comb} {p : BitVec 4} (hx : treeEntry r a.index x = true) (hc : d.comb.find? (treeEntry r a.index) = some c)
    (hgot : x.got ≠ 0) (h : x.expect ≤ x.got + x.before) :
    let d2 := combSend e { d with comb := treePut r a.index x d.comb } x a p
    d2.bricks = d.bricks ∧ posts d2.net = posts d.net ++ [(.router r, x.up, .req, .arrival { a with count := x.got, pay := x.pay d })]
      ∧ d2.comb.find? (treeEntry r a.index) = some { x with got := 0, acc := none } := by
  obtain ⟨rfl, -, -⟩ := treeEntry_iff.1 hx
  rw [combSend_complete hgot h]
  refine ⟨send_bricks .., posts_send .., ?_⟩
  rw [send_comb]
  exact find?_treeClear (find?_treePut hx hc)

/-- Settles O19: each arrival is dropped, passed on or added to its entry, which then waits or sends. -/
theorem branchCombineSums : Obligations.BranchCombineSums := by
  unfold Obligations.BranchCombineSums
  intro s n r h a c ht hd hb hc
  have hc : (dropHod s.dp n).comb.find? (treeEntry r a.index) = some c := hc
  have hentry : treeEntry r a.index c = true := List.find?_some hc
  obtain ⟨-, hindex, -⟩ := treeEntry_iff.1 hentry
  rw [exec_branchCombine ht hd]
  refine ⟨fun hk => ?other, fun g hg hk hpos => ⟨fun hr => ?passes, fun hr hmore => ?combines, fun hr hfull => ?sendsPartial⟩,
    fun hg hk hpos => ⟨fun hmore => ?counts, fun hfull hacc => ?sends⟩⟩
  case other => rw [combTake_otherCourse hb hc hk]
  case passes =>
    refine ⟨_, rfl, rfl, ?_⟩
    rw [combTake_passes hb hc hk hg hr]
    obtain ⟨f, k, hsrc, hdst, hvc, hbody, hp⟩ := passOn_frame s.env (dropHod s.dp n) h r (.tile (homeOf s.env a.index)) (.arrival a)
    rw [hp]
    exact ⟨rfl, rfl, by simp [posts, hsrc, hdst, hvc, hbody]⟩
  case combines =>
    rw [combTake_combines hb hc hk hg hr]
    exact ⟨_, rfl, rfl, combined_waits hentry hc hmore⟩
  case sendsPartial =>
    rw [combTake_combines hb hc hk hg hr]
    obtain ⟨hbricks, hposts, hcomb⟩ := combined_sends (e := s.env) (p := h.part)
      (x := { c with got := c.got + a.count, acc := some (Acc.merge g (c.acc.getD (Acc.zero g)) (payAcc g none a.pay)) }) hentry hc
      (by simp only; omega) hfull
    refine ⟨_, rfl, rfl, hbricks, ?_, hcomb⟩
    rw [hposts]
    have hg : (barrierOf (dropHod s.dp n) c.index).bind Barrier.cfg = some g := hindex ▸ hg
    simp [Comb.pay, hg]
  case counts =>
    rw [combTake_counts hb hc hk hg]
    exact ⟨_, rfl, rfl, combined_waits hentry hc hmore⟩
  case sends =>
    rw [combTake_counts hb hc hk hg]
    obtain ⟨hbricks, hposts, hcomb⟩ := combined_sends (e := s.env) (p := h.part) (x := { c with got := c.got + a.count }) hentry hc
      (by simp only; omega) hfull
    refine ⟨_, rfl, rfl, hbricks, ?_, ?_⟩
    · rw [hposts]
      simp [Comb.pay, hacc]
    · rw [← hacc] at hcomb
      exact hcomb

end Sys2Proof.Machine
end

section
/-! Fetches and write-backs (R23, R64, R67, R373): what an access to the backing store changes, and what becomes of the fetch or write-back that it was for. -/

namespace Sys2Proof.Machine

open Sys2Proof.Safety

/-! ### What accesses to the backing store change -/

/-- What tiles change beside the records: their own state, counters, and requests at the memory port behind those before. -/
abbrev StoreFrame (d d2 : Dp) : Prop := ∃ ts o l, d2 = { d with tiles := ts, obs := o, port := { d.port with mem := d.port.mem ++ l } }

theorem StoreFrame.of_tiles (d : Dp) (ts : FMap Tile) (o : Obs) : StoreFrame d { d with tiles := ts, obs := o } := ⟨ts, o, [], by simp⟩

theorem StoreFrame.refl (d : Dp) : StoreFrame d d := StoreFrame.of_tiles d d.tiles d.obs

theorem StoreFrame.trans {a b c : Dp} (h : StoreFrame a b) (g : StoreFrame b c) : StoreFrame a c := by
  obtain ⟨_, _, l, rfl⟩ := h
  obtain ⟨ts, o, m, rfl⟩ := g
  exact ⟨ts, o, l ++ m, by simp⟩

theorem StoreFrame.setTile (d : Dp) (t : Nat) (x : Tile) : StoreFrame d (setTile d t x) := StoreFrame.of_tiles d _ d.obs

theorem StoreFrame.bumpT (e : Env) (d : Dp) (t c : Nat) : StoreFrame d (bumpT e d t c) := by
  obtain ⟨m, h⟩ := bumpT_frame e d t c
  rw [h]
  exact StoreFrame.of_tiles d d.tiles _

theorem StoreFrame.memWrite (d : Dp) (c : Nat) (a : Dword) (l v : Nat) : StoreFrame d (memWrite d c a l v) := ⟨d.tiles, d.obs, _, rfl⟩

theorem StoreFrame.memRead (d : Dp) (c : Nat) (a : Dword) (l : Nat) : StoreFrame d (memRead d c a l) := ⟨d.tiles, d.obs, _, rfl⟩

theorem StoreFrame.trace (e : Env) (d : Dp) (t : Nat) (g : Option Nat) (r : TRec) : StoreFrame d (trace e d t g r) := by
  obtain ⟨⟨ts, k, p, h⟩, -⟩ := trace_frame e d t g r
  rw [h]
  exact StoreFrame.of_tiles d ts _

theorem StoreFrame.writeBack (e : Env) (d : Dp) (t i : Nat) : StoreFrame d (writeBack e d t i) := by
  unfold Machine.writeBack
  extract_lets x d2
  have h2 : StoreFrame d d2 := by
    unfold d2
    split
    · exact StoreFrame.refl d
    · exact StoreFrame.setTile d t _
  exact h2.trans (StoreFrame.memWrite d2 _ _ _ _)

theorem StoreFrame.touchSlot (d : Dp) (t : Nat) (r : SlotRef) (dirty : Bool) : StoreFrame d (touchSlot d t r dirty) := by
  obtain ⟨l, h⟩ := touchSlot_frame d t r dirty
  exact h ▸ StoreFrame.setTile d t _

theorem StoreFrame.bricks {d d2 : Dp} (h : StoreFrame d d2) : d2.bricks = d.bricks := by
  obtain ⟨_, _, _, rfl⟩ := h
  rfl

theorem StoreFrame.stripes {d d2 : Dp} (h : StoreFrame d d2) : d2.stripes = d.stripes := by
  obtain ⟨_, _, _, rfl⟩ := h
  rfl

theorem StoreFrame.free {d d2 : Dp} (h : StoreFrame d d2) : d2.free = d.free := by
  obtain ⟨_, _, _, rfl⟩ := h
  rfl

theorem StoreFrame.net {d d2 : Dp} (h : StoreFrame d d2) : d2.net = d.net := by
  obtain ⟨_, _, _, rfl⟩ := h
  rfl

theorem StoreFrame.inc {d d2 : Dp} (h : StoreFrame d d2) : d2.inc = d.inc := by
  obtain ⟨_, _, _, rfl⟩ := h
  rfl

theorem StoreFrame.mem {d d2 : Dp} (h : StoreFrame d d2) {m : MemW} (hm : m ∈ d.port.mem) : m ∈ d2.port.mem := by
  obtain ⟨_, _, _, rfl⟩ := h
  exact List.mem_append_left _ hm

theorem StoreFrame.brickOf {d d2 : Dp} (h : StoreFrame d d2) (i : Nat) : brickOf d2 i = brickOf d i := by rw [Machine.brickOf, h.bricks, Machine.brickOf]

/-! ### Slots and fetches of a tile -/

variable {e : Env} {d d2 : Dp} {t i : Nat} {f : Fetch}

/-- Tile t holds the same slots, and the same fetches, as before. -/
abbrev SameWork (d d2 : Dp) (t : Nat) : Prop := (tileOf d2 t).slots = (tileOf d t).slots ∧ (tileOf d2 t).fetches = (tileOf d t).fetches

theorem sameWork_dropWback (d : Dp) (t i : Nat) : SameWork d (dropWback d t i) t := by
  constructor <;> simp [dropWback]

theorem sameWork_stillBusy (e : Env) (d : Dp) (t : Nat) : SameWork d (stillBusy e d t) t := by
  constructor <;> simp [stillBusy]

theorem SameWork.trans {a b c : Dp} (h : SameWork a b t) (g : SameWork b c t) : SameWork a c t := ⟨g.1.trans h.1, g.2.trans h.2⟩

theorem sameWork_trace (e : Env) (d : Dp) (t : Nat) (g : Option Nat) (r : TRec) : SameWork d (trace e d t g r) t := by
  obtain ⟨-, htile⟩ := trace_frame e d t g r
  obtain ⟨b, hb⟩ := htile t
  rw [SameWork, hb]
  exact ⟨rfl, rfl⟩

theorem writeBack_fetches (e : Env) (d : Dp) (t i : Nat) : (tileOf (writeBack e d t i) t).fetches = (tileOf d t).fetches := by
  unfold writeBack
  extract_lets x d2
  have h2 : (tileOf d2 t).fetches = (tileOf d t).fetches := by
    unfold d2
    split
    · rfl
    · simp [x]
  exact h2

theorem takeFirst_eq_none {α : Type} {p : α → Bool} {l : List α} (h : l.any p = false) : takeFirst p l = none := by
  induction l with
  | nil => rfl
  | cons y l ih =>
    rw [List.any_cons, Bool.or_eq_false_iff] at h
    simp [takeFirst, h.1, ih h.2]

/-- A slot that is used stands in its tile, clean where it is new and the use changes nothing. -/
theorem touchSlot_resident (d : Dp) (t : Nat) (r : SlotRef) (dirty : Bool) :
    resident (touchSlot d t r dirty) t r = true ∧ (resident d t r = false → (r, dirty) ∈ (tileOf (touchSlot d t r dirty) t).slots)
      ∧ (tileOf (touchSlot d t r dirty) t).fetches = (tileOf d t).fetches := by
  unfold touchSlot
  extract_lets x
  split
  · next q old rest htake =>
    refine ⟨by simp [resident], fun hnot => ?_, by simp [x]⟩
    rw [takeFirst_eq_none hnot] at htake
    cases htake
  · refine ⟨by simp [resident], fun _ => by simp, by simp [x]⟩

/-! ### The record that a fetch brings (R64) -/

/-- R64. What a written record makes of brick i of tile t; without one it stays as it is. -/
def filledBrick (e : Env) (d : Dp) (t i : Nat) (record : Option (BitVec 512)) : Brick :=
  match record with
  | some w =>
    let b := (brickOf d i).ofRecord (queueFrom e d t w) w
    b.keepStray (stripeOf (readStripe (setBrick d i b) i w) i 0) w
  | none => brickOf d i

/-- Stripes, records and the next free value are all that a record changes. -/
theorem readStripe_frame (d : Dp) (i : Nat) (w : BitVec 512) : ∃ ss n, readStripe d i w = { d with stripes := ss, free := n } := by
  unfold readStripe
  split
  · exact ⟨d.stripes, d.free, rfl⟩
  · split <;> exact ⟨_, _, rfl⟩

theorem readRecord_frame (e : Env) (d : Dp) (t i : Nat) (record : Option (BitVec 512)) :
    ∃ bs ss n, readRecord e d t i record = { d with bricks := bs, stripes := ss, free := n } := by
  cases record with
  | none => exact ⟨d.bricks, d.stripes, d.free, rfl⟩
  | some w =>
    obtain ⟨ss, n, h⟩ := readStripe_frame (setBrick d i ((brickOf d i).ofRecord (queueFrom e d t w) w)) i w
    unfold readRecord
    simp only [h]
    exact ⟨_, ss, n, rfl⟩

theorem brickOf_readRecord (e : Env) (d : Dp) (t i k : Nat) (record : Option (BitVec 512)) :
    brickOf (readRecord e d t i record) k = if k = i then filledBrick e d t i record else brickOf d k := by
  cases record with
  | none => split <;> simp_all [readRecord, filledBrick]
  | some w =>
    obtain ⟨ss, n, h⟩ := readStripe_frame (setBrick d i ((brickOf d i).ofRecord (queueFrom e d t w) w)) i w
    have hb : ∀ k, brickOf (readStripe (setBrick d i ((brickOf d i).ofRecord (queueFrom e d t w) w)) i w) k
        = brickOf (setBrick d i ((brickOf d i).ofRecord (queueFrom e d t w) w)) k := fun k => by rw [h]; rfl
    unfold readRecord filledBrick
    simp only [brickOf_setBrick, hb, if_true]
    split <;> rfl

/-- Table 5.2. Stripe 0 as the record says, with the next free values for tokens. -/
theorem stripeOf_readStripe (d : Dp) (i : Nat) (w : BitVec 512) :
    stripeOf (readStripe d i w) i 0
      = if recField w 0 3 != 3 then stripeOf d i 0 else if !w.getLsbD 128 then none else some (Stripe.ofRecord w (recField w 32 5) d.free) := by
  unfold readStripe
  split
  · rfl
  · split
    · simp [stripeOf]
    · simp [stripeOf, setStripe]

/-- The record says the same whatever else than records, stripes and free values has changed. -/
theorem filledBrick_congr (hb : d2.bricks = d.bricks) (hs : d2.stripes = d.stripes) (hf : d2.free = d.free) (e : Env) (t i : Nat) (record : Option (BitVec 512)) :
    filledBrick e d2 t i record = filledBrick e d t i record := by
  have hold : brickOf d2 i = brickOf d i := by rw [brickOf, hb, brickOf]
  cases record with
  | none => exact hold
  | some w =>
    have hq : queueFrom e d2 t w = queueFrom e d t w := by rw [queueFrom, hb, queueFrom]
    simp only [filledBrick, hold, hq, stripeOf_readStripe]
    simp only [stripeOf, setBrick, hs, hf]

/-! ### Issue (R67, R68) -/

theorem makeRoom_frame (h : makeRoom e d t = some d2) : StoreFrame d d2 ∧ (tileOf d2 t).fetches = (tileOf d t).fetches := by
  unfold makeRoom at h
  extract_lets x at h
  split at h
  · cases h
    exact ⟨StoreFrame.refl d, rfl⟩
  · split at h
    · cases h
    · next r dirty rest _ =>
      extract_lets d1 at h
      have h1 : StoreFrame d d1 ∧ (tileOf d1 t).fetches = (tileOf d t).fetches := ⟨StoreFrame.setTile d t _, by simp [d1, x]⟩
      split at h
      · obtain rfl := Option.some.inj h
        refine ⟨h1.1.trans ((StoreFrame.writeBack e d1 t _).trans (StoreFrame.bumpT e _ t 11)), ?_⟩
        rw [tileOf, bumpT_tiles]
        exact (writeBack_fetches e d1 t _).trans h1.2
      · obtain rfl := Option.some.inj h
        exact h1

theorem issueFetch_idle (h : (tileOf d t).fetches.find? (Fetch.mayIssue d t) = none) : issueFetch e d t = d := by
  unfold issueFetch
  rw [h]

/-- R67, R68. The room that an issued fetch takes. -/
def issueRoom (e : Env) (d : Dp) (t : Nat) (f : Fetch) : Option Dp := if f.victim.isSome then some d else makeRoom e d t

theorem issueRoom_frame (h : issueRoom e d t f = some d2) : StoreFrame d d2 ∧ (tileOf d2 t).fetches = (tileOf d t).fetches := by
  unfold issueRoom at h
  split at h
  · cases h
    exact ⟨StoreFrame.refl d, rfl⟩
  · exact makeRoom_frame h

/-- R67, R68. What the issue of a fetch changes, whether one is issued or none. -/
theorem StoreFrame.issueFetch (e : Env) (d : Dp) (t : Nat) : StoreFrame d (issueFetch e d t) := by
  unfold Machine.issueFetch
  split
  · exact StoreFrame.refl d
  · next f _ =>
    split
    · exact StoreFrame.refl d
    · split
      · exact StoreFrame.refl d
      · next d2 hroom =>
        obtain ⟨hframe, -⟩ := issueRoom_frame (f := f) hroom
        exact (hframe.trans (StoreFrame.memRead d2 _ _ _)).trans (StoreFrame.setTile _ t _)

/-- R67, R68. The first waiting fetch is issued where its slot has room and fewer than 64 are out. -/
theorem issueFetch_issues (hf : (tileOf d t).fetches.find? (Fetch.mayIssue d t) = some f) (hout : issuedFetches d t < Config.fetchLimit)
    (hroom : issueRoom e d t f = some d2) : ∃ g ∈ (tileOf (issueFetch e d t) t).fetches, g.index = f.index ∧ g.issued = true := by
  obtain ⟨-, hfetches⟩ := issueRoom_frame hroom
  have hany : (tileOf d2 t).fetches.any (fun g => g.index == f.index) = true := by
    rw [hfetches]
    exact List.any_eq_true.2 ⟨f, List.mem_of_find?_eq_some hf, by simp⟩
  obtain ⟨g, -, hg, hmem⟩ := mem_modFirst_of_any (fun g => g.index == f.index)
    (fun (g : Fetch) => { g with issued := true, victim := g.victim.or (newVictim d (memRead d2 16 (e.kp.bsBase + BitVec.ofNat 64 (64 * f.index)) 64) t) }) _ hany
  have hroom : (if f.victim.isSome then some d else makeRoom e d t) = some d2 := hroom
  unfold issueFetch
  simp only [hf, hroom, ge_iff_le, Nat.not_le_of_lt hout, if_false, tileOf_setTile]
  exact ⟨_, hmem, by simpa using hg, rfl⟩

/-! ### Fetches that are filled or held (R23, R373) -/

theorem StoreFrame.dropWback (d : Dp) (t i : Nat) : StoreFrame d (dropWback d t i) := StoreFrame.setTile d t _

/-- R67. The end of a write-back leaves slots and fetches. -/
theorem dropWback_frame (h : StoreFrame d d2 ∧ SameWork d d2 t) (i : Nat) : StoreFrame d (dropWback d2 t i) ∧ SameWork d (dropWback d2 t i) t :=
  ⟨h.1.trans (StoreFrame.dropWback d2 t i), h.2.trans (sameWork_dropWback d2 t i)⟩

theorem tileOf_readRecord (e : Env) (d : Dp) (t i k : Nat) (record : Option (BitVec 512)) : tileOf (readRecord e d t i record) k = tileOf d k := by
  obtain ⟨_, _, _, h⟩ := readRecord_frame e d t i record
  rw [h]
  rfl

/-- R67. No fetch of tile t may go out where each has gone out before. -/
theorem issueFetch_of_issued (h : ∀ g ∈ (tileOf d t).fetches, g.issued = true) : issueFetch e d t = d :=
  issueFetch_idle (List.find?_eq_none.2 (fun g hg => by simp [Fetch.mayIssue, h g hg]))

/-- R23, R64, R67. A filled fetch on which nothing is parked, where no other fetch waits: the record is read, and the brick is resident and clean. -/
theorem fillFetch_unparked {record : Option (BitVec 512)} (hlost : (brickOf d i).lost = none) (hparked : f.parked = [])
    (hothers : ∀ g ∈ (tileOf d t).fetches, g.index ≠ i → g.issued = true) :
    ∃ d2, StoreFrame d d2 ∧ StoreFrame (readRecord e d2 t i record) (fillFetch e d t i f record)
      ∧ resident (fillFetch e d t i f record) t (.brick i) = true
      ∧ (resident d t (.brick i) = false → (.brick i, false) ∈ (tileOf (fillFetch e d t i f record) t).slots)
      ∧ ∀ g ∈ (tileOf (fillFetch e d t i f record) t).fetches, g.index ≠ i := by
  unfold fillFetch
  extract_lets x d1 d2 d3 d4
  obtain ⟨hframe1, hslots1, hfetches1⟩ : StoreFrame d d1 ∧ (tileOf d1 t).slots = (tileOf d t).slots
      ∧ (tileOf d1 t).fetches = (tileOf d t).fetches.filter (fun g => g.index != i) := by
    obtain ⟨hs, hf⟩ := sameWork_stillBusy e (setTile d t { x with fetches := x.fetches.filter (fun g => g.index != i) }) t
    exact ⟨(StoreFrame.setTile d t _).trans (StoreFrame.setTile _ t _), by rw [hs]; simp [x], by rw [hf]; simp [x]⟩
  obtain ⟨hframe2, hslots2, hfetches2⟩ : StoreFrame d1 d2 ∧ SameWork d1 d2 t := by
    have h0 : StoreFrame d1 d1 ∧ SameWork d1 d1 t := ⟨StoreFrame.refl d1, rfl, rfl⟩
    refine dropWback_frame ?_ i
    split
    · exact dropWback_frame h0 _
    · exact h0
  have hframe2 : StoreFrame d d2 := hframe1.trans hframe2
  have hd3 : d3 = touchSlot (readRecord e d2 t i record) t (.brick i) false := if_neg (by simp [hframe2.brickOf, hlost])
  obtain ⟨hres, hclean, hfetches3⟩ := touchSlot_resident (readRecord e d2 t i record) t (.brick i) false
  obtain ⟨hslots4, hfetches4⟩ := sameWork_trace e d3 t (some 4) (fetchRec e d3 t i 0x07 (waitNs (tileGt e t) f.start))
  have hfetches : (tileOf d4 t).fetches = (tileOf d t).fetches.filter (fun g => g.index != i) := by
    rw [hfetches4, hd3, hfetches3, tileOf_readRecord, hfetches2, hfetches1]
  have hslots : (tileOf d4 t).slots = (tileOf (touchSlot (readRecord e d2 t i record) t (.brick i) false) t).slots := by rw [hslots4, hd3]
  have hidle : issueFetch e (f.parked.foldl (runParked e t i) d4) t = d4 := by
    rw [hparked]
    refine issueFetch_of_issued (fun g hg => ?_)
    rw [List.foldl_nil, hfetches] at hg
    exact hothers g (List.mem_of_mem_filter hg) (by simpa using (List.mem_filter.1 hg).2)
  rw [hidle]
  refine ⟨d2, hframe2, ?_, ?_, fun hnot => ?_, fun g hg => ?_⟩
  · exact (hd3 ▸ StoreFrame.touchSlot _ t _ _ : StoreFrame (readRecord e d2 t i record) d3).trans (StoreFrame.trace e d3 t _ _)
  · rw [resident, hslots]
    exact hres
  · rw [hslots]
    refine hclean ?_
    rw [resident, tileOf_readRecord, hslots2, hslots1]
    exact hnot
  · rw [hfetches] at hg
    simpa using (List.mem_filter.1 hg).2

/-- The bricks after a fetch is filled, as the record before it said, and the reports. -/
theorem filled_bricks {d3 : Dp} {record : Option (BitVec 512)} (h : StoreFrame d d2) (h3 : StoreFrame (readRecord e d2 t i record) d3) :
    brickOf d3 i = filledBrick e d t i record ∧ (∀ k, k ≠ i → brickOf d3 k = brickOf d k) ∧ d3.inc = d.inc := by
  have hfill : filledBrick e d2 t i record = filledBrick e d t i record := filledBrick_congr h.bricks h.stripes h.free e t i record
  refine ⟨?_, fun k hk => ?_, ?_⟩
  · rw [h3.brickOf, brickOf_readRecord, if_pos rfl, hfill]
  · rw [h3.brickOf, brickOf_readRecord, if_neg hk, h.brickOf]
  · obtain ⟨_, _, _, hr⟩ := readRecord_frame e d2 t i record
    rw [h3.inc, hr]
    exact h.inc

/-- R373. A held fetch stays, with the instant at which it was held. -/
theorem holdFetch_held (h : (tileOf d t).fetches.any (fun g => g.index == i) = true) :
    ∃ g ∈ (tileOf (holdFetch e d t i) t).fetches, g.index = i ∧ g.heldAt = some (gtInterp e) := by
  obtain ⟨g, -, hg, hmem⟩ := mem_modFirst_of_any _ (fun (g : Fetch) => { g with heldAt := some (gtInterp e) }) _ h
  unfold holdFetch
  rw [tileOf_setTile]
  exact ⟨_, hmem, by simpa using hg, rfl⟩

/-- R373. A held write-back stays, with the instant at which it was held. -/
theorem holdWback_held (h : (tileOf d t).wbacks.any (fun w => w.1 == i) = true) :
    (i, some (gtInterp e)) ∈ (tileOf (holdWback e d t i) t).wbacks := by
  obtain ⟨w, -, hw, hmem⟩ := mem_modFirst_of_any _ (fun (w : Nat × Option Dword) => (w.1, some (gtInterp e))) _ h
  unfold holdWback
  rw [tileOf_setTile]
  exact (by simpa using hw : w.1 = i) ▸ hmem

/-- R373. A BACKSTORE report stands among the reports of its tile. -/
theorem backstoreReport_reports (e : Env) (d : Dp) (t : Nat) (addr : Dword) :
    ∃ r ∈ (backstoreReport e d t addr).inc.reports, r.1 = .tile t ∧ r.2.key.kind = .backstore := by
  obtain ⟨q, hq, hsrc, hkey⟩ := report_buffered e d (.tile t) { mkReport e (mkKey e 0 0 .backstore) none with d0 := addr } (by change IncClass.fatal ≠ .notice; decide)
  exact ⟨q, hq, hsrc, by rw [hkey]; rfl⟩

theorem backstoreReport_bricks (e : Env) (d : Dp) (t : Nat) (addr : Dword) : (backstoreReport e d t addr).bricks = d.bricks := report_bricks ..

theorem backstoreReport_net (e : Env) (d : Dp) (t : Nat) (addr : Dword) : (backstoreReport e d t addr).net = d.net := report_net ..

theorem tileOf_backstoreReport (e : Env) (d : Dp) (t k : Nat) (addr : Dword) : tileOf (backstoreReport e d t addr) k = tileOf d k := by
  rw [tileOf, backstoreReport, report_tiles, tileOf]

theorem brickOf_backstoreReport (e : Env) (d : Dp) (t k : Nat) (addr : Dword) : brickOf (backstoreReport e d t addr) k = brickOf d k := by
  rw [brickOf, backstoreReport_bricks, brickOf]

/-! ### Answers of the memory port and retries -/

theorem tileHears_of_serves (h : tileServes e d t = true) : tileHears e d t = true ∧ e.stop.stopped = false := by
  simp only [tileServes, Bool.and_eq_true, Bool.not_eq_true'] at h
  obtain ⟨⟨⟨⟨⟨hav, htest⟩, -⟩, hready⟩, hstop⟩, hpf⟩ := h
  exact ⟨by simp [tileHears, hav, htest, hready, hpf], hstop⟩

section
variable {addr : Dword} {record : Option (BitVec 512)}

/-- The fetch of brick i that is out. -/
def outFetch (d : Dp) (t i : Nat) : Option Fetch := (tileOf d t).fetches.find? (fun f => f.index == i && f.issued && f.heldAt.isNone && f.got.isNone)

/-- R373. The held fetch of brick i whose retry is due. -/
def dueFetch (e : Env) (d : Dp) (t i : Nat) : Option Fetch := (tileOf d t).fetches.find? (fun f => f.index == i && retryDue e f.heldAt)

theorem fetchDone_out (hs : tileServes e d (homeOf e i) = true) (hf : outFetch d (homeOf e i) i = some f) (fault : Bool) :
    fetchDone e d i fault addr record
      = if fault then backstoreReport e (holdFetch e d (homeOf e i) i) (homeOf e i) addr else fillFetch e d (homeOf e i) i f record := by
  obtain ⟨hhears, hstop⟩ := tileHears_of_serves hs
  unfold outFetch at hf
  unfold fetchDone
  simp [hhears, hf, hstop]

theorem fetchDone_wback (hs : tileServes e d (homeOf e i) = true) (hf : outFetch d (homeOf e i) i = none)
    (hw : (tileOf d (homeOf e i)).wbacks.any (fun w => w.1 == i && w.2.isNone) = true) (fault : Bool) :
    fetchDone e d i fault addr record
      = if fault then backstoreReport e (holdWback e d (homeOf e i) i) (homeOf e i) addr else stillBusy e (dropWback d (homeOf e i) i) (homeOf e i) := by
  obtain ⟨hhears, -⟩ := tileHears_of_serves hs
  unfold outFetch at hf
  unfold fetchDone
  simp only [hhears, hf, hw, Bool.not_true, Bool.false_eq_true, if_false]

/-- R373. A retry of the fetch of brick i is reported and reads its record. -/
def retryRead (e : Env) (d : Dp) (t i : Nat) (addr : Dword) : Dp :=
  memRead (backstoreReport e d t addr) 16 (e.kp.bsBase + BitVec.ofNat 64 (64 * i)) 64

theorem tileOf_retryRead (e : Env) (d : Dp) (t i : Nat) (addr : Dword) (k : Nat) : tileOf (retryRead e d t i addr) k = tileOf d k := tileOf_backstoreReport ..

theorem brickOf_retryRead (e : Env) (d : Dp) (t i : Nat) (addr : Dword) (k : Nat) : brickOf (retryRead e d t i addr) k = brickOf d k := brickOf_backstoreReport ..

theorem retryRead_bricks (e : Env) (d : Dp) (t i : Nat) (addr : Dword) : (retryRead e d t i addr).bricks = d.bricks := by
  rw [retryRead, memRead, backstoreReport, report_bricks]

theorem retryRead_stripes (e : Env) (d : Dp) (t i : Nat) (addr : Dword) : (retryRead e d t i addr).stripes = d.stripes := by
  rw [retryRead, memRead, backstoreReport, report_stripes]

theorem retryRead_free (e : Env) (d : Dp) (t i : Nat) (addr : Dword) : (retryRead e d t i addr).free = d.free := by
  rw [retryRead, memRead, backstoreReport, report_free]

theorem filledBrick_retryRead (e : Env) (d : Dp) (t i : Nat) (addr : Dword) (record : Option (BitVec 512)) :
    filledBrick e (retryRead e d t i addr) t i record = filledBrick e d t i record :=
  filledBrick_congr (retryRead_bricks ..) (retryRead_stripes ..) (retryRead_free ..) e t i record

/-- R373. A retry of the write-back of brick i is reported and writes its record. -/
def retryWrite (e : Env) (d : Dp) (t i : Nat) (addr : Dword) : Dp :=
  memWrite (backstoreReport e d t addr) 16 (e.kp.bsBase + BitVec.ofNat 64 (64 * i)) 64 ((brickOf d i).record none)

theorem retryWrite_mem (e : Env) (d : Dp) (t i : Nat) (addr : Dword) :
    ∃ m ∈ (retryWrite e d t i addr).port.mem, m.addr = e.kp.bsBase + BitVec.ofNat 64 (64 * i) ∧ m.len = 64 := by
  unfold retryWrite
  rw [memWrite_mem]
  exact ⟨_, List.mem_append_right _ List.mem_cons_self, rfl, rfl⟩

theorem retryFetch_due (hs : tileServes e d (homeOf e i) = true) (hf : dueFetch e d (homeOf e i) i = some f) (fault : Bool) :
    retryFetch e d i fault addr record
      = if fault then holdFetch e (retryRead e d (homeOf e i) i addr) (homeOf e i) i else fillFetch e (retryRead e d (homeOf e i) i addr) (homeOf e i) i f record := by
  unfold dueFetch at hf
  unfold retryFetch
  simp only [hs, hf, Bool.not_true, Bool.false_eq_true, if_false]
  rfl

theorem retryFetch_wback (hs : tileServes e d (homeOf e i) = true) (hf : dueFetch e d (homeOf e i) i = none)
    (hw : (tileOf d (homeOf e i)).wbacks.any (fun w => w.1 == i && retryDue e w.2) = true) (fault : Bool) :
    retryFetch e d i fault addr record
      = if fault then holdWback e (retryWrite e d (homeOf e i) i addr) (homeOf e i) i
        else issueFetch e (stillBusy e (dropWback (retryWrite e d (homeOf e i) i addr) (homeOf e i) i) (homeOf e i)) (homeOf e i) := by
  unfold dueFetch at hf
  unfold retryFetch
  simp only [hs, hf, hw, Bool.not_true, Bool.false_eq_true, if_false]
  rfl

end

theorem slotFree_serves (h : tileServes e d t = true) : slotFree e d t = issueFetch e d t := if_pos h

/-- R23. The command of the memory port's answer. -/
theorem exec_fetchComplete {s : State} {i : BitVec 24} {st : BitVec 2} {addr : Dword} {record : Option (BitVec 512)} {d : Dp}
    (h : fetchDone s.env s.dp i.toNat (st != 0#2) addr record = d) : exec (.fetchComplete i st ⟨addr, record⟩) s = .next { s with dp := d } :=
  h ▸ rfl

/-- R373. The command of a retry. -/
theorem exec_backstoreRetry {s : State} {i : BitVec 24} {st : BitVec 2} {addr : Dword} {record : Option (BitVec 512)} {d : Dp}
    (h : retryFetch s.env s.dp i.toNat (st != 0#2) addr record = d) : exec (.backstoreRetry i st ⟨addr, record⟩) s = .next { s with dp := d } :=
  h ▸ rfl

/-- A fetch of brick i that a search of the tile's fetches finds. -/
theorem fetches_any_of_find {p : Fetch → Bool} (h : (tileOf d t).fetches.find? p = some f) (hp : p f = true → f.index = i) :
    (tileOf d t).fetches.any (fun g => g.index == i) = true :=
  List.any_eq_true.2 ⟨f, List.mem_of_find?_eq_some h, by simpa using hp (List.find?_some h)⟩

/-- A write-back of brick i that the tile has, in whatever state. -/
theorem wbacks_any_of {p : Nat × Option Dword → Bool} (h : (tileOf d t).wbacks.any (fun w => w.1 == i && p w) = true) :
    (tileOf d t).wbacks.any (fun w => w.1 == i) = true := by
  obtain ⟨w, hmem, hw⟩ := List.any_eq_true.1 h
  simp only [Bool.and_eq_true] at hw
  exact List.any_eq_true.2 ⟨w, hmem, hw.1⟩

/-- R67. A write-back that is over is not of its tile any more. -/
theorem stillBusy_dropWback_wbacks (e : Env) (d : Dp) (t i : Nat) :
    (tileOf (stillBusy e (dropWback d t i) t) t).wbacks = (tileOf d t).wbacks.filter (fun w => w.1 != i) := by
  simp [stillBusy, dropWback]

/-- Settles O29: the fetch or the write-back that the answer, or the retry, is for is filled, over, or held. -/
theorem fetchesComplete : Obligations.FetchesComplete := by
  unfold Obligations.FetchesComplete
  intro s i f addr st record t filled out due hs
  have hfilled : filled = filledBrick s.env s.dp t i.toNat record := by
    cases record <;> rfl
  have hfault : st ≠ 0 → (st != 0#2) = true := fun h => by simpa using h
  refine ⟨fun hf hst => ?fault, fun hf hlost hpark hothers => ?fill, fun hf hw => ⟨?wbackOver, fun hst => ?wbackFault⟩,
    fun hf hlost hpark hothers => ?retryFill, fun hf hst => ?retryFault, fun hf hw => ?retryWback, fun k hk hf hout hroom => ?issue⟩
  case fault =>
    refine ⟨_, exec_fetchComplete ((fetchDone_out hs hf _).trans (if_pos (hfault hst))), rfl, backstoreReport_bricks .., backstoreReport_net .., ?_,
      backstoreReport_reports ..⟩
    rw [State.withDp_dp, tileOf_backstoreReport]
    refine holdFetch_held (fetches_any_of_find hf (fun hp => ?_))
    simp only [Bool.and_eq_true, beq_iff_eq] at hp
    exact hp.1.1.1
  case fill =>
    obtain ⟨d2, h2, h3, hres, hclean, hgone⟩ := fillFetch_unparked (e := s.env) (record := record) hlost hpark hothers
    obtain ⟨hbrick, hother, -⟩ := filled_bricks h2 h3
    exact ⟨_, exec_fetchComplete (fetchDone_out hs hf false), rfl, hbrick.trans hfilled.symm, hother, hres, hclean, hgone⟩
  case wbackOver => exact ⟨_, exec_fetchComplete (fetchDone_wback hs hf hw false), rfl, rfl, rfl, stillBusy_dropWback_wbacks ..⟩
  case wbackFault =>
    refine ⟨_, exec_fetchComplete ((fetchDone_wback hs hf hw _).trans (if_pos (hfault hst))), rfl, backstoreReport_bricks .., backstoreReport_net .., ?_,
      backstoreReport_reports ..⟩
    rw [State.withDp_dp, tileOf_backstoreReport]
    exact holdWback_held (wbacks_any_of hw)
  case retryFill =>
    have htile : tileOf (retryRead s.env s.dp t i.toNat addr) t = tileOf s.dp t := tileOf_retryRead ..
    obtain ⟨d2, h2, h3, hres, hclean, hgone⟩ := fillFetch_unparked (e := s.env) (d := retryRead s.env s.dp t i.toNat addr) (record := record)
      (by rw [brickOf_retryRead]; exact hlost) hpark (by rw [htile]; exact hothers)
    obtain ⟨hbrick, hother, hinc⟩ := filled_bricks h2 h3
    refine ⟨_, exec_backstoreRetry (retryFetch_due hs hf false), rfl, ?_, fun k hk => ?_, hres, fun hnot => hclean ?_, hgone, ?_⟩
    · exact (hbrick.trans (filledBrick_retryRead ..)).trans hfilled.symm
    · exact (hother k hk).trans (brickOf_retryRead ..)
    · rw [resident, htile]
      exact hnot
    · exact hinc ▸ backstoreReport_reports s.env s.dp t addr
  case retryFault =>
    refine ⟨_, exec_backstoreRetry ((retryFetch_due hs hf _).trans (if_pos (hfault hst))), rfl, backstoreReport_bricks .., backstoreReport_net .., ?_,
      backstoreReport_reports ..⟩
    refine holdFetch_held ?_
    rw [tileOf_retryRead]
    refine fetches_any_of_find hf (fun hp => ?_)
    simp only [Bool.and_eq_true, beq_iff_eq] at hp
    exact hp.1
  case retryWback =>
    have hframe : ∀ b : Bool, StoreFrame (retryWrite s.env s.dp t i.toNat addr)
        (if b then holdWback s.env (retryWrite s.env s.dp t i.toNat addr) t i.toNat
          else issueFetch s.env (stillBusy s.env (dropWback (retryWrite s.env s.dp t i.toNat addr) t i.toNat) t) t) := by
      intro b
      split
      · exact StoreFrame.setTile _ t _
      · exact ((StoreFrame.dropWback _ t _).trans (StoreFrame.setTile _ t _)).trans (StoreFrame.issueFetch ..)
    have hu := hframe (st != 0#2)
    obtain ⟨m, hm, haddr⟩ := retryWrite_mem s.env s.dp t i.toNat addr
    exact ⟨_, exec_backstoreRetry (retryFetch_wback hs hf hw _), rfl, hu.bricks.trans (backstoreReport_bricks ..), hu.net.trans (backstoreReport_net ..),
      ⟨m, hu.mem hm, haddr⟩, hu.inc ▸ backstoreReport_reports s.env s.dp t addr⟩
  case issue =>
    obtain ⟨d2, hd2⟩ : ∃ d2, issueRoom s.env s.dp t f = some d2 := by
      refine Option.isSome_iff_exists.1 ?_
      unfold issueRoom
      split
      · rfl
      · next hv => exact hroom.resolve_left hv
    have hexec : exec (.fetchSlotFree k) s = .next { s with dp := issueFetch s.env s.dp t } := by
      rw [← slotFree_serves hs, ← hk]
      rfl
    exact ⟨_, hexec, rfl, (StoreFrame.issueFetch s.env s.dp t).bricks, issueFetch_issues hf hout hd2⟩

end Sys2Proof.Machine
end

section
/-! Mirror updates and their acknowledgements, stolen items, hods sent back and flit errors (R31, R74, R130, R175 to R177, R374). -/

namespace Sys2Proof.Machine

open Sys2Proof.Safety

variable {e : Env} {d d2 : Dp} {n t i : Nat} {h : Hod}

theorem unavailable_of_serves (hs : tileServes e d t = true) : unavailable e t = false := by
  simp only [tileServes, Bool.and_eq_true, Bool.not_eq_true'] at hs
  obtain ⟨⟨⟨⟨⟨hav, -⟩, -⟩, -⟩, -⟩, -⟩ := hs
  exact hav

theorem brickOf_congr (h : d2.bricks = d.bricks) (k : Nat) : brickOf d2 k = brickOf d k := by rw [brickOf, h, brickOf]

/-! ### A mirror takes an update (R74) -/

/-- R130, R199. The mirror's waiter store has no room for the waiter that update u brings to copy m. -/
def mirrorFull (e : Env) (d : Dp) (t : Nat) (u : MirUpd) (m : MirCopy) : Bool :=
  decide (m.copy.queue.length < u.copy.queue.length) && decide (Config.waiterStore + m.copy.queue.length < waitersAt e d t + u.copy.queue.length)

/-- R74. The copy m after update u, which a full store refuses. -/
def mirrorStore (e : Env) (d : Dp) (t : Nat) (u : MirUpd) (m : MirCopy) (full : Bool) : Dp :=
  if full then d else bumpT e { d with mirCopies := fput d.mirCopies (stripeKey u.index u.k) { m with copy := u.copy, stripe := u.stripe } } t 32

/-- The hods of the net, the bricks, and the copy afterwards. -/
theorem mirrorStore_frame (full : Bool) {u : MirUpd} {m : MirCopy} (hm : fget d.mirCopies (stripeKey u.index u.k) = some m) :
    (mirrorStore e d t u m full).net = d.net ∧ (mirrorStore e d t u m full).bricks = d.bricks
      ∧ fget (mirrorStore e d t u m full).mirCopies (stripeKey u.index u.k) = some (if full then m else { m with copy := u.copy, stripe := u.stripe }) := by
  unfold mirrorStore
  split
  · exact ⟨rfl, rfl, hm⟩
  · simp

/-- The hod that brings an update takes no room of the store. -/
theorem mirrorFull_took (e : Env) (d : Dp) (t n : Nat) (u : MirUpd) (m : MirCopy) :
    mirrorFull e (tookHod e (dropHod d n) t .mgmt) t u m = mirrorFull e d t u m := by
  obtain ⟨_, _, hd⟩ := tookHod_frame e (dropHod d n) t .mgmt
  rw [hd]
  rfl

/-- R74. Update u is applied or refused, and acknowledged, after its hod has been taken. -/
theorem mirrorTake_update {id carry : Nat} {u : MirUpd} {m : MirCopy} (hx : TileTakes e d n t h) (hb : h.body = .mirUpd id carry)
    (hu : d.mirUpds.find? (fun u => u.id == id) = some u) (hm : fget d.mirCopies (stripeKey u.index u.k) = some m) (hw : copyWaits d t id = false) :
    mirrorTake e d n
      = send e (mirrorStore e (tookHod e (dropHod d n) t .mgmt) t u m (mirrorFull e d t u m)) (.tile t) (.tile u.home) .mgmt h.part
          (.mirAck id (mirrorFull e d t u m)) := by
  obtain ⟨htake, hdst, hs, -, -⟩ := hx
  have hu : (tookHod e (dropHod d n) t .mgmt).mirUpds.find? (fun u => u.id == id) = some u := by simpa using hu
  have hm : fget (tookHod e (dropHod d n) t .mgmt).mirCopies (stripeKey u.index u.k) = some m := by simpa using hm
  rw [← mirrorFull_took e d t n]
  unfold mirrorTake
  simp only [htake, hdst, hb, unavailable_of_serves hs, hs, hw, hu, hm, Bool.not_true, Bool.or_false, Bool.false_eq_true, if_false]
  rfl

/-! ### The home takes an acknowledgement (R74, R75) -/

/-- The update of the acknowledgement is over, and its copy counts. -/
def ackedUpd (d : Dp) (u : MirUpd) : Dp :=
  let rest := d.mirUpds.filter (fun v => v.id != u.id)
  if rest.any (fun v => v.index == u.index && v.k == u.k) then { d with mirUpds := rest } else mirrored { d with mirUpds := rest } u.index u.k

theorem mirrored_frame (d : Dp) (i k : Nat) : ∃ l, mirrored d i k = { d with mirCopies := l } := by
  unfold mirrored
  split
  · split
    · exact ⟨d.mirCopies, rfl⟩
    · exact ⟨_, rfl⟩
  · exact ⟨d.mirCopies, rfl⟩

theorem ackedUpd_frame (d : Dp) (u : MirUpd) : ∃ l, ackedUpd d u = { d with mirUpds := d.mirUpds.filter (fun v => v.id != u.id), mirCopies := l } := by
  unfold ackedUpd
  extract_lets rest
  split
  · exact ⟨d.mirCopies, rfl⟩
  · exact mirrored_frame { d with mirUpds := rest } u.index u.k

/-- R74. The acknowledgement of update u is taken, and the update is over. -/
def acked (e : Env) (d : Dp) (n t : Nat) (u : MirUpd) : Dp := ackedUpd (tookHod e (dropHod d n) t .mgmt) u

/-- The bricks stay, the hod leaves the net, and the update its list. -/
theorem acked_frame (e : Env) (d : Dp) (n t : Nat) (u : MirUpd) :
    (acked e d n t u).bricks = d.bricks ∧ (acked e d n t u).net = eraseAt d.net n ∧ (acked e d n t u).mirUpds = d.mirUpds.filter (fun v => v.id != u.id) := by
  obtain ⟨_, hupd⟩ := ackedUpd_frame (tookHod e (dropHod d n) t .mgmt) u
  rw [acked, hupd]
  exact ⟨tookHod_bricks .., tookHod_net .., by rw [tookHod_mirUpds, dropHod_mirUpds]⟩

/-- R74, R258. What waited for update u leaves. -/
def ackedSend (e : Env) (d : Dp) (t : Nat) (u : MirUpd) : Dp :=
  (u.kids.map (retimeKid e d t u.index)).foldl (sendKid e u.index) (sendAll e (u.outs.map (retime e d)) d)

/-- R74. After an acknowledgement of update u that asks for no undo, its hods leave. -/
theorem mirrorAcked_sends {id : Nat} {full : Bool} {u : MirUpd} (hx : TileTakes e d n t h) (hb : h.body = .mirAck id full)
    (hu : d.mirUpds.find? (fun u => u.id == id) = some u) (hplain : full = false ∨ u.undo = none) :
    mirrorAcked e d n = ackedSend e (acked e d n t u) t u := by
  obtain ⟨htake, hdst, hs, -, -⟩ := hx
  obtain rfl : u.id = id := by simpa using List.find?_some hu
  have hu : (tookHod e (dropHod d n) t .mgmt).mirUpds.find? (fun v => v.id == u.id) = some u := by simpa using hu
  unfold mirrorAcked
  simp only [htake, hdst, hb, unavailable_of_serves hs, hs, hu, Bool.not_true, Bool.false_eq_true, if_false]
  split
  · next hundo => simp [hundo] at hplain
  · rfl

/-- R130. After an acknowledgement of update u that a full store refused, its waiter is taken back. -/
theorem mirrorAcked_undoes {id a g : Nat} {p : BitVec 3} {u : MirUpd} (hx : TileTakes e d n t h) (hb : h.body = .mirAck id true)
    (hu : d.mirUpds.find? (fun u => u.id == id) = some u) (hundo : u.undo = some (a, g, p)) :
    mirrorAcked e d n = undoWaiter e (acked e d n t u) t u.index a g p u.outs := by
  obtain ⟨htake, hdst, hs, -, -⟩ := hx
  obtain rfl : u.id = id := by simpa using List.find?_some hu
  have hu : (tookHod e (dropHod d n) t .mgmt).mirUpds.find? (fun v => v.id == u.id) = some u := by simpa using hu
  unfold mirrorAcked
  simp only [htake, hdst, hb, unavailable_of_serves hs, hs, hu, hundo, Bool.not_true, Bool.false_eq_true, if_false]
  rfl

/-! ### What waited for the acknowledgement is sent (R74, R121, R258) -/

/-- What a hod on a link changes: what sending on links can change, and lintels. -/
abbrev KidFrame (d d2 : Dp) : Prop := ∃ li, LinkFrame { d with lintels := li } d2

theorem KidFrame.of_link (h : LinkFrame d d2) : KidFrame d d2 := ⟨d.lintels, h⟩

theorem KidFrame.trans {a b c : Dp} (h : KidFrame a b) (g : KidFrame b c) : KidFrame a c := by
  obtain ⟨_, _, _, _, _, _, _, rfl⟩ := h
  obtain ⟨li, _, _, _, _, _, _, rfl⟩ := g
  exact ⟨li, _, _, _, _, _, _, rfl⟩

theorem LinkFrame.sendTwin (e : Env) (d : Dp) (i : Nat) (r : HodRec) : LinkFrame d (sendTwin e d i r) := by
  unfold Machine.sendTwin
  split
  · exact LinkFrame.refl d
  · exact LinkFrame.ite (LinkFrame.linkHod e d i _ _) (LinkFrame.refl d)

theorem KidFrame.sendKid (e : Env) (i : Nat) (d : Dp) (k : KidHod) : KidFrame d (sendKid e i d k) := by
  unfold Machine.sendKid
  split
  · exact KidFrame.of_link (LinkFrame.sendTwin e d i _)
  · split
    · exact ⟨_, LinkFrame.sendKids e _ i _ _⟩
    · exact KidFrame.of_link (LinkFrame.sendKids e d i _ _)

theorem KidFrame.sendKid_foldl (e : Env) (i : Nat) (l : List KidHod) (d : Dp) : KidFrame d (l.foldl (Machine.sendKid e i) d) :=
  List.foldlRecOn l (Machine.sendKid e i) (KidFrame.of_link (LinkFrame.refl d)) (fun d2 h2 x _ => h2.trans (KidFrame.sendKid e i d2 x))

theorem retime_congr (hb : d2.bricks = d.bricks) (e : Env) (h : Hod) : retime e d2 h = retime e d h := by
  simp only [retime, brickOf, hb]

/-- R74. The hods of update u go out as they are timed now; links apart, nothing else changes. -/
theorem ackedSend_frame (e : Env) (d : Dp) (t : Nat) (u : MirUpd) :
    (ackedSend e d t u).bricks = d.bricks ∧ (ackedSend e d t u).mirUpds = d.mirUpds
      ∧ posts (ackedSend e d t u).net = posts d.net ++ posts (u.outs.map (retime e d)) := by
  obtain ⟨li, _, _, _, _, _, _, hkids⟩ := KidFrame.sendKid_foldl e u.index (u.kids.map (retimeKid e d t u.index)) (sendAll e (u.outs.map (retime e d)) d)
  unfold ackedSend
  rw [hkids]
  exact ⟨sendAll_bricks .., sendAll_mirUpds .., posts_sendAll ..⟩

/-! ### Hods that leave a brick (R74, R362) -/

/-- What the emission of hods changes: the net, updates, and counters. -/
theorem emitNow_frame (e : Env) (d : Dp) (t i k : Nat) (outs : List Hod) (undo : Option (Nat × Nat × BitVec 3)) :
    ∃ hs q l o, emitNow e d t i k outs undo = { d with net := hs, seq := q, mirUpds := l, obs := o } := by
  have hall : ∀ d : Dp, ∃ hs q l o, sendAll e outs d = { d with net := hs, seq := q, mirUpds := l, obs := o } := fun d => by
    obtain ⟨hs, k, -, hd⟩ := sendAll_frame e outs d
    rw [hd]
    exact ⟨_, _, d.mirUpds, _, rfl⟩
  unfold emitNow
  extract_lets b st mine u
  split
  · exact hall d
  · next m _ =>
    extract_lets last d1 d2
    split
    · split
      · exact hall d
      · split
        · exact hall d
        · exact ⟨d.net, d.seq, _, d.obs, rfl⟩
    · obtain ⟨k1, h1⟩ := bumpT_frame e { d with mirUpds := d.mirUpds ++ [if m.ready then u else { u with outs := [], undo := none }] } t 31
      obtain ⟨x, k2, -, -, -, -, -, -, h2⟩ := send_frame e d1 (.tile t) (.tile m.tile) .mgmt b.part (.mirUpd u.id 0)
      have h3 : ∃ hs q l o, d2 = { d with net := hs, seq := q, mirUpds := l, obs := o } := ⟨_, _, _, _, h2.trans (by rw [show d1 = _ from h1])⟩
      obtain ⟨_, _, _, _, h3⟩ := h3
      split
      · exact ⟨_, _, _, _, h3⟩
      · obtain ⟨_, _, _, _, h4⟩ := hall d2
        exact ⟨_, _, _, _, h4.trans (by rw [h3])⟩

theorem emitNow_bricks (e : Env) (d : Dp) (t i k : Nat) (outs : List Hod) (undo : Option (Nat × Nat × BitVec 3)) :
    (emitNow e d t i k outs undo).bricks = d.bricks := by
  obtain ⟨_, _, _, _, hd⟩ := emitNow_frame e d t i k outs undo
  rw [hd]

theorem emitNow_inc (e : Env) (d : Dp) (t i k : Nat) (outs : List Hod) (undo : Option (Nat × Nat × BitVec 3)) : (emitNow e d t i k outs undo).inc = d.inc := by
  obtain ⟨_, _, _, _, hd⟩ := emitNow_frame e d t i k outs undo
  rw [hd]

theorem emit_bricks (e : Env) (d : Dp) (t i k : Nat) (outs : List Hod) (undo : Option (Nat × Nat × BitVec 3)) : (emit e d t i k outs undo).bricks = d.bricks := by
  unfold emit
  split
  · exact emitNow_bricks ..
  · exact emitNow_bricks ..

section
variable {g : Hod} {outs : List Hod} {tells : HodBody → Prop}

/-- What is sent stands in the net. -/
theorem sent_of_net (hg : (g.src, g.dst, g.vc, g.body) ∈ posts d.net) (ht : tells g.body) : Sent d g.dst tells := by
  obtain ⟨x, hx, heq⟩ := List.mem_map.1 hg
  injection heq with _ heq
  injection heq with hdst heq
  injection heq with _ hbody
  exact .inl ⟨x, hx, hdst, hbody ▸ ht⟩

theorem sent_of_sendAll (hg : g ∈ outs) (ht : tells g.body) (e : Env) (d : Dp) : Sent (sendAll e outs d) g.dst tells := by
  refine sent_of_net ?_ ht
  rw [posts_sendAll]
  exact List.mem_append_right _ (List.mem_map_of_mem hg)

/-- R74. Each hod leaves at once, or waits in an update of its brick. -/
theorem sent_of_emitNow (hg : g ∈ outs) (ht : tells g.body) (e : Env) (d : Dp) (t i k : Nat) (undo : Option (Nat × Nat × BitVec 3)) :
    Sent (emitNow e d t i k outs undo) g.dst tells := by
  unfold emitNow
  extract_lets b st mine u
  split
  · exact sent_of_sendAll hg ht e d
  · next m _ =>
    extract_lets last d1 d2
    split
    · split
      · exact sent_of_sendAll hg ht e d
      · next v hv =>
        split
        · exact sent_of_sendAll hg ht e d
        · have hany : d.mirUpds.any (fun x => x.id == v.id) = true :=
            List.any_eq_true.2 ⟨v, List.mem_of_mem_filter (List.mem_of_getLast? hv), by simp⟩
          obtain ⟨x, -, -, hmem⟩ := mem_modFirst_of_any (fun x => x.id == v.id) (fun (x : MirUpd) => { x with outs := x.outs ++ outs }) _ hany
          exact .inr (.inl ⟨_, hmem, g, List.mem_append_right _ hg, rfl, ht⟩)
    · split
      · next hready =>
        refine .inr (.inl ⟨u, ?_, g, hg, rfl, ht⟩)
        simp [d2, d1, hready]
      · exact sent_of_sendAll hg ht e d2

/-- R74, R362. Each hod of a brick leaves, or waits for the mirror's acknowledgement or for an incident's number. -/
theorem sent_of_emit (hg : g ∈ outs) (ht : tells g.body) (e : Env) (d : Dp) (t i k : Nat) (undo : Option (Nat × Nat × BitVec 3)) :
    Sent (emit e d t i k outs undo) g.dst tells := by
  unfold emit
  split
  · exact sent_of_emitNow hg ht e d t i k undo
  · next n _ =>
    refine .inr (.inr ⟨(n, fgetD d.inc.waitHods n [] ++ outs), ?_, g, List.mem_append_right _ hg, rfl, ht⟩)
    rw [emitNow_inc]
    exact mem_of_fget (fget_fput_self d.inc.waitHods n _)

end

/-! ### A refused waiter goes back (R130, R142) -/

theorem noteGrants_bricks (e : Env) (t : Nat) (b : Brick) (handle : Dword) (evs : List QEv) (d : Dp) : (noteGrants e t b handle evs d).bricks = d.bricks := by
  induction evs generalizing d with
  | nil => rfl
  | cons v l ih =>
    cases v with
    | hint k a g p => exact ih d
    | grant w st c =>
      unfold noteGrants
      rw [ih, trace_bricks, bumpP_bricks]

section
variable {b : Brick} {w : Waiter} {agent gang : Nat} {before : BitVec 3}

/-- R142. Brick b at tile t gets its body without waiter w, the kept hods leave, and w is answered BUSY. -/
def giveBack (e : Env) (d : Dp) (t i : Nat) (b : Brick) (w : Waiter) (body : Body) (course : Word) (keep : List Hod) (evs : List QEv) : Dp :=
  emit e (noteGrants e t b (brickHandle e i b) evs (setBody (sendAll e keep d) i b body)) t i 0
    (replyHod t w.joint w.entry b.part (Resp.at .busy course) :: qHods t b (brickHandle e i b) evs) none

theorem brickOf_giveBack (e : Env) (d : Dp) (t i k : Nat) (b : Brick) (w : Waiter) (body : Body) (course : Word) (keep : List Hod) (evs : List QEv) :
    brickOf (giveBack e d t i b w body course keep evs) k = if k = i then { b with body := body } else brickOf d k := by
  have hset : ∀ d2 : Dp, d2.bricks = d.bricks → brickOf (setBody d2 i b body) k = if k = i then { b with body := body } else brickOf d k := fun d2 hd2 => by
    rw [setBody, brickOf_setBrick, brickOf, hd2, brickOf]
  rw [brickOf, giveBack, emit_bricks, noteGrants_bricks]
  exact hset _ (sendAll_bricks ..)

theorem giveBack_sent (e : Env) (d : Dp) (t i : Nat) (b : Brick) (w : Waiter) (body : Body) (course : Word) (keep : List Hod) (evs : List QEv) :
    Sent (giveBack e d t i b w body course keep evs) (.joint w.joint) (fun c => ∃ r, c = .resp w.entry r ∧ r.status = .busy) :=
  sent_of_emit (g := replyHod t w.joint w.entry b.part (Resp.at .busy course)) List.mem_cons_self ⟨_, rfl, rfl⟩ e _ t i 0 none

/-- R130. A waiter of a lock that is taken back. -/
theorem undoWaiter_lock {l : Lock} (hl : (brickOf d i).body = .lock l)
    (hw : (brickOf d i).queue.find? (fun w => w.agent == agent && w.gang.toNat == gang) = some w) (e : Env) (t : Nat) (outs : List Hod) :
    ∃ d2 keep evs, d2.bricks = d.bricks
      ∧ undoWaiter e d t i agent gang before outs = giveBack e d2 t i (brickOf d i) w (.lock (l.undo w before false none).1) l.grants keep evs := by
  have hbump : (bumpT e d t 18).bricks = d.bricks := bumpT_bricks ..
  have htold : ∀ c : Bool, (if c then { bumpT e d t 18 with mirUpds := toldBefore i l.hagent l.hgang before (bumpT e d t 18).mirUpds } else bumpT e d t 18).bricks
      = d.bricks := by
    intro c
    split
    · exact hbump
    · exact hbump
  unfold undoWaiter
  simp only [hw, hl]
  exact ⟨_, _, _, htold _, rfl⟩

/-- R130. A waiter of a semaphore that is taken back. -/
theorem undoWaiter_semaphore {m : Sem} (hm : (brickOf d i).body = .semaphore m)
    (hw : (brickOf d i).queue.find? (fun w => w.agent == agent && w.gang.toNat == gang) = some w) (e : Env) (t : Nat) (outs : List Hod) :
    ∃ d2 keep evs, d2.bricks = d.bricks
      ∧ undoWaiter e d t i agent gang before outs = giveBack e d2 t i (brickOf d i) w (.semaphore (m.expire w).1) (BitVec.ofNat 32 m.count) keep evs := by
  have hbump : (bumpT e d t 18).bricks = d.bricks := bumpT_bricks ..
  unfold undoWaiter
  simp only [hw, hm]
  exact ⟨_, _, _, hbump, rfl⟩

/-- A brick with a waiter is a lock or a semaphore. -/
theorem body_of_waiter (h : w ∈ b.queue) : (∃ l, b.body = .lock l) ∨ ∃ m, b.body = .semaphore m := by
  unfold Brick.queue at h
  split at h
  · next l hl => exact .inl ⟨l, hl⟩
  · next m hm => exact .inr ⟨m, hm⟩
  · cases h

/-- R130, R142. The brick loses the refused waiter and nothing else, other bricks stay as they were, and the waiter is answered BUSY. -/
theorem undoWaiter_returns (hw : (brickOf d i).queue.find? (fun w => w.agent == agent && w.gang.toNat == gang) = some w) (e : Env) (t : Nat) (outs : List Hod) :
    (∀ l, (brickOf d i).body = .lock l →
        brickOf (undoWaiter e d t i agent gang before outs) i = { brickOf d i with body := .lock (l.undo w before false none).1 })
      ∧ (∀ m, (brickOf d i).body = .semaphore m → brickOf (undoWaiter e d t i agent gang before outs) i = { brickOf d i with body := .semaphore (m.expire w).1 })
      ∧ (∀ k, k ≠ i → brickOf (undoWaiter e d t i agent gang before outs) k = brickOf d k)
      ∧ Sent (undoWaiter e d t i agent gang before outs) (.joint w.joint) (fun c => ∃ r, c = .resp w.entry r ∧ r.status = .busy) := by
  obtain ⟨l, hl⟩ | ⟨m, hm⟩ := body_of_waiter (List.mem_of_find?_eq_some hw)
  · obtain ⟨d2, keep, evs, hd2, hback⟩ := undoWaiter_lock (before := before) hl hw e t outs
    rw [hback]
    refine ⟨fun l' hl' => ?_, fun m hm => ?_, fun k hk => ?_, giveBack_sent ..⟩
    · obtain rfl : l = l' := Body.lock.inj (hl.symm.trans hl')
      rw [brickOf_giveBack, if_pos rfl]
    · rw [hl] at hm
      cases hm
    · rw [brickOf_giveBack, if_neg hk, brickOf_congr hd2]
  · obtain ⟨d2, keep, evs, hd2, hback⟩ := undoWaiter_semaphore (before := before) hm hw e t outs
    rw [hback]
    refine ⟨fun l hl => ?_, fun m' hm' => ?_, fun k hk => ?_, giveBack_sent ..⟩
    · rw [hm] at hl
      cases hl
    · obtain rfl : m = m' := Body.semaphore.inj (hm.symm.trans hm')
      rw [brickOf_giveBack, if_pos rfl]
    · rw [brickOf_giveBack, if_neg hk, brickOf_congr hd2]

end

/-! ### Management stealing (R175 to R177) -/

theorem tileOf_work_trace (e : Env) (d : Dp) (t k : Nat) (g : Option Nat) (r : TRec) : (tileOf (trace e d t g r) k).work = (tileOf d k).work := by
  obtain ⟨-, htile⟩ := trace_frame e d t g r
  obtain ⟨b, hb⟩ := htile k
  rw [hb]

/-- R175, R177. The victim's queue without its oldest item, counted and traced. -/
def taken (e : Env) (d : Dp) (thief victim : Nat) (rest : List Work) : Dp :=
  trace e (bumpT e (bumpT e (setTile d victim { tileOf d victim with work := rest }) thief 22) victim 23) thief (some 5)
    { TRec.blank 0x08 with gt := tileGt e thief, aux := BitVec.ofNat 24 victim }

/-- R176. The thief runs the stolen item. -/
def handOver (d : Dp) (thief : Nat) (w : Work) : Dp :=
  match w with
  | .batch r => setTile d thief { tileOf d thief with work := (tileOf d thief).work ++ [.batch r] }
  | .refill i k => modStripe d i k (fun s => { s with thief := some thief })

theorem taken_work (e : Env) (d : Dp) (thief victim : Nat) (rest : List Work) (k : Nat) :
    (tileOf (taken e d thief victim rest) k).work = if k = victim then rest else (tileOf d k).work := by
  rw [taken, tileOf_work_trace, tileOf, bumpT_tiles, bumpT_tiles, ← tileOf]
  split
  · next hk => rw [hk, tileOf_setTile]
  · next hk => rw [tileOf_setTile_ne _ _ hk]

theorem taken_frame (e : Env) (d : Dp) (thief victim : Nat) (rest : List Work) :
    ∃ ts o, taken e d thief victim rest = { d with tiles := ts, obs := o } := by
  unfold taken
  obtain ⟨⟨ts, _, _, h⟩, -⟩ := trace_frame e (bumpT e (bumpT e (setTile d victim { tileOf d victim with work := rest }) thief 22) victim 23) thief (some 5)
    { TRec.blank 0x08 with gt := tileGt e thief, aux := BitVec.ofNat 24 victim }
  obtain ⟨_, h2⟩ := bumpT_frame e (bumpT e (setTile d victim { tileOf d victim with work := rest }) thief 22) victim 23
  obtain ⟨_, h1⟩ := bumpT_frame e (setTile d victim { tileOf d victim with work := rest }) thief 22
  rw [h, h2, h1]
  exact ⟨ts, _, rfl⟩

/-- R175 to R177. An idle tile takes the oldest item of a busy one within RADIUS hops. -/
theorem steal_takes {thief victim : Nat} {w : Work} {rest : List Work} (hradius : e.kp.radius ≠ 0) (hne : thief ≠ victim) (hthief : tileServes e d thief = true)
    (hvictim : tileServes e d victim = true) (hidle : tileIdle e d thief = true) (hwork : (tileOf d victim).work = w :: rest)
    (hbusy : e.kp.thresh.toNat < (tileOf d victim).work.length) (hnear : hops (tileRouter e thief) (tileRouter e victim) ≤ e.kp.radius.toNat) :
    steal e d thief victim = handOver (taken e d thief victim rest) thief w := by
  have hguard : (e.kp.radius = 0#3 || thief == victim || !tileServes e d thief || !tileServes e d victim || !tileIdle e d thief
      || decide ((tileOf d victim).work.length ≤ e.kp.thresh.toNat) || decide (e.kp.radius.toNat < hops (tileRouter e thief) (tileRouter e victim))) = false := by
    simpa [hne, hthief, hvictim, hidle, hbusy, hnear] using hradius
  rw [hwork] at hguard
  unfold steal
  simp only [hwork, hguard, Bool.false_eq_true, if_false]
  cases w <;> rfl

theorem modStripe_frame (d : Dp) (i k : Nat) (f : Stripe → Stripe) : ∃ ss, modStripe d i k f = { d with stripes := ss } := by
  unfold modStripe
  split
  · exact ⟨_, rfl⟩
  · exact ⟨d.stripes, rfl⟩

/-- R176. What the thief's run of an item leaves as it was. -/
theorem handOver_frame (d : Dp) (thief : Nat) (w : Work) : ∃ ts ss, handOver d thief w = { d with tiles := ts, stripes := ss } := by
  cases w with
  | batch r => exact ⟨_, d.stripes, rfl⟩
  | refill i k =>
    obtain ⟨ss, h⟩ := modStripe_frame d i k (fun s => { s with thief := some thief })
    exact ⟨d.tiles, ss, h⟩

theorem handOver_work_ne (d : Dp) {thief k : Nat} (w : Work) (h : k ≠ thief) : tileOf (handOver d thief w) k = tileOf d k := by
  cases w with
  | batch r => exact tileOf_setTile_ne d _ h
  | refill i j =>
    obtain ⟨ss, hs⟩ := modStripe_frame d i j (fun s => { s with thief := some thief })
    rw [handOver, hs]
    rfl

theorem stripeOf_modStripe {q : Stripe} (i k : Nat) (f : Stripe → Stripe) (h : stripeOf d i k = some q) : stripeOf (modStripe d i k f) i k = some (f q) := by
  unfold modStripe
  rw [h]
  exact fget_fput_self ..

/-! ### Hods sent back (R374) -/

theorem resend_sends (hn : d.net[n]? = some h) (hback : h.back = true) (hready : h.ready ≤ now e) (hstop : e.stop.stopped = false)
    (hpf : e.pwr.pfFrozen = false) : resend e d n = sendHod e (dropHod d n) h := by
  unfold resend
  simp [hn, hback, hready, hstop, hpf]

/-! ### Flit errors (R31, R34, R497) -/

/-- R31. What a double-bit error at router r discards: a hod of the net, a report, or a number on its way back. -/
def eccLost (e : Env) (d : Dp) (n r : Nat) : Dp :=
  match d.net[n]? with
  | some h => eccDrop e d n r h
  | none =>
    if n - d.net.length < d.inc.reports.length then { d with inc := { d.inc with reports := eraseAt d.inc.reports (n - d.net.length) } }
    else { d with inc := { d.inc with returns := eraseAt d.inc.returns (n - d.net.length - d.inc.reports.length) } }

/-- The error meets a hod, a report or a number only where one is under way. -/
theorem lt_of_eccRoute {r : Nat} (h : (eccRoute e d n).contains r = true) : n < d.net.length + d.inc.reports.length + d.inc.returns.length := by
  by_contra hge
  have hnet : d.net[n]? = none := List.getElem?_eq_none (by omega)
  have hreports : d.inc.reports[n - d.net.length]? = none := List.getElem?_eq_none (by omega)
  have hreturns : d.inc.returns[n - d.net.length - d.inc.reports.length]? = none := List.getElem?_eq_none (by omega)
  unfold eccRoute at h
  simp only [hnet, hreports, hreturns] at h
  cases h

variable {r p : Nat}

/-- R31. A single-bit error is corrected and counted. -/
theorem meshError_single (hp : p ≤ 5) (hstop : e.stop.stopped = false) (hr : (eccRoute e d n).contains r = true) :
    meshError e d n r p false = bumpK e d 1 (r * 8 + p) 7 1 := by
  have hn : ¬ d.net.length + d.inc.reports.length + d.inc.returns.length ≤ n := Nat.not_le.2 (lt_of_eccRoute hr)
  unfold meshError
  rw [if_neg (by simp [hp, hstop]), if_neg hn, if_neg (by rw [hr]; exact Bool.false_ne_true), if_pos Bool.not_false]

/-- R31. A double-bit error discards what it meets and is reported. -/
theorem meshError_double (hp : p ≤ 5) (hstop : e.stop.stopped = false) (hr : (eccRoute e d n).contains r = true) :
    ∃ vc, meshError e d n r p true = eccReport e (eccLost e d n r) r p vc := by
  have hn : ¬ d.net.length + d.inc.reports.length + d.inc.returns.length ≤ n := Nat.not_le.2 (lt_of_eccRoute hr)
  unfold meshError eccLost
  rw [if_neg (by simp [hp, hstop]), if_neg hn, if_neg (by rw [hr]; exact Bool.false_ne_true), if_neg (by simp)]
  cases d.net[n]? with
  | some h => exact ⟨h.vc, rfl⟩
  | none =>
    refine ⟨.mgmt, ?_⟩
    dsimp only
    split
    · rfl
    · rfl

/-- R31. An error past every hod under way waits for the next request. -/
theorem meshError_past (double : Bool) (hp : p ≤ 5) (hstop : e.stop.stopped = false)
    (hn : d.net.length + d.inc.reports.length + d.inc.returns.length ≤ n) :
    meshError e d n r p double = { d with flitErr := d.flitErr ++ [(r * 8 + p, double)] } := by
  unfold meshError
  rw [if_neg (by simp [hp, hstop]), if_pos hn]

/-- R31. The report of a double-bit error. -/
theorem eccReport_reports (e : Env) (d : Dp) (r p : Nat) (vc : VC) :
    ∃ q ∈ (eccReport e d r p vc).inc.reports, q.1 = .router r ∧ q.2.key.kind = .meshEcc := by
  obtain ⟨q, hq, hsrc, hkey⟩ := report_buffered e (bumpK e d 1 (r * 8 + p) 8 1) (.router r)
    { mkReport e (mkKey e 2 (r * 8 + p) .meshEcc) none with d2 := BitVec.ofNat 32 (vcIndex vc) } (by change IncClass.error ≠ .notice; decide)
  exact ⟨q, hq, hsrc, by rw [hkey]; rfl⟩

theorem eccReport_bricks (e : Env) (d : Dp) (r p : Nat) (vc : VC) : (eccReport e d r p vc).bricks = d.bricks := by
  obtain ⟨_, _, hd⟩ := eccReport_frame e d r p vc
  rw [hd]

theorem eccReport_net (e : Env) (d : Dp) (r p : Nat) (vc : VC) : (eccReport e d r p vc).net = d.net := by
  obtain ⟨_, _, hd⟩ := eccReport_frame e d r p vc
  rw [hd]

theorem eccReport_returns (e : Env) (d : Dp) (r p : Nat) (vc : VC) : (eccReport e d r p vc).inc.returns = d.inc.returns := by
  obtain ⟨_, _, hd⟩ := eccReport_frame e d r p vc
  rw [hd]

theorem eccLost_bricks (e : Env) (d : Dp) (n r : Nat) : (eccLost e d n r).bricks = d.bricks := by
  unfold eccLost
  split
  · unfold eccDrop
    split
    · rfl
    · rfl
  · split
    · rfl
    · rfl

theorem eccLost_net_none (e : Env) (r : Nat) (hn : d.net[n]? = none) : (eccLost e d n r).net = d.net := by
  unfold eccLost
  rw [hn]
  dsimp only
  split
  · rfl
  · rfl

theorem eccLost_net_hod (e : Env) (r : Nat) (hn : d.net[n]? = some h) (hb : ∀ q, h.body ≠ .release q) : (eccLost e d n r).net = eraseAt d.net n := by
  unfold eccLost
  rw [hn]
  dsimp only
  unfold eccDrop
  split
  · next q hq => exact absurd hq (hb q)
  · rfl

/-- R34. The copies of a release that the error meets go with it. -/
theorem eccLost_net_release {q : Rel} (hn : d.net[n]? = some h) (hb : h.body = .release q) (hr : (eccRoute e d n).contains r = true) :
    h ∉ (eccLost e d n r).net := by
  have hroute : (hodRoute e h.origin h.dst (.release q)).contains r = true := by
    unfold eccRoute at hr
    rw [hn] at hr
    dsimp only at hr
    rwa [hb] at hr
  unfold eccLost eccDrop
  rw [hn]
  simp only [hb]
  intro hmem
  have hkeep := (List.mem_filter.1 hmem).2
  rw [hb] at hkeep
  simp only [hroute, beq_self_eq_true, Bool.and_self, Bool.not_true, Bool.false_eq_true] at hkeep

theorem eccLost_returns (e : Env) (r : Nat) (hn : d.net.length + d.inc.reports.length ≤ n) :
    (eccLost e d n r).inc.returns = eraseAt d.inc.returns (n - d.net.length - d.inc.reports.length) := by
  have hnet : d.net[n]? = none := List.getElem?_eq_none (by omega)
  unfold eccLost
  rw [hnet]
  dsimp only
  rw [if_neg (by omega)]

/-! ### The commands -/

section
variable {s : State}

theorem exec_mirrorUpdate (h : mirrorTake s.env s.dp n = d) : exec (.mirrorUpdate n) s = .next { s with dp := d } := h ▸ rfl

theorem exec_mirrorAck (h : mirrorAcked s.env s.dp n = d) : exec (.mirrorAck n) s = .next { s with dp := d } := h ▸ rfl

theorem exec_mgmtSteal {thief victim : BitVec 5} (h : steal s.env s.dp thief.toNat victim.toNat = d) :
    exec (.mgmtSteal thief victim) s = .next { s with dp := d } := h ▸ rfl

theorem exec_returnedHodResend (h : resend s.env s.dp n = d) : exec (.returnedHodResend n) s = .next { s with dp := d } := h ▸ rfl

theorem exec_meshEcc {r : BitVec 8} {p : BitVec 3} {double : Bool} (h : meshError s.env s.dp n r.toNat p.toNat double = d) :
    exec (.meshEcc n r ⟨p, double⟩) s = .next { s with dp := d } := h ▸ rfl

end

/-- Settles O30: what the data path's function of each command does, case by case, is what the command does. -/
theorem mirrorsStealingAndNet : Obligations.MirrorsStealingAndNet := by
  unfold Obligations.MirrorsStealingAndNet
  intro s n h
  refine ⟨fun t id carry u m hx hb hu hm hw => ?update, fun t id u full hx hb hu hplain => ?ack, fun t id u a g p b w hx hb hu hundo hbrick hw => ?undo,
    fun thief victim w rest hradius hne hthief hvictim hidle hwork hbusy hnear => ?steal, fun hn hback hready hstop hpf => ?resend,
    fun r p hp hstop hr => ⟨?single, ?double⟩, fun r p double hp hstop hn => ?past⟩
  case update =>
    have hexec : exec (.mirrorUpdate n) s = .next { s with dp := _ } := exec_mirrorUpdate (mirrorTake_update hx hb hu hm hw)
    have hm' : fget (tookHod s.env (dropHod s.dp n) t .mgmt).mirCopies (stripeKey u.index u.k) = some m := by simpa using hm
    obtain ⟨hnet, hbricks, hcopy⟩ := mirrorStore_frame (e := s.env) (t := t) (mirrorFull s.env s.dp t u m) hm'
    refine ⟨_, hexec, rfl, ?_, ?_, ?_⟩
    · rw [State.withDp_dp, send_bricks, hbricks, tookHod_bricks, dropHod_bricks]
    · rw [State.withDp_dp, send_mirCopies, hcopy]
      rfl
    · rw [State.withDp_dp, posts_send, hnet, tookHod_net, dropHod_net]
      rfl
  case ack =>
    have hexec : exec (.mirrorAck n) s = .next { s with dp := _ } := exec_mirrorAck (mirrorAcked_sends hx hb hu hplain)
    obtain rfl : u.id = id := by simpa using List.find?_some hu
    obtain ⟨hsame, hnet, hrest⟩ := acked_frame s.env s.dp n t u
    obtain ⟨hbricks, hupds, hposts⟩ := ackedSend_frame s.env (acked s.env s.dp n t u) t u
    refine ⟨_, hexec, rfl, hbricks.trans hsame, hupds.trans hrest, ?_⟩
    rw [State.withDp_dp, hposts, hnet, show retime s.env (acked s.env s.dp n t u) = retime s.env s.dp from funext (retime_congr hsame s.env)]
  case undo =>
    subst hbrick
    have hexec : exec (.mirrorAck n) s = .next { s with dp := _ } := exec_mirrorAck (mirrorAcked_undoes hx hb hu hundo)
    obtain ⟨hbricks, -, -⟩ := acked_frame s.env s.dp n t u
    have hsame : ∀ k, brickOf (acked s.env s.dp n t u) k = brickOf s.dp k := brickOf_congr hbricks
    obtain ⟨hlock, hsem, hother, hsent⟩ := undoWaiter_returns (d := acked s.env s.dp n t u) (before := p) (by rw [hsame]; exact hw) s.env t u.outs
    rw [hsame] at hlock hsem
    exact ⟨_, hexec, rfl, hlock, hsem, fun k hk => (hother k hk).trans (hsame k), hsent⟩
  case steal =>
    have hne' : thief.toNat ≠ victim.toNat := fun heq => hne (BitVec.eq_of_toNat_eq heq)
    have hexec : exec (.mgmtSteal thief victim) s = .next { s with dp := _ } := exec_mgmtSteal (steal_takes hradius hne' hthief hvictim hidle hwork hbusy hnear)
    obtain ⟨ts, o, htaken⟩ := taken_frame s.env s.dp thief.toNat victim.toNat rest
    obtain ⟨ts2, ss, hhanded⟩ := handOver_frame (taken s.env s.dp thief.toNat victim.toNat rest) thief.toNat w
    refine ⟨_, hexec, rfl, ?_, ?_, ?_, ?_, fun r hr => ⟨?_, ?_⟩, fun i k q hr hq => ?_⟩
    · rw [State.withDp_dp, hhanded, htaken]
    · rw [State.withDp_dp, hhanded, htaken]
    · rw [State.withDp_dp, handOver_work_ne _ w hne'.symm, taken_work, if_pos rfl]
    · rw [State.withDp_dp, hhanded, htaken]
    · rw [State.withDp_dp, hr, handOver, tileOf_setTile, taken_work, if_neg hne']
    · rw [State.withDp_dp, hr, handOver, setTile_stripes, htaken]
    · rw [State.withDp_dp, hr]
      refine stripeOf_modStripe i k _ ?_
      rw [stripeOf, htaken]
      exact hq
  case resend =>
    have hexec : exec (.returnedHodResend n) s = .next { s with dp := _ } := exec_returnedHodResend (resend_sends hn hback hready hstop hpf)
    refine ⟨_, hexec, rfl, ?_, ?_⟩
    · rw [State.withDp_dp, sendHod, send_bricks, dropHod_bricks]
    · exact posts_send ..
  case single => exact exec_meshEcc (meshError_single hp hstop hr)
  case double =>
    obtain ⟨vc, hdouble⟩ := meshError_double hp hstop hr
    refine ⟨_, exec_meshEcc hdouble, rfl, ?_, eccReport_reports .., fun hn hb => ?_, fun q hn hb => ?_, fun hn => ?_, fun hn => ?_⟩
    · exact (eccReport_bricks ..).trans (eccLost_bricks ..)
    · exact (eccReport_net ..).trans (eccLost_net_hod s.env _ hn hb)
    · rw [State.withDp_dp, eccReport_net]
      exact eccLost_net_release hn hb hr
    · exact (eccReport_net ..).trans (eccLost_net_none s.env _ hn)
    · exact (eccReport_returns ..).trans (eccLost_returns s.env _ hn)
  case past => exact exec_meshEcc (meshError_past double hp hstop hn)

end Sys2Proof.Machine
end

section
/-! O59: what the data path keeps to (DpOk), as an invariant that also holds in the middle of a command, and how the updates of the state keep it. -/

namespace Sys2Proof.Machine

open Sys2Proof.Safety

/-! ### Tables with one key set aside -/

section

variable {α : Type}

/-- A table without what a write to key k replaces. (In a table that is not rising, a key may stand again behind: a write does not reach it.) -/
def fset (k : Nat) : FMap α → FMap α
  | [] => []
  | (j, w) :: m => if k < j then (j, w) :: m else if k = j then m else (j, w) :: fset k m

theorem fset_subset (k : Nat) (m : FMap α) : fset k m ⊆ m := by
  induction m with
  | nil => simp [fset]
  | cons p m ih =>
    obtain ⟨j, w⟩ := p
    simp only [fset]
    split
    · simp
    · split
      · simp
      · simpa using List.subset_cons_of_subset (j, w) ih

/-- What stands in a table after a write to key k: the value written, and what it does not replace. -/
theorem mem_fput_iff (m : FMap α) (k : Nat) (v : α) (p : Nat × α) : p ∈ fput m k v ↔ p = (k, v) ∨ p ∈ fset k m := by
  induction m with
  | nil => simp [fput, fset]
  | cons q m ih =>
    obtain ⟨j, w⟩ := q
    simp only [fput, fset]
    split
    · simp
    · split
      · simp
      · simp only [List.mem_cons, ih]
        tauto

/-- Of a table without key i, a write to another key k leaves that value and what stood there. -/
theorem mem_fset_fput {i k : Nat} (h : k ≠ i) (m : FMap α) (v : α) (p : Nat × α) (hp : p ∈ fset i (fput m k v)) : p = (k, v) ∨ p ∈ fset i m := by
  induction m with
  | nil =>
    simp only [fput] at hp
    exact .inl (by simpa using fset_subset i _ hp)
  | cons q m ih =>
    obtain ⟨j, w⟩ := q
    by_cases hkj : k < j
    · simp only [fput, if_pos hkj] at hp
      by_cases hik : i < k
      · have hij : i < j := by omega
        simpa only [fset, if_pos hik, if_pos hij, List.mem_cons] using hp
      · simpa only [fset, if_neg hik, if_neg (Ne.symm h), List.mem_cons] using hp
    · by_cases hej : k = j
      · subst hej
        simp only [fput, lt_irrefl, if_false, if_true] at hp
        by_cases hik : i < k
        · simp only [fset, if_pos hik, List.mem_cons] at hp ⊢
          tauto
        · simp only [fset, if_neg hik, if_neg (Ne.symm h), List.mem_cons] at hp ⊢
          tauto
      · simp only [fput, if_neg hkj, if_neg hej] at hp
        by_cases hij : i < j
        · simp only [fset, if_pos hij, List.mem_cons] at hp ⊢
          rcases hp with hp | hp
          · exact .inr (.inl hp)
          · exact (fput_keys_bound m k v p hp).imp_right .inr
        · by_cases hij2 : i = j
          · simp only [fset, if_neg hij, if_pos hij2] at hp ⊢
            exact fput_keys_bound m k v p hp
          · simp only [fset, if_neg hij, if_neg hij2, List.mem_cons] at hp ⊢
            rcases hp with hp | hp
            · exact .inr (.inl hp)
            · exact (ih hp).imp_right .inr

theorem fset_fput_self (k : Nat) (m : FMap α) (v : α) : fset k (fput m k v) = fset k m := by
  induction m with
  | nil => simp [fput, fset]
  | cons q m ih =>
    obtain ⟨j, w⟩ := q
    by_cases hkj : k < j
    · simp [fput, fset, hkj]
    · by_cases hej : k = j
      · subst hej
        simp [fput, fset]
      · simp [fput, fset, hkj, hej, ih]

/-- A key other than k that is read stands beside it. -/
theorem mem_fset_of_mem {i k : Nat} {m : FMap α} {v : α} (h : k ≠ i) (hm : (k, v) ∈ m) : (k, v) ∈ fset i m := by
  induction m with
  | nil => exact hm
  | cons q m ih =>
    obtain ⟨j, w⟩ := q
    simp only [fset]
    split
    · exact hm
    · split
      · next e =>
        subst e
        rcases List.mem_cons.1 hm with he | hm
        · exact absurd (congrArg Prod.fst he) h
        · exact hm
      · rcases List.mem_cons.1 hm with he | hm
        · exact List.mem_cons.2 (.inl he)
        · exact List.mem_cons.2 (.inr (ih hm))

end

/-- The entries of a list whose first that satisfies p is changed. -/
theorem mem_modFirst {α : Type} {p : α → Bool} {f : α → α} {l : List α} {y : α} (h : y ∈ modFirst p f l) : y ∈ l ∨ ∃ z ∈ l, y = f z := by
  induction l with
  | nil => exact .inl h
  | cons x l ih =>
    simp only [modFirst] at h
    split at h
    · obtain rfl | h := List.mem_cons.1 h
      · exact .inr ⟨x, List.mem_cons_self, rfl⟩
      · exact .inl (List.mem_cons_of_mem x h)
    · obtain rfl | h := List.mem_cons.1 h
      · exact .inl List.mem_cons_self
      · exact (ih h).imp (List.mem_cons_of_mem x) (fun ⟨z, hz, e⟩ => ⟨z, List.mem_cons_of_mem x hz, e⟩)

/-! ### What the data path keeps to -/

/-- R335. A partition has saved context exactly when SAVED, whose entries were numbered below m. -/
def PartOk (m : Nat) (x : Part) : Prop :=
  (x.st = .saved ↔ x.saved.isSome = true) ∧ ∀ q ∈ (x.saved.map (fun v => v.entries)).getD [], q.2.id < m

/-- R230. The entries of a joint were numbered below m. -/
def JointOk (m : Nat) (x : Joint) : Prop := ∀ y ∈ x.entries, y.id < m

/-- The partitions but the one that a command is changing, where there is one. -/
def steady (o : Option Nat) (m : FMap Part) : FMap Part :=
  match o with
  | none => m
  | some k => fset k m

/-- R47, R230, R335. What the data path keeps to in the middle of a command, at which partition o may be between two states, and at least n numbers have been given. -/
structure DataOk (n : Nat) (o : Option Nat) (d : Dp) : Prop where
  bricks : BricksRise d
  seq : n ≤ d.seq
  joints : ∀ j ∈ d.joints, JointOk d.seq j.2
  parts : ∀ p ∈ steady o d.parts, PartOk d.seq p.2

variable {n m : Nat} {o : Option Nat} {e : Env} {d d2 : Dp}

theorem dpOk_iff : DpOk d ↔ DataOk 0 none d :=
  ⟨fun h => ⟨h.1, Nat.zero_le _, h.2.1, h.2.2⟩, fun h => ⟨h.bricks, h.joints, h.parts⟩⟩

theorem PartOk.mono {x : Part} (h : PartOk n x) (hm : n ≤ m) : PartOk m x := ⟨h.1, fun q hq => lt_of_lt_of_le (h.2 q hq) hm⟩

theorem JointOk.mono {x : Joint} (h : JointOk n x) (hm : n ≤ m) : JointOk m x := fun y hy => lt_of_lt_of_le (h y hy) hm

theorem JointOk.subset {x y : Joint} (h : JointOk n x) (hs : y.entries ⊆ x.entries) : JointOk n y := fun z hz => h z (hs hz)

theorem jointOk_init : JointOk n Joint.init := by simp [JointOk, Joint.init]

theorem partOk_init : PartOk n Part.init := by simp [PartOk, Part.init]

/-- A partition that has no saved context and is not SAVED. -/
theorem partOk_of_unsaved {x : Part} (hst : x.st ≠ .saved) (hs : x.saved = none) : PartOk n x := by simp [PartOk, hst, hs]

/-- A change that leaves bricks, joints and partitions, and gives numbers in rising order. -/
theorem DataOk.keep (h : DataOk n o d) (hb : d2.bricks = d.bricks := by rfl) (hj : d2.joints = d.joints := by rfl)
    (hp : d2.parts = d.parts := by rfl) (hs : d.seq ≤ d2.seq := by exact le_rfl) : DataOk n o d2 where
  bricks := by rw [BricksRise, hb]; exact h.bricks
  seq := h.seq.trans hs
  joints := by rw [hj]; exact fun j hm => (h.joints j hm).mono hs
  parts := by rw [hp]; exact fun p hm => (h.parts p hm).mono hs

/-- What holds with no partition set aside holds with one. -/
theorem DataOk.aside (h : DataOk n none d) (k : Nat) : DataOk n (some k) d :=
  ⟨h.bricks, h.seq, h.joints, fun p hp => h.parts p (fset_subset k d.parts hp)⟩

theorem DataOk.fromNow (h : DataOk n o d) : DataOk d.seq o d := ⟨h.bricks, le_rfl, h.joints, h.parts⟩

theorem DataOk.weaken (h : DataOk n o d) (hm : m ≤ n) : DataOk m o d := ⟨h.bricks, hm.trans h.seq, h.joints, h.parts⟩

theorem DataOk.jointOf (h : DataOk n o d) (j : Nat) : JointOk d.seq (jointOf d j) := by
  obtain hj | hj := fgetD_cases d.joints j Joint.init
  · rw [Machine.jointOf, hj]
    exact jointOk_init
  · exact h.joints _ hj

theorem DataOk.partOf (h : DataOk n o d) {p : BitVec 4} (hp : o ≠ some p.toNat) : PartOk d.seq (partOf d p) := by
  obtain hq | hq := fgetD_cases d.parts p.toNat Part.init
  · rw [Machine.partOf, hq]
    exact partOk_init
  · cases o with
    | none => exact h.parts _ hq
    | some k => exact h.parts _ (mem_fset_of_mem (fun e => hp (e ▸ rfl)) hq)

theorem dataOk_setBrick {i : Nat} {x : Brick} (h : DataOk n o d) : DataOk n o (setBrick d i x) :=
  ⟨fput_rising d.bricks i x h.bricks, h.seq, h.joints, h.parts⟩

/-- A change of each brick by itself. -/
theorem DataOk.mapBricks {f : Nat × Brick → Nat × Brick} (h : DataOk n o d) (hf : ∀ p, (f p).1 = p.1) : DataOk n o { d with bricks := d.bricks.map f } :=
  ⟨map_rising d.bricks f hf h.bricks, h.seq, h.joints, h.parts⟩

theorem dataOk_setJoint {j : Nat} {x : Joint} (h : DataOk n o d) (hx : JointOk d.seq x) : DataOk n o (setJoint d j x) := by
  refine ⟨h.bricks, h.seq, fun p hp => ?_, h.parts⟩
  obtain rfl | hp := fput_keys_bound d.joints j x p hp
  · exact hx
  · exact h.joints p hp

/-- A joint that keeps its entries, or gives some of them up. -/
theorem dataOk_setJoint_same {j : Nat} {x : Joint} (h : DataOk n o d) (hx : x.entries = (jointOf d j).entries := by rfl) : DataOk n o (setJoint d j x) :=
  dataOk_setJoint h ((h.jointOf j).subset (by simp [hx]))

theorem dataOk_setJoint_filter {j : Nat} {x : Joint} {f : JEntry → Bool} (h : DataOk n o d) (hx : x.entries = (jointOf d j).entries.filter f := by rfl) :
    DataOk n o (setJoint d j x) :=
  dataOk_setJoint h ((h.jointOf j).subset (by simp [hx]))

theorem jointOk_modFirst {x : Joint} {p : JEntry → Bool} {f : JEntry → JEntry} (h : JointOk n x) (hf : ∀ y, (f y).id = y.id) :
    JointOk n { x with entries := modFirst p f x.entries } := by
  intro y hy
  obtain hy | ⟨z, hz, rfl⟩ := mem_modFirst hy
  · exact h y hy
  · exact lt_of_eq_of_lt (hf z) (h z hz)

theorem dataOk_modEntry {j id : Nat} {f : JEntry → JEntry} (h : DataOk n o d) (hf : ∀ y, (f y).id = y.id := by exact fun _ => rfl) :
    DataOk n o (modEntry d j id f) :=
  dataOk_setJoint h (jointOk_modFirst (h.jointOf j) hf)

/-- A change of each joint by itself that keeps its entries. -/
theorem DataOk.mapJoints {f : Nat × Joint → Nat × Joint} (h : DataOk n o d) (hf : ∀ j, (f j).2.entries ⊆ j.2.entries) :
    DataOk n o { d with joints := d.joints.map f } := by
  refine ⟨h.bricks, h.seq, fun p hp => ?_, h.parts⟩
  obtain ⟨j, hj, rfl⟩ := List.mem_map.1 hp
  exact (h.joints j hj).subset (hf j)

theorem dataOk_setPart {p : BitVec 4} {x : Part} (h : DataOk n o d) (hx : o ≠ some p.toNat → PartOk d.seq x) : DataOk n o (setPart d p x) := by
  refine ⟨h.bricks, h.seq, h.joints, fun q hq => ?_⟩
  cases o with
  | none =>
    obtain rfl | hq := fput_keys_bound d.parts p.toNat x q hq
    · exact hx (by simp)
    · exact h.parts q hq
  | some k =>
    by_cases hk : p.toNat = k
    · subst hk
      exact h.parts q (by simpa only [steady, setPart_parts, fset_fput_self] using hq)
    · obtain rfl | hq := mem_fset_fput hk d.parts x q hq
      · exact hx (by simpa using Ne.symm hk)
      · exact h.parts q hq

/-- A partition that keeps its state and its saved context. -/
theorem dataOk_setPart_same {p : BitVec 4} {x : Part} (h : DataOk n o d) (hst : x.st = (partOf d p).st := by rfl)
    (hs : x.saved = (partOf d p).saved := by rfl) : DataOk n o (setPart d p x) := by
  refine dataOk_setPart h (fun hp => ?_)
  rw [PartOk, hst, hs]
  exact h.partOf hp

/-- The partition that was set aside is in order again. -/
theorem DataOk.settle {p : BitVec 4} {x : Part} (h : DataOk n (some p.toNat) d) (hx : PartOk d.seq x) : DataOk n none (setPart d p x) := by
  refine ⟨h.bricks, h.seq, h.joints, fun q hq => ?_⟩
  obtain rfl | hq := (mem_fput_iff d.parts p.toNat x q).1 hq
  · exact hx
  · exact h.parts q hq

theorem PartOk.saved_none {x : Part} (h : PartOk n x) (hst : x.st ≠ .saved) : x.saved = none := by
  simpa using mt h.1.2 hst

theorem DataOk.noBricks (h : DataOk n o d) : DataOk n o { d with bricks := [] } :=
  ⟨List.Pairwise.nil, h.seq, h.joints, h.parts⟩

theorem steady_subset (o : Option Nat) (m : FMap Part) : steady o m ⊆ m := by
  cases o with
  | none => exact List.Subset.refl m
  | some k => exact fset_subset k m

/-- A change of each partition by itself that leaves it in order. -/
theorem DataOk.mapParts {f : Nat × Part → Nat × Part} (h : DataOk n o d) (hf : ∀ p, PartOk d.seq (f p).2) :
    DataOk n o { d with parts := d.parts.map f } := by
  refine ⟨h.bricks, h.seq, h.joints, fun q hq => ?_⟩
  obtain ⟨p, _, rfl⟩ := List.mem_map.1 (steady_subset o _ hq)
  exact hf p

/-! ### Choices and folds -/

theorem dataOk_ite {c : Prop} [Decidable c] {d2 : Dp} (h : DataOk n o d) (h2 : DataOk n o d2) : DataOk n o (if c then d else d2) := by
  split
  · exact h
  · exact h2

theorem dataOk_ite_fst {β : Type} {c : Prop} [Decidable c] {x y : Dp × β} (hx : DataOk n o x.1) (hy : DataOk n o y.1) : DataOk n o (if c then x else y).1 := by
  split
  · exact hx
  · exact hy

theorem dataOk_ite_snd {β : Type} {c : Prop} [Decidable c] {x y : β × Dp} (hx : DataOk n o x.2) (hy : DataOk n o y.2) : DataOk n o (if c then x else y).2 := by
  split
  · exact hx
  · exact hy

theorem dataOk_foldl {α : Type} {f : Dp → α → Dp} {l : List α} (hf : ∀ d x, DataOk n o d → DataOk n o (f d x)) (h : DataOk n o d) :
    DataOk n o (l.foldl f d) :=
  List.foldlRecOn l f h (fun d hd x _ => hf d x hd)

theorem dataOk_foldl_snd {α β : Type} {f : β × Dp → α → β × Dp} {l : List α} {x : β × Dp} (hf : ∀ y a, DataOk n o y.2 → DataOk n o (f y a).2)
    (h : DataOk n o x.2) : DataOk n o (l.foldl f x).2 :=
  List.foldlRecOn (motive := fun y : β × Dp => DataOk n o y.2) l f h (fun y hy a _ => hf y a hy)

theorem dataOk_of_fst {β : Type} {x : Dp × β} {b : β} (h : DataOk n o x.1) (hx : x = (d2, b)) : DataOk n o d2 := by rw [hx] at h; exact h

theorem dataOk_foldr {α : Type} {f : α → Dp → Dp} {l : List α} (hf : ∀ x d, DataOk n o d → DataOk n o (f x d)) (h : DataOk n o d) :
    DataOk n o (l.foldr f d) :=
  List.foldrRecOn l f h (fun d hd x _ => hf x d hd)

theorem dataOk_of_map {α β : Type} {f : α → Dp × β} {x : Option α} {b : β} (hx : x.map f = some (d2, b)) (h : ∀ a, x = some a → DataOk n o (f a).1) :
    DataOk n o d2 := by
  obtain ⟨a, ha, hb⟩ := Option.map_eq_some_iff.1 hx
  exact dataOk_of_fst (h a ha) hb

theorem dataOk_of_map_dp {α : Type} {f : α → Dp} {x : Option α} (hx : x.map f = some d2) (h : ∀ a, x = some a → DataOk n o (f a)) : DataOk n o d2 := by
  obtain ⟨a, ha, rfl⟩ := Option.map_eq_some_iff.1 hx
  exact h a ha

theorem dataOk_fst {β : Type} {b : β} (h : DataOk n o d) : DataOk n o (d, b).1 := h

theorem dataOk_snd {β : Type} {b : β} (h : DataOk n o d) : DataOk n o (b, d).2 := h

theorem dataOk_of_snd {β : Type} {x : β × Dp} {b : β} (h : DataOk n o x.2) (hx : x = (b, d2)) : DataOk n o d2 := by rw [hx] at h; exact h

end Sys2Proof.Machine
end

section
/-! The home tile's side of the data path (DpOk): what the operations of tiles, joints, beds, barriers and pallets leave. -/

namespace Sys2Proof.Machine

open Sys2Proof.Safety

set_option Elab.async false

variable {n m : Nat} {o : Option Nat} {e : Env} {d d2 : Dp}

/-! ### The shared operations -/

theorem dataOk_setTile {t : Nat} {x : Tile} (h : DataOk n o d) : DataOk n o (setTile d t x) :=
  h.keep

theorem dataOk_setAg {j : Nat} {x : AgReg} (h : DataOk n o d) : DataOk n o (setAg d j x) :=
  h.keep

theorem dataOk_setLink {r : Nat} {x : Link} (h : DataOk n o d) : DataOk n o (setLink d r x) :=
  h.keep

theorem dataOk_setRing {r : RingId} {x : SubRing} (h : DataOk n o d) : DataOk n o (setRing d r x) :=
  h.keep

theorem dataOk_setCmpl {owner : Owner} {x : OutRing} (h : DataOk n o d) : DataOk n o (setCmpl d owner x) :=
  h.keep

theorem dataOk_setIncRing {p : BitVec 4} {x : OutRing} (h : DataOk n o d) : DataOk n o (setIncRing d p x) :=
  h.keep

theorem dataOk_setTring {k : Nat} {x : OutRing} (h : DataOk n o d) : DataOk n o (setTring d k x) :=
  h.keep

theorem dataOk_bumpP {p : BitVec 4} {i count : Nat} (h : DataOk n o d) : DataOk n o (bumpP e d p i count) :=
  dataOk_ite h.keep h

theorem dataOk_bumpK {kind unit ctr count : Nat} (h : DataOk n o d) : DataOk n o (bumpK e d kind unit ctr count) :=
  dataOk_ite h.keep h

theorem dataOk_bumpT {t ctr : Nat} (h : DataOk n o d) : DataOk n o (bumpT e d t ctr) :=
  dataOk_bumpK h

theorem dataOk_memWrite {ctx : Nat} {addr : Dword} {len data : Nat} (h : DataOk n o d) : DataOk n o (memWrite d ctx addr len data) :=
  h.keep

theorem dataOk_memRead {ctx : Nat} {addr : Dword} {len : Nat} (h : DataOk n o d) : DataOk n o (memRead d ctx addr len) :=
  h.keep

theorem dataOk_pulse {line : Nat} (h : DataOk n o d) : DataOk n o (pulse d line) :=
  h.keep

theorem dataOk_fabOut {x : FabOut} (h : DataOk n o d) : DataOk n o (fabOut d x) :=
  h.keep

theorem dataOk_nextFree (h : DataOk n o d) : DataOk n o (nextFree d).2 :=
  h.keep

theorem dataOk_countLost {t dest count : Nat} (h : DataOk n o d) : DataOk n o (countLost e d t dest count) := by
  unfold countLost
  extract_lets d1
  have hd1 : DataOk n o d1 := dataOk_bumpK h
  exact dataOk_ite (dataOk_bumpP hd1) hd1

theorem dataOk_traceOwe {t dest count : Nat} (h : DataOk n o d) : DataOk n o (traceOwe d t dest count) := by
  unfold traceOwe
  extract_lets x b b1
  exact dataOk_setTile h

theorem dataOk_traceLose {t dest count : Nat} (h : DataOk n o d) : DataOk n o (traceLose e d t dest count) :=
  dataOk_countLost (dataOk_traceOwe h)

theorem dataOk_traceReturn {t : Nat} {r : TRec} (h : DataOk n o d) : DataOk n o (traceReturn t d r) :=
  dataOk_ite (dataOk_traceOwe h) h

theorem dataOk_traceOverwrite {t : Nat} (h : DataOk n o d) : DataOk n o (traceOverwrite e d t) := by
  unfold traceOverwrite
  extract_lets x old
  split
  · exact h
  · extract_lets d1
    have hd1 : DataOk n o d1 := dataOk_setTile h
    exact dataOk_ite (dataOk_traceReturn hd1) (dataOk_ite hd1 (dataOk_traceLose hd1))

theorem dataOk_tracePut {t : Nat} {r : TRec} (h : DataOk n o d) : DataOk n o (tracePut e d t r) := by
  unfold tracePut
  extract_lets m x b circular full d1 d2
  have hd1 : DataOk n o d1 := dataOk_setTile h
  have hd2 : DataOk n o d2 := dataOk_ite (dataOk_traceOverwrite hd1) hd1
  exact dataOk_bumpT hd2

theorem dataOk_traceDrop {t dest : Nat} (h : DataOk n o d) : DataOk n o (traceDrop e d t dest).2 := by
  unfold traceDrop
  extract_lets b n1 put x
  exact dataOk_ite_snd h (dataOk_ite_snd (dataOk_tracePut (dataOk_setTile h)) (dataOk_ite_snd (dataOk_bumpT (dataOk_setTile h)) h))

theorem dataOk_trace {t : Nat} {g : Option Nat} {r : TRec} (h : DataOk n o d) : DataOk n o (trace e d t g r) := by
  unfold trace
  extract_lets m on admitted r1 dest gone
  split
  · exact h
  · split
    · exact dataOk_traceLose h
    · split
      · next hx =>
          exact dataOk_ite (dataOk_tracePut (dataOk_of_snd (dataOk_traceDrop h) hx)) (dataOk_traceLose (dataOk_of_snd (dataOk_traceDrop h) hx))

theorem dataOk_forgetNumber {key : IncKey} (h : DataOk n o d) : DataOk n o (forgetNumber d key) :=
  h.keep

theorem dataOk_countPort {vc : VC} {k count u : Nat} (h : DataOk n o d) : DataOk n o (countPort e vc k count d u) := by
  unfold countPort
  extract_lets d1 d2
  have hd1 : DataOk n o d1 := dataOk_bumpK h
  have hd2 : DataOk n o d2 := dataOk_bumpK hd1
  exact dataOk_bumpK hd2

theorem dataOk_countPorts {vc : VC} {k count : Nat} {l : List Nat} (h : DataOk n o d) : DataOk n o (countPorts e vc k count l d) :=
  dataOk_foldl (fun _ _ h2 => dataOk_countPort h2) h

theorem dataOk_reportHod {src : Source} {back : Bool} (h : DataOk n o d) : DataOk n o (reportHod e src back d) := by
  unfold reportHod
  extract_lets l
  exact dataOk_countPorts h

theorem dataOk_report {src : Source} {r : Report} (h : DataOk n o d) : DataOk n o (report e d src r) := by
  unfold report
  extract_lets same buffered old
  exact dataOk_ite h.keep (dataOk_ite (dataOk_bumpK h) (dataOk_reportHod h.keep))

theorem dataOk_configNotice {off : Nat} (h : DataOk n o d) : DataOk n o (configNotice e d off) :=
  dataOk_report h

theorem dataOk_place {src dst : Port} {vc : VC} {part : BitVec 4} {body : HodBody} {ready : Nat}
    (h : DataOk n o d) : DataOk n o (place e d src dst vc part body ready) := by
  unfold place
  extract_lets back h1
  exact h.keep (hs := Nat.le_succ _)

theorem dataOk_sendAt {src dst : Port} {vc : VC} {part : BitVec 4} {body : HodBody} {ready : Nat}
    (h : DataOk n o d) : DataOk n o (sendAt e d src dst vc part body ready) :=
  dataOk_place (dataOk_countPorts h)

theorem dataOk_send {src dst : Port} {vc : VC} {part : BitVec 4} {body : HodBody} (h : DataOk n o d) : DataOk n o (send e d src dst vc part body) :=
  dataOk_sendAt h

theorem dataOk_passOn {hod : Hod} {r : Nat} {dst : Port} {body : HodBody} (h : DataOk n o d) : DataOk n o (passOn e d hod r dst body) := by
  unfold passOn
  extract_lets d1 back
  have hd1 : DataOk n o d1 := dataOk_countPorts h
  exact hd1.keep

theorem dataOk_sendHod {hod : Hod} (h : DataOk n o d) : DataOk n o (sendHod e d hod) :=
  dataOk_send h

theorem dataOk_sendOf {before : List Hod} {hod : Hod} (h : DataOk n o d) : DataOk n o (sendOf e before d hod) := by
  unfold sendOf
  split
  · extract_lets seen
    exact dataOk_place (dataOk_countPorts h)
  · exact dataOk_sendHod h

theorem dataOk_sendFrom {l before : List Hod} (h : DataOk n o d) : DataOk n o (sendFrom e before l d) := by
  induction l generalizing before d with
  | nil => exact h
  | cons x l ih => exact ih (dataOk_sendOf h)

theorem dataOk_sendAll {hs : List Hod} (h : DataOk n o d) : DataOk n o (sendAll e hs d) :=
  dataOk_sendFrom h

theorem dataOk_dropHod {count : Nat} (h : DataOk n o d) : DataOk n o (dropHod d count) :=
  h.keep

theorem dataOk_stillBusy {t : Nat} (h : DataOk n o d) : DataOk n o (stillBusy e d t) :=
  dataOk_setTile h

theorem dataOk_tookHod {t : Nat} {vc : VC} (h : DataOk n o d) : DataOk n o (tookHod e d t vc) := by
  unfold tookHod
  extract_lets x cyc d1
  have hd1 : DataOk n o d1 := dataOk_setTile h
  split
  · exact dataOk_bumpT hd1
  · exact dataOk_bumpT hd1
  · exact dataOk_bumpT hd1
  · exact hd1

theorem dataOk_tookTrain {t : Nat} {vc : VC} {k : Nat} (h : DataOk n o d) : DataOk n o (tookTrain e d t vc k) := by
  unfold tookTrain
  extract_lets d1
  have hd1 : DataOk n o d1 := dataOk_tookHod h
  split
  · exact dataOk_bumpK hd1
  · exact dataOk_bumpK hd1
  · exact dataOk_bumpK hd1
  · exact hd1

/-! ### Tiles and their slots -/

theorem dataOk_setStripe {i k : Nat} {x : Stripe} (h : DataOk n o d) : DataOk n o (setStripe d i k x) :=
  h.keep

theorem dataOk_writeBack {t i : Nat} (h : DataOk n o d) : DataOk n o (writeBack e d t i) := by
  unfold writeBack
  extract_lets x d1
  have hd1 : DataOk n o d1 := dataOk_ite h (dataOk_setTile h)
  exact dataOk_memWrite hd1

theorem dataOk_drainSlot {t i : Nat} (h : DataOk n o d) : DataOk n o (drainSlot e d t i) := by
  unfold drainSlot
  extract_lets x
  exact dataOk_bumpT (dataOk_writeBack (dataOk_setTile h))

theorem dataOk_makeRoom {t : Nat} (h : DataOk n o d) (hr : makeRoom e d t = some d2) : DataOk n o d2 := by
  unfold makeRoom at hr
  extract_lets x at hr
  split at hr
  · cases hr
    exact h
  · split at hr
    · cases hr
    · extract_lets d1 at hr
      have hd1 : DataOk n o d1 := dataOk_setTile h
      split at hr
      · cases hr
        exact dataOk_bumpT (dataOk_writeBack hd1)
      · injection hr with hr
        rw [← hr]
        exact hd1

theorem dataOk_touchSlot {t : Nat} {r : SlotRef} {dirty : Bool} (h : DataOk n o d) : DataOk n o (touchSlot d t r dirty) := by
  unfold touchSlot
  extract_lets x
  split
  · exact dataOk_setTile h
  · exact dataOk_setTile h

theorem dataOk_dropSlot {t : Nat} {r : SlotRef} (h : DataOk n o d) : DataOk n o (dropSlot d t r) := by
  unfold dropSlot
  extract_lets x
  exact dataOk_setTile h

theorem dataOk_takeSlot {t : Nat} {r : SlotRef} (h : DataOk n o d) (hr : takeSlot e d t r = some d2) : DataOk n o d2 := by
  unfold takeSlot at hr
  extract_lets x at hr
  split at hr
  · cases hr
    exact dataOk_touchSlot h
  · split at hr
    · cases hr
    · cases hr
      exact dataOk_touchSlot (dataOk_drainSlot h)
    · cases hr
      exact dataOk_touchSlot (dataOk_setTile h)

theorem dataOk_bindRun {t base count : Nat} (h : DataOk n o d) : DataOk n o (bindRun d t base count) := by
  unfold bindRun
  extract_lets x
  exact dataOk_ite h (dataOk_setTile h)

theorem dataOk_unbindRun {t base count : Nat} (h : DataOk n o d) : DataOk n o (unbindRun d t base count) := by
  unfold unbindRun
  extract_lets x
  exact dataOk_ite h (dataOk_setTile h)

theorem dataOk_unbindRuns {t : Nat} {l : List (Nat × Nat)} (h : DataOk n o d) : DataOk n o (unbindRuns d t l) :=
  dataOk_foldl (fun _ _ h2 => dataOk_unbindRun h2) h

theorem dataOk_chargeB {p : BitVec 4} {count : Nat} {r : Bool} (h : DataOk n o d) (hr : chargeB e d p count = some (d2, r)) : DataOk n o d2 := by
  unfold chargeB at hr
  extract_lets x at hr
  split at hr
  · cases hr
  · split at hr
    · extract_lets d1 at hr
      have hd1 : DataOk n o d1 := dataOk_setPart_same h
      cases hr
      exact dataOk_ite hd1 (dataOk_bumpP hd1)
    · cases hr

theorem dataOk_chargeG {p : BitVec 4} {count : Nat} {r : Bool} (h : DataOk n o d) (hr : chargeG e d p count = some (d2, r)) : DataOk n o d2 := by
  unfold chargeG at hr
  extract_lets x at hr
  split at hr
  · cases hr
  · split at hr
    · extract_lets d1 at hr
      have hd1 : DataOk n o d1 := dataOk_setPart_same h
      cases hr
      exact dataOk_ite hd1 (dataOk_bumpP hd1)
    · cases hr

theorem dataOk_refundB {p : BitVec 4} {count : Nat} (h : DataOk n o d) : DataOk n o (refundB d p count) := by
  unfold refundB
  extract_lets x
  exact dataOk_setPart_same h

theorem dataOk_refundG {p : BitVec 4} {count : Nat} (h : DataOk n o d) : DataOk n o (refundG d p count) := by
  unfold refundG
  extract_lets x
  exact dataOk_setPart_same h

theorem dataOk_emitNow {t i k : Nat} {outs : List Hod} {undo : Option (Nat × Nat × BitVec 3)} {carry : Nat}
    (h : DataOk n o d) : DataOk n o (emitNow e d t i k outs undo carry) := by
  unfold emitNow
  extract_lets b st mine u
  split
  · exact dataOk_sendAll h
  · extract_lets last d1 d2
    have hd1 : DataOk n o d1 := dataOk_bumpT h.keep
    have hd2 : DataOk n o d2 := dataOk_send hd1
    split
    · split
      · exact dataOk_sendAll h
      · exact dataOk_ite (dataOk_sendAll h) h.keep
    · exact dataOk_ite hd2 (dataOk_sendAll hd2)

theorem dataOk_emit {t i k : Nat} {outs : List Hod} {undo : Option (Nat × Nat × BitVec 3)} {carry : Nat}
    (h : DataOk n o d) : DataOk n o (emit e d t i k outs undo carry) := by
  unfold emit
  split
  · exact dataOk_emitNow h
  · extract_lets old d1
    have hd1 : DataOk n o d1 := h.keep
    exact dataOk_emitNow hd1

theorem dataOk_emitNone {t i k : Nat} (h : DataOk n o d) : DataOk n o (emitNone e d t i k) :=
  dataOk_emit h

theorem dataOk_keepFrozen {hod : Hod} (h : DataOk n o d) : DataOk n o (keepFrozen d hod) := by
  unfold keepFrozen
  extract_lets x
  exact dataOk_setPart_same h

theorem dataOk_leave {hs : List Hod} (h : DataOk n o d) : DataOk n o (leave e hs d) := by
  unfold leave
  extract_lets frozen out d1
  have hd1 : DataOk n o d1 := dataOk_foldl (fun _ _ h2 => dataOk_keepFrozen h2) h
  split
  · exact hd1
  · split
    · exact dataOk_emit hd1
    · exact dataOk_sendAll hd1

theorem dataOk_sendNumbered {src : Source} {key : IncKey} {hs : List Hod} (h : DataOk n o d) : DataOk n o (sendNumbered e d src key hs) := by
  unfold sendNumbered
  split
  · exact dataOk_leave h
  · exact dataOk_ite h h.keep

theorem dataOk_issueFetch {t : Nat} (h : DataOk n o d) : DataOk n o (issueFetch e d t) := by
  unfold issueFetch
  split
  · exact h
  · refine dataOk_ite h ?_
    split
    · exact h
    · next d2 hroom =>
      have hd2 : DataOk n o d2 := by
        split at hroom
        · exact Option.some.inj hroom ▸ h
        · exact dataOk_makeRoom h hroom
      exact dataOk_setTile (dataOk_memRead hd2)

theorem dataOk_park {t i : Nat} {op : Parked} (h : DataOk n o d) : DataOk n o (park e d t i op) := by
  unfold park
  extract_lets x f d1 d2 d3 d4
  have hd1 : DataOk n o d1 := dataOk_setTile h
  have hd2 : DataOk n o d2 := dataOk_bumpT hd1
  have hd3 : DataOk n o d3 := dataOk_bumpP hd2
  have hd4 : DataOk n o d4 := dataOk_trace hd3
  exact dataOk_ite (dataOk_setTile h) (dataOk_issueFetch hd4)

theorem dataOk_corrected {l : List Nat} (h : DataOk n o d) : DataOk n o (corrected e d l) := by
  unfold corrected
  split
  · exact h
  · exact dataOk_bumpK h.keep

theorem dataOk_mgmtHods {a b k count : Nat} (h : DataOk n o d) : DataOk n o (mgmtHods e d a b k count) := by
  unfold mgmtHods
  extract_lets l d1
  have hd1 : DataOk n o d1 := dataOk_corrected h
  exact dataOk_bumpK (dataOk_tookHod (dataOk_countPorts hd1))

theorem dataOk_fencedReply {t j entry : Nat} {part : BitVec 4} (h : DataOk n o d) : DataOk n o (fencedReply e d t j entry part) := by
  unfold fencedReply
  extract_lets h1
  split
  · exact dataOk_sendNumbered h
  · exact dataOk_sendHod h

theorem dataOk_reportTile {t : Nat} {r : Report} (h : DataOk n o d) : DataOk n o (reportTile e d t r) :=
  dataOk_report h

theorem dataOk_eccReport {r p : Nat} {vc : VC} (h : DataOk n o d) : DataOk n o (eccReport e d r p vc) :=
  dataOk_report (dataOk_bumpK h)

theorem dataOk_crossing {vc : VC} {l : List Nat} (h : DataOk n o d) : DataOk n o (crossing e d vc l).1 := by
  unfold crossing
  split
  · exact h
  · extract_lets d1
    have hd1 : DataOk n o d1 := h.keep
    exact dataOk_ite_fst (dataOk_eccReport hd1) (dataOk_bumpK hd1)

theorem dataOk_strike {src : Port} {t : Nat} {x : (Nat × Bool) × List (Nat × Bool)} {part : BitVec 4} {body : HodBody}
    (h : DataOk n o d) : DataOk n o (strike e d src t x part body) := by
  unfold strike
  extract_lets d1
  have hd1 : DataOk n o d1 := h.keep
  exact dataOk_ite (dataOk_eccReport (dataOk_countPorts hd1)) (dataOk_send (dataOk_bumpK hd1))

theorem dataOk_reqTo {src : Port} {t j : Nat} {x : JEntry} {take : Dp → Dp} (htake : ∀ d, DataOk n o d → DataOk n o (take d)) (h : DataOk n o d) :
    DataOk n o (reqTo e d src t j x take) := by
  unfold reqTo
  extract_lets p body counted
  refine dataOk_ite (dataOk_fencedReply (dataOk_countPorts h)) (dataOk_ite (htake _ (dataOk_tookHod (dataOk_countPorts h))) ?_)
  split
  · exact dataOk_strike h
  · exact dataOk_send h

theorem dataOk_loadWake {t : Nat} (h : DataOk n o d) : DataOk n o (loadWake e d t) :=
  dataOk_setTile h

/-! ### Locks, semaphores and events -/

theorem dataOk_noteRaw {t : Nat} {b : Brick} {handle : Dword} {tag : Word} {agent : Nat} {gang : BitVec 6} {op : AOp} {st : Status} {course : Word}
    (h : DataOk n o d) : DataOk n o (noteRaw e d t b handle tag agent gang op st course) := by
  unfold noteRaw
  extract_lets d1 d2 hit old d3 old1
  have hd1 : DataOk n o d1 := dataOk_bumpT h
  have hd2 : DataOk n o d2 := dataOk_bumpT hd1
  have hd3 : DataOk n o d3 := dataOk_ite hd2.keep hd2
  exact dataOk_trace hd3

theorem dataOk_noteOp {t : Nat} {b : Brick} {j : Nat} {x : JEntry} {st : Status} {course : Word}
    (h : DataOk n o d) : DataOk n o (noteOp e d t b j x st course) :=
  dataOk_noteRaw h

theorem dataOk_homeAnswer {t i k : Nat} {b : Brick} {j : Nat} {x : JEntry} {before : List Hod} {r : Resp}
    (h : DataOk n o d) : DataOk n o (homeAnswer e d t i k b j x before r) := by
  unfold homeAnswer
  extract_lets d1
  have hd1 : DataOk n o d1 := dataOk_noteOp h
  exact dataOk_emit hd1

theorem dataOk_noteGrants {t : Nat} {b : Brick} {handle : Dword} {l : List QEv} (h : DataOk n o d) : DataOk n o (noteGrants e t b handle l d) := by
  induction l generalizing d with
  | nil => exact h
  | cons x l ih =>
    cases x with
    | hint _ _ _ _ => exact ih h
    | grant _ _ _ => exact ih (dataOk_trace (dataOk_bumpP h))

theorem dataOk_setBody {i : Nat} {b : Brick} {body : Body} (h : DataOk n o d) : DataOk n o (setBody d i b body) :=
  dataOk_setBrick h

theorem dataOk_markPended {j entry : Nat} (h : DataOk n o d) : DataOk n o (markPended d j entry) :=
  dataOk_modEntry h

theorem dataOk_lockHome {t i : Nat} {b : Brick} {l : Lock} {j : Nat} {x : JEntry} (h : DataOk n o d) : DataOk n o (lockHome e d t i b l j x) := by
  unfold lockHome
  extract_lets agent h1 old
  split
  · split
    · next hx2 =>
        extract_lets w
        split
        · extract_lets d1 d3
          have hd1 : DataOk n o d1 := dataOk_setBody (dataOk_of_snd (dataOk_ite_snd (dataOk_nextFree h) h) hx2)
          have hd3 : DataOk n o d3 := dataOk_noteOp (dataOk_markPended hd1)
          split
          · extract_lets d4 d5
            have hd4 : DataOk n o d4 := dataOk_ite (dataOk_bumpT hd1) hd1
            have hd5 : DataOk n o d5 := dataOk_ite (dataOk_bumpP hd4) hd4
            exact dataOk_homeAnswer hd5
          · exact dataOk_emit hd3
  · split
    · extract_lets d1 d2
      have hd1 : DataOk n o d1 := dataOk_setBody h
      have hd2 : DataOk n o d2 := dataOk_ite hd1 (dataOk_bumpP hd1)
      exact dataOk_homeAnswer hd2
  · split
    · extract_lets d1 d2 d3
      have hd1 : DataOk n o d1 := dataOk_setBody h
      have hd2 : DataOk n o d2 := dataOk_ite (dataOk_bumpT hd1) hd1
      have hd3 : DataOk n o d3 := dataOk_noteGrants hd2
      exact dataOk_homeAnswer hd3
  · exact dataOk_homeAnswer h
  · exact dataOk_homeAnswer h

theorem dataOk_semHome {t i : Nat} {b : Brick} {s : Sem} {j : Nat} {x : JEntry} (h : DataOk n o d) : DataOk n o (semHome e d t i b s j x) := by
  unfold semHome
  extract_lets h1 cnt w0 old
  split
  · split
    · next hx2 =>
        extract_lets w
        split
        · extract_lets d1 d3
          have hd1 : DataOk n o d1 := dataOk_setBody (dataOk_of_snd (dataOk_ite_snd (dataOk_nextFree h) h) hx2)
          have hd3 : DataOk n o d3 := dataOk_noteOp (dataOk_markPended hd1)
          split
          · extract_lets d4 d5
            have hd4 : DataOk n o d4 := dataOk_ite (dataOk_bumpT hd1) hd1
            have hd5 : DataOk n o d5 := dataOk_ite (dataOk_bumpP hd4) hd4
            exact dataOk_homeAnswer hd5
          · exact dataOk_emit hd3
  · split
    · extract_lets d1 d2
      have hd1 : DataOk n o d1 := dataOk_setBody h
      have hd2 : DataOk n o d2 := dataOk_ite (dataOk_bumpP hd1) hd1
      exact dataOk_homeAnswer hd2
  · split
    · extract_lets d1 d2
      have hd1 : DataOk n o d1 := dataOk_setBody h
      have hd2 : DataOk n o d2 := dataOk_noteGrants hd1
      exact dataOk_homeAnswer hd2
  · exact dataOk_homeAnswer h
  · exact dataOk_homeAnswer h

theorem dataOk_waitExpiry {i agent : Nat} {gang : BitVec 6} (h : DataOk n o d) : DataOk n o (waitExpiry e d i agent gang) := by
  unfold waitExpiry
  extract_lets t b h1 old
  split
  · exact h
  · split
    · exact h
    · extract_lets go
      split
      · split
        · exact dataOk_emit (dataOk_noteGrants (dataOk_trace (dataOk_touchSlot (dataOk_bumpT (dataOk_setBody h)))))
      · split
        · exact dataOk_emit (dataOk_noteGrants (dataOk_trace (dataOk_touchSlot (dataOk_bumpT (dataOk_setBody h)))))
      · exact h

/-! ### Answers -/

theorem dataOk_carry {p : BitVec 4} {count : Word} (h : DataOk n o d) : DataOk n o (carry d p count) := by
  unfold carry
  extract_lets slot old
  split
  · exact h
  · exact dataOk_ite h h.keep

theorem dataOk_pushHint {j : Nat} {hint : Hint} (h : DataOk n o d) : DataOk n o (pushHint e d j hint) := by
  unfold pushHint
  extract_lets x same
  exact dataOk_ite (dataOk_setJoint_same h) (dataOk_ite (dataOk_bumpK h) (dataOk_ite (dataOk_setJoint_same h) (dataOk_setJoint_same h)))

theorem dataOk_deliver {j : Nat} {slot : BitVec 3} {rid : BitVec 10} {r : Resp} {ahead : Nat}
    (h : DataOk n o d) : DataOk n o (deliver e d j slot rid r ahead) := by
  unfold deliver
  extract_lets x x1 d1 d2
  have hd1 : DataOk n o d1 := dataOk_setJoint_same h
  have hd2 : DataOk n o d2 := dataOk_ite (dataOk_bumpK hd1) hd1
  split
  · exact hd2
  · extract_lets d3 d4 d5
    have hd3 : DataOk n o d3 := dataOk_bumpP hd2
    have hd4 : DataOk n o d4 := dataOk_ite (dataOk_bumpP hd3) hd3
    have hd5 : DataOk n o d5 := dataOk_ite (dataOk_bumpP hd4) hd4
    exact dataOk_ite (dataOk_carry hd5) hd5

theorem dataOk_answer {j id : Nat} {r : Resp} (h : DataOk n o d) : DataOk n o (answer e d j id r) := by
  unfold answer
  split
  · exact dataOk_bumpK h
  · extract_lets y d1 n1 d2
    have hd1 : DataOk n o d1 := dataOk_setJoint_filter h
    have hd2 : DataOk n o d2 := dataOk_ite (dataOk_pushHint hd1) hd1
    exact dataOk_deliver hd2

theorem dataOk_answerMany {j : Nat} {l : List JEntry} {f : JEntry → Resp} (h : DataOk n o d) : DataOk n o (answerMany e d j l f) :=
  dataOk_foldl (fun _ _ h2 => dataOk_answer h2) h

theorem dataOk_respondNumbered {key : IncKey} {a : Await} (h : DataOk n o d) : DataOk n o (respondNumbered e d key a) := by
  unfold respondNumbered
  extract_lets src old d1 old1
  have hd1 : DataOk n o d1 := by
    unfold d1
    split
    · exact dataOk_modEntry h
    · exact h
  split
  · extract_lets r
    split
    · exact dataOk_answer h
    · exact dataOk_deliver h
  · exact hd1.keep

theorem dataOk_refuseAccess {j : Nat} {entry : Option Nat} {r : Req} {course : Word}
    (h : DataOk n o d) : DataOk n o (refuseAccess e d j entry r course) := by
  unfold refuseAccess
  extract_lets agent p rep d1
  have hd1 : DataOk n o d1 := dataOk_report h
  exact dataOk_respondNumbered hd1

/-! ### Beds -/

theorem dataOk_modBed {j : Nat} {handle : Dword} {f : Bed → Bed} (h : DataOk n o d) : DataOk n o (modBed d j handle f) := by
  unfold modBed
  extract_lets x
  exact dataOk_setJoint_same h

theorem dataOk_dropBed {j : Nat} {handle : Dword} {waiting : Bool} (h : DataOk n o d) : DataOk n o (dropBed d j handle waiting) := by
  unfold dropBed
  extract_lets x
  exact dataOk_setJoint_same h

theorem dataOk_dropNewBed {j : Nat} {handle : Dword} {made : Nat} (h : DataOk n o d) : DataOk n o (dropNewBed d j handle made) := by
  unfold dropNewBed
  extract_lets x
  exact dataOk_setJoint_same h

theorem dataOk_sendComplete {j : Nat} {handle : Dword} (h : DataOk n o d) : DataOk n o (sendComplete e d j handle) := by
  unfold sendComplete
  split
  · exact h
  · extract_lets sum none_ old arr d1
    have hd1 : DataOk n o d1 := dataOk_modBed h
    exact dataOk_ite h (dataOk_send hd1)

theorem dataOk_pendFor {j id : Nat} {target : Word} (h : DataOk n o d) : DataOk n o (pendFor d j id target) :=
  dataOk_modEntry h

theorem dataOk_applyArrival {j : Nat} {x : JEntry} {b : Bed} {m : BedMember} (h : DataOk n o d) : DataOk n o (applyArrival e d j x b m) := by
  unfold applyArrival
  extract_lets refuse old c d1 d2 c1 d3
  have hd1 : DataOk n o d1 := dataOk_modBed h
  have hd2 : DataOk n o d2 := dataOk_ite (dataOk_answer hd1) (dataOk_pendFor hd1)
  have hd3 : DataOk n o d3 := dataOk_modBed h
  split
  · exact dataOk_refuseAccess h
  · split
    · exact dataOk_answer h
    · split
      · exact dataOk_answer h
      · split
        · exact dataOk_answer h
        · exact dataOk_answer h
        · exact dataOk_ite (dataOk_send hd2) (dataOk_sendComplete hd2)
        · exact dataOk_ite (dataOk_answer h) (dataOk_ite (dataOk_answer hd3) (dataOk_pendFor hd3))

theorem dataOk_addForwarded {j : Nat} {handle : Dword} {id : Nat} (h : DataOk n o d) : DataOk n o (addForwarded d j handle id) := by
  unfold addForwarded
  extract_lets x
  exact dataOk_setJoint_same h

theorem dataOk_dropForwarded {j : Nat} {handle : Dword} (h : DataOk n o d) : DataOk n o (dropForwarded d j handle) := by
  unfold dropForwarded
  extract_lets x
  exact dataOk_setJoint_same h

theorem dataOk_forwardWait {j : Nat} {x : JEntry} (h : DataOk n o d) : DataOk n o (forwardWait e d j x) := by
  unfold forwardWait
  extract_lets h1 t d1
  have hd1 : DataOk n o d1 := dataOk_modEntry (dataOk_addForwarded h)
  exact dataOk_ite (dataOk_pendFor h) (dataOk_send hd1)

theorem dataOk_bedWait {j : Nat} {x : JEntry} {b : Bed} (h : DataOk n o d) : DataOk n o (bedWait e d j x b) := by
  unfold bedWait
  extract_lets t old
  split
  · exact dataOk_refuseAccess h
  · split
    · exact dataOk_answer h
    · split
      · exact dataOk_answer h
      · exact dataOk_ite (dataOk_pendFor h) (dataOk_answer h)

theorem dataOk_countLate {j : Nat} {p : BitVec 4} (h : DataOk n o d) : DataOk n o (countLate e d j p) :=
  dataOk_bumpP (dataOk_bumpK h)

theorem dataOk_completeOne {j : Nat} {r : Rel} {b : Option Bed} {x : JEntry} (h : DataOk n o d) : DataOk n o (completeOne e j r b d x) := by
  unfold completeOne
  extract_lets wave y
  split
  · exact dataOk_answer h
  · exact dataOk_ite (dataOk_answer (dataOk_ite h (dataOk_countLate h))) (dataOk_setJoint_same h)

theorem dataOk_completeWaits {j : Nat} {r : Rel} {b : Option Bed} {l : List JEntry} (h : DataOk n o d) : DataOk n o (completeWaits e d j r b l) :=
  dataOk_foldl (fun _ _ h2 => dataOk_completeOne h2) h

theorem dataOk_settleBed {j : Nat} {b : Bed} (h : DataOk n o d) : DataOk n o (settleBed e d j b) := by
  unfold settleBed
  extract_lets l d1
  have hd1 : DataOk n o d1 := dataOk_answerMany h
  exact dataOk_foldl (fun _ _ h2 => dataOk_forwardWait (dataOk_modEntry h2)) hd1

theorem dataOk_discardArrivals {j count : Nat} (h : DataOk n o d) : DataOk n o (discardArrivals e d j count) :=
  dataOk_bumpK h

theorem dataOk_switchBed {j : Nat} {r : Rel} {old nw : Option Bed} (h : DataOk n o d) : DataOk n o (switchBed e d j r old nw) := by
  unfold switchBed
  split
  · split
    · exact h
    · exact dataOk_ite h (dataOk_settleBed (dataOk_dropBed (dataOk_discardArrivals h)))
  · split
    · extract_lets d1 y n1
      have hd1 : DataOk n o d1 := dataOk_dropNewBed h
      exact dataOk_setJoint_same hd1
    · split
      · extract_lets outs lost d1 l d2 d3 d4 keep n1 y
        have hd1 : DataOk n o d1 := dataOk_discardArrivals h
        have hd2 : DataOk n o d2 := dataOk_answerMany hd1
        have hd3 : DataOk n o d3 := dataOk_answerMany hd2
        have hd4 : DataOk n o d4 := dataOk_dropNewBed (dataOk_dropBed hd3)
        exact dataOk_setJoint_same hd4

theorem dataOk_openCourse {j : Nat} {handle : Dword} {r : Rel} (h : DataOk n o d) : DataOk n o (openCourse e d j handle r) := by
  unfold openCourse
  split
  · exact h
  · extract_lets b2 plain d1
    have hd1 : DataOk n o d1 := dataOk_modBed h
    exact dataOk_sendComplete (dataOk_foldl (fun _ _ h2 => dataOk_send h2) hd1)

theorem dataOk_releaseWaits {j : Nat} {r : Rel} {old : Bed} {l : List JEntry} (h : DataOk n o d) : DataOk n o (releaseWaits e d j r old l) := by
  unfold releaseWaits
  extract_lets nw
  refine dataOk_foldl (fun d2 x2 h2 => ?_) h
  split
  · exact dataOk_completeOne h2
  · split
    · exact dataOk_answer h2
    · exact h2

theorem dataOk_applyCourse {j : Nat} {r : Rel} {old : Option Bed} (h : DataOk n o d) : DataOk n o (applyCourse e d j r old) := by
  unfold applyCourse
  extract_lets nw d1
  have hd1 : DataOk n o d1 := dataOk_ite (dataOk_switchBed h) (dataOk_modBed h)
  exact dataOk_ite h (dataOk_openCourse hd1)

theorem dataOk_applyRelease {j : Nat} {r : Rel} (h : DataOk n o d) : DataOk n o (applyRelease e d j r) := by
  unfold applyRelease
  extract_lets old l d1 d2 d3
  have hd1 : DataOk n o d1 := by
    unfold d1
    clear_value old
    split
    · exact h
    · exact dataOk_releaseWaits h
  have hd2 : DataOk n o d2 := dataOk_ite (dataOk_modBed h) h
  have hd3 : DataOk n o d3 := dataOk_answerMany hd2
  split
  · exact dataOk_applyCourse hd1
  · split
    · exact dataOk_dropBed (dataOk_dropBed (dataOk_discardArrivals hd3))
    · exact hd3

theorem dataOk_unwatch {j : Nat} {handle : Dword} {i : Nat} (h : DataOk n o d) : DataOk n o (unwatch e d j handle i) :=
  dataOk_send (dataOk_dropForwarded h)

theorem dataOk_applyWatcher {j : Nat} {r : Rel} (h : DataOk n o d) : DataOk n o (applyWatcher e d j r) := by
  unfold applyWatcher
  extract_lets ended l d1 left
  have hd1 : DataOk n o d1 := dataOk_ite (dataOk_answerMany h) (dataOk_completeWaits h)
  exact dataOk_ite hd1 (dataOk_ite (dataOk_unwatch hd1) (dataOk_ite (dataOk_foldl (fun _ _ h2 => dataOk_forwardWait h2) (dataOk_unwatch hd1)) hd1))

theorem dataOk_departBed {j slot : Nat} {b : Bed} (h : DataOk n o d) : DataOk n o (departBed e d j slot b) := by
  unfold departBed
  split
  · exact h
  · extract_lets d1 x1 d2 agent d3
    have hd1 : DataOk n o d1 := dataOk_discardArrivals h
    have hd2 : DataOk n o d2 := dataOk_setJoint_same hd1
    have hd3 : DataOk n o d3 := dataOk_send hd2
    exact dataOk_ite hd2 (dataOk_sendComplete hd3)

/-! ### Links -/

theorem dataOk_holdOut {x : FabOut} (h : DataOk n o d) : DataOk n o (holdOut d x) :=
  h.keep

theorem dataOk_wireOut {x : FabOut} (h : DataOk n o d) : DataOk n o (wireOut e d x) :=
  dataOk_ite h (dataOk_ite (dataOk_holdOut h) (dataOk_fabOut h))

theorem dataOk_packOut {x : FabOut} (h : DataOk n o d) : DataOk n o (packOut e d x) :=
  dataOk_ite (dataOk_holdOut h) (dataOk_fabOut h)

theorem dataOk_stampOut {x : FabOut} (h : DataOk n o d) : DataOk n o (stampOut e d x).2 := by
  unfold stampOut
  split
  · split
    · exact h
    · split
      · exact h
      · extract_lets g old
        exact h.keep
  · exact h

theorem dataOk_releaseHeld (h : DataOk n o d) : DataOk n o (releaseHeld e d) := by
  unfold releaseHeld
  refine dataOk_foldl (fun d2 x2 h2 => ?_) h.keep
  split
  · next hx => exact dataOk_ite (dataOk_wireOut (dataOk_of_snd (dataOk_stampOut h2) hx)) (dataOk_packOut (dataOk_of_snd (dataOk_stampOut h2) hx))

theorem dataOk_bumpR {r ctr count : Nat} (h : DataOk n o d) : DataOk n o (bumpR e d r ctr count) :=
  dataOk_bumpK h

theorem dataOk_pumpAux {r k : Nat} (h : DataOk n o d) : DataOk n o (pumpAux e r k d) := by
  induction k generalizing d with
  | zero => exact h
  | succ k ih =>
    unfold pumpAux
    extract_lets l
    split
    · exact h
    · split
      · exact h
      · split
        · extract_lets f l2 d1 d2
          have hd1 : DataOk n o d1 := dataOk_wireOut (dataOk_setLink h)
          have hd2 : DataOk n o d2 := dataOk_bumpR (dataOk_bumpR hd1)
          exact dataOk_ite h (ih hd2)

theorem dataOk_pump {r : Nat} (h : DataOk n o d) : DataOk n o (pump e d r) :=
  dataOk_pumpAux h

theorem dataOk_pumpTile {r : Nat} (h : DataOk n o d) : DataOk n o (pumpTile e d r) :=
  dataOk_foldl (fun _ _ h2 => dataOk_pump h2) (dataOk_pump h)

theorem dataOk_silentTimer {r : Nat} (h : DataOk n o d) : DataOk n o (silentTimer e d r) := by
  unfold silentTimer
  extract_lets l
  exact dataOk_ite h (dataOk_setLink h)

theorem dataOk_useLink {r : Nat} (h : DataOk n o d) : DataOk n o (useLink e d r) := by
  unfold useLink
  extract_lets l
  exact dataOk_ite (dataOk_setLink h) (dataOk_silentTimer h)

theorem dataOk_startSync {r : Nat} (h : DataOk n o d) : DataOk n o (startSync e d r) := by
  unfold startSync
  extract_lets l d1 ep d2
  have hd1 : DataOk n o d1 := dataOk_ite h (dataOk_stillBusy h)
  have hd2 : DataOk n o d2 := dataOk_setLink hd1
  exact dataOk_wireOut hd2

theorem dataOk_queueHod {r : Nat} {record : HodRec} (h : DataOk n o d) : DataOk n o (queueHod e d r record) := by
  unfold queueHod
  extract_lets l d1
  have hd1 : DataOk n o d1 := dataOk_setLink h
  exact dataOk_ite h (dataOk_ite (dataOk_pump hd1) (dataOk_ite hd1 (dataOk_startSync hd1)))

theorem dataOk_keepSent {r : Nat} {sender : Dword} {record : HodRec} (h : DataOk n o d) : DataOk n o (keepSent d r sender record) := by
  unfold keepSent
  extract_lets l same wait
  exact dataOk_setLink h

theorem dataOk_putRecord {route : BitVec 8} {die : BitVec 3} {record : HodRec} (h : DataOk n o d) : DataOk n o (putRecord e d route die record) :=
  dataOk_ite (dataOk_ite h.keep (dataOk_ite h (dataOk_packOut (dataOk_bumpR h)))) (dataOk_queueHod h)

theorem dataOk_linkHod {i : Nat} {route : BitVec 8} {record : HodRec} (h : DataOk n o d) : DataOk n o (linkHod e d i route record) := by
  unfold linkHod
  extract_lets d1 d2
  have hd1 : DataOk n o d1 := dataOk_trace h
  have hd2 : DataOk n o d2 := dataOk_keepSent hd1
  exact dataOk_putRecord hd2

theorem dataOk_sendUp {i : Nat} {record : HodRec} (h : DataOk n o d) : DataOk n o (sendUp e d i record) := by
  unfold sendUp
  split
  · exact h
  · exact dataOk_ite h (dataOk_ite (dataOk_ite h (dataOk_linkHod h)) (dataOk_linkHod (dataOk_ite h (dataOk_linkHod h))))

theorem dataOk_sendChild {i : Nat} {c : Child} {record : HodRec} {except : Dword}
    (h : DataOk n o d) : DataOk n o (sendChild e d i c record except) := by
  unfold sendChild
  extract_lets d1
  have hd1 : DataOk n o d1 := dataOk_ite h (dataOk_linkHod h)
  exact dataOk_ite hd1 (dataOk_linkHod hd1)

theorem dataOk_sendKids {i : Nat} {record : HodRec} {except : Dword} (h : DataOk n o d) : DataOk n o (sendKids e d i record except) := by
  unfold sendKids
  split
  · exact h
  · exact dataOk_foldl (fun _ _ h2 => dataOk_ite (dataOk_sendChild h2) h2) h

theorem dataOk_sendTwin {i : Nat} {record : HodRec} (h : DataOk n o d) : DataOk n o (sendTwin e d i record) := by
  unfold sendTwin
  split
  · exact h
  · exact dataOk_ite (dataOk_linkHod h) h

theorem dataOk_sendKid {i : Nat} {k : KidHod} (h : DataOk n o d) : DataOk n o (sendKid e i d k) := by
  unfold sendKid
  split
  · exact dataOk_sendTwin h
  · extract_lets d1
    have hd1 : DataOk n o d1 := by
      unfold d1
      split
      · exact h.keep
      · exact h
    exact dataOk_sendKids hd1

theorem dataOk_emitKids {i : Nat} {l : List KidHod} (h : DataOk n o d) : DataOk n o (emitKids e d i l) := by
  unfold emitKids
  split
  · exact dataOk_ite h.keep (dataOk_foldl (fun _ _ h2 => dataOk_sendKid h2) h)
  · exact dataOk_foldl (fun _ _ h2 => dataOk_sendKid h2) h

theorem dataOk_spreadPoison {i : Nat} {course : Word} {from_ : Dword} (h : DataOk n o d) : DataOk n o (spreadPoison e d i course from_) := by
  unfold spreadPoison
  split
  · exact h
  · extract_lets h1 d1 d2 d3
    have hd1 : DataOk n o d1 := dataOk_ite (dataOk_linkHod h) h
    have hd2 : DataOk n o d2 := dataOk_ite (dataOk_linkHod hd1) hd1
    have hd3 : DataOk n o d3 := dataOk_ite (dataOk_linkHod hd2) hd2
    exact dataOk_sendKids hd3

/-! ### Barriers -/

theorem dataOk_setBarrier {i : Nat} {x : Barrier} (h : DataOk n o d) : DataOk n o (setBarrier d i x) :=
  dataOk_setBody h

theorem dataOk_buildTree {t i : Nat} {course : Word} {waiting : Bool} {js : List (Nat × Nat)}
    (h : DataOk n o d) : DataOk n o (buildTree e d t i course waiting js) := by
  unfold buildTree
  extract_lets home paths routers branch d1
  have hd1 : DataOk n o d1 := dataOk_foldl (fun _ _ h2 => dataOk_ite h2.keep (dataOk_bumpK h2)) h
  exact hd1.keep

theorem dataOk_dropTree {i : Nat} {waiting : Bool} (h : DataOk n o d) : DataOk n o (dropTree d i waiting) :=
  h.keep

theorem dataOk_setMirRuns {i : Nat} {f : List (Nat × Nat) → List (Nat × Nat)} (h : DataOk n o d) : DataOk n o (setMirRuns d i f) := by
  unfold setMirRuns
  split
  · exact h
  · extract_lets l d1 d2
    have hd1 : DataOk n o d1 := dataOk_unbindRuns h
    have hd2 : DataOk n o d2 := dataOk_foldl (fun _ _ h2 => dataOk_bindRun h2) hd1
    exact hd2.keep

theorem dataOk_freeRun {i : Nat} {b : Brick} {r : Run} {waiting : Bool} (h : DataOk n o d) : DataOk n o (freeRun e d i b r waiting) := by
  unfold freeRun
  extract_lets d1 d2
  have hd1 : DataOk n o d1 := dataOk_unbindRun h
  have hd2 : DataOk n o d2 := dataOk_setMirRuns hd1
  exact dataOk_refundG hd2

theorem dataOk_switchRun {i : Nat} {b : Brick} {old new : Run} (h : DataOk n o d) : DataOk n o (switchRun e d i b old new) :=
  dataOk_ite (dataOk_refundG (dataOk_setMirRuns (dataOk_bindRun (dataOk_unbindRun h)))) (dataOk_freeRun h)

theorem dataOk_dropWaiting {i : Nat} {b : Brick} {x : Barrier} (h : DataOk n o d) : DataOk n o (dropWaiting e d i b x) := by
  unfold dropWaiting
  split
  · exact dataOk_ite h (dataOk_freeRun h)
  · exact dataOk_ite h (dataOk_freeRun h)
  · exact h

theorem dataOk_freeRuns {i : Nat} {b : Brick} {x : Barrier} (h : DataOk n o d) : DataOk n o (freeRuns e d i b x) := by
  unfold freeRuns
  extract_lets d1
  have hd1 : DataOk n o d1 := dataOk_dropWaiting h
  split
  · exact dataOk_freeRun hd1
  · exact hd1

theorem dataOk_closeCourse {i : Nat} {b : Brick} {x : Barrier} {by_ : Option HodClose} {carry : Nat}
    (h : DataOk n o d) : DataOk n o (closeCourse e d i b x by_ carry) := by
  unfold closeCourse
  extract_lets t h1 lt course shrunk st expect switch gone x1 x2 x3 d1 unbond root old
  have hd1 : DataOk n o d1 := by
    unfold d1
    split
    · exact dataOk_switchRun h
    · exact h
  split
  · split
    · extract_lets g1
      split
      · extract_lets x41 x51 timed instant rel outs d2 d3 d4 d5 d6 d7 d8 d9 kids d10
        have hd2 : DataOk n o d2 := dataOk_setBarrier hd1
        have hd3 : DataOk n o d3 := dataOk_dropTree hd2
        have hd4 : DataOk n o d4 := dataOk_ite hd3.keep (dataOk_ite (dataOk_dropTree hd2) hd2.keep)
        have hd5 : DataOk n o d5 := dataOk_bumpP hd4
        have hd6 : DataOk n o d6 := dataOk_ite (dataOk_bumpP hd5) hd5
        have hd7 : DataOk n o d7 := dataOk_trace hd6
        have hd8 : DataOk n o d8 := hd7.keep
        have hd9 : DataOk n o d9 := by
          unfold d9
          clear_value lt
          split
          · exact hd8
          · exact hd8.keep
        have hd10 : DataOk n o d10 := dataOk_emitKids (dataOk_emit hd9)
        exact dataOk_ite (dataOk_sendUp hd10) hd10

theorem dataOk_closeIfDone {i carry k : Nat} (h : DataOk n o d) : DataOk n o (closeIfDone e i carry k d) := by
  induction k generalizing carry d with
  | zero => exact h
  | succ k ih =>
    unfold closeIfDone
    extract_lets b
    split
    · split
      · exact h
      · split
        · exact dataOk_ite (dataOk_ite h (dataOk_sendUp ((dataOk_setBarrier h).keep))) (ih (dataOk_closeCourse h))
        · exact ih (dataOk_closeCourse h)
    · exact h

theorem dataOk_settleBarrier {i carry : Nat} (h : DataOk n o d) : DataOk n o (settleBarrier e d i carry) :=
  dataOk_emit (dataOk_closeIfDone h)

theorem dataOk_discardHod {t : Nat} (h : DataOk n o d) : DataOk n o (discardHod e d t) :=
  dataOk_bumpT h

theorem dataOk_countArrival {i : Nat} {x : Barrier} {count k : Nat} {tag : Word} {p : Payload}
    (h : DataOk n o d) (hr : countArrival e d i x count k tag p = some d2) : DataOk n o d2 := by
  unfold countArrival at hr
  extract_lets old x1 at hr
  split at hr
  · cases hr
    exact dataOk_settleBarrier (dataOk_setBarrier h)
  · split at hr
    · cases hr
      exact dataOk_settleBarrier (dataOk_setBarrier h)
    · split at hr
      · cases hr
      · cases hr
        exact dataOk_settleBarrier (dataOk_setBarrier h)

theorem dataOk_takeArrival {a : Arrival} (h : DataOk n o d) : DataOk n o (takeArrival e d a) := by
  unfold takeArrival
  extract_lets t b d1
  have hd1 : DataOk n o d1 := dataOk_touchSlot h
  split
  · split
    · exact dataOk_discardHod h
    · split
      · next hx2 => exact dataOk_countArrival (dataOk_noteRaw hd1) hx2
      · exact dataOk_send (dataOk_bumpT hd1)
  · exact dataOk_discardHod h

theorem dataOk_poisonBrick {i : Nat} {key : IncKey} {from_ : Dword} (h : DataOk n o d) : DataOk n o (poisonBrick e d i key from_) := by
  unfold poisonBrick
  extract_lets b t h1
  split
  · exact dataOk_ite h (dataOk_spreadPoison (dataOk_sendNumbered (dataOk_emitNone ((dataOk_setBarrier h).keep))))
  · exact h

theorem dataOk_departPoison {i agent : Nat} (h : DataOk n o d) : DataOk n o (departPoison e d i agent) := by
  unfold departPoison
  extract_lets b key old d1
  have hd1 : DataOk n o d1 := dataOk_report h
  exact dataOk_poisonBrick hd1

theorem dataOk_shrinkBarrier {i : Nat} {x : Barrier} {now_ next_ : Nat} {agent : Option Nat}
    (h : DataOk n o d) : DataOk n o (shrinkBarrier e d i x now_ next_ agent) := by
  unfold shrinkBarrier
  extract_lets gone x1 x2 x3
  exact dataOk_settleBarrier (dataOk_setBarrier h)

theorem dataOk_takeShrink {i : Nat} {course : Word} {now_ next_ ex agent : Nat}
    (h : DataOk n o d) : DataOk n o (takeShrink e d i course now_ next_ ex agent) := by
  unfold takeShrink
  extract_lets b d1
  have hd1 : DataOk n o d1 := dataOk_touchSlot h
  split
  · exact dataOk_ite h (dataOk_ite (dataOk_ite hd1 (dataOk_departPoison hd1)) (dataOk_ite (dataOk_shrinkBarrier hd1) (dataOk_shrinkBarrier hd1)))
  · exact h

theorem dataOk_combSend {c : Comb} {a : Arrival} {part : BitVec 4} (h : DataOk n o d) : DataOk n o (combSend e d c a part) :=
  dataOk_ite h (dataOk_send h.keep)

theorem dataOk_combTake {hod : Hod} {r : Nat} (h : DataOk n o d) : DataOk n o (combTake e d hod r) := by
  unfold combTake
  split
  · split
    · exact dataOk_passOn h
    · extract_lets cfg c d1
      have hd1 : DataOk n o d1 := h.keep
      split
      · exact h
      · clear_value cfg
        split
        · exact dataOk_ite (dataOk_passOn h) (dataOk_combSend h.keep)
        · exact dataOk_combSend hd1
  · split
    · exact dataOk_passOn h
    · split
      · extract_lets c d1 d2 b
        have hd1 : DataOk n o d1 := h.keep
        have hd2 : DataOk n o d2 := dataOk_passOn hd1
        exact dataOk_combSend hd2
  · exact h

theorem dataOk_poisonReply {t i : Nat} {b : Brick} {x : Barrier} {j entry : Nat}
    (h : DataOk n o d) : DataOk n o (poisonReply e d t i b x j entry) := by
  unfold poisonReply
  extract_lets old h1
  split
  · exact dataOk_sendNumbered h
  · exact dataOk_emit h

theorem dataOk_barrierHome {t i : Nat} {b : Brick} {x : Barrier} {j : Nat} {y : JEntry}
    (h : DataOk n o d) : DataOk n o (barrierHome e d t i b x j y) := by
  unfold barrierHome
  extract_lets refuse poisonedNow old tg
  split
  · exact dataOk_ite (dataOk_homeAnswer h) (dataOk_ite (dataOk_poisonReply (dataOk_noteOp h))
      (dataOk_ite (dataOk_homeAnswer h) (dataOk_ite (dataOk_homeAnswer h) (dataOk_homeAnswer h))))
  · exact dataOk_ite (dataOk_homeAnswer h) (dataOk_ite (dataOk_poisonReply (dataOk_noteOp h))
      (dataOk_ite (dataOk_homeAnswer h) (dataOk_ite (dataOk_homeAnswer h) (dataOk_homeAnswer h))))
  · exact dataOk_homeAnswer h
  · exact dataOk_ite (dataOk_homeAnswer h) (dataOk_ite (dataOk_poisonReply (dataOk_noteOp h)) (dataOk_homeAnswer h))

theorem dataOk_watchHome {t i : Nat} {b : Brick} {x : Barrier} {j : Nat} {y : JEntry}
    (h : DataOk n o d) : DataOk n o (watchHome e d t i b x j y) := by
  unfold watchHome
  extract_lets tg
  split
  · exact dataOk_homeAnswer h
  · split
    · exact dataOk_poisonReply (dataOk_noteOp h)
    · split
      · exact dataOk_homeAnswer h
      · split
        · exact dataOk_homeAnswer h
        · extract_lets d1
          have hd1 : DataOk n o d1 := dataOk_setBody h
          exact dataOk_emitNone (dataOk_noteOp (dataOk_markPended hd1))

theorem dataOk_expireBarrier {i : Nat} {b : Brick} {x : Barrier} (h : DataOk n o d) : DataOk n o (expireBarrier e d i b x) := by
  unfold expireBarrier
  extract_lets t h1 key js outs d1 old d2 d3 d4 d5
  have hd1 : DataOk n o d1 := dataOk_setBarrier h
  have hd2 : DataOk n o d2 := dataOk_trace hd1
  have hd3 : DataOk n o d3 := dataOk_emitNone hd2
  have hd4 : DataOk n o d4 := dataOk_ite (dataOk_sendNumbered hd3) (dataOk_emit hd3)
  have hd5 : DataOk n o d5 := dataOk_foldl (fun _ _ h2 => dataOk_send h2) hd4
  exact dataOk_ite (dataOk_sendKids hd5) hd5

theorem dataOk_sweepReport {i : Nat} {b : Brick} {w : SweepRec} {answers : List (Nat × BitVec 8)}
    (h : DataOk n o d) : DataOk n o (sweepReport e d i b w answers) := by
  unfold sweepReport
  extract_lets agents old
  exact dataOk_report h

theorem dataOk_dropAnswers {i : Nat} {p : Word → Bool} (h : DataOk n o d) : DataOk n o (dropAnswers d i p) :=
  h.keep

theorem dataOk_dropAnswer {i : Nat} {course : Word} {j : Nat} (h : DataOk n o d) : DataOk n o (dropAnswer i course d j) := by
  unfold dropAnswer
  split
  · exact h.keep
  · exact h

theorem dataOk_collectOne {i : Nat} {b : Brick} {force : Bool} {w : SweepRec} (h : DataOk n o d) : DataOk n o (collectOne e i b force d w) := by
  unfold collectOne
  extract_lets a d1
  have hd1 : DataOk n o d1 := dataOk_foldl (fun _ _ h2 => dataOk_dropAnswer h2) h
  split
  · exact h
  · exact dataOk_ite h (dataOk_ite (dataOk_sweepReport (dataOk_setBarrier hd1)) (dataOk_setBarrier hd1))

theorem dataOk_collectSweep {i : Nat} {force : Bool} (h : DataOk n o d) : DataOk n o (collectSweep e d i force) := by
  unfold collectSweep
  extract_lets b
  split
  · exact dataOk_foldl (fun _ _ h2 => dataOk_collectOne h2) (dataOk_dropAnswers h)
  · exact dataOk_dropAnswers h

theorem dataOk_setLintel {i : Nat} {l : Lintel} (h : DataOk n o d) : DataOk n o (setLintel d i l) :=
  h.keep

theorem dataOk_probeDone {i : Nat} {x : Barrier} {l : Lintel} {sent latest : Dword}
    (h : DataOk n o d) : DataOk n o (probeDone e d i x l sent latest) := by
  unfold probeDone
  extract_lets d1 old
  have hd1 : DataOk n o d1 := dataOk_setLintel h
  exact dataOk_ite (dataOk_sendUp hd1) (dataOk_setBarrier hd1)

theorem dataOk_probeOn {i : Nat} (h : DataOk n o d) : DataOk n o (probeOn e d i) := by
  unfold probeOn
  split
  · split
    · extract_lets w
      exact dataOk_ite (dataOk_probeDone h) (dataOk_setLintel h)
    · exact h
  · exact h

/-! ### Pallets -/

theorem dataOk_modStripe {i k : Nat} {f : Stripe → Stripe} (h : DataOk n o d) : DataOk n o (modStripe d i k f) := by
  unfold modStripe
  split
  · exact dataOk_setStripe h
  · exact h

theorem dataOk_palReply {i k joint entry agent : Nat} {gang : BitVec 6} {tag : Word} {op : AOp} {r : Resp}
    (h : DataOk n o d) : DataOk n o (palReply e d i k joint entry agent gang tag op r) := by
  unfold palReply
  extract_lets t b d1
  have hd1 : DataOk n o d1 := dataOk_noteRaw h
  exact dataOk_emit hd1

theorem dataOk_palFaulted {i k : Nat} {s : Stripe} {joint entry agent : Nat} {gang : BitVec 6} {tag : Word} {op : AOp}
    (h : DataOk n o d) : DataOk n o (palFaulted e d i k s joint entry agent gang tag op) := by
  unfold palFaulted
  extract_lets t b r d1
  have hd1 : DataOk n o d1 := dataOk_noteRaw h
  exact dataOk_sendNumbered hd1

theorem dataOk_nudgeWaiting {i k : Nat} (h : DataOk n o d) : DataOk n o (nudgeWaiting e d i k) := by
  unfold nudgeWaiting
  split
  · exact h
  · extract_lets js b t
    split
    · exact h
    · extract_lets d1
      have hd1 : DataOk n o d1 := dataOk_setStripe h
      exact dataOk_emit hd1

theorem dataOk_startRefill {i k : Nat} (h : DataOk n o d) : DataOk n o (startRefill e d i k) := by
  unfold startRefill
  split
  · exact h
  · exact dataOk_ite (dataOk_bumpT (dataOk_setTile (dataOk_setStripe h))) h

theorem dataOk_palPend {i k : Nat} {g : GetOp} (h : DataOk n o d) : DataOk n o (palPend e d i k g) := by
  unfold palPend
  extract_lets t b d1 d2 d3
  have hd1 : DataOk n o d1 := dataOk_modStripe h
  have hd2 : DataOk n o d2 := by
    unfold d2
    split
    · exact dataOk_markPended hd1
    · exact dataOk_modStripe h
  have hd3 : DataOk n o d3 := dataOk_noteRaw hd2
  exact dataOk_emitNone hd3

theorem dataOk_palEmpty {i k : Nat} {s : Stripe} {g : GetOp} (h : DataOk n o d) : DataOk n o (palEmpty e d i k s g) := by
  unfold palEmpty
  extract_lets n1 nextK t s1 d1 old
  have hd1 : DataOk n o d1 := dataOk_setStripe h
  exact dataOk_ite (dataOk_ite (dataOk_send h) (dataOk_ite (dataOk_palReply h) (dataOk_palPend h)))
    (dataOk_ite (dataOk_palReply hd1) (dataOk_send (dataOk_emitNone hd1)))

theorem dataOk_palServe {i k : Nat} {s : Stripe} {g : GetOp} (h : DataOk n o d) : DataOk n o (palServe e d i k s g) := by
  unfold palServe
  extract_lets m stolen toks s2 b d1 d2 d3
  have hd1 : DataOk n o d1 := dataOk_bumpP (dataOk_setStripe h)
  have hd2 : DataOk n o d2 := dataOk_ite (dataOk_bumpP hd1) hd1
  have hd3 : DataOk n o d3 := dataOk_palReply hd2
  exact dataOk_ite (dataOk_setStripe h) (dataOk_startRefill hd3)

theorem dataOk_palGet {i k : Nat} {g : GetOp} {back : Bool} (h : DataOk n o d) : DataOk n o (palGet e d i k g back) := by
  unfold palGet
  split
  · exact h
  · extract_lets home
    exact dataOk_ite (dataOk_setStripe h) (dataOk_ite (dataOk_palReply h)
      (dataOk_ite (dataOk_ite (dataOk_ite (dataOk_palFaulted h) (dataOk_palPend h)) (dataOk_palEmpty h))
        (dataOk_ite (dataOk_ite (dataOk_palPend h) (dataOk_palEmpty h)) (dataOk_palServe h))))

theorem dataOk_drainGets {i k l : Nat} (h : DataOk n o d) : DataOk n o (drainGets e i k l d) := by
  induction l generalizing d with
  | zero => exact h
  | succ l ih =>
    unfold drainGets
    split
    · exact h
    · split
      · exact h
      · extract_lets d1
        have hd1 : DataOk n o d1 := dataOk_setStripe h
        exact dataOk_ite (ih (dataOk_palReply hd1)) (dataOk_ite (ih (dataOk_ite (dataOk_palPend hd1) (dataOk_palEmpty hd1)))
          (dataOk_ite h (ih (dataOk_palServe hd1))))

theorem dataOk_serveGets {i k : Nat} (h : DataOk n o d) : DataOk n o (serveGets e d i k) := by
  unfold serveGets
  split
  · exact dataOk_ite h (dataOk_drainGets h)
  · exact h

theorem dataOk_palStored {i k : Nat} {s : Stripe} {p : PutOp} (h : DataOk n o d) : DataOk n o (palStored e d i k s p) := by
  unfold palStored
  extract_lets n1 s1 d1 d2
  have hd1 : DataOk n o d1 := dataOk_bumpP (dataOk_setStripe h)
  have hd2 : DataOk n o d2 := dataOk_palReply hd1
  exact dataOk_nudgeWaiting hd2

theorem dataOk_palReturn {i k from_ : Nat} {p : PutOp} (h : DataOk n o d) : DataOk n o (palReturn e d i k from_ p) :=
  dataOk_send h

theorem dataOk_palPut {i k : Nat} {p : PutOp} (h : DataOk n o d) : DataOk n o (palPut e d i k p) := by
  unfold palPut
  split
  · exact h
  · extract_lets n1 sibling answer fwd t
    split
    · clear_value sibling
      split
      · exact dataOk_palReturn h
      · exact dataOk_palFaulted h
    · split
      · exact dataOk_setStripe h
      · split
        · exact dataOk_palReply h
        · split
          · clear_value sibling
            split
            · exact dataOk_palReturn h
            · exact dataOk_palReply h
          · clear_value fwd
            split
            · extract_lets d1 d2
              have hd1 : DataOk n o d1 := dataOk_setStripe h
              have hd2 : DataOk n o d2 := dataOk_bumpT (dataOk_emitNone hd1)
              exact dataOk_send hd2
            · exact dataOk_ite (dataOk_palStored h) (dataOk_setStripe h)

theorem dataOk_drainPuts {i k l : Nat} (h : DataOk n o d) : DataOk n o (drainPuts e i k l d) := by
  induction l generalizing d with
  | zero => exact h
  | succ l ih =>
    unfold drainPuts
    split
    · exact h
    · split
      · exact h
      · split
        · exact h
        · exact ih (dataOk_palPut (dataOk_setStripe h))

theorem dataOk_ringWrites {part : BitVec 4} {s : Stripe} {toks : List Dword} (h : DataOk n o d) : DataOk n o (ringWrites d part s toks) := by
  unfold ringWrites
  extract_lets at_ first put d1
  have hd1 : DataOk n o d1 := dataOk_memWrite h
  exact dataOk_ite (dataOk_memWrite hd1) hd1

theorem dataOk_palResume {i k : Nat} (h : DataOk n o d) : DataOk n o (palResume e d i k) := by
  unfold palResume
  split
  · exact h
  · exact dataOk_ite h (dataOk_drainPuts (dataOk_nudgeWaiting (dataOk_serveGets (dataOk_startRefill (dataOk_setStripe h)))))

theorem dataOk_ringWritten {i k : Nat} (h : DataOk n o d) : DataOk n o (ringWritten e d i k) := by
  unfold ringWritten
  split
  · exact h
  · split
    · exact h
    · exact dataOk_ite h (dataOk_ite (dataOk_palResume (dataOk_startRefill (dataOk_palStored (dataOk_stillBusy (dataOk_ringWrites h)))))
        (dataOk_drainPuts (dataOk_startRefill (dataOk_palStored (dataOk_stillBusy (dataOk_ringWrites h))))))

theorem dataOk_dropRefill {i k : Nat} (h : DataOk n o d) : DataOk n o (dropRefill e d i k) := by
  unfold dropRefill
  extract_lets t x
  exact dataOk_setTile h

theorem dataOk_stolenResult {i k : Nat} {s : Stripe} (h : DataOk n o d) : DataOk n o (stolenResult e d i k s) := by
  unfold stolenResult
  split
  · extract_lets v
    exact dataOk_countPorts (dataOk_stillBusy (dataOk_tookHod h))
  · exact h

theorem dataOk_refillRead {part : BitVec 4} {s : Stripe} {count : Nat} (h : DataOk n o d) : DataOk n o (refillRead d part s count) := by
  unfold refillRead
  extract_lets at_ first d1
  have hd1 : DataOk n o d1 := dataOk_memRead h
  exact dataOk_ite (dataOk_memRead hd1) hd1

theorem dataOk_refilled {i k : Nat} (h : DataOk n o d) : DataOk n o (refilled e d i k) := by
  unfold refilled
  split
  · exact h
  · split
    · exact h
    · exact dataOk_ite h (dataOk_ite (dataOk_emitNone (dataOk_setStripe
        (dataOk_stillBusy (dataOk_stolenResult (dataOk_dropRefill (dataOk_refillRead h))))))
          (dataOk_ite (dataOk_palResume (dataOk_emitNone (dataOk_serveGets
            (dataOk_startRefill (dataOk_setStripe (dataOk_stillBusy (dataOk_stolenResult (dataOk_dropRefill (dataOk_refillRead h)))))))))
              (dataOk_emitNone (dataOk_serveGets (dataOk_startRefill
                (dataOk_setStripe (dataOk_stillBusy (dataOk_stolenResult (dataOk_dropRefill (dataOk_refillRead h))))))))))

theorem dataOk_ringFault {i k : Nat} {refill : Bool} {addr : Dword} (h : DataOk n o d) : DataOk n o (ringFault e d i k refill addr) := by
  unfold ringFault
  split
  · exact h
  · extract_lets out b t s d1 old d2 d3 d4
    have hd1 : DataOk n o d1 := dataOk_setStripe (dataOk_ite (dataOk_dropRefill h) h)
    have hd2 : DataOk n o d2 := dataOk_report hd1
    have hd3 : DataOk n o d3 := dataOk_setStripe hd2
    have hd4 : DataOk n o d4 := dataOk_foldl (fun _ _ h2 => dataOk_palGet h2) hd3
    exact dataOk_ite h (dataOk_emitNone (dataOk_foldl (fun _ _ h2 => dataOk_palPut h2) hd4))

theorem dataOk_palGo {i k : Nat} (h : DataOk n o d) : DataOk n o (palGo e d i k) := by
  unfold palGo
  split
  · exact h
  · exact dataOk_ite h (dataOk_drainPuts (dataOk_serveGets (dataOk_startRefill h)))

theorem dataOk_stripeHome {i k : Nat} {s : Stripe} {j : Nat} {x : JEntry} (h : DataOk n o d) : DataOk n o (stripeHome e d i k s j x) := by
  unfold stripeHome
  extract_lets t b old
  split
  · exact dataOk_palPut h
  · exact dataOk_palGet h
  · exact dataOk_palGet h
  · exact dataOk_homeAnswer h
  · exact dataOk_homeAnswer h

theorem dataOk_stripeLost {i k j entry : Nat} {key : IncKey} (h : DataOk n o d) : DataOk n o (stripeLost e d i k j entry key) :=
  dataOk_sendNumbered h

theorem dataOk_stripeRun {i k j : Nat} {x : JEntry} (h : DataOk n o d) : DataOk n o (stripeRun e d i k j x) := by
  unfold stripeRun
  split
  · exact h
  · split
    · exact dataOk_stripeLost (dataOk_noteOp h)
    · exact dataOk_stripeHome h

theorem dataOk_palletHome {t i : Nat} {b : Brick} {k j : Nat} {x : JEntry} (h : DataOk n o d) : DataOk n o (palletHome e d t i b k j x) := by
  unfold palletHome
  extract_lets blank token want
  split
  · exact dataOk_ite (dataOk_homeAnswer h) (dataOk_homeAnswer h)
  · exact dataOk_ite (dataOk_homeAnswer h) (dataOk_ite (dataOk_stripeRun h) (dataOk_reqTo (fun _ h2 => dataOk_stripeRun h2) h))

/-! ### Home tiles -/

theorem dataOk_eventHome {t i : Nat} {b : Brick} {v : Event} {j : Nat} {x : JEntry} (h : DataOk n o d) : DataOk n o (eventHome e d t i b v j x) := by
  unfold eventHome
  extract_lets h1 v2 d1 old
  have hd1 : DataOk n o d1 := dataOk_setBody h
  split
  · exact dataOk_ite (dataOk_homeAnswer h) (dataOk_homeAnswer (dataOk_setBody h))
  · exact dataOk_ite (dataOk_homeAnswer h) (dataOk_emitNone (dataOk_noteOp (dataOk_markPended hd1)))
  · exact dataOk_homeAnswer (dataOk_setBody h)
  · exact dataOk_homeAnswer h
  · exact dataOk_homeAnswer h

theorem dataOk_homeRefuse {t j : Nat} {x : JEntry} {st : Status} (h : DataOk n o d) : DataOk n o (homeRefuse e d t j x st) :=
  dataOk_sendHod h

theorem dataOk_homeDenied {t k j : Nat} {x : JEntry} (h : DataOk n o d) : DataOk n o (homeDenied e d t k j x) := by
  unfold homeDenied
  extract_lets p rep i r
  exact dataOk_sendNumbered (dataOk_report h)

theorem dataOk_homeExec {t k j : Nat} {x : JEntry} (h : DataOk n o d) : DataOk n o (homeExec e d t k j x) := by
  unfold homeExec
  extract_lets h1 i b d1
  have hd1 : DataOk n o d1 := dataOk_touchSlot h
  split
  · exact dataOk_homeRefuse h
  · split
    · exact dataOk_homeRefuse h
    · split
      · exact dataOk_sendNumbered h
      · split
        · exact dataOk_homeDenied h
        · split
          · exact dataOk_lockHome hd1
          · exact dataOk_semHome hd1
          · exact dataOk_eventHome hd1
          · exact dataOk_palletHome hd1
          · exact dataOk_ite (dataOk_watchHome hd1) (dataOk_barrierHome hd1)

theorem dataOk_homeTake {t j : Nat} {x : JEntry} (h : DataOk n o d) : DataOk n o (homeTake e d t j x) := by
  unfold homeTake
  extract_lets i
  exact dataOk_ite (dataOk_homeRefuse h) (dataOk_ite (dataOk_park h) (dataOk_homeExec h))

theorem dataOk_homeAt {t j : Nat} {x : JEntry} (h : DataOk n o d) : DataOk n o (homeAt e d t j x) := by
  unfold homeAt
  extract_lets i home k
  exact dataOk_ite (dataOk_homeTake h) (dataOk_ite (dataOk_homeExec h) (dataOk_reqTo (fun _ h2 => dataOk_homeTake h2) h))

theorem dataOk_homeReq {k j : Nat} {x : JEntry} (h : DataOk n o d) : DataOk n o (homeReq e d k j x) := by
  unfold homeReq
  extract_lets t
  exact dataOk_reqTo (fun _ h2 => dataOk_homeAt h2) h

theorem dataOk_takeReq {count : Nat} (h : DataOk n o d) : DataOk n o (takeReq e d count) := by
  unfold takeReq
  split
  · exact h
  · split
    · exact dataOk_ite (dataOk_fencedReply (dataOk_dropHod h)) (dataOk_ite (dataOk_homeAt (dataOk_tookHod (dataOk_dropHod h))) h)
    · exact h

theorem dataOk_serveOne {t : Nat} (h : DataOk n o d) : DataOk n o (serveOne e d t) := by
  unfold serveOne
  split
  · exact h
  · exact dataOk_takeReq h

theorem dataOk_serveTiles (h : DataOk n o d) : DataOk n o (serveTiles e d) :=
  dataOk_foldl (fun _ _ h2 => dataOk_serveOne h2) h

end Sys2Proof.Machine
end

section
/-! Rings, descriptors, joints, hods and fetches keep the data path in order (DpOk). -/

namespace Sys2Proof.Machine

open Sys2Proof.Safety

set_option Elab.async false

variable {n m : Nat} {o : Option Nat} {e : Env} {d d2 : Dp}

/-! ### Rings and completions -/

theorem dataOk_readForRing {r : RingId} {addr len : Nat} (h : DataOk n o d) : DataOk n o (readForRing d r addr len) :=
  dataOk_ite h (dataOk_memRead h)

theorem dataOk_setWin {owner : Owner} {incident : Bool} {w : IrqWin} (h : DataOk n o d) : DataOk n o (setWin d owner incident w) := by
  unfold setWin
  split
  · exact dataOk_setPart_same h
  · exact dataOk_setPart_same h
  · exact h.keep

theorem dataOk_ownerPulse {owner : Owner} {incident : Bool} (h : DataOk n o d) : DataOk n o (ownerPulse e d owner incident) := by
  unfold ownerPulse
  extract_lets d1
  have hd1 : DataOk n o d1 := dataOk_pulse h
  split
  · exact hd1
  · exact dataOk_bumpK hd1

theorem dataOk_interrupt {owner : Owner} {incident : Bool} (h : DataOk n o d) : DataOk n o (interrupt e d owner incident) := by
  unfold interrupt
  extract_lets w g quiet d1
  have hd1 : DataOk n o d1 := dataOk_setWin h
  split
  · exact dataOk_setWin (dataOk_ownerPulse h)
  · split
    · exact dataOk_bumpP hd1
    · exact hd1

theorem dataOk_mergeExpiry {owner : Owner} {incident : Bool} (h : DataOk n o d) : DataOk n o (mergeExpiry e d owner incident) := by
  unfold mergeExpiry
  extract_lets w g
  split
  · exact dataOk_ite (dataOk_setWin (dataOk_ownerPulse h)) h
  · exact h

theorem dataOk_finishDesc {r : RingId} {c : Compl} (h : DataOk n o d) : DataOk n o (finishDesc e d r c) := by
  unfold finishDesc
  extract_lets g d1
  have hd1 : DataOk n o d1 := by
    unfold d1
    split
    · exact dataOk_bumpP h
    · exact h
  exact dataOk_ite (dataOk_setRing hd1) (dataOk_setRing hd1)

theorem dataOk_putCompl {owner : Owner} {c : Compl} (h : DataOk n o d) : DataOk n o (putCompl e d owner c) := by
  unfold putCompl
  extract_lets q n1 phase d1 d2 d3 d4
  have hd1 : DataOk n o d1 := dataOk_memWrite h
  have hd2 : DataOk n o d2 := dataOk_setCmpl hd1
  have hd3 : DataOk n o d3 := dataOk_finishDesc hd2
  have hd4 : DataOk n o d4 := by
    unfold d4
    split
    · exact dataOk_ite (dataOk_carry hd3) hd3
    · exact hd3
  exact dataOk_ite (dataOk_interrupt hd4) hd4

theorem dataOk_complete {r : RingId} {c : Compl} (h : DataOk n o d) : DataOk n o (complete e d r c) := by
  unfold complete
  extract_lets o1 q waiting d1 g
  have hd1 : DataOk n o d1 := by
    unfold d1
    clear_value o1
    split
    · exact dataOk_bumpP h
    · exact h
  split
  · exact dataOk_finishDesc hd1
  · exact dataOk_ite (dataOk_putCompl h) (dataOk_setRing h.keep)

theorem dataOk_heldWrite {owner : Owner} (h : DataOk n o d) : DataOk n o (heldWrite e d owner) := by
  unfold heldWrite
  extract_lets q
  split
  · exact h
  · split
    · exact h
    · extract_lets d1
      have hd1 : DataOk n o d1 := h.keep
      split
      · refine dataOk_finishDesc ?_
        split
        · exact dataOk_bumpP hd1
        · exact hd1
      · exact h
      · exact dataOk_ite (dataOk_putCompl hd1) h

theorem dataOk_completeNumbered {r : RingId} {src : Source} {key : IncKey} {c : Compl}
    (h : DataOk n o d) : DataOk n o (completeNumbered e d r src key c) := by
  unfold completeNumbered
  split
  · exact dataOk_complete h
  · extract_lets old i old1
    exact dataOk_setRing h.keep

theorem dataOk_completeWith {r : RingId} {x : BitVec 512} {st : Status} (h : DataOk n o d) : DataOk n o (completeWith e d r x st) :=
  dataOk_complete h

theorem dataOk_noteDesc {t : Nat} {r : RingId} {x : BitVec 512} {handle : Dword} {st : Status}
    (h : DataOk n o d) : DataOk n o (noteDesc e d t r x handle st) := by
  unfold noteDesc
  extract_lets d1 old
  have hd1 : DataOk n o d1 := dataOk_bumpT h
  exact dataOk_trace hd1

theorem dataOk_slotsCome {r : RingId} (h : DataOk n o d) (h2 : DataOk n o d2) : DataOk n o (slotsCome e r d d2) :=
  dataOk_ite (dataOk_foldl (fun _ _ h => dataOk_foldl (fun _ _ h => dataOk_drainSlot h) h) (dataOk_setRing h)) h2

theorem dataOk_ringAccess {t : Nat} {r : RingId} {x : BitVec 512} {handle : Dword} {c : Compl}
    (h : DataOk n o d) : DataOk n o (ringAccess e d t r x handle c) := by
  unfold ringAccess
  extract_lets o1 rep
  exact dataOk_completeNumbered (dataOk_report h)

theorem dataOk_descHop {r : RingId} {t : Nat} (h : DataOk n o d) : DataOk n o (descHop e d r t) := by
  unfold descHop
  split
  · exact dataOk_ite h (dataOk_mgmtHods h)
  · exact h

theorem dataOk_descLost {r : RingId} {x : BitVec 512} {err : (Nat × Bool) × List (Nat × Bool)}
    (h : DataOk n o d) : DataOk n o (descLost e d r x err) := by
  unfold descLost
  extract_lets l d1 old
  have hd1 : DataOk n o d1 := dataOk_eccReport (dataOk_countPorts h.keep)
  exact dataOk_setRing hd1

theorem dataOk_runDesc {r : RingId} {op : Nat} {k : Nat → BitVec 512 → Dp}
    (h : DataOk n o d) (hk : ∀ t x, DataOk n o (k t x)) : DataOk n o (runDesc e d r op k) := by
  unfold runDesc
  split
  · exact h
  · split
    · exact h
    · split
      · exact dataOk_ringAccess h
      · exact dataOk_completeWith h
      · split
        · exact dataOk_descLost h
        · exact hk _ _

theorem dataOk_skipUndefined {r : RingId} {k : Nat} (h : DataOk n o d) : DataOk n o (skipUndefined e r k d) := by
  induction k generalizing d with
  | zero => exact h
  | succ k ih =>
    unfold skipUndefined
    split
    · exact h
    · exact dataOk_ite (ih (dataOk_completeWith h)) h

theorem dataOk_afterDesc {r : RingId} (h : DataOk n o d) : DataOk n o (afterDesc e r d) :=
  dataOk_skipUndefined h

theorem dataOk_takeBatch {r : RingId} {t count : Nat} (h : DataOk n o d) : DataOk n o (takeBatch e d r t count) := by
  unfold takeBatch
  split
  · exact h
  · extract_lets x1 d1 d2
    have hd1 : DataOk n o d1 := dataOk_setTile h
    have hd2 : DataOk n o d2 := dataOk_stillBusy (dataOk_stillBusy hd1)
    exact dataOk_ite hd2 (dataOk_mgmtHods hd2)

theorem dataOk_clearBatches {r : RingId} (h : DataOk n o d) : DataOk n o (clearBatches d r) :=
  h.keep

theorem dataOk_fetchBatch {r : RingId} {l : List (BitVec 512)} (h : DataOk n o d) : DataOk n o (fetchBatch e d r l) := by
  unfold fetchBatch
  extract_lets g d1
  have hd1 : DataOk n o d1 := dataOk_foldl (fun _ _ h2 => dataOk_memRead h2) h
  split
  · exact h
  · exact dataOk_ite (dataOk_afterDesc (dataOk_setRing (dataOk_ite (dataOk_clearBatches (dataOk_takeBatch hd1)) (dataOk_takeBatch hd1)))) h

theorem dataOk_outFault {q : OutRingId} {addr : Dword} (h : DataOk n o d) : DataOk n o (outFault e d q addr) := by
  unfold outFault
  split
  · extract_lets x1 d1
    have hd1 : DataOk n o d1 := dataOk_setCmpl h
    exact dataOk_ite (dataOk_report hd1) h
  · extract_lets x1 d1
    have hd1 : DataOk n o d1 := dataOk_setIncRing h
    exact dataOk_ite (dataOk_report hd1) h

theorem dataOk_doorbellNotice {owner : Owner} {count : Nat} (h : DataOk n o d) : DataOk n o (doorbellNotice e d owner count) := by
  unfold doorbellNotice
  extract_lets key old
  exact dataOk_report h

theorem dataOk_doorbellRefused {owner : Owner} {amount : Nat} {count : Word}
    (h : DataOk n o d) : DataOk n o (doorbellRefused e d owner amount count) := by
  unfold doorbellRefused
  extract_lets d1 old
  have hd1 : DataOk n o d1 := dataOk_bumpK h
  exact dataOk_report hd1

theorem dataOk_pushBatches {r : RingId} {count : Nat} (h : DataOk n o d) : DataOk n o (pushBatches e d r count) := by
  unfold pushBatches
  split
  · exact h
  · extract_lets x1
    exact dataOk_setTile h

theorem dataOk_rereadRing {t : Nat} {r : RingId} (h : DataOk n o d) : DataOk n o (rereadRing e t d r) := by
  unfold rereadRing
  extract_lets g n1 d1
  have hd1 : DataOk n o d1 := dataOk_setRing (dataOk_clearBatches h)
  exact dataOk_ite h (dataOk_pushBatches hd1)

theorem dataOk_rereadRings {t : Nat} (h : DataOk n o d) : DataOk n o (rereadRings e d t) :=
  dataOk_foldl (fun _ _ h2 => dataOk_rereadRing h2) h

theorem dataOk_followFront {e2 : Env} (h : DataOk n o d) : DataOk n o (followFront e e2 d) := by
  unfold followFront
  refine dataOk_foldl (fun d2 x2 h2 => ?_) h
  split
  · extract_lets l old d1 old1
    have hd1 : DataOk n o d1 := dataOk_setTile h2
    exact dataOk_ite h2 (dataOk_setTile hd1)
  · exact h2

theorem dataOk_ringSubmit {r : RingId} {resume : Bool} (h : DataOk n o d) : DataOk n o (ringSubmit e d r resume) := by
  unfold ringSubmit
  extract_lets o1 g count
  exact dataOk_ite (dataOk_doorbellNotice h) (dataOk_ite (dataOk_doorbellRefused h)
    (dataOk_ite (dataOk_pushBatches (dataOk_setRing (dataOk_clearBatches h))) (dataOk_pushBatches (dataOk_setRing h))))

theorem dataOk_consumed {owner : Owner} {amount : Nat} {x : OutRing} {put : Dp → OutRing → Dp} {resume : Bool} (h : DataOk n o d)
    (hput : ∀ x, DataOk n o (put d x)) : DataOk n o (consumed e d owner amount x put resume) := by
  unfold consumed
  extract_lets count
  exact dataOk_ite (dataOk_doorbellNotice h) (dataOk_ite (dataOk_doorbellRefused h) (hput _))

theorem dataOk_orderFence {r : RingId} {x : BitVec 512} (h : DataOk n o d) : DataOk n o (orderFence e d r x) := by
  unfold orderFence
  extract_lets m old
  split
  · exact dataOk_completeWith h
  · extract_lets ts
    exact dataOk_ite (dataOk_completeWith h) (dataOk_setRing h)

theorem dataOk_fencePassed {r : RingId} (h : DataOk n o d) : DataOk n o (fencePassed e d r) := by
  unfold fencePassed
  extract_lets g
  split
  · exact dataOk_ite (dataOk_afterDesc (dataOk_completeWith (dataOk_setRing h))) h
  · exact h

/-! ### Allocation -/

theorem dataOk_createBrick {a : AllocReq} {i : Nat} {r : Dword × Bool}
    (h : DataOk n o d) (hr : createBrick e d a i = some (d2, r)) : DataOk n o d2 := by
  unfold createBrick at hr
  extract_lets t full m g nopin b handle old d1 at hr
  have hd1 : DataOk n o d1 := (dataOk_setBrick h).keep
  clear_value d1
  split at hr
  · split at hr
    · cases hr
    · split at hr
      · cases hr
      · next hslot =>
        exact dataOk_of_map hr (fun _ hmir => (dataOk_takeSlot (dataOk_takeSlot hd1 hslot) hmir).keep)
  · cases hr
  · split at hr
    · next hslot =>
      cases hr
      exact dataOk_takeSlot hd1 hslot
    · cases hr
      exact hd1

theorem dataOk_createMany {a : AllocReq} {l : List Nat} {r : List Dword × Bool}
    (h : DataOk n o d) (hr : createMany e a l d = some (d2, r)) : DataOk n o d2 := by
  induction l generalizing d d2 r with
  | nil =>
    cases hr
    exact h
  | cons i l ih =>
    unfold createMany at hr
    split at hr
    · cases hr
    · next hx =>
        refine dataOk_of_map hr (fun y hy => ?_)
        clear hr
        exact ih (dataOk_createBrick h hx) hy

theorem dataOk_allocTry {r : RingId} {x : BitVec 512} {q : List Nat × List Dword × Bool × Bool × Bool} (h : DataOk n o d)
    (hr : allocTry e d r x = .ok (d2, q)) : DataOk n o d2 := by
  unfold allocTry at hr
  extract_lets count p a at hr
  split at hr
  · cases hr
  · next hcharge =>
    split at hr
    · cases hr
    · split at hr
      · cases hr
      · split at hr
        · cases hr
        · next hcreate =>
          cases hr
          exact dataOk_createMany (dataOk_chargeB h hcharge) hcreate

theorem dataOk_storeNew {i : Nat} (h : DataOk n o d) : DataOk n o (storeNew e d i) := by
  unfold storeNew
  extract_lets t
  exact dataOk_ite h (dataOk_writeBack h)

theorem dataOk_brickAlloc {r : RingId} {x : BitVec 512} (h : DataOk n o d) : DataOk n o (brickAlloc e d r x) := by
  unfold brickAlloc
  extract_lets count addr refuse
  split
  · exact dataOk_completeWith h
  · refine dataOk_ite (dataOk_completeWith h) ?_
    split
    · exact dataOk_completeWith h
    · next d1 is hs od moved np htry =>
      extract_lets d2 d3 d4
      have h2 : DataOk n o d2 := dataOk_foldl (fun _ _ h => dataOk_noteDesc (dataOk_descHop h)) (dataOk_allocTry h htry)
      have h3 : DataOk n o d3 := dataOk_ite h2 (dataOk_memWrite h2)
      exact dataOk_slotsCome h (dataOk_complete (dataOk_foldl (fun _ _ h => dataOk_storeNew h) h3))

theorem dataOk_endBed {st : Status} {handle : Dword} {course : Word} {j : Nat} (h : DataOk n o d) : DataOk n o (endBed e st handle course d j) := by
  unfold endBed
  extract_lets d1 d2
  have hd1 : DataOk n o d1 := dataOk_answerMany h
  have hd2 : DataOk n o d2 := by
    unfold d2
    split
    · exact h
    · exact dataOk_discardArrivals hd1
  exact dataOk_dropBed (dataOk_dropBed hd2)

theorem dataOk_endBeds {i : Nat} {b : Brick} {st : Status} (h : DataOk n o d) : DataOk n o (endBeds e d i b st) := by
  unfold endBeds
  extract_lets h1 js course
  exact dataOk_dropTree (dataOk_dropTree (dataOk_foldl (fun _ _ h2 => dataOk_endBed h2) h))

theorem dataOk_dropLintel {i : Nat} {p : BitVec 4} (h : DataOk n o d) : DataOk n o (dropLintel e d i p) := by
  unfold dropLintel
  split
  · exact h
  · extract_lets t d1 d2
    have hd1 : DataOk n o d1 := dataOk_ite (dataOk_refundG (dataOk_unbindRun h)) h
    have hd2 : DataOk n o d2 := dataOk_dropSlot hd1
    exact dataOk_refundB hd2.keep

theorem dataOk_dropStripes {i : Nat} {b : Brick} (h : DataOk n o d) : DataOk n o (dropStripes e d i b) := by
  unfold dropStripes
  extract_lets l x d1
  have hd1 : DataOk n o d1 := by
    unfold d1
    refine dataOk_foldl (fun d2 x2 h2 => ?_) h
    extract_lets t d3 d4 d5
    have hd3 : DataOk n o d3 := dataOk_dropRefill (dataOk_ite h2 (dataOk_unbindRun h2))
    have hd4 : DataOk n o d4 := dataOk_dropSlot hd3
    have hd5 : DataOk n o d5 := by
      unfold d5
      split
      · extract_lets d6 d7
        have hd6 : DataOk n o d6 := dataOk_unbindRuns hd4
        have hd7 : DataOk n o d7 := dataOk_dropSlot hd6
        exact dataOk_ite hd6.keep hd7.keep
      · exact dataOk_dropSlot hd3
    exact hd5.keep
  exact dataOk_ite hd1 (dataOk_refundG (dataOk_refundB hd1))

theorem dataOk_dropBrick {i : Nat} (h : DataOk n o d) : DataOk n o (dropBrick e d i) := by
  unfold dropBrick
  extract_lets b t d1 d2 d3 d4 there d5 d6 d7
  have hd1 : DataOk n o d1 := dataOk_dropStripes h
  have hd2 : DataOk n o d2 := dataOk_dropLintel hd1
  have hd3 : DataOk n o d3 := by
    unfold d3
    split
    · exact dataOk_freeRuns hd2
    · exact hd2
  have hd4 : DataOk n o d4 := by
    unfold d4
    split
    · extract_lets d8
      have hd8 : DataOk n o d8 := dataOk_dropSlot (dataOk_unbindRuns hd3)
      exact hd8.keep
    · exact hd3
  have hd5 : DataOk n o d5 := dataOk_refundB hd4
  have hd6 : DataOk n o d6 := dataOk_setBrick hd5
  have hd7 : DataOk n o d7 := hd6.keep
  exact dataOk_ite (dataOk_drainSlot hd7) (dataOk_dropSlot hd7)

theorem dataOk_freeBrick {i : Nat} (h : DataOk n o d) : DataOk n o (freeBrick e d i) := by
  unfold freeBrick
  extract_lets b d1 d2 d3 d4
  have hd1 : DataOk n o d1 := by
    unfold d1
    split
    · exact dataOk_collectSweep h
    · exact h
  have hd2 : DataOk n o d2 := dataOk_sendAll hd1
  have hd3 : DataOk n o d3 := dataOk_endBeds hd2
  have hd4 : DataOk n o d4 := by
    unfold d4
    split
    · exact dataOk_sendUp hd3
    · exact hd3
  exact dataOk_dropBrick hd4

theorem dataOk_freeList {r : RingId} {x : BitVec 512} {force : Bool} {l : List (Dword × Bool)} {k : Nat} (h : DataOk n o d) :
    DataOk n o (freeList e r x force l k d).1 := by
  induction l generalizing k d with
  | nil => exact h
  | cons q l ih =>
    unfold freeList
    extract_lets i b
    split
    · exact h
    · split
      · exact h
      · exact dataOk_ite_fst h (ih (dataOk_noteDesc (dataOk_freeBrick (dataOk_descHop h))))

theorem dataOk_listDone {t : Nat} {r : RingId} {x : BitVec 512} {handle : Dword} {st : Status} {c : Compl}
    (h : DataOk n o d) : DataOk n o (listDone e d t r x handle st c) := by
  unfold listDone
  split
  · exact dataOk_ringAccess h
  · split
    · exact dataOk_completeNumbered h
    · exact dataOk_complete h

theorem dataOk_brickFree {t : Nat} {r : RingId} {x : BitVec 512} {list : List Dword} {held : List Byte}
    (h : DataOk n o d) : DataOk n o (brickFree e d t r x list held) := by
  unfold brickFree
  extract_lets count l again d1 l1 old
  have hd1 : DataOk n o d1 := dataOk_ite h (dataOk_readForRing h)
  split
  · exact dataOk_completeWith h
  · split
    · exact dataOk_completeWith h
    · split
      · exact h
      · split
        · exact h
        · split
          · next hx2 => exact dataOk_park (dataOk_setRing (dataOk_of_fst (dataOk_freeList (dataOk_setRing hd1)) hx2))
          · next hx2 => exact dataOk_listDone (dataOk_of_fst (dataOk_freeList (dataOk_setRing hd1)) hx2)

theorem dataOk_snapList {r : RingId} {x : BitVec 512} {dest : Dword} {l : List Dword} {k : Nat} (h : DataOk n o d) :
    DataOk n o (snapList e r x dest l k d).1 := by
  induction l generalizing k d with
  | nil => exact h
  | cons q l ih =>
    unfold snapList
    split
    · exact h
    · extract_lets i t d1
      have hd1 : DataOk n o d1 := dataOk_memWrite (dataOk_descHop h)
      exact dataOk_ite_fst h (dataOk_ite_fst h (ih (dataOk_noteDesc hd1)))

theorem dataOk_snapshotDesc {t : Nat} {r : RingId} {x : BitVec 512} {list : List Dword}
    (h : DataOk n o d) : DataOk n o (snapshotDesc e d t r x list) := by
  unfold snapshotDesc
  extract_lets count dest l
  split
  · exact dataOk_completeWith h
  · split
    · exact dataOk_completeWith h
    · split
      · exact h
      · split
        · exact h
        · split
          · next hx2 => exact dataOk_listDone (dataOk_of_fst (dataOk_snapList (dataOk_readForRing h)) hx2)

/-! ### Descriptors -/

theorem dataOk_fencedDesc {r : RingId} {x : BitVec 512} {t : Nat} {count : Nat} (h : DataOk n o d) : DataOk n o (fencedDesc e d r x t count) := by
  unfold fencedDesc
  extract_lets old c
  split
  · exact dataOk_completeNumbered h
  · exact dataOk_complete h

theorem dataOk_withBrick {r : RingId} {x : BitVec 512} {list : List Dword} {table : List Byte} {k : Dp → Brick → Dp} (h : DataOk n o d)
    (hk : ∀ d b, DataOk n o d → DataOk n o (k d b)) : DataOk n o (withBrick e d r x list table k) := by
  unfold withBrick
  extract_lets h1 i t d1 src b
  have hd1 : DataOk n o d1 := dataOk_descHop h
  split
  · exact dataOk_fencedDesc h
  · split
    · exact h
    · split
      · exact dataOk_completeWith h
      · split
        · exact dataOk_park (dataOk_setRing hd1)
        · split
          · exact dataOk_completeWith hd1
          · split
            · exact dataOk_completeWith hd1
            · split
              · exact dataOk_completeNumbered hd1
              · exact hk _ _ (dataOk_touchSlot hd1)

theorem dataOk_descDone {r : RingId} {x : BitVec 512} {c : Compl} (h : DataOk n o d) : DataOk n o (descDone e d r x c) :=
  dataOk_complete (dataOk_noteDesc h)

theorem dataOk_descStatus {r : RingId} {x : BitVec 512} {st : Status} (h : DataOk n o d) : DataOk n o (descStatus e d r x st) :=
  dataOk_descDone h

theorem dataOk_mapBeds {handle : Dword} {f : Bed → Bed} (h : DataOk n o d) : DataOk n o (mapBeds d handle f) :=
  h.mapJoints (fun _ => List.Subset.refl _)

theorem dataOk_armBeds {handle : Dword} {f : Bed → Bed} (h : DataOk n o d) : DataOk n o (armBeds d handle f) := by
  unfold armBeds
  extract_lets d1
  have hd1 : DataOk n o d1 := dataOk_mapBeds h
  exact hd1.keep (hs := Nat.le_succ _)

theorem dataOk_armFirst {i : Nat} {b : Brick} {y : Barrier} {v : ArmVals} (h : DataOk n o d) : DataOk n o (armFirst e d i b y v) := by
  unfold armFirst
  extract_lets y1 y2 d1
  have hd1 : DataOk n o d1 := dataOk_armBeds (dataOk_setBarrier h)
  exact hd1.keep

theorem dataOk_armPoisoned {i : Nat} {b : Brick} {y : Barrier} {v : ArmVals} (h : DataOk n o d) : DataOk n o (armPoisoned e d i b y v) := by
  unfold armPoisoned
  extract_lets h1 switch gone old y1 res fl cum grout d1 y2 d2 old1 rel d3 d4 d5 d6
  have hd1 : DataOk n o d1 := by
    unfold d1
    split
    · exact dataOk_switchRun h
    · exact h
  have hd2 : DataOk n o d2 := dataOk_setBarrier hd1
  have hd3 : DataOk n o d3 := dataOk_ite (dataOk_foldl (fun _ _ h2 => dataOk_switchBed h2) hd2) hd2
  have hd4 : DataOk n o d4 := dataOk_armBeds hd3
  have hd5 : DataOk n o d5 := dataOk_ite (dataOk_dropTree hd4) hd4
  have hd6 : DataOk n o d6 := hd5.keep
  split
  · exact hd6.keep
  · exact hd6

theorem dataOk_barrierArm {r : RingId} {x : BitVec 512} (h : DataOk n o d) : DataOk n o (barrierArm e d r x) := by
  unfold barrierArm
  extract_lets v i
  split
  · exact dataOk_completeWith h
  · refine dataOk_withBrick h (fun d2 x2 h2 => ?_)
    split
    · exact dataOk_ite (dataOk_descStatus h2) (dataOk_descDone (dataOk_emitNone
        (dataOk_setBrick (dataOk_ite (dataOk_armPoisoned h2) (dataOk_ite (dataOk_setBarrier h2) (dataOk_armFirst h2))))))
    · exact h2

theorem dataOk_replaceBeds {handle : Dword} {y : Barrier} {stays : Nat → Bool} {j : Nat}
    (h : DataOk n o d) : DataOk n o (replaceBeds e handle y stays d j) := by
  unfold replaceBeds
  extract_lets x d1
  have hd1 : DataOk n o d1 := dataOk_setJoint_same h
  split
  · exact dataOk_ite hd1 (dataOk_settleBed hd1)
  · exact hd1

theorem dataOk_installBond {i : Nat} {b : Brick} {y : Barrier} {ms : List Member} (h : DataOk n o d) : DataOk n o (installBond e d i b y ms) := by
  unfold installBond
  extract_lets h1 w js d1 d2 d3
  have hd1 : DataOk n o d1 := dataOk_foldl (fun _ _ h2 => dataOk_replaceBeds h2) (dataOk_dropTree h)
  have hd2 : DataOk n o d2 := dataOk_buildTree hd1
  have hd3 : DataOk n o d3 := dataOk_foldl (fun _ _ h2 => dataOk_setJoint_same h2) hd2
  exact hd3.keep (hs := Nat.le_succ _)

theorem dataOk_bondSet {r : RingId} {x : BitVec 512} {list : List Dword} (h : DataOk n o d) : DataOk n o (bondSet e d r x list) := by
  unfold bondSet
  extract_lets entries lchild read i ms js
  split
  · exact dataOk_completeWith h
  · split
    · exact h
    · split
      · exact dataOk_completeWith (dataOk_readForRing h)
      · refine dataOk_withBrick h (fun d2 x4 h2 => ?_)
        extract_lets d1 nb
        have hd1 : DataOk n o d1 := dataOk_readForRing h2
        split
        · exact dataOk_ite (dataOk_descStatus hd1) (dataOk_ite (dataOk_descStatus hd1)
            (dataOk_descStatus (dataOk_emitNone (dataOk_setBrick (dataOk_setBarrier (dataOk_installBond hd1))))))
        · exact hd1

theorem dataOk_placeRun {i : Nat} {b : Brick} {k : Nat} {r : Nat × Bool}
    (h : DataOk n o d) (hr : placeRun e d i b k = .ok (d2, r)) : DataOk n o d2 := by
  unfold placeRun at hr
  extract_lets t m at hr
  split at hr
  · cases hr
  · split at hr
    · cases hr
    · split at hr
      · cases hr
      · next d3 _ hcharge =>
        have h3 : DataOk n o d3 := dataOk_chargeG h hcharge
        simp only [Except.ok.injEq, Prod.mk.injEq] at hr
        obtain ⟨rfl, -⟩ := hr
        split
        · exact dataOk_setMirRuns (dataOk_bindRun h3)
        · exact dataOk_bindRun h3

theorem dataOk_applyRun {r : RingId} {x : BitVec 512} {i : Nat} {b : Brick} {y : Barrier} {c : Option GCfg} {w : Option Weights} {byCfg ends : Bool}
    (h : DataOk n o d) : DataOk n o (applyRun e d r x i b y c w byCfg ends) := by
  unfold applyRun
  extract_lets h1 wn n1 old keeps d1 res fl cum finish run d2 d3 d4
  have hd1 : DataOk n o d1 := dataOk_dropWaiting h
  have hd2 : DataOk n o d2 := by
    unfold d2
    split
    · exact dataOk_switchRun hd1
    · exact hd1
  have hd3 : DataOk n o d3 := by
    unfold d3
    split
    · exact dataOk_freeRun hd1
    · exact hd1
  have hd4 : DataOk n o d4 := by
    unfold d4
    split
    · exact dataOk_freeRun hd1
    · exact hd1
  split
  · exact dataOk_descStatus h
  · split
    · exact dataOk_descDone (dataOk_emitNone (dataOk_ite (dataOk_ite (dataOk_mapBeds (dataOk_setBarrier hd2)) (dataOk_setBarrier hd2))
        (dataOk_mapBeds (dataOk_setBarrier hd2))))
    · split
      · exact dataOk_descDone (dataOk_emitNone (dataOk_ite (dataOk_ite (dataOk_mapBeds (dataOk_setBarrier hd3)) (dataOk_setBarrier hd3))
          (dataOk_mapBeds (dataOk_setBarrier hd3))))
      · split
        · exact dataOk_descStatus h
        · split
          · exact dataOk_descStatus h
          · next hx =>
              exact dataOk_descDone (dataOk_emitNone (dataOk_ite (dataOk_ite (dataOk_mapBeds (dataOk_setBarrier (dataOk_placeRun hd4 hx)))
                (dataOk_setBarrier (dataOk_placeRun hd4 hx))) (dataOk_mapBeds (dataOk_setBarrier (dataOk_placeRun hd4 hx)))))

theorem dataOk_groutCfg {r : RingId} {x : BitVec 512} (h : DataOk n o d) : DataOk n o (groutCfg e d r x) := by
  unfold groutCfg
  split
  · exact dataOk_completeWith h
  · refine dataOk_withBrick h (fun d2 x2 h2 => ?_)
    extract_lets i c
    split
    · extract_lets w
      exact dataOk_ite (dataOk_descStatus h2) (dataOk_ite (dataOk_descStatus h2) (dataOk_applyRun h2))
    · exact h2

theorem dataOk_weightLoad {r : RingId} {x : BitVec 512} {table : List Byte} (h : DataOk n o d) : DataOk n o (weightLoad e d r x table) := by
  unfold weightLoad
  extract_lets n1 kind lanes i w
  split
  · exact dataOk_completeWith h
  · split
    · exact h
    · refine dataOk_withBrick h (fun d2 x3 h2 => ?_)
      extract_lets d1
      have hd1 : DataOk n o d1 := dataOk_readForRing h2
      split
      · extract_lets runs fits
        exact dataOk_ite (dataOk_descStatus hd1) (dataOk_applyRun hd1)
      · exact hd1

theorem dataOk_bindLintel {i : Nat} {b : Brick} {tier : Nat} {r : Lintel × Bool}
    (h : DataOk n o d) (hr : bindLintel e d i b tier = .ok (d2, r)) : DataOk n o d2 := by
  unfold bindLintel at hr
  split at hr
  · cases hr
    exact h
  · extract_lets t at hr
    split at hr
    · cases hr
    · split at hr
      · cases hr
      · next hx2 =>
          split at hr
          · cases hr
          · next hx3 =>
              cases hr
              exact dataOk_takeSlot (dataOk_chargeB h hx2) hx3

theorem dataOk_bindTable {i : Nat} {b : Brick} {l : Lintel} {r : Lintel × Bool}
    (h : DataOk n o d) (hr : bindTable e d i b l = .ok (d2, r)) : DataOk n o d2 := by
  unfold bindTable at hr
  split at hr
  · cases hr
    exact h
  · extract_lets t at hr
    split at hr
    · cases hr
    · split at hr
      · cases hr
      · next hx2 =>
          cases hr
          exact dataOk_bindRun (dataOk_chargeG h hx2)

theorem dataOk_applyLink {i : Nat} {b : Brick} {q : LinkReq} {r : Bool}
    (h : DataOk n o d) (hr : applyLink e d i b q = .ok (d2, r)) : DataOk n o d2 := by
  unfold applyLink at hr
  split at hr
  · split at hr
    · cases hr
      exact h
    · cases hr
      exact dataOk_ite (dataOk_dropLintel h.keep) (dataOk_probeOn h.keep)
  · split at hr
    · cases hr
    · next hbind =>
      split at hr
      · cases hr
      · next htable =>
        cases hr
        split at htable
        · exact (dataOk_bindTable (dataOk_bindLintel h hbind) htable).keep
        · cases htable
          exact (dataOk_bindLintel h hbind).keep

theorem dataOk_lintelLink {r : RingId} {x : BitVec 512} (h : DataOk n o d) : DataOk n o (lintelLink e d r x) := by
  unfold lintelLink
  extract_lets q i t
  split
  · exact dataOk_completeWith h
  · refine dataOk_slotsCome h ?_
    refine dataOk_withBrick h (fun d2 x2 h2 => ?_)
    split
    · split
      · exact dataOk_ringAccess (dataOk_noteDesc h2)
      · exact dataOk_descStatus h2
      · split
        · exact dataOk_descStatus h2
        · next hx3 => exact dataOk_descDone (dataOk_foldl (fun _ _ h3 => dataOk_useLink h3) (dataOk_applyLink h2 hx3))
    · exact h2

theorem dataOk_buildStripe {i : Nat} {b : Brick} {k log2 log2s : Nat} {steal : Bool} {addr : Dword} (h : DataOk n o d)
    (hr : buildStripe e d i b k log2 log2s steal addr = .ok d2) : DataOk n o d2 := by
  have hslot : ∀ {d d2 : Dp} {t : Nat} {s : SlotRef}, DataOk n o d → (if k = 0 then some d else takeSlot e d t s) = some d2 → DataOk n o d2 := by
    intro d d2 t s h hr
    split at hr
    · exact Option.some.inj hr ▸ h
    · exact dataOk_takeSlot h hr
  unfold buildStripe at hr
  extract_lets t full at hr
  generalize (if k = 0 then !mayHold e d i else full t) = busy at hr
  split at hr
  · cases hr
  · split at hr
    · cases hr
    · next base _ =>
      split at hr
      · cases hr
      · next d3 hs =>
        have h3 : DataOk n o d3 := hslot h hs
        extract_lets d4 at hr
        have h4 : DataOk n o d4 := dataOk_bindRun h3
        clear_value d4
        split at hr
        · cases hr
          exact dataOk_setStripe h4
        · split at hr
          · cases hr
          · next mt _ =>
            split at hr
            · cases hr
            · split at hr
              · next mb d5 _ hs5 =>
                cases hr
                have h5 : DataOk n o (setStripe (bindRun d5 mt mb 9) i k (Stripe.fresh k log2 log2s steal addr base mt)) :=
                  dataOk_setStripe (dataOk_bindRun (hslot h4 hs5))
                exact h5.keep
              · cases hr

theorem dataOk_buildStripes {i : Nat} {b : Brick} {log2 log2s : Nat} {steal : Bool} {addr : Dword} {l : List Nat} (h : DataOk n o d)
    (hr : buildStripes e i b log2 log2s steal addr l d = .ok d2) : DataOk n o d2 := by
  induction l generalizing d with
  | nil =>
    cases hr
    exact h
  | cons k l ih =>
    unfold buildStripes at hr
    split at hr
    · cases hr
    · next hx => exact ih (dataOk_buildStripe h hx) hr

theorem dataOk_forgetStripes {i : Nat} (h : DataOk n o d) : DataOk n o (forgetStripes d i) :=
  h.mapJoints (fun _ => List.Subset.refl _)

theorem dataOk_retryStripe {i : Nat} {q : Nat × Stripe} (h : DataOk n o d) : DataOk n o (retryStripe e i d q) := by
  unfold retryStripe
  extract_lets s d1 t old
  have hd1 : DataOk n o d1 := dataOk_setStripe h
  exact dataOk_ite (dataOk_setTile hd1) hd1

theorem dataOk_palletBuild {r : RingId} {x : BitVec 512} {i : Nat} {b : Brick} (h : DataOk n o d) : DataOk n o (palletBuild e d r x i b) := by
  unfold palletBuild
  extract_lets log2s n1 again f
  split
  · exact dataOk_descStatus h
  · split
    · exact dataOk_fencedDesc (dataOk_noteDesc h)
    · split
      · exact dataOk_descStatus h
      · next hx2 =>
          split
          · exact dataOk_descStatus h
          · next hx3 =>
              split
              · exact dataOk_descStatus h
              · next hx4 =>
                  extract_lets d1 src
                  have hd1 : DataOk n o d1 :=
                    dataOk_ite (dataOk_forgetStripes (dataOk_chargeG (dataOk_chargeB (dataOk_buildStripes (dataOk_dropStripes h) hx2) hx3) hx4))
                      (dataOk_chargeG (dataOk_chargeB (dataOk_buildStripes (dataOk_dropStripes h) hx2) hx3) hx4)
                  exact dataOk_descDone hd1

theorem dataOk_palletCfg {r : RingId} {x : BitVec 512} (h : DataOk n o d) : DataOk n o (palletCfg e d r x) := by
  unfold palletCfg
  split
  · exact dataOk_completeWith h
  · exact dataOk_slotsCome h (dataOk_withBrick h (fun _ _ h2 => dataOk_ite (dataOk_palletBuild h2)
      (dataOk_ite (dataOk_descStatus h2) (dataOk_descStatus (dataOk_foldl (fun _ _ h3 => dataOk_retryStripe h3) h2)))))

/-! ### Joints -/

theorem dataOk_cacheStripes {j i l : Nat} (h : DataOk n o d) : DataOk n o (cacheStripes d j i l) := by
  unfold cacheStripes
  extract_lets x rest rest1
  exact dataOk_setJoint_same h

theorem dataOk_palSend {j : Nat} {x : JEntry} (h : DataOk n o d) : DataOk n o (palSend e d j x) := by
  unfold palSend
  extract_lets i k d1
  have hd1 : DataOk n o d1 := by
    unfold d1
    split
    · exact dataOk_cacheStripes h
    · exact h
  exact dataOk_homeReq hd1

theorem dataOk_sendHome {j : Nat} {x : JEntry} (h : DataOk n o d) : DataOk n o (sendHome e d j x) := by
  unfold sendHome
  extract_lets d1 x1
  have hd1 : DataOk n o d1 := dataOk_modEntry h
  exact dataOk_ite (dataOk_palSend hd1) (dataOk_homeReq hd1)

theorem dataOk_sendOldest {j : Nat} {x : JEntry} (h : DataOk n o d) : DataOk n o (sendOldest e d j x) :=
  dataOk_ite (dataOk_pendFor h) (dataOk_sendHome (dataOk_addForwarded h))

theorem dataOk_runEntry {j : Nat} {x : JEntry} (h : DataOk n o d) : DataOk n o (runEntry e d j x) := by
  unfold runEntry
  split
  · exact dataOk_answer h
  · extract_lets h1
    split
    · split
      · split
        · exact dataOk_applyArrival h
        · exact dataOk_sendHome h
      · exact dataOk_sendHome h
    · split
      · split
        · exact dataOk_applyArrival h
        · exact dataOk_sendHome h
      · exact dataOk_sendHome h
    · split
      · exact dataOk_bedWait h
      · exact dataOk_forwardWait h
    · split
      · exact dataOk_bedWait h
      · exact dataOk_sendHome h
    · exact dataOk_sendOldest h
    · exact dataOk_ite (dataOk_sendHome h) (dataOk_sendOldest h)
    · exact dataOk_sendHome h
    · exact dataOk_sendHome h
    · exact dataOk_sendHome h
    · exact dataOk_sendHome h
    · exact dataOk_sendHome h
    · exact dataOk_sendHome h
    · exact dataOk_sendHome h
    · exact dataOk_sendHome h
    · exact dataOk_sendHome h
    · exact dataOk_sendHome h
    · exact dataOk_sendHome h

theorem dataOk_forwardNext {j : Nat} {handle : Dword} {op : AOp} (h : DataOk n o d) : DataOk n o (forwardNext e d j handle op) := by
  unfold forwardNext
  split
  · exact h
  · exact dataOk_ite (dataOk_forwardWait h) (dataOk_sendHome (dataOk_addForwarded h))

theorem dataOk_admitEntry {j : Nat} {op : AOp} {r : Req} {p : BitVec 4} {shared : Bool}
    (h : DataOk n o d) : DataOk n o (admitEntry e d j op r p shared) := by
  unfold admitEntry
  extract_lets y behind x seals d3
  have hd3 : DataOk n o d3 := by
    refine dataOk_setJoint (h.keep (hs := Nat.le_succ _)) (fun z hz => ?_)
    obtain hz | hz := List.mem_append.1 hz
    · exact Nat.lt_succ_of_lt (h.jointOf j z hz)
    · rw [List.mem_singleton.1 hz]
      exact Nat.lt_succ_self _
  exact dataOk_ite hd3 (dataOk_runEntry hd3)

theorem dataOk_agentRequest {j : Nat} {r : Req} {op : AOp} (h : DataOk n o d) : DataOk n o (agentRequest e d j r op) := by
  unfold agentRequest
  extract_lets s fence d1 plain
  have hd1 : DataOk n o d1 := dataOk_bumpK h
  split
  · exact h
  · split
    · exact h
    · split
      · exact dataOk_deliver hd1
      · split
        · clear_value fence
          split
          · exact dataOk_respondNumbered hd1
          · exact dataOk_ite (dataOk_refuseAccess hd1) (dataOk_deliver hd1)
        · split
          · clear_value fence
            split
            · exact dataOk_respondNumbered hd1
            · exact dataOk_refuseAccess hd1
          · clear_value fence
            split
            · exact dataOk_respondNumbered hd1
            · exact dataOk_deliver hd1
          · split
            · clear_value fence
              split
              · exact dataOk_respondNumbered hd1
              · exact dataOk_deliver hd1
            · clear_value fence
              split
              · exact dataOk_respondNumbered hd1
              · split
                · exact dataOk_deliver hd1
                · split
                  · exact dataOk_deliver hd1
                  · split
                    · exact dataOk_deliver hd1
                    · exact dataOk_ite (dataOk_deliver hd1) (dataOk_admitEntry hd1)

theorem dataOk_releaseSlot {j : Nat} {slot : BitVec 3} {k : Nat} (h : DataOk n o d) : DataOk n o (releaseSlot e j slot k d) := by
  induction k generalizing d with
  | zero => exact h
  | succ k ih =>
    unfold releaseSlot
    split
    · exact h
    · exact dataOk_ite (dataOk_setJoint_same (dataOk_modEntry h)) (ih (dataOk_runEntry (dataOk_modEntry h)))

theorem dataOk_sealAcked {j : Nat} {slot : BitVec 3} (h : DataOk n o d) : DataOk n o (sealAcked e d j slot) := by
  unfold sealAcked
  extract_lets y d1
  have hd1 : DataOk n o d1 := dataOk_setJoint_same h
  split
  · exact dataOk_ite (dataOk_setJoint_same h) (dataOk_ite h (dataOk_releaseSlot (dataOk_runEntry (dataOk_modEntry hd1))))
  · exact h

theorem dataOk_sealsKept {j : Nat} (h : DataOk n o d) : DataOk n o (sealsKept e d j) := by
  unfold sealsKept
  extract_lets y
  exact dataOk_ite h (dataOk_foldl (fun _ _ h2 => dataOk_sealAcked h2) (dataOk_setJoint_same h))

theorem dataOk_fillCache {j : Nat} {handle : Dword} {r : Resp} (h : DataOk n o d) : DataOk n o (fillCache d j handle r) :=
  dataOk_ite (dataOk_cacheStripes h) h

theorem dataOk_takeWaitAnswer {j : Nat} {x : JEntry} {r : Resp} (h : DataOk n o d) : DataOk n o (takeWaitAnswer e d j x r) := by
  unfold takeWaitAnswer
  extract_lets h1 ok mine l d1 d2
  have hd1 : DataOk n o d1 := dataOk_dropForwarded h
  have hd2 : DataOk n o d2 := dataOk_ite (dataOk_answerMany hd1) (dataOk_answerMany hd1)
  exact dataOk_forwardNext hd2

theorem dataOk_takeEvtAnswer {j : Nat} {x : JEntry} {r : Resp} (h : DataOk n o d) : DataOk n o (takeEvtAnswer e d j x r) := by
  unfold takeEvtAnswer
  extract_lets h1 d1
  have hd1 : DataOk n o d1 := dataOk_dropForwarded h
  exact dataOk_ite (dataOk_answerMany hd1) (dataOk_forwardNext (dataOk_answer hd1))

theorem dataOk_takeGetAnswer {j : Nat} {x : JEntry} {r : Resp} (h : DataOk n o d) : DataOk n o (takeGetAnswer e d j x r) := by
  unfold takeGetAnswer
  extract_lets h1 d1
  have hd1 : DataOk n o d1 := dataOk_fillCache h
  exact dataOk_ite (dataOk_forwardNext (dataOk_answer (dataOk_dropForwarded hd1))) (dataOk_answer hd1)

theorem dataOk_orphanAnswer {j : Nat} {handle : Dword} {r : Resp} (h : DataOk n o d) : DataOk n o (orphanAnswer e d j handle r) := by
  unfold orphanAnswer
  extract_lets d1 l done d2
  have hd1 : DataOk n o d1 := dataOk_dropForwarded h
  have hd2 : DataOk n o d2 := dataOk_ite (dataOk_answerMany hd1) hd1
  split
  · exact dataOk_ite (dataOk_answerMany hd1) (dataOk_forwardNext hd1)
  · exact dataOk_forwardNext hd2
  · exact dataOk_forwardNext hd1

theorem dataOk_takeResponse {j : Nat} {src : Port} {part : BitVec 4} {entry : Nat} {r : Resp}
    (h : DataOk n o d) : DataOk n o (takeResponse e d j src part entry r) := by
  unfold takeResponse
  split
  · extract_lets d1 d2
    have hd1 : DataOk n o d1 := dataOk_bumpK h
    have hd2 : DataOk n o d2 := by
      unfold d2
      split
      · exact dataOk_send hd1
      · exact hd1
    split
    · exact hd2
    · exact dataOk_orphanAnswer hd2
  · split
    · exact dataOk_takeWaitAnswer h
    · exact dataOk_takeEvtAnswer h
    · exact dataOk_takeGetAnswer h
    · exact dataOk_answer (dataOk_fillCache h)
    · exact dataOk_answer (dataOk_fillCache h)
    · exact dataOk_answer (dataOk_fillCache h)
    · exact dataOk_answer (dataOk_fillCache h)
    · exact dataOk_answer h
    · exact dataOk_answer h
    · exact dataOk_answer h
    · exact dataOk_answer h
    · exact dataOk_answer h
    · exact dataOk_answer h
    · exact dataOk_answer h
    · exact dataOk_answer h
    · exact dataOk_answer h
    · exact dataOk_answer h

theorem dataOk_takeEvtRelease {j : Nat} {handle : Dword} {sets : Word} {st : Status} {v : Dword}
    (h : DataOk n o d) : DataOk n o (takeEvtRelease e d j handle sets st v) := by
  unfold takeEvtRelease
  extract_lets l old
  exact dataOk_answerMany (dataOk_dropForwarded h)

theorem dataOk_responseHod {count : Nat} (h : DataOk n o d) : DataOk n o (responseHod e d count) := by
  unfold responseHod
  split
  · exact h
  · split
    · split
      · exact h
      · split
        · exact dataOk_takeResponse (dataOk_dropHod h)
        · exact dataOk_pushHint (dataOk_dropHod h)
        · exact dataOk_takeEvtRelease (dataOk_dropHod h)
        · exact h
    · exact h

theorem dataOk_takeNudge {count : Nat} (h : DataOk n o d) : DataOk n o (takeNudge e d count) := by
  unfold takeNudge
  split
  · exact h
  · split
    · exact dataOk_ite h (dataOk_ite (dataOk_dropHod h) (dataOk_forwardNext (dataOk_dropForwarded (dataOk_dropHod h))))
    · exact h

theorem dataOk_releaseAtJoint {count : Nat} (h : DataOk n o d) : DataOk n o (releaseAtJoint e d count) := by
  unfold releaseAtJoint
  split
  · exact h
  · split
    · exact dataOk_ite (dataOk_applyRelease (dataOk_dropHod h)) h
    · exact h

theorem dataOk_watcherAtJoint {count : Nat} (h : DataOk n o d) : DataOk n o (watcherAtJoint e d count) := by
  unfold watcherAtJoint
  split
  · exact h
  · split
    · exact dataOk_ite (dataOk_applyWatcher (dataOk_dropHod h)) h
    · exact h

theorem dataOk_deliverHeld {j : Nat} {late : BitVec 4 → Bool} (h : DataOk n o d) : DataOk n o (deliverHeld e d j late) := by
  unfold deliverHeld
  extract_lets y due d1 l
  have hd1 : DataOk n o d1 := dataOk_setJoint_same h
  refine dataOk_foldl (fun d2 x2 h2 => ?_) hd1
  split
  · exact dataOk_answer (dataOk_ite (dataOk_countLate h2) h2)
  · exact h2

theorem dataOk_hintTaken {j : Nat} (h : DataOk n o d) : DataOk n o (hintTaken e d j) := by
  unfold hintTaken
  extract_lets y
  split
  · exact h
  · exact dataOk_ite h (dataOk_ite (dataOk_setJoint_same (dataOk_setJoint_same h)) (dataOk_setJoint_same h))

theorem dataOk_beatTaken {j : Nat} (h : DataOk n o d) : DataOk n o (beatTaken e d j) := by
  unfold beatTaken
  extract_lets y
  split
  · exact h
  · exact dataOk_ite h (dataOk_setJoint_same h)

theorem dataOk_stalled {j : Nat} (h : DataOk n o d) : DataOk n o (stalled e d j) := by
  unfold stalled
  extract_lets y long resp sl told d1 old
  have hd1 : DataOk n o d1 := dataOk_setJoint_same h
  exact dataOk_ite h (dataOk_report hd1)

theorem dataOk_departBeds {j slot : Nat} {p : BitVec 4} (h : DataOk n o d) : DataOk n o (departBeds e d j slot p) :=
  dataOk_foldl (fun _ _ h2 => dataOk_departBed h2) h

theorem dataOk_departReports {j agent : Nat} {p : BitVec 4} (h : DataOk n o d) : DataOk n o (departReports e d j agent p) :=
  dataOk_foldl (fun _ _ h2 => dataOk_ite h2 (dataOk_send h2)) h

theorem dataOk_dropEntries {j slot : Nat} (h : DataOk n o d) : DataOk n o (dropEntries e d j slot) := by
  unfold dropEntries
  extract_lets y mine unsealed held d1
  have hd1 : DataOk n o d1 := dataOk_setJoint_filter h
  exact dataOk_bumpK (dataOk_bumpK hd1)

theorem dataOk_recordHods {p : BitVec 4} (h : DataOk n o d2) : DataOk n o (recordHods d d2 p) :=
  dataOk_setPart_same h.keep

theorem dataOk_agentDeparts {agent : Nat} (h : DataOk n o d) : DataOk n o (agentDeparts e d agent) := by
  unfold agentDeparts
  extract_lets j slot d1
  have hd1 : DataOk n o d1 := dataOk_dropEntries h.keep
  split
  · exact h
  · exact dataOk_ite h (dataOk_ite (dataOk_setPart_same hd1) (dataOk_ite (dataOk_recordHods (dataOk_departReports (dataOk_departBeds hd1)))
      (dataOk_departReports (dataOk_departBeds hd1))))

theorem dataOk_markDeparting {agent : Nat} (h : DataOk n o d) : DataOk n o (markDeparting d agent) := by
  unfold markDeparting
  split
  · exact dataOk_ite h h.keep
  · exact h

/-! ### Hods at routers and tiles -/

theorem dataOk_departBrick {t agent i : Nat} (h : DataOk n o d) : DataOk n o (departBrick e t agent i d) := by
  unfold departBrick
  extract_lets b h1 go
  split
  · exact h
  · split
    · split
      · split
        · exact dataOk_emit (dataOk_noteGrants (dataOk_ite (dataOk_bumpT (dataOk_setBody h)) (dataOk_setBody h)))
      · exact h
    · split
      · split
        · exact dataOk_emit (dataOk_noteGrants (dataOk_ite (dataOk_bumpT (dataOk_setBody h)) (dataOk_setBody h)))
      · exact h
    · exact h

theorem dataOk_takeDeparture {t agent : Nat} {p : BitVec 4} (h : DataOk n o d) : DataOk n o (takeDeparture e d t agent p) := by
  unfold takeDeparture
  extract_lets x waits d1
  have hd1 : DataOk n o d1 := dataOk_setTile h
  exact dataOk_foldl (fun _ _ h2 => dataOk_departBrick h2) hd1

theorem dataOk_palGone {i joint entry : Nat} {handle : Dword} (h : DataOk n o d) : DataOk n o (palGone e d i joint entry handle) := by
  unfold palGone
  extract_lets b
  exact dataOk_sendHod h

theorem dataOk_missed {i k : Nat} {body : HodBody} (h : DataOk n o d) : DataOk n o (missed e d i k body) :=
  dataOk_send h

theorem dataOk_takePalSweep {i k : Nat} {g : GetOp} (h : DataOk n o d) : DataOk n o (takePalSweep e d i k g) := by
  unfold takePalSweep
  split
  · exact dataOk_palGone h
  · split
    · exact dataOk_missed h
    · extract_lets g1
      split
      · exact dataOk_palGet h
      · exact dataOk_ite (dataOk_stripeLost h) (dataOk_palEmpty h)

theorem dataOk_takeFwdPut {i k : Nat} {p : PutOp} (h : DataOk n o d) : DataOk n o (takeFwdPut e d i k p) := by
  unfold takeFwdPut
  split
  · exact dataOk_palGone h
  · split
    · exact dataOk_missed h
    · split
      · split
        · exact dataOk_palReply h
        · split
          · split
            · exact dataOk_stripeLost h
            · exact dataOk_palPut h
          · exact dataOk_send h
      · exact dataOk_ite (dataOk_stripeLost h) (dataOk_palReturn h)
      · exact dataOk_stripeLost h
      · exact dataOk_palPut h

theorem dataOk_takeUnwatch {i j : Nat} (h : DataOk n o d) : DataOk n o (takeUnwatch e d i j) := by
  unfold takeUnwatch
  extract_lets b
  split
  · exact dataOk_emitNone (dataOk_setBody h)
  · exact h

theorem dataOk_runHod {t : Nat} {hod : Hod} (h : DataOk n o d) : DataOk n o (runHod e d t hod) := by
  unfold runHod
  split
  · exact dataOk_homeAt h
  · exact dataOk_takeArrival h
  · exact dataOk_takeShrink h
  · split
    · exact dataOk_homeTake h
    · exact dataOk_sendHod h
  · exact dataOk_takeUnwatch h
  · exact dataOk_takeDeparture h
  · exact dataOk_takePalSweep h
  · exact dataOk_takeFwdPut h
  · exact h

theorem dataOk_fencedArrival {t : Nat} {hod : Hod} {a : Arrival} (h : DataOk n o d) : DataOk n o (fencedArrival e d t hod a) := by
  unfold fencedArrival
  extract_lets hs
  split
  · exact dataOk_sendNumbered h
  · exact dataOk_sendAll h

theorem dataOk_fencedHod {t : Nat} {hod : Hod} (h : DataOk n o d) : DataOk n o (fencedHod e d t hod) := by
  unfold fencedHod
  split
  · exact dataOk_fencedReply h
  · exact dataOk_fencedReply h
  · exact dataOk_fencedReply h
  · exact dataOk_fencedReply h
  · exact dataOk_fencedArrival h
  · exact h

theorem dataOk_tileHod {count : Nat} {is : HodBody → Bool} (h : DataOk n o d) : DataOk n o (tileHod e d count is) := by
  unfold tileHod
  split
  · exact h
  · split
    · split
      · exact h
      · split
        · exact dataOk_fencedHod (dataOk_dropHod h)
        · split
          · exact h
          · extract_lets d1
            have hd1 : DataOk n o d1 := dataOk_tookTrain (dataOk_dropHod h)
            split
            · exact dataOk_ite (dataOk_park hd1) (dataOk_runHod hd1)
            · exact dataOk_runHod hd1
    · exact h

theorem dataOk_routerHod {count : Nat} (h : DataOk n o d) : DataOk n o (routerHod e d count) := by
  unfold routerHod
  split
  · exact h
  · split
    · exact dataOk_combTake (dataOk_dropHod h)
    · exact h

theorem dataOk_takeSweepHod {count : Nat} (h : DataOk n o d) : DataOk n o (takeSweepHod e d count) := by
  unfold takeSweepHod
  split
  · exact h
  · split
    · extract_lets m
      exact dataOk_send (dataOk_dropHod h)
    · exact h

theorem dataOk_takeBounce {count : Nat} (h : DataOk n o d) : DataOk n o (takeBounce e d count) := by
  unfold takeBounce
  split
  · exact h
  · split
    · exact dataOk_ite h (dataOk_ite (dataOk_keepFrozen (dataOk_bumpK (dataOk_dropHod h))) (dataOk_sendAt (dataOk_bumpK (dataOk_dropHod h))))
    · exact h

theorem dataOk_barrierExpiry {i : Nat} (h : DataOk n o d) : DataOk n o (barrierExpiry e d i) := by
  unfold barrierExpiry
  extract_lets b t
  split
  · exact dataOk_ite (dataOk_expireBarrier h) h
  · exact h

theorem dataOk_barrierSweep {i : Nat} (h : DataOk n o d) : DataOk n o (barrierSweep e d i) :=
  dataOk_ite (dataOk_collectSweep h) h

theorem dataOk_probePath {i delay : Nat} (h : DataOk n o d) : DataOk n o (probePath e d i delay) := by
  unfold probePath
  extract_lets b g
  split
  · split
    · split
      · extract_lets n1 d1 d2 old
        have hd1 : DataOk n o d1 := dataOk_setBody h
        have hd2 : DataOk n o d2 := hd1.keep
        exact dataOk_ite (dataOk_emitNone (dataOk_setBody h)) (dataOk_sendKids hd2)
      · exact dataOk_emitNone (dataOk_setBody h)
    · exact h
  · exact h

theorem dataOk_ringEnd {i k : Nat} {x : RingEnd} (h : DataOk n o d) : DataOk n o (ringEnd e i k d x) := by
  unfold ringEnd
  split
  · exact dataOk_ringWritten h
  · exact dataOk_refilled h
  · exact dataOk_ringFault h

theorem dataOk_stripeEvent {i k : Nat} {x : RingEnd} (h : DataOk n o d) : DataOk n o (stripeEvent e d i k x) := by
  unfold stripeEvent
  extract_lets t
  exact dataOk_ite h (dataOk_ite (dataOk_ite h.keep h) (dataOk_ringEnd h))

theorem dataOk_endKept (h : DataOk n o d) : DataOk n o (endKept e d) :=
  dataOk_foldl (fun _ _ h2 => dataOk_ringEnd h2) h.keep

/-! ### Fetches, mirrors and stealing -/

theorem dataOk_rerunDesc {r : RingId} {list : List Dword} {table : List Byte} (h : DataOk n o d) : DataOk n o (rerunDesc e d r list table) := by
  unfold rerunDesc
  split
  · exact h
  · extract_lets op t
    exact dataOk_afterDesc (dataOk_ite (dataOk_brickFree h) (dataOk_ite (dataOk_barrierArm h)
      (dataOk_ite (dataOk_bondSet h) (dataOk_ite (dataOk_groutCfg h)
        (dataOk_ite (dataOk_weightLoad h) (dataOk_ite (dataOk_lintelLink h) (dataOk_ite (dataOk_palletCfg h) h)))))))

theorem dataOk_runParked {t i : Nat} {p : Parked} (h : DataOk n o d) : DataOk n o (runParked e t i d p) := by
  unfold runParked
  split
  · exact dataOk_homeExec h
  · exact dataOk_runHod h
  · exact dataOk_departBrick h
  · exact dataOk_rerunDesc h

theorem dataOk_readStripe {i : Nat} {w : BitVec 512} (h : DataOk n o d) : DataOk n o (readStripe d i w) := by
  unfold readStripe
  split
  · exact h
  · split
    · exact h.keep
    · extract_lets s d1
      have hd1 : DataOk n o d1 := dataOk_setStripe h
      exact hd1.keep

theorem dataOk_readRecord {t i : Nat} {record : Option (BitVec 512)} (h : DataOk n o d) : DataOk n o (readRecord e d t i record) := by
  unfold readRecord
  split
  · exact h
  · extract_lets d1
    have hd1 : DataOk n o d1 := dataOk_readStripe (dataOk_setBrick h)
    exact dataOk_setBrick hd1

theorem dataOk_dropWback {t i : Nat} (h : DataOk n o d) : DataOk n o (dropWback d t i) := by
  unfold dropWback
  extract_lets x
  exact dataOk_setTile h

theorem dataOk_fillFetch {t i : Nat} {f : Fetch} {record : Option (BitVec 512)} (h : DataOk n o d) : DataOk n o (fillFetch e d t i f record) := by
  unfold fillFetch
  extract_lets x d1 d2 d3 d4
  have hd1 : DataOk n o d1 := dataOk_stillBusy (dataOk_setTile h)
  have hd2 : DataOk n o d2 := by
    unfold d2
    refine dataOk_dropWback ?_
    split
    · exact dataOk_dropWback hd1
    · exact hd1
  have hd3 : DataOk n o d3 := dataOk_ite hd2 (dataOk_touchSlot (dataOk_readRecord hd2))
  have hd4 : DataOk n o d4 := dataOk_trace hd3
  exact dataOk_issueFetch (dataOk_foldl (fun _ _ h2 => dataOk_runParked h2) hd4)

theorem dataOk_backstoreReport {t : Nat} {addr : Dword} (h : DataOk n o d) : DataOk n o (backstoreReport e d t addr) :=
  dataOk_report h

theorem dataOk_holdFetch {t i : Nat} (h : DataOk n o d) : DataOk n o (holdFetch e d t i) := by
  unfold holdFetch
  extract_lets x
  exact dataOk_setTile h

theorem dataOk_holdWback {t i : Nat} (h : DataOk n o d) : DataOk n o (holdWback e d t i) := by
  unfold holdWback
  extract_lets x
  exact dataOk_setTile h

theorem dataOk_keepRecord {t i : Nat} {record : Option (BitVec 512)} (h : DataOk n o d) : DataOk n o (keepRecord d t i record) := by
  unfold keepRecord
  extract_lets x
  exact dataOk_setTile h

theorem dataOk_fetchDone {i : Nat} {fault : Bool} {addr : Dword} {record : Option (BitVec 512)}
    (h : DataOk n o d) : DataOk n o (fetchDone e d i fault addr record) := by
  unfold fetchDone
  extract_lets t
  split
  · exact h
  · split
    · exact dataOk_ite (dataOk_backstoreReport (dataOk_holdFetch h)) (dataOk_ite (dataOk_keepRecord h) (dataOk_fillFetch h))
    · exact dataOk_ite h (dataOk_ite (dataOk_backstoreReport (dataOk_holdWback h)) (dataOk_stillBusy (dataOk_dropWback h)))

theorem dataOk_fillKept {t : Nat} (h : DataOk n o d) : DataOk n o (fillKept e d t) := by
  unfold fillKept
  refine dataOk_foldl (fun d2 x2 h2 => ?_) h
  split
  · exact dataOk_fillFetch h2
  · exact h2

theorem dataOk_retryFetch {i : Nat} {fault : Bool} {addr : Dword} {record : Option (BitVec 512)}
    (h : DataOk n o d) : DataOk n o (retryFetch e d i fault addr record) := by
  unfold retryFetch
  extract_lets t d1 d2
  have hd1 : DataOk n o d1 := dataOk_memRead (dataOk_backstoreReport h)
  have hd2 : DataOk n o d2 := dataOk_memWrite (dataOk_backstoreReport h)
  split
  · exact h
  · split
    · exact dataOk_ite (dataOk_holdFetch hd1) (dataOk_fillFetch hd1)
    · exact dataOk_ite h (dataOk_ite (dataOk_holdWback hd2) (dataOk_issueFetch (dataOk_stillBusy (dataOk_dropWback hd2))))

theorem dataOk_slotFree {t : Nat} (h : DataOk n o d) : DataOk n o (slotFree e d t) :=
  dataOk_ite (dataOk_issueFetch h) h

theorem dataOk_mirrorTake {count : Nat} (h : DataOk n o d) : DataOk n o (mirrorTake e d count) := by
  unfold mirrorTake
  split
  · exact h
  · split
    · split
      · exact dataOk_dropHod h
      · split
        · exact h
        · extract_lets d1
          have hd1 : DataOk n o d1 := dataOk_tookHod (dataOk_dropHod h)
          split
          · exact hd1
          · extract_lets k
            split
            · exact dataOk_send hd1
            · extract_lets full d2
              have hd2 : DataOk n o d2 := dataOk_ite hd1 (dataOk_bumpT hd1.keep)
              exact dataOk_send hd2
    · exact h

theorem dataOk_undoWaiter {t i agent gang : Nat} {before : BitVec 3} {outs : List Hod}
    (h : DataOk n o d) : DataOk n o (undoWaiter e d t i agent gang before outs) := by
  unfold undoWaiter
  extract_lets b h1 d1
  have hd1 : DataOk n o d1 := dataOk_bumpT h
  split
  · exact dataOk_sendAll h
  · extract_lets go
    split
    · extract_lets later own
      split
      · extract_lets d2
        have hd2 : DataOk n o d2 := dataOk_ite hd1.keep hd1
        exact dataOk_emit (dataOk_noteGrants (dataOk_setBody (dataOk_sendAll hd2)))
    · split
      · exact dataOk_emit (dataOk_noteGrants (dataOk_setBody (dataOk_sendAll hd1)))
    · exact hd1

theorem dataOk_mirrored {i k : Nat} (h : DataOk n o d) : DataOk n o (mirrored d i k) := by
  unfold mirrored
  split
  · exact dataOk_ite h h.keep
  · exact h

theorem dataOk_mirrorAcked {count : Nat} (h : DataOk n o d) : DataOk n o (mirrorAcked e d count) := by
  unfold mirrorAcked
  split
  · exact h
  · split
    · split
      · exact dataOk_dropHod h
      · split
        · exact h
        · extract_lets d1 rest
          have hd1 : DataOk n o d1 := dataOk_tookHod (dataOk_dropHod h)
          split
          · exact hd1
          · extract_lets d2
            have hd2 : DataOk n o d2 := dataOk_ite hd1.keep (dataOk_mirrored hd1.keep)
            split
            · exact dataOk_undoWaiter hd2
            · exact dataOk_foldl (fun _ _ h2 => dataOk_sendKid h2) (dataOk_sendAll hd2)
    · exact h

theorem dataOk_steal {thief victim : Nat} (h : DataOk n o d) : DataOk n o (steal e d thief victim) := by
  unfold steal
  extract_lets v old
  split
  · exact h
  · split
    · exact h
    · extract_lets d1 d2 d3 x1
      have hd1 : DataOk n o d1 := dataOk_setTile h
      have hd2 : DataOk n o d2 := dataOk_bumpT (dataOk_bumpT hd1)
      have hd3 : DataOk n o d3 := dataOk_trace hd2
      split
      · exact dataOk_setTile hd3
      · exact dataOk_modStripe hd3

theorem dataOk_resend {count : Nat} (h : DataOk n o d) : DataOk n o (resend e d count) := by
  unfold resend
  split
  · exact h
  · exact dataOk_ite (dataOk_sendHod (dataOk_dropHod h)) h

theorem dataOk_eccDrop {count r : Nat} {hod : Hod} (h : DataOk n o d) : DataOk n o (eccDrop e d count r hod) := by
  unfold eccDrop
  split
  · exact h.keep
  · exact dataOk_dropHod h

theorem dataOk_meshError {count r p : Nat} {double : Bool} (h : DataOk n o d) : DataOk n o (meshError e d count r p double) := by
  unfold meshError
  split
  · exact h
  · split
    · exact h.keep
    · split
      · exact h
      · split
        · exact dataOk_bumpK h
        · extract_lets m old
          split
          · exact dataOk_eccReport (dataOk_eccDrop h)
          · exact dataOk_ite (dataOk_eccReport h.keep) (dataOk_eccReport h.keep)

end Sys2Proof.Machine
end

section
/-! Incidents, lintels, frames and the trace keep the data path in order (DpOk). -/

namespace Sys2Proof.Machine

open Sys2Proof.Safety

set_option Elab.async false

variable {n m : Nat} {o : Option Nat} {e : Env} {d d2 : Dp}

/-! ### Incidents -/

theorem dataOk_setEntry {s : Nat} {x : IncEntry} (h : DataOk n o d) : DataOk n o (setEntry d s x) :=
  h.keep

theorem dataOk_putEntry {s : Nat} {x : IncEntry} (h : DataOk n o d) : DataOk n o (putEntry d s x) :=
  dataOk_ite h.keep (dataOk_setEntry h)

theorem dataOk_toParent {record : HodRec} (h : DataOk n o d) : DataOk n o (toParent e d record) := by
  unfold toParent
  extract_lets d1
  have hd1 : DataOk n o d1 := dataOk_trace h
  exact dataOk_ite h (dataOk_ite (dataOk_ite h (dataOk_packOut hd1)) (dataOk_ite (dataOk_queueHod hd1) h))

theorem dataOk_sendHall {s : Nat} {x : IncEntry} (h : DataOk n o d) : DataOk n o (sendHall e d s x) :=
  dataOk_ite h (dataOk_setEntry (dataOk_toParent h))

theorem dataOk_copyDropped {p : BitVec 4} (h : DataOk n o d) : DataOk n o (copyDropped e d p) :=
  dataOk_bumpP h

theorem dataOk_copyOut {s : Nat} {x : IncEntry} {p : BitVec 4} {bare closed : Bool}
    (h : DataOk n o d) (hr : copyOut e d s x p bare closed = some d2) : DataOk n o d2 := by
  unfold copyOut at hr
  extract_lets q k n1 image d1 at hr
  have hd1 : DataOk n o d1 := dataOk_foldl (fun _ _ h2 => dataOk_memWrite h2) h
  split at hr
  · cases hr
    exact dataOk_copyDropped h
  · split at hr
    · cases hr
    · cases hr
      exact dataOk_interrupt (dataOk_setIncRing hd1)

theorem dataOk_writeCopy {s : Nat} {p : BitVec 4} (h : DataOk n o d) : DataOk n o (writeCopy e d s p) := by
  unfold writeCopy
  split
  · exact h
  · split
    · exact h
    · split
      · exact h
      · next hx3 => exact dataOk_putEntry (dataOk_copyOut h hx3)

theorem dataOk_addCopy {s : Nat} {p : BitVec 4} {bare : Bool} (h : DataOk n o d) : DataOk n o (addCopy e d s p bare) := by
  unfold addCopy
  split
  · exact h
  · exact dataOk_writeCopy (dataOk_setEntry h)

theorem dataOk_writeSlot {s : Nat} {x : IncEntry} (h : DataOk n o d) : DataOk n o (writeSlot e d s x) := by
  unfold writeSlot
  extract_lets done k
  exact dataOk_ite (dataOk_putEntry h) (dataOk_ite (dataOk_ite h (dataOk_putEntry h)) (dataOk_ite h (dataOk_putEntry (dataOk_memWrite h))))

theorem dataOk_writeClosed {s : Nat} {x : IncEntry} (h : DataOk n o d) : DataOk n o (writeClosed e d s x) := by
  unfold writeClosed
  extract_lets m old d1 old1
  have hd1 : DataOk n o d1 := h.keep
  exact dataOk_ite h (dataOk_ite hd1.keep (dataOk_memWrite hd1))

theorem dataOk_tableFault (h : DataOk n o d) : DataOk n o (tableFault e d) :=
  dataOk_ite h h.keep

theorem dataOk_tableWrite {s : Nat} {fault : Bool} (h : DataOk n o d) : DataOk n o (tableWrite e d s fault) := by
  unfold tableWrite
  split
  · exact dataOk_ite h (dataOk_ite (dataOk_tableFault h.keep) h.keep)
  · split
    · exact h
    · extract_lets due
      exact dataOk_ite h (dataOk_ite (dataOk_tableFault h) (dataOk_writeSlot h))

theorem dataOk_closeSlot {s : Nat} {x : IncEntry} (h : DataOk n o d) : DataOk n o (closeSlot e d s x) := by
  unfold closeSlot
  extract_lets x1
  exact dataOk_putEntry (dataOk_writeClosed h)

theorem dataOk_closeCopies {s : Nat} {x : IncEntry} {l : List (BitVec 4)} (h : DataOk n o d) : DataOk n o (closeCopies e s x l d).1 := by
  induction l generalizing d with
  | nil => exact h
  | cons p l ih =>
    unfold closeCopies
    split
    · next d2 hd2 =>
      have h2 : DataOk n o d2 := by
        split at hd2
        · exact Option.some.inj hd2 ▸ dataOk_copyDropped h
        · exact dataOk_copyOut h hd2
      exact ih h2
    · exact ih h

theorem dataOk_closeEntry {s : Nat} (h : DataOk n o d) : DataOk n o (closeEntry e d s) := by
  unfold closeEntry
  split
  · exact h
  · split
    · exact h
    · split
      · split
        · exact dataOk_setEntry h
        · split
          · next hx3 =>
              exact dataOk_ite ((dataOk_writeClosed (dataOk_of_fst (dataOk_closeCopies h) hx3)).keep)
                (dataOk_setEntry (dataOk_of_fst (dataOk_closeCopies h) hx3))
      · extract_lets gone d1 own ps x1 d2 d3
        have hd1 : DataOk n o d1 := dataOk_foldl (fun _ _ h2 => dataOk_copyDropped h2) h
        have hd2 : DataOk n o d2 := dataOk_setEntry hd1
        have hd3 : DataOk n o d3 := dataOk_foldl (fun _ _ h2 => dataOk_ite (dataOk_copyDropped h2) (dataOk_addCopy h2)) hd2
        split
        · exact dataOk_closeSlot hd3
        · exact hd3

theorem dataOk_closeDeferred {s : Nat} (h : DataOk n o d) : DataOk n o (closeDeferred e d s) := by
  unfold closeDeferred
  split
  · exact dataOk_ite (dataOk_closeEntry h) h
  · exact h

theorem dataOk_requestTrigger {src : Nat} (h : DataOk n o d) : DataOk n o (requestTrigger d src) :=
  h.keep

theorem dataOk_returnNumber {src : Source} {key : IncKey} {count : Word} (h : DataOk n o d) : DataOk n o (returnNumber e d src key count) :=
  dataOk_reportHod h.keep

theorem dataOk_openEntry {s : Nat} {r : Report} {c : IncClass} (h : DataOk n o d) : DataOk n o (openEntry e d s r c) := by
  unfold openEntry
  extract_lets n1 x old d1 d2 d3 d4 d5
  have hd1 : DataOk n o d1 := dataOk_setEntry h.keep
  have hd2 : DataOk n o d2 := dataOk_bumpK hd1
  have hd3 : DataOk n o d3 := dataOk_ite (dataOk_bumpK (dataOk_pulse hd2)) hd2
  have hd4 : DataOk n o d4 := dataOk_ite (dataOk_requestTrigger hd3) hd3
  have hd5 : DataOk n o d5 := dataOk_sendHall hd4
  split
  · exact dataOk_ite hd5 (dataOk_addCopy hd5)
  · exact hd5

theorem dataOk_mergeEntry {s amount : Nat} (h : DataOk n o d) : DataOk n o (mergeEntry e d s amount) := by
  unfold mergeEntry
  split
  · exact h
  · extract_lets count old rep
    exact dataOk_setEntry h

theorem dataOk_overflow {s count : Nat} {c : IncClass} {k : IncKind} (h : DataOk n o d) : DataOk n o (overflow e d s count c k) := by
  unfold overflow
  split
  · exact dataOk_ite (dataOk_mergeEntry h) h
  · exact dataOk_openEntry h

theorem dataOk_evictNotice {s : Nat} (h : DataOk n o d) : DataOk n o (evictNotice e d s) := by
  unfold evictNotice
  extract_lets d1
  have hd1 : DataOk n o d1 := dataOk_closeEntry h
  split
  · exact hd1
  · extract_lets d2 old
    have hd2 : DataOk n o d2 := dataOk_foldl (fun _ _ h2 => dataOk_copyDropped h2) hd1
    exact hd2.keep

theorem dataOk_enterReport {src : Option Source} {r : Report} {c : IncClass} (h : DataOk n o d) : DataOk n o (enterReport e d src r c) := by
  unfold enterReport
  extract_lets back
  have hback : ∀ {d : Dp} {s : Nat}, DataOk n o d → DataOk n o (back d s) := by
    intro d s h
    unfold back
    split
    · exact dataOk_returnNumber h
    · exact h
  split
  · exact hback (dataOk_mergeEntry h)
  · split
    · split
      · exact hback (dataOk_openEntry h)
      · exact hback (dataOk_overflow h)
    · split
      · exact hback (dataOk_openEntry h)
      · exact h.keep
    · split
      · exact hback (dataOk_openEntry h)
      · split
        · exact hback (dataOk_openEntry (dataOk_evictNotice h))
        · exact hback (dataOk_overflow h)

theorem dataOk_takeReport {count : Nat} (h : DataOk n o d) : DataOk n o (takeReport e d count) := by
  unfold takeReport
  split
  · exact h
  · extract_lets fatal old
    exact dataOk_ite h (dataOk_enterReport h.keep)

theorem dataOk_learnNumber {src : Source} {key : IncKey} {count : Word} (h : DataOk n o d) : DataOk n o (learnNumber d src key count) := by
  unfold learnNumber
  extract_lets mine others kept pinned old
  exact h.keep

theorem dataOk_releaseWait {count : Word} {k : Nat} (h : DataOk n o d) : DataOk n o (releaseWait e d count k) := by
  unfold releaseWait
  extract_lets v old d1 d2
  have hd1 : DataOk n o d1 := h.keep
  have hd2 : DataOk n o d2 := h.keep
  split
  · exact dataOk_leave h.keep
  · exact dataOk_afterDesc (dataOk_complete (dataOk_setRing hd1))
  · extract_lets old1 r
    split
    · exact dataOk_answer hd2
    · exact dataOk_deliver hd2
  · exact h

theorem dataOk_numberReturns {count : Nat} (h : DataOk n o d) : DataOk n o (numberReturns e d count) := by
  unfold numberReturns
  split
  · exact h
  · split
    · exact h
    · extract_lets old d1 old1 d2 mine old2 d3
      have hd1 : DataOk n o d1 := dataOk_learnNumber h.keep
      have hd2 : DataOk n o d2 := by
        unfold d2
        split
        · exact dataOk_trace hd1
        · exact hd1
      have hd3 : DataOk n o d3 := hd2.keep
      exact dataOk_foldl (fun _ _ h2 => dataOk_releaseWait h2) hd3

theorem dataOk_holdClose {s : Nat} (h : DataOk n o d) : DataOk n o (holdClose e d s) := by
  unfold holdClose
  split
  · exact h
  · exact dataOk_ite (dataOk_closeEntry h) h

theorem dataOk_keeperClose {v : Word} (h : DataOk n o d) : DataOk n o (keeperClose e d v) := by
  unfold keeperClose
  extract_lets s
  split
  · exact dataOk_ite (dataOk_closeEntry h) h
  · exact h

theorem dataOk_hallResend {s : Nat} (h : DataOk n o d) : DataOk n o (hallResend e d s) := by
  unfold hallResend
  split
  · exact dataOk_ite (dataOk_sendHall h) h
  · exact h

/-! ### Lintels -/

theorem dataOk_peerReport {i : Nat} {key : IncKey} {d0 : Dword} {d2 : Nat} (h : DataOk n o d) : DataOk n o (peerReport e d i key d0 d2) :=
  dataOk_reportTile h

theorem dataOk_discardLintel {i : Nat} (h : DataOk n o d) : DataOk n o (discardLintel e d i) :=
  dataOk_bumpT h

theorem dataOk_refuseHod {row : InHod} {st : Status} (h : DataOk n o d) : DataOk n o (refuseHod e d row st) := by
  unfold refuseHod
  extract_lets i t peer old r d1 d2
  have hd1 : DataOk n o d1 := dataOk_ite (dataOk_bumpT h) h
  have hd2 : DataOk n o d2 := dataOk_trace hd1
  exact dataOk_putRecord hd2

theorem dataOk_childLeaves {i c : Nat} {key : IncKey} (h : DataOk n o d) : DataOk n o (childLeaves e d i c key) := by
  unfold childLeaves
  split
  · exact dataOk_ite h (dataOk_ite (dataOk_setBarrier (dataOk_setLintel h))
      (dataOk_ite (dataOk_poisonBrick (dataOk_ite (dataOk_peerReport (dataOk_setBarrier (dataOk_setLintel h)))
        (dataOk_setBarrier (dataOk_setLintel h)))) (dataOk_shrinkBarrier (dataOk_setBarrier (dataOk_setLintel h)))))
  · exact h

theorem dataOk_childGone {i c : Nat} {key : IncKey} (h : DataOk n o d) : DataOk n o (childGone e d i c key) :=
  dataOk_probeOn (dataOk_childLeaves h)

theorem dataOk_loseChild {i c : Nat} {second : Bool} {route : Nat} (h : DataOk n o d) : DataOk n o (loseChild e d i c second route) := by
  unfold loseChild
  split
  · exact h
  · split
    · exact h
    · exact dataOk_ite h (dataOk_ite (dataOk_childGone (dataOk_peerReport (dataOk_setLintel h)))
        (dataOk_probeOn (dataOk_peerReport (dataOk_setLintel h))))

theorem dataOk_loseParent {i : Nat} {second : Bool} {route : Nat} (h : DataOk n o d) : DataOk n o (loseParent e d i second route) := by
  unfold loseParent
  split
  · exact h
  · exact dataOk_ite h (dataOk_ite (dataOk_poisonBrick (dataOk_peerReport (dataOk_setLintel h))) (dataOk_peerReport (dataOk_setLintel h)))

theorem dataOk_loseTwin {i route : Nat} (h : DataOk n o d) : DataOk n o (loseTwin e d i route) := by
  unfold loseTwin
  split
  · exact dataOk_ite (dataOk_peerReport h) h
  · exact h

theorem dataOk_losePeer {i : Nat} {p : Dword} {route : Nat} (h : DataOk n o d) : DataOk n o (losePeer e d i p route) := by
  unfold losePeer
  split
  · exact h
  · split
    · exact dataOk_loseParent h
    · split
      · exact dataOk_loseParent h
      · split
        · exact dataOk_loseTwin h
        · split
          · exact dataOk_loseChild h
          · exact h

theorem dataOk_applyCut {r : BitVec 8} {die : Option (BitVec 3)} (h : DataOk n o d) : DataOk n o (applyCut e d r die) := by
  unfold applyCut
  extract_lets d1
  have hd1 : DataOk n o d1 := dataOk_foldl (fun _ _ h2 => dataOk_ite (dataOk_setPart_same h2) h2) h
  exact dataOk_foldl (fun _ _ h2 => dataOk_ite h2 (dataOk_foldl (fun _ _ h3 => dataOk_losePeer h3) h2)) hd1

theorem dataOk_partialPoison {i : Nat} {row : InHod} (h : DataOk n o d) : DataOk n o (partialPoison e d i row) := by
  unfold partialPoison
  extract_lets key
  exact dataOk_poisonBrick (dataOk_peerReport h)

theorem dataOk_takeArriveUp {i : Nat} {x : Barrier} {row : InHod} (h : DataOk n o d) : DataOk n o (takeArriveUp e d i x row) := by
  unfold takeArriveUp
  extract_lets r c shrunk
  split
  · exact dataOk_discardLintel h
  · extract_lets mine
    split
    · exact dataOk_discardLintel h
    · split
      · split
        · exact dataOk_partialPoison h
        · split
          · next hx3 => exact dataOk_countArrival (dataOk_setLintel h) hx3
          · exact dataOk_refuseHod (dataOk_bumpT h)
      · exact dataOk_ite (dataOk_ite (dataOk_setBarrier (dataOk_setLintel h)) (dataOk_partialPoison h)) (dataOk_discardLintel h)

theorem dataOk_staleRelease {i : Nat} {x : Barrier} {r : HodRec} (h : DataOk n o d) : DataOk n o (staleRelease e d i x r) :=
  dataOk_ite h (dataOk_ite (dataOk_bumpT h) (dataOk_reportTile (dataOk_setBrick (dataOk_bumpT h))))

theorem dataOk_takeRelease {i : Nat} {x : Barrier} {twin : Bool} {row : InHod} (h : DataOk n o d) : DataOk n o (takeRelease e d i x twin row) := by
  unfold takeRelease
  extract_lets r from_ d1
  have hd1 : DataOk n o d1 := dataOk_closeCourse h
  exact dataOk_ite (dataOk_settleBarrier hd1) (dataOk_staleRelease h)

theorem dataOk_takeDepartUp {i : Nat} {row : InHod} (h : DataOk n o d) : DataOk n o (takeDepartUp e d i row) := by
  unfold takeDepartUp
  extract_lets c
  split
  · exact dataOk_discardLintel h
  · split
    · exact dataOk_ite (dataOk_childGone h) (dataOk_discardLintel h)
    · exact dataOk_discardLintel h

theorem dataOk_takePoison {i : Nat} {x : Barrier} {row : InHod} (h : DataOk n o d) : DataOk n o (takePoison e d i x row) := by
  unfold takePoison
  split
  · exact dataOk_discardLintel h
  · extract_lets p key
    exact dataOk_ite (dataOk_discardLintel h) (dataOk_ite h (dataOk_poisonBrick (dataOk_peerReport h)))

theorem dataOk_takeSweepUp {i : Nat} {x : Barrier} {row : InHod} (h : DataOk n o d) : DataOk n o (takeSweepUp e d i x row) := by
  unfold takeSweepUp
  extract_lets b t outs
  split
  · exact dataOk_discardLintel h
  · extract_lets ok d1
    have hd1 : DataOk n o d1 := dataOk_ite (dataOk_expireBarrier h) (dataOk_ite (dataOk_sendNumbered h) (dataOk_emit h))
    exact dataOk_ite (dataOk_discardLintel h) (dataOk_sendKids hd1)

theorem dataOk_takeProbe {i : Nat} {x : Barrier} {row : InHod} (h : DataOk n o d) : DataOk n o (takeProbe e d i x row) := by
  unfold takeProbe
  split
  · exact dataOk_discardLintel h
  · split
    · exact h
    · extract_lets r own old
      split
      · next hx2 =>
          extract_lets latest
          exact dataOk_ite (dataOk_probeDone (dataOk_of_snd (dataOk_nextFree h) hx2))
            (dataOk_sendKids (dataOk_setLintel (dataOk_of_snd (dataOk_nextFree h) hx2)))

theorem dataOk_takeProbeAns {i : Nat} {row : InHod} (h : DataOk n o d) : DataOk n o (takeProbeAns e d i row) := by
  unfold takeProbeAns
  extract_lets c
  split
  · exact dataOk_discardLintel h
  · split
    · exact dataOk_ite (dataOk_discardLintel h) (dataOk_probeOn (dataOk_setLintel h))
    · exact dataOk_discardLintel h

theorem dataOk_takeRefuse {row : InHod} (h : DataOk n o d) : DataOk n o (takeRefuse e d row) := by
  unfold takeRefuse
  split
  · exact h
  · extract_lets st l w d1 d2 i
    have hd1 : DataOk n o d1 := dataOk_bumpR h
    have hd2 : DataOk n o d2 := dataOk_setLink hd1
    exact dataOk_ite h.keep (dataOk_ite hd2.keep (dataOk_ite (dataOk_ite (dataOk_losePeer h) h) h))

theorem dataOk_backoffEnds {count : Nat} (h : DataOk n o d) : DataOk n o (backoffEnds e d count) := by
  unfold backoffEnds
  split
  · exact h
  · extract_lets due d1 i
    have hd1 : DataOk n o d1 := h.keep
    exact dataOk_ite h (dataOk_putRecord (dataOk_trace hd1))

theorem dataOk_runInHod {row : InHod} (h : DataOk n o d) : DataOk n o (runInHod e d row) := by
  unfold runInHod
  extract_lets t d1
  have hd1 : DataOk n o d1 := dataOk_trace h
  split
  · exact dataOk_takeRefuse hd1
  · split
    · exact dataOk_refuseHod hd1
    · split
      · exact dataOk_refuseHod hd1
      · extract_lets b
        split
        · exact dataOk_ite (dataOk_refuseHod hd1) (dataOk_ite (dataOk_takeArriveUp hd1)
            (dataOk_ite (dataOk_takeRelease hd1) (dataOk_ite (dataOk_takeDepartUp hd1)
              (dataOk_ite (dataOk_takePoison hd1) (dataOk_ite (dataOk_takeSweepUp hd1)
                (dataOk_ite (dataOk_takeProbe hd1) (dataOk_ite (dataOk_takeProbeAns hd1)
                  (dataOk_ite (dataOk_takeRelease hd1) (dataOk_discardLintel hd1)))))))))
        · exact hd1

theorem dataOk_dropInbound {count : Nat} (h : DataOk n o d) : DataOk n o (dropInbound d count) :=
  h.keep

theorem dataOk_lintelRow {count : Nat} {kind : Byte} (h : DataOk n o d) : DataOk n o (lintelRow e d count kind) := by
  unfold lintelRow
  split
  · exact h
  · extract_lets t
    exact dataOk_ite h (dataOk_ite (dataOk_runInHod (dataOk_dropInbound h)) (dataOk_ite h (dataOk_runInHod (dataOk_tookHod (dataOk_dropInbound h)))))

theorem dataOk_takeIncidentHod {count : Nat} (h : DataOk n o d) : DataOk n o (takeIncidentHod e d count) := by
  unfold takeIncidentHod
  split
  · exact h
  · split
    · exact h
    · extract_lets t d1
      have hd1 : DataOk n o d1 := dataOk_trace (dataOk_dropInbound h)
      split
      · exact dataOk_enterReport hd1
      · exact dataOk_bumpT hd1

/-! ### Frames -/

theorem dataOk_dropFrame {r : Nat} (h : DataOk n o d) : DataOk n o (dropFrame e d r) := by
  unfold dropFrame
  extract_lets d1 l g q old
  have hd1 : DataOk n o d1 := dataOk_bumpR h
  exact dataOk_ite hd1 (dataOk_ite (dataOk_setLink hd1) (dataOk_report (dataOk_setLink hd1)))

theorem dataOk_goBack {r : Nat} (h : DataOk n o d) : DataOk n o (goBack e d r) :=
  dataOk_foldl (fun _ _ h2 => dataOk_bumpR (dataOk_bumpR (dataOk_wireOut (dataOk_setLink h2)))) h

theorem dataOk_replayDown {i : Nat} {l : Lintel} {x : Barrier} {ps : List Dword} (h : DataOk n o d) : DataOk n o (replayDown e d i l x ps) := by
  unfold replayDown
  extract_lets rel
  exact dataOk_ite h (dataOk_foldl (fun _ _ h2 => dataOk_ite h2 (dataOk_ite (dataOk_linkHod (dataOk_ite (dataOk_linkHod h2) h2))
    (dataOk_ite (dataOk_linkHod h2) h2))) h)

theorem dataOk_replayUp {i : Nat} {l : Lintel} {x : Barrier} {ps : List Dword} (h : DataOk n o d) : DataOk n o (replayUp e d i l x ps) := by
  unfold replayUp
  split
  · exact dataOk_ite h (dataOk_ite (dataOk_linkHod (dataOk_ite (dataOk_linkHod h) h)) (dataOk_ite (dataOk_linkHod h) h))
  · exact h

theorem dataOk_replayFor {r : BitVec 8} {die : Option (BitVec 3)} {who : Nat → Bool} (h : DataOk n o d) : DataOk n o (replayFor e d r die who) := by
  unfold replayFor
  refine dataOk_foldl (fun d2 x2 h2 => ?_) h
  split
  · extract_lets ps l
    exact dataOk_ite h2 (dataOk_replayUp (dataOk_replayDown (dataOk_setLintel h2)))
  · exact h2

theorem dataOk_replay {r : BitVec 8} {die : Option (BitVec 3)} (h : DataOk n o d) : DataOk n o (replay e d r die) := by
  unfold replay
  extract_lets k late d1
  have hd1 : DataOk n o d1 := dataOk_foldl (fun _ _ h2 => dataOk_ite (dataOk_setPart_same h2) h2) h
  exact dataOk_replayFor hd1

theorem dataOk_timeCut (h : DataOk n o d) : DataOk n o (timeCut d) :=
  h.keep

theorem dataOk_cutLink {r : Nat} (h : DataOk n o d) : DataOk n o (cutLink e d r) := by
  unfold cutLink
  extract_lets l d1 d2 d3 d4 d5
  have hd1 : DataOk n o d1 := dataOk_ite h (dataOk_stillBusy h)
  have hd2 : DataOk n o d2 := dataOk_setLink hd1
  have hd3 : DataOk n o d3 := hd2.keep
  have hd4 : DataOk n o d4 := dataOk_applyCut hd3
  have hd5 : DataOk n o d5 := dataOk_ite (dataOk_timeCut hd4) hd4
  exact dataOk_pumpTile (dataOk_startSync hd5)

theorem dataOk_retry {r : Nat} (h : DataOk n o d) : DataOk n o (retry e d r) := by
  unfold retry
  extract_lets l d1 d2
  have hd1 : DataOk n o d1 := dataOk_bumpR h
  have hd2 : DataOk n o d2 := dataOk_setLink hd1
  exact dataOk_ite (dataOk_cutLink hd1) (dataOk_ite (dataOk_wireOut hd2) (dataOk_goBack hd2))

theorem dataOk_takeAck {r : Nat} {ack : Word} (h : DataOk n o d) : DataOk n o (takeAck e d r ack) := by
  unfold takeAck
  extract_lets l d1
  have hd1 : DataOk n o d1 := dataOk_setLink h
  split
  · exact dataOk_pumpTile (dataOk_replay hd1)
  · split
    · exact h
    · extract_lets n1 rest
      exact dataOk_ite h (dataOk_pumpTile (dataOk_setLink (dataOk_stillBusy h)))

theorem dataOk_oweAck {r : Nat} (h : DataOk n o d) : DataOk n o (oweAck e d r) := by
  unfold oweAck
  extract_lets l
  exact dataOk_setLink h

theorem dataOk_sendAck {r : Nat} {nak : Bool} (h : DataOk n o d) : DataOk n o (sendAck e d r nak) := by
  unfold sendAck
  extract_lets l
  exact dataOk_wireOut (dataOk_setLink h)

theorem dataOk_arriveRec {route : BitVec 8} {die : BitVec 3} {node : BitVec 16} {record : HodRec} {ok : Bool}
    (h : DataOk n o d) : DataOk n o (arriveRec e d route die node record ok) :=
  dataOk_ite (dataOk_discardLintel h) h.keep

theorem dataOk_takeData {r : Nat} {f : List Byte} (h : DataOk n o d) : DataOk n o (takeData e d r f) := by
  unfold takeData
  extract_lets l seq hs d1 d2 d3 old
  have hd1 : DataOk n o d1 := dataOk_setLink h
  have hd2 : DataOk n o d2 := dataOk_bumpR hd1
  have hd3 : DataOk n o d3 := dataOk_takeAck (dataOk_bumpR h)
  exact dataOk_ite (dataOk_bumpR h) (dataOk_ite (dataOk_takeAck (dataOk_oweAck (dataOk_foldl (fun _ _ h2 => dataOk_arriveRec h2) hd2)))
    (dataOk_ite (dataOk_takeAck (dataOk_sendAck (dataOk_bumpR h))) (dataOk_ite hd3 (dataOk_sendAck (dataOk_setLink hd3)))))

theorem dataOk_endHold {r : Nat} (h : DataOk n o d) : DataOk n o (endHold e d r) := by
  unfold endHold
  extract_lets l
  exact dataOk_ite h (dataOk_pump (dataOk_setLink h))

theorem dataOk_takeSync {r : Nat} {f : List Byte} (h : DataOk n o d) : DataOk n o (takeSync e d r f) := by
  unfold takeSync
  extract_lets l d1
  have hd1 : DataOk n o d1 := dataOk_sendAck (dataOk_setLink h)
  exact dataOk_ite (dataOk_pumpTile (dataOk_startSync hd1)) (dataOk_replay hd1)

theorem dataOk_takeTime {route : BitVec 8} {die : BitVec 3} {f : List Byte} {g : Dword}
    (h : DataOk n o d) : DataOk n o (takeTime e d route die f g) := by
  unfold takeTime
  extract_lets l put t1 t4 t2 t3
  split
  · exact dataOk_ite (dataOk_packOut h) (dataOk_wireOut h)
  · split
    · exact h
    · split
      · exact h
      · split
        · next hx2 =>
            extract_lets th
            split
            · next hx3 =>
                extract_lets de old
                exact (dataOk_of_snd (dataOk_nextFree (dataOk_of_snd (dataOk_nextFree h) hx2)) hx3).keep

theorem dataOk_sendTime (h : DataOk n o d) : DataOk n o (sendTime e d) := by
  unfold sendTime
  extract_lets m g t1 d1 l x
  have hd1 : DataOk n o d1 := h.keep
  exact dataOk_ite h (dataOk_ite hd1 (dataOk_ite (dataOk_packOut hd1) (dataOk_wireOut hd1)))

theorem dataOk_timeoutTime {count : Nat} (h : DataOk n o d) : DataOk n o (timeoutTime e d count) := by
  unfold timeoutTime
  split
  · exact dataOk_ite h.keep h
  · exact h

theorem dataOk_okFrame {r : Nat} {f : List Byte} {g : Dword} (h : DataOk n o d) : DataOk n o (okFrame e d r f g) := by
  unfold okFrame
  extract_lets d1 d2 l before d3
  have hd1 : DataOk n o d1 := dataOk_bumpR h
  have hd2 : DataOk n o d2 := dataOk_ite hd1 (dataOk_endHold hd1)
  have hd3 : DataOk n o d3 := dataOk_takeAck hd2
  exact dataOk_ite (dataOk_takeSync hd2) (dataOk_ite (dataOk_bumpR hd2)
    (dataOk_ite (dataOk_setLink hd2) (dataOk_ite (dataOk_takeTime hd2)
      (dataOk_ite (dataOk_takeData hd2) (dataOk_ite (dataOk_ite (dataOk_retry hd3) hd3) (dataOk_bumpR hd2))))))

theorem dataOk_takeFrame {f : List Byte} {err : Bool} {t : Dword} (h : DataOk n o d) : DataOk n o (takeFrame e d f err t) := by
  unfold takeFrame
  split
  · exact h
  · split
    · exact dataOk_bumpR h
    · split
      · exact dataOk_bumpR h
      · exact dataOk_ite (dataOk_okFrame h) (dataOk_dropFrame h)

theorem dataOk_bufferFrame {f : List Byte} {err : Bool} (h : DataOk n o d) : DataOk n o (bufferFrame e d f err) :=
  dataOk_ite h.keep h

theorem dataOk_frameRow {f : List Byte} {err : Bool} {is : List Byte → Bool} (h : DataOk n o d) : DataOk n o (frameRow e d f err is) :=
  dataOk_ite h (dataOk_ite (dataOk_bufferFrame h) (dataOk_takeFrame h))

theorem dataOk_packageRec {die : BitVec 3} {l : List Byte} (h : DataOk n o d) : DataOk n o (packageRec e d die l) := by
  unfold packageRec
  split
  · exact h
  · split
    · exact dataOk_bumpR h
    · split
      · exact dataOk_arriveRec (dataOk_bumpR (dataOk_bumpR h))
      · exact dataOk_bumpR h

theorem dataOk_packageTime {die : BitVec 3} {f : List Byte} (h : DataOk n o d) : DataOk n o (packageTime e d die f) :=
  dataOk_ite h (dataOk_ite (dataOk_bumpR h) (dataOk_takeTime (dataOk_bumpR h)))

theorem dataOk_d2dCut {die : BitVec 3} (h : DataOk n o d) : DataOk n o (d2dCut e d die) := by
  unfold d2dCut
  extract_lets old d1 d2 d3
  have hd1 : DataOk n o d1 := dataOk_report h
  have hd2 : DataOk n o d2 := hd1.keep
  have hd3 : DataOk n o d3 := dataOk_applyCut hd2
  exact dataOk_ite (dataOk_timeCut hd3) hd3

theorem dataOk_d2dResume {up down : BitVec 8} {k : Nat} (h : DataOk n o d) : DataOk n o (d2dResume e up down d k) := by
  unfold d2dResume
  extract_lets die d1
  have hd1 : DataOk n o d1 := dataOk_ite (dataOk_d2dCut h) h
  exact dataOk_ite (dataOk_replay hd1) hd1

theorem dataOk_retransmit {r : Nat} (h : DataOk n o d) : DataOk n o (retransmit e d r) := by
  unfold retransmit
  extract_lets l
  split
  · exact dataOk_ite (dataOk_retry h) h
  · exact h

theorem dataOk_ackTimer {r : Nat} (h : DataOk n o d) : DataOk n o (ackTimer e d r) := by
  unfold ackTimer
  split
  · exact dataOk_ite (dataOk_sendAck h) h
  · exact h

theorem dataOk_holdMaxed {r : Nat} (h : DataOk n o d) : DataOk n o (holdMaxed e d r) := by
  unfold holdMaxed
  split
  · exact dataOk_ite (dataOk_cutLink h) h
  · exact h

theorem dataOk_resumeLinks {e2 : Env} (h : DataOk n o d) : DataOk n o (resumeLinks e e2 d) := by
  unfold resumeLinks
  extract_lets ls
  exact dataOk_ite h.keep (dataOk_foldl (fun _ _ h2 => dataOk_pump h2) (dataOk_releaseHeld h.keep))

/-! ### Trace, counters and triggers -/

theorem dataOk_fillBucket {t : Nat} (h : DataOk n o d) : DataOk n o (fillBucket e d t) := by
  unfold fillBucket
  extract_lets x b n1
  exact dataOk_setTile h

theorem dataOk_writeTrace {t k : Nat} {r : TRec} (h : DataOk n o d) : DataOk n o (writeTrace e d t k r) := by
  unfold writeTrace
  split
  · next hx =>
      exact dataOk_ite (dataOk_of_fst (dataOk_crossing (dataOk_bumpT (dataOk_countPorts h))) hx)
        (dataOk_setTring (dataOk_memWrite (dataOk_of_fst (dataOk_crossing (dataOk_bumpT (dataOk_countPorts h))) hx)))

theorem dataOk_lateDrop {t count : Nat} (h : DataOk n o d) : DataOk n o (lateDrop e d t count) := by
  unfold lateDrop
  extract_lets x b l
  exact dataOk_ite (dataOk_bumpK (dataOk_setTile h)) h

theorem dataOk_loseRec {t k : Nat} {r : TRec} (h : DataOk n o d) : DataOk n o (loseRec e d t k r) :=
  dataOk_ite (dataOk_traceReturn h) (dataOk_traceLose h)

theorem dataOk_drainList {t : Nat} {bucketed : Bool} {l : List TRec} {stuck : List Nat} {owed : FMap Nat} (h : DataOk n o d) :
    DataOk n o (drainList e t bucketed l stuck owed d) := by
  induction l generalizing stuck owed d with
  | nil => exact h
  | cons r l ih =>
    unfold drainList
    extract_lets drop r1 owed1 k b keep x src d1
    have hd1 : DataOk n o d1 := dataOk_ite (dataOk_setTile h) h
    exact dataOk_ite (dataOk_ite (ih (dataOk_countLost h)) (ih (dataOk_loseRec h))) (dataOk_ite (ih (dataOk_setTile h)) (ih (dataOk_writeTrace hd1)))

theorem dataOk_drainTile {t : Nat} {bucketed : Bool} (h : DataOk n o d) : DataOk n o (drainTile e d t bucketed) := by
  unfold drainTile
  extract_lets x l old d1 d2 x1 old1
  have hd1 : DataOk n o d1 := dataOk_drainList (dataOk_setTile h)
  have hd2 : DataOk n o d2 := dataOk_lateDrop hd1
  exact dataOk_ite (dataOk_setTile hd2) hd2

theorem dataOk_traceDrain {t : Nat} (h : DataOk n o d) : DataOk n o (traceDrain e d t) :=
  dataOk_ite h (dataOk_ite (dataOk_drainTile (dataOk_ite (dataOk_fillBucket h) (dataOk_stillBusy (dataOk_fillBucket h)))) (dataOk_fillBucket h))

theorem dataOk_loseTrace {t : Nat} (h : DataOk n o d) : DataOk n o (loseTrace e d t) := by
  unfold loseTrace
  extract_lets x l old
  exact dataOk_foldl (fun _ _ h2 => dataOk_loseRec h2) (dataOk_setTile h)

theorem dataOk_tringFault {owner : Owner} {addr : Dword} (h : DataOk n o d) : DataOk n o (tringFault e d owner addr) := by
  unfold tringFault
  extract_lets k q
  exact dataOk_ite (dataOk_report (dataOk_setTring h)) h

theorem dataOk_tringResume {k : Nat} (h : DataOk n o d) : DataOk n o (tringResume d k) := by
  unfold tringResume
  extract_lets q
  exact dataOk_ite (dataOk_setTring h) h

theorem dataOk_centreTile {t : Nat} (h : DataOk n o d) : DataOk n o (centreTile t d) := by
  unfold centreTile
  extract_lets m x b r k
  exact dataOk_ite (dataOk_foldl (fun _ _ h2 => dataOk_traceReturn h2) (dataOk_setTile h)) h

theorem dataOk_freezeTile {t : Nat} (h : DataOk n o d) : DataOk n o (freezeTile t d) := by
  unfold freezeTile
  extract_lets x old
  exact dataOk_ite h (dataOk_setTile h)

theorem dataOk_fireTrigger {src : Nat} (h : DataOk n o d) : DataOk n o (fireTrigger e d src) := by
  unfold fireTrigger
  extract_lets o1 d1 g old d2 old1 d3 d4 old2
  have hd1 : DataOk n o d1 := h.keep
  have hd2 : DataOk n o d2 := dataOk_bumpK hd1.keep
  have hd3 : DataOk n o d3 := dataOk_foldl (fun _ _ h2 => dataOk_trace (dataOk_centreTile h2)) hd2
  have hd4 : DataOk n o d4 := dataOk_ite (dataOk_foldl (fun _ _ h2 => dataOk_freezeTile h2) hd3) hd3
  exact dataOk_ite hd1 (dataOk_ite hd4.keep hd4)

theorem dataOk_trigger {src : Nat} (h : DataOk n o d) : DataOk n o (trigger e d src) :=
  dataOk_ite (dataOk_ite (dataOk_fireTrigger h) h) (dataOk_ite (dataOk_fireTrigger h) h)

theorem dataOk_rearm (h : DataOk n o d) : DataOk n o (rearm d) := by
  unfold rearm
  extract_lets clear old
  exact h.keep

theorem dataOk_writeTcCtl {v : Word} (h : DataOk n o d) : DataOk n o (writeTcCtl e d v) := by
  unfold writeTcCtl
  extract_lets old d1 d2 d3 d4 d5 old1
  have hd1 : DataOk n o d1 := h.keep
  have hd2 : DataOk n o d2 := dataOk_ite (dataOk_fireTrigger hd1) hd1
  have hd3 : DataOk n o d3 := dataOk_ite (dataOk_rearm hd2) hd2
  have hd4 : DataOk n o d4 := dataOk_ite (dataOk_tringResume hd3) hd3
  have hd5 : DataOk n o d5 := dataOk_ite (dataOk_foldl (fun _ _ h2 => dataOk_setTile h2) hd4) hd4
  exact dataOk_ite hd5.keep hd5

theorem dataOk_writeMark {v : Word} (h : DataOk n o d) : DataOk n o (writeMark e d v) :=
  dataOk_foldl (fun _ _ h2 => dataOk_trace h2) h

theorem dataOk_writeCsel {v : Word} (h : DataOk n o d) : DataOk n o (writeCsel d v) := by
  unfold writeCsel
  extract_lets k u c n1 old
  exact h.keep

theorem dataOk_copyShadow {p : BitVec 4} (h : DataOk n o d) : DataOk n o (copyShadow d p) := by
  unfold copyShadow
  exact h.keep

theorem dataOk_writeObsctl {p : BitVec 4} {v : Word} (h : DataOk n o d) : DataOk n o (writeObsctl d p v) := by
  unfold writeObsctl
  extract_lets old d1
  have hd1 : DataOk n o d1 := dataOk_ite h.keep h
  exact dataOk_ite (dataOk_tringResume hd1) hd1

end Sys2Proof.Machine
end

section
/-! Partitions keep the data path in order (DpOk): a partition that a command moves between two states is set aside until it has settled. -/

namespace Sys2Proof.Machine

open Sys2Proof.Safety

set_option Elab.async false

variable {n m : Nat} {o : Option Nat} {e : Env} {d d2 : Dp}

/-! ### Partitions -/

theorem dataOk_takeFreeze {src : FreezeSrc} {p : BitVec 4} (h : DataOk n o d) : DataOk n o (takeFreeze e d src p) := by
  unfold takeFreeze
  extract_lets x ok d1
  have hd1 : DataOk n o d1 := dataOk_setPart_same h
  split
  · exact h
  · split
    · exact dataOk_setJoint_same hd1
    · exact hd1

theorem dataOk_takeMarker {t : Nat} {src : FreezeSrc} {p : BitVec 4} (h : DataOk n o d) : DataOk n o (takeMarker e d t src p) := by
  unfold takeMarker
  extract_lets x due
  exact dataOk_ite h (dataOk_setPart_same h)

theorem dataOk_flushTrees {p : BitVec 4} (h : DataOk n o d) : DataOk n o (flushTrees e d p) := by
  unfold flushTrees
  extract_lets mine d1
  have hd1 : DataOk n o d1 := h.keep
  exact dataOk_foldl (fun _ _ h2 => dataOk_ite h2 (dataOk_send h2)) hd1

theorem dataOk_backlogSlot {env : Env} {area : Dword} {k : Nat} {x : BackHod} (h : DataOk n o d) : DataOk n o (backlogSlot env d area k x) := by
  unfold backlogSlot
  extract_lets route h1
  exact dataOk_memWrite h

theorem dataOk_backlogCount {area : Dword} {count : Nat} (h : DataOk n o d) : DataOk n o (backlogCount d area count) :=
  dataOk_memWrite h

theorem dataOk_writePieces {addr : Dword} {l : List Piece} (h : DataOk n o d) : DataOk n o (writePieces addr l d) := by
  induction l generalizing addr d with
  | nil => exact h
  | cons q l ih => exact ih (dataOk_ite h (dataOk_memWrite h))

theorem dataOk_writeArea {p : BitVec 4} {area : Dword} (h : DataOk n o d) : DataOk n o (writeArea e d p area) := by
  unfold writeArea
  extract_lets x ps d1 d2 crc
  have hd1 : DataOk n o d1 := dataOk_writePieces h
  have hd2 : DataOk n o d2 := dataOk_foldl (fun _ _ h2 => dataOk_backlogSlot h2) hd1
  exact dataOk_memWrite hd2

theorem dataOk_unbindBrick {i : Nat} (h : DataOk n o d) : DataOk n o (unbindBrick e d i) := by
  unfold unbindBrick
  extract_lets t d1 d2 d3
  have hd1 : DataOk n o d1 := by
    unfold d1
    split
    · extract_lets d4
      have hd4 : DataOk n o d4 := by
        unfold d4
        split
        · exact dataOk_ite h (dataOk_unbindRun h)
        · exact dataOk_unbindRun h
        · exact h
      split
      · exact dataOk_unbindRun hd4
      · exact hd4
    · exact h
  have hd2 : DataOk n o d2 := by
    unfold d2
    split
    · exact dataOk_ite (dataOk_unbindRun hd1) hd1
    · exact hd1
  have hd3 : DataOk n o d3 := dataOk_foldl (fun _ _ h2 => dataOk_ite h2 (dataOk_unbindRun h2)) hd2
  refine dataOk_foldl (fun d4 x2 h2 => ?_) hd3
  split
  · extract_lets d5
    have hd5 : DataOk n o d5 := dataOk_unbindRuns h2
    exact hd5.keep
  · exact h2

/-- The entries that a partition's save puts aside are those of the joints, so their numbers have been given. -/
theorem dataOk_savePart {p : BitVec 4} {area : Dword} (h : DataOk n o d) : DataOk n o (savePart e d p area) := by
  unfold savePart
  extract_lets x d3 own sv d4 tiles joints d5
  have hd3 : DataOk n o d3 := dataOk_writeArea h
  have hd4 : DataOk d3.seq o d4 := dataOk_foldl (fun _ _ h => dataOk_unbindBrick h) hd3.fromNow
  have hjoints : DataOk d3.seq o { d4 with joints := joints } := hd4.mapJoints (fun _ _ hy => List.mem_of_mem_filter hy)
  have hd5 : DataOk d3.seq o d5 := hjoints.keep
  refine (dataOk_setPart hd5 (fun _ => ⟨by simp, fun q hq => ?_⟩)).weaken hd3.seq
  obtain ⟨j, hj, hy⟩ := List.mem_flatMap.1 hq
  obtain ⟨y, hmem, rfl⟩ := List.mem_map.1 hy
  exact lt_of_lt_of_le (hd3.joints j hj y (List.mem_of_mem_filter hmem)) hd5.seq

theorem dataOk_resetEntries {p : BitVec 4} (h : DataOk n o d) : DataOk n o (resetEntries e d p) :=
  dataOk_foldl (fun _ _ h2 => dataOk_answerMany (dataOk_setJoint_same h2)) h

theorem dataOk_resetBrick {i : Nat} (h : DataOk n o d) : DataOk n o (resetBrick e d i) := by
  unfold resetBrick
  extract_lets b d1
  have hd1 : DataOk n o d1 := by
    unfold d1
    split
    · extract_lets d2
      have hd2 : DataOk n o d2 := dataOk_ite h (dataOk_collectSweep h)
      exact dataOk_sendUp (dataOk_spreadPoison hd2)
    · exact dataOk_sendAll h
    · exact h
  exact dataOk_dropBrick (dataOk_endBeds hd1)

theorem dataOk_resetRings {p : BitVec 4} (h : DataOk n o d) : DataOk n o (resetRings d p) := by
  unfold resetRings
  extract_lets mine k parkedOut tiles gone old inc
  exact h.keep

theorem dataOk_clearCounters {p : BitVec 4} (h : DataOk n o d) : DataOk n o (clearCounters d p) := by
  unfold clearCounters
  extract_lets keep old old1
  exact h.keep

theorem dataOk_resetPart {p : BitVec 4} (h : DataOk n none d) : DataOk n none (resetPart e d p) := by
  unfold resetPart
  extract_lets was old d3 d4 d5 d6 x
  have hd4 : DataOk n (some p.toNat) d4 := dataOk_resetEntries (dataOk_setPart (h.aside p.toNat) (fun hp => absurd rfl hp))
  have hd5 : DataOk n (some p.toNat) d5 :=
    dataOk_ite (dataOk_foldl (fun _ _ h => (dataOk_setBrick h).keep) hd4) (dataOk_foldl (fun _ _ h => dataOk_resetBrick h) hd4)
  have hst : Part.init.st ≠ .saved := by decide
  exact (dataOk_clearCounters (dataOk_resetRings hd5)).settle (partOk_of_unsaved hst rfl)

theorem dataOk_stopCtx {p : BitVec 4} (h : DataOk n o d) : DataOk n o (stopCtx e d p) := by
  unfold stopCtx
  split
  · exact h
  · extract_lets d1 old
    have hd1 : DataOk n o d1 := h.keep
    split
    · exact dataOk_afterDesc (dataOk_completeWith (dataOk_setRing hd1))
    · exact hd1

theorem dataOk_requestReset {p : BitVec 4} (h : DataOk n none d) : DataOk n none (requestReset e d p) := by
  unfold requestReset
  extract_lets x
  exact dataOk_ite (dataOk_setPart_same h) (dataOk_stopCtx (dataOk_resetPart h))

theorem dataOk_toFrozen {p : BitVec 4} (h : DataOk n none d) (hst : (partOf d p).st ≠ .saved) : DataOk n none (toFrozen e d p) :=
  dataOk_ite (dataOk_stopCtx (dataOk_resetPart h)) (dataOk_setPart h (fun hp => partOk_of_unsaved (by simp) ((h.partOf hp).saved_none hst)))

theorem dataOk_endSave {p : BitVec 4} {x : BitVec 512} (h : DataOk n o d) : DataOk n o (endSave e d p x) := by
  unfold endSave
  extract_lets area d1 old d2
  have hd1 : DataOk n o d1 := dataOk_ite h (dataOk_savePart h)
  have hd2 : DataOk n o d2 := dataOk_setRing hd1
  exact dataOk_completeWith hd2.keep

/-- R336. The completion hods that a freeze sends leave the partitions. -/
theorem flushTrees_parts (p : BitVec 4) : (flushTrees e d p).parts = d.parts := by
  unfold flushTrees
  refine List.foldlRecOn (motive := fun d2 : Dp => d2.parts = d.parts) _ _ rfl (fun d2 hd2 c _ => ?_)
  split
  · exact hd2
  · exact (send_parts ..).trans hd2

theorem dataOk_freezeTick (h : DataOk n none d) : DataOk n none (freezeTick e d) := by
  unfold freezeTick
  split
  · exact h
  · next p _ =>
    refine dataOk_ite h ?_
    split
    · next hst =>
      extract_lets d3
      have hd3 : DataOk n none d3 := dataOk_ite (dataOk_flushTrees h) h
      have hparts : d3.parts = d.parts := by
        simp only [d3]
        split
        · exact flushTrees_parts p
        · rfl
      refine dataOk_ite (dataOk_toFrozen hd3 ?_) hd3
      rw [partOf, hparts, ← partOf, hst]
      decide
    · split
      · exact dataOk_ite (dataOk_afterDesc (dataOk_endSave h)) h
      · exact h
    · exact h

theorem dataOk_ctxSave {x : BitVec 512} (h : DataOk n none d) : DataOk n none (ctxSave e d x) := by
  unfold ctxSave
  extract_lets p area old d3
  refine dataOk_ite (dataOk_completeWith h) ?_
  split
  · next hst =>
    have hd3 : DataOk n none d3 := dataOk_setPart h (fun hp => partOk_of_unsaved (by simp) ((h.partOf hp).saved_none (by simp [p, hst])))
    exact dataOk_setRing hd3.keep
  · exact dataOk_endSave h
  all_goals exact dataOk_completeWith h

theorem dataOk_fitBind {t k : Nat} {r : Nat} (h : DataOk n o d) (hr : fitBind d t k = some (d2, r)) : DataOk n o d2 := by
  unfold fitBind at hr
  split at hr
  · cases hr
    exact h
  · exact dataOk_of_map hr (fun _ _ => dataOk_bindRun h)

theorem dataOk_heldSlot {t : Nat} {r : SlotRef} (h : DataOk n o d) (hr : heldSlot e d t r = some d2) : DataOk n o d2 := by
  unfold heldSlot at hr
  extract_lets own at hr
  split at hr
  · exact dataOk_takeSlot h hr
  · cases hr

theorem dataOk_fitRuns {t : Nat} {l : List Nat} {r : List (Nat × Nat)} (h : DataOk n o d) (hr : fitRuns t l d = some (d2, r)) : DataOk n o d2 := by
  induction l generalizing d d2 r with
  | nil =>
    cases hr
    exact h
  | cons k l ih =>
    unfold fitRuns at hr
    split at hr
    · cases hr
    · next hx =>
        refine dataOk_of_map hr (fun y hy => ?_)
        clear hr
        exact ih (dataOk_fitBind h hx) hy

theorem dataOk_remirror {i k t : Nat} {ns : List Nat} {r : Nat} (h : DataOk n o d) (hr : remirror e d i k t ns = some (d2, r)) : DataOk n o d2 := by
  unfold remirror at hr
  split at hr
  · cases hr
  · split at hr
    · cases hr
    · next hx2 =>
        refine dataOk_of_map hr (fun y hy => ?_)
        clear hr
        exact (dataOk_fitRuns (dataOk_heldSlot h hx2) hy).keep

theorem dataOk_rebindBarrier {i : Nat} {x : Barrier} {r : Barrier × List Nat}
    (h : DataOk n o d) (hr : rebindBarrier e d i x = some (d2, r)) : DataOk n o d2 := by
  unfold rebindBarrier at hr
  extract_lets t at hr
  split at hr
  · cases hr
    exact h
  · refine dataOk_of_map hr (fun y hy => ?_)
    clear hr
    exact dataOk_fitBind h hy
  · split at hr
    · cases hr
    · next hx2 =>
        extract_lets src x1 at hr
        split at hr
        · cases hr
          exact dataOk_fitBind h hx2
        · split at hr
          · cases hr
            exact dataOk_fitBind h hx2
          · refine dataOk_of_map hr (fun y hy => ?_)
            clear hr
            exact dataOk_fitBind (dataOk_fitBind h hx2) hy

theorem dataOk_restoreStripe {b : Brick} {i : Nat} {q : Nat × Stripe}
    (h : DataOk n o d) (hr : restoreStripe e b i q d = some d2) : DataOk n o d2 := by
  unfold restoreStripe at hr
  extract_lets t at hr
  split at hr
  · cases hr
  · next d3 hs =>
    have h3 : DataOk n o d3 := by
      split at hs
      · exact Option.some.inj hs ▸ h
      · exact dataOk_heldSlot h hs
    clear hs
    split at hr
    · cases hr
      exact h3
    · split at hr
      · cases hr
      · next hx =>
          extract_lets d1 at hr
          have hd1 : DataOk n o d1 := dataOk_setStripe (dataOk_fitBind h3 hx)
          split at hr
          · injection hr with hr
            rw [← hr]
            exact hd1
          · split at hr
            · split at hr
              · cases hr
              · refine dataOk_of_map_dp hr (fun y hy => ?_)
                clear hr
                extract_lets s d5
                have hd5 : DataOk n o d5 := dataOk_setStripe (dataOk_fitBind hd1 hy)
                exact hd5.keep
            · refine dataOk_of_map_dp hr (fun y hy => ?_)
              clear hr
              exact dataOk_modStripe (dataOk_remirror hd1 hy)

theorem dataOk_restoreStripes {b : Brick} {i : Nat} {l : List (Nat × Stripe)} (h : DataOk n o d) (hr : restoreStripes e b i l d = some d2) :
    DataOk n o d2 := by
  induction l generalizing d with
  | nil =>
    cases hr
    exact h
  | cons q l ih =>
    obtain ⟨d3, h3, hr⟩ := Option.bind_eq_some_iff.1 hr
    exact ih (dataOk_restoreStripe h h3) hr

theorem dataOk_restoreBrick {i : Nat} (h : DataOk n o d) (hr : restoreBrick e d i = some d2) : DataOk n o d2 := by
  unfold restoreBrick at hr
  extract_lets b t held at hr
  split at hr
  · cases hr
    exact h
  · split at hr
    · cases hr
    · next _ d3 hslot =>
      have h3 : DataOk n o d3 := by
        split at hslot
        · exact dataOk_heldSlot h hslot
        · exact dataOk_takeSlot h hslot
      split at hr
      · cases hr
      · next _ d4 ns hbind =>
        have h4 : DataOk n o d4 := by
          split at hbind
          · exact dataOk_of_map hbind (fun q hq => dataOk_setBarrier (dataOk_rebindBarrier h3 hq))
          · cases hbind
            exact h3
        split at hr
        · cases hr
        · next _ d5 hmir =>
          have h5 : DataOk n o d5 := by
            split at hmir
            · exact dataOk_of_map_dp hmir (fun q hq => dataOk_setBrick (dataOk_remirror h4 hq))
            · exact Option.some.inj hmir ▸ h4
          clear hslot hbind hmir
          split at hr
          · cases hr
          · next hx =>
              split at hr
              · cases hr
                exact dataOk_restoreStripes h5 hx
              · split at hr
                · cases hr
                · next hx3 =>
                    split at hr
                    · refine dataOk_of_map_dp hr (fun y hy => ?_)
                      clear hr
                      exact dataOk_setLintel (dataOk_fitBind (dataOk_heldSlot (dataOk_restoreStripes h5 hx) hx3) hy)
                    · cases hr
                      exact dataOk_heldSlot (dataOk_restoreStripes h5 hx) hx3

theorem dataOk_requeue {q : Nat × List Waiter} (h : DataOk n o d) : DataOk n o (requeue e d q) := by
  unfold requeue
  extract_lets i d1
  have hd1 : DataOk n o d1 := by
    unfold d1
    refine dataOk_foldl (fun d2 x2 h2 => ?_) h
    split
    · next hx =>
        extract_lets b
        exact dataOk_setBrick (dataOk_of_snd (dataOk_nextFree h2) hx)
  exact hd1.keep

theorem dataOk_requeueAll {l : List Nat} (h : DataOk n o d) : DataOk n o (requeueAll e d l) := by
  unfold requeueAll
  extract_lets qs
  exact dataOk_foldl (fun _ _ h2 => dataOk_requeue h2) (dataOk_foldl (fun _ _ h2 => dataOk_setBrick h2) h)

theorem dataOk_putRecordBack {i : Nat} (h : DataOk n o d) : DataOk n o (putRecordBack e d i) :=
  dataOk_memWrite h

theorem dataOk_restoreBricks {l : List Nat} (h : DataOk n o d) (hr : restoreBricks e l d = some d2) : DataOk n o d2 := by
  induction l generalizing d with
  | nil =>
    cases hr
    exact h
  | cons i l ih =>
    obtain ⟨d3, h3, hr⟩ := Option.bind_eq_some_iff.1 hr
    exact ih (dataOk_restoreBrick h h3) hr

/-- The entries that come back were numbered below what has been given. -/
theorem dataOk_restoreState {p : BitVec 4} {s : Saved} {r : Bool} (h : DataOk n o d) (hs : ∀ q ∈ s.entries, q.2.id < n)
    (hr : restoreState e d p s = .ok (d2, r)) : DataOk n o d2 := by
  unfold restoreState at hr
  split at hr
  · cases hr
  · split at hr
    · cases hr
    · next d3 od hcharge =>
      extract_lets old d4 d5 joint at hr
      have hd4 : DataOk n o d4 := dataOk_setPart (dataOk_chargeG h hcharge) (fun _ => partOk_of_unsaved (by simp) rfl)
      have hd5 : DataOk n o d5 := hd4.keep
      clear_value d5
      split at hr
      · cases hr
      · next d6 hbricks =>
        extract_lets d7 d8 d9 d10 at hr
        have hd7 : DataOk n o d7 := dataOk_foldl (fun d q h => dataOk_setJoint_same (x := { jointOf d q.1 with beds := _ }) h) (dataOk_restoreBricks hd5 hbricks)
        have hd8 : DataOk n o d8 := by
          refine List.foldlRecOn _ _ hd7 (fun d hd q hq => dataOk_setJoint hd (fun y hy => ?_))
          obtain hy | hy := List.mem_append.1 hy
          · exact hd.jointOf q.1 y hy
          · exact List.mem_singleton.1 hy ▸ lt_of_lt_of_le (hs q hq) hd.seq
        have hd10 : DataOk n o d10 := dataOk_foldl (fun _ _ h => dataOk_setJoint_same h) (dataOk_foldl (fun _ _ h => dataOk_setJoint_same h) hd8)
        clear_value d10
        split at hr
        · cases hr
        · cases hr
          exact dataOk_foldl (fun _ _ h => dataOk_putRecordBack h) (dataOk_requeueAll hd10)

theorem dataOk_advanceBrick {by_ : Dword} {i : Nat} (h : DataOk n o d) : DataOk n o (advanceBrick d by_ i) := by
  unfold advanceBrick
  extract_lets d1
  have hd1 : DataOk n o d1 := dataOk_setBrick h
  exact hd1.keep

theorem dataOk_rebuildTrees {i : Nat} (h : DataOk n o d) : DataOk n o (rebuildTrees e d i) := by
  unfold rebuildTrees
  extract_lets b handle t
  split
  · extract_lets d3 d4 sent d5
    have hd4 : DataOk n o d4 := dataOk_buildTree (dataOk_dropTree (dataOk_buildTree (dataOk_dropTree h)))
    clear_value d4
    have hd5 : DataOk n o d5 := hd4.keep
    exact hd5.mapJoints (fun j => List.Subset.refl _)
  · exact h

theorem dataOk_lateCut {p : BitVec 4} {k : Nat} (h : DataOk n o d) : DataOk n o (lateCut e p d k) := by
  unfold lateCut
  extract_lets n1 r die
  exact dataOk_ite (dataOk_replayFor h) (dataOk_foldl (fun _ _ h2 => dataOk_ite (dataOk_foldl (fun _ _ h3 => dataOk_losePeer h3) h2) h2) h)

theorem dataOk_actNow {k : Nat} {x : Hod} (h : DataOk n o d) : DataOk n o (actNow e k d x) := by
  induction k generalizing d x with
  | zero => exact h.keep
  | succ k ih =>
    unfold actNow
    split
    · refine dataOk_ite h ?_
      split
      · exact dataOk_ite (dataOk_park h) (dataOk_runHod h)
      · exact dataOk_runHod h
    · exact dataOk_foldl (fun _ _ h => ih h) (dataOk_combTake h).keep
    · exact h.keep

theorem dataOk_actSent {d0 : Dp} (h : DataOk n o d) : DataOk n o (actSent e d0 d) :=
  dataOk_foldl (fun _ _ h => dataOk_actNow h) h.keep

theorem dataOk_takeRecorded {x : Hod} (h : DataOk n o d) : DataOk n o (takeRecorded e d x) :=
  dataOk_actSent (dataOk_sendHod h)

theorem dataOk_reloadWakes (h : DataOk n o d) : DataOk n o (reloadWakes e d) :=
  dataOk_foldl (fun _ _ h2 => dataOk_loadWake h2) h

theorem dataOk_silentRoutes {p : BitVec 4} (h : DataOk n o d) : DataOk n o (silentRoutes e d p) :=
  dataOk_foldl (fun _ _ h2 => dataOk_silentTimer h2) h

theorem dataOk_resumePart {p : BitVec 4} {gtFreeze : Dword} {departs : List Nat} (h : DataOk n (some p.toNat) d) :
    DataOk n none (resumePart e d p gtFreeze departs) := by
  unfold resumePart
  extract_lets x d3 d4 d5 old d6 d7 d8 d9 d10 y
  have hd3 : DataOk n (some p.toNat) d3 := dataOk_foldl (fun _ _ h => dataOk_advanceBrick (dataOk_rebuildTrees h)) h
  have hd4 : DataOk n (some p.toNat) d4 := hd3.mapJoints (fun j => List.Subset.refl _)
  have hd6 : DataOk n (some p.toNat) d6 := dataOk_setPart (dataOk_foldl (fun _ _ h => dataOk_deliverHeld h) hd4) (fun hp => absurd rfl hp)
  have hd8 : DataOk n (some p.toNat) d8 :=
    dataOk_foldl (fun _ _ h => dataOk_actSent (dataOk_departReports (dataOk_departBeds h))) (dataOk_foldl (fun _ _ h => dataOk_takeRecorded h) hd6)
  have hd10 : DataOk n (some p.toNat) d10 := dataOk_foldl (fun _ _ h => dataOk_runInHod h) (dataOk_foldl (fun _ _ h => dataOk_lateCut h) hd8)
  exact dataOk_reloadWakes ((dataOk_silentRoutes hd10).settle (partOk_of_unsaved (by simp) rfl))

theorem dataOk_ctxRestore {x : BitVec 512} {bytes : List Byte} (h : DataOk n none d) : DataOk n none (ctxRestore e d x bytes) := by
  unfold ctxRestore
  extract_lets p area done y
  refine dataOk_ite (dataOk_completeWith h) ?_
  split
  · exact dataOk_ite (dataOk_completeWith (dataOk_resumePart (h.aside _))) (dataOk_completeWith h)
  · next s _ hsaved =>
    refine dataOk_ite (dataOk_completeWith h) ?_
    have hread : DataOk n none (memRead d 16 area bytes.length) := dataOk_memRead h
    refine dataOk_ite (dataOk_completeWith hread) ?_
    split
    · exact dataOk_completeWith hread
    · next d3 od hrestore =>
      have hs : ∀ q ∈ s.entries, q.2.id < d.seq := fun q hq => (h.partOf (p := p) (by simp)).2 q (by rw [hsaved]; exact hq)
      have hd3 : DataOk d.seq none d3 := dataOk_restoreState (dataOk_memRead h.fromNow) hs hrestore
      exact dataOk_slotsCome h (dataOk_complete (dataOk_resumePart ((hd3.weaken h.seq).aside _)))
  · exact dataOk_completeWith h

theorem dataOk_descFault {r : RingId} {addr : Dword} (h : DataOk n o d) : DataOk n o (descFault e d r addr) := by
  unfold descFault
  extract_lets g x can o1 old c d1 d2
  have hd1 : DataOk n o d1 := dataOk_ite h.keep h
  have hd2 : DataOk n o d2 := dataOk_setRing hd1
  split
  · exact h
  · exact dataOk_ite (dataOk_completeNumbered (dataOk_report hd2)) h

theorem dataOk_backlogRow {count : Nat} {fault : Option Dword} (h : DataOk n o d) : DataOk n o (backlogRow e d count fault) := by
  unfold backlogRow
  split
  · exact h
  · split
    · exact h
    · split
      · exact h
      · extract_lets p t d1 x1 k old b d2
        have hd1 : DataOk n o d1 := dataOk_tookHod (dataOk_dropInbound h)
        have hd2 : DataOk n o d2 := dataOk_bumpT (dataOk_setPart_same hd1)
        split
        · exact dataOk_refuseHod (dataOk_dropInbound h)
        · split
          · exact h
          · split
            · exact dataOk_refuseHod hd1
            · split
              · exact dataOk_refuseHod (dataOk_reportTile hd1)
              · exact dataOk_backlogCount (dataOk_backlogSlot hd2)
              · exact dataOk_bumpT (dataOk_setPart_same hd1)

end Sys2Proof.Machine
end

section
/-! Faults, clocks, resets, registers and the cycle keep the data path in order (DpOk). -/

namespace Sys2Proof.Machine

open Sys2Proof.Safety

set_option Elab.async false

variable {n m : Nat} {o : Option Nat} {e : Env} {d d2 : Dp}

/-! ### Faults and fences -/

theorem dataOk_dropMirror {i k : Nat} (h : DataOk n o d) : DataOk n o (dropMirror e d i k) := by
  unfold dropMirror
  split
  · exact h
  · extract_lets mine d1 d2
    have hd1 : DataOk n o d1 := dataOk_dropSlot (dataOk_unbindRuns h)
    have hd2 : DataOk n o d2 := hd1.keep
    exact dataOk_foldl (fun _ _ h2 => dataOk_foldl (fun _ _ h3 => dataOk_sendKid h3) (dataOk_sendAll h2)) hd2

theorem dataOk_replaceMirror {i k : Nat} (h : DataOk n o d) : DataOk n o (replaceMirror e d i k) := by
  unfold replaceMirror
  split
  · exact h
  · extract_lets b t d1 src d2
    have hd1 : DataOk n o d1 := dataOk_dropMirror h
    have hd2 : DataOk n o d2 := dataOk_reportTile hd1
    split
    · exact hd2
    · next hx2 =>
        extract_lets src1 d4 d5 u
        have hd4 : DataOk n o d4 := dataOk_ite (dataOk_setBrick (dataOk_remirror hd2 hx2)) (dataOk_remirror hd2 hx2)
        have hd5 : DataOk n o d5 := dataOk_modStripe hd4
        split
        · extract_lets d6
          have hd6 : DataOk n o d6 := hd5.keep
          exact dataOk_send (dataOk_bumpT hd6)
        · exact hd5

theorem dataOk_loseStripe {i k : Nat} {key : IncKey} (h : DataOk n o d) : DataOk n o (loseStripe e d i k key) := by
  unfold loseStripe
  extract_lets b t
  split
  · exact h
  · exact dataOk_ite h (dataOk_sendNumbered (dataOk_setStripe (dataOk_dropMirror (dataOk_dropRefill (dataOk_unbindRun h)))))

theorem dataOk_graveSlot {t i : Nat} (h : DataOk n o d) : DataOk n o (graveSlot e d t i) := by
  have hslot : DataOk n o ((takeSlot e d t (.brick i)).getD d) := by
    cases hs : takeSlot e d t (.brick i) with
    | none => exact h
    | some d2 => exact dataOk_takeSlot h hs
  unfold graveSlot
  extract_lets b here
  exact dataOk_ite (dataOk_ite (dataOk_touchSlot h) hslot) (dataOk_dropSlot h)

theorem dataOk_loseBrick {i : Nat} {key : IncKey} (h : DataOk n o d) : DataOk n o (loseBrick e d i key) := by
  unfold loseBrick
  extract_lets b t h1 hs d1 d2 d3 d4
  have hd1 : DataOk n o d1 := dataOk_dropMirror (dataOk_dropTree (dataOk_dropTree h))
  have hd2 : DataOk n o d2 := by
    unfold d2
    split
    · exact dataOk_setLintel hd1
    · exact dataOk_dropMirror (dataOk_dropTree (dataOk_dropTree h))
  have hd3 : DataOk n o d3 := dataOk_loseStripe hd2
  have hd4 : DataOk n o d4 := dataOk_setBrick (dataOk_graveSlot hd3)
  exact dataOk_ite h (dataOk_sendNumbered hd4)

theorem dataOk_hitBrick {t i : Nat} {key : IncKey} (h : DataOk n o d) : DataOk n o (hitBrick e d t i key) := by
  unfold hitBrick
  extract_lets k
  split
  · exact dataOk_ite h (dataOk_loseBrick h)
  · split
    · exact dataOk_ite h (dataOk_loseStripe h)
    · split
      · exact dataOk_replaceMirror h
      · exact h

theorem dataOk_applyHit {t : Nat} {hit : TileHit} {key : IncKey} (h : DataOk n o d) : DataOk n o (applyHit e d t hit key) := by
  unfold applyHit
  split
  · exact h
  · exact h
  · exact dataOk_hitBrick h
  · exact dataOk_hitBrick h
  · exact dataOk_hitBrick h
  · extract_lets l here
    exact dataOk_foldl (fun _ _ h2 => dataOk_loseBrick h2) h
  · exact dataOk_loseTrace h
  · exact dataOk_foldl (fun _ _ h2 => dataOk_cutLink h2) h

theorem dataOk_tileFault {t : Nat} {hit : TileHit} (h : DataOk n o d) : DataOk n o (tileFault e d t hit) := by
  unfold tileFault
  extract_lets x key d1 d2
  have hd1 : DataOk n o d1 := dataOk_setTile h
  have hd2 : DataOk n o d2 := by
    unfold d2
    split
    · exact dataOk_reportTile hd1.keep
    · exact h
  exact dataOk_ite h (dataOk_ite (dataOk_bumpT h) (dataOk_applyHit hd2))

theorem dataOk_raisePaths {t hop : Nat} (h : DataOk n o d) : DataOk n o (raisePaths e d t hop) := by
  unfold raisePaths
  refine dataOk_foldl (fun d2 x2 h2 => ?_) h
  extract_lets b
  split
  · exact dataOk_ite (dataOk_emitNone (dataOk_setBody h2)) h2
  · exact h2

theorem dataOk_takeSlots {t : Nat} {key : IncKey} (h : DataOk n o d) : DataOk n o (takeSlots e d t key) := by
  unfold takeSlots
  refine dataOk_foldl (fun d2 x2 h2 => ?_) h
  split
  · exact dataOk_ite h2 (dataOk_loseBrick h2)
  · exact dataOk_ite h2 (dataOk_loseStripe h2)
  · exact h2
  · exact dataOk_replaceMirror h2

theorem dataOk_repointLost {t q : Nat} {key : IncKey} (h : DataOk n o d) : DataOk n o (repointLost e d t q key).2 := by
  unfold repointLost
  extract_lets hop d1 old d2 e1
  have hd1 : DataOk n o d1 := dataOk_loseTrace h
  have hd2 : DataOk n o d2 := dataOk_setTile hd1
  exact dataOk_raisePaths (dataOk_takeSlots hd2)

theorem dataOk_fenceParked {t : Nat} {p : Parked} (h : DataOk n o d) : DataOk n o (fenceParked e t d p) := by
  unfold fenceParked
  split
  · exact dataOk_fencedReply h
  · exact dataOk_fencedHod h
  · exact h
  · extract_lets old d1
    have hd1 : DataOk n o d1 := dataOk_setRing h
    split
    · exact dataOk_afterDesc (dataOk_fencedDesc hd1)
    · exact hd1

theorem dataOk_loseTile {t : Nat} {key : IncKey} (h : DataOk n o d) : DataOk n o (loseTile e d t key).2 := by
  unfold loseTile
  extract_lets oldRep e1 d3 x batches d4 d5 d6 d7 d8 r d9
  refine dataOk_snd ?_
  clear_value e1
  have hd4 : DataOk n o d4 := dataOk_setTile (dataOk_rereadRings (dataOk_loseTrace h))
  clear_value d4
  have hd5 : DataOk n o d5 := hd4.keep
  have hd6 : DataOk n o d6 := by
    refine dataOk_foldl (fun d w h => ?_) hd5
    split
    · split
      · exact dataOk_setTile h
      · exact h
    · exact h
  have hd7 : DataOk n o d7 := by
    refine dataOk_foldl (fun d w h => ?_) hd6
    split
    · exact dataOk_replaceMirror h
    · exact h
  have hd8 : DataOk n o d8 := dataOk_foldl (fun _ _ h => dataOk_fenceParked h) hd7
  exact dataOk_ite (dataOk_report hd8) hd8

theorem dataOk_giveUp {t : Nat} {key : IncKey} (h : DataOk n o d) : DataOk n o (giveUp e d t key).2.1 := by
  unfold giveUp
  split
  · exact dataOk_repointLost h
  · exact dataOk_loseTile h

theorem dataOk_fillDetails {key : IncKey} {d0 d1 : Dword} {d2 : Word} (h : DataOk n o d) : DataOk n o (fillDetails d key d0 d1 d2) := by
  unfold fillDetails
  extract_lets mine set old
  exact dataOk_ite h.keep h.keep

theorem dataOk_faultPlace {hit : TileHit} {r : TestResult} (h : DataOk n o d) : DataOk n o (faultPlace d hit r).2 := by
  unfold faultPlace
  split
  · exact h
  · split
    · next hx =>
        extract_lets v
        split
        · exact dataOk_of_snd (dataOk_nextFree h) hx
        · exact dataOk_of_snd (dataOk_nextFree h) hx

theorem dataOk_fenceTile {q : Nat} {key : IncKey} (h : DataOk n o d) : DataOk n o (fenceTile e d q key).2 := by
  unfold fenceTile
  extract_lets d1 old e1
  have hd1 : DataOk n o d1 := dataOk_forgetNumber h
  exact dataOk_report hd1

theorem dataOk_fenceAll {q : Nat} {keys : List IncKey} (h : DataOk n o d) : DataOk n o (fenceAll q keys e d).2 :=
  dataOk_foldl_snd (fun _ _ h2 => dataOk_fenceTile h2) h

theorem dataOk_selfTestDone {t : Nat} {r : TestResult} (h : DataOk n o d) : DataOk n o (selfTestDone e d t r).2 := by
  unfold selfTestDone
  extract_lets x q key lost spare oldRep
  split
  · exact h
  · next hit _ =>
    refine dataOk_ite_snd h ?_
    split
    next d0 d3 hfault =>
    have hplace : DataOk n o d3 := dataOk_of_snd (dataOk_faultPlace h) hfault
    clear_value spare
    split
    · exact dataOk_fillDetails (dataOk_giveUp (dataOk_fenceAll hplace))
    · extract_lets resume
      have hresume : ∀ e d c, DataOk n o d → DataOk n o (resume e d c).2 := fun _ _ _ h => dataOk_fillDetails (dataOk_setTile h)
      clear_value resume
      split
      · exact hresume _ _ _ (dataOk_bumpT hplace)
      · exact hresume _ _ _ hplace
      · exact dataOk_fillDetails (dataOk_giveUp hplace)

theorem dataOk_fencePhys {q : Nat} {key : IncKey} (h : DataOk n o d) : DataOk n o (fencePhys e d q key).2 := by
  unfold fencePhys
  split
  · exact dataOk_fenceTile (d := d) h
  · refine dataOk_ite_snd (dataOk_setTile h) ?_
    exact dataOk_giveUp (dataOk_fenceTile h)

theorem dataOk_withdrawFence {q : Nat} {key : IncKey} (h : DataOk n o d) : DataOk n o (withdrawFence e d q key) := by
  unfold withdrawFence
  split
  · exact h
  · exact dataOk_setTile h

theorem dataOk_fenceUnit {x : BitVec 512} (h : DataOk n o d) : DataOk n o (fenceUnit e d x).2.1 := by
  unfold fenceUnit
  extract_lets lift u old d1 d2
  have hd1 : DataOk n o d1 := dataOk_report (dataOk_forgetNumber h)
  have hd2 : DataOk n o d2 := dataOk_report (dataOk_forgetNumber h)
  split
  · split
    · refine dataOk_fst ?_
      exact h
    · split
      · refine dataOk_fst ?_
        exact h
      · split
        · refine dataOk_fst ?_
          exact h
        · refine dataOk_fst ?_
          exact dataOk_markDeparting hd1
  · split
    · refine dataOk_fst ?_
      exact h
    · split
      · refine dataOk_fst ?_
        exact dataOk_ite (dataOk_withdrawFence h) h
      · split
        · refine dataOk_fst ?_
          exact h
        · split
          · next hx2 =>
              refine dataOk_fst ?_
              exact dataOk_of_snd (dataOk_fencePhys h) hx2
  · split
    · refine dataOk_fst ?_
      exact h
    · split
      · refine dataOk_fst ?_
        exact h
      · split
        · refine dataOk_fst ?_
          exact h
        · split
          · refine dataOk_fst ?_
            exact h
          · extract_lets d3
            have hd3 : DataOk n o d3 := dataOk_foldl (fun _ _ h2 => dataOk_ite (dataOk_markDeparting h2) h2) hd2
            refine dataOk_fst ?_
            exact hd3
      · split
        · refine dataOk_fst ?_
          exact dataOk_ite (dataOk_withdrawFence h) h
        · split
          · refine dataOk_fst ?_
            exact h
          · split
            · next hx4 =>
                refine dataOk_fst ?_
                exact dataOk_of_snd (dataOk_fencePhys h) hx4
  · refine dataOk_fst ?_
    exact h

theorem dataOk_moveTile {t q : Nat} (h : DataOk n o d) : DataOk n o (moveTile e d t q).2 := by
  unfold moveTile
  extract_lets old hop d1 prior d2 e1 prior1 e2
  have hd1 : DataOk n o d1 := dataOk_drainTile h
  have hd2 : DataOk n o d2 := dataOk_setTile hd1
  exact dataOk_raisePaths hd2

theorem dataOk_repoint {x : BitVec 512} (h : DataOk n o d) : DataOk n o (repoint e d x).2.1 := by
  unfold repoint
  extract_lets l q e2 old old1
  split
  · refine dataOk_fst ?_
    exact h
  · split
    · refine dataOk_fst ?_
      exact h
    · split
      · split
        · split
          · refine dataOk_fst ?_
            exact h
          · refine dataOk_fst ?_
            exact h
        · refine dataOk_fst ?_
          exact h
      · split
        · split
          · refine dataOk_fst ?_
            exact h
          · split
            · next hx3 =>
                refine dataOk_fst ?_
                exact dataOk_of_snd (dataOk_moveTile h) hx3
        · split
          · refine dataOk_fst ?_
            exact h
          · refine dataOk_fst ?_
            exact dataOk_followFront (dataOk_setTile h)

theorem dataOk_remeasure (h : DataOk n o d) : DataOk n o (remeasure d) := by
  refine (h.mapBricks (f := fun b => match b.2.body with
    | .barrier x => if x.measure = 3 then (b.1, { b.2 with body := .barrier { x with measure := 1 } }) else b
    | _ => b) (fun b => ?_)).keep
  split
  · split <;> rfl
  · rfl

theorem dataOk_rowfix {v : Word} (h : DataOk n o d) : DataOk n o (rowfix e d v).2 := by
  unfold rowfix
  extract_lets q a row
  exact dataOk_ite_snd (dataOk_configNotice h) h

theorem dataOk_engineError {q : Option (BitVec 6)} {off : BitVec 20} (h : DataOk n o d) : DataOk n o (engineError e d q off) := by
  unfold engineError
  extract_lets key old
  exact dataOk_report h

/-! ### Clocks, stop and time -/

theorem dataOk_clockRecs (h : DataOk n o d) : DataOk n o (clockRecs e d) :=
  dataOk_foldl (fun _ _ h2 => dataOk_trace h2) h

theorem dataOk_scalePaths {f : Nat → Nat} (h : DataOk n o d) : DataOk n o (scalePaths e d f) := by
  unfold scalePaths
  refine dataOk_foldl (fun d2 x2 h2 => ?_) h
  extract_lets b
  split
  · exact dataOk_ite (dataOk_emitNone (dataOk_setBody h2)) h2
  · exact h2

theorem dataOk_clockChange (h : DataOk n o d) : DataOk n o (clockChange e d).2 := by
  unfold clockChange
  extract_lets c d1
  have hd1 : DataOk n o d1 := dataOk_clockRecs (dataOk_scalePaths h)
  exact dataOk_ite_snd h hd1

theorem dataOk_refEdge {cycles : Nat} {p : Pins} (h : DataOk n o d) : DataOk n o (refEdge e d cycles p).2 := by
  unfold refEdge
  extract_lets old e1 prior d1 prior1 e2 d2 e3
  have hd1 : DataOk n o d1 := h.keep
  have hd2 : DataOk n o d2 := dataOk_ite (dataOk_configNotice hd1) hd1
  exact dataOk_ite_snd hd1 hd2

theorem dataOk_gtStep (h : DataOk n o d) : DataOk n o (gtStep e d).2 := by
  unfold gtStep
  split
  · exact h
  · extract_lets old e1 d1 rest old1
    have hd1 : DataOk n o d1 := dataOk_bumpK h
    exact dataOk_ite_snd h (dataOk_ite_snd hd1 hd1)

theorem dataOk_startTime (h : DataOk n o d) : DataOk n o (startTime e d) :=
  dataOk_ite h h.keep

theorem dataOk_offsetResult (h : DataOk n o d) : DataOk n o (offsetResult e d).2 := by
  unfold offsetResult
  extract_lets m m1 old
  split
  · exact h
  · split
    · exact dataOk_configNotice h.keep
    · extract_lets e1
      exact h.keep

theorem dataOk_sleepTile {t : Nat} (h : DataOk n o d) : DataOk n o (sleepTile e d t).2 := by
  unfold sleepTile
  extract_lets q p x old d1
  have hd1 : DataOk n o d1 := dataOk_trace h
  exact dataOk_ite_snd h (dataOk_bumpT (dataOk_loadWake hd1))

theorem dataOk_wakeTile {t : Nat} {byHod : Bool} (h : DataOk n o d) : DataOk n o (wakeTile e d t byHod).2 := by
  unfold wakeTile
  extract_lets q p e1 d1 old
  have hd1 : DataOk n o d1 := dataOk_trace h
  exact dataOk_ite_snd h (dataOk_setTile hd1)

theorem dataOk_comparator {t : Nat} (h : DataOk n o d) : DataOk n o (comparator e d t).2 := by
  unfold comparator
  split
  · exact dataOk_ite_snd (dataOk_wakeTile h) h
  · exact h

theorem dataOk_sendHolds (h : DataOk n o d) : DataOk n o (sendHolds e d) :=
  dataOk_foldl (fun _ _ h2 => dataOk_wireOut h2) h

theorem dataOk_doStop {pin : Bool} (h : DataOk n o d) : DataOk n o (doStop e d pin).2 := by
  unfold doStop
  split
  · exact h
  · extract_lets g d1 d2 old d3 d4 old1
    have hd1 : DataOk n o d1 := dataOk_ite (dataOk_fireTrigger h) h
    have hd2 : DataOk n o d2 := dataOk_sendHolds hd1
    have hd3 : DataOk n o d3 := dataOk_foldl (fun _ _ h2 => dataOk_trace h2) hd2
    have hd4 : DataOk n o d4 := dataOk_bumpK hd3
    exact hd4

theorem dataOk_advanceTimers {by_ : Dword} (h : DataOk n o d) : DataOk n o (advanceTimers d by_) := by
  unfold advanceTimers
  extract_lets f
  have hbricks : DataOk n o { d with bricks := d.bricks.map (fun b => (b.1, f b.2)) } := h.mapBricks (fun _ => rfl)
  exact hbricks.keep

theorem dataOk_advanceLinks {e2 : Env} {by_ : Dword} (h : DataOk n o d) : DataOk n o (advanceLinks e e2 d by_) :=
  h.keep

theorem dataOk_leaveHeld (h : DataOk n o d) : DataOk n o (leaveHeld e d) :=
  dataOk_releaseHeld h.keep

theorem dataOk_goKept (h : DataOk n o d) : DataOk n o (goKept e d) := by
  unfold goKept
  extract_lets d1 d2
  have hd1 : DataOk n o d1 := dataOk_foldl (fun _ _ h2 => dataOk_sealsKept h2) h
  have hd2 : DataOk n o d2 := dataOk_endKept (dataOk_foldl (fun _ _ h2 => dataOk_fillKept h2) hd1)
  exact dataOk_foldl (fun _ _ h2 => dataOk_palGo h2) hd2

theorem dataOk_goNow (h : DataOk n o d) : DataOk n o (goNow e d).2 := by
  unfold goNow
  extract_lets g by_ up down e0 oldClk oldStop e1 d3 d4 blank d5 d6 d7 l d8 d9 d10
  clear_value e1
  refine dataOk_snd ?_
  have hd4 : DataOk n o d4 := dataOk_leaveHeld (dataOk_advanceLinks (dataOk_advanceTimers h))
  have hd6 : DataOk n o d6 := dataOk_foldl (fun _ _ h => dataOk_deliverHeld h) (dataOk_foldl (fun _ _ h => dataOk_trace h) hd4)
  have hd7 : DataOk n o d7 := dataOk_foldl (fun _ _ h => dataOk_d2dResume h) hd6
  have hd8 : DataOk n o d8 := dataOk_foldl (fun _ _ h => dataOk_takeFrame h) hd7.keep
  exact dataOk_foldl (fun _ _ h => dataOk_pump h) (dataOk_goKept hd8)

theorem dataOk_doGo {at_ : Bool} (h : DataOk n o d) : DataOk n o (doGo e d at_).2 :=
  dataOk_ite_snd h (dataOk_ite_snd (dataOk_configNotice h) (dataOk_ite_snd h (dataOk_goNow h)))

theorem dataOk_writeStop {v : Word} (h : DataOk n o d) : DataOk n o (writeStop e d v).2 := by
  unfold writeStop
  extract_lets old e1
  split
  · next hx =>
      exact dataOk_ite_snd (dataOk_doGo (dataOk_of_snd (dataOk_ite_snd (dataOk_doStop h) h) hx))
        (dataOk_of_snd (dataOk_ite_snd (dataOk_doStop h) h) hx)

theorem dataOk_pinStop (h : DataOk n o d) : DataOk n o (pinStop e d).2 :=
  dataOk_ite_snd h (dataOk_doStop h)

theorem dataOk_goReached (h : DataOk n o d) : DataOk n o (goReached e d).2 :=
  dataOk_ite_snd (dataOk_goNow h) h

/-! ### Quiet commits -/

theorem dataOk_commitRing {r : RingId} (h : DataOk n o d) : DataOk n o (commitRing d r) :=
  dataOk_setRing h

theorem dataOk_commitCmpl {owner : Owner} (h : DataOk n o d) : DataOk n o (commitCmpl d owner) :=
  dataOk_setCmpl h

theorem dataOk_commitIncRing {p : BitVec 4} (h : DataOk n o d) : DataOk n o (commitIncRing d p) :=
  dataOk_setIncRing h

theorem dataOk_commitTring {owner : Owner} (h : DataOk n o d) : DataOk n o (commitTring d owner) :=
  dataOk_setTring h

theorem dataOk_commitBacking (h : DataOk n o d) : DataOk n o (commitBacking e d).2 := by
  unfold commitBacking
  extract_lets k lo hi l w m d3 d4
  have hd3 : DataOk n o d3 := dataOk_ite h (dataOk_configNotice h)
  exact dataOk_ite_snd h (dataOk_ite hd3 hd3.noBricks)

theorem dataOk_commitAgent {j s : Nat} (h : DataOk n o d) : DataOk n o (commitAgent d j s) := by
  unfold commitAgent
  extract_lets a old
  split
  · exact h
  · exact dataOk_ite h (dataOk_setAg (dataOk_ite (dataOk_markDeparting h) h))

theorem dataOk_commitMode {t : Nat} (h : DataOk n o d) : DataOk n o (commitMode e d t) := by
  unfold commitMode
  extract_lets m x old old1
  split
  · exact h
  · exact dataOk_ite h (dataOk_setTile h.keep)

theorem dataOk_commitSetup (h : DataOk n o d) : DataOk n o (commitSetup e d).2 := by
  unfold commitSetup
  split
  · exact h
  · extract_lets l c e2 old e21 d1 rested
    have hd1 : DataOk n o d1 := dataOk_ite (dataOk_resumeLinks h) h
    exact dataOk_ite (dataOk_foldl (fun _ _ h2 => dataOk_silentTimer h2) hd1) (dataOk_ite hd1.keep hd1)

theorem dataOk_commitInc (h : DataOk n o d) : DataOk n o (commitInc e d).2 := by
  unfold commitInc
  split
  · exact h
  · exact dataOk_ite_snd h h.keep

theorem dataOk_quietCommit {x : QuietField} (h : DataOk n o d) : DataOk n o (quietCommit e d x).2 := by
  unfold quietCommit
  split
  · exact dataOk_ite_snd h h
  · exact dataOk_commitBacking h
  · exact dataOk_ite_snd h h
  · exact dataOk_commitInc h
  · exact dataOk_commitAgent h
  · exact dataOk_commitRing h
  · exact dataOk_commitCmpl h
  · exact dataOk_commitIncRing h
  · exact dataOk_commitTring h
  · exact dataOk_commitMode h
  · exact dataOk_commitSetup h
  · exact dataOk_ite_snd h h

/-! ### Resets -/

theorem dataOk_writeEnable {on : Bool} (h : DataOk n o d) : DataOk n o (writeEnable e d on).2 :=
  dataOk_ite_snd h (dataOk_ite_snd (dataOk_configNotice h) h)

theorem dataOk_tilesReady (h : DataOk n o d) : DataOk n o (tilesReady e d).2 := by
  unfold tilesReady
  split
  · exact h
  · extract_lets g old
    exact dataOk_foldl (fun _ _ h2 => dataOk_setTile h2) h

theorem dataOk_abandonSave (h : DataOk n o d) : DataOk n o (abandonSave e d) := by
  unfold abandonSave
  extract_lets g d1
  have hd1 : DataOk n o d1 := dataOk_setRing h
  split
  · exact dataOk_ite (dataOk_afterDesc (dataOk_completeWith hd1.keep)) h
  · exact h

theorem dataOk_warmJoint {j : Nat} (h : DataOk n o d) : DataOk n o (warmJoint e j d) := by
  unfold warmJoint
  extract_lets d3 d4 y
  have hd4 : DataOk n o d4 := dataOk_foldl (fun _ _ h => dataOk_deliver h) (dataOk_answerMany h)
  exact dataOk_setJoint hd4 (jointOk_init.subset (List.Subset.refl _))

theorem dataOk_freeAll (h : DataOk n o d) : DataOk n o (freeAll e d) := by
  unfold freeAll
  extract_lets l d3
  have hbricks : DataOk n o { d with bricks := d.bricks.map (fun (b : Nat × Brick) =>
      (b.1, if b.2.valid then { b.2 with valid := false, lost := none, body := bodyInit b.2.typ } else b.2)) } := h.mapBricks (fun _ => rfl)
  have hd3 : DataOk n o d3 := hbricks.keep
  exact dataOk_foldl (fun _ _ h => dataOk_memWrite h) hd3

theorem dataOk_emptyLinks (h : DataOk n o d) : DataOk n o (emptyLinks e d) := by
  unfold emptyLinks
  extract_lets d1 old
  have hd1 : DataOk n o d1 := dataOk_foldl (fun _ _ h2 => dataOk_ite h2 (dataOk_stillBusy h2)) h
  exact hd1.keep

theorem dataOk_restartLinks (h : DataOk n o d) : DataOk n o (restartLinks e d) :=
  dataOk_foldl (fun _ _ h2 => dataOk_ite (dataOk_startSync h2) h2) h

theorem dataOk_warmReset (h : DataOk n o d) : DataOk n o (warmReset e d).2 := by
  unfold warmReset
  extract_lets d3 d4 keep kept oldInc inc own oldObs oldPort d5 oldPwr e1 r
  have hd4 : DataOk n o d4 := dataOk_freeAll (dataOk_foldl (fun _ _ h => dataOk_warmJoint h) h)
  have hparts : DataOk n o { d4 with parts := d4.parts.map (fun (p : Nat × Part) => (p.1, warmPart p.2)) } :=
    hd4.mapParts (fun _ => partOk_of_unsaved (by simp [warmPart, Part.init]) rfl)
  have hd5 : DataOk n o d5 := hparts.keep
  have hr : DataOk n o r.2 := dataOk_foldl_snd (fun _ _ h => dataOk_quietCommit h) (dataOk_emptyLinks hd5)
  exact dataOk_restartLinks hr

theorem dataOk_warmTick (h : DataOk n o d) : DataOk n o (warmTick e d).2 := by
  unfold warmTick
  split
  · exact h
  · extract_lets d1
    have hd1 : DataOk n o d1 := dataOk_abandonSave h
    exact dataOk_ite_snd hd1 (dataOk_warmReset hd1)

theorem dataOk_writeCtl {v : Word} (h : DataOk n o d) : DataOk n o (writeCtl e d v).2 := by
  unfold writeCtl
  split
  · next hx => exact dataOk_ite_snd (dataOk_warmTick (dataOk_of_snd (dataOk_writeEnable h) hx)) (dataOk_of_snd (dataOk_writeEnable h) hx)

theorem dataOk_takeAny {count : Nat} (h : DataOk n o d) : DataOk n o (takeAny e d count) := by
  unfold takeAny
  split
  · exact h
  · split
    · exact dataOk_resend h
    · split
      · exact dataOk_routerHod h
      · exact dataOk_routerHod h
      · exact dataOk_tileHod h
      · exact dataOk_tileHod h
      · exact dataOk_tileHod h
      · exact dataOk_tileHod h
      · exact dataOk_tileHod h
      · exact dataOk_tileHod h
      · exact dataOk_tileHod h
      · exact dataOk_releaseAtJoint h
      · exact dataOk_watcherAtJoint h
      · exact dataOk_takeSweepHod h
      · exact dataOk_barrierSweep h
      · exact dataOk_responseHod h
      · exact dataOk_responseHod h
      · exact dataOk_responseHod h
      · exact dataOk_takeNudge h
      · exact dataOk_mirrorTake h
      · exact dataOk_mirrorAcked h
      · exact dataOk_takeBounce h
      · exact dataOk_takeReq h

theorem dataOk_wakeAll (h : DataOk n o d) : DataOk n o (wakeAll e d).2 :=
  dataOk_foldl_snd (fun _ _ h2 => dataOk_ite_snd (dataOk_wakeTile h2) h2) h

theorem dataOk_drainOther (h : DataOk n o d) : DataOk n o (drainOther e d) := by
  unfold drainOther
  extract_lets d1 d2
  have hd1 : DataOk n o d1 := by
    unfold d1
    refine dataOk_foldr (fun x2 d3 h2 => ?_) h
    split
    · exact dataOk_ite (dataOk_takeIncidentHod h2) (dataOk_ite (dataOk_backlogRow h2) (dataOk_lintelRow h2))
    · exact h2
  have hd2 : DataOk n o d2 := dataOk_foldr (fun _ _ h2 => dataOk_numberReturns h2) hd1
  exact dataOk_foldr (fun _ _ h2 => dataOk_takeReport h2.keep) hd2

theorem dataOk_drainRound (h : DataOk n o d) : DataOk n o (drainRound e d).2 := by
  unfold drainRound
  extract_lets x d3 oldClk
  refine dataOk_snd (dataOk_drainOther (dataOk_foldl (fun d q h => ?_) (dataOk_wakeAll h)))
  split
  · exact dataOk_takeAny h
  · exact h

theorem dataOk_drainNet {k : Nat} {x : Env × Dp} (h : DataOk n o x.2) : DataOk n o (drainNet k x).2 := by
  induction k generalizing x with
  | zero => exact h
  | succ k ih =>
    unfold drainNet
    extract_lets y
    have hround : DataOk n o y.2 := dataOk_drainRound h
    clear_value y
    split
    · exact hround
    · exact ih hround

theorem dataOk_drain (h : DataOk n o d) : DataOk n o (drain e d).2 := by
  unfold drain
  extract_lets oldPwr x
  have hx : DataOk n o x.2 := dataOk_drainNet (k := 125) (x := ({ e with pwr := { e.pwr with pfDrain := true } }, d)) h
  exact dataOk_snd hx

theorem dataOk_writeImage {number : Word} (h : DataOk n o d) : DataOk n o (writeImage e d number) := by
  unfold writeImage
  extract_lets base l n1 d1 d2
  have hd1 : DataOk n o d1 := dataOk_foldl (fun _ _ h2 => dataOk_memWrite h2) h
  have hd2 : DataOk n o d2 := dataOk_ite hd1 (dataOk_memWrite hd1)
  exact dataOk_memWrite hd2

theorem dataOk_powerFail (h : DataOk n o d) : DataOk n o (powerFail e d).2 := by
  unfold powerFail
  split
  · exact h
  · split
    · next hx =>
        split
        · next hx2 =>
            extract_lets old old1 e1 r d1 number
            have hd1 : DataOk n o d1 :=
              dataOk_enterReport (dataOk_of_snd (dataOk_ite_snd (dataOk_of_snd (dataOk_pinStop h) hx)
                (dataOk_drain (dataOk_of_snd (dataOk_pinStop h) hx))) hx2)
            exact dataOk_ite_snd (dataOk_writeImage hd1) hd1

theorem dataOk_agentReset {j s : Nat} {level : Bool} (h : DataOk n o d) : DataOk n o (agentReset e d j s level) := by
  unfold agentReset
  extract_lets y gone stays z d1 mine gone1 old d2
  have hd1 : DataOk n o d1 := dataOk_setJoint_same h
  have hd2 : DataOk n o d2 := hd1.keep
  exact dataOk_ite (dataOk_setJoint_same h) (dataOk_ite h (dataOk_markDeparting (dataOk_dropEntries (dataOk_bumpK hd2))))

/-! ### Registers -/

theorem dataOk_windowNotice {p : BitVec 4} {off : Nat} (h : DataOk n o d) : DataOk n o (windowNotice e d p off) :=
  dataOk_report h

theorem dataOk_ringNotice {owner : Owner} {count off : Nat} (h : DataOk n o d) : DataOk n o (ringNotice e d owner count off) :=
  dataOk_report h

theorem dataOk_registerAccess {p : BitVec 4} {off : Nat} (h : DataOk n o d) : DataOk n o (registerAccess e d p off) :=
  dataOk_report h

theorem dataOk_visit {t : Nat} (h : DataOk n o d) : DataOk n o (visit e d t).2.1 := by
  unfold visit
  split
  · next hx =>
      split
      · refine dataOk_fst ?_
        exact dataOk_of_fst (dataOk_crossing (dataOk_countPorts h)) hx
      · split
        · next hx2 =>
            refine dataOk_fst ?_
            exact dataOk_tookHod (dataOk_of_snd (dataOk_wakeTile (dataOk_of_fst (dataOk_crossing (dataOk_countPorts h)) hx)) hx2)

theorem dataOk_answered {t : Nat} (h : DataOk n o d) : DataOk n o (answered e d t).1 :=
  dataOk_crossing (dataOk_countPorts h)

theorem dataOk_lostRead (h : DataOk n o d) : DataOk n o (lostRead d).2 :=
  h.keep

theorem dataOk_sizeNotice {owner : Owner} {count off k lo hi : Nat} {v : Word}
    (h : DataOk n o d) : DataOk n o (sizeNotice e d owner count off k lo hi v) := by
  unfold sizeNotice
  extract_lets l
  exact dataOk_ite (dataOk_ringNotice h) h

theorem dataOk_writeRing {r : RingId} {off k : Nat} {v : Word} (h : DataOk n o d) : DataOk n o (writeRing e d r off k v) := by
  unfold writeRing
  extract_lets d1 x d2
  have hd1 : DataOk n o d1 := dataOk_sizeNotice h
  have hd2 : DataOk n o d2 := dataOk_setRing hd1
  exact dataOk_ite (dataOk_commitRing hd2) hd2

theorem dataOk_writeCmpl {owner : Owner} {off k : Nat} {v : Word} (h : DataOk n o d) : DataOk n o (writeCmpl e d owner off k v) := by
  unfold writeCmpl
  extract_lets d1 x d2
  have hd1 : DataOk n o d1 := dataOk_sizeNotice h
  have hd2 : DataOk n o d2 := dataOk_setCmpl hd1
  exact dataOk_ite (dataOk_commitCmpl hd2) hd2

theorem dataOk_writeIncRing {p : BitVec 4} {off k : Nat} {v : Word} (h : DataOk n o d) : DataOk n o (writeIncRing e d p off k v) := by
  unfold writeIncRing
  extract_lets d1 x d2
  have hd1 : DataOk n o d1 := dataOk_sizeNotice h
  have hd2 : DataOk n o d2 := dataOk_setIncRing hd1
  exact dataOk_ite (dataOk_commitIncRing hd2) hd2

theorem dataOk_writeTring {owner : Owner} {off k : Nat} {v : Word} (h : DataOk n o d) : DataOk n o (writeTring e d owner off k v) := by
  unfold writeTring
  extract_lets d1 x d2
  have hd1 : DataOk n o d1 := dataOk_sizeNotice h
  have hd2 : DataOk n o d2 := dataOk_setTring hd1
  exact dataOk_ite (dataOk_commitTring hd2) hd2

theorem dataOk_latchDb {owner : Owner} {v : Word} (h : DataOk n o d) : DataOk n o (latchDb d owner v) := by
  unfold latchDb
  split
  · exact dataOk_setPart_same h
  · exact h.keep

theorem dataOk_doorbell {owner : Owner} {v : Word} (h : DataOk n o d) : DataOk n o (doorbell e d owner v) := by
  unfold doorbell
  extract_lets n1 resume
  split
  · exact dataOk_ite (dataOk_ringSubmit h) (dataOk_ite (dataOk_consumed h (fun _ => dataOk_setCmpl h))
      (dataOk_ite (dataOk_consumed h (fun _ => dataOk_setIncRing h)) (dataOk_doorbellNotice h)))
  · exact dataOk_ite (dataOk_ringSubmit h) (dataOk_ite (dataOk_consumed h (fun _ => dataOk_setCmpl h)) (dataOk_doorbellNotice h))

theorem dataOk_writeKp {off : Nat} {v : Word} (h : DataOk n none d) : DataOk n none (writeKp e d off v).2 := by
  unfold writeKp
  extract_lets k w oldInc
  split
  · exact h
  · split
    · exact dataOk_snd (dataOk_writeRing h)
    · split
      · exact dataOk_snd (dataOk_writeCmpl h)
      · split
        case h_1 => exact dataOk_writeCtl h
        case h_7 => exact dataOk_snd (dataOk_ite h (dataOk_configNotice h))
        case h_11 => exact dataOk_snd (dataOk_ite (dataOk_configNotice h) h)
        case h_12 => exact dataOk_writeStop h
        case h_16 => exact dataOk_commitInc h.keep
        case h_18 => exact dataOk_snd (dataOk_keeperClose h)
        case h_22 => exact dataOk_snd (dataOk_ite (dataOk_remeasure h) h)
        case h_23 => exact dataOk_rowfix h
        case h_25 => exact dataOk_snd (dataOk_latchDb h)
        case h_26 => exact dataOk_snd (dataOk_doorbell h)
        case h_27 => exact dataOk_snd (dataOk_configNotice h)
        all_goals exact dataOk_snd h

theorem dataOk_renewMasks {p : BitVec 4} (h : DataOk n o d) : DataOk n o (renewMasks d p) :=
  h.mapJoints (fun _ => List.Subset.refl _)

theorem dataOk_writeAgPart {j : Nat} {v : Word} (h : DataOk n o d) : DataOk n o (writeAgPart d j v) :=
  dataOk_setAg h

theorem dataOk_writeAgEn {j : Nat} {v : Word} (h : DataOk n o d) : DataOk n o (writeAgEn d j v) :=
  dataOk_setAg h

theorem dataOk_writePd {off : Nat} {v : Word} (h : DataOk n none d) : DataOk n none (writePd e d off v) := by
  unfold writePd
  extract_lets p x
  exact dataOk_ite (dataOk_setPart_same h) (dataOk_ite (dataOk_setPart_same h)
    (dataOk_ite (dataOk_renewMasks (dataOk_setPart_same h)) (dataOk_ite (dataOk_ite (dataOk_requestReset h) h)
      (dataOk_ite h (dataOk_ite (dataOk_writeAgPart h) (dataOk_ite (dataOk_writeAgEn h) (dataOk_ite h (dataOk_configNotice h))))))))

theorem dataOk_writePw {p : BitVec 4} {offset : Nat} {v : Word} (h : DataOk n o d) : DataOk n o (writePw e d p offset v) := by
  unfold writePw
  extract_lets off x
  exact dataOk_ite (dataOk_windowNotice h) (dataOk_ite (dataOk_writeRing h)
    (dataOk_ite (dataOk_writeCmpl h) (dataOk_ite (dataOk_writeIncRing h)
      (dataOk_ite (dataOk_writeTring h) (dataOk_ite (dataOk_latchDb h)
        (dataOk_ite (dataOk_doorbell h) (dataOk_ite h (dataOk_ite (dataOk_writeObsctl h)
          (dataOk_ite h (dataOk_ite (dataOk_renewMasks (dataOk_setPart_same h)) (dataOk_windowNotice h)))))))))))

theorem dataOk_writeMode {t : Nat} {v : Word} (h : DataOk n o d) : DataOk n o (writeMode e d t v) := by
  unfold writeMode
  extract_lets m m1 old d1
  have hd1 : DataOk n o d1 := h.keep
  exact dataOk_ite (dataOk_configNotice hd1) hd1

theorem dataOk_writeTc {off : Nat} {v : Word} (h : DataOk n o d) : DataOk n o (writeTc e d off v) := by
  unfold writeTc
  extract_lets x d1 d2 old d3
  have hd1 : DataOk n o d1 := dataOk_foldl (fun _ _ h2 => dataOk_fillBucket h2) h
  have hd2 : DataOk n o d2 := dataOk_ite (dataOk_foldl (fun _ _ h2 => dataOk_ite h2 (dataOk_stillBusy h2)) hd1) hd1
  have hd3 : DataOk n o d3 := hd2.keep
  split
  · exact dataOk_writeTring h
  · split
    · exact dataOk_writeMode h
    · split
      · exact dataOk_writeTcCtl h
      · exact h.keep
      · exact h.keep
      · exact h.keep
      · exact h.keep
      · exact h.keep
      · exact h.keep
      · exact dataOk_ite (dataOk_configNotice hd3) hd3
      · exact h.keep
      · exact dataOk_writeMark h
      · exact dataOk_writeCsel h
      · exact h
      · exact h
      · exact h
      · exact h
      · exact dataOk_configNotice h

theorem dataOk_writeLf {off : Nat} {v : Word} (h : DataOk n o d) : DataOk n o (writeLf e d off v).2 := by
  unfold writeLf
  extract_lets l k put noticed
  have hput : ∀ l, DataOk n o (put l).2 := fun _ => h
  have hnoticed : ∀ l c, DataOk n o (noticed l c).2 := fun _ _ => dataOk_ite (dataOk_configNotice h) h
  refine dataOk_ite_snd (hput _) (dataOk_ite_snd (hput _) (dataOk_ite_snd (hput _) ?_))
  split
  case h_1 | h_4 | h_7 | h_8 | h_10 => exact hput _
  case h_2 | h_3 | h_5 | h_6 => exact hnoticed _ _
  case h_9 => exact dataOk_ite (dataOk_startTime h) h
  case h_11 | h_12 | h_13 => exact h
  case h_14 => exact dataOk_configNotice h

theorem dataOk_atTile {t off : Nat} {f : Env → Dp → Env × Dp} (h : DataOk n o d) (hf : ∀ e d, DataOk n o d → DataOk n o (f e d).2) :
    DataOk n o (atTile e d t off f).2 := by
  have hv : DataOk n o (visit e d t).2.1 := dataOk_visit h
  unfold atTile
  split
  · simp only
    split
    · exact hv
    · exact dataOk_answered (hf _ _ hv)
  · exact dataOk_configNotice h

theorem dataOk_writeReg {a : Actor} {off : Nat} {v : Word} (h : DataOk n none d) : DataOk n none (writeReg e d a off v).2 := by
  unfold writeReg
  extract_lets l
  split
  · exact dataOk_registerAccess h
  · clear_value l
    split
    · exact dataOk_writeKp h
    · exact dataOk_writePd h
    · exact dataOk_ite h (dataOk_writePw h)
    · split
      · split
        · exact dataOk_atTile h (fun _ _ h2 => h2)
        · exact dataOk_configNotice h
      · exact dataOk_configNotice h
    · exact dataOk_ite_snd (dataOk_writeTc h) (dataOk_atTile h (fun _ _ h2 => dataOk_writeTc h2))
    · exact dataOk_atTile h (fun _ _ h2 => dataOk_writeLf h2)
    · exact dataOk_configNotice h

theorem dataOk_readHere {a : Actor} {off : Nat} (h : DataOk n o d) : DataOk n o (readHere e d a off).2 := by
  unfold readHere
  split
  · exact h.keep
  · split
    · exact h
    · extract_lets d1
      have hd1 : DataOk n o d1 := by
        unfold d1
        split
        · exact dataOk_copyShadow h
        · exact h
      exact hd1

theorem dataOk_readReg {a : Actor} {off : Nat} (h : DataOk n o d) : DataOk n o (readReg e d a off).2 := by
  unfold readReg
  extract_lets l out busy
  have hout : ∀ v d, DataOk n o d → DataOk n o (out v d) := fun _ _ h => h.keep
  clear_value out
  refine dataOk_ite_snd (hout _ _ h) ?_
  split
  · exact hout _ _ (dataOk_readHere h)
  · exact hout _ _ h
  · refine dataOk_ite_snd ?_ (hout _ _ h)
    have hvisit : ∀ t, DataOk n o (visit e d t).2.1 := fun _ => dataOk_visit h
    exact dataOk_ite_snd (hout _ _ (dataOk_lostRead (hvisit _))) (dataOk_ite_snd (hout _ _ (dataOk_answered (dataOk_readHere (hvisit _))))
      (hout _ _ (dataOk_lostRead (dataOk_answered (dataOk_readHere (hvisit _))))))

theorem dataOk_access {x : RegAccess} (h : DataOk n none d) : DataOk n none (access e d x).2 := by
  unfold access
  split
  · exact dataOk_writeReg h
  · exact dataOk_readReg h

theorem dataOk_servePort {k : Nat} (h : DataOk n none d) : DataOk n none (servePort k e d).2 := by
  induction k generalizing e d with
  | zero => exact h
  | succ k ih =>
    unfold servePort
    split
    · exact h
    · exact dataOk_ite_snd h (ih (dataOk_access h.keep))

/-! ### The cycle -/

theorem dataOk_cycleTile {t : Nat} (h : DataOk n o d) : DataOk n o (cycleTile e d t) := by
  unfold cycleTile
  extract_lets x waits full d1 d2 d3
  have hd1 : DataOk n o d1 := dataOk_ite (dataOk_bumpT h) h
  have hd2 : DataOk n o d2 := dataOk_ite (dataOk_bumpT hd1) hd1
  have hd3 : DataOk n o d3 := dataOk_ite hd2 (dataOk_bumpT hd2)
  exact dataOk_ite (dataOk_bumpT hd3) hd3

theorem dataOk_cycleSeals (h : DataOk n o d) : DataOk n o (cycleSeals e d) :=
  dataOk_foldl (fun _ _ h2 => dataOk_bumpK h2) h

theorem dataOk_cycleTiles (h : DataOk n none d) : DataOk n none (cycleTiles e d) := by
  unfold cycleTiles
  extract_lets d3
  have hd3 : DataOk n none d3 := dataOk_ite (dataOk_cycleSeals (dataOk_foldl (fun _ _ h => dataOk_cycleTile h) h)) h
  exact dataOk_freezeTick (dataOk_serveTiles hd3)

end Sys2Proof.Machine
end

section
/-! Every step keeps the data path in order (DpOk). -/

namespace Sys2Proof.Machine

open Sys2Proof.Safety

set_option Elab.async false

variable {n m : Nat} {o : Option Nat} {e : Env} {d d2 : Dp}

/-! ### Every step -/

theorem dataOk_reset : DataOk 0 none Dp.reset := dpOk_iff.1 (by decide)

theorem dataOk_cycle (h : DataOk n none d) : DataOk n none (cycle e d).2 := by
  unfold cycle
  extract_lets oldClk e1 x
  have hx : DataOk n none x.2 := dataOk_ite_snd h (dataOk_warmTick (dataOk_cycleTiles h))
  exact dataOk_servePort hx

theorem dataOk_portAccess {s : State} {x : RegAccess} (h : DataOk n none s.dp) : DataOk n none (portAccess s x).dp := by
  unfold portAccess
  extract_lets y z
  have hy : DataOk n none y.2 := dataOk_servePort h
  split
  · exact hy.keep
  · exact dataOk_access hy

/-- R519. A keeper's descriptor that gives a status: what it does, and its completion. -/
theorem dataOk_keeperDesc {s : State} {r : RingId} {op : Nat} {f : Env → Dp → BitVec 512 → Env × Dp × Status × Option IncKey} (h : DataOk n o s.dp)
    (hf : ∀ x, DataOk n o (f s.env s.dp x).2.1) : DataOk n o (keeperDesc s r op f).dp := by
  unfold keeperDesc
  split
  · exact dataOk_afterDesc (dataOk_runDesc h (fun _ _ => h))
  · next x _ =>
    split
    next e2 d2 st key hfx =>
    have hd2 : DataOk n o d2 := by simpa [hfx] using hf x
    refine dataOk_afterDesc ?_
    split
    · exact dataOk_completeNumbered hd2
    · exact dataOk_completeWith hd2

/-- A state as the outcome of a command that changes nothing, or lets it be. -/
theorem dataOk_choice {c : Prop} [Decidable c] {s t : State} (hs : DataOk n o s.dp) (ht : DataOk n o t.dp) : DataOk n o (if c then s else t).dp := by
  split
  · exact hs
  · exact ht

/-- The outcome is no next state whose data path breaks DpOk. -/
def DataKept : Host.Outcome State Fault Refusal → Prop
  | .next t => DataOk 0 none t.dp
  | .fault _ | .refused _ => True

theorem dataKept_ite {c : Prop} [Decidable c] {x y : Host.Outcome State Fault Refusal} (hx : DataKept x) (hy : DataKept y) : DataKept (if c then x else y) := by
  split
  · exact hx
  · exact hy

/-- Every command keeps what the data path keeps to: each changes it by the operations above only. -/
theorem dataKept_exec {s : State} (h : DataOk 0 none s.dp) (i : Instr) : DataKept (exec i s) := by
  cases i with
  | arrive | arriveWait | wait | test | semTake | semTry | semGive | lockAcq | lockTry | lockRel | tokPut | tokGet | tokTryget | evtSet | evtWait
  | evtClear | query => exact dataOk_agentRequest h
  | sealAck => exact dataOk_sealAcked h
  | arrivalHod | forwardedWait | unwatch | shrinkHod | departureReport | palletSweep | forwardedPut => exact dataOk_tileHod h
  | branchCombine => exact dataOk_routerHod h
  | releaseCopy => exact dataOk_releaseAtJoint h
  | watcherCopy => exact dataOk_watcherAtJoint h
  | barrierDeadlineExpiry => exact dataOk_barrierExpiry h
  | sweepHod => exact dataOk_takeSweepHod h
  | sweepAnswers => exact dataOk_barrierSweep h
  | agentDeparture => exact dataOk_agentDeparts h
  | waitDeadlineExpiry => exact dataOk_waitExpiry h
  | responseHod => exact dataOk_responseHod h
  | hintAccept => exact dataOk_hintTaken h
  | nudge => exact dataOk_takeNudge h
  | ringWriteDone | refillDone | palletRingFault => exact dataOk_stripeEvent h
  | mgmtSteal => exact dataOk_steal h
  | fetchComplete => exact dataOk_fetchDone h
  | fetchSlotFree => exact dataOk_slotFree h
  | backstoreRetry => exact dataOk_retryFetch h
  | mirrorUpdate => exact dataOk_mirrorTake h
  | mirrorAck => exact dataOk_mirrorAcked h
  | bounce => exact dataOk_takeBounce h
  | pathProbe => exact dataOk_probePath h
  | brickAlloc => exact dataOk_afterDesc (dataOk_runDesc h (fun _ _ => dataOk_brickAlloc h))
  | brickFree => exact dataOk_afterDesc (dataOk_runDesc h (fun _ _ => dataOk_brickFree h))
  | barrierArm => exact dataOk_afterDesc (dataOk_runDesc h (fun _ _ => dataOk_barrierArm h))
  | bondSet => exact dataOk_afterDesc (dataOk_runDesc h (fun _ _ => dataOk_bondSet h))
  | groutCfg => exact dataOk_afterDesc (dataOk_runDesc h (fun _ _ => dataOk_groutCfg h))
  | weightLoad => exact dataOk_afterDesc (dataOk_runDesc h (fun _ _ => dataOk_weightLoad h))
  | lintelLink => exact dataOk_afterDesc (dataOk_runDesc h (fun _ _ => dataOk_lintelLink h))
  | palletCfg => exact dataOk_afterDesc (dataOk_runDesc h (fun _ _ => dataOk_palletCfg h))
  | snapshot => exact dataOk_afterDesc (dataOk_runDesc h (fun _ _ => dataOk_snapshotDesc h))
  | nop => exact dataOk_afterDesc (dataOk_runDesc h (fun _ _ => dataOk_completeWith h))
  | orderFence => exact dataOk_afterDesc (dataOk_runDesc h (fun _ _ => dataOk_orderFence h))
  | orderFencePassed => exact dataOk_fencePassed h
  | ctxSave => exact dataOk_afterDesc (dataOk_runDesc h (fun _ _ => dataOk_ctxSave h))
  | ctxRestore => exact dataOk_afterDesc (dataOk_runDesc h (fun _ _ => dataOk_ctxRestore h))
  | fetchBatch => exact dataOk_fetchBatch h
  | descriptorXlateFault => exact dataOk_descFault h
  | completionWriteFault => exact dataOk_outFault h
  | heldCompletionWrite => exact dataOk_heldWrite h
  | irqMergeExpiry => exact dataOk_mergeExpiry h
  | freeze => exact dataOk_takeFreeze h
  | drainMarker => exact dataOk_freezeTick (dataOk_takeMarker h)
  | backlogHod => exact dataOk_backlogRow h
  | arriveUp | lintelRelease | twin | departUp | poison | sweep | probe | probeAns | refuse => exact dataOk_lintelRow h
  | refuseRetryBackoff => exact dataOk_backoffEnds h
  | incidentHod => exact dataOk_takeIncidentHod h
  | data | ack | sync | hold => exact dataOk_frameRow h
  | standaloneAckTimer => exact dataOk_ackTimer h
  | retransmitExpiry => exact dataOk_retransmit h
  | holdmaxExpiry => exact dataOk_holdMaxed h
  | timeExchangeSend => exact dataOk_sendTime h
  | timeExchangeTimeout => exact dataOk_timeoutTime h
  | offsetResult => exact dataOk_offsetResult h
  | packageRecord => exact dataOk_packageRec h
  | incidentReport => exact dataOk_takeReport h
  | incidentNumberReturn => exact dataOk_numberReturns h
  | incidentHoldClose => exact dataOk_holdClose h
  | incidentTableWrite => exact dataOk_tableWrite h
  | incidentCopyWrite => exact dataOk_closeDeferred (dataOk_writeCopy h)
  | kpIncClose => exact dataOk_keeperClose h
  | meshEcc => exact dataOk_meshError h
  | jointStall => exact dataOk_stalled h
  | tileFault => exact dataOk_tileFault h
  | selfTestDone => exact dataOk_selfTestDone h
  | powerFailWarning => exact dataOk_powerFail h
  | globalStopPin => exact dataOk_pinStop h
  | goAtReached => exact dataOk_goReached h
  | throttle | tpulseInput | tpulseOutput => exact h
  | clockChange => exact dataOk_clockChange h
  | coldReset => exact dataOk_reset
  | agentReset => exact dataOk_agentReset h
  | tileSleep => exact dataOk_sleepTile h
  | tileWakeHod => exact dataOk_wakeTile h
  | wakeComparator => exact dataOk_comparator h
  | tilesReady => exact dataOk_tilesReady h
  | gtStepApply => exact dataOk_gtStep h
  | trigger => exact dataOk_trigger h
  | quietCommit => exact dataOk_quietCommit h
  | traceDrain => exact dataOk_traceDrain h
  | traceRingFault => exact dataOk_tringFault h
  | referenceEdge => exact dataOk_refEdge h
  | responseAccept => exact dataOk_beatTaken h
  | unmatchedMStag => exact dataOk_engineError (q := none) (off := 0) h
  | engineEccError => exact dataOk_engineError h
  | returnedHodResend => exact dataOk_resend h
  | hallIncidentResend => exact dataOk_hallResend h
  | dbLoWrite | doorbellSubmit | doorbellCmplHead | doorbellIncHead | resume | kpStopStop | kpStopGo | kpCtlEnable | kpCtlWarm | pdPctlReset
  | kpGtStepHi | lfTctlStart | kpRepairRemeasure | kpRowfix | tcCtlTrig | tcCtlRearm | tcCtlResume | tcCtlFlush | tcCtlClrctr | tcMarkHi | tcCsel
  | pwObsctlClear | pwObsctlResume | pairLoWrite | lfKeyWrite | registerWrite => exact dataOk_portAccess h
  | pwCtrShadowRead | pairLoRead => exact dataOk_portAccess h
  | alignedReleaseInstant j => exact dataOk_choice h (dataOk_deliverHeld (e := s.env) (j := j.toNat) (late := fun _ => false) h)
  | fenceUnit => exact dataOk_keeperDesc h (fun _ => dataOk_fenceUnit h)
  | repoint => exact dataOk_keeperDesc h (fun _ => dataOk_repoint h)
  | time _ _ die =>
    cases die with
    | none => exact dataOk_frameRow h
    | some k => exact dataOk_choice h (dataOk_packageTime h)
  | d2dErr => exact dataKept_ite h (dataKept_ite h (dataKept_ite h (dataOk_d2dCut h)))
  | d2dErrClear => exact dataKept_ite h (dataKept_ite h (dataKept_ite h (dataOk_replay h)))
  | pause => exact dataKept_ite h (dataKept_ite h (dataOk_resumeLinks h))

/-- Settles O59: an idle cycle and each command keep the bricks in index order, number no joint's entry ahead of the count, and give saved context to SAVED partitions only. -/
theorem dataPathInvariant : Obligations.DataPathInvariant := by
  unfold Obligations.DataPathInvariant
  intro s t h hstep
  have hs : DataOk 0 none s.dp := dpOk_iff.1 h
  have hkept : DataKept (step s) := by
    unfold step
    split
    · exact dataOk_cycle hs
    · next c rest _ => exact dataKept_exec (s := { s with pending := rest }) hs c
  rw [hstep] at hkept
  exact dpOk_iff.2 hkept

end Sys2Proof.Machine
end

section
/-! O4: what the joint answers to a request that a step of Table 8.4 turns away. -/

namespace Sys2Proof.Machine

open Sys2Proof.Safety

/-- A request of any operation runs at its joint (Table 8.4). -/
theorem exec_requestOf (s : State) (op : AOp) (j : BitVec 7) (r : Req) :
    exec (requestOf op j r) s = .next { s with dp := agentRequest s.env s.dp j.toNat r op } := by
  cases op <;> rfl

variable {e : Env} {d d2 : Dp} {j : Nat} {r : Req} {op : AOp}

/-! ### Counting the request leaves what Table 8.4 looks at -/

/-- R358, R401. A state in which only reports entered and keeper counters moved. -/
abbrev NotedFrame (d d2 : Dp) : Prop := ∃ l k, d2 = { d with inc := { d.inc with reports := l }, obs := { d.obs with kctr := k } }

theorem notedFrame_bumpK (kind unit ctr n : Nat) : NotedFrame d (bumpK e d kind unit ctr n) :=
  ⟨d.inc.reports, bumpK_frame e d kind unit ctr n⟩

theorem notedFrame_report {src : Source} {q : Report} (h : NotedFrame d d2) : NotedFrame d (report e d2 src q) := by
  obtain ⟨l, k, rfl⟩ := h
  exact report_frame e _ src q

section
variable (h : NotedFrame d d2)
include h

theorem NotedFrame.agentPart : agentPart d2 = agentPart d := by
  obtain ⟨l, k, rfl⟩ := h
  rfl

theorem NotedFrame.jointOf : jointOf d2 = jointOf d := by
  obtain ⟨l, k, rfl⟩ := h
  rfl

theorem NotedFrame.partOf : partOf d2 = partOf d := by
  obtain ⟨l, k, rfl⟩ := h
  rfl

theorem NotedFrame.stepForm : stepForm d2 j op r = stepForm d j op r := by
  obtain ⟨l, k, rfl⟩ := h
  rfl

theorem NotedFrame.ridOut (slot : BitVec 3) (rid : BitVec 10) : ridOut d2 j slot rid = ridOut d j slot rid := by
  obtain ⟨l, k, rfl⟩ := h
  rfl

theorem NotedFrame.freeEntry (slot : BitVec 3) : freeEntry d2 j slot = freeEntry d j slot := by
  obtain ⟨l, k, rfl⟩ := h
  rfl

theorem NotedFrame.alreadyQueued : alreadyQueued d2 j op r = alreadyQueued d j op r := by
  obtain ⟨l, k, rfl⟩ := h
  rfl

theorem NotedFrame.numberOf (src : Source) (key : IncKey) : numberOf d2 src key = numberOf d src key := by
  obtain ⟨l, k, rfl⟩ := h
  rfl

end

/-! ### What a refused request leaves -/

/-- R229. The joint took no entry, and the request reached no brick. -/
structure Unserved (j : Nat) (d d2 : Dp) : Prop where
  entries : (jointOf d2 j).entries = (jointOf d j).entries
  bricks : d2.bricks = d.bricks
  net : d2.net = d.net
  stripes : d2.stripes = d.stripes

theorem NotedFrame.unserved (h : NotedFrame d d2) : Unserved j d d2 := by
  obtain ⟨l, k, rfl⟩ := h
  exact ⟨rfl, rfl, rfl, rfl⟩

theorem Unserved.trans {d3 : Dp} (h : Unserved j d d2) (h2 : Unserved j d2 d3) : Unserved j d d3 :=
  ⟨h2.entries.trans h.entries, h2.bricks.trans h.bricks, h2.net.trans h.net, h2.stripes.trans h.stripes⟩

theorem NotedFrame.beatsOf (h : NotedFrame d d2) : beatsOf d2 j = beatsOf d j := by
  obtain ⟨l, k, rfl⟩ := h
  rfl

/-- R233. A delivery adds the response's beats, and leaves all that a refused request must. -/
theorem deliver_unserved (slot : BitVec 3) (rid : BitVec 10) (q : Resp) :
    beatsOf (deliver e d j slot rid q) j = beatsOf d j ++ beatsFor slot rid q ∧ Unserved j d (deliver e d j slot rid q)
      ∧ (deliver e d j slot rid q).inc.reports = d.inc.reports := by
  obtain ⟨l, k, p, h⟩ := deliver_frame e d j slot rid q 0
  rw [h]
  refine ⟨?_, ⟨?_, rfl, rfl, rfl⟩, rfl⟩
  · simp [beatsOf, beatsFor, said, jointOf, fgetD, Joint.fill]
  · simp [jointOf, fgetD, Joint.fill]

/-- R235. The response of a refused request whose incident's number the joint knows carries it at once. -/
theorem respondNumbered_known {key : IncKey} {n : Word} {slot : BitVec 3} {rid : BitVec 10} {q : Resp} (h : numberOf d (.joint j) key = some n) :
    respondNumbered e d key ⟨j, none, slot, rid, q⟩
      = deliver e d j slot rid { q with value := n.setWidth 64 } := by
  simp [respondNumbered, h]

/-- R235. While the joint does not know the number, the response waits for it. -/
theorem respondNumbered_unknown {key : IncKey} {a : Await} (ha : a.entry = none) (h : numberOf d (.joint a.joint) key = none) :
    respondNumbered e d key a = { d with
      inc := { d.inc with
        waits := d.inc.waits ++ [(.joint a.joint, key, d.inc.serial)], waitResp := fput d.inc.waitResp d.inc.serial a, serial := d.inc.serial + 1 } } := by
  simp [respondNumbered, h, ha]

/-! ### The steps of Table 8.4 -/

/-- R229, R246. The joint looks at the request: the slot has an agent, not held in reset, that is fenced or not departing. -/
structure Heard (e : Env) (d : Dp) (j : Nat) (r : Req) : Prop where
  accepts : accepts e = true
  agent : (agentClass e j r.slot.toNat).isSome = true
  reset : (jointOf d j).reset.getLsbD r.slot.toNat = false
  stays : agentFence e j r.slot = none → d.departing.any (fun a => a.1 == agentNo j r.slot) = false

theorem heard_of_presented (h : Presented e d j r) : Heard e d j r := by
  obtain ⟨haccepts, hagent, hreset, _, hstays⟩ := h
  exact ⟨haccepts, hagent, hreset, fun _ => hstays⟩

/-- The state that the steps of Table 8.4 answer from: the request is counted. -/
abbrev counted (e : Env) (d : Dp) (j : Nat) : Dp := bumpK e d 2 j 0 1

theorem notedFrame_counted : NotedFrame d (counted e d j) := notedFrame_bumpK 2 j 0 1

theorem Heard.looks (h : Heard e d j r) :
    (!Machine.accepts e || (agentClass e j r.slot.toNat).isNone || (jointOf d j).reset.getLsbD r.slot.toNat) = false := by
  have hclass : (agentClass e j r.slot.toNat).isNone = false := by simpa using h.agent
  rw [h.accepts, hclass, h.reset]
  rfl

theorem Heard.remains (h : Heard e d j r) : ((agentFence e j r.slot).isNone && d.departing.any (fun a => a.1 == agentNo j r.slot)) = false := by
  rw [Bool.and_eq_false_imp]
  exact fun hfence => h.stays (Option.isNone_iff_eq_none.1 hfence)

/-- Step 5 of Table 8.4 looks at a partition that runs. -/
theorem runs_of_run {p : BitVec 4} (hfrozen : (jointOf d j).frozen.contains p.toNat = false) (hrun : (partOf d p).st = .run) :
    ((jointOf d j).frozen.contains p.toNat || decide ((partOf d p).st = .saved) || decide ((partOf d p).st = .restoring)) = false := by
  rw [hfrozen, hrun]
  rfl

/-- Step 1 of Table 8.4. -/
theorem agentRequest_long (h : Heard e d j r) (hl : 4 < r.beats.length) :
    agentRequest e d j r op = deliver e (counted e d j) j r.slot r.rid (Resp.plain .badCount) := by
  simp only [agentRequest, h.looks, h.remains, hl, if_true, Bool.false_eq_true, if_false]

section
variable (h : Heard e d j r) (hl : r.beats.length ≤ 4)
include h hl

/-- Step 2 of Table 8.4: a fenced agent. -/
theorem agentRequest_fenced {key : IncKey} (hfence : agentFence e j r.slot = some key) :
    agentRequest e d j r op = respondNumbered e (counted e d j) key { joint := j, entry := none, slot := r.slot, rid := r.rid, resp := Resp.plain .fenced } := by
  simp only [agentRequest, h.looks, Nat.not_lt.2 hl, hfence, Option.isNone_some, Bool.false_and, Bool.false_eq_true, if_false]

variable (hfence : agentFence e j r.slot = none)
include hfence

/-- Step 3 of Table 8.4: an agent of no partition. -/
theorem agentRequest_unowned (hpart : agentPart d j r.slot.toNat = none) :
    agentRequest e d j r op = if handleHere e r.handle then refuseAccess e (counted e d j) j none r 0
      else deliver e (counted e d j) j r.slot r.rid (Resp.plain .badHandle) := by
  simp only [agentRequest, h.looks, Nat.not_lt.2 hl, hfence, h.stays hfence, Bool.and_false, notedFrame_counted.agentPart, hpart, Bool.false_eq_true, if_false]

variable {p : BitVec 4} (hpart : agentPart d j r.slot.toNat = some p)
include hpart

/-- Step 3 of Table 8.4: a handle of another partition. -/
theorem agentRequest_access (hfront : handleFront e (some p) (reqTypes r op) r.handle = some .access) :
    agentRequest e d j r op = refuseAccess e (counted e d j) j none r 0 := by
  simp only [agentRequest, h.looks, Nat.not_lt.2 hl, hfence, h.stays hfence, Bool.and_false, notedFrame_counted.agentPart, hpart, hfront, Bool.false_eq_true, if_false]

/-- Step 3 of Table 8.4: any other handle that does not name a brick of the operation. -/
theorem agentRequest_front {st : Status} (hfront : handleFront e (some p) (reqTypes r op) r.handle = some st) (hst : st ≠ .access) :
    agentRequest e d j r op = deliver e (counted e d j) j r.slot r.rid (Resp.plain st) := by
  simp only [agentRequest, h.looks, Nat.not_lt.2 hl, hfence, h.stays hfence, Bool.and_false, notedFrame_counted.agentPart, hpart, hfront, Bool.false_eq_true, if_false]

variable (hfront : handleFront e (some p) (reqTypes r op) r.handle = none)
include hfront

/-- Step 4 of Table 8.4. -/
theorem agentRequest_form {st : Status} (hform : stepForm d j op r = some st) :
    agentRequest e d j r op = deliver e (counted e d j) j r.slot r.rid (Resp.plain st) := by
  simp only [agentRequest, h.looks, Nat.not_lt.2 hl, hfence, h.stays hfence, Bool.and_false, notedFrame_counted.agentPart, hpart, hfront, notedFrame_counted.stepForm,
    hform, Bool.false_eq_true, if_false]

variable (hform : stepForm d j op r = none)
include hform

/-- Step 5 of Table 8.4: the partition does not run. -/
theorem agentRequest_suspended (hp : (jointOf d j).frozen.contains p.toNat = true ∨ (partOf d p).st = .saved ∨ (partOf d p).st = .restoring) :
    agentRequest e d j r op = deliver e (counted e d j) j r.slot r.rid (Resp.plain .suspended) := by
  have hstops : ((jointOf d j).frozen.contains p.toNat || decide ((partOf d p).st = .saved) || decide ((partOf d p).st = .restoring)) = true := by
    simpa [or_assoc] using hp
  simp only [agentRequest, h.looks, Nat.not_lt.2 hl, hfence, h.stays hfence, Bool.and_false, notedFrame_counted.agentPart, hpart, hfront,
    notedFrame_counted.stepForm, hform, notedFrame_counted.jointOf, notedFrame_counted.partOf, hstops, Bool.false_eq_true, if_false, if_true]

variable (hfrozen : (jointOf d j).frozen.contains p.toNat = false) (hrun : (partOf d p).st = .run)
include hfrozen hrun

/-- Step 5 of Table 8.4: the RID is outstanding. -/
theorem agentRequest_ridOut (hrid : ridOut d j r.slot r.rid = true) :
    agentRequest e d j r op = deliver e (counted e d j) j r.slot r.rid (Resp.plain .busy) := by
  simp only [agentRequest, h.looks, Nat.not_lt.2 hl, hfence, h.stays hfence, Bool.and_false, notedFrame_counted.agentPart, hpart, hfront,
    notedFrame_counted.stepForm, hform, notedFrame_counted.jointOf, notedFrame_counted.partOf, runs_of_run hfrozen hrun, notedFrame_counted.ridOut, hrid,
    Bool.false_eq_true, if_false, if_true]

variable (hrid : ridOut d j r.slot r.rid = false)
include hrid

/-- Step 5 of Table 8.4: no entry is free. -/
theorem agentRequest_full (hfree : freeEntry d j r.slot = none) :
    agentRequest e d j r op = deliver e (counted e d j) j r.slot r.rid (Resp.plain .retry) := by
  simp only [agentRequest, h.looks, Nat.not_lt.2 hl, hfence, h.stays hfence, Bool.and_false, notedFrame_counted.agentPart, hpart, hfront,
    notedFrame_counted.stepForm, hform, notedFrame_counted.jointOf, notedFrame_counted.partOf, runs_of_run hfrozen hrun, notedFrame_counted.ridOut, hrid,
    notedFrame_counted.freeEntry, hfree, Bool.false_eq_true, if_false]

/-- R131. An earlier acquire of the gang waits. -/
theorem agentRequest_queued (hfree : freeEntry d j r.slot ≠ none) (hqueued : alreadyQueued d j op r = true) :
    agentRequest e d j r op = deliver e (counted e d j) j r.slot r.rid (Resp.plain .busy) := by
  obtain ⟨sh, hsh⟩ := Option.ne_none_iff_exists'.1 hfree
  simp only [agentRequest, h.looks, Nat.not_lt.2 hl, hfence, h.stays hfence, Bool.and_false, notedFrame_counted.agentPart, hpart, hfront,
    notedFrame_counted.stepForm, hform, notedFrame_counted.jointOf, notedFrame_counted.partOf, runs_of_run hfrozen hrun, notedFrame_counted.ridOut, hrid,
    notedFrame_counted.freeEntry, hsh, notedFrame_counted.alreadyQueued, hqueued, Bool.false_eq_true, if_false, if_true]

end

/-! ### What the answers say -/

/-- R229. The request is answered with status st, and takes no entry and reaches no brick. -/
def Told (j : Nat) (r : Req) (st : Status) (d d2 : Dp) : Prop :=
  beatsOf d2 j = beatsOf d j ++ beatsFor r.slot r.rid (Resp.plain st) ∧ Unserved j d d2

theorem told_deliver (st : Status) : Told j r st d (deliver e (counted e d j) j r.slot r.rid (Resp.plain st)) := by
  obtain ⟨hbeats, hleft, _⟩ := deliver_unserved (e := e) (d := counted e d j) (j := j) r.slot r.rid (Resp.plain st)
  have hnoted : NotedFrame d (counted e d j) := notedFrame_counted
  exact ⟨by rw [hbeats, hnoted.beatsOf], hnoted.unserved.trans hleft⟩

/-- R235. The request is answered with status st and the number of key's incident, or waits for that number; it takes no entry and reaches no brick. -/
def Numbered (j : Nat) (r : Req) (key : IncKey) (st : Status) (d d2 : Dp) : Prop :=
  (∀ n, numberOf d (.joint j) key = some n → beatsOf d2 j = beatsOf d j ++ beatsFor r.slot r.rid { Resp.plain st with value := n.setWidth 64 })
  ∧ (numberOf d (.joint j) key = none → beatsOf d2 j = beatsOf d j ∧ (.joint j, key, d.inc.serial) ∈ d2.inc.waits
      ∧ fget d2.inc.waitResp d.inc.serial = some { joint := j, entry := none, slot := r.slot, rid := r.rid, resp := Resp.plain st })
  ∧ Unserved j d d2

/-- Whatever reports and counts went before, R235 answers alike, and keeps the reports. -/
theorem numbered_respond {d1 : Dp} (hnoted : NotedFrame d d1) (key : IncKey) (st : Status) :
    Numbered j r key st d (respondNumbered e d1 key { joint := j, entry := none, slot := r.slot, rid := r.rid, resp := Resp.plain st })
      ∧ (respondNumbered e d1 key { joint := j, entry := none, slot := r.slot, rid := r.rid, resp := Resp.plain st }).inc.reports = d1.inc.reports := by
  cases hn : numberOf d (.joint j) key with
  | some n =>
    rw [respondNumbered_known ((hnoted.numberOf _ _).trans hn)]
    obtain ⟨hbeats, hleft, hreports⟩ := deliver_unserved (e := e) (d := d1) (j := j) r.slot r.rid { Resp.plain st with value := n.setWidth 64 }
    refine ⟨⟨fun m hm => ?_, fun hnone => ?_, hnoted.unserved.trans hleft⟩, hreports⟩
    · obtain rfl : n = m := Option.some.inj (hn.symm.trans hm)
      rw [hbeats, hnoted.beatsOf]
    · simp [hn] at hnone
  | none =>
    rw [respondNumbered_unknown rfl ((hnoted.numberOf _ _).trans hn)]
    obtain ⟨l, k, rfl⟩ := hnoted
    refine ⟨⟨fun m hm => ?_, fun _ => ⟨rfl, ?_, ?_⟩, ⟨rfl, rfl, rfl, rfl⟩⟩, rfl⟩
    · simp [hn] at hm
    · simp
    · simp

/-- R235, R500. ACCESS raises its incident, and carries its number. -/
theorem numbered_refuseAccess :
    Numbered j r (mkKey e 3 (agentNo j r.slot) .access) .access d (refuseAccess e (counted e d j) j none r 0)
      ∧ ∃ q ∈ (refuseAccess e (counted e d j) j none r 0).inc.reports, q.1 = .joint j ∧ q.2.key = mkKey e 3 (agentNo j r.slot) .access := by
  unfold refuseAccess
  extract_lets agent p rep d1
  have hnoted : NotedFrame d d1 := notedFrame_report notedFrame_counted
  obtain ⟨hnumbered, hreports⟩ := numbered_respond (e := e) (j := j) (r := r) hnoted rep.key .access
  refine ⟨hnumbered, ?_⟩
  obtain ⟨q, hq, hsrc, hkey⟩ := report_buffered e (counted e d j) (.joint j) rep (show IncClass.error ≠ .notice by decide)
  exact ⟨q, hreports ▸ hq, hsrc, hkey⟩

/-- Settles O4: each step of Table 8.4 by the equation of the request that fails there, whose answer is a delivery, or a wait for the incident's number. -/
theorem requestRefused : Obligations.RequestRefused := by
  unfold Obligations.RequestRefused
  intro s op j r tells numbers
  have hexec := exec_requestOf s op j r
  have htells : ∀ st, agentRequest s.env s.dp j.toNat r op = deliver s.env (counted s.env s.dp j.toNat) j.toNat r.slot r.rid (Resp.plain st) → tells st := by
    intro st hst
    obtain ⟨hbeats, hleft⟩ : Told j.toNat r st s.dp (agentRequest s.env s.dp j.toNat r op) := hst ▸ told_deliver st
    exact ⟨_, hexec, hbeats, hleft.entries, hleft.bricks, hleft.net, hleft.stripes, rfl⟩
  have hnumbers : ∀ key st, Numbered j.toNat r key st s.dp (agentRequest s.env s.dp j.toNat r op) →
      (st = .access → ∃ q ∈ (agentRequest s.env s.dp j.toNat r op).inc.reports, q.1 = .joint j.toNat ∧ q.2.key = key) → numbers key st := by
    intro key st ⟨hknown, hunknown, hleft⟩ hraised
    exact ⟨_, hexec, hknown, hunknown, hraised, hleft.entries, hleft.bricks, hleft.net, hleft.stripes, rfl⟩
  have haccess : agentRequest s.env s.dp j.toNat r op = refuseAccess s.env (counted s.env s.dp j.toNat) j.toNat none r 0 →
      numbers (mkKey s.env 3 (agentNo j.toNat r.slot) .access) .access := by
    intro hst
    obtain ⟨hnumbered, hraised⟩ := numbered_refuseAccess (e := s.env) (d := s.dp) (j := j.toNat) (r := r)
    exact hnumbers _ _ (hst ▸ hnumbered) (fun _ => hst ▸ hraised)
  refine ⟨fun key haccepts hagent hreset hfence => ?_, fun hpresented hl hpart => ?_, fun p hpresented hpart hl hfront => ?_, fun p st hpresented hpart hcase => ?_⟩
  · have hheard : Heard s.env s.dp j.toNat r := ⟨haccepts, hagent, hreset, fun hnone => by simp [hnone] at hfence⟩
    refine ⟨fun hl => htells _ (agentRequest_long hheard hl), fun hl => ?_⟩
    have hst := agentRequest_fenced (op := op) hheard hl hfence
    exact hnumbers _ _ (hst ▸ (numbered_respond notedFrame_counted key .fenced).1) nofun
  · have hheard := heard_of_presented hpresented
    obtain ⟨-, -, -, hfence, -⟩ := hpresented
    have hst := agentRequest_unowned (op := op) hheard hl hfence hpart
    exact ⟨fun hhere => htells _ (by rw [hst, hhere]; rfl), fun hhere => haccess (by rw [hst, hhere]; rfl)⟩
  · have hheard := heard_of_presented hpresented
    obtain ⟨-, -, -, hfence, -⟩ := hpresented
    exact haccess (agentRequest_access hheard hl hfence hpart hfront)
  · have hheard := heard_of_presented hpresented
    obtain ⟨-, -, -, hfence, -⟩ := hpresented
    refine htells st ?_
    rcases hcase with ⟨hl, rfl⟩ | ⟨hl, hfront, hst⟩ | ⟨hl, hfront, hform⟩ | ⟨⟨hl, -, hfront, hform⟩, rfl, hstops⟩ |
      ⟨⟨hl, -, hfront, hform⟩, hfrozen, hrun, hrid, rfl⟩ | ⟨⟨hl, -, hfront, hform⟩, hfrozen, hrun, hrid, ⟨hfree, rfl⟩ | ⟨hfree, hqueued, rfl⟩⟩
    · exact agentRequest_long hheard hl
    · exact agentRequest_front hheard hl hfence hpart hfront hst
    · exact agentRequest_form hheard hl hfence hpart hfront hform
    · exact agentRequest_suspended hheard hl hfence hpart hfront hform hstops
    · exact agentRequest_ridOut hheard hl hfence hpart hfront hform hfrozen hrun hrid
    · exact agentRequest_full hheard hl hfence hpart hfront hform hfrozen hrun hrid hfree
    · exact agentRequest_queued hheard hl hfence hpart hfront hform hfrozen hrun hrid hfree hqueued

end Sys2Proof.Machine
end

section
/-! Refutation of Obligations.AllocFreeSnapshot. A sparse table is a list of pairs, and a read finds the first pair of a key. `promised` (R67) looks at every pair of the tile table, so a second pair of a key, which no read finds, makes BRICK_ALLOC wait for a slot, however few slots every tile uses. The clause about waiting and the clause about the charge and the new bricks then contradict each other. -/

namespace Sys2Proof.Machine

open Sys2Proof.Safety

set_option Elab.async false

/-! ### A tile table with a key twice -/

/-- Ready, every tile powered, and 2^15 bricks of backing store. -/
def twiceEnv : Env :=
  let e := Env.reset Integration.default
  { e with
    pwr := { e.pwr with enable := true, ready := true, ptiles := (List.range 36).map (fun k => (k, { powered := true, asleep := false, lock := 2 })) }
    kp := { e.kp with bsLog2 := 21 } }

/-- BRICK_ALLOC of one lock for partition 0, without a list, a hint, PIN or MIRRORED. -/
def twiceDesc : BitVec 512 := BitVec.ofNat 512 (0x40 + 2 * 2 ^ 128 + 2 ^ 160)

/-- The submission ring of partition 0 that the descriptor heads. -/
def twiceRing : RingId := .part 0 0

/-- A tile with 8,193 of its 8,192 slots in use. -/
def overfull : Tile :=
  { Tile.init with
    slots := List.replicate 2731 (.stripe 1 1, false)
    fetches := List.replicate 2731 { index := 0, issued := true, start := 0, heldAt := none, parked := [] }
    draining := List.replicate 2731 5 }

/-- Tile 0 is empty; behind its pair stands another with its key. -/
def twiceDp : Dp :=
  { Dp.reset with
    parts := [(0, { Part.init with qb := 100 })]
    rings := [(0, { SubRing.init with state := .running, ahead := [twiceDesc], tail := 1, read := 1 })]
    cmpl := [(0, { OutRing.init with cfg := { RingCfg.init with log2 := 4 }, state := .running })]
    tiles := [(0, Tile.init), (0, overfull)] }

def twiceState : State := { env := twiceEnv, dp := twiceDp, pending := [] }

/-- The descriptor heads its ring and passes every check, nothing follows it, and its completion has room. -/
theorem twice_ready :
    AtHead twiceEnv twiceDp twiceRing 0 twiceDesc 0x40 ∧ (ringOf twiceDp twiceRing).ahead = [twiceDesc] ∧ Room twiceDp twiceRing
      ∧ allocParams twiceEnv twiceRing twiceDesc = none ∧ dfield twiceDesc 160 13 = 1 ∧ twiceDesc.getLsbD 132 = false ∧ dfield twiceDesc 133 3 = 0 := by
  decide +kernel

/-- The partition is charged, and index 0 is picked. -/
theorem twice_charged :
    (chargeB twiceEnv twiceDp (descPart twiceRing twiceDesc) 1).isSome = true ∧ pickMany twiceEnv none 1 twiceDp.touched twiceDp.freed = some [0] := by
  decide +kernel

/-- Every tile that a read finds is empty. -/
theorem twice_used (k : Nat) : (tileOf twiceDp k).used = 0 := by
  by_cases hk : k = 0
  · subst hk
    decide
  · have hnone : fget twiceDp.tiles k = none := by simp [twiceDp, fget, Ne.symm hk]
    rw [tileOf, fgetD, hnone]
    decide

/-- What the allocation makes of the state promises, so `promised` says, a slot that is not free. -/
theorem twice_promised :
    (match allocTry twiceEnv twiceDp twiceRing twiceDesc with | .ok (d2, _) => promised twiceDp d2 | .error _ => false) = true := by
  decide +kernel

/-- Refutes O33: where a key stands twice in the tile table, the clause for slots on their way and the clause for tiles with room both speak of one BRICK_ALLOC, and HEAD goes on in one of them only. -/
theorem not_allocFreeSnapshot : ¬ Obligations.AllocFreeSnapshot := by
  unfold Obligations.AllocFreeSnapshot
  intro h
  obtain ⟨hhead, hahead, hroom, hparams, hcount, hplain, hkind⟩ := twice_ready
  have hfollowed : Followed twiceDp twiceRing twiceDesc := ⟨by rw [hahead]; rfl, by simp [hahead]⟩
  obtain ⟨-, waits, -, allocates, -⟩ := h twiceState twiceRing 0 twiceDesc hfollowed hroom
  have hsome : dfield twiceDesc 160 13 ≠ 0 := by simp [hcount]
  have hstands : ∃ u, exec (.brickAlloc twiceRing) twiceState = .next u ∧ (ringOf u.dp twiceRing).head = (ringOf twiceDp twiceRing).head := by
    have hpromised := twice_promised
    split at hpromised
    · next d2 rest htry =>
      obtain ⟨is, hs, od, mv, np⟩ := rest
      obtain ⟨u, hrun, -, -, -, hsame, -⟩ := waits d2 is hs od mv np hhead hparams hsome htry hpromised
      exact ⟨u, hrun, hsame⟩
    · exact absurd hpromised (by decide)
  have hmoves : ∃ u, exec (.brickAlloc twiceRing) twiceState = .next u ∧ (ringOf u.dp twiceRing).head = (ringOf twiceDp twiceRing).head + 1 := by
    obtain ⟨hcharge, hpick⟩ := twice_charged
    rw [← hcount] at hcharge hpick
    obtain ⟨⟨d1, od⟩, hcharge⟩ := Option.isSome_iff_exists.1 hcharge
    have hfits : ∀ k, (tileOf twiceDp k).used + dfield twiceDesc 160 13 ≤ Config.slotsPerTile := fun k => by
      rw [twice_used, hcount]
      decide
    obtain ⟨u, c, ty, hrun, -, -, ⟨-, -, -, hnext, -⟩, -⟩ := allocates d1 od [0] hhead hparams hsome hplain hcharge hkind hpick hfits
    exact ⟨u, hrun, hnext⟩
  obtain ⟨u, hrun, hsame⟩ := hstands
  obtain ⟨u2, hrun2, hnext⟩ := hmoves
  obtain rfl : u = u2 := by
    rw [hrun] at hrun2
    injection hrun2
  rw [hsame] at hnext
  exact absurd hnext (by decide +kernel)

end Sys2Proof.Machine
end

section
/-! Requests admitted at a joint (Table 8.4, R230, R237) and the answers their entries get: what each leaves of the joint's entries, beds, forwarded handles and beats. -/

namespace Sys2Proof.Machine

open Sys2Proof.Safety

variable {e : Env} {d d2 d3 : Dp} {j id : Nat} {r : Req} {op : AOp} {x y : JEntry} {q : Resp} {p : BitVec 4} {sh : Bool}

/-! ### The first element of a list that a test finds -/

theorem modFirst_of_find {α : Type} {t : α → Bool} {f : α → α} {l : List α} {a : α} (h : l.find? t = some a) (ht : t (f a) = true) :
    (modFirst t f l).find? t = some (f a) := by
  induction l with
  | nil => simp at h
  | cons b l ih =>
    cases hb : t b with
    | true =>
      obtain rfl : b = a := by simpa [hb] using h
      simp [modFirst, hb, ht]
    | false => simpa [modFirst, hb] using ih (by simpa [hb] using h)

theorem modFirst_append_of_not {α : Type} {t : α → Bool} {f : α → α} {l k : List α} (h : ∀ a ∈ l, t a = false) :
    modFirst t f (l ++ k) = l ++ modFirst t f k := by
  induction l with
  | nil => rfl
  | cons b l ih => simp [modFirst, h b (by simp), ih fun a ha => h a (by simp [ha])]

/-- Where the test does not look at what f changes, a later test of it sees the elements in their places. -/
theorem filter_modFirst {α : Type} {t u : α → Bool} {f : α → α} {l : List α} (h : ∀ a, t a = true → u a = false ∧ u (f a) = false) :
    (modFirst t f l).filter u = l.filter u := by
  induction l with
  | nil => rfl
  | cons b l ih =>
    cases hb : t b with
    | true => simp [modFirst, hb, h b hb]
    | false => simp [modFirst, hb, List.filter_cons, ih]

/-! ### Entries -/

@[simp] theorem jointOf_modEntry (f : JEntry → JEntry) :
    jointOf (modEntry d j id f) j = { jointOf d j with entries := modFirst (fun y => y.id == id) f (jointOf d j).entries } := by simp [modEntry]

theorem entryOf_modEntry {f : JEntry → JEntry} (h : entryOf d j id = some x) (hf : (f x).id = id) : entryOf (modEntry d j id f) j id = some (f x) := by
  simp only [entryOf, jointOf_modEntry]
  exact modFirst_of_find h (by simpa using hf)

theorem id_of_entryOf (h : entryOf d j id = some x) : x.id = id := by simpa using List.find?_some h

theorem mem_of_entryOf (h : entryOf d j id = some x) : x ∈ (jointOf d j).entries := List.mem_of_find?_eq_some h

/-! ### Answers -/

/-- R230, R233, R244. What answering entries of joint j leaves alone: all but the joint's entries, beats and hints, the incident table and counters. -/
structure Answering (j : Nat) (d d2 : Dp) : Prop where
  others : AnswerFrame d d2
  beds : (jointOf d2 j).beds = (jointOf d j).beds
  fwdWaits : (jointOf d2 j).fwdWaits = (jointOf d j).fwdWaits
  held : (jointOf d2 j).held = (jointOf d j).held
  frozen : (jointOf d2 j).frozen = (jointOf d j).frozen

theorem Answering.refl : Answering j d d := ⟨AnswerFrame.refl d, rfl, rfl, rfl, rfl⟩

theorem Answering.trans (h : Answering j d d2) (g : Answering j d2 d3) : Answering j d d3 :=
  ⟨h.others.trans g.others, g.beds.trans h.beds, g.fwdWaits.trans h.fwdWaits, g.held.trans h.held, g.frozen.trans h.frozen⟩

theorem Answering.foldl {β : Type} {f : Dp → β → Dp} (h : ∀ d x, Answering j d (f d x)) (l : List β) (d : Dp) : Answering j d (l.foldl f d) :=
  List.foldlRecOn l f Answering.refl (fun d2 h2 x _ => h2.trans (h d2 x))

section
variable (h : Answering j d d2)
include h

theorem Answering.bricks : d2.bricks = d.bricks := by obtain ⟨_, _, _, rfl⟩ := h.others; rfl

theorem Answering.net : d2.net = d.net := by obtain ⟨_, _, _, rfl⟩ := h.others; rfl

theorem Answering.seq : d2.seq = d.seq := by obtain ⟨_, _, _, rfl⟩ := h.others; rfl

theorem Answering.bedFor (k : Dword) : bedFor d2 j k = bedFor d j k := by simp [Machine.bedFor, h.beds]

theorem Answering.newBedFor (k : Dword) (made : Nat) : newBedFor d2 j k made = newBedFor d j k made := by simp [Machine.newBedFor, h.beds]

theorem Answering.forwarded (k : Dword) : forwarded d2 j k = forwarded d j k := by simp [Machine.forwarded, h.fwdWaits]

end

theorem answering_setJoint {z : Joint} (hbeds : z.beds = (jointOf d j).beds := by rfl) (hfwd : z.fwdWaits = (jointOf d j).fwdWaits := by rfl)
    (hheld : z.held = (jointOf d j).held := by rfl) (hfrozen : z.frozen = (jointOf d j).frozen := by rfl) : Answering j d (setJoint d j z) :=
  ⟨AnswerFrame.setJoint d j z, by simpa using hbeds, by simpa using hfwd, by simpa using hheld, by simpa using hfrozen⟩

theorem answering_modEntry (f : JEntry → JEntry) : Answering j d (modEntry d j id f) := answering_setJoint

theorem answering_count (h : CountFrame d d2) : Answering j d d2 := by
  obtain ⟨m, rfl⟩ := h
  exact ⟨⟨_, _, _, rfl⟩, rfl, rfl, rfl, rfl⟩

theorem answering_noted (h : NotedFrame d d2) : Answering j d d2 := by
  obtain ⟨l, k, rfl⟩ := h
  exact ⟨⟨_, _, _, rfl⟩, rfl, rfl, rfl, rfl⟩

theorem answering_deliver (slot : BitVec 3) (rid : BitVec 10) (n : Nat) : Answering j d (deliver e d j slot rid q n) := by
  obtain ⟨l, k, p, h⟩ := deliver_frame e d j slot rid q n
  rw [h]
  exact ⟨⟨_, _, _, rfl⟩, by simp [jointOf, fgetD, Joint.fill], by simp [jointOf, fgetD, Joint.fill], by simp [jointOf, fgetD, Joint.fill],
    by simp [jointOf, fgetD, Joint.fill]⟩

theorem deliver_entries (slot : BitVec 3) (rid : BitVec 10) (n : Nat) : (jointOf (deliver e d j slot rid q n) j).entries = (jointOf d j).entries := by
  obtain ⟨l, k, p, h⟩ := deliver_frame e d j slot rid q n
  simp [h, jointOf, fgetD, Joint.fill]

theorem said_respBeats (slot : BitVec 3) (rid : BitVec 10) (n : Nat) : said (respBeats slot rid q n) = beatsFor slot rid q := by
  simp [said, beatsFor, respBeats]

theorem deliver_beats (slot : BitVec 3) (rid : BitVec 10) (n : Nat) : beatsOf (deliver e d j slot rid q n) j = beatsOf d j ++ beatsFor slot rid q := by
  obtain ⟨l, k, p, h⟩ := deliver_frame e d j slot rid q n
  rw [← said_respBeats slot rid n, h]
  simp [beatsOf, said, jointOf, fgetD, Joint.fill]

theorem answering_pushHint (g : Hint) : Answering j d (pushHint e d j g) := by
  obtain ⟨a, b, h | h⟩ := pushHint_frame e d j g
  · exact Answering.trans answering_setJoint (answering_count h)
  · exact answering_count h

theorem pushHint_entries (g : Hint) : (jointOf (pushHint e d j g) j).entries = (jointOf d j).entries := by
  obtain ⟨a, b, ⟨m, h⟩ | ⟨m, h⟩⟩ := pushHint_frame e d j g
  · simp [h, jointOf, setJoint, fgetD]
  · simp [h, jointOf]

theorem pushHint_beats (g : Hint) : beatsOf (pushHint e d j g) j = beatsOf d j := by
  obtain ⟨a, b, ⟨m, h⟩ | ⟨m, h⟩⟩ := pushHint_frame e d j g
  · simp [h, beatsOf, jointOf, setJoint, fgetD]
  · simp [h, beatsOf, jointOf]

theorem beatsOf_setJoint {z : Joint} (hresp : z.resp = (jointOf d j).resp := by rfl) (hmore : z.respMore = (jointOf d j).respMore := by rfl) :
    beatsOf (setJoint d j z) j = beatsOf d j := by simp [beatsOf, hresp, hmore]

theorem answering_answer (id : Nat) (q : Resp) : Answering j d (answer e d j id q) := by
  unfold answer
  split
  · exact answering_count (bumpK_frame e d 2 j 4 1)
  · extract_lets z d1 n d2
    have h1 : Answering j d d1 := answering_setJoint
    have h2 : Answering j d1 d2 := by
      unfold d2
      split
      · exact answering_pushHint _
      · exact Answering.refl
    exact (h1.trans h2).trans (answering_deliver _ _ _)

/-- R230. An answered entry leaves the joint. -/
theorem answer_entries (id : Nat) (q : Resp) : (jointOf (answer e d j id q) j).entries = (jointOf d j).entries.filter (fun z => z.id != id) := by
  unfold answer
  split
  · next hnone =>
    obtain ⟨m, h⟩ := bumpK_frame e d 2 j 4 1
    rw [h]
    exact (List.filter_eq_self.2 fun z hz => by simpa using List.find?_eq_none.1 hnone z hz).symm
  · simp only [deliver_entries]
    split
    · simp [pushHint_entries]
    · simp

/-- R233. The answer to an entry is the last thing its joint says. -/
theorem answer_beats (h : entryOf d j id = some x) : beatsOf (answer e d j id q) j = beatsOf d j ++ beatsFor x.req.slot x.req.rid q := by
  unfold answer
  simp only [h, deliver_beats]
  split
  · rw [pushHint_beats, beatsOf_setJoint]
  · rw [beatsOf_setJoint]

theorem entryOf_answer_self (id : Nat) (q : Resp) : entryOf (answer e d j id q) j id = none := by
  simp [entryOf, answer_entries]

/-- R230. An answer ends no other entry, and makes none. -/
theorem entryOf_answer_none {k : Nat} (h : entryOf d j k = none) : entryOf (answer e d j id q) j k = none := by
  rw [entryOf, answer_entries, List.find?_eq_none]
  exact fun z hz => List.find?_eq_none.1 h z (List.mem_of_mem_filter hz)

/-! ### Admission -/

/-- R229. A request that passes every step of Table 8.4 is counted and takes its entry. -/
theorem agentRequest_admitted (h : Admitted e d j op r p sh) : agentRequest e d j r op = admitEntry e (counted e d j) j op r p sh := by
  obtain ⟨hpresented, ⟨hl, hpart, hfront, hform⟩, hfrozen, hsaved, hrestoring, hrid, hfree, hqueued⟩ := h
  have hheard := heard_of_presented hpresented
  obtain ⟨-, -, -, hfence, -⟩ := hpresented
  have hruns : ((jointOf d j).frozen.contains p.toNat || decide ((partOf d p).st = .saved) || decide ((partOf d p).st = .restoring)) = false := by
    rw [hfrozen, decide_eq_false hsaved, decide_eq_false hrestoring]
    rfl
  simp only [agentRequest, hheard.looks, Nat.not_lt.2 hl, hfence, hheard.stays hfence, Bool.and_false, notedFrame_counted.agentPart, hpart, hfront,
    notedFrame_counted.stepForm, hform, notedFrame_counted.jointOf, notedFrame_counted.partOf, hruns, notedFrame_counted.ridOut, hrid,
    notedFrame_counted.freeEntry, hfree, notedFrame_counted.alreadyQueued, hqueued, Bool.false_eq_true, if_false]

/-- R230. Entry x stands behind those of joint j, with the number that is next. -/
def entryTaken (d : Dp) (j : Nat) (x : JEntry) : Dp :=
  setJoint { d with seq := d.seq + 1 } j { jointOf d j with entries := (jointOf d j).entries ++ [x] }

@[simp] theorem entryTaken_net : (entryTaken d j x).net = d.net := rfl

@[simp] theorem entryTaken_bricks : (entryTaken d j x).bricks = d.bricks := rfl

@[simp] theorem jointOf_entryTaken : jointOf (entryTaken d j x) j = { jointOf d j with entries := (jointOf d j).entries ++ [x] } := by simp [entryTaken]

theorem freshId_ne (h : FreshId d j) {z : JEntry} (hz : z ∈ (jointOf d j).entries) : (z.id == d.seq) = false := by
  rw [FreshId, List.any_eq_false] at h
  simpa using h z hz

theorem entryOf_entryTaken (h : FreshId d j) (hx : x.id = d.seq) : entryOf (entryTaken d j x) j d.seq = some x := by
  rw [entryOf, jointOf_entryTaken, List.find?_append, List.find?_eq_none.2 fun z hz => by simp [freshId_ne h hz]]
  simp [hx]

/-- R230. What becomes of the entry just taken leaves those before it. -/
theorem entries_modEntry_entryTaken (h : FreshId d j) (hx : x.id = d.seq) (f : JEntry → JEntry) :
    (jointOf (modEntry (entryTaken d j x) j d.seq f) j).entries = (jointOf d j).entries ++ [f x] := by
  rw [jointOf_modEntry, jointOf_entryTaken, modFirst_append_of_not fun z hz => freshId_ne h hz]
  simp [modFirst, hx]

/-- R230. An entry answered as soon as it is taken leaves the joint as it was. -/
theorem filter_entryTaken (h : FreshId d j) (hx : x.id = d.seq) : ((jointOf (entryTaken d j x) j).entries.filter (fun z => z.id != d.seq)) = (jointOf d j).entries := by
  rw [jointOf_entryTaken, List.filter_append, List.filter_eq_self.2 fun z hz => by simp [bne, freshId_ne h hz]]
  simp [hx]

/-- R232. A request that needs no seal and stands behind none runs at once. -/
theorem admitEntry_runs (h : SlotClear d j r.slot) (hop : op.release = false) :
    admitEntry e d j op r p sh = runEntry e (entryTaken d j (newEntry d.seq op r p sh .atHome)) j (newEntry d.seq op r p sh .atHome) := by
  simp only [SlotClear] at h
  simp [admitEntry, h, hop, entryTaken, newEntry]

/-- R229, R232. The state from which an admitted request runs: it is counted, and has its entry. -/
def requestTaken (e : Env) (d : Dp) (j : Nat) (x : JEntry) : Dp := entryTaken (counted e d j) j x

theorem jointOf_counted : jointOf (counted e d j) = jointOf d := notedFrame_counted.jointOf

theorem freshId_counted (h : FreshId d j) : FreshId (counted e d j) j := by
  simpa only [FreshId, jointOf_counted, counted, bumpK_seq] using h

/-- R229, R232. The step of an admitted request that needs no seal and stands behind none. -/
theorem exec_admitted {s : State} {j : BitVec 7} (h : Admitted s.env s.dp j.toNat op r p sh) (hclear : SlotClear s.dp j.toNat r.slot) (hop : op.release = false) :
    exec (requestOf op j r) s = .next { s with
      dp := runEntry s.env (requestTaken s.env s.dp j.toNat (newEntry s.dp.seq op r p sh .atHome)) j.toNat (newEntry s.dp.seq op r p sh .atHome) } := by
  have hclear : SlotClear (counted s.env s.dp j.toNat) j.toNat r.slot := by simpa only [SlotClear, jointOf_counted] using hclear
  rw [exec_requestOf, agentRequest_admitted h, admitEntry_runs hclear hop, bumpK_seq]
  rfl

section
variable (e d j x)

theorem requestTaken_frame : ∃ js n o, requestTaken e d j x = { d with joints := js, seq := n, obs := o } := by
  obtain ⟨m, h⟩ := bumpK_frame e d 2 j 0 1
  rw [requestTaken, counted, h]
  exact ⟨_, _, _, rfl⟩

@[simp] theorem requestTaken_net : (requestTaken e d j x).net = d.net := bumpK_net e d 2 j 0 1

@[simp] theorem requestTaken_bricks : (requestTaken e d j x).bricks = d.bricks := bumpK_bricks e d 2 j 0 1

theorem jointOf_requestTaken : jointOf (requestTaken e d j x) j = { jointOf d j with entries := (jointOf d j).entries ++ [x] } := by
  rw [requestTaken, jointOf_entryTaken, jointOf_counted]

@[simp] theorem requestTaken_frozen : (jointOf (requestTaken e d j x) j).frozen = (jointOf d j).frozen := by rw [jointOf_requestTaken]

@[simp] theorem requestTaken_bedFor (h : Dword) : bedFor (requestTaken e d j x) j h = bedFor d j h := by simp [bedFor, jointOf_requestTaken]

@[simp] theorem requestTaken_forwarded (h : Dword) : forwarded (requestTaken e d j x) j h = forwarded d j h := by simp [forwarded, jointOf_requestTaken]

@[simp] theorem requestTaken_beatsOf : beatsOf (requestTaken e d j x) j = beatsOf d j := by simp [beatsOf, jointOf_requestTaken]

end

section
variable (h : FreshId d j) (hx : x.id = d.seq)
include h hx

theorem entryOf_requestTaken : entryOf (requestTaken e d j x) j x.id = some x := by
  have hx : x.id = (counted e d j).seq := hx.trans (bumpK_seq e d 2 j 0 1).symm
  rw [hx]
  exact entryOf_entryTaken (freshId_counted h) hx

/-- R230. What becomes of the entry just taken leaves those before it. -/
theorem entries_modEntry_requestTaken (f : JEntry → JEntry) :
    (jointOf (modEntry (requestTaken e d j x) j x.id f) j).entries = (jointOf d j).entries ++ [f x] := by
  have hx : x.id = (counted e d j).seq := hx.trans (bumpK_seq e d 2 j 0 1).symm
  rw [requestTaken, hx, entries_modEntry_entryTaken (freshId_counted h) hx, jointOf_counted]

/-- R230. A request answered as soon as it is taken leaves the joint's entries as they were. -/
theorem entries_answer_requestTaken (q : Resp) : (jointOf (answer e (requestTaken e d j x) j x.id q) j).entries = (jointOf d j).entries := by
  have hx : x.id = (counted e d j).seq := hx.trans (bumpK_seq e d 2 j 0 1).symm
  rw [answer_entries, requestTaken, hx, filter_entryTaken (freshId_counted h) hx, jointOf_counted]

end

/-- R231, R248. A partition that runs at the joint: its entries reach beds and bricks. -/
theorem runEntry_thawed (h : (jointOf d j).frozen.contains x.part.toNat = false) :
    runEntry e d j x =
      match x.op with
      | .arrive | .arriveWait =>
        (match bedFor d j x.req.handle with
          | some b => (match b.member x.req.slot with
            | some m => applyArrival e d j x b m
            | none => sendHome e d j x)
          | none => sendHome e d j x)
      | .wait => (match bedFor d j x.req.handle with | some b => bedWait e d j x b | none => forwardWait e d j x)
      | .test => (match bedFor d j x.req.handle with | some b => bedWait e d j x b | none => sendHome e d j x)
      | .evtWait => sendOldest e d j x
      | .tokGet => if x.req.count = 0#16 then sendHome e d j x else sendOldest e d j x
      | .semTake | .semTry | .semGive | .lockAcq | .lockTry | .lockRel | .tokPut | .tokTryget | .evtSet | .evtClear | .query => sendHome e d j x := by
  unfold runEntry
  rw [h]
  rfl

end Sys2Proof.Machine
end

section
/-! O13: WAIT at a joint, with a bed and without one. -/

namespace Sys2Proof.Machine

open Sys2Proof.Safety

variable {e : Env} {d : Dp} {j : Nat} {x : JEntry} {b : Bed}

/-- R96. -/
theorem completed_iff (course target : Word) : completed course target = true ↔ (course - target).toNat < 2 ^ 31 := by
  simp [completed]

/-- R108. A WAIT or TEST whose target is done is answered from the bed. -/
theorem bedWait_done (hadmits : admits e b.mask j x.req.slot = true) (hdone : completed b.course (reqTarget x.req) = true) :
    bedWait e d j x b = answer e d j x.id (doneResp b.course (reqTarget x.req) b.status b.gflags b.result) := by
  simp [bedWait, hadmits, hdone]

/-- R102, R108. A WAIT for a course that an armed bed has not completed pends. -/
theorem bedWait_pends (hadmits : admits e b.mask j x.req.slot = true) (hdone : completed b.course (reqTarget x.req) = false) (hpoison : b.poisoned = none)
    (harmed : b.armed = true) (hop : x.op = .wait) : bedWait e d j x b = pendFor d j x.id (reqTarget x.req) := by
  simp [bedWait, hadmits, hdone, hpoison, harmed, hop]

/-- R109. The first WAIT of a joint without a bed is forwarded to the home tile. -/
theorem forwardWait_first (h : forwarded d j x.req.handle = false) :
    forwardWait e d j x =
      send e (modEntry (addForwarded d j x.req.handle x.id) j x.id (fun y => { y with phase := .atHome, target := reqTarget x.req })) (.joint j)
        (.tile (homeOf e (hIndex x.req.handle))) .req (hPart x.req.handle) (.fwdWait (hIndex x.req.handle) j x.id (reqTarget x.req)) := by
  simp [forwardWait, h]

/-- R109. A later one stands behind it. -/
theorem forwardWait_merged (h : forwarded d j x.req.handle = true) : forwardWait e d j x = pendFor d j x.id (reqTarget x.req) := by
  simp [forwardWait, h]

theorem forwarded_addForwarded (h : Dword) (id : Nat) : forwarded (addForwarded d j h id) j h = true := by
  simp [forwarded, addForwarded]

theorem forwarded_modEntry (h : Dword) (id : Nat) (f : JEntry → JEntry) : forwarded (modEntry d j id f) j h = forwarded d j h := by
  simp [forwarded]

theorem forwarded_send (h : Dword) (a b : Port) (vc : VC) (p : BitVec 4) (c : HodBody) : forwarded (send e d a b vc p c) j h = forwarded d j h := by
  simp [forwarded, jointOf]

/-- Settles O13: the admitted WAIT runs at once; then each case is an equation of bedWait or forwardWait. -/
theorem waitAtJoint : Obligations.WaitAtJoint := by
  unfold Obligations.WaitAtJoint
  refine fun s j r p sh => ⟨completed_iff, fun hadmitted hclear hfresh => ?_⟩
  have hexec := exec_admitted hadmitted hclear rfl
  obtain ⟨-, -, hfrozen, -⟩ := hadmitted
  rw [runEntry_thawed (by rw [requestTaken_frozen]; exact hfrozen)] at hexec
  have hpends : ∀ x : JEntry, x = newEntry s.dp.seq .wait r p sh .atHome →
      (jointOf (pendFor (requestTaken s.env s.dp j.toNat x) j.toNat x.id (reqTarget r)) j.toNat).entries
        = (jointOf s.dp j.toNat).entries ++ [{ newEntry s.dp.seq .wait r p sh .pends with pended := true, target := reqTarget r }] := by
    rintro x rfl
    exact entries_modEntry_requestTaken hfresh rfl _
  generalize hx : newEntry s.dp.seq .wait r p sh .atHome = x at hexec
  obtain ⟨hid, hop, hreq⟩ : x.id = s.dp.seq ∧ x.op = .wait ∧ x.req = r := by subst hx; exact ⟨rfl, rfl, rfl⟩
  specialize hpends x hx.symm
  subst hreq
  simp only [hop, requestTaken_bedFor] at hexec
  refine ⟨fun bed hbed hadmits hdone => ?_, fun bed hbed hadmits hdone hpoison harmed => ?_, fun hbed hfwd => ?_, fun hbed hfwd => ?_⟩
  · rw [hbed] at hexec
    simp only [bedWait_done hadmits hdone] at hexec
    have hanswer := answering_answer (e := s.env) (d := requestTaken s.env s.dp j.toNat x) (j := j.toNat) x.id
      (doneResp bed.course (reqTarget x.req) bed.status bed.gflags bed.result)
    refine ⟨_, hexec, rfl, by simpa using hanswer.bricks, by simpa using hanswer.net, entries_answer_requestTaken hfresh hid _, ?_⟩
    simp only [answer_beats (entryOf_requestTaken hfresh hid), requestTaken_beatsOf]
  · rw [hbed] at hexec
    simp only [bedWait_pends hadmits hdone hpoison harmed hop] at hexec
    exact ⟨_, hexec, rfl, by simp [pendFor, modEntry], by simp [pendFor, modEntry], hpends⟩
  · rw [hbed] at hexec
    simp only [forwardWait_first ((requestTaken_forwarded ..).trans hfwd)] at hexec
    refine ⟨_, hexec, rfl, ?_, ?_, ?_⟩
    · simp [modEntry, addForwarded]
    · rw [forwarded_send, forwarded_modEntry, forwarded_addForwarded]
    · simp [posts_send, modEntry, addForwarded, hid]
  · rw [hbed] at hexec
    simp only [forwardWait_merged ((requestTaken_forwarded ..).trans hfwd)] at hexec
    exact ⟨_, hexec, rfl, by simp [pendFor, modEntry], by simp [pendFor, modEntry], hpends⟩

end Sys2Proof.Machine
end

section
/-! An agent request at its home tile (Table 2.3): what the tile notes on the way, and where a request of a joint near it runs. -/

namespace Sys2Proof.Machine

open Sys2Proof.Safety

variable {e : Env} {d d2 d3 : Dp} {j t i : Nat} {x : JEntry} {b : Brick} {v : Event}

/-! ### What a tile notes -/

/-- R401 to R414, R428. What noting an operation can change: tiles, counters and the trace. -/
abbrev NoteFrame (d d2 : Dp) : Prop := ∃ ts o, d2 = { d with tiles := ts, obs := o }

theorem NoteFrame.refl (d : Dp) : NoteFrame d d := ⟨_, _, rfl⟩

theorem NoteFrame.trans (h : NoteFrame d d2) (g : NoteFrame d2 d3) : NoteFrame d d3 := by
  obtain ⟨_, _, rfl⟩ := h
  obtain ⟨_, _, rfl⟩ := g
  exact ⟨_, _, rfl⟩

theorem NoteFrame.ite {c : Prop} [Decidable c] (h : NoteFrame d d2) (g : NoteFrame d d3) : NoteFrame d (if c then d2 else d3) := by
  split
  · exact h
  · exact g

theorem noteFrame_count (h : CountFrame d d2) : NoteFrame d d2 := by
  obtain ⟨m, rfl⟩ := h
  exact ⟨_, _, rfl⟩

theorem noteFrame_bumpT (c : Nat) : NoteFrame d (bumpT e d t c) := noteFrame_count (bumpT_frame e d t c)

theorem noteFrame_bumpP (p : BitVec 4) (c n : Nat) : NoteFrame d (bumpP e d p c n) := by
  obtain ⟨m, h⟩ := bumpP_frame e d p c n
  exact ⟨_, _, h⟩

theorem noteFrame_trace (g : Option Nat) (r : TRec) : NoteFrame d (trace e d t g r) := by
  obtain ⟨⟨ts, k, p, h⟩, -⟩ := trace_frame e d t g r
  exact ⟨_, _, h⟩

theorem noteFrame_tookHod (vc : VC) : NoteFrame d (tookHod e d t vc) := by
  obtain ⟨ts, k, h⟩ := tookHod_frame e d t vc
  exact ⟨_, _, h⟩

theorem noteFrame_touchSlot (r : SlotRef) (dirty : Bool) : NoteFrame d (touchSlot d t r dirty) := by
  obtain ⟨l, h⟩ := touchSlot_frame d t r dirty
  rw [h]
  exact ⟨_, d.obs, rfl⟩

theorem noteFrame_noteRaw (handle : Dword) (tag : Word) (agent : Nat) (gang : BitVec 6) (op : AOp) (st : Status) (course : Word) :
    NoteFrame d (noteRaw e d t b handle tag agent gang op st course) := by
  unfold noteRaw
  refine NoteFrame.trans ?_ (noteFrame_trace (some 0) _)
  refine NoteFrame.trans ((noteFrame_bumpT (e := e) (t := t) b.typ.code).trans (noteFrame_bumpT (e := e) (t := t) (48 + b.part.toNat))) ?_
  exact NoteFrame.ite ⟨_, _, rfl⟩ (NoteFrame.refl _)

theorem noteFrame_noteOp (st : Status) (course : Word) : NoteFrame d (noteOp e d t b j x st course) := noteFrame_noteRaw ..

section
variable (h : NoteFrame d d2)
include h

theorem NoteFrame.net : d2.net = d.net := by obtain ⟨_, _, rfl⟩ := h; rfl
theorem NoteFrame.bricks : d2.bricks = d.bricks := by obtain ⟨_, _, rfl⟩ := h; rfl
theorem NoteFrame.joints : d2.joints = d.joints := by obtain ⟨_, _, rfl⟩ := h; rfl
theorem NoteFrame.parts : d2.parts = d.parts := by obtain ⟨_, _, rfl⟩ := h; rfl
theorem NoteFrame.stripes : d2.stripes = d.stripes := by obtain ⟨_, _, rfl⟩ := h; rfl
theorem NoteFrame.lintels : d2.lintels = d.lintels := by obtain ⟨_, _, rfl⟩ := h; rfl
theorem NoteFrame.mirCopies : d2.mirCopies = d.mirCopies := by obtain ⟨_, _, rfl⟩ := h; rfl
theorem NoteFrame.mirUpds : d2.mirUpds = d.mirUpds := by obtain ⟨_, _, rfl⟩ := h; rfl
theorem NoteFrame.inc : d2.inc = d.inc := by obtain ⟨_, _, rfl⟩ := h; rfl
theorem NoteFrame.seq : d2.seq = d.seq := by obtain ⟨_, _, rfl⟩ := h; rfl
theorem NoteFrame.brickOf (k : Nat) : brickOf d2 k = brickOf d k := by obtain ⟨_, _, rfl⟩ := h; rfl
theorem NoteFrame.jointOf (k : Nat) : jointOf d2 k = jointOf d k := by obtain ⟨_, _, rfl⟩ := h; rfl

theorem NoteFrame.prompt (i : Nat) : Prompt e d2 i ↔ Prompt e d i := by obtain ⟨_, _, rfl⟩ := h; rfl

end

theorem tookHod_slots (vc : VC) (k : Nat) : (tileOf (tookHod e d t vc) k).slots = (tileOf d k).slots := by
  have hset : ∀ x : Tile, x.slots = (tileOf d t).slots → (tileOf (setTile d t x) k).slots = (tileOf d k).slots := by
    intro x hx
    by_cases hk : k = t
    · rw [hk, tileOf_setTile, hx]
    · rw [tileOf_setTile_ne d x hk]
  have hcount : ∀ d2 d3 : Dp, CountFrame d2 d3 → (tileOf d3 k).slots = (tileOf d2 k).slots := by
    rintro d2 d3 ⟨m, rfl⟩
    rfl
  unfold tookHod
  extract_lets y cyc d1
  have h1 : (tileOf d1 k).slots = (tileOf d k).slots := hset _ rfl
  cases vc with
  | rsp => exact (hcount _ _ (bumpT_frame e d1 t 6)).trans h1
  | req => exact (hcount _ _ (bumpT_frame e d1 t 7)).trans h1
  | mgmt => exact (hcount _ _ (bumpT_frame e d1 t 8)).trans h1
  | obs => exact h1

theorem resident_tookHod (vc : VC) (k : Nat) (r : SlotRef) : resident (tookHod e d t vc) k r = resident d k r := by
  rw [resident, tookHod_slots, resident]

/-! ### A request that its home tile takes at once -/

/-- R23, R45. A resident record serves the request of a joint that nothing keeps from its home tile. -/
theorem homeReq_near (hlow : hIndex x.req.handle < capacity e) (hres : resident d (homeOf e (hIndex x.req.handle)) (.brick (hIndex x.req.handle)) = true)
    (hnear : Near e d j x.req.handle) :
    ∃ d2, NoteFrame d d2 ∧ homeReq e d 0 j x = homeExec e d2 (homeOf e (hIndex x.req.handle)) 0 j x := by
  have hserves : unavailable e (homeOf e (hIndex x.req.handle)) = false := by
    simp only [Near, wayClear, tileServes, Bool.and_eq_true, Bool.not_eq_true'] at hnear
    exact hnear.1.1.1.1.1.1.1.1
  have hxor : stripeTile e (hIndex x.req.handle) 0 = homeOf e (hIndex x.req.handle) := by simp [stripeTile]
  refine ⟨tookHod e (countPorts e .req (HodBody.req j (hIndex x.req.handle) x).hods (HodBody.req j (hIndex x.req.handle) x).flits
    (hodPorts e (.joint j) (.tile (homeOf e (hIndex x.req.handle))) (.req j (hIndex x.req.handle) x)) d) (homeOf e (hIndex x.req.handle)) .req, ?_, ?_⟩
  · exact (noteFrame_count (countPorts_frame ..)).trans (noteFrame_tookHod _)
  · have hcount := countPorts_frame e .req (HodBody.req j (hIndex x.req.handle) x).hods (HodBody.req j (hIndex x.req.handle) x).flits
      (hodPorts e (.joint j) (.tile (homeOf e (hIndex x.req.handle))) (.req j (hIndex x.req.handle) x)) d
    rw [homeReq, hxor, reqTo]
    simp only [hserves, hnear, homeAt, Nat.xor_self, homeTake, Nat.not_le.2 hlow, mustFetch, resident_tookHod, Bool.false_eq_true, if_false, if_true]
    obtain ⟨m, hm⟩ := hcount
    rw [hm]
    have hresident : resident { d with obs := { d.obs with kctr := m } } (homeOf e (hIndex x.req.handle)) (.brick (hIndex x.req.handle)) = true := hres
    simp [hresident]

/-- Table 2.3, step 3. A handle that passes names a type of the operation. -/
theorem type_of_handleFront {p : Option (BitVec 4)} {types : List BType} {h : Dword} (hfront : handleFront e p types h = none) :
    ∃ t ∈ types, BType.ofCode (hType h).toNat = some t := by
  cases hcode : BType.ofCode (hType h).toNat with
  | none =>
    simp only [handleFront, hcode] at hfront
    split_ifs at hfront
  | some t =>
    simp only [handleFront, hcode] at hfront
    split_ifs at hfront with _ _ ht
    exact ⟨t, by simpa using ht, rfl⟩

/-- The request of an event operation names no pallet. -/
theorem type_of_event {p : BitVec 4} {r : Req} {op : AOp} (hop : op.types = [.event]) (hfront : handleFront e (some p) (reqTypes r op) r.handle = none) :
    (hType r.handle).toNat ≠ 3 := by
  intro h3
  obtain ⟨t, ht, hcode⟩ := type_of_handleFront hfront
  rw [h3] at hcode
  obtain rfl : t = .pallet := by simpa [BType.ofCode] using hcode.symm
  unfold reqTypes at ht
  split at ht
  · simp at ht
  · simp [hop] at ht

/-- R232. A request on a brick that is no pallet goes to the brick's home tile. -/
theorem sendHome_brick (h : (hType x.req.handle).toNat ≠ 3) :
    sendHome e d j x = homeReq e (modEntry d j x.id (fun y => { y with phase := .atHome })) 0 j { x with phase := .atHome } := by
  simp [sendHome, h]

/-- R45, steps 7 to 9. A request that the record admits executes as its body says. -/
theorem homeExec_event (hb : brickOf d (hIndex x.req.handle) = b) (hvalid : b.valid = true) (hgen : b.gen = hGen x.req.handle)
    (hpart : b.part = hPart x.req.handle) (htype : (hType x.req.handle).toNat = b.typeCode) (hlost : b.lost = none)
    (hallow : admits e (groupMask d b.part b.group) j x.req.slot = true) (hbody : b.body = .event v) :
    homeExec e d t 0 j x
      = eventHome e (touchSlot d t (.brick (hIndex x.req.handle)) (x.op != .test && x.op != .query)) t (hIndex x.req.handle) b v j x := by
  have hknown : (b.valid && b.gen == hGen x.req.handle && b.part == hPart x.req.handle) = true := by simp [hvalid, hgen, hpart]
  simp only [homeExec, hb, hknown, htype, hlost, hallow, hbody, ne_eq, not_true_eq_false, if_false, if_true, Bool.not_true, Bool.and_false, Bool.false_eq_true]

/-- R74, R412. An answer is noted, and leaves at once where nothing keeps the brick's hods. -/
theorem homeAnswer_prompt (hcopy : fget d.mirCopies (stripeKey i 0) = none) (hwait : numberWait d t i = none) (before : List Hod) (q : Resp) :
    ∃ d2, NoteFrame d d2 ∧ homeAnswer e d t i 0 b j x before q = sendAll e (before ++ [replyHod t j x.id b.part q]) d2 := by
  have hnote : NoteFrame d (noteOp e d t b j x q.status q.course) := noteFrame_noteOp _ _
  refine ⟨_, hnote, ?_⟩
  rw [homeAnswer, emit_plain]
  · rw [hnote.mirCopies]
    exact hcopy
  · rw [numberWait, hnote.inc]
    exact hwait

/-- R74. What a prompt answer changes: the net, by its hods, and what is noted. -/
theorem homeAnswer_outcome (hcopy : fget d.mirCopies (stripeKey i 0) = none) (hwait : numberWait d t i = none) (before : List Hod) (q : Resp) :
    (homeAnswer e d t i 0 b j x before q).bricks = d.bricks ∧ (homeAnswer e d t i 0 b j x before q).joints = d.joints
      ∧ posts (homeAnswer e d t i 0 b j x before q).net = posts d.net ++ posts (before ++ [replyHod t j x.id b.part q]) := by
  obtain ⟨d2, h, hanswer⟩ := homeAnswer_prompt (e := e) (b := b) (j := j) (x := x) hcopy hwait before q
  rw [hanswer, sendAll_bricks, sendAll_joints, posts_sendAll, h.bricks, h.joints, h.net]
  exact ⟨rfl, rfl, rfl⟩

/-- R74. Where no mirror keeps a copy, a change that no hod waits for sends nothing. -/
theorem emitNone_prompt (hcopy : fget d.mirCopies (stripeKey i 0) = none) : emitNone e d t i 0 = d := by
  simp [emitNone, emit, emitNow, hcopy, sendAll, sendFrom]

end Sys2Proof.Machine
end

section
/-! O9: EVT_CLEAR and EVT_WAIT at the event's home tile, and a second waiter at its joint. -/

namespace Sys2Proof.Machine

open Sys2Proof.Safety

variable {e : Env} {d : Dp} {j : Nat} {x : JEntry} {b : Brick} {v : Event}

/-- R45, R76. The request of a joint near the home tile of event v runs there, whatever else the joint holds. -/
theorem sendHome_event {s : Dp} (hhome : Homed e s x.req.handle b) (hnear : Near e s j x.req.handle) (hallow : Allowed e s j x.req.slot b)
    (hbody : b.body = .event v) (htype : (hType x.req.handle).toNat ≠ 3)
    (hd : ∃ js n o, d = { s with joints := js, seq := n, obs := o }) :
    ∃ d2, sendHome e d j x = eventHome e d2 (homeOf e (hIndex x.req.handle)) (hIndex x.req.handle) b v j { x with phase := .atHome }
      ∧ Prompt e d2 (hIndex x.req.handle) ∧ (∀ k, brickOf d2 k = brickOf s k) ∧ d2.net = s.net ∧ (jointOf d2 j).fwdWaits = (jointOf d j).fwdWaits := by
  obtain ⟨⟨hlow, hres, -, hb, hvalid, hgen, hpart, hcode, hlost⟩, hprompt⟩ := hhome
  obtain ⟨js, n, o, rfl⟩ := hd
  obtain ⟨d1, h1, hreq⟩ := homeReq_near (d := modEntry { s with joints := js, seq := n, obs := o } j x.id (fun y => { y with phase := .atHome }))
    (x := { x with phase := .atHome }) hlow hres hnear
  have htouched : NoteFrame d1 (touchSlot d1 (homeOf e (hIndex x.req.handle)) (.brick (hIndex x.req.handle)) (x.op != .test && x.op != .query)) :=
    noteFrame_touchSlot _ _
  have h2 := h1.trans htouched
  refine ⟨_, ?_, (h2.prompt _).2 hprompt, h2.brickOf, h2.net, ?_⟩
  · rw [sendHome_brick htype, hreq]
    refine homeExec_event (x := { x with phase := .atHome }) ((h1.brickOf _).trans hb) hvalid hgen hpart hcode hlost ?_ hbody
    obtain ⟨ts, o2, rfl⟩ := h1
    exact hallow
  · rw [h2.jointOf, jointOf_modEntry]

/-- Table 3.7. EVT_CLEAR clears SET, and is answered with SETS. -/
theorem eventHome_clear {t i : Nat} (hop : x.op = .evtClear) (hcopy : fget d.mirCopies (stripeKey i 0) = none) (hwait : numberWait d t i = none) :
    (∀ k, brickOf (eventHome e d t i b v j x) k = if k = i then { b with body := .event { v with set := false } } else brickOf d k)
      ∧ posts (eventHome e d t i b v j x).net = posts d.net ++ posts [replyHod t j x.id b.part (Resp.at .ok v.sets)] := by
  obtain ⟨hbricks, -, hposts⟩ := homeAnswer_outcome (e := e) (d := setBody d i b (.event { v with set := false })) (b := b) (j := j) (x := x)
    hcopy hwait [] (Resp.at .ok v.sets)
  simp only [eventHome, hop]
  refine ⟨fun k => ?_, hposts⟩
  rw [brickOf_congr hbricks, setBody, brickOf_setBrick]

/-- Table 3.7. EVT_WAIT of a set event is answered at once; of a clear one it pends, its joint in WAITJ. -/
theorem eventHome_wait {t i : Nat} (hop : x.op = .evtWait) (hcopy : fget d.mirCopies (stripeKey i 0) = none) (hwait : numberWait d t i = none)
    (hb : brickOf d i = b) (hbody : b.body = .event v) :
    (∀ k, brickOf (eventHome e d t i b v j x) k
        = if k = i then { b with body := .event (if v.set then v else { v with waitj := setInsert j v.waitj }) } else brickOf d k)
      ∧ posts (eventHome e d t i b v j x).net
        = posts d.net ++ (if v.set then posts [replyHod t j x.id b.part (Resp.at .ok v.sets)] else [])
      ∧ (jointOf (eventHome e d t i b v j x) j).fwdWaits = (jointOf d j).fwdWaits := by
  by_cases hset : v.set = true
  · obtain ⟨hbricks, hjoints, hposts⟩ := homeAnswer_outcome (e := e) (b := b) (j := j) (x := x) hcopy hwait [] (Resp.at .ok v.sets)
    simp only [eventHome, hop, if_pos hset]
    refine ⟨fun k => ?_, hposts, by rw [jointOf, hjoints, jointOf]⟩
    rw [brickOf_congr hbricks]
    split
    · next hk => rw [hk, hb, ← hbody]
    · rfl
  · simp only [eventHome, hop, if_neg hset]
    have hnote : NoteFrame (markPended (setBody d i b (.event { v with waitj := setInsert j v.waitj })) j x.id)
        (noteOp e (markPended (setBody d i b (.event { v with waitj := setInsert j v.waitj })) j x.id) t b j x .ok 0) := noteFrame_noteOp _ _
    rw [emitNone_prompt (by rw [hnote.mirCopies]; exact hcopy)]
    refine ⟨fun k => ?_, ?_, ?_⟩
    · rw [hnote.brickOf]
      exact brickOf_setBrick d i k _
    · rw [hnote.net, List.append_nil]
      rfl
    · rw [hnote.jointOf, markPended, jointOf_setJoint]
      rfl

/-- R127. The first EVT_WAIT of a joint goes to the home tile. -/
theorem sendOldest_first (h : forwarded d j x.req.handle = false) : sendOldest e d j x = sendHome e (addForwarded d j x.req.handle x.id) j x := by
  simp [sendOldest, h]

theorem addForwarded_frame {s : Dp} (h : Dword) (id : Nat) (hd : ∃ js n o, d = { s with joints := js, seq := n, obs := o }) :
    ∃ js n o, addForwarded d j h id = { s with joints := js, seq := n, obs := o } := by
  obtain ⟨js, n, o, rfl⟩ := hd
  exact ⟨_, _, _, rfl⟩

theorem forwarded_congr {d2 : Dp} (hfwd : (jointOf d2 j).fwdWaits = (jointOf d j).fwdWaits) (h : Dword) : forwarded d2 j h = forwarded d j h := by
  rw [forwarded, hfwd, forwarded]

/-- R127. A later one pends behind it. -/
theorem sendOldest_merged (h : forwarded d j x.req.handle = true) : sendOldest e d j x = pendFor d j x.id 0 := by
  simp [sendOldest, h]

theorem runEntry_evtClear (h : (jointOf d j).frozen.contains x.part.toNat = false) (hop : x.op = .evtClear) : runEntry e d j x = sendHome e d j x := by
  simp only [runEntry_thawed h, hop]

theorem runEntry_evtWait (h : (jointOf d j).frozen.contains x.part.toNat = false) (hop : x.op = .evtWait) : runEntry e d j x = sendOldest e d j x := by
  simp only [runEntry_thawed h, hop]

/-- Settles O9: both requests run at the event's home tile, whose answer leaves at once; a later EVT_WAIT of the joint pends there. -/
theorem eventRequestsDecide : Obligations.EventRequestsDecide := by
  unfold Obligations.EventRequestsDecide
  intro s j r p sh b v hclear hhome hallow hbody hfresh
  obtain ⟨-, -, -, hb, -⟩ := id hhome.1
  refine ⟨fun hadmitted hnear => ?_, fun hadmitted hnear hfwd => ?_, fun hadmitted hfwd => ?_⟩
  · have hexec := exec_admitted hadmitted hclear rfl
    obtain ⟨-, ⟨-, -, hfront, -⟩, hfrozen, -⟩ := hadmitted
    rw [runEntry_evtClear (by rw [requestTaken_frozen]; exact hfrozen) rfl] at hexec
    obtain ⟨d2, hsend, ⟨hcopy, hwait⟩, hbefore, hnet, -⟩ := sendHome_event (x := newEntry s.dp.seq .evtClear r p sh .atHome) hhome hnear hallow hbody
      (type_of_event rfl hfront) (requestTaken_frame ..)
    rw [hsend] at hexec
    obtain ⟨hbricks, hposts⟩ := eventHome_clear (x := newEntry s.dp.seq .evtClear r p sh .atHome) rfl hcopy hwait
    exact ⟨_, hexec, rfl, (hbricks _).trans (if_pos rfl), fun k hk => ((hbricks k).trans (if_neg hk)).trans (hbefore k), hnet ▸ hposts⟩
  · have hexec := exec_admitted hadmitted hclear rfl
    obtain ⟨-, ⟨-, -, hfront, -⟩, hfrozen, -⟩ := hadmitted
    rw [runEntry_evtWait (by rw [requestTaken_frozen]; exact hfrozen) rfl, sendOldest_first ((requestTaken_forwarded ..).trans hfwd)] at hexec
    obtain ⟨d2, hsend, ⟨hcopy, hwait⟩, hbefore, hnet, hwaits⟩ := sendHome_event (x := newEntry s.dp.seq .evtWait r p sh .atHome) hhome hnear hallow hbody
      (type_of_event rfl hfront) (addForwarded_frame _ _ (requestTaken_frame ..))
    rw [hsend] at hexec
    obtain ⟨hbricks, hposts, hfwds⟩ := eventHome_wait (x := newEntry s.dp.seq .evtWait r p sh .atHome) rfl hcopy hwait ((hbefore _).trans hb) hbody
    refine ⟨_, hexec, rfl, (hbricks _).trans (if_pos rfl), fun k hk => ((hbricks k).trans (if_neg hk)).trans (hbefore k), hnet ▸ hposts, ?_⟩
    exact (forwarded_congr (hfwds.trans hwaits) _).trans (forwarded_addForwarded _ _)
  · have hexec := exec_admitted hadmitted hclear rfl
    obtain ⟨-, -, hfrozen, -⟩ := hadmitted
    rw [runEntry_evtWait (by rw [requestTaken_frozen]; exact hfrozen) rfl, sendOldest_merged ((requestTaken_forwarded ..).trans hfwd)] at hexec
    exact ⟨_, hexec, rfl, by simp [pendFor, modEntry], by simp [pendFor, modEntry], entries_modEntry_requestTaken hfresh rfl _⟩

end Sys2Proof.Machine
end

section
/-! A joint's beds (R90, R97, R98): reading a bed that has changed, the member of a slot, and the hod of a complete bed. -/

namespace Sys2Proof.Machine

open Sys2Proof.Safety

variable {e : Env} {d d2 : Dp} {j : Nat} {x : JEntry} {b : Bed} {m m2 : BedMember} {h : Dword} {slot : BitVec 3} {f : Bed → Bed}

/-! ### Lists in which the first element that a test finds is replaced -/

theorem map_modFirst_of_find {α β : Type} {t : α → Bool} {f : α → α} {g : α → β} {l : List α} {a : α} (hfind : l.find? t = some a) (hg : g (f a) = g a) :
    (modFirst t f l).map g = l.map g := by
  induction l with
  | nil => simp at hfind
  | cons c l ih =>
    cases hc : t c with
    | true =>
      obtain rfl : c = a := by simpa [hc] using hfind
      simp [modFirst, hc, hg]
    | false => simpa [modFirst, hc] using ih (by simpa [hc] using hfind)

theorem any_modFirst_false {α : Type} {t u : α → Bool} {f : α → α} {l : List α} (hl : l.any u = false) (hf : ∀ a, u a = false → u (f a) = false) :
    (modFirst t f l).any u = false := by
  induction l with
  | nil => rfl
  | cons c l ih =>
    obtain ⟨hc, hl⟩ : u c = false ∧ l.any u = false := by simpa using hl
    cases ht : t c with
    | true => simpa [modFirst, ht, hf c hc] using hl
    | false => simpa [modFirst, ht, hc] using ih hl

/-! ### Beds -/

theorem found_of_bedFor (hbed : bedFor d j h = some b) : b.waiting = false ∧ b.handle = h := by
  simpa using List.find?_some hbed

@[simp] theorem jointOf_modBed : jointOf (modBed d j h f) j
    = { jointOf d j with beds := modFirst (fun b => !b.waiting && b.handle == h) f (jointOf d j).beds } := by simp [modBed]

@[simp] theorem modBed_net : (modBed d j h f).net = d.net := rfl

@[simp] theorem modBed_bricks : (modBed d j h f).bricks = d.bricks := rfl

theorem modBed_beatsOf : beatsOf (modBed d j h f) j = beatsOf d j := beatsOf_setJoint

theorem modBed_entryOf (id : Nat) : entryOf (modBed d j h f) j id = entryOf d j id := by simp [entryOf]

/-- The bed in force of a handle after a change that leaves it in force. -/
theorem bedFor_modBed (hbed : bedFor d j h = some b) (hf : (f b).waiting = false ∧ (f b).handle = h) : bedFor (modBed d j h f) j h = some (f b) := by
  rw [bedFor, jointOf_modBed]
  exact modFirst_of_find hbed (by simp [hf])

theorem bedFor_send (a c : Port) (vc : VC) (p : BitVec 4) (y : HodBody) : bedFor (send e d a c vc p y) j h = bedFor d j h := by
  simp [bedFor, jointOf]

theorem beatsOf_send (a c : Port) (vc : VC) (p : BitVec 4) (y : HodBody) : beatsOf (send e d a c vc p y) j = beatsOf d j := by
  simp [beatsOf, jointOf]

theorem entryOf_send (id : Nat) (a c : Port) (vc : VC) (p : BitVec 4) (y : HodBody) : entryOf (send e d a c vc p y) j id = entryOf d j id := by
  simp [entryOf, jointOf]

/-! ### Members -/

theorem slot_of_member (hm : b.member slot = some m) : m.slot = slot.toNat := by simpa using List.find?_some hm

section
variable (hm : b.member slot = some m) (hslot : m2.slot = m.slot)
include hm hslot

theorem find_setMember : b.members.find? (fun x => x.slot == m2.slot) = some m := by
  rw [hslot, slot_of_member hm]
  exact hm

theorem member_setMember : (b.setMember m2).member slot = some m2 := by
  have hfind := modFirst_of_find (f := fun _ => m2) (find_setMember hm hslot) (by simp)
  rw [Bed.member, Bed.setMember]
  simpa [hslot, slot_of_member hm] using hfind

/-- What the new member shares with the old one, the members share with the old ones. -/
theorem map_setMember {β : Type} {g : BedMember → β} (hg : g m2 = g m) : (b.setMember m2).members.map g = b.members.map g :=
  map_modFirst_of_find (find_setMember hm hslot) hg

end

/-- A change of every member that keeps the slots finds the changed member at the slot. -/
theorem member_map {g : BedMember → BedMember} (hg : ∀ k, (g k).slot = k.slot) (hm : b.member slot = some m) :
    ({ b with members := b.members.map g } : Bed).member slot = some (g m) := by
  have hfun : (fun k : BedMember => k.slot == slot.toNat) ∘ g = fun k => k.slot == slot.toNat := funext fun k => by simp [hg]
  simp only [Bed.member, List.find?_map, hfun]
  rw [show b.members.find? _ = some m from hm]
  rfl

/-! ### The hod of a complete bed (R98) -/

/-- R98. The members' counts of the open course have gone to the home tile. -/
def Bed.sent (b : Bed) : Bed := { b with members := b.members.map (fun m => { m with f := m.e }) }

/-- R98. What a joint still has to send for the open course of a bed. -/
def Bed.owed (b : Bed) : Nat := (b.members.map (fun m => m.e - m.f)).sum

/-- R98. Every member has contributed all that it contributes to the open course. -/
def Bed.full (b : Bed) : Bool := b.members.all (fun m => m.a == m.e)

section
variable (hbed : bedFor d j h = some b)
include hbed

/-- R98. Nothing goes while a member's arrival is missing, or where nothing is owed. -/
theorem sendComplete_waits (hwaits : b.full = false ∨ b.owed = 0 ∨ b.cfg.isSome = true) : sendComplete e d j h = d := by
  have hcond : (b.cfg.isSome || !b.armed || b.poisoned.isSome || decide (b.owed = 0) || !b.full) = true := by
    rcases hwaits with hw | hw | hw <;> simp [hw]
  simp only [sendComplete, hbed]
  exact if_pos hcond

/-- R98, R242. Once every member has a = e, one hod with the summed count and the latest arrival's TAG. -/
theorem sendComplete_sends (hcfg : b.cfg = none) (harmed : b.armed = true) (hpoison : b.poisoned = none) (hfull : b.full = true) (howed : b.owed ≠ 0)
    {a : Arrival} (hlast : b.last = some a) :
    sendComplete e d j h = send e (modBed d j h Bed.sent) (.joint j) b.up .req b.part (.arrival { a with course := b.course + 1, count := b.owed }) := by
  have hcond : ¬ (b.cfg.isSome || !b.armed || b.poisoned.isSome || decide (b.owed = 0) || !b.full) = true := by
    simp [hcfg, harmed, hpoison, hfull, howed]
  simp only [sendComplete, hbed]
  refine (if_neg hcond).trans ?_
  simp only [hlast, Option.getD_some]
  rfl

end

end Sys2Proof.Machine
end

section
/-! O12: a sealed arrival of a member at its bed. -/

namespace Sys2Proof.Machine

open Sys2Proof.Safety

variable {e : Env} {d d2 : Dp} {j n : Nat} {x : JEntry} {b : Bed} {m m2 : BedMember} {h : Dword} {slot : BitVec 3} {st : Status}

/-! ### SEAL_ACK (R237) -/

/-- R237. The slot's seal is acknowledged: entry x awaits it no longer. -/
def unsealed (d : Dp) (j : Nat) (slot : BitVec 3) (x : JEntry) : Dp :=
  let y := jointOf d j
  modEntry (setJoint d j { y with seals := fdel y.seals slot.toNat, stallSent := unmark y.stallSent slot.toNat }) j x.id (fun z => { z with phase := .atHome })

/-- R232. No request of the slot stands behind its seal. -/
abbrev NoneBehind (d : Dp) (j : Nat) (slot : BitVec 3) : Prop := (jointOf d j).entries.any (fun y => y.req.slot == slot && y.phase == .behind) = false

theorem releaseSlot_noneBehind (hnone : NoneBehind d j slot) (k : Nat) : releaseSlot e j slot k d = d := by
  have hfind : (jointOf d j).entries.find? (fun x => x.req.slot == slot && x.phase == .behind) = none := by
    rw [List.find?_eq_none]
    simpa only [NoneBehind, List.any_eq_false] using hnone
  cases k with
  | zero => rfl
  | succ k => simp only [releaseSlot, hfind]

theorem sealAcked_runs (hseal : Sealing e d j slot x n) :
    sealAcked e d j slot = releaseSlot e j slot (jointOf d j).entries.length (runEntry e (unsealed d j slot x) j x) := by
  obtain ⟨hn, hx, -, -, -, hstop, hfrozen⟩ := hseal
  simp only [sealAcked, hn, hx, hstop, hfrozen, Bool.false_eq_true, if_false]
  rfl

section
variable (d j slot x)

@[simp] theorem unsealed_net : (unsealed d j slot x).net = d.net := rfl

@[simp] theorem unsealed_bricks : (unsealed d j slot x).bricks = d.bricks := rfl

@[simp] theorem unsealed_beatsOf : beatsOf (unsealed d j slot x) j = beatsOf d j := by simp [beatsOf, unsealed]

@[simp] theorem unsealed_bedFor (h : Dword) : bedFor (unsealed d j slot x) j h = bedFor d j h := by simp [bedFor, unsealed]

@[simp] theorem unsealed_frozen : (jointOf (unsealed d j slot x) j).frozen = (jointOf d j).frozen := by simp [unsealed]

end

theorem entryOf_unsealed (hx : entryOf d j x.id = some x) : entryOf (unsealed d j slot x) j x.id = some { x with phase := .atHome } :=
  entryOf_modEntry (d := setJoint d j { jointOf d j with
    seals := fdel (jointOf d j).seals slot.toNat, stallSent := unmark (jointOf d j).stallSent slot.toNat }) (x := x) (by simpa [entryOf] using hx) rfl

theorem noneBehind_modEntry {id : Nat} {f : JEntry → JEntry} (hnone : NoneBehind d j slot) (hf : ∀ y, (f y).phase ≠ .behind) : NoneBehind (modEntry d j id f) j slot := by
  rw [NoneBehind, jointOf_modEntry]
  exact any_modFirst_false hnone fun y _ => by simp [hf y]

theorem noneBehind_unsealed (hnone : NoneBehind d j slot) : NoneBehind (unsealed d j slot x) j slot :=
  noneBehind_modEntry (by simpa [NoneBehind] using hnone) (fun _ => by simp)

theorem noneBehind_answer {id : Nat} {q : Resp} (hnone : NoneBehind d j slot) : NoneBehind (answer e d j id q) j slot := by
  rw [NoneBehind, answer_entries, List.any_eq_false]
  rw [NoneBehind, List.any_eq_false] at hnone
  exact fun y hy => hnone y (List.mem_of_mem_filter hy)

theorem noneBehind_modBed {f : Bed → Bed} (hnone : NoneBehind d j slot) : NoneBehind (modBed d j h f) j slot := by
  rw [NoneBehind, jointOf_modBed]
  exact hnone

theorem noneBehind_send {a c : Port} {vc : VC} {p : BitVec 4} {y : HodBody} (hnone : NoneBehind d j slot) : NoneBehind (send e d a c vc p y) j slot := by
  rw [NoneBehind, jointOf, send_joints]
  exact hnone

/-! ### What an arrival tells its agent (R102) -/

/-- R102. ARRIVE is answered with the course that it counted towards, ARRIVE_WAIT pends for it. -/
def counts (e : Env) (d : Dp) (j : Nat) (x : JEntry) (c : Word) : Dp := if x.op = .arrive then answer e d j x.id (Resp.at .ok c) else pendFor d j x.id c

section
variable (c : Word)

theorem answering_counts : Answering j d (counts e d j x c) := by
  unfold counts
  split
  · exact answering_answer _ _
  · exact answering_modEntry _

theorem noneBehind_counts (hnone : NoneBehind d j slot) : NoneBehind (counts e d j x c) j slot := by
  unfold counts
  split
  · exact noneBehind_answer hnone
  · exact noneBehind_modEntry hnone fun _ => by simp

theorem counts_beats (hop : x.op = .arrive) (hx : entryOf d j x.id = some { x with phase := .atHome }) :
    beatsOf (counts e d j x c) j = beatsOf d j ++ beatsFor x.req.slot x.req.rid (Resp.at .ok c) := by
  rw [counts, if_pos hop, answer_beats hx]

theorem counts_pends (hop : x.op = .arriveWait) (hx : entryOf d j x.id = some { x with phase := .atHome }) :
    entryOf (counts e d j x c) j x.id = some { x with phase := .pends, pended := true, target := c } := by
  rw [counts, if_neg (by simp [hop])]
  exact entryOf_modEntry (x := { x with phase := .atHome }) hx rfl

end

/-! ### Arrivals at the bed (R97, R98) -/

/-- R97. The bed with count k of member m in the open course; under a grout it has gone on at once. -/
def Bed.countOpen (b : Bed) (j : Nat) (x : JEntry) (m : BedMember) (c : Word) : Bed :=
  { b.setMember { m with a := m.a + x.req.count.toNat, f := if b.cfg.isSome then m.e else m.f } with
    last := some (plainArrival b j x c x.req.count.toNat) }

/-- R97. The bed with the count of member m in the next course; under a grout its contribution is held. -/
def Bed.countNext (b : Bed) (j : Nat) (x : JEntry) (m : BedMember) (c : Word) : Bed :=
  let b := { b.setMember { m with b := m.b + x.req.count.toNat } with nextLast := some (plainArrival b j x c x.req.count.toNat) }
  if b.cfg.isSome then { b with heldPay := b.heldPay ++ [(groutArrival b j m x c, m.slot)] } else b

/-- R97, R192. The bed admits arrivals of the agent, and the request's grout passes. -/
structure Arrives (e : Env) (j : Nat) (x : JEntry) (b : Bed) (m : BedMember) : Prop where
  admits : admits e b.mask j x.req.slot = true
  poison : b.poisoned = none
  armed : b.armed = true
  grout : groutCheck b.cfg m x.req = none

section
variable (harr : Arrives e j x b m)
include harr

theorem applyArrival_refuse (hcase : arrCase m x.req.count.toNat = .refuse st) : applyArrival e d j x b m = answer e d j x.id (Resp.at st b.course) := by
  simp [applyArrival, harr.admits, harr.poison, harr.armed, harr.grout, hcase]

theorem applyArrival_next (hcase : arrCase m x.req.count.toNat = .next) (hcfg : (b.cfg.isSome && b.cfgWaits) = false) :
    applyArrival e d j x b m = counts e (modBed d j b.handle (fun b2 => b2.countNext j x m (b.course + 2))) j x (b.course + 2) := by
  simp only [applyArrival, harr.admits, harr.poison, harr.armed, harr.grout, hcase, hcfg, Bool.not_true, Bool.false_eq_true, if_false]
  rfl

theorem applyArrival_opens (hcase : arrCase m x.req.count.toNat = .opens) :
    applyArrival e d j x b m =
      (if b.cfg.isSome then
        send e (counts e (modBed d j b.handle (fun b2 => b2.countOpen j x m (b.course + 1))) j x (b.course + 1)) (.joint j) (b.dest e) .req b.part
          (.arrival (groutArrival b j m x (b.course + 1)))
      else sendComplete e (counts e (modBed d j b.handle (fun b2 => b2.countOpen j x m (b.course + 1))) j x (b.course + 1)) j b.handle) := by
  simp only [applyArrival, harr.admits, harr.poison, harr.armed, harr.grout, hcase, Bool.not_true, Bool.false_eq_true, if_false]
  rfl

end

/-! ### What an arrival leaves -/

/-- The bed of handle h at joint j is at bed's course, with member m2 in the slot. -/
abbrev BedHas (d : Dp) (j : Nat) (h : Dword) (slot : BitVec 3) (b : Bed) (m2 : BedMember) : Prop :=
  ∃ b2, bedFor d j h = some b2 ∧ b2.member slot = some m2 ∧ b2.course = b.course

/-- R97. What an arrival that counts towards course c leaves: the member's counts, the agent told, and nothing behind the seal. -/
structure Taken (d d2 : Dp) (j : Nat) (slot : BitVec 3) (x : JEntry) (b : Bed) (m2 : BedMember) (c : Word) : Prop where
  bricks : d2.bricks = d.bricks
  bed : BedHas d2 j x.req.handle slot b m2
  free : NoneBehind d2 j slot
  told : x.op = .arrive → beatsOf d2 j = beatsOf d j ++ beatsFor x.req.slot x.req.rid (Resp.at .ok c)
  pends : x.op = .arriveWait → entryOf d2 j x.id = some { x with phase := .pends, pended := true, target := c }

section
variable {f : Bed → Bed} {c : Word} (hbed : bedFor d j x.req.handle = some b) (hx : entryOf d j x.id = some { x with phase := .atHome })
  (hfree : NoneBehind d j slot)
include hbed hx hfree

/-- An arrival counted by f at the bed, and its agent told. -/
theorem taken_counts (hf : (f b).waiting = false ∧ (f b).handle = x.req.handle) (hm : (f b).member slot = some m2) (hcourse : (f b).course = b.course) :
    Taken d (counts e (modBed d j x.req.handle f) j x c) j slot x b m2 c := by
  have htold : Answering j (modBed d j x.req.handle f) (counts e (modBed d j x.req.handle f) j x c) := answering_counts c
  refine ⟨htold.bricks, ⟨f b, (htold.bedFor _).trans (bedFor_modBed hbed hf), hm, hcourse⟩, noneBehind_counts c (noneBehind_modBed hfree), fun hop => ?_,
    fun hop => ?_⟩
  · rw [counts_beats c hop (by rw [modBed_entryOf]; exact hx), modBed_beatsOf]
  · exact counts_pends c hop (by rw [modBed_entryOf]; exact hx)

end

theorem Taken.send {a q : Port} {vc : VC} {p : BitVec 4} {y : HodBody} {c : Word} (ht : Taken d d2 j slot x b m2 c) :
    Taken d (send e d2 a q vc p y) j slot x b m2 c := by
  obtain ⟨b2, hbed, hm, hcourse⟩ := ht.bed
  exact ⟨(send_bricks ..).trans ht.bricks, ⟨b2, (bedFor_send ..).trans hbed, hm, hcourse⟩, noneBehind_send ht.free,
    fun hop => (beatsOf_send ..).trans (ht.told hop), fun hop => (entryOf_send ..).trans (ht.pends hop)⟩

/-- The members' counts going to the home tile leave what the arrival did. -/
theorem Taken.sent {c : Word} (ht : Taken d d2 j slot x b m2 c) : Taken d (modBed d2 j x.req.handle Bed.sent) j slot x b { m2 with f := m2.e } c := by
  obtain ⟨b2, hbed, hm, hcourse⟩ := ht.bed
  have hfound : b2.waiting = false ∧ b2.handle = x.req.handle := found_of_bedFor hbed
  exact ⟨ht.bricks, ⟨b2.sent, bedFor_modBed hbed hfound, member_map (g := fun m => { m with f := m.e }) (fun _ => rfl) hm, hcourse⟩, noneBehind_modBed ht.free,
    fun hop => modBed_beatsOf.trans (ht.told hop), fun hop => (modBed_entryOf _).trans (ht.pends hop)⟩

section
variable {s : State} {j : BitVec 7} (hseal : Sealing s.env s.dp j.toNat slot x n) (hop : x.op = .arrive ∨ x.op = .arriveWait)
  (hbed : bedFor s.dp j.toNat x.req.handle = some b) (hm : b.member slot = some m)
include hseal

theorem slot_of_sealing : x.req.slot = slot := by
  obtain ⟨-, hx, -⟩ := hseal
  simpa using And.left (by simpa using List.find?_some hx)

include hop hbed hm

/-- R237, R97. The sealed arrival of a member runs at its bed; nothing stands behind it. -/
theorem exec_sealAck_arrival (hfree : NoneBehind (applyArrival s.env (unsealed s.dp j.toNat slot x) j.toNat x b m) j.toNat slot) :
    exec (.sealAck j slot) s = .next { s with dp := applyArrival s.env (unsealed s.dp j.toNat slot x) j.toNat x b m } := by
  have hslot := slot_of_sealing hseal
  have hrun : runEntry s.env (unsealed s.dp j.toNat slot x) j.toNat x = applyArrival s.env (unsealed s.dp j.toNat slot x) j.toNat x b m := by
    obtain ⟨-, -, -, -, hfrozen, -⟩ := hseal
    rw [runEntry_thawed (by rw [unsealed_frozen]; exact hfrozen)]
    rcases hop with hop | hop <;> simp only [hop, unsealed_bedFor, hbed, hslot, hm]
  show Host.Outcome.next { s with dp := sealAcked s.env s.dp j.toNat slot } = _
  rw [sealAcked_runs hseal, hrun, releaseSlot_noneBehind hfree]

end

/-! ### The bed after a count -/

section
variable (c : Word) (hm : b.member slot = some m)
include hm

theorem member_countOpen : (b.countOpen j x m c).member slot
    = some { m with a := m.a + x.req.count.toNat, f := if b.cfg.isSome then m.e else m.f } := member_setMember hm rfl

theorem member_countNext : (b.countNext j x m c).member slot = some { m with b := m.b + x.req.count.toNat } := by
  have hset : (b.setMember { m with b := m.b + x.req.count.toNat }).member slot = some { m with b := m.b + x.req.count.toNat } := member_setMember hm rfl
  simp only [Bed.countNext]
  split
  · exact hset
  · exact hset

/-- R98. Without grout an arrival leaves what its joint owes the home tile. -/
theorem owed_countOpen (hcfg : b.cfg = none) : (b.countOpen j x m c).owed = b.owed := by
  rw [Bed.owed, Bed.countOpen, hcfg]
  exact congrArg List.sum (map_setMember (m2 := { m with a := m.a + x.req.count.toNat }) (g := fun m => m.e - m.f) hm rfl rfl)

end

theorem full_countOpen (c : Word) (hcfg : b.cfg = none) :
    (b.countOpen j x m c).full = (b.setMember { m with a := m.a + x.req.count.toNat }).members.all (fun k => k.a == k.e) := by
  rw [Bed.full, Bed.countOpen, hcfg]
  rfl

theorem countNext_kept (c : Word) : (b.countNext j x m c).waiting = b.waiting ∧ (b.countNext j x m c).handle = b.handle ∧ (b.countNext j x m c).course = b.course := by
  simp only [Bed.countNext]
  split <;> exact ⟨rfl, rfl, rfl⟩

/-! ### R97's cases -/

section
variable (m) {c : Nat} (ha : m.a ≤ m.e) (hb : m.b ≤ m.e)
include ha hb

/-- R97. The four cases of a count, by the member's e, a and b. -/
theorem arrCase_cases :
    (arrCase m c = .opens ∧ 1 ≤ c ∧ m.a + c ≤ m.e) ∨ (arrCase m c = .next ∧ 1 ≤ c ∧ m.a = m.e ∧ m.b + c ≤ m.e)
      ∨ (arrCase m c = .refuse .busy ∧ 1 ≤ c ∧ c ≤ m.e ∧ m.a = m.e ∧ m.b = m.e)
      ∨ (arrCase m c = .refuse .badCount ∧ (c = 0 ∨ m.e < c ∨ m.a < m.e ∧ m.e < m.a + c ∨ m.a = m.e ∧ m.b < m.e ∧ m.e < m.b + c)) := by
  unfold arrCase
  split_ifs
  · exact .inr (.inr (.inr ⟨rfl, by omega⟩))
  · exact .inl ⟨rfl, by omega⟩
  · exact .inr (.inl ⟨rfl, by omega⟩)
  · exact .inr (.inr (.inl ⟨rfl, by omega⟩))
  · exact .inr (.inr (.inr ⟨rfl, by omega⟩))

theorem arrCase_iff :
    (arrCase m c = .opens ↔ 1 ≤ c ∧ m.a + c ≤ m.e) ∧ (arrCase m c = .next ↔ 1 ≤ c ∧ m.a = m.e ∧ m.b + c ≤ m.e)
      ∧ (arrCase m c = .refuse .busy ↔ 1 ≤ c ∧ c ≤ m.e ∧ m.a = m.e ∧ m.b = m.e)
      ∧ (arrCase m c = .refuse .badCount ↔ c = 0 ∨ m.e < c ∨ m.a < m.e ∧ m.e < m.a + c ∨ m.a = m.e ∧ m.b < m.e ∧ m.e < m.b + c) := by
  rcases arrCase_cases m (c := c) ha hb with ⟨hcase, hc⟩ | ⟨hcase, hc⟩ | ⟨hcase, hc⟩ | ⟨hcase, hc⟩ <;> rw [hcase] <;> simp only [reduceCtorEq, ArrCase.refuse.injEq, true_iff, false_iff] <;> omega

end

/-! ### An arrival towards the open course -/

/-- What the member keeps, and the bed and the agent are told, where the joint's hod may go too. -/
theorem Taken.sendComplete {c : Word} (ht : Taken d d2 j slot x b m2 c) :
    ∃ k, k.a = m2.a ∧ k.b = m2.b ∧ k.e = m2.e ∧ Taken d (sendComplete e d2 j x.req.handle) j slot x b k c := by
  have hkept : ∃ k, k.a = m2.a ∧ k.b = m2.b ∧ k.e = m2.e ∧ Taken d d2 j slot x b k c := ⟨m2, rfl, rfl, rfl, ht⟩
  unfold Machine.sendComplete
  split
  · exact hkept
  · extract_lets sum
    split
    · exact hkept
    · exact ⟨{ m2 with f := m2.e }, rfl, rfl, rfl, ht.sent.send⟩

/-- The bed once the arrival is counted and its agent told; nothing has left the joint. -/
theorem counted_opens (m : BedMember) (hbed : bedFor d j x.req.handle = some b) :
    bedFor (counts e (modBed d j x.req.handle (fun b2 => b2.countOpen j x m (b.course + 1))) j x (b.course + 1)) j x.req.handle
        = some (b.countOpen j x m (b.course + 1))
      ∧ (counts e (modBed d j x.req.handle (fun b2 => b2.countOpen j x m (b.course + 1))) j x (b.course + 1)).net = d.net := by
  have htold := answering_counts (e := e) (d := modBed d j x.req.handle (fun b2 => b2.countOpen j x m (b.course + 1))) (j := j) (x := x) (b.course + 1)
  obtain ⟨hforce, hhandle⟩ := found_of_bedFor hbed
  exact ⟨(htold.bedFor _).trans (bedFor_modBed hbed ⟨hforce, hhandle⟩), htold.net⟩

section
variable (hbed : bedFor d j x.req.handle = some b) (hm : b.member slot = some m) (harr : Arrives e j x b m) (hcase : arrCase m x.req.count.toNat = .opens)
include hbed hm harr hcase

theorem taken_opens (hx : entryOf d j x.id = some { x with phase := .atHome }) (hfree : NoneBehind d j slot) :
    ∃ m2, m2.a = m.a + x.req.count.toNat ∧ m2.b = m.b ∧ m2.e = m.e ∧ Taken d (applyArrival e d j x b m) j slot x b m2 (b.course + 1) := by
  obtain ⟨hforce, hhandle⟩ := found_of_bedFor hbed
  have htaken := taken_counts (e := e) (c := b.course + 1) hbed hx hfree (f := fun b2 => b2.countOpen j x m (b.course + 1))
    ⟨hforce, hhandle⟩ (member_countOpen _ hm) rfl
  rw [applyArrival_opens harr hcase, hhandle]
  split
  · exact ⟨{ m with a := m.a + x.req.count.toNat, f := if b.cfg.isSome then m.e else m.f }, rfl, rfl, rfl, htaken.send⟩
  · exact htaken.sendComplete

omit hm in
/-- R98, R192. Under a grout the contribution goes on at once. -/
theorem posts_opens_grout {c : GCfg} (hcfg : b.cfg = some c) :
    posts (applyArrival e d j x b m).net = posts d.net ++ [(.joint j, b.dest e, .req, .arrival (groutArrival b j m x (b.course + 1)))] := by
  obtain ⟨-, hnet⟩ := counted_opens (e := e) m hbed
  rw [applyArrival_opens harr hcase, hcfg, Option.isSome_some, if_pos rfl, posts_send, (found_of_bedFor hbed).2, hnet]

section
variable (hcfg : b.cfg = none)
include hcfg

/-- R98, R242. Without one the joint's hod goes with the arrival that completes the bed. -/
theorem posts_opens_full (hfull : (b.setMember { m with a := m.a + x.req.count.toNat }).members.all (fun k => k.a == k.e) = true) (howed : b.owed ≠ 0) :
    posts (applyArrival e d j x b m).net = posts d.net ++ [(.joint j, b.up, .req, .arrival (plainArrival b j x (b.course + 1) b.owed))] := by
  obtain ⟨hcounted, hnet⟩ := counted_opens (e := e) m hbed
  rw [← full_countOpen (j := j) (b.course + 1) hcfg] at hfull
  rw [← owed_countOpen (j := j) (x := x) (b.course + 1) hm hcfg] at howed ⊢
  rw [applyArrival_opens harr hcase, hcfg, Option.isSome_none, if_neg (by simp), (found_of_bedFor hbed).2,
    sendComplete_sends hcounted hcfg harr.armed harr.poison hfull howed rfl, posts_send, modBed_net, hnet]
  rfl

theorem net_opens_waits (hwaits : (b.setMember { m with a := m.a + x.req.count.toNat }).members.all (fun k => k.a == k.e) = false ∨ b.owed = 0) :
    (applyArrival e d j x b m).net = d.net := by
  obtain ⟨hcounted, hnet⟩ := counted_opens (e := e) m hbed
  rw [← full_countOpen (j := j) (b.course + 1) hcfg, ← owed_countOpen (j := j) (x := x) (b.course + 1) hm hcfg] at hwaits
  rw [applyArrival_opens harr hcase, hcfg, Option.isSome_none, if_neg (by simp), (found_of_bedFor hbed).2,
    sendComplete_waits hcounted (hwaits.imp_right .inl), hnet]

end

end

/-- Settles O12: the arrival runs at its bed, in the case that R97 gives its count; only a count towards the open course sends. -/
theorem arrivalCountsAtBed : Obligations.ArrivalCountsAtBed := by
  unfold Obligations.ArrivalCountsAtBed
  refine ⟨fun s j slot x n bed m hseal hop hbed hm hadmits hpoison harmed hgrout hcfg => ?_, fun m c ha hb => arrCase_iff m ha hb⟩
  have hexec := exec_sealAck_arrival hseal hop hbed hm
  have hslot := slot_of_sealing hseal
  obtain ⟨-, -, hentry, hbehind, -⟩ := hseal
  obtain ⟨hforce, hhandle⟩ := found_of_bedFor hbed
  have hx : entryOf (unsealed s.dp j.toNat slot x) j.toNat x.id = some { x with phase := .atHome } := entryOf_unsealed hentry
  have hfree : NoneBehind (unsealed s.dp j.toNat slot x) j.toNat slot := noneBehind_unsealed hbehind
  have hbedU : bedFor (unsealed s.dp j.toNat slot x) j.toNat x.req.handle = some bed := (unsealed_bedFor ..).trans hbed
  have harr : Arrives s.env j.toNat x bed m := ⟨hslot ▸ hadmits, hpoison, harmed, hgrout⟩
  cases hcase : arrCase m x.req.count.toNat with
  | refuse st =>
    have hrefuse := applyArrival_refuse (d := unsealed s.dp j.toNat slot x) harr hcase
    have hanswer := answering_answer (e := s.env) (d := unsealed s.dp j.toNat slot x) (j := j.toNat) x.id (Resp.at st bed.course)
    rw [hrefuse] at hexec
    refine ⟨_, bed, m, hexec (noneBehind_answer hfree), rfl, hanswer.bricks, (hanswer.bedFor _).trans hbedU, hm, rfl, rfl, nofun, fun _ => hanswer.net, rfl, ?_⟩
    simp only [answer_beats hx, unsealed_beatsOf, hslot]
  | next =>
    have hnext := applyArrival_next (d := unsealed s.dp j.toNat slot x) harr hcase hcfg
    rw [hhandle] at hnext
    obtain ⟨hwaiting, hhandle2, hcourse⟩ := countNext_kept (b := bed) (j := j.toNat) (x := x) (m := m) (bed.course + 2)
    have htaken := taken_counts (e := s.env) (c := bed.course + 2) hbedU hx hfree (f := fun b => b.countNext j.toNat x m (bed.course + 2))
      ⟨hwaiting.trans hforce, hhandle2.trans hhandle⟩ (member_countNext _ hm) hcourse
    rw [hnext] at hexec
    obtain ⟨b2, hbed2, hm2, hcourse2⟩ := htaken.bed
    refine ⟨_, b2, _, hexec htaken.free, rfl, htaken.bricks, hbed2, hm2, hcourse2, rfl, nofun, fun _ => (answering_counts _).net, rfl, rfl, ?_, htaken.pends⟩
    exact fun hop => by rw [htaken.told hop, unsealed_beatsOf, hslot]
  | opens =>
    obtain ⟨m2, ha, hb, he, htaken⟩ := taken_opens (e := s.env) hbedU hm harr hcase hx hfree
    obtain ⟨b2, hbed2, hm2, hcourse2⟩ := htaken.bed
    refine ⟨_, b2, m2, hexec htaken.free, rfl, htaken.bricks, hbed2, hm2, hcourse2, he, fun _ => ⟨fun c hc => ?_, fun hc => ⟨fun hfull howed => ?_, fun hwaits => ?_⟩⟩,
      fun h => absurd rfl h, ha, hb, ?_, htaken.pends⟩
    · exact posts_opens_grout hbedU harr hcase hc
    · exact posts_opens_full hbedU hm harr hcase hc hfull howed
    · exact net_opens_waits hbedU hm harr hcase hc hwaits
    · exact fun hop => by rw [htaken.told hop, unsealed_beatsOf, hslot]

end Sys2Proof.Machine
end

section
/-! Several entries answered together (R495): which leave the joint. -/

namespace Sys2Proof.Machine

open Sys2Proof.Safety

variable {e : Env} {d d2 : Dp} {j : Nat} {x : JEntry} {l : List JEntry}

/-- R495. Slot order takes every entry in, and no other. -/
theorem mem_bySlot : x ∈ bySlot l ↔ x ∈ l := by
  simp only [bySlot, List.mem_flatMap, List.mem_range, List.mem_filter, beq_iff_eq]
  exact ⟨fun ⟨_, _, hx, _⟩ => hx, fun hx => ⟨_, x.req.slot.isLt, hx, rfl⟩⟩

/-- R230. No entry comes to the joint between d and d2. -/
def Thins (j : Nat) (d d2 : Dp) : Prop := ∀ k, entryOf d j k = none → entryOf d2 j k = none

theorem Thins.refl : Thins j d d := fun _ h => h

theorem Thins.trans {d3 : Dp} (h : Thins j d d2) (g : Thins j d2 d3) : Thins j d d3 := fun k hk => g k (h k hk)

theorem thins_of_entries (h : (jointOf d2 j).entries = (jointOf d j).entries) : Thins j d d2 := fun k hk => by rw [entryOf, h]; exact hk

theorem thins_answer (id : Nat) (q : Resp) : Thins j d (answer e d j id q) := fun _ hk => entryOf_answer_none hk

theorem entryOf_none_iff {k : Nat} : entryOf d j k = none ↔ (jointOf d j).entries.any (fun y => y.id == k) = false := by
  simp [entryOf]

theorem thins_modEntry (id : Nat) (f : JEntry → JEntry) (hf : ∀ y, (f y).id = y.id) : Thins j d (modEntry d j id f) := by
  intro k hk
  rw [entryOf_none_iff, jointOf_modEntry]
  exact any_modFirst_false (entryOf_none_iff.1 hk) fun y hy => by rw [hf]; exact hy

/-- What takes each of a list's entries in turn takes them all, where none comes back. -/
theorem gone_foldl {step : Dp → JEntry → Dp} (hthins : ∀ d2 x, Thins j d2 (step d2 x)) (hgone : ∀ d2, ∀ x ∈ l, entryOf (step d2 x) j x.id = none) :
    ∀ d, ∀ x ∈ l, entryOf (l.foldl step d) j x.id = none := by
  induction l with
  | nil => simp
  | cons y l ih =>
    intro d x hx
    rcases List.mem_cons.1 hx with rfl | hx
    · have hkeep : Thins j (step d x) (l.foldl step (step d x)) :=
        List.foldlRecOn l step Thins.refl (fun d2 h2 y _ => h2.trans (hthins d2 y))
      exact hkeep _ (hgone d x (by simp))
    · exact ih (fun d x hx => hgone d x (by simp [hx])) (step d y) x hx

theorem answering_answerMany (f : JEntry → Resp) : Answering j d (answerMany e d j l f) :=
  Answering.foldl (f := fun d x => answer e d j x.id (f x)) (fun _ x => answering_answer x.id (f x)) (bySlot l) d

theorem thins_foldl {β : Type} {step : Dp → β → Dp} (hthins : ∀ d x, Thins j d (step d x)) (l : List β) (d : Dp) : Thins j d (l.foldl step d) :=
  List.foldlRecOn l step Thins.refl (fun d2 h2 y _ => h2.trans (hthins d2 y))

theorem thins_answerMany (f : JEntry → Resp) : Thins j d (answerMany e d j l f) :=
  thins_foldl (step := fun d x => answer e d j x.id (f x)) (fun _ x => thins_answer x.id (f x)) (bySlot l) d

/-- R495. Every entry that is answered leaves the joint. -/
theorem gone_answerMany (f : JEntry → Resp) (hx : x ∈ l) : entryOf (answerMany e d j l f) j x.id = none :=
  gone_foldl (l := bySlot l) (step := fun d x => answer e d j x.id (f x)) (fun _ x => thins_answer x.id (f x)) (fun _ x _ => entryOf_answer_self x.id (f x)) d x
    (mem_bySlot.2 hx)

end Sys2Proof.Machine
end

section
/-! O16: the held responses, the ports, the nudges and the stall report of a joint. -/

namespace Sys2Proof.Machine

open Sys2Proof.Safety

variable {e : Env} {d : Dp} {j n : Nat}

/-! ### Held responses (R121) -/

/-- R121, R341. Whether the joint's GT has reached the instant of a held response, whose entry's partition runs. -/
def Due (e : Env) (d : Dp) (j : Nat) (q : HeldResp) : Bool :=
  reached (gtInterp e) q.instant && (match entryOf d j q.entry with | some x => !(jointOf d j).frozen.contains x.part.toNat | none => true)

/-- R121. The joint without the held responses that are due. -/
def released (e : Env) (d : Dp) (j : Nat) : Dp :=
  let y := jointOf d j
  setJoint d j { y with held := y.held.filter (fun r => !((y.held.filter (Due e d j)).any (fun q => q.entry == r.entry))) }

/-- R121. The answer to an entry whose held response is due. -/
def answerDue (e : Env) (j : Nat) (due : List HeldResp) (d : Dp) (x : JEntry) : Dp :=
  match due.find? (fun r => r.entry == x.id) with
  | some r => answer e d j x.id r.resp
  | none => d

theorem deliverHeld_eq :
    deliverHeld e d j (fun _ => false)
      = (bySlot ((jointOf d j).entries.filter (fun x => ((jointOf d j).held.filter (Due e d j)).any (fun r => r.entry == x.id)))).foldl
          (answerDue e j ((jointOf d j).held.filter (Due e d j))) (released e d j) := rfl

theorem answering_answerDue (due : List HeldResp) (d : Dp) (x : JEntry) : Answering j d (answerDue e j due d x) := by
  unfold answerDue
  split
  · exact answering_answer _ _
  · exact Answering.refl

theorem thins_answerDue (due : List HeldResp) (d : Dp) (x : JEntry) : Thins j d (answerDue e j due d x) := by
  unfold answerDue
  split
  · exact thins_answer _ _
  · exact Thins.refl

/-- R121. The held responses that are due leave the joint, with their entries; no other comes. -/
theorem deliverHeld_outcome :
    (deliverHeld e d j (fun _ => false)).bricks = d.bricks ∧ (deliverHeld e d j (fun _ => false)).net = d.net
      ∧ (∀ q ∈ (jointOf d j).held, Due e d j q = true →
          q ∉ (jointOf (deliverHeld e d j (fun _ => false)) j).held ∧ entryOf (deliverHeld e d j (fun _ => false)) j q.entry = none)
      ∧ (∀ q ∈ (jointOf (deliverHeld e d j (fun _ => false)) j).held, q ∈ (jointOf d j).held) := by
  rw [deliverHeld_eq]
  generalize hdue : (jointOf d j).held.filter (Due e d j) = due
  generalize hl : (jointOf d j).entries.filter (fun x => due.any (fun r => r.entry == x.id)) = l
  have hanswers : Answering j (released e d j) ((bySlot l).foldl (answerDue e j due) (released e d j)) :=
    Answering.foldl (answering_answerDue due) (bySlot l) _
  have hheld : (jointOf ((bySlot l).foldl (answerDue e j due) (released e d j)) j).held
      = (jointOf d j).held.filter (fun r => !(due.any (fun q => q.entry == r.entry))) := by
    rw [hanswers.held, ← hdue]
    simp [released]
  refine ⟨hanswers.bricks, hanswers.net, fun q hq hqdue => ⟨?_, ?_⟩, fun q hq => ?_⟩
  · have hin : q ∈ due := hdue ▸ List.mem_filter.2 ⟨hq, hqdue⟩
    rw [hheld, List.mem_filter]
    intro ⟨_, hkept⟩
    have hother : ∀ r ∈ due, ¬ r.entry = q.entry := by simpa using hkept
    exact hother q hin rfl
  · have hin : q ∈ due := hdue ▸ List.mem_filter.2 ⟨hq, hqdue⟩
    cases hx : entryOf d j q.entry with
    | none =>
      refine thins_foldl (thins_answerDue due) (bySlot l) _ q.entry ?_
      simpa [entryOf, released] using hx
    | some x =>
      have hid := id_of_entryOf hx
      have hxl : x ∈ l := hl ▸ List.mem_filter.2 ⟨mem_of_entryOf hx, List.any_eq_true.2 ⟨q, hin, by simp [hid]⟩⟩
      rw [← hid]
      refine gone_foldl (thins_answerDue due) (fun d2 y hy => ?_) _ x (mem_bySlot.2 hxl)
      have hy : due.any (fun r => r.entry == y.id) = true := by
        rw [mem_bySlot, ← hl] at hy
        exact (List.mem_filter.1 hy).2
      obtain ⟨r, hr⟩ := Option.isSome_iff_exists.1 (List.find?_isSome.2 (List.any_eq_true.1 hy))
      simp only [answerDue, hr]
      exact entryOf_answer_self _ _
  · exact List.mem_of_mem_filter (hheld ▸ hq)

/-! ### Ports (R245, R247) -/

/-- R244, R245. The scheduler takes the first hint; where a response follows it, the wait for that response begins. -/
theorem hintTaken_next {g : Hint} {rest : List Hint} (hstop : e.stop.stopped = false) (hhints : (jointOf d j).hints = g :: rest) :
    (hintTaken e d j).bricks = d.bricks ∧ (hintTaken e d j).net = d.net
      ∧ jointOf (hintTaken e d j) j = { jointOf d j with
          hints := rest ++ (jointOf d j).heldHints.take 1, heldHints := (jointOf d j).heldHints.drop 1
          resp := (jointOf d j).resp.map RBeat.nearer, respMore := (jointOf d j).respMore.map RBeat.nearer
          respWait := if ((jointOf d j).resp.head?.map RBeat.ahead) = some 1 then some (now e) else (jointOf d j).respWait }
      ∧ ∀ k, k ≠ j → jointOf (hintTaken e d j) k = jointOf d k := by
  simp only [hintTaken, hhints, hstop, Bool.false_eq_true, if_false]
  split
  · exact ⟨rfl, rfl, by simp, fun k hk => by rw [jointOf_setJoint_ne _ _ hk, jointOf_setJoint_ne _ _ hk]⟩
  · exact ⟨rfl, rfl, by simp, fun k hk => jointOf_setJoint_ne _ _ hk⟩

/-- R244. A response is not taken before its WAKE. -/
theorem beatTaken_waits {g : RBeat} {rest : List RBeat} (hresp : (jointOf d j).resp = g :: rest) (hahead : g.ahead ≠ 0) : beatTaken e d j = d := by
  simp [beatTaken, hresp, hahead]

/-- R247. The agent takes the first beat. -/
theorem beatTaken_next {g : RBeat} {rest : List RBeat} (hstop : e.stop.stopped = false) (hresp : (jointOf d j).resp = g :: rest) (hahead : g.ahead = 0) :
    (beatTaken e d j).bricks = d.bricks ∧ (beatTaken e d j).net = d.net ∧ beatsOf (beatTaken e d j) j = said (rest ++ (jointOf d j).respMore)
      ∧ (jointOf (beatTaken e d j) j).entries = (jointOf d j).entries := by
  have hfill := fill_beats { jointOf d j with resp := rest }
  simp only [beatTaken, hresp, hstop, hahead, bne_self_eq_false, Bool.or_self, Bool.false_eq_true, if_false]
  refine ⟨rfl, rfl, ?_, by simp [Joint.fill]⟩
  simp only [beatsOf, jointOf_setJoint]
  rw [hfill]

/-! ### Nudges (R164) -/

section
variable {h : Hod} {i : Nat} {x : Dword} (htakes : JointTakes e d n j h) (hbody : h.body = .nudge i x)
include htakes hbody

/-- R164. A nudge that finds no TOK_GET on its way sends the oldest that pends. -/
theorem takeNudge_sends {y : JEntry}
    (hnone : (jointOf d j).entries.any (fun z => z.op == .tokGet && z.req.handle == x && z.phase == .atHome && z.req.count != 0#16) = false)
    (hy : (jointOf d j).entries.find? (fun z => z.op == .tokGet && z.phase == .pends && z.req.handle == x) = some y) :
    takeNudge e d n = sendHome e (addForwarded (dropForwarded (dropHod d n) j x) j x y.id) j y := by
  obtain ⟨htake, hdst, hroom⟩ := htakes
  have hjoint : jointOf (dropHod d n) j = jointOf d j := rfl
  have hdropped : (jointOf (dropForwarded (dropHod d n) j x) j).entries = (jointOf d j).entries := by simp [dropForwarded, hjoint]
  simp only [takeNudge, htake, hdst, hbody, hroom, hjoint, hnone, forwardNext, hdropped, hy, Bool.not_true, Bool.false_eq_true, if_false, reduceCtorEq]

/-- R164. Where one is on its way, the nudge is only taken. -/
theorem takeNudge_busy
    (hany : (jointOf d j).entries.any (fun z => z.op == .tokGet && z.req.handle == x && z.phase == .atHome && z.req.count != 0#16) = true) :
    takeNudge e d n = dropHod d n := by
  obtain ⟨htake, hdst, hroom⟩ := htakes
  have hjoint : jointOf (dropHod d n) j = jointOf d j := rfl
  simp only [takeNudge, htake, hdst, hbody, hroom, hjoint, hany, Bool.not_true, Bool.false_eq_true, if_false, if_true]

end

/-! ### Stalls (R247) -/

/-- R247. The response at the head of the buffer has waited for its agent for more than 1,024 tile cycles, and no report has told it. -/
def respStalls (e : Env) (d : Dp) (j : Nat) : Bool :=
  (jointOf d j).respWait.any (fun c => decide (1024 < now e - c)) && (jointOf d j).resp.head?.any (fun b => b.ahead == 0) && !(jointOf d j).stallSent.getLsbD 8

/-- R247. The first slot whose seal has waited that long and has not been told. -/
def sealStalls (e : Env) (d : Dp) (j : Nat) : Option (Nat × Nat) :=
  (jointOf d j).seals.find? (fun s => decide (1024 < now e - s.2) && !(jointOf d j).stallSent.getLsbD s.1)

/-- R247. The waits that one report tells. -/
def stallsTold (resp : Bool) (sl : Option (Nat × Nat)) : BitVec 9 :=
  (if resp then 256#9 else 0#9) ||| (match sl with | some s => BitVec.ofNat 9 (2 ^ s.1) | none => 0#9)

theorem respStalls_iff :
    respStalls e d j = true ↔ (jointOf d j).stallSent.getLsbD 8 = false ∧ (∃ c, (jointOf d j).respWait = some c ∧ 1024 < now e - c)
      ∧ ∃ b, (jointOf d j).resp.head? = some b ∧ b.ahead = 0 := by
  simp only [respStalls, Bool.and_eq_true, Option.any_eq_true, decide_eq_true_eq, beq_iff_eq, Bool.not_eq_true']
  exact ⟨fun ⟨⟨hwait, hbeat⟩, hsent⟩ => ⟨hsent, hwait, hbeat⟩, fun ⟨hsent, hwait, hbeat⟩ => ⟨⟨hwait, hbeat⟩, hsent⟩⟩

theorem stalled_none (hresp : respStalls e d j = false) (hseal : sealStalls e d j = none) : stalled e d j = d := by
  have hcond : (e.stop.stopped || !(respStalls e d j || (sealStalls e d j).isSome)) = true := by simp [hresp, hseal]
  exact if_pos hcond

/-- R247, R249. A wait that has lasted too long is marked, and reported. -/
theorem stalled_reports (hstop : e.stop.stopped = false) (hany : (respStalls e d j || (sealStalls e d j).isSome) = true) :
    (stalled e d j).bricks = d.bricks ∧ (stalled e d j).net = d.net
      ∧ (jointOf (stalled e d j) j).stallSent = (jointOf d j).stallSent ||| stallsTold (respStalls e d j) (sealStalls e d j)
      ∧ ∃ q ∈ (stalled e d j).inc.reports, q.1 = .joint j ∧ q.2.key.kind = .jointStall ∧ q.2.key.srcId = BitVec.ofNat 32 j := by
  have hcond : ¬ (e.stop.stopped || !(respStalls e d j || (sealStalls e d j).isSome)) = true := by simp [hstop, hany]
  have heq : stalled e d j = report e (setJoint d j { jointOf d j with
      stallSent := (jointOf d j).stallSent ||| stallsTold (respStalls e d j) (sealStalls e d j) }) (.joint j)
      { mkReport e (mkKey e 4 j .jointStall) none with
        d2 := BitVec.ofNat 32 (pack [(0, 1, b2n (respStalls e d j)), (1, 1, b2n (sealStalls e d j).isSome), (2, 3, ((sealStalls e d j).map Prod.fst).getD 0)]) } :=
    if_neg hcond
  rw [heq]
  refine ⟨report_bricks .., report_net .., ?_, ?_⟩
  · rw [jointOf, report_joints]
    exact congrArg Joint.stallSent (jointOf_setJoint d j _)
  · obtain ⟨q, hq, hsrc, hkey⟩ := report_buffered e (setJoint d j { jointOf d j with
      stallSent := (jointOf d j).stallSent ||| stallsTold (respStalls e d j) (sealStalls e d j) }) (.joint j)
      { mkReport e (mkKey e 4 j .jointStall) none with
        d2 := BitVec.ofNat 32 (pack [(0, 1, b2n (respStalls e d j)), (1, 1, b2n (sealStalls e d j).isSome), (2, 3, ((sealStalls e d j).map Prod.fst).getD 0)]) }
      (show IncClass.error ≠ .notice by decide)
    exact ⟨q, hq, hsrc, by rw [hkey]; rfl, by rw [hkey]; rfl⟩

theorem stallsTold_resp (sl : Option (Nat × Nat)) : (stallsTold true sl).getLsbD 8 = true := by
  simp [stallsTold]

theorem stallsTold_seal (resp : Bool) {s : Nat × Nat} (h : s.1 < 8) : (stallsTold resp (some s)).getLsbD s.1 = true := by
  have hbit : (BitVec.ofNat 9 (2 ^ s.1)).getLsbD s.1 = true := by
    rw [BitVec.getLsbD_ofNat, Nat.testBit_two_pow_self, decide_eq_true (by omega), Bool.true_and]
  rw [stallsTold, BitVec.getLsbD_or, hbit, Bool.or_true]

/-- Settles O16: each command by the equation of its port. -/
theorem jointPortsProgress : Obligations.JointPortsProgress := by
  unfold Obligations.JointPortsProgress
  refine ⟨fun s j hstop hpf => ?_, fun s => ⟨fun n j h i x y htakes hbody hnone hy => ?_, fun n j h i x htakes hbody hany => ?_, fun j hstop => ?_⟩⟩
  · refine ⟨?_, fun g rest hhints => ?_, fun g rest hresp hahead => ?_, fun g rest hresp hahead => ?_⟩
    · obtain ⟨hbricks, hnet, hgone, hheld⟩ := deliverHeld_outcome (e := s.env) (d := s.dp) (j := j.toNat)
      have hexec : exec (.alignedReleaseInstant j) s = .next { s with dp := deliverHeld s.env s.dp j.toNat (fun _ => false) } := by
        show Host.Outcome.next (if s.env.stop.stopped || s.env.pwr.pfFrozen then s else _) = _
        rw [hstop, hpf]
        rfl
      refine ⟨_, hexec, rfl, hbricks, hnet, fun q hq hreached hruns => hgone q hq ?_, hheld⟩
      rw [Due, hreached, Bool.true_and]
      cases hx : entryOf s.dp j.toNat q.entry with
      | none => rfl
      | some x => simpa using hruns x hx
    · obtain ⟨hbricks, hnet, hjoint, hothers⟩ := hintTaken_next hstop hhints
      exact ⟨_, rfl, rfl, hbricks, hnet, hjoint, hothers⟩
    · show Host.Outcome.next { s with dp := beatTaken s.env s.dp j.toNat } = _
      rw [beatTaken_waits hresp hahead]
    · exact ⟨_, rfl, rfl, beatTaken_next hstop hresp hahead⟩
  · show Host.Outcome.next { s with dp := takeNudge s.env s.dp n } = _
    rw [takeNudge_sends htakes hbody hnone hy]
  · show Host.Outcome.next { s with dp := takeNudge s.env s.dp n } = _
    rw [takeNudge_busy htakes hbody hany]
  · have hexec : exec (.jointStall j) s = .next { s with dp := stalled s.env s.dp j.toNat } := rfl
    have hseals : ∀ q : Nat × Nat, (decide (1024 < now s.env - q.2) && !(jointOf s.dp j.toNat).stallSent.getLsbD q.1)
        = decide (1024 < now s.env - q.2 ∧ (jointOf s.dp j.toNat).stallSent.getLsbD q.1 = false) := fun q => by simp
    have hsealStalls := congrArg (fun t => (jointOf s.dp j.toNat).seals.find? t) (funext hseals)
    refine ⟨fun hlong => ?_, fun q hq hslot => ?_, fun hresp hnone => ?_⟩
    · have hresp : respStalls s.env s.dp j.toNat = true := respStalls_iff.2 hlong
      obtain ⟨hbricks, hnet, hmarks, hreport⟩ := stalled_reports hstop (by rw [hresp, Bool.true_or])
      refine ⟨_, hexec, rfl, hbricks, hnet, ?_, hreport⟩
      simp only [hmarks, hresp, BitVec.getLsbD_or, stallsTold_resp, Bool.or_true]
    · have hseal : sealStalls s.env s.dp j.toNat = some q := hsealStalls.trans hq
      obtain ⟨hbricks, hnet, hmarks, hreport⟩ := stalled_reports hstop (by rw [hseal, Option.isSome_some, Bool.or_true])
      refine ⟨_, hexec, rfl, hbricks, hnet, ?_, hreport⟩
      simp only [hmarks, hseal, BitVec.getLsbD_or, stallsTold_seal _ hslot, Bool.or_true]
    · have hseal : sealStalls s.env s.dp j.toNat = none := hsealStalls.trans (List.find?_eq_none.2 fun q hq => by simpa using hnone q hq)
      have hquiet : respStalls s.env s.dp j.toNat = false := Bool.eq_false_iff.2 fun hlong => hresp (respStalls_iff.1 hlong)
      rw [hexec, stalled_none hquiet hseal]

end Sys2Proof.Machine
end

section
/-! Refutations of Obligations.TestAndQueryReport and Obligations.SealAckRunsHome. A record whose TYPE code a restoration left wrong answers to handles of that code (R45, R344), so a lock may be named by a pallet handle. The joint then sends the request to the stripe of its cache (R162), and where that stripe's tile is unavailable the request is answered FENCED from there (R382) and never reaches the lock. -/

namespace Sys2Proof.Machine

open Sys2Proof.Safety

set_option Elab.async false

/-- Ready, every tile powered, 2^15 bricks of backing store, logical tile 1 unavailable. -/
def strayEnv : Env :=
  let e := Env.reset Integration.default
  { e with
    pwr := { e.pwr with enable := true, ready := true, ptiles := (List.range 36).map (fun k => (k, { powered := true, asleep := false, lock := 2 })) }
    kp := { e.kp with bsLog2 := 21 }
    rep := { e.rep with unavail := [1] } }

/-- A lock that agent 0 holds, its TYPE code that of a pallet. -/
def strayLock : Lock := { held := true, abandoned := false, hprio := 0, eprio := 0, hagent := 0, hgang := 0, grants := 5, queue := [] }

def strayBrick : Brick := { Brick.never with valid := true, typ := .lock, gen := 1, body := .lock strayLock, badType := some 3#3 }

/-- A request of agent 0 on brick 33, whose home is tile 0, by its pallet handle. -/
def strayReq : Req := { slot := 0, rid := 7, handle := mkHandle strayEnv 0 33 1 .pallet, gang := 0, flags := 0, count := 0, tag := 0, beats := [] }

/-- The brick, resident; agents 0 to 7 in partition 0; joint 0 knows two stripes of the handle, of which tile 1 holds the nearer. -/
def strayDp : Dp :=
  { Dp.reset with
    ag := [(0, { AgReg.init with en := 0xFF })]
    parts := [(0, { Part.init with qb := 100, gmask := [(0, 0x1F)] })]
    bricks := [(33, strayBrick)]
    tiles := [(0, { Tile.init with slots := [(.brick 33, false)] })]
    joints := [(0, { Joint.init with cache := [(33, 1)] })]
    seq := 4 }

def strayState : State := { env := strayEnv, dp := strayDp, pending := [] }

theorem stray_home :
    hIndex strayReq.handle = 33 ∧ Homed strayEnv strayDp strayReq.handle strayBrick ∧ Near strayEnv strayDp 0 strayReq.handle
      ∧ Allowed strayEnv strayDp 0 0 strayBrick := by
  decide +kernel

theorem stray_admitted : SlotClear strayDp 0 0 ∧ Admitted strayEnv strayDp 0 .query strayReq 0 false := by
  decide +kernel

/-- The QUERY is answered by tile 1. -/
theorem stray_answered :
    (posts (agentRequest strayEnv strayDp 0 strayReq .query).net).map Prod.fst = [.tile 1] ∧ homeOf strayEnv 33 = 0 := by
  decide +kernel

/-- Refutes O10: the QUERY of the lock is answered FENCED by the unavailable tile of a stripe, and not by its home. -/
theorem not_testAndQueryReport : ¬ Obligations.TestAndQueryReport := by
  unfold Obligations.TestAndQueryReport
  rintro ⟨hbrick, -⟩
  obtain ⟨hindex, hhome, hnear, hallow⟩ := stray_home
  obtain ⟨hclear, hadmitted⟩ := stray_admitted
  obtain ⟨htile, hzero⟩ := stray_answered
  obtain ⟨hquery, -⟩ := hbrick strayState 0 strayReq 0 false strayBrick hclear hhome hnear hallow (by decide) (by decide)
  obtain ⟨t, a, hexec, -, -, hposts, -⟩ := hquery hadmitted
  obtain rfl : { strayState with dp := agentRequest strayEnv strayDp 0 strayReq .query } = t := by
    injection hexec
  have hsource := congrArg (List.map Prod.fst) hposts
  rw [show List.map Prod.fst (posts _) = _ from htile, hindex, show homeOf strayState.env 33 = 0 from hzero] at hsource
  exact absurd (show [Port.tile 1] = [Port.tile 0] from hsource) (by decide)

/-! ### The same lock under a seal -/

/-- The LOCK_REL that awaits its seal. -/
def strayEntry : JEntry := newEntry 3 .lockRel strayReq 0 false .sealing

def straySealed : Dp := { strayDp with joints := [(0, { Joint.init with cache := [(33, 1)], entries := [strayEntry], seals := [(0, 0)] })] }

theorem stray_sealing :
    Sealing strayEnv straySealed 0 0 strayEntry 0 ∧ Homed strayEnv straySealed strayEntry.req.handle strayBrick
      ∧ Near strayEnv straySealed 0 strayEntry.req.handle ∧ Allowed strayEnv straySealed 0 0 strayBrick := by
  decide +kernel

/-- The lock is held as before. -/
theorem stray_held : brickOf (sealAcked strayEnv straySealed 0 0) 33 = strayBrick := by
  decide +kernel

/-- Refutes O11: the acknowledged LOCK_REL goes to the unavailable tile of a stripe, and the lock is not released. -/
theorem not_sealAckRunsHome : ¬ Obligations.SealAckRunsHome := by
  unfold Obligations.SealAckRunsHome
  intro h
  obtain ⟨hsealing, hhome, hnear, hallow⟩ := stray_sealing
  obtain ⟨hindex, -⟩ := stray_home
  obtain ⟨hrel, -⟩ := h { strayState with dp := straySealed } 0 0 strayEntry 0 strayBrick hsealing hhome hnear (by decide) hallow
  obtain ⟨t, hexec, -, hreleased, -⟩ := hrel strayLock rfl rfl
  obtain rfl : { strayState with dp := sealAcked strayEnv straySealed 0 0 } = t := by
    injection hexec
  rw [show hIndex strayEntry.req.handle = 33 from hindex, stray_held] at hreleased
  exact absurd hreleased (by decide)

end Sys2Proof.Machine
end

section
/-! O15: releases, the end of a barrier's waits, and watchers' copies at a joint. -/

namespace Sys2Proof.Machine

open Sys2Proof.Safety

variable {e : Env} {d d2 d3 : Dp} {j n : Nat} {x y : JEntry} {b o nw : Bed} {r : Rel} {h : Dword} {ob : Option Bed}

/-! ### Waits that end at a joint -/

/-- R101, R109, R230. What ending or forwarding waits of joint j leaves: brick records and beds; no entry comes. -/
structure Settling (j : Nat) (d d2 : Dp) : Prop where
  bricks : d2.bricks = d.bricks
  beds : (jointOf d2 j).beds = (jointOf d j).beds
  thins : Thins j d d2

theorem Settling.refl : Settling j d d := ⟨rfl, rfl, Thins.refl⟩

theorem Settling.trans (h : Settling j d d2) (g : Settling j d2 d3) : Settling j d d3 :=
  ⟨g.bricks.trans h.bricks, g.beds.trans h.beds, h.thins.trans g.thins⟩

theorem Settling.foldl {β : Type} {f : Dp → β → Dp} (h : ∀ d x, Settling j d (f d x)) (l : List β) (d : Dp) : Settling j d (l.foldl f d) :=
  List.foldlRecOn l f Settling.refl (fun d2 h2 x _ => h2.trans (h d2 x))

theorem Settling.bedFor (hs : Settling j d d2) (h : Dword) : bedFor d2 j h = bedFor d j h := by simp [Machine.bedFor, hs.beds]

theorem Settling.newBedFor (hs : Settling j d d2) (h : Dword) (made : Nat) : newBedFor d2 j h made = newBedFor d j h made := by
  simp [Machine.newBedFor, hs.beds]

theorem settling_answer (id : Nat) (q : Resp) : Settling j d (answer e d j id q) :=
  ⟨(answering_answer id q).bricks, (answering_answer id q).beds, thins_answer id q⟩

theorem settling_answerMany {l : List JEntry} (f : JEntry → Resp) : Settling j d (answerMany e d j l f) :=
  ⟨(answering_answerMany f).bricks, (answering_answerMany f).beds, thins_answerMany f⟩

theorem settling_count (hc : CountFrame d d2) : Settling j d d2 :=
  ⟨(answering_count (j := j) hc).bricks, (answering_count hc).beds, by obtain ⟨m, rfl⟩ := hc; exact thins_of_entries rfl⟩

theorem settling_modEntry (id : Nat) (f : JEntry → JEntry) (hf : ∀ y, (f y).id = y.id) : Settling j d (modEntry d j id f) :=
  ⟨rfl, by simp, thins_modEntry id f hf⟩

theorem settling_setJoint {z : Joint} (hbeds : z.beds = (jointOf d j).beds := by rfl) (hentries : z.entries = (jointOf d j).entries := by rfl) :
    Settling j d (setJoint d j z) :=
  ⟨rfl, by simpa using hbeds, thins_of_entries (by simpa using hentries)⟩

theorem settling_send (a c : Port) (vc : VC) (p : BitVec 4) (z : HodBody) : Settling j d (send e d a c vc p z) :=
  ⟨send_bricks .., by simp [jointOf], thins_of_entries (by simp [jointOf])⟩

theorem settling_forwardWait (x : JEntry) : Settling j d (forwardWait e d j x) := by
  unfold forwardWait
  extract_lets h t
  split
  · exact settling_modEntry _ _ fun _ => rfl
  · have hadded : Settling j d (addForwarded d j h x.id) := settling_setJoint
    refine Settling.trans ?_ (settling_send ..)
    exact hadded.trans (settling_modEntry _ _ fun _ => rfl)

theorem settling_discardArrivals (k : Nat) : Settling j d (discardArrivals e d j k) := settling_count (bumpK_frame e d 2 j 3 k)

theorem settling_unwatch (i : Nat) : Settling j d (unwatch e d j h i) := by
  have hdropped : Settling j d (dropForwarded d j h) := settling_setJoint
  exact hdropped.trans (settling_send ..)

/-- R498. The waits of a removed bed are answered or go on from a joint without one. -/
theorem settling_settleBed (b : Bed) : Settling j d (settleBed e d j b) := by
  refine (settling_answerMany _).trans (Settling.foldl (fun d2 x => ?_) _ _)
  refine Settling.trans ?_ (settling_forwardWait x)
  exact settling_modEntry _ _ fun _ => rfl

/-! ### Waits that a release completes (R101, R121) -/

theorem answerFrame_countLate (p : BitVec 4) : AnswerFrame d (countLate e d j p) := by
  obtain ⟨m, hm⟩ := bumpP_frame e (bumpK e d 2 j 2 1) p 12 1
  rw [countLate, hm]
  exact (AnswerFrame.bumpK e d 2 j 2 1).trans ⟨_, _, _, rfl⟩

theorem settling_countLate (p : BitVec 4) : Settling j d (countLate e d j p) := by
  obtain ⟨m, hm⟩ := bumpP_frame e (bumpK e d 2 j 2 1) p 12 1
  rw [countLate, hm]
  exact (settling_count (bumpK_frame e d 2 j 2 1)).trans ⟨rfl, rfl, thins_of_entries rfl⟩

theorem completeOne_now (hinstant : r.instant = none) : completeOne e j r ob d x = answer e d j x.id (r.resp x) := by
  simp [completeOne, Rel.instantOf, hinstant]

theorem completeOne_frame : Settling j d (completeOne e j r ob d x) ∧ AnswerFrame d (completeOne e j r ob d x) := by
  unfold completeOne
  extract_lets wave
  split
  · exact ⟨settling_answer _ _, AnswerFrame.answer ..⟩
  · split
    · split
      · exact ⟨settling_answer _ _, AnswerFrame.answer ..⟩
      · exact ⟨(settling_countLate _).trans (settling_answer _ _), (answerFrame_countLate _).trans (AnswerFrame.answer ..)⟩
    · exact ⟨settling_setJoint, AnswerFrame.setJoint ..⟩

/-- What a release does to one wait that it completes, or whose bed it removes. -/
def releaseOne (e : Env) (j : Nat) (r : Rel) (o : Bed) (nw : Option Bed) (d : Dp) (x : JEntry) : Dp :=
  if completed r.course x.target then completeOne e j r (some o) d x
  else match r.removes o nw x with | some y => answer e d j x.id y | none => d

theorem releaseWaits_eq (l : List JEntry) :
    releaseWaits e d j r o l
      = (bySlot (l.filter (fun x => completed r.course x.target || (r.removes o (r.next d j) x).isSome))).foldl (releaseOne e j r o (r.next d j)) d := rfl

theorem releaseOne_frame (ob : Option Bed) (d : Dp) (x : JEntry) :
    Settling j d (releaseOne e j r o ob d x) ∧ AnswerFrame d (releaseOne e j r o ob d x) := by
  unfold releaseOne
  split
  · exact completeOne_frame
  · split
    · exact ⟨settling_answer _ _, AnswerFrame.answer ..⟩
    · exact ⟨Settling.refl, AnswerFrame.refl _⟩

theorem releaseWaits_frame (l : List JEntry) : Settling j d (releaseWaits e d j r o l) ∧ AnswerFrame d (releaseWaits e d j r o l) := by
  rw [releaseWaits_eq]
  exact ⟨Settling.foldl (fun d2 x => (releaseOne_frame _ d2 x).1) _ _, AnswerFrame.foldl (fun d2 x => (releaseOne_frame (j := j) _ d2 x).2) _ _⟩

/-- R101. Without an instant, the waits that a release completes leave the joint. -/
theorem gone_releaseWaits {l : List JEntry} (hinstant : r.instant = none) (hx : x ∈ l) (hdone : completed r.course x.target = true) :
    entryOf (releaseWaits e d j r o l) j x.id = none := by
  rw [releaseWaits_eq]
  refine gone_foldl (fun d2 y => (releaseOne_frame _ d2 y).1.thins) (fun d2 y hy => ?_) d x (mem_bySlot.2 (List.mem_filter.2 ⟨hx, by rw [hdone, Bool.true_or]⟩))
  have hends := (List.mem_filter.1 (mem_bySlot.1 hy)).2
  unfold releaseOne
  split
  · rw [completeOne_now hinstant]
    exact entryOf_answer_self _ _
  · next hnot =>
    rw [Bool.eq_false_iff.2 hnot, Bool.false_or] at hends
    split
    · exact entryOf_answer_self _ _
    · next hnone => simp [hnone] at hends

/-! ### The course that opens (R98, R101) -/

/-- R98. Sending arrival hods leaves the joint as it is. -/
theorem sends_frame (dst : Port) (p : BitVec 4) (l : List Arrival) (d : Dp) :
    (l.foldl (fun d a => send e d (.joint j) dst .req p (.arrival a)) d).joints = d.joints
      ∧ (l.foldl (fun d a => send e d (.joint j) dst .req p (.arrival a)) d).bricks = d.bricks
      ∧ posts (l.foldl (fun d a => send e d (.joint j) dst .req p (.arrival a)) d).net
        = posts d.net ++ l.map (fun a => (.joint j, dst, .req, .arrival a)) := by
  induction l generalizing d with
  | nil => simp
  | cons a l ih =>
    obtain ⟨hjoints, hbricks, hposts⟩ := ih (send e d (.joint j) dst .req p (.arrival a))
    refine ⟨hjoints.trans (send_joints ..), hbricks.trans (send_bricks ..), ?_⟩
    rw [List.foldl_cons, hposts, posts_send]
    simp

/-- R98. The slot, e, a and b of the members: what sending does not touch. -/
def Bed.counts (b : Bed) : List (Nat × Nat × Nat × Nat) := b.members.map (fun m => (m.slot, m.e, m.a, m.b))

/-- R98, R101. At handle h stands a bed with b's course, its result and counts. -/
structure Stands (d : Dp) (j : Nat) (h : Dword) (b : Bed) (b2 : Bed) : Prop where
  bed : bedFor d j h = some b2
  course : b2.course = b.course
  status : b2.status = b.status
  gflags : b2.gflags = b.gflags
  result : b2.result = b.result
  counts : b2.counts = b.counts

/-- Members of whom only f changes have the same counts. -/
theorem counts_map {g : BedMember → BedMember} (hg : ∀ m, (g m).slot = m.slot ∧ (g m).e = m.e ∧ (g m).a = m.a ∧ (g m).b = m.b) :
    ({ b with members := b.members.map g } : Bed).counts = b.counts := by
  simp only [Bed.counts, List.map_map]
  refine List.map_congr_left fun m _ => ?_
  obtain ⟨h1, h2, h3, h4⟩ := hg m
  simp [h1, h2, h3, h4]

/-- What a complete bed's hod leaves of its joint: nothing, or the bed as sent. -/
theorem sendComplete_stands (hbed : bedFor d j h = some b) :
    (sendComplete e d j h).bricks = d.bricks ∧ Thins j d (sendComplete e d j h) ∧ ∃ b2, Stands (sendComplete e d j h) j h b b2 := by
  have hforce : b.waiting = false ∧ b.handle = h := found_of_bedFor hbed
  simp only [sendComplete, hbed]
  split
  · exact ⟨rfl, Thins.refl, b, hbed, rfl, rfl, rfl, rfl, rfl⟩
  · refine ⟨send_bricks .., ?_, b.sent, ?_, rfl, rfl, rfl, rfl, counts_map fun _ => ⟨rfl, rfl, rfl, rfl⟩⟩
    · exact Thins.trans (thins_of_entries (by simp)) (settling_send ..).thins
    · rw [bedFor_send]
      exact bedFor_modBed hbed hforce

/-- R186. The bed under the configuration that the release brings. -/
def Bed.newCfg (b : Bed) (r : Rel) : Bed := match r.cfg with | some c => { b with cfg := c, cfgWaits := false } | none => b

/-- R98, R101. The bed of the course that opens, once its held arrivals have gone. -/
def Bed.opened (b : Bed) (r : Rel) : Bed :=
  { b.newCfg r with members := (b.newCfg r).members.map (fun m => { m with f := if (b.newCfg r).cfg.isSome then m.a else 0 }), heldPay := [] }

/-- R98, R101. The arrivals of the course that opens which the joint held. -/
def Bed.heldFor (b : Bed) (j : Nat) (r : Rel) : List Arrival :=
  b.heldPay.map Prod.fst ++ (match b.cfg, (b.newCfg r).cfg with | none, some c => plainHeld (b.newCfg r) j c | _, _ => [])

/-- R98, R101. The joint once they have gone. -/
def heldSent (e : Env) (d : Dp) (j : Nat) (h : Dword) (b : Bed) (r : Rel) : Dp :=
  (b.heldFor j r).foldl (fun d a => send e d (.joint j) ((b.newCfg r).dest e) .req b.part (.arrival a)) (modBed d j h (fun _ => b.opened r))

theorem openCourse_eq (hbed : bedFor d j h = some b) : openCourse e d j h r = sendComplete e (heldSent e d j h b r) j h := by
  simp only [openCourse, hbed]
  rfl

theorem opened_kept (b : Bed) (r : Rel) :
    (b.opened r).waiting = b.waiting ∧ (b.opened r).handle = b.handle ∧ (b.opened r).course = b.course ∧ (b.opened r).status = b.status
      ∧ (b.opened r).gflags = b.gflags ∧ (b.opened r).result = b.result ∧ (b.opened r).counts = b.counts := by
  unfold Bed.opened Bed.newCfg
  split
  · exact ⟨rfl, rfl, rfl, rfl, rfl, rfl, counts_map fun _ => ⟨rfl, rfl, rfl, rfl⟩⟩
  · exact ⟨rfl, rfl, rfl, rfl, rfl, rfl, counts_map fun _ => ⟨rfl, rfl, rfl, rfl⟩⟩

theorem bedFor_of_joints (hjoints : d2.joints = d.joints) (h : Dword) : bedFor d2 j h = bedFor d j h := by
  rw [bedFor, jointOf, hjoints]
  rfl

theorem bedFor_heldSent (hbed : bedFor d j h = some b) : bedFor (heldSent e d j h b r) j h = some (b.opened r) := by
  obtain ⟨hforce, hhandle⟩ := found_of_bedFor hbed
  obtain ⟨hwaiting, hhandle2, -⟩ := opened_kept b r
  rw [heldSent, bedFor_of_joints (sends_frame ..).1]
  exact bedFor_modBed (f := fun _ => b.opened r) hbed ⟨hwaiting.trans hforce, hhandle2.trans hhandle⟩

/-- R98, R101. The course opens: the bed stands as it was but for what it has sent. -/
theorem openCourse_stands (hbed : bedFor d j h = some b) :
    (openCourse e d j h r).bricks = d.bricks ∧ Thins j d (openCourse e d j h r) ∧ ∃ b2, Stands (openCourse e d j h r) j h b b2 := by
  obtain ⟨-, -, hcourse, hstatus, hgflags, hresult, hcounts⟩ := opened_kept b r
  obtain ⟨hjoints, hbricks, -⟩ := sends_frame (e := e) (j := j) ((b.newCfg r).dest e) b.part (b.heldFor j r) (modBed d j h (fun _ => b.opened r))
  rw [openCourse_eq hbed]
  obtain ⟨hb, ht, b2, hstands⟩ := sendComplete_stands (e := e) (bedFor_heldSent (e := e) (r := r) hbed)
  refine ⟨hb.trans hbricks, Thins.trans (thins_of_entries ?_) ht, b2, hstands.bed, hstands.course.trans hcourse, hstands.status.trans hstatus,
    hstands.gflags.trans hgflags, hstands.result.trans hresult, hstands.counts.trans hcounts⟩
  rw [heldSent, jointOf, hjoints, ← jointOf, jointOf_modBed]

section
variable (hcfg : r.cfg = none) (hbed : bedFor d j h = some b)
include hcfg

theorem newCfg_none : b.newCfg r = b := by simp [Bed.newCfg, hcfg]

include hbed

/-- R98, R101. Under the grout that stays, the held contributions go, each as its hod. -/
theorem posts_openCourse_grout {c : GCfg} (hgrout : b.cfg = some c) :
    posts (openCourse e d j h r).net = posts d.net ++ b.heldPay.map (fun p => (.joint j, b.dest e, .req, .arrival p.1)) := by
  have hopened : (b.opened r).cfg.isSome = true := by simp [Bed.opened, newCfg_none hcfg, hgrout]
  obtain ⟨-, -, hposts⟩ := sends_frame (e := e) (j := j) ((b.newCfg r).dest e) b.part (b.heldFor j r) (modBed d j h (fun _ => b.opened r))
  rw [openCourse_eq hbed, sendComplete_waits (bedFor_heldSent hbed) (.inr (.inr hopened)), heldSent, hposts, newCfg_none hcfg, modBed_net]
  simp [Bed.heldFor, hgrout]

section
variable (hplain : b.cfg = none) (hheld : b.heldPay = [])
include hplain hheld

omit hbed in
/-- Without grout the joint has held nothing back. -/
theorem net_heldSent : (heldSent e d j h b r).net = d.net := by
  simp [heldSent, Bed.heldFor, newCfg_none hcfg, hplain, hheld]

omit hbed hheld in
theorem full_opened : (b.opened r).full = b.full := by
  simp [Bed.full, Bed.opened, newCfg_none hcfg, hplain, Function.comp_def]

omit hbed hheld in
theorem owed_opened : (b.opened r).owed = (b.members.map (fun m => m.e)).sum := by
  simp [Bed.owed, Bed.opened, newCfg_none hcfg, hplain, Function.comp_def]

/-- R98, R101. A bed that the next-course arrivals have made complete sends its hod at once. -/
theorem posts_openCourse_full {a : Arrival} (hfull : b.full = true) (howed : (b.members.map (fun m => m.e)).sum ≠ 0) (harmed : b.armed = true)
    (hpoison : b.poisoned = none) (hlast : b.last = some a) :
    posts (openCourse e d j h r).net
      = posts d.net ++ [(.joint j, b.up, .req, .arrival { a with course := b.course + 1, count := (b.members.map (fun m => m.e)).sum })] := by
  have hcfg2 : (b.opened r).cfg = none := by simp [Bed.opened, newCfg_none hcfg, hplain]
  have harmed2 : (b.opened r).armed = true := by simp [Bed.opened, newCfg_none hcfg, harmed]
  have hpoison2 : (b.opened r).poisoned = none := by simp [Bed.opened, newCfg_none hcfg, hpoison]
  have hlast2 : (b.opened r).last = some a := by simp [Bed.opened, newCfg_none hcfg, hlast]
  have hup : (b.opened r).up = b.up := by simp [Bed.opened, newCfg_none hcfg]
  obtain ⟨-, -, hcourse, -⟩ := opened_kept b r
  rw [← full_opened hcfg hplain] at hfull
  rw [← owed_opened hcfg hplain] at howed ⊢
  rw [openCourse_eq hbed, sendComplete_sends (bedFor_heldSent hbed) hcfg2 harmed2 hpoison2 hfull howed hlast2, posts_send, modBed_net,
    net_heldSent hcfg hplain hheld, hup, hcourse]

theorem net_openCourse_waits (hfull : b.full = false) : (openCourse e d j h r).net = d.net := by
  rw [← full_opened hcfg hplain] at hfull
  rw [openCourse_eq hbed, sendComplete_waits (bedFor_heldSent hbed) (.inl hfull), net_heldSent hcfg hplain hheld]

end

end

/-! ### A release that takes the bed away (R92, R498) -/

theorem bedFor_dropBed (d : Dp) (j : Nat) (h : Dword) : bedFor (dropBed d j h false) j h = none := by
  rw [bedFor, dropBed, jointOf_setJoint, List.find?_eq_none]
  intro b hb
  have hkept := (List.mem_filter.1 hb).2
  cases hw : b.waiting <;> simp_all

theorem bedFor_dropNewBed {k : Dword} {made : Nat} (hnone : bedFor d j h = none) : bedFor (dropNewBed d j k made) j h = none := by
  rw [bedFor, List.find?_eq_none] at hnone ⊢
  intro b hb
  simp only [dropNewBed, jointOf_setJoint] at hb
  exact hnone b (List.mem_of_mem_filter hb)

/-- A bed put in force behind the others, where its handle has none. -/
theorem bedFor_setJoint_append (hnone : bedFor d j h = none) (hforce : b.waiting = false) (hhandle : b.handle = h) :
    bedFor (setJoint d j { jointOf d j with beds := (jointOf d j).beds ++ [b] }) j h = some b := by
  have hnone : (jointOf d j).beds.find? (fun b => !b.waiting && b.handle == h) = none := hnone
  rw [bedFor, jointOf_setJoint, List.find?_append, hnone]
  simp [hforce, hhandle]

theorem carryOver_slots (o n : Bed) : (carryOver o n).1.map (fun m => (m.slot, m.e)) = n.members.map (fun m => (m.slot, m.e)) := by
  simp only [carryOver, List.map_map]
  refine List.map_congr_left fun m _ => ?_
  simp only [Function.comp_apply]
  split
  · rfl
  · split
    · rfl
    · split <;> rfl

section
variable (hremove : r.removeBed = true) (hold : bedFor d j r.handle = some o)
include hremove hold

/-- R498. Without a new bed the joint has none. -/
theorem switchBed_drops : (switchBed e d j r (some o) none).bricks = d.bricks ∧ bedFor (switchBed e d j r (some o) none) j r.handle = none := by
  obtain ⟨-, hhandle⟩ := found_of_bedFor hold
  have hdropped : Settling j (dropBed (discardArrivals e d j ((o.members.map BedMember.b).sum)) j o.handle false)
      (switchBed e d j r (some o) none) := by
    simp only [switchBed, hremove, Bool.not_true, Bool.false_eq_true, if_false]
    exact settling_settleBed _
  refine ⟨hdropped.bricks.trans (settling_discardArrivals (e := e) (d := d) (j := j) _).bricks, ?_⟩
  rw [hdropped.bedFor, ← hhandle]
  exact bedFor_dropBed ..

omit hremove in
/-- R92. The bed that waited for the boundary comes into force, at the course of the release, with its members. -/
theorem switchBed_replaces (hnew : newBedFor d j r.handle r.bond = some nw) :
    (switchBed e d j r (some o) (some nw)).bricks = d.bricks
      ∧ ∃ b, bedFor (switchBed e d j r (some o) (some nw)) j r.handle = some b ∧ b.course = r.course
        ∧ b.members.map (fun m => (m.slot, m.e)) = nw.members.map (fun m => (m.slot, m.e)) := by
  obtain ⟨-, hhandle⟩ := found_of_bedFor hold
  have hnewHandle : nw.handle = r.handle := by
    have hfound := List.find?_some hnew
    simp only [Bool.and_eq_true, beq_iff_eq] at hfound
    exact hfound.1.2
  refine ⟨?_, _, bedFor_setJoint_append (bedFor_dropNewBed ?_) rfl hnewHandle, rfl, carryOver_slots o nw⟩
  · have hdiscards := settling_discardArrivals (e := e) (d := d) (j := j)
    exact ((settling_answerMany _).trans (settling_answerMany _)).bricks.trans (hdiscards _).bricks
  · rw [← hhandle]
    exact bedFor_dropBed ..

end

/-! ### Releases (R101) -/

/-- R101. The bed at the course that a release opens: the next-course counts are its counts. -/
def Bed.advance (b : Bed) (r : Rel) : Bed :=
  { b with course := r.course, status := r.status, gflags := r.gflags, result := r.beats, last := b.nextLast
           nextLast := none, members := b.members.map (fun m => { m with a := m.b, b := 0 }) }

section
variable (hok : r.status = .ok ∨ r.status = .okShrunk) (hold : bedFor d j r.handle = some o)
include hok hold

theorem applyRelease_ok :
    applyRelease e d j r = applyCourse e (releaseWaits e d j r o (pendingWaits d j r.handle)) j r (some o) := by
  have hcond : (decide (r.status = .ok) || decide (r.status = .okShrunk)) = true := by simpa using hok
  simp only [applyRelease, hcond, hold, if_true]

/-- R101. A release of another course leaves the bed. -/
theorem applyRelease_other (hcourse : r.course ≠ o.course + 1) :
    applyRelease e d j r = releaseWaits e d j r o (pendingWaits d j r.handle) := by
  have hdue : r.due (some o) = false := by simpa [Rel.due] using hcourse
  rw [applyRelease_ok hok hold]
  simp only [applyCourse, hdue, Bool.not_false, if_true]

section
variable (hcourse : r.course = o.course + 1)
include hcourse

theorem applyRelease_keeps (hremove : r.removeBed = false) :
    applyRelease e d j r
      = openCourse e (modBed (releaseWaits e d j r o (pendingWaits d j r.handle)) j r.handle (fun b => b.advance r)) j r.handle r := by
  have hdue : r.due (some o) = true := by simpa [Rel.due] using hcourse
  rw [applyRelease_ok hok hold]
  simp only [applyCourse, hdue, hremove, Bool.not_true, Bool.false_eq_true, if_false]
  rfl

theorem applyRelease_removes (hremove : r.removeBed = true) :
    applyRelease e d j r
      = openCourse e (switchBed e (releaseWaits e d j r o (pendingWaits d j r.handle)) j r (some o) (newBedFor d j r.handle r.bond)) j r.handle r := by
  have hdue : r.due (some o) = true := by simpa [Rel.due] using hcourse
  rw [applyRelease_ok hok hold, ← (releaseWaits_frame (e := e) (r := r) (o := o) (pendingWaits d j r.handle)).1.newBedFor]
  simp only [applyCourse, hdue, Rel.next, hremove, Bool.not_true, Bool.false_eq_true, if_false, if_true]

end

end

/-- R103, R118. The end of a barrier's waits with another status. -/
theorem applyRelease_ends (hnok : r.status ≠ .ok) (hnshrunk : r.status ≠ .okShrunk) (hremove : r.removeBed = false) :
    applyRelease e d j r
      = answerMany e (if (bedFor d j r.handle).any r.marks then modBed d j r.handle (fun b => b.poison r.value) else d) j
          ((pendingWaits d j r.handle).filter (r.endsAt (bedFor d j r.handle))) r.resp := by
  simp only [applyRelease, hnok, hnshrunk, hremove, decide_false, Bool.or_self, Bool.false_eq_true, if_false]

/-- R101. A joint with room takes the release. -/
theorem exec_releaseCopy {s : State} {g : Hod} (htakes : JointTakes s.env s.dp n j g) (hbody : g.body = .release r) :
    exec (.releaseCopy n) s = .next { s with dp := applyRelease s.env (dropHod s.dp n) j r } := by
  obtain ⟨htake, hdst, hroom⟩ := htakes
  show Host.Outcome.next { s with dp := releaseAtJoint s.env s.dp n } = _
  simp only [releaseAtJoint, htake, hdst, hbody, hroom, if_true]

/-- R110. A joint with room takes the watcher's copy. -/
theorem exec_watcherCopy {s : State} {g : Hod} (htakes : JointTakes s.env s.dp n j g) (hbody : g.body = .watcher r) :
    exec (.watcherCopy n) s = .next { s with dp := applyWatcher s.env (dropHod s.dp n) j r } := by
  obtain ⟨htake, hdst, hroom⟩ := htakes
  show Host.Outcome.next { s with dp := watcherAtJoint s.env s.dp n } = _
  simp only [watcherAtJoint, htake, hdst, hbody, hroom, if_true]

/-! ### Watchers' copies (R110) -/

/-- R110. What follows once a watcher's copy has ended its waits. -/
def afterWatch (e : Env) (d : Dp) (j : Nat) (r : Rel) : Dp :=
  let left := watchedWaits d j r.handle
  if !forwarded d j r.handle then d
  else if left.isEmpty then unwatch e d j r.handle r.index
  else if r.status = .poisoned then left.foldl (fun d x => forwardWait e d j x) (unwatch e d j r.handle r.index)
  else d

theorem settling_afterWatch : Settling j d (afterWatch e d j r) := by
  unfold afterWatch
  extract_lets left
  split
  · exact Settling.refl
  · split
    · exact settling_unwatch _
    · split
      · exact (settling_unwatch _).trans (Settling.foldl (fun _ x => settling_forwardWait x) _ _)
      · exact Settling.refl

theorem applyWatcher_ends (hnok : r.status ≠ .ok) (hnshrunk : r.status ≠ .okShrunk) :
    applyWatcher e d j r = afterWatch e (answerMany e d j ((watchedWaits d j r.handle).filter (r.endsAt none)) r.resp) j r := by
  simp only [applyWatcher, hnok, hnshrunk, decide_false, Bool.or_self, Bool.not_false, if_true]
  rfl

theorem applyWatcher_completes (hok : r.status = .ok ∨ r.status = .okShrunk) :
    applyWatcher e d j r
      = afterWatch e (completeWaits e d j { r with stagger := 0 } none ((watchedWaits d j r.handle).filter (fun x => completed r.course x.target))) j r := by
  have hcond : (decide (r.status = .ok) || decide (r.status = .okShrunk)) = true := by simpa using hok
  simp only [applyWatcher, hcond, Bool.not_true, Bool.false_eq_true, if_false]
  rfl

theorem settling_completeWaits (l : List JEntry) : Settling j d (completeWaits e d j r ob l) :=
  Settling.foldl (fun _ _ => completeOne_frame.1) _ _

/-- R110, R121. Without an instant, every wait that a watcher's copy completes leaves the joint. -/
theorem gone_completeWaits {l : List JEntry} (hinstant : r.instant = none) (hx : x ∈ l) : entryOf (completeWaits e d j r ob l) j x.id = none := by
  refine gone_foldl (fun d2 y => completeOne_frame.1.thins) (fun d2 y _ => ?_) d x (mem_bySlot.2 hx)
  rw [completeOne_now hinstant]
  exact entryOf_answer_self _ _

theorem counts_advance : (b.advance r).counts = b.members.map (fun m => (m.slot, m.e, m.b, 0)) := by
  simp [Bed.counts, Bed.advance, Function.comp_def]

/-! ### What each hod leaves -/

section
variable (hbed : bedFor d j r.handle = some b)
include hbed

section
variable (hok : r.status = .ok ∨ r.status = .okShrunk) (hcourse : r.course = b.course + 1)
include hok hcourse

section
variable (hremove : r.removeBed = false)
include hremove

/-- R101. The joint with the bed at the course that opens, before its arrivals go. -/
theorem release_advances :
    ∃ d2, applyRelease e d j r = openCourse e d2 j r.handle r ∧ bedFor d2 j r.handle = some (b.advance r) ∧ d2.bricks = d.bricks ∧ d2.net = d.net
      ∧ (r.instant = none → ∀ y ∈ pendingWaits d j r.handle, completed r.course y.target = true → entryOf d2 j y.id = none) := by
  obtain ⟨hkept, hframe⟩ := releaseWaits_frame (e := e) (d := d) (j := j) (r := r) (o := b) (pendingWaits d j r.handle)
  obtain ⟨hforce, hhandle⟩ := found_of_bedFor hbed
  refine ⟨_, applyRelease_keeps hok hbed hcourse hremove, bedFor_modBed ((hkept.bedFor _).trans hbed) ⟨hforce, hhandle⟩, hkept.bricks, ?_, fun hinstant y hy hdone => ?_⟩
  · obtain ⟨_, _, _, hjoint⟩ := hframe
    rw [modBed_net, hjoint]
  · rw [modBed_entryOf]
    exact gone_releaseWaits hinstant hy hdone

/-- R98, R101, R121. A release that keeps the bed. -/
theorem release_keeps :
    ∃ b2, (applyRelease e d j r).bricks = d.bricks ∧ Stands (applyRelease e d j r) j r.handle (b.advance r) b2
      ∧ (r.instant = none → ∀ y ∈ pendingWaits d j r.handle, completed r.course y.target = true → entryOf (applyRelease e d j r) j y.id = none) := by
  obtain ⟨d2, heq, hadvanced, hbricks, -, hgone⟩ := release_advances (e := e) hbed hok hcourse hremove
  obtain ⟨hbricks2, hthins, b2, hstands⟩ := openCourse_stands (e := e) (r := r) hadvanced
  rw [heq]
  exact ⟨b2, hbricks2.trans hbricks, hstands, fun hinstant y hy hdone => hthins _ (hgone hinstant y hy hdone)⟩

/-- R98, R101. What the release sends where it brings no configuration. -/
theorem posts_release (hcfg : r.cfg = none) :
    (∀ c, b.cfg = some c → posts (applyRelease e d j r).net = posts d.net ++ b.heldPay.map (fun p => (.joint j, b.dest e, .req, .arrival p.1)))
      ∧ (b.cfg = none → b.heldPay = [] →
          (∀ a, b.members.all (fun m => m.b == m.e) = true → (b.members.map (fun m => m.e)).sum ≠ 0 → b.armed = true → b.poisoned = none → b.nextLast = some a →
            posts (applyRelease e d j r).net
              = posts d.net ++ [(.joint j, b.up, .req, .arrival { a with course := r.course + 1, count := (b.members.map (fun m => m.e)).sum })])
          ∧ (b.members.all (fun m => m.b == m.e) = false → (applyRelease e d j r).net = d.net)) := by
  obtain ⟨d2, heq, hadvanced, -, hnet, -⟩ := release_advances (e := e) hbed hok hcourse hremove
  have hfullIs : (b.advance r).full = b.members.all (fun m => m.b == m.e) := by simp [Bed.full, Bed.advance, Function.comp_def]
  have hsumIs : (b.advance r).members.map (fun m => m.e) = b.members.map (fun m => m.e) := by simp [Bed.advance, Function.comp_def]
  rw [heq, ← hnet]
  refine ⟨fun c hgrout => posts_openCourse_grout (b := b.advance r) hcfg hadvanced hgrout, fun hplain hheld => ⟨fun a hfull howed harmed hpoison hlast => ?_, fun hfull => ?_⟩⟩
  · rw [← hsumIs] at howed ⊢
    exact posts_openCourse_full (b := b.advance r) hcfg hadvanced hplain hheld (hfullIs.trans hfull) howed harmed hpoison hlast
  · exact net_openCourse_waits (b := b.advance r) hcfg hadvanced hplain hheld (hfullIs.trans hfull)

end

/-- R92, R498. A release that takes the bed away. -/
theorem release_removes (hremove : r.removeBed = true) :
    (applyRelease e d j r).bricks = d.bricks
      ∧ (newBedFor d j r.handle r.bond = none → bedFor (applyRelease e d j r) j r.handle = none)
      ∧ ∀ nb, newBedFor d j r.handle r.bond = some nb → ∃ b2, bedFor (applyRelease e d j r) j r.handle = some b2 ∧ b2.course = r.course
          ∧ b2.members.map (fun m => (m.slot, m.e)) = nb.members.map (fun m => (m.slot, m.e)) := by
  obtain ⟨hkept, -⟩ := releaseWaits_frame (e := e) (d := d) (j := j) (r := r) (o := b) (pendingWaits d j r.handle)
  have hold := (hkept.bedFor r.handle).trans hbed
  rw [applyRelease_removes hok hbed hcourse hremove]
  cases hnew : newBedFor d j r.handle r.bond with
  | none =>
    obtain ⟨hbricks, hnone⟩ := switchBed_drops (e := e) hremove hold
    have hopens : ∀ d2, bedFor d2 j r.handle = none → openCourse e d2 j r.handle r = d2 := fun d2 h2 => by simp [openCourse, h2]
    rw [hopens _ hnone]
    exact ⟨hbricks.trans hkept.bricks, fun _ => hnone, fun nb hnb => absurd hnb.symm (Option.some_ne_none nb)⟩
  | some nb =>
    obtain ⟨hbricks, b1, hb1, hcourse1, hmembers⟩ := switchBed_replaces (e := e) hold ((hkept.newBedFor _ _).trans hnew)
    obtain ⟨hbricks2, -, b2, hstands⟩ := openCourse_stands (e := e) (r := r) hb1
    refine ⟨hbricks2.trans (hbricks.trans hkept.bricks), fun hnone => absurd hnone (Option.some_ne_none nb), fun nb2 hnb => ?_⟩
    obtain rfl : nb = nb2 := Option.some.inj hnb
    have hslots := congrArg (List.map (fun c : Nat × Nat × Nat × Nat => (c.1, c.2.1))) hstands.counts
    simp only [Bed.counts, List.map_map] at hslots
    exact ⟨b2, hstands.bed, hstands.course.trans hcourse1, Eq.trans hslots hmembers⟩

end

/-- R103, R118. The end of a barrier's waits with another status. -/
theorem release_ends (hnok : r.status ≠ .ok) (hnshrunk : r.status ≠ .okShrunk) (hremove : r.removeBed = false) :
    ∃ b2, (applyRelease e d j r).bricks = d.bricks ∧ bedFor (applyRelease e d j r) j r.handle = some b2 ∧ b2.course = b.course
      ∧ (r.marks b = true → b2.poisoned = some r.value)
      ∧ ∀ y ∈ pendingWaits d j r.handle, r.endsAt (some b) y = true → entryOf (applyRelease e d j r) j y.id = none := by
  obtain ⟨hforce, hhandle⟩ := found_of_bedFor hbed
  rw [applyRelease_ends hnok hnshrunk hremove, hbed, Option.any_some]
  have hanswers := fun d2 => settling_answerMany (e := e) (d := d2) (j := j) (l := (pendingWaits d j r.handle).filter (r.endsAt (some b))) r.resp
  have hgone := fun d2 y hy hends => gone_answerMany (e := e) (d := d2) (j := j) (x := y) (l := (pendingWaits d j r.handle).filter (r.endsAt (some b))) r.resp
    (List.mem_filter.2 ⟨hy, hends⟩)
  cases hmarks : r.marks b with
  | true =>
    rw [if_pos rfl]
    exact ⟨b.poison r.value, (hanswers _).bricks, ((hanswers _).bedFor _).trans (bedFor_modBed hbed ⟨hforce, hhandle⟩), rfl, fun _ => rfl, hgone _⟩
  | false =>
    rw [if_neg (by simp)]
    exact ⟨b, (hanswers _).bricks, ((hanswers _).bedFor _).trans hbed, rfl, nofun, hgone _⟩

end

/-- R110, R112, R118. A watcher's copy with another status ends the waits that it reaches. -/
theorem watcher_ends (hnok : r.status ≠ .ok) (hnshrunk : r.status ≠ .okShrunk) :
    (applyWatcher e d j r).bricks = d.bricks
      ∧ ∀ y ∈ watchedWaits d j r.handle, r.endsAt none y = true → entryOf (applyWatcher e d j r) j y.id = none := by
  rw [applyWatcher_ends hnok hnshrunk]
  exact ⟨settling_afterWatch.bricks.trans (settling_answerMany _).bricks,
    fun y hy hends => settling_afterWatch.thins _ (gone_answerMany r.resp (List.mem_filter.2 ⟨hy, hends⟩))⟩

/-- R110. A watcher's copy completes the waits that its course satisfies. -/
theorem watcher_completes (hok : r.status = .ok ∨ r.status = .okShrunk) (hinstant : r.instant = none) :
    (applyWatcher e d j r).bricks = d.bricks
      ∧ ∀ y ∈ watchedWaits d j r.handle, completed r.course y.target = true → entryOf (applyWatcher e d j r) j y.id = none := by
  rw [applyWatcher_completes hok]
  exact ⟨settling_afterWatch.bricks.trans (settling_completeWaits _).bricks,
    fun y hy hdone => settling_afterWatch.thins _ (gone_completeWaits hinstant (List.mem_filter.2 ⟨hy, hdone⟩))⟩

/-- R110. Which waits are watched. -/
theorem mem_watchedWaits (hy : y ∈ (jointOf d j).entries) (hop : y.op = .wait) (hhandle : y.req.handle = h) (hphase : y.phase = .pends ∨ y.phase = .atHome)
    (hheld : (jointOf d j).held.any (fun q => q.entry == y.id) = false) : y ∈ watchedWaits d j h := by
  refine List.mem_filter.2 ⟨hy, ?_⟩
  simp only [hop, hhandle, hheld, Bool.and_eq_true, Bool.or_eq_true, beq_iff_eq, Bool.not_false, true_and, and_true]
  exact hphase

/-- Settles O15: each hod by what its joint makes of it, from the state without the hod. -/
theorem releasesCompleteWaits : Obligations.ReleasesCompleteWaits := by
  unfold Obligations.ReleasesCompleteWaits
  intro s n j h
  refine ⟨fun r bed htakes hbody hok hremove hbed hcourse => ?_, fun r bed htakes hbody hok hbed hcourse => ?_, fun r bed htakes hbody hok hremove hbed hcourse => ?_,
    fun r bed htakes hbody hnok hnshrunk hremove hbed => ?_, fun r htakes hbody hnok hnshrunk => ?_, fun r htakes hbody hok hinstant => ?_⟩
  · have hbed2 : bedFor (dropHod s.dp n) j r.handle = some bed := hbed
    obtain ⟨bed2, hbricks, hstands, hgone⟩ := release_keeps (e := s.env) hbed2 hok hcourse hremove
    exact ⟨_, bed2, exec_releaseCopy htakes hbody, rfl, hbricks, hstands.bed, hstands.course, hstands.status, hstands.gflags, hstands.result,
      hstands.counts.trans counts_advance, posts_release hbed2 hok hcourse hremove, hgone⟩
  · have hexec := exec_releaseCopy htakes hbody
    rw [applyRelease_other hok (d := dropHod s.dp n) hbed hcourse] at hexec
    obtain ⟨hkept, -⟩ := releaseWaits_frame (e := s.env) (d := dropHod s.dp n) (j := j) (r := r) (o := bed) (pendingWaits (dropHod s.dp n) j r.handle)
    exact ⟨_, hexec, rfl, hkept.bricks, (hkept.bedFor _).trans hbed⟩
  · have hbed2 : bedFor (dropHod s.dp n) j r.handle = some bed := hbed
    exact ⟨_, exec_releaseCopy htakes hbody, rfl, release_removes (e := s.env) hbed2 hok hcourse hremove⟩
  · have hbed2 : bedFor (dropHod s.dp n) j r.handle = some bed := hbed
    obtain ⟨bed2, hends⟩ := release_ends (e := s.env) hbed2 hnok hnshrunk hremove
    exact ⟨_, bed2, exec_releaseCopy htakes hbody, rfl, hends⟩
  · exact ⟨_, exec_watcherCopy htakes hbody, rfl, watcher_ends (d := dropHod s.dp n) hnok hnshrunk⟩
  · obtain ⟨hbricks, hgone⟩ := watcher_completes (e := s.env) (d := dropHod s.dp n) (j := j) hok hinstant
    exact ⟨_, exec_watcherCopy htakes hbody, rfl, hbricks, fun y hy hop hhandle hphase hheld => hgone y (mem_watchedWaits hy hop hhandle hphase hheld)⟩

end Sys2Proof.Machine
end

section
/-! O17: the joint of a departing agent. -/

namespace Sys2Proof.Machine

open Sys2Proof.Safety

variable {e : Env} {d d2 d3 : Dp} {j slot agent n : Nat} {p : BitVec 4} {b c y : Bed} {m : BedMember}

theorem mem_modFirst_of_not {α : Type} {t : α → Bool} {f : α → α} {l : List α} {a : α} (ha : a ∈ l) (ht : t a = false) : a ∈ modFirst t f l := by
  induction l with
  | nil => simp at ha
  | cons c l ih =>
    cases hc : t c with
    | true =>
      have hne : a ≠ c := fun h => by simp [h, hc] at ht
      have hl : a ∈ l := (List.mem_cons.1 ha).resolve_left hne
      simp [modFirst, hc, hl]
    | false =>
      rcases List.mem_cons.1 ha with rfl | hl
      · simp [modFirst, hc]
      · simp [modFirst, hc, ih hl]

/-! ### What a departure sends -/

/-- Hods enter the net behind those that are there, one of them such that q holds. -/
def Sends (q : Hod → Prop) (d d2 : Dp) : Prop := ∃ l, d2.net = d.net ++ l ∧ ∃ h ∈ l, q h

/-- Hods enter the net behind those that are there. -/
def Grows (d d2 : Dp) : Prop := ∃ l, d2.net = d.net ++ l

theorem Grows.refl : Grows d d := ⟨[], by simp⟩

theorem Grows.trans (h : Grows d d2) (g : Grows d2 d3) : Grows d d3 := by
  obtain ⟨l, hl⟩ := h
  obtain ⟨k, hk⟩ := g
  exact ⟨l ++ k, by rw [hk, hl, List.append_assoc]⟩

theorem Grows.sends {q : Hod → Prop} (h : Grows d d2) (g : Sends q d2 d3) : Sends q d d3 := by
  obtain ⟨l, hl⟩ := h
  obtain ⟨k, hk, x, hx, hq⟩ := g
  exact ⟨l ++ k, by rw [hk, hl, List.append_assoc], x, List.mem_append_right l hx, hq⟩

theorem Sends.grows {q : Hod → Prop} (h : Sends q d d2) (g : Grows d2 d3) : Sends q d d3 := by
  obtain ⟨l, hl, x, hx, hq⟩ := h
  obtain ⟨k, hk⟩ := g
  exact ⟨l ++ k, by rw [hk, hl, List.append_assoc], x, List.mem_append_left k hx, hq⟩

theorem sends_send {q : Hod → Prop} {a z : Port} {vc : VC} {x : HodBody}
    (hq : ∀ h : Hod, h.src = a → h.dst = z → h.vc = vc → h.body = x → q h) : Sends q d (send e d a z vc p x) := by
  obtain ⟨h, k, -, h1, h2, h3, -, h4, hd⟩ := send_frame e d a z vc p x
  exact ⟨[h], by rw [hd], h, by simp, hq h h1 h2 h3 h4⟩

theorem grows_send {a z : Port} {vc : VC} {x : HodBody} : Grows d (send e d a z vc p x) := by
  obtain ⟨h, k, -, -, -, -, -, -, hd⟩ := send_frame e d a z vc p x
  exact ⟨[h], by rw [hd]⟩

/-- What one step of a fold sends, the fold sends. -/
theorem sends_foldl {α : Type} {q : Hod → Prop} {step : Dp → α → Dp} {l : List α} {a : α} (hgrows : ∀ d x, Grows d (step d x)) (ha : a ∈ l)
    (hsends : ∀ d, Sends q d (step d a)) : ∀ d, Sends q d (l.foldl step d) := by
  have hrest : ∀ (l : List α) d, Grows d (l.foldl step d) := fun l d => List.foldlRecOn l step Grows.refl (fun d2 h2 x _ => h2.trans (hgrows d2 x))
  induction l with
  | nil => simp at ha
  | cons c l ih =>
    intro d
    rcases List.mem_cons.1 ha with rfl | ha
    · exact (hsends d).grows (hrest l _)
    · exact (hgrows d c).sends (ih ha _)

/-! ### Beds that lose a member -/

/-- R115. Bed y comes of bed b: the same barrier's, with no member slot that b has not. -/
structure Comes (b y : Bed) : Prop where
  part : y.part = b.part
  handle : y.handle = b.handle
  waiting : y.waiting = b.waiting
  slots : ∀ k ∈ y.members, ∃ m ∈ b.members, m.slot = k.slot

theorem Comes.refl : Comes b b := ⟨rfl, rfl, rfl, fun k hk => ⟨k, hk, rfl⟩⟩

theorem Comes.trans (h : Comes b c) (g : Comes c y) : Comes b y := by
  refine ⟨g.part.trans h.part, g.handle.trans h.handle, g.waiting.trans h.waiting, fun k hk => ?_⟩
  obtain ⟨m, hm, hslot⟩ := g.slots k hk
  obtain ⟨m2, hm2, hslot2⟩ := h.slots m hm
  exact ⟨m2, hm2, hslot2.trans hslot⟩

/-- R115. What a departure leaves of the state: brick records, partitions, entries and the freeze mark; the beds are those before, without members. -/
structure Departs (j : Nat) (d d2 : Dp) : Prop where
  bricks : d2.bricks = d.bricks
  parts : d2.parts = d.parts
  departing : d2.departing = d.departing
  entries : (jointOf d2 j).entries = (jointOf d j).entries
  frozen : (jointOf d2 j).frozen = (jointOf d j).frozen
  beds : ∀ y ∈ (jointOf d2 j).beds, ∃ b ∈ (jointOf d j).beds, Comes b y
  grows : Grows d d2

theorem Departs.refl : Departs j d d := ⟨rfl, rfl, rfl, rfl, rfl, fun y hy => ⟨y, hy, Comes.refl⟩, Grows.refl⟩

theorem Departs.trans (h : Departs j d d2) (g : Departs j d2 d3) : Departs j d d3 := by
  refine ⟨g.bricks.trans h.bricks, g.parts.trans h.parts, g.departing.trans h.departing, g.entries.trans h.entries, g.frozen.trans h.frozen, fun y hy => ?_,
    h.grows.trans g.grows⟩
  obtain ⟨c, hc, hcy⟩ := g.beds y hy
  obtain ⟨b, hb, hbc⟩ := h.beds c hc
  exact ⟨b, hb, hbc.trans hcy⟩

theorem Departs.foldl {β : Type} {f : Dp → β → Dp} (h : ∀ d x, Departs j d (f d x)) (l : List β) (d : Dp) : Departs j d (l.foldl f d) :=
  List.foldlRecOn l f Departs.refl (fun d2 h2 x _ => h2.trans (h d2 x))

theorem departs_send {a z : Port} {vc : VC} {x : HodBody} : Departs j d (send e d a z vc p x) := by
  obtain ⟨h, k, -, -, -, -, -, -, hd⟩ := send_frame e d a z vc p x
  rw [hd]
  exact ⟨rfl, rfl, rfl, rfl, rfl, fun y hy => ⟨y, hy, Comes.refl⟩, ⟨[h], rfl⟩⟩

theorem departs_count (hc : CountFrame d d2) : Departs j d d2 := by
  obtain ⟨k, rfl⟩ := hc
  exact ⟨rfl, rfl, rfl, rfl, rfl, fun y hy => ⟨y, hy, Comes.refl⟩, Grows.refl⟩

theorem departs_setBeds {l : List Bed} (hl : ∀ y ∈ l, ∃ b ∈ (jointOf d j).beds, Comes b y) : Departs j d (setJoint d j { jointOf d j with beds := l }) :=
  ⟨rfl, rfl, rfl, by simp, by simp, by simpa using hl, Grows.refl⟩

theorem departs_sendComplete (h : Dword) : Departs j d (sendComplete e d j h) := by
  unfold sendComplete
  split
  · exact Departs.refl
  · extract_lets sum
    split
    · exact Departs.refl
    · refine Departs.trans (departs_setBeds fun y hy => ?_) departs_send
      rcases mem_modFirst hy with hy | ⟨b, hb, rfl⟩
      · exact ⟨y, hy, Comes.refl⟩
      · refine ⟨b, hb, rfl, rfl, rfl, fun k hk => ?_⟩
        obtain ⟨m, hm, rfl⟩ := List.mem_map.1 hk
        exact ⟨m, hm, rfl⟩

/-- R115. The beds of b's barrier without the member of a slot. -/
def Bed.without (y : Bed) (slot : Nat) : Bed := { y with members := y.members.filter (fun k => k.slot != slot), heldPay := y.heldPay.filter (fun p => p.2 != slot) }

/-- R115. The joint once the agent is taken from bed b, before its shrink hod goes. -/
def memberGone (e : Env) (d : Dp) (j slot : Nat) (b : Bed) (m : BedMember) : Dp :=
  let d := discardArrivals e d j ((m.a - m.f) + m.b)
  setJoint d j { jointOf d j with beds := (jointOf d j).beds.map (fun y => if y.handle = b.handle && y.waiting = b.waiting then y.without slot else y) }

theorem departBed_none (hm : b.members.find? (fun m => m.slot == slot) = none) : departBed e d j slot b = d := by
  simp only [departBed, hm]

theorem departBed_some (hm : b.members.find? (fun m => m.slot == slot) = some m) :
    departBed e d j slot b = if b.waiting then memberGone e d j slot b m
      else sendComplete e (send e (memberGone e d j slot b m) (.joint j) b.up .req b.part
        (.shrink b.index (b.course + 1) (m.e - m.f) m.f m.e (j * 8 + slot) m.rank)) j b.handle := by
  simp only [departBed, hm]
  rfl

theorem beds_discardArrivals (k : Nat) : (jointOf (discardArrivals e d j k) j).beds = (jointOf d j).beds := (settling_discardArrivals k).beds

theorem beds_memberGone :
    (jointOf (memberGone e d j slot b m) j).beds
      = (jointOf d j).beds.map (fun y => if y.handle = b.handle && y.waiting = b.waiting then y.without slot else y) := by
  rw [memberGone, jointOf_setJoint, beds_discardArrivals]

theorem comes_without : Comes y (y.without slot) := ⟨rfl, rfl, rfl, fun k hk => ⟨k, List.mem_of_mem_filter hk, rfl⟩⟩

theorem departs_memberGone : Departs j d (memberGone e d j slot b m) := by
  refine Departs.trans (departs_count (bumpK_frame e d 2 j 3 _)) (departs_setBeds fun y hy => ?_)
  obtain ⟨z, hz, rfl⟩ := List.mem_map.1 hy
  refine ⟨z, hz, ?_⟩
  split
  · exact comes_without
  · exact Comes.refl

theorem departs_departBed (b : Bed) : Departs j d (departBed e d j slot b) := by
  cases hm : b.members.find? (fun m => m.slot == slot) with
  | none => rw [departBed_none hm]; exact Departs.refl
  | some m =>
    rw [departBed_some hm]
    split
    · exact departs_memberGone
    · exact (departs_memberGone.trans departs_send).trans (departs_sendComplete _)

/-- R115. No bed of b's barrier has a member in the slot. -/
def Cleared (d : Dp) (j slot : Nat) (b : Bed) : Prop :=
  ∀ y ∈ (jointOf d j).beds, y.handle = b.handle → y.waiting = b.waiting → ∀ k ∈ y.members, k.slot ≠ slot

theorem Departs.cleared (h : Departs j d d2) (hc : Cleared d j slot b) : Cleared d2 j slot b := by
  intro y hy hhandle hwaiting k hk
  obtain ⟨z, hz, hzy⟩ := h.beds y hy
  obtain ⟨m, hm, hslot⟩ := hzy.slots k hk
  rw [← hslot]
  exact hc z hz (hzy.handle.symm.trans hhandle) (hzy.waiting.symm.trans hwaiting) m hm

theorem cleared_memberGone : Cleared (memberGone e d j slot b m) j slot b := by
  intro y hy hhandle hwaiting k hk
  rw [beds_memberGone] at hy
  obtain ⟨z, -, rfl⟩ := List.mem_map.1 hy
  split at hk
  · simpa using (List.mem_filter.1 hk).2
  · next hnot =>
    rw [if_neg hnot] at hhandle hwaiting
    exact absurd (by simp [hhandle, hwaiting]) hnot

theorem cleared_departBed (hm : b.members.find? (fun m => m.slot == slot) = some m) : Cleared (departBed e d j slot b) j slot b := by
  rw [departBed_some hm]
  split
  · exact cleared_memberGone
  · exact (departs_sendComplete _).cleared (departs_send.cleared cleared_memberGone)

theorem kept_sendComplete {h : Dword} (hne : y.handle ≠ h) (hy : y ∈ (jointOf d j).beds) : y ∈ (jointOf (sendComplete e d j h) j).beds := by
  unfold sendComplete
  split
  · exact hy
  · extract_lets sum
    split
    · exact hy
    · rw [jointOf, send_joints, ← jointOf, jointOf_modBed]
      exact mem_modFirst_of_not hy (by simp [hne])

/-- R115. The beds of other barriers stay. -/
theorem kept_departBed (hne : y.handle ≠ b.handle) (hy : y ∈ (jointOf d j).beds) : y ∈ (jointOf (departBed e d j slot b) j).beds := by
  cases hm : b.members.find? (fun m => m.slot == slot) with
  | none => rw [departBed_none hm]; exact hy
  | some m =>
    have hgone : y ∈ (jointOf (memberGone e d j slot b m) j).beds := by
      rw [beds_memberGone]
      exact List.mem_map.2 ⟨y, hy, by simp [hne]⟩
    rw [departBed_some hm]
    split
    · exact hgone
    · refine kept_sendComplete hne ?_
      rw [jointOf, send_joints]
      exact hgone

/-- R115. The shrink hod of a bed in force: the member's counts off the open and the next course. -/
def ShrinkOf (j slot : Nat) (b : Bed) (m : BedMember) (h : Hod) : Prop :=
  h.src = .joint j ∧ h.dst = b.up ∧ h.vc = .req ∧ h.body = .shrink b.index (b.course + 1) (m.e - m.f) m.f m.e (j * 8 + slot) m.rank

theorem sends_departBed (hm : b.members.find? (fun m => m.slot == slot) = some m) (hforce : b.waiting = false) :
    Sends (ShrinkOf j slot b m) d (departBed e d j slot b) := by
  rw [departBed_some hm, hforce, if_neg (by simp)]
  exact departs_memberGone.grows.sends (Sends.grows (sends_send fun h h1 h2 h3 h4 => ⟨h1, h2, h3, h4⟩) (departs_sendComplete _).grows)

/-! ### Every bed of the partition, and the reports (R115, R143) -/

theorem departs_departBeds : Departs j d (departBeds e d j slot p) := Departs.foldl (fun _ b => departs_departBed b) _ _

theorem departs_departReports : Departs j d (departReports e d j agent p) := by
  refine Departs.foldl (fun d2 t => ?_) _ _
  split
  · exact Departs.refl
  · exact departs_send

/-- R143. Every available tile gets a report. -/
theorem sends_departReports (hn : n < 32) (havail : unavailable e n = false) :
    Sends (fun h => h.dst = .tile n ∧ h.body = .depart agent) d (departReports e d j agent p) := by
  refine sends_foldl (fun d2 t => ?_) (List.mem_range.2 hn) (fun d2 => ?_) d
  · split
    · exact Grows.refl
    · exact grows_send
  · rw [if_neg (by simp [havail])]
    exact sends_send fun h _ h2 _ h4 => ⟨h2, h4⟩

theorem sends_departBeds (hb : b ∈ (jointOf d j).beds) (hpart : b.part = p) (hforce : b.waiting = false)
    (hm : b.members.find? (fun m => m.slot == slot) = some m) : Sends (ShrinkOf j slot b m) d (departBeds e d j slot p) :=
  sends_foldl (fun _ b => (departs_departBed (j := j) b).grows) (List.mem_filter.2 ⟨hb, by simp [hpart]⟩) (fun _ => sends_departBed hm hforce) d

/-- What the step of one element makes, and each later step keeps, the fold makes. -/
theorem foldl_makes {α : Type} {q : Dp → Prop} {step : Dp → α → Dp} {l : List α} {a : α} (hkeeps : ∀ d x, q d → q (step d x)) (ha : a ∈ l)
    (hmakes : ∀ d, q (step d a)) : ∀ d, q (l.foldl step d) := by
  induction l with
  | nil => simp at ha
  | cons c l ih =>
    intro d
    rcases List.mem_cons.1 ha with rfl | ha
    · exact List.foldlRecOn l step (hmakes d) (fun d2 h2 x _ => hkeeps d2 x h2)
    · exact ih ha _

/-- R115. No bed of the partition has the agent for a member. -/
theorem cleared_departBeds : ∀ y ∈ (jointOf (departBeds e d j slot p) j).beds, y.part = p → ∀ m ∈ y.members, m.slot ≠ slot := by
  intro y hy hpart m hm
  obtain ⟨b, hb, hcomes⟩ := (departs_departBeds (e := e) (slot := slot) (p := p)).beds y hy
  have hin : b ∈ (jointOf d j).beds.filter (fun b => b.part == p) := List.mem_filter.2 ⟨hb, by simp [← hcomes.part, hpart]⟩
  cases hfind : b.members.find? (fun m => m.slot == slot) with
  | none =>
    obtain ⟨m2, hm2, hslot⟩ := hcomes.slots m hm
    rw [← hslot]
    simpa using List.find?_eq_none.1 hfind m2 hm2
  | some m2 =>
    have hcleared : Cleared (departBeds e d j slot p) j slot b :=
      foldl_makes (q := fun d2 => Cleared d2 j slot b) (step := fun d2 b => departBed e d2 j slot b) (fun _ c hc => (departs_departBed c).cleared hc) hin
        (fun _ => cleared_departBed hfind) d
    exact hcleared y hy hcomes.handle hcomes.waiting m hm

/-- R115. The beds of other partitions stay, where no handle names bricks of two. -/
theorem kept_departBeds (hy : y ∈ (jointOf d j).beds) (hpart : y.part ≠ p) (hone : ∀ b ∈ (jointOf d j).beds, b.handle = y.handle → b.part = y.part) :
    y ∈ (jointOf (departBeds e d j slot p) j).beds := by
  refine List.foldlRecOn (motive := fun d2 => y ∈ (jointOf d2 j).beds) _ _ hy (fun d2 h2 b hb => kept_departBed (fun hhandle => hpart ?_) h2)
  obtain ⟨hb, hp⟩ := List.mem_filter.1 hb
  rw [← hone b hb hhandle.symm]
  simpa using hp

/-! ### The departure (R115, R248, R341) -/

/-- R248. The joint without the entries of the agent that departs. -/
abbrev entriesGone (e : Env) (d : Dp) (agent : Nat) : Dp :=
  dropEntries e { d with departing := d.departing.filter (fun a => a.1 != agent) } (agent / 8) (agent % 8)

theorem entriesGone_frame (e : Env) (d : Dp) (agent : Nat) :
    ∃ x k, entriesGone e d agent = { d with
        departing := d.departing.filter (fun a => a.1 != agent), joints := fput d.joints (agent / 8) x, obs := { d.obs with kctr := k } }
      ∧ x.entries = (jointOf d (agent / 8)).entries.filter (fun x => x.req.slot.toNat != agent % 8) ∧ x.beds = (jointOf d (agent / 8)).beds
      ∧ x.frozen = (jointOf d (agent / 8)).frozen := by
  unfold entriesGone dropEntries
  extract_lets y mine unsealed held d1
  obtain ⟨k1, h1⟩ := bumpK_frame e d1 2 (agent / 8) 3 unsealed
  obtain ⟨k2, h2⟩ := bumpK_frame e (bumpK e d1 2 (agent / 8) 3 unsealed) 2 (agent / 8) 4 held
  rw [h2, h1]
  exact ⟨_, k2, rfl, rfl, rfl, rfl⟩

/-- R341. What a frozen partition's departure would send is recorded, and nothing leaves. -/
theorem recordHods_frame (hgrows : Grows d d2) :
    (recordHods d d2 p).net = d.net ∧ (partOf (recordHods d d2 p) p).departed = true
      ∧ ∀ q, Sends q d d2 → ∃ h ∈ (partOf (recordHods d d2 p) p).recHods, q h := by
  obtain ⟨l, hl⟩ := hgrows
  simp only [recordHods, hl]
  refine ⟨by simp, by simp, fun q ⟨k, hk, x, hx, hq⟩ => ⟨x, ?_, hq⟩⟩
  obtain rfl : l = k := List.append_cancel_left (hl.symm.trans hk)
  simp [hx]

section
variable {s : State} {a : BitVec 10} (hstop : s.env.stop.stopped = false) (hpf : s.env.pwr.pfFrozen = false)
  (hfind : s.dp.departing.find? (fun x => x.1 == a.toNat) = some (a.toNat, p))
include hstop hpf hfind

/-- R341. A SAVED partition keeps the departure for its restoration. -/
theorem exec_departure_saved (hst : (partOf s.dp p).st = .saved ∨ (partOf s.dp p).st = .restoring) :
    exec (.agentDeparture a) s = .next { s with
      dp := setPart (entriesGone s.env s.dp a.toNat) p { partOf s.dp p with departed := true, depMap := setInsert a.toNat (partOf s.dp p).depMap } } := by
  have hpart : partOf (entriesGone s.env s.dp a.toNat) p = partOf s.dp p := by
    obtain ⟨x, k, h, -⟩ := entriesGone_frame s.env s.dp a.toNat
    rw [h]
    rfl
  have hkept : (decide ((partOf s.dp p).st = .saved) || decide ((partOf s.dp p).st = .restoring)) = true := by simpa using hst
  show Host.Outcome.next { s with dp := agentDeparts s.env s.dp a.toNat } = _
  simp only [agentDeparts, hfind, hstop, hpf, hpart, hkept, Bool.or_self, Bool.false_eq_true, if_false, if_true]

/-- R115, R143. Otherwise its beds and reports follow, kept while the partition is frozen at the joint. -/
theorem exec_departure (hsaved : (partOf s.dp p).st ≠ .saved) (hrestoring : (partOf s.dp p).st ≠ .restoring) :
    exec (.agentDeparture a) s = .next { s with
      dp :=
        let d := entriesGone s.env s.dp a.toNat
        let d2 := departReports s.env (departBeds s.env d (a.toNat / 8) (a.toNat % 8) p) (a.toNat / 8) a.toNat p
        if (jointOf s.dp (a.toNat / 8)).frozen.contains p.toNat then recordHods d d2 p else d2 } := by
  obtain ⟨hpart, hfrozen⟩ : partOf (entriesGone s.env s.dp a.toNat) p = partOf s.dp p
      ∧ (jointOf (entriesGone s.env s.dp a.toNat) (a.toNat / 8)).frozen = (jointOf s.dp (a.toNat / 8)).frozen := by
    obtain ⟨x, k, h, -, -, hx⟩ := entriesGone_frame s.env s.dp a.toNat
    rw [h]
    exact ⟨rfl, by rw [← hx]; simp [jointOf]⟩
  show Host.Outcome.next { s with dp := agentDeparts s.env s.dp a.toNat } = _
  simp only [agentDeparts, hfind, hstop, hpf, hpart, hsaved, hrestoring, hfrozen, decide_false, Bool.or_self, Bool.false_eq_true, if_false]

end

/-- R115, R143. What a departure from a partition that is not SAVED does to its joint, and sends. -/
theorem departs_entriesGone (hnumber : j * 8 + slot = agent) :
    Departs j d (departReports e (departBeds e d j slot p) j agent p)
      ∧ (∀ y ∈ (jointOf (departReports e (departBeds e d j slot p) j agent p) j).beds, y.part = p → ∀ m ∈ y.members, m.slot ≠ slot)
      ∧ (∀ y ∈ (jointOf d j).beds, y.part ≠ p → (∀ b ∈ (jointOf d j).beds, b.handle = y.handle → b.part = y.part) →
          y ∈ (jointOf (departReports e (departBeds e d j slot p) j agent p) j).beds)
      ∧ (∀ k, k < 32 → unavailable e k = false →
          Sends (fun h => h.dst = .tile k ∧ h.body = .depart agent) d (departReports e (departBeds e d j slot p) j agent p))
      ∧ (∀ b ∈ (jointOf d j).beds, b.part = p → b.waiting = false → ∀ m, b.members.find? (fun m => m.slot == slot) = some m →
          Sends (fun h => h.src = .joint j ∧ h.dst = b.up ∧ h.vc = .req ∧ h.body = .shrink b.index (b.course + 1) (m.e - m.f) m.f m.e agent m.rank) d
            (departReports e (departBeds e d j slot p) j agent p)) := by
  subst hnumber
  have hbeds : Departs j d (departBeds e d j slot p) := departs_departBeds
  have hreports : ∀ d2, (jointOf (departReports e d2 j (j * 8 + slot) p) j).beds = (jointOf d2 j).beds := fun d2 => by
    refine List.foldlRecOn (motive := fun d3 => (jointOf d3 j).beds = (jointOf d2 j).beds) _ _ rfl (fun d3 h3 t _ => ?_)
    split
    · exact h3
    · rw [jointOf, send_joints]
      exact h3
  rw [hreports]
  exact ⟨hbeds.trans departs_departReports, cleared_departBeds, fun y hy => kept_departBeds hy, fun k hk havail => hbeds.grows.sends (sends_departReports hk havail),
    fun b hb hpart hforce m hm => (sends_departBeds hb hpart hforce hm).grows (departs_departReports (j := j)).grows⟩

theorem Sends.mem {q : Hod → Prop} (h : Sends q d d2) : ∃ x ∈ d2.net, q x := by
  obtain ⟨l, hl, x, hx, hq⟩ := h
  exact ⟨x, hl ▸ List.mem_append_right _ hx, hq⟩

/-- Settles O17: the fold over the beds keeps what each step clears and sends; a frozen partition keeps the hods. -/
theorem agentDepartureClears : Obligations.AgentDepartureClears := by
  unfold Obligations.AgentDepartureClears
  intro s a p hstop hpf hfind shrinks
  obtain ⟨x, k, hgone, hentries, hbeds, hfrozen⟩ := entriesGone_frame s.env s.dp a.toNat
  have hjoint : jointOf (entriesGone s.env s.dp a.toNat) (a.toNat / 8) = x := by
    rw [hgone]
    simp [jointOf]
  have hnone : ∀ y ∈ x.entries, y.req.slot.toNat ≠ a.toNat % 8 := fun y hy => by
    rw [hentries] at hy
    simpa using (List.mem_filter.1 hy).2
  obtain ⟨hbricks, hdeparting, hnet⟩ : (entriesGone s.env s.dp a.toNat).bricks = s.dp.bricks
      ∧ (entriesGone s.env s.dp a.toNat).departing = s.dp.departing.filter (fun b => b.1 != a.toNat)
      ∧ (entriesGone s.env s.dp a.toNat).net = s.dp.net := by
    rw [hgone]
    exact ⟨rfl, rfl, rfl⟩
  by_cases hst : (partOf s.dp p).st = .saved ∨ (partOf s.dp p).st = .restoring
  · refine ⟨_, exec_departure_saved hstop hpf hfind hst, rfl, hbricks, hdeparting, ?_, fun _ => ⟨hnet, ?_, ?_⟩, fun hsaved hrestoring => ?_⟩
    · exact hjoint.symm ▸ hnone
    · rw [partOf_setPart]
    · rw [partOf_setPart]
      exact (mem_setInsert _ _ _).2 (.inl rfl)
    · exact absurd hst (not_or.2 ⟨hsaved, hrestoring⟩)
  · obtain ⟨hsaved, hrestoring⟩ := not_or.1 hst
    have hexec := exec_departure hstop hpf hfind hsaved hrestoring
    obtain ⟨hdeparts, hcleared, hkept, hreports, hshrinks⟩ := departs_entriesGone (e := s.env) (d := entriesGone s.env s.dp a.toNat) (p := p)
      (Nat.div_add_mod' a.toNat 8)
    rw [hjoint, hbeds] at hkept hshrinks
    have hleft := hdeparts.entries
    rw [hjoint] at hleft
    dsimp only at hexec
    generalize departReports s.env (departBeds s.env (entriesGone s.env s.dp a.toNat) (a.toNat / 8) (a.toNat % 8) p) (a.toNat / 8) a.toNat p = d2
      at hexec hdeparts hcleared hkept hreports hshrinks hleft
    cases hfroz : (jointOf s.dp (a.toNat / 8)).frozen.contains p.toNat with
    | false =>
      rw [hfroz, if_neg (by simp)] at hexec
      refine ⟨_, hexec, rfl, hdeparts.bricks.trans hbricks, hdeparts.departing.trans hdeparting, hleft ▸ hnone, fun h => absurd h hst,
        fun _ _ => ⟨hcleared, hkept, fun _ => ⟨fun k hk havail => (hreports k hk havail).mem, fun b hb hpart hforce m hm => (hshrinks b hb hpart hforce m hm).mem⟩, nofun⟩⟩
    | true =>
      rw [hfroz, if_pos rfl] at hexec
      obtain ⟨hnet2, hmarked, hrecorded⟩ := recordHods_frame (p := p) hdeparts.grows
      exact ⟨_, hexec, rfl, hdeparts.bricks.trans hbricks, hdeparts.departing.trans hdeparting, hleft ▸ hnone, fun h => absurd h hst,
        fun _ _ => ⟨hcleared, hkept, nofun, fun _ => ⟨hnet2.trans hnet, hmarked, fun k hk havail => hrecorded _ (hreports k hk havail),
          fun b hb hpart hforce m hm => hrecorded _ (hshrinks b hb hpart hforce m hm)⟩⟩⟩

end Sys2Proof.Machine
end

section
/-! Hods at a home tile (R22, R27), and what leaves a brick of it (R74, R199, R362): the change of a mirrored brick goes to the mirror, with the bytes of a contribution, and what has left stays sent. -/

namespace Sys2Proof.Machine

open Sys2Proof.Safety

variable {e : Env} {d d2 d3 : Dp} {n t i k carry : Nat} {h : Hod} {outs : List Hod} {undo : Option (Nat × Nat × BitVec 3)}

/-! ### A tile takes a hod -/

theorem tookTrain_counted (vc : VC) (c : Nat) : CountFrame (tookHod e d t vc) (tookTrain e d t vc c) := by
  unfold tookTrain
  cases vc with
  | rsp => exact bumpK_frame ..
  | req => exact bumpK_frame ..
  | mgmt => exact bumpK_frame ..
  | obs => exact ⟨_, rfl⟩

theorem noteFrame_tookTrain (vc : VC) (c : Nat) : NoteFrame d (tookTrain e d t vc c) :=
  (noteFrame_tookHod vc).trans (noteFrame_count (tookTrain_counted vc c))

theorem resident_tookTrain (vc : VC) (c k : Nat) (r : SlotRef) : resident (tookTrain e d t vc c) k r = resident d k r := by
  obtain ⟨m, hm⟩ := tookTrain_counted (e := e) (d := d) (t := t) vc c
  rw [hm]
  exact resident_tookHod vc k r

theorem mustFetch_tookTrain (vc : VC) (c i : Nat) : mustFetch e (tookTrain e d t vc c) i = mustFetch e d i := by
  rw [mustFetch, resident_tookTrain, (noteFrame_tookTrain vc c).brickOf, mustFetch]

/-- The data path once tile t has taken hod h at place n of the net. -/
def tookAt (e : Env) (d : Dp) (n t : Nat) (h : Hod) : Dp := tookTrain e (dropHod d n) t h.vc h.body.hods

theorem noteFrame_tookAt : NoteFrame (dropHod d n) (tookAt e d n t h) := noteFrame_tookTrain ..

theorem mustFetch_tookAt (i : Nat) : mustFetch e (tookAt e d n t h) i = mustFetch e d i := mustFetch_tookTrain ..

/-- R22, R23. A hod that its tile takes, of the kind asked for and with its brick resident, runs. -/
theorem tileHod_takes {is : HodBody → Bool} (htakes : TileTakes e d n t h) (his : is h.body = true) :
    tileHod e d n is = runHod e (tookAt e d n t h) t h := by
  obtain ⟨htake, hdst, hserves, hopen, hfetch⟩ := htakes
  simp only [tileHod, htake, hdst, his, unavailable_of_serves hserves, hserves, hopen, Bool.not_true, Bool.or_false, Bool.false_eq_true, if_false]
  change (match h.body.needs with
    | some i => if mustFetch e (tookAt e d n t h) i then park e (tookAt e d n t h) t i (.hod h) else runHod e (tookAt e d n t h) t h
    | none => runHod e (tookAt e d n t h) t h) = _
  cases hneeds : h.body.needs with
  | none => rfl
  | some i =>
    simp only [hneeds] at hfetch
    simp [mustFetch_tookAt, hfetch]

/-! ### What has left stays sent -/

/-- Every hod that has left in d has left in d2. -/
def SentKeeps (d d2 : Dp) : Prop := ∀ dst tells, Sent d dst tells → Sent d2 dst tells

theorem SentKeeps.refl (d : Dp) : SentKeeps d d := fun _ _ h => h

theorem SentKeeps.trans (h : SentKeeps d d2) (g : SentKeeps d2 d3) : SentKeeps d d3 := fun dst tells hs => g dst tells (h dst tells hs)

theorem sentKeeps_of (hnet : ∀ g ∈ d.net, g ∈ d2.net) (hupds : ∀ u ∈ d.mirUpds, ∃ v ∈ d2.mirUpds, ∀ g ∈ u.outs, g ∈ v.outs)
    (hwaits : d2.inc.waitHods = d.inc.waitHods) : SentKeeps d d2 := by
  rintro dst tells (⟨g, hg, ht⟩ | ⟨u, hu, g, hg, ht⟩ | hw)
  · exact .inl ⟨g, hnet g hg, ht⟩
  · obtain ⟨v, hv, hsub⟩ := hupds u hu
    exact .inr (.inl ⟨v, hv, g, hsub g hg, ht⟩)
  · exact .inr (.inr (hwaits ▸ hw))

theorem sentKeeps_same (hnet : d2.net = d.net) (hupds : d2.mirUpds = d.mirUpds) (hwaits : d2.inc.waitHods = d.inc.waitHods) : SentKeeps d d2 :=
  sentKeeps_of (fun _ hg => hnet ▸ hg) (fun u hu => ⟨u, hupds ▸ hu, fun _ hg => hg⟩) hwaits

theorem LinkFrame.sentKeeps (hl : LinkFrame d d2) : SentKeeps d d2 := by
  obtain ⟨_, _, _, _, _, _, rfl⟩ := hl
  exact sentKeeps_same rfl rfl rfl

theorem NoteFrame.sentKeeps (hn : NoteFrame d d2) : SentKeeps d d2 := sentKeeps_same hn.net hn.mirUpds (by rw [hn.inc])

theorem KidFrame.sentKeeps (hk : KidFrame d d2) : SentKeeps d d2 := by
  obtain ⟨_, _, _, _, _, _, _, rfl⟩ := hk
  exact sentKeeps_same rfl rfl rfl

theorem sentKeeps_send (a b : Port) (vc : VC) (p : BitVec 4) (x : HodBody) : SentKeeps d (send e d a b vc p x) := by
  obtain ⟨y, m, -, -, -, -, -, -, hd⟩ := send_frame e d a b vc p x
  rw [hd]
  exact sentKeeps_of (fun _ hg => List.mem_append_left _ hg) (fun u hu => ⟨u, hu, fun _ hg => hg⟩) rfl

theorem sentKeeps_sendAll (l : List Hod) : SentKeeps d (sendAll e l d) := by
  obtain ⟨hs, m, -, hd⟩ := sendAll_frame e l d
  rw [hd]
  exact sentKeeps_of (fun _ hg => List.mem_append_left _ hg) (fun u hu => ⟨u, hu, fun _ hg => hg⟩) rfl

theorem sentKeeps_foldl {β : Type} {f : Dp → β → Dp} (hf : ∀ d x, SentKeeps d (f d x)) (l : List β) (d : Dp) : SentKeeps d (l.foldl f d) :=
  List.foldlRecOn l f (SentKeeps.refl d) (fun d2 h2 x _ => h2.trans (hf d2 x))

/-! ### The emission of hods, with the bytes of a contribution (R74, R199) -/

/-- R74. The copy of brick i, stripe k, that the last update on its way brings, or that the mirror holds. -/
def toldCopy (d : Dp) (i k : Nat) (m : MirCopy) : Brick :=
  ((d.mirUpds.filter (fun u => u.index == i && u.k == k)).getLast?.map (fun u => u.copy)).getD m.copy

/-- R74. The mirror of brick i, stripe k, where there is one, is told of the brick as it stands. -/
def MirrorTold (d : Dp) (i k : Nat) : Prop := ∀ m, fget d.mirCopies (stripeKey i k) = some m → toldCopy d i k m = brickOf d i

/-- What the emission of hods changes: the net, updates, and counters. -/
abbrev NetFrame (d d2 : Dp) : Prop := ∃ hs q l o, d2 = { d with net := hs, seq := q, mirUpds := l, obs := o }

theorem NetFrame.trans (h : NetFrame d d2) (g : NetFrame d2 d3) : NetFrame d d3 := by
  obtain ⟨_, _, _, _, rfl⟩ := h
  obtain ⟨_, _, _, _, rfl⟩ := g
  exact ⟨_, _, _, _, rfl⟩

theorem netFrame_sendAll (l : List Hod) : NetFrame d (sendAll e l d) := by
  obtain ⟨hs, m, -, hd⟩ := sendAll_frame e l d
  rw [hd]
  exact ⟨_, _, d.mirUpds, _, rfl⟩

/-- An emission ends in d2: hods `outs` are sent, what the mirror is told is right, and the rest of the data path stays. -/
structure Emitted (d : Dp) (i k : Nat) (outs : List Hod) (d2 : Dp) : Prop where
  frame : NetFrame d d2
  keeps : SentKeeps d d2
  told : MirrorTold d2 i k
  sent : ∀ g ∈ outs, ∀ tells : HodBody → Prop, tells g.body → Sent d2 g.dst tells

/-- R74. All hods leave at once, where the mirror already is told. -/
theorem emitted_sendAll (hframe : NetFrame d d2) (hkeeps : SentKeeps d d2) (htold : MirrorTold d2 i k) : Emitted d i k outs (sendAll e outs d2) := by
  refine ⟨hframe.trans (netFrame_sendAll _), hkeeps.trans (sentKeeps_sendAll _), ?_, fun g hg tells ht => sent_of_sendAll hg ht e d2⟩
  obtain ⟨hs, m, -, hd⟩ := sendAll_frame e outs d2
  rw [hd]
  exact htold

theorem mem_modFirst_of_mem {α : Type} {p : α → Bool} {f : α → α} {l : List α} {a : α} (ha : a ∈ l) : a ∈ modFirst p f l ∨ f a ∈ modFirst p f l := by
  induction l with
  | nil => simp at ha
  | cons b l ih =>
    rw [modFirst]
    split
    · rcases List.mem_cons.1 ha with rfl | ha
      · exact .inr List.mem_cons_self
      · exact .inl (List.mem_cons_of_mem _ ha)
    · rcases List.mem_cons.1 ha with rfl | ha
      · exact .inl List.mem_cons_self
      · exact (ih ha).imp (List.mem_cons_of_mem _) (List.mem_cons_of_mem _)

theorem map_filter_modFirst {α β : Type} {t u : α → Bool} {f : α → α} {g : α → β} (hu : ∀ a, u (f a) = u a) (hg : ∀ a, g (f a) = g a) (l : List α) :
    ((modFirst t f l).filter u).map g = (l.filter u).map g := by
  induction l with
  | nil => rfl
  | cons b l ih =>
    rw [modFirst]
    split
    · simp only [List.filter_cons, hu]
      split
      · simp [hg]
      · rfl
    · simp only [List.filter_cons]
      split
      · simp [ih]
      · exact ih

/-- R74. The hods wait with the last update on its way. -/
theorem emitted_behind {v : MirUpd} (hv : (d.mirUpds.filter (fun u => u.index == i && u.k == k)).getLast? = some v) (htold : MirrorTold d i k) :
    Emitted d i k outs { d with mirUpds := modFirst (fun x => x.id == v.id) (fun x => { x with outs := x.outs ++ outs }) d.mirUpds } := by
  have hany : d.mirUpds.any (fun x => x.id == v.id) = true := List.any_eq_true.2 ⟨v, List.mem_of_mem_filter (List.mem_of_getLast? hv), by simp⟩
  refine ⟨⟨d.net, d.seq, _, d.obs, rfl⟩, sentKeeps_of (fun _ hg => hg) (fun u hu => ?_) rfl, fun m hm => ?_, fun g hg tells ht => ?_⟩
  · rcases mem_modFirst_of_mem (p := fun x => x.id == v.id) (f := fun x : MirUpd => { x with outs := x.outs ++ outs }) hu with hu | hu
    · exact ⟨_, hu, fun _ hg => hg⟩
    · exact ⟨_, hu, fun _ hg => List.mem_append_left _ hg⟩
  · have hcopies := map_filter_modFirst (t := fun x => x.id == v.id) (f := fun x : MirUpd => { x with outs := x.outs ++ outs })
      (u := fun u => u.index == i && u.k == k) (g := fun u => u.copy) (fun _ => rfl) (fun _ => rfl) d.mirUpds
    have htold := htold m hm
    rw [toldCopy, ← List.getLast?_map, ← hcopies, List.getLast?_map] at htold
    exact htold
  · obtain ⟨x, -, -, hmem⟩ := mem_modFirst_of_any (fun x => x.id == v.id) (fun (x : MirUpd) => { x with outs := x.outs ++ outs }) _ hany
    exact .inr (.inl ⟨_, hmem, g, List.mem_append_right _ hg, rfl, ht⟩)

/-- R74. Hods leave, and the mirror of a changed brick is told first. -/
theorem emitNow_emitted (e : Env) (d : Dp) (t i k : Nat) (outs : List Hod) (undo : Option (Nat × Nat × BitVec 3)) (carry : Nat) :
    Emitted d i k outs (emitNow e d t i k outs undo carry) := by
  unfold emitNow
  extract_lets b st mine u
  split
  · next hnone => exact emitted_sendAll ⟨_, _, _, _, rfl⟩ (SentKeeps.refl d) (fun m hm => by rw [hnone] at hm; cases hm)
  · next m hm =>
    extract_lets last d1 d2
    split
    · next hlast =>
      have htold : MirrorTold d i k := by
        intro m2 hm2
        obtain rfl : m = m2 := by simpa [hm] using hm2
        have hcopy : last.1 = b := by rw [hlast]
        rw [← show brickOf d i = b from rfl] at hcopy
        rw [← hcopy, toldCopy]
        simp only [last, mine]
        split
        · next v hv => rw [hv]; rfl
        · next hv => rw [hv]; rfl
      split
      · exact emitted_sendAll ⟨_, _, _, _, rfl⟩ (SentKeeps.refl d) htold
      · next v hv =>
        split
        · exact emitted_sendAll ⟨_, _, _, _, rfl⟩ (SentKeeps.refl d) htold
        · exact emitted_behind hv htold
    · obtain ⟨c1, h1⟩ := bumpT_frame e { d with mirUpds := d.mirUpds ++ [if m.ready then u else { u with outs := [], undo := none }] } t 31
      obtain ⟨x, c2, -, -, -, -, -, -, h2⟩ := send_frame e d1 (.tile t) (.tile m.tile) .mgmt b.part (.mirUpd u.id carry)
      have hd2 : d2 = { d with net := d.net ++ [x], seq := d.seq + 1, mirUpds := d.mirUpds ++ [if m.ready then u else { u with outs := [], undo := none }],
                               obs := { d.obs with kctr := c2 } } := h2.trans (by rw [show d1 = _ from h1])
      have hframe : NetFrame d d2 := hd2 ▸ ⟨_, _, _, _, rfl⟩
      have hkeeps : SentKeeps d d2 := hd2 ▸ sentKeeps_of (fun _ hg => List.mem_append_left _ hg) (fun u hu => ⟨u, List.mem_append_left _ hu, fun _ hg => hg⟩) rfl
      have htold : MirrorTold d2 i k := by
        intro m2 _
        rw [hd2, toldCopy]
        cases m.ready <;> simp [u, b, brickOf]
      split
      · next hready =>
        refine ⟨hframe, hkeeps, htold, fun g hg tells ht => .inr (.inl ⟨u, ?_, g, hg, rfl, ht⟩)⟩
        simp [hd2, hready]
      · exact emitted_sendAll hframe hkeeps htold

/-- R74, R199, R362. Each hod leaves, or waits for the mirror's acknowledgement or for an incident's number. -/
theorem emit_sent {g : Hod} (hg : g ∈ outs) {tells : HodBody → Prop} (ht : tells g.body) : Sent (emit e d t i k outs undo carry) g.dst tells := by
  unfold emit
  split
  · exact (emitNow_emitted ..).sent g hg tells ht
  · next n _ =>
    obtain ⟨_, _, _, _, hframe⟩ := (emitNow_emitted e
      { d with inc := { d.inc with waitHods := fput d.inc.waitHods n (fgetD d.inc.waitHods n [] ++ outs) } } t i k [] undo carry).frame
    refine .inr (.inr ⟨(n, fgetD d.inc.waitHods n [] ++ outs), ?_, g, List.mem_append_right _ hg, rfl, ht⟩)
    rw [hframe]
    exact mem_of_fget (fget_fput_self d.inc.waitHods n _)

/-- R74, R199. A change that no hod waits for. -/
theorem emit_change_emitted (e : Env) (d : Dp) (t i k : Nat) (undo : Option (Nat × Nat × BitVec 3)) (carry : Nat) :
    Emitted d i k [] (emit e d t i k [] undo carry) := by
  have hemit : emit e d t i k [] undo carry = emitNow e d t i k [] undo carry := by simp [emit]
  exact hemit ▸ emitNow_emitted ..

/-! ### Hods with an incident's number (R235, R341, R362) -/

/-- R341. A partition whose hods leave as they come. -/
def Flowing (d : Dp) (p : BitVec 4) : Prop := (partOf d p).st ≠ .frozen ∧ (partOf d p).st ≠ .saved ∧ (partOf d p).st ≠ .restoring

theorem not_kept_of_flowing {p : BitVec 4} (hp : Flowing d p) :
    (match (partOf d p).st with | .frozen | .saved | .restoring => true | _ => false) = false := by
  obtain ⟨hfrozen, hsaved, hrestoring⟩ := hp
  split
  · next h => exact absurd h hfrozen
  · next h => exact absurd h hsaved
  · next h => exact absurd h hrestoring
  · rfl

/-- R74. The hods of brick i at tile t leave together, none of them of a partition that keeps them. -/
theorem leave_brick {hs : List Hod} (hflow : ∀ g ∈ hs, Flowing d g.part) (hhead : hs.head? = some h) (hsrc : h.src = .tile t) (hbrick : h.body.brick = some i) :
    leave e hs d = emit e d t i 0 (hs.map (retime e d)) none := by
  have hkept : hs.filter (fun h => match (partOf d h.part).st with | .frozen | .saved | .restoring => true | _ => false) = [] :=
    List.filter_eq_nil_iff.2 fun g hg => by rw [not_kept_of_flowing (hflow g hg)]; exact Bool.false_ne_true
  have hout : hs.filter (fun h => !(match (partOf d h.part).st with | .frozen | .saved | .restoring => true | _ => false)) = hs :=
    List.filter_eq_self.2 fun g hg => by rw [not_kept_of_flowing (hflow g hg)]; rfl
  unfold leave
  extract_lets frozen out d1
  have hd1 : d1 = d := by
    change List.foldl keepFrozen d (hs.filter frozen) = d
    rw [show hs.filter frozen = [] from hkept]
    rfl
  have hout : out = hs := hout
  rw [hout, hd1, hhead]
  simp only [hsrc, hbrick]

/-- R235. Hods whose number is not known yet wait for it. -/
theorem sendNumbered_unknown {src : Source} {key : IncKey} {hs : List Hod} (hnumber : numberOf d src key = none) (hne : hs ≠ []) :
    sendNumbered e d src key hs = { d with inc := { d.inc with waits := d.inc.waits ++ [(src, key, d.inc.serial)]
                                                               waitHods := fput d.inc.waitHods d.inc.serial hs, serial := d.inc.serial + 1 } } := by
  simp [sendNumbered, hnumber, hne]

end Sys2Proof.Machine
end

section
/-! O20: a forwarded WAIT at its barrier's home tile (R109), its answers, and the watcher slot that an unwatch hod frees (R110). -/

namespace Sys2Proof.Machine

open Sys2Proof.Safety

variable {e : Env} {d : Dp} {n t i j entry : Nat} {h : Hod} {b : Brick} {x : Barrier} {y : JEntry} {d2 : Dp} {w : List (Option Nat)} {key : IncKey}

/-! ### A forwarded WAIT reaches its barrier -/

/-- R45, steps 7 to 9. A forwarded WAIT that the record admits is decided at its barrier. -/
theorem homeExec_wait (hb : brickOf d (hIndex y.req.handle) = b) (hvalid : b.valid = true) (hgen : b.gen = hGen y.req.handle)
    (hpart : b.part = hPart y.req.handle) (htype : (hType y.req.handle).toNat = b.typeCode) (hlost : b.lost = none)
    (hallow : admits e (groupMask d b.part b.group) j y.req.slot = true) (hbody : b.body = .barrier x) (hop : y.op = .wait) :
    homeExec e d t 0 j y = watchHome e (touchSlot d t (.brick (hIndex y.req.handle)) true) t (hIndex y.req.handle) b x j y := by
  have hknown : (b.valid && b.gen == hGen y.req.handle && b.part == hPart y.req.handle) = true := by simp [hvalid, hgen, hpart]
  simp only [homeExec, hb, hknown, htype, hlost, hallow, hbody, hop, ne_eq, not_true_eq_false, if_false, if_true, Bool.not_true, Bool.and_false,
    Bool.false_eq_true]
  rfl

/-- R109. The home tile of an admitted WAIT takes its forwarded hod: but for what it notes, it decides at once. -/
theorem forwardedWait_watches {s : State} {target : Word} (htakes : TileTakes s.env s.dp n (homeOf s.env (hIndex y.req.handle)) h)
    (hbody : h.body = .fwdWait (hIndex y.req.handle) j entry target) (hentry : entryOf s.dp j entry = some y) (hop : y.op = .wait)
    (hhome : AtHome s.env s.dp y.req.handle b) (hallow : Allowed s.env s.dp j y.req.slot b) (hbarrier : b.body = .barrier x) :
    ∃ d d2, NoteFrame (dropHod s.dp n) d ∧ exec (.forwardedWait n) s = .next { s with dp := d2 }
      ∧ d2 = watchHome s.env d (homeOf s.env (hIndex y.req.handle)) (hIndex y.req.handle) b x j { y with target := target } := by
  obtain ⟨hlow, hres, -, hb, hvalid, hgen, hpart, htype, hlost⟩ := hhome
  have htook := noteFrame_tookAt (e := s.env) (d := s.dp) (n := n) (t := homeOf s.env (hIndex y.req.handle)) (h := h)
  refine ⟨_, _, htook.trans (noteFrame_touchSlot (t := homeOf s.env (hIndex y.req.handle)) (.brick (hIndex y.req.handle)) true), rfl, ?_⟩
  have hfind : (jointOf (tookAt s.env s.dp n (homeOf s.env (hIndex y.req.handle)) h) j).entries.find? (fun y => y.id == entry) = some y := by
    rw [htook.jointOf]
    exact hentry
  have hfetch : mustFetch s.env (tookAt s.env s.dp n (homeOf s.env (hIndex y.req.handle)) h) (hIndex y.req.handle) = false := by
    rw [mustFetch_tookAt, mustFetch, hres]
    simp
  have hmask : groupMask (tookAt s.env s.dp n (homeOf s.env (hIndex y.req.handle)) h) b.part b.group = groupMask s.dp b.part b.group := by
    rw [groupMask, partOf, htook.parts, groupMask, partOf, dropHod_parts]
  rw [tileHod_takes htakes (by rw [hbody]; rfl), runHod, hbody]
  simp only [hfind, homeTake, Nat.not_le.2 hlow, hfetch, if_false, Bool.false_eq_true]
  rw [homeExec_wait (y := { y with target := target }) (b := b) (x := x) ((htook.brickOf _).trans hb) hvalid hgen hpart htype hlost (hmask ▸ hallow) hbarrier hop]

/-! ### What the barrier decides (R109, R110) -/

/-- R109. A free slot of an armed, bonded barrier takes the joint, and the entry pends. -/
theorem watchHome_free (hdone : completed x.course y.target = false) (hpoison : x.poisoned = false) (harmed : x.armed = true) (hbonded : x.bonded = true)
    (hw : addWatch j x.watch = some w) :
    watchHome e d t i b x j y = emitNone e (noteOp e (markPended (setBody d i b (.barrier { x with watch := w })) j y.id) t b j y .ok 0) t i 0 := by
  simp [watchHome, hdone, hpoison, harmed, hbonded, hw]

/-- R104, R109. A WAIT whose target is done, or which the barrier does not take, is answered. -/
theorem watchHome_answers (hanswer : completed x.course y.target = true
      ∨ x.poisoned = false ∧ (x.armed = false ∨ x.bonded = false ∨ addWatch j x.watch = none)) :
    ∃ a : Resp, a.status = (if completed x.course y.target then x.lastStatus else .busy) ∧ a.course = x.course
      ∧ watchHome e d t i b x j y = homeAnswer e d t i 0 b j y [] a := by
  by_cases hdone : completed x.course y.target = true
  · refine ⟨_, (if_pos hdone).symm, ?_, by simp only [watchHome, hdone, if_true]; rfl⟩
    rfl
  · obtain hdone' | ⟨hpoison, hbusy⟩ := hanswer
    · exact absurd hdone' hdone
    · refine ⟨Resp.at .busy x.course, (if_neg hdone).symm, rfl, ?_⟩
      rcases hbusy with h | h | h
      · simp [watchHome, hdone, hpoison, h]
      · simp [watchHome, hdone, hpoison, h]
      · simp [watchHome, hdone, hpoison, h]

/-- R110, R118. At a poisoned barrier the answer carries the number of the poisoning. -/
theorem watchHome_poisoned (hdone : completed x.course y.target = false) (hpoison : x.poisoned = true) (hkey : x.poisonInc = some key) :
    watchHome e d t i b x j y
      = sendNumbered e (noteOp e d t b j y .poisoned x.course) (.tile t) key
          [replyHod t j y.id b.part { Resp.at .poisoned x.course with brick := some i }] := by
  simp [watchHome, hdone, hpoison, poisonReply, hkey]

/-- R235, R362. A response of brick i whose number is known leaves with it, as the brick's hods do. -/
theorem sendNumbered_reply {v : Word} {p : BitVec 4} {r : Resp} (hnumber : numberOf d (.tile t) key = some v) (hbrick : r.brick = some i)
    (hvalue : r.status.numbered = true ∧ r.value = 0)
    (hflow : Flowing d p) :
    sendNumbered e d (.tile t) key [replyHod t j entry p r] = emit e d t i 0 [replyHod t j entry p { r with value := v.setWidth 64 }] none := by
  obtain ⟨hnumbered, hzero⟩ := hvalue
  have hset : (replyHod t j entry p r).body.setValue (v.setWidth 64) = .resp entry { r with value := v.setWidth 64 } := by
    simp [replyHod, mkHod, HodBody.setValue, hnumbered, hzero]
  simp only [sendNumbered, hnumber, List.map_cons, List.map_nil, hset]
  exact leave_brick (fun g hg => List.mem_singleton.1 hg ▸ hflow) rfl rfl hbrick

/-! ### O20 -/

theorem brickOf_dropHod (k : Nat) : brickOf (dropHod d n) k = brickOf d k := rfl

section
variable {s : State} (hdrop : NoteFrame (dropHod s.dp n) d)

section
include hdrop

/-- A hod's drop and its notes leave the brick's hods as prompt as they were. -/
theorem prompt_dropped (hprompt : Prompt s.env s.dp i) : fget d.mirCopies (stripeKey i 0) = none ∧ numberWait d (homeOf s.env i) i = none := by
  have hcopy := (congrArg (fun l => fget l (stripeKey i 0)) hdrop.mirCopies).trans hprompt.1
  refine ⟨hcopy, ?_⟩
  rw [numberWait, hdrop.inc]
  exact hprompt.2

theorem numberOf_dropped (src : Source) : numberOf d src key = numberOf s.dp src key := by
  rw [numberOf, hdrop.inc]
  rfl

end

variable (hd2 : d2 = watchHome s.env d (homeOf s.env i) i b x j y)
include hdrop hd2

/-- R109. The slot is taken. -/
theorem forwardedWait_pends {y2 : JEntry} (hentry : entryOf s.dp j entry = some y2) (hid : y.id = entry)
    (hdone : completed x.course y.target = false) (hpoison : x.poisoned = false) (harmed : x.armed = true) (hbonded : x.bonded = true)
    (hw : addWatch j x.watch = some w) :
    (∀ k, brickOf d2 k = if k = i then { b with body := .barrier { x with watch := w } } else brickOf s.dp k)
      ∧ entryOf d2 j entry = some { y2 with phase := .pends, pended := true, seen := true }
      ∧ (Prompt s.env s.dp i → d2.net = eraseAt s.dp.net n) := by
  rw [watchHome_free hdone hpoison harmed hbonded hw] at hd2
  subst hd2
  have hnote := noteFrame_noteOp (e := s.env) (t := homeOf s.env i) (b := b) (j := j) (x := y)
    (d := markPended (setBody d i b (.barrier { x with watch := w })) j y.id) .ok 0
  have hemit := emit_change_emitted s.env (noteOp s.env (markPended (setBody d i b (.barrier { x with watch := w })) j y.id) (homeOf s.env i) b j y .ok 0)
    (homeOf s.env i) i 0 none 0
  obtain ⟨hs, q, l, o, hframe⟩ := hemit.frame
  refine ⟨fun k => ?_, ?_, fun hprompt => ?_⟩
  · refine (congrArg (fun d => brickOf d k) hframe).trans ((hnote.brickOf k).trans ?_)
    refine (brickOf_setBrick d i k _).trans ?_
    rw [hdrop.brickOf, brickOf_dropHod]
  · refine (congrArg (fun d => entryOf d j entry) hframe).trans ?_
    change (jointOf (noteOp s.env _ _ _ _ _ _ _) j).entries.find? _ = _
    rw [hnote.jointOf, markPended, jointOf_setJoint]
    have hold : (jointOf (setBody d i b (.barrier { x with watch := w })) j).entries.find? (fun y => y.id == entry) = some y2 := by
      refine Eq.trans ?_ hentry
      rw [show jointOf (setBody d i b (.barrier { x with watch := w })) j = jointOf d j from rfl, hdrop.jointOf]
      rfl
    subst hid
    exact modFirst_of_find hold (by simpa using List.find?_some hold)
  · obtain ⟨hcopy, -⟩ := hprompt
    rw [emitNone_prompt]
    · rw [hnote.net]
      exact hdrop.net
    · rw [hnote.mirCopies]
      exact (congrArg (fun l => fget l (stripeKey i 0)) hdrop.mirCopies).trans hcopy

/-- R104, R109, R235. An answer changes no brick, is sent, and leaves at once where nothing keeps the brick's hods. -/
theorem forwardedWait_answered (hid : y.id = entry)
    (hanswer : completed x.course y.target = true ∨ x.poisoned = false ∧ (x.armed = false ∨ x.bonded = false ∨ addWatch j x.watch = none)) :
    ∃ a : Resp, d2.bricks = s.dp.bricks ∧ a.status = (if completed x.course y.target then x.lastStatus else .busy) ∧ a.course = x.course
      ∧ Sent d2 (.joint j) (fun c => c = .resp entry a)
      ∧ (Prompt s.env s.dp i → posts d2.net = posts (eraseAt s.dp.net n) ++ posts [replyHod (homeOf s.env i) j entry b.part a]) := by
  obtain ⟨a, hstatus, hcourse, hwatch⟩ := watchHome_answers (e := s.env) (d := d) (t := homeOf s.env i) (i := i) (b := b) (j := j) hanswer
  rw [hwatch] at hd2
  subst hd2
  have hnote := noteFrame_noteOp (e := s.env) (d := d) (t := homeOf s.env i) (b := b) (j := j) (x := y) a.status a.course
  refine ⟨a, ?_, hstatus, hcourse, ?_, fun hprompt => ?_⟩
  · exact (emit_bricks ..).trans (hnote.bricks.trans hdrop.bricks)
  · exact sent_of_emit (g := replyHod (homeOf s.env i) j y.id b.part a) List.mem_cons_self (hid ▸ rfl) ..
  · obtain ⟨hcopy, hwait⟩ := prompt_dropped hdrop hprompt
    obtain ⟨-, -, hposts⟩ := homeAnswer_outcome (e := s.env) (b := b) (j := j) (x := y) hcopy hwait [] a
    rw [hposts, hdrop.net, hid]
    rfl

/-- R110, R235. The POISONED answer leaves with its number. -/
theorem forwardedWait_poisoned_known {v : Word} (hid : y.id = entry) (hnumber : numberOf s.dp (.tile (homeOf s.env i)) key = some v)
    (hprompt : Prompt s.env s.dp i) (hflow : Flowing s.dp b.part)
    (hdone : completed x.course y.target = false) (hpoison : x.poisoned = true) (hkey : x.poisonInc = some key) :
    d2.bricks = s.dp.bricks ∧ posts d2.net = posts (eraseAt s.dp.net n)
      ++ posts [replyHod (homeOf s.env i) j entry b.part { Resp.at .poisoned x.course with value := v.setWidth 64, brick := some i }] := by
  rw [watchHome_poisoned hdone hpoison hkey] at hd2
  have hnoted := hdrop.trans (noteFrame_noteOp (e := s.env) (t := homeOf s.env i) (b := b) (j := j) (x := y) .poisoned x.course)
  obtain ⟨hcopy, hwait⟩ := prompt_dropped hnoted hprompt
  have hflow : Flowing (noteOp s.env d (homeOf s.env i) b j y .poisoned x.course) b.part := by
    rw [Flowing, partOf, hnoted.parts]
    exact hflow
  have hleave : d2 = sendAll s.env [replyHod (homeOf s.env i) j y.id b.part { Resp.at .poisoned x.course with value := v.setWidth 64, brick := some i }]
      (noteOp s.env d (homeOf s.env i) b j y .poisoned x.course) := by
    refine hd2.trans ((sendNumbered_reply ((numberOf_dropped hnoted _).trans hnumber) rfl ⟨rfl, rfl⟩ hflow).trans ?_)
    exact emit_plain _ _ _ _ _ _ _ hcopy hwait
  refine ⟨by rw [hleave, sendAll_bricks, hnoted.bricks, dropHod_bricks], ?_⟩
  rw [hleave, posts_sendAll, hnoted.net, hid, dropHod_net]

/-- R110, R235. The POISONED answer waits for its number. -/
theorem forwardedWait_poisoned_unknown (hnumber : numberOf s.dp (.tile (homeOf s.env i)) key = none)
    (hdone : completed x.course y.target = false) (hpoison : x.poisoned = true) (hkey : x.poisonInc = some key) :
    d2.bricks = s.dp.bricks ∧ d2.net = eraseAt s.dp.net n ∧ (.tile (homeOf s.env i), key, s.dp.inc.serial) ∈ d2.inc.waits := by
  rw [watchHome_poisoned hdone hpoison hkey] at hd2
  have hnoted := hdrop.trans (noteFrame_noteOp (e := s.env) (t := homeOf s.env i) (b := b) (j := j) (x := y) .poisoned x.course)
  have hwait := sendNumbered_unknown (e := s.env) ((numberOf_dropped hnoted _).trans hnumber)
    (List.cons_ne_nil (replyHod (homeOf s.env i) j y.id b.part { Resp.at .poisoned x.course with brick := some i }) [])
  rw [hd2.trans hwait]
  refine ⟨hnoted.bricks, hnoted.net, ?_⟩
  rw [hnoted.inc]
  simp

end

/-- R109. A forwarded WAIT whose entry has gone. -/
theorem forwardedWait_gone {s : State} {target : Word} (htakes : TileTakes s.env s.dp n (homeOf s.env i) h) (hbody : h.body = .fwdWait i j entry target)
    (hgone : entryOf s.dp j entry = none) :
    ∃ t, exec (.forwardedWait n) s = .next t ∧ t.env = s.env ∧ t.dp.bricks = s.dp.bricks
      ∧ posts t.dp.net = posts (eraseAt s.dp.net n) ++ posts [replyHod (homeOf s.env i) j entry h.part (Resp.plain .busy)] := by
  have htook := noteFrame_tookAt (e := s.env) (d := s.dp) (n := n) (t := homeOf s.env i) (h := h)
  have hfind : (jointOf (tookAt s.env s.dp n (homeOf s.env i) h) j).entries.find? (fun y => y.id == entry) = none := by
    rw [htook.jointOf]
    exact hgone
  have hrun : tileHod s.env s.dp n isFwdWait = sendHod s.env (tookAt s.env s.dp n (homeOf s.env i) h) (replyHod (homeOf s.env i) j entry h.part (Resp.plain .busy)) := by
    rw [tileHod_takes htakes (by rw [hbody]; rfl), runHod, hbody]
    simp only [hfind]
  refine ⟨{ s with dp := tileHod s.env s.dp n isFwdWait }, rfl, rfl, ?_, ?_⟩
  · exact (congrArg Dp.bricks hrun).trans ((send_bricks ..).trans htook.bricks)
  · refine (congrArg (fun d : Dp => posts d.net) hrun).trans ((posts_send ..).trans ?_)
    rw [htook.net]
    rfl

/-- R110. An unwatch hod frees the joint's slot. -/
theorem unwatch_frees {s : State} (htakes : TileTakes s.env s.dp n (homeOf s.env i) h) (hbody : h.body = .unwatch i j) (hb : brickOf s.dp i = b)
    (hbarrier : b.body = .barrier x) :
    ∃ t, exec (.unwatch n) s = .next t ∧ t.env = s.env
      ∧ brickOf t.dp i = { b with body := .barrier { x with watch := modFirst (fun w => w == some j) (fun _ => none) x.watch } }
      ∧ (∀ k, k ≠ i → brickOf t.dp k = brickOf s.dp k)
      ∧ (fget s.dp.mirCopies (stripeKey i 0) = none → t.dp.net = eraseAt s.dp.net n) := by
  have htook := noteFrame_tookAt (e := s.env) (d := s.dp) (n := n) (t := homeOf s.env i) (h := h)
  have hrun : tileHod s.env s.dp n isUnwatch = emitNone s.env (setBody (tookAt s.env s.dp n (homeOf s.env i) h) i b
      (.barrier { x with watch := modFirst (fun w => w == some j) (fun _ => none) x.watch })) (homeOf s.env i) i 0 := by
    rw [tileHod_takes htakes (by rw [hbody]; rfl), runHod, hbody]
    simp only [takeUnwatch, (htook.brickOf i).trans hb, hbarrier]
  have hbricks : ∀ k, brickOf (tileHod s.env s.dp n isUnwatch) k
      = if k = i then { b with body := .barrier { x with watch := modFirst (fun w => w == some j) (fun _ => none) x.watch } } else brickOf s.dp k := by
    intro k
    rw [hrun]
    refine (brickOf_congr (emit_bricks ..) k).trans ?_
    refine (brickOf_setBrick _ i k _).trans ?_
    rw [htook.brickOf, brickOf_dropHod]
  refine ⟨{ s with dp := tileHod s.env s.dp n isUnwatch }, rfl, rfl, (hbricks i).trans (if_pos rfl), fun k hk => (hbricks k).trans (if_neg hk), fun hcopy => ?_⟩
  refine (congrArg Dp.net hrun).trans ?_
  rw [emitNone_prompt]
  · exact htook.net
  · exact (congrArg (fun l => fget l (stripeKey i 0)) htook.mirCopies).trans hcopy

/-- Settles O20: a forwarded WAIT runs at its barrier, which takes a slot or answers; an unwatch hod frees the slot. -/
theorem watcherSlots : Obligations.WatcherSlots := by
  unfold Obligations.WatcherSlots
  intro s n h b
  refine ⟨fun j entry target y x htakes hbody hentry hop hhome hallow hbarrier => ?_, fun i j entry target htakes hbody hgone => ?_,
    fun i j x htakes hbody hb hbarrier => unwatch_frees htakes hbody hb hbarrier⟩
  · have hid : y.id = entry := by simpa using List.find?_some hentry
    obtain ⟨d, d2, hdrop, hexec, hd2⟩ := forwardedWait_watches htakes hbody hentry hop hhome hallow hbarrier
    refine ⟨fun w hdone hpoison harmed hbonded hw => ?_, fun hanswer => ?_, fun key v hdone hpoison hkey hnumber hprompt hfrozen hsaved hrestoring => ?_,
      fun key hdone hpoison hkey hnumber => ?_⟩
    · obtain ⟨hbricks, hpends, hnet⟩ := forwardedWait_pends hdrop hd2 hentry hid hdone hpoison harmed hbonded hw
      exact ⟨_, hexec, rfl, (hbricks _).trans (if_pos rfl), fun k hk => (hbricks k).trans (if_neg hk), hpends, hnet⟩
    · obtain ⟨a, hbricks, hstatus, hcourse, hsent, hposts⟩ := forwardedWait_answered hdrop hd2 hid hanswer
      exact ⟨_, a, hexec, rfl, hbricks, hstatus, hcourse, hsent, hposts⟩
    · obtain ⟨hbricks, hposts⟩ := forwardedWait_poisoned_known hdrop hd2 hid hnumber hprompt ⟨hfrozen, hsaved, hrestoring⟩ hdone hpoison hkey
      exact ⟨_, hexec, rfl, hbricks, hposts⟩
    · obtain ⟨hbricks, hnet, hwaits⟩ := forwardedWait_poisoned_unknown hdrop hd2 hnumber hdone hpoison hkey
      exact ⟨_, hexec, rfl, hbricks, hnet, hwaits⟩
  · exact forwardedWait_gone htakes hbody hgone

end Sys2Proof.Machine
end

section
/-! O25: what a joint does with a bounced contribution (R204, R220), and what the probes of a bond commit set (R120, R266). -/

namespace Sys2Proof.Machine

open Sys2Proof.Safety

variable {e : Env} {d : Dp} {n j i delay : Nat} {h : Hod} {a : Arrival} {b : Brick} {x : Barrier}

/-- R204. Where the contribution of an arrival goes again. -/
def bounceDest (e : Env) (d : Dp) (j : Nat) (a : Arrival) : Port :=
  match bedFor d j a.handle with
  | some b => b.dest e
  | none => .tile (homeOf e a.index)

/-- The data path once joint j has taken the bounce at place n of the net. -/
def bounced (e : Env) (d : Dp) (n j : Nat) : Dp := bumpK e (dropHod d n) 2 j 6 1

theorem noteFrame_bounced : NoteFrame (dropHod d n) (bounced e d n j) := noteFrame_count (bumpK_frame ..)

section
variable (htake : takeable e d n = some h) (hdst : h.dst = .joint j) (hbody : h.body = .bounce a) (htakes : takesRsp d j = true)
include htake hdst hbody htakes

/-- R204. A running joint sends the contribution again, 64 tile cycles later. -/
theorem takeBounce_sends (hthawed : (jointOf d j).frozen.contains h.part.toNat = false) :
    takeBounce e d n = sendAt e (bounced e d n j) (.joint j) (bounceDest e d j a) .req h.part (.arrival a) (now e + 64) := by
  have hthawed2 : (jointOf (bumpK e (dropHod d n) 2 j 6 1) j).frozen.contains h.part.toNat = false := by
    rw [(noteFrame_count (bumpK_frame e (dropHod d n) 2 j 6 1)).jointOf]
    exact hthawed
  have hbed : bedFor (bumpK e (dropHod d n) 2 j 6 1) j a.handle = bedFor d j a.handle := by
    rw [bedFor, (noteFrame_count (bumpK_frame e (dropHod d n) 2 j 6 1)).jointOf]
    rfl
  simp only [takeBounce, htake, hdst, hbody, htakes, hthawed2, hbed, Bool.not_true, Bool.false_eq_true, if_false]
  rfl

/-- R220, R333. Where the contribution's partition is frozen, it is kept. -/
theorem takeBounce_keeps (hfrozen : (jointOf d j).frozen.contains h.part.toNat = true) :
    takeBounce e d n = keepFrozen (bounced e d n j) (mkHod (.joint j) (bounceDest e d j a) .req h.part (.arrival a)) := by
  have hfrozen2 : (jointOf (bumpK e (dropHod d n) 2 j 6 1) j).frozen.contains h.part.toNat = true := by
    rw [(noteFrame_count (bumpK_frame e (dropHod d n) 2 j 6 1)).jointOf]
    exact hfrozen
  have hbed : bedFor (bumpK e (dropHod d n) 2 j 6 1) j a.handle = bedFor d j a.handle := by
    rw [bedFor, (noteFrame_count (bumpK_frame e (dropHod d n) 2 j 6 1)).jointOf]
    rfl
  simp only [takeBounce, htake, hdst, hbody, htakes, hfrozen2, hbed, Bool.not_true, Bool.false_eq_true, if_false, if_true]
  rfl

end

/-- R28, R374. The hod that enters the net at tile cycle `ready` or, where it is sent back, 256 cycles from now. -/
theorem sendAt_net (src dst : Port) (vc : VC) (p : BitVec 4) (body : HodBody) (ready : Nat) :
    ∃ back, (back = true → ∃ k, dst = .tile k) ∧ (sendAt e d src dst vc p body ready).net
      = d.net ++ [{ seq := d.seq, src := src, dst := dst, vc := vc, part := p, body := body, ready := if back then now e + 256 else ready, back := back }] := by
  obtain ⟨m, hm⟩ := countPorts_frame e vc body.hods body.flits (hodPorts e src dst body) d
  refine ⟨sentBack { d with obs := { d.obs with kctr := m } } dst vc, fun hback => ?_, by rw [sendAt, hm]; rfl⟩
  cases dst with
  | tile k => exact ⟨k, rfl⟩
  | _ => exact absurd hback Bool.false_ne_true

/-- R374. No hod leaves its sender before its cycle. -/
theorem sendAt_ready {src dst : Port} {vc : VC} {p : BitVec 4} {body : HodBody} {k : Nat} (hk : k ≤ 256) {g : Hod}
    (hg : (sendAt e d src dst vc p body (now e + k)).net = d.net ++ [g]) : now e + k ≤ g.ready := by
  obtain ⟨back, -, hnet⟩ := sendAt_net (e := e) (d := d) src dst vc p body (now e + k)
  obtain rfl := List.singleton_inj.1 (List.append_cancel_left (hnet.symm.trans hg))
  cases back
  · exact Nat.le_refl _
  · exact Nat.add_le_add_left hk _

theorem bricks_sendAt_bounced (up : Port) (p : BitVec 4) (body : HodBody) (k : Nat) :
    (sendAt e (bounced e d n j) (.joint j) up .req p body k).bricks = d.bricks ∧ (sendAt e (bounced e d n j) (.joint j) up .req p body k).joints = d.joints := by
  obtain ⟨g, m, -, -, -, -, -, -, hd⟩ := sendAt_frame e (bounced e d n j) (.joint j) up .req p body k
  rw [hd]
  exact ⟨noteFrame_bounced.bricks, noteFrame_bounced.joints⟩

/-- R341. A kept hod stands behind those that its partition keeps. -/
theorem recHods_keepFrozen (d : Dp) (g : Hod) : (partOf (keepFrozen d g) g.part).recHods = (partOf d g.part).recHods ++ [g] := by
  rw [keepFrozen_frame, partOf_setPart]

/-! ### The probes of a bond commit (R120, R266) -/

section
variable (hb : brickOf d i = b) (hbody : b.body = .barrier x) (hvalid : b.valid = true) (hlost : b.lost = none) (hmeasure : x.measure = 2)
  (hserves : tileServes e d (homeOf e i) = true)
include hb hbody hvalid hlost hmeasure hserves

/-- R120. Without a lintel record, the probes' answers set PATH. -/
theorem probePath_leaf (hleaf : fget d.lintels i = none) :
    probePath e d i delay = emitNone e (setBody d i b (.barrier { x with path := roundPath delay, measure := 0 })) (homeOf e i) i 0 := by
  simp [probePath, hb, hbody, hvalid, hlost, hmeasure, hserves, hleaf]

/-- R266. The root of a tree probes its children. -/
theorem probePath_root {l : Lintel} (hl : fget d.lintels i = some l) (hup : l.upv = false) (hkids : l.probed ≠ []) :
    ∃ d2 r, fget d2.lintels i = some { l with probe := some (l.probed, tileGt e (homeOf e i), tileGt e (homeOf e i) + BitVec.ofNat 64 delay) }
      ∧ probePath e d i delay = sendKids e d2 i r 0 := by
  have hl2 : fget (setBody d i b (.barrier { x with measure := 0 })).lintels i = some l := hl
  have hsome : l.probed.isEmpty = false := by simpa using hkids
  refine ⟨{ setBody d i b (.barrier { x with measure := 0 }) with
    lintels := fput d.lintels i { l with probe := some (l.probed, tileGt e (homeOf e i), tileGt e (homeOf e i) + BitVec.ofNat 64 delay) } },
    { HodRec.blank 6 0 (x.course + 1) with instant := tileGt e (homeOf e i) }, fget_fput_self _ _ _, ?_⟩
  simp only [probePath, hb, hbody, hvalid, hlost, hmeasure, hserves, hl, hup, hsome, Bool.or_false, Bool.false_eq_true, if_false]
  rfl

end

theorem sendKids_lintels (r : HodRec) (except : Dword) : (sendKids e d i r except).lintels = d.lintels := by
  obtain ⟨_, _, _, _, _, _, hd⟩ := LinkFrame.sendKids e d i r except
  rw [hd]

/-- Settles O25: a bounce goes out again or is kept, by its partition at the joint; the probes of a commit set PATH, or go on from the root. -/
theorem bounceAndProbe : Obligations.BounceAndProbe := by
  unfold Obligations.BounceAndProbe
  intro s
  refine ⟨fun n j h a bed htake hdst hbody htakes hthawed hbed hjoint => ?_, fun n j h a htake hdst hbody htakes hfrozen => ?_,
    fun n j h a htake hdst hbody htakes hthawed => ?_, fun i delay b x hb hbody hvalid hlost hmeasure hserves hleaf => ?_,
    fun i delay b x l hb hbody hvalid hlost hmeasure hserves hl hup hkids => ?_⟩
  · have hsends := takeBounce_sends htake hdst hbody htakes hthawed
    have hdest : bounceDest s.env s.dp j a = bed.dest s.env := by simp [bounceDest, hbed]
    obtain ⟨hbricks, hjoints⟩ := bricks_sendAt_bounced (e := s.env) (d := s.dp) (n := n) (j := j) (bounceDest s.env s.dp j a) h.part (.arrival a) (now s.env + 64)
    refine ⟨{ s with dp := takeBounce s.env s.dp n }, rfl, rfl, hsends ▸ hbricks, hsends ▸ hjoints, ?_⟩
    obtain ⟨back, hback, hnet⟩ := sendAt_net (e := s.env) (d := bounced s.env s.dp n j) (.joint j) (bounceDest s.env s.dp j a) .req h.part (.arrival a) (now s.env + 64)
    obtain rfl : back = false := by
      cases hb : back with
      | false => rfl
      | true =>
        obtain ⟨k, hk⟩ := hback hb
        exact absurd (hdest.symm.trans hk) (hjoint k)
    refine (congrArg Dp.net hsends).trans (hnet.trans ?_)
    rw [noteFrame_bounced.net, noteFrame_bounced.seq, hdest]
    rfl
  · have hkeeps := takeBounce_keeps htake hdst hbody htakes hfrozen
    refine ⟨{ s with dp := takeBounce s.env s.dp n }, rfl, rfl, ?_, ?_, ?_, mkHod (.joint j) (bounceDest s.env s.dp j a) .req h.part (.arrival a), ?_, rfl⟩
    · exact (congrArg Dp.bricks hkeeps).trans noteFrame_bounced.bricks
    · exact (congrArg Dp.joints hkeeps).trans noteFrame_bounced.joints
    · exact (congrArg Dp.net hkeeps).trans noteFrame_bounced.net
    · refine (congrArg (fun d => (partOf d h.part).recHods) hkeeps).trans ?_
      refine (recHods_keepFrozen _ _).trans ?_
      rw [partOf, noteFrame_bounced.parts]
      rfl
  · have hsends := takeBounce_sends htake hdst hbody htakes hthawed
    obtain ⟨hbricks, hjoints⟩ := bricks_sendAt_bounced (e := s.env) (d := s.dp) (n := n) (j := j) (bounceDest s.env s.dp j a) h.part (.arrival a) (now s.env + 64)
    have hbefore : (bounced s.env s.dp n j).net = eraseAt s.dp.net n := noteFrame_bounced.net
    refine ⟨{ s with dp := takeBounce s.env s.dp n }, bounceDest s.env s.dp j a, rfl, rfl, hsends ▸ hbricks, hsends ▸ hjoints, ?_, fun g hg => ?_⟩
    · obtain ⟨back, -, hnet⟩ := sendAt_net (e := s.env) (d := bounced s.env s.dp n j) (.joint j) (bounceDest s.env s.dp j a) .req h.part (.arrival a) (now s.env + 64)
      refine (congrArg (fun d : Dp => posts d.net) hsends).trans ?_
      rw [hnet, hbefore]
      simp [posts]
    · refine sendAt_ready (e := s.env) (d := bounced s.env s.dp n j) (by decide) ((congrArg Dp.net hsends.symm).trans ?_)
      rw [hbefore]
      exact hg
  · have hpath := probePath_leaf (delay := delay) hb hbody hvalid hlost hmeasure hserves hleaf
    have hbricks : ∀ k, brickOf (probePath s.env s.dp i.toNat delay) k
        = if k = i.toNat then { b with body := .barrier { x with path := roundPath delay, measure := 0 } } else brickOf s.dp k := by
      intro k
      rw [hpath]
      exact (brickOf_congr (emit_bricks ..) k).trans (brickOf_setBrick _ i.toNat k _)
    refine ⟨{ s with dp := probePath s.env s.dp i.toNat delay }, rfl, rfl, fun hcopy => ?_, (hbricks _).trans (if_pos rfl), fun k hk => (hbricks k).trans (if_neg hk)⟩
    refine (congrArg Dp.net hpath).trans ?_
    exact (congrArg Dp.net (emitNone_prompt (d := setBody s.dp i.toNat b _) hcopy)).trans rfl
  · obtain ⟨d2, r, hprobe, hpath⟩ := probePath_root (delay := delay) hb hbody hvalid hlost hmeasure hserves hl hup hkids
    have hlintels : fget (probePath s.env s.dp i.toNat delay).lintels i.toNat = fget d2.lintels i.toNat :=
      congrArg (fun l => fget l i.toNat) ((congrArg Dp.lintels hpath).trans (sendKids_lintels ..))
    exact ⟨{ s with dp := probePath s.env s.dp i.toNat delay }, _, rfl, rfl, hlintels.trans hprobe, rfl⟩

end Sys2Proof.Machine
end

section
/-! The releases of a barrier (R34, R110, R121): who gets one, and how they leave with an incident's number (R235, R362). -/

namespace Sys2Proof.Machine

open Sys2Proof.Safety

variable {e : Env} {d d2 d3 : Dp} {t i j : Nat} {h : Hod} {b : Brick} {x : Barrier} {r : Rel} {hs outs : List Hod} {src : Source} {key : IncKey}

/-! ### What numbered hods change -/

/-- What hods that leave with an incident's number change: partitions, the net, updates, counters, and what waits for a number. -/
abbrev NumFrame (d d2 : Dp) : Prop :=
  ∃ ps hs q l o a b c, d2 = { d with parts := ps, net := hs, seq := q, mirUpds := l, obs := o, inc := { d.inc with waits := a, waitHods := b, serial := c } }

theorem NumFrame.refl (d : Dp) : NumFrame d d := ⟨_, _, _, _, _, _, _, _, rfl⟩

theorem NumFrame.trans (h : NumFrame d d2) (g : NumFrame d2 d3) : NumFrame d d3 := by
  obtain ⟨_, _, _, _, _, _, _, _, rfl⟩ := h
  obtain ⟨_, _, _, _, _, _, _, _, rfl⟩ := g
  exact ⟨_, _, _, _, _, _, _, _, rfl⟩

theorem NumFrame.foldl {β : Type} {f : Dp → β → Dp} (h : ∀ d y, NumFrame d (f d y)) (l : List β) (d : Dp) : NumFrame d (l.foldl f d) :=
  List.foldlRecOn l f (NumFrame.refl d) (fun d2 h2 y _ => h2.trans (h d2 y))

theorem NetFrame.num (h : NetFrame d d2) : NumFrame d d2 := by
  obtain ⟨_, _, _, _, rfl⟩ := h
  exact ⟨d.parts, _, _, _, _, d.inc.waits, d.inc.waitHods, d.inc.serial, rfl⟩

theorem numFrame_emit (undo : Option (Nat × Nat × BitVec 3)) (carry : Nat) (k : Nat) : NumFrame d (emit e d t i k outs undo carry) := by
  unfold emit
  split
  · exact (emitNow_emitted ..).frame.num
  · exact NumFrame.trans ⟨d.parts, d.net, d.seq, d.mirUpds, d.obs, d.inc.waits, _, d.inc.serial, rfl⟩ (emitNow_emitted ..).frame.num

theorem numFrame_leave : NumFrame d (leave e hs d) := by
  unfold leave
  extract_lets frozen out d1
  have h1 : NumFrame d d1 := NumFrame.foldl (fun d g => ⟨_, d.net, d.seq, d.mirUpds, d.obs, d.inc.waits, d.inc.waitHods, d.inc.serial, rfl⟩) _ d
  split
  · exact h1
  · split
    · exact h1.trans (numFrame_emit none 0 0)
    · exact h1.trans (netFrame_sendAll _).num

theorem numFrame_sendNumbered : NumFrame d (sendNumbered e d src key hs) := by
  unfold sendNumbered
  split
  · exact numFrame_leave
  · extract_lets inc
    split
    · exact NumFrame.refl d
    · exact ⟨d.parts, d.net, d.seq, d.mirUpds, d.obs, _, _, _, rfl⟩

section
variable (hn : NumFrame d d2)
include hn

theorem NumFrame.bricks : d2.bricks = d.bricks := by obtain ⟨_, _, _, _, _, _, _, _, rfl⟩ := hn; rfl
theorem NumFrame.lintels : d2.lintels = d.lintels := by obtain ⟨_, _, _, _, _, _, _, _, rfl⟩ := hn; rfl
theorem NumFrame.mirCopies : d2.mirCopies = d.mirCopies := by obtain ⟨_, _, _, _, _, _, _, _, rfl⟩ := hn; rfl
theorem NumFrame.joints : d2.joints = d.joints := by obtain ⟨_, _, _, _, _, _, _, _, rfl⟩ := hn; rfl
theorem NumFrame.reports : d2.inc.reports = d.inc.reports := by obtain ⟨_, _, _, _, _, _, _, _, rfl⟩ := hn; rfl

end

/-! ### Who gets a release (R34, R110) -/

theorem mem_foldl_setInsert {k : Nat} (l m : List Nat) : k ∈ l.foldl (fun m j => setInsert j m) m ↔ k ∈ l ∨ k ∈ m := by
  induction l generalizing m with
  | nil => simp
  | cons a l ih =>
    rw [List.foldl_cons, ih, mem_setInsert, List.mem_cons]
    tauto

/-- R34. Each joint with a bed of the handle, in force or waiting. -/
theorem release_mem_releaseHods {w : Bool} (hj : j ∈ bedJoints d r.handle w) (t : Nat) (b : Brick) (x : Barrier) :
    mkHod (.tile t) (.joint j) .rsp b.part (.release r) ∈ releaseHods d t b x r := by
  refine List.mem_append_left _ (List.mem_map.2 ⟨j, (mem_foldl_setInsert _ _).2 (.inl (List.mem_append.2 ?_)), rfl⟩)
  cases w with
  | false => exact .inl hj
  | true => exact .inr hj

/-- R110. Each watcher. -/
theorem watcher_mem_releaseHods (hj : some j ∈ x.watch) (d : Dp) (t : Nat) (b : Brick) (r : Rel) :
    mkHod (.tile t) (.joint j) .rsp b.part (.watcher { r with stagger := 0 }) ∈ releaseHods d t b x r :=
  List.mem_append_right _ (List.mem_map.2 ⟨j, List.mem_filterMap.2 ⟨some j, hj, rfl⟩, rfl⟩)

/-- Every release hod comes from the tile, for the brick's partition, and tells of the release. -/
theorem of_mem_releaseHods {g : Hod} (hg : g ∈ releaseHods d t b x r) :
    g.src = .tile t ∧ g.part = b.part ∧ (g.body = .release r ∨ g.body = .watcher { r with stagger := 0 }) := by
  rcases List.mem_append.1 hg with hg | hg
  · obtain ⟨j, -, rfl⟩ := List.mem_map.1 hg
    exact ⟨rfl, rfl, .inl rfl⟩
  · obtain ⟨j, -, rfl⟩ := List.mem_map.1 hg
    exact ⟨rfl, rfl, .inr rfl⟩

/-! ### The end of the waits, with a number (R112, R235, R362) -/

/-- R121. A release without an instant of its own is not timed again. -/
theorem retime_settled {q : Rel} (hown : q.own = false) (hbody : h.body = .release q ∨ h.body = .watcher q) : retime e d h = h := by
  obtain ⟨n, s, c, v, p, body, ready, back, via⟩ := h
  cases s with
  | tile t => rcases hbody with rfl | rfl <;> simp [retime, hown]
  | _ => rfl

/-- R235. The release with the number of an incident. -/
def Rel.numbered (r : Rel) (v : Dword) : Rel := if r.status.numbered && r.value == 0 then { r with value := v } else r

theorem Rel.numbered_keeps (r : Rel) {v : Dword} (hown : r.own = false) (hindex : r.index = i) : (r.numbered v).own = false ∧ (r.numbered v).index = i := by
  unfold Rel.numbered
  split <;> exact ⟨hown, hindex⟩

/-- R235. A hod with its number. -/
def Hod.numbered (v : Dword) (g : Hod) : Hod := { g with body := g.body.setValue v }

/-- R112, R362. Releases of brick i without instants of their own leave, or wait for the number of their incident, as the brick's hods do. -/
theorem sendNumbered_ends (hown : r.own = false) (hindex : r.index = i) (hflow : Flowing d b.part) {g : Hod} {d0 : Dp} (hg : g ∈ releaseHods d0 t b x r)
    {tells : HodBody → Prop} (htells : ∀ v, tells (g.body.setValue v)) (hsame : tells g.body) :
    Sent (sendNumbered e d (.tile t) key (releaseHods d0 t b x r)) g.dst tells := by
  cases hnumber : numberOf d (.tile t) key with
  | none =>
    rw [sendNumbered_unknown hnumber (List.ne_nil_of_mem hg)]
    exact .inr (.inr ⟨_, mem_of_fget (fget_fput_self d.inc.waitHods _ _), g, hg, rfl, hsame⟩)
  | some v =>
    have hrel : ∀ g ∈ (releaseHods d0 t b x r).map (Hod.numbered (v.setWidth 64)), g.src = .tile t ∧ g.part = b.part
        ∧ ∃ q : Rel, (q.own = false ∧ q.index = i) ∧ (g.body = .release q ∨ g.body = .watcher q) := by
      intro g hg
      obtain ⟨g, hmem, rfl⟩ := List.mem_map.1 hg
      obtain ⟨hsrc, hpart, hbody | hbody⟩ := of_mem_releaseHods hmem
      · exact ⟨hsrc, hpart, r.numbered (v.setWidth 64), r.numbered_keeps hown hindex, .inl (by simp only [Hod.numbered, hbody]; rfl)⟩
      · exact ⟨hsrc, hpart, { r with stagger := 0 }.numbered (v.setWidth 64), Rel.numbered_keeps { r with stagger := 0 } hown hindex, .inr (by simp only [Hod.numbered, hbody]; rfl)⟩
    obtain ⟨g1, l, hhead⟩ := List.exists_cons_of_ne_nil (List.ne_nil_of_mem (List.mem_map_of_mem (f := Hod.numbered (v.setWidth 64)) hg))
    obtain ⟨hsrc, -, q, ⟨-, hq⟩, hbody⟩ := hrel g1 (hhead ▸ List.mem_cons_self)
    have hbrick : g1.body.brick = some i := by
      rcases hbody with hbody | hbody <;> simp [hbody, HodBody.brick, hq]
    have hretime : ((releaseHods d0 t b x r).map (Hod.numbered (v.setWidth 64))).map (retime e d) = (releaseHods d0 t b x r).map (Hod.numbered (v.setWidth 64)) :=
      (List.map_congr_left fun g hg => by obtain ⟨-, -, q, ⟨hq, -⟩, hbody⟩ := hrel g hg; exact retime_settled hq hbody).trans (List.map_id _)
    have hleave := leave_brick (e := e) (d := d) (fun g hg => (hrel g hg).2.1 ▸ hflow) (congrArg List.head? hhead) hsrc hbrick
    have hsend : sendNumbered e d (.tile t) key (releaseHods d0 t b x r) = emit e d t i 0 ((releaseHods d0 t b x r).map (Hod.numbered (v.setWidth 64))) none := by
      simp only [sendNumbered, hnumber]
      exact hleave.trans (by rw [hretime])
    rw [hsend]
    exact sent_of_emit (g := g.numbered (v.setWidth 64)) (List.mem_map_of_mem hg) (htells _) e d t i 0 none

end Sys2Proof.Machine
end

section
/-! O21: the expiry of a course deadline (R111, R112), the sweep at a member joint, and the collection of a sweep's answers (R113). -/

namespace Sys2Proof.Machine

open Sys2Proof.Safety

variable {e : Env} {d d2 : Dp} {n t i j : Nat} {h : Hod} {b : Brick} {x : Barrier} {c : Word} {w : SweepRec}

/-! ### The deadline expires (R112) -/

theorem flowing_of_recordsNow {p : BitVec 4} (hrec : recordsNow e d p = false) : Flowing d p := by
  refine ⟨fun hst => ?_, fun hst => ?_, fun hst => ?_⟩ <;> simp [recordsNow, suspended, hst] at hrec

/-- R112. The barrier once its deadline is spent: the sweep asks the joints with a bed. -/
def Barrier.swept (x : Barrier) (js : List Nat) (kids : BitVec 64) : Barrier :=
  { x with dlAt := 0, expired := true, sweep := x.sweep ++ [{ course := x.course + 1, joints := js, missing := kids }] }

/-- R112. A sweep to each of some joints. -/
def sendSweeps (e : Env) (t i : Nat) (p : BitVec 4) (c : Word) (js : List Nat) (d : Dp) : Dp :=
  js.foldl (fun d j => send e d (.tile t) (.joint j) .mgmt p (.sweep i c)) d

theorem posts_sendSweeps (p : BitVec 4) (js : List Nat) (d : Dp) :
    posts (sendSweeps e t i p c js d).net = posts d.net ++ js.map (fun j => (.tile t, .joint j, .mgmt, .sweep i c)) := by
  unfold sendSweeps
  induction js generalizing d with
  | nil => simp
  | cons j js ih => simp only [List.foldl_cons, ih, posts_send, List.map_cons, List.append_assoc, List.singleton_append]

theorem sendSweeps_bricks (p : BitVec 4) (js : List Nat) (d : Dp) : (sendSweeps e t i p c js d).bricks = d.bricks :=
  List.foldlRecOn js _ (motive := fun d2 : Dp => d2.bricks = d.bricks) rfl (fun _ h2 _ _ => (send_bricks ..).trans h2)

theorem sentKeeps_sendSweeps (p : BitVec 4) (js : List Nat) (d : Dp) : SentKeeps d (sendSweeps e t i p c js d) :=
  sentKeeps_foldl (fun _ j => sentKeeps_send (.tile t) (.joint j) .mgmt p (.sweep i c)) js d

theorem mem_net_of_posts {s m : Port} {v : VC} {y : HodBody} (hp : (s, m, v, y) ∈ posts d.net) : ∃ g ∈ d.net, g.dst = m ∧ g.body = y := by
  obtain ⟨g, hg, heq⟩ := List.mem_map.1 hp
  simp only [Prod.mk.injEq] at heq
  obtain ⟨-, hdst, -, hbody⟩ := heq
  exact ⟨g, hg, hdst, hbody⟩

/-- The data path of an expiry before its hods leave. -/
def expiryNoted (e : Env) (d : Dp) (i : Nat) (b : Brick) (x : Barrier) : Dp :=
  emitNone e (trace e (setBarrier d i (x.swept (bedJoints d (brickHandle e i b) false) (missingKids d i x))) (homeOf e i) (some 2)
    { TRec.blank 0x05 with gt := tileGt e (homeOf e i), handle := brickHandle e i b, course := x.course + 1, part := some b.part }) (homeOf e i) i 0

/-- R112. The end of every wait that stands, with TIMEOUT. -/
def expiryEnds (e : Env) (d : Dp) (i : Nat) (b : Brick) (x : Barrier) : List Hod :=
  releaseHods d (homeOf e i) b x (endNow d i (brickHandle e i b) x.course .timeout)

/-- The data path once these ends have left, or wait for the incident's number. -/
def expiryEnded (e : Env) (d : Dp) (i : Nat) (b : Brick) (x : Barrier) : Dp :=
  if twinReports e (expiryNoted e d i b x) i then sendNumbered e (expiryNoted e d i b x) (.tile (homeOf e i)) (mkKey e 5 i .timeout) (expiryEnds e d i b x)
  else emit e (expiryNoted e d i b x) (homeOf e i) i 0 (expiryEnds e d i b x) none

/-- R112. An expiry: the ends leave, then the sweeps, then the sweeps of a root's children. -/
theorem expireBarrier_eq : ∃ d2, d2 = sendSweeps e (homeOf e i) i b.part (x.course + 1) (bedJoints d (brickHandle e i b) false) (expiryEnded e d i b x)
    ∧ (expireBarrier e d i b x = d2 ∨ ∃ r, expireBarrier e d i b x = sendKids e d2 i r 0) := by
  refine ⟨_, rfl, ?_⟩
  by_cases hroot : isRoot (sendSweeps e (homeOf e i) i b.part (x.course + 1) (bedJoints d (brickHandle e i b) false) (expiryEnded e d i b x)) i = true
  · exact .inr ⟨_, if_pos hroot⟩
  · exact .inl (if_neg hroot)

theorem expiryNoted_frame : ∃ ts o, NumFrame { setBarrier d i (x.swept (bedJoints d (brickHandle e i b) false) (missingKids d i x)) with tiles := ts, obs := o }
    (expiryNoted e d i b x) := by
  obtain ⟨ts, o, hnote⟩ := noteFrame_trace (e := e) (t := homeOf e i)
    (d := setBarrier d i (x.swept (bedJoints d (brickHandle e i b) false) (missingKids d i x))) (some 2)
    { TRec.blank 0x05 with gt := tileGt e (homeOf e i), handle := brickHandle e i b, course := x.course + 1, part := some b.part }
  refine ⟨ts, o, ?_⟩
  rw [← hnote, expiryNoted, emitNone]
  exact numFrame_emit none 0 0

theorem expiryNoted_flowing {p : BitVec 4} (hflow : Flowing d p) : Flowing (expiryNoted e d i b x) p := by
  have hnote := noteFrame_trace (e := e) (t := homeOf e i)
    (d := setBarrier d i (x.swept (bedJoints d (brickHandle e i b) false) (missingKids d i x))) (some 2)
    { TRec.blank 0x05 with gt := tileGt e (homeOf e i), handle := brickHandle e i b, course := x.course + 1, part := some b.part }
  obtain ⟨_, _, _, _, hemit⟩ := (emit_change_emitted e _ (homeOf e i) i 0 none 0).frame
  have hparts : (expiryNoted e d i b x).parts = d.parts := (congrArg Dp.parts hemit).trans hnote.parts
  rw [Flowing, partOf, hparts]
  exact hflow

theorem expiryEnded_bricks (k : Nat) : brickOf (expiryEnded e d i b x) k
    = if k = i then { brickOf d i with body := .barrier (x.swept (bedJoints d (brickHandle e i b) false) (missingKids d i x)) } else brickOf d k := by
  obtain ⟨ts, o, hnoted⟩ := expiryNoted_frame (e := e) (d := d) (i := i) (b := b) (x := x)
  have hended : (expiryEnded e d i b x).bricks = (expiryNoted e d i b x).bricks := by
    unfold expiryEnded
    split
    · exact numFrame_sendNumbered.bricks
    · exact emit_bricks ..
  exact (brickOf_congr (hended.trans hnoted.bricks) k).trans (brickOf_setBrick d i k _)

/-- R112. Each end leaves, or waits for its number or the mirror's acknowledgement. -/
theorem expiryEnded_sent (hflow : Flowing d b.part) {g : Hod} (hg : g ∈ expiryEnds e d i b x) {tells : HodBody → Prop}
    (htells : ∀ v, tells (g.body.setValue v)) (hsame : tells g.body) : Sent (expiryEnded e d i b x) g.dst tells := by
  unfold expiryEnded
  split
  · exact sendNumbered_ends rfl rfl (expiryNoted_flowing hflow) hg htells hsame
  · exact sent_of_emit hg hsame ..

/-- The end of the waits that an expiry sends. -/
def expiryEnd (e : Env) (d : Dp) (i : Nat) (b : Brick) (x : Barrier) (r : Rel) : Prop :=
  r.handle = brickHandle e i b ∧ r.course = x.course ∧ r.status = .timeout ∧ r.upTo = some d.seq ∧ r.removeBed = false

theorem expiryEnd_numbered {r : Rel} (hr : expiryEnd e d i b x r) (v : Dword) : expiryEnd e d i b x (r.numbered v) := by
  unfold Rel.numbered
  split
  · exact hr
  · exact hr

/-- R112. What an expiry does. -/
theorem expireBarrier_does (hb : brickOf d i = b) (hflow : Flowing d b.part) :
    brickOf (expireBarrier e d i b x) i = { b with body := .barrier (x.swept (bedJoints d (brickHandle e i b) false) (missingKids d i x)) }
      ∧ (∀ j ∈ bedJoints d (brickHandle e i b) false, ∃ g ∈ (expireBarrier e d i b x).net, g.dst = .joint j ∧ g.body = .sweep i (x.course + 1))
      ∧ (∀ j ∈ bedJoints d (brickHandle e i b) false, Sent (expireBarrier e d i b x) (.joint j) (fun c => ∃ r, c = .release r ∧ expiryEnd e d i b x r))
      ∧ (∀ j, some j ∈ x.watch → Sent (expireBarrier e d i b x) (.joint j) (fun c => ∃ r, c = .watcher r ∧ expiryEnd e d i b x r)) := by
  obtain ⟨d2, hd2, hexpire⟩ := expireBarrier_eq (e := e) (d := d) (i := i) (b := b) (x := x)
  obtain ⟨hbricks, hnet, hkeeps⟩ : (expireBarrier e d i b x).bricks = d2.bricks ∧ (expireBarrier e d i b x).net = d2.net
      ∧ SentKeeps d2 (expireBarrier e d i b x) := by
    rcases hexpire with hexpire | ⟨r, hexpire⟩
    · rw [hexpire]
      exact ⟨rfl, rfl, SentKeeps.refl _⟩
    · have hkids := LinkFrame.sendKids e d2 i r 0
      rw [hexpire]
      refine ⟨?_, ?_, hkids.sentKeeps⟩
      · obtain ⟨_, _, _, _, _, _, hk⟩ := hkids
        rw [hk]
      · obtain ⟨_, _, _, _, _, _, hk⟩ := hkids
        rw [hk]
  have hsent := (sentKeeps_sendSweeps (e := e) (t := homeOf e i) (i := i) (c := x.course + 1) b.part (bedJoints d (brickHandle e i b) false) (expiryEnded e d i b x))
  rw [← hd2] at hsent
  refine ⟨?_, fun j hj => ?_, fun j hj => ?_, fun j hj => ?_⟩
  · rw [brickOf_congr hbricks, hd2, brickOf_congr (sendSweeps_bricks ..), expiryEnded_bricks, if_pos rfl, hb]
  · rw [hnet]
    refine mem_net_of_posts (s := .tile (homeOf e i)) (v := .mgmt) ?_
    rw [hd2, posts_sendSweeps]
    exact List.mem_append_right _ (List.mem_map.2 ⟨j, hj, rfl⟩)
  · refine hkeeps _ _ (hsent _ _ (expiryEnded_sent hflow
      (release_mem_releaseHods (r := endNow d i (brickHandle e i b) x.course .timeout) hj (homeOf e i) b x) (fun v => ⟨_, rfl, ?_⟩) ⟨_, rfl, ?_⟩))
    · exact expiryEnd_numbered ⟨rfl, rfl, rfl, rfl, rfl⟩ v
    · exact ⟨rfl, rfl, rfl, rfl, rfl⟩
  · refine hkeeps _ _ (hsent _ _ (expiryEnded_sent hflow
      (watcher_mem_releaseHods hj d (homeOf e i) b (endNow d i (brickHandle e i b) x.course .timeout)) (fun v => ⟨_, rfl, ?_⟩) ⟨_, rfl, ?_⟩))
    · exact expiryEnd_numbered ⟨rfl, rfl, rfl, rfl, rfl⟩ v
    · exact ⟨rfl, rfl, rfl, rfl, rfl⟩

/-! ### A member joint answers a sweep (R112) -/

/-- R112. The answer tells the members of the joint's bed that are missing; a joint without a bed misses none. -/
theorem sweepHod_answers {s : State} {m : BitVec 8} (htake : takeable s.env s.dp n = some h) (hdst : h.dst = .joint j) (hbody : h.body = .sweep i c)
    (hm : ((jointOf s.dp j).beds.find? (fun b => !b.waiting && b.index == i)).elim 0 Bed.missing = m) :
    ∃ t, exec (.sweepHod n) s = .next t ∧ t.env = s.env ∧ t.dp.joints = s.dp.joints ∧ t.dp.bricks = s.dp.bricks
      ∧ posts t.dp.net = posts (eraseAt s.dp.net n) ++ [(.joint j, .tile (homeOf s.env i), .mgmt, .sweepAns i c j m)] := by
  have hsend : takeSweepHod s.env s.dp n = send s.env (dropHod s.dp n) (.joint j) (.tile (homeOf s.env i)) .mgmt h.part (.sweepAns i c j m) := by
    rw [← hm]
    cases hbed : (jointOf s.dp j).beds.find? (fun b => !b.waiting && b.index == i) with
    | none => simp only [takeSweepHod, htake, hdst, hbody, hbed, Option.elim_none]
    | some b => simp only [takeSweepHod, htake, hdst, hbody, hbed, Option.elim_some]
  refine ⟨{ s with dp := takeSweepHod s.env s.dp n }, rfl, rfl, ?_, ?_, ?_⟩
  · exact (congrArg Dp.joints hsend).trans (send_joints ..)
  · exact (congrArg Dp.bricks hsend).trans (send_bricks ..)
  · exact (congrArg (fun d : Dp => posts d.net) hsend).trans (posts_send ..)

/-! ### The answers in the net (R113) -/

/-- R113. What a hod answers to the sweep of brick i's course c. -/
def Hod.answer (i : Nat) (c : Word) (h : Hod) : Option (Nat × BitVec 8) :=
  match h.body with
  | .sweepAns k c2 j m => if k = i ∧ c2 = c then some (j, m) else none
  | _ => none

theorem sweepAnswersOf_eq (d : Dp) (i : Nat) (c : Word) : sweepAnswersOf d i c = d.net.filterMap (Hod.answer i c) := rfl

theorem eraseP_of_takeFirst {α : Type} (p : α → Bool) (l : List α) : l.eraseP p = match takeFirst p l with | some (_, rest) => rest | none => l := by
  induction l with
  | nil => rfl
  | cons a l ih =>
    rw [takeFirst]
    by_cases ha : p a = true
    · simp [ha]
    · simp only [List.eraseP_cons, ha, ih]
      cases takeFirst p l <;> rfl

/-- The hods that answer a sweep, of one joint. -/
def Hod.answers (i : Nat) (c : Word) (j : Nat) (h : Hod) : Bool :=
  match h.body with
  | .sweepAns k c2 q _ => k == i && c2 == c && q == j
  | _ => false

theorem dropAnswer_eq (d : Dp) (j : Nat) : dropAnswer i c d j = { d with net := d.net.eraseP (Hod.answers i c j) } := by
  rw [eraseP_of_takeFirst]
  unfold dropAnswer
  change (match takeFirst (Hod.answers i c j) d.net with | some (_, rest) => { d with net := rest } | none => d) = _
  split
  · next h => rw [h]
  · next h => rw [h]

/-- Dropping joint j's answer takes the first one of the joint from the answers. -/
theorem sweepAnswersOf_dropAnswer (d : Dp) (j : Nat) : sweepAnswersOf (dropAnswer i c d j) i c = (sweepAnswersOf d i c).eraseP (fun a => a.1 == j) := by
  rw [dropAnswer_eq, sweepAnswersOf_eq, sweepAnswersOf_eq, List.eraseP_filterMap]
  refine congrArg (List.filterMap (Hod.answer i c)) (congrArg (fun p => d.net.eraseP p) (funext fun h => ?_))
  unfold Hod.answers Hod.answer
  cases h.body with
  | sweepAns k c2 q m =>
    by_cases hk : k = i ∧ c2 = c
    · simp [hk]
    · have hne : (k == i && c2 == c) = false := by simpa using hk
      simp [hk, hne]
  | _ => rfl

theorem filterMap_eraseP_of_none {α β : Type} {f : α → Option β} {p : α → Bool} (hp : ∀ a, p a = true → f a = none) (l : List α) :
    (l.eraseP p).filterMap f = l.filterMap f := by
  induction l with
  | nil => rfl
  | cons a l ih =>
    by_cases ha : p a = true
    · simp [ha, hp a ha]
    · rw [List.eraseP_cons_of_neg ha, List.filterMap_cons, List.filterMap_cons, ih]

/-- It leaves the answers to another course's sweep. -/
theorem sweepAnswersOf_dropAnswer_ne {c2 : Word} (hc : c2 ≠ c) (d : Dp) (j : Nat) : sweepAnswersOf (dropAnswer i c d j) i c2 = sweepAnswersOf d i c2 := by
  rw [dropAnswer_eq]
  refine filterMap_eraseP_of_none (fun h hh => ?_) d.net
  change Hod.answer i c2 h = none
  unfold Hod.answers at hh
  unfold Hod.answer
  cases hbody : h.body with
  | sweepAns k c3 q m =>
    obtain ⟨⟨-, rfl⟩, -⟩ : (k = i ∧ c3 = c) ∧ q = j := by simpa [hbody] using hh
    exact if_neg fun hk => hc hk.2.symm
  | _ => rfl

/-- R113. The answers to a sweep that the brick still has stay. -/
theorem sweepAnswersOf_dropAnswers {p : Word → Bool} (hp : p c = false) (d : Dp) : sweepAnswersOf (dropAnswers d i p) i c = sweepAnswersOf d i c := by
  change ((d.net.filter _).filterMap (Hod.answer i c)) = d.net.filterMap (Hod.answer i c)
  rw [List.filterMap_filter]
  refine List.filterMap_congr fun h _ => ?_
  unfold Hod.answer
  cases h.body with
  | sweepAns k c2 q m =>
    by_cases hk : k = i ∧ c2 = c
    · obtain ⟨rfl, rfl⟩ := hk
      simp [hp]
    · simp [hk]
  | _ => rfl

theorem sweepAnswer_congr {c : Word} (h : sweepAnswersOf d2 i c = sweepAnswersOf d i c) (j : Nat) : sweepAnswer d2 i c j = sweepAnswer d i c j := by
  rw [sweepAnswer, h, sweepAnswer]

/-- Erasing one answer of each of some joints that have answered takes as many. -/
theorem length_foldl_eraseP (js : List Nat) (l : List (Nat × BitVec 8)) (hnodup : js.Nodup) (hjs : ∀ j ∈ js, ∃ a ∈ l, a.1 = j) :
    (js.foldl (fun l j => l.eraseP (fun a => a.1 == j)) l).length + js.length = l.length := by
  induction js generalizing l with
  | nil => rfl
  | cons j js ih =>
    obtain ⟨hj, hnodup⟩ := List.nodup_cons.1 hnodup
    obtain ⟨a, ha, haj⟩ := hjs j List.mem_cons_self
    have hrest : ∀ k ∈ js, ∃ a ∈ l.eraseP (fun a => a.1 == j), a.1 = k := by
      intro k hk
      obtain ⟨a, ha, rfl⟩ := hjs k (List.mem_cons_of_mem _ hk)
      have hne : a.1 ≠ j := fun h => hj (h ▸ hk)
      exact ⟨a, (List.mem_eraseP_of_neg (by simpa using hne)).2 ha, rfl⟩
    have hlen := List.length_eraseP_add_one ha (p := fun a => a.1 == j) (by simpa using haj)
    have := ih _ hnodup hrest
    rw [List.foldl_cons, List.length_cons]
    omega

theorem sweepAnswersOf_foldl_dropAnswer (js : List Nat) (d : Dp) :
    sweepAnswersOf (js.foldl (dropAnswer i c) d) i c = js.foldl (fun l j => l.eraseP (fun a => a.1 == j)) (sweepAnswersOf d i c) := by
  induction js generalizing d with
  | nil => rfl
  | cons j js ih => rw [List.foldl_cons, ih, sweepAnswersOf_dropAnswer, List.foldl_cons]

theorem sweepAnswersOf_foldl_dropAnswer_ne {c2 : Word} (hc : c2 ≠ c) (js : List Nat) (d : Dp) :
    sweepAnswersOf (js.foldl (dropAnswer i c) d) i c2 = sweepAnswersOf d i c2 :=
  List.foldlRecOn js _ (motive := fun d2 => sweepAnswersOf d2 i c2 = sweepAnswersOf d i c2) rfl
    (fun d2 h2 j _ => (sweepAnswersOf_dropAnswer_ne hc d2 j).trans h2)

theorem foldl_dropAnswer_frame (js : List Nat) (d : Dp) : ∃ l, js.foldl (dropAnswer i c) d = { d with net := l } :=
  List.foldlRecOn js _ (motive := fun d2 => ∃ l, d2 = { d with net := l }) ⟨_, rfl⟩ (fun d2 h2 j _ => by
    obtain ⟨l, rfl⟩ := h2
    rw [dropAnswer_eq]
    exact ⟨_, rfl⟩)

/-! ### The collection of answers (R113) -/

/-- R113. A sweep that some joint has not answered waits. -/
theorem collectOne_waits (hwaits : ∃ j ∈ w.joints, sweepAnswer d i w.course j = none) : collectOne e i b false d w = d := by
  have hlt : (w.joints.filterMap (fun j => (sweepAnswer d i w.course j).map (fun m => (j, m)))).length < w.joints.length := by
    obtain ⟨j, hj, hnone⟩ := hwaits
    exact List.length_filterMap_lt_length_iff_exists.2 ⟨j, hj, by simp [hnone]⟩
  unfold collectOne
  extract_lets a
  split
  · rfl
  · exact if_pos (by simp [a, hlt])

theorem foldl_collectOne_waits (l : List SweepRec) (hwaits : ∀ v ∈ l, ∃ j ∈ v.joints, sweepAnswer d i v.course j = none) :
    l.foldl (collectOne e i b false) d = d := by
  induction l with
  | nil => rfl
  | cons v l ih =>
    rw [List.foldl_cons, collectOne_waits (hwaits v List.mem_cons_self)]
    exact ih fun v hv => hwaits v (List.mem_cons_of_mem _ hv)

/-- The data path once the oldest sweep, w, has been collected: its answers are gone, and the brick keeps the later sweeps. -/
def swept (d : Dp) (i : Nat) (x : Barrier) (w : SweepRec) (rest : List SweepRec) : Dp :=
  setBarrier (w.joints.foldl (dropAnswer i w.course) d) i { x with sweep := rest }

section
variable {rest : List SweepRec} (hx : barrierOf d i = some x) (hsweep : x.sweep = w :: rest)
  (hall : ∀ j ∈ w.joints, (sweepAnswer d i w.course j).isSome = true)
include hx hsweep hall

/-- R113. The oldest sweep that all its joints have answered is over, and reported by the one of twins with the lower NODE. -/
theorem collectOne_collects : ∃ a, collectOne e i b false d w
    = if twinReports e (swept d i x w rest) i then sweepReport e (swept d i x w rest) i b w a else swept d i x w rest := by
  have hlen : (w.joints.filterMap (fun j => (sweepAnswer d i w.course j).map (fun m => (j, m)))).length = w.joints.length :=
    List.filterMap_length_eq_length.2 fun j hj => by simpa using hall j hj
  refine ⟨w.joints.filterMap (fun j => (sweepAnswer d i w.course j).map (fun m => (j, m))), ?_⟩
  unfold collectOne
  extract_lets a
  simp only [hx, hsweep, List.find?_cons, beq_self_eq_true, bne_self_eq_false, Bool.not_false, Bool.true_and, Bool.false_or]
  refine (if_neg (by simp [a, hlen])).trans ?_
  simp only [takeFirst, beq_self_eq_true, if_true, Option.map_some, Option.getD_some]
  rfl

end

theorem sweepAnswersOf_swept (x : Barrier) (rest : List SweepRec) (c : Word) :
    sweepAnswersOf (swept d i x w rest) i c = sweepAnswersOf (w.joints.foldl (dropAnswer i w.course) d) i c := rfl

/-- R113, R358. The report of a sweep changes reports and counters only. -/
theorem sweepReport_frame (a : List (Nat × BitVec 8)) :
    ∃ l k, sweepReport e d i b w a = { d with inc := { d.inc with reports := l }, obs := { d.obs with kctr := k } } := report_frame ..

/-- R358. A report of a key that no buffered report has is buffered as it is. -/
theorem report_fresh {src : Source} {r : Report} (hcls : r.key.kind.cls ≠ .notice) (hfresh : ∀ q ∈ d.inc.reports, q.2.key ≠ r.key) :
    (src, r) ∈ (report e d src r).inc.reports := by
  have hnone : d.inc.reports.any (fun x => decide (x.1 = src ∧ x.2.key = r.key)) = false :=
    List.any_eq_false.2 fun q hq => by simp [hfresh q hq]
  unfold report
  extract_lets same buffered
  rw [if_neg (Bool.eq_false_iff.1 hnone), if_neg (by simp [hcls])]
  obtain ⟨m, hm⟩ := reportHod_frame e src false { d with inc := { d.inc with reports := d.inc.reports ++ [(src, r)] } }
  rw [hm]
  simp

theorem brickOf_swept (rest : List SweepRec) (hb : brickOf d i = b) :
    brickOf (swept d i x w rest) i = { b with body := .barrier { x with sweep := rest } } := by
  obtain ⟨l, hl⟩ := foldl_dropAnswer_frame (i := i) (c := w.course) w.joints d
  rw [swept, hl]
  exact (brickOf_setBrick _ i i _).trans (by rw [if_pos rfl, ← hb]; rfl)

theorem swept_inc (rest : List SweepRec) : (swept d i x w rest).inc = d.inc ∧ (swept d i x w rest).lintels = d.lintels := by
  obtain ⟨l, hl⟩ := foldl_dropAnswer_frame (i := i) (c := w.course) w.joints d
  rw [swept, hl]
  exact ⟨rfl, rfl⟩

theorem twinReports_congr (hl : d2.lintels = d.lintels) : twinReports e d2 i = twinReports e d i := by
  rw [twinReports, hl, twinReports]

/-- R113. A report's fields but the missing agents: the key, the missing children, and the open course. -/
def sweepReported (e : Env) (i : Nat) (w : SweepRec) (q : Source × Report) : Prop :=
  q.1 = .tile (homeOf e i) ∧ q.2.key = mkKey e 5 i .timeout ∧ q.2.d1 = w.missing ∧ q.2.d2 = w.course

/-- R113, R358. The TIMEOUT report of a sweep stands in the tile's buffer, as it is where none of its key stood there. -/
theorem sweepReport_reported (a : List (Nat × BitVec 8)) :
    (∃ q ∈ (sweepReport e d i b w a).inc.reports, q.1 = .tile (homeOf e i) ∧ q.2.key = mkKey e 5 i .timeout)
      ∧ ((∀ q ∈ d.inc.reports, q.2.key ≠ mkKey e 5 i .timeout) → ∃ q ∈ (sweepReport e d i b w a).inc.reports, sweepReported e i w q) := by
  have hcls : (mkKey e 5 i .timeout).kind.cls ≠ .notice := by change IncKind.timeout.cls ≠ .notice; decide
  exact ⟨report_buffered e d _ _ hcls, fun hfresh => ⟨_, report_fresh hcls hfresh, rfl, rfl, rfl, rfl⟩⟩

section
variable {rest : List SweepRec} (hb : brickOf d i = b) (hbody : b.body = .barrier x) (hsweep : x.sweep = w :: rest)
include hb hbody hsweep

omit hsweep in
theorem collectSweep_eq : collectSweep e d i false
    = x.sweep.foldl (collectOne e i b false) (dropAnswers d i (fun c => !x.sweep.any (fun w => w.course == c))) := by
  simp only [collectSweep, hb, hbody]

omit hsweep hb hbody in
theorem sweepAnswersOf_kept {v : SweepRec} (hv : v ∈ x.sweep) :
    sweepAnswersOf (dropAnswers d i (fun c => !x.sweep.any (fun w => w.course == c))) i v.course = sweepAnswersOf d i v.course :=
  sweepAnswersOf_dropAnswers (by simp only [Bool.not_eq_false', List.any_eq_true]; exact ⟨v, hv, by simp⟩) d

/-- R113. The oldest sweep, all of whose joints have answered, is collected, and the later ones wait. -/
theorem collectSweep_collects (hall : ∀ j ∈ w.joints, (sweepAnswer d i w.course j).isSome = true)
    (hrest : ∀ v ∈ rest, v.course ≠ w.course ∧ ∃ j ∈ v.joints, sweepAnswer d i v.course j = none) :
    ∃ d0 a, (∃ l, d0 = { d with net := l }) ∧ (∀ v ∈ x.sweep, sweepAnswersOf d0 i v.course = sweepAnswersOf d i v.course)
      ∧ collectSweep e d i false
        = if twinReports e (swept d0 i x w rest) i then sweepReport e (swept d0 i x w rest) i b w a else swept d0 i x w rest := by
  have hkept : ∀ v ∈ x.sweep, sweepAnswersOf (dropAnswers d i (fun c => !x.sweep.any (fun w => w.course == c))) i v.course = sweepAnswersOf d i v.course :=
    fun v hv => sweepAnswersOf_kept hv
  have hx : barrierOf (dropAnswers d i (fun c => !x.sweep.any (fun w => w.course == c))) i = some x := by
    change barrierOf d i = some x
    simp only [barrierOf, hb, hbody]
  obtain ⟨a, hone⟩ := collectOne_collects (e := e) (b := b) hx hsweep
    (fun j hj => by rw [sweepAnswer_congr (hkept w (hsweep ▸ List.mem_cons_self))]; exact hall j hj)
  refine ⟨_, a, ⟨_, rfl⟩, hkept, ?_⟩
  have hfold : collectSweep e d i false = rest.foldl (collectOne e i b false)
      (collectOne e i b false (dropAnswers d i (fun c => !x.sweep.any (fun w => w.course == c))) w) := by
    rw [collectSweep_eq hb hbody]
    conv => lhs; arg 3; rw [hsweep]
    rfl
  refine hfold.trans ((foldl_collectOne_waits rest fun v hv => ?_).trans hone)
  obtain ⟨hcourse, j, hj, hnone⟩ := hrest v hv
  refine ⟨j, hj, ?_⟩
  have hnet : (collectOne e i b false (dropAnswers d i (fun c => !x.sweep.any (fun w => w.course == c))) w).net
      = (swept (dropAnswers d i (fun c => !x.sweep.any (fun w => w.course == c))) i x w rest).net := by
    rw [hone]
    split
    · obtain ⟨l, k, hrep⟩ := sweepReport_frame (e := e) (d := swept (dropAnswers d i (fun c => !x.sweep.any (fun w => w.course == c))) i x w rest)
        (i := i) (b := b) (w := w) a
      rw [hrep]
    · rfl
  rw [← hnone]
  refine sweepAnswer_congr ?_ j
  calc sweepAnswersOf _ i v.course = sweepAnswersOf (swept (dropAnswers d i (fun c => !x.sweep.any (fun w => w.course == c))) i x w rest) i v.course := by
        rw [sweepAnswersOf_eq, hnet, sweepAnswersOf_eq]
    _ = sweepAnswersOf (dropAnswers d i (fun c => !x.sweep.any (fun w => w.course == c))) i v.course := sweepAnswersOf_foldl_dropAnswer_ne hcourse _ _
    _ = sweepAnswersOf d i v.course := hkept v (hsweep ▸ List.mem_cons_of_mem _ hv)

end

/-- R113. What the collection of the oldest sweep leaves: its answers, as many as the joints asked, are gone, and the others stay. -/
theorem answers_swept {rest : List SweepRec} {d0 : Dp} (hsweep : x.sweep = w :: rest)
    (hkept : ∀ v ∈ x.sweep, sweepAnswersOf d0 i v.course = sweepAnswersOf d i v.course)
    (hall : ∀ j ∈ w.joints, (sweepAnswer d i w.course j).isSome = true) (hcourse : ∀ v ∈ rest, v.course ≠ w.course) :
    (w.joints.Nodup → (sweepAnswersOf (swept d0 i x w rest) i w.course).length + w.joints.length = (sweepAnswersOf d i w.course).length)
      ∧ (∀ v ∈ rest, sweepAnswersOf (swept d0 i x w rest) i v.course = sweepAnswersOf d i v.course) := by
  refine ⟨fun hnodup => ?_, fun v hv => ?_⟩
  · rw [sweepAnswersOf_swept, sweepAnswersOf_foldl_dropAnswer, hkept w (hsweep ▸ List.mem_cons_self)]
    refine length_foldl_eraseP _ _ hnodup fun j hj => ?_
    obtain ⟨m, hm⟩ := Option.isSome_iff_exists.1 (hall j hj)
    obtain ⟨a, hfind, -⟩ := Option.map_eq_some_iff.1 hm
    exact ⟨a, List.mem_of_find?_eq_some hfind, by simpa using List.find?_some hfind⟩
  · rw [sweepAnswersOf_swept, sweepAnswersOf_foldl_dropAnswer_ne (hcourse v hv), hkept v (hsweep ▸ List.mem_cons_of_mem _ hv)]

/-- Settles O21: the expiry ends the waits and sweeps, each joint answers, and a sweep that all have answered is reported. -/
theorem deadlineSweeps : Obligations.DeadlineSweeps := by
  unfold Obligations.DeadlineSweeps
  intro s b x
  refine ⟨fun i hb hbody hvalid hlost hdl hreached hserves hrec => ?_, fun n j h i c bed htake hdst hbody hbed => sweepHod_answers htake hdst hbody (congrArg (Option.elim · 0 Bed.missing) hbed),
    fun n j h i c htake hdst hbody hbed => sweepHod_answers htake hdst hbody (congrArg (Option.elim · 0 Bed.missing) hbed),
    fun i w rest hb hbody hsweep hserves hall hrest => ?_, fun i w rest hb hbody hsweep hserves hwaits => ?_⟩
  · have hexpire : barrierExpiry s.env s.dp i.toNat = expireBarrier s.env s.dp i.toNat b x := by
      have hdue : (x.dlAt != 0) = true := bne_iff_ne.2 hdl
      simp only [barrierExpiry, hb, hbody, hvalid, hlost, hdue, hreached, hserves, hrec, Option.isNone_none, Bool.and_true, Bool.not_false, if_true]
    obtain ⟨hbrick, hsweeps, hends, hwatchers⟩ := expireBarrier_does (e := s.env) (x := x) hb (flowing_of_recordsNow hrec)
    refine ⟨{ s with dp := expireBarrier s.env s.dp i.toNat b x }, _, by rw [← hexpire]; rfl, rfl, hbrick, rfl, rfl, rfl, rfl, ⟨_, rfl, rfl, rfl, rfl⟩, hsweeps,
      hends, hwatchers⟩
  · have hcollect : barrierSweep s.env s.dp i.toNat = collectSweep s.env s.dp i.toNat false := if_pos hserves
    obtain ⟨d0, a, ⟨l, hd0⟩, hkept, hcollects⟩ := collectSweep_collects (e := s.env) hb hbody hsweep hall hrest
    have hb0 : brickOf d0 i.toNat = b := by rw [hd0]; exact hb
    obtain ⟨hinc, hlintels⟩ := swept_inc (d := d0) (i := i.toNat) (x := x) (w := w) rest
    have hinc : (swept d0 i.toNat x w rest).inc = s.dp.inc := hinc.trans (by rw [hd0])
    have htwin : twinReports s.env (swept d0 i.toNat x w rest) i.toNat = twinReports s.env s.dp i.toNat :=
      twinReports_congr (hlintels.trans (by rw [hd0]))
    have hbrick := brickOf_swept (x := x) (w := w) rest hb0
    obtain ⟨hcount, hothers⟩ := answers_swept hsweep hkept hall (fun v hv => (hrest v hv).1)
    rw [htwin] at hcollects
    refine ⟨{ s with dp := collectSweep s.env s.dp i.toNat false }, by rw [← hcollect]; rfl, rfl, ?_⟩
    cases hreports : twinReports s.env s.dp i.toNat with
    | false =>
      rw [hcollects, hreports]
      exact ⟨hbrick, hcount, hothers, fun _ => congrArg Inc.reports hinc, fun h => absurd h Bool.false_ne_true, fun h => absurd h Bool.false_ne_true⟩
    | true =>
      rw [hcollects, hreports]
      obtain ⟨hstands, hfresh⟩ := sweepReport_reported (e := s.env) (d := swept d0 i.toNat x w rest) (i := i.toNat) (b := b) (w := w) a
      obtain ⟨l, k, hframe⟩ := sweepReport_frame (e := s.env) (d := swept d0 i.toNat x w rest) (i := i.toNat) (b := b) (w := w) a
      have hsame : ∀ c, sweepAnswersOf (sweepReport s.env (swept d0 i.toNat x w rest) i.toNat b w a) i.toNat c = sweepAnswersOf (swept d0 i.toNat x w rest) i.toNat c := by
        intro c
        rw [hframe]
        rfl
      refine ⟨?_, fun hnodup => ?_, fun v hv => ?_, fun h => absurd h.symm Bool.false_ne_true, fun _ => hstands, fun _ hnew => ?_⟩
      · exact (congrArg (fun d => brickOf d i.toNat) hframe).trans hbrick
      · exact (congrArg (fun l => l.length + w.joints.length) (hsame w.course)).trans (hcount hnodup)
      · exact (hsame v.course).trans (hothers v hv)
      · exact hfresh (by rw [hinc]; exact hnew)
  · have hcollect : barrierSweep s.env s.dp i.toNat = collectSweep s.env s.dp i.toNat false := if_pos hserves
    have hnothing := foldl_collectOne_waits (e := s.env) (b := b) (i := i.toNat) (d := dropAnswers s.dp i.toNat (fun c => !x.sweep.any (fun w => w.course == c))) x.sweep
      (fun v hv => by
        obtain ⟨j, hj, hnone⟩ := hwaits v hv
        exact ⟨j, hj, (sweepAnswer_congr (sweepAnswersOf_kept hv) j).trans hnone⟩)
    refine ⟨{ s with dp := collectSweep s.env s.dp i.toNat false }, by rw [← hcollect]; rfl, rfl, ?_, ?_⟩
    · exact (congrArg Dp.bricks ((collectSweep_eq hb hbody).trans hnothing)).trans rfl
    · exact (congrArg Dp.inc ((collectSweep_eq hb hbody).trans hnothing)).trans rfl

end Sys2Proof.Machine
end

section
/-! The close of a course by its own count (R100): the barrier that it leaves, the releases that it sends, and where the closing of courses stops. -/

namespace Sys2Proof.Machine

open Sys2Proof.Safety

variable {e : Env} {d d2 : Dp} {i k carry : Nat} {b : Brick} {x : Barrier} {l m : Lintel}

/-! ### The barrier after a close -/

/-- R100, R118. The status of a course that closes. -/
def Barrier.closeStatus (x : Barrier) : Status := if x.shrunk then .okShrunk else .ok

/-- R100, R197. The result of the open course, and its flags. -/
def Barrier.closeResult (x : Barrier) : List Byte × Byte :=
  match x.grout.bind (fun g => g.run.cfg.map (fun c => (c, g))) with
  | some (c, g) => ((result c g.acc).1, g.acc.flags ||| (result c g.acc).2)
  | none => ([], 0)

/-- R92, R100. A barrier as its next course opens, but for its grout and for the end of a bond. -/
def Barrier.reopened (x : Barrier) : Barrier :=
  let x1 := { x with course := x.course + 1, shrunk := false, nextDelta := 0, expect := x.expect - x.nextDelta, left := x.left ++ x.leaving, leaving := []
                     lastStatus := x.closeStatus, expired := false }
  let x2 := match x.shBond with
    | some nb => { x1 with expect := nb.expect, bond := some nb, shBond := none, left := [], measure := 2 }
    | none => { x1 with measure := if x1.measure = 1 then 2 else x1.measure }
  { x2 with arm := x2.shArm.getD x2.arm, shArm := none, count := x2.ahead, ahead := 0, dlAt := 0 }

/-- R117. A barrier whose next course expects no one is neither bonded nor armed. -/
def Barrier.unbonds (x : Barrier) : Bool := decide (x.reopened.expect = 0)

/-- R100, R111, R117, R197. A barrier after a close by its own count at GT g, no run waiting. -/
def Barrier.closed (x : Barrier) (g : Dword) (gone : BitVec 64) : Barrier :=
  let y := { x.reopened with
    grout := x.reopened.grout.map (fun h => Grout.fresh x.reopened gone { h with cum := h.cum ||| x.closeResult.2, result := x.closeResult.1, resFlags := x.closeResult.2 })
    shRun := none, bonded := x.reopened.bonded && !x.unbonds, armed := x.reopened.armed && !x.unbonds }
  if y.count > 0 ∧ y.arm.deadline ≠ 0#24 then { y with dlAt := g + dlUnits y.arm.deadline.toNat } else y

/-- R100, R121. The release of a close. -/
def closeRel (e : Env) (i : Nat) (b : Brick) (x : Barrier) : Rel :=
  let timed := decide (x.reopened.arm.release = 1#2) || decide (x.reopened.arm.release = 2#2)
  { index := i, handle := brickHandle e i b, course := x.course + 1, status := x.closeStatus, gflags := x.closeResult.2, beats := toBeats x.closeResult.1
    instant := if timed then some (tileGt e (homeOf e i) + BitVec.ofNat 64 x.path) else none
    stagger := if x.reopened.arm.release = 2#2 then x.reopened.arm.stagger else 0, value := 0, removeBed := x.shBond.isSome || x.unbonds
    cfg := if x.shBond.isSome then some x.reopened.cfg else none, bond := (x.shBond.map Bond.made).getD 0, own := timed }

theorem reopened_fields : x.reopened.course = x.course + 1 ∧ x.reopened.count = x.ahead ∧ x.reopened.ahead = 0 ∧ x.reopened.nextDelta = 0
    ∧ x.reopened.shrunk = false ∧ x.reopened.armed = x.armed ∧ x.reopened.bonded = x.bonded ∧ x.reopened.lastStatus = x.closeStatus
    ∧ x.reopened.shBond = none ∧ x.reopened.grout = x.grout ∧ x.reopened.shRun = x.shRun := by
  unfold Barrier.reopened
  split <;> simp_all

theorem reopened_expect_none (h : x.shBond = none) : x.reopened.expect = x.expect - x.nextDelta := by simp [Barrier.reopened, h]

theorem reopened_some {nb : Bond} (h : x.shBond = some nb) : x.reopened.expect = nb.expect ∧ x.reopened.bond = some nb := by simp [Barrier.reopened, h]

/-! ### What a close sends -/

/-- R257, R258. The lintel record after a close: the next course's children have been seen, and nothing waits to go up. -/
structure LintelClosed (l m : Lintel) : Prop where
  seen : m.seen = l.seenNext
  seenNext : m.seenNext = 0
  upwait : m.upwait = false

/-- R100. The data path of a close before its hods leave. -/
structure Closing (e : Env) (d : Dp) (i : Nat) (x : Barrier) (d3 : Dp) : Prop where
  bricks : d3.bricks = (setBarrier d i (x.closed (tileGt e (homeOf e i)) (goneOf d i))).bricks
  lintel : ∀ l, fget d.lintels i = some l → ∃ m, fget d3.lintels i = some m ∧ LintelClosed l m

/-- R100. A close by the barrier's own count, no run waiting: what it sends leaves, the hods of the tree last. -/
theorem closeCourse_shape (hrun : x.shRun = none) (e : Env) (d : Dp) (i : Nat) (b : Brick) (carry : Nat) :
    ∃ d3 kids d4, Closing e d i x d3 ∧ d4 = emitKids e (emit e d3 (homeOf e i) i 0 (releaseHods d (homeOf e i) b x (closeRel e i b x)) none carry) i kids
      ∧ (closeCourse e d i b x none carry = d4 ∨ ∃ r, closeCourse e d i b x none carry = sendUp e d4 i r) := by
  unfold closeCourse
  extract_lets t h lt course shrunk st expect switch gone x1 x2 x3 d1 unbond root
  have hst : st = x.closeStatus := by simp [st, shrunk, Barrier.closeStatus]
  have hx3 : x3 = x.reopened := by
    simp only [x3, x2, x1, hst]
    rfl
  obtain ⟨-, -, -, -, -, -, -, -, -, -, hrun2⟩ := reopened_fields (x := x)
  have hd1 : d1 = d := by
    change (match x3.shRun, x3.grout with | some r, some g => switchRun e d i b g.run r | _, _ => d) = d
    rw [hx3, hrun2, hrun]
  have hunbond : unbond = x.unbonds := by rw [Barrier.unbonds, ← hx3]
  clear_value x3 st d1 unbond
  subst hx3 hst hd1 hunbond
  split
  next res fl hres =>
  have hres : x.closeResult = (res, fl) := by
    rw [Barrier.closeResult]
    cases hcfg : x.grout.bind (fun g => g.run.cfg.map (fun c => (c, g))) with
    | none => rw [hcfg] at hres; exact hres
    | some p => rw [hcfg] at hres; exact hres
  split
  next down downFl tag hdown =>
  extract_lets g1
  split
  next grout cfg hrunning =>
  have hgrout : g1 = grout ∧ (if switch then some x.reopened.cfg else none) = cfg := by
    rw [hrun2, hrun] at hrunning
    exact Prod.mk.inj hrunning
  extract_lets x4 x5 timed instant rel outs d2 d3 d4 d5 d6 d7 d8 d9 kids d10
  obtain ⟨rfl, rfl⟩ := hgrout
  have hrel : rel = closeRel e i b x := by
    unfold closeRel
    rw [hres]
    simp only [rel, Option.isNone_none, Bool.and_true]
    rfl
  have hx5 : x5 = x.closed (tileGt e t) gone := by
    unfold Barrier.closed
    rw [hres]
  have hnoted : d8.bricks = d2.bricks ∧ d8.lintels = d1.lintels := by
    have h4 : d4.bricks = d2.bricks ∧ d4.lintels = d1.lintels := by
      unfold d4
      split
      · exact ⟨rfl, rfl⟩
      · split
        · exact ⟨rfl, rfl⟩
        · exact ⟨rfl, rfl⟩
    have h7 : NoteFrame d4 d7 := ((noteFrame_bumpP b.part 2 1).trans ((noteFrame_bumpP b.part 3 1).ite (NoteFrame.refl d5))).trans (noteFrame_trace _ _)
    exact ⟨h7.bricks.trans h4.1, h7.lintels.trans h4.2⟩
  refine ⟨d9, kids, d10, ?_, ?_, ?_⟩
  · have h9 : d9.bricks = d8.bricks := by
      unfold d9
      clear_value lt
      split
      · rfl
      · rfl
    refine ⟨h9.trans (hnoted.1.trans (by rw [← hx5])), fun l hl => ?_⟩
    have h9 : d9 = { d8 with lintels := fput d8.lintels i { l with
        seen := l.seenNext, seenNext := 0, upwait := false, upPay := none
        lastRel := some (releaseRec 2 course tag x.closeStatus downFl down (instant.getD 0)) } } := by
      unfold d9
      rw [show lt = some l from hl]
    rw [h9]
    exact ⟨_, fget_fput_self _ _ _, rfl, rfl, rfl⟩
  · rw [← hrel]
  · by_cases hu : x.unbonds = true
    · exact .inr ⟨_, if_pos hu⟩
    · exact .inl (if_neg hu)

/-! ### The hods of the tree (R258) -/

/-- What hods on links change of what has been said: nothing that was sent, no brick, and of brick i's record the last release only. -/
structure KidsSent (i : Nat) (d d2 : Dp) : Prop where
  bricks : d2.bricks = d.bricks
  keeps : SentKeeps d d2
  lintel : ∀ l, fget d.lintels i = some l → ∃ r, fget d2.lintels i = some { l with lastRel := r }

theorem KidsSent.refl (d : Dp) : KidsSent i d d := ⟨rfl, SentKeeps.refl d, fun l hl => ⟨l.lastRel, hl⟩⟩

theorem KidsSent.trans {d3 : Dp} (h : KidsSent i d d2) (g : KidsSent i d2 d3) : KidsSent i d d3 := by
  refine ⟨g.bricks.trans h.bricks, h.keeps.trans g.keeps, fun l hl => ?_⟩
  obtain ⟨r, hr⟩ := h.lintel l hl
  obtain ⟨r2, hr2⟩ := g.lintel _ hr
  exact ⟨r2, hr2⟩

theorem KidsSent.of_link (h : LinkFrame d d2) : KidsSent i d d2 := by
  refine ⟨?_, h.sentKeeps, fun l hl => ⟨l.lastRel, ?_⟩⟩
  · obtain ⟨_, _, _, _, _, _, rfl⟩ := h
    rfl
  · obtain ⟨_, _, _, _, _, _, rfl⟩ := h
    exact hl

theorem kidsSent_sendKid (e : Env) (i : Nat) (d : Dp) (k : KidHod) : KidsSent i d (sendKid e i d k) := by
  unfold sendKid
  split
  · exact KidsSent.of_link (LinkFrame.sendTwin e d i _)
  · split
    · next l hl =>
      have hkept : KidsSent i d { d with lintels := fput d.lintels i { l with lastRel := some k.rec_ } } := by
        refine ⟨rfl, sentKeeps_same rfl rfl rfl, fun m hm => ?_⟩
        obtain rfl : l = m := by simpa [hl] using hm
        exact ⟨_, fget_fput_self _ _ _⟩
      exact hkept.trans (KidsSent.of_link (LinkFrame.sendKids e _ i _ _))
    · exact KidsSent.of_link (LinkFrame.sendKids e d i _ _)

theorem kidsSent_foldl (e : Env) (i : Nat) (l : List KidHod) (d : Dp) : KidsSent i d (l.foldl (sendKid e i) d) :=
  List.foldlRecOn l (sendKid e i) (KidsSent.refl d) (fun d2 h2 k _ => h2.trans (kidsSent_sendKid e i d2 k))

theorem kidsSent_emitKids (e : Env) (d : Dp) (i : Nat) (l : List KidHod) : KidsSent i d (emitKids e d i l) := by
  unfold emitKids
  split
  · next m u _ _ =>
    split
    · refine ⟨rfl, sentKeeps_of (fun _ hg => hg) (fun v hv => ?_) rfl, fun l hl => ⟨l.lastRel, hl⟩⟩
      rcases mem_modFirst_of_mem (p := fun x => x.id == u.id) (f := fun x : MirUpd => { x with kids := x.kids ++ l }) hv with hv | hv
      · exact ⟨_, hv, fun _ hg => hg⟩
      · exact ⟨_, hv, fun _ hg => hg⟩
    · exact kidsSent_foldl e i l d
  · exact kidsSent_foldl e i l d

/-! ### A close, and where closing stops (R100) -/

/-- R100. What a close by the barrier's own count leaves: the barrier, its releases, and the record of a lintel brick. -/
structure Closed (e : Env) (d : Dp) (i : Nat) (b : Brick) (x : Barrier) (d2 : Dp) : Prop where
  bricks : ∀ k, brickOf d2 k = if k = i then { brickOf d i with body := .barrier (x.closed (tileGt e (homeOf e i)) (goneOf d i)) } else brickOf d k
  sent : ∀ g ∈ releaseHods d (homeOf e i) b x (closeRel e i b x), ∀ tells : HodBody → Prop, tells g.body → Sent d2 g.dst tells
  lintel : ∀ l, fget d.lintels i = some l → ∃ m, fget d2.lintels i = some m ∧ LintelClosed l m

theorem closeCourse_closed (hrun : x.shRun = none) (e : Env) (d : Dp) (i : Nat) (b : Brick) (carry : Nat) :
    Closed e d i b x (closeCourse e d i b x none carry) := by
  obtain ⟨d3, kids, d4, hclosing, hd4, hclose⟩ := closeCourse_shape hrun e d i b carry
  have hlast : KidsSent i d4 (closeCourse e d i b x none carry) := by
    rcases hclose with hclose | ⟨r, hclose⟩
    · rw [hclose]
      exact KidsSent.refl d4
    · rw [hclose]
      exact KidsSent.of_link (LinkFrame.sendUp e d4 i r)
  have hkids : KidsSent i (emit e d3 (homeOf e i) i 0 (releaseHods d (homeOf e i) b x (closeRel e i b x)) none carry) (closeCourse e d i b x none carry) :=
    (hd4 ▸ kidsSent_emitKids ..).trans hlast
  have hemit := numFrame_emit (e := e) (d := d3) (t := homeOf e i) (i := i) (outs := releaseHods d (homeOf e i) b x (closeRel e i b x)) none carry 0
  refine ⟨fun k => ?_, fun g hg tells ht => hkids.keeps _ _ (emit_sent hg ht), fun l hl => ?_⟩
  · exact (brickOf_congr (hkids.bricks.trans (hemit.bricks.trans hclosing.bricks)) k).trans (brickOf_setBrick d i k _)
  · obtain ⟨m, hm, hseen, hnext, hup⟩ := hclosing.lintel l hl
    obtain ⟨r, hr⟩ := hkids.lintel m (by rw [hemit.lintels]; exact hm)
    exact ⟨_, hr, hseen, hnext, hup⟩

/-- R92, R100, R117. What a close sets in the barrier. -/
structure Opened (x y : Barrier) : Prop where
  course : y.course = x.course + 1
  count : y.count = x.ahead
  ahead : y.ahead = 0
  nextDelta : y.nextDelta = 0
  shrunk : y.shrunk = false
  armed : y.armed = (x.armed && !x.unbonds)
  bonded : y.bonded = (x.bonded && !x.unbonds)
  lastStatus : y.lastStatus = x.closeStatus
  expect : y.expect = x.reopened.expect
  bond : y.bond = x.reopened.bond
  shBond : y.shBond = none

theorem opened_closed (x : Barrier) (g : Dword) (gone : BitVec 64) : Opened x (x.closed g gone) := by
  obtain ⟨hcourse, hcount, hahead, hdelta, hshrunk, harmed, hbonded, hlast, hbond, -, -⟩ := reopened_fields (x := x)
  unfold Barrier.closed
  extract_lets z y
  have hy : Opened x y := by
    refine ⟨hcourse, hcount, hahead, hdelta, hshrunk, ?_, ?_, hlast, rfl, rfl, hbond⟩
    · exact congrArg (fun b => b && !x.unbonds) harmed
    · exact congrArg (fun b => b && !x.unbonds) hbonded
  split
  · obtain ⟨h1, h2, h3, h4, h5, h6, h7, h8, h9, h10, h11⟩ := hy
    exact ⟨h1, h2, h3, h4, h5, h6, h7, h8, h9, h10, h11⟩
  · exact hy

/-- R197. The grout of the course that opens. -/
theorem closed_grout (x : Barrier) (g : Dword) (gone : BitVec 64) : (x.closed g gone).grout
    = x.grout.map (fun h => Grout.fresh x.reopened gone { h with cum := h.cum ||| x.closeResult.2, result := x.closeResult.1, resFlags := x.closeResult.2 }) := by
  obtain ⟨-, -, -, -, -, -, -, -, -, hgrout, -⟩ := reopened_fields (x := x)
  rw [← hgrout]
  unfold Barrier.closed
  extract_lets z y
  split
  · rfl
  · rfl

section
variable {y : Barrier} (hbody : (brickOf d i).body = .barrier y)
include hbody

/-- R100. A course that is not complete does not close. -/
theorem closeIfDone_stops (hopen : y.armed = false ∨ y.bonded = false ∨ y.poisoned = true ∨ y.count < y.expect) (n : Nat) : closeIfDone e i carry n d = d := by
  cases n with
  | zero => rfl
  | succ n =>
    have hcond : (!(y.armed && y.bonded && !y.poisoned) || decide (y.count < y.expect)) = true := by
      rcases hopen with h | h | h | h <;> simp [h]
    unfold closeIfDone
    simp only [hbody, hcond, if_true]

variable (harmed : y.armed = true) (hbonded : y.bonded = true) (hpoison : y.poisoned = false) (hdone : y.expect ≤ y.count)
include harmed hbonded hpoison hdone

/-- R100, R257. A complete course of a brick without an uplink closes, and what then opens is looked at in turn. -/
theorem closeIfDone_closes (hroot : ∀ l, fget d.lintels i = some l → l.upv = false) (n : Nat) :
    closeIfDone e i carry (n + 1) d = closeIfDone e i 0 n (closeCourse e d i (brickOf d i) y none carry) := by
  have hcond : (!(y.armed && y.bonded && !y.poisoned) || decide (y.count < y.expect)) = false := by
    simp [harmed, hbonded, hpoison, hdone]
  rw [closeIfDone]
  simp only [hbody, hcond, Bool.false_eq_true, if_false]
  cases hl : fget d.lintels i with
  | none => rfl
  | some l => simp [hroot l hl]

/-- R100. A course that closes, where the next one is not complete as it opens, closes alone. -/
theorem settleBarrier_closes (hroot : ∀ l, fget d.lintels i = some l → l.upv = false) (hrun : y.shRun = none)
    (hnext : y.unbonds = true ∨ y.ahead < y.reopened.expect) : Closed e d i (brickOf d i) y (settleBarrier e d i carry) := by
  have hclosed := closeCourse_closed hrun e d i (brickOf d i) carry
  have hopened := opened_closed y (tileGt e (homeOf e i)) (goneOf d i)
  have hstop : closeIfDone e i carry 3 d = closeCourse e d i (brickOf d i) y none carry := by
    rw [closeIfDone_closes hbody harmed hbonded hpoison hdone hroot]
    refine closeIfDone_stops (y := y.closed (tileGt e (homeOf e i)) (goneOf d i)) (by rw [hclosed.bricks, if_pos rfl]) ?_ 2
    rcases hnext with hunbond | hahead
    · exact .inl (by rw [hopened.armed, hunbond, Bool.not_true, Bool.and_false])
    · exact .inr (.inr (.inr (by rw [hopened.count, hopened.expect]; exact hahead)))
  have hemit := emit_change_emitted e (closeCourse e d i (brickOf d i) y none carry) (homeOf e i) i 0 none carry
  have hframe := hemit.frame.num
  rw [settleBarrier, hstop]
  refine ⟨fun k => (brickOf_congr hframe.bricks k).trans (hclosed.bricks k), fun g hg tells ht => hemit.keeps _ _ (hclosed.sent g hg tells ht), fun l hl => ?_⟩
  rw [hframe.lintels]
  exact hclosed.lintel l hl

end

/-- R74. A course that does not close: only the mirror is told. -/
theorem settleBarrier_open {y : Barrier} (hbody : (brickOf d i).body = .barrier y)
    (hopen : y.armed = false ∨ y.bonded = false ∨ y.poisoned = true ∨ y.count < y.expect) :
    settleBarrier e d i carry = emit e d (homeOf e i) i 0 [] none carry := by
  rw [settleBarrier, closeIfDone_stops hbody hopen]

theorem sent_mono {dst : Port} {p q : HodBody → Prop} (h : Sent d dst p) (hpq : ∀ c, p c → q c) : Sent d dst q := by
  rcases h with ⟨g, hg, hdst, ht⟩ | ⟨u, hu, g, hg, hdst, ht⟩ | ⟨w, hw, g, hg, hdst, ht⟩
  · exact .inl ⟨g, hg, hdst, hpq _ ht⟩
  · exact .inr (.inl ⟨u, hu, g, hg, hdst, hpq _ ht⟩)
  · exact .inr (.inr ⟨w, hw, g, hg, hdst, hpq _ ht⟩)

/-- The release of a close reaches each joint with a bed of the brick. -/
theorem Closed.released (h : Closed e d i b x d2) {j : Nat} {w : Bool} (hj : j ∈ bedJoints d (brickHandle e i b) w) :
    Sent d2 (.joint j) (fun c => c = .release (closeRel e i b x)) :=
  h.sent _ (release_mem_releaseHods (r := closeRel e i b x) hj (homeOf e i) b x) _ rfl

end Sys2Proof.Machine
end

section
/-! O22: a shrink hod at its barrier's home tile (R115 to R118): EXPECT falls, the course closes or the bond ends, or the barrier is poisoned. -/

namespace Sys2Proof.Machine

open Sys2Proof.Safety

variable {e : Env} {d d2 : Dp} {n i off next agent : Nat} {h : Hod} {b : Brick} {x : Barrier} {key : IncKey}

/-! ### The hod at its tile -/

/-- R115, R116. A barrier, no grout in force, without a departed agent's counts. -/
def Barrier.shrink (x : Barrier) (off next agent : Nat) : Barrier :=
  let y := { x with expect := x.expect - off, nextDelta := x.nextDelta + next, shrunk := true }
  if next = 0 then { y with left := y.left ++ [agent] } else { y with leaving := y.leaving ++ [agent] }

/-- What a shrink sets, and what it leaves. -/
structure Shrunk (x : Barrier) (off next : Nat) (y : Barrier) : Prop where
  expect : y.expect = x.expect - off
  nextDelta : y.nextDelta = x.nextDelta + next
  shrunk : y.shrunk = true
  course : y.course = x.course
  count : y.count = x.count
  ahead : y.ahead = x.ahead
  poisoned : y.poisoned = x.poisoned
  armed : y.armed = x.armed
  bonded : y.bonded = x.bonded
  shBond : y.shBond = x.shBond
  shRun : y.shRun = x.shRun

theorem shrunk_shrink (x : Barrier) (off next agent : Nat) : Shrunk x off next (x.shrink off next agent) := by
  unfold Barrier.shrink
  extract_lets y
  split
  · exact ⟨rfl, rfl, rfl, rfl, rfl, rfl, rfl, rfl, rfl, rfl, rfl⟩
  · exact ⟨rfl, rfl, rfl, rfl, rfl, rfl, rfl, rfl, rfl, rfl, rfl⟩

theorem shrink_grout (hgrout : x.grout = none) : (x.shrink off next agent).grout = none := by
  unfold Barrier.shrink
  extract_lets y
  split
  · exact hgrout
  · exact hgrout

theorem shrinkBarrier_eq (hgrout : x.grout = none) :
    shrinkBarrier e d i x off next (some agent) = settleBarrier e (setBarrier d i (x.shrink off next agent)) i := by
  have hnone := shrink_grout (off := off) (next := next) (agent := agent) hgrout
  unfold shrinkBarrier
  extract_lets gone x1 x2 x3
  have hx3 : x3 = x.shrink off next agent := by
    change (match (x.shrink off next agent).grout with
      | some g => (match g.run.cfg with
        | some c => if c.folds then { x.shrink off next agent with grout := some (advance c (x.shrink off next agent) gone (x.shrink off next agent).ranks g.next g) } else x.shrink off next agent
        | none => x.shrink off next agent)
      | none => x.shrink off next agent) = _
    rw [hnone]
  rw [hx3]

/-- R115, R118. What a shrink hod of the course c does to barrier x. -/
def shrinkDone (e : Env) (d : Dp) (i : Nat) (x : Barrier) (c : Word) (now_ next_ ex agent : Nat) : Dp :=
  if x.arm.depart then (if x.poisoned then d else departPoison e d i agent)
  else if c = x.course + 1 then shrinkBarrier e d i x now_ next_ (some agent)
  else shrinkBarrier e d i x ex 0 (some agent)

theorem shrinkHod_runs {s : State} {c : Word} {now_ next_ ex rank : Nat} (htakes : TileTakes s.env s.dp n (homeOf s.env i) h)
    (hbody : h.body = .shrink i c now_ next_ ex agent rank) (hb : brickOf s.dp i = b) (hbarrier : b.body = .barrier x) (hvalid : b.valid = true)
    (hlost : b.lost = none) (hbonded : x.bonded = true) :
    ∃ d d2, NoteFrame (dropHod s.dp n) d ∧ exec (.shrinkHod n) s = .next { s with dp := d2 } ∧ d2 = shrinkDone s.env d i x c now_ next_ ex agent := by
  have htook := noteFrame_tookAt (e := s.env) (d := s.dp) (n := n) (t := homeOf s.env i) (h := h)
  refine ⟨_, _, htook.trans (noteFrame_touchSlot (t := homeOf s.env i) (.brick i) true), rfl, ?_⟩
  rw [tileHod_takes htakes (by rw [hbody]; rfl), runHod, hbody]
  simp only [takeShrink, (htook.brickOf i).trans hb, hbarrier, hvalid, hlost, hbonded, Option.isNone_none, Bool.and_true, Bool.not_true, Bool.false_eq_true, if_false]
  rfl

/-! ### EXPECT falls (R115 to R117) -/

section
variable {s : State} (hdrop : NoteFrame (dropHod s.dp n) d) (hb : brickOf s.dp i = b) (hgrout : x.grout = none)
  (hd2 : d2 = shrinkBarrier s.env d i x off next (some agent))
include hdrop hb hgrout hd2

/-- R115. The course stays open. -/
theorem shrinkBarrier_stays (hcopy : fget s.dp.mirCopies (stripeKey i 0) = none) (hopen : x.armed = true → x.count < x.expect - off) :
    ∃ y, Shrunk x off next y ∧ brickOf d2 i = { b with body := .barrier y } ∧ (∀ k, k ≠ i → brickOf d2 k = brickOf s.dp k) ∧ d2.net = eraseAt s.dp.net n := by
  have hshrunk := shrunk_shrink x off next agent
  have hset : ∀ k, brickOf (setBarrier d i (x.shrink off next agent)) k
      = if k = i then { b with body := .barrier (x.shrink off next agent) } else brickOf s.dp k := by
    intro k
    refine (brickOf_setBrick d i k _).trans ?_
    rw [hdrop.brickOf, hdrop.brickOf, brickOf_dropHod, brickOf_dropHod, hb]
  have hstops : (x.shrink off next agent).armed = false ∨ (x.shrink off next agent).bonded = false ∨ (x.shrink off next agent).poisoned = true
      ∨ (x.shrink off next agent).count < (x.shrink off next agent).expect := by
    rw [hshrunk.armed, hshrunk.count, hshrunk.expect]
    cases harmed : x.armed with
    | false => exact .inl rfl
    | true => exact .inr (.inr (.inr (hopen harmed)))
  have hend : d2 = setBarrier d i (x.shrink off next agent) := by
    rw [hd2, shrinkBarrier_eq hgrout, settleBarrier_open (y := x.shrink off next agent) (by rw [hset, if_pos rfl]) hstops]
    exact emitNone_prompt ((congrArg (fun l => fget l (stripeKey i 0)) hdrop.mirCopies).trans hcopy)
  refine ⟨_, hshrunk, ?_, fun k hk => ?_, ?_⟩
  · rw [hend, hset, if_pos rfl]
  · rw [hend, hset, if_neg hk]
  · rw [hend]
    exact hdrop.net

/-- R115, R117. The course closes. -/
theorem shrinkBarrier_closes (hlintel : fget s.dp.lintels i = none) (harmed : x.armed = true) (hbonded : x.bonded = true) (hpoison : x.poisoned = false)
    (hdone : x.expect - off ≤ x.count) (hbond : x.shBond = none) (hrun : x.shRun = none)
    (hnext : x.ahead < x.expect - off - (x.nextDelta + next) ∨ x.expect - off - (x.nextDelta + next) = 0) :
    ∃ x1 y, Shrunk x off next x1 ∧ Opened x1 y ∧ brickOf d2 i = { b with body := .barrier y } ∧ (∀ k, k ≠ i → brickOf d2 k = brickOf s.dp k)
      ∧ ∀ j ∈ bedJoints s.dp (brickHandle s.env i b) false, Sent d2 (.joint j) (fun g => g = .release (closeRel s.env i b x1)) := by
  have hshrunk := shrunk_shrink x off next agent
  have hbrick : brickOf (setBarrier d i (x.shrink off next agent)) i = { b with body := .barrier (x.shrink off next agent) } := by
    refine (brickOf_setBrick d i i _).trans ((if_pos rfl).trans ?_)
    rw [hdrop.brickOf, brickOf_dropHod, hb]
  have hexpect : (x.shrink off next agent).reopened.expect = x.expect - off - (x.nextDelta + next) := by
    rw [reopened_expect_none (hshrunk.shBond.trans hbond), hshrunk.expect, hshrunk.nextDelta]
  have hclosed : Closed s.env (setBarrier d i (x.shrink off next agent)) i { b with body := .barrier (x.shrink off next agent) } (x.shrink off next agent) d2 := by
    rw [hd2, shrinkBarrier_eq hgrout, ← hbrick]
    refine settleBarrier_closes (by rw [hbrick]) (hshrunk.armed.trans harmed) (hshrunk.bonded.trans hbonded) (hshrunk.poisoned.trans hpoison) ?_ ?_
      (hshrunk.shRun.trans hrun) ?_
    · rw [hshrunk.expect, hshrunk.count]
      exact hdone
    · intro l hl
      have hnone : fget (setBarrier d i (x.shrink off next agent)).lintels i = none := (congrArg (fun l => fget l i) hdrop.lintels).trans hlintel
      rw [hnone] at hl
      cases hl
    · rw [Barrier.unbonds, hexpect, hshrunk.ahead, decide_eq_true_iff]
      exact hnext.symm
  have hafter := (hclosed.bricks i).trans (if_pos rfl)
  rw [hbrick] at hafter
  refine ⟨_, _, hshrunk, opened_closed _ _ _, hafter, fun k hk => ?_, fun j hj => ?_⟩
  · rw [hclosed.bricks, if_neg hk]
    exact (brickOf_setBrick d i k _).trans ((if_neg hk).trans (hdrop.brickOf k))
  · have hj : j ∈ bedJoints (setBarrier d i (x.shrink off next agent)) (brickHandle s.env i b) false := by
      rw [bedJoints, show (setBarrier d i (x.shrink off next agent)).joints = d.joints from rfl, hdrop.joints]
      exact hj
    exact hclosed.released hj

end

/-! ### The barrier is poisoned (R118) -/

/-- R118. What a poisoning does to the brick. -/
theorem poisonBrick_does (hbody : (brickOf d i).body = .barrier x) (hpoison : x.poisoned = false) (from_ : Dword) :
    ∃ y, y.poisoned = true ∧ y.course = x.course ∧ y.dlAt = 0
      ∧ (∀ k, brickOf (poisonBrick e d i key from_) k = if k = i then { brickOf d i with body := .barrier y } else brickOf d k)
      ∧ (poisonBrick e d i key from_).inc.reports = d.inc.reports := by
  unfold poisonBrick
  extract_lets b t
  split
  case h_2 hne => exact absurd hbody (hne x)
  next y hy =>
  obtain rfl : x = y := Body.barrier.inj (hbody.symm.trans hy)
  rw [if_neg (by rw [hpoison]; exact Bool.false_ne_true)]
  extract_lets g outs d1 d2 d3
  have hset : d2.bricks = d1.bricks := rfl
  have hnum : NumFrame d2 d3 := (numFrame_emit none 0 0).trans numFrame_sendNumbered
  have hlink := LinkFrame.spreadPoison e d3 i (x.course + 1) from_
  refine ⟨{ x with poisoned := true, dlAt := 0, expired := false, poisonInc := some key, grout := g }, rfl, rfl, rfl, fun k => ?_, ?_⟩
  · have hbricks : (spreadPoison e d3 i (x.course + 1) from_).bricks = d3.bricks := by
      obtain ⟨_, _, _, _, _, _, hl⟩ := hlink
      rw [hl]
    exact (brickOf_congr (hbricks.trans (hnum.bricks.trans hset)) k).trans (brickOf_setBrick d i k _)
  · have hreports : (spreadPoison e d3 i (x.course + 1) from_).inc.reports = d3.inc.reports := by
      obtain ⟨_, _, _, _, _, _, hl⟩ := hlink
      rw [hl]
    exact hreports.trans hnum.reports

/-- R115, R118. The departure of an agent is reported, and poisons the barrier. -/
theorem departPoison_does (hbody : (brickOf d i).body = .barrier x) (hpoison : x.poisoned = false) (agent : Nat) :
    ∃ y, y.poisoned = true ∧ y.course = x.course ∧ y.dlAt = 0
      ∧ (∀ k, brickOf (departPoison e d i agent) k = if k = i then { brickOf d i with body := .barrier y } else brickOf d k)
      ∧ (∃ q ∈ (departPoison e d i agent).inc.reports, q.1 = .tile (homeOf e i) ∧ q.2.key.kind = .depart ∧ q.2.key.srcId = BitVec.ofNat 32 agent) := by
  unfold departPoison
  extract_lets b key r d1
  have hreported : ∃ q ∈ d1.inc.reports, q.1 = .tile (homeOf e i) ∧ q.2.key = key :=
    report_buffered e d (.tile (homeOf e i)) _ (by change IncKind.depart.cls ≠ .notice; decide)
  obtain ⟨_, _, hframe⟩ := report_frame e d (.tile (homeOf e i)) { mkReport e key (some b.part) with d0 := brickHandle e i b }
  have hsame : ∀ k, brickOf d1 k = brickOf d k := fun k => brickOf_congr (congrArg Dp.bricks hframe) k
  obtain ⟨y, hy, hcourse, hdl, hbricks, hreports⟩ := poisonBrick_does (e := e) (d := d1) (key := key) (by rw [hsame]; exact hbody) hpoison 0
  refine ⟨y, hy, hcourse, hdl, fun k => ?_, ?_⟩
  · rw [hbricks, hsame, hsame]
  · obtain ⟨q, hq, hsrc, hkey⟩ := hreported
    exact ⟨q, hreports ▸ hq, hsrc, by rw [hkey]; rfl, by rw [hkey]; rfl⟩

/-- Settles O22: the hod shrinks the barrier, whose course stays open or closes, or poisons it. -/
theorem shrinkHodApplies : Obligations.ShrinkHodApplies := by
  unfold Obligations.ShrinkHodApplies
  intro s n h i c now_ next_ ex agent rank b x htakes hbody hb hbarrier hvalid hlost hbonded hgrout hcopy hlintel
  obtain ⟨d, d2, hdrop, hexec, hd2⟩ := shrinkHod_runs htakes hbody hb hbarrier hvalid hlost hbonded
  have hshrink : x.arm.depart = false → ∀ off next, (c = x.course + 1 ∧ off = now_ ∧ next = next_ ∨ c ≠ x.course + 1 ∧ off = ex ∧ next = 0) →
      d2 = shrinkBarrier s.env d i x off next (some agent) := by
    rintro hdepart off next (⟨hc, rfl, rfl⟩ | ⟨hc, rfl, rfl⟩)
    · rw [hd2, shrinkDone, hdepart, if_neg Bool.false_ne_true, if_pos hc]
    · rw [hd2, shrinkDone, hdepart, if_neg Bool.false_ne_true, if_neg hc]
  refine ⟨fun hdepart hc hopen => ?_, fun hdepart hc hopen => ?_, fun off next hcase hdepart harmed hpoison hdone hbond hrun => ?_, fun hdepart hpoison => ?_⟩
  · obtain ⟨y, hy, hbrick, hothers, hnet⟩ := shrinkBarrier_stays hdrop hb hgrout (hshrink hdepart ex 0 (.inr ⟨hc, rfl, rfl⟩)) hcopy hopen
    exact ⟨_, y, hexec, rfl, hbrick, hothers, hnet, hy.expect, hy.nextDelta, hy.shrunk, hy.course, hy.count, hy.poisoned⟩
  · obtain ⟨y, hy, hbrick, hothers, hnet⟩ := shrinkBarrier_stays hdrop hb hgrout (hshrink hdepart now_ next_ (.inl ⟨hc, rfl, rfl⟩)) hcopy hopen
    exact ⟨_, y, hexec, rfl, hbrick, hothers, hnet, hy.expect, hy.nextDelta, hy.shrunk, hy.course, hy.count, hy.poisoned⟩
  · intro left hnext
    obtain ⟨x1, y, hx1, hy, hbrick, hothers, hreleased⟩ := shrinkBarrier_closes hdrop hb hgrout (hshrink hdepart off next hcase) hlintel harmed hbonded hpoison
      hdone hbond hrun hnext
    have hleft : x1.reopened.expect = left := by
      rw [reopened_expect_none (hx1.shBond.trans hbond), hx1.expect, hx1.nextDelta]
    have hunbonds : x1.unbonds = decide (left = 0) := by rw [Barrier.unbonds, hleft]
    have hstatus : x1.closeStatus = .okShrunk := by rw [Barrier.closeStatus, hx1.shrunk, if_pos rfl]
    refine ⟨_, y, hexec, rfl, hbrick, hothers, hy.course.trans (by rw [hx1.course]), hy.expect.trans hleft, hy.nextDelta, hy.shrunk,
      hy.count.trans hx1.ahead, hy.ahead, hy.lastStatus.trans hstatus, ?_, ?_, fun j hj => ?_⟩
    · rw [hy.armed, hx1.armed, harmed, hunbonds, Bool.true_and, decide_not]
    · rw [hy.bonded, hx1.bonded, hbonded, hunbonds, Bool.true_and, decide_not]
    · refine sent_mono (hreleased j hj) fun g hg => ⟨_, hg, ?_, hstatus, ?_⟩
      · exact congrArg (· + 1) hx1.course
      · change (x1.shBond.isSome || x1.unbonds) = _
        rw [hx1.shBond, hbond, hunbonds]
        rfl
  · have hbrick : brickOf d i = b := (hdrop.brickOf i).trans hb
    obtain ⟨y, hy, hcourse, hdl, hbricks, hreported⟩ := departPoison_does (e := s.env) (d := d) (i := i) (by rw [hbrick]; exact hbarrier) hpoison agent
    have hdone : d2 = departPoison s.env d i agent := by
      rw [hd2, shrinkDone, hdepart, hpoison, if_pos rfl, if_neg Bool.false_ne_true]
    refine ⟨_, y, hexec, rfl, ?_, fun k hk => ?_, hy, hcourse, hdl, hdone ▸ hreported⟩
    · rw [hdone, hbricks, if_pos rfl, hbrick]
    · rw [hdone, hbricks, if_neg hk]
      exact hdrop.brickOf k

end Sys2Proof.Machine
end

section
/-! O18: an arrival hod at its barrier's home tile (R99): it is discarded, bounced or counted, and the arrival that completes the course closes it or goes up (R100, R257). -/

namespace Sys2Proof.Machine

open Sys2Proof.Safety

variable {e : Env} {d d2 : Dp} {n i k carry : Nat} {h : Hod} {a : Arrival} {b : Brick} {x y : Barrier} {g g2 : Grout} {c : GCfg} {l : Lintel} {gone : BitVec 64} {go : Option Grout}

/-! ### The fold (R200, R204) -/

theorem advance_keeps (n k : Nat) (g : Grout) : (advance c x gone n k g).run = g.run ∧ (advance c x gone n k g).cum = g.cum := by
  induction n generalizing k g with
  | zero => exact ⟨rfl, rfl⟩
  | succ n ih =>
    rw [advance]
    cases g.window.find? (fun p => p.1 == x.nextRank gone k) with
    | none => exact ⟨rfl, rfl⟩
    | some p => exact ih _ _

/-- R204. A contribution that is taken leaves the run and the flags of the courses before. -/
theorem foldIn_keeps {p : Payload} (hfold : foldIn c x gone g k p = some g2) : g2.run = g.run ∧ g2.cum = g.cum := by
  unfold foldIn at hfold
  split_ifs at hfold with hplain hnext hwindow
  · obtain rfl := Option.some.inj hfold
    exact ⟨rfl, rfl⟩
  · obtain rfl := Option.some.inj hfold
    exact advance_keeps _ _ _
  · obtain rfl := Option.some.inj hfold
    exact ⟨rfl, rfl⟩

/-! ### The barrier that has counted an arrival (R99, R111) -/

/-- R99. Barrier x at GT t with n more arrivals, the last one's TAG, and a grout. -/
def Barrier.counting (x : Barrier) (t : Dword) (n : Nat) (tag : Word) (g : Option Grout) : Barrier :=
  { x.startTimer t with count := x.count + n, tag := tag, grout := g }

theorem counting_eq (x : Barrier) (t : Dword) (n : Nat) (tag : Word) (g : Option Grout) :
    ∃ dl, x.counting t n tag g = { x with dlAt := dl, count := x.count + n, tag := tag, grout := g } := by
  unfold Barrier.counting Barrier.startTimer
  split
  · exact ⟨_, rfl⟩
  · exact ⟨_, rfl⟩

theorem startTimer_grout (x : Barrier) (t : Dword) : (x.startTimer t).grout = x.grout := by
  unfold Barrier.startTimer
  split
  · rfl
  · rfl

/-- The statement's counted barrier, where the grout stays. -/
theorem counting_same (x : Barrier) (t : Dword) (n : Nat) (tag : Word) : x.counting t n tag x.grout = { x.startTimer t with count := x.count + n, tag := tag } := by
  rw [Barrier.counting, ← startTimer_grout x t]

theorem cfg_none (hcfg : x.cfg = none) : x.grout = none ∨ ∃ g, x.grout = some g ∧ g.run.cfg = none := by
  cases hg : x.grout with
  | none => exact .inl rfl
  | some g => exact .inr ⟨g, rfl, by simpa [Barrier.cfg, hg] using hcfg⟩

theorem countArrival_plain (hcfg : x.cfg = none) (n k : Nat) (tag : Word) (p : Payload) :
    countArrival e d i x n k tag p = some (settleBarrier e (setBarrier d i (x.counting (tileGt e (homeOf e i)) n tag x.grout)) i) := by
  rw [counting_same]
  rcases cfg_none hcfg with hg | ⟨g, hg, hrun⟩
  · simp only [countArrival, hg]
  · simp only [countArrival, hg, hrun]

theorem countArrival_folds (hg : x.grout = some g) (hc : g.run.cfg = some c) {p : Payload} (hfold : foldIn c x (skipOf d i) g k p = some g2)
    (n : Nat) (tag : Word) :
    countArrival e d i x n k tag p = some (settleBarrier e (setBarrier d i (x.counting (tileGt e (homeOf e i)) n tag (some g2))) i p.bytes) := by
  simp only [countArrival, hg, hc, hfold]
  rfl

theorem countArrival_bounces (hg : x.grout = some g) (hc : g.run.cfg = some c) {p : Payload} (hfold : foldIn c x (skipOf d i) g k p = none)
    (n : Nat) (tag : Word) : countArrival e d i x n k tag p = none := by
  simp only [countArrival, hg, hc, hfold]

/-! ### The hod at its tile -/

/-- What the home tile has noted of arrival a, before it counts. -/
def arrivalNoted (e : Env) (d : Dp) (b : Brick) (a : Arrival) : Dp :=
  noteRaw e (touchSlot d (homeOf e a.index) (.brick a.index) true) (homeOf e a.index) b a.handle a.tag a.agent a.gang a.op .ok a.course

theorem arrivalHod_runs {s : State} (htakes : TileTakes s.env s.dp n (homeOf s.env a.index) h) (hbody : h.body = .arrival a) :
    exec (.arrivalHod n) s = .next { s with dp := takeArrival s.env (tookAt s.env s.dp n (homeOf s.env a.index) h) a } := by
  rw [show exec (.arrivalHod n) s = .next { s with dp := tileHod s.env s.dp n isArrival } from rfl, tileHod_takes htakes (by rw [hbody]; rfl), runHod, hbody]

section
variable (hb : brickOf d a.index = b) (hbarrier : b.body = .barrier x)
include hb hbarrier

/-- R99. An arrival of another course is discarded. -/
theorem takeArrival_discards (hcourse : a.course ≠ x.course + 1) : takeArrival e d a = discardHod e d (homeOf e a.index) := by
  simp only [takeArrival, hb, hbarrier]
  exact if_pos (by rw [decide_eq_true hcourse, Bool.or_true])

variable (hvalid : b.valid = true) (hlost : b.lost = none) (hhandle : brickHandle e a.index b = a.handle) (harmed : x.armed = true) (hbonded : x.bonded = true)
  (hpoison : x.poisoned = false) (hcourse : a.course = x.course + 1)
include hvalid hlost hhandle harmed hbonded hpoison hcourse

/-- R99. An arrival of the open course is counted, or bounces. -/
theorem takeArrival_open : takeArrival e d a
    = (countArrival e (arrivalNoted e d b a) a.index x a.count a.pay.rank a.tag a.pay).getD
        (send e (bumpT e (touchSlot d (homeOf e a.index) (.brick a.index) true) (homeOf e a.index) 17) (.tile (homeOf e a.index)) (.joint a.joint) .rsp b.part (.bounce a)) := by
  simp only [takeArrival, hb, hbarrier]
  refine (if_neg (by simp [hvalid, hlost, hhandle, harmed, hbonded, hpoison, hcourse])).trans ?_
  change (match countArrival e (arrivalNoted e d b a) a.index x a.count a.pay.rank a.tag a.pay with | some d => d | none => _) = _
  cases countArrival e (arrivalNoted e d b a) a.index x a.count a.pay.rank a.tag a.pay with
  | none => rfl
  | some d => rfl

end

theorem noteFrame_arrivalNoted : NoteFrame d (arrivalNoted e d b a) := (noteFrame_touchSlot _ _).trans (noteFrame_noteRaw ..)

/-! ### What the counted arrival makes of the barrier -/

/-- The brick has barrier y, and the other bricks stay. -/
def Becomes (s : State) (i : Nat) (b : Brick) (d : Dp) (y : Barrier) : Prop :=
  brickOf d i = { b with body := .barrier y } ∧ ∀ k, k ≠ i → brickOf d k = brickOf s.dp k

section
variable {s : State} (hdrop : NoteFrame (dropHod s.dp n) d) (hb : brickOf s.dp i = b) (hd2 : d2 = settleBarrier s.env (setBarrier d i y) i carry)
include hdrop hb

theorem brickOf_counted (y : Barrier) (k : Nat) : brickOf (setBarrier d i y) k = if k = i then { b with body := .barrier y } else brickOf s.dp k := by
  refine (brickOf_setBrick d i k _).trans ?_
  rw [hdrop.brickOf, hdrop.brickOf, brickOf_dropHod, brickOf_dropHod, hb]

theorem becomes_of {d2 : Dp} {z : Barrier} (h : ∀ k, brickOf d2 k = if k = i then { b with body := .barrier z } else brickOf (setBarrier d i y) k) :
    Becomes s i b d2 z :=
  ⟨(h i).trans (if_pos rfl), fun k hk => (h k).trans ((if_neg hk).trans ((brickOf_counted hdrop hb y k).trans (if_neg hk)))⟩

omit hb in
theorem lintels_counted (y : Barrier) : (setBarrier d i y).lintels = s.dp.lintels := hdrop.lintels

include hd2

/-- R99, R74, R199. The course stays open: the mirror is told, where there is one. -/
theorem arrival_open (hopen : y.count < y.expect) :
    Becomes s i b d2 y ∧ (fget s.dp.mirCopies (stripeKey i 0) = none → d2.net = eraseAt s.dp.net n)
      ∧ (∀ m, fget s.dp.mirCopies (stripeKey i 0) = some m → toldCopy d2 i 0 m = brickOf d2 i) := by
  have hbody : (brickOf (setBarrier d i y) i).body = .barrier y := by rw [brickOf_counted hdrop hb, if_pos rfl]
  rw [settleBarrier_open hbody (.inr (.inr (.inr hopen)))] at hd2
  have hemit := emit_change_emitted s.env (setBarrier d i y) (homeOf s.env i) i 0 none carry
  rw [← hd2] at hemit
  obtain ⟨_, _, _, _, hframe⟩ := hemit.frame
  have hcopies : d2.mirCopies = s.dp.mirCopies := by rw [hframe]; exact hdrop.mirCopies
  refine ⟨⟨?_, fun k hk => ?_⟩, fun hcopy => ?_, fun m hm => hemit.told m (by rw [hcopies]; exact hm)⟩
  · rw [hframe]
    exact (brickOf_counted hdrop hb y i).trans (if_pos rfl)
  · rw [hframe]
    exact (brickOf_counted hdrop hb y k).trans (if_neg hk)
  · have hcopy : fget (setBarrier d i y).mirCopies (stripeKey i 0) = none := (congrArg (fun l => fget l (stripeKey i 0)) hdrop.mirCopies).trans hcopy
    have hnothing : d2 = setBarrier d i y := by
      rw [hd2]
      simp [emit, emitNow, hcopy, sendAll, sendFrom]
    rw [hnothing]
    exact hdrop.net

variable (harmed : y.armed = true) (hbonded : y.bonded = true) (hpoison : y.poisoned = false) (hdone : y.expect ≤ y.count)
include harmed hbonded hpoison hdone

/-- R100. The course closes, and the next one stays open: what the barrier becomes, who gets the release, and the record of a lintel brick. -/
theorem arrival_closes (hroot : ∀ l, fget s.dp.lintels i = some l → l.upv = false) (hrun : y.shRun = none) (hnext : y.ahead < y.reopened.expect) :
    ∃ z, Opened y z ∧ (∃ g gone, z = y.closed g gone) ∧ y.unbonds = false ∧ Becomes s i b d2 z
      ∧ (∀ l, fget s.dp.lintels i = some l → ∃ m, fget d2.lintels i = some m ∧ LintelClosed l m)
      ∧ (∀ w, ∀ j ∈ bedJoints s.dp (brickHandle s.env i b) w, Sent d2 (.joint j) (fun c => c = .release (closeRel s.env i b y))) := by
  have hbrick : brickOf (setBarrier d i y) i = { b with body := .barrier y } := (brickOf_counted hdrop hb y i).trans (if_pos rfl)
  have hclosed : Closed s.env (setBarrier d i y) i { b with body := .barrier y } y d2 := by
    rw [hd2, ← hbrick]
    exact settleBarrier_closes (by rw [hbrick]) harmed hbonded hpoison hdone (fun l hl => hroot l ((lintels_counted hdrop y) ▸ hl)) hrun (.inr hnext)
  have hunbonds : y.unbonds = false := decide_eq_false (Nat.ne_of_gt (Nat.lt_of_le_of_lt (Nat.zero_le _) hnext))
  have hbricks := hclosed.bricks
  rw [hbrick] at hbricks
  refine ⟨_, opened_closed y _ _, ⟨_, _, rfl⟩, hunbonds, becomes_of hdrop hb hbricks, fun l hl => hclosed.lintel l ((lintels_counted hdrop y).symm ▸ hl),
    fun w j hj => ?_⟩
  refine hclosed.released (w := w) ?_
  rw [bedJoints, show (setBarrier d i y).joints = s.dp.joints from hdrop.joints]
  exact hj

/-- R257. Where the brick has an uplink, the complete course goes up, once. -/
theorem arrival_goesUp (hl : fget s.dp.lintels i = some l) (hup : l.upv = true) (hwait : l.upwait = false) :
    Becomes s i b d2 { y with dlAt := 0 }
      ∧ fget d2.lintels i = some { l with upwait := true
                                          upPay := some (y.grout.elim { lanes := [], cnt := 0, flags := 0 } Grout.acc, y.closeStatus) } := by
  have hbody : (brickOf (setBarrier d i y) i).body = .barrier y := by rw [brickOf_counted hdrop hb, if_pos rfl]
  have hcond : (!(y.armed && y.bonded && !y.poisoned) || decide (y.count < y.expect)) = false := by simp [harmed, hbonded, hpoison, hdone]
  have hl2 : fget (setBarrier d i y).lintels i = some l := (lintels_counted hdrop y).symm ▸ hl
  have hups : ∃ d3 r, d3 = { setBarrier (setBarrier d i y) i { y with dlAt := 0 } with
        lintels := fput (setBarrier d i y).lintels i { l with upwait := true, upPay := some (y.grout.elim { lanes := [], cnt := 0, flags := 0 } Grout.acc, y.closeStatus) } }
      ∧ closeIfDone s.env i carry 3 (setBarrier d i y) = sendUp s.env d3 i r := by
    refine ⟨_, arriveUpRec y (y.grout.elim { lanes := [], cnt := 0, flags := 0 } Grout.acc) y.closeStatus (y.course + 1), rfl, ?_⟩
    rw [closeIfDone]
    simp only [hbody, hcond, Bool.false_eq_true, if_false, hl2, hup, hwait, if_true]
    cases y.grout with
    | none => rfl
    | some g => rfl
  obtain ⟨d3, r, hd3, hclose⟩ := hups
  have hlink := LinkFrame.sendUp s.env d3 i r
  have hemit := (emit_change_emitted s.env (sendUp s.env d3 i r) (homeOf s.env i) i 0 none carry).frame.num
  have hend : d2 = emit s.env (sendUp s.env d3 i r) (homeOf s.env i) i 0 [] none carry := by rw [hd2, settleBarrier, hclose]
  obtain ⟨hbricks, hlintels⟩ : d2.bricks = d3.bricks ∧ d2.lintels = d3.lintels := by
    rw [hend, hemit.bricks, hemit.lintels]
    obtain ⟨_, _, _, _, _, _, hk⟩ := hlink
    rw [hk]
    exact ⟨rfl, rfl⟩
  refine ⟨becomes_of hdrop hb (y := y) fun k => ?_, ?_⟩
  · refine (brickOf_congr (hbricks.trans (congrArg Dp.bricks hd3)) k).trans ((brickOf_setBrick (setBarrier d i y) i k _).trans ?_)
    rw [brickOf_counted hdrop hb y i, if_pos rfl]
  · rw [hlintels, hd3]
    exact fget_fput_self _ _ _

end

/-! ### The fields of the counted barrier, and of the barrier after the close -/

/-- R99. Barrier y is x with n more arrivals and a grout; its deadline and its TAG aside. -/
structure Counted (x : Barrier) (n : Nat) (g : Option Grout) (y : Barrier) : Prop where
  course : y.course = x.course
  count : y.count = x.count + n
  expect : y.expect = x.expect
  ahead : y.ahead = x.ahead
  nextDelta : y.nextDelta = x.nextDelta
  shrunk : y.shrunk = x.shrunk
  armed : y.armed = x.armed
  bonded : y.bonded = x.bonded
  poisoned : y.poisoned = x.poisoned
  shBond : y.shBond = x.shBond
  shRun : y.shRun = x.shRun
  grout : y.grout = g

theorem counted_counting (x : Barrier) (t : Dword) (n : Nat) (tag : Word) (g : Option Grout) : Counted x n g (x.counting t n tag g) := by
  obtain ⟨dl, h⟩ := counting_eq x t n tag g
  rw [h]
  exact ⟨rfl, rfl, rfl, rfl, rfl, rfl, rfl, rfl, rfl, rfl, rfl, rfl⟩

theorem closeResult_none (hcfg : x.cfg = none) : x.closeResult = ([], 0) := by
  rcases cfg_none hcfg with hg | ⟨g, hg, hrun⟩
  · simp [Barrier.closeResult, hg]
  · simp [Barrier.closeResult, hg, hrun]

theorem closeResult_some (hg : x.grout = some g) (hc : g.run.cfg = some c) : x.closeResult = ((result c g.acc).1, g.acc.flags ||| (result c g.acc).2) := by
  simp [Barrier.closeResult, hg, hc]

/-- R100. What the close of an armed and bonded barrier sets, the bond not ended. -/
theorem closed_fields {z : Barrier} (hy : Counted x k go y) (hz : Opened y z) (harmed : x.armed = true) (hbonded : x.bonded = true) (hunbonds : y.unbonds = false) :
    z.course = x.course + 1 ∧ z.count = x.ahead ∧ z.ahead = 0 ∧ z.nextDelta = 0 ∧ z.shrunk = false ∧ z.armed = true ∧ z.bonded = true
      ∧ z.lastStatus = (if x.shrunk then .okShrunk else .ok) := by
  refine ⟨hz.course.trans (by rw [hy.course]), hz.count.trans hy.ahead, hz.ahead, hz.nextDelta, hz.shrunk, ?_, ?_, hz.lastStatus.trans ?_⟩
  · rw [hz.armed, hy.armed, harmed, hunbonds]
    rfl
  · rw [hz.bonded, hy.bonded, hbonded, hunbonds]
    rfl
  · rw [Barrier.closeStatus, hy.shrunk]

/-- R100. The release of the close. -/
theorem closeRel_fields (hy : Counted x k go y) (e : Env) (i : Nat) (b : Brick) :
    (closeRel e i b y).handle = brickHandle e i b ∧ (closeRel e i b y).course = x.course + 1
      ∧ (closeRel e i b y).status = (if x.shrunk then .okShrunk else .ok) :=
  ⟨rfl, congrArg (· + 1) hy.course, by rw [← hy.shrunk]; rfl⟩

/-- R197. The grout of the course that opens. -/
theorem closed_grout_fields (hg : y.grout = some g2) (hc : g2.run.cfg = some c) (t : Dword) :
    ∃ z, (y.closed t gone).grout = some z ∧ z.run = g2.run ∧ z.acc = Acc.zero c ∧ z.window = [] ∧ z.empty = true
      ∧ z.result = (result c g2.acc).1 ∧ z.resFlags = g2.acc.flags ||| (result c g2.acc).2 ∧ z.cum = g2.cum ||| (g2.acc.flags ||| (result c g2.acc).2) := by
  have hres := closeResult_some hg hc
  rw [closed_grout, hg, Option.map_some]
  refine ⟨_, rfl, rfl, ?_, rfl, rfl, ?_, ?_, ?_⟩
  · simp only [Grout.fresh, hc]
  · exact (congrArg Prod.fst hres).trans rfl
  · exact (congrArg Prod.snd hres).trans rfl
  · exact (congrArg (fun r : List Byte × Byte => g2.cum ||| r.2) hres).trans rfl

/-! ### Arrivals of the open course -/

/-- R99. The hod has been taken, and barrier y has counted it. -/
def CountsAs (s : State) (n i : Nat) (y : Barrier) (carry : Nat) : Prop :=
  ∃ d d2, NoteFrame (dropHod s.dp n) d ∧ exec (.arrivalHod n) s = .next { s with dp := d2 } ∧ d2 = settleBarrier s.env (setBarrier d i y) i carry

section
variable {s : State} (htakes : TileTakes s.env s.dp n (homeOf s.env a.index) h) (hbody : h.body = .arrival a) (hb : brickOf s.dp a.index = b)
  (hbarrier : b.body = .barrier x)
include htakes hbody hb hbarrier

theorem arrival_discarded (hcourse : a.course ≠ x.course + 1) :
    ∃ t, exec (.arrivalHod n) s = .next t ∧ t.env = s.env ∧ t.dp.bricks = s.dp.bricks ∧ t.dp.net = eraseAt s.dp.net n := by
  have htook := noteFrame_tookAt (e := s.env) (d := s.dp) (n := n) (t := homeOf s.env a.index) (h := h)
  have hframe : NoteFrame (dropHod s.dp n) (takeArrival s.env (tookAt s.env s.dp n (homeOf s.env a.index) h) a) := by
    rw [takeArrival_discards ((htook.brickOf a.index).trans hb) hbarrier hcourse]
    exact htook.trans (noteFrame_bumpT 14)
  exact ⟨_, arrivalHod_runs htakes hbody, rfl, hframe.bricks, hframe.net⟩

variable (hvalid : b.valid = true) (hlost : b.lost = none) (hhandle : brickHandle s.env a.index b = a.handle) (harmed : x.armed = true) (hbonded : x.bonded = true)
  (hpoison : x.poisoned = false) (hcourse : a.course = x.course + 1)
include hvalid hlost hhandle harmed hbonded hpoison hcourse

theorem arrival_countsAs
    (hcount : ∀ d, skipOf d a.index = skipOf s.dp a.index →
      countArrival s.env d a.index x a.count a.pay.rank a.tag a.pay = some (settleBarrier s.env (setBarrier d a.index y) a.index carry)) :
    CountsAs s n a.index y carry := by
  have htook := noteFrame_tookAt (e := s.env) (d := s.dp) (n := n) (t := homeOf s.env a.index) (h := h)
  have hnoted : NoteFrame (dropHod s.dp n) (arrivalNoted s.env (tookAt s.env s.dp n (homeOf s.env a.index) h) b a) := htook.trans noteFrame_arrivalNoted
  refine ⟨_, _, hnoted, arrivalHod_runs htakes hbody, ?_⟩
  rw [takeArrival_open ((htook.brickOf a.index).trans hb) hbarrier hvalid hlost hhandle harmed hbonded hpoison hcourse,
    hcount _ (congrArg (fun l => ((fget l a.index).map (fun x : Lintel => x.gone &&& ~~~ x.seen)).getD 0) hnoted.lintels), Option.getD_some]

theorem arrival_plain (hcfg : x.cfg = none) :
    CountsAs s n a.index (x.counting (tileGt s.env (homeOf s.env a.index)) a.count a.tag x.grout) 0 :=
  arrival_countsAs htakes hbody hb hbarrier hvalid hlost hhandle harmed hbonded hpoison hcourse fun _ _ => countArrival_plain hcfg _ _ _ _

section
variable (hg : x.grout = some g) (hc : g.run.cfg = some c)
include hg hc

theorem arrival_folds (hfold : foldIn c x (skipOf s.dp a.index) g a.pay.rank a.pay = some g2) :
    CountsAs s n a.index (x.counting (tileGt s.env (homeOf s.env a.index)) a.count a.tag (some g2)) a.pay.bytes :=
  arrival_countsAs htakes hbody hb hbarrier hvalid hlost hhandle harmed hbonded hpoison hcourse
    fun _ hskip => countArrival_folds hg hc (by rw [hskip]; exact hfold) _ _

/-- R204. A contribution that is not taken goes back to the joint it came from. -/
theorem arrival_bounced (hfold : foldIn c x (skipOf s.dp a.index) g a.pay.rank a.pay = none) :
    ∃ t, exec (.arrivalHod n) s = .next t ∧ t.env = s.env ∧ t.dp.bricks = s.dp.bricks
      ∧ posts t.dp.net = posts (eraseAt s.dp.net n) ++ [(.tile (homeOf s.env a.index), .joint a.joint, .rsp, .bounce a)] := by
  have htook := noteFrame_tookAt (e := s.env) (d := s.dp) (n := n) (t := homeOf s.env a.index) (h := h)
  have hcount : countArrival s.env (arrivalNoted s.env (tookAt s.env s.dp n (homeOf s.env a.index) h) b a) a.index x a.count a.pay.rank a.tag a.pay = none := by
    refine countArrival_bounces hg hc ?_ _ _
    rw [show skipOf (arrivalNoted s.env (tookAt s.env s.dp n (homeOf s.env a.index) h) b a) a.index = skipOf s.dp a.index from
      congrArg (fun l => ((fget l a.index).map (fun x : Lintel => x.gone &&& ~~~ x.seen)).getD 0) (htook.trans noteFrame_arrivalNoted).lintels]
    exact hfold
  have hbounced : NoteFrame (dropHod s.dp n) (bumpT s.env (touchSlot (tookAt s.env s.dp n (homeOf s.env a.index) h) (homeOf s.env a.index) (.brick a.index) true)
      (homeOf s.env a.index) 17) := (htook.trans (noteFrame_touchSlot _ _)).trans (noteFrame_bumpT 17)
  have hrun := arrivalHod_runs htakes hbody
  rw [takeArrival_open ((htook.brickOf a.index).trans hb) hbarrier hvalid hlost hhandle harmed hbonded hpoison hcourse, hcount, Option.getD_none] at hrun
  refine ⟨_, hrun, rfl, (send_bricks ..).trans hbounced.bricks, (posts_send ..).trans ?_⟩
  rw [hbounced.net, dropHod_net]

end

end

/-! ### What the statement says of each case -/

section
variable {s : State} (hrun : CountsAs s n i y carry) (hb : brickOf s.dp i = b) (hy : Counted x k go y)
include hrun hb

/-- R99, R74. The course stays open. -/
theorem counts_open (hopen : y.count < y.expect) :
    ∃ t, exec (.arrivalHod n) s = .next t ∧ t.env = s.env ∧ Becomes s i b t.dp y
      ∧ (fget s.dp.mirCopies (stripeKey i 0) = none → t.dp.net = eraseAt s.dp.net n)
      ∧ (∀ m, fget s.dp.mirCopies (stripeKey i 0) = some m → toldCopy t.dp i 0 m = brickOf t.dp i) := by
  obtain ⟨d, d2, hdrop, hexec, hd2⟩ := hrun
  exact ⟨_, hexec, rfl, arrival_open hdrop hb hd2 hopen⟩

include hy
variable (harmed : x.armed = true) (hbonded : x.bonded = true) (hpoison : x.poisoned = false) (hdone : x.expect ≤ x.count + k)
include harmed hbonded hpoison hdone

/-- R257. The complete course goes up. -/
theorem counts_up (hl : fget s.dp.lintels i = some l) (hup : l.upv = true) (hwait : l.upwait = false) :
    ∃ t, exec (.arrivalHod n) s = .next t ∧ t.env = s.env ∧ Becomes s i b t.dp { y with dlAt := 0 }
      ∧ fget t.dp.lintels i = some { l with
          upwait := true, upPay := some (go.elim { lanes := [], cnt := 0, flags := 0 } Grout.acc, if x.shrunk then .okShrunk else .ok) } := by
  obtain ⟨d, d2, hdrop, hexec, hd2⟩ := hrun
  obtain ⟨hbecomes, hlintel⟩ := arrival_goesUp hdrop hb hd2 (hy.armed.trans harmed) (hy.bonded.trans hbonded) (hy.poisoned.trans hpoison)
    (by rw [hy.expect, hy.count]; exact hdone) hl hup hwait
  rw [hy.grout, show y.closeStatus = (if x.shrunk then .okShrunk else .ok) by rw [Barrier.closeStatus, hy.shrunk]] at hlintel
  exact ⟨_, hexec, rfl, hbecomes, hlintel⟩

/-- R100. The course closes: the barrier that opens the next one, and its releases. -/
theorem counts_close (hroot : ∀ l, fget s.dp.lintels i = some l → l.upv = false) (hshRun : x.shRun = none) (hnext : x.ahead < y.reopened.expect) :
    ∃ t z, exec (.arrivalHod n) s = .next t ∧ t.env = s.env
      ∧ (Becomes s i b t.dp z ∧ z.course = x.course + 1 ∧ z.count = x.ahead ∧ z.ahead = 0 ∧ z.nextDelta = 0 ∧ z.shrunk = false ∧ z.armed = true ∧ z.bonded = true
        ∧ z.lastStatus = (if x.shrunk then .okShrunk else .ok)
        ∧ (∀ l, fget s.dp.lintels i = some l → ∃ m, fget t.dp.lintels i = some m ∧ m.seen = l.seenNext ∧ m.seenNext = 0 ∧ m.upwait = false))
      ∧ Opened y z ∧ (∃ t gone, z = y.closed t gone) ∧ y.unbonds = false
      ∧ (∀ w, ∀ j ∈ bedJoints s.dp (brickHandle s.env i b) w, Sent t.dp (.joint j) (fun c => c = .release (closeRel s.env i b y))) := by
  obtain ⟨d, d2, hdrop, hexec, hd2⟩ := hrun
  obtain ⟨z, hz, hclosed, hunbonds, hbecomes, hlintel, hreleased⟩ := arrival_closes hdrop hb hd2 (hy.armed.trans harmed) (hy.bonded.trans hbonded)
    (hy.poisoned.trans hpoison) (by rw [hy.expect, hy.count]; exact hdone) hroot (hy.shRun.trans hshRun) (by rw [hy.ahead]; exact hnext)
  obtain ⟨h1, h2, h3, h4, h5, h6, h7, h8⟩ := closed_fields hy hz harmed hbonded hunbonds
  refine ⟨_, z, hexec, rfl, ⟨hbecomes, h1, h2, h3, h4, h5, h6, h7, h8, fun l hl => ?_⟩, hz, hclosed, hunbonds, hreleased⟩
  obtain ⟨m, hm, hseen, hseenNext, hupwait⟩ := hlintel l hl
  exact ⟨m, hm, hseen, hseenNext, hupwait⟩

end

/-- Settles O18: an arrival of the open course counts, and leaves the course open, closes it or sends it up; another is discarded. -/
theorem arrivalHodCounts : Obligations.ArrivalHodCounts := by
  unfold Obligations.ArrivalHodCounts
  intro s n h a b x htakes hbody hb hbarrier hvalid hlost hhandle harmed hbonded hpoison counted st becomes counts released root closed
  refine ⟨fun hcourse hcfg => ?_, fun g c hcourse hg hc => ⟨fun hfold => ?_, fun g2 hfold => ?_⟩, fun hcourse => arrival_discarded htakes hbody hb hbarrier hcourse⟩
  · have hrun := arrival_plain htakes hbody hb hbarrier hvalid hlost hhandle harmed hbonded hpoison hcourse hcfg
    have hy := counted_counting x (tileGt s.env (homeOf s.env a.index)) a.count a.tag x.grout
    rw [counting_same] at hrun hy
    change CountsAs s n a.index counted 0 at hrun
    change Counted x a.count x.grout counted at hy
    clear_value counted
    have hcloses := counts_close hrun hb hy harmed hbonded hpoison
    have hresult : counted.closeResult = ([], 0) := closeResult_none (by rw [Barrier.cfg, hy.grout]; exact hcfg)
    refine ⟨fun hopen => counts_open hrun hb (by rw [hy.count, hy.expect]; exact hopen), fun hdone hroot hshRun hbond hnext => ?_,
      fun nb hdone hroot hshRun hbond hnext => ?_, fun l hdone hgrout hl hup hwait => ?_⟩
    · have hexpect : counted.reopened.expect = x.expect - x.nextDelta := by rw [reopened_expect_none (hy.shBond.trans hbond), hy.expect, hy.nextDelta]
      obtain ⟨t, z, hexec, henv, hclosed, hz, -, hunbonds, hreleased⟩ := hcloses hdone hroot hshRun (by rw [hexpect]; omega)
      refine ⟨t, z, hexec, henv, hclosed, hz.expect.trans hexpect, fun j hj => sent_mono (hreleased false j (by rw [hhandle]; exact hj)) fun _ hg => ?_⟩
      obtain ⟨hrelHandle, hrelCourse, hrelStatus⟩ := closeRel_fields hy s.env a.index b
      refine ⟨_, hg, hrelHandle.trans hhandle, hrelCourse, hrelStatus, ?_, congrArg Prod.snd hresult, ?_⟩
      · exact (congrArg (fun r => toBeats r.1) hresult).trans rfl
      · change (counted.shBond.isSome || counted.unbonds) = false
        rw [hy.shBond, hbond, hunbonds]
        rfl
    · have hbond : counted.shBond = some nb := hy.shBond.trans hbond
      obtain ⟨hexpect, hnew⟩ := reopened_some hbond
      obtain ⟨t, z, hexec, henv, hclosed, hz, -, -, hreleased⟩ := hcloses hdone hroot hshRun (by rw [hexpect]; exact hnext)
      refine ⟨t, z, hexec, henv, hclosed, hz.expect.trans hexpect, hz.bond.trans hnew, hz.shBond,
        fun w j hj => sent_mono (hreleased w j (by rw [hhandle]; exact hj)) fun _ hg => ?_⟩
      obtain ⟨hrelHandle, hrelCourse, hrelStatus⟩ := closeRel_fields hy s.env a.index b
      refine ⟨_, hg, hrelHandle.trans hhandle, hrelCourse, hrelStatus, ?_, ?_⟩
      · change (counted.shBond.isSome || counted.unbonds) = true
        rw [hbond]
        rfl
      · exact congrArg (fun o : Option Bond => (o.map Bond.made).getD 0) hbond
    · have hgoes := counts_up hrun hb hy harmed hbonded hpoison hdone hl hup hwait
      rw [hgrout] at hgoes
      exact hgoes
  · exact arrival_bounced htakes hbody hb hbarrier hvalid hlost hhandle harmed hbonded hpoison hcourse hg hc hfold
  · have hrun := arrival_folds htakes hbody hb hbarrier hvalid hlost hhandle harmed hbonded hpoison hcourse hg hc hfold
    have hy := counted_counting x (tileGt s.env (homeOf s.env a.index)) a.count a.tag (some g2)
    have hkeeps := foldIn_keeps hfold
    change CountsAs s n a.index { counted with grout := some g2 } a.pay.bytes at hrun
    change Counted x a.count (some g2) { counted with grout := some g2 } at hy
    have hc2 : g2.run.cfg = some c := by rw [hkeeps.1]; exact hc
    refine ⟨fun hopen => counts_open hrun hb (by rw [hy.count, hy.expect]; exact hopen), fun hdone hroot hshRun hbond hnext => ?_,
      fun l hdone hl hup hwait => counts_up hrun hb hy harmed hbonded hpoison hdone hl hup hwait⟩
    generalize ({ counted with grout := some g2 } : Barrier) = y at hrun hy
    have hexpect : y.reopened.expect = x.expect - x.nextDelta := by rw [reopened_expect_none (hy.shBond.trans hbond), hy.expect, hy.nextDelta]
    obtain ⟨t, z, hexec, henv, hclosed, hz, ⟨gt, gone, hzc⟩, hunbonds, hreleased⟩ :=
      counts_close hrun hb hy harmed hbonded hpoison hdone hroot hshRun (by rw [hexpect]; omega)
    obtain ⟨z2, hgrout, hrunKept, hacc, hwindow, hempty, hres, hfl, hcum⟩ := closed_grout_fields (gone := gone) hy.grout hc2 gt
    refine ⟨t, z, z2, hexec, henv, hclosed, hz.expect.trans hexpect, by rw [hzc]; exact hgrout, hrunKept.trans hkeeps.1, hacc, hwindow, hempty, hres, hfl,
      by rw [hcum, hkeeps.2], fun j hj => sent_mono (hreleased false j (by rw [hhandle]; exact hj)) fun _ hg => ?_⟩
    have hresult := closeResult_some hy.grout hc2
    obtain ⟨hrelHandle, hrelCourse, hrelStatus⟩ := closeRel_fields hy s.env a.index b
    refine ⟨_, hg, hrelHandle.trans hhandle, hrelCourse, hrelStatus, (congrArg (fun r : List Byte × Byte => toBeats r.1) hresult).trans rfl,
      (congrArg Prod.snd hresult).trans rfl, ?_⟩
    change (y.shBond.isSome || y.unbonds) = false
    rw [hy.shBond, hbond, hunbonds]
    rfl

end Sys2Proof.Machine
end

section
/-! A descriptor that names one brick, at the head of its ring (R308): the way to its home tile, and the completion that ends it (R316 to R319). -/

namespace Sys2Proof.Machine

open Sys2Proof.Safety

variable {e : Env} {d d2 d3 : Dp} {r : RingId} {c : Compl} {x : BitVec 512} {b : Brick}

/-! ### What stands beside the records of a descriptor -/

/-- The rings, the completions and the bricks stay. -/
structure Beside (d d2 : Dp) : Prop where
  rings : d2.rings = d.rings
  cmpl : d2.cmpl = d.cmpl
  held : d2.held = d.held
  bricks : d2.bricks = d.bricks

theorem Beside.refl (d : Dp) : Beside d d := ⟨rfl, rfl, rfl, rfl⟩

theorem Beside.trans (h : Beside d d2) (g : Beside d2 d3) : Beside d d3 :=
  ⟨g.rings.trans h.rings, g.cmpl.trans h.cmpl, g.held.trans h.held, g.bricks.trans h.bricks⟩

theorem Beside.foldl {β : Type} {f : Dp → β → Dp} (h : ∀ d y, Beside d (f d y)) (l : List β) (d : Dp) : Beside d (l.foldl f d) :=
  List.foldlRecOn l f (Beside.refl d) (fun d2 h2 y _ => h2.trans (h d2 y))

theorem beside_note (h : NoteFrame d d2) : Beside d d2 := by
  obtain ⟨_, _, rfl⟩ := h
  exact ⟨rfl, rfl, rfl, rfl⟩

theorem beside_count (h : CountFrame d d2) : Beside d d2 := beside_note (noteFrame_count h)

theorem beside_answer (h : AnswerFrame d d2) : Beside d d2 := by
  obtain ⟨_, _, _, rfl⟩ := h
  exact ⟨rfl, rfl, rfl, rfl⟩

theorem beside_num (h : NumFrame d d2) : Beside d d2 := by
  obtain ⟨_, _, _, _, _, _, _, _, rfl⟩ := h
  exact ⟨rfl, rfl, rfl, rfl⟩

theorem beside_send (a c : Port) (vc : VC) (p : BitVec 4) (x : HodBody) : Beside d (send e d a c vc p x) :=
  ⟨send_rings .., send_cmpl .., send_held .., send_bricks ..⟩

section
variable (h : Beside d d2)
include h

theorem Beside.ringOf (r : RingId) : ringOf d2 r = ringOf d r := by simp [Machine.ringOf, h.rings]

theorem Beside.cmplOf (o : Owner) : cmplOf d2 o = cmplOf d o := by simp [Machine.cmplOf, h.cmpl]

theorem Beside.brickOf (i : Nat) : brickOf d2 i = brickOf d i := brickOf_congr h.bricks i

end

/-! ### The way to the home tile (R404) -/

theorem beside_descHop (t : Nat) : Beside d (descHop e d r t) ∧ (descHop e d r t).joints = d.joints := by
  have hmgmt : ∀ a, Beside d (mgmtHods e d a t 1 2) ∧ (mgmtHods e d a t 1 2).joints = d.joints := by
    intro a
    unfold mgmtHods
    extract_lets l d1
    have h1 : Beside d d1 ∧ d1.joints = d.joints := by
      unfold d1 corrected
      split
      · exact ⟨Beside.refl d, rfl⟩
      · next y rest _ =>
        have hcount := noteFrame_count (bumpK_frame e { d with flitErr := rest } 1 y.1 7 1)
        have hset : Beside d { d with flitErr := rest } := ⟨rfl, rfl, rfl, rfl⟩
        exact ⟨hset.trans (beside_note hcount), hcount.joints⟩
    have h2 : NoteFrame d1 (bumpK e (tookHod e (countPorts e .mgmt 1 2 l d1) t .mgmt) 0 t 8 (1 - 1)) :=
      ((noteFrame_count (countPorts_frame e .mgmt 1 2 l d1)).trans (noteFrame_tookHod _)).trans (noteFrame_count (bumpK_frame e _ 0 t 8 (1 - 1)))
    exact ⟨h1.1.trans (beside_note h2), h2.joints.trans h1.2⟩
  unfold descHop
  split
  · split
    · exact ⟨Beside.refl d, rfl⟩
    · exact hmgmt _
  · exact ⟨Beside.refl d, rfl⟩

/-- R308. A descriptor whose brick is at home runs there. -/
theorem withBrick_runs (hhome : AtHome e d (dHandle x) b) (list : List Dword) (table : List Byte) (k : Dp → Brick → Dp) :
    ∃ d1, Beside d d1 ∧ d1.joints = d.joints ∧ withBrick e d r x list table k = k d1 b := by
  obtain ⟨hcap, hres, hserves, rfl, hvalid, hgen, hpart, htype, hlost⟩ := hhome
  have hhop := beside_descHop (e := e) (d := d) (r := r) (homeOf e (hIndex (dHandle x)))
  have htouch := noteFrame_touchSlot (d := descHop e d r (homeOf e (hIndex (dHandle x)))) (t := homeOf e (hIndex (dHandle x))) (.brick (hIndex (dHandle x))) true
  refine ⟨_, hhop.1.trans (beside_note htouch), htouch.joints.trans hhop.2, ?_⟩
  have havail : unavailable e (homeOf e (hIndex (dHandle x))) = false := by
    unfold tileServes at hserves
    simp only [Bool.and_eq_true, Bool.not_eq_true'] at hserves
    exact hserves.1.1.1.1.1
  simp only [withBrick, havail, hserves, mustFetch, hres, hvalid, hgen, hpart, htype, hlost, Nat.not_le.2 hcap, Bool.false_eq_true, if_false, Bool.not_true,
    Bool.and_false, Bool.false_and, beq_self_eq_true, Bool.and_true, ne_eq, not_true_eq_false]

/-! ### Its completion (R316 to R319) -/

/-- R318. What an interrupt changes. -/
def IrqFrame (d d2 : Dp) : Prop := ∃ q ps k o, d2 = { d with port := { d.port with irq := q }, parts := ps, kcirq := k, obs := o }

theorem irqFrame_interrupt (o : Owner) : IrqFrame d (interrupt e d o false) := by
  unfold interrupt
  extract_lets w g quiet d1
  cases o with
  | part p =>
    split
    · exact ⟨_, _, _, _, rfl⟩
    · obtain ⟨m, hm⟩ := bumpP_frame e d1 p 14 1
      refine ⟨_, _, _, _, hm.trans rfl⟩
  | keeper =>
    split
    · obtain ⟨m, hm⟩ := bumpK_frame e (pulse d (irqLine .keeper false)) 4 0 1 1
      refine ⟨_, _, _, _, (congrArg (fun z => setWin z .keeper false _) hm).trans rfl⟩
    · exact ⟨_, _, _, _, rfl⟩

theorem complRing_owner (hring : c.ring = BitVec.ofNat 4 (ringNo r)) : complRing (ringOwner r) c = r := by
  cases r with
  | keeper => rfl
  | part p q =>
    have hq : BitVec.ofNat 3 (BitVec.ofNat 4 q.toNat).toNat = q := by
      apply BitVec.eq_of_toNat_eq
      have := q.isLt
      simp only [BitVec.toNat_ofNat]
      omega
    simp only [complRing, ringOwner, hring, ringNo, hq]

/-- R319, R320. A ring whose oldest descriptor has completed. -/
def SubRing.next (g : SubRing) : SubRing := { g with head := g.head + 1, ahead := g.ahead.drop 1, wait := none, fwait := false, targets := [], retried := false }

/-- R319. The end of a descriptor: its ring goes on. -/
theorem finishDesc_advances (hadv : c.advance = true) :
    NoteFrame (setRing d r (ringOf d r).next) (finishDesc e d r c) := by
  unfold finishDesc
  extract_lets g d1
  rw [if_pos hadv]
  cases r with
  | keeper => exact NoteFrame.refl _
  | part p q =>
    obtain ⟨m, hm⟩ := bumpP_frame e d p 1 1
    exact ⟨_, _, (congrArg (fun z => setRing z _ _) hm).trans rfl⟩

/-- R316, R318. A completion that is written ends its descriptor, and changes no brick and no joint. -/
theorem putCompl_completes (hring : c.ring = BitVec.ofNat 4 (ringNo r)) (hadv : c.advance = true) :
    Completed d (putCompl e d (ringOwner r) c) r c ∧ (putCompl e d (ringOwner r) c).bricks = d.bricks ∧ (putCompl e d (ringOwner r) c).joints = d.joints := by
  unfold putCompl
  extract_lets q n phase d1 d2 d3 d4
  have h3 : NoteFrame (setRing d2 r (ringOf d r).next) d3 := by
    unfold d3
    rw [complRing_owner hring]
    exact finishDesc_advances hadv
  have h4 : ∃ i, d4 = { d3 with inc := i } := by
    unfold d4
    clear_value d3
    cases ringOwner r with
    | keeper => exact ⟨_, rfl⟩
    | part p =>
      dsimp only
      split
      · obtain ⟨l, hl⟩ := carry_frame d3 p c.incident
        exact ⟨_, hl⟩
      · exact ⟨_, rfl⟩
  have hdone : Completed d d4 r c ∧ d4.bricks = d.bricks ∧ d4.joints = d.joints := by
    obtain ⟨i, h4⟩ := h4
    obtain ⟨_, _, h3⟩ := h3
    clear_value d3 d4
    subst h4 h3
    have hring : ∀ v, ringOf (setRing d2 r v) r = v := fun v => ringOf_setRing d2 r v
    have hcmpl : cmplOf d2 (ringOwner r) = { q with tail := q.tail + 1 } := cmplOf_setCmpl d1 (ringOwner r) _
    refine ⟨⟨List.mem_append_right _ (List.mem_singleton_self _), (congrArg OutRing.tail hcmpl).trans rfl, (congrArg OutRing.head hcmpl).trans rfl, ?_, ?_, ?_⟩, rfl, rfl⟩
    · exact (congrArg SubRing.head (hring _)).trans rfl
    · exact (congrArg SubRing.ahead (hring _)).trans rfl
    · exact (congrArg SubRing.wait (hring _)).trans rfl
  clear_value d4
  split
  · obtain ⟨_, _, _, _, hirq⟩ := irqFrame_interrupt (e := e) (d := d4) (ringOwner r)
    rw [hirq]
    exact hdone
  · exact hdone

/-- R319. A completion ring with room takes the completion. -/
theorem complete_room (hroom : Room d r) : complete e d r c = putCompl e d (ringOwner r) c := by
  obtain ⟨hstate, hheld, hfull⟩ := hroom
  unfold complete
  simp only [hstate, hheld, decide_eq_true hfull, List.isEmpty_nil, decide_true, Bool.and_self, if_true]

theorem headDesc_ahead {t : Nat} (h : headDesc e d r = some (t, x)) : (ringOf d r).ahead.head? = some x := by
  unfold headDesc at h
  dsimp only at h
  split at h
  · next y l u hahead _ =>
    split at h
    · rw [hahead]
      simp only [Option.some.injEq, Prod.mk.injEq] at h
      exact congrArg some h.2
    · cases h
  · cases h

/-- Table 10.4, step 2. Where the next descriptor has a defined opcode, none is skipped. -/
theorem afterDesc_stops (hnext : ∀ y, (ringOf d r).ahead.head? = some y → (dFields (dOp y)).isSome = true) : afterDesc e r d = d := by
  unfold afterDesc skipUndefined
  split
  · rfl
  · next t y hhead =>
    have hsome := hnext y (headDesc_ahead hhead)
    rw [if_neg (by simpa [Option.isNone_iff_eq_none, Option.isSome_iff_ne_none] using hsome)]

/-- R316 to R319. A descriptor that is followed completes, where the ring has room, and nothing else does. -/
theorem completes_alone (hbeside : d2.rings = d.rings ∧ d2.cmpl = d.cmpl ∧ d2.held = d.held) (hfollowed : Followed d r x) (hroom : Room d r)
    (hring : c.ring = BitVec.ofNat 4 (ringNo r)) (hadv : c.advance = true) :
    Completed d (afterDesc e r (complete e d2 r c)) r c ∧ (afterDesc e r (complete e d2 r c)).bricks = d2.bricks
      ∧ (afterDesc e r (complete e d2 r c)).joints = d2.joints := by
  obtain ⟨hrings, hcmpls, hheld⟩ := hbeside
  have hringOf : ringOf d2 r = ringOf d r := by simp [ringOf, hrings]
  have hcmplOf : cmplOf d2 (ringOwner r) = cmplOf d (ringOwner r) := by simp [cmplOf, hcmpls]
  have hroom2 : Room d2 r := by
    unfold Room
    rw [hcmplOf, hheld]
    exact hroom
  obtain ⟨hdone, hbricks, hjoints⟩ := putCompl_completes (e := e) (d := d2) hring hadv
  have hdone : Completed d (putCompl e d2 (ringOwner r) c) r c := by
    unfold Completed complWrite at hdone ⊢
    rw [hcmplOf, hringOf] at hdone
    exact hdone
  rw [complete_room hroom2, afterDesc_stops]
  · exact ⟨hdone, hbricks, hjoints⟩
  · obtain ⟨-, -, -, -, hahead, -⟩ := hdone
    intro y hy
    rw [hahead] at hy
    exact hfollowed.2 y hy

/-- R308. A descriptor at the head of its ring that no step of the front end refuses has its effect. -/
theorem runDesc_runs {t op : Nat} (hhead : AtHead e d r t x op) (k : Nat → BitVec 512 → Dp) : runDesc e d r op k = k t x := by
  obtain ⟨hdesc, hop, hfront, herror⟩ := hhead
  unfold runDesc
  simp [hdesc, hop, hfront, herror]

theorem mkCompl_beside (hrings : d2.rings = d.rings) (st : Status) : mkCompl d2 r x st = mkCompl d r x st := by
  simp [mkCompl, ringOf, hrings]

end Sys2Proof.Machine
end

section
/-! O34: BARRIER_ARM (R94, Table 3.3) and BOND_SET (R86, R92). -/

namespace Sys2Proof.Machine

open Sys2Proof.Safety

variable {e : Env} {d d2 d3 : Dp} {r : RingId} {x : BitVec 512} {b : Brick} {y y2 : Barrier} {v : ArmVals} {i : Nat}

/-! ### What the arming of a poisoned barrier changes beside its record -/

theorem beside_bindRun (t base n : Nat) : Beside d (bindRun d t base n) := by
  unfold bindRun
  split
  · exact Beside.refl d
  · exact ⟨rfl, rfl, rfl, rfl⟩

theorem beside_unbindRun (t base n : Nat) : Beside d (unbindRun d t base n) := by
  unfold unbindRun
  split
  · exact Beside.refl d
  · exact ⟨rfl, rfl, rfl, rfl⟩

theorem beside_setMirRuns (f : List (Nat × Nat) → List (Nat × Nat)) : Beside d (setMirRuns d i f) := by
  unfold setMirRuns
  split
  · exact Beside.refl d
  · next m _ =>
    extract_lets l d1
    have h1 : Beside d d1 := Beside.foldl (fun d2 (q : Nat × Nat) => beside_unbindRun (d := d2) m.tile q.1 q.2) m.runs d
    have h2 := h1.trans (Beside.foldl (fun d2 (q : Nat × Nat) => beside_bindRun (d := d2) m.tile q.1 q.2) l d1)
    exact h2.trans ⟨rfl, rfl, rfl, rfl⟩

theorem beside_refundG (p : BitVec 4) (n : Nat) : Beside d (refundG d p n) := ⟨rfl, rfl, rfl, rfl⟩

theorem beside_switchRun (old new : Run) : Beside d (switchRun e d i b old new) := by
  unfold switchRun
  split
  · exact (((beside_unbindRun ..).trans (beside_bindRun ..)).trans (beside_setMirRuns _)).trans (beside_refundG ..)
  · exact ((beside_unbindRun ..).trans (beside_setMirRuns _)).trans (beside_refundG ..)

theorem beside_setJoint (j : Nat) (z : Joint) : Beside d (setJoint d j z) := ⟨rfl, rfl, rfl, rfl⟩

theorem beside_forwardWait (j : Nat) (z : JEntry) : Beside d (forwardWait e d j z) := by
  unfold forwardWait
  extract_lets h t d1
  split
  · exact beside_setJoint ..
  · have h1 : Beside d d1 := (beside_setJoint ..).trans (beside_setJoint ..)
    exact h1.trans (beside_send ..)

theorem beside_settleBed (j : Nat) (o : Bed) : Beside d (settleBed e d j o) := by
  unfold settleBed
  extract_lets l d1
  have h1 : Beside d d1 := beside_answer (AnswerFrame.answerMany ..)
  exact h1.trans (Beside.foldl (fun d2 z => (beside_setJoint ..).trans (beside_forwardWait j z)) _ _)

theorem beside_switchBed (j : Nat) (q : Rel) (old nw : Option Bed) : Beside d (switchBed e d j q old nw) := by
  have hdiscard : ∀ d n, Beside d (discardArrivals e d j n) := fun d n => beside_count (bumpK_frame e d 2 j 3 n)
  unfold switchBed
  split
  · split
    · exact Beside.refl d
    · split
      · exact Beside.refl d
      · exact ((hdiscard ..).trans (beside_setJoint ..)).trans (beside_settleBed ..)
  · split
    · exact (beside_setJoint ..).trans (beside_setJoint ..)
    · next o =>
      have hanswers : ∀ d l f, Beside d (answerMany e d j l f) := fun d l f => beside_answer (AnswerFrame.answerMany ..)
      exact ((((hdiscard ..).trans (hanswers ..)).trans (hanswers ..)).trans ((beside_setJoint ..).trans (beside_setJoint ..))).trans (beside_setJoint ..)

theorem beside_armBeds (h : Dword) (f : Bed → Bed) : Beside d (armBeds d h f) := ⟨rfl, rfl, rfl, rfl⟩

/-! ### One barrier gets a new record -/

/-- Barrier i becomes y; beside it rings, completions and bricks stay. -/
def Rewrites (d : Dp) (i : Nat) (y : Barrier) (d3 : Dp) : Prop := ∃ d1, Beside d d1 ∧ Beside (setBarrier d1 i y) d3

theorem Rewrites.brickOf (h : Rewrites d i y d2) (k : Nat) : brickOf d2 k = if k = i then { brickOf d i with body := .barrier y } else brickOf d k := by
  obtain ⟨d1, h1, h2⟩ := h
  rw [h2.brickOf]
  refine (brickOf_setBrick d1 i k _).trans ?_
  rw [h1.brickOf, h1.brickOf]

theorem Rewrites.rings (h : Rewrites d i y d2) : d2.rings = d.rings ∧ d2.cmpl = d.cmpl ∧ d2.held = d.held := by
  obtain ⟨d1, h1, h2⟩ := h
  exact ⟨h2.rings.trans h1.rings, h2.cmpl.trans h1.cmpl, h2.held.trans h1.held⟩

theorem Rewrites.of_beside (h : Beside d d2) (g : Rewrites d2 i y d3) : Rewrites d i y d3 := by
  obtain ⟨d1, h1, h2⟩ := g
  exact ⟨d1, h.trans h1, h2⟩

/-- R94. The barrier that a BARRIER_ARM of a poisoned one leaves (Table 3.3). -/
structure Cured (y : Barrier) (v : ArmVals) (y2 : Barrier) : Prop where
  course : y2.course = y.course
  bonded : y2.bonded = y.bonded
  poisoned : y2.poisoned = false
  armed : y2.armed = true
  arm : y2.arm = v
  shArm : y2.shArm = none
  count : y2.count = 0
  ahead : y2.ahead = 0
  dlAt : y2.dlAt = 0
  shBond : y2.shBond = none

theorem rebond_fields (y : Barrier) : y.rebond.course = y.course ∧ y.rebond.bonded = y.bonded ∧ y.rebond.shBond = none := by
  unfold Barrier.rebond
  split
  · exact ⟨rfl, rfl, rfl⟩
  · next h => exact ⟨rfl, rfl, h⟩

theorem armPoisoned_cures : ∃ y2, Cured y v y2 ∧ Rewrites d i y2 (armPoisoned e d i b y v) := by
  unfold armPoisoned
  extract_lets h switch gone y0 y1 res fl cum grout d1 y2 d2 last rel d3 d4 d5 d6
  obtain ⟨hcourse, hbonded, hbond⟩ := rebond_fields y
  have hcured : Cured y v y2 := ⟨hcourse, hbonded, rfl, rfl, rfl, rfl, rfl, rfl, rfl, hbond⟩
  have h1 : Beside d d1 := by
    unfold d1
    split
    · exact beside_switchRun ..
    · exact Beside.refl d
  have h3 : Beside d2 d3 := by
    unfold d3
    split
    · exact Beside.foldl (fun d2 j => beside_switchBed ..) _ _
    · exact Beside.refl d2
  have h4 : Beside d3 d4 := beside_armBeds ..
  have h5 : Beside d4 d5 := by
    unfold d5
    split
    · exact ⟨rfl, rfl, rfl, rfl⟩
    · exact Beside.refl d4
  have h6 : Beside d3 d6 := (h4.trans h5).trans ⟨rfl, rfl, rfl, rfl⟩
  refine ⟨y2, hcured, d1, h1, (h3.trans h6).trans ?_⟩
  clear_value d6
  split
  · exact ⟨rfl, rfl, rfl, rfl⟩
  · exact Beside.refl d6

/-- Table 3.3. A bonded barrier that is not armed becomes armed, at an empty course. -/
theorem armFirst_arms : ∃ g, Rewrites d i { y with arm := v, armed := true, count := 0, expired := false, grout := g } (armFirst e d i b y v) :=
  ⟨_, d, Beside.refl d, ⟨rfl, rfl, rfl, rfl⟩⟩

/-! ### The completion of a descriptor that has written a barrier -/

theorem noteFrame_noteDesc (t : Nat) (h : Dword) (st : Status) : NoteFrame d (noteDesc e d t r x h st) := by
  unfold noteDesc
  exact (noteFrame_bumpT 5).trans (noteFrame_trace _ _)

section
variable {c : Compl} (hfollowed : Followed d r x) (hroom : Room d r) (hring : c.ring = BitVec.ofNat 4 (ringNo r)) (hadv : c.advance = true)
include hfollowed hroom hring hadv

theorem descDone_completes (hrings : d2.rings = d.rings ∧ d2.cmpl = d.cmpl ∧ d2.held = d.held) :
    Completed d (afterDesc e r (descDone e d2 r x c)) r c ∧ (afterDesc e r (descDone e d2 r x c)).bricks = d2.bricks
      ∧ (afterDesc e r (descDone e d2 r x c)).joints = d2.joints := by
  have hnote := noteFrame_noteDesc (e := e) (d := d2) (r := r) (x := x) (homeOf e (hIndex (dHandle x))) (dHandle x) c.status
  have hbeside := beside_note hnote
  obtain ⟨hdone, hbricks, hjoints⟩ := completes_alone (e := e) (d := d) (x := x)
    ⟨hbeside.rings.trans hrings.1, hbeside.cmpl.trans hrings.2.1, hbeside.held.trans hrings.2.2⟩ hfollowed hroom hring hadv
  exact ⟨hdone, hbricks.trans hnote.bricks, hjoints.trans hnote.joints⟩

/-- The record written, its shadow told, and the mirror. -/
theorem rewritten_completes (hrewrites : Rewrites d i y2 d2) (t : Nat) :
    ∃ u, u = afterDesc e r (descDone e (emitNone e (setBrick d2 i (Machine.brickOf d2 i).shadowWritten) t i 0) r x c) ∧ Completed d u r c
      ∧ Machine.brickOf u i = ({ Machine.brickOf d i with body := .barrier y2 } : Brick).shadowWritten
      ∧ (∀ k, k ≠ i → Machine.brickOf u k = Machine.brickOf d k) ∧ u.joints = d2.joints := by
  have hemit := numFrame_emit (e := e) (d := setBrick d2 i (Machine.brickOf d2 i).shadowWritten) (t := t) (i := i) (outs := []) none 0 0
  have hbeside := beside_num hemit
  obtain ⟨hdone, hbricks, hjoints⟩ := descDone_completes (e := e) hfollowed hroom hring hadv
    ⟨hbeside.rings.trans hrewrites.rings.1, hbeside.cmpl.trans hrewrites.rings.2.1, hbeside.held.trans hrewrites.rings.2.2⟩
  have hafter : ∀ k, Machine.brickOf (afterDesc e r (descDone e (emitNone e (setBrick d2 i (Machine.brickOf d2 i).shadowWritten) t i 0) r x c)) k
      = if k = i then (Machine.brickOf d2 i).shadowWritten else Machine.brickOf d2 k := fun k =>
    (brickOf_congr (hbricks.trans hemit.bricks) k).trans (brickOf_setBrick d2 i k _)
  refine ⟨_, rfl, hdone, ?_, fun k hk => ?_, hjoints.trans hemit.joints⟩
  · rw [hafter, if_pos rfl, hrewrites.brickOf, if_pos rfl]
  · rw [hafter, if_neg hk, hrewrites.brickOf, if_neg hk]

end

/-! ### BARRIER_ARM (R94) -/

/-- R94, Table 3.3. A bonded barrier is armed. -/
def armBonded (e : Env) (d : Dp) (i : Nat) (b : Brick) (y : Barrier) (v : ArmVals) : Dp :=
  if y.poisoned then armPoisoned e d i b y v else if y.armed then setBarrier d i { y with shArm := some v } else armFirst e d i b y v

section
variable {s : State} {t : Nat} (hhome : AtHome s.env s.dp (dHandle x) b) (hbarrier : b.body = .barrier y)
  (hhead : AtHead s.env s.dp r t x 0x42) (hrelease : dfield x 161 2 ≠ 3)
include hhome hbarrier hhead hrelease

theorem barrierArm_runs : ∃ d1, Beside s.dp d1 ∧ exec (.barrierArm r) s = .next { s with dp := afterDesc s.env r (
    if !y.bonded then descStatus s.env d1 r x .badCount
    else
      let d := armBonded s.env d1 (hIndex (dHandle x)) b y (armVals x)
      let d := setBrick d (hIndex (dHandle x)) (brickOf d (hIndex (dHandle x))).shadowWritten
      descDone s.env (emitNone s.env d (homeOf s.env (hIndex (dHandle x))) (hIndex (dHandle x)) 0) r x { mkCompl d r x .ok with course := y.course + 1 }) } := by
  have hlegal : ¬ (armVals x).release = 3#2 := by
    intro h
    have hlt : dfield x 161 2 < 4 := Nat.mod_lt _ (by decide)
    have hcode := congrArg BitVec.toNat h
    simp only [armVals, BitVec.toNat_ofNat] at hcode
    omega
  have hrun : exec (.barrierArm r) s = .next { s with dp := afterDesc s.env r (barrierArm s.env s.dp r x) } := by
    rw [show exec (.barrierArm r) s = .next { s with dp := afterDesc s.env r (runDesc s.env s.dp r 0x42 (fun _ x => barrierArm s.env s.dp r x)) } from rfl,
      runDesc_runs hhead]
  rw [hrun]
  unfold barrierArm
  rw [if_neg hlegal]
  obtain ⟨d1, h1, -, hwith⟩ := withBrick_runs (r := r) hhome [] [] _
  rw [hwith, hbarrier]
  exact ⟨d1, h1, rfl⟩

variable (hfollowed : Followed s.dp r x) (hroom : Room s.dp r)
include hfollowed hroom

/-- R94. A barrier without a bond is not armed. -/
theorem barrierArm_refused (hbonded : y.bonded = false) :
    ∃ u, exec (.barrierArm r) s = .next u ∧ u.env = s.env ∧ u.dp.bricks = s.dp.bricks ∧ Completed s.dp u.dp r (mkCompl s.dp r x .badCount) := by
  obtain ⟨d1, h1, hrun⟩ := barrierArm_runs hhome hbarrier hhead hrelease
  rw [hbonded, Bool.not_false, if_pos rfl, descStatus, mkCompl_beside h1.rings] at hrun
  obtain ⟨hdone, hbricks, -⟩ := descDone_completes (e := s.env) (c := mkCompl s.dp r x .badCount) hfollowed hroom rfl rfl ⟨h1.rings, h1.cmpl, h1.held⟩
  exact ⟨_, hrun, rfl, hbricks.trans h1.bricks, hdone⟩

/-- R94. The armed barrier, its shadow told, and the completion with the open course. -/
theorem barrierArm_arms (hbonded : y.bonded = true) {P : Barrier → Prop}
    (harms : ∀ d, ∃ y2, P y2 ∧ Rewrites d (hIndex (dHandle x)) y2 (armBonded s.env d (hIndex (dHandle x)) b y (armVals x))) :
    ∃ u y2, exec (.barrierArm r) s = .next u ∧ u.env = s.env ∧ Completed s.dp u.dp r { mkCompl s.dp r x .ok with course := y.course + 1 }
      ∧ brickOf u.dp (hIndex (dHandle x)) = ({ b with body := .barrier y2 } : Brick).shadowWritten
      ∧ (∀ k, k ≠ hIndex (dHandle x) → brickOf u.dp k = brickOf s.dp k) ∧ P y2 := by
  obtain ⟨d1, h1, hrun⟩ := barrierArm_runs hhome hbarrier hhead hrelease
  obtain ⟨y2, hy2, hrewrites⟩ := harms d1
  have hrewrites := Rewrites.of_beside h1 hrewrites
  rw [hbonded, Bool.not_true, if_neg Bool.false_ne_true] at hrun
  dsimp only at hrun
  generalize armBonded s.env d1 (hIndex (dHandle x)) b y (armVals x) = d2 at hrun hrewrites
  rw [mkCompl_beside (d2 := setBrick d2 (hIndex (dHandle x)) (brickOf d2 (hIndex (dHandle x))).shadowWritten) hrewrites.rings.1] at hrun
  obtain ⟨u, hu, hdone, hbrick, hothers, -⟩ := rewritten_completes (e := s.env) (c := { mkCompl s.dp r x .ok with course := y.course + 1 }) hfollowed hroom rfl rfl
    hrewrites (homeOf s.env (hIndex (dHandle x)))
  obtain ⟨-, -, -, hb, -⟩ := hhome
  rw [hb] at hbrick
  exact ⟨{ s with dp := u }, y2, by rw [hrun, hu], rfl, hdone, hbrick, hothers, hy2⟩

end

/-! ### BOND_SET (R86 to R92) -/

theorem insertMember_perm (m : Member) (l : List Member) : (insertMember m l).Perm (m :: l) := by
  induction l with
  | nil => exact List.Perm.refl _
  | cons k l ih =>
    rw [insertMember]
    split
    · exact List.Perm.refl _
    · exact (ih.cons k).trans (List.Perm.swap m k l)

/-- R89. The members in ascending order are those of the list. -/
theorem insertMembers_perm (l a : List Member) : (l.foldl (fun l m => insertMember m l) a).Perm (l ++ a) := by
  induction l generalizing a with
  | nil => exact List.Perm.refl _
  | cons m l ih =>
    refine (ih (insertMember m a)).trans ?_
    exact ((insertMember_perm m a).append_left l).trans List.perm_middle

/-- R89. The members of a bond list. -/
def bondMembers (list : List Dword) : List Member := (list.map bondMember).foldl (fun l m => insertMember m l) []

theorem bondMembers_perm (list : List Dword) : (bondMembers list).Perm (list.map bondMember) := by
  simpa [bondMembers] using insertMembers_perm (list.map bondMember) []

theorem mem_bondMembers {list : List Dword} {m : Member} : m ∈ bondMembers list ↔ ∃ w ∈ list, m = bondMember w := by
  rw [(bondMembers_perm list).mem_iff, List.mem_map]
  exact ⟨fun ⟨w, hw, h⟩ => ⟨w, hw, h.symm⟩, fun ⟨w, hw, h⟩ => ⟨w, hw, h.symm⟩⟩

theorem length_bondMembers (list : List Dword) : (bondMembers list).length = list.length := by
  rw [(bondMembers_perm list).length_eq, List.length_map]

theorem bondExpect_bondMembers (list : List Dword) (n : Nat) : bondExpect (bondMembers list) n = n + (list.map (fun w => (bondMember w).gangs)).sum := by
  rw [bondExpect, ((bondMembers_perm list).map Member.gangs).sum_nat, List.map_map]
  rfl

/-! ### The beds of a bond (R90) -/

/-- R90. Joint j gets its bed of the bond. -/
def addBed (e : Env) (i : Nat) (b : Brick) (y : Barrier) (ms : List Member) (d : Dp) (j : Nat) : Dp :=
  setJoint d j { jointOf d j with beds := (jointOf d j).beds ++ [mkBed e d i b y ms j] }

theorem addBed_keeps {ms : List Member} {j k : Nat} {c : Bed} (hc : c ∈ (jointOf d k).beds) : c ∈ (jointOf (addBed e i b y ms d j) k).beds := by
  unfold addBed
  by_cases hk : k = j
  · subst hk
    simp [hc]
  · simpa [jointOf, setJoint, fgetD_fput_ne _ _ _ hk] using hc

/-- R90. Every member joint has a bed of the bond. -/
theorem addBeds_mem {ms : List Member} {j : Nat} (js : List Nat) (hj : j ∈ js) (d : Dp) :
    ∃ d2, mkBed e d2 i b y ms j ∈ (jointOf (js.foldl (addBed e i b y ms) d) j).beds := by
  induction js generalizing d with
  | nil => cases hj
  | cons k js ih =>
    by_cases hin : j ∈ js
    · exact ih hin _
    · obtain rfl : j = k := by simpa [hin] using hj
      refine ⟨d, ?_⟩
      have hadded : mkBed e d i b y ms j ∈ (jointOf (addBed e i b y ms d j) j).beds := by simp [addBed]
      exact List.foldlRecOn js (addBed e i b y ms) (motive := fun d2 => mkBed e d i b y ms j ∈ (jointOf d2 j).beds) hadded (fun d2 h2 k _ => addBed_keeps h2)

/-- R90. Member m has its counts at zero in the bed of its joint. -/
theorem mkBed_member {ms : List Member} {m : Member} (hm : m ∈ ms) :
    ∃ k ∈ (mkBed e d i b y ms (m.agent / 8)).members, k.slot = m.agent % 8 ∧ k.e = m.gangs ∧ k.a = 0 ∧ k.b = 0 := by
  obtain ⟨n, hn, hget⟩ := List.mem_iff_getElem.1 hm
  refine ⟨{ slot := m.agent % 8, e := m.gangs, a := 0, b := 0, f := 0, wave := m.wave, rank := n }, ?_, rfl, rfl, rfl, rfl⟩
  refine List.mem_map.2 ⟨(m, n), List.mem_filter.2 ⟨?_, by simp⟩, rfl⟩
  rw [List.mem_zipIdx_iff_getElem?]
  exact List.getElem?_eq_some_iff.2 ⟨hn, hget⟩

theorem beside_dropTree (i : Nat) (w : Bool) : Beside d (dropTree d i w) := ⟨rfl, rfl, rfl, rfl⟩

theorem beside_replaceBeds (h : Dword) (stays : Nat → Bool) (j : Nat) : Beside d (replaceBeds e h y stays d j) := by
  unfold replaceBeds
  extract_lets z d1
  have h1 : Beside d d1 := beside_setJoint ..
  split
  · split
    · exact h1
    · exact h1.trans (beside_settleBed ..)
  · exact h1

theorem beside_buildTree (t i : Nat) (course : Word) (w : Bool) (js : List (Nat × Nat)) : Beside d (buildTree e d t i course w js) := by
  unfold buildTree
  extract_lets home paths routers branch d1
  have h1 : Beside d d1 := by
    refine Beside.foldl (fun d2 q => ?_) _ _
    split
    · exact ⟨rfl, rfl, rfl, rfl⟩
    · exact beside_count (bumpK_frame e d2 1 (q * 8 + 4) 6 1)
  exact h1.trans ⟨rfl, rfl, rfl, rfl⟩

/-- R90. A bond gives each member joint a bed, and changes no record. -/
theorem installBond_beds (ms : List Member) : Beside d (installBond e d i b y ms)
    ∧ ∀ m ∈ ms, ∃ d2, mkBed e d2 i b y ms (m.agent / 8) ∈ (jointOf (installBond e d i b y ms) (m.agent / 8)).beds := by
  unfold installBond
  extract_lets h w js d1 d2 d3
  have h1 : Beside d d1 := (beside_dropTree ..).trans (Beside.foldl (fun d2 j => beside_replaceBeds ..) _ _)
  have h2 : Beside d1 d2 := beside_buildTree ..
  have hd3 : d3 = js.foldl (addBed e i b y ms) d2 := rfl
  have h3 : Beside d2 d3 := by
    rw [hd3]
    exact Beside.foldl (fun d2 j => beside_setJoint ..) _ _
  refine ⟨((h1.trans h2).trans h3).trans ⟨rfl, rfl, rfl, rfl⟩, fun m hm => ?_⟩
  have hj : m.agent / 8 ∈ js := List.mem_dedup.2 (List.mem_map.2 ⟨m, hm, rfl⟩)
  obtain ⟨d4, h4⟩ := addBeds_mem (e := e) (i := i) (b := b) (y := y) (ms := ms) js hj d2
  exact ⟨d4, by rw [hd3]; exact h4⟩

/-! ### The barrier with its bond (R86, R92) -/

/-- R86. The bond of a list, and of lchild children. -/
def bondOf (list : List Dword) (lchild made : Nat) : Bond := { expect := bondExpect (bondMembers list) lchild, lchild := lchild, members := bondMembers list, made := made }

/-- R92. A bond waits for the boundary of an armed barrier, and is in force at another one. -/
def Barrier.bondedBy (y : Barrier) (nb : Bond) : Barrier := if y.armed then { y with shBond := some nb } else { ({ y with shBond := some nb } : Barrier).rebond with bonded := true }

theorem bondedBy_armed (nb : Bond) (harmed : y.armed = true) : y.bondedBy nb = { y with shBond := some nb } := if_pos harmed

theorem bondedBy_unarmed (nb : Bond) (harmed : y.armed = false) :
    (y.bondedBy nb).bond = some nb ∧ (y.bondedBy nb).expect = nb.expect ∧ (y.bondedBy nb).bonded = true ∧ (y.bondedBy nb).shBond = none ∧ (y.bondedBy nb).armed = false := by
  rw [Barrier.bondedBy, harmed, if_neg Bool.false_ne_true]
  exact ⟨rfl, rfl, rfl, rfl, rfl⟩

theorem beside_readForRing (addr len : Nat) : Beside d (readForRing d r addr len) ∧ (readForRing d r addr len).joints = d.joints := by
  unfold readForRing
  split
  · exact ⟨Beside.refl d, rfl⟩
  · exact ⟨⟨rfl, rfl, rfl, rfl⟩, rfl⟩

section
variable {s : State} {t : Nat} {list : List Dword} (hhome : AtHome s.env s.dp (dHandle x) b) (hbarrier : b.body = .barrier y)
  (hhead : AtHead s.env s.dp r t x 0x43) (hparams : bondParams x = none) (hlength : list.length = dfield x 128 11)
  (hlist : bondListCheck s.env s.dp (hPart (dHandle x)) list (dfield x 144 7) = none) (hranks : ranksFit y list.length = true)
  (hroomy : ∀ w ∈ list, bedRoom s.dp (dHandle x) y ((bondMember w).agent / 8) = true)
include hhome hbarrier hhead hparams hlength hlist hranks hroomy

/-- R86, R92. The beds are built, the barrier has the bond, and the descriptor completes. -/
theorem bondSet_runs : ∃ d1 d2, Beside s.dp d1
    ∧ d2 = setBarrier (installBond s.env d1 (hIndex (dHandle x)) b y (bondMembers list)) (hIndex (dHandle x)) (y.bondedBy (bondOf list (dfield x 144 7) (d1.seq + 1)))
    ∧ exec (.bondSet r list) s = .next { s with dp := afterDesc s.env r (descStatus s.env (emitNone s.env
        (setBrick d2 (hIndex (dHandle x)) (brickOf d2 (hIndex (dHandle x))).shadowWritten) (homeOf s.env (hIndex (dHandle x))) (hIndex (dHandle x)) 0) r x .ok) } := by
  have hrun : exec (.bondSet r list) s = .next { s with dp := afterDesc s.env r (bondSet s.env s.dp r x list) } := by
    rw [show exec (.bondSet r list) s = .next { s with dp := afterDesc s.env r (runDesc s.env s.dp r 0x43 (fun _ x => bondSet s.env s.dp r x list)) } from rfl,
      runDesc_runs hhead]
  rw [hrun]
  unfold bondSet
  extract_lets entries lchild read
  rw [hparams]
  dsimp only
  rw [if_neg (by simpa using hlength), hlist]
  obtain ⟨d1, h1, hjoints, hwith⟩ := withBrick_runs (r := r) hhome list [] _
  dsimp only
  rw [hwith, hbarrier]
  have hread := beside_readForRing (d := d1) (r := r) (dfield x 192 64) (8 * entries)
  have hfit : ranksFit y (bondMembers list).length = true := by rw [length_bondMembers]; exact hranks
  have hbeds : ((bondMembers list).map (fun m => m.agent / 8)).dedup.all (bedRoom (read d1) (dHandle x) y) = true := by
    rw [List.all_eq_true]
    intro j hj
    obtain ⟨m, hm, rfl⟩ := List.mem_map.1 (List.mem_dedup.1 hj)
    obtain ⟨w, hw, rfl⟩ := mem_bondMembers.1 hm
    have hjoints : (read d1).joints = s.dp.joints := hread.2.trans hjoints
    have hroomAt := hroomy w hw
    unfold bedRoom jointOf at hroomAt ⊢
    rw [hjoints]
    exact hroomAt
  refine ⟨read d1, _, h1.trans hread.1, rfl, ?_⟩
  change Host.Outcome.next { s with dp := afterDesc s.env r (if !ranksFit y (bondMembers list).length then descStatus s.env (read d1) r x .badGrout
    else if !(((bondMembers list).map (fun m : Member => m.agent / 8)).dedup.all (bedRoom (read d1) (dHandle x) y)) then descStatus s.env (read d1) r x .busy else _) } = _
  rw [hfit, hbeds, Bool.not_true, if_neg Bool.false_ne_true, if_neg Bool.false_ne_true]
  rfl

variable (hfollowed : Followed s.dp r x) (hroom : Room s.dp r)
include hfollowed hroom

theorem bondSet_bonds : ∃ u made, exec (.bondSet r list) s = .next u ∧ u.env = s.env ∧ Completed s.dp u.dp r (mkCompl s.dp r x .ok)
    ∧ brickOf u.dp (hIndex (dHandle x)) = ({ b with body := .barrier (y.bondedBy (bondOf list (dfield x 144 7) made)) } : Brick).shadowWritten
    ∧ (∀ k, k ≠ hIndex (dHandle x) → brickOf u.dp k = brickOf s.dp k)
    ∧ ∀ w ∈ list, ∃ d, mkBed s.env d (hIndex (dHandle x)) b y (bondMembers list) ((bondMember w).agent / 8) ∈ (jointOf u.dp ((bondMember w).agent / 8)).beds := by
  obtain ⟨d1, d2, h1, hd2, hrun⟩ := bondSet_runs hhome hbarrier hhead hparams hlength hlist hranks hroomy
  obtain ⟨hinstall, hbeds⟩ := installBond_beds (e := s.env) (d := d1) (i := hIndex (dHandle x)) (b := b) (y := y) (bondMembers list)
  have hrewrites : Rewrites s.dp (hIndex (dHandle x)) (y.bondedBy (bondOf list (dfield x 144 7) (d1.seq + 1))) d2 :=
    ⟨_, h1.trans hinstall, by rw [hd2]; exact Beside.refl _⟩
  have hemit : NumFrame (setBrick d2 (hIndex (dHandle x)) (brickOf d2 (hIndex (dHandle x))).shadowWritten) (emitNone s.env
      (setBrick d2 (hIndex (dHandle x)) (brickOf d2 (hIndex (dHandle x))).shadowWritten) (homeOf s.env (hIndex (dHandle x))) (hIndex (dHandle x)) 0) :=
    numFrame_emit none 0 0
  rw [descStatus, mkCompl_beside ((beside_num hemit).rings.trans hrewrites.rings.1)] at hrun
  obtain ⟨u, hu, hdone, hbrick, hothers, hjoints⟩ := rewritten_completes (e := s.env) (c := mkCompl s.dp r x .ok) hfollowed hroom rfl rfl hrewrites
    (homeOf s.env (hIndex (dHandle x)))
  obtain ⟨-, -, -, hb, -⟩ := hhome
  rw [hb] at hbrick
  refine ⟨{ s with dp := u }, d1.seq + 1, by rw [hrun, hu], rfl, hdone, hbrick, hothers, fun w hw => ?_⟩
  obtain ⟨d4, h4⟩ := hbeds (bondMember w) (mem_bondMembers.2 ⟨w, hw, rfl⟩)
  refine ⟨d4, ?_⟩
  rw [jointOf, hjoints, hd2]
  exact h4

end

/-- Settles O34: BARRIER_ARM arms a bonded barrier and is refused on another; BOND_SET gives a barrier its bond and its member joints their beds. -/
theorem barrierDescriptorsApply : Obligations.BarrierDescriptorsApply := by
  unfold Obligations.BarrierDescriptorsApply
  intro s r t x b y hfollowed hroom hhome hbarrier
  refine ⟨fun hhead hrelease hbonded => ?_, fun hhead hrelease hbonded => barrierArm_refused hhome hbarrier hhead hrelease hfollowed hroom hbonded,
    fun list hhead hparams hlength hlist hranks hroomy => ?_⟩
  · refine barrierArm_arms hhome hbarrier hhead hrelease hfollowed hroom hbonded (P := fun y2 => y2.course = y.course ∧ y2.bonded = true ∧ y2.poisoned = false
      ∧ (y.poisoned = true → y2.armed = true ∧ y2.arm = armVals x ∧ y2.shArm = none ∧ y2.count = 0 ∧ y2.ahead = 0 ∧ y2.dlAt = 0 ∧ y2.shBond = none)
      ∧ (y.poisoned = false → y.armed = true → y2 = { y with shArm := some (armVals x) })
      ∧ (y.poisoned = false → y.armed = false → y2.armed = true ∧ y2.arm = armVals x ∧ y2.count = 0 ∧ y2.expect = y.expect)) fun d => ?_
    rcases Bool.eq_false_or_eq_true y.poisoned with hpoison | hpoison
    · obtain ⟨y2, hcured, hrewrites⟩ := armPoisoned_cures (e := s.env) (d := d) (b := b) (y := y) (v := armVals x) (i := hIndex (dHandle x))
      exact ⟨y2, ⟨hcured.course, hcured.bonded.trans hbonded, hcured.poisoned,
        fun _ => ⟨hcured.armed, hcured.arm, hcured.shArm, hcured.count, hcured.ahead, hcured.dlAt, hcured.shBond⟩,
        fun h => Bool.noConfusion (hpoison.symm.trans h), fun h => Bool.noConfusion (hpoison.symm.trans h)⟩, by rw [armBonded, if_pos hpoison]; exact hrewrites⟩
    · have hunpoisoned : ¬ y.poisoned = true := by rw [hpoison]; exact Bool.false_ne_true
      rcases Bool.eq_false_or_eq_true y.armed with harmed | harmed
      · refine ⟨{ y with shArm := some (armVals x) }, ⟨rfl, hbonded, hpoison, fun h => absurd h hunpoisoned, fun _ _ => rfl,
          fun _ h => Bool.noConfusion (harmed.symm.trans h)⟩, d, Beside.refl d, ?_⟩
        rw [armBonded, if_neg hunpoisoned, if_pos harmed]
        exact Beside.refl _
      · have hunarmed : ¬ y.armed = true := by rw [harmed]; exact Bool.false_ne_true
        obtain ⟨g, hrewrites⟩ := armFirst_arms (e := s.env) (d := d) (b := b) (y := y) (v := armVals x) (i := hIndex (dHandle x))
        exact ⟨{ y with arm := armVals x, armed := true, count := 0, expired := false, grout := g }, ⟨rfl, hbonded, hpoison, fun h => absurd h hunpoisoned,
          fun _ h => absurd h hunarmed, fun _ _ => ⟨rfl, rfl, rfl, rfl⟩⟩, by rw [armBonded, if_neg hunpoisoned, if_neg hunarmed]; exact hrewrites⟩
  · obtain ⟨u, made, hexec, henv, hdone, hbrick, hothers, hbeds⟩ := bondSet_bonds hhome hbarrier hhead hparams hlength hlist hranks hroomy hfollowed hroom
    refine ⟨u, _, bondOf list (dfield x 144 7) made, hexec, henv, hdone, hbrick, hothers, bondExpect_bondMembers list _, rfl, fun m => mem_bondMembers,
      fun harmed => bondedBy_armed _ harmed, fun harmed => bondedBy_unarmed _ harmed, fun w hw => ?_⟩
    obtain ⟨d, hbed⟩ := hbeds w hw
    exact ⟨_, hbed, rfl, rfl, mkBed_member (mem_bondMembers.2 ⟨w, hw, rfl⟩)⟩

end Sys2Proof.Machine
end

section
/-! O6, O8: the queue of a lock or semaphore (R134, R135), and what the tables decide of it (Tables 4.4 and 4.6). -/

namespace Sys2Proof.Machine

variable {q : List Waiter} {w v : Waiter} {l : Lock} {m : Sem} {agent n : Nat} {gang : BitVec 6} {room : Bool}

/-! ### The head of the highest level (R134) -/

theorem mem_reverse_range {k : Nat} : k ∈ (List.range n).reverse ↔ k < n := by simp

/-- A search from n - 1 down finds the highest number that passes. -/
theorem le_of_find?_reverse_range {p : Nat → Bool} {k j : Nat} (h : (List.range n).reverse.find? p = some k) (hj : j < n) (hp : p j = true) : j ≤ k := by
  induction n with
  | zero => exact absurd hj (Nat.not_lt_zero j)
  | succ n ih =>
    rw [List.range_succ, List.reverse_append, List.reverse_singleton, List.singleton_append, List.find?_cons] at h
    split at h
    · exact Option.some.inj h ▸ Nat.le_of_lt_succ hj
    · next hn =>
      refine ih h (Nat.lt_of_le_of_ne (Nat.le_of_lt_succ hj) ?_)
      rintro rfl
      exact Bool.noConfusion (hp.symm.trans hn)

theorem topLevel_eq_none : topLevel q = none ↔ q = [] := by
  rw [topLevel, List.find?_eq_none]
  refine ⟨fun h => List.eq_nil_iff_forall_not_mem.2 fun w hw => ?_, fun h => by simp [h]⟩
  exact h w.prio.toNat (mem_reverse_range.2 w.prio.isLt) (List.any_eq_true.2 ⟨w, hw, beq_self_eq_true _⟩)

/-- No waiter stands above the highest level. -/
theorem le_topLevel (h : topLevel q = some n) (hv : v ∈ q) : v.prio.toNat ≤ n :=
  le_of_find?_reverse_range h v.prio.isLt (List.any_eq_true.2 ⟨v, hv, beq_self_eq_true _⟩)

theorem exists_of_topLevel (h : topLevel q = some n) : ∃ v ∈ q, v.prio.toNat = n := by
  simpa using List.find?_some h

theorem topLevel_lt (h : topLevel q = some n) : n < 8 := mem_reverse_range.1 (List.mem_of_find?_eq_some h)

/-- R134. The first waiter of the highest level, whose level is its own. -/
theorem topWaiter_first (h : topWaiter q = some w) : q.find? (fun v => v.prio == w.prio) = some w := by
  unfold topWaiter at h
  split at h
  · cases h
  · next k _ =>
    have hk : w.prio.toNat = k := by simpa using List.find?_some h
    rw [← h]
    congr 1
    funext v
    rw [← hk, Bool.eq_iff_iff, beq_iff_eq, beq_iff_eq, BitVec.toNat_inj]

theorem mem_of_topWaiter (h : topWaiter q = some w) : w ∈ q := List.mem_of_find?_eq_some (topWaiter_first h)

theorem le_topWaiter (h : topWaiter q = some w) (hv : v ∈ q) : v.prio.toNat ≤ w.prio.toNat := by
  unfold topWaiter at h
  split at h
  · cases h
  · next k htop =>
    have hk : w.prio.toNat = k := by simpa using List.find?_some h
    exact hk ▸ le_topLevel htop hv

/-- R134. A queue with a waiter has a head. -/
theorem exists_topWaiter (h : q ≠ []) : ∃ w, topWaiter q = some w := by
  obtain ⟨k, hk⟩ := Option.ne_none_iff_exists'.1 (mt topLevel_eq_none.1 h)
  obtain ⟨v, hv, hprio⟩ := exists_of_topLevel hk
  rw [topWaiter, hk]
  exact Option.isSome_iff_exists.1 (List.find?_isSome.2 ⟨v, hv, by simpa using hprio⟩)

theorem topWaiter_nil : topWaiter [] = none := rfl

/-! ### Leaving the queue -/

theorem dequeue_eq_eraseP : dequeue w q = q.eraseP (sameWaiter w) := by
  rw [eraseP_of_takeFirst, dequeue]
  cases takeFirst (sameWaiter w) q <;> rfl

theorem mem_of_mem_dequeue (h : v ∈ dequeue w q) : v ∈ q := List.mem_of_mem_eraseP (dequeue_eq_eraseP ▸ h)

theorem length_dequeue (h : w ∈ q) : (dequeue w q).length + 1 = q.length := by
  rw [dequeue_eq_eraseP, List.length_eraseP_of_mem h (by simp [sameWaiter])]
  exact Nat.sub_add_cancel (List.length_pos_of_mem h)

/-! ### The effective priority of a lock (R139) -/

theorem holder_le_effective : l.hprio.toNat ≤ l.effective.toNat := by
  unfold Lock.effective
  split
  · exact Nat.le_refl _
  · next k hk =>
    split
    · next hlt =>
      rw [BitVec.toNat_ofNat, Nat.mod_eq_of_lt (topLevel_lt hk)]
      exact Nat.le_of_lt hlt
    · exact Nat.le_refl _

theorem waiter_le_effective (hv : v ∈ l.queue) : v.prio.toNat ≤ l.effective.toNat := by
  unfold Lock.effective
  split
  · next hnone => rw [topLevel_eq_none.1 hnone] at hv; cases hv
  · next k hk =>
    have hle := le_topLevel hk hv
    split
    · rwa [BitVec.toNat_ofNat, Nat.mod_eq_of_lt (topLevel_lt hk)]
    · next hge => exact hle.trans (Nat.le_of_not_lt hge)

theorem inherit_free (h : l.held = false) : l.inherit = (l, []) := by simp [Lock.inherit, h]

/-- R139. A held lock gets its effective priority. -/
theorem inherit_held (h : l.held = true) : l.inherit.1 = { l with eprio := l.effective } := by
  unfold Lock.inherit
  split
  · rfl
  · next hsame =>
    have heq : l.effective = l.eprio := by simpa [h] using hsame
    rw [heq]

/-- R139. The only hint of a new effective priority is INHERIT. -/
theorem kind_of_inherit {k : BitVec 2} {a : Nat} {g : BitVec 6} {p : BitVec 3} (h : .hint k a g p ∈ l.inherit.2) : k = 1 := by
  unfold Lock.inherit at h
  split at h
  · exact (QEv.hint.inj (List.mem_singleton.1 h)).1
  · cases h

/-! ### The grant loop of a lock (R134) -/

theorem loop_held (h : l.held = true) : l.loop = (l, []) := if_pos h

theorem loop_alone (h : l.queue = []) : l.loop = (l, []) := by
  rw [Lock.loop, h, topWaiter_nil]
  split
  · rfl
  · rfl

theorem loop_grants (hfree : l.held = false) (htop : topWaiter l.queue = some w) :
    l.loop = (l.take w, [.grant w l.grantStatus (l.grants + 1)]) := by
  rw [Lock.loop, hfree, htop]
  rfl

theorem settle_eq : l.settle = (l.loop.1.inherit.1, l.loop.2 ++ l.loop.1.inherit.2) := rfl

/-- R134. A free lock without a waiter stays free. -/
theorem settle_fst_alone (hfree : l.held = false) (h : l.queue = []) : l.settle.1 = l := by
  rw [settle_eq, loop_alone h, inherit_free hfree]

/-- R134, R139. A free lock goes to the head of its queue, with the effective priority of the waiters behind. -/
theorem settle_fst_grants (hfree : l.held = false) (htop : topWaiter l.queue = some w) :
    l.settle.1 = { l.take w with eprio := (l.take w).effective } := by
  rw [settle_eq, loop_grants hfree htop, inherit_held rfl]

theorem settle_fst_held (h : l.held = true) : l.settle.1 = { l with eprio := l.effective } := by
  rw [settle_eq, loop_held h, inherit_held h]

/-- R139. The grants and hints of a settled lock hold no RESTORE. -/
theorem not_restore_of_settle {a : Nat} {g : BitVec 6} {p : BitVec 3} : .hint 2 a g p ∉ l.settle.2 := by
  intro h
  rw [settle_eq] at h
  rcases List.mem_append.1 h with h | h
  · unfold Lock.loop at h
    split at h
    · cases h
    · split at h
      · cases h
      · cases List.mem_singleton.1 h
  · exact absurd (kind_of_inherit h) (by decide)

/-! ### Table 4.4 -/

theorem holder_iff : l.holder agent gang = true ↔ l.held = true ∧ l.hagent = agent ∧ l.hgang = gang := by
  simp [Lock.holder, and_assoc]

theorem acquire_free (h : l.held = false) : l.acquire w room = (l.take w, .answer l.grantStatus, []) := by simp [Lock.acquire, h]

theorem tryAcquire_free (h : l.held = false) : l.tryAcquire w = (l.take w, l.grantStatus) := by simp [Lock.tryAcquire, h]

theorem acquire_busy (h : l.held = true) (hbusy : w.agent = l.hagent ∧ w.gang = l.hgang ∨ room = false) : l.acquire w room = (l, .answer .busy, []) := by
  have hbusy : (l.holder w.agent w.gang || !room) = true := by
    rcases hbusy with ⟨hagent, hgang⟩ | rfl
    · rw [holder_iff.2 ⟨h, hagent.symm, hgang.symm⟩, Bool.true_or]
    · rw [Bool.not_false, Bool.or_true]
  rw [Lock.acquire, if_pos h, if_pos hbusy]

/-- The lock with w behind its other waiters. -/
def Lock.queued (l : Lock) (w : Waiter) : Lock := { l with queue := l.queue ++ [w] }

/-- R139. A waiter that queues behind the others raises the effective priority, where it is the highest. -/
theorem acquire_pends (h : l.held = true) (hother : ¬ (w.agent = l.hagent ∧ w.gang = l.hgang)) :
    l.acquire w true = ((l.queued w).inherit.1, .pend, (l.queued w).inherit.2) := by
  have hother : ¬ (l.holder w.agent w.gang || !true) = true := by
    rw [Bool.not_true, Bool.or_false, holder_iff]
    exact fun hholder => hother ⟨hholder.2.1.symm, hholder.2.2.symm⟩
  rw [Lock.acquire, if_pos h, if_neg hother]
  rfl

theorem release_other (h : l.holder agent gang = false) : l.release agent gang = (l, .notOwner, []) := by simp [Lock.release, h]

theorem release_holder (h : l.holder agent gang = true) :
    l.release agent gang = ((l.drop false).settle.1, .ok, l.restore ++ (l.drop false).settle.2) := by simp [Lock.release, h]

/-- R140. -/
theorem restore_raised (h : l.held = true) (hraised : l.hprio.toNat < l.eprio.toNat) : l.restore = [.hint 2 l.hagent l.hgang l.hprio] := by
  simp [Lock.restore, h, hraised]

theorem restore_own (h : l.eprio.toNat ≤ l.hprio.toNat) : l.restore = [] := by simp [Lock.restore, Nat.not_lt.2 h]

theorem grantStatus_drop : (l.drop false).grantStatus = l.grantStatus := by simp [Lock.grantStatus, Lock.drop]

/-- Settles O6: each row of Table 4.4 by the equation of its decision; the hand-off is the grant loop of the lock that its holder has left. -/
theorem lockDecision : Obligations.LockDecision := by
  unfold Obligations.LockDecision
  intro l w room agent gang
  refine ⟨fun h => ⟨acquire_free h, tryAcquire_free h, rfl, rfl, rfl, rfl, rfl, rfl, rfl⟩, fun h => by simp [Lock.tryAcquire, h], acquire_busy,
    fun h hother hroom => ?_, release_other, fun h => ?_, fun h hempty => ?_, fun h hqueue => ?_⟩
  · subst hroom
    rw [acquire_pends h hother, inherit_held (l := l.queued w) h]
    exact ⟨rfl, rfl, h, rfl, rfl, rfl, rfl, fun v hv => waiter_le_effective (l := l.queued w) hv, holder_le_effective (l := l.queued w)⟩
  · obtain ⟨hheld, -, -⟩ := holder_iff.1 h
    rw [release_holder h]
    refine ⟨rfl, fun hraised => ?_, fun hown a g p => ?_⟩
    · rw [restore_raised hheld hraised]
      exact List.mem_append_left _ (List.mem_singleton.2 rfl)
    · rw [restore_own hown]
      exact not_restore_of_settle (l := l.drop false)
  · rw [release_holder h, settle_fst_alone (l := l.drop false) rfl hempty]
    exact ⟨rfl, rfl⟩
  · obtain ⟨w, hw⟩ := exists_topWaiter hqueue
    have hgrant := loop_grants (l := l.drop false) rfl hw
    refine ⟨w, mem_of_topWaiter hw, fun v hv => le_topWaiter hw hv, topWaiter_first hw, ?_⟩
    rw [release_holder h, settle_fst_grants (l := l.drop false) rfl hw]
    refine ⟨rfl, rfl, rfl, rfl, rfl, rfl, List.mem_append_right _ ?_⟩
    rw [settle_eq, hgrant, grantStatus_drop]
    exact List.mem_append_left _ (List.mem_singleton.2 rfl)

/-! ### Table 4.6 -/

/-- R135. A take is granted at once where nobody waits at its level or above and COUNT covers it. -/
theorem grants_iff : m.grants w = true ↔ (∀ v ∈ m.queue, v.prio.toNat < w.prio.toNat) ∧ w.n ≤ m.count := by
  unfold Sem.grants
  cases htop : topLevel m.queue with
  | none => simp [topLevel_eq_none.1 htop]
  | some k =>
    obtain ⟨u, hu, rfl⟩ := exists_of_topLevel htop
    simp only [Bool.and_eq_true, decide_eq_true_eq, and_congr_left_iff]
    exact fun _ => ⟨fun hlt v hv => (le_topLevel htop hv).trans_lt hlt, fun h => h u hu⟩

theorem not_grants_iff : m.grants w = false ↔ m.count < w.n ∨ ∃ v ∈ m.queue, w.prio.toNat ≤ v.prio.toNat := by
  rw [← Bool.not_eq_true, grants_iff, not_and_or, not_le, or_comm]
  simp only [not_forall, not_lt, exists_prop]

/-- R149. What a grant takes from COUNT. -/
def QEv.taken : QEv → Nat
  | .grant u _ _ => u.n
  | .hint _ _ _ _ => 0

/-- R134. The grant loop, n being enough for the queue: what it takes from COUNT it grants, each grant ends one wait, and it stops only at a head that COUNT does not cover. -/
theorem semLoop_accounts (h : m.queue.length ≤ n) :
    (Sem.loop n m).1.count + ((Sem.loop n m).2.map QEv.taken).sum = m.count
      ∧ (Sem.loop n m).1.queue.length + (Sem.loop n m).2.length = m.queue.length
      ∧ ∀ u, topWaiter (Sem.loop n m).1.queue = some u → (Sem.loop n m).1.count < u.n := by
  induction n generalizing m with
  | zero =>
    have hempty : m.queue = [] := List.eq_nil_of_length_eq_zero (Nat.le_zero.1 h)
    refine ⟨rfl, rfl, fun u hu => ?_⟩
    rw [Sem.loop, hempty] at hu
    cases hu
  | succ n ih =>
    unfold Sem.loop
    split
    · next hnone => exact ⟨rfl, rfl, fun u hu => by rw [hnone] at hu; cases hu⟩
    · next w hw =>
      split
      · next hlt =>
        refine ⟨rfl, rfl, fun u hu => ?_⟩
        obtain rfl : w = u := Option.some.inj (hw.symm.trans hu)
        exact hlt
      · next hle =>
        have hlen := length_dequeue (mem_of_topWaiter hw)
        obtain ⟨hcount, hqueue, hstop⟩ := ih (m := { count := m.count - w.n, queue := dequeue w m.queue }) (by simp only; omega)
        simp only [List.map_cons, List.sum_cons, List.length_cons, QEv.taken] at hcount hqueue ⊢
        exact ⟨by omega, by omega, hstop⟩

/-- Settles O8: a take by whether it is granted at once, a give by the account of its grant loop. -/
theorem semaphoreDecision : Obligations.SemaphoreDecision := by
  unfold Obligations.SemaphoreDecision
  intro m w room n
  refine ⟨fun h => ⟨if_pos h, if_pos h⟩, fun h hcount hqueue => ?_, fun h hnot => ?_, fun h hover => ?_, fun hfits h => ?_⟩
  · have hgrants : m.grants w = true := grants_iff.2 ⟨hqueue, hcount⟩
    exact ⟨by rw [Sem.take, if_neg h, if_pos hgrants], by rw [Sem.tryTake, if_neg h, if_pos hgrants]⟩
  · have hgrants : m.grants w = false := not_grants_iff.2 hnot
    simp [Sem.take, Sem.tryTake, h, hgrants]
  · rw [Sem.give, if_neg h, if_pos hover]
  · rw [Sem.give, if_neg h, if_neg (Nat.not_lt.2 hfits)]
    exact ⟨rfl, semLoop_accounts (m := { m with count := m.count + n }) (Nat.le_refl _)⟩

end Sys2Proof.Machine
end

section
/-! O5, O7: requests for a lock or semaphore (R138, R149) on their way from the joint to the home tile, and what the home tile makes of them. -/

namespace Sys2Proof.Machine

open Sys2Proof.Safety

variable {e : Env} {d d2 : Dp} {j t i : Nat} {x : JEntry} {b : Brick} {body : Body} {l : Lock} {m : Sem} {op : AOp} {r : Req} {p : BitVec 4} {sh : Bool}

/-! ### The way to the home tile -/

/-- Table 8.3. The requests for a lock or semaphore, which need no seal. -/
def queueOps : List AOp := [.lockTry, .lockAcq, .semTry, .semTake]

theorem release_of_queueOps (h : op ∈ queueOps) : op.release = false := by
  revert op
  decide

theorem pallet_not_type (h : op ∈ queueOps) : BType.pallet ∉ op.types := by
  revert op
  decide

/-- Table 2.3, step 3. A handle of such a request names no pallet. -/
theorem hType_of_queueOps (h : op ∈ queueOps) (hfront : handleFront e (some p) (reqTypes r op) r.handle = none) : (hType r.handle).toNat ≠ 3 := by
  intro h3
  obtain ⟨t, ht, hcode⟩ := type_of_handleFront hfront
  rw [h3] at hcode
  obtain rfl : t = .pallet := by simpa [BType.ofCode] using hcode.symm
  unfold reqTypes at ht
  split at ht
  · cases ht
  · exact pallet_not_type h ht

/-- R232. Such a request goes to its brick's home tile. -/
theorem runEntry_queueOps (h : x.op ∈ queueOps) (hthawed : (jointOf d j).frozen.contains x.part.toNat = false) : runEntry e d j x = sendHome e d j x := by
  rw [runEntry_thawed hthawed]
  simp only [queueOps, List.mem_cons, List.not_mem_nil, or_false] at h
  rcases h with h | h | h | h <;> rw [h]

/-- R45. What the home tile does for a request on a resident record that the agent may use. -/
def bodyHome (e : Env) (d : Dp) (t i : Nat) (b : Brick) (j : Nat) (x : JEntry) : Dp :=
  match b.body with
  | .lock l => lockHome e d t i b l j x
  | .semaphore s => semHome e d t i b s j x
  | .event v => eventHome e d t i b v j x
  | .pallet => palletHome e d t i b 0 j x
  | .barrier y => if x.op = .wait then watchHome e d t i b y j x else barrierHome e d t i b y j x

/-- R45, steps 7 to 9. -/
theorem homeExec_admits (hb : brickOf d (hIndex x.req.handle) = b) (hvalid : b.valid = true) (hgen : b.gen = hGen x.req.handle)
    (hpart : b.part = hPart x.req.handle) (htype : (hType x.req.handle).toNat = b.typeCode) (hlost : b.lost = none)
    (hallow : admits e (groupMask d b.part b.group) j x.req.slot = true) :
    homeExec e d t 0 j x
      = bodyHome e (touchSlot d t (.brick (hIndex x.req.handle)) (x.op != .test && x.op != .query)) t (hIndex x.req.handle) b j x := by
  have hknown : (b.valid && b.gen == hGen x.req.handle && b.part == hPart x.req.handle) = true := by simp [hvalid, hgen, hpart]
  simp only [homeExec, hb, hknown, htype, hlost, hallow, ne_eq, not_true_eq_false, if_false, if_true, Bool.not_true, Bool.and_false, Bool.false_eq_true]
  unfold bodyHome
  cases b.body <;> rfl

theorem bodyHome_lock (h : b.body = .lock l) : bodyHome e d t i b j x = lockHome e d t i b l j x := by rw [bodyHome, h]

theorem bodyHome_semaphore (h : b.body = .semaphore m) : bodyHome e d t i b j x = semHome e d t i b m j x := by rw [bodyHome, h]

/-- R230, R232. From s to d the request x of joint j has its entry and has come to its home tile; beside the joints only counters, trace and slots have changed. -/
structure CameHome (s : Dp) (j : Nat) (x : JEntry) (d : Dp) : Prop where
  frame : ∃ js n ts o, d = { s with joints := js, seq := n, tiles := ts, obs := o }
  entries : (jointOf d j).entries = (jointOf s j).entries ++ [x]

theorem CameHome.note {s : Dp} (h : CameHome s j x d) (hnote : NoteFrame d d2) : CameHome s j x d2 := by
  obtain ⟨⟨_, _, _, _, rfl⟩, hentries⟩ := h
  obtain ⟨_, _, rfl⟩ := hnote
  exact ⟨⟨_, _, _, _, rfl⟩, hentries⟩

theorem requestTaken_modEntry_frame (e : Env) (d : Dp) (j : Nat) (x : JEntry) (f : JEntry → JEntry) :
    ∃ js n o, modEntry (requestTaken e d j x) j x.id f = { d with joints := js, seq := n, obs := o } := by
  obtain ⟨_, _, _, h⟩ := requestTaken_frame e d j x
  rw [h]
  exact ⟨_, _, _, rfl⟩

/-- R230. An admitted request has its entry, and goes to its home tile. -/
theorem cameHome_requestTaken {s : Dp} (hfresh : FreshId s j) (hx : x.id = s.seq) (hphase : x.phase = .atHome) :
    CameHome s j x (modEntry (requestTaken e s j x) j x.id (fun y => { y with phase := .atHome })) := by
  refine ⟨?_, ?_⟩
  · obtain ⟨js, n, o, h⟩ := requestTaken_modEntry_frame e s j x (fun y => { y with phase := .atHome })
    exact ⟨js, n, s.tiles, o, h⟩
  · rw [entries_modEntry_requestTaken hfresh hx, ← hphase]

theorem CameHome.brickOf {s : Dp} (h : CameHome s j x d) (k : Nat) : brickOf d k = brickOf s k := by
  obtain ⟨_, _, _, _, rfl⟩ := h.frame
  rfl

theorem CameHome.net {s : Dp} (h : CameHome s j x d) : d.net = s.net := by
  obtain ⟨_, _, _, _, rfl⟩ := h.frame
  rfl

theorem CameHome.free {s : Dp} (h : CameHome s j x d) : d.free = s.free := by
  obtain ⟨_, _, _, _, rfl⟩ := h.frame
  rfl

theorem CameHome.prompt {s : Dp} (h : CameHome s j x d) : Prompt e d i ↔ Prompt e s i := by
  obtain ⟨_, _, _, _, rfl⟩ := h.frame
  rfl

/-- R129, R130. The waiter stores are as they were. -/
theorem CameHome.pickStore {s : Dp} (h : CameHome s j x d) (f : Nat) : pickStore e d t f = pickStore e s t f := by
  obtain ⟨_, _, _, _, rfl⟩ := h.frame
  rfl

theorem CameHome.storeRoom {s : Dp} (h : CameHome s j x d) : storeRoom e d t = storeRoom e s t := by
  obtain ⟨_, _, _, _, rfl⟩ := h.frame
  rfl

theorem CameHome.allowed {s : Dp} {slot : BitVec 3} (h : CameHome s j x d) (hallow : Allowed e s j slot b) : Allowed e d j slot b := by
  obtain ⟨_, _, _, _, rfl⟩ := h.frame
  exact hallow

/-- R229 to R232, R45. A request for a lock or semaphore that its joint admits runs at its brick at once, where nothing stands between. -/
theorem exec_cameHome {s : State} {j : BitVec 7} (hop : op ∈ queueOps) (hadmitted : Admitted s.env s.dp j.toNat op r p sh)
    (hclear : SlotClear s.dp j.toNat r.slot) (hhome : AtHome s.env s.dp r.handle b) (hnear : Near s.env s.dp j.toNat r.handle)
    (hallow : Allowed s.env s.dp j.toNat r.slot b) (hfresh : FreshId s.dp j.toNat) :
    ∃ d, CameHome s.dp j.toNat (newEntry s.dp.seq op r p sh .atHome) d ∧ exec (requestOf op j r) s = .next { s with
      dp := bodyHome s.env d (homeOf s.env (hIndex r.handle)) (hIndex r.handle) b j.toNat (newEntry s.dp.seq op r p sh .atHome) } := by
  have hexec := exec_admitted hadmitted hclear (release_of_queueOps hop)
  obtain ⟨-, ⟨-, -, hfront, -⟩, hfrozen, -⟩ := hadmitted
  obtain ⟨hlow, hres, -, hb, hvalid, hgen, hpart, htype, hlost⟩ := hhome
  have htaken := cameHome_requestTaken (e := s.env) (x := newEntry s.dp.seq op r p sh .atHome) hfresh rfl rfl
  rw [runEntry_queueOps hop (by rw [requestTaken_frozen]; exact hfrozen), sendHome_brick (hType_of_queueOps hop hfront)] at hexec
  obtain ⟨js, n, o, hframe⟩ := requestTaken_modEntry_frame s.env s.dp j.toNat (newEntry s.dp.seq op r p sh .atHome) (fun y => { y with phase := .atHome })
  obtain ⟨d1, h1, hreq⟩ := homeReq_near (e := s.env) (j := j.toNat) (x := newEntry s.dp.seq op r p sh .atHome)
    (d := modEntry (requestTaken s.env s.dp j.toNat (newEntry s.dp.seq op r p sh .atHome)) j.toNat
      (newEntry s.dp.seq op r p sh .atHome).id (fun y => { y with phase := .atHome })) hlow (by rw [hframe]; exact hres) (by rw [hframe]; exact hnear)
  have hcame := htaken.note h1
  refine ⟨_, hcame.note (noteFrame_touchSlot (t := homeOf s.env (hIndex r.handle)) (.brick (hIndex r.handle)) (op != .test && op != .query)),
    hexec.trans (congrArg (fun d => Host.Outcome.next { s with dp := d }) (hreq.trans ?_))⟩
  exact homeExec_admits (x := newEntry s.dp.seq op r p sh .atHome) ((hcame.brickOf _).trans hb) hvalid hgen hpart htype hlost (hcame.allowed hallow)

/-! ### A brick with a new body answers, or lets the request pend -/

/-- The body of brick i is new in d2, and no other brick changes. -/
def BodySet (d : Dp) (i : Nat) (b : Brick) (body : Body) (d2 : Dp) : Prop :=
  ∀ k, brickOf d2 k = if k = i then { b with body := body } else brickOf d k

theorem BodySet.own (h : BodySet d i b body d2) : brickOf d2 i = { b with body := body } := (h i).trans (if_pos rfl)

theorem BodySet.others (h : BodySet d i b body d2) (k : Nat) (hk : k ≠ i) : brickOf d2 k = brickOf d k := (h k).trans (if_neg hk)

theorem bodySet_of_bricks (h : d2.bricks = (setBody d i b body).bricks) : BodySet d i b body d2 := fun k =>
  (brickOf_congr h k).trans (brickOf_setBrick d i k _)

/-- From d to d2 the body of brick i is new, and beside it only notes and the count of free values have changed. -/
def BodyNoted (d : Dp) (i : Nat) (b : Brick) (body : Body) (d2 : Dp) : Prop := ∃ f, NoteFrame { setBody d i b body with free := f } d2

theorem posts_nil : posts [] = [] := rfl

/-- The request is known to pend, and that is noted (R142, Table 13.5). -/
def pendsNoted (e : Env) (d : Dp) (t : Nat) (b : Brick) (j : Nat) (x : JEntry) : Dp := noteOp e (markPended d j x.id) t b j x .ok 0

section
variable {s : Dp} (hcame : CameHome s j x d)
include hcame

theorem CameHome.bodySet (hset : BodySet d i b body d2) : BodySet s i b body d2 := fun k => by rw [hset k, hcame.brickOf k]

/-- R74. A brick whose hods leave at once answers with the hods that go before. -/
theorem CameHome.answer (hprompt : Prompt e s i) (hnoted : BodyNoted d i b body d2) (before : List Hod) (q : Resp) :
    BodySet s i b body (homeAnswer e d2 (homeOf e i) i 0 b j x before q)
      ∧ posts (homeAnswer e d2 (homeOf e i) i 0 b j x before q).net
        = posts s.net ++ posts before ++ posts [replyHod (homeOf e i) j x.id b.part q] := by
  obtain ⟨f, hnote⟩ := hnoted
  obtain ⟨hcopy, hwait⟩ := (hnote.prompt (e := e) i).2 (hcame.prompt.2 hprompt)
  obtain ⟨hbricks, -, hposts⟩ := homeAnswer_outcome (e := e) (b := b) (j := j) (x := x) hcopy hwait before q
  refine ⟨hcame.bodySet (bodySet_of_bricks (hbricks.trans hnote.bricks)), hposts.trans ?_⟩
  rw [hnote.net, List.append_assoc, ← hcame.net]
  simp [posts, setBody]

/-- R74, R142. A request that pends is marked at its joint, and the hods leave. -/
theorem CameHome.pends {f : Nat} (hprompt : Prompt e s i) (hfresh : FreshId s j) (hid : x.id = s.seq) (outs : List Hod)
    (undo : Option (Nat × Nat × BitVec 3)) :
    let u := emit e (pendsNoted e { setBody d i b body with free := f } (homeOf e i) b j x) (homeOf e i) i 0 outs undo
    BodySet s i b body u ∧ posts u.net = posts s.net ++ posts outs
      ∧ (jointOf u j).entries = (jointOf s j).entries ++ [{ x with phase := .pends, pended := true, seen := true }] := by
  intro u
  have hnote : NoteFrame (markPended { setBody d i b body with free := f } j x.id) (pendsNoted e { setBody d i b body with free := f } (homeOf e i) b j x) :=
    noteFrame_noteOp _ _
  obtain ⟨hcopy, hwait⟩ := (hnote.prompt (e := e) i).2 (hcame.prompt.2 hprompt)
  have hsent : u = sendAll e outs (pendsNoted e { setBody d i b body with free := f } (homeOf e i) b j x) := emit_plain _ _ _ _ _ _ _ hcopy hwait
  rw [hsent]
  refine ⟨hcame.bodySet (bodySet_of_bricks ((sendAll_bricks ..).trans hnote.bricks)), ?_, ?_⟩
  · rw [posts_sendAll, hnote.net, ← hcame.net]
    rfl
  · have hentries : (jointOf ({ setBody d i b body with free := f } : Dp) j).entries = (jointOf s j).entries ++ [x] := hcame.entries
    rw [jointOf, sendAll_joints, ← jointOf, hnote.jointOf, markPended, jointOf_setJoint, hentries,
      modFirst_append_of_not fun z hz => hid ▸ freshId_ne hfresh hz]
    simp [modFirst]

end

/-! ### Locks (Table 4.4) -/

theorem lockHome_try (hop : x.op = .lockTry) :
    let q := l.tryAcquire (mkWaiter e t j x 0)
    ∃ d2, BodyNoted d i b (.lock q.1) d2
      ∧ lockHome e d t i b l j x = homeAnswer e d2 t i 0 b j x [] (grantResp .lockTry (agentNo j x.req.slot) q.2 q.1.grants) := by
  intro q
  refine ⟨if q.2 = .busy then setBody d i b (.lock q.1) else bumpP e (setBody d i b (.lock q.1)) b.part 4 1,
    ⟨d.free, NoteFrame.ite (NoteFrame.refl _) (noteFrame_bumpP _ _ _)⟩, ?_⟩
  simp only [lockHome, hop]
  rfl

/-- R129, R130. The waiter of a request that queues at its home tile. -/
def queueWaiter (e : Env) (d : Dp) (t j : Nat) (x : JEntry) : Waiter := mkWaiter e t j x (pickStore e d t d.free)

/-- Table 13.3. What an answer counts: a refusal at the tile, a grant at the partition. -/
def answerCounted (e : Env) (d : Dp) (t : Nat) (p : BitVec 4) (busy ok : Prop) [Decidable busy] [Decidable ok] : Dp :=
  let d := if busy then bumpT e d t 18 else d
  if ok then bumpP e d p 4 1 else d

theorem noteFrame_answerCounted {p : BitVec 4} {busy ok : Prop} [Decidable busy] [Decidable ok] : NoteFrame d (answerCounted e d t p busy ok) :=
  (NoteFrame.ite (noteFrame_bumpT 18) (NoteFrame.refl d)).trans (NoteFrame.ite (noteFrame_bumpP p 4 1) (NoteFrame.refl _))

theorem CameHome.queueWaiter {s : Dp} (h : CameHome s j x d) : queueWaiter e d t j x = queueWaiter e s t j x := by
  rw [Machine.queueWaiter, h.free, h.pickStore, Machine.queueWaiter]

/-- R138. What follows the decision on a LOCK_ACQ: the lock is written, and the request is answered or pends. -/
def lockDecided (e : Env) (d : Dp) (t i : Nat) (b : Brick) (l : Lock) (j : Nat) (x : JEntry) (q : Lock × QRes × List QEv) : Dp :=
  let agent := agentNo j x.req.slot
  let d := setBody d i b (.lock q.1)
  match q.2.1 with
  | .answer st => homeAnswer e (answerCounted e d t b.part (st = .busy && !l.holder agent x.req.gang) (st = .ok || st = .okAbandoned)) t i 0 b j x (qHods t b x.req.handle q.2.2) (grantResp .lockAcq agent st q.1.grants)
  | .pend => emit e (pendsNoted e d t b j x) t i 0 (qHods t b x.req.handle q.2.2) (some (agent, x.req.gang.toNat, l.eprio))

theorem lockHome_acquire (hop : x.op = .lockAcq) :
    ∃ f, lockHome e d t i b l j x = lockDecided e { d with free := f } t i b l j x (l.acquire (queueWaiter e d t j x) (storeRoom e d t)) := by
  rcases Bool.eq_false_or_eq_true l.held with hheld | hheld
  · refine ⟨d.free + 1, ?_⟩
    simp only [lockHome, hop, hheld, if_true, nextFree]
    rfl
  · refine ⟨d.free, ?_⟩
    simp only [lockHome, hop, hheld, Bool.false_eq_true, if_false]
    rfl

theorem lockDecided_answers {q : Lock × QRes × List QEv} {f : Nat} {st : Status} (h : q.2.1 = .answer st) :
    ∃ d2, BodyNoted d i b (.lock q.1) d2 ∧ lockDecided e { d with free := f } t i b l j x q
      = homeAnswer e d2 t i 0 b j x (qHods t b x.req.handle q.2.2) (grantResp .lockAcq (agentNo j x.req.slot) st q.1.grants) := by
  unfold lockDecided
  rw [h]
  exact ⟨_, ⟨f, noteFrame_answerCounted⟩, rfl⟩

theorem lockDecided_pends {q : Lock × QRes × List QEv} {f : Nat} (h : q.2.1 = .pend) :
    ∃ u, lockDecided e { d with free := f } t i b l j x q
      = emit e (pendsNoted e { setBody d i b (.lock q.1) with free := f } t b j x) t i 0 (qHods t b x.req.handle q.2.2) u := by
  unfold lockDecided
  rw [h]
  exact ⟨_, rfl⟩

/-! ### Semaphores (Table 4.6) -/

/-- A brick gets its body, and the grant is counted, where there is one. -/
theorem bodyNoted_counted {c : Prop} [Decidable c] (f : Nat) :
    BodyNoted d i b body (if c then bumpP e (setBody { d with free := f } i b body) b.part 4 1 else setBody { d with free := f } i b body) :=
  ⟨f, NoteFrame.ite (noteFrame_bumpP _ _ _) (NoteFrame.refl _)⟩

theorem semHome_try (hop : x.op = .semTry) :
    let q := m.tryTake (mkWaiter e t j x 0)
    ∃ d2, BodyNoted d i b (.semaphore q.1) d2 ∧ semHome e d t i b m j x = homeAnswer e d2 t i 0 b j x [] (Resp.at q.2 (BitVec.ofNat 32 q.1.count)) := by
  intro q
  refine ⟨_, bodyNoted_counted (e := e) (c := (q.2 = .ok && (mkWaiter e t j x 0).n != 0) = true) d.free, ?_⟩
  simp only [semHome, hop]
  rfl

/-- R149. What follows the decision on a SEM_TAKE. -/
def semDecided (e : Env) (d : Dp) (t i : Nat) (b : Brick) (j : Nat) (x : JEntry) (q : Sem × QRes) : Dp :=
  let d := setBody d i b (.semaphore q.1)
  match q.2 with
  | .answer st => homeAnswer e (answerCounted e d t b.part (st = .busy) (st = .ok && x.req.count.toNat != 0)) t i 0 b j x [] (Resp.at st (BitVec.ofNat 32 q.1.count))
  | .pend => emit e (pendsNoted e d t b j x) t i 0 [] (some (agentNo j x.req.slot, x.req.gang.toNat, 0))

theorem semHome_take (hop : x.op = .semTake) :
    ∃ f, semHome e d t i b m j x = semDecided e { d with free := f } t i b j x (m.take (queueWaiter e d t j x) (storeRoom e d t)) := by
  rcases Bool.eq_false_or_eq_true ((mkWaiter e t j x 0).n != 0 && !m.grants (mkWaiter e t j x 0)) with hqueues | hqueues
  · refine ⟨d.free + 1, ?_⟩
    simp only [semHome, hop, hqueues, if_true, nextFree]
    rfl
  · refine ⟨d.free, ?_⟩
    simp only [semHome, hop, hqueues, Bool.false_eq_true, if_false]
    rfl

theorem semDecided_answers {q : Sem × QRes} {f : Nat} {st : Status} (h : q.2 = .answer st) :
    ∃ d2, BodyNoted d i b (.semaphore q.1) d2
      ∧ semDecided e { d with free := f } t i b j x q = homeAnswer e d2 t i 0 b j x [] (Resp.at st (BitVec.ofNat 32 q.1.count)) := by
  unfold semDecided
  rw [h]
  exact ⟨_, ⟨f, noteFrame_answerCounted⟩, rfl⟩

theorem semDecided_pends {q : Sem × QRes} {f : Nat} (h : q.2 = .pend) :
    ∃ u, semDecided e { d with free := f } t i b j x q = emit e (pendsNoted e { setBody d i b (.semaphore q.1) with free := f } t b j x) t i 0 [] u := by
  unfold semDecided
  rw [h]
  exact ⟨_, rfl⟩

/-! ### The requests from their joint on -/

section
variable {s : Dp} (hcame : CameHome s j x d) (hprompt : Prompt e s i)
include hcame hprompt

/-- R138. -/
theorem lockTry_decides (hop : x.op = .lockTry) :
    let q := l.tryAcquire (mkWaiter e (homeOf e i) j x 0)
    let u := lockHome e d (homeOf e i) i b l j x
    BodySet s i b (.lock q.1) u
      ∧ posts u.net = posts s.net ++ posts [replyHod (homeOf e i) j x.id b.part (grantResp .lockTry (agentNo j x.req.slot) q.2 q.1.grants)] := by
  intro q u
  obtain ⟨d2, hnoted, heq⟩ := lockHome_try (e := e) (d := d) (t := homeOf e i) (i := i) (b := b) (l := l) (j := j) hop
  obtain ⟨hset, hposts⟩ := hcame.answer hprompt hnoted [] (grantResp .lockTry (agentNo j x.req.slot) q.2 q.1.grants)
  rw [← heq] at hset hposts
  exact ⟨hset, hposts.trans (by rw [posts_nil, List.append_nil])⟩

section
variable {q : Lock × QRes × List QEv} (hq : q = l.acquire (queueWaiter e s (homeOf e i) j x) (storeRoom e s (homeOf e i))) (hop : x.op = .lockAcq)
include hq hop

theorem lockAcquire_answers {st : Status} (hst : q.2.1 = .answer st) :
    let u := lockHome e d (homeOf e i) i b l j x
    BodySet s i b (.lock q.1) u ∧ posts u.net = posts s.net ++ posts (qHods (homeOf e i) b x.req.handle q.2.2)
      ++ posts [replyHod (homeOf e i) j x.id b.part (grantResp .lockAcq (agentNo j x.req.slot) st q.1.grants)] := by
  obtain ⟨f, hdecided⟩ := lockHome_acquire (e := e) (d := d) (t := homeOf e i) (i := i) (b := b) (l := l) (j := j) hop
  obtain ⟨d2, hnoted, heq⟩ := lockDecided_answers (e := e) (d := d) (t := homeOf e i) (i := i) (b := b) (l := l) (j := j) (x := x) (f := f) hst
  rw [hdecided, hcame.queueWaiter, hcame.storeRoom, ← hq, heq]
  exact hcame.answer hprompt hnoted _ _

theorem lockAcquire_pends (hfresh : FreshId s j) (hid : x.id = s.seq) (hpend : q.2.1 = .pend) :
    let u := lockHome e d (homeOf e i) i b l j x
    BodySet s i b (.lock q.1) u ∧ posts u.net = posts s.net ++ posts (qHods (homeOf e i) b x.req.handle q.2.2)
      ∧ (jointOf u j).entries = (jointOf s j).entries ++ [{ x with phase := .pends, pended := true, seen := true }] := by
  obtain ⟨f, hdecided⟩ := lockHome_acquire (e := e) (d := d) (t := homeOf e i) (i := i) (b := b) (l := l) (j := j) hop
  obtain ⟨undo, heq⟩ := lockDecided_pends (e := e) (d := d) (t := homeOf e i) (i := i) (b := b) (l := l) (j := j) (x := x) (f := f) hpend
  rw [hdecided, hcame.queueWaiter, hcame.storeRoom, ← hq, heq]
  exact hcame.pends hprompt hfresh hid _ _

end

/-- R149. -/
theorem semTry_decides (hop : x.op = .semTry) :
    let q := m.tryTake (mkWaiter e (homeOf e i) j x 0)
    let u := semHome e d (homeOf e i) i b m j x
    BodySet s i b (.semaphore q.1) u
      ∧ posts u.net = posts s.net ++ posts [replyHod (homeOf e i) j x.id b.part (Resp.at q.2 (BitVec.ofNat 32 q.1.count))] := by
  intro q u
  obtain ⟨d2, hnoted, heq⟩ := semHome_try (e := e) (d := d) (t := homeOf e i) (i := i) (b := b) (m := m) (j := j) hop
  obtain ⟨hset, hposts⟩ := hcame.answer hprompt hnoted [] (Resp.at q.2 (BitVec.ofNat 32 q.1.count))
  rw [← heq] at hset hposts
  exact ⟨hset, hposts.trans (by rw [posts_nil, List.append_nil])⟩

section
variable {q : Sem × QRes} (hq : q = m.take (queueWaiter e s (homeOf e i) j x) (storeRoom e s (homeOf e i))) (hop : x.op = .semTake)
include hq hop

theorem semTake_answers {st : Status} (hst : q.2 = .answer st) :
    let u := semHome e d (homeOf e i) i b m j x
    BodySet s i b (.semaphore q.1) u
      ∧ posts u.net = posts s.net ++ posts [replyHod (homeOf e i) j x.id b.part (Resp.at st (BitVec.ofNat 32 q.1.count))] := by
  obtain ⟨f, hdecided⟩ := semHome_take (e := e) (d := d) (t := homeOf e i) (i := i) (b := b) (m := m) (j := j) hop
  obtain ⟨d2, hnoted, heq⟩ := semDecided_answers (e := e) (d := d) (t := homeOf e i) (i := i) (b := b) (j := j) (x := x) (f := f) hst
  rw [hdecided, hcame.queueWaiter, hcame.storeRoom, ← hq, heq]
  obtain ⟨hset, hposts⟩ := hcame.answer (x := x) hprompt hnoted [] (Resp.at st (BitVec.ofNat 32 q.1.count))
  exact ⟨hset, hposts.trans (by rw [posts_nil, List.append_nil])⟩

theorem semTake_pends (hfresh : FreshId s j) (hid : x.id = s.seq) (hpend : q.2 = .pend) :
    let u := semHome e d (homeOf e i) i b m j x
    BodySet s i b (.semaphore q.1) u ∧ posts u.net = posts s.net
      ∧ (jointOf u j).entries = (jointOf s j).entries ++ [{ x with phase := .pends, pended := true, seen := true }] := by
  obtain ⟨f, hdecided⟩ := semHome_take (e := e) (d := d) (t := homeOf e i) (i := i) (b := b) (m := m) (j := j) hop
  obtain ⟨undo, heq⟩ := semDecided_pends (e := e) (d := d) (t := homeOf e i) (i := i) (b := b) (j := j) (x := x) (f := f) hpend
  rw [hdecided, hcame.queueWaiter, hcame.storeRoom, ← hq, heq]
  obtain ⟨hset, hposts, hentries⟩ := hcame.pends (x := x) (b := b) (f := f) (body := .semaphore q.1) hprompt hfresh hid [] undo
  exact ⟨hset, hposts.trans (by rw [posts_nil, List.append_nil]), hentries⟩

end

end

/-- Settles O5: both requests run at the lock's home tile, where the table's decision is written, and answered or left to pend. -/
theorem lockRequestsDecide : Obligations.LockRequestsDecide := by
  unfold Obligations.LockRequestsDecide
  intro s j r p sh b l hclear hhome hnear hallow hbody hfresh
  refine ⟨fun hadmitted => ?_, fun hadmitted => ?_⟩
  · obtain ⟨d, hcame, hexec⟩ := exec_cameHome (op := .lockTry) (by decide) hadmitted hclear hhome.1 hnear hallow hfresh
    rw [bodyHome_lock hbody] at hexec
    obtain ⟨hset, hposts⟩ := lockTry_decides (b := b) (l := l) hcame hhome.2 rfl
    exact ⟨_, hexec, rfl, hset.own, hset.others, hposts⟩
  · obtain ⟨d, hcame, hexec⟩ := exec_cameHome (op := .lockAcq) (by decide) hadmitted hclear hhome.1 hnear hallow hfresh
    rw [bodyHome_lock hbody] at hexec
    refine ⟨_, hexec, rfl, ?_⟩
    intro i x w q
    cases hq : q.2.1 with
    | answer st =>
      obtain ⟨hset, hposts⟩ := lockAcquire_answers (b := b) (q := q) hcame hhome.2 rfl rfl hq
      exact ⟨hset.own, hset.others, hposts, fun h => nomatch h⟩
    | pend =>
      obtain ⟨hset, hposts, hentries⟩ := lockAcquire_pends (b := b) (q := q) hcame hhome.2 rfl rfl hfresh rfl hq
      exact ⟨hset.own, hset.others, hposts.trans (List.append_nil _).symm, fun _ => hentries⟩

/-- Settles O7: both requests run at the semaphore's home tile, where the table's decision is written, and answered or left to pend. -/
theorem semaphoreRequestsDecide : Obligations.SemaphoreRequestsDecide := by
  unfold Obligations.SemaphoreRequestsDecide
  intro s j r p sh b m hclear hhome hnear hallow hbody hfresh
  refine ⟨fun hadmitted => ?_, fun hadmitted => ?_⟩
  · obtain ⟨d, hcame, hexec⟩ := exec_cameHome (op := .semTry) (by decide) hadmitted hclear hhome.1 hnear hallow hfresh
    rw [bodyHome_semaphore hbody] at hexec
    obtain ⟨hset, hposts⟩ := semTry_decides (b := b) (m := m) hcame hhome.2 rfl
    exact ⟨_, hexec, rfl, hset.own, hset.others, hposts⟩
  · obtain ⟨d, hcame, hexec⟩ := exec_cameHome (op := .semTake) (by decide) hadmitted hclear hhome.1 hnear hallow hfresh
    rw [bodyHome_semaphore hbody] at hexec
    refine ⟨_, hexec, rfl, ?_⟩
    intro i x w q
    cases hq : q.2 with
    | answer st =>
      obtain ⟨hset, hposts⟩ := semTake_answers (b := b) (q := q) hcame hhome.2 rfl rfl hq
      exact ⟨hset.own, hset.others, hposts⟩
    | pend =>
      obtain ⟨hset, hposts, hentries⟩ := semTake_pends (b := b) (q := q) hcame hhome.2 rfl rfl hfresh rfl hq
      exact ⟨hset.own, hset.others, hposts, hentries⟩

end Sys2Proof.Machine
end

section
/-! O24: the deadline of a waiter at its lock or semaphore (R151). -/

namespace Sys2Proof.Machine

open Sys2Proof.Safety

variable {e : Env} {d d2 : Dp} {t i agent : Nat} {gang : BitVec 6} {b : Brick} {body : Body} {l : Lock} {m : Sem} {w : Waiter}

theorem noteFrame_noteGrants (handle : Dword) (evs : List QEv) : NoteFrame d (noteGrants e t b handle evs d) := by
  induction evs generalizing d with
  | nil => exact NoteFrame.refl d
  | cons v evs ih =>
    cases v with
    | hint => exact ih
    | grant w st c => exact (noteFrame_bumpP b.part 4 1).trans ((noteFrame_trace (some 3) _).trans ih)

/-- What a hod says stands in the net, once it is sent. -/
theorem mem_net_of_sendAll {outs : List Hod} {g : Hod} (hg : g ∈ outs) : ∃ x ∈ (sendAll e outs d).net, x.dst = g.dst ∧ x.body = g.body := by
  have hpost : (g.src, g.dst, g.vc, g.body) ∈ posts (sendAll e outs d).net := by
    rw [posts_sendAll]
    exact List.mem_append_right _ (List.mem_map_of_mem hg)
  obtain ⟨x, hx, heq⟩ := List.mem_map.1 hpost
  simp only [Prod.mk.injEq] at heq
  exact ⟨x, hx, heq.2.1, heq.2.2.2⟩

/-- R151. From d to d2 waiter w has left brick i, whose body is new, and its answer TIMEOUT leads the hods that leave the brick. -/
def TimedOut (e : Env) (d : Dp) (i : Nat) (w : Waiter) (b : Brick) (body : Body) (d2 : Dp) : Prop :=
  ∃ d1 course outs, NoteFrame (setBody d i b body) d1
    ∧ d2 = emit e d1 (homeOf e i) i 0 (replyHod (homeOf e i) w.joint w.entry b.part (Resp.at .timeout course) :: outs) none

section
variable (h : TimedOut e d i w b body d2)
include h

theorem TimedOut.bodySet : BodySet d i b body d2 := by
  obtain ⟨d1, course, outs, hnote, rfl⟩ := h
  exact bodySet_of_bricks ((emit_bricks ..).trans hnote.bricks)

theorem TimedOut.sent : Sent d2 (.joint w.joint) (fun c => ∃ r, c = .resp w.entry r ∧ r.status = .timeout) := by
  obtain ⟨d1, course, outs, -, rfl⟩ := h
  exact sent_of_emit (g := replyHod (homeOf e i) w.joint w.entry b.part (Resp.at .timeout course)) List.mem_cons_self ⟨_, rfl, rfl⟩ ..

theorem TimedOut.answered (hprompt : Prompt e d i) : ∃ g ∈ d2.net, ∃ r, g.dst = .joint w.joint ∧ g.body = .resp w.entry r ∧ r.status = .timeout := by
  obtain ⟨d1, course, outs, hnote, rfl⟩ := h
  obtain ⟨hcopy, hwait⟩ := (hnote.prompt (e := e) i).2 hprompt
  rw [emit_plain _ _ _ _ _ _ _ hcopy hwait]
  obtain ⟨g, hg, hdst, hsays⟩ := mem_net_of_sendAll (e := e) (d := d1)
    (List.mem_cons_self (a := replyHod (homeOf e i) w.joint w.entry b.part (Resp.at .timeout course)) (l := outs))
  exact ⟨g, hg, _, hdst, hsays, rfl⟩

end

section
variable (hb : brickOf d i = b) (hvalid : b.valid = true) (hlost : b.lost = none) (hw : b.queue.find? (fun w => w.agent == agent && w.gang == gang) = some w)
  (hrun : w.dlRun = true) (hreached : reached (tileGt e (homeOf e i)) w.dlAt = true) (hserves : tileServes e d (homeOf e i) = true)
  (hsuspended : suspended d b.part = false)
include hb hvalid hlost hw hrun hreached hserves hsuspended

/-- R151. What a lock or semaphore becomes without the waiter whose deadline has come. -/
theorem waitExpiry_expires :
    (∀ l, b.body = .lock l → TimedOut e d i w b (.lock (l.expire w).1) (waitExpiry e d i agent gang))
      ∧ (∀ m, b.body = .semaphore m → TimedOut e d i w b (.semaphore (m.expire w).1) (waitExpiry e d i agent gang)) := by
  have hnote : ∀ (body : Body) (evs : List QEv) (r : TRec), NoteFrame (setBody d i b body)
      (noteGrants e (homeOf e i) b (brickHandle e i b) evs (trace e (touchSlot (bumpT e (setBody d i b body) (homeOf e i) 21) (homeOf e i) (.brick i) true)
        (homeOf e i) (some 2) r)) := fun body evs r =>
    ((noteFrame_bumpT 21).trans (noteFrame_touchSlot (.brick i) true)).trans ((noteFrame_trace (some 2) r).trans (noteFrame_noteGrants _ evs))
  have hdue : (!(b.valid && b.lost.isNone && w.dlRun && reached (tileGt e (homeOf e i)) w.dlAt) || !tileServes e d (homeOf e i)
      || recordsNow e d b.part) = false := by simp [hvalid, hlost, hrun, hreached, hserves, recordsNow, hsuspended]
  refine ⟨fun l hl => ?_, fun m hm => ?_⟩
  · simp only [waitExpiry, hb, hw, hdue, hl, Bool.false_eq_true, if_false]
    exact ⟨_, _, _, hnote _ _ _, rfl⟩
  · simp only [waitExpiry, hb, hw, hdue, hm, Bool.false_eq_true, if_false]
    exact ⟨_, _, _, hnote _ _ _, rfl⟩

end

/-- Settles O24: the brick is a lock or a semaphore, since it has a waiter; it loses the waiter, whose answer is sent. -/
theorem waitDeadlineExpires : Obligations.WaitDeadlineExpires := by
  unfold Obligations.WaitDeadlineExpires
  intro s i agent gang b w hb hvalid hlost hw hrun hreached hserves hsuspended
  obtain ⟨hlock, hsem⟩ := waitExpiry_expires hb hvalid hlost hw hrun hreached hserves hsuspended
  refine ⟨_, rfl, rfl, fun l hl => (hlock l hl).bodySet.own, fun m hm => (hsem m hm).bodySet.own, ?_⟩
  obtain ⟨l, hl⟩ | ⟨m, hm⟩ := body_of_waiter (List.mem_of_find?_eq_some hw)
  · exact ⟨(hlock l hl).bodySet.others, (hlock l hl).sent, (hlock l hl).answered⟩
  · exact ⟨(hsem m hm).bodySet.others, (hsem m hm).sent, (hsem m hm).answered⟩

end Sys2Proof.Machine
end

section
/-! O23: an agent's departure report at a home tile (R143, R144). -/

namespace Sys2Proof.Machine

open Sys2Proof.Safety

variable {e : Env} {d d2 : Dp} {t i k agent n : Nat} {b : Brick} {l : Lock} {m : Sem} {w : Waiter} {p : BitVec 4} {is : List Nat}

/-! ### The lock or semaphore that the agent has left -/

/-- R143, R144. The lock is as it must be once the agent has left: held by another, if at all, and without a waiter of the agent. -/
structure Lock.Without (agent : Nat) (l : Lock) : Prop where
  holder : l.held = true → l.hagent ≠ agent
  waiters : ∀ w ∈ l.queue, w.agent ≠ agent

/-- R139. The effective priority plays no part in it. -/
theorem Lock.Without.eprio (h : l.Without agent) (p : BitVec 3) : Lock.Without agent { l with eprio := p } := ⟨h.holder, h.waiters⟩

/-- R134. A grant to a waiter of another agent. -/
theorem Lock.Without.take (hwaiters : ∀ v ∈ l.queue, v.agent ≠ agent) (hw : w ∈ l.queue) : (l.take w).Without agent :=
  ⟨fun _ => hwaiters w hw, fun v hv => hwaiters v (mem_of_mem_dequeue hv)⟩

/-- R134, R139. The grant loop finds no waiter of the agent, where there is none. -/
theorem Lock.Without.settle (h : l.Without agent) : l.settle.1.Without agent := by
  obtain ⟨hholder, hwaiters⟩ := id h
  rcases Bool.eq_false_or_eq_true l.held with hheld | hfree
  · rw [settle_fst_held hheld]
    exact h.eprio _
  · rcases eq_or_ne l.queue [] with hempty | hqueue
    · rwa [settle_fst_alone hfree hempty]
    · obtain ⟨w, hw⟩ := exists_topWaiter hqueue
      rw [settle_fst_grants hfree hw]
      exact (Lock.Without.take hwaiters (mem_of_topWaiter hw)).eprio _

theorem without_of_filter {q : List Waiter} : ∀ w ∈ q.filter (fun w => w.agent != agent), w.agent ≠ agent := by simp

/-- The lock without the waiters of the agent. -/
def Lock.cleared (l : Lock) (agent : Nat) : Lock := { l with queue := l.queue.filter (fun w => w.agent != agent) }

theorem depart_holder (hheld : l.held = true) (hagent : l.hagent = agent) : (l.depart agent).1 = ((l.cleared agent).drop true).settle.1 := by
  simp [Lock.depart, hheld, hagent, Lock.cleared]

theorem depart_other (h : l.held = true → l.hagent ≠ agent) : (l.depart agent).1 = (l.cleared agent).settle.1 := by
  have hother : (l.held && l.hagent == agent) = false := by simpa using h
  simp [Lock.depart, hother, Lock.cleared]

/-- R143, R144. -/
theorem depart_without (agent : Nat) (l : Lock) : (l.depart agent).1.Without agent := by
  by_cases hholder : l.held = true ∧ l.hagent = agent
  · rw [depart_holder hholder.1 hholder.2]
    exact Lock.Without.settle ⟨fun h => Bool.noConfusion h, without_of_filter⟩
  · rw [depart_other fun hheld hagent => hholder ⟨hheld, hagent⟩]
    exact Lock.Without.settle ⟨fun hheld hagent => hholder ⟨hheld, hagent⟩, without_of_filter⟩

/-- R143. A lock that its departed holder's waiters do not take over is abandoned. -/
theorem depart_abandons (hheld : l.held = true) (hagent : l.hagent = agent) (hgrants : (l.depart agent).1.grants = l.grants) :
    (l.depart agent).1.abandoned = true := by
  rw [depart_holder hheld hagent] at hgrants ⊢
  rcases eq_or_ne ((l.cleared agent).drop true).queue [] with hempty | hqueue
  · rw [settle_fst_alone rfl hempty]
    exact Bool.or_true _
  · obtain ⟨w, hw⟩ := exists_topWaiter hqueue
    rw [settle_fst_grants rfl hw] at hgrants
    have hnext : l.grants + 1 = l.grants := hgrants
    bv_omega

theorem mem_of_semLoop (h : w ∈ (Sem.loop n m).1.queue) : w ∈ m.queue := by
  induction n generalizing m with
  | zero => exact h
  | succ n ih =>
    unfold Sem.loop at h
    split at h
    · exact h
    · split at h
      · exact h
      · exact mem_of_mem_dequeue (ih h)

/-- R144. -/
theorem semDepart_waiters (hw : w ∈ (m.depart agent).1.queue) : w.agent ≠ agent := without_of_filter w (mem_of_semLoop hw)

/-! ### A brick of the tile -/

/-- R143, R144. What the departure of an agent makes of a brick. -/
def departedBrick (agent : Nat) (b : Brick) : Brick :=
  if !b.valid || b.lost.isSome then b
  else
    match b.body with
    | .lock l => if l.queue.any (fun w => w.agent == agent) || (l.held && l.hagent == agent) then { b with body := .lock (l.depart agent).1 } else b
    | .semaphore m => if m.queue.any (fun w => w.agent == agent) then { b with body := .semaphore (m.depart agent).1 } else b
    | _ => b

theorem lock_without_iff : (l.queue.any (fun w => w.agent == agent) || (l.held && l.hagent == agent)) = false ↔ l.Without agent := by
  simp only [Bool.or_eq_false_iff, List.any_eq_false, beq_iff_eq, Bool.and_eq_false_iff]
  refine ⟨fun ⟨hwaiters, hholder⟩ => ⟨fun hheld hagent => ?_, hwaiters⟩, fun ⟨hholder, hwaiters⟩ => ⟨hwaiters, ?_⟩⟩
  · simp [hheld, hagent] at hholder
  · rcases Bool.eq_false_or_eq_true l.held with hheld | hfree
    · exact .inr (by simpa using hholder hheld)
    · exact .inl hfree

/-- The agent has left the brick already, or was never there. -/
theorem departedBrick_of_lock_without (hl : b.body = .lock l) (h : l.Without agent) : departedBrick agent b = b := by
  simp only [departedBrick, hl, lock_without_iff.2 h, Bool.false_eq_true, if_false, ite_self]

theorem departedBrick_of_semaphore_without (hm : b.body = .semaphore m) (h : ∀ w ∈ m.queue, w.agent ≠ agent) : departedBrick agent b = b := by
  have hnone : m.queue.any (fun w => w.agent == agent) = false := by simpa using h
  simp only [departedBrick, hm, hnone, Bool.false_eq_true, if_false, ite_self]

theorem departedBrick_of_other (hlock : ∀ l, b.body ≠ .lock l) (hsem : ∀ m, b.body ≠ .semaphore m) : departedBrick agent b = b := by
  unfold departedBrick
  split
  · rfl
  · split
    · next l hl => exact absurd hl (hlock l)
    · next m hm => exact absurd hm (hsem m)
    · rfl

section
variable (hvalid : b.valid = true) (hlost : b.lost = none)
include hvalid hlost

theorem departedBrick_of_lock (hl : b.body = .lock l) (h : (l.queue.any (fun w => w.agent == agent) || (l.held && l.hagent == agent)) = true) :
    departedBrick agent b = { b with body := .lock (l.depart agent).1 } := by simp [departedBrick, hvalid, hlost, hl, h]

theorem departedBrick_of_semaphore (hm : b.body = .semaphore m) (h : m.queue.any (fun w => w.agent == agent) = true) :
    departedBrick agent b = { b with body := .semaphore (m.depart agent).1 } := by simp [departedBrick, hvalid, hlost, hm, h]

/-- R143. A lock keeps nothing of the agent; what the agent held is abandoned, where no waiter takes it over. -/
theorem departedBrick_lock (hl : b.body = .lock l) :
    ∃ l2, (departedBrick agent b).body = .lock l2 ∧ l2.Without agent
      ∧ (l.held = true → l.hagent = agent → l2.grants = l.grants → l2.abandoned = true) := by
  rcases Bool.eq_false_or_eq_true (l.queue.any (fun w => w.agent == agent) || (l.held && l.hagent == agent)) with htouches | hwithout
  · exact ⟨(l.depart agent).1, by rw [departedBrick_of_lock hvalid hlost hl htouches], depart_without agent l, depart_abandons⟩
  · have hl2 := lock_without_iff.1 hwithout
    exact ⟨l, by rw [departedBrick_of_lock_without hl hl2, hl], hl2, fun hheld hagent => absurd hagent (hl2.holder hheld)⟩

/-- R144. -/
theorem departedBrick_semaphore (hm : b.body = .semaphore m) :
    ∃ m2, (departedBrick agent b).body = .semaphore m2 ∧ ∀ w ∈ m2.queue, w.agent ≠ agent := by
  rcases Bool.eq_false_or_eq_true (m.queue.any (fun w => w.agent == agent)) with htouches | hwithout
  · exact ⟨(m.depart agent).1, by rw [departedBrick_of_semaphore hvalid hlost hm htouches], fun w hw => semDepart_waiters hw⟩
  · have hnone : ∀ w ∈ m.queue, w.agent ≠ agent := by simpa using hwithout
    exact ⟨m, by rw [departedBrick_of_semaphore_without hm hnone, hm], hnone⟩

end

/-- A second report of the same departure finds nothing. -/
theorem departedBrick_again (agent : Nat) (b : Brick) : departedBrick agent (departedBrick agent b) = departedBrick agent b := by
  by_cases hgone : (!b.valid || b.lost.isSome) = true
  · have hsame : departedBrick agent b = b := if_pos hgone
    rw [hsame, hsame]
  · obtain ⟨hvalid, hlost⟩ : b.valid = true ∧ b.lost = none := by simpa using hgone
    cases hbody : b.body with
    | lock l =>
      obtain ⟨l2, hl2, hwithout, -⟩ := departedBrick_lock (agent := agent) hvalid hlost hbody
      exact departedBrick_of_lock_without hl2 hwithout
    | semaphore m =>
      obtain ⟨m2, hm2, hwithout⟩ := departedBrick_semaphore (agent := agent) hvalid hlost hbody
      exact departedBrick_of_semaphore_without hm2 hwithout
    | barrier | pallet | event =>
      have hsame : departedBrick agent b = b := departedBrick_of_other (by simp [hbody]) (by simp [hbody])
      rw [hsame, hsame]

/-! ### What the report changes at its tile -/

/-- What the report does to the bricks `is` of tile t: each loses the agent, and no other brick and no fetch of the tile changes. -/
structure Departed (t agent : Nat) (is : List Nat) (d d2 : Dp) : Prop where
  bricks : ∀ k, brickOf d2 k = if k ∈ is then departedBrick agent (brickOf d k) else brickOf d k
  fetches : (tileOf d2 t).fetches = (tileOf d t).fetches

theorem Departed.refl (t agent : Nat) (d : Dp) : Departed t agent [] d d := ⟨fun _ => rfl, rfl⟩

theorem Departed.trans {d3 : Dp} {js : List Nat} (h : Departed t agent is d d2) (g : Departed t agent js d2 d3) : Departed t agent (is ++ js) d d3 := by
  refine ⟨fun k => ?_, g.fetches.trans h.fetches⟩
  rw [g.bricks, h.bricks]
  by_cases hi : k ∈ is <;> by_cases hj : k ∈ js <;> simp [hi, hj, departedBrick_again]

theorem Departed.foldl {f : Dp → Nat → Dp} (hf : ∀ d i, Departed t agent [i] d (f d i)) (is : List Nat) (d : Dp) : Departed t agent is d (is.foldl f d) := by
  induction is generalizing d with
  | nil => exact Departed.refl t agent d
  | cons i is ih => exact (hf d i).trans (ih (f d i))

theorem noteGrants_fetches (handle : Dword) (evs : List QEv) : (tileOf (noteGrants e t b handle evs d) t).fetches = (tileOf d t).fetches := by
  induction evs generalizing d with
  | nil => rfl
  | cons v evs ih =>
    cases v with
    | hint => exact ih
    | grant w st c =>
      rw [noteGrants, ih, (sameWork_trace e _ t _ _).2]
      simp [tileOf]

theorem emit_fetches (outs : List Hod) (undo : Option (Nat × Nat × BitVec 3)) : (tileOf (emit e d t i k outs undo) t).fetches = (tileOf d t).fetches := by
  obtain ⟨_, _, _, _, _, _, _, _, h⟩ := numFrame_emit (e := e) (d := d) (t := t) (i := i) (outs := outs) undo 0 k
  rw [h]
  rfl

/-- A brick that gets its body, with what is counted and noted, and the hods that leave. -/
theorem departed_of_body {body : Body} (hb : brickOf d i = b) (hbody : departedBrick agent b = { b with body := body }) (abandoned : Bool)
    (handle : Dword) (evs : List QEv) (outs : List Hod) :
    Departed t agent [i] d
      (emit e (noteGrants e t b handle evs (if abandoned then bumpT e (setBody d i b body) t 20 else setBody d i b body)) t i 0 outs none) := by
  obtain ⟨c, hcount⟩ : CountFrame (setBody d i b body) (if abandoned then bumpT e (setBody d i b body) t 20 else setBody d i b body) := by
    split
    · exact bumpT_frame ..
    · exact ⟨_, rfl⟩
  rw [hcount]
  refine ⟨fun k => ?_, ?_⟩
  · rw [brickOf_congr (emit_bricks ..), brickOf_congr (noteGrants_bricks ..)]
    refine (brickOf_setBrick d i k _).trans ?_
    simp only [List.mem_singleton]
    split
    · next hk => rw [hk, hb, hbody]
    · rfl
  · rw [emit_fetches, noteGrants_fetches]
    rfl

theorem departed_same (h : departedBrick agent (brickOf d i) = brickOf d i) : Departed t agent [i] d d := by
  refine ⟨fun k => ?_, rfl⟩
  simp only [List.mem_singleton]
  split
  · next hk => rw [hk, h]
  · rfl

/-- R143, R144. -/
theorem departBrick_departs (e : Env) (t agent : Nat) (d : Dp) (i : Nat) : Departed t agent [i] d (departBrick e t agent i d) := by
  unfold departBrick
  extract_lets b h go
  split
  · next hgone => exact departed_same (if_pos hgone)
  · next hthere =>
    obtain ⟨hvalid, hlost⟩ : b.valid = true ∧ b.lost = none := by simpa using hthere
    split
    · next l hl =>
      split
      · next htouches =>
        exact departed_of_body (body := .lock (l.depart agent).1) rfl (departedBrick_of_lock hvalid hlost hl htouches) (l.depart agent).2.2 h
          (l.depart agent).2.1 _
      · next hwithout => exact departed_same (departedBrick_of_lock_without hl (lock_without_iff.1 (by simpa using hwithout)))
    · next m hm =>
      split
      · next htouches =>
        exact departed_of_body (body := .semaphore (m.depart agent).1) rfl (departedBrick_of_semaphore hvalid hlost hm htouches) false h
          (m.depart agent).2 _
      · next hwithout => exact departed_same (departedBrick_of_semaphore_without hm (by simpa using hwithout))
    · next hlock hsem => exact departed_same (departedBrick_of_other hlock hsem)

/-- R143. The bricks of the partition at the tile, but for those whose fetch is out. -/
def reportedBricks (e : Env) (d : Dp) (t : Nat) (p : BitVec 4) : List Nat :=
  (d.bricks.filter (fun b => homeOf e b.1 == t && b.2.part == p && !(tileOf d t).fetches.any (fun f => f.index == b.1))).map Prod.fst

/-- R23, R143. The report is parked behind the operations of each fetch, and acts on the other bricks. -/
theorem takeDeparture_departs (e : Env) (d : Dp) (t agent : Nat) (p : BitVec 4) :
    (∀ k, brickOf (takeDeparture e d t agent p) k = if k ∈ reportedBricks e d t p then departedBrick agent (brickOf d k) else brickOf d k)
      ∧ (tileOf (takeDeparture e d t agent p) t).fetches = (tileOf d t).fetches.map (fun f => { f with parked := f.parked ++ [.depart agent] }) := by
  obtain ⟨hbricks, hfetches⟩ := Departed.foldl (departBrick_departs e t agent) (reportedBricks e d t p)
    (setTile d t { tileOf d t with fetches := (tileOf d t).fetches.map (fun f => { f with parked := f.parked ++ [.depart agent] }) })
  exact ⟨hbricks, hfetches.trans (by rw [tileOf_setTile])⟩

theorem tookHod_fetches (vc : VC) : (tileOf (tookHod e d t vc) t).fetches = (tileOf d t).fetches := by
  have hcount : ∀ d2 d3 : Dp, CountFrame d2 d3 → (tileOf d3 t).fetches = (tileOf d2 t).fetches := by
    rintro d2 d3 ⟨m, rfl⟩
    rfl
  unfold tookHod
  extract_lets y cyc d1
  have h1 : (tileOf d1 t).fetches = (tileOf d t).fetches := by rw [tileOf_setTile]
  cases vc with
  | rsp => exact (hcount _ _ (bumpT_frame e d1 t 6)).trans h1
  | req => exact (hcount _ _ (bumpT_frame e d1 t 7)).trans h1
  | mgmt => exact (hcount _ _ (bumpT_frame e d1 t 8)).trans h1
  | obs => exact h1

theorem tookAt_fetches {h : Hod} : (tileOf (tookAt e d n t h) t).fetches = (tileOf d t).fetches := by
  obtain ⟨m, hm⟩ := tookTrain_counted (e := e) (d := dropHod d n) (t := t) h.vc h.body.hods
  rw [tookAt, hm]
  exact tookHod_fetches h.vc

theorem mem_reportedBricks : i ∈ reportedBricks e d t p ↔
    (∃ b, (i, b) ∈ d.bricks ∧ b.part = p) ∧ homeOf e i = t ∧ (tileOf d t).fetches.any (fun f => f.index == i) = false := by
  simp only [reportedBricks, List.mem_map, List.mem_filter, Bool.and_eq_true, beq_iff_eq, Bool.not_eq_true', Prod.exists, exists_and_right, exists_eq_right]
  constructor
  · rintro ⟨b, hmem, ⟨hhome, hpart⟩, hfetch⟩
    exact ⟨⟨b, hmem, hpart⟩, hhome, hfetch⟩
  · rintro ⟨⟨b, hmem, hpart⟩, hhome, hfetch⟩
    exact ⟨b, hmem, ⟨hhome, hpart⟩, hfetch⟩

/-- Settles O23: the report acts on each brick of its partition at the tile, and is parked at each fetch. -/
theorem departureReportAbandons : Obligations.DepartureReportAbandons := by
  unfold Obligations.DepartureReportAbandons
  intro s n t agent h htakes hbody
  have hrun : exec (.departureReport n) s = .next { s with dp := takeDeparture s.env (tookAt s.env s.dp n t h) t agent h.part } := by
    refine congrArg (fun d => Host.Outcome.next { s with dp := d }) ?_
    rw [tileHod_takes htakes (by rw [hbody]; rfl), runHod, hbody]
  have htook := (noteFrame_tookAt (e := s.env) (d := s.dp) (n := n) (t := t) (h := h))
  obtain ⟨hbricks, hfetches⟩ := takeDeparture_departs s.env (tookAt s.env s.dp n t h) t agent h.part
  have hreported : reportedBricks s.env (tookAt s.env s.dp n t h) t h.part = reportedBricks s.env s.dp t h.part := by
    rw [reportedBricks, tookAt_fetches, htook.bricks]
    rfl
  simp only [hreported, htook.brickOf, brickOf_dropHod] at hbricks
  rw [tookAt_fetches] at hfetches
  refine ⟨_, hrun, rfl, fun i b hget hvalid hlost hpart hhome hfetch => ?_, fun f hf => ?_, fun i hi => ?_⟩
  · have hb : brickOf s.dp i = b := by rw [brickOf, fgetD, hget]; rfl
    have hleft := hbricks i
    rw [if_pos (mem_reportedBricks.2 ⟨⟨b, mem_of_fget hget, hpart⟩, hhome, hfetch⟩), hb] at hleft
    refine ⟨fun l hl => ?_, fun m hm => ?_⟩
    · obtain ⟨l2, hl2, ⟨hholder, hwaiters⟩, habandoned⟩ := departedBrick_lock hvalid hlost hl
      exact ⟨l2, (congrArg Brick.body hleft).trans hl2, hholder, hwaiters, habandoned⟩
    · obtain ⟨m2, hm2, hwaiters⟩ := departedBrick_semaphore hvalid hlost hm
      exact ⟨m2, (congrArg Brick.body hleft).trans hm2, hwaiters⟩
  · rw [State.withDp_dp, hfetches]
    exact List.mem_map_of_mem hf
  · refine (hbricks i).trans (if_neg fun hmem => ?_)
    obtain ⟨⟨b, hb, hpart⟩, hhome, -⟩ := mem_reportedBricks.1 hmem
    rcases hi with hnone | haway
    · exact hnone b hb hpart
    · exact haway hhome

end Sys2Proof.Machine
end
